-- ==== Sys2Proof/Word.lean ====
section
/-! DEFINITION. The word types of the Dunxa 4120 and their plainest arithmetic (spec/00_scope.md R8, R9). -/

namespace Sys2Proof

/-- A byte of addressed storage. -/
abbrev Byte := BitVec 8

/-- A 32-bit register or memory word (03 R58). -/
abbrev Word := BitVec 32

/-- A 64-bit value, held in a register pair (02 R39). -/
abbrev DWord := BitVec 64

/-- A virtual address: 57 bits (00 R1, 09 R209). -/
abbrev VAddr := BitVec 57

/-- A word with its poison bit (02 R48). -/
structure PWord where
  val : Word
  poison : Bool
deriving DecidableEq, Repr

/-- A thread register's value at residency: 0 with poison clear (02 R43). -/
def PWord.zero : PWord := ⟨0, false⟩

/-- A 64-bit value with its poison bit: the OR of the halves' (02 R39). -/
structure PDWord where
  val : DWord
  poison : Bool
deriving DecidableEq, Repr

/-- The low half of a 64-bit value: bits 31:0 (02 R39). -/
def DWord.lo (x : DWord) : Word := x.extractLsb' 0 32

/-- The high half of a 64-bit value: bits 63:32 (02 R39). -/
def DWord.hi (x : DWord) : Word := x.extractLsb' 32 32

/-- Bits [hi:lo] of a natural number, as a number. -/
def bits (hi lo n : Nat) : Nat := n / 2 ^ lo % 2 ^ (hi - lo + 1)

end Sys2Proof
end

