-- ==== Sys2Proof/Config.lean ====
section
/-! DEFINITION. What the spec leaves open: free values, constants without a body, so that no proof can see what they are. A claim
about the model holds whatever they are. A value that may differ each time is applied to a counter of State (State.fresh). -/

namespace Sys2Proof.Config

/-- The value a transcendental returns within its stated bound (13 R304: "not given in this manual"), by x6 and operand. It is a
fixed function of the operand. -/
opaque approx : Nat → Word → Word

/-- The bytes of a temporal unit (08 R203: "Which bytes that function produces is the encoder's own and is not given in this manual"), by
the entry's parameters, the luma and chroma samples and the stream state. It is a fixed function of these. -/
opaque av1Unit : List Nat → List Byte → List Byte → List Byte → List Byte

/-- What a frame leaves in its stream state after the first 16 bytes of the header: "their contents are the encoder's own" (08 R203). -/
opaque av1State : List Nat → List Byte → List Byte → List Byte → List Byte

/-- Whether a 32-byte sector that an encoder writes from a frame with poisoned samples is poisoned (unstated), by State.fresh and sector. -/
opaque av1Poison : Nat → Nat → Bool

/-- A byte that the spec leaves open, and whether its word is poisoned: target bytes of an `xgth` that ends Stale or Poisoned after its copy (R204:
"the target bytes are unspecified"), and target bytes of a copy that are source bytes too (R356, whose bound this does not keep), by State.fresh and
position. -/
opaque freeByte : Nat → Nat → Byte
opaque freePoison : Nat → Nat → Bool

/-- The silicon step of the package, which R415 names and the manual does not give. -/
opaque siliconStep : BitVec 8

/-- The modulus of the vendor's key, whose digest the mask ROM holds (R422); the manual does not give it. -/
opaque vendorKey : Nat

/-- The signature of an attestation report with the package's identity key (R426, R429), by State.fresh (its salt) and the bytes signed. -/
opaque reportSignature : Nat → List Byte → List Byte

/-- The identity certificate chain (R426), which the manual does not give. -/
opaque certChain : List Byte

end Sys2Proof.Config
end

