-- ==== Sys2Proof/Machine/Flags.lean ====
section
/-! DEFINITION. The IEEE flags of sr.flags (spec/02_registers.md R50, spec/03_values.md R69): which a result sets, and how they
gather. -/

namespace Sys2Proof

/-- The flags of R69, in the order of sr.flags [4:0]. -/
structure FpFlags where
  invalid : Bool := false
  divZero : Bool := false
  overflow : Bool := false
  underflow : Bool := false
  inexact : Bool := false
deriving DecidableEq, Repr

/-- sr.flags [4:0]: [4] invalid, [3] divide-by-zero, [2] overflow, [1] underflow, [0] inexact (02 R50). -/
def FpFlags.toBits (f : FpFlags) : BitVec 5 :=
  BitVec.ofBool f.invalid ++ BitVec.ofBool f.divZero ++ BitVec.ofBool f.overflow ++ BitVec.ofBool f.underflow ++ BitVec.ofBool f.inexact

/-- No flag. -/
def FpFlags.none : FpFlags := {}

/-- Flags are sticky: the OR of two sets (R69). -/
def FpFlags.or (a b : FpFlags) : FpFlags :=
  ⟨a.invalid || b.invalid, a.divZero || b.divZero, a.overflow || b.overflow, a.underflow || b.underflow, a.inexact || b.inexact⟩

/-- Invalid alone. -/
def FpFlags.inv (b : Bool) : FpFlags := { invalid := b }

end Sys2Proof
end

