-- ==== Sys2Proof/Machine/Map.lean ====
section
/-! DEFINITION. Sparse maps from natural numbers, in one canonical form: keys strictly rising, so that equal maps are equal lists.
They hold indexed state (registers, records by number, tables). -/

namespace Sys2Proof

/-- A sparse map: pairs of a key and a value, keys strictly rising. -/
abbrev NMap (α : Type) := List (Nat × α)

namespace NMap

/-- The value at a key, if listed. -/
def find (k : Nat) : NMap α → Option α
  | [] => none
  | (j, v) :: m => if j = k then some v else find k m

/-- The value at a key, or d. -/
def getD (m : NMap α) (k : Nat) (d : α) : α := (find k m).getD d

/-- Put a value at a key, keeping the keys strictly rising. -/
def insert (k : Nat) (v : α) : NMap α → NMap α
  | [] => [(k, v)]
  | (j, u) :: m => if k < j then (k, v) :: (j, u) :: m else if j = k then (k, v) :: m else (j, u) :: insert k v m

/-- Remove a key. -/
def erase (k : Nat) : NMap α → NMap α
  | [] => []
  | (j, u) :: m => if j = k then erase k m else (j, u) :: erase k m

/-- Put a value at a key; the default value d is not listed. -/
def put [DecidableEq α] (m : NMap α) (k : Nat) (v d : α) : NMap α := if v = d then erase k m else insert k v m

/-- Change the value at a key, if listed. -/
def adjust (k : Nat) (f : α → α) : NMap α → NMap α
  | [] => []
  | (j, u) :: m => if j = k then (j, f u) :: m else (j, u) :: adjust k f m

/-- Change the value at a key whose default is d. -/
def alter [DecidableEq α] (m : NMap α) (k : Nat) (f : α → α) (d : α) : NMap α := m.put k (f (m.getD k d)) d

/-- The canonical form: keys strictly rising. -/
def wf : NMap α → Bool
  | [] => true
  | [_] => true
  | (j, _) :: (k, v) :: m => j < k && wf ((k, v) :: m)

/-- The values, in key order. -/
def vals (m : NMap α) : List α := m.map (·.2)

/-- A key not in use: one above the largest. -/
def fresh : NMap α → Nat
  | [] => 0
  | [(j, _)] => j + 1
  | _ :: m => fresh m

end NMap

end Sys2Proof
end

