-- ==== Sys2Proof/Syntax.lean ====
section
/-! DEFINITION. The syntax of Zhevsen (spec/12_encoding.md R270 to R279) and the events of the package
(spec/95_what_each_step_holds.md): one constructor of Instr per row of spec/opcode_table.json. A word row carries the fields
the table gives it, under the table's own names (e is the run-end bit E). An event row has no encoding: it carries the place
where it takes place, or, for what the outside world brings, the data brought. -/

namespace Sys2Proof

/-- A chunk in transit between packages: its launch record (16 double words) with its address, its context, its work-group ids, the level
of the distributor it is bound for (0 the rack command queue, for a `spawn`; 1 tray, 2 package), its launch's number at the rack root (07 R153,
R154, R160, R162), the placement hashes that its work-groups carry (01 R15), and of a `spawn` the spawning bough and the package and contract
whose job it is part of (07 R162, R171). A record for the rack command queue has its reserved index as launch. -/
structure GivenChunk where
  record : List (BitVec 64)
  addr : Nat
  ctx : Nat
  ids : List Nat
  level : Nat
  launch : Nat
  hashes : List (Nat × BitVec 16)
  within : Option Nat
  owner : Option (Nat × Nat)
deriving DecidableEq, Repr

/-- What one package of the rack says to another over Stolil (08 R193, R204, R205; 15 R358, R359; 07 R153, R160, R163, R181; 19 R430,
R431). `src` is the package that posted the command and `tag` its command's number there; a write of bytes or words carries the
poison of each, and the kind and class of the page that named it; a physical address with bit 51 set is on-chip (04 R105). -/
inductive Msg where
  | write (src tag pa kind : Nat) (mirror : Bool) (data : List (Byte × Bool)) (sync : Option (Nat × Nat))
  | ack (src tag status : Nat)
  | readReq (src tag pa n : Nat) (mirror : Bool)
  | readReply (tag : Nat) (data : List (Byte × Bool)) (status : Nat)
  | arrival (src tag core off amount : Nat)
  | chunk (src tag group rank dst n op off : Nat) (data : List PWord)
  | broken (src tag group rank dst n : Nat)
  | reduce (src tag pa kind : Nat) (mirror : Bool) (op : Nat) (data : List PWord) (sync : Option (Nat × Nat))
  | work (c : GivenChunk)
  | stealAsk (thief count : Nat)
  | stealNone
  | jobCount (pkg contract : Nat) (more : Bool)
  | reserve
  | reserved (index : Option Nat)
  | partDone (launch count : Nat) (failed : Bool)
  | contextCommand (src : Nat) (w : BitVec 64) (td ts area length : Nat)
  | commandDone (status : Nat)
  | heartbeat
  | logRecord (n : Nat)
  | logAck (n : Nat)
  | epoch (n : Nat)
deriving DecidableEq, Repr

/-- A flit: the packages it comes from and is for, its channel (relaxed or ordered), its sequence number on that channel between the two
(0 across trays), and what it carries (08 R193, R194, R196). -/
structure Flit where
  source : Nat
  target : Nat
  relaxed : Bool
  seq : Nat
  msg : Msg
deriving DecidableEq, Repr

/-- An Ethernet frame of an uplink: header fields and the flits it carries (19 R420). -/
structure Frame where
  source : Nat
  target : Nat
  relaxed : Bool
  flits : List Flit
deriving DecidableEq, Repr

/-- One constructor per row of spec/opcode_table.json, in its order. -/
inductive Instr where
  | add (e : Bool) (d : BitVec 7) (a : BitVec 7) (b : BitVec 7) (u : Bool)
  | sub (e : Bool) (d : BitVec 7) (a : BitVec 7) (b : BitVec 7) (u : Bool)
  | addc (e : Bool) (d : BitVec 7) (a : BitVec 7) (b : BitVec 7) (u : Bool)
  | subb (e : Bool) (d : BitVec 7) (a : BitVec 7) (b : BitVec 7) (u : Bool)
  | addi (e : Bool) (d : BitVec 7) (a : BitVec 7) (i : BitVec 10)
  | mul (e : Bool) (d : BitVec 7) (a : BitVec 7) (b : BitVec 7) (u : Bool)
  | mulhI32 (e : Bool) (d : BitVec 7) (a : BitVec 7) (b : BitVec 7) (u : Bool)
  | mulhN32 (e : Bool) (d : BitVec 7) (a : BitVec 7) (b : BitVec 7) (u : Bool)
  | mad (e : Bool) (d : BitVec 7) (a : BitVec 7) (b : BitVec 7) (u : Bool)
  | minI32 (e : Bool) (d : BitVec 7) (a : BitVec 7) (b : BitVec 7) (u : Bool)
  | minN32 (e : Bool) (d : BitVec 7) (a : BitVec 7) (b : BitVec 7) (u : Bool)
  | maxI32 (e : Bool) (d : BitVec 7) (a : BitVec 7) (b : BitVec 7) (u : Bool)
  | maxN32 (e : Bool) (d : BitVec 7) (a : BitVec 7) (b : BitVec 7) (u : Bool)
  | and (e : Bool) (d : BitVec 7) (a : BitVec 7) (b : BitVec 7) (u : Bool)
  | or (e : Bool) (d : BitVec 7) (a : BitVec 7) (b : BitVec 7) (u : Bool)
  | xor (e : Bool) (d : BitVec 7) (a : BitVec 7) (b : BitVec 7) (u : Bool)
  | shlReg (e : Bool) (d : BitVec 7) (a : BitVec 7) (b : BitVec 7) (u : Bool)
  | shrReg (e : Bool) (d : BitVec 7) (a : BitVec 7) (b : BitVec 7) (u : Bool)
  | sarReg (e : Bool) (d : BitVec 7) (a : BitVec 7) (b : BitVec 7) (u : Bool)
  | rolReg (e : Bool) (d : BitVec 7) (a : BitVec 7) (b : BitVec 7) (u : Bool)
  | shlImm (e : Bool) (d : BitVec 7) (a : BitVec 7) (c : BitVec 5)
  | shrImm (e : Bool) (d : BitVec 7) (a : BitVec 7) (c : BitVec 5)
  | sarImm (e : Bool) (d : BitVec 7) (a : BitVec 7) (c : BitVec 5)
  | rolImm (e : Bool) (d : BitVec 7) (a : BitVec 7) (c : BitVec 5)
  | abs (e : Bool) (d : BitVec 7) (a : BitVec 7) (l : BitVec 4)
  | neg (e : Bool) (d : BitVec 7) (a : BitVec 7) (l : BitVec 4)
  | clz (e : Bool) (d : BitVec 7) (a : BitVec 7) (l : BitVec 4)
  | popc (e : Bool) (d : BitVec 7) (a : BitVec 7) (l : BitVec 4)
  | brev (e : Bool) (d : BitVec 7) (a : BitVec 7) (l : BitVec 4)
  | mov (e : Bool) (d : BitVec 7) (a : BitVec 7) (l : BitVec 4)
  | pk8 (e : Bool) (d : BitVec 7) (a : BitVec 7) (l : BitVec 4) (k : BitVec 2)
  | upk8N (e : Bool) (d : BitVec 7) (a : BitVec 7) (l : BitVec 4) (k : BitVec 2)
  | upk8I (e : Bool) (d : BitVec 7) (a : BitVec 7) (l : BitVec 4) (k : BitVec 2)
  | pk4 (e : Bool) (d : BitVec 7) (a : BitVec 7) (l : BitVec 4) (k : BitVec 3)
  | upk4N (e : Bool) (d : BitVec 7) (a : BitVec 7) (l : BitVec 4) (k : BitVec 3)
  | upk4I (e : Bool) (d : BitVec 7) (a : BitVec 7) (l : BitVec 4) (k : BitVec 3)
  | bfx (e : Bool) (d : BitVec 7) (a : BitVec 7) (b : BitVec 7) (u : Bool)
  | bfxs (e : Bool) (d : BitVec 7) (a : BitVec 7) (b : BitVec 7) (u : Bool)
  | bfi (e : Bool) (d : BitVec 7) (a : BitVec 7) (b : BitVec 7) (u : Bool)
  | bfx64 (e : Bool) (d : BitVec 7) (a : BitVec 7) (b : BitVec 7) (u : Bool)
  | bfxs64 (e : Bool) (d : BitVec 7) (a : BitVec 7) (b : BitVec 7) (u : Bool)
  | bfi64 (e : Bool) (d : BitVec 7) (a : BitVec 7) (b : BitVec 7) (u : Bool)
  | sel (e : Bool) (d : BitVec 7) (a : BitVec 7) (b : BitVec 7) (p : BitVec 3)
  | cmp (e : Bool) (c : BitVec 4) (p : BitVec 3) (a : BitVec 7) (b : BitVec 7) (u : Bool) (f : Bool)
  | movi (e : Bool) (d : BitVec 7) (i : BitVec 17)
  | movh (e : Bool) (d : BitVec 7) (i : BitVec 17)
  | add64 (e : Bool) (d : BitVec 7) (a : BitVec 7) (b : BitVec 7) (u : Bool)
  | sub64 (e : Bool) (d : BitVec 7) (a : BitVec 7) (b : BitVec 7) (u : Bool)
  | mul64 (e : Bool) (d : BitVec 7) (a : BitVec 7) (b : BitVec 7) (u : Bool)
  | mad64 (e : Bool) (d : BitVec 7) (a : BitVec 7) (b : BitVec 7) (u : Bool)
  | shl64 (e : Bool) (d : BitVec 7) (a : BitVec 7) (b : BitVec 7) (u : Bool)
  | shr64 (e : Bool) (d : BitVec 7) (a : BitVec 7) (b : BitVec 7) (u : Bool)
  | sar64 (e : Bool) (d : BitVec 7) (a : BitVec 7) (b : BitVec 7) (u : Bool)
  | min64I64 (e : Bool) (d : BitVec 7) (a : BitVec 7) (b : BitVec 7) (u : Bool)
  | min64N64 (e : Bool) (d : BitVec 7) (a : BitVec 7) (b : BitVec 7) (u : Bool)
  | max64I64 (e : Bool) (d : BitVec 7) (a : BitVec 7) (b : BitVec 7) (u : Bool)
  | max64N64 (e : Bool) (d : BitVec 7) (a : BitVec 7) (b : BitVec 7) (u : Bool)
  | mulh64I64 (e : Bool) (d : BitVec 7) (a : BitVec 7) (b : BitVec 7) (u : Bool)
  | mulh64N64 (e : Bool) (d : BitVec 7) (a : BitVec 7) (b : BitVec 7) (u : Bool)
  | cmp64 (e : Bool) (c : BitVec 4) (p : BitVec 3) (a : BitVec 7) (b : BitVec 7) (u : Bool) (f : Bool)
  | fadd (e : Bool) (d : BitVec 7) (a : BitVec 7) (b : BitVec 7) (u : Bool) (r : BitVec 2)
  | fsub (e : Bool) (d : BitVec 7) (a : BitVec 7) (b : BitVec 7) (u : Bool) (r : BitVec 2)
  | fmul (e : Bool) (d : BitVec 7) (a : BitVec 7) (b : BitVec 7) (u : Bool) (r : BitVec 2)
  | ffma (e : Bool) (d : BitVec 7) (a : BitVec 7) (b : BitVec 7) (u : Bool) (r : BitVec 2)
  | fmin (e : Bool) (d : BitVec 7) (a : BitVec 7) (b : BitVec 7) (u : Bool)
  | fmax (e : Bool) (d : BitVec 7) (a : BitVec 7) (b : BitVec 7) (u : Bool)
  | hmax2 (e : Bool) (d : BitVec 7) (a : BitVec 7) (b : BitVec 7) (u : Bool) (t : Bool)
  | fcmp (e : Bool) (c : BitVec 4) (p : BitVec 3) (a : BitVec 7) (b : BitVec 7) (u : Bool)
  | frcp (e : Bool) (d : BitVec 7) (a : BitVec 7) (l : BitVec 4)
  | frsq (e : Bool) (d : BitVec 7) (a : BitVec 7) (l : BitVec 4)
  | fsqrt (e : Bool) (d : BitVec 7) (a : BitVec 7) (l : BitVec 4)
  | fex2 (e : Bool) (d : BitVec 7) (a : BitVec 7) (l : BitVec 4)
  | flg2 (e : Bool) (d : BitVec 7) (a : BitVec 7) (l : BitVec 4)
  | fsin (e : Bool) (d : BitVec 7) (a : BitVec 7) (l : BitVec 4)
  | fcos (e : Bool) (d : BitVec 7) (a : BitVec 7) (l : BitVec 4)
  | ftanh (e : Bool) (d : BitVec 7) (a : BitVec 7) (l : BitVec 4)
  | frnd (e : Bool) (d : BitVec 7) (a : BitVec 7) (l : BitVec 4) (r : BitVec 2)
  | fcvt (e : Bool) (d : BitVec 7) (a : BitVec 7) (t : BitVec 4) (s : BitVec 4) (r : BitVec 2)
  | fcvtSat (e : Bool) (d : BitVec 7) (a : BitVec 7) (t : BitVec 4) (s : BitVec 4) (r : BitVec 2)
  | hadd2 (e : Bool) (d : BitVec 7) (a : BitVec 7) (b : BitVec 7) (u : Bool) (t : Bool)
  | hmul2 (e : Bool) (d : BitVec 7) (a : BitVec 7) (b : BitVec 7) (u : Bool) (t : Bool)
  | hfma2 (e : Bool) (d : BitVec 7) (a : BitVec 7) (b : BitVec 7) (u : Bool) (t : Bool)
  | hmin2 (e : Bool) (d : BitVec 7) (a : BitVec 7) (b : BitVec 7) (u : Bool) (t : Bool)
  | dot4 (e : Bool) (d : BitVec 7) (a : BitVec 7) (b : BitVec 7) (u : Bool)
  | dot8 (e : Bool) (d : BitVec 7) (a : BitVec 7) (b : BitVec 7) (u : Bool)
  | dotm4 (e : Bool) (d : BitVec 7) (a : BitVec 7) (b : BitVec 7) (u : Bool)
  | dotm8 (e : Bool) (d : BitVec 7) (a : BitVec 7) (b : BitVec 7) (u : Bool) (f : BitVec 2)
  | sclb (e : Bool) (d : BitVec 7) (a : BitVec 7) (b : BitVec 7) (u : Bool) (k : BitVec 2)
  | shfl (e : Bool) (d : BitVec 7) (a : BitVec 7) (b : BitVec 7) (u : Bool) (f : BitVec 2)
  | voteBallot (e : Bool) (d : BitVec 7) (n : Bool) (s : BitVec 3)
  | voteAll (e : Bool) (d : BitVec 7) (n : Bool) (s : BitVec 3) (q : BitVec 3)
  | voteAny (e : Bool) (d : BitVec 7) (n : Bool) (s : BitVec 3) (q : BitVec 3)
  | voteEq (e : Bool) (d : BitVec 7) (n : Bool) (s : BitVec 3) (q : BitVec 3)
  | lred (e : Bool) (d : BitVec 7) (a : BitVec 7) (l : BitVec 4) (o : BitVec 4)
  | lscan (e : Bool) (d : BitVec 7) (a : BitVec 7) (l : BitVec 4) (x : Bool) (o : BitVec 4)
  | matchW (e : Bool) (d : BitVec 7) (a : BitVec 7)
  | match64 (e : Bool) (d : BitVec 7) (a : BitVec 7)
  | fmtv (e : Bool) (d : BitVec 7) (a : BitVec 7)
  | cvg (e : Bool) (d : BitVec 7)
  | pand (e : Bool) (d : BitVec 3) (n : Bool) (a : BitVec 3) (m : Bool) (b : BitVec 3)
  | por (e : Bool) (d : BitVec 3) (n : Bool) (a : BitVec 3) (m : Bool) (b : BitVec 3)
  | pxor (e : Bool) (d : BitVec 3) (n : Bool) (a : BitVec 3) (m : Bool) (b : BitVec 3)
  | pnot (e : Bool) (d : BitVec 3) (n : Bool) (a : BitVec 3)
  | bra (e : Bool) (p : BitVec 3) (n : Bool) (o : BitVec 20)
  | brp (e : Bool) (p : BitVec 3) (n : Bool) (o : BitVec 20)
  | call (e : Bool) (d : BitVec 7) (i : BitVec 17)
  | ret (e : Bool) (a : BitVec 7)
  | jmp (e : Bool) (a : BitVec 7)
  | exit (e : Bool)
  | nop (e : Bool)
  | rep (e : Bool) (c : BitVec 6) (x : Bool) (y : Bool) (z : Bool) (s : BitVec 2)
  | rsr (e : Bool) (d : BitVec 7) (i : BitVec 10)
  | wbase (e : Bool) (a : BitVec 7) (i : BitVec 10)
  | ldG (e : Bool) (d : BitVec 7) (a : BitVec 7) (l : BitVec 4) (s : BitVec 3) (h : BitVec 2)
  | ldC (e : Bool) (d : BitVec 7) (a : BitVec 7) (l : BitVec 4) (s : BitVec 3) (h : BitVec 2)
  | ldS (e : Bool) (d : BitVec 7) (a : BitVec 7) (l : BitVec 4) (s : BitVec 3)
  | ldX (e : Bool) (d : BitVec 7) (a : BitVec 7) (l : BitVec 4) (s : BitVec 3)
  | ldAcq (e : Bool) (d : BitVec 7) (a : BitVec 7) (l : BitVec 4) (s : BitVec 3) (c : BitVec 3)
  | stG (e : Bool) (d : BitVec 7) (a : BitVec 7) (s : BitVec 3) (h : BitVec 2)
  | stS (e : Bool) (d : BitVec 7) (a : BitVec 7) (s : BitVec 3)
  | stRel (e : Bool) (d : BitVec 7) (a : BitVec 7) (s : BitVec 3) (c : BitVec 3)
  | stX (e : Bool) (d : BitVec 7) (a : BitVec 7) (b : BitVec 7) (f : BitVec 2)
  | gft (e : Bool) (d : BitVec 7) (a : BitVec 7) (b : BitVec 7) (f : BitVec 2)
  | fence (e : Bool) (c : BitVec 3)
  | fenceRel (e : Bool) (c : BitVec 3)
  | fenceAcq (e : Bool) (c : BitVec 3)
  | cflush (e : Bool) (a : BitVec 7)
  | cdemote (e : Bool) (a : BitVec 7)
  | cpref (e : Bool) (a : BitVec 7) (h : BitVec 2)
  | bld (e : Bool) (y : BitVec 7) (m : BitVec 7)
  | bsel (e : Bool) (g : BitVec 4) (m : BitVec 7)
  | mma (e : Bool) (t : BitVec 6) (y : BitVec 7) (m : BitVec 7) (l : BitVec 4)
  | mmaz (e : Bool) (t : BitVec 6) (y : BitVec 7) (m : BitVec 7) (l : BitVec 4)
  | acz (e : Bool) (t : BitVec 6)
  | acld (e : Bool) (t : BitVec 6) (y : BitVec 7)
  | acst (e : Bool) (t : BitVec 6) (y : BitVec 7) (m : BitVec 7)
  | acrd (e : Bool) (d : BitVec 7) (a : BitVec 7) (l : BitVec 4) (t : BitVec 6)
  | acwr (e : Bool) (d : BitVec 7) (a : BitVec 7) (t : BitVec 6)
  | acscl (e : Bool) (d : BitVec 7) (t : BitVec 6)
  | atmAdd (e : Bool) (d : BitVec 7) (a : BitVec 7) (b : BitVec 7) (w : Bool) (s : Bool)
  | redAdd (e : Bool) (a : BitVec 7) (b : BitVec 7) (w : Bool) (s : Bool)
  | atmImin (e : Bool) (d : BitVec 7) (a : BitVec 7) (b : BitVec 7) (w : Bool) (s : Bool)
  | redImin (e : Bool) (a : BitVec 7) (b : BitVec 7) (w : Bool) (s : Bool)
  | atmNmin (e : Bool) (d : BitVec 7) (a : BitVec 7) (b : BitVec 7) (w : Bool) (s : Bool)
  | redNmin (e : Bool) (a : BitVec 7) (b : BitVec 7) (w : Bool) (s : Bool)
  | atmImax (e : Bool) (d : BitVec 7) (a : BitVec 7) (b : BitVec 7) (w : Bool) (s : Bool)
  | redImax (e : Bool) (a : BitVec 7) (b : BitVec 7) (w : Bool) (s : Bool)
  | atmNmax (e : Bool) (d : BitVec 7) (a : BitVec 7) (b : BitVec 7) (w : Bool) (s : Bool)
  | redNmax (e : Bool) (a : BitVec 7) (b : BitVec 7) (w : Bool) (s : Bool)
  | atmAnd (e : Bool) (d : BitVec 7) (a : BitVec 7) (b : BitVec 7) (w : Bool) (s : Bool)
  | redAnd (e : Bool) (a : BitVec 7) (b : BitVec 7) (w : Bool) (s : Bool)
  | atmOr (e : Bool) (d : BitVec 7) (a : BitVec 7) (b : BitVec 7) (w : Bool) (s : Bool)
  | redOr (e : Bool) (a : BitVec 7) (b : BitVec 7) (w : Bool) (s : Bool)
  | atmXor (e : Bool) (d : BitVec 7) (a : BitVec 7) (b : BitVec 7) (w : Bool) (s : Bool)
  | redXor (e : Bool) (a : BitVec 7) (b : BitVec 7) (w : Bool) (s : Bool)
  | atmXchg (e : Bool) (d : BitVec 7) (a : BitVec 7) (b : BitVec 7) (w : Bool) (s : Bool)
  | atmCas (e : Bool) (d : BitVec 7) (a : BitVec 7) (b : BitVec 7) (w : Bool) (s : Bool)
  | atmFaddG (e : Bool) (d : BitVec 7) (a : BitVec 7) (b : BitVec 7) (t : BitVec 2)
  | redFaddG (e : Bool) (a : BitVec 7) (b : BitVec 7) (t : BitVec 2)
  | atmFaddS (e : Bool) (d : BitVec 7) (a : BitVec 7) (b : BitVec 7) (t : BitVec 2)
  | redFaddS (e : Bool) (a : BitVec 7) (b : BitVec 7) (t : BitVec 2)
  | xcp (e : Bool) (a : BitVec 7)
  | xget (e : Bool) (a : BitVec 7)
  | xput (e : Bool) (a : BitVec 7)
  | xputRel (e : Bool) (a : BitVec 7)
  | xred (e : Bool) (a : BitVec 7)
  | xsig (e : Bool) (a : BitVec 7)
  | xgth (e : Bool) (a : BitVec 7)
  | xrsc (e : Bool) (a : BitVec 7)
  | chap (e : Bool) (a : BitVec 7) (b : BitVec 7)
  | wcnt (e : Bool) (c : BitVec 2) (k : BitVec 6)
  | syarm (e : Bool) (a : BitVec 7) (b : BitVec 7)
  | syadd (e : Bool) (a : BitVec 7) (b : BitVec 7)
  | sywait (e : Bool) (a : BitVec 7) (b : BitVec 7)
  | barWg (e : Bool)
  | barGang (e : Bool)
  | barX (e : Bool)
  | mon (e : Bool) (a : BitVec 7)
  | mwait (e : Bool) (a : BitVec 7)
  | ropen (e : Bool) (a : BitVec 7) (b : BitVec 7)
  | rclose (e : Bool)
  | rdepth (e : Bool) (d : BitVec 7)
  | rkeepG (e : Bool) (a : BitVec 7) (b : BitVec 7)
  | rkeepS (e : Bool) (a : BitVec 7) (b : BitVec 7)
  | trap (e : Bool) (a : BitVec 7)
  | eretResume (e : Bool)
  | eretRetry (e : Bool)
  | eretEscalate (e : Bool)
  | eretKill (e : Bool)
  | segw (e : Bool) (a : BitVec 7) (s : BitVec 4)
  | segr (e : Bool) (d : BitVec 7) (s : BitVec 4)
  | wsr (e : Bool) (a : BitVec 7) (i : BitVec 10)
  | tlbiVa (e : Bool) (a : BitVec 7) (b : BitVec 7)
  | tlbiCtx (e : Bool) (b : BitVec 7)
  | tlbiAll (e : Bool)
  | yield (e : Bool)
  | spawn (e : Bool) (a : BitVec 7)
  | warpChoice (core : Nat) (slot : Nat)
  | cut (core : Nat) (slot : Nat)
  | loadValueArrival (core : Nat) (flight : Nat)
  | stXApply (core : Nat)
  | exchangePolaritySwap (gang : Nat)
  | siblingStop (core : Nat) (slot : Nat) (warp : Nat)
  | mwaitWake (core : Nat) (slot : Nat) (warp : Nat)
  | monitorTimeout (core : Nat) (slot : Nat) (warp : Nat)
  | laneFailure (core : Nat) (slot : Nat) (lane : Nat)
  | spareLaneSwitch (core : Nat) (slot : Nat) (warp : Nat)
  | ringRollback (core : Nat) (slot : Nat) (warp : Nat)
  | impreciseStoreFault (core : Nat)
  | homeTimeout (die : Nat) (pa : Nat)
  | l1Fill (core : Nat) (line : Nat)
  | sliceWriteArrival (port : Nat)
  | writeQueueApply (slice : Nat)
  | gatherMerge (line : Nat)
  | sharerUpdate (core : Nat) (upd : Nat)
  | graftFill (core : Nat) (upd : Nat)
  | writerAcknowledge (upd : Nat)
  | evictionNotice (core : Nat) (line : Nat)
  | sliceFill (line : Nat) (corrected : Nat) (uncorrectable : Nat)
  | partialSectorMerge (line : Nat) (sector : Nat) (ecc : Nat)
  | sliceVictimEviction (slice : Nat) (set : Nat)
  | refreshDue (pc : Nat) (bank : Nat)
  | forcedAllBankRefresh (pc : Nat)
  | postponedRefreshDrain (pc : Nat) (bank : Nat)
  | refreshEnd (pc : Nat) (bank : Nat)
  | pinRepairDue (stack : Nat) (pin : Nat)
  | pinRepairPauseEnd (stack : Nat) (group : Nat)
  | pageWalk (die : Nat) (asid : Nat) (va : Nat)
  | syncWordArrival (core : Nat)
  | copyCommandTake (die : Nat) (engine : Nat)
  | engineLineWrite (die : Nat) (engine : Nat)
  | commandRetire (core : Nat) (serial : Nat)
  | xputRelRelease (die : Nat) (engine : Nat)
  | xgthVersionRecheck (die : Nat) (engine : Nat)
  | xrscChunkArrival (group : Nat) (rank : Nat) (chunk : Nat)
  | columnHeadReduction (group : Nat) (rank : Nat)
  | remoteWriteAck (source : Nat)
  | flitReceive (port : Nat) (crcOk : Bool) (flit : Flit)
  | creditReturn (port : Nat) (chan : Nat) (resent : Nat)
  | relayForward (port : Nat) (chan : Nat)
  | linkFailure (port : Nat)
  | orderedDetourSwitch (target : Nat)
  | ethernetFrameReceive (uplink : Nat) (seq : Nat) (ack : Nat) (fcsOk : Bool) (frame : Frame)
  | ethernetFrameResend (uplink : Nat) (peer : Nat) (seq : Nat)
  | matrixCommandStart (core : Nat)
  | macroExchange (core : Nat) (mac : Nat)
  | matrixCommandComplete (core : Nat)
  | chainEntryStart (slot : Nat)
  | chainEntryComplete (slot : Nat)
  | encodeFrameComplete (slot : Nat)
  | chainSlotArm (slot : Nat) (w : BitVec 64)
  | chainSlotDisarm (slot : Nat) (w : BitVec 64)
  | launchRecordTake (source : Nat)
  | workGroupRoute (level : Nat) (index : Nat)
  | chunkPassDown (level : Nat) (index : Nat)
  | workGroupPlacement (die : Nat)
  | workGroupResidency (core : Nat)
  | packageSteal (victim : Nat) (given : List GivenChunk)
  | dieSteal (die : Nat)
  | stealRequest (thief : Nat) (count : Nat)
  | warpComplete (core : Nat) (slot : Nat) (warp : Nat)
  | prunerTrigger (core : Nat)
  | prunerMoveStep (core : Nat)
  | contractRelease (contract : Nat)
  | deadlineMiss (contract : Nat)
  | budgetOverrun (contract : Nat)
  | contractAdmission
  | frequencyStepRequest (die : Nat) (code : Nat)
  | frequencyStepEffect (die : Nat) (stall : Nat)
  | clockCrossingStallEnd (die : Nat)
  | contextPreempt (w : BitVec 64)
  | drainLimitExpiry (ctx : Nat)
  | warpSnapshot (core : Nat) (slot : Nat) (warp : Nat)
  | workGroupSave (wg : Nat)
  | snapshotLimitExpiry (ctx : Nat)
  | contextResume (w : BitVec 64)
  | workGroupRestore (wg : Nat)
  | contextReset (w : BitVec 64)
  | contextRelease (w : BitVec 64)
  | contractRemove (w : BitVec 64)
  | mapOutCore (core : Nat)
  | mapOutCDie (die : Nat)
  | mapOutStack (stack : Nat)
  | mapOutPseudoChannel (pc : Nat)
  | pseudoChannelDropCopyEnd (pc : Nat) (failed : List Nat)
  | mapOutDieLink (link : Nat)
  | mapOutStolilPort (port : Nat)
  | rackQueueReserve
  | rackQueuePublish (index : Nat)
  | walkAnswer (tag : Nat) (w8 : BitVec 64) (w16 : BitVec 64)
  | stealAnswer (tag : Nat) (victim : Nat) (count : Nat)
  | admissionAnswer (tag : Nat) (status : Nat) (places : List (Nat × Nat × Nat))
  | pruneAnswer (tag : Nat) (moves : List (Nat × Nat × Nat))
  | trapAnswer (tag : Nat) (w8 : BitVec 64) (w16 : BitVec 64)
  | dramRepairAnswer (tag : Nat) (w8 : BitVec 64)
  | dieLinkHold (link : Nat)
  | holdDrainComplete (link : Nat)
  | dieLinkRelease (link : Nat)
  | dieLinkTrain (link : Nat) (narrow : Bool)
  | trainingEnd (link : Nat) (bad : List (Nat × Nat × Nat))
  | laneRepair (link : Nat) (w : BitVec 32)
  | laneRepairComplete (link : Nat)
  | linkRetrainTrigger (link : Nat)
  | stolilPortRetrain (port : Nat) (ok : Bool)
  | mailboxAttest
  | mailboxWriteRecord
  | mailboxReadCertChain
  | mailboxCommandComplete
  | counterClear (offset : Nat)
  | configRegisterWrite (offset : Nat) (size : Nat) (v : BitVec 64)
  | powerGood (slotId : Nat) (c0Failed : Bool) (stack0Failed : Bool)
  | stage1Reached (diesFailed : Nat) (linksFailed : Nat)
  | stage2Reached (stacksFailed : Nat) (portsFailed : Nat) (portsMismatched : Nat)
  | heartbeatSend
  | heartbeatTimeout
  | epochAdvance (epoch : Nat)
  | fabricConfigWrite (epoch : Nat) (offset : Nat) (size : Nat) (v : BitVec 64)
  | logRecordShip (record : Nat)
  | logRecordAck (record : Nat)
  | hostPostedWrite (offset : Nat) (data : List Byte)
  | hostRead (offset : Nat) (size : Nat)
  | instructionCacheFill (core : Nat) (asid : Nat) (line : Nat)
  | dieLinkFlitReceive (link : Nat) (dir : Nat) (crcOk : Bool) (modul : Nat) (lane : Nat)
deriving DecidableEq, Repr

end Sys2Proof
end

