-- ==== Sys2Proof/Machine/State.lean ====
section
/-! DEFINITION. The machine's state, as plain data: every piece of state the spec gives the package, and the model's own
scheduling fields. INVENTORY.md lists each field with its rule and its reset value. -/

namespace Sys2Proof.Machine

/-! Threads, warps and slots (spec/01, 02, 11). -/

/-- The destination of a lookahead commit, fixed at issue (R51): range-relative thread registers, scalar registers, a tile of the
core's accumulator store, or nothing (vz). -/
inductive Dest where
  | v (reg count : Nat)
  | s (reg count : Nat)
  | tile (t : Nat)
  | discard
deriving DecidableEq, Repr

/-- The replay record of a load in flight (R53, R266): where the load stands and its effective virtual address. -/
structure Replay where
  pc : VAddr
  rep : Nat
  va : VAddr
deriving DecidableEq, Repr

/-- A pending lookahead commit (R51): the destination, the countdown, the arrived words (none while the operation is in flight),
the flags that change with it (R70), and the load to replay after a restore. `op` names the operation in flight. -/
structure Commit where
  dest : Dest
  countdown : Nat
  value : Option (List PWord)
  flags : BitVec 5
  load : Option Replay
  op : Option Nat
deriving DecidableEq, Repr

/-- A lane parked at an instruction (R27, R352, R368): the instruction, and the member mask it presented with its poison. -/
structure Park where
  instr : Instr
  mask : Word
  poison : Bool
deriving DecidableEq, Repr

/-- One thread position of a warp (R11, R23, R24, R47 to R51). `held` keeps a lane out of a trap handler (R249); `loads`
names the operations a load without lookahead waits for; `replayFault` is the fault of a replayed load (R53: code, einfo).
`accessAfter` names the outstanding operations that all later accesses of the lane wait for (full fences, barriers: R134, R140),
`acquireAfter` and `storeAfter` those that its later accesses and its later stores wait for but on U pages (acquires and releases, R135),
`loadAfter` those that its later loads wait for (R132), `seen` the unacknowledged writes its loads have returned (R136), `lastIssue` its last issue (R132). -/
structure Lane where
  present : Bool
  exited : Bool
  held : Bool
  pc : VAddr
  rep : Nat
  window : Nat
  preds : BitVec 7
  predPoison : BitVec 7
  flags : BitVec 5
  waitCount : Nat
  commits : List Commit
  park : Option Park
  loads : List Nat
  replayFault : Option (Nat × Nat)
  storeAfter : List Nat
  accessAfter : List Nat
  acquireAfter : List Nat
  loadAfter : List Nat
  seen : List Nat
  lastIssue : Nat
deriving DecidableEq, Repr

/-- An absent lane, and the fields of a thread at residency (R43, R47, R50, R24). -/
def Lane.absent : Lane :=
  { present := false, exited := false, held := false, pc := 0, rep := 0, window := 0, preds := 0,
    predPoison := 0, flags := 0, waitCount := 0, commits := [], park := none, loads := [], replayFault := none, storeAfter := [],
    accessAfter := [], acquireAfter := [], loadAfter := [], seen := [], lastIssue := 0 }

/-- The run of a warp in its slot (R20, R22, R25). `sweep` holds the keys of the sweep groups still to serve. -/
structure Run where
  escape : Bool
  starving : List Nat
  startIssuable : List Nat
  issued : List Nat
  sweep : List (Nat × Nat)
  issues : Nat
deriving DecidableEq, Repr

/-- Segment registers of a warp (R54). -/
structure Segments where
  gbase : BitVec 57
  glim : BitVec 57
  sbase : BitVec 19
  slim : BitVec 20
  xbase : BitVec 16
  xlim : BitVec 17
  abase : BitVec 6
  alim : BitVec 7
  cbase : BitVec 57
  clim : BitVec 32
deriving DecidableEq, Repr

def Segments.zero : Segments := ⟨0, 0, 0, 0, 0, 0, 0, 0, 0, 0⟩

/-- The trap registers of a warp (R55 numbers 0x020 to 0x025). -/
structure TrapRegs where
  cause : BitVec 8
  epc : BitVec 64
  emask : BitVec 32
  erep : BitVec 6
  einfo : BitVec 64
  eskid : BitVec 10
deriving DecidableEq, Repr

def TrapRegs.zero : TrapRegs := ⟨0, 0, 0, 0, 0, 0⟩

/-- One level of a warp's ring table (R218, 09). -/
structure RingLevel where
  openPc : VAddr
  mask : Word
  window : Nat
  logStart : Nat
  attempt : Nat
  classes : BitVec 4
deriving DecidableEq, Repr

/-- An armed monitor (R368): the line's physical address, the byte named, and whether a write has reached the line. -/
structure Monitor where
  line : Nat
  va : VAddr
  hit : Bool
deriving DecidableEq, Repr

/-- Why a warp does not issue for the moment (R249 to R253, R264, R178 to R180, R166). -/
inductive StopKind where
  | none
  | trapped        -- stopped by a precise trap or an imprecise store fault; waits for its handler or an answer
  | halting        -- its work-group is halted; it stops at the end of its run
  | halted         -- stopped by the halt
  | contained      -- stopped by a containment halt
deriving DecidableEq, Repr

/-- A resident warp (R11, R18, R42 to R56, R218, R234, R250). `rollback` waits for the ring's commands, and tells whether a handler
asked for it (R258); `barrier` is the barrier the warp has arrived at: 0 none, 1 its work-group's, 2 its gang's by `bar`, 3 by `bar.x`
(R239); `skid` counts the issues since a halt, and keeps the run issue count of the stop (R242); `blocks` are the register blocks that
stand in its log, each with its first offset and its length (R219). -/
structure Warp where
  wg : Nat
  index : Nat
  lanes : List Lane
  base : Nat
  sizeCode : Nat
  sregs : List PWord
  segs : Segments
  mode : BitVec 3
  lsn : Word
  ctx : BitVec 11
  trap : TrapRegs
  latch : Bool
  inHandler : Bool
  stop : StopKind
  rings : List RingLevel
  logBase : VAddr
  logLimit : Nat
  logFill : Nat
  cntCopy : BitVec 6
  cntMat : BitVec 6
  cntGth : BitVec 6
  cntCol : BitVec 6
  monitor : Option Monitor
  mwait : Option Nat
  run : Option Run
  stamp : Nat
  snapshot : Bool
  spared : Option Nat
  rollback : Option Bool
  startFault : Option (Nat × Nat)
  barrier : Nat
  skid : Nat × Nat
  blocks : List (Nat × Nat)
deriving DecidableEq, Repr

/-- The effective fields of a bough, formed when a distributor takes a launch record (R12, R215). -/
structure BoughEff where
  bough : Nat
  regCap : Nat
  scrCap : Nat
  tileCap : Nat
  coreCap : Nat
  priority : Nat
  compat : Bool
  protect : Bool
  quota : Nat
  share : Nat
  handler : DWord
  ring : DWord
  ringLog : Nat
  sysDomain : Bool
deriving DecidableEq, Repr

/-- One issue slot of a core (R17, R20, R168, R260): the warp whose run is in progress, the runs begun, the physical lane the
spare replaces, a lane failure waiting for the run boundaries, and whether the slot has failed. -/
structure Slot where
  running : Option Nat
  runs : Nat
  spare : Option Nat
  failed : Bool
deriving DecidableEq, Repr

def Slot.init : Slot := ⟨none, 0, none, false⟩

/-- The lane group that the current step issues for (R23): the place, the issuable lanes, ascending, their key, and whether this
is a sweep issue, which ignores E (R25). -/
structure Group where
  core : Nat
  slot : Nat
  warp : Nat
  lanes : List Nat
  pc : VAddr
  rep : Nat
  sweep : Bool
deriving DecidableEq, Repr

/-- A work-group on the package (R11, R13, R165, R239, R253): its grid, its 64-bit id, the core it is resident on, its gang, its warps
as slot and slot-local number in warp order, its barrier, the halt (cause, slot and number of the warp that raised it), the
containment (the failed physical address), its residency position with the spill mask (R96), and the macros that its save image still
holds, each with its physical address there (R95). `scr`, `tiles` and `exch` are its blocks: first unit, units. `ranges` are its
warps' register ranges: slot, number, first block of 32, size code. A work-group that was reset is `dead` until its commands retire
(R179). One that waits in its core's launch buffer is not `resident` yet (R158). `hash` is its placement hash (R15). -/
structure WorkGroup where
  grid : Nat
  id : DWord
  core : Nat
  gang : Option Nat
  warps : List (Nat × Nat)
  barCount : Nat
  barPhase : Bool
  halt : Option (Nat × Nat × Nat)
  contained : Option Nat
  pos : Nat
  spill : BitVec 16
  macroImage : List (Nat × Nat)
  scr : Nat × Nat
  tiles : Nat × Nat
  exch : Nat × Nat
  ranges : List (Nat × Nat × Nat × Nat)
  dead : Bool
  resident : Bool
  hash : BitVec 16
deriving DecidableEq, Repr

/-- A gang (R14, R239): its grid, its lowest work-group id, its barrier's arrivals, phase and form (true for `bar.x`). -/
structure Gang where
  grid : Nat
  first : Nat
  count : Nat
  phase : Bool
  form : Option Bool
deriving DecidableEq, Repr

/-- A launched grid (R11, R12, R216): its launch record as sixteen double words, its context, its effective bough fields, the
addresses of its boughs up to the root, the contract whose job it belongs to, whether it is marked failed, the address of its record,
its number at the rack root when it came from there, whether its work is discarded because a gang of it can be placed nowhere (R159), the
cores on which a work-group of it has been resident (R104), the placement hashes of its waiting work-groups by position (R15), and for a
part of a job of another package that package and its contract (R171). -/
structure Grid where
  record : List DWord
  ctx : BitVec 11
  eff : BoughEff
  chain : List BoughEff
  job : Option Nat
  failed : Bool
  addr : Nat
  launch : Option Nat
  dropped : Bool
  seen : BitVec 128
  hashes : NMap (BitVec 16)
  owner : Option (Nat × Nat)
deriving DecidableEq, Repr

/-- A job of a contract (R171, R172): its release and absolute deadline in reference ticks, its charge, whether it is active, and
whether its deadline miss has been counted. -/
structure Job where
  release : Nat
  deadline : Nat
  charge : Nat
  active : Bool
  missed : Bool
deriving DecidableEq, Repr

/-- What a placement takes on a core (R158, R173): a slot, slot-local number, first block of 32 and size code for each warp, and the
first unit and the units of a scratch, a tile and an exchange block. -/
structure Spot where
  core : Nat
  ranges : List (Nat × Nat × Nat × Nat)
  scr : Nat × Nat
  tiles : Nat × Nat
  exch : Nat × Nat
deriving DecidableEq, Repr

/-- An admitted contract (R170, R224): its table entry as eight double words, the tick of its next release, its job in progress, and
the blocks reserved for it on each core of its set (R173). Its bough lies in the context that its launch record names, known from its first
release on (R171). -/
structure Contract where
  entry : List DWord
  next : Nat
  job : Option Job
  reserved : List Spot
  ctx : Option Nat
deriving DecidableEq, Repr

/-- The work resident on or known to the package. -/
structure Work where
  groups : NMap WorkGroup
  grids : NMap Grid
  contracts : NMap Contract
  gangs : NMap Gang
deriving DecidableEq, Repr

/-- State of the threads of every core. Registers are keyed by core, slot, physical lane (0 to 32) and register (0 to 511). -/
structure Threads where
  regs : NMap PWord
  warps : NMap Warp
  slots : NMap Slot
deriving DecidableEq, Repr

/-- The clock of one C-die (R3, R231, R241): whether it runs, the frequency code, sr.cyc with its 16-bit fraction, and the last
step records, newest first (16-byte fields: sr.ref, sr.cyc, old code, new code, stall, step number, fraction). -/
structure StepRecord where
  ref : DWord
  cyc : DWord
  oldCode : Nat
  newCode : Nat
  stall : Nat
  number : Nat
  frac : Nat
deriving DecidableEq, Repr

structure DieClock where
  running : Bool
  code : Nat
  cyc : DWord
  frac : Nat
  pending : Option (Nat × Nat)
  stallEnd : Option Nat
  steps : List StepRecord
  stepCount : Nat
deriving DecidableEq, Repr

/-- The reference timer and the die clocks (R240, R241). -/
structure Clocks where
  ref : DWord
  dies : List DieClock
deriving DecidableEq, Repr

/-! Memories and the accesses in flight (spec/04, 05, 06, 08 R189, 09 R208 to R213). -/

/-- Addressed storage: bytes that differ from 0 at rising addresses, and the poisoned granules (words on chip, 32-byte sectors in
the pool), rising. -/
structure Mem where
  cells : List Host.Cell
  poison : List Nat
deriving DecidableEq, Repr

def Mem.empty : Mem := ⟨[], []⟩

/-- What an address that memory does not list reads as: 0 (R79, R89, R97 for storage on chip; for the pool, whose contents at
power-on the spec does not give, a DESIGN CHOICE, log entry 1). -/
def unlistedByte : Byte := 0

/-- The memory list is in canonical form: addresses strictly rising, and no entry equal to what an unlisted address reads as. -/
def Mem.cellsWf : List Host.Cell → Bool
  | [] => true
  | [(_, b)] => b != unlistedByte
  | (a, b) :: (a', b') :: m => b != unlistedByte && a < a' && Mem.cellsWf ((a', b') :: m)

/-- Strictly rising numbers. -/
def risingList : List Nat → Bool
  | [] => true
  | [_] => true
  | a :: b :: m => a < b && risingList (b :: m)

/-- The canonical form of a memory. -/
abbrev Mem.wf (m : Mem) : Bool := Mem.cellsWf m.cells && risingList m.poison

/-- A compute-in-memory macro (R93, R94): its owner, the columns' element bits, the scale bytes (0x7F where not listed), the poison
bit of each column, and the bfmt it was loaded with (R341). -/
structure Macro where
  owner : Option Nat
  cols : NMap (BitVec 1024)
  scales : NMap Byte
  poison : BitVec 128
  fmt : Nat
deriving DecidableEq, Repr

def Macro.init : Macro := ⟨none, [], [], 0, 0⟩

/-- A line of an L1 data cache (R99, R101, R117, R119): a copy of 128 bytes with byte-valid bits and sector poison, the evict class
(0 normal, 1 evict-first, 2 evict-last), an age, and the graft mark. -/
structure L1Line where
  data : List Byte
  valid : BitVec 128
  poison : BitVec 4
  cls : Nat
  age : Nat
  grafted : Bool
deriving DecidableEq, Repr

/-- A line of an instruction cache (R99), with the physical line it copies. -/
structure ILine where
  pline : Nat
  data : List Byte
  poison : BitVec 4
  age : Nat
deriving DecidableEq, Repr

/-- A line of an L2 slice with its directory record (R114, R226): which sectors it holds, their poison, the dirty bit, the sharers,
in gather mode the slot and each writer's byte mask (R116), and whether a write of the mirror class has reached it (R120). -/
structure L2Line where
  data : List Byte
  have' : BitVec 4
  poison : BitVec 4
  dirty : Bool
  sharers : BitVec 128
  gather : Option (Nat × List (Nat × BitVec 128))
  age : Nat
  mirror : Bool
deriving DecidableEq, Repr

/-- A line of a slice that holds nothing yet. -/
def L2Line.empty : L2Line := ⟨List.replicate 128 0, 0, 0, false, 0, none, 0, false⟩

/-- A cached translation (R213): identifier, virtual base, size in bytes, physical base, and the leaf fields of R210. -/
structure TlbEntry where
  asid : Nat
  va : Nat
  size : Nat
  pa : Nat
  rd : Bool
  wr : Bool
  ex : Bool
  usr : Bool
  kind : Nat
  mirror : Bool
deriving DecidableEq, Repr

/-- A walk in progress (R213, R229, R230): its die, identifier and page, the access that asked with its virtual address, whether it is
host-assisted, and the event tag once it has asked the H-die cores. -/
structure Walk where
  die : Nat
  asid : Nat
  page : Nat
  va : Nat
  access : Nat
  host : Bool
  tag : Option Nat
deriving DecidableEq, Repr

/-- The ended walk of a faulting address, waiting for the access that asked: kind 0 invalid, 1 a poisoned entry (R209, R212). -/
structure WalkFault where
  die : Nat
  asid : Nat
  page : Nat
  poisoned : Bool
deriving DecidableEq, Repr

/-- The operation of an atomic or reduction (R334, R336, R358). -/
inductive AtomOp where
  | add | imin | nmin | imax | nmax | and | or | xor | xchg | cas | fadd32 | faddH | faddW
  | fmax32 | fmin32
deriving DecidableEq, Repr

/-- Who makes an access: the lanes of a warp, an engine command, a command of another package, the host, or the package's own hardware (R126);
or an L1 that refetches a line (R103). -/
inductive Agent where
  | thread (core slot warp lane : Nat)
  | engine (command : Nat)
  | remote (src tag : Nat)
  | host
  | hardware
  | cache (core : Nat)
deriving DecidableEq, Repr

/-- A load in flight (R126, R131, R328): who, where, how wide, how the value is held (size code), where it goes, the lanes that take
it, the operations it must follow, and where it stands: its PC and repeat index (R53). -/
structure LoadOp where
  agent : Agent
  pa : Nat
  size : Nat
  code : Nat
  kind : Nat
  hint : Nat
  dest : Dest
  commit : Bool
  lanes : List Nat
  after : List Nat
  prefetch : Bool
  mirror : Bool
  va : VAddr
  pc : VAddr
  rep : Nat
deriving DecidableEq, Repr

/-- Where a write in flight stands: at its core's store port, in its home slice's write queue, or applied and not acknowledged. -/
inductive WriteStage where
  | port | queued | applied
deriving DecidableEq, Repr

/-- A write in flight (R128, R189, R262): who, where, the bytes, or the atomic with its operand and expected value, where an
atomic's old value goes, the kind and class of its page, the graft's receivers, what it must follow, its
tag, and the store that it is part of: the lanes of one store fill one entry of a write queue (R189, R391). -/
structure WriteOp where
  agent : Agent
  pa : Nat
  data : List Byte
  poison : Bool
  atom : Option (AtomOp × Nat × Nat)
  dest : Dest
  lanes : List Nat
  old : Option (List PWord)
  kind : Nat
  mirror : Bool
  graft : Option (List Nat)
  after : List Nat
  stage : WriteStage
  pc : VAddr
  lsn : Word
  depth : Nat
  ctx : Nat
  batch : Option Nat
deriving DecidableEq, Repr

inductive MemOp where
  | load (o : LoadOp)
  | write (o : WriteOp)
deriving DecidableEq, Repr

/-- An entry of a write queue (R189): its line, the operations merged into it, in arrival order, and the `red` operations folded
into one of those. -/
structure QueueEntry where
  line : Nat
  ops : List Nat
  folded : List Nat
deriving DecidableEq, Repr

/-- An update under way at a home slice (R115, R118): the line, the bytes changed with their values, whether sharers hold them, the
cores still to apply it, those that have, the receivers a graft still pushes to, and the writes it acknowledges. -/
structure Update where
  line : Nat
  mask : BitVec 128
  data : List Byte
  poison : BitVec 4
  hold : Bool
  targets : List Nat
  applied : List Nat
  push : List Nat
  writes : List Nat
deriving DecidableEq, Repr

/-- An exchange store on its way to the shadow bank of a member core (R332): its number, the member work-group, the offset in its region,
the bytes, and the warp key and the lane of its issuer, whose `bar.x` and later accesses wait for it (R91, R138). -/
structure ExchStore where
  id : Nat
  wg : Nat
  off : Nat
  data : List Byte
  warp : Nat
  lane : Nat
deriving DecidableEq, Repr

/-- A tensor layout as an instruction read it (R86). -/
structure Layout where
  base : Nat
  st0 : Nat
  st1 : Nat
  st2 : Nat
  pmode : Nat
deriving DecidableEq, Repr

/-- What a matrix command does (R341 to R346), with the values its issue read: layouts, the format word, the permutation (empty for
the identity), and for `acrd` and `acwr` the lanes with their offsets and destinations or values. -/
inductive MatOp where
  | bld (lay : Layout) (fmt : Nat) (perm : List Nat)
  | bsel (fmt dst : Nat)
  | mma (zero : Bool) (tile : Nat) (lay : Layout) (fmt : Nat) (perm : List Nat)
  | acz (tile : Nat)
  | acld (tile : Nat) (lay : Layout)
  | acst (tile : Nat) (lay : Layout) (fmt : Nat)
  | acrd (tile : Nat) (reads : List (Nat × Nat × Dest))
  | acwr (tile : Nat) (writes : List (Nat × PWord))
  | acscl (tile : Nat) (factor : Word)
deriving DecidableEq, Repr

/-- A command of a core's matrix queue (R183, R339): its number, its warp's key and work-group, the operation, the scratch base of
its warp at issue, what its reads must follow (R142), whether it holds an entry reserved for contract jobs, and whether it has
started. `lanes` take an `acrd` result or wait for the completion. -/
structure MatCmd where
  id : Nat
  core : Nat
  warp : Nat
  wg : Nat
  op : MatOp
  sbase : Nat
  lanes : List Nat
  after : List Nat
  urgent : Bool
  started : Bool
deriving DecidableEq, Repr

/-- The addressed storage, the caches and everything between an access's issue and its acknowledgement. -/
structure MemSys where
  scratch : Mem
  exch : Mem
  acc : Mem
  hbm : Mem
  polarity : NMap (BitVec 16)
  macros : NMap Macro
  l1 : NMap L1Line
  icache : NMap ILine
  l2 : NMap L2Line
  l1tlb : NMap (List TlbEntry)
  dieTlb : NMap (List TlbEntry)
  walks : List Walk
  walkFaults : List WalkFault
  fetches : List (Nat × Nat × Nat)
  ops : NMap MemOp
  queue : List QueueEntry
  updates : NMap Update
  notices : List (Nat × Nat)
  exchStores : List ExchStore
  matrix : List MatCmd
  atomTags : NMap (Nat × List PWord)
deriving DecidableEq, Repr

/-- Package configuration that the hardware reads (05 R111, 09 R208, R229, 04 R96, 19): the package's own number in the rack, the pool
package table, the context table's and the macro spill area's physical addresses, the function-mode word, the slices declared failed
(R121, R436), the system fault domain's block (R215), and the cores mapped out (R436). -/
structure PackageCfg where
  pkg : Nat
  pw : Nat
  poolTable : List Nat
  contextTable : Nat
  spillBase : Nat
  functionMode : BitVec 32
  deadSlices : BitVec 128
  sysDomain : Nat
  outCores : List Nat
deriving DecidableEq, Repr

/-- A command of a copy queue or a chain (R183, R353, R354): its number (the issue serial), its core, its warp's key and work-group, its
context, its kind (0 `xcp`, 1 `xget`, 2 `xput`, 3 `xput.rel`, 4 `xred`, 5 `xsig`, 6 `xgth`, 7 `xrsc`, 8 a chain's copy entry), its
descriptor, the warp's segments as posted, whether it was posted in system mode, what its accesses must follow (R142), the boughs whose
share it counts in, the chain slot it serves, the engine that took it, the bytes moved, whether poison was met, its writes in flight,
the packages whose acknowledgement it waits for (R193), whether it has met a contain-class error, its status once finished, and where it
was posted. `base` is where its work-group's scratch block began when it was posted, `owner` the work-group whose scratch block it
addresses by physical offset with that block's first byte (R166, R267), `phase` counts the version reads of `xgth` (from 4 on the second has failed with status phase − 4 and
the target bytes are written with free values, R204), `asked` marks a
remote read under way and `reply` holds its answer. `err` is the lowest error status met while data moved, 0 for none (R188). An `xrsc` has `landed` elements of its
result, and `dest` is the package of the rank whose chunk travels; from phase 16 on it tells rank phase − 16 that its group is in conflict
(R205). `trans` holds the translations made when it was taken (R186), `got` what has been read of its next piece. -/
structure CopyCmd where
  id : Nat
  core : Nat
  warp : Nat
  wg : Nat
  ctx : Nat
  kind : Nat
  desc : List DWord
  segs : Segments
  system : Bool
  after : List Nat
  chain : List Nat
  slot : Option Nat
  engine : Option Nat
  moved : Nat
  poison : Bool
  writes : List Nat
  acks : List Nat
  held : Bool
  status : Option Nat
  pc : VAddr
  lsn : Word
  depth : Nat
  base : Nat
  owner : Option (Nat × Nat)
  phase : Nat
  asked : Bool
  reply : Option (List (Byte × Bool) × Nat)
  err : Nat
  landed : Nat
  dest : Option Nat
  trans : List TlbEntry
  got : List (Byte × Bool)
deriving DecidableEq, Repr

/-- An arrival on its way to a sync word (R236): the core, the physical scratch offset, the amount, the writes it follows, the command it
comes from (0 for none), and the work-group that holds the sync word with the first byte of its block when the arrival set out. -/
structure Arrival where
  core : Nat
  off : Nat
  amount : Nat
  after : List Nat
  cmd : Nat
  owner : Option (Nat × Nat)
deriving DecidableEq, Repr

/-- A flit of a contribution to a reduce-scatter (R193, R205, R361): the package and the number of the command it comes from, its group, the rank it comes from, the rank whose chunk it is, the
number of ranks, the operation, its first word in the chunk and its words. It is held in the trunk crossbar, with the credit of the port and
channel it came by, until the rank's own command has chosen the engine: then it stands at that engine's port (R191, R192, R206). -/
structure HeldChunk where
  src : Nat
  tag : Nat
  group : Nat
  rank : Nat
  dst : Nat
  n : Nat
  op : Nat
  off : Nat
  data : List PWord
  port : Option (Nat × Nat)
  credit : Option (Nat × Bool)
deriving DecidableEq, Repr

/-- A rank of a reduce-scatter whose group is in conflict (R205): the ranks that have told it so, at 128 · rank + package, each with its
command's number there, and whether its own command has ended. -/
structure BrokenRank where
  told : NMap Nat
  done : Bool
deriving DecidableEq, Repr

/-- The entry that an engine serves for a chain slot (R198, R199): the physical address of its control block, the page and the virtual address
of its 64 bytes (none when they do not translate, or the block is rejected), its index, its eight double words, its context, its status once it has ended, the packages whose
acknowledgement its writes wait for, and whether its status byte is on its way (R149, R199). -/
structure ChainJob where
  block : Nat
  entry : Option (TlbEntry × Nat)
  index : Nat
  words : List DWord
  ctx : Nat
  status : Option Nat
  acks : List Nat
  posted : Bool
deriving DecidableEq, Repr

/-- A chain slot (R200, R417): its two registers and the entry in progress. -/
structure ChainSlot where
  reg : DWord
  ctx : Nat
  job : Option ChainJob
deriving DecidableEq, Repr

def ChainSlot.init : ChainSlot := ⟨0, 0, none⟩

/-- The engines of the package: the copy queues, the arrivals under way, the requester that each engine (16d + e) served last and that each
encoder (64 + e) did (R185, R200), the contributions held for reductions, the chain slots (host slot s of die d at 4d + s, slot s of encoder
e at 16 + 4e + s), and the ranks of reductions in conflict, by 256 · group + rank (R205). -/
structure Engines where
  copy : List CopyCmd
  arrivals : List Arrival
  served : NMap Nat
  chunks : List HeldChunk
  slots : NMap ChainSlot
  broken : NMap BrokenRank
deriving DecidableEq, Repr

/-- A Stolil channel (R183, R193, R196): the credits left at the port, the flits sent through it whose credit has not returned, the next
number to send to the peer, the next number to receive from it with those received above it, and the transit flits held for the way
out (R195). -/
structure Channel where
  credits : Nat
  sent : List Flit
  next : Nat
  expect : Nat
  seen : List Nat
  transit : List Flit
deriving DecidableEq, Repr

/-- A Stolil port (R183, R196, R416, R436): up, mapped out, its ordered and relaxed channels. -/
structure Port where
  up : Bool
  out : Bool
  ordered : Channel
  relaxed : Channel
deriving DecidableEq, Repr

def Port.init : Port := ⟨false, false, ⟨64, [], 0, 0, [], []⟩, ⟨192, [], 0, 0, [], []⟩⟩

/-- An Ethernet uplink with one package of another tray (R420): the next frame number to send and to receive, and the frames sent that are not acknowledged, with their numbers
and the ticks at which they were last sent. -/
structure Uplink where
  next : Nat
  expect : Nat
  sent : List (Nat × Nat × Frame)
deriving DecidableEq, Repr

def Uplink.init : Uplink := ⟨0, 0, []⟩

/-- A write that another package's command made here and that is not acknowledged yet (R193): its package, its tag there, the writes and
arrivals it waits for, and the status it reports. -/
structure RemoteWrite where
  src : Nat
  tag : Nat
  after : List Nat
  status : Nat
deriving DecidableEq, Repr

/-- The fabric as this package sees it: its ports and uplinks, the relay that ordered traffic to a target takes after a link failure
(R196), targets whose ordered traffic is held until the old route is quiet (R146), the flits that wait for a credit or a route, the
writes to acknowledge, and the lines that the package's own hardware has read or asked for at other packages. -/
structure Fabric where
  ports : NMap Port
  uplinks : NMap Uplink
  detour : NMap Nat
  held : List Nat
  outbox : List Flit
  remote : List RemoteWrite
  buffer : NMap (List (Byte × Bool))
  wanted : List Nat
deriving DecidableEq, Repr

/-! Distribution (spec/07). -/

/-- A part of a grid in a distributor's queue (R153, R154): a chunk of work-groups, or a launch whose ids from `next` to `count` are still
to be taken: the ids still to pass on or place, whether it skips the package field of its hashes (R162), the tick since which its head
has failed to place (R166), the dies that have passed it on (R159), and the budget that its gang at the head has taken (R154). -/
structure Chunk where
  grid : Nat
  ids : List Nat
  next : Nat
  count : Nat
  skip : Bool
  since : Option Nat
  tried : List Nat
  spent : Nat
deriving DecidableEq, Repr

/-- A distributor (R153, R154): its queue, the chunks open and closed by child, and the budget it has used in a tick. -/
structure Level where
  queue : List Chunk
  opened : List (Nat × Chunk)
  closed : List (Nat × Chunk)
  tick : Nat
  used : Nat
deriving DecidableEq, Repr

def Level.init : Level := ⟨[], [], [], 0, 0⟩

/-- A launch record on its way to a distributor (R162, R171, R379): its sixteen double words, its context, its address, the spawning warp's
bough (none for a contract release), the contract whose job it belongs to, and the package and contract whose job counts it elsewhere (R171). -/
structure LaunchRecord where
  words : List DWord
  ctx : Nat
  addr : Nat
  within : Option Nat
  job : Option Nat
  owner : Option (Nat × Nat)
deriving DecidableEq, Repr

/-- A move of the pruner (R166): core, kind (0 registers, 1 scratch, 2 tiles), slot, the old first block, the new one and the blocks. -/
structure PruneMove where
  core : Nat
  kind : Nat
  slot : Nat
  old : Nat
  new : Nat
  size : Nat
  wg : Nat
  stopped : Bool
deriving DecidableEq, Repr

/-- The distributors: the levels (0 rack root, 1 tray, 2 package, 3 + d die d), the launch records queued at the package, the rack command
queue's registers (R429: base, log2, head, reserved, published), the launch buffers by core (R158), when an idle distributor may ask
again (R160, by level), the distributors that have asked the H-die cores (R182), work-groups not exited of the grids launched here
(R163), the pruner's moves, the warps launched in each context (R55, `sr.lsn`), the spawning bough and the job of each record that a `spawn` has
put into the rack command queue, by its index (R162), the contracts whose jobs wait for grids that the rack root launches, once for each (R171),
the package that a steal request waits for with whether it has declined (R160), and the place in the rack command queue of another package that
a `spawn` has asked for, or holds (R429). -/
structure Dist where
  levels : NMap Level
  records : List LaunchRecord
  rackBase : Nat
  rackLog : Nat
  rackHead : Nat
  rackReserved : Nat
  published : List Nat
  buffers : NMap (List Nat)
  retry : NMap Nat
  asked : List Nat
  remaining : NMap Nat
  moves : List PruneMove
  serials : NMap Nat
  origins : NMap (Option Nat × Option (Nat × Nat))
  away : List Nat
  asking : Option (Nat × Bool)
  reservation : Option (Option Nat)
deriving DecidableEq, Repr

/-- A saved work-group (R265 to R268): the work-group as it stood, its image's physical address, the offsets in its scratch segment of
the sync words that received arrivals since (R238), its warps by index as they stood, for what an image does not hold, the polarity of its
granules, whether its gang's barrier has completed since (and was a `bar.x`), the operations that its later accesses follow then (R239,
R140), and the lanes of its warps, by index, that failed during the save (R180). -/
structure Saved where
  group : WorkGroup
  image : Nat
  syncs : List Nat
  warps : NMap Warp
  polarity : Nat
  passed : Option Bool
  after : List Nat
  failed : List (Nat × Nat)
deriving DecidableEq, Repr

/-- A pre-emption under way (R177): its context and cores, the ticks at which drain and snapshot limits run out, whether the snapshot has
been requested, the save area and its length, the work-groups it met with their ids, of which those saved or reset leave the list, the
outcomes reported (id, outcome, image offset), whether the area filled up, how many requests of the rack root are joined in it (R181), and
whether this package's own window is. -/
structure Preempt where
  ctx : Nat
  cores : BitVec 128
  drainEnd : Nat
  snapEnd : Nat
  ts : Nat
  snap : Bool
  area : Nat
  length : Nat
  groups : List (Nat × DWord)
  outcomes : List (DWord × Nat × Nat)
  used : Nat
  full : Bool
  rack : Nat
  own : Bool
deriving DecidableEq, Repr

/-- A rack-wide command that the rack root has yet to broadcast (R181): the package that asked for it, its word and its arguments. -/
structure RackOrder where
  src : Nat
  word : DWord
  td : Nat
  ts : Nat
  area : Nat
  length : Nat
deriving DecidableEq, Repr

/-- A fault report whose ring lies at another package, or whose system block does, and has not been read (R215, R261): the ring's address in
its domain with its log (none while the system block is not read), whether the domain is the system's, its context, and the record: the
low word of offset 0 and the bytes from offset 8 on. -/
structure PendingReport where
  ring : Option (Nat × Nat)
  sys : Bool
  ctx : Nat
  head : Nat
  body : List Byte
deriving DecidableEq, Repr

/-- The control of contexts (R177 to R181, R264, R427, R428): pre-emptions under way, the cores on which a context has been stopped, the
cores that take none of its pending work until it is resumed, the contexts contained (with the failed address), the saved work-groups,
the packages a rack-wide command still waits for, its worst status so far, the packages that asked for it, the images to restore (context,
address, id), the resumptions under way with whether the rack root asked for them, the reports that wait for a ring of another package, the
rack-wide command under way, and those behind it. -/
structure Control where
  preempts : List Preempt
  stopped : NMap (BitVec 128)
  barred : NMap (BitVec 128)
  contained : NMap Nat
  saved : NMap Saved
  waiting : List Nat
  worst : Nat
  requesters : List Nat
  restores : List (Nat × Nat × Nat)
  resumes : List (Nat × Bool)
  reports : List PendingReport
  current : Option DWord
  orders : List RackOrder
deriving DecidableEq, Repr

/-! HBM4E and die links (spec/05 R123 to R125, spec/18, spec/20). -/

/-- A bank (R124): its postponed count, the tick at which a running per-bank refresh ends, the refreshes that wait for it to end, and the
tick of the last completed request. -/
structure Bank where
  postponed : Nat
  runEnd : Option Nat
  waiting : Nat
  done : Option Nat
deriving DecidableEq, Repr

def Bank.init : Bank := ⟨0, none, 0, none⟩

/-- The HBM4E controllers: banks by 16·pseudo-channel + bank, forced all-bank refreshes triggered by pseudo-channel (their end once they
run), pseudo-channels dropped and those whose drop is copying, corrected errors by pin, repaired pins by group, pauses by group with
their end and pins, pins left in service, and the repair events raised (tag, pin). A pin is 2048·stack + its number. -/
structure Dram where
  banks : NMap Bank
  forced : NMap (Option Nat × Nat)
  dropped : List Nat
  copying : List Nat
  errors : NMap Nat
  repaired : NMap Nat
  pauses : NMap (Nat × List Nat)
  left : List Nat
  asked : List (Nat × Nat)
deriving DecidableEq, Repr

/-- A die link (R405 to R408): the hold and width bits of ctl, the state bits, the lanes in use, sel, the repair result, the spares used
by module, direction and half, the fault counts by module, direction and lane, the lanes repaired, the repair under way, mapped out, the
retries at the last look by direction, and whether the link logic retrains the link by itself (R434). -/
structure DieLink where
  hold : Bool
  width : Bool
  held : Bool
  training : Bool
  narrow : Bool
  up : Bool
  failed : Bool
  lanes : Nat
  sel : Nat
  result : Nat
  spares : NMap Nat
  faults : NMap Nat
  routed : List Nat
  pending : Option (Nat × Nat × Nat)
  out : Bool
  reported : NMap Nat
  auto : Bool
deriving DecidableEq, Repr

def DieLink.init : DieLink := ⟨false, false, false, false, false, false, false, 0, 0, 0, [], [], [], none, false, [], false⟩

/-! Attachment (spec/19, spec/20). -/

/-- A record of the serial flash (R422): kind, key slot, security version, body, signature, and whether its reserved fields are 0. -/
structure FlashRecord where
  kind : Nat
  slot : Nat
  version : Nat
  body : List Byte
  signature : List Byte
  clean : Bool
deriving DecidableEq, Repr

/-- The attachment of the package: stage and status bits (R415, R424), the slot strap and tray number, the security version in use and the
highest recorded, the flash, the records applied at start-up, the writable registers of the configuration space by offset (4-byte words, R413), the mailbox's bytes and
command under way, the replacement cause and the parts mapped out (R435), the role in a host pair (0 none, 1 primary, 2 standby), its
peer, the epoch, the last heartbeat received and sent, the log records shipped and committed, the packages this one governs, the
packages of the rack root and of the tray distributors (R153), the parts up (R415), the frequency codes of the dies, the host attach mode
(R419), what the last read of the configuration space or of the window returned, and the spare lanes of a module half (R405). -/
structure Attach where
  stage : Nat
  safe : Bool
  replacement : Bool
  rejected : Bool
  slot : Nat
  tray : Nat
  version : Nat
  recorded : Nat
  flash : List FlashRecord
  applied : List FlashRecord
  regs : NMap Nat
  mailbox : NMap Byte
  command : Nat
  cause : Nat
  outDies : List Nat
  outStacks : List Nat
  role : Nat
  peer : Nat
  epoch : Nat
  beatIn : Nat
  beatOut : Nat
  log : List Nat
  committed : List Nat
  governed : List Nat
  roles : Nat
  diesUp : List Nat
  stacksUp : List Nat
  fabricUp : Bool
  codes : List Nat
  cxl : Bool
  answer : List Byte
  spareLanes : Nat
deriving DecidableEq, Repr

/-- An event for the H-die cores (R432): its tag, kind, source die and payload (offsets 8 to 63). -/
structure HostEvent where
  tag : Nat
  kind : Nat
  die : Nat
  payload : List DWord
deriving DecidableEq, Repr

/-- The event ring of the H-die configuration space (R432): its records by place, its indexes, the events that wait for a free record,
those that wait for an answer, the answer window, and the interrupt vectors raised. -/
structure HostRing where
  records : NMap (List DWord)
  producer : Nat
  consumer : Nat
  waiting : List HostEvent
  pending : List HostEvent
  window : List DWord
  vectors : List Nat
deriving DecidableEq, Repr

/-- A store fault that has not been delivered (R262, R269): the warp's key and work-group, the store's address, its PC, serial number and
ring depth, and its context. -/
structure StoreFault where
  warp : Nat
  wg : Nat
  pa : Nat
  pc : VAddr
  lsn : Word
  depth : Nat
  ctx : Nat
  reported : Bool
deriving DecidableEq, Repr

/-- What the outside world, a clock or the machine's own agents do next. The order of these is input: plain data that says which
agent moves (INVENTORY, Host interface). -/
inductive Turn where
  | event (i : Instr)
  | slot (core slot : Nat)
  | refEdge
  | coreEdge (die : Nat)
  | l1Parity (core line : Nat)
  | iParity (core asid line : Nat)
  | sramEcc (core space word : Nat) (uncorrectable : Bool)
deriving DecidableEq, Repr

/-- Why the machine stops without a next state. -/
inductive Fault where
  /-- Raised by `exec` of an instruction word when no lane group has been chosen to issue it: the call is not a step of the
  machine, which always chooses a group first. Safe: no step of the machine raises it. -/
  | noIssuingGroup
deriving DecidableEq, Repr

/-- Why the model gives an instruction no meaning. -/
inductive Refusal where
  /-- Raised by an arm of `exec` whose instruction has no meaning yet. Safe: the model stops. -/
  | notModelled (mnemonic : String)
deriving DecidableEq, Repr

/-- The state of the package. -/
structure State where
  thr : Threads
  clk : Clocks
  work : Work
  mem : MemSys
  cfg : PackageCfg
  agenda : List Turn
  counts : NMap Nat
  eng : Engines
  host : HostRing
  fab : Fabric
  dist : Dist
  ctl : Control
  dram : Dram
  links : NMap DieLink
  att : Attach
  faults : List StoreFault
  focus : Nat × Nat
  chosen : Option Group
  fresh : Nat
deriving DecidableEq, Repr

/-- A die clock that stands still. -/
def DieClock.init : DieClock := ⟨false, 0, 0, 0, none, none, [], 0⟩

/-- The distributors with nothing queued. -/
def Dist.init : Dist := ⟨[], [], 0, 0, 0, 0, [], [], [], [], [], [], [], [], [], none, none⟩

/-- The attachment at stage 0 (R424): C0 on stack 0, in safe function. The flash holds no record (log entry 2). -/
def Attach.init : Attach :=
  { stage := 0, safe := true, replacement := false, rejected := false, slot := 0, tray := 0, version := 0, recorded := 0, flash := [], applied := [],
    regs := [], mailbox := [], command := 0, cause := 0, outDies := [], outStacks := [], role := 0, peer := 0, epoch := 0, beatIn := 0,
    beatOut := 0, log := [], committed := [], governed := [], roles := 0, diesUp := [0], stacksUp := [0], fabricUp := false, codes := [],
    cxl := false, answer := [], spareLanes := 2 }

/-- The package right after power-good, at stage 0 (R424): C0 runs at 0.6 GHz on stack 0, the package is alone in its pool with pw = 0,
the function-mode word is 0x7F, the timers and counters are 0 and nothing is resident or queued. Log entry 2 names the values that
the spec does not give. -/
def State.reset : State :=
  { thr := ⟨[], [], []⟩
    clk := ⟨0, [{ DieClock.init with running := true }, DieClock.init, DieClock.init, DieClock.init]⟩
    work := ⟨[], [], [], []⟩
    mem :=
      { scratch := Mem.empty, exch := Mem.empty, acc := Mem.empty, hbm := Mem.empty, polarity := [], macros := [], l1 := [],
        icache := [], l2 := [], l1tlb := [], dieTlb := [], walks := [], walkFaults := [], fetches := [], ops := [], queue := [],
        updates := [], notices := [], exchStores := [], matrix := [], atomTags := [] }
    cfg := ⟨0, 0, [0], 0, 0, 0x7F, 0, 0, []⟩
    agenda := [], counts := [], eng := ⟨[], [], [], [], [], []⟩, host := ⟨[], 0, 0, [], [], [], []⟩, fab := ⟨[], [], [], [], [], [], [], []⟩
    dist := Dist.init, ctl := ⟨[], [], [], [], [], [], 0, [], [], [], [], none, []⟩, dram := ⟨[], [], [], [], [], [], [], [], []⟩, links := [], att := Attach.init
    faults := [], focus := (0, 0), chosen := none, fresh := 0 }

end Sys2Proof.Machine
end

