-- ==== Sys2Proof/Decode.lean ====
section
/-! DEFINITION. Decoding of instruction words (spec/12_encoding.md R270 to R279), total on any word, and after it the encoder,
written from the same encoding tables. A word outside the opcode map answers none: step raises the illegal-instruction trap
for it (R273). decode reads only which row of the map a word belongs to; limits on register fields and on subfield values are
WellFormed, checked when the word issues. -/

namespace Sys2Proof

/-- Bit n of a word, as a truth value. -/
def bitAt (n : Nat) (w : Word) : Bool := w.getLsbD n

/-- Opcode 0x01 (R275 to R278). -/
def decodeOp01 (w : Word) : Option Instr :=
  if w.extractLsb' 0 2 = 0#2 then some (.add (bitAt 31 w) (w.extractLsb' 17 7) (w.extractLsb' 10 7) (w.extractLsb' 3 7) (bitAt 2 w))
  else if w.extractLsb' 0 2 = 1#2 then some (.sub (bitAt 31 w) (w.extractLsb' 17 7) (w.extractLsb' 10 7) (w.extractLsb' 3 7) (bitAt 2 w))
  else if w.extractLsb' 0 2 = 2#2 then some (.addc (bitAt 31 w) (w.extractLsb' 17 7) (w.extractLsb' 10 7) (w.extractLsb' 3 7) (bitAt 2 w))
  else if w.extractLsb' 0 2 = 3#2 then some (.subb (bitAt 31 w) (w.extractLsb' 17 7) (w.extractLsb' 10 7) (w.extractLsb' 3 7) (bitAt 2 w))
  else none

/-- Opcode 0x02 (R275 to R278). -/
def decodeOp02 (w : Word) : Option Instr :=
  some (.addi (bitAt 31 w) (w.extractLsb' 17 7) (w.extractLsb' 10 7) (w.extractLsb' 0 10))

/-- Opcode 0x03 (R275 to R278). -/
def decodeOp03 (w : Word) : Option Instr :=
  if w.extractLsb' 0 2 = 0#2 then some (.mul (bitAt 31 w) (w.extractLsb' 17 7) (w.extractLsb' 10 7) (w.extractLsb' 3 7) (bitAt 2 w))
  else if w.extractLsb' 0 2 = 1#2 then some (.mulhI32 (bitAt 31 w) (w.extractLsb' 17 7) (w.extractLsb' 10 7) (w.extractLsb' 3 7) (bitAt 2 w))
  else if w.extractLsb' 0 2 = 2#2 then some (.mulhN32 (bitAt 31 w) (w.extractLsb' 17 7) (w.extractLsb' 10 7) (w.extractLsb' 3 7) (bitAt 2 w))
  else if w.extractLsb' 0 2 = 3#2 then some (.mad (bitAt 31 w) (w.extractLsb' 17 7) (w.extractLsb' 10 7) (w.extractLsb' 3 7) (bitAt 2 w))
  else none

/-- Opcode 0x04 (R275 to R278). -/
def decodeOp04 (w : Word) : Option Instr :=
  if w.extractLsb' 0 2 = 0#2 then some (.minI32 (bitAt 31 w) (w.extractLsb' 17 7) (w.extractLsb' 10 7) (w.extractLsb' 3 7) (bitAt 2 w))
  else if w.extractLsb' 0 2 = 1#2 then some (.minN32 (bitAt 31 w) (w.extractLsb' 17 7) (w.extractLsb' 10 7) (w.extractLsb' 3 7) (bitAt 2 w))
  else if w.extractLsb' 0 2 = 2#2 then some (.maxI32 (bitAt 31 w) (w.extractLsb' 17 7) (w.extractLsb' 10 7) (w.extractLsb' 3 7) (bitAt 2 w))
  else if w.extractLsb' 0 2 = 3#2 then some (.maxN32 (bitAt 31 w) (w.extractLsb' 17 7) (w.extractLsb' 10 7) (w.extractLsb' 3 7) (bitAt 2 w))
  else none

/-- Opcode 0x05 (R275 to R278). -/
def decodeOp05 (w : Word) : Option Instr :=
  if w.extractLsb' 0 2 = 0#2 then some (.and (bitAt 31 w) (w.extractLsb' 17 7) (w.extractLsb' 10 7) (w.extractLsb' 3 7) (bitAt 2 w))
  else if w.extractLsb' 0 2 = 1#2 then some (.or (bitAt 31 w) (w.extractLsb' 17 7) (w.extractLsb' 10 7) (w.extractLsb' 3 7) (bitAt 2 w))
  else if w.extractLsb' 0 2 = 2#2 then some (.xor (bitAt 31 w) (w.extractLsb' 17 7) (w.extractLsb' 10 7) (w.extractLsb' 3 7) (bitAt 2 w))
  else none

/-- Opcode 0x06 (R275 to R278). -/
def decodeOp06 (w : Word) : Option Instr :=
  if w.extractLsb' 0 2 = 0#2 then some (.shlReg (bitAt 31 w) (w.extractLsb' 17 7) (w.extractLsb' 10 7) (w.extractLsb' 3 7) (bitAt 2 w))
  else if w.extractLsb' 0 2 = 1#2 then some (.shrReg (bitAt 31 w) (w.extractLsb' 17 7) (w.extractLsb' 10 7) (w.extractLsb' 3 7) (bitAt 2 w))
  else if w.extractLsb' 0 2 = 2#2 then some (.sarReg (bitAt 31 w) (w.extractLsb' 17 7) (w.extractLsb' 10 7) (w.extractLsb' 3 7) (bitAt 2 w))
  else if w.extractLsb' 0 2 = 3#2 then some (.rolReg (bitAt 31 w) (w.extractLsb' 17 7) (w.extractLsb' 10 7) (w.extractLsb' 3 7) (bitAt 2 w))
  else none

/-- Opcode 0x07 (R275 to R278). -/
def decodeOp07 (w : Word) : Option Instr :=
  if w.extractLsb' 5 5 = 0#5 then some (.shlImm (bitAt 31 w) (w.extractLsb' 17 7) (w.extractLsb' 10 7) (w.extractLsb' 0 5))
  else if w.extractLsb' 5 5 = 8#5 then some (.shrImm (bitAt 31 w) (w.extractLsb' 17 7) (w.extractLsb' 10 7) (w.extractLsb' 0 5))
  else if w.extractLsb' 5 5 = 16#5 then some (.sarImm (bitAt 31 w) (w.extractLsb' 17 7) (w.extractLsb' 10 7) (w.extractLsb' 0 5))
  else if w.extractLsb' 5 5 = 24#5 then some (.rolImm (bitAt 31 w) (w.extractLsb' 17 7) (w.extractLsb' 10 7) (w.extractLsb' 0 5))
  else none

/-- Opcode 0x08 (R275 to R278). -/
def decodeOp08 (w : Word) : Option Instr :=
  if w.extractLsb' 0 6 = 0#6 then some (.abs (bitAt 31 w) (w.extractLsb' 17 7) (w.extractLsb' 10 7) (w.extractLsb' 6 4))
  else if w.extractLsb' 0 6 = 1#6 then some (.neg (bitAt 31 w) (w.extractLsb' 17 7) (w.extractLsb' 10 7) (w.extractLsb' 6 4))
  else if w.extractLsb' 0 6 = 2#6 then some (.clz (bitAt 31 w) (w.extractLsb' 17 7) (w.extractLsb' 10 7) (w.extractLsb' 6 4))
  else if w.extractLsb' 0 6 = 3#6 then some (.popc (bitAt 31 w) (w.extractLsb' 17 7) (w.extractLsb' 10 7) (w.extractLsb' 6 4))
  else if w.extractLsb' 0 6 = 4#6 then some (.brev (bitAt 31 w) (w.extractLsb' 17 7) (w.extractLsb' 10 7) (w.extractLsb' 6 4))
  else if w.extractLsb' 0 6 = 5#6 then some (.mov (bitAt 31 w) (w.extractLsb' 17 7) (w.extractLsb' 10 7) (w.extractLsb' 6 4))
  else none

/-- Opcode 0x09 (R275 to R278). -/
def decodeOp09 (w : Word) : Option Instr :=
  if w.extractLsb' 2 4 = 0#4 then some (.pk8 (bitAt 31 w) (w.extractLsb' 17 7) (w.extractLsb' 10 7) (w.extractLsb' 6 4) (w.extractLsb' 0 2))
  else if w.extractLsb' 2 4 = 4#4 then some (.upk8N (bitAt 31 w) (w.extractLsb' 17 7) (w.extractLsb' 10 7) (w.extractLsb' 6 4) (w.extractLsb' 0 2))
  else if w.extractLsb' 2 4 = 6#4 then some (.upk8I (bitAt 31 w) (w.extractLsb' 17 7) (w.extractLsb' 10 7) (w.extractLsb' 6 4) (w.extractLsb' 0 2))
  else if w.extractLsb' 3 3 = 4#3 then some (.pk4 (bitAt 31 w) (w.extractLsb' 17 7) (w.extractLsb' 10 7) (w.extractLsb' 6 4) (w.extractLsb' 0 3))
  else if w.extractLsb' 3 3 = 6#3 then some (.upk4N (bitAt 31 w) (w.extractLsb' 17 7) (w.extractLsb' 10 7) (w.extractLsb' 6 4) (w.extractLsb' 0 3))
  else if w.extractLsb' 3 3 = 7#3 then some (.upk4I (bitAt 31 w) (w.extractLsb' 17 7) (w.extractLsb' 10 7) (w.extractLsb' 6 4) (w.extractLsb' 0 3))
  else none

/-- Opcode 0x0A (R275 to R278). -/
def decodeOp0A (w : Word) : Option Instr :=
  if w.extractLsb' 0 2 = 0#2 then some (.bfx (bitAt 31 w) (w.extractLsb' 17 7) (w.extractLsb' 10 7) (w.extractLsb' 3 7) (bitAt 2 w))
  else if w.extractLsb' 0 2 = 1#2 then some (.bfxs (bitAt 31 w) (w.extractLsb' 17 7) (w.extractLsb' 10 7) (w.extractLsb' 3 7) (bitAt 2 w))
  else if w.extractLsb' 0 2 = 2#2 then some (.bfi (bitAt 31 w) (w.extractLsb' 17 7) (w.extractLsb' 10 7) (w.extractLsb' 3 7) (bitAt 2 w))
  else none

/-- Opcode 0x0B (R275 to R278). -/
def decodeOp0B (w : Word) : Option Instr :=
  if w.extractLsb' 0 2 = 0#2 then some (.bfx64 (bitAt 31 w) (w.extractLsb' 17 7) (w.extractLsb' 10 7) (w.extractLsb' 3 7) (bitAt 2 w))
  else if w.extractLsb' 0 2 = 1#2 then some (.bfxs64 (bitAt 31 w) (w.extractLsb' 17 7) (w.extractLsb' 10 7) (w.extractLsb' 3 7) (bitAt 2 w))
  else if w.extractLsb' 0 2 = 2#2 then some (.bfi64 (bitAt 31 w) (w.extractLsb' 17 7) (w.extractLsb' 10 7) (w.extractLsb' 3 7) (bitAt 2 w))
  else none

/-- Opcode 0x0C (R275 to R278). -/
def decodeOp0C (w : Word) : Option Instr :=
  some (.sel (bitAt 31 w) (w.extractLsb' 17 7) (w.extractLsb' 10 7) (w.extractLsb' 3 7) (w.extractLsb' 0 3))

/-- Opcode 0x0D (R275 to R278). -/
def decodeOp0D (w : Word) : Option Instr :=
  if w.extractLsb' 1 1 = 0#1 then some (.cmp (bitAt 31 w) (w.extractLsb' 20 4) (w.extractLsb' 17 3) (w.extractLsb' 10 7) (w.extractLsb' 3 7) (bitAt 2 w) (bitAt 0 w))
  else none

/-- Opcode 0x0E (R275 to R278). -/
def decodeOp0E (w : Word) : Option Instr :=
  some (.movi (bitAt 31 w) (w.extractLsb' 17 7) (w.extractLsb' 0 17))

/-- Opcode 0x0F (R275 to R278). -/
def decodeOp0F (w : Word) : Option Instr :=
  some (.movh (bitAt 31 w) (w.extractLsb' 17 7) (w.extractLsb' 0 17))

/-- Opcode 0x10 (R275 to R278). -/
def decodeOp10 (w : Word) : Option Instr :=
  if w.extractLsb' 0 2 = 0#2 then some (.add64 (bitAt 31 w) (w.extractLsb' 17 7) (w.extractLsb' 10 7) (w.extractLsb' 3 7) (bitAt 2 w))
  else if w.extractLsb' 0 2 = 1#2 then some (.sub64 (bitAt 31 w) (w.extractLsb' 17 7) (w.extractLsb' 10 7) (w.extractLsb' 3 7) (bitAt 2 w))
  else if w.extractLsb' 0 2 = 2#2 then some (.mul64 (bitAt 31 w) (w.extractLsb' 17 7) (w.extractLsb' 10 7) (w.extractLsb' 3 7) (bitAt 2 w))
  else if w.extractLsb' 0 2 = 3#2 then some (.mad64 (bitAt 31 w) (w.extractLsb' 17 7) (w.extractLsb' 10 7) (w.extractLsb' 3 7) (bitAt 2 w))
  else none

/-- Opcode 0x11 (R275 to R278). -/
def decodeOp11 (w : Word) : Option Instr :=
  if w.extractLsb' 0 2 = 0#2 then some (.shl64 (bitAt 31 w) (w.extractLsb' 17 7) (w.extractLsb' 10 7) (w.extractLsb' 3 7) (bitAt 2 w))
  else if w.extractLsb' 0 2 = 1#2 then some (.shr64 (bitAt 31 w) (w.extractLsb' 17 7) (w.extractLsb' 10 7) (w.extractLsb' 3 7) (bitAt 2 w))
  else if w.extractLsb' 0 2 = 2#2 then some (.sar64 (bitAt 31 w) (w.extractLsb' 17 7) (w.extractLsb' 10 7) (w.extractLsb' 3 7) (bitAt 2 w))
  else none

/-- Opcode 0x12 (R275 to R278). -/
def decodeOp12 (w : Word) : Option Instr :=
  if w.extractLsb' 0 2 = 0#2 then some (.min64I64 (bitAt 31 w) (w.extractLsb' 17 7) (w.extractLsb' 10 7) (w.extractLsb' 3 7) (bitAt 2 w))
  else if w.extractLsb' 0 2 = 1#2 then some (.min64N64 (bitAt 31 w) (w.extractLsb' 17 7) (w.extractLsb' 10 7) (w.extractLsb' 3 7) (bitAt 2 w))
  else if w.extractLsb' 0 2 = 2#2 then some (.max64I64 (bitAt 31 w) (w.extractLsb' 17 7) (w.extractLsb' 10 7) (w.extractLsb' 3 7) (bitAt 2 w))
  else if w.extractLsb' 0 2 = 3#2 then some (.max64N64 (bitAt 31 w) (w.extractLsb' 17 7) (w.extractLsb' 10 7) (w.extractLsb' 3 7) (bitAt 2 w))
  else none

/-- Opcode 0x13 (R275 to R278). -/
def decodeOp13 (w : Word) : Option Instr :=
  if w.extractLsb' 0 2 = 0#2 then some (.mulh64I64 (bitAt 31 w) (w.extractLsb' 17 7) (w.extractLsb' 10 7) (w.extractLsb' 3 7) (bitAt 2 w))
  else if w.extractLsb' 0 2 = 1#2 then some (.mulh64N64 (bitAt 31 w) (w.extractLsb' 17 7) (w.extractLsb' 10 7) (w.extractLsb' 3 7) (bitAt 2 w))
  else none

/-- Opcode 0x14 (R275 to R278). -/
def decodeOp14 (w : Word) : Option Instr :=
  if w.extractLsb' 1 1 = 0#1 then some (.cmp64 (bitAt 31 w) (w.extractLsb' 20 4) (w.extractLsb' 17 3) (w.extractLsb' 10 7) (w.extractLsb' 3 7) (bitAt 2 w) (bitAt 0 w))
  else none

/-- Opcode 0x15 (R275 to R278). -/
def decodeOp15 (w : Word) : Option Instr :=
  some (.fadd (bitAt 31 w) (w.extractLsb' 17 7) (w.extractLsb' 10 7) (w.extractLsb' 3 7) (bitAt 2 w) (w.extractLsb' 0 2))

/-- Opcode 0x16 (R275 to R278). -/
def decodeOp16 (w : Word) : Option Instr :=
  some (.fsub (bitAt 31 w) (w.extractLsb' 17 7) (w.extractLsb' 10 7) (w.extractLsb' 3 7) (bitAt 2 w) (w.extractLsb' 0 2))

/-- Opcode 0x17 (R275 to R278). -/
def decodeOp17 (w : Word) : Option Instr :=
  some (.fmul (bitAt 31 w) (w.extractLsb' 17 7) (w.extractLsb' 10 7) (w.extractLsb' 3 7) (bitAt 2 w) (w.extractLsb' 0 2))

/-- Opcode 0x18 (R275 to R278). -/
def decodeOp18 (w : Word) : Option Instr :=
  some (.ffma (bitAt 31 w) (w.extractLsb' 17 7) (w.extractLsb' 10 7) (w.extractLsb' 3 7) (bitAt 2 w) (w.extractLsb' 0 2))

/-- Opcode 0x19 (R275 to R278). -/
def decodeOp19 (w : Word) : Option Instr :=
  if w.extractLsb' 0 2 = 0#2 then some (.fmin (bitAt 31 w) (w.extractLsb' 17 7) (w.extractLsb' 10 7) (w.extractLsb' 3 7) (bitAt 2 w))
  else if w.extractLsb' 0 2 = 1#2 then some (.fmax (bitAt 31 w) (w.extractLsb' 17 7) (w.extractLsb' 10 7) (w.extractLsb' 3 7) (bitAt 2 w))
  else if w.extractLsb' 1 1 = 1#1 then some (.hmax2 (bitAt 31 w) (w.extractLsb' 17 7) (w.extractLsb' 10 7) (w.extractLsb' 3 7) (bitAt 2 w) (bitAt 0 w))
  else none

/-- Opcode 0x1A (R275 to R278). -/
def decodeOp1A (w : Word) : Option Instr :=
  if w.extractLsb' 0 2 = 0#2 then some (.fcmp (bitAt 31 w) (w.extractLsb' 20 4) (w.extractLsb' 17 3) (w.extractLsb' 10 7) (w.extractLsb' 3 7) (bitAt 2 w))
  else none

/-- Opcode 0x1B (R275 to R278). -/
def decodeOp1B (w : Word) : Option Instr :=
  if w.extractLsb' 0 6 = 0#6 then some (.frcp (bitAt 31 w) (w.extractLsb' 17 7) (w.extractLsb' 10 7) (w.extractLsb' 6 4))
  else if w.extractLsb' 0 6 = 1#6 then some (.frsq (bitAt 31 w) (w.extractLsb' 17 7) (w.extractLsb' 10 7) (w.extractLsb' 6 4))
  else if w.extractLsb' 0 6 = 2#6 then some (.fsqrt (bitAt 31 w) (w.extractLsb' 17 7) (w.extractLsb' 10 7) (w.extractLsb' 6 4))
  else if w.extractLsb' 0 6 = 3#6 then some (.fex2 (bitAt 31 w) (w.extractLsb' 17 7) (w.extractLsb' 10 7) (w.extractLsb' 6 4))
  else if w.extractLsb' 0 6 = 4#6 then some (.flg2 (bitAt 31 w) (w.extractLsb' 17 7) (w.extractLsb' 10 7) (w.extractLsb' 6 4))
  else if w.extractLsb' 0 6 = 5#6 then some (.fsin (bitAt 31 w) (w.extractLsb' 17 7) (w.extractLsb' 10 7) (w.extractLsb' 6 4))
  else if w.extractLsb' 0 6 = 6#6 then some (.fcos (bitAt 31 w) (w.extractLsb' 17 7) (w.extractLsb' 10 7) (w.extractLsb' 6 4))
  else if w.extractLsb' 0 6 = 7#6 then some (.ftanh (bitAt 31 w) (w.extractLsb' 17 7) (w.extractLsb' 10 7) (w.extractLsb' 6 4))
  else if w.extractLsb' 2 4 = 2#4 then some (.frnd (bitAt 31 w) (w.extractLsb' 17 7) (w.extractLsb' 10 7) (w.extractLsb' 6 4) (w.extractLsb' 0 2))
  else none

/-- Opcode 0x1C (R275 to R278). -/
def decodeOp1C (w : Word) : Option Instr :=
  some (.fcvt (bitAt 31 w) (w.extractLsb' 17 7) (w.extractLsb' 10 7) (w.extractLsb' 6 4) (w.extractLsb' 2 4) (w.extractLsb' 0 2))

/-- Opcode 0x1D (R275 to R278). -/
def decodeOp1D (w : Word) : Option Instr :=
  some (.fcvtSat (bitAt 31 w) (w.extractLsb' 17 7) (w.extractLsb' 10 7) (w.extractLsb' 6 4) (w.extractLsb' 2 4) (w.extractLsb' 0 2))

/-- Opcode 0x1E (R275 to R278). -/
def decodeOp1E (w : Word) : Option Instr :=
  if w.extractLsb' 1 1 = 0#1 then some (.hadd2 (bitAt 31 w) (w.extractLsb' 17 7) (w.extractLsb' 10 7) (w.extractLsb' 3 7) (bitAt 2 w) (bitAt 0 w))
  else if w.extractLsb' 1 1 = 1#1 then some (.hmul2 (bitAt 31 w) (w.extractLsb' 17 7) (w.extractLsb' 10 7) (w.extractLsb' 3 7) (bitAt 2 w) (bitAt 0 w))
  else none

/-- Opcode 0x1F (R275 to R278). -/
def decodeOp1F (w : Word) : Option Instr :=
  if w.extractLsb' 1 1 = 0#1 then some (.hfma2 (bitAt 31 w) (w.extractLsb' 17 7) (w.extractLsb' 10 7) (w.extractLsb' 3 7) (bitAt 2 w) (bitAt 0 w))
  else if w.extractLsb' 1 1 = 1#1 then some (.hmin2 (bitAt 31 w) (w.extractLsb' 17 7) (w.extractLsb' 10 7) (w.extractLsb' 3 7) (bitAt 2 w) (bitAt 0 w))
  else none

/-- Opcode 0x20 (R275 to R278). -/
def decodeOp20 (w : Word) : Option Instr :=
  if w.extractLsb' 0 2 = 0#2 then some (.dot4 (bitAt 31 w) (w.extractLsb' 17 7) (w.extractLsb' 10 7) (w.extractLsb' 3 7) (bitAt 2 w))
  else if w.extractLsb' 0 2 = 1#2 then some (.dot8 (bitAt 31 w) (w.extractLsb' 17 7) (w.extractLsb' 10 7) (w.extractLsb' 3 7) (bitAt 2 w))
  else if w.extractLsb' 0 2 = 2#2 then some (.dotm4 (bitAt 31 w) (w.extractLsb' 17 7) (w.extractLsb' 10 7) (w.extractLsb' 3 7) (bitAt 2 w))
  else none

/-- Opcode 0x21 (R275 to R278). -/
def decodeOp21 (w : Word) : Option Instr :=
  some (.dotm8 (bitAt 31 w) (w.extractLsb' 17 7) (w.extractLsb' 10 7) (w.extractLsb' 3 7) (bitAt 2 w) (w.extractLsb' 0 2))

/-- Opcode 0x22 (R275 to R278). -/
def decodeOp22 (w : Word) : Option Instr :=
  some (.sclb (bitAt 31 w) (w.extractLsb' 17 7) (w.extractLsb' 10 7) (w.extractLsb' 3 7) (bitAt 2 w) (w.extractLsb' 0 2))

/-- Opcode 0x23 (R275 to R278). -/
def decodeOp23 (w : Word) : Option Instr :=
  some (.shfl (bitAt 31 w) (w.extractLsb' 17 7) (w.extractLsb' 10 7) (w.extractLsb' 3 7) (bitAt 2 w) (w.extractLsb' 0 2))

/-- Opcode 0x24 (R275 to R278). -/
def decodeOp24 (w : Word) : Option Instr :=
  if w.extractLsb' 14 3 = 0#3 ∧ w.extractLsb' 0 10 = 0#10 then some (.voteBallot (bitAt 31 w) (w.extractLsb' 17 7) (bitAt 13 w) (w.extractLsb' 10 3))
  else if w.extractLsb' 14 3 = 0#3 ∧ w.extractLsb' 6 4 = 0#4 ∧ w.extractLsb' 0 3 = 1#3 then some (.voteAll (bitAt 31 w) (w.extractLsb' 17 7) (bitAt 13 w) (w.extractLsb' 10 3) (w.extractLsb' 3 3))
  else if w.extractLsb' 14 3 = 0#3 ∧ w.extractLsb' 6 4 = 0#4 ∧ w.extractLsb' 0 3 = 2#3 then some (.voteAny (bitAt 31 w) (w.extractLsb' 17 7) (bitAt 13 w) (w.extractLsb' 10 3) (w.extractLsb' 3 3))
  else if w.extractLsb' 14 3 = 0#3 ∧ w.extractLsb' 6 4 = 0#4 ∧ w.extractLsb' 0 3 = 3#3 then some (.voteEq (bitAt 31 w) (w.extractLsb' 17 7) (bitAt 13 w) (w.extractLsb' 10 3) (w.extractLsb' 3 3))
  else none

/-- Opcode 0x25 (R275 to R278). -/
def decodeOp25 (w : Word) : Option Instr :=
  if w.extractLsb' 4 2 = 0#2 then some (.lred (bitAt 31 w) (w.extractLsb' 17 7) (w.extractLsb' 10 7) (w.extractLsb' 6 4) (w.extractLsb' 0 4))
  else none

/-- Opcode 0x26 (R275 to R278). -/
def decodeOp26 (w : Word) : Option Instr :=
  if w.extractLsb' 5 1 = 0#1 then some (.lscan (bitAt 31 w) (w.extractLsb' 17 7) (w.extractLsb' 10 7) (w.extractLsb' 6 4) (bitAt 4 w) (w.extractLsb' 0 4))
  else none

/-- Opcode 0x27 (R275 to R278). -/
def decodeOp27 (w : Word) : Option Instr :=
  if w.extractLsb' 0 10 = 0#10 then some (.matchW (bitAt 31 w) (w.extractLsb' 17 7) (w.extractLsb' 10 7))
  else if w.extractLsb' 0 10 = 1#10 then some (.match64 (bitAt 31 w) (w.extractLsb' 17 7) (w.extractLsb' 10 7))
  else if w.extractLsb' 0 10 = 2#10 then some (.fmtv (bitAt 31 w) (w.extractLsb' 17 7) (w.extractLsb' 10 7))
  else if w.extractLsb' 0 17 = 3#17 then some (.cvg (bitAt 31 w) (w.extractLsb' 17 7))
  else none

/-- Opcode 0x28 (R275 to R278). -/
def decodeOp28 (w : Word) : Option Instr :=
  if w.extractLsb' 20 4 = 0#4 ∧ w.extractLsb' 14 3 = 0#3 ∧ w.extractLsb' 7 3 = 0#3 ∧ w.extractLsb' 0 3 = 0#3 then some (.pand (bitAt 31 w) (w.extractLsb' 17 3) (bitAt 13 w) (w.extractLsb' 10 3) (bitAt 6 w) (w.extractLsb' 3 3))
  else if w.extractLsb' 20 4 = 0#4 ∧ w.extractLsb' 14 3 = 0#3 ∧ w.extractLsb' 7 3 = 0#3 ∧ w.extractLsb' 0 3 = 1#3 then some (.por (bitAt 31 w) (w.extractLsb' 17 3) (bitAt 13 w) (w.extractLsb' 10 3) (bitAt 6 w) (w.extractLsb' 3 3))
  else if w.extractLsb' 20 4 = 0#4 ∧ w.extractLsb' 14 3 = 0#3 ∧ w.extractLsb' 7 3 = 0#3 ∧ w.extractLsb' 0 3 = 2#3 then some (.pxor (bitAt 31 w) (w.extractLsb' 17 3) (bitAt 13 w) (w.extractLsb' 10 3) (bitAt 6 w) (w.extractLsb' 3 3))
  else if w.extractLsb' 20 4 = 0#4 ∧ w.extractLsb' 14 3 = 0#3 ∧ w.extractLsb' 0 10 = 3#10 then some (.pnot (bitAt 31 w) (w.extractLsb' 17 3) (bitAt 13 w) (w.extractLsb' 10 3))
  else none

/-- Opcode 0x29 (R275 to R278). -/
def decodeOp29 (w : Word) : Option Instr :=
  some (.bra (bitAt 31 w) (w.extractLsb' 21 3) (bitAt 20 w) (w.extractLsb' 0 20))

/-- Opcode 0x2A (R275 to R278). -/
def decodeOp2A (w : Word) : Option Instr :=
  some (.brp (bitAt 31 w) (w.extractLsb' 21 3) (bitAt 20 w) (w.extractLsb' 0 20))

/-- Opcode 0x2B (R275 to R278). -/
def decodeOp2B (w : Word) : Option Instr :=
  some (.call (bitAt 31 w) (w.extractLsb' 17 7) (w.extractLsb' 0 17))

/-- Opcode 0x2C (R275 to R278). -/
def decodeOp2C (w : Word) : Option Instr :=
  if w.extractLsb' 17 7 = 0#7 ∧ w.extractLsb' 0 10 = 0#10 then some (.ret (bitAt 31 w) (w.extractLsb' 10 7))
  else if w.extractLsb' 17 7 = 0#7 ∧ w.extractLsb' 0 10 = 1#10 then some (.jmp (bitAt 31 w) (w.extractLsb' 10 7))
  else if w.extractLsb' 0 24 = 2#24 then some (.exit (bitAt 31 w))
  else if w.extractLsb' 0 24 = 3#24 then some (.nop (bitAt 31 w))
  else none

/-- Opcode 0x2D (R275 to R278). -/
def decodeOp2D (w : Word) : Option Instr :=
  if w.extractLsb' 0 13 = 0#13 then some (.rep (bitAt 31 w) (w.extractLsb' 18 6) (bitAt 17 w) (bitAt 16 w) (bitAt 15 w) (w.extractLsb' 13 2))
  else none

/-- Opcode 0x2E (R275 to R278). -/
def decodeOp2E (w : Word) : Option Instr :=
  if w.extractLsb' 10 7 = 0#7 then some (.rsr (bitAt 31 w) (w.extractLsb' 17 7) (w.extractLsb' 0 10))
  else none

/-- Opcode 0x2F (R275 to R278). -/
def decodeOp2F (w : Word) : Option Instr :=
  if w.extractLsb' 17 7 = 0#7 then some (.wbase (bitAt 31 w) (w.extractLsb' 10 7) (w.extractLsb' 0 10))
  else none

/-- Opcode 0x30 (R275 to R278). -/
def decodeOp30 (w : Word) : Option Instr :=
  if w.extractLsb' 0 1 = 0#1 then some (.ldG (bitAt 31 w) (w.extractLsb' 17 7) (w.extractLsb' 10 7) (w.extractLsb' 6 4) (w.extractLsb' 3 3) (w.extractLsb' 1 2))
  else if w.extractLsb' 0 1 = 1#1 then some (.ldC (bitAt 31 w) (w.extractLsb' 17 7) (w.extractLsb' 10 7) (w.extractLsb' 6 4) (w.extractLsb' 3 3) (w.extractLsb' 1 2))
  else none

/-- Opcode 0x31 (R275 to R278). -/
def decodeOp31 (w : Word) : Option Instr :=
  if w.extractLsb' 0 3 = 0#3 then some (.ldS (bitAt 31 w) (w.extractLsb' 17 7) (w.extractLsb' 10 7) (w.extractLsb' 6 4) (w.extractLsb' 3 3))
  else if w.extractLsb' 0 3 = 1#3 then some (.ldX (bitAt 31 w) (w.extractLsb' 17 7) (w.extractLsb' 10 7) (w.extractLsb' 6 4) (w.extractLsb' 3 3))
  else none

/-- Opcode 0x32 (R275 to R278). -/
def decodeOp32 (w : Word) : Option Instr :=
  some (.ldAcq (bitAt 31 w) (w.extractLsb' 17 7) (w.extractLsb' 10 7) (w.extractLsb' 6 4) (w.extractLsb' 3 3) (w.extractLsb' 0 3))

/-- Opcode 0x33 (R275 to R278). -/
def decodeOp33 (w : Word) : Option Instr :=
  if w.extractLsb' 6 4 = 0#4 ∧ w.extractLsb' 0 1 = 0#1 then some (.stG (bitAt 31 w) (w.extractLsb' 17 7) (w.extractLsb' 10 7) (w.extractLsb' 3 3) (w.extractLsb' 1 2))
  else if w.extractLsb' 6 4 = 0#4 ∧ w.extractLsb' 0 3 = 1#3 then some (.stS (bitAt 31 w) (w.extractLsb' 17 7) (w.extractLsb' 10 7) (w.extractLsb' 3 3))
  else none

/-- Opcode 0x34 (R275 to R278). -/
def decodeOp34 (w : Word) : Option Instr :=
  if w.extractLsb' 6 4 = 0#4 then some (.stRel (bitAt 31 w) (w.extractLsb' 17 7) (w.extractLsb' 10 7) (w.extractLsb' 3 3) (w.extractLsb' 0 3))
  else none

/-- Opcode 0x35 (R275 to R278). -/
def decodeOp35 (w : Word) : Option Instr :=
  if w.extractLsb' 2 1 = 0#1 then some (.stX (bitAt 31 w) (w.extractLsb' 17 7) (w.extractLsb' 10 7) (w.extractLsb' 3 7) (w.extractLsb' 0 2))
  else none

/-- Opcode 0x36 (R275 to R278). -/
def decodeOp36 (w : Word) : Option Instr :=
  if w.extractLsb' 2 1 = 0#1 then some (.gft (bitAt 31 w) (w.extractLsb' 17 7) (w.extractLsb' 10 7) (w.extractLsb' 3 7) (w.extractLsb' 0 2))
  else none

/-- Opcode 0x37 (R275 to R278). -/
def decodeOp37 (w : Word) : Option Instr :=
  if w.extractLsb' 3 21 = 0#21 then some (.fence (bitAt 31 w) (w.extractLsb' 0 3))
  else if w.extractLsb' 3 21 = 1#21 then some (.fenceRel (bitAt 31 w) (w.extractLsb' 0 3))
  else if w.extractLsb' 3 21 = 2#21 then some (.fenceAcq (bitAt 31 w) (w.extractLsb' 0 3))
  else none

/-- Opcode 0x38 (R275 to R278). -/
def decodeOp38 (w : Word) : Option Instr :=
  if w.extractLsb' 17 7 = 0#7 ∧ w.extractLsb' 0 10 = 0#10 then some (.cflush (bitAt 31 w) (w.extractLsb' 10 7))
  else if w.extractLsb' 17 7 = 0#7 ∧ w.extractLsb' 0 10 = 1#10 then some (.cdemote (bitAt 31 w) (w.extractLsb' 10 7))
  else if w.extractLsb' 17 7 = 0#7 ∧ w.extractLsb' 4 6 = 0#6 ∧ w.extractLsb' 0 2 = 2#2 then some (.cpref (bitAt 31 w) (w.extractLsb' 10 7) (w.extractLsb' 2 2))
  else none

/-- Opcode 0x39 (R275 to R278). -/
def decodeOp39 (w : Word) : Option Instr :=
  if w.extractLsb' 18 6 = 0#6 ∧ w.extractLsb' 0 4 = 0#4 then some (.bld (bitAt 31 w) (w.extractLsb' 11 7) (w.extractLsb' 4 7))
  else none

/-- Opcode 0x3A (R275 to R278). -/
def decodeOp3A (w : Word) : Option Instr :=
  if w.extractLsb' 22 2 = 0#2 ∧ w.extractLsb' 11 7 = 0#7 ∧ w.extractLsb' 0 4 = 0#4 then some (.bsel (bitAt 31 w) (w.extractLsb' 18 4) (w.extractLsb' 4 7))
  else none

/-- Opcode 0x3B (R275 to R278). -/
def decodeOp3B (w : Word) : Option Instr :=
  some (.mma (bitAt 31 w) (w.extractLsb' 18 6) (w.extractLsb' 11 7) (w.extractLsb' 4 7) (w.extractLsb' 0 4))

/-- Opcode 0x3C (R275 to R278). -/
def decodeOp3C (w : Word) : Option Instr :=
  some (.mmaz (bitAt 31 w) (w.extractLsb' 18 6) (w.extractLsb' 11 7) (w.extractLsb' 4 7) (w.extractLsb' 0 4))

/-- Opcode 0x3D (R275 to R278). -/
def decodeOp3D (w : Word) : Option Instr :=
  if w.extractLsb' 0 18 = 0#18 then some (.acz (bitAt 31 w) (w.extractLsb' 18 6))
  else none

/-- Opcode 0x3E (R275 to R278). -/
def decodeOp3E (w : Word) : Option Instr :=
  if w.extractLsb' 0 11 = 0#11 then some (.acld (bitAt 31 w) (w.extractLsb' 18 6) (w.extractLsb' 11 7))
  else none

/-- Opcode 0x3F (R275 to R278). -/
def decodeOp3F (w : Word) : Option Instr :=
  if w.extractLsb' 0 4 = 0#4 then some (.acst (bitAt 31 w) (w.extractLsb' 18 6) (w.extractLsb' 11 7) (w.extractLsb' 4 7))
  else none

/-- Opcode 0x40 (R275 to R278). -/
def decodeOp40 (w : Word) : Option Instr :=
  some (.acrd (bitAt 31 w) (w.extractLsb' 17 7) (w.extractLsb' 10 7) (w.extractLsb' 6 4) (w.extractLsb' 0 6))

/-- Opcode 0x41 (R275 to R278). -/
def decodeOp41 (w : Word) : Option Instr :=
  if w.extractLsb' 6 4 = 0#4 then some (.acwr (bitAt 31 w) (w.extractLsb' 17 7) (w.extractLsb' 10 7) (w.extractLsb' 0 6))
  else none

/-- Opcode 0x42 (R275 to R278). -/
def decodeOp42 (w : Word) : Option Instr :=
  if w.extractLsb' 6 11 = 0#11 then some (.acscl (bitAt 31 w) (w.extractLsb' 17 7) (w.extractLsb' 0 6))
  else none

/-- Opcode 0x43 (R275 to R278). -/
def decodeOp43 (w : Word) : Option Instr :=
  if w.extractLsb' 2 1 = 0#1 then some (.atmAdd (bitAt 31 w) (w.extractLsb' 17 7) (w.extractLsb' 10 7) (w.extractLsb' 3 7) (bitAt 1 w) (bitAt 0 w))
  else if w.extractLsb' 17 7 = 120#7 ∧ w.extractLsb' 2 1 = 1#1 then some (.redAdd (bitAt 31 w) (w.extractLsb' 10 7) (w.extractLsb' 3 7) (bitAt 1 w) (bitAt 0 w))
  else none

/-- Opcode 0x44 (R275 to R278). -/
def decodeOp44 (w : Word) : Option Instr :=
  if w.extractLsb' 2 1 = 0#1 then some (.atmImin (bitAt 31 w) (w.extractLsb' 17 7) (w.extractLsb' 10 7) (w.extractLsb' 3 7) (bitAt 1 w) (bitAt 0 w))
  else if w.extractLsb' 17 7 = 120#7 ∧ w.extractLsb' 2 1 = 1#1 then some (.redImin (bitAt 31 w) (w.extractLsb' 10 7) (w.extractLsb' 3 7) (bitAt 1 w) (bitAt 0 w))
  else none

/-- Opcode 0x45 (R275 to R278). -/
def decodeOp45 (w : Word) : Option Instr :=
  if w.extractLsb' 2 1 = 0#1 then some (.atmNmin (bitAt 31 w) (w.extractLsb' 17 7) (w.extractLsb' 10 7) (w.extractLsb' 3 7) (bitAt 1 w) (bitAt 0 w))
  else if w.extractLsb' 17 7 = 120#7 ∧ w.extractLsb' 2 1 = 1#1 then some (.redNmin (bitAt 31 w) (w.extractLsb' 10 7) (w.extractLsb' 3 7) (bitAt 1 w) (bitAt 0 w))
  else none

/-- Opcode 0x46 (R275 to R278). -/
def decodeOp46 (w : Word) : Option Instr :=
  if w.extractLsb' 2 1 = 0#1 then some (.atmImax (bitAt 31 w) (w.extractLsb' 17 7) (w.extractLsb' 10 7) (w.extractLsb' 3 7) (bitAt 1 w) (bitAt 0 w))
  else if w.extractLsb' 17 7 = 120#7 ∧ w.extractLsb' 2 1 = 1#1 then some (.redImax (bitAt 31 w) (w.extractLsb' 10 7) (w.extractLsb' 3 7) (bitAt 1 w) (bitAt 0 w))
  else none

/-- Opcode 0x47 (R275 to R278). -/
def decodeOp47 (w : Word) : Option Instr :=
  if w.extractLsb' 2 1 = 0#1 then some (.atmNmax (bitAt 31 w) (w.extractLsb' 17 7) (w.extractLsb' 10 7) (w.extractLsb' 3 7) (bitAt 1 w) (bitAt 0 w))
  else if w.extractLsb' 17 7 = 120#7 ∧ w.extractLsb' 2 1 = 1#1 then some (.redNmax (bitAt 31 w) (w.extractLsb' 10 7) (w.extractLsb' 3 7) (bitAt 1 w) (bitAt 0 w))
  else none

/-- Opcode 0x48 (R275 to R278). -/
def decodeOp48 (w : Word) : Option Instr :=
  if w.extractLsb' 2 1 = 0#1 then some (.atmAnd (bitAt 31 w) (w.extractLsb' 17 7) (w.extractLsb' 10 7) (w.extractLsb' 3 7) (bitAt 1 w) (bitAt 0 w))
  else if w.extractLsb' 17 7 = 120#7 ∧ w.extractLsb' 2 1 = 1#1 then some (.redAnd (bitAt 31 w) (w.extractLsb' 10 7) (w.extractLsb' 3 7) (bitAt 1 w) (bitAt 0 w))
  else none

/-- Opcode 0x49 (R275 to R278). -/
def decodeOp49 (w : Word) : Option Instr :=
  if w.extractLsb' 2 1 = 0#1 then some (.atmOr (bitAt 31 w) (w.extractLsb' 17 7) (w.extractLsb' 10 7) (w.extractLsb' 3 7) (bitAt 1 w) (bitAt 0 w))
  else if w.extractLsb' 17 7 = 120#7 ∧ w.extractLsb' 2 1 = 1#1 then some (.redOr (bitAt 31 w) (w.extractLsb' 10 7) (w.extractLsb' 3 7) (bitAt 1 w) (bitAt 0 w))
  else none

/-- Opcode 0x4A (R275 to R278). -/
def decodeOp4A (w : Word) : Option Instr :=
  if w.extractLsb' 2 1 = 0#1 then some (.atmXor (bitAt 31 w) (w.extractLsb' 17 7) (w.extractLsb' 10 7) (w.extractLsb' 3 7) (bitAt 1 w) (bitAt 0 w))
  else if w.extractLsb' 17 7 = 120#7 ∧ w.extractLsb' 2 1 = 1#1 then some (.redXor (bitAt 31 w) (w.extractLsb' 10 7) (w.extractLsb' 3 7) (bitAt 1 w) (bitAt 0 w))
  else none

/-- Opcode 0x4B (R275 to R278). -/
def decodeOp4B (w : Word) : Option Instr :=
  if w.extractLsb' 2 1 = 0#1 then some (.atmXchg (bitAt 31 w) (w.extractLsb' 17 7) (w.extractLsb' 10 7) (w.extractLsb' 3 7) (bitAt 1 w) (bitAt 0 w))
  else none

/-- Opcode 0x4C (R275 to R278). -/
def decodeOp4C (w : Word) : Option Instr :=
  if w.extractLsb' 2 1 = 0#1 then some (.atmCas (bitAt 31 w) (w.extractLsb' 17 7) (w.extractLsb' 10 7) (w.extractLsb' 3 7) (bitAt 1 w) (bitAt 0 w))
  else none

/-- Opcode 0x4D (R275 to R278). -/
def decodeOp4D (w : Word) : Option Instr :=
  if w.extractLsb' 2 1 = 0#1 then some (.atmFaddG (bitAt 31 w) (w.extractLsb' 17 7) (w.extractLsb' 10 7) (w.extractLsb' 3 7) (w.extractLsb' 0 2))
  else if w.extractLsb' 17 7 = 120#7 ∧ w.extractLsb' 2 1 = 1#1 then some (.redFaddG (bitAt 31 w) (w.extractLsb' 10 7) (w.extractLsb' 3 7) (w.extractLsb' 0 2))
  else none

/-- Opcode 0x4E (R275 to R278). -/
def decodeOp4E (w : Word) : Option Instr :=
  if w.extractLsb' 2 1 = 0#1 then some (.atmFaddS (bitAt 31 w) (w.extractLsb' 17 7) (w.extractLsb' 10 7) (w.extractLsb' 3 7) (w.extractLsb' 0 2))
  else if w.extractLsb' 17 7 = 120#7 ∧ w.extractLsb' 2 1 = 1#1 then some (.redFaddS (bitAt 31 w) (w.extractLsb' 10 7) (w.extractLsb' 3 7) (w.extractLsb' 0 2))
  else none

/-- Opcode 0x50 (R275 to R278). -/
def decodeOp50 (w : Word) : Option Instr :=
  if w.extractLsb' 17 7 = 0#7 ∧ w.extractLsb' 0 10 = 0#10 then some (.xcp (bitAt 31 w) (w.extractLsb' 10 7))
  else if w.extractLsb' 17 7 = 0#7 ∧ w.extractLsb' 0 10 = 1#10 then some (.xget (bitAt 31 w) (w.extractLsb' 10 7))
  else if w.extractLsb' 17 7 = 0#7 ∧ w.extractLsb' 0 10 = 2#10 then some (.xput (bitAt 31 w) (w.extractLsb' 10 7))
  else if w.extractLsb' 17 7 = 0#7 ∧ w.extractLsb' 0 10 = 3#10 then some (.xputRel (bitAt 31 w) (w.extractLsb' 10 7))
  else none

/-- Opcode 0x51 (R275 to R278). -/
def decodeOp51 (w : Word) : Option Instr :=
  if w.extractLsb' 17 7 = 0#7 ∧ w.extractLsb' 0 10 = 0#10 then some (.xred (bitAt 31 w) (w.extractLsb' 10 7))
  else if w.extractLsb' 17 7 = 0#7 ∧ w.extractLsb' 0 10 = 1#10 then some (.xsig (bitAt 31 w) (w.extractLsb' 10 7))
  else if w.extractLsb' 17 7 = 0#7 ∧ w.extractLsb' 0 10 = 2#10 then some (.xgth (bitAt 31 w) (w.extractLsb' 10 7))
  else if w.extractLsb' 17 7 = 0#7 ∧ w.extractLsb' 0 10 = 3#10 then some (.xrsc (bitAt 31 w) (w.extractLsb' 10 7))
  else none

/-- Opcode 0x52 (R275 to R278). -/
def decodeOp52 (w : Word) : Option Instr :=
  if w.extractLsb' 17 7 = 0#7 ∧ w.extractLsb' 0 3 = 0#3 then some (.chap (bitAt 31 w) (w.extractLsb' 10 7) (w.extractLsb' 3 7))
  else none

/-- Opcode 0x53 (R275 to R278). -/
def decodeOp53 (w : Word) : Option Instr :=
  if w.extractLsb' 10 14 = 0#14 ∧ w.extractLsb' 6 2 = 0#2 then some (.wcnt (bitAt 31 w) (w.extractLsb' 8 2) (w.extractLsb' 0 6))
  else none

/-- Opcode 0x54 (R275 to R278). -/
def decodeOp54 (w : Word) : Option Instr :=
  if w.extractLsb' 17 7 = 0#7 ∧ w.extractLsb' 0 3 = 0#3 then some (.syarm (bitAt 31 w) (w.extractLsb' 10 7) (w.extractLsb' 3 7))
  else if w.extractLsb' 17 7 = 0#7 ∧ w.extractLsb' 0 3 = 1#3 then some (.syadd (bitAt 31 w) (w.extractLsb' 10 7) (w.extractLsb' 3 7))
  else if w.extractLsb' 17 7 = 0#7 ∧ w.extractLsb' 0 3 = 2#3 then some (.sywait (bitAt 31 w) (w.extractLsb' 10 7) (w.extractLsb' 3 7))
  else none

/-- Opcode 0x55 (R275 to R278). -/
def decodeOp55 (w : Word) : Option Instr :=
  if w.extractLsb' 0 24 = 0#24 then some (.barWg (bitAt 31 w))
  else if w.extractLsb' 0 24 = 1#24 then some (.barGang (bitAt 31 w))
  else if w.extractLsb' 0 24 = 2#24 then some (.barX (bitAt 31 w))
  else none

/-- Opcode 0x56 (R275 to R278). -/
def decodeOp56 (w : Word) : Option Instr :=
  if w.extractLsb' 17 7 = 0#7 ∧ w.extractLsb' 0 10 = 0#10 then some (.mon (bitAt 31 w) (w.extractLsb' 10 7))
  else if w.extractLsb' 17 7 = 0#7 ∧ w.extractLsb' 0 10 = 1#10 then some (.mwait (bitAt 31 w) (w.extractLsb' 10 7))
  else none

/-- Opcode 0x57 (R275 to R278). -/
def decodeOp57 (w : Word) : Option Instr :=
  if w.extractLsb' 17 7 = 0#7 ∧ w.extractLsb' 0 3 = 0#3 then some (.ropen (bitAt 31 w) (w.extractLsb' 10 7) (w.extractLsb' 3 7))
  else if w.extractLsb' 0 24 = 1#24 then some (.rclose (bitAt 31 w))
  else if w.extractLsb' 0 17 = 2#17 then some (.rdepth (bitAt 31 w) (w.extractLsb' 17 7))
  else none

/-- Opcode 0x58 (R275 to R278). -/
def decodeOp58 (w : Word) : Option Instr :=
  if w.extractLsb' 17 7 = 0#7 ∧ w.extractLsb' 0 3 = 0#3 then some (.rkeepG (bitAt 31 w) (w.extractLsb' 10 7) (w.extractLsb' 3 7))
  else if w.extractLsb' 17 7 = 0#7 ∧ w.extractLsb' 0 3 = 1#3 then some (.rkeepS (bitAt 31 w) (w.extractLsb' 10 7) (w.extractLsb' 3 7))
  else none

/-- Opcode 0x59 (R275 to R278). -/
def decodeOp59 (w : Word) : Option Instr :=
  if w.extractLsb' 17 7 = 0#7 ∧ w.extractLsb' 0 10 = 0#10 then some (.trap (bitAt 31 w) (w.extractLsb' 10 7))
  else none

/-- Opcode 0x5A (R275 to R278). -/
def decodeOp5A (w : Word) : Option Instr :=
  if w.extractLsb' 0 24 = 0#24 then some (.eretResume (bitAt 31 w))
  else if w.extractLsb' 0 24 = 1#24 then some (.eretRetry (bitAt 31 w))
  else if w.extractLsb' 0 24 = 2#24 then some (.eretEscalate (bitAt 31 w))
  else if w.extractLsb' 0 24 = 3#24 then some (.eretKill (bitAt 31 w))
  else none

/-- Opcode 0x5B (R275 to R278). -/
def decodeOp5B (w : Word) : Option Instr :=
  if w.extractLsb' 17 7 = 0#7 ∧ w.extractLsb' 4 6 = 0#6 then some (.segw (bitAt 31 w) (w.extractLsb' 10 7) (w.extractLsb' 0 4))
  else none

/-- Opcode 0x5C (R275 to R278). -/
def decodeOp5C (w : Word) : Option Instr :=
  if w.extractLsb' 4 13 = 0#13 then some (.segr (bitAt 31 w) (w.extractLsb' 17 7) (w.extractLsb' 0 4))
  else none

/-- Opcode 0x5D (R275 to R278). -/
def decodeOp5D (w : Word) : Option Instr :=
  if w.extractLsb' 17 7 = 0#7 then some (.wsr (bitAt 31 w) (w.extractLsb' 10 7) (w.extractLsb' 0 10))
  else none

/-- Opcode 0x5E (R275 to R278). -/
def decodeOp5E (w : Word) : Option Instr :=
  if w.extractLsb' 17 7 = 0#7 ∧ w.extractLsb' 0 3 = 0#3 then some (.tlbiVa (bitAt 31 w) (w.extractLsb' 10 7) (w.extractLsb' 3 7))
  else if w.extractLsb' 10 14 = 0#14 ∧ w.extractLsb' 0 3 = 1#3 then some (.tlbiCtx (bitAt 31 w) (w.extractLsb' 3 7))
  else if w.extractLsb' 0 24 = 2#24 then some (.tlbiAll (bitAt 31 w))
  else none

/-- Opcode 0x5F (R275 to R278). -/
def decodeOp5F (w : Word) : Option Instr :=
  if w.extractLsb' 0 24 = 0#24 then some (.yield (bitAt 31 w))
  else none

/-- Opcode 0x60 (R275 to R278). -/
def decodeOp60 (w : Word) : Option Instr :=
  if w.extractLsb' 17 7 = 0#7 ∧ w.extractLsb' 0 10 = 0#10 then some (.spawn (bitAt 31 w) (w.extractLsb' 10 7))
  else none

/-- Decode one instruction word: the major opcode, bits [30:24], selects the row's form (R270). -/
def decode (w : Word) : Option Instr :=
  match (w.extractLsb' 24 7).toNat with
  | 0x01 => decodeOp01 w
  | 0x02 => decodeOp02 w
  | 0x03 => decodeOp03 w
  | 0x04 => decodeOp04 w
  | 0x05 => decodeOp05 w
  | 0x06 => decodeOp06 w
  | 0x07 => decodeOp07 w
  | 0x08 => decodeOp08 w
  | 0x09 => decodeOp09 w
  | 0x0A => decodeOp0A w
  | 0x0B => decodeOp0B w
  | 0x0C => decodeOp0C w
  | 0x0D => decodeOp0D w
  | 0x0E => decodeOp0E w
  | 0x0F => decodeOp0F w
  | 0x10 => decodeOp10 w
  | 0x11 => decodeOp11 w
  | 0x12 => decodeOp12 w
  | 0x13 => decodeOp13 w
  | 0x14 => decodeOp14 w
  | 0x15 => decodeOp15 w
  | 0x16 => decodeOp16 w
  | 0x17 => decodeOp17 w
  | 0x18 => decodeOp18 w
  | 0x19 => decodeOp19 w
  | 0x1A => decodeOp1A w
  | 0x1B => decodeOp1B w
  | 0x1C => decodeOp1C w
  | 0x1D => decodeOp1D w
  | 0x1E => decodeOp1E w
  | 0x1F => decodeOp1F w
  | 0x20 => decodeOp20 w
  | 0x21 => decodeOp21 w
  | 0x22 => decodeOp22 w
  | 0x23 => decodeOp23 w
  | 0x24 => decodeOp24 w
  | 0x25 => decodeOp25 w
  | 0x26 => decodeOp26 w
  | 0x27 => decodeOp27 w
  | 0x28 => decodeOp28 w
  | 0x29 => decodeOp29 w
  | 0x2A => decodeOp2A w
  | 0x2B => decodeOp2B w
  | 0x2C => decodeOp2C w
  | 0x2D => decodeOp2D w
  | 0x2E => decodeOp2E w
  | 0x2F => decodeOp2F w
  | 0x30 => decodeOp30 w
  | 0x31 => decodeOp31 w
  | 0x32 => decodeOp32 w
  | 0x33 => decodeOp33 w
  | 0x34 => decodeOp34 w
  | 0x35 => decodeOp35 w
  | 0x36 => decodeOp36 w
  | 0x37 => decodeOp37 w
  | 0x38 => decodeOp38 w
  | 0x39 => decodeOp39 w
  | 0x3A => decodeOp3A w
  | 0x3B => decodeOp3B w
  | 0x3C => decodeOp3C w
  | 0x3D => decodeOp3D w
  | 0x3E => decodeOp3E w
  | 0x3F => decodeOp3F w
  | 0x40 => decodeOp40 w
  | 0x41 => decodeOp41 w
  | 0x42 => decodeOp42 w
  | 0x43 => decodeOp43 w
  | 0x44 => decodeOp44 w
  | 0x45 => decodeOp45 w
  | 0x46 => decodeOp46 w
  | 0x47 => decodeOp47 w
  | 0x48 => decodeOp48 w
  | 0x49 => decodeOp49 w
  | 0x4A => decodeOp4A w
  | 0x4B => decodeOp4B w
  | 0x4C => decodeOp4C w
  | 0x4D => decodeOp4D w
  | 0x4E => decodeOp4E w
  | 0x50 => decodeOp50 w
  | 0x51 => decodeOp51 w
  | 0x52 => decodeOp52 w
  | 0x53 => decodeOp53 w
  | 0x54 => decodeOp54 w
  | 0x55 => decodeOp55 w
  | 0x56 => decodeOp56 w
  | 0x57 => decodeOp57 w
  | 0x58 => decodeOp58 w
  | 0x59 => decodeOp59 w
  | 0x5A => decodeOp5A w
  | 0x5B => decodeOp5B w
  | 0x5C => decodeOp5C w
  | 0x5D => decodeOp5D w
  | 0x5E => decodeOp5E w
  | 0x5F => decodeOp5F w
  | 0x60 => decodeOp60 w
  | _ => none

/-- The word that four bytes hold: little-endian, the first byte at the lowest address (00 R8, R270). -/
def wordOfBytes : List Byte → Option Word
  | [b0, b1, b2, b3] => some (b3 ++ b2 ++ b1 ++ b0)
  | _ => none

/-- The four bytes of a word as memory stores them (R8). -/
def bytesOfWord (w : Word) : List Byte :=
  [w.extractLsb' 0 8, w.extractLsb' 8 8, w.extractLsb' 16 8, w.extractLsb' 24 8]

/-- Decode a list of bytes: the instruction and the bytes after it; none when fewer than four bytes are left or the word is
outside the opcode map. -/
def decodeBytes : List Byte → Option (Instr × List Byte)
  | b0 :: b1 :: b2 :: b3 :: rest => (decode (b3 ++ b2 ++ b1 ++ b0)).map (·, rest)
  | _ => none

/-- The instruction read from a word of the opcode table, laid out in memory as the hardware stores it: nbits bits of w, every
bit above them 0, one little-endian 32-bit word. -/
def decodeTableWord (nbits w : Nat) : Option Instr :=
  match decodeBytes (bytesOfWord (BitVec.ofNat 32 (w % 2 ^ nbits))) with
  | some (i, _) => some i
  | none => none

/-- The words of an instruction: one word for a row of the opcode map, none for an event, which has no encoding. -/
def encode : Instr → List Word
  | .add e d a b u => [BitVec.ofBool e ++ 0x01#7 ++ d ++ a ++ b ++ BitVec.ofBool u ++ 0#2]
  | .sub e d a b u => [BitVec.ofBool e ++ 0x01#7 ++ d ++ a ++ b ++ BitVec.ofBool u ++ 1#2]
  | .addc e d a b u => [BitVec.ofBool e ++ 0x01#7 ++ d ++ a ++ b ++ BitVec.ofBool u ++ 2#2]
  | .subb e d a b u => [BitVec.ofBool e ++ 0x01#7 ++ d ++ a ++ b ++ BitVec.ofBool u ++ 3#2]
  | .addi e d a i => [BitVec.ofBool e ++ 0x02#7 ++ d ++ a ++ i]
  | .mul e d a b u => [BitVec.ofBool e ++ 0x03#7 ++ d ++ a ++ b ++ BitVec.ofBool u ++ 0#2]
  | .mulhI32 e d a b u => [BitVec.ofBool e ++ 0x03#7 ++ d ++ a ++ b ++ BitVec.ofBool u ++ 1#2]
  | .mulhN32 e d a b u => [BitVec.ofBool e ++ 0x03#7 ++ d ++ a ++ b ++ BitVec.ofBool u ++ 2#2]
  | .mad e d a b u => [BitVec.ofBool e ++ 0x03#7 ++ d ++ a ++ b ++ BitVec.ofBool u ++ 3#2]
  | .minI32 e d a b u => [BitVec.ofBool e ++ 0x04#7 ++ d ++ a ++ b ++ BitVec.ofBool u ++ 0#2]
  | .minN32 e d a b u => [BitVec.ofBool e ++ 0x04#7 ++ d ++ a ++ b ++ BitVec.ofBool u ++ 1#2]
  | .maxI32 e d a b u => [BitVec.ofBool e ++ 0x04#7 ++ d ++ a ++ b ++ BitVec.ofBool u ++ 2#2]
  | .maxN32 e d a b u => [BitVec.ofBool e ++ 0x04#7 ++ d ++ a ++ b ++ BitVec.ofBool u ++ 3#2]
  | .and e d a b u => [BitVec.ofBool e ++ 0x05#7 ++ d ++ a ++ b ++ BitVec.ofBool u ++ 0#2]
  | .or e d a b u => [BitVec.ofBool e ++ 0x05#7 ++ d ++ a ++ b ++ BitVec.ofBool u ++ 1#2]
  | .xor e d a b u => [BitVec.ofBool e ++ 0x05#7 ++ d ++ a ++ b ++ BitVec.ofBool u ++ 2#2]
  | .shlReg e d a b u => [BitVec.ofBool e ++ 0x06#7 ++ d ++ a ++ b ++ BitVec.ofBool u ++ 0#2]
  | .shrReg e d a b u => [BitVec.ofBool e ++ 0x06#7 ++ d ++ a ++ b ++ BitVec.ofBool u ++ 1#2]
  | .sarReg e d a b u => [BitVec.ofBool e ++ 0x06#7 ++ d ++ a ++ b ++ BitVec.ofBool u ++ 2#2]
  | .rolReg e d a b u => [BitVec.ofBool e ++ 0x06#7 ++ d ++ a ++ b ++ BitVec.ofBool u ++ 3#2]
  | .shlImm e d a c => [BitVec.ofBool e ++ 0x07#7 ++ d ++ a ++ 0#5 ++ c]
  | .shrImm e d a c => [BitVec.ofBool e ++ 0x07#7 ++ d ++ a ++ 8#5 ++ c]
  | .sarImm e d a c => [BitVec.ofBool e ++ 0x07#7 ++ d ++ a ++ 16#5 ++ c]
  | .rolImm e d a c => [BitVec.ofBool e ++ 0x07#7 ++ d ++ a ++ 24#5 ++ c]
  | .abs e d a l => [BitVec.ofBool e ++ 0x08#7 ++ d ++ a ++ l ++ 0#6]
  | .neg e d a l => [BitVec.ofBool e ++ 0x08#7 ++ d ++ a ++ l ++ 1#6]
  | .clz e d a l => [BitVec.ofBool e ++ 0x08#7 ++ d ++ a ++ l ++ 2#6]
  | .popc e d a l => [BitVec.ofBool e ++ 0x08#7 ++ d ++ a ++ l ++ 3#6]
  | .brev e d a l => [BitVec.ofBool e ++ 0x08#7 ++ d ++ a ++ l ++ 4#6]
  | .mov e d a l => [BitVec.ofBool e ++ 0x08#7 ++ d ++ a ++ l ++ 5#6]
  | .pk8 e d a l k => [BitVec.ofBool e ++ 0x09#7 ++ d ++ a ++ l ++ 0#4 ++ k]
  | .upk8N e d a l k => [BitVec.ofBool e ++ 0x09#7 ++ d ++ a ++ l ++ 4#4 ++ k]
  | .upk8I e d a l k => [BitVec.ofBool e ++ 0x09#7 ++ d ++ a ++ l ++ 6#4 ++ k]
  | .pk4 e d a l k => [BitVec.ofBool e ++ 0x09#7 ++ d ++ a ++ l ++ 4#3 ++ k]
  | .upk4N e d a l k => [BitVec.ofBool e ++ 0x09#7 ++ d ++ a ++ l ++ 6#3 ++ k]
  | .upk4I e d a l k => [BitVec.ofBool e ++ 0x09#7 ++ d ++ a ++ l ++ 7#3 ++ k]
  | .bfx e d a b u => [BitVec.ofBool e ++ 0x0A#7 ++ d ++ a ++ b ++ BitVec.ofBool u ++ 0#2]
  | .bfxs e d a b u => [BitVec.ofBool e ++ 0x0A#7 ++ d ++ a ++ b ++ BitVec.ofBool u ++ 1#2]
  | .bfi e d a b u => [BitVec.ofBool e ++ 0x0A#7 ++ d ++ a ++ b ++ BitVec.ofBool u ++ 2#2]
  | .bfx64 e d a b u => [BitVec.ofBool e ++ 0x0B#7 ++ d ++ a ++ b ++ BitVec.ofBool u ++ 0#2]
  | .bfxs64 e d a b u => [BitVec.ofBool e ++ 0x0B#7 ++ d ++ a ++ b ++ BitVec.ofBool u ++ 1#2]
  | .bfi64 e d a b u => [BitVec.ofBool e ++ 0x0B#7 ++ d ++ a ++ b ++ BitVec.ofBool u ++ 2#2]
  | .sel e d a b p => [BitVec.ofBool e ++ 0x0C#7 ++ d ++ a ++ b ++ p]
  | .cmp e c p a b u f => [BitVec.ofBool e ++ 0x0D#7 ++ c ++ p ++ a ++ b ++ BitVec.ofBool u ++ 0#1 ++ BitVec.ofBool f]
  | .movi e d i => [BitVec.ofBool e ++ 0x0E#7 ++ d ++ i]
  | .movh e d i => [BitVec.ofBool e ++ 0x0F#7 ++ d ++ i]
  | .add64 e d a b u => [BitVec.ofBool e ++ 0x10#7 ++ d ++ a ++ b ++ BitVec.ofBool u ++ 0#2]
  | .sub64 e d a b u => [BitVec.ofBool e ++ 0x10#7 ++ d ++ a ++ b ++ BitVec.ofBool u ++ 1#2]
  | .mul64 e d a b u => [BitVec.ofBool e ++ 0x10#7 ++ d ++ a ++ b ++ BitVec.ofBool u ++ 2#2]
  | .mad64 e d a b u => [BitVec.ofBool e ++ 0x10#7 ++ d ++ a ++ b ++ BitVec.ofBool u ++ 3#2]
  | .shl64 e d a b u => [BitVec.ofBool e ++ 0x11#7 ++ d ++ a ++ b ++ BitVec.ofBool u ++ 0#2]
  | .shr64 e d a b u => [BitVec.ofBool e ++ 0x11#7 ++ d ++ a ++ b ++ BitVec.ofBool u ++ 1#2]
  | .sar64 e d a b u => [BitVec.ofBool e ++ 0x11#7 ++ d ++ a ++ b ++ BitVec.ofBool u ++ 2#2]
  | .min64I64 e d a b u => [BitVec.ofBool e ++ 0x12#7 ++ d ++ a ++ b ++ BitVec.ofBool u ++ 0#2]
  | .min64N64 e d a b u => [BitVec.ofBool e ++ 0x12#7 ++ d ++ a ++ b ++ BitVec.ofBool u ++ 1#2]
  | .max64I64 e d a b u => [BitVec.ofBool e ++ 0x12#7 ++ d ++ a ++ b ++ BitVec.ofBool u ++ 2#2]
  | .max64N64 e d a b u => [BitVec.ofBool e ++ 0x12#7 ++ d ++ a ++ b ++ BitVec.ofBool u ++ 3#2]
  | .mulh64I64 e d a b u => [BitVec.ofBool e ++ 0x13#7 ++ d ++ a ++ b ++ BitVec.ofBool u ++ 0#2]
  | .mulh64N64 e d a b u => [BitVec.ofBool e ++ 0x13#7 ++ d ++ a ++ b ++ BitVec.ofBool u ++ 1#2]
  | .cmp64 e c p a b u f => [BitVec.ofBool e ++ 0x14#7 ++ c ++ p ++ a ++ b ++ BitVec.ofBool u ++ 0#1 ++ BitVec.ofBool f]
  | .fadd e d a b u r => [BitVec.ofBool e ++ 0x15#7 ++ d ++ a ++ b ++ BitVec.ofBool u ++ r]
  | .fsub e d a b u r => [BitVec.ofBool e ++ 0x16#7 ++ d ++ a ++ b ++ BitVec.ofBool u ++ r]
  | .fmul e d a b u r => [BitVec.ofBool e ++ 0x17#7 ++ d ++ a ++ b ++ BitVec.ofBool u ++ r]
  | .ffma e d a b u r => [BitVec.ofBool e ++ 0x18#7 ++ d ++ a ++ b ++ BitVec.ofBool u ++ r]
  | .fmin e d a b u => [BitVec.ofBool e ++ 0x19#7 ++ d ++ a ++ b ++ BitVec.ofBool u ++ 0#2]
  | .fmax e d a b u => [BitVec.ofBool e ++ 0x19#7 ++ d ++ a ++ b ++ BitVec.ofBool u ++ 1#2]
  | .hmax2 e d a b u t => [BitVec.ofBool e ++ 0x19#7 ++ d ++ a ++ b ++ BitVec.ofBool u ++ 1#1 ++ BitVec.ofBool t]
  | .fcmp e c p a b u => [BitVec.ofBool e ++ 0x1A#7 ++ c ++ p ++ a ++ b ++ BitVec.ofBool u ++ 0#2]
  | .frcp e d a l => [BitVec.ofBool e ++ 0x1B#7 ++ d ++ a ++ l ++ 0#6]
  | .frsq e d a l => [BitVec.ofBool e ++ 0x1B#7 ++ d ++ a ++ l ++ 1#6]
  | .fsqrt e d a l => [BitVec.ofBool e ++ 0x1B#7 ++ d ++ a ++ l ++ 2#6]
  | .fex2 e d a l => [BitVec.ofBool e ++ 0x1B#7 ++ d ++ a ++ l ++ 3#6]
  | .flg2 e d a l => [BitVec.ofBool e ++ 0x1B#7 ++ d ++ a ++ l ++ 4#6]
  | .fsin e d a l => [BitVec.ofBool e ++ 0x1B#7 ++ d ++ a ++ l ++ 5#6]
  | .fcos e d a l => [BitVec.ofBool e ++ 0x1B#7 ++ d ++ a ++ l ++ 6#6]
  | .ftanh e d a l => [BitVec.ofBool e ++ 0x1B#7 ++ d ++ a ++ l ++ 7#6]
  | .frnd e d a l r => [BitVec.ofBool e ++ 0x1B#7 ++ d ++ a ++ l ++ 2#4 ++ r]
  | .fcvt e d a t s r => [BitVec.ofBool e ++ 0x1C#7 ++ d ++ a ++ t ++ s ++ r]
  | .fcvtSat e d a t s r => [BitVec.ofBool e ++ 0x1D#7 ++ d ++ a ++ t ++ s ++ r]
  | .hadd2 e d a b u t => [BitVec.ofBool e ++ 0x1E#7 ++ d ++ a ++ b ++ BitVec.ofBool u ++ 0#1 ++ BitVec.ofBool t]
  | .hmul2 e d a b u t => [BitVec.ofBool e ++ 0x1E#7 ++ d ++ a ++ b ++ BitVec.ofBool u ++ 1#1 ++ BitVec.ofBool t]
  | .hfma2 e d a b u t => [BitVec.ofBool e ++ 0x1F#7 ++ d ++ a ++ b ++ BitVec.ofBool u ++ 0#1 ++ BitVec.ofBool t]
  | .hmin2 e d a b u t => [BitVec.ofBool e ++ 0x1F#7 ++ d ++ a ++ b ++ BitVec.ofBool u ++ 1#1 ++ BitVec.ofBool t]
  | .dot4 e d a b u => [BitVec.ofBool e ++ 0x20#7 ++ d ++ a ++ b ++ BitVec.ofBool u ++ 0#2]
  | .dot8 e d a b u => [BitVec.ofBool e ++ 0x20#7 ++ d ++ a ++ b ++ BitVec.ofBool u ++ 1#2]
  | .dotm4 e d a b u => [BitVec.ofBool e ++ 0x20#7 ++ d ++ a ++ b ++ BitVec.ofBool u ++ 2#2]
  | .dotm8 e d a b u f => [BitVec.ofBool e ++ 0x21#7 ++ d ++ a ++ b ++ BitVec.ofBool u ++ f]
  | .sclb e d a b u k => [BitVec.ofBool e ++ 0x22#7 ++ d ++ a ++ b ++ BitVec.ofBool u ++ k]
  | .shfl e d a b u f => [BitVec.ofBool e ++ 0x23#7 ++ d ++ a ++ b ++ BitVec.ofBool u ++ f]
  | .voteBallot e d n s => [BitVec.ofBool e ++ 0x24#7 ++ d ++ 0#3 ++ BitVec.ofBool n ++ s ++ 0#10]
  | .voteAll e d n s q => [BitVec.ofBool e ++ 0x24#7 ++ d ++ 0#3 ++ BitVec.ofBool n ++ s ++ 0#4 ++ q ++ 1#3]
  | .voteAny e d n s q => [BitVec.ofBool e ++ 0x24#7 ++ d ++ 0#3 ++ BitVec.ofBool n ++ s ++ 0#4 ++ q ++ 2#3]
  | .voteEq e d n s q => [BitVec.ofBool e ++ 0x24#7 ++ d ++ 0#3 ++ BitVec.ofBool n ++ s ++ 0#4 ++ q ++ 3#3]
  | .lred e d a l o => [BitVec.ofBool e ++ 0x25#7 ++ d ++ a ++ l ++ 0#2 ++ o]
  | .lscan e d a l x o => [BitVec.ofBool e ++ 0x26#7 ++ d ++ a ++ l ++ 0#1 ++ BitVec.ofBool x ++ o]
  | .matchW e d a => [BitVec.ofBool e ++ 0x27#7 ++ d ++ a ++ 0#10]
  | .match64 e d a => [BitVec.ofBool e ++ 0x27#7 ++ d ++ a ++ 1#10]
  | .fmtv e d a => [BitVec.ofBool e ++ 0x27#7 ++ d ++ a ++ 2#10]
  | .cvg e d => [BitVec.ofBool e ++ 0x27#7 ++ d ++ 3#17]
  | .pand e d n a m b => [BitVec.ofBool e ++ 0x28#7 ++ 0#4 ++ d ++ 0#3 ++ BitVec.ofBool n ++ a ++ 0#3 ++ BitVec.ofBool m ++ b ++ 0#3]
  | .por e d n a m b => [BitVec.ofBool e ++ 0x28#7 ++ 0#4 ++ d ++ 0#3 ++ BitVec.ofBool n ++ a ++ 0#3 ++ BitVec.ofBool m ++ b ++ 1#3]
  | .pxor e d n a m b => [BitVec.ofBool e ++ 0x28#7 ++ 0#4 ++ d ++ 0#3 ++ BitVec.ofBool n ++ a ++ 0#3 ++ BitVec.ofBool m ++ b ++ 2#3]
  | .pnot e d n a => [BitVec.ofBool e ++ 0x28#7 ++ 0#4 ++ d ++ 0#3 ++ BitVec.ofBool n ++ a ++ 3#10]
  | .bra e p n o => [BitVec.ofBool e ++ 0x29#7 ++ p ++ BitVec.ofBool n ++ o]
  | .brp e p n o => [BitVec.ofBool e ++ 0x2A#7 ++ p ++ BitVec.ofBool n ++ o]
  | .call e d i => [BitVec.ofBool e ++ 0x2B#7 ++ d ++ i]
  | .ret e a => [BitVec.ofBool e ++ 0x2C#7 ++ 0#7 ++ a ++ 0#10]
  | .jmp e a => [BitVec.ofBool e ++ 0x2C#7 ++ 0#7 ++ a ++ 1#10]
  | .exit e => [BitVec.ofBool e ++ 0x2C#7 ++ 2#24]
  | .nop e => [BitVec.ofBool e ++ 0x2C#7 ++ 3#24]
  | .rep e c x y z s => [BitVec.ofBool e ++ 0x2D#7 ++ c ++ BitVec.ofBool x ++ BitVec.ofBool y ++ BitVec.ofBool z ++ s ++ 0#13]
  | .rsr e d i => [BitVec.ofBool e ++ 0x2E#7 ++ d ++ 0#7 ++ i]
  | .wbase e a i => [BitVec.ofBool e ++ 0x2F#7 ++ 0#7 ++ a ++ i]
  | .ldG e d a l s h => [BitVec.ofBool e ++ 0x30#7 ++ d ++ a ++ l ++ s ++ h ++ 0#1]
  | .ldC e d a l s h => [BitVec.ofBool e ++ 0x30#7 ++ d ++ a ++ l ++ s ++ h ++ 1#1]
  | .ldS e d a l s => [BitVec.ofBool e ++ 0x31#7 ++ d ++ a ++ l ++ s ++ 0#3]
  | .ldX e d a l s => [BitVec.ofBool e ++ 0x31#7 ++ d ++ a ++ l ++ s ++ 1#3]
  | .ldAcq e d a l s c => [BitVec.ofBool e ++ 0x32#7 ++ d ++ a ++ l ++ s ++ c]
  | .stG e d a s h => [BitVec.ofBool e ++ 0x33#7 ++ d ++ a ++ 0#4 ++ s ++ h ++ 0#1]
  | .stS e d a s => [BitVec.ofBool e ++ 0x33#7 ++ d ++ a ++ 0#4 ++ s ++ 1#3]
  | .stRel e d a s c => [BitVec.ofBool e ++ 0x34#7 ++ d ++ a ++ 0#4 ++ s ++ c]
  | .stX e d a b f => [BitVec.ofBool e ++ 0x35#7 ++ d ++ a ++ b ++ 0#1 ++ f]
  | .gft e d a b f => [BitVec.ofBool e ++ 0x36#7 ++ d ++ a ++ b ++ 0#1 ++ f]
  | .fence e c => [BitVec.ofBool e ++ 0x37#7 ++ 0#21 ++ c]
  | .fenceRel e c => [BitVec.ofBool e ++ 0x37#7 ++ 1#21 ++ c]
  | .fenceAcq e c => [BitVec.ofBool e ++ 0x37#7 ++ 2#21 ++ c]
  | .cflush e a => [BitVec.ofBool e ++ 0x38#7 ++ 0#7 ++ a ++ 0#10]
  | .cdemote e a => [BitVec.ofBool e ++ 0x38#7 ++ 0#7 ++ a ++ 1#10]
  | .cpref e a h => [BitVec.ofBool e ++ 0x38#7 ++ 0#7 ++ a ++ 0#6 ++ h ++ 2#2]
  | .bld e y m => [BitVec.ofBool e ++ 0x39#7 ++ 0#6 ++ y ++ m ++ 0#4]
  | .bsel e g m => [BitVec.ofBool e ++ 0x3A#7 ++ 0#2 ++ g ++ 0#7 ++ m ++ 0#4]
  | .mma e t y m l => [BitVec.ofBool e ++ 0x3B#7 ++ t ++ y ++ m ++ l]
  | .mmaz e t y m l => [BitVec.ofBool e ++ 0x3C#7 ++ t ++ y ++ m ++ l]
  | .acz e t => [BitVec.ofBool e ++ 0x3D#7 ++ t ++ 0#18]
  | .acld e t y => [BitVec.ofBool e ++ 0x3E#7 ++ t ++ y ++ 0#11]
  | .acst e t y m => [BitVec.ofBool e ++ 0x3F#7 ++ t ++ y ++ m ++ 0#4]
  | .acrd e d a l t => [BitVec.ofBool e ++ 0x40#7 ++ d ++ a ++ l ++ t]
  | .acwr e d a t => [BitVec.ofBool e ++ 0x41#7 ++ d ++ a ++ 0#4 ++ t]
  | .acscl e d t => [BitVec.ofBool e ++ 0x42#7 ++ d ++ 0#11 ++ t]
  | .atmAdd e d a b w s => [BitVec.ofBool e ++ 0x43#7 ++ d ++ a ++ b ++ 0#1 ++ BitVec.ofBool w ++ BitVec.ofBool s]
  | .redAdd e a b w s => [BitVec.ofBool e ++ 0x43#7 ++ 120#7 ++ a ++ b ++ 1#1 ++ BitVec.ofBool w ++ BitVec.ofBool s]
  | .atmImin e d a b w s => [BitVec.ofBool e ++ 0x44#7 ++ d ++ a ++ b ++ 0#1 ++ BitVec.ofBool w ++ BitVec.ofBool s]
  | .redImin e a b w s => [BitVec.ofBool e ++ 0x44#7 ++ 120#7 ++ a ++ b ++ 1#1 ++ BitVec.ofBool w ++ BitVec.ofBool s]
  | .atmNmin e d a b w s => [BitVec.ofBool e ++ 0x45#7 ++ d ++ a ++ b ++ 0#1 ++ BitVec.ofBool w ++ BitVec.ofBool s]
  | .redNmin e a b w s => [BitVec.ofBool e ++ 0x45#7 ++ 120#7 ++ a ++ b ++ 1#1 ++ BitVec.ofBool w ++ BitVec.ofBool s]
  | .atmImax e d a b w s => [BitVec.ofBool e ++ 0x46#7 ++ d ++ a ++ b ++ 0#1 ++ BitVec.ofBool w ++ BitVec.ofBool s]
  | .redImax e a b w s => [BitVec.ofBool e ++ 0x46#7 ++ 120#7 ++ a ++ b ++ 1#1 ++ BitVec.ofBool w ++ BitVec.ofBool s]
  | .atmNmax e d a b w s => [BitVec.ofBool e ++ 0x47#7 ++ d ++ a ++ b ++ 0#1 ++ BitVec.ofBool w ++ BitVec.ofBool s]
  | .redNmax e a b w s => [BitVec.ofBool e ++ 0x47#7 ++ 120#7 ++ a ++ b ++ 1#1 ++ BitVec.ofBool w ++ BitVec.ofBool s]
  | .atmAnd e d a b w s => [BitVec.ofBool e ++ 0x48#7 ++ d ++ a ++ b ++ 0#1 ++ BitVec.ofBool w ++ BitVec.ofBool s]
  | .redAnd e a b w s => [BitVec.ofBool e ++ 0x48#7 ++ 120#7 ++ a ++ b ++ 1#1 ++ BitVec.ofBool w ++ BitVec.ofBool s]
  | .atmOr e d a b w s => [BitVec.ofBool e ++ 0x49#7 ++ d ++ a ++ b ++ 0#1 ++ BitVec.ofBool w ++ BitVec.ofBool s]
  | .redOr e a b w s => [BitVec.ofBool e ++ 0x49#7 ++ 120#7 ++ a ++ b ++ 1#1 ++ BitVec.ofBool w ++ BitVec.ofBool s]
  | .atmXor e d a b w s => [BitVec.ofBool e ++ 0x4A#7 ++ d ++ a ++ b ++ 0#1 ++ BitVec.ofBool w ++ BitVec.ofBool s]
  | .redXor e a b w s => [BitVec.ofBool e ++ 0x4A#7 ++ 120#7 ++ a ++ b ++ 1#1 ++ BitVec.ofBool w ++ BitVec.ofBool s]
  | .atmXchg e d a b w s => [BitVec.ofBool e ++ 0x4B#7 ++ d ++ a ++ b ++ 0#1 ++ BitVec.ofBool w ++ BitVec.ofBool s]
  | .atmCas e d a b w s => [BitVec.ofBool e ++ 0x4C#7 ++ d ++ a ++ b ++ 0#1 ++ BitVec.ofBool w ++ BitVec.ofBool s]
  | .atmFaddG e d a b t => [BitVec.ofBool e ++ 0x4D#7 ++ d ++ a ++ b ++ 0#1 ++ t]
  | .redFaddG e a b t => [BitVec.ofBool e ++ 0x4D#7 ++ 120#7 ++ a ++ b ++ 1#1 ++ t]
  | .atmFaddS e d a b t => [BitVec.ofBool e ++ 0x4E#7 ++ d ++ a ++ b ++ 0#1 ++ t]
  | .redFaddS e a b t => [BitVec.ofBool e ++ 0x4E#7 ++ 120#7 ++ a ++ b ++ 1#1 ++ t]
  | .xcp e a => [BitVec.ofBool e ++ 0x50#7 ++ 0#7 ++ a ++ 0#10]
  | .xget e a => [BitVec.ofBool e ++ 0x50#7 ++ 0#7 ++ a ++ 1#10]
  | .xput e a => [BitVec.ofBool e ++ 0x50#7 ++ 0#7 ++ a ++ 2#10]
  | .xputRel e a => [BitVec.ofBool e ++ 0x50#7 ++ 0#7 ++ a ++ 3#10]
  | .xred e a => [BitVec.ofBool e ++ 0x51#7 ++ 0#7 ++ a ++ 0#10]
  | .xsig e a => [BitVec.ofBool e ++ 0x51#7 ++ 0#7 ++ a ++ 1#10]
  | .xgth e a => [BitVec.ofBool e ++ 0x51#7 ++ 0#7 ++ a ++ 2#10]
  | .xrsc e a => [BitVec.ofBool e ++ 0x51#7 ++ 0#7 ++ a ++ 3#10]
  | .chap e a b => [BitVec.ofBool e ++ 0x52#7 ++ 0#7 ++ a ++ b ++ 0#3]
  | .wcnt e c k => [BitVec.ofBool e ++ 0x53#7 ++ 0#14 ++ c ++ 0#2 ++ k]
  | .syarm e a b => [BitVec.ofBool e ++ 0x54#7 ++ 0#7 ++ a ++ b ++ 0#3]
  | .syadd e a b => [BitVec.ofBool e ++ 0x54#7 ++ 0#7 ++ a ++ b ++ 1#3]
  | .sywait e a b => [BitVec.ofBool e ++ 0x54#7 ++ 0#7 ++ a ++ b ++ 2#3]
  | .barWg e => [BitVec.ofBool e ++ 0x55#7 ++ 0#24]
  | .barGang e => [BitVec.ofBool e ++ 0x55#7 ++ 1#24]
  | .barX e => [BitVec.ofBool e ++ 0x55#7 ++ 2#24]
  | .mon e a => [BitVec.ofBool e ++ 0x56#7 ++ 0#7 ++ a ++ 0#10]
  | .mwait e a => [BitVec.ofBool e ++ 0x56#7 ++ 0#7 ++ a ++ 1#10]
  | .ropen e a b => [BitVec.ofBool e ++ 0x57#7 ++ 0#7 ++ a ++ b ++ 0#3]
  | .rclose e => [BitVec.ofBool e ++ 0x57#7 ++ 1#24]
  | .rdepth e d => [BitVec.ofBool e ++ 0x57#7 ++ d ++ 2#17]
  | .rkeepG e a b => [BitVec.ofBool e ++ 0x58#7 ++ 0#7 ++ a ++ b ++ 0#3]
  | .rkeepS e a b => [BitVec.ofBool e ++ 0x58#7 ++ 0#7 ++ a ++ b ++ 1#3]
  | .trap e a => [BitVec.ofBool e ++ 0x59#7 ++ 0#7 ++ a ++ 0#10]
  | .eretResume e => [BitVec.ofBool e ++ 0x5A#7 ++ 0#24]
  | .eretRetry e => [BitVec.ofBool e ++ 0x5A#7 ++ 1#24]
  | .eretEscalate e => [BitVec.ofBool e ++ 0x5A#7 ++ 2#24]
  | .eretKill e => [BitVec.ofBool e ++ 0x5A#7 ++ 3#24]
  | .segw e a s => [BitVec.ofBool e ++ 0x5B#7 ++ 0#7 ++ a ++ 0#6 ++ s]
  | .segr e d s => [BitVec.ofBool e ++ 0x5C#7 ++ d ++ 0#13 ++ s]
  | .wsr e a i => [BitVec.ofBool e ++ 0x5D#7 ++ 0#7 ++ a ++ i]
  | .tlbiVa e a b => [BitVec.ofBool e ++ 0x5E#7 ++ 0#7 ++ a ++ b ++ 0#3]
  | .tlbiCtx e b => [BitVec.ofBool e ++ 0x5E#7 ++ 0#14 ++ b ++ 1#3]
  | .tlbiAll e => [BitVec.ofBool e ++ 0x5E#7 ++ 2#24]
  | .yield e => [BitVec.ofBool e ++ 0x5F#7 ++ 0#24]
  | .spawn e a => [BitVec.ofBool e ++ 0x60#7 ++ 0#7 ++ a ++ 0#10]
  | .warpChoice _ _ => []
  | .cut _ _ => []
  | .loadValueArrival _ _ => []
  | .stXApply _ => []
  | .exchangePolaritySwap _ => []
  | .siblingStop _ _ _ => []
  | .mwaitWake _ _ _ => []
  | .monitorTimeout _ _ _ => []
  | .laneFailure _ _ _ => []
  | .spareLaneSwitch _ _ _ => []
  | .ringRollback _ _ _ => []
  | .impreciseStoreFault _ => []
  | .homeTimeout _ _ => []
  | .l1Fill _ _ => []
  | .sliceWriteArrival _ => []
  | .writeQueueApply _ => []
  | .gatherMerge _ => []
  | .sharerUpdate _ _ => []
  | .graftFill _ _ => []
  | .writerAcknowledge _ => []
  | .evictionNotice _ _ => []
  | .sliceFill _ _ _ => []
  | .partialSectorMerge _ _ _ => []
  | .sliceVictimEviction _ _ => []
  | .refreshDue _ _ => []
  | .forcedAllBankRefresh _ => []
  | .postponedRefreshDrain _ _ => []
  | .refreshEnd _ _ => []
  | .pinRepairDue _ _ => []
  | .pinRepairPauseEnd _ _ => []
  | .pageWalk _ _ _ => []
  | .syncWordArrival _ => []
  | .copyCommandTake _ _ => []
  | .engineLineWrite _ _ => []
  | .commandRetire _ _ => []
  | .xputRelRelease _ _ => []
  | .xgthVersionRecheck _ _ => []
  | .xrscChunkArrival _ _ _ => []
  | .columnHeadReduction _ _ => []
  | .remoteWriteAck _ => []
  | .flitReceive _ _ _ => []
  | .creditReturn _ _ _ => []
  | .relayForward _ _ => []
  | .linkFailure _ => []
  | .orderedDetourSwitch _ => []
  | .ethernetFrameReceive _ _ _ _ _ => []
  | .ethernetFrameResend _ _ _ => []
  | .matrixCommandStart _ => []
  | .macroExchange _ _ => []
  | .matrixCommandComplete _ => []
  | .chainEntryStart _ => []
  | .chainEntryComplete _ => []
  | .encodeFrameComplete _ => []
  | .chainSlotArm _ _ => []
  | .chainSlotDisarm _ _ => []
  | .launchRecordTake _ => []
  | .workGroupRoute _ _ => []
  | .chunkPassDown _ _ => []
  | .workGroupPlacement _ => []
  | .workGroupResidency _ => []
  | .packageSteal _ _ => []
  | .dieSteal _ => []
  | .stealRequest _ _ => []
  | .warpComplete _ _ _ => []
  | .prunerTrigger _ => []
  | .prunerMoveStep _ => []
  | .contractRelease _ => []
  | .deadlineMiss _ => []
  | .budgetOverrun _ => []
  | .contractAdmission => []
  | .frequencyStepRequest _ _ => []
  | .frequencyStepEffect _ _ => []
  | .clockCrossingStallEnd _ => []
  | .contextPreempt _ => []
  | .drainLimitExpiry _ => []
  | .warpSnapshot _ _ _ => []
  | .workGroupSave _ => []
  | .snapshotLimitExpiry _ => []
  | .contextResume _ => []
  | .workGroupRestore _ => []
  | .contextReset _ => []
  | .contextRelease _ => []
  | .contractRemove _ => []
  | .mapOutCore _ => []
  | .mapOutCDie _ => []
  | .mapOutStack _ => []
  | .mapOutPseudoChannel _ => []
  | .pseudoChannelDropCopyEnd _ _ => []
  | .mapOutDieLink _ => []
  | .mapOutStolilPort _ => []
  | .rackQueueReserve => []
  | .rackQueuePublish _ => []
  | .walkAnswer _ _ _ => []
  | .stealAnswer _ _ _ => []
  | .admissionAnswer _ _ _ => []
  | .pruneAnswer _ _ => []
  | .trapAnswer _ _ _ => []
  | .dramRepairAnswer _ _ => []
  | .dieLinkHold _ => []
  | .holdDrainComplete _ => []
  | .dieLinkRelease _ => []
  | .dieLinkTrain _ _ => []
  | .trainingEnd _ _ => []
  | .laneRepair _ _ => []
  | .laneRepairComplete _ => []
  | .linkRetrainTrigger _ => []
  | .stolilPortRetrain _ _ => []
  | .mailboxAttest => []
  | .mailboxWriteRecord => []
  | .mailboxReadCertChain => []
  | .mailboxCommandComplete => []
  | .counterClear _ => []
  | .configRegisterWrite _ _ _ => []
  | .powerGood _ _ _ => []
  | .stage1Reached _ _ => []
  | .stage2Reached _ _ _ => []
  | .heartbeatSend => []
  | .heartbeatTimeout => []
  | .epochAdvance _ => []
  | .fabricConfigWrite _ _ _ _ => []
  | .logRecordShip _ => []
  | .logRecordAck _ => []
  | .hostPostedWrite _ _ => []
  | .hostRead _ _ => []
  | .instructionCacheFill _ _ _ => []
  | .dieLinkFlitReceive _ _ _ _ _ => []

end Sys2Proof
end

