-- ==== Sys2Proof/Machine/OperandTable.lean ====
section
/-! DEFINITION. The register operands of every instruction and their legality: the limits that R38 to R40, R55, R272, R273 and R279 put on register fields and subfields,
the fields a repeat steps (R282, R283), and the places an event may name (00 R1). A word that breaks one of them issues as the
illegal-instruction trap; it is never executed otherwise (Sys2Proof/WellFormed.lean gathers them). -/

namespace Sys2Proof

/-- What a register field must name: one register, an even-odd pair (R39), a quad (R272), a layout triple (R40) or a tile. -/
inductive RegClass where
  | single | pair | quad | layout | tile
deriving DecidableEq, Repr

/-- The field a repeat prefix can step (R282): ed steps d or tile, ea steps a or layout, eb steps b or fmt. -/
inductive FieldPos where
  | d | a | b
deriving DecidableEq, Repr

/-- One register operand of an instruction: its field, what the field names, its value, and how the instruction uses it. -/
structure Operand where
  pos : FieldPos
  cls : RegClass
  num : Nat
  reads : Bool
  writes : Bool
deriving DecidableEq, Repr

/-- The registers an operand class occupies. -/
def RegClass.width : RegClass → Nat
  | .single => 1
  | .pair => 2
  | .quad => 4
  | .layout => 3
  | .tile => 1

/-- A register field that may be read (R38, R39, R40, R272). -/
def RegClass.readable : RegClass → Nat → Bool
  | .single, n => n < 126
  | .pair, n => (n < 120 && n % 2 == 0) || n == 120
  | .quad, n => (n < 96 && n % 4 == 0) || (96 ≤ n && n < 117 && n % 4 == 0) || n == 120
  | .layout, n => 96 ≤ n && n < 118
  | .tile, n => n < 64

/-- A register field that may be written: as read, but values 121 to 125 are illegal (R38). -/
def RegClass.writable (c : RegClass) (n : Nat) : Bool := c.readable n && (n < 121)

/-- An operand whose field is legal (R38 to R40, R272). -/
def Operand.legal (o : Operand) : Bool := if o.writes then o.cls.writable o.num else o.cls.readable o.num

/-- The numbers of the special registers (R55). -/
def srNumbers : List Nat :=
  [0x000, 0x001, 0x010, 0x011, 0x012, 0x013, 0x014, 0x015, 0x016, 0x017, 0x018, 0x019, 0x01A, 0x01B, 0x01C, 0x020, 0x021, 0x022,
   0x023, 0x024, 0x025]

/-- The special registers of 64 bits (R55). -/
def sr64 : List Nat := [0x000, 0x001, 0x018, 0x021, 0x024]

/-- The special registers that `wsr` may write in some mode (R55). -/
def srWritable : List Nat := [0x010, 0x020, 0x021, 0x022, 0x023, 0x024, 0x025]

/-- The special registers that only system mode reads or writes (R55). -/
def srSystem : List Nat := [0x020, 0x021, 0x022, 0x023, 0x024, 0x025]

/-- A special register of 64 bits takes a pair (R55, R322). -/
def srClass (i : BitVec 10) : RegClass := if sr64.contains i.toNat then .pair else .single

/-- The register class of a load or store size (R279). -/
def sizeClass (s : BitVec 3) : RegClass := if s.toNat = 5 then .pair else if s.toNat = 6 then .quad else .single

/-- The register class of `st.x` and `gft` data (R277). -/
def widthClass (f : BitVec 2) : RegClass := if f.toNat = 1 then .pair else if f.toNat = 2 then .quad else .single

/-- An atomic's value is a pair when f [1] is set (R277). -/
def pairIf (w : Bool) : RegClass := if w then .pair else .single

/-- An atomic's address is a pair for `.g` and a single register for `.s` (R277). -/
def addrClass (s : Bool) : RegClass := if s then .single else .pair

/-- The store sizes of R279. -/
def storeSizeOk (s : BitVec 3) : Bool := s.toNat == 0 || s.toNat == 2 || s.toNat == 4 || s.toNat == 5 || s.toNat == 6

/-- An operand in field pos, naming cls, that the instruction reads or writes. -/
def opnd (pos : FieldPos) (cls : RegClass) (n : BitVec k) (reads writes : Bool) : Operand := ⟨pos, cls, n.toNat, reads, writes⟩

/-- The register operands of an instruction, in the order of its fields. -/
def Instr.operands : Instr → List Operand
  | .add _ d a b _ => [opnd .d .single d false true, opnd .a .single a true false, opnd .b .single b true false]
  | .sub _ d a b _ => [opnd .d .single d false true, opnd .a .single a true false, opnd .b .single b true false]
  | .addc _ d a b _ => [opnd .d .single d false true, opnd .a .single a true false, opnd .b .single b true false]
  | .subb _ d a b _ => [opnd .d .single d false true, opnd .a .single a true false, opnd .b .single b true false]
  | .addi _ d a _ => [opnd .d .single d false true, opnd .a .single a true false]
  | .mul _ d a b _ => [opnd .d .single d false true, opnd .a .single a true false, opnd .b .single b true false]
  | .mulhI32 _ d a b _ => [opnd .d .single d false true, opnd .a .single a true false, opnd .b .single b true false]
  | .mulhN32 _ d a b _ => [opnd .d .single d false true, opnd .a .single a true false, opnd .b .single b true false]
  | .mad _ d a b _ => [opnd .d .single d true true, opnd .a .single a true false, opnd .b .single b true false]
  | .minI32 _ d a b _ => [opnd .d .single d false true, opnd .a .single a true false, opnd .b .single b true false]
  | .minN32 _ d a b _ => [opnd .d .single d false true, opnd .a .single a true false, opnd .b .single b true false]
  | .maxI32 _ d a b _ => [opnd .d .single d false true, opnd .a .single a true false, opnd .b .single b true false]
  | .maxN32 _ d a b _ => [opnd .d .single d false true, opnd .a .single a true false, opnd .b .single b true false]
  | .and _ d a b _ => [opnd .d .single d false true, opnd .a .single a true false, opnd .b .single b true false]
  | .or _ d a b _ => [opnd .d .single d false true, opnd .a .single a true false, opnd .b .single b true false]
  | .xor _ d a b _ => [opnd .d .single d false true, opnd .a .single a true false, opnd .b .single b true false]
  | .shlReg _ d a b _ => [opnd .d .single d false true, opnd .a .single a true false, opnd .b .single b true false]
  | .shrReg _ d a b _ => [opnd .d .single d false true, opnd .a .single a true false, opnd .b .single b true false]
  | .sarReg _ d a b _ => [opnd .d .single d false true, opnd .a .single a true false, opnd .b .single b true false]
  | .rolReg _ d a b _ => [opnd .d .single d false true, opnd .a .single a true false, opnd .b .single b true false]
  | .shlImm _ d a _ => [opnd .d .single d false true, opnd .a .single a true false]
  | .shrImm _ d a _ => [opnd .d .single d false true, opnd .a .single a true false]
  | .sarImm _ d a _ => [opnd .d .single d false true, opnd .a .single a true false]
  | .rolImm _ d a _ => [opnd .d .single d false true, opnd .a .single a true false]
  | .abs _ d a _ => [opnd .d .single d false true, opnd .a .single a true false]
  | .neg _ d a _ => [opnd .d .single d false true, opnd .a .single a true false]
  | .clz _ d a _ => [opnd .d .single d false true, opnd .a .single a true false]
  | .popc _ d a _ => [opnd .d .single d false true, opnd .a .single a true false]
  | .brev _ d a _ => [opnd .d .single d false true, opnd .a .single a true false]
  | .mov _ d a _ => [opnd .d .single d false true, opnd .a .single a true false]
  | .pk8 _ d a _ _ => [opnd .d .single d true true, opnd .a .single a true false]
  | .upk8N _ d a _ _ => [opnd .d .single d false true, opnd .a .single a true false]
  | .upk8I _ d a _ _ => [opnd .d .single d false true, opnd .a .single a true false]
  | .pk4 _ d a _ _ => [opnd .d .single d true true, opnd .a .single a true false]
  | .upk4N _ d a _ _ => [opnd .d .single d false true, opnd .a .single a true false]
  | .upk4I _ d a _ _ => [opnd .d .single d false true, opnd .a .single a true false]
  | .bfx _ d a b _ => [opnd .d .single d false true, opnd .a .single a true false, opnd .b .single b true false]
  | .bfxs _ d a b _ => [opnd .d .single d false true, opnd .a .single a true false, opnd .b .single b true false]
  | .bfi _ d a b _ => [opnd .d .single d true true, opnd .a .single a true false, opnd .b .single b true false]
  | .bfx64 _ d a b _ => [opnd .d .pair d false true, opnd .a .pair a true false, opnd .b .single b true false]
  | .bfxs64 _ d a b _ => [opnd .d .pair d false true, opnd .a .pair a true false, opnd .b .single b true false]
  | .bfi64 _ d a b _ => [opnd .d .pair d true true, opnd .a .pair a true false, opnd .b .single b true false]
  | .sel _ d a b _ => [opnd .d .single d false true, opnd .a .single a true false, opnd .b .single b true false]
  | .cmp _ _ _ a b _ _ => [opnd .a .single a true false, opnd .b .single b true false]
  | .movi _ d _ => [opnd .d .single d false true]
  | .movh _ d _ => [opnd .d .single d true true]
  | .add64 _ d a b _ => [opnd .d .pair d false true, opnd .a .pair a true false, opnd .b .pair b true false]
  | .sub64 _ d a b _ => [opnd .d .pair d false true, opnd .a .pair a true false, opnd .b .pair b true false]
  | .mul64 _ d a b _ => [opnd .d .pair d false true, opnd .a .pair a true false, opnd .b .pair b true false]
  | .mad64 _ d a b _ => [opnd .d .pair d true true, opnd .a .pair a true false, opnd .b .pair b true false]
  | .shl64 _ d a b _ => [opnd .d .pair d false true, opnd .a .pair a true false, opnd .b .single b true false]
  | .shr64 _ d a b _ => [opnd .d .pair d false true, opnd .a .pair a true false, opnd .b .single b true false]
  | .sar64 _ d a b _ => [opnd .d .pair d false true, opnd .a .pair a true false, opnd .b .single b true false]
  | .min64I64 _ d a b _ => [opnd .d .pair d false true, opnd .a .pair a true false, opnd .b .pair b true false]
  | .min64N64 _ d a b _ => [opnd .d .pair d false true, opnd .a .pair a true false, opnd .b .pair b true false]
  | .max64I64 _ d a b _ => [opnd .d .pair d false true, opnd .a .pair a true false, opnd .b .pair b true false]
  | .max64N64 _ d a b _ => [opnd .d .pair d false true, opnd .a .pair a true false, opnd .b .pair b true false]
  | .mulh64I64 _ d a b _ => [opnd .d .pair d false true, opnd .a .pair a true false, opnd .b .pair b true false]
  | .mulh64N64 _ d a b _ => [opnd .d .pair d false true, opnd .a .pair a true false, opnd .b .pair b true false]
  | .cmp64 _ _ _ a b _ _ => [opnd .a .pair a true false, opnd .b .pair b true false]
  | .fadd _ d a b _ _ => [opnd .d .single d false true, opnd .a .single a true false, opnd .b .single b true false]
  | .fsub _ d a b _ _ => [opnd .d .single d false true, opnd .a .single a true false, opnd .b .single b true false]
  | .fmul _ d a b _ _ => [opnd .d .single d false true, opnd .a .single a true false, opnd .b .single b true false]
  | .ffma _ d a b _ _ => [opnd .d .single d true true, opnd .a .single a true false, opnd .b .single b true false]
  | .fmin _ d a b _ => [opnd .d .single d false true, opnd .a .single a true false, opnd .b .single b true false]
  | .fmax _ d a b _ => [opnd .d .single d false true, opnd .a .single a true false, opnd .b .single b true false]
  | .hmax2 _ d a b _ _ => [opnd .d .single d false true, opnd .a .single a true false, opnd .b .single b true false]
  | .fcmp _ _ _ a b _ => [opnd .a .single a true false, opnd .b .single b true false]
  | .frcp _ d a _ => [opnd .d .single d false true, opnd .a .single a true false]
  | .frsq _ d a _ => [opnd .d .single d false true, opnd .a .single a true false]
  | .fsqrt _ d a _ => [opnd .d .single d false true, opnd .a .single a true false]
  | .fex2 _ d a _ => [opnd .d .single d false true, opnd .a .single a true false]
  | .flg2 _ d a _ => [opnd .d .single d false true, opnd .a .single a true false]
  | .fsin _ d a _ => [opnd .d .single d false true, opnd .a .single a true false]
  | .fcos _ d a _ => [opnd .d .single d false true, opnd .a .single a true false]
  | .ftanh _ d a _ => [opnd .d .single d false true, opnd .a .single a true false]
  | .frnd _ d a _ _ => [opnd .d .single d false true, opnd .a .single a true false]
  | .fcvt _ d a _ _ _ => [opnd .d .single d false true, opnd .a .single a true false]
  | .fcvtSat _ d a _ _ _ => [opnd .d .single d false true, opnd .a .single a true false]
  | .hadd2 _ d a b _ _ => [opnd .d .single d false true, opnd .a .single a true false, opnd .b .single b true false]
  | .hmul2 _ d a b _ _ => [opnd .d .single d false true, opnd .a .single a true false, opnd .b .single b true false]
  | .hfma2 _ d a b _ _ => [opnd .d .single d true true, opnd .a .single a true false, opnd .b .single b true false]
  | .hmin2 _ d a b _ _ => [opnd .d .single d false true, opnd .a .single a true false, opnd .b .single b true false]
  | .dot4 _ d a b _ => [opnd .d .single d true true, opnd .a .single a true false, opnd .b .single b true false]
  | .dot8 _ d a b _ => [opnd .d .single d true true, opnd .a .single a true false, opnd .b .single b true false]
  | .dotm4 _ d a b _ => [opnd .d .single d false true, opnd .a .single a true false, opnd .b .single b true false]
  | .dotm8 _ d a b _ _ => [opnd .d .single d false true, opnd .a .single a true false, opnd .b .single b true false]
  | .sclb _ d a b _ _ => [opnd .d .single d true true, opnd .a .single a true false, opnd .b .single b true false]
  | .shfl _ d a b _ _ => [opnd .d .single d true true, opnd .a .single a true false, opnd .b .single b true false]
  | .voteBallot _ d _ _ => [opnd .d .single d true true]
  | .voteAll _ d _ _ _ => [opnd .d .single d true true]
  | .voteAny _ d _ _ _ => [opnd .d .single d true true]
  | .voteEq _ d _ _ _ => [opnd .d .single d true true]
  | .lred _ d a _ _ => [opnd .d .single d true true, opnd .a .single a true false]
  | .lscan _ d a _ _ _ => [opnd .d .single d true true, opnd .a .single a true false]
  | .matchW _ d a => [opnd .d .single d true true, opnd .a .single a true false]
  | .match64 _ d a => [opnd .d .single d true true, opnd .a .pair a true false]
  | .fmtv _ d a => [opnd .d .single d true true, opnd .a .single a true false]
  | .cvg _ d => [opnd .d .single d true true]
  | .pand _ _ _ _ _ _ => []
  | .por _ _ _ _ _ _ => []
  | .pxor _ _ _ _ _ _ => []
  | .pnot _ _ _ _ => []
  | .bra _ _ _ _ => []
  | .brp _ _ _ _ => []
  | .call _ d _ => [opnd .d .pair d false true]
  | .ret _ a => [opnd .a .pair a true false]
  | .jmp _ a => [opnd .a .pair a true false]
  | .exit _ => []
  | .nop _ => []
  | .rep _ _ _ _ _ _ => []
  | .rsr _ d i => [opnd .d (srClass i) d false true]
  | .wbase _ a _ => [opnd .a .single a true false]
  | .ldG _ d a _ s _ => [opnd .d (sizeClass s) d false true, opnd .a .pair a true false]
  | .ldC _ d a _ s _ => [opnd .d (sizeClass s) d false true, opnd .a .pair a true false]
  | .ldS _ d a _ s => [opnd .d (sizeClass s) d false true, opnd .a .single a true false]
  | .ldX _ d a _ s => [opnd .d (sizeClass s) d false true, opnd .a .single a true false]
  | .ldAcq _ d a _ s _ => [opnd .d (sizeClass s) d false true, opnd .a .pair a true false]
  | .stG _ d a s _ => [opnd .d (sizeClass s) d true false, opnd .a .pair a true false]
  | .stS _ d a s => [opnd .d (sizeClass s) d true false, opnd .a .single a true false]
  | .stRel _ d a s _ => [opnd .d (sizeClass s) d true false, opnd .a .pair a true false]
  | .stX _ d a b f => [opnd .d (widthClass f) d true false, opnd .a .single a true false, opnd .b .single b true false]
  | .gft _ d a b f => [opnd .d (widthClass f) d true false, opnd .a .pair a true false, opnd .b .quad b true false]
  | .fence _ _ => []
  | .fenceRel _ _ => []
  | .fenceAcq _ _ => []
  | .cflush _ a => [opnd .a .pair a true false]
  | .cdemote _ a => [opnd .a .pair a true false]
  | .cpref _ a _ => [opnd .a .pair a true false]
  | .bld _ y m => [opnd .a .layout y true false, opnd .b .single m true false]
  | .bsel _ _ m => [opnd .b .single m true false]
  | .mma _ t y m _ => [opnd .d .tile t false true, opnd .a .layout y true false, opnd .b .single m true false]
  | .mmaz _ t y m _ => [opnd .d .tile t false true, opnd .a .layout y true false, opnd .b .single m true false]
  | .acz _ t => [opnd .d .tile t false true]
  | .acld _ t y => [opnd .d .tile t false true, opnd .a .layout y true false]
  | .acst _ t y m => [opnd .d .tile t true false, opnd .a .layout y true false, opnd .b .single m true false]
  | .acrd _ d a _ _ => [opnd .d .single d false true, opnd .a .single a true false]
  | .acwr _ d a _ => [opnd .d .single d true false, opnd .a .single a true false]
  | .acscl _ d _ => [opnd .d .single d true false]
  | .atmAdd _ d a b w s => [opnd .d (pairIf w) d false true, opnd .a (addrClass s) a true false, opnd .b (pairIf w) b true false]
  | .redAdd _ a b w s => [opnd .a (addrClass s) a true false, opnd .b (pairIf w) b true false]
  | .atmImin _ d a b w s => [opnd .d (pairIf w) d false true, opnd .a (addrClass s) a true false, opnd .b (pairIf w) b true false]
  | .redImin _ a b w s => [opnd .a (addrClass s) a true false, opnd .b (pairIf w) b true false]
  | .atmNmin _ d a b w s => [opnd .d (pairIf w) d false true, opnd .a (addrClass s) a true false, opnd .b (pairIf w) b true false]
  | .redNmin _ a b w s => [opnd .a (addrClass s) a true false, opnd .b (pairIf w) b true false]
  | .atmImax _ d a b w s => [opnd .d (pairIf w) d false true, opnd .a (addrClass s) a true false, opnd .b (pairIf w) b true false]
  | .redImax _ a b w s => [opnd .a (addrClass s) a true false, opnd .b (pairIf w) b true false]
  | .atmNmax _ d a b w s => [opnd .d (pairIf w) d false true, opnd .a (addrClass s) a true false, opnd .b (pairIf w) b true false]
  | .redNmax _ a b w s => [opnd .a (addrClass s) a true false, opnd .b (pairIf w) b true false]
  | .atmAnd _ d a b w s => [opnd .d (pairIf w) d false true, opnd .a (addrClass s) a true false, opnd .b (pairIf w) b true false]
  | .redAnd _ a b w s => [opnd .a (addrClass s) a true false, opnd .b (pairIf w) b true false]
  | .atmOr _ d a b w s => [opnd .d (pairIf w) d false true, opnd .a (addrClass s) a true false, opnd .b (pairIf w) b true false]
  | .redOr _ a b w s => [opnd .a (addrClass s) a true false, opnd .b (pairIf w) b true false]
  | .atmXor _ d a b w s => [opnd .d (pairIf w) d false true, opnd .a (addrClass s) a true false, opnd .b (pairIf w) b true false]
  | .redXor _ a b w s => [opnd .a (addrClass s) a true false, opnd .b (pairIf w) b true false]
  | .atmXchg _ d a b w s => [opnd .d (pairIf w) d false true, opnd .a (addrClass s) a true false, opnd .b (pairIf w) b true false]
  | .atmCas _ d a b w s => [opnd .d (pairIf w) d true true, opnd .a (addrClass s) a true false, opnd .b (pairIf w) b true false]
  | .atmFaddG _ d a b _ => [opnd .d .single d false true, opnd .a .pair a true false, opnd .b .single b true false]
  | .redFaddG _ a b _ => [opnd .a .pair a true false, opnd .b .single b true false]
  | .atmFaddS _ d a b _ => [opnd .d .single d false true, opnd .a .single a true false, opnd .b .single b true false]
  | .redFaddS _ a b _ => [opnd .a .single a true false, opnd .b .single b true false]
  | .xcp _ a => [opnd .a .single a true false]
  | .xget _ a => [opnd .a .single a true false]
  | .xput _ a => [opnd .a .single a true false]
  | .xputRel _ a => [opnd .a .single a true false]
  | .xred _ a => [opnd .a .single a true false]
  | .xsig _ a => [opnd .a .single a true false]
  | .xgth _ a => [opnd .a .single a true false]
  | .xrsc _ a => [opnd .a .single a true false]
  | .chap _ a b => [opnd .a .pair a true false, opnd .b .single b true false]
  | .wcnt _ _ _ => []
  | .syarm _ a b => [opnd .a .single a true false, opnd .b .single b true false]
  | .syadd _ a b => [opnd .a .single a true false, opnd .b .single b true false]
  | .sywait _ a b => [opnd .a .single a true false, opnd .b .single b true false]
  | .barWg _ => []
  | .barGang _ => []
  | .barX _ => []
  | .mon _ a => [opnd .a .pair a true false]
  | .mwait _ a => [opnd .a .single a true false]
  | .ropen _ a b => [opnd .a .single a true false, opnd .b .pair b true false]
  | .rclose _ => []
  | .rdepth _ d => [opnd .d .single d false true]
  | .rkeepG _ a b => [opnd .a .pair a true false, opnd .b .single b true false]
  | .rkeepS _ a b => [opnd .a .single a true false, opnd .b .single b true false]
  | .trap _ a => [opnd .a .single a true false]
  | .eretResume _ => []
  | .eretRetry _ => []
  | .eretEscalate _ => []
  | .eretKill _ => []
  | .segw _ a _ => [opnd .a .pair a true false]
  | .segr _ d _ => [opnd .d .pair d false true]
  | .wsr _ a i => [opnd .a (srClass i) a true false]
  | .tlbiVa _ a b => [opnd .a .pair a true false, opnd .b .single b true false]
  | .tlbiCtx _ b => [opnd .b .single b true false]
  | .tlbiAll _ => []
  | .yield _ => []
  | .spawn _ a => [opnd .a .pair a true false]
  | .warpChoice _ _ => []
  | .cut _ _ => []
  | .loadValueArrival _ _ => []
  | .stXApply _ => []
  | .exchangePolaritySwap _ => []
  | .siblingStop _ _ _ => []
  | .mwaitWake _ _ _ => []
  | .monitorTimeout _ _ _ => []
  | .laneFailure _ _ _ => []
  | .spareLaneSwitch _ _ _ => []
  | .ringRollback _ _ _ => []
  | .impreciseStoreFault _ => []
  | .homeTimeout _ _ => []
  | .l1Fill _ _ => []
  | .sliceWriteArrival _ => []
  | .writeQueueApply _ => []
  | .gatherMerge _ => []
  | .sharerUpdate _ _ => []
  | .graftFill _ _ => []
  | .writerAcknowledge _ => []
  | .evictionNotice _ _ => []
  | .sliceFill _ _ _ => []
  | .partialSectorMerge _ _ _ => []
  | .sliceVictimEviction _ _ => []
  | .refreshDue _ _ => []
  | .forcedAllBankRefresh _ => []
  | .postponedRefreshDrain _ _ => []
  | .refreshEnd _ _ => []
  | .pinRepairDue _ _ => []
  | .pinRepairPauseEnd _ _ => []
  | .pageWalk _ _ _ => []
  | .syncWordArrival _ => []
  | .copyCommandTake _ _ => []
  | .engineLineWrite _ _ => []
  | .commandRetire _ _ => []
  | .xputRelRelease _ _ => []
  | .xgthVersionRecheck _ _ => []
  | .xrscChunkArrival _ _ _ => []
  | .columnHeadReduction _ _ => []
  | .remoteWriteAck _ => []
  | .flitReceive _ _ _ => []
  | .creditReturn _ _ _ => []
  | .relayForward _ _ => []
  | .linkFailure _ => []
  | .orderedDetourSwitch _ => []
  | .ethernetFrameReceive _ _ _ _ _ => []
  | .ethernetFrameResend _ _ _ => []
  | .matrixCommandStart _ => []
  | .macroExchange _ _ => []
  | .matrixCommandComplete _ => []
  | .chainEntryStart _ => []
  | .chainEntryComplete _ => []
  | .encodeFrameComplete _ => []
  | .chainSlotArm _ _ => []
  | .chainSlotDisarm _ _ => []
  | .launchRecordTake _ => []
  | .workGroupRoute _ _ => []
  | .chunkPassDown _ _ => []
  | .workGroupPlacement _ => []
  | .workGroupResidency _ => []
  | .packageSteal _ _ => []
  | .dieSteal _ => []
  | .stealRequest _ _ => []
  | .warpComplete _ _ _ => []
  | .prunerTrigger _ => []
  | .prunerMoveStep _ => []
  | .contractRelease _ => []
  | .deadlineMiss _ => []
  | .budgetOverrun _ => []
  | .contractAdmission => []
  | .frequencyStepRequest _ _ => []
  | .frequencyStepEffect _ _ => []
  | .clockCrossingStallEnd _ => []
  | .contextPreempt _ => []
  | .drainLimitExpiry _ => []
  | .warpSnapshot _ _ _ => []
  | .workGroupSave _ => []
  | .snapshotLimitExpiry _ => []
  | .contextResume _ => []
  | .workGroupRestore _ => []
  | .contextReset _ => []
  | .contextRelease _ => []
  | .contractRemove _ => []
  | .mapOutCore _ => []
  | .mapOutCDie _ => []
  | .mapOutStack _ => []
  | .mapOutPseudoChannel _ => []
  | .pseudoChannelDropCopyEnd _ _ => []
  | .mapOutDieLink _ => []
  | .mapOutStolilPort _ => []
  | .rackQueueReserve => []
  | .rackQueuePublish _ => []
  | .walkAnswer _ _ _ => []
  | .stealAnswer _ _ _ => []
  | .admissionAnswer _ _ _ => []
  | .pruneAnswer _ _ => []
  | .trapAnswer _ _ _ => []
  | .dramRepairAnswer _ _ => []
  | .dieLinkHold _ => []
  | .holdDrainComplete _ => []
  | .dieLinkRelease _ => []
  | .dieLinkTrain _ _ => []
  | .trainingEnd _ _ => []
  | .laneRepair _ _ => []
  | .laneRepairComplete _ => []
  | .linkRetrainTrigger _ => []
  | .stolilPortRetrain _ _ => []
  | .mailboxAttest => []
  | .mailboxWriteRecord => []
  | .mailboxReadCertChain => []
  | .mailboxCommandComplete => []
  | .counterClear _ => []
  | .configRegisterWrite _ _ _ => []
  | .powerGood _ _ _ => []
  | .stage1Reached _ _ => []
  | .stage2Reached _ _ _ => []
  | .heartbeatSend => []
  | .heartbeatTimeout => []
  | .epochAdvance _ => []
  | .fabricConfigWrite _ _ _ _ => []
  | .logRecordShip _ => []
  | .logRecordAck _ => []
  | .hostPostedWrite _ _ => []
  | .hostRead _ _ => []
  | .instructionCacheFill _ _ _ => []
  | .dieLinkFlitReceive _ _ _ _ _ => []

/-- The subfields of an instruction hold assigned values within their limits (R273, R276, R279, R55). -/
def Instr.subcodesOk : Instr → Bool
  | .add _ _ _ _ _ => true
  | .sub _ _ _ _ _ => true
  | .addc _ _ _ _ _ => true
  | .subb _ _ _ _ _ => true
  | .addi _ _ _ _ => true
  | .mul _ _ _ _ _ => true
  | .mulhI32 _ _ _ _ _ => true
  | .mulhN32 _ _ _ _ _ => true
  | .mad _ _ _ _ _ => true
  | .minI32 _ _ _ _ _ => true
  | .minN32 _ _ _ _ _ => true
  | .maxI32 _ _ _ _ _ => true
  | .maxN32 _ _ _ _ _ => true
  | .and _ _ _ _ _ => true
  | .or _ _ _ _ _ => true
  | .xor _ _ _ _ _ => true
  | .shlReg _ _ _ _ _ => true
  | .shrReg _ _ _ _ _ => true
  | .sarReg _ _ _ _ _ => true
  | .rolReg _ _ _ _ _ => true
  | .shlImm _ _ _ _ => true
  | .shrImm _ _ _ _ => true
  | .sarImm _ _ _ _ => true
  | .rolImm _ _ _ _ => true
  | .abs _ _ _ _ => true
  | .neg _ _ _ _ => true
  | .clz _ _ _ _ => true
  | .popc _ _ _ _ => true
  | .brev _ _ _ _ => true
  | .mov _ _ _ _ => true
  | .pk8 _ _ _ _ _ => true
  | .upk8N _ _ _ _ _ => true
  | .upk8I _ _ _ _ _ => true
  | .pk4 _ _ _ _ _ => true
  | .upk4N _ _ _ _ _ => true
  | .upk4I _ _ _ _ _ => true
  | .bfx _ _ _ _ _ => true
  | .bfxs _ _ _ _ _ => true
  | .bfi _ _ _ _ _ => true
  | .bfx64 _ _ _ _ _ => true
  | .bfxs64 _ _ _ _ _ => true
  | .bfi64 _ _ _ _ _ => true
  | .sel _ _ _ _ _ => true
  | .cmp _ c _ _ _ _ _ => c.toNat < 6
  | .movi _ _ _ => true
  | .movh _ _ _ => true
  | .add64 _ _ _ _ _ => true
  | .sub64 _ _ _ _ _ => true
  | .mul64 _ _ _ _ _ => true
  | .mad64 _ _ _ _ _ => true
  | .shl64 _ _ _ _ _ => true
  | .shr64 _ _ _ _ _ => true
  | .sar64 _ _ _ _ _ => true
  | .min64I64 _ _ _ _ _ => true
  | .min64N64 _ _ _ _ _ => true
  | .max64I64 _ _ _ _ _ => true
  | .max64N64 _ _ _ _ _ => true
  | .mulh64I64 _ _ _ _ _ => true
  | .mulh64N64 _ _ _ _ _ => true
  | .cmp64 _ c _ _ _ _ _ => c.toNat < 6
  | .fadd _ _ _ _ _ _ => true
  | .fsub _ _ _ _ _ _ => true
  | .fmul _ _ _ _ _ _ => true
  | .ffma _ _ _ _ _ _ => true
  | .fmin _ _ _ _ _ => true
  | .fmax _ _ _ _ _ => true
  | .hmax2 _ _ _ _ _ _ => true
  | .fcmp _ c _ _ _ _ => c.toNat < 8
  | .frcp _ _ _ _ => true
  | .frsq _ _ _ _ => true
  | .fsqrt _ _ _ _ => true
  | .fex2 _ _ _ _ => true
  | .flg2 _ _ _ _ => true
  | .fsin _ _ _ _ => true
  | .fcos _ _ _ _ => true
  | .ftanh _ _ _ _ => true
  | .frnd _ _ _ _ _ => true
  | .fcvt _ _ _ t s _ => t.toNat < 13 && s.toNat < 13
  | .fcvtSat _ _ _ t s _ => t.toNat < 13 && s.toNat < 13
  | .hadd2 _ _ _ _ _ _ => true
  | .hmul2 _ _ _ _ _ _ => true
  | .hfma2 _ _ _ _ _ _ => true
  | .hmin2 _ _ _ _ _ _ => true
  | .dot4 _ _ _ _ _ => true
  | .dot8 _ _ _ _ _ => true
  | .dotm4 _ _ _ _ _ => true
  | .dotm8 _ _ _ _ _ _ => true
  | .sclb _ _ _ _ _ _ => true
  | .shfl _ _ _ _ _ _ => true
  | .voteBallot _ _ _ _ => true
  | .voteAll _ _ _ _ _ => true
  | .voteAny _ _ _ _ _ => true
  | .voteEq _ _ _ _ _ => true
  | .lred _ _ _ _ o => o.toNat < 11
  | .lscan _ _ _ _ _ o => o.toNat < 11
  | .matchW _ _ _ => true
  | .match64 _ _ _ => true
  | .fmtv _ _ _ => true
  | .cvg _ _ => true
  | .pand _ _ _ _ _ _ => true
  | .por _ _ _ _ _ _ => true
  | .pxor _ _ _ _ _ _ => true
  | .pnot _ _ _ _ => true
  | .bra _ _ _ _ => true
  | .brp _ _ _ _ => true
  | .call _ _ _ => true
  | .ret _ _ => true
  | .jmp _ _ => true
  | .exit _ => true
  | .nop _ => true
  | .rep _ _ _ _ _ _ => true
  | .rsr _ _ i => srNumbers.contains i.toNat
  | .wbase _ _ _ => true
  | .ldG _ _ _ _ s h => s.toNat < 7 && h.toNat < 3
  | .ldC _ _ _ _ s h => s.toNat < 7 && h.toNat < 3
  | .ldS _ _ _ _ s => s.toNat < 7
  | .ldX _ _ _ _ s => s.toNat < 7
  | .ldAcq _ _ _ _ s c => s.toNat < 7 && c.toNat < 5
  | .stG _ _ _ s h => storeSizeOk s && h.toNat < 3
  | .stS _ _ _ s => storeSizeOk s
  | .stRel _ _ _ s c => storeSizeOk s && c.toNat < 5
  | .stX _ _ _ _ f => f.toNat < 3
  | .gft _ _ _ _ f => f.toNat < 3
  | .fence _ c => c.toNat < 5
  | .fenceRel _ c => c.toNat < 5
  | .fenceAcq _ c => c.toNat < 5
  | .cflush _ _ => true
  | .cdemote _ _ => true
  | .cpref _ _ h => h.toNat < 3
  | .bld _ _ _ => true
  | .bsel _ _ _ => true
  | .mma _ _ _ _ _ => true
  | .mmaz _ _ _ _ _ => true
  | .acz _ _ => true
  | .acld _ _ _ => true
  | .acst _ _ _ _ => true
  | .acrd _ _ _ _ _ => true
  | .acwr _ _ _ _ => true
  | .acscl _ _ _ => true
  | .atmAdd _ _ _ _ _ _ => true
  | .redAdd _ _ _ _ _ => true
  | .atmImin _ _ _ _ _ _ => true
  | .redImin _ _ _ _ _ => true
  | .atmNmin _ _ _ _ _ _ => true
  | .redNmin _ _ _ _ _ => true
  | .atmImax _ _ _ _ _ _ => true
  | .redImax _ _ _ _ _ => true
  | .atmNmax _ _ _ _ _ _ => true
  | .redNmax _ _ _ _ _ => true
  | .atmAnd _ _ _ _ _ _ => true
  | .redAnd _ _ _ _ _ => true
  | .atmOr _ _ _ _ _ _ => true
  | .redOr _ _ _ _ _ => true
  | .atmXor _ _ _ _ _ _ => true
  | .redXor _ _ _ _ _ => true
  | .atmXchg _ _ _ _ _ _ => true
  | .atmCas _ _ _ _ _ _ => true
  | .atmFaddG _ _ _ _ t => t.toNat < 3
  | .redFaddG _ _ _ t => t.toNat < 3
  | .atmFaddS _ _ _ _ t => t.toNat < 3
  | .redFaddS _ _ _ t => t.toNat < 3
  | .xcp _ _ => true
  | .xget _ _ => true
  | .xput _ _ => true
  | .xputRel _ _ => true
  | .xred _ _ => true
  | .xsig _ _ => true
  | .xgth _ _ => true
  | .xrsc _ _ => true
  | .chap _ _ _ => true
  | .wcnt _ _ _ => true
  | .syarm _ _ _ => true
  | .syadd _ _ _ => true
  | .sywait _ _ _ => true
  | .barWg _ => true
  | .barGang _ => true
  | .barX _ => true
  | .mon _ _ => true
  | .mwait _ _ => true
  | .ropen _ _ _ => true
  | .rclose _ => true
  | .rdepth _ _ => true
  | .rkeepG _ _ _ => true
  | .rkeepS _ _ _ => true
  | .trap _ _ => true
  | .eretResume _ => true
  | .eretRetry _ => true
  | .eretEscalate _ => true
  | .eretKill _ => true
  | .segw _ _ s => s.toNat < 10
  | .segr _ _ s => s.toNat < 10
  | .wsr _ _ i => srWritable.contains i.toNat
  | .tlbiVa _ _ _ => true
  | .tlbiCtx _ _ => true
  | .tlbiAll _ => true
  | .yield _ => true
  | .spawn _ _ => true
  | .warpChoice core slot => core < 128 && slot < 8
  | .cut core slot => core < 128 && slot < 8
  | .loadValueArrival core _ => core < 128
  | .stXApply core => core < 128
  | .exchangePolaritySwap _ => true
  | .siblingStop core slot warp => core < 128 && slot < 8 && warp < 8
  | .mwaitWake core slot warp => core < 128 && slot < 8 && warp < 8
  | .monitorTimeout core slot warp => core < 128 && slot < 8 && warp < 8
  | .laneFailure core slot lane => core < 128 && slot < 8 && lane < 33
  | .spareLaneSwitch core slot warp => core < 128 && slot < 8 && warp < 8
  | .ringRollback core slot warp => core < 128 && slot < 8 && warp < 8
  | .impreciseStoreFault core => core < 128
  | .homeTimeout die _ => die < 4
  | .l1Fill core _ => core < 128
  | .sliceWriteArrival _ => true
  | .writeQueueApply slice => slice < 128
  | .gatherMerge _ => true
  | .sharerUpdate core _ => core < 128
  | .graftFill core _ => core < 128
  | .writerAcknowledge _ => true
  | .evictionNotice core _ => core < 128
  | .sliceFill _ _ _ => true
  | .partialSectorMerge _ _ _ => true
  | .sliceVictimEviction slice _ => slice < 128
  | .refreshDue pc _ => pc < 4096
  | .forcedAllBankRefresh pc => pc < 4096
  | .postponedRefreshDrain pc _ => pc < 4096
  | .refreshEnd pc _ => pc < 4096
  | .pinRepairDue stack _ => stack < 8
  | .pinRepairPauseEnd stack _ => stack < 8
  | .pageWalk die _ _ => die < 4
  | .syncWordArrival core => core < 128
  | .copyCommandTake die engine => die < 4 && engine < 16
  | .engineLineWrite die engine => die < 4 && engine < 16
  | .commandRetire core _ => core < 128
  | .xputRelRelease die engine => die < 4 && engine < 16
  | .xgthVersionRecheck die engine => die < 4 && engine < 16
  | .xrscChunkArrival _ _ _ => true
  | .columnHeadReduction _ _ => true
  | .remoteWriteAck _ => true
  | .flitReceive port _ _ => port < 15
  | .creditReturn port _ _ => port < 15
  | .relayForward port _ => port < 15
  | .linkFailure port => port < 15
  | .orderedDetourSwitch _ => true
  | .ethernetFrameReceive uplink _ _ _ _ => uplink < 4
  | .ethernetFrameResend uplink peer _ => uplink < 4 && peer < 128
  | .matrixCommandStart core => core < 128
  | .macroExchange core mac => core < 128 && mac < 16
  | .matrixCommandComplete core => core < 128
  | .chainEntryStart slot => slot < 36
  | .chainEntryComplete slot => slot < 36
  | .encodeFrameComplete slot => slot < 32
  | .chainSlotArm slot _ => slot < 36
  | .chainSlotDisarm slot _ => slot < 36
  | .launchRecordTake _ => true
  | .workGroupRoute _ _ => true
  | .chunkPassDown _ _ => true
  | .workGroupPlacement die => die < 4
  | .workGroupResidency core => core < 128
  | .packageSteal _ _ => true
  | .dieSteal die => die < 4
  | .stealRequest _ _ => true
  | .warpComplete core slot warp => core < 128 && slot < 8 && warp < 8
  | .prunerTrigger core => core < 128
  | .prunerMoveStep core => core < 128
  | .contractRelease _ => true
  | .deadlineMiss _ => true
  | .budgetOverrun _ => true
  | .contractAdmission => true
  | .frequencyStepRequest die _ => die < 4
  | .frequencyStepEffect die _ => die < 4
  | .clockCrossingStallEnd die => die < 4
  | .contextPreempt _ => true
  | .drainLimitExpiry ctx => ctx < 2048
  | .warpSnapshot core slot warp => core < 128 && slot < 8 && warp < 8
  | .workGroupSave _ => true
  | .snapshotLimitExpiry ctx => ctx < 2048
  | .contextResume _ => true
  | .workGroupRestore _ => true
  | .contextReset _ => true
  | .contextRelease _ => true
  | .contractRemove _ => true
  | .mapOutCore core => core < 128
  | .mapOutCDie die => die < 4
  | .mapOutStack stack => stack < 8
  | .mapOutPseudoChannel pc => pc < 4096
  | .pseudoChannelDropCopyEnd pc _ => pc < 4096
  | .mapOutDieLink link => link < 6
  | .mapOutStolilPort port => port < 15
  | .rackQueueReserve => true
  | .rackQueuePublish _ => true
  | .walkAnswer _ _ _ => true
  | .stealAnswer _ _ _ => true
  | .admissionAnswer _ _ _ => true
  | .pruneAnswer _ _ => true
  | .trapAnswer _ _ _ => true
  | .dramRepairAnswer _ _ => true
  | .dieLinkHold link => link < 6
  | .holdDrainComplete link => link < 6
  | .dieLinkRelease link => link < 6
  | .dieLinkTrain link _ => link < 6
  | .trainingEnd link _ => link < 6
  | .laneRepair link _ => link < 6
  | .laneRepairComplete link => link < 6
  | .linkRetrainTrigger link => link < 6
  | .stolilPortRetrain port _ => port < 15
  | .mailboxAttest => true
  | .mailboxWriteRecord => true
  | .mailboxReadCertChain => true
  | .mailboxCommandComplete => true
  | .counterClear _ => true
  | .configRegisterWrite _ _ _ => true
  | .powerGood _ _ _ => true
  | .stage1Reached _ _ => true
  | .stage2Reached _ _ _ => true
  | .heartbeatSend => true
  | .heartbeatTimeout => true
  | .epochAdvance _ => true
  | .fabricConfigWrite _ _ _ _ => true
  | .logRecordShip _ => true
  | .logRecordAck _ => true
  | .hostPostedWrite _ _ => true
  | .hostRead _ _ => true
  | .instructionCacheFill core _ _ => core < 128
  | .dieLinkFlitReceive link _ _ _ _ => link < 6

/-- The major opcode of an instruction word; 0 for an event, which has none. -/
def Instr.opcode (i : Instr) : Nat :=
  match encode i with
  | w :: _ => (w.extractLsb' 24 7).toNat
  | [] => 0

/-- A word that no repeat prefix may govern: Form B, K or P, or opcode 0x23 to 0x28, 0x2C, 0x2E, 0x2F, 0x50 to 0x6F (R283). -/
def opcodeRepeatable (op : Nat) : Bool :=
  !(op == 0x0E || op == 0x0F || (0x29 ≤ op && op ≤ 0x2F) || (0x23 ≤ op && op ≤ 0x28) || (0x50 ≤ op && op ≤ 0x6F))

/-- The class a field value lies in, for stepping: v registers, s registers, or neither (R283). -/
def stepClass (n : Nat) : Nat := if n < 96 then 0 else if n < 120 then 1 else 2

/-- One stepped field stays legal at raise k: the class of its first value and the pair, quad or triple rule (R283). -/
def Operand.stepLegal (o : Operand) (k : Nat) : Bool :=
  match o.cls with
  | .tile => o.num + k < 64
  | c => stepClass o.num < 2 && stepClass (o.num + k) == stepClass o.num && c.readable (o.num + k) &&
      (c != .layout || (96 ≤ o.num + k && o.num + k < 118))

/-- The enabled fields of a repeat prefix, as field positions. -/
def repFields (x y z : Bool) : List FieldPos :=
  (if x then [.d] else []) ++ (if y then [.a] else []) ++ (if z then [.b] else [])

/-- The prefix passes R283 over the decoded word it governs: every enabled field is a register field of the word, and every value
it takes over the n repeats is legal. -/
def repLegal (n stride : Nat) (x y z : Bool) (i : Instr) : Bool :=
  opcodeRepeatable i.opcode &&
  (repFields x y z).all fun p =>
    i.operands.any (fun o => o.pos == p) &&
    (i.operands.filter (fun o => o.pos == p)).all fun o => (List.range n).all fun j => o.stepLegal (j * stride)

/-- A field raised by k when its enable is set (R282). -/
def raise (en : Bool) (k : Nat) (f : BitVec w) : BitVec w := if en then f + BitVec.ofNat w k else f

/-- An instruction with its enabled fields raised by k (R282). Only the words a prefix may govern have fields to raise. -/
def Instr.stepped (ed ea eb : Bool) (n0 : Nat) : Instr → Instr
  | .add e d a b u => .add e (raise ed n0 d) (raise ea n0 a) (raise eb n0 b) u
  | .sub e d a b u => .sub e (raise ed n0 d) (raise ea n0 a) (raise eb n0 b) u
  | .addc e d a b u => .addc e (raise ed n0 d) (raise ea n0 a) (raise eb n0 b) u
  | .subb e d a b u => .subb e (raise ed n0 d) (raise ea n0 a) (raise eb n0 b) u
  | .addi e d a i => .addi e (raise ed n0 d) (raise ea n0 a) i
  | .mul e d a b u => .mul e (raise ed n0 d) (raise ea n0 a) (raise eb n0 b) u
  | .mulhI32 e d a b u => .mulhI32 e (raise ed n0 d) (raise ea n0 a) (raise eb n0 b) u
  | .mulhN32 e d a b u => .mulhN32 e (raise ed n0 d) (raise ea n0 a) (raise eb n0 b) u
  | .mad e d a b u => .mad e (raise ed n0 d) (raise ea n0 a) (raise eb n0 b) u
  | .minI32 e d a b u => .minI32 e (raise ed n0 d) (raise ea n0 a) (raise eb n0 b) u
  | .minN32 e d a b u => .minN32 e (raise ed n0 d) (raise ea n0 a) (raise eb n0 b) u
  | .maxI32 e d a b u => .maxI32 e (raise ed n0 d) (raise ea n0 a) (raise eb n0 b) u
  | .maxN32 e d a b u => .maxN32 e (raise ed n0 d) (raise ea n0 a) (raise eb n0 b) u
  | .and e d a b u => .and e (raise ed n0 d) (raise ea n0 a) (raise eb n0 b) u
  | .or e d a b u => .or e (raise ed n0 d) (raise ea n0 a) (raise eb n0 b) u
  | .xor e d a b u => .xor e (raise ed n0 d) (raise ea n0 a) (raise eb n0 b) u
  | .shlReg e d a b u => .shlReg e (raise ed n0 d) (raise ea n0 a) (raise eb n0 b) u
  | .shrReg e d a b u => .shrReg e (raise ed n0 d) (raise ea n0 a) (raise eb n0 b) u
  | .sarReg e d a b u => .sarReg e (raise ed n0 d) (raise ea n0 a) (raise eb n0 b) u
  | .rolReg e d a b u => .rolReg e (raise ed n0 d) (raise ea n0 a) (raise eb n0 b) u
  | .shlImm e d a c => .shlImm e (raise ed n0 d) (raise ea n0 a) c
  | .shrImm e d a c => .shrImm e (raise ed n0 d) (raise ea n0 a) c
  | .sarImm e d a c => .sarImm e (raise ed n0 d) (raise ea n0 a) c
  | .rolImm e d a c => .rolImm e (raise ed n0 d) (raise ea n0 a) c
  | .abs e d a l => .abs e (raise ed n0 d) (raise ea n0 a) l
  | .neg e d a l => .neg e (raise ed n0 d) (raise ea n0 a) l
  | .clz e d a l => .clz e (raise ed n0 d) (raise ea n0 a) l
  | .popc e d a l => .popc e (raise ed n0 d) (raise ea n0 a) l
  | .brev e d a l => .brev e (raise ed n0 d) (raise ea n0 a) l
  | .mov e d a l => .mov e (raise ed n0 d) (raise ea n0 a) l
  | .pk8 e d a l k => .pk8 e (raise ed n0 d) (raise ea n0 a) l k
  | .upk8N e d a l k => .upk8N e (raise ed n0 d) (raise ea n0 a) l k
  | .upk8I e d a l k => .upk8I e (raise ed n0 d) (raise ea n0 a) l k
  | .pk4 e d a l k => .pk4 e (raise ed n0 d) (raise ea n0 a) l k
  | .upk4N e d a l k => .upk4N e (raise ed n0 d) (raise ea n0 a) l k
  | .upk4I e d a l k => .upk4I e (raise ed n0 d) (raise ea n0 a) l k
  | .bfx e d a b u => .bfx e (raise ed n0 d) (raise ea n0 a) (raise eb n0 b) u
  | .bfxs e d a b u => .bfxs e (raise ed n0 d) (raise ea n0 a) (raise eb n0 b) u
  | .bfi e d a b u => .bfi e (raise ed n0 d) (raise ea n0 a) (raise eb n0 b) u
  | .bfx64 e d a b u => .bfx64 e (raise ed n0 d) (raise ea n0 a) (raise eb n0 b) u
  | .bfxs64 e d a b u => .bfxs64 e (raise ed n0 d) (raise ea n0 a) (raise eb n0 b) u
  | .bfi64 e d a b u => .bfi64 e (raise ed n0 d) (raise ea n0 a) (raise eb n0 b) u
  | .sel e d a b p => .sel e (raise ed n0 d) (raise ea n0 a) (raise eb n0 b) p
  | .cmp e c p a b u f => .cmp e c p (raise ea n0 a) (raise eb n0 b) u f
  | .movi e0 e1 e2 => .movi e0 e1 e2
  | .movh e0 e1 e2 => .movh e0 e1 e2
  | .add64 e d a b u => .add64 e (raise ed n0 d) (raise ea n0 a) (raise eb n0 b) u
  | .sub64 e d a b u => .sub64 e (raise ed n0 d) (raise ea n0 a) (raise eb n0 b) u
  | .mul64 e d a b u => .mul64 e (raise ed n0 d) (raise ea n0 a) (raise eb n0 b) u
  | .mad64 e d a b u => .mad64 e (raise ed n0 d) (raise ea n0 a) (raise eb n0 b) u
  | .shl64 e d a b u => .shl64 e (raise ed n0 d) (raise ea n0 a) (raise eb n0 b) u
  | .shr64 e d a b u => .shr64 e (raise ed n0 d) (raise ea n0 a) (raise eb n0 b) u
  | .sar64 e d a b u => .sar64 e (raise ed n0 d) (raise ea n0 a) (raise eb n0 b) u
  | .min64I64 e d a b u => .min64I64 e (raise ed n0 d) (raise ea n0 a) (raise eb n0 b) u
  | .min64N64 e d a b u => .min64N64 e (raise ed n0 d) (raise ea n0 a) (raise eb n0 b) u
  | .max64I64 e d a b u => .max64I64 e (raise ed n0 d) (raise ea n0 a) (raise eb n0 b) u
  | .max64N64 e d a b u => .max64N64 e (raise ed n0 d) (raise ea n0 a) (raise eb n0 b) u
  | .mulh64I64 e d a b u => .mulh64I64 e (raise ed n0 d) (raise ea n0 a) (raise eb n0 b) u
  | .mulh64N64 e d a b u => .mulh64N64 e (raise ed n0 d) (raise ea n0 a) (raise eb n0 b) u
  | .cmp64 e c p a b u f => .cmp64 e c p (raise ea n0 a) (raise eb n0 b) u f
  | .fadd e d a b u r => .fadd e (raise ed n0 d) (raise ea n0 a) (raise eb n0 b) u r
  | .fsub e d a b u r => .fsub e (raise ed n0 d) (raise ea n0 a) (raise eb n0 b) u r
  | .fmul e d a b u r => .fmul e (raise ed n0 d) (raise ea n0 a) (raise eb n0 b) u r
  | .ffma e d a b u r => .ffma e (raise ed n0 d) (raise ea n0 a) (raise eb n0 b) u r
  | .fmin e d a b u => .fmin e (raise ed n0 d) (raise ea n0 a) (raise eb n0 b) u
  | .fmax e d a b u => .fmax e (raise ed n0 d) (raise ea n0 a) (raise eb n0 b) u
  | .hmax2 e d a b u t => .hmax2 e (raise ed n0 d) (raise ea n0 a) (raise eb n0 b) u t
  | .fcmp e c p a b u => .fcmp e c p (raise ea n0 a) (raise eb n0 b) u
  | .frcp e d a l => .frcp e (raise ed n0 d) (raise ea n0 a) l
  | .frsq e d a l => .frsq e (raise ed n0 d) (raise ea n0 a) l
  | .fsqrt e d a l => .fsqrt e (raise ed n0 d) (raise ea n0 a) l
  | .fex2 e d a l => .fex2 e (raise ed n0 d) (raise ea n0 a) l
  | .flg2 e d a l => .flg2 e (raise ed n0 d) (raise ea n0 a) l
  | .fsin e d a l => .fsin e (raise ed n0 d) (raise ea n0 a) l
  | .fcos e d a l => .fcos e (raise ed n0 d) (raise ea n0 a) l
  | .ftanh e d a l => .ftanh e (raise ed n0 d) (raise ea n0 a) l
  | .frnd e d a l r => .frnd e (raise ed n0 d) (raise ea n0 a) l r
  | .fcvt e d a t s r => .fcvt e (raise ed n0 d) (raise ea n0 a) t s r
  | .fcvtSat e d a t s r => .fcvtSat e (raise ed n0 d) (raise ea n0 a) t s r
  | .hadd2 e d a b u t => .hadd2 e (raise ed n0 d) (raise ea n0 a) (raise eb n0 b) u t
  | .hmul2 e d a b u t => .hmul2 e (raise ed n0 d) (raise ea n0 a) (raise eb n0 b) u t
  | .hfma2 e d a b u t => .hfma2 e (raise ed n0 d) (raise ea n0 a) (raise eb n0 b) u t
  | .hmin2 e d a b u t => .hmin2 e (raise ed n0 d) (raise ea n0 a) (raise eb n0 b) u t
  | .dot4 e d a b u => .dot4 e (raise ed n0 d) (raise ea n0 a) (raise eb n0 b) u
  | .dot8 e d a b u => .dot8 e (raise ed n0 d) (raise ea n0 a) (raise eb n0 b) u
  | .dotm4 e d a b u => .dotm4 e (raise ed n0 d) (raise ea n0 a) (raise eb n0 b) u
  | .dotm8 e d a b u f => .dotm8 e (raise ed n0 d) (raise ea n0 a) (raise eb n0 b) u f
  | .sclb e d a b u k => .sclb e (raise ed n0 d) (raise ea n0 a) (raise eb n0 b) u k
  | .shfl e0 e1 e2 e3 e4 e5 => .shfl e0 e1 e2 e3 e4 e5
  | .voteBallot e0 e1 e2 e3 => .voteBallot e0 e1 e2 e3
  | .voteAll e0 e1 e2 e3 e4 => .voteAll e0 e1 e2 e3 e4
  | .voteAny e0 e1 e2 e3 e4 => .voteAny e0 e1 e2 e3 e4
  | .voteEq e0 e1 e2 e3 e4 => .voteEq e0 e1 e2 e3 e4
  | .lred e0 e1 e2 e3 e4 => .lred e0 e1 e2 e3 e4
  | .lscan e0 e1 e2 e3 e4 e5 => .lscan e0 e1 e2 e3 e4 e5
  | .matchW e0 e1 e2 => .matchW e0 e1 e2
  | .match64 e0 e1 e2 => .match64 e0 e1 e2
  | .fmtv e0 e1 e2 => .fmtv e0 e1 e2
  | .cvg e0 e1 => .cvg e0 e1
  | .pand e0 e1 e2 e3 e4 e5 => .pand e0 e1 e2 e3 e4 e5
  | .por e0 e1 e2 e3 e4 e5 => .por e0 e1 e2 e3 e4 e5
  | .pxor e0 e1 e2 e3 e4 e5 => .pxor e0 e1 e2 e3 e4 e5
  | .pnot e0 e1 e2 e3 => .pnot e0 e1 e2 e3
  | .bra e0 e1 e2 e3 => .bra e0 e1 e2 e3
  | .brp e0 e1 e2 e3 => .brp e0 e1 e2 e3
  | .call e0 e1 e2 => .call e0 e1 e2
  | .ret e0 e1 => .ret e0 e1
  | .jmp e0 e1 => .jmp e0 e1
  | .exit e0 => .exit e0
  | .nop e0 => .nop e0
  | .rep e0 e1 e2 e3 e4 e5 => .rep e0 e1 e2 e3 e4 e5
  | .rsr e0 e1 e2 => .rsr e0 e1 e2
  | .wbase e0 e1 e2 => .wbase e0 e1 e2
  | .ldG e d a l s h => .ldG e (raise ed n0 d) (raise ea n0 a) l s h
  | .ldC e d a l s h => .ldC e (raise ed n0 d) (raise ea n0 a) l s h
  | .ldS e d a l s => .ldS e (raise ed n0 d) (raise ea n0 a) l s
  | .ldX e d a l s => .ldX e (raise ed n0 d) (raise ea n0 a) l s
  | .ldAcq e d a l s c => .ldAcq e (raise ed n0 d) (raise ea n0 a) l s c
  | .stG e d a s h => .stG e (raise ed n0 d) (raise ea n0 a) s h
  | .stS e d a s => .stS e (raise ed n0 d) (raise ea n0 a) s
  | .stRel e d a s c => .stRel e (raise ed n0 d) (raise ea n0 a) s c
  | .stX e d a b f => .stX e (raise ed n0 d) (raise ea n0 a) (raise eb n0 b) f
  | .gft e d a b f => .gft e (raise ed n0 d) (raise ea n0 a) (raise eb n0 b) f
  | .fence e0 e1 => .fence e0 e1
  | .fenceRel e0 e1 => .fenceRel e0 e1
  | .fenceAcq e0 e1 => .fenceAcq e0 e1
  | .cflush e a => .cflush e (raise ea n0 a)
  | .cdemote e a => .cdemote e (raise ea n0 a)
  | .cpref e a h => .cpref e (raise ea n0 a) h
  | .bld e y m => .bld e (raise ea n0 y) (raise eb n0 m)
  | .bsel e g m => .bsel e g (raise eb n0 m)
  | .mma e t y m l => .mma e (raise ed n0 t) (raise ea n0 y) (raise eb n0 m) l
  | .mmaz e t y m l => .mmaz e (raise ed n0 t) (raise ea n0 y) (raise eb n0 m) l
  | .acz e t => .acz e (raise ed n0 t)
  | .acld e t y => .acld e (raise ed n0 t) (raise ea n0 y)
  | .acst e t y m => .acst e (raise ed n0 t) (raise ea n0 y) (raise eb n0 m)
  | .acrd e d a l t => .acrd e (raise ed n0 d) (raise ea n0 a) l t
  | .acwr e d a t => .acwr e (raise ed n0 d) (raise ea n0 a) t
  | .acscl e d t => .acscl e (raise ed n0 d) t
  | .atmAdd e d a b w s => .atmAdd e (raise ed n0 d) (raise ea n0 a) (raise eb n0 b) w s
  | .redAdd e a b w s => .redAdd e (raise ea n0 a) (raise eb n0 b) w s
  | .atmImin e d a b w s => .atmImin e (raise ed n0 d) (raise ea n0 a) (raise eb n0 b) w s
  | .redImin e a b w s => .redImin e (raise ea n0 a) (raise eb n0 b) w s
  | .atmNmin e d a b w s => .atmNmin e (raise ed n0 d) (raise ea n0 a) (raise eb n0 b) w s
  | .redNmin e a b w s => .redNmin e (raise ea n0 a) (raise eb n0 b) w s
  | .atmImax e d a b w s => .atmImax e (raise ed n0 d) (raise ea n0 a) (raise eb n0 b) w s
  | .redImax e a b w s => .redImax e (raise ea n0 a) (raise eb n0 b) w s
  | .atmNmax e d a b w s => .atmNmax e (raise ed n0 d) (raise ea n0 a) (raise eb n0 b) w s
  | .redNmax e a b w s => .redNmax e (raise ea n0 a) (raise eb n0 b) w s
  | .atmAnd e d a b w s => .atmAnd e (raise ed n0 d) (raise ea n0 a) (raise eb n0 b) w s
  | .redAnd e a b w s => .redAnd e (raise ea n0 a) (raise eb n0 b) w s
  | .atmOr e d a b w s => .atmOr e (raise ed n0 d) (raise ea n0 a) (raise eb n0 b) w s
  | .redOr e a b w s => .redOr e (raise ea n0 a) (raise eb n0 b) w s
  | .atmXor e d a b w s => .atmXor e (raise ed n0 d) (raise ea n0 a) (raise eb n0 b) w s
  | .redXor e a b w s => .redXor e (raise ea n0 a) (raise eb n0 b) w s
  | .atmXchg e d a b w s => .atmXchg e (raise ed n0 d) (raise ea n0 a) (raise eb n0 b) w s
  | .atmCas e d a b w s => .atmCas e (raise ed n0 d) (raise ea n0 a) (raise eb n0 b) w s
  | .atmFaddG e d a b t => .atmFaddG e (raise ed n0 d) (raise ea n0 a) (raise eb n0 b) t
  | .redFaddG e a b t => .redFaddG e (raise ea n0 a) (raise eb n0 b) t
  | .atmFaddS e d a b t => .atmFaddS e (raise ed n0 d) (raise ea n0 a) (raise eb n0 b) t
  | .redFaddS e a b t => .redFaddS e (raise ea n0 a) (raise eb n0 b) t
  | .xcp e0 e1 => .xcp e0 e1
  | .xget e0 e1 => .xget e0 e1
  | .xput e0 e1 => .xput e0 e1
  | .xputRel e0 e1 => .xputRel e0 e1
  | .xred e0 e1 => .xred e0 e1
  | .xsig e0 e1 => .xsig e0 e1
  | .xgth e0 e1 => .xgth e0 e1
  | .xrsc e0 e1 => .xrsc e0 e1
  | .chap e0 e1 e2 => .chap e0 e1 e2
  | .wcnt e0 e1 e2 => .wcnt e0 e1 e2
  | .syarm e0 e1 e2 => .syarm e0 e1 e2
  | .syadd e0 e1 e2 => .syadd e0 e1 e2
  | .sywait e0 e1 e2 => .sywait e0 e1 e2
  | .barWg e0 => .barWg e0
  | .barGang e0 => .barGang e0
  | .barX e0 => .barX e0
  | .mon e0 e1 => .mon e0 e1
  | .mwait e0 e1 => .mwait e0 e1
  | .ropen e0 e1 e2 => .ropen e0 e1 e2
  | .rclose e0 => .rclose e0
  | .rdepth e0 e1 => .rdepth e0 e1
  | .rkeepG e0 e1 e2 => .rkeepG e0 e1 e2
  | .rkeepS e0 e1 e2 => .rkeepS e0 e1 e2
  | .trap e0 e1 => .trap e0 e1
  | .eretResume e0 => .eretResume e0
  | .eretRetry e0 => .eretRetry e0
  | .eretEscalate e0 => .eretEscalate e0
  | .eretKill e0 => .eretKill e0
  | .segw e0 e1 e2 => .segw e0 e1 e2
  | .segr e0 e1 e2 => .segr e0 e1 e2
  | .wsr e0 e1 e2 => .wsr e0 e1 e2
  | .tlbiVa e0 e1 e2 => .tlbiVa e0 e1 e2
  | .tlbiCtx e0 e1 => .tlbiCtx e0 e1
  | .tlbiAll e0 => .tlbiAll e0
  | .yield e0 => .yield e0
  | .spawn e0 e1 => .spawn e0 e1
  | .warpChoice e0 e1 => .warpChoice e0 e1
  | .cut e0 e1 => .cut e0 e1
  | .loadValueArrival e0 e1 => .loadValueArrival e0 e1
  | .stXApply e0 => .stXApply e0
  | .exchangePolaritySwap e0 => .exchangePolaritySwap e0
  | .siblingStop e0 e1 e2 => .siblingStop e0 e1 e2
  | .mwaitWake e0 e1 e2 => .mwaitWake e0 e1 e2
  | .monitorTimeout e0 e1 e2 => .monitorTimeout e0 e1 e2
  | .laneFailure e0 e1 e2 => .laneFailure e0 e1 e2
  | .spareLaneSwitch e0 e1 e2 => .spareLaneSwitch e0 e1 e2
  | .ringRollback e0 e1 e2 => .ringRollback e0 e1 e2
  | .impreciseStoreFault e0 => .impreciseStoreFault e0
  | .homeTimeout e0 e1 => .homeTimeout e0 e1
  | .l1Fill e0 e1 => .l1Fill e0 e1
  | .sliceWriteArrival e0 => .sliceWriteArrival e0
  | .writeQueueApply e0 => .writeQueueApply e0
  | .gatherMerge e0 => .gatherMerge e0
  | .sharerUpdate e0 e1 => .sharerUpdate e0 e1
  | .graftFill e0 e1 => .graftFill e0 e1
  | .writerAcknowledge e0 => .writerAcknowledge e0
  | .evictionNotice e0 e1 => .evictionNotice e0 e1
  | .sliceFill e0 e1 e2 => .sliceFill e0 e1 e2
  | .partialSectorMerge e0 e1 e2 => .partialSectorMerge e0 e1 e2
  | .sliceVictimEviction e0 e1 => .sliceVictimEviction e0 e1
  | .refreshDue e0 e1 => .refreshDue e0 e1
  | .forcedAllBankRefresh e0 => .forcedAllBankRefresh e0
  | .postponedRefreshDrain e0 e1 => .postponedRefreshDrain e0 e1
  | .refreshEnd e0 e1 => .refreshEnd e0 e1
  | .pinRepairDue e0 e1 => .pinRepairDue e0 e1
  | .pinRepairPauseEnd e0 e1 => .pinRepairPauseEnd e0 e1
  | .pageWalk e0 e1 e2 => .pageWalk e0 e1 e2
  | .syncWordArrival e0 => .syncWordArrival e0
  | .copyCommandTake e0 e1 => .copyCommandTake e0 e1
  | .engineLineWrite e0 e1 => .engineLineWrite e0 e1
  | .commandRetire e0 e1 => .commandRetire e0 e1
  | .xputRelRelease e0 e1 => .xputRelRelease e0 e1
  | .xgthVersionRecheck e0 e1 => .xgthVersionRecheck e0 e1
  | .xrscChunkArrival e0 e1 e2 => .xrscChunkArrival e0 e1 e2
  | .columnHeadReduction e0 e1 => .columnHeadReduction e0 e1
  | .remoteWriteAck e0 => .remoteWriteAck e0
  | .flitReceive e0 e1 e2 => .flitReceive e0 e1 e2
  | .creditReturn e0 e1 e2 => .creditReturn e0 e1 e2
  | .relayForward e0 e1 => .relayForward e0 e1
  | .linkFailure e0 => .linkFailure e0
  | .orderedDetourSwitch e0 => .orderedDetourSwitch e0
  | .ethernetFrameReceive e0 e1 e2 e3 e4 => .ethernetFrameReceive e0 e1 e2 e3 e4
  | .ethernetFrameResend e0 e1 e2 => .ethernetFrameResend e0 e1 e2
  | .matrixCommandStart e0 => .matrixCommandStart e0
  | .macroExchange e0 e1 => .macroExchange e0 e1
  | .matrixCommandComplete e0 => .matrixCommandComplete e0
  | .chainEntryStart e0 => .chainEntryStart e0
  | .chainEntryComplete e0 => .chainEntryComplete e0
  | .encodeFrameComplete e0 => .encodeFrameComplete e0
  | .chainSlotArm e0 e1 => .chainSlotArm e0 e1
  | .chainSlotDisarm e0 e1 => .chainSlotDisarm e0 e1
  | .launchRecordTake e0 => .launchRecordTake e0
  | .workGroupRoute e0 e1 => .workGroupRoute e0 e1
  | .chunkPassDown e0 e1 => .chunkPassDown e0 e1
  | .workGroupPlacement e0 => .workGroupPlacement e0
  | .workGroupResidency e0 => .workGroupResidency e0
  | .packageSteal e0 e1 => .packageSteal e0 e1
  | .dieSteal e0 => .dieSteal e0
  | .stealRequest e0 e1 => .stealRequest e0 e1
  | .warpComplete e0 e1 e2 => .warpComplete e0 e1 e2
  | .prunerTrigger e0 => .prunerTrigger e0
  | .prunerMoveStep e0 => .prunerMoveStep e0
  | .contractRelease e0 => .contractRelease e0
  | .deadlineMiss e0 => .deadlineMiss e0
  | .budgetOverrun e0 => .budgetOverrun e0
  | .contractAdmission => .contractAdmission
  | .frequencyStepRequest e0 e1 => .frequencyStepRequest e0 e1
  | .frequencyStepEffect e0 e1 => .frequencyStepEffect e0 e1
  | .clockCrossingStallEnd e0 => .clockCrossingStallEnd e0
  | .contextPreempt e0 => .contextPreempt e0
  | .drainLimitExpiry e0 => .drainLimitExpiry e0
  | .warpSnapshot e0 e1 e2 => .warpSnapshot e0 e1 e2
  | .workGroupSave e0 => .workGroupSave e0
  | .snapshotLimitExpiry e0 => .snapshotLimitExpiry e0
  | .contextResume e0 => .contextResume e0
  | .workGroupRestore e0 => .workGroupRestore e0
  | .contextReset e0 => .contextReset e0
  | .contextRelease e0 => .contextRelease e0
  | .contractRemove e0 => .contractRemove e0
  | .mapOutCore e0 => .mapOutCore e0
  | .mapOutCDie e0 => .mapOutCDie e0
  | .mapOutStack e0 => .mapOutStack e0
  | .mapOutPseudoChannel e0 => .mapOutPseudoChannel e0
  | .pseudoChannelDropCopyEnd e0 e1 => .pseudoChannelDropCopyEnd e0 e1
  | .mapOutDieLink e0 => .mapOutDieLink e0
  | .mapOutStolilPort e0 => .mapOutStolilPort e0
  | .rackQueueReserve => .rackQueueReserve
  | .rackQueuePublish e0 => .rackQueuePublish e0
  | .walkAnswer e0 e1 e2 => .walkAnswer e0 e1 e2
  | .stealAnswer e0 e1 e2 => .stealAnswer e0 e1 e2
  | .admissionAnswer e0 e1 e2 => .admissionAnswer e0 e1 e2
  | .pruneAnswer e0 e1 => .pruneAnswer e0 e1
  | .trapAnswer e0 e1 e2 => .trapAnswer e0 e1 e2
  | .dramRepairAnswer e0 e1 => .dramRepairAnswer e0 e1
  | .dieLinkHold e0 => .dieLinkHold e0
  | .holdDrainComplete e0 => .holdDrainComplete e0
  | .dieLinkRelease e0 => .dieLinkRelease e0
  | .dieLinkTrain e0 e1 => .dieLinkTrain e0 e1
  | .trainingEnd e0 e1 => .trainingEnd e0 e1
  | .laneRepair e0 e1 => .laneRepair e0 e1
  | .laneRepairComplete e0 => .laneRepairComplete e0
  | .linkRetrainTrigger e0 => .linkRetrainTrigger e0
  | .stolilPortRetrain e0 e1 => .stolilPortRetrain e0 e1
  | .mailboxAttest => .mailboxAttest
  | .mailboxWriteRecord => .mailboxWriteRecord
  | .mailboxReadCertChain => .mailboxReadCertChain
  | .mailboxCommandComplete => .mailboxCommandComplete
  | .counterClear e0 => .counterClear e0
  | .configRegisterWrite e0 e1 e2 => .configRegisterWrite e0 e1 e2
  | .powerGood e0 e1 e2 => .powerGood e0 e1 e2
  | .stage1Reached e0 e1 => .stage1Reached e0 e1
  | .stage2Reached e0 e1 e2 => .stage2Reached e0 e1 e2
  | .heartbeatSend => .heartbeatSend
  | .heartbeatTimeout => .heartbeatTimeout
  | .epochAdvance e0 => .epochAdvance e0
  | .fabricConfigWrite e0 e1 e2 e3 => .fabricConfigWrite e0 e1 e2 e3
  | .logRecordShip e0 => .logRecordShip e0
  | .logRecordAck e0 => .logRecordAck e0
  | .hostPostedWrite e0 e1 => .hostPostedWrite e0 e1
  | .hostRead e0 e1 => .hostRead e0 e1
  | .instructionCacheFill e0 e1 e2 => .instructionCacheFill e0 e1 e2
  | .dieLinkFlitReceive e0 e1 e2 e3 e4 => .dieLinkFlitReceive e0 e1 e2 e3 e4

end Sys2Proof
end

