-- ==== Sys2Proof/WellFormed.lean ====
section
/-! DEFINITION. Well-formed instructions (spec/12_encoding.md R273): legal register fields (R38 to R40, R272) and assigned subfields
(R276, R279, R55); for an event, places that exist (00 R1). -/

namespace Sys2Proof

/-- A well-formed instruction: legal register fields and assigned subfields (R273); for an event, places that exist (R1). -/
def Instr.wellFormed (i : Instr) : Bool := i.operands.all Operand.legal && i.subcodesOk

end Sys2Proof
end

