-- ==== Sys2Proof/Machine/Operands.lean ====
section
/-! DEFINITION. Operand forms (spec/02_registers.md R38 to R48): the one place where thread, scalar and fixed registers, predicates
and their poison bits are read and written, and where a lookahead commit is entered (R51). -/

namespace Sys2Proof.Machine

/-! Places. -/

/-- The key of a slot: 8 slots a core (R17). -/
def slotKey (core slot : Nat) : Nat := core * 8 + slot

/-- The key of a warp: 8 slot-local numbers a slot (R18). -/
def warpKey (core slot warp : Nat) : Nat := slotKey core slot * 8 + warp

/-- The physical lanes of a package: 1024 slots of 33 (R17). -/
def packageLanes : Nat := 33792

/-- The key of a physical register: its place among the lanes of the package, and its number (R17). -/
def regKey (core slot lane reg : Nat) : Nat := reg * packageLanes + (slotKey core slot * 33 + lane)

/-- A register key lies in the range of n registers from the first on, in some lane of a slot. -/
def inRange (core slot first n k : Nat) : Bool :=
  k % packageLanes / 33 == slotKey core slot && first ≤ k / packageLanes && k / packageLanes < first + n

/-- The key of the warp a group belongs to. -/
def Group.key (g : Group) : Nat := warpKey g.core g.slot g.warp

/-- The warp at a place. -/
def State.warpAt (s : State) (k : Nat) : Option Warp := s.thr.warps.find k

/-- Replace the warp at a place. -/
def State.setWarp (s : State) (k : Nat) (w : Warp) : State :=
  { s with thr := { s.thr with warps := s.thr.warps.insert k w } }

/-- Change the warp at a place, if one is resident there. -/
def State.onWarp (s : State) (k : Nat) (f : Warp → Warp) : State :=
  { s with thr := { s.thr with warps := s.thr.warps.adjust k f } }

/-- The slot at a place. -/
def State.slotAt (s : State) (core slot : Nat) : Slot := s.thr.slots.getD (slotKey core slot) Slot.init

/-- Change a slot. -/
def State.onSlot (s : State) (core slot : Nat) (f : Slot → Slot) : State :=
  { s with thr := { s.thr with slots := s.thr.slots.alter (slotKey core slot) f Slot.init } }

/-- A lane of a warp; an index past the end is an absent lane. -/
def Warp.lane (w : Warp) (l : Nat) : Lane := w.lanes.getD l Lane.absent

/-- Change one lane of a warp. -/
def Warp.onLane (w : Warp) (l : Nat) (f : Lane → Lane) : Warp := { w with lanes := w.lanes.modify l f }

/-- Change the lanes listed. -/
def Warp.onLanes (w : Warp) (ls : List Nat) (f : Lane → Lane) : Warp := ls.foldl (fun w l => w.onLane l f) w

/-- Change the lanes listed of the warp at a place. -/
def State.onLanes (s : State) (k : Nat) (ls : List Nat) (f : Lane → Lane) : State := s.onWarp k (·.onLanes ls f)

/-! Modes (R55 `sr.mode`). -/

def Warp.system (w : Warp) : Bool := w.mode.getLsbD 0
def Warp.protected' (w : Warp) : Bool := w.mode.getLsbD 1
def Warp.compat (w : Warp) : Bool := w.mode.getLsbD 2

/-- Set or clear the system-mode bit. -/
def Warp.setSystem (w : Warp) (b : Bool) : Warp :=
  { w with mode := (w.mode &&& 6#3) ||| (if b then 1#3 else 0#3) }

/-- The size of a warp's register range: 32, 64, 128, 256 or 512 (R42). -/
def Warp.size (w : Warp) : Nat := 32 * 2 ^ w.sizeCode

/-- The physical lane that hosts thread position l: the spare lane once it has replaced l (R17, R260). -/
def Warp.phys (w : Warp) (l : Nat) : Nat := if w.spared = some l then 32 else l

/-- The visible lane number: the pair's index in protected mode (R31). -/
def Warp.visible (w : Warp) (l : Nat) : Nat := if w.protected' then l / 2 else l

/-- The warp width: 32, or 16 in protected mode (R16, R31). -/
def Warp.width (w : Warp) : Nat := if w.protected' then 16 else 32

/-! Thread registers (R42, R43). -/

/-- The physical register that range-relative register n of lane l occupies. -/
def physReg (core slot : Nat) (w : Warp) (l n : Nat) : Nat := regKey core slot (w.phys l) (32 * w.base + n)

/-- A physical register. -/
def State.reg (s : State) (k : Nat) : PWord := s.thr.regs.getD k PWord.zero

/-- Write a physical register. -/
def State.setReg (s : State) (k : Nat) (v : PWord) : State :=
  { s with thr := { s.thr with regs := s.thr.regs.put k v PWord.zero } }

/-- Range-relative register n of lane l. -/
def State.vreg (s : State) (core slot : Nat) (w : Warp) (l n : Nat) : PWord := s.reg (physReg core slot w l n)

/-! Reading operands (R38, R39, R41). -/

/-- sr.cyc of a die: the integer part (R241). -/
def State.cyc (s : State) (die : Nat) : DWord :=
  match s.clk.dies[die]? with
  | some d => d.cyc
  | none => 0

/-- A word without poison. -/
def clean (w : Word) : PWord := ⟨w, false⟩

/-- The 64-bit id of the work-group of a warp (R13). -/
def State.wgId (s : State) (w : Warp) : DWord :=
  match s.work.groups.find w.wg with
  | some g => g.id
  | none => 0

/-- What register field value n reads on lane l of a group's warp (R38, R41). -/
def readField (s : State) (g : Group) (w : Warp) (l n : Nat) : PWord :=
  if n < 96 then s.vreg g.core g.slot w l (32 * (w.lane l).window + n)
  else if n < 120 then w.sregs.getD (n - 96) PWord.zero
  else if n = 121 then clean (BitVec.ofNat 32 (w.visible l))
  else if n = 122 then clean (BitVec.ofNat 32 g.warp)
  else if n = 123 then clean (s.wgId w).lo
  else if n = 124 then clean (BitVec.ofNat 32 (w.width * w.index + w.visible l))
  else if n = 125 then clean (s.cyc (g.core / 32)).lo
  else PWord.zero

/-- The k-th register of an operand: the named one and those above it; vz stays vz (R39, R272). -/
def regUp (n k : Nat) : Nat := if n = 120 then 120 else n + k

/-- A register operand: its words in ascending order. -/
def readRegs (s : State) (g : Group) (w : Warp) (l n count : Nat) : List PWord :=
  (List.range count).map fun k => readField s g w l (regUp n k)

/-- A pair operand: the poison is the OR of the halves' (R39). -/
def readPair (s : State) (g : Group) (w : Warp) (l n : Nat) : PDWord :=
  let a := readField s g w l n
  let b := readField s g w l (regUp n 1)
  ⟨b.val ++ a.val, a.poison || b.poison⟩

/-- The words of a 64-bit result: both halves carry its poison (R39). -/
def pairWords (v : DWord) (p : Bool) : List PWord := [⟨v.lo, p⟩, ⟨v.hi, p⟩]

/-- A predicate and its poison; p7 reads 1 with poison clear (R47). -/
def readPred (w : Warp) (l p : Nat) : Bool × Bool :=
  if p < 7 then ((w.lane l).preds.getLsbD p, (w.lane l).predPoison.getLsbD p) else (true, false)

/-! Writing results. -/

/-- The destination that a register field names at issue (R51): range-relative for v registers. -/
def destOf (w : Warp) (l n count : Nat) : Dest :=
  if n < 96 then .v (32 * (w.lane l).window + n) count
  else if n < 120 then .s (n - 96) count
  else .discard

/-- Write words to a destination of lane l at place k (R44, R45, R39). -/
def writeDest (s : State) (core slot warp l : Nat) (d : Dest) (vals : List PWord) : State :=
  let k := warpKey core slot warp
  match d with
  | .v r _ =>
    match s.warpAt k with
    | some w => vals.zipIdx.foldl (fun s (v, i) => s.setReg (physReg core slot w l (r + i)) v) s
    | none => s
  | .s r _ => s.onWarp k fun w => { w with sregs := vals.zipIdx.foldl (fun sr (v, i) => sr.set (r + i) v) w.sregs }
  | .tile _ => s
  | .discard => s

/-- OR flags into a lane's sr.flags: they are sticky (R69). -/
def orFlags (s : State) (k l : Nat) (f : BitVec 5) : State := s.onLanes k [l] fun x => { x with flags := x.flags ||| f }

/-- One lane's result: the words for the destination, and the flags. -/
structure LaneResult where
  lane : Nat
  vals : List PWord
  flags : BitVec 5

/-- Whether the destination is the warp's own: only the lowest issuable lane writes it (R45). -/
def isScalarDest (n : Nat) : Bool := 96 ≤ n && n < 120

/-- Write the results of an issue to register field n (R44, R45, R289): at issue when la is 0, or as a commit entry of countdown
la + 1 (R51). For a scalar destination only the first lane, the lowest, writes or enters an entry; the others' flags change at the
issue (R45, R70). In a trap handler la acts as 0 (R251). -/
def writeResults (s : State) (g : Group) (w : Warp) (n count la : Nat) (rs : List LaneResult) : State :=
  let la := if w.inHandler then 0 else la
  rs.zipIdx.foldl (fun s (r, i) =>
    if isScalarDest n && i != 0 then orFlags s g.key r.lane r.flags
    else
      let d := destOf w r.lane n count
      if la = 0 then orFlags (writeDest s g.core g.slot g.warp r.lane d r.vals) g.key r.lane r.flags
      else
        s.onLanes g.key [r.lane] fun x =>
          { x with commits := x.commits ++ [⟨d, la + 1, some r.vals, r.flags, none, none⟩] }) s

/-- Predicate p of a lane takes a value and its poison; p7 discards (R47). -/
def Lane.setPred (x : Lane) (p : Nat) (v poison : Bool) : Lane :=
  if p < 7 then
    let bit : BitVec 7 := BitVec.twoPow 7 p
    { x with preds := if v then x.preds ||| bit else x.preds &&& ~~~bit
             predPoison := if poison then x.predPoison ||| bit else x.predPoison &&& ~~~bit }
  else x

/-- Write predicate p of a lane with its poison (R47). -/
def writePred (s : State) (k l p : Nat) (v poison : Bool) : State := s.onLanes k [l] (·.setPred p v poison)

/-- Set the PC of a lane, its repeat index 0. -/
def setPc (s : State) (k l : Nat) (pc : VAddr) : State := s.onLanes k [l] fun x => { x with pc := pc, rep := 0 }

/-- Whether any word of a list is poisoned. -/
def anyPoison (vs : List PWord) : Bool := vs.any (·.poison)

/-! Window checks (R43). -/

/-- The first register operand of lane l that reaches past its range, as the field value that fails. -/
def windowFail (w : Warp) (l : Nat) (ops : List Operand) : Option Nat :=
  (ops.find? fun o => o.cls != .tile && o.num < 96 && !(32 * (w.lane l).window + o.num + o.cls.width ≤ w.size)).map (·.num)

end Sys2Proof.Machine
end

