-- ==== Sys2Proof/Machine/Check.lean ====
section
/-! DEFINITION. What an issue answers, and the checks of one issue in rank order (spec/11_events.md R247, R248). -/

namespace Sys2Proof.Machine

/-- One failed check of a lane: its rank, its cause code and what sr.einfo takes (R247). -/
structure Fail where
  rank : Nat
  code : Nat
  einfo : Nat
deriving DecidableEq, Repr

/-- Values that protected mode compares between the lanes of a pair (R32): the comparison (1 address, 2 data, 3 command). -/
structure Sig where
  lane : Nat
  code : Nat
  vals : List Nat
deriving DecidableEq, Repr

/-- What one attempt to issue answers: the effect took place; a precise trap, with the lanes that fail (each lane's first failed
check); or the lanes listed cannot issue yet (R21), with what the wait asks of the machine (a walk, a refill). -/
inductive IssueResult where
  | done (sigs : List Sig) (s : State)
  | trap (sigs : List Sig) (fails : List (Nat × Fail))
  | wait (lanes : List Nat) (ask : State → State)

/-- Fail a comes before fail b: lower rank, then lower code (R248). -/
def Fail.before (a b : Fail) : Bool := a.rank < b.rank || (a.rank == b.rank && a.code < b.code)

/-- The first of a list of checks that fails, in rank order (R248). -/
def firstFail (fs : List (Option Fail)) : Option Fail :=
  fs.foldl (fun acc f =>
    match acc, f with
    | none, f => f
    | some a, none => some a
    | some a, some b => if b.before a then some b else some a) none

/-- A check that fails when the condition holds. -/
def failIf (c : Bool) (f : Fail) : Option Fail := if c then some f else none

/-- The lanes that fail, each with its first failed check. -/
def laneFails (lanes : List Nat) (f : Nat → Option Fail) : List (Nat × Fail) := lanes.filterMap fun l => (f l).map (l, ·)

/-- A precise trap: cause, the lanes that raise it, detail (R247). -/
structure TrapInfo where
  code : Nat
  lanes : List Nat
  einfo : Nat
deriving DecidableEq, Repr

/-- The trap that a list of failing lanes gives: the first rank and the lower code win; sr.emask holds the lanes that fail with it
and sr.einfo describes the lowest of them (R248). -/
def resolveTrap (fails : List (Nat × Fail)) : Option TrapInfo :=
  match firstFail (fails.map (some ·.2)) with
  | none => none
  | some best =>
    let hit := fails.filter fun x => x.2.rank == best.rank && x.2.code == best.code
    some ⟨best.code, hit.map (·.1), (hit.head?.map (·.2.einfo)).getD 0⟩

/-- Containment, rank 5: consumption kind and register field value (R257). -/
def failContain (kind field : Nat) : Fail := ⟨5, 0x0D, kind + field * 16⟩

/-- Misalignment, rank 8: address or offset and its space (R247). -/
def failAlign (space addr : Nat) : Fail := ⟨8, 0x04, addr % 2 ^ 57 + space * 2 ^ 57⟩

/-- Segment violation, rank 9 (R54). -/
def failSegment (segment off : Nat) : Fail := ⟨9, 0x05, off % 2 ^ 57 + segment * 2 ^ 57⟩

/-- Page fault: rank 1 on fetch, otherwise 10 (R247). -/
def failPage (rank va access : Nat) (perm : Bool) : Fail :=
  ⟨rank, 0x06, va % 2 ^ 57 + access * 2 ^ 57 + (if perm then 2 ^ 60 else 0)⟩

/-- Illegal instruction at rank 2: the word (R273). -/
def failIllegal (word : Nat) : Fail := ⟨2, 0x01, word⟩

/-- The instruction word of an instruction. -/
def wordOf (i : Instr) : Nat :=
  match encode i with
  | w :: _ => w.toNat
  | [] => 0

/-- An instruction that user mode may not issue (R274): eret, segw, tlbi; wsr and rsr of system registers (R55). -/
def privileged : Instr → Bool
  | .eretResume _ | .eretRetry _ | .eretEscalate _ | .eretKill _ => true
  | .segw _ _ _ => true
  | .tlbiVa _ _ _ | .tlbiCtx _ _ | .tlbiAll _ => true
  | .wsr _ _ n => srSystem.contains n.toNat
  | .rsr _ _ n => srSystem.contains n.toNat
  | _ => false

/-- The checks of ranks 2 to 4 that every issue makes, for one lane (R273, R274, R43); `trap` raises its own trap at rank 3, ahead of
the window. `word` is the instruction word of sr.einfo. -/
def staticFail (w : Warp) (i : Instr) (word l : Nat) : Option Fail :=
  if !i.wellFormed then some (failIllegal word)
  else if privileged i && !w.system then some ⟨3, 0x02, word⟩
  else match (if i.opcode == 0x59 then none else windowFail w l i.operands) with
    | some f => some ⟨4, 0x03, word + f * 2 ^ 32⟩
    | none => none

/-! Commits (R51). -/

/-- Lower every countdown of a lane by 1 and commit the entries that reach 0, in issue order (R51). Frozen in a trap handler
(R251). -/
def commitLane (s : State) (g : Group) (l : Nat) : State :=
  match s.warpAt g.key with
  | none => s
  | some w =>
    if w.inHandler then s
    else
      let cs := (w.lane l).commits.map fun c => { c with countdown := c.countdown - 1 }
      let due := cs.filter fun c => c.countdown == 0
      let s := s.onLanes g.key [l] fun x => { x with commits := cs.filter fun c => c.countdown != 0 }
      due.foldl (fun s c => orFlags (writeDest s g.core g.slot g.warp l c.dest (c.value.getD [])) g.key l c.flags) s

/-- Commit the entries that fall due at an issue of a group's lanes (R51). -/
def commitDue (s : State) (g : Group) : State := g.lanes.foldl (fun s l => commitLane s g l) s

/-- A lane holds back its issue: an entry that would fall due has not arrived (R51). -/
def commitBlocked (w : Warp) (l : Nat) : Bool :=
  !w.inHandler && (w.lane l).commits.any fun c => c.countdown ≤ 1 && c.value.isNone

/-- A lane that may issue if its next instruction can: active (R23), not held from a handler (R249), not waiting for a load or a
commit. -/
def laneReady (w : Warp) (l : Nat) : Bool :=
  let x := w.lane l
  x.present && !x.exited && !x.held && x.park.isNone && x.loads.isEmpty && !commitBlocked w l

/-- An active lane: present, not exited, not parked (R23). -/
def laneActive (w : Warp) (l : Nat) : Bool := (w.lane l).present && !(w.lane l).exited && (w.lane l).park.isNone

/-! Protected mode (R31 to R33). -/

/-- The lanes that make an access: in protected mode the primary lane of each pair (R33). -/
def accessLanes (w : Warp) (lanes : List Nat) : List Nat := if w.protected' then lanes.filter (· % 2 == 0) else lanes

/-- The lanes that take the value returned to lane l: its shadow too in protected mode (R33). -/
def shareLanes (w : Warp) (l : Nat) : List Nat := if w.protected' then [l, l + 1] else [l]

/-- The signatures of lane l. -/
def sigsOf (sigs : List Sig) (l : Nat) : List Sig := (sigs.filter fun x => x.lane == l).map fun x => { x with lane := 0 }

/-- The first comparison in which the two lanes of a pair differ (R32, R248): 0 when one traps otherwise than the other, or their next
PCs differ. The details of one trap are no comparison of R32. -/
def pairDiffers (sigs : List Sig) (fails : List (Nat × Fail)) (w' : Warp) (lanes : List Nat) (i : Nat) : Option Nat :=
  let a := 2 * i
  let b := 2 * i + 1
  let fa := (fails.find? fun x => x.1 == a).map fun x => (x.2.rank, x.2.code)
  let fb := (fails.find? fun x => x.1 == b).map fun x => (x.2.rank, x.2.code)
  let diff := ((sigsOf sigs a).zip (sigsOf sigs b)).find? fun (x, y) => x != y
  if lanes.contains a != lanes.contains b then some 0
  else match diff with
    | some (x, _) => some x.code
    | none =>
      if fa != fb || (w'.lane a).pc != (w'.lane b).pc || (w'.lane a).rep != (w'.lane b).rep then some 0 else none

/-- Apply the comparisons of R32 to an answer: a difference raises 0x0E at rank 0, ahead of every other trap (R248). `before` is
the warp before the issue. -/
def protectedCheck (before : Warp) (key : Nat) (lanes : List Nat) (r : IssueResult) : IssueResult :=
  if !before.protected' then r
  else
    let go (sigs : List Sig) (fails : List (Nat × Fail)) (w' : Warp) : IssueResult :=
      let bad := (List.range 16).filterMap fun i => (pairDiffers sigs fails w' lanes i).map fun c => (i, c)
      if bad.isEmpty then r
      else .trap sigs (bad.flatMap fun (i, c) =>
        [(2 * i, ⟨0, 0x0E, c + i * 4⟩), (2 * i + 1, ⟨0, 0x0E, c + i * 4⟩)])
    match r with
    | .done sigs s' => go sigs [] ((s'.warpAt key).getD before)
    | .trap sigs fails => go sigs fails before
    | .wait _ _ => r

/-- What an issue does before its instruction: the entries that fall due commit and the lanes' PCs pass the word (R51, R289). -/
def State.begun (s : State) (g : Group) : State := (commitDue s g).onLanes g.key g.lanes fun x => { x with pc := x.pc + 4, rep := 0 }

/-- One attempt to issue instruction i for a group: the entries that fall due commit, the static checks are made (R289), the
lanes' PCs pass the word, the meaning runs, and protected mode compares the pairs. Nothing of a trap or a wait is kept: the caller
returns to the state before. -/
def attemptIssue (i : Instr) (word : Nat) (run : Group → State → IssueResult) (g : Group) (s : State) : IssueResult :=
  match s.warpAt g.key with
  | none => .wait g.lanes id
  | some w =>
    let fails := laneFails g.lanes (staticFail w i word)
    if !fails.isEmpty then protectedCheck w g.key g.lanes (.trap [] fails)
    else protectedCheck w g.key g.lanes (run g (s.begun g))

end Sys2Proof.Machine
end

