-- ==== Sys2Proof/Machine/Memory.lean ====
section
/-! DEFINITION. Addressed storage (spec/04_core_memories.md R79 to R92, R97; spec/05_package_memories.md R108 to R113, R123): reading and
writing bytes in canonical form, poison by word or sector, and where a pool address lies. -/

namespace Sys2Proof.Machine

/-! Bytes in canonical form. -/

/-- The byte a list of cells holds at an address. -/
def cellsRead : List Host.Cell → Nat → Byte
  | [], _ => unlistedByte
  | (a, b) :: m, k => if a = k then b else cellsRead m k

/-- Write one byte: an entry equal to what an unlisted address reads as is not kept. -/
def cellsWrite (k : Nat) (v : Byte) : List Host.Cell → List Host.Cell
  | [] => if v = unlistedByte then [] else [(k, v)]
  | (a, b) :: m =>
    if k < a then (if v = unlistedByte then (a, b) :: m else (k, v) :: (a, b) :: m)
    else if a = k then (if v = unlistedByte then m else (k, v) :: m)
    else (a, b) :: cellsWrite k v m

/-- Insert a number into a rising list. -/
def insertRising (k : Nat) : List Nat → List Nat
  | [] => [k]
  | a :: m => if k < a then k :: a :: m else if a = k then a :: m else a :: insertRising k m

/-- Remove a number from a list. -/
def removeRising (k : Nat) : List Nat → List Nat
  | [] => []
  | a :: m => if a = k then m else a :: removeRising k m

/-- One byte of a memory. -/
def Mem.read (m : Mem) (a : Nat) : Byte := cellsRead m.cells a

/-- Write one byte. -/
def Mem.write (m : Mem) (a : Nat) (b : Byte) : Mem := { m with cells := cellsWrite a b m.cells }

/-- n bytes from address a. -/
def Mem.readBytes (m : Mem) (a n : Nat) : List Byte := (List.range n).map fun i => m.read (a + i)

/-- Write bytes from address a on. -/
def Mem.writeBytes (m : Mem) (a : Nat) (bs : List Byte) : Mem := bs.zipIdx.foldl (fun m (b, i) => m.write (a + i) b) m

/-- The poison bit of granule g. -/
def Mem.poisoned (m : Mem) (g : Nat) : Bool := m.poison.contains g

/-- Set or clear the poison bit of a granule. -/
def Mem.setPoison (m : Mem) (g : Nat) (p : Bool) : Mem :=
  { m with poison := if p then insertRising g m.poison else removeRising g m.poison }

/-- The number that bytes hold, little-endian (R8). -/
def leNat : List Byte → Nat
  | [] => 0
  | b :: bs => b.toNat + 256 * leNat bs

/-- n bytes of a number, little-endian (R8). -/
def leBytes : Nat → Nat → List Byte
  | 0, _ => []
  | n + 1, v => BitVec.ofNat 8 v :: leBytes n (v / 256)

/-- The granules of size g that n bytes from address a touch. -/
def granules (g a n : Nat) : List Nat := if n = 0 then [] else (List.range ((a + n - 1) / g - a / g + 1)).map (a / g + ·)

/-- Whether n bytes from a cover granule k of size g in full. -/
def covers (g a n k : Nat) : Bool := a ≤ k * g && k * g + g ≤ a + n

/-- n bytes with the OR of the poison of the granules that supply them (R328). -/
def Mem.readPoison (m : Mem) (g a n : Nat) : List Byte × Bool := (m.readBytes a n, (granules g a n).any m.poisoned)

/-- Write unpoisoned bytes: a granule written in full is cleared, one written in part keeps its poison (R85, R123). -/
def Mem.writeClean (m : Mem) (g a : Nat) (bs : List Byte) : Mem :=
  (granules g a bs.length).foldl (fun m k => if covers g a bs.length k then m.setPoison k false else m) (m.writeBytes a bs)

/-- Write bytes that carry poison: every granule touched is poisoned when p, else as an unpoisoned write. -/
def Mem.writePoison (m : Mem) (g a : Nat) (bs : List Byte) (p : Bool) : Mem :=
  if p then (granules g a bs.length).foldl (fun m k => m.setPoison k true) (m.writeBytes a bs) else m.writeClean g a bs

/-- Unpoisoned bytes that one pass writes for several lanes, later lanes over earlier ones: a granule that they cover between them is
written in full (R81, R82, R85). -/
def Mem.writePass (m : Mem) (g : Nat) (ws : List (Nat × List Byte)) : Mem :=
  let whole (k : Nat) : Bool := (List.range g).all fun i => ws.any fun w => w.1 ≤ g * k + i && g * k + i < w.1 + w.2.length
  (ws.flatMap fun w => granules g w.1 w.2.length).foldl (fun m k => if whole k then m.setPoison k false else m)
    (ws.foldl (fun m w => m.writeBytes w.1 w.2) m)

/-- Set n bytes from a to 0 with poison clear: a new allocation (R79, R89, R97). -/
def Mem.zero (m : Mem) (a n : Nat) : Mem :=
  ⟨m.cells.filter fun c => !(a ≤ c.1 && c.1 < a + n), m.poison.filter fun k => !(a ≤ 4 * k && 4 * k < a + n)⟩

/-- Copy n bytes and their word poison from address a to address b of the same memory (R166). -/
def Mem.move (m : Mem) (a b n : Nat) : Mem :=
  let cs := m.cells.filter fun c => a ≤ c.1 && c.1 < a + n
  let ps := m.poison.filter fun k => a ≤ 4 * k && 4 * k < a + n
  let m := m.zero b n
  let m := cs.foldl (fun m c => m.write (c.1 - a + b) c.2) m
  ps.foldl (fun m k => m.setPoison (k - a / 4 + b / 4) true) m

/-! Storage of a core. -/

def scratchSize : Nat := 524288
def exchSize : Nat := 65536
def tileSize : Nat := 65536

/-- The address of scratchpad byte o of a core. -/
def scratchAddr (core o : Nat) : Nat := core * scratchSize + o

/-- The address of byte o of an exchange bank of a core. -/
def exchAddr (core bank o : Nat) : Nat := (core * 2 + bank) * exchSize + o

/-- The address of byte o of a physical tile of a core. -/
def tileAddr (core tile o : Nat) : Nat := (core * 64 + tile) * tileSize + o

def State.onScratch (s : State) (f : Mem → Mem) : State := { s with mem := { s.mem with scratch := f s.mem.scratch } }
def State.onExch (s : State) (f : Mem → Mem) : State := { s with mem := { s.mem with exch := f s.mem.exch } }
def State.onAcc (s : State) (f : Mem → Mem) : State := { s with mem := { s.mem with acc := f s.mem.acc } }
def State.onHbm (s : State) (f : Mem → Mem) : State := { s with mem := { s.mem with hbm := f s.mem.hbm } }

/-- The bank that is the front (`shadow` false) or the shadow of the granule of offset o (R89). -/
def State.exchBank (s : State) (core o : Nat) (shadow : Bool) : Nat :=
  if (s.mem.polarity.getD core 0).getLsbD (o / 4096) != shadow then 1 else 0

/-- A sync word, a descriptor or any scratchpad field: an unsigned number of n bytes at physical offset o, with its poison. -/
def State.scratchField (s : State) (core o n : Nat) : Nat × Bool :=
  let r := s.mem.scratch.readPoison 4 (scratchAddr core o) n
  (leNat r.1, r.2)

/-! Homing (R108 to R113). -/

/-- The placement hash of a frame number (R108). -/
def placementHash (frame : Nat) : Nat := bits 15 0 frame ^^^ bits 31 16 frame ^^^ bits 35 32 frame

/-- The frame of a pool address. -/
def frameOf (pa : Nat) : Nat := bits 47 12 pa

/-- The line of an address. -/
def lineOf (pa : Nat) : Nat := pa / 128

/-- The die and the slice of a hash (R108). -/
def hashDie (h : Nat) : Nat := bits 8 7 h
def hashSlice (h : Nat) : Nat := bits 6 2 h

/-- The slice of the package, 32·die + k, that is home of a line. -/
def sliceOfLine (line : Nat) : Nat :=
  let h := placementHash (frameOf (line * 128))
  32 * hashDie h + hashSlice h

/-- The local frame number of a backed frame (R109). -/
def localFrame (pw pa : Nat) : Nat :=
  let h := placementHash (frameOf pa)
  (bits (38 + pw) 28 pa * 2 ^ (7 - pw) + h / 2 ^ (9 + pw) % 2 ^ (7 - pw)) * 4 + bits 1 0 h

/-- The set of an L2 slice that a line lies in (R114). -/
def l2Set (pw line : Nat) : Nat := bits 4 0 (localFrame pw (line * 128)) * 32 + line % 32

/-- The pseudo-channel, 512·stack + p, that serves a line (R113). -/
def pseudoChannelOf (line : Nat) : Nat :=
  let h := placementHash (frameOf (line * 128))
  let k := hashSlice h
  512 * (2 * hashDie h + k / 16) + 32 * (k % 16) + line % 32

/-- The pseudo-channels of a slice that are not dropped, ascending (R113, R440). -/
def State.survivors (s : State) (slice : Nat) : List Nat :=
  let first := 512 * (2 * (slice / 32) + slice % 32 / 16) + 32 * (slice % 16)
  ((List.range 32).map (first + ·)).filter fun c => !s.dram.dropped.contains c

/-- The index of a line among the lines of its slice (R440). -/
def State.lineIndex (s : State) (line : Nat) : Nat := 32 * localFrame s.cfg.pw (line * 128) + line % 32

/-- The pseudo-channel that serves a line, after drops (R113, R440). -/
def State.channelOf (s : State) (line : Nat) : Nat :=
  let cs := s.survivors (sliceOfLine line)
  if cs.length == 32 then pseudoChannelOf line else cs.getD (s.lineIndex line % cs.length) 0

/-- The bank of its pseudo-channel that a line lies in (R113, R400, R440). -/
def State.bankOf (s : State) (line : Nat) : Nat := bits 6 3 (s.lineIndex line / (s.survivors (sliceOfLine line)).length)

/-- The mirror partner of a pool address: the buddy die (R120). -/
def mirrorPartner (pa : Nat) : Nat := pa ^^^ 0x800000000

/-! Byte lists of a line. -/

/-- Replace bytes of a line from an offset on. -/
def patch (data : List Byte) (off : Nat) (bs : List Byte) : List Byte :=
  data.take off ++ bs ++ data.drop (off + bs.length)

/-- Bytes off to off + n - 1 as a mask of a line. -/
def byteMask (off n : Nat) : BitVec 128 := BitVec.ofNat 128 ((2 ^ n - 1) * 2 ^ off)

/-- The bytes of `new` where the mask is set, else those of `old`. -/
def mergeBytes (mask : BitVec 128) (new old : List Byte) : List Byte :=
  (List.range 128).map fun i => if mask.getLsbD i then new.getD i 0 else old.getD i 0

/-- The sectors of a line that n bytes from offset off touch, and those they cover in full. -/
def sectorsTouched (off n : Nat) : List Nat := (granules 32 off n)
def sectorsCovered (off n : Nat) : List Nat := (granules 32 off n).filter (covers 32 off n)

/-- A set of sectors as bits. -/
def sectorBits (ks : List Nat) : BitVec 4 := ks.foldl (fun b k => b ||| (1#4 <<< k)) 0

/-! A failed die (R121, R122). -/

/-- The home die of a pool address has been declared failed. -/
def State.dieDead (s : State) (pa : Nat) : Bool := s.cfg.deadSlices.getLsbD (sliceOfLine (lineOf pa))

/-- Where an access to a page finds its byte: at the buddy die when the page is of the mirror class and its home die has failed (R121). -/
def State.liveAt (s : State) (pa : Nat) (mirror : Bool) : Nat := if mirror && s.dieDead pa then mirrorPartner pa else pa

/-! The home of a line: its L2 slice, else HBM4E. -/

/-- A byte of the pool as its home holds it: the L2 sector if present, else the stack (R114). -/
def State.homeByte (s : State) (pa : Nat) : Byte :=
  match s.mem.l2.find (lineOf pa) with
  | some l => if l.have'.getLsbD (pa % 128 / 32) then l.data.getD (pa % 128) 0 else s.mem.hbm.read pa
  | none => s.mem.hbm.read pa

/-- The poison of the sector of a pool address, as its home holds it; what a failed die was home of reads as poison (R122). -/
def State.homePoison (s : State) (pa : Nat) : Bool :=
  s.dieDead pa || match s.mem.l2.find (lineOf pa) with
  | some l => if l.have'.getLsbD (pa % 128 / 32) then l.poison.getLsbD (pa % 128 / 32) else s.mem.hbm.poisoned (pa / 32)
  | none => s.mem.hbm.poisoned (pa / 32)

/-- n bytes of the pool as its home holds them, with the OR of the poison of their sectors. -/
def State.homeRead (s : State) (pa n : Nat) : List Byte × Bool :=
  ((List.range n).map fun i => s.homeByte (pa + i), (granules 32 pa n).any fun k => s.homePoison (k * 32))

/-- A number of n bytes of the pool, with its poison. -/
def State.homeNat (s : State) (pa n : Nat) : Nat × Bool := let r := s.homeRead pa n; (leNat r.1, r.2)

/-- The bytes of a line as its home holds them, the poison of its sectors. -/
def State.homeLine (s : State) (line : Nat) : List Byte × BitVec 4 :=
  ((s.homeRead (line * 128) 128).1, sectorBits ((List.range 4).filter fun k => s.homePoison (line * 128 + 32 * k)))

def State.setL2 (s : State) (line : Nat) (l : L2Line) : State := { s with mem := { s.mem with l2 := s.mem.l2.insert line l } }

/-- Take a fresh number: for operation ids, ages and free values. -/
def State.take (s : State) : Nat × State := (s.fresh, { s with fresh := s.fresh + 1 })

/-- Apply bytes within one line at its home slice (R114, R115, R123): the slice holds the line, its sectors keep or clear their poison,
the line is dirty; a failed die takes nothing. A sector not present that the bytes cover only in part is taken from HBM4E. -/
def State.sliceWrite (s : State) (pa : Nat) (bs : List Byte) (p : Bool) : State :=
  let line := lineOf pa
  let off := pa % 128
  let (age, s) := s.take
  let base : L2Line := (s.mem.l2.find line).getD L2Line.empty
  let full := s.homeLine line
  let touched := sectorsTouched off bs.length
  let covered := sectorsCovered off bs.length
  let poison := touched.foldl (fun (b : BitVec 4) k =>
    let old := s.homePoison (line * 128 + 32 * k)
    let bit : BitVec 4 := 1#4 <<< k
    if p || (old && !covered.contains k) then b ||| bit else b &&& ~~~bit) base.poison
  let now := base.have' ||| sectorBits touched
  let data := (List.range 128).map fun i => if now.getLsbD (i / 32) then full.1.getD i 0 else base.data.getD i 0
  if s.dieDead pa then s else s.setL2 line { base with data := patch data off bs, have' := now, poison := poison, dirty := true, age := age }

/-- A request uses a line of its slice (R114). -/
def State.touchL2 (s : State) (line : Nat) : State :=
  let (age, s) := s.take
  { s with mem := { s.mem with l2 := s.mem.l2.adjust line fun l => { l with age := age } } }

/-- The key of an L1 line. -/
def l1Key (core line : Nat) : Nat := core * 2 ^ 45 + line

def State.l1Line (s : State) (core line : Nat) : Option L1Line := s.mem.l1.find (l1Key core line)

/-- Change a present L1 line. -/
def State.onL1 (s : State) (core line : Nat) (f : L1Line → L1Line) : State :=
  { s with mem := { s.mem with l1 := s.mem.l1.adjust (l1Key core line) f } }

/-- Remove a line from an L1: its graft mark goes with it (R119). -/
def State.dropL1 (s : State) (core line : Nat) : State :=
  { s with mem := { s.mem with l1 := s.mem.l1.erase (l1Key core line) } }

/-- Lines of an L1 marked as grafted: the graft count (R119). -/
def State.graftCount (s : State) (core : Nat) : Nat :=
  (s.mem.l1.filter fun (k, l) => k / 2 ^ 45 == core && l.grafted).length

/-- Write bytes into a present L1 copy; their sectors take the home's poison after the write (R115). -/
def L1Line.apply (l : L1Line) (mask : BitVec 128) (data : List Byte) (poison : BitVec 4) (sectors : BitVec 4) : L1Line :=
  { l with data := mergeBytes mask data l.data, valid := l.valid ||| mask,
           poison := (l.poison &&& ~~~sectors) ||| (poison &&& sectors) }

/-- A set of cores as bits. -/
def coreBits (cs : List Nat) : BitVec 128 := cs.foldl (fun b c => b ||| (1#128 <<< c)) 0

/-- The cores of a bit set, ascending. -/
def bitCores (b : BitVec 128) : List Nat := (List.range 128).filter fun c => b.getLsbD c

/-- Set the woken bit of the armed monitors of one core on a line: a write became visible to the core, or the line left its L1. -/
def State.wakeCore (s : State) (core line : Nat) : State :=
  { s with thr := { s.thr with warps := s.thr.warps.map fun (k, w) =>
      (k, if k / 64 == core then
        { w with monitor := w.monitor.map fun m => if m.line == line then { m with hit := true } else m } else w) } }

/-! Making room in a home slice (R114, R227). -/

/-! Counters of the package (R244, R245): fields of the counter block by byte offset, 0 where not listed. -/

/-- A field of the counter block. -/
def State.count (s : State) (off : Nat) : Nat := s.counts.getD off 0

/-- Add to a saturating field (R232). -/
def State.bump (s : State) (off n : Nat) : State :=
  { s with counts := s.counts.put off (min (s.count off + n) 0xFFFFFFFF) 0 }

/-- Offsets of the counter groups of R244. -/
def coreCounter (core field : Nat) : Nat := 64 * core + field
def sliceCounter (slice field : Nat) : Nat := 0x2000 + 16 * slice + field
def channelCounter (pc field : Nat) : Nat := 0x10000 + 32 * pc + field

/-- Updates under way on a line. -/
def State.lineUpdates (s : State) (line : Nat) : List (Nat × Update) := s.mem.updates.filter fun (_, u) => u.line == line

/-- A line leaves a core's L1: evicted, invalidated or flushed; a notice goes to the home slice (R115). -/
def State.loseL1 (s : State) (core line : Nat) (notice : Bool) : State :=
  match s.l1Line core line with
  | none => s
  | some _ =>
    let s := (s.dropL1 core line).wakeCore core line
    if notice then { s with mem := { s.mem with notices := s.mem.notices ++ [(core, line)] } } else s

/-- Invalidate a line in the L1s of cores, by the slice, which knows it at once. -/
def State.invalidateL1s (s : State) (cores : List Nat) (line : Nat) : State := cores.foldl (fun s c => s.loseL1 c line false) s

/-- The lines of a set of a slice. -/
def sliceSet (s : State) (slice set : Nat) : List (Nat × L2Line) :=
  s.mem.l2.filter fun (line, _) => sliceOfLine line == slice && l2Set s.cfg.pw line == set

/-- A line's set has a way for it (R114). -/
def sliceHasWay (s : State) (line : Nat) : Bool :=
  (s.mem.l2.find line).isSome || (sliceSet s (sliceOfLine line) (l2Set s.cfg.pw line)).length < 16

/-- The key of the bank of a line. -/
def State.bankKey (s : State) (line : Nat) : Nat := 16 * s.channelOf line + s.bankOf line

/-- A request to the stacks completes: it is counted, and its bank is busy for a while (R124, R244). -/
def State.dramRequest (s : State) (line : Nat) : State :=
  let s := s.bump (channelCounter (s.channelOf line) 24) 1
  { s with dram := { s.dram with banks := s.dram.banks.alter (s.bankKey line) (fun b => { b with done := some s.clk.ref.toNat }) Bank.init } }

/-- The least recently used line of a slice's set that is neither in gather mode nor being updated (R227). -/
def sliceVictim (s : State) (slice set : Nat) : Option (Nat × L2Line) :=
  let ls := (sliceSet s slice set).filter fun (line, l) => l.gather.isNone && (s.lineUpdates line).isEmpty
  match ls with
  | [] => none
  | x :: xs => some (xs.foldl (fun a b => if b.2.age < a.2.age then b else a) x)

/-- Write the sectors that a line holds to the stacks, at an address of a line, with their poison. -/
def writeSectors (s : State) (line : Nat) (l : L2Line) : State :=
  (List.range 4).foldl (fun s k =>
    if l.have'.getLsbD k then
      s.onHbm fun m => (m.writeBytes (line * 128 + 32 * k) ((l.data.drop (32 * k)).take 32)).setPoison (line * 4 + k) (l.poison.getLsbD k)
    else s) (s.dramRequest line)

/-- Write the sectors a slice holds of a line back to the stacks with their poison (R114); of a mirror-class line both copies (R120). -/
def writeBack (s : State) (line : Nat) (l : L2Line) : State :=
  if !l.dirty then s
  else
    let s := writeSectors s line l
    let partner := lineOf (mirrorPartner (line * 128))
    if l.mirror && !s.dieDead (partner * 128) then writeSectors s partner l else s

/-- A line leaves its slice. -/
def State.dropL2 (s : State) (line : Nat) : State := { s with mem := { s.mem with l2 := s.mem.l2.erase line } }

/-- SLICE_VICTIM_EVICTION. -/
def victimEffect (s : State) (slice set : Nat) : State :=
  match sliceVictim s slice set with
  | none => s
  | some (line, l) => (writeBack (s.invalidateL1s (bitCores l.sharers) line) line l).dropL2 line

/-- Make room for a line in its set, when a line of it can give way (R114, R227). -/
def State.makeWay (s : State) (line : Nat) : State :=
  if sliceHasWay s line then s else victimEffect s (sliceOfLine line) (l2Set s.cfg.pw line)

/-- Bytes within one line that the package's own hardware or a mirror copy brings to a home slice (R114, R120): a line gives way where
the set is full, and while none can the bytes go to the stack itself. A sector written in part that the slice does not hold is read
there (R123). -/
def State.slicePut (s : State) (pa : Nat) (bs : List Byte) (p : Bool) : State :=
  let line := lineOf pa
  let s := s.makeWay line
  let held (k : Nat) : Bool := match s.mem.l2.find line with
    | some l => l.have'.getLsbD k
    | none => false
  let s := if (sectorsTouched (pa % 128) bs.length).any fun k => !held k && !(sectorsCovered (pa % 128) bs.length).contains k then
      s.dramRequest line
    else s
  if sliceHasWay s line then s.sliceWrite pa bs p
  else if s.dieDead pa then s
  else s.onHbm fun m => m.writePoison 32 pa bs p

/-- A write by the package's own hardware (a report, a status, a completion record): it becomes visible to every observer at one
moment, at its home and in every L1 copy (R261, R217, R362). It keeps within lines. -/
def State.hwWriteLine (s : State) (pa : Nat) (bs : List Byte) (p : Bool) : State :=
  let s := s.slicePut pa bs p
  let line := lineOf pa
  let (data, poison) := s.homeLine line
  let sect := sectorBits (sectorsTouched (pa % 128) bs.length)
  -- an update under way on the line delivers these bytes, not the older ones
  let s := { s with mem := { s.mem with updates := s.mem.updates.map fun (k, u) =>
    (k, if u.line == line then { u with data := patch u.data (pa % 128) bs } else u) } }
  (List.range 128).foldl (fun s c =>
    (s.onL1 c line fun l => l.apply (byteMask (pa % 128) bs.length) data poison sect).wakeCore c line) s

/-- The pieces of n bytes from pa that lie within one line each: offset into the data, address, length. -/
def linePieces (pa n : Nat) : List (Nat × Nat × Nat) :=
  (granules 128 pa n).map fun k =>
    let a := max pa (k * 128)
    let e := min (pa + n) (k * 128 + 128)
    (a - pa, a, e - a)

/-- A hardware write of any length. -/
def State.hwWrite (s : State) (pa : Nat) (bs : List Byte) (p : Bool) : State :=
  (linePieces pa bs.length).foldl (fun s (o, a, n) => s.hwWriteLine a ((bs.drop o).take n) p) s

/-- A hardware write of a number of n bytes. -/
def State.hwStore (s : State) (pa n v : Nat) : State := s.hwWrite pa (leBytes n v) false

end Sys2Proof.Machine
end

