-- ==== Sys2Proof/Machine/Crypto.lean ====
section
/-! DEFINITION. SHA-512 and the verification of RSASSA-PSS signatures (spec/00_scope.md R6; spec/19_attachment_and_startup.md R422): the public
algorithms that the spec names. -/

namespace Sys2Proof.Machine

/-! SHA-512. -/

/-- The round constants. -/
def shaRounds0 : List Nat := [
  0x428A2F98D728AE22, 0x7137449123EF65CD, 0xB5C0FBCFEC4D3B2F, 0xE9B5DBA58189DBBC,
  0x3956C25BF348B538, 0x59F111F1B605D019, 0x923F82A4AF194F9B, 0xAB1C5ED5DA6D8118,
  0xD807AA98A3030242, 0x12835B0145706FBE, 0x243185BE4EE4B28C, 0x550C7DC3D5FFB4E2,
  0x72BE5D74F27B896F, 0x80DEB1FE3B1696B1, 0x9BDC06A725C71235, 0xC19BF174CF692694]
def shaRounds1 : List Nat := [
  0xE49B69C19EF14AD2, 0xEFBE4786384F25E3, 0x0FC19DC68B8CD5B5, 0x240CA1CC77AC9C65,
  0x2DE92C6F592B0275, 0x4A7484AA6EA6E483, 0x5CB0A9DCBD41FBD4, 0x76F988DA831153B5,
  0x983E5152EE66DFAB, 0xA831C66D2DB43210, 0xB00327C898FB213F, 0xBF597FC7BEEF0EE4,
  0xC6E00BF33DA88FC2, 0xD5A79147930AA725, 0x06CA6351E003826F, 0x142929670A0E6E70]
def shaRounds2 : List Nat := [
  0x27B70A8546D22FFC, 0x2E1B21385C26C926, 0x4D2C6DFC5AC42AED, 0x53380D139D95B3DF,
  0x650A73548BAF63DE, 0x766A0ABB3C77B2A8, 0x81C2C92E47EDAEE6, 0x92722C851482353B,
  0xA2BFE8A14CF10364, 0xA81A664BBC423001, 0xC24B8B70D0F89791, 0xC76C51A30654BE30,
  0xD192E819D6EF5218, 0xD69906245565A910, 0xF40E35855771202A, 0x106AA07032BBD1B8]
def shaRounds3 : List Nat := [
  0x19A4C116B8D2D0C8, 0x1E376C085141AB53, 0x2748774CDF8EEB99, 0x34B0BCB5E19B48A8,
  0x391C0CB3C5C95A63, 0x4ED8AA4AE3418ACB, 0x5B9CCA4F7763E373, 0x682E6FF3D6B2B8A3,
  0x748F82EE5DEFB2FC, 0x78A5636F43172F60, 0x84C87814A1F0AB72, 0x8CC702081A6439EC,
  0x90BEFFFA23631E28, 0xA4506CEBDE82BDE9, 0xBEF9A3F7B2C67915, 0xC67178F2E372532B]
def shaRounds4 : List Nat := [
  0xCA273ECEEA26619C, 0xD186B8C721C0C207, 0xEADA7DD6CDE0EB1E, 0xF57D4F7FEE6ED178,
  0x06F067AA72176FBA, 0x0A637DC5A2C898A6, 0x113F9804BEF90DAE, 0x1B710B35131C471B,
  0x28DB77F523047D84, 0x32CAAB7B40C72493, 0x3C9EBE0A15C9BEBC, 0x431D67C49C100D4C,
  0x4CC5D4BECB3E42B6, 0x597F299CFC657E2A, 0x5FCB6FAB3AD6FAEC, 0x6C44198C4A475817]

def shaRounds : List DWord := (shaRounds0 ++ shaRounds1 ++ shaRounds2 ++ shaRounds3 ++ shaRounds4).map (BitVec.ofNat 64 ·)

/-- The initial hash value. -/
def shaStart : List DWord := [
  0x6A09E667F3BCC908, 0xBB67AE8584CAA73B, 0x3C6EF372FE94F82B, 0xA54FF53A5F1D36F1,
  0x510E527FADE682D1, 0x9B05688C2B3E6C1F, 0x1F83D9ABFB41BD6B, 0x5BE0CD19137E2179]

/-- A number from bytes, the most significant first, and its n bytes. -/
def beNat (bs : List Byte) : Nat := bs.foldl (fun a b => 256 * a + b.toNat) 0
def beBytes (n v : Nat) : List Byte := (leBytes n v).reverse

/-- The message with its padding: a 1 bit, zeros, and the length in bits. -/
def shaPad (m : List Byte) : List Byte :=
  m ++ 0x80 :: List.replicate ((239 - m.length % 128) % 128) 0 ++ beBytes 16 (8 * m.length)

/-- Cut a list into n parts of a length. -/
def cutInto (len : Nat) : Nat → List α → List (List α)
  | 0, _ => []
  | n + 1, xs => xs.take len :: cutInto len n (xs.drop len)

def shaSmall (a b c : Nat) (x : DWord) : DWord := x.rotateRight a ^^^ x.rotateRight b ^^^ x >>> c
def shaBig (a b c : Nat) (x : DWord) : DWord := x.rotateRight a ^^^ x.rotateRight b ^^^ x.rotateRight c

/-- The last sixteen words of the message schedule, newest first, with the next word ahead of them. -/
def shaNext (ws : List DWord) : DWord :=
  shaSmall 19 61 6 (ws.getD 1 0) + ws.getD 6 0 + shaSmall 1 8 7 (ws.getD 14 0) + ws.getD 15 0

/-- The rounds of a block: constants, the words still to use, the schedule, and the working values. -/
def shaRun : List DWord → List DWord → List DWord → List DWord → List DWord
  | [], _, _, h => h
  | k :: ks, todo, ws, h =>
    let (w, todo) := match todo with
      | x :: xs => (x, xs)
      | [] => (shaNext ws, [])
    let g (i : Nat) : DWord := h.getD i 0
    let t1 := g 7 + shaBig 14 18 41 (g 4) + ((g 4 &&& g 5) ^^^ (~~~g 4 &&& g 6)) + k + w
    let t2 := shaBig 28 34 39 (g 0) + ((g 0 &&& g 1) ^^^ (g 0 &&& g 2) ^^^ (g 1 &&& g 2))
    shaRun ks todo ((w :: ws).take 16) [t1 + t2, g 0, g 1, g 2, g 3 + t1, g 4, g 5, g 6]

/-- One block of 128 bytes. -/
def shaBlock (h : List DWord) (block : List Byte) : List DWord :=
  let ws := (cutInto 8 16 block).map fun bs => BitVec.ofNat 64 (beNat bs)
  (h.zip (shaRun shaRounds ws [] h)).map fun x => x.1 + x.2

/-- SHA-512 of a message: 64 bytes. -/
def sha512 (m : List Byte) : List Byte :=
  let p := shaPad m
  ((cutInto 128 (p.length / 128) p).foldl shaBlock shaStart).flatMap fun x => beBytes 8 x.toNat

/-! RSASSA-PSS with SHA-512, MGF1 with SHA-512, a 64-byte salt and exponent 65,537 (R422). -/

/-- MGF1 with SHA-512: n blocks of 64 bytes. -/
def mgfBlocks (seed : List Byte) (n : Nat) : List Byte := (List.range n).flatMap fun i => sha512 (seed ++ beBytes 4 i)

/-- Square n times modulo a number. -/
def squareMod (n : Nat) : Nat → Nat → Nat
  | 0, x => x
  | k + 1, x => squareMod n k (x * x % n)

/-- The public operation of RSA with exponent 65,537. -/
def rsaPublic (n s : Nat) : Nat := squareMod n 16 (s % n) * s % n

def xorBytes (a b : List Byte) : List Byte := (a.zip b).map fun x => x.1 ^^^ x.2

/-- Verify a signature of 512 bytes over a message with an RSA-4096 modulus. -/
def pssVerify (modulus : Nat) (message signature : List Byte) : Bool :=
  let s := beNat signature
  let em := beBytes 512 (rsaPublic modulus s)
  let masked := em.take 447
  let h := (em.drop 447).take 64
  let db := xorBytes masked ((mgfBlocks h 7).take 447)
  let db := (db.getD 0 0 &&& 0x7F) :: db.drop 1
  let salt := db.drop 383
  signature.length == 512 && s < modulus && em.getD 511 0 == 0xBC && (masked.getD 0 0).getLsbD 7 == false &&
    db.take 383 == List.replicate 382 0 ++ [0x01] && sha512 (List.replicate 8 0 ++ sha512 message ++ salt) == h

end Sys2Proof.Machine
end

