-- ==== Sys2Proof/Machine/Translate.lean ====
section
/-! DEFINITION. Translation (spec/09_tables.md R208 to R213, R230) and the reach of a core (spec/05 R109, R112; spec/04 R106). -/

namespace Sys2Proof.Machine

/-- The kind of the events by which the function of a mode bit asks the H-die cores (R229, R432). -/
def modeKind (bit : Nat) : Nat :=
  match bit with
  | 1 => 3
  | 2 => 2
  | b => b + 1

/-- A function runs in its host-assisted mode (R229): as the table says at its idle points; while walks are outstanding in their mode, and
while an event waits for its answer in the host-assisted one. Every trap is dispatched as the table says (DEDUCED, log 49). -/
def State.hostMode (s : State) (bit : Nat) : Bool :=
  let table := s.cfg.functionMode.getLsbD bit
  if bit == 0 then match s.mem.walks with
    | w :: _ => w.host
    | [] => table
  else if bit == 4 then table
  else table || s.host.pending.any fun e => e.kind == modeKind bit

/-- The home package of a pool address (R108). -/
def State.homePackage (s : State) (pa : Nat) : Nat :=
  let h := placementHash (frameOf pa)
  s.cfg.poolTable.getD (h / 512 % 2 ^ s.cfg.pw) 0

/-- A pool address that is backed (R108, R109): bits [50:48] are 0, and so are bits [47:39+pw]; dropped pseudo-channels of its home slice
take frames away (R440). -/
def State.backed (s : State) (pa : Nat) : Bool :=
  pa / 2 ^ (39 + s.cfg.pw) == 0 &&
    (s.dram.dropped.isEmpty || s.homePackage pa != s.cfg.pkg ||
      localFrame s.cfg.pw pa < (s.survivors (sliceOfLine (lineOf pa))).length * 2 ^ 15)

/-- A pool address whose home is this package. -/
def State.homed (s : State) (pa : Nat) : Bool := s.backed pa && s.homePackage pa == s.cfg.pkg

/-- What a walk of an address ends with. -/
inductive WalkEnd where
  | leaf (e : TlbEntry)
  | invalid
  | poisoned
deriving DecidableEq, Repr

/-- Bytes a leaf maps at a level, without a run (R210). -/
def pageSize (level : Nat) : Nat := 4096 * 512 ^ level

/-- Check a leaf entry v at a level and form the translation (R210, R211, R212). -/
def leafEntry (asid va level v : Nat) : Option TlbEntry :=
  let run := bits 9 9 v == 1
  let size := if run then 16 * pageSize level else pageSize level
  let pa := bits 51 12 v * 4096
  if level > 2 || (run && level > 1) || bits 11 10 v != 0 || bits 63 52 v != 0 || bits 7 6 v == 3 || pa % size != 0 then none
  else some ⟨asid, va / size * size, size, pa, bits 2 2 v == 1, bits 3 3 v == 1, bits 4 4 v == 1, bits 5 5 v == 1, bits 7 6 v,
    bits 8 8 v == 1⟩

/-- The walk from level n - 1 down (R209, R212): table at a physical address. An entry that the package cannot read (not backed, or
homed on another package) serves no translation. -/
def walkFrom (s : State) (asid va : Nat) : Nat → Nat → WalkEnd
  | 0, _ => .invalid
  | n + 1, table =>
    let pa := table + 8 * (va / 2 ^ (12 + 9 * n) % 512)
    if !s.homed pa then .invalid
    else
      let (v, p) := s.homeNat pa 8
      if p then .poisoned
      else if bits 0 0 v == 0 then .invalid
      else if bits 1 1 v == 1 then
        match leafEntry asid va n v with
        | some e => .leaf e
        | none => .invalid
      else if n == 0 || bits 9 2 v != 0 || bits 11 10 v != 0 || bits 63 52 v != 0 then .invalid
      else walkFrom s asid va n (bits 51 12 v * 4096)

/-- The lines of the table entries that a walk reads from level n - 1 down. -/
def walkLines (s : State) (va : Nat) : Nat → Nat → List Nat
  | 0, _ => []
  | n + 1, table =>
    let pa := table + 8 * (va / 2 ^ (12 + 9 * n) % 512)
    let v := (s.homeNat pa 8).1
    if !s.homed pa then []
    else lineOf pa :: if bits 1 0 v == 1 then walkLines s va n (bits 51 12 v * 4096) else []

/-- The context table's entry of an identifier: the root table's address, none when it is not valid: a reserved field is not 0 (R208,
R10), or the package cannot read it. -/
def State.rootTable (s : State) (asid : Nat) : Option Nat :=
  let pa := s.cfg.contextTable + 16 * asid
  if s.homed pa && asid < 2048 then
    let (v, p) := s.homeNat pa 16
    if !p && bits 11 0 v == 1 && v / 2 ^ 52 == 0 then some (bits 51 12 v * 4096) else none
  else none

/-- The lines that a five-level walk of a virtual address reads (R208, R209). -/
def State.walkPath (s : State) (asid va : Nat) : List Nat :=
  let pa := s.cfg.contextTable + 16 * asid
  (if s.homed pa then [lineOf pa] else []) ++ match s.rootTable asid with
    | some root => walkLines s va 5 root
    | none => []

/-- A five-level walk of a virtual address (R209). -/
def State.walk (s : State) (asid va : Nat) : WalkEnd :=
  match s.rootTable asid with
  | some root => walkFrom s asid va 5 root
  | none => .invalid

/-- The first cached translation that covers an address. -/
def tlbFind (asid va : Nat) (es : List TlbEntry) : Option TlbEntry :=
  es.find? fun e => e.asid == asid && e.va ≤ va && va < e.va + e.size

/-- Put a translation in a cache of n entries: the oldest entry gives way (R213). -/
def tlbInsert (n : Nat) (e : TlbEntry) (es : List TlbEntry) : List TlbEntry :=
  (e :: es.filter fun x => !(x.asid == e.asid && x.va == e.va && x.size == e.size)).take n

/-- The physical address that a translation gives. -/
def TlbEntry.at (e : TlbEntry) (va : Nat) : Nat := e.pa + (va - e.va)

/-- Where an access finds the byte that a translation gives (R121). -/
def State.locate (s : State) (e : TlbEntry) (va : Nat) : Nat := s.liveAt (e.at va) e.mirror

/-- An access's translation: found in the core's or its die's cache, missing, or a walk that ended without a leaf. -/
inductive Lookup where
  | hit (e : TlbEntry)
  | miss
  | invalid
  | poisoned
deriving DecidableEq, Repr

/-- Translate for a core: its L1 TLB, else its die's TLB, else the result of an ended walk (R213). -/
def State.lookup (s : State) (core asid va : Nat) : Lookup :=
  let die := core / 32
  match tlbFind asid va (s.mem.l1tlb.getD core []) with
  | some e => .hit e
  | none =>
    match tlbFind asid va (s.mem.dieTlb.getD die []) with
    | some e => .hit e
    | none =>
      match s.mem.walkFaults.find? fun f => f.die == die && f.asid == asid && f.page == va / 4096 with
      | some f => if f.poisoned then .poisoned else .invalid
      | none => .miss

/-- Fill a core's L1 TLB with a translation it used (R213). -/
def State.fillL1Tlb (s : State) (core : Nat) (e : TlbEntry) : State :=
  let es := s.mem.l1tlb.getD core []
  if es.contains e then s else { s with mem := { s.mem with l1tlb := s.mem.l1tlb.put core (tlbInsert 128 e es) [] } }

/-- Ask for a walk: at most 64 of a die are outstanding (R213, R230). It keeps the mode in which it was asked for (R229). -/
def State.askWalk (s : State) (core asid va access : Nat) : State :=
  let die := core / 32
  let page := va / 4096
  if (s.mem.walks.any fun w => w.die == die && w.asid == asid && w.page == page) ||
      (s.mem.walks.filter fun w => w.die == die).length ≥ 64 then s
  else { s with mem := { s.mem with walks := s.mem.walks ++ [⟨die, asid, page, va, access, s.hostMode 0, none⟩] } }

/-- Forget the ended walks of an identifier on a die: a faulting address is walked again at every retry (R213). -/
def State.dropWalkFaults (s : State) (core asid : Nat) : State :=
  { s with mem := { s.mem with walkFaults := s.mem.walkFaults.filter fun f => !(f.die == core / 32 && f.asid == asid) } }

/-- Access codes of a page fault (R247): 0 read, 1 write, 2 atomic, 3 fetch, 4 graft, 5 table read; 6 stands for a `cflush`, which
execute permission alone allows too (R338) and which reports 0. -/
def accessAllowed (e : TlbEntry) (access : Nat) (system : Bool) : Bool :=
  (system || e.usr) &&
  match access with
  | 1 => e.wr
  | 4 => e.wr
  | 2 => e.rd && e.wr
  | 3 => e.ex
  | 6 => e.rd || e.ex
  | _ => e.rd

/-- The failed check of a translated access, if any (R212, R109, R106, R112): page fault at the rank given, or remote from core. -/
def pageChecks (s : State) (rank va access : Nat) (system : Bool) (e : TlbEntry) : Option Fail :=
  let pa := e.at va
  if !accessAllowed e access system then some (failPage rank va (access % 6) true)
  else if !s.backed pa then some (failPage rank va (access % 6) false)
  else if s.homePackage pa != s.cfg.pkg then some ⟨if rank == 1 then 1 else 11, 0x07, va + s.homePackage pa * 2 ^ 57⟩
  else none

/-- Containment of kind 7: the walk of the access read a poisoned entry (R209, R257). -/
def failWalkPoison (rank va : Nat) : Fail := ⟨rank, 0x0D, 7 + va * 16⟩

/-- The translation's outcome for one access: a failed check, the translation, or a wait (none, none). -/
def translateFor (s : State) (core asid rank va access : Nat) (system : Bool) : Option Fail × Option TlbEntry :=
  if va ≥ 2 ^ 57 then (some (failPage rank va (access % 6) false), none)
  else match s.lookup core asid va with
    | .hit e => (pageChecks s rank va access system e, some e)
    | .invalid => (some (failPage rank va (access % 6) false), none)
    | .poisoned => (some (failWalkPoison rank va), none)
    | .miss => (none, none)

end Sys2Proof.Machine
end

