-- ==== Sys2Proof/Machine/Reference.lean ====
section
/-! DEFINITION. Engine descriptors and the places their references name (spec/15_queue_table_counter_instructions.md R354, R355, R364;
spec/04 R105, R106). -/

namespace Sys2Proof.Machine

/-! Fields of a descriptor (R354). -/

/-- Double word n of a command's descriptor. -/
def CopyCmd.word (c : CopyCmd) (n : Nat) : Nat := (c.desc.getD n 0).toNat

def CopyCmd.rel (c : CopyCmd) : Bool := bits 0 0 (c.word 0) == 1
def CopyCmd.sw (c : CopyCmd) : Bool := bits 1 1 (c.word 0) == 1
def CopyCmd.stw (c : CopyCmd) : Bool := bits 2 2 (c.word 0) == 1
def CopyCmd.opcode (c : CopyCmd) : Nat := bits 7 4 (c.word 0)
def CopyCmd.rows (c : CopyCmd) : Nat := bits 31 16 (c.word 0) + 1
def CopyCmd.len (c : CopyCmd) : Nat := bits 63 32 (c.word 0)
def CopyCmd.src (c : CopyCmd) : Nat := c.word 1
def CopyCmd.tgt (c : CopyCmd) : Nat := c.word 2


/-- Rank, number of ranks and group of an `xrsc`. -/
def CopyCmd.rank (c : CopyCmd) : Nat := bits 7 0 (c.word 5)
def CopyCmd.ranks (c : CopyCmd) : Nat := bits 16 8 (c.word 5)
def CopyCmd.group (c : CopyCmd) : Nat := bits 63 32 (c.word 5)

/-- A plain copy: `xcp`, `xget`, `xput`, `xput.rel`, or a chain's copy entry. -/
def CopyCmd.isCopy (c : CopyCmd) : Bool := c.kind < 4 || c.kind == 8

/-- The pitches between rows: a command of one row, or with no rows, has none (R354). -/
def CopyCmd.srcPitch (c : CopyCmd) : Nat := if c.isCopy && c.rows > 1 then bits 31 0 (c.word 5) else 0
def CopyCmd.tgtPitch (c : CopyCmd) : Nat := if c.isCopy && c.rows > 1 then bits 63 32 (c.word 5) else 0

/-- The class of a command's counter (R353): 0 copy, 2 gth, 3 col. -/
def CopyCmd.cls (c : CopyCmd) : Nat := if c.kind == 6 then 2 else if c.kind == 7 then 3 else 0

/-! References (R355). -/

def refSpace (r : Nat) : Nat := bits 63 61 r
def refOffset (r : Nat) : Nat :=
  match refSpace r with
  | 0 => bits 56 0 r
  | 3 => bits 51 0 r
  | 4 => 0
  | _ => bits 18 0 r

/-- The fields of a reference's space alone are nonzero, and the space is assigned. -/
def refLegal (r : Nat) : Bool :=
  match refSpace r with
  | 0 => bits 60 57 r == 0
  | 1 => bits 60 19 r == 0
  | 2 => bits 60 33 r == 0
  | 3 => bits 60 59 r == 0 && (bits 51 51 r == 1 || bits 58 52 r == 0)
  | 4 => bits 60 0 r == 0
  | _ => false

/-- Where one byte of an end lies: a pool address with its page's kind and class, a byte of a window of the on-chip map of a package, or
an inline byte. -/
inductive Place where
  | pool (pa kind : Nat) (mirror : Bool)
  | chip (pkg core window off : Nat)
  | inline (i : Nat)
deriving DecidableEq, Repr

/-- A field of the on-chip map that is reserved (R105, R106). -/
def chipLegal (pa : Nat) : Bool :=
  let off := bits 35 0 pa
  bits 50 47 pa == 0 &&
  match bits 39 36 pa with
  | 0 => bits 35 20 off == 0 && bits 16 11 off ≤ 32
  | 1 => bits 35 19 off == 0
  | 2 => bits 35 17 off == 0
  | 3 => bits 35 22 off == 0
  | _ => false

/-- The place of an on-chip physical address of a package; status 0x04 for a reserved field (R106). -/
def chipPlace (pkg pa : Nat) : Except Nat Place :=
  if chipLegal pa then .ok (.chip pkg (bits 46 40 pa) (bits 39 36 pa) (bits 35 0 pa)) else .error 4

/-- The global address of byte b of a reference of space 0: in the posting warp's segment, or for a chain in its context (R364). -/
def CopyCmd.va (c : CopyCmd) (r b : Nat) : Nat := (if c.kind == 8 then 0 else c.segs.gbase.toNat) + refOffset r + b

/-- The scratch block of the work-group that a byte belongs to, where it stands now: a block that moved takes the byte with it
(R166, R268). `base` is the block's first byte when the offset was formed. -/
def State.scratchNow (s : State) (wg base off : Nat) : Nat :=
  match s.work.groups.find wg with
  | some g => off - base + 4096 * g.scr.1
  | none => off

/-- The core on which a work-group stands now: a restore may put it on another (R268). -/
def State.coreNow (s : State) (wg core : Nat) : Nat :=
  match s.work.groups.find wg with
  | some g => g.core
  | none => core

/-- The translation of a command's page: one made when it was taken, else a walk (R186). -/
def State.pageOf (s : State) (c : CopyCmd) (va : Nat) : WalkEnd :=
  match tlbFind c.ctx va c.trans with
  | some e => .leaf e
  | none => s.walk c.ctx va

/-- The place of byte b of an end, or the status that its access gives (R106, R109, R186): access 0 reads and 1 writes. -/
def State.place (s : State) (c : CopyCmd) (r b access : Nat) : Except Nat Place :=
  match refSpace r with
  | 0 =>
    let va := c.va r b
    match (if va < 2 ^ 57 then s.pageOf c va else .invalid) with
    | .invalid => .error 6
    | .poisoned => .error 10
    | .leaf e =>
      let pa := e.at va
      if !accessAllowed e access c.system then .error 3
      else if pa / 2 ^ 51 == 1 then (if c.system then chipPlace s.cfg.pkg pa else .error 3)
      else if s.backed pa then .ok (.pool (if s.homed pa then s.locate e va else pa) e.kind e.mirror)
      else .error 4
  | 1 => .ok (.chip s.cfg.pkg (s.coreNow c.wg c.core) 1 (s.scratchNow c.wg c.base (c.segs.sbase.toNat + refOffset r + b)))
  | 2 =>
    let off := refOffset r + b
    if off ≥ 524288 then .error 3
    else match c.owner with
      | some (wg, base) => .ok (.chip (bits 32 26 r) (s.coreNow wg (bits 25 19 r)) 1 (s.scratchNow wg base off))
      | none => .ok (.chip (bits 32 26 r) (bits 25 19 r) 1 off)
  | 3 =>
    let pa := refOffset r + b
    if !c.system then .error 3
    else if pa / 2 ^ 51 == 1 then chipPlace (bits 58 52 r) pa
    else if s.backed pa then .ok (.pool pa 1 false)
    else .error 4
  | _ => .ok (.inline b)

/-- The package that a place lies on; inline bytes lie on the issuing package. -/
def State.placePackage (s : State) : Place → Nat
  | .pool pa _ _ => s.homePackage pa
  | .chip pkg _ _ _ => pkg
  | .inline _ => s.cfg.pkg

/-- Byte p of a copy's data, as a byte of its source end and of its target end. -/
def CopyCmd.srcByte (c : CopyCmd) (p : Nat) : Nat := if c.isCopy then p / c.len * c.srcPitch + p % c.len else p
def CopyCmd.tgtByte (c : CopyCmd) (p : Nat) : Nat := if c.isCopy then p / c.len * c.tgtPitch + p % c.len else p

/-- The address that aligns the pieces of an end. -/
def CopyCmd.alignAddr (c : CopyCmd) (r b : Nat) : Nat :=
  match refSpace r with
  | 0 => c.va r b
  | 1 => c.segs.sbase.toNat + refOffset r + b
  | _ => refOffset r + b

/-- The positions in a command's data at which a page or a row begins, for an end with the given byte map. -/
def pageStarts (total len start : Nat) (at' : Nat → Nat) : List Nat :=
  if total = 0 then [] else
    (List.range ((total + len - 1) / len)).flatMap fun row =>
      let p := row * len
      let n := min len (total - p)
      let first := start + at' p
      p :: ((granules 4096 first n).drop 1).map fun k => p + (k * 4096 - first)

/-- The bytes a command moves in all. -/
def CopyCmd.total (c : CopyCmd) : Nat :=
  if c.kind == 5 then 0 else if c.kind == 6 then c.len - 8 else if c.isCopy then c.rows * c.len else c.len

/-- The packages other than this one that a command writes (R134, R357). -/
def State.targetPackages (s : State) (c : CopyCmd) : List Nat :=
  let other (ps : List Nat) : List Nat := (ps.filter (· != s.cfg.pkg)).dedup
  if c.kind == 5 then other [match refSpace (c.word 3) with | 2 => bits 32 26 (c.word 3) | _ => s.cfg.pkg]
  else if c.kind == 2 || c.kind == 3 || c.kind == 4 || c.kind == 8 then
    other ((pageStarts c.total (max c.len 1) (c.alignAddr c.tgt 0) c.tgtByte).filterMap fun p =>
      match s.place c c.tgt (c.tgtByte p) 1 with
      | .ok x => some (s.placePackage x)
      | .error _ => none)
  else []

end Sys2Proof.Machine
end

