-- ==== Sys2Proof/Machine/Route.lean ====
section
/-! DEFINITION. The way out of the package: Stolil ports, channels and uplinks (spec/08_engine_queues.md R193 to R196, R183; spec/19 R420). -/

namespace Sys2Proof.Machine

/-- The slot of a package in its tray (R416). -/
def slotOf (pkg : Nat) : Nat := pkg % 16

/-- A package of this tray. -/
def State.inTray (s : State) (t : Nat) : Bool := t / 16 == s.cfg.pkg / 16

/-- The port that leads to a package of the tray: the fifteen peers in slot order (log entry 5). -/
def State.portOf (s : State) (t : Nat) : Nat := if slotOf t < slotOf s.cfg.pkg then slotOf t else slotOf t - 1

/-- The package that a port leads to. -/
def State.portPeer (s : State) (q : Nat) : Nat := 16 * (s.cfg.pkg / 16) + (if q < slotOf s.cfg.pkg then q else q + 1)

def State.portAt (s : State) (q : Nat) : Port := s.fab.ports.getD q Port.init

def State.onPort (s : State) (q : Nat) (f : Port → Port) : State :=
  { s with fab := { s.fab with ports := s.fab.ports.alter q f Port.init } }

/-- A port carries traffic: it is up and not mapped out. -/
def State.portLive (s : State) (q : Nat) : Bool := (s.portAt q).up && !(s.portAt q).out

/-- The channel of a port: 0 ordered, 1 relaxed. -/
def Port.chan (p : Port) (relaxed : Bool) : Channel := if relaxed then p.relaxed else p.ordered

/-- Change one channel of a port. -/
def State.onChan (s : State) (q : Nat) (relaxed : Bool) (f : Channel → Channel) : State :=
  s.onPort q fun p => if relaxed then { p with relaxed := f p.relaxed } else { p with ordered := f p.ordered }

/-- The peers of the tray over a live port, ascending. -/
def State.livePeers (s : State) : List Nat := ((List.range 15).filter s.portLive).map s.portPeer

/-- Of two ports, the one with more free relaxed credits; the first on a tie. -/
def State.richer (s : State) (a b : Nat) : Nat :=
  if (s.portAt a).relaxed.credits < (s.portAt b).relaxed.credits then b else a

/-- The port that traffic to a package of the tray takes now (R194, R196): ordered traffic the direct link or its detour, relaxed traffic
the live route with the most free credits, ties to the direct link. -/
def State.portTo (s : State) (t : Nat) (relaxed : Bool) : Option Nat :=
  let direct := s.portOf t
  if relaxed then
    let live := (s.livePeers.map s.portOf)
    match (if live.contains direct then direct :: live else live) with
    | [] => none
    | q :: qs => some (qs.foldl s.richer q)
  else match s.fab.detour.find t with
    | some p => if s.portLive (s.portOf p) then some (s.portOf p) else none
    | none => if s.portLive direct then some direct else none

/-- A package has a live route (R196, R188): this one, one of another tray over the uplinks, or one of this tray directly or through a
relay, whose own link to the target is taken as live (log entry 6). -/
def State.reachable (s : State) (t : Nat) : Bool := t == s.cfg.pkg || !s.inTray t || !s.livePeers.isEmpty

/-- The uplink that traffic to another tray takes (R194). -/
def uplinkOf (t : Nat) : Nat := t % 4

/-- Where the frame numbers of an uplink to and from a package of another tray are kept (R420). -/
def uplinkKey (uplink peer : Nat) : Nat := 128 * uplink + peer

/-- A flit to a package can leave now: a route, a credit, no hold (R193, R146), and no transit flit waits for its port, whose flits go first
on either channel (R195). -/
def State.canSend (s : State) (t : Nat) (relaxed : Bool) : Bool :=
  if !s.inTray t then true
  else match s.portTo t relaxed with
    | some q => 0 < ((s.portAt q).chan relaxed).credits && (relaxed || !s.fab.held.contains t) && (s.portAt q).ordered.transit.isEmpty &&
        (s.portAt q).relaxed.transit.isEmpty
    | none => false

/-- A flit takes a credit of a port's channel. -/
def Channel.take (c : Channel) (f : Flit) : Channel := { c with credits := c.credits - 1, sent := c.sent ++ [f] }

/-- The next number of the channel to a package of the tray. -/
def State.numbered (s : State) (f : Flit) : Flit × State :=
  let q := s.portOf f.target
  ({ f with seq := ((s.portAt q).chan f.relaxed).next }, s.onChan q f.relaxed fun c => { c with next := c.next + 1 })

/-- Put a flit on its way (R193, R194, R420). -/
def State.sendNow (s : State) (f : Flit) : State :=
  if s.inTray f.target then
    match s.portTo f.target f.relaxed with
    | some q =>
      let (f, s) := s.numbered f
      s.onChan q f.relaxed fun c => c.take f
    | none => s
  else
    let fr : Frame := ⟨s.cfg.pkg, f.target, f.relaxed, [f]⟩
    let add (u : Uplink) : Uplink := { u with next := (u.next + 1) % 2 ^ 32, sent := u.sent ++ [(u.next, s.clk.ref.toNat, fr)] }
    { s with fab := { s.fab with uplinks := s.fab.uplinks.alter (uplinkKey (uplinkOf f.target) f.target) add Uplink.init } }

/-- An earlier flit of the outbox goes to the same package on the same channel. -/
def blockedBy (xs : List Flit) (f : Flit) : Bool := xs.any fun x => x.target == f.target && x.relaxed == f.relaxed

/-- Send what the outbox can send, in order for each package and channel: what is left, and the state. -/
def pumpFlits : List Flit → List Flit → State → List Flit × State
  | [], kept, s => (kept, s)
  | f :: fs, kept, s =>
    if !blockedBy kept f && s.canSend f.target f.relaxed then pumpFlits fs kept (s.sendNow f) else pumpFlits fs (kept ++ [f]) s

/-- Send what waits for credits. -/
def State.pump (s : State) : State :=
  let (kept, s) := pumpFlits s.fab.outbox [] s
  { s with fab := { s.fab with outbox := kept } }

/-- Send a flit, after those that wait for the same package and channel. -/
def State.send (s : State) (t : Nat) (relaxed : Bool) (m : Msg) : State :=
  let f : Flit := ⟨s.cfg.pkg, t, relaxed, 0, m⟩
  State.pump { s with fab := { s.fab with outbox := s.fab.outbox ++ [f] } }

/-- A remote write to acknowledge. -/
def State.oweAck (s : State) (src tag : Nat) (after : List Nat) (status : Nat) : State :=
  { s with fab := { s.fab with remote := s.fab.remote ++ [⟨src, tag, after, status⟩] } }

/-- An engine's command may send to a package: the channel has a credit and nothing waits before it (R193, R206). A package with no live
route gives the command its status instead. -/
def State.mayPost (s : State) (t : Nat) (relaxed : Bool) : Bool :=
  t == s.cfg.pkg || !s.reachable t || (s.canSend t relaxed && !(s.fab.outbox.any fun f => f.target == t && f.relaxed == relaxed))

/-- The physical address of a byte of the on-chip map (R105). -/
def chipAddr (core window off : Nat) : Nat := 2 ^ 51 + core * 2 ^ 40 + window * 2 ^ 36 + off

/-- The address that a message names for a place. -/
def Place.addr : Place → Nat
  | .pool pa _ _ => pa
  | .chip _ core window off => chipAddr core window off
  | .inline i => i

/-- The kind and class of the page that names a place; storage on chip has none. -/
def Place.page : Place → Nat × Bool
  | .pool _ kind mirror => (kind, mirror)
  | _ => (0, false)

/-- The rack root's package and the tray distributor's slot within each tray (R153, R423), as the configuration record names them. -/
def State.rackRoot (s : State) : Nat := s.att.roles % 128
def State.trayDistributor (s : State) (tray : Nat) : Nat := 16 * tray + s.att.roles / 128 % 16

/-! Reads that the package's own hardware makes at other packages. -/

/-- The tag of a read of a line by the hardware itself. -/
def hardwareTag (line : Nat) : Nat := 2 ^ 64 + line

/-- m bytes of one line of the pool: none while a line of another package has not come. -/
def State.poolPiece (s : State) (a m : Nat) : Option (List Byte × Bool) :=
  if s.homePackage a == s.cfg.pkg then some (s.homeRead a m)
  else (s.fab.buffer.find (lineOf a)).map fun d =>
    let part := (d.drop (a % 128)).take m
    (part.map (·.1), part.any (·.2))

/-- The bytes of pieces of lines, with the OR of their poison. -/
def State.poolPieces (s : State) : List (Nat × Nat × Nat) → Option (List Byte × Bool)
  | [] => some ([], false)
  | (_, a, m) :: rest => match s.poolPiece a m, s.poolPieces rest with
    | some x, some y => some (x.1 ++ y.1, x.2 || y.2)
    | _, _ => none

/-- n bytes of the pool wherever their homes are: none while a line of another package has not come. -/
def State.poolRead (s : State) (pa n : Nat) : Option (List Byte × Bool) := s.poolPieces (linePieces pa n)

/-- Ask for the lines of n bytes of the pool that lie at other packages. -/
def State.poolAsk (s : State) (pa n : Nat) : State :=
  (linePieces pa n).foldl (fun s (_, a, _) =>
    let line := lineOf a
    if s.homePackage a == s.cfg.pkg || s.fab.buffer.any (·.1 == line) || s.fab.wanted.contains line then s
    else
      let s := { s with fab := { s.fab with wanted := s.fab.wanted ++ [line] } }
      s.send (s.homePackage a) false (.readReq s.cfg.pkg (hardwareTag line) (128 * line) 128 false)) s

/-- Forget the lines of n bytes that have come from other packages: the next read asks again. -/
def State.poolDrop (s : State) (pa n : Nat) : State :=
  { s with fab := { s.fab with buffer := (granules 128 pa n).foldl (fun b k => b.erase k) s.fab.buffer } }

/-- Write bytes of the pool wherever their homes are (R105, R428). -/
def State.poolWrite (s : State) (pa : Nat) (bs : List Byte) : State :=
  (linePieces pa bs.length).foldl (fun s (o, a, m) =>
    let part := (bs.drop o).take m
    if s.homePackage a == s.cfg.pkg then s.hwWrite a part false
    else (s.poolDrop a m).send (s.homePackage a) false (.write s.cfg.pkg (2 ^ 64) a 0 false (part.map (·, false)) none)) s

end Sys2Proof.Machine
end

