-- ==== Sys2Proof/Machine/Image.lean ====
section
/-! DEFINITION. The shape of a work-group's save image and the places within it (spec/11_events.md R265, R266), and deliveries to
scratchpad that go to the image of a saved work-group (R267, R238). -/

namespace Sys2Proof.Machine

/-! What a launch asks for (R216). -/

/-- Threads T, register size code, scratch granules, tiles and exchange granules of a launch record. -/
def recordThreads (ws : List DWord) : Nat := bits 8 0 (ws.getD 3 0).toNat + 1
def recordGang (ws : List DWord) : Nat := bits 14 9 (ws.getD 3 0).toNat
def recordSize (ws : List DWord) : Nat := bits 19 17 (ws.getD 3 0).toNat
def recordScratch (ws : List DWord) : Nat := bits 27 20 (ws.getD 3 0).toNat
def recordTiles (ws : List DWord) : Nat := bits 34 28 (ws.getD 3 0).toNat
def recordExch (ws : List DWord) : Nat := bits 39 35 (ws.getD 3 0).toNat

/-- The warps of a work-group of T threads: 32 threads each, 16 under protection (R16, R34). -/
def recordWarps (ws : List DWord) (protect : Bool) : Nat :=
  let n := if protect then 16 else 32
  (recordThreads ws + n - 1) / n

/-- The shape of an image: warps, registers of a thread, bytes of scratchpad, exchange granules and tiles. -/
structure ImageShape where
  warps : Nat
  regs : Nat
  slim : Nat
  gran : Nat
  tiles : Nat
deriving DecidableEq, Repr

/-- The shape of a grid's images. -/
def Grid.shape (g : Grid) : ImageShape :=
  ⟨recordWarps g.record g.eff.protect, 32 * 2 ^ recordSize g.record, 4096 * recordScratch g.record, recordExch g.record, recordTiles g.record⟩

/-- The bytes of a lane record and of a warp (R265). -/
def ImageShape.lane (x : ImageShape) : Nat := 576 + 4 * x.regs + x.regs / 8
def ImageShape.warp (x : ImageShape) : Nat := 1024 + 32 * x.lane

/-- The sections' offsets (R265). -/
def ImageShape.warpAt (x : ImageShape) (i : Nat) : Nat := 128 + i * x.warp
def ImageShape.laneAt (x : ImageShape) (i l : Nat) : Nat := x.warpAt i + 1024 + l * x.lane
def ImageShape.scratch (x : ImageShape) : Nat := x.warpAt x.warps
def ImageShape.exch (x : ImageShape) : Nat := x.scratch + x.slim / 32 * 33
def ImageShape.acc (x : ImageShape) : Nat := x.exch + 2 * x.gran * 4224 + 64
def ImageShape.macros (x : ImageShape) : Nat := x.acc + x.tiles * 67584

/-- The offset of sync-word record k in an image that holds n macros. -/
def ImageShape.syncAt (x : ImageShape) (n k : Nat) : Nat := x.macros + n * 17472 + 4 * k

/-- The image of a saved work-group, with its shape. -/
def State.savedShape (s : State) (wg : Nat) : Option (Saved × ImageShape) :=
  match s.ctl.saved.find wg with
  | none => none
  | some x => (s.work.grids.find x.group.grid).map fun g => (x, g.shape)

/-- Have the home of a pool word of another package combine it with a value, by the operation of a reduction's code (R222, R358). -/
def State.poolCombine (s : State) (pa code v : Nat) : State :=
  s.send (s.homePackage pa) false (.reduce s.cfg.pkg (2 ^ 64) pa 0 false code [⟨BitVec.ofNat 32 v, false⟩] none)

/-- Set or clear the bit of word i in a poison map at a pool address (R265). -/
def State.mapPoison (s : State) (base i : Nat) (p : Bool) : State :=
  let word := base + i / 32 * 4
  if s.homePackage word == s.cfg.pkg then
    let b := leNat (s.homeRead (base + i / 8) 1).1
    let bit := 2 ^ (i % 8)
    let clear := b - (if b / bit % 2 == 1 then bit else 0)
    s.poolWrite (base + i / 8) [BitVec.ofNat 8 (if p then clear + bit else clear)]
  else if p then s.poolCombine word 11 (2 ^ (i % 32))
  else s.poolCombine word 10 (2 ^ 32 - 1 - 2 ^ (i % 32))

/-- Write bytes of a section at offset o, with the poison of the words they touch: a word written in part keeps its poison. -/
def State.sectionWrite (s : State) (data map o : Nat) (bs : List (Byte × Bool)) : State :=
  let s := s.poolWrite (data + o) (bs.map (·.1))
  (granules 4 o bs.length).foldl (fun s k =>
    let mine := bs.zipIdx.filter fun x => (o + x.2) / 4 == k
    let p := mine.any fun x => x.1.2
    if p || covers 4 o bs.length k then s.mapPoison map k p else s) s

/-- A bank held the shadow of granule i of a saved work-group when it was saved (R89, R265). -/
def Saved.shadowBank (x : Saved) (i bank : Nat) : Bool := (bank == 1) != x.polarity.testBit i

/-- The piece of n bytes at a place where a saved work-group's image takes it: the data, the map and the offset in its section (R267). -/
def imageSpot (s : State) (wg : Nat) (window off : Nat) : Option (Nat × Nat × Nat) :=
  match s.savedShape wg with
  | none => none
  | some (x, h) =>
    let base := x.image
    match window with
    | 1 => some (base + h.scratch, base + h.scratch + h.slim, off - 4096 * x.group.scr.1)
    | 2 =>
      let o := off % 65536 - 4096 * x.group.exch.1
      let bank := base + h.exch + (if x.shadowBank (bits 15 12 o) (bits 16 16 off) then h.gran * 4224 else 0)
      some (bank, bank + h.gran * 4096, o)
    | 3 => some (base + h.acc, base + h.acc + h.tiles * 65536, off - 65536 * x.group.tiles.1)
    | _ =>
      match x.group.ranges.zipIdx.find? fun r => r.1.1 == bits 19 17 off && 32 * r.1.2.2.1 ≤ bits 10 2 off &&
          bits 10 2 off < 32 * r.1.2.2.1 + h.regs with
      | some (r, i) =>
        let data := base + h.laneAt i (bits 16 11 off) + 576
        some (data, data + 4 * h.regs, 4 * (bits 10 2 off - 32 * r.2.2.1))
      | none => none

/-- The place in a saved member's image of a byte of its shadow region: a swap since has made the front region the shadow (R91, R267). -/
def shadowSpot (s : State) (wg : Nat) (off : Nat) : Option (Nat × Nat × Nat) :=
  match s.savedShape wg with
  | none => none
  | some (x, h) =>
    let bank := x.image + h.exch + (if x.passed == some true then 0 else h.gran * 4224)
    some (bank, bank + h.gran * 4096, off - 4096 * x.group.exch.1)

/-- The ranges of the pool that hold n bytes at a place of an image and their poison. -/
def imageRanges (spot : Nat × Nat × Nat) (n : Nat) : List (Nat × Nat) :=
  let o := spot.2.2
  [(spot.1 + o, n), (spot.2.1 + o / 32, (o + n + 31) / 32 - o / 32)]

/-- Bytes of an image lie at other packages and have not come. -/
def imageAway (s : State) (spot : Nat × Nat × Nat) (n : Nat) : Bool := (imageRanges spot n).any fun x => (s.poolRead x.1 x.2).isNone

/-- Ask for bytes of an image, and forget them. -/
def imageAsk (s : State) (spot : Nat × Nat × Nat) (n : Nat) : State := (imageRanges spot n).foldl (fun s x => s.poolAsk x.1 x.2) s
def imageDrop (s : State) (spot : Nat × Nat × Nat) (n : Nat) : State := (imageRanges spot n).foldl (fun s x => s.poolDrop x.1 x.2) s

/-! Which work-group a place belongs to (R267, R355). -/

/-- A resident work-group that holds a byte of a core's scratchpad. -/
def scratchOwner (s : State) (core off : Nat) : Option (Nat × WorkGroup) :=
  s.work.groups.find? fun (_, g) => g.core == core && !g.dead && 4096 * g.scr.1 ≤ off && off < 4096 * (g.scr.1 + g.scr.2)

/-- A saved work-group that held a byte of a core's scratchpad. -/
def savedOwner (s : State) (core off : Nat) : Option (Nat × WorkGroup) :=
  (s.ctl.saved.find? fun (_, x) => x.group.core == core && 4096 * x.group.scr.1 ≤ off && off < 4096 * (x.group.scr.1 + x.group.scr.2)).map
    fun (n, x) => (n, x.group)

/-- The work-group that a reference to a byte of a core's scratchpad means, with the first byte of its block. -/
def ownerOf (s : State) (core off : Nat) : Option (Nat × Nat) :=
  match scratchOwner s core off with
  | some (n, g) => some (n, 4096 * g.scr.1)
  | none => (savedOwner s core off).map fun (n, g) => (n, 4096 * g.scr.1)

/-- The context of a work-group, resident or saved. -/
def State.groupCtx (s : State) (wg : Nat) : Option Nat :=
  let grid : Option Nat := match s.work.groups.find wg with
    | some g => some g.grid
    | none => match s.ctl.saved.find wg with
      | some x => some x.group.grid
      | none => none
  match grid.bind s.work.grids.find with
  | some (g : Grid) => some g.ctx.toNat
  | none => none

end Sys2Proof.Machine
end

