-- ==== Sys2Proof/Machine/Float.lean ====
section
/-! DEFINITION. Floating-point values and arithmetic (spec/03_values.md R60 to R71): exact arithmetic over integers, rounded once.
A finite magnitude is m * 2^e with m a natural number and e an integer; `sticky` says that the true magnitude lies strictly
between m * 2^e and (m + 1) * 2^e. -/

namespace Sys2Proof

/-- A floating-point format of R60: its field widths, bias, largest finite code, and whether it has infinities and IEEE NaNs
(f32, h16, w16, m8w), one NaN per sign and no infinity (m8), or neither (m4). -/
structure FpFormat where
  expBits : Nat
  fracBits : Nat
  bias : Nat
  maxCode : Nat
  ieee : Bool
  hasNaN : Bool
  nan : Nat
deriving DecidableEq, Repr

namespace FpFormat
def f32 : FpFormat := ⟨8, 23, 127, 0x7F7FFFFF, true, true, 0x7FC00000⟩
def h16 : FpFormat := ⟨5, 10, 15, 0x7BFF, true, true, 0x7E00⟩
def w16 : FpFormat := ⟨8, 7, 127, 0x7F7F, true, true, 0x7FC0⟩
def m8 : FpFormat := ⟨4, 3, 7, 0x7E, false, true, 0x7F⟩
def m8w : FpFormat := ⟨5, 2, 15, 0x7B, true, true, 0x7E⟩
def m4 : FpFormat := ⟨2, 1, 1, 0x7, false, false, 0⟩
end FpFormat

/-- Bits of a value of the format. -/
def FpFormat.width (f : FpFormat) : Nat := 1 + f.expBits + f.fracBits

/-- The code of infinity: all-ones exponent, zero fraction (R61). -/
def FpFormat.infCode (f : FpFormat) : Nat := (2 ^ f.expBits - 1) * 2 ^ f.fracBits

/-- The smallest exponent of a normal value: 1 - bias (R60). -/
def FpFormat.emin (f : FpFormat) : Int := 1 - (f.bias : Int)

/-- The sign bit set in a code when neg holds. -/
def FpFormat.signed (f : FpFormat) (neg : Bool) (code : Nat) : Nat :=
  if neg then 2 ^ (f.expBits + f.fracBits) + code else code

/-- The value a code stands for (R60, R61): a NaN, quiet or signalling; an infinity; or a finite magnitude m * 2^e. -/
inductive FpVal where
  | nan (signalling : Bool)
  | inf (neg : Bool)
  | num (neg : Bool) (m : Nat) (e : Int)
deriving DecidableEq, Repr

/-- Read a code of the format (R60, R61). Bits above the format's width are ignored. -/
def FpFormat.unpack (f : FpFormat) (code : Nat) : FpVal :=
  let neg := code / 2 ^ (f.expBits + f.fracBits) % 2 == 1
  let ex := code / 2 ^ f.fracBits % 2 ^ f.expBits
  let fr := code % 2 ^ f.fracBits
  if f.ieee && ex == 2 ^ f.expBits - 1 then
    if fr == 0 then .inf neg else .nan (fr / 2 ^ (f.fracBits - 1) == 0)
  else if f.hasNaN && !f.ieee && ex == 2 ^ f.expBits - 1 && fr == 2 ^ f.fracBits - 1 then .nan false
  else if ex == 0 then .num neg fr (f.emin - f.fracBits)
  else .num neg (2 ^ f.fracBits + fr) ((ex : Int) - f.bias - f.fracBits)

/-- Rounding direction of R67: whether to take the next multiple away from zero, for a remainder `r` of `2^shift`
(`shift` at least 1), `k` the truncated multiple. -/
def roundUp (rm : Nat) (neg : Bool) (k r shift : Nat) (sticky : Bool) : Bool :=
  let half := 2 ^ (shift - 1)
  match rm with
  | 0 => r > half || (r == half && (sticky || k % 2 == 1))
  | 1 => false
  | 2 => neg && (r != 0 || sticky)
  | _ => !neg && (r != 0 || sticky)

/-- The multiple of 2^q that m * 2^e rounds to in mode rm, and whether it differs from the exact magnitude. -/
def roundAt (rm : Nat) (neg : Bool) (m : Nat) (e : Int) (sticky : Bool) (q : Int) : Nat × Bool :=
  if q < e then (m * 2 ^ (e - q).toNat, sticky)
  else if q = e then
    (if sticky && ((rm == 2 && neg) || (rm == 3 && !neg)) then m + 1 else m, sticky)
  else
    let shift := (q - e).toNat
    let k := m / 2 ^ shift
    let r := m % 2 ^ shift
    (if roundUp rm neg k r shift sticky then k + 1 else k, r != 0 || sticky)

/-- The code of k * 2^q, where k is at most 2^(fracBits+1) and q is the format's quantum for it. It can exceed maxCode. -/
def FpFormat.codeOf (f : FpFormat) (k : Nat) (q : Int) : Nat :=
  let n := 2 ^ f.fracBits
  if k < n then k
  else
    let (k, q) := if k ≥ 2 * n then (n, q + 1) else (k, q)
    (q + f.fracBits + f.bias).toNat * n + (k - n)

/-- What an overflow delivers (R68, R71): the infinity or the largest finite value by the mode, or the largest finite value under
saturation; m8 without saturation gives its NaN, and m4 always saturates. -/
def FpFormat.overflowCode (f : FpFormat) (rm : Nat) (sat neg : Bool) : Nat :=
  if !f.ieee then (if f.hasNaN && !sat then f.nan else f.signed neg f.maxCode)
  else if !sat && (rm == 0 || (rm == 2 && neg) || (rm == 3 && !neg)) then f.signed neg f.infCode
  else f.signed neg f.maxCode

/-- Round a finite magnitude once to the format (R68, R71), with the flags of R69. Overflow is judged on the rounded value with
its exponent unbounded; a result is tiny when that value lies below the smallest normal. -/
def FpFormat.round (f : FpFormat) (rm : Nat) (sat neg : Bool) (m : Nat) (e : Int) (sticky : Bool) : Nat × FpFlags :=
  if m == 0 then (f.signed neg 0, FpFlags.none)
  else
    let top := (Nat.log2 m : Int) + e
    let qU := top - f.fracBits
    let (kU, inexU) := roundAt rm neg m e sticky qU
    let topU := if kU ≥ 2 ^ (f.fracBits + 1) then top + 1 else top
    let tiny := topU < f.emin
    if !tiny && f.codeOf kU qU > f.maxCode then
      (f.overflowCode rm sat neg, { overflow := true, inexact := true })
    else
      let q := if qU < f.emin - f.fracBits then f.emin - f.fracBits else qU
      let (k, inex) := if q = qU then (kU, inexU) else roundAt rm neg m e sticky q
      (f.signed neg (f.codeOf k q), { underflow := tiny && inex, inexact := inex })

/-- Round a signed integer multiple v * 2^e; an exact zero is +0, or -0 under round toward minus infinity (R68). -/
def FpFormat.roundInt (f : FpFormat) (rm : Nat) (sat : Bool) (v : Int) (e : Int) : Nat × FpFlags :=
  if v == 0 then (f.signed (rm == 2) 0, FpFlags.none)
  else f.round rm sat (v < 0) v.natAbs e false

/-- A signed magnitude as an integer multiple of 2^q, where q is at most e. -/
def fpScaled (neg : Bool) (m : Nat) (e q : Int) : Int :=
  let v : Int := (m * 2 ^ (e - q).toNat : Nat)
  if neg then -v else v

/-- Whether an operand is a signalling NaN (R62). -/
def FpVal.isSNaN : FpVal → Bool
  | .nan s => s
  | _ => false

def FpVal.isNaN : FpVal → Bool
  | .nan _ => true
  | _ => false

/-- The negation of a value; a NaN stays a NaN. -/
def FpVal.neg : FpVal → FpVal
  | .nan s => .nan s
  | .inf n => .inf (!n)
  | .num n m e => .num (!n) m e

/-- The exact sum of two finite magnitudes, rounded once; zeros of equal sign keep it (R68). -/
def FpFormat.addNum (f : FpFormat) (rm : Nat) (sat : Bool) (na : Bool) (ma : Nat) (ea : Int) (nb : Bool) (mb : Nat) (eb : Int) :
    Nat × FpFlags :=
  if ma == 0 && mb == 0 then (f.signed (if na == nb then na else rm == 2) 0, FpFlags.none)
  else
    let q := min ea eb
    f.roundInt rm sat (fpScaled na ma ea q + fpScaled nb mb eb q) q

/-- a + b (R68, R301). -/
def FpFormat.add (f : FpFormat) (rm : Nat) (sat : Bool) (a b : FpVal) : Nat × FpFlags :=
  let inv := FpFlags.inv (a.isSNaN || b.isSNaN)
  match a, b with
  | .nan _, _ => (f.nan, inv)
  | _, .nan _ => (f.nan, inv)
  | .inf na, .inf nb => if na == nb then (f.signed na f.infCode, FpFlags.none) else (f.nan, FpFlags.inv true)
  | .inf na, .num .. => (f.signed na f.infCode, FpFlags.none)
  | .num .., .inf nb => (f.signed nb f.infCode, FpFlags.none)
  | .num na ma ea, .num nb mb eb => f.addNum rm sat na ma ea nb mb eb

/-- a * b (R68, R301): 0 * infinity is invalid. -/
def FpFormat.mul (f : FpFormat) (rm : Nat) (a b : FpVal) : Nat × FpFlags :=
  let inv := FpFlags.inv (a.isSNaN || b.isSNaN)
  match a, b with
  | .nan _, _ => (f.nan, inv)
  | _, .nan _ => (f.nan, inv)
  | .inf na, .inf nb => (f.signed (na != nb) f.infCode, FpFlags.none)
  | .inf na, .num nb mb _ => if mb == 0 then (f.nan, FpFlags.inv true) else (f.signed (na != nb) f.infCode, FpFlags.none)
  | .num na ma _, .inf nb => if ma == 0 then (f.nan, FpFlags.inv true) else (f.signed (na != nb) f.infCode, FpFlags.none)
  | .num na ma ea, .num nb mb eb => f.round rm false (na != nb) (ma * mb) (ea + eb) false

/-- The exact product as a value: NaN when a factor is one or 0 meets infinity. -/
def fpProduct (a b : FpVal) : FpVal :=
  match a, b with
  | .nan s, _ => .nan s
  | _, .nan s => .nan s
  | .inf na, .inf nb => .inf (na != nb)
  | .inf na, .num nb mb _ => if mb == 0 then .nan false else .inf (na != nb)
  | .num na ma _, .inf nb => if ma == 0 then .nan false else .inf (na != nb)
  | .num na ma ea, .num nb mb eb => .num (na != nb) (ma * mb) (ea + eb)

/-- Zero times infinity: the invalid operation of a product (R69). -/
def fpZeroTimesInf (a b : FpVal) : Bool :=
  match a, b with
  | .inf _, .num _ mb _ => mb == 0
  | .num _ ma _, .inf _ => ma == 0
  | _, _ => false

/-- a * b + c with one rounding (R301): 0 * infinity sets invalid even when c is a quiet NaN. -/
def FpFormat.fma (f : FpFormat) (rm : Nat) (a b c : FpVal) : Nat × FpFlags :=
  let inv := FpFlags.inv (a.isSNaN || b.isSNaN || c.isSNaN || fpZeroTimesInf a b)
  match fpProduct a b with
  | .nan _ => (f.nan, inv)
  | p => let (r, fl) := f.add rm false p c; (r, fl.or inv)

/-- a < b as numbers, infinities included; false when either is a NaN. -/
def FpVal.lt (a b : FpVal) : Bool :=
  match a, b with
  | .nan _, _ => false
  | _, .nan _ => false
  | .inf na, .inf nb => na && !nb
  | .inf na, .num .. => na
  | .num .., .inf nb => !nb
  | .num na ma ea, .num nb mb eb => let q := min ea eb; fpScaled na ma ea q < fpScaled nb mb eb q

/-- a = b as numbers: +0 and -0 are equal (R303). -/
def FpVal.eq (a b : FpVal) : Bool := !a.isNaN && !b.isNaN && !a.lt b && !b.lt a

/-- The sign of a number (false for a NaN). -/
def FpVal.isNeg : FpVal → Bool
  | .nan _ => false
  | .inf n => n
  | .num n _ _ => n

/-- Minimum (`big` false) or maximum (`big` true) of two codes of the format (R302): -0 < +0, a NaN gives way to a number, two NaNs
give the canonical NaN; invalid only for a signalling NaN. -/
def FpFormat.minMax (f : FpFormat) (big : Bool) (x y : Nat) : Nat × FpFlags :=
  let a := f.unpack x
  let b := f.unpack y
  let fl := FpFlags.inv (a.isSNaN || b.isSNaN)
  if a.isNaN && b.isNaN then (f.nan, fl)
  else if a.isNaN then (y % 2 ^ f.width, fl)
  else if b.isNaN then (x % 2 ^ f.width, fl)
  else
    let aLess := a.lt b || (a.eq b && a.isNeg && !b.isNeg)
    ((if aLess == !big then x else y) % 2 ^ f.width, fl)

/-- The maximum or minimum of an engine's reduction: a NaN gives the canonical NaN, and −0 < +0 (R221). -/
def FpFormat.engineMinMax (f : FpFormat) (big : Bool) (x y : Nat) : Nat :=
  if (f.unpack x).isNaN || (f.unpack y).isNaN then f.nan else (f.minMax big x y).1

/-- The integer nearest to m * 2^e in mode rm, with its sign, and whether it differs (R71, R306). -/
def fpToInt (rm : Nat) (neg : Bool) (m : Nat) (e : Int) : Int × Bool :=
  let (k, inex) := roundAt rm neg m e false 0
  ((if neg then -(k : Int) else k), inex)

/-- `frnd`: an integral value of the operand's sign, no flag but invalid for a signalling NaN (R306). -/
def fpRoundIntegral (rm : Nat) (x : Nat) : Nat × FpFlags :=
  match FpFormat.f32.unpack x with
  | .nan s => (FpFormat.f32.nan, FpFlags.inv s)
  | .inf _ => (x, FpFlags.none)
  | .num neg m e =>
    let (k, _) := roundAt rm neg m e false 0
    ((FpFormat.f32.round 0 false neg k 0 false).1, FpFlags.none)

/-- A conversion to a float format of a value (R71). -/
def FpFormat.convert (f : FpFormat) (rm : Nat) (sat : Bool) (v : FpVal) : Nat × FpFlags :=
  match v with
  | .nan s => if f.hasNaN then (f.nan, FpFlags.inv s) else (0, FpFlags.inv true)
  | .inf neg =>
    if f.ieee then (f.signed neg f.infCode, FpFlags.none)
    else if f.hasNaN then ((if sat then f.signed neg f.maxCode else f.nan), FpFlags.inv true)
    else (f.signed neg f.maxCode, FpFlags.inv true)
  | .num neg m e => f.round rm sat neg m e false

/-- Integer square root by bisection on bits, from bit `n - 1` down. -/
def isqrtGo (x : Nat) : Nat → Nat → Nat
  | 0, r => r
  | n + 1, r => let t := r + 2 ^ n; if t * t ≤ x then isqrtGo x n t else isqrtGo x n r

/-- The integer square root of x below 2^(2n). -/
def isqrt (n x : Nat) : Nat := isqrtGo x n 0

/-- `fsqrt`: correctly rounded to nearest even; inexact exactly when it differs from the exact root (R304). -/
def fpSqrt (x : Nat) : Nat × FpFlags :=
  match FpFormat.f32.unpack x with
  | .nan s => (FpFormat.f32.nan, FpFlags.inv s)
  | .inf neg => if neg then (FpFormat.f32.nan, FpFlags.inv true) else (x, FpFlags.none)
  | .num neg m e =>
    if m == 0 then (x, FpFlags.none)
    else if neg then (FpFormat.f32.nan, FpFlags.inv true)
    else
      -- m * 2^e = (m * 2^(64 + odd)) * 2^(e - 64 - odd), with an even exponent
      let odd : Nat := if e % 2 == 0 then 0 else 1
      let big := m * 2 ^ (64 + odd)
      let r := isqrt 46 big
      FpFormat.f32.round 0 false false r ((e - 64 - odd) / 2) (r * r != big)

/-- Two operand codes of f32. -/
def fp32Add (rm : Nat) (x y : Word) : Word × FpFlags :=
  let (r, fl) := FpFormat.f32.add rm false (FpFormat.f32.unpack x.toNat) (FpFormat.f32.unpack y.toNat)
  (BitVec.ofNat 32 r, fl)

def fp32Sub (rm : Nat) (x y : Word) : Word × FpFlags :=
  let (r, fl) := FpFormat.f32.add rm false (FpFormat.f32.unpack x.toNat) (FpFormat.f32.unpack y.toNat).neg
  (BitVec.ofNat 32 r, fl)

def fp32Mul (rm : Nat) (x y : Word) : Word × FpFlags :=
  let (r, fl) := FpFormat.f32.mul rm (FpFormat.f32.unpack x.toNat) (FpFormat.f32.unpack y.toNat)
  (BitVec.ofNat 32 r, fl)

def fp32Fma (rm : Nat) (x y z : Word) : Word × FpFlags :=
  let (r, fl) := FpFormat.f32.fma rm (FpFormat.f32.unpack x.toNat) (FpFormat.f32.unpack y.toNat) (FpFormat.f32.unpack z.toNat)
  (BitVec.ofNat 32 r, fl)

/-- Apply a 16-bit operation to both elements of packed words, the flags OR-ed (R64, R308). -/
def packed2 (op : Nat → Nat → Nat → Nat × FpFlags) (x y z : Word) : Word × FpFlags :=
  let lo := op (x.toNat % 65536) (y.toNat % 65536) (z.toNat % 65536)
  let hi := op (x.toNat / 65536) (y.toNat / 65536) (z.toNat / 65536)
  (BitVec.ofNat 32 (lo.1 % 65536 + 65536 * (hi.1 % 65536)), lo.2.or hi.2)

/-- The outcome of an f32 comparison (R303) and whether it sets invalid. -/
def fp32Cmp (cond : Nat) (x y : Word) : Bool × FpFlags :=
  let a := FpFormat.f32.unpack x.toNat
  let b := FpFormat.f32.unpack y.toNat
  let un := a.isNaN || b.isNaN
  let sn := a.isSNaN || b.isSNaN
  match cond with
  | 0 => (a.eq b, FpFlags.inv sn)
  | 1 => (!a.eq b, FpFlags.inv sn)
  | 2 => (a.lt b, FpFlags.inv un)
  | 3 => (!un && !b.lt a, FpFlags.inv un)
  | 4 => (b.lt a, FpFlags.inv un)
  | 5 => (!un && !a.lt b, FpFlags.inv un)
  | 6 => (un, FpFlags.inv sn)
  | _ => (!un, FpFlags.inv sn)

/-! Approximated functions (R304, R305). Which value within its stated bound each returns is not given: a free value of Config,
a fixed function of the operand, kept within the bound; where the free value falls outside it, the correctly rounded result
stands in. Reference values are computed in fixed point with 2^-128 as the unit. -/

/-- |x - y| is at most bound, for x and y multiples of one unit. -/
def within (x y bound : Int) : Bool := (x - y).natAbs ≤ bound.natAbs

/-- The unit of the fixed-point reference values: 2^-128. -/
def fixBits : Nat := 128

/-- A finite f32 as a fixed-point number, truncated toward minus infinity when it has bits below the unit. -/
def fixOf (neg : Bool) (m : Nat) (e : Int) : Int :=
  let s := e + fixBits
  let v : Int := if s ≥ 0 then m * 2 ^ s.toNat else (m : Int) / 2 ^ (-s).toNat
  if neg then -v else v

/-- Product of two fixed-point numbers. -/
def fixMul (x y : Int) : Int := x * y / 2 ^ fixBits

/-- exp by its power series, n terms from term number k, for a small argument. -/
def fixExpGo (x : Int) : Nat → Nat → Int → Int → Int
  | 0, _, _, acc => acc
  | n + 1, k, t, acc => let t' := fixMul t x / k; fixExpGo x n (k + 1) t' (acc + t')

def fixExp (x : Int) : Int := fixExpGo x 40 1 (2 ^ fixBits) (2 ^ fixBits)

/-- ln 2 in units of 2^-128. -/
def fixLn2 : Int := 0xB17217F7D1CF79ABC9E3B39803F2F6AF

/-- 2^f for f in [0, 1). -/
def fixExp2 (f : Int) : Int := fixExp (fixMul f fixLn2)

/-- n bits of log2 of x in [1, 2), by repeated squaring, most significant first. -/
def fixLog2Go : Nat → Int → Int → Int
  | 0, _, acc => acc
  | n + 1, x, acc =>
    let y := fixMul x x
    if y ≥ 2 ^ (fixBits + 1) then fixLog2Go n (y / 2) (2 * acc + 1) else fixLog2Go n y (2 * acc)

/-- pi * 2^320, truncated: enough for the exact reduction of every finite f32. -/
def piBig : Nat :=
  0x3243F6A8885A308D313198A2E03707344A4093822299F31D0082EFA98EC4E6C89452821E638D01377

/-- sin (odd 1) or cos (odd 0) by the power series, n terms, t the current term and k its degree. -/
def fixTrigGo (x2 : Int) : Nat → Nat → Int → Int → Int
  | 0, _, _, acc => acc
  | n + 1, k, t, acc =>
    let t' := -(fixMul t x2) / ((k + 1) * (k + 2) : Nat)
    fixTrigGo x2 n (k + 2) t' (acc + t')

def fixSin (x : Int) : Int := fixTrigGo (fixMul x x) 30 1 x x
def fixCos (x : Int) : Int := fixTrigGo (fixMul x x) 30 0 (2 ^ fixBits) (2 ^ fixBits)

/-- A finite magnitude m * 2^e (e at most 104) modulo 2 pi, in units of 2^-128. -/
def fixReduce (m : Nat) (e : Int) : Int :=
  let twoPi := 2 * piBig
  let x := if e + 320 ≥ 0 then m * 2 ^ (e + 320).toNat else m / 2 ^ (-(e + 320)).toNat
  ((x % twoPi) / 2 ^ 192 : Nat)

/-- The fixed-point value of an f32 code, none when it is not finite. -/
def fixOfCode (x : Nat) : Option Int :=
  match FpFormat.f32.unpack x with
  | .num neg m e => some (fixOf neg m e)
  | _ => none

/-- Round a fixed-point value to f32, to nearest. -/
def f32OfFix (v : Int) : Nat := (FpFormat.f32.roundInt 0 false v (-(fixBits : Int))).1

/-- The free value raw when it lies within bound of ref (all in units of 2^-128), else ref rounded. -/
def boundedFix (raw : Nat) (ref bound : Int) : Nat :=
  match fixOfCode raw with
  | some v => if within v ref bound then raw else f32OfFix ref
  | none => f32OfFix ref

/-- An approximated result (R304): inexact, and with underflow when it is nonzero and below the smallest normal (R69, judged on the value
delivered: log 48). -/
def approximated (n : Nat) : Word × FpFlags :=
  let mag := n % 2 ^ 31
  (BitVec.ofNat 32 n, { underflow := mag != 0 && mag < 2 ^ 23, inexact := true })

/-- `frcp` (R305). -/
def fpRcp (x : Word) : Word × FpFlags :=
  let out (n : Nat) (fl : FpFlags) : Word × FpFlags := (BitVec.ofNat 32 n, fl)
  match FpFormat.f32.unpack x.toNat with
  | .nan s => out FpFormat.f32.nan (FpFlags.inv s)
  | .inf neg => out (FpFormat.f32.signed neg 0) FpFlags.none
  | .num neg m e =>
    if m == 0 then out (FpFormat.f32.signed neg FpFormat.f32.infCode) { divZero := true }
    else
      let top := (Nat.log2 m : Int) + e
      if m == 2 ^ Nat.log2 m && -126 ≤ -top && -top ≤ 127 then
        out (FpFormat.f32.round 0 false neg 1 (-top) false).1 FpFlags.none
      else if top ≥ 126 then out (FpFormat.f32.signed neg 0) { underflow := true, inexact := true }
      else if top < -128 || (top == -128 && m == 2 ^ Nat.log2 m) then
        out (FpFormat.f32.signed neg FpFormat.f32.infCode) { overflow := true, inexact := true }
      else
        let raw := (Config.approx 0 x).toNat
        let ok := match FpFormat.f32.unpack raw with
          | .num rn rm re =>
            -- |raw * a - 1| ≤ 2^-22, in units of 2^(e + re)
            let q := e + re
            rn == neg && rm != 0 && q ≤ -22 &&
              ((m * rm : Nat) - (2 ^ (-q).toNat : Nat) : Int).natAbs ≤ 2 ^ (-q - 22).toNat
          | _ => false
        let exactRounded := (FpFormat.f32.round 0 false neg (2 ^ 80 / m) (-80 - e) (2 ^ 80 % m != 0)).1
        approximated (if ok then raw else exactRounded)

/-- `frsq` (R304): exact for a = 4^n. -/
def fpRsq (x : Word) : Word × FpFlags :=
  let out (n : Nat) (fl : FpFlags) : Word × FpFlags := (BitVec.ofNat 32 n, fl)
  match FpFormat.f32.unpack x.toNat with
  | .nan s => out FpFormat.f32.nan (FpFlags.inv s)
  | .inf neg => if neg then out FpFormat.f32.nan (FpFlags.inv true) else out 0 FpFlags.none
  | .num neg m e =>
    if m == 0 then out (FpFormat.f32.signed neg FpFormat.f32.infCode) { divZero := true }
    else if neg then out FpFormat.f32.nan (FpFlags.inv true)
    else
      let top := (Nat.log2 m : Int) + e
      if m == 2 ^ Nat.log2 m && top % 2 == 0 then out (FpFormat.f32.round 0 false false 1 (-(top / 2)) false).1 FpFlags.none
      else
        let raw := (Config.approx 1 x).toNat
        let ok := match FpFormat.f32.unpack raw with
          | .num rn rm re =>
            -- (1 - 2^-22)^2 ≤ raw^2 * a ≤ (1 + 2^-22)^2, scaled by 2^44 and by the unit 2^(e + 2 re)
            let q := e + 2 * re
            let v := m * rm * rm * 2 ^ 44
            !rn && q ≤ 0 && (2 ^ 22 - 1) ^ 2 * 2 ^ (-q).toNat ≤ v && v ≤ (2 ^ 22 + 1) ^ 2 * 2 ^ (-q).toNat
          | _ => false
        let odd : Nat := if e % 2 == 0 then 0 else 1
        -- 1 / sqrt (m * 2^odd) = sqrt (2^160 / (m * 2^odd)) * 2^-80
        let den := m * 2 ^ odd
        let r := isqrt 81 (2 ^ 160 / den)
        let rounded := (FpFormat.f32.round 0 false false r (-80 - (e - odd) / 2) true).1
        approximated (if ok then raw else rounded)

/-- `fex2` (R304). -/
def fpEx2 (x : Word) : Word × FpFlags :=
  let out (n : Nat) (fl : FpFlags) : Word × FpFlags := (BitVec.ofNat 32 n, fl)
  match FpFormat.f32.unpack x.toNat with
  | .nan s => out FpFormat.f32.nan (FpFlags.inv s)
  | .inf neg => out (if neg then 0 else FpFormat.f32.infCode) FpFlags.none
  | .num neg m e =>
    let a := FpVal.num neg m e
    if m == 0 then out 0x3F800000 FpFlags.none
    else if !a.lt (.num false 128 0) then out FpFormat.f32.infCode { overflow := true, inexact := true }
    else if a.lt (.num true 126 0) then out 0 { underflow := true, inexact := true }
    else
      let (n, inex) := fpToInt 2 neg m e
      if !inex then out (FpFormat.f32.round 0 false false 1 n false).1 FpFlags.none
      else
        let ref := fixExp2 (fixOf neg m e - n * 2 ^ fixBits)
        let raw := (Config.approx 3 x).toNat
        let ok := match FpFormat.f32.unpack raw with
          | .num rn rm re => !rn && within (fixOf false rm (re - n)) ref (ref / 2 ^ 22)
          | _ => false
        approximated (if ok then raw else (FpFormat.f32.roundInt 0 false ref (n - fixBits)).1)

/-- `flg2` (R304). -/
def fpLg2 (x : Word) : Word × FpFlags :=
  let out (n : Nat) (fl : FpFlags) : Word × FpFlags := (BitVec.ofNat 32 n, fl)
  match FpFormat.f32.unpack x.toNat with
  | .nan s => out FpFormat.f32.nan (FpFlags.inv s)
  | .inf neg => if neg then out FpFormat.f32.nan (FpFlags.inv true) else out FpFormat.f32.infCode FpFlags.none
  | .num neg m e =>
    if m == 0 then out (FpFormat.f32.signed true FpFormat.f32.infCode) { divZero := true }
    else if neg then out FpFormat.f32.nan (FpFlags.inv true)
    else
      let top := (Nat.log2 m : Int) + e
      if m == 2 ^ Nat.log2 m then out (FpFormat.f32.roundInt 0 false top 0).1 FpFlags.none
      else
        let frac := fixLog2Go 64 (m * 2 ^ (fixBits - Nat.log2 m) : Nat) 0
        let ref := top * 2 ^ fixBits + frac * 2 ^ (fixBits - 64)
        let bound := if top == -1 || top == 0 then 2 ^ (fixBits - 22) else (ref.natAbs : Int) / 2 ^ 22
        approximated (boundedFix (Config.approx 4 x).toNat ref bound)

/-- `fsin` and `fcos` (R304). -/
def fpTrig (cos : Bool) (x : Word) : Word × FpFlags :=
  let out (n : Nat) (fl : FpFlags) : Word × FpFlags := (BitVec.ofNat 32 n, fl)
  match FpFormat.f32.unpack x.toNat with
  | .nan s => out FpFormat.f32.nan (FpFlags.inv s)
  | .inf _ => out FpFormat.f32.nan (FpFlags.inv true)
  | .num neg m e =>
    if m == 0 then out (if cos then 0x3F800000 else x.toNat) FpFlags.none
    else
      let r := fixReduce m e
      let ref := if cos then fixCos r else if neg then -fixSin r else fixSin r
      approximated (boundedFix (Config.approx (if cos then 6 else 5) x).toNat ref (2 ^ (fixBits - 21)))

/-- `ftanh` (R304): the magnitude never exceeds 1.0. -/
def fpTanh (x : Word) : Word × FpFlags :=
  let out (n : Nat) (fl : FpFlags) : Word × FpFlags := (BitVec.ofNat 32 n, fl)
  match FpFormat.f32.unpack x.toNat with
  | .nan s => out FpFormat.f32.nan (FpFlags.inv s)
  | .inf neg => out (FpFormat.f32.signed neg 0x3F800000) FpFlags.none
  | .num neg m e =>
    if m == 0 then out x.toNat FpFlags.none
    else
      let one : Int := 2 ^ fixBits
      let big := !(FpVal.num false m e).lt (.num false 16 0)
      let mag := if big then one else
        -- tanh a = (1 - t) / (1 + t) with t = exp (-2a) = (exp (-a/16))^32
        let a := fixOf false m e
        let t1 := fixExp (-(a / 16))
        let t2 := fixMul t1 t1
        let t4 := fixMul t2 t2
        let t8 := fixMul t4 t4
        let t16 := fixMul t8 t8
        let t := fixMul t16 t16
        (one - t) * one / (one + t)
      let ref := if neg then -mag else mag
      let raw := (Config.approx 7 x).toNat
      let small : Bool := match fixOfCode raw with
        | some v => v.natAbs ≤ 2 ^ fixBits
        | none => false
      approximated (if small then boundedFix raw ref (2 ^ (fixBits - 21)) else f32OfFix ref)

end Sys2Proof
end

