-- ==== Sys2Proof/Machine/Integer.lean ====
section
/-! DEFINITION. The integer instructions, opcodes 0x01 to 0x14, and packing, opcode 0x09 (spec/13_register_instructions.md R292 to
R300, R312). Each `run` is the effect of one issue for a group whose checks have passed and whose due entries have committed
(R289); none sets a flag (R59). -/

namespace Sys2Proof.Machine

/-! The shapes of a register instruction (R289): every issuable lane reads its operands and writes one result. -/

/-- Each lane computes words and flags from its own operands; they go to register field n with lookahead la (R289). -/
def runLanes (g : Group) (s : State) (n count la : Nat) (f : Warp → Nat → List PWord × BitVec 5) : IssueResult :=
  match s.warpAt g.key with
  | none => .wait g.lanes id
  | some w => .done [] (writeResults s g w n count la (g.lanes.map fun l => let r := f w l; ⟨l, r.1, r.2⟩))

/-- r := f a. -/
def runUnary (d a : BitVec 7) (la : Nat) (f : Word → Word) (g : Group) (s : State) : IssueResult :=
  runLanes g s d.toNat 1 la fun w l =>
    let x := readField s g w l a.toNat
    ([⟨f x.val, x.poison⟩], 0)

/-- r := f a b. -/
def runBinary (d a b : BitVec 7) (f : Word → Word → Word) (g : Group) (s : State) : IssueResult :=
  runLanes g s d.toNat 1 0 fun w l =>
    let x := readField s g w l a.toNat
    let y := readField s g w l b.toNat
    ([⟨f x.val y.val, x.poison || y.poison⟩], 0)

/-- r := f a b d: the destination is a source too. -/
def runTernary (d a b : BitVec 7) (f : Word → Word → Word → Word) (g : Group) (s : State) : IssueResult :=
  runLanes g s d.toNat 1 0 fun w l =>
    let x := readField s g w l a.toNat
    let y := readField s g w l b.toNat
    let z := readField s g w l d.toNat
    ([⟨f x.val y.val z.val, x.poison || y.poison || z.poison⟩], 0)

/-- r.d := f a.d b.d (R299). -/
def runBinary64 (d a b : BitVec 7) (f : DWord → DWord → DWord) (g : Group) (s : State) : IssueResult :=
  runLanes g s d.toNat 2 0 fun w l =>
    let x := readPair s g w l a.toNat
    let y := readPair s g w l b.toNat
    (pairWords (f x.val y.val) (x.poison || y.poison), 0)

/-- r.d := f a.d b, with b a single register. -/
def runBinary64s (d a b : BitVec 7) (f : DWord → Word → DWord) (g : Group) (s : State) : IssueResult :=
  runLanes g s d.toNat 2 0 fun w l =>
    let x := readPair s g w l a.toNat
    let y := readField s g w l b.toNat
    (pairWords (f x.val y.val) (x.poison || y.poison), 0)

/-- r.d := f a.d b.d d.d. -/
def runTernary64 (d a b : BitVec 7) (f : DWord → DWord → DWord → DWord) (g : Group) (s : State) : IssueResult :=
  runLanes g s d.toNat 2 0 fun w l =>
    let x := readPair s g w l a.toNat
    let y := readPair s g w l b.toNat
    let z := readPair s g w l d.toNat
    (pairWords (f x.val y.val z.val) (x.poison || y.poison || z.poison), 0)

/-- p := f l, written to a predicate of every lane with its poison (R298, R303, R318). -/
def runPredicate (p : Nat) (f : Warp → Nat → Bool × Bool × BitVec 5) (g : Group) (s : State) : IssueResult :=
  match s.warpAt g.key with
  | none => .wait g.lanes id
  | some w =>
    .done [] (g.lanes.foldl (fun s l => let r := f w l; orFlags (writePred s g.key l p r.1 r.2.1) g.key l r.2.2) s)

/-! Results of R292 to R300, as functions of the operands. -/

/-- The carry out of a + b taken as n32 (R292). -/
def carryOut (a b : Word) : Word := if a.toNat + b.toNat ≥ 2 ^ 32 then 1 else 0

/-- The borrow of a - b taken as n32 (R292). -/
def borrowOut (a b : Word) : Word := if a < b then 1 else 0

/-- Bits 63:32 of the product of i32 operands (R293). -/
def mulHiSigned (a b : Word) : Word := BitVec.ofInt 32 (a.toInt * b.toInt / 2 ^ 32)

/-- Bits 63:32 of the product of n32 operands (R293). -/
def mulHiUnsigned (a b : Word) : Word := BitVec.ofNat 32 (a.toNat * b.toNat / 2 ^ 32)

/-- Bits 127:64 of the product of i64 operands (R299). -/
def mulHiSigned64 (a b : DWord) : DWord := BitVec.ofInt 64 (a.toInt * b.toInt / 2 ^ 64)

/-- Bits 127:64 of the product of n64 operands (R299). -/
def mulHiUnsigned64 (a b : DWord) : DWord := BitVec.ofNat 64 (a.toNat * b.toNat / 2 ^ 64)

/-- The smaller or larger operand, as signed or unsigned numbers (R293, R299). -/
def minSigned (a b : BitVec n) : BitVec n := if a.toInt < b.toInt then a else b
def maxSigned (a b : BitVec n) : BitVec n := if a.toInt < b.toInt then b else a
def minUnsigned (a b : BitVec n) : BitVec n := if a.toNat < b.toNat then a else b
def maxUnsigned (a b : BitVec n) : BitVec n := if a.toNat < b.toNat then b else a

/-- Shifts by a whole count: 0, or the sign fill, at the width and beyond (R294, R299). -/
def shiftLeft (a : BitVec n) (c : Nat) : BitVec n := if c ≥ n then 0 else a <<< c
def shiftRight (a : BitVec n) (c : Nat) : BitVec n := if c ≥ n then 0 else a >>> c
def shiftArith (a : BitVec n) (c : Nat) : BitVec n := if c ≥ n then (if a.msb then BitVec.allOnes n else 0) else a.sshiftRight c

/-- A rotation left by c mod 32 (R294). -/
def rotateLeft32 (a : Word) (c : Nat) : Word := a.rotateLeft (c % 32)

/-- |a| as i32; the most negative number is its own (R295). -/
def absolute (a : Word) : Word := if a.msb then 0 - a else a

/-- Leading zero bits among the n low bits, from the top (R295). -/
def leadingZeros (a : Word) : Nat → Nat
  | 0 => 0
  | n + 1 => if a.getLsbD n then 0 else leadingZeros a n + 1

/-- One bits among the n low bits (R295). -/
def oneBits (a : Word) : Nat → Nat
  | 0 => 0
  | n + 1 => oneBits a n + (if a.getLsbD n then 1 else 0)

/-- Bit i of the result is bit 31 - i of a (R295). -/
def bitReverse (a : Word) : Word := a.reverse

/-- The offset and the effective width of a bit field (R296): a field past the top bit is truncated. -/
def fieldOffset (b : Word) : Nat := (b.extractLsb' 0 8).toNat
def fieldWidth (n : Nat) (b : Word) : Nat := min (b.extractLsb' 8 8).toNat (n - fieldOffset b)

/-- `bfx`: the field, zero-extended (R296). -/
def bitField (a : BitVec n) (b : Word) : BitVec n := BitVec.ofNat n (a.toNat / 2 ^ fieldOffset b % 2 ^ fieldWidth n b)

/-- `bfxs`: the field, sign-extended from its top bit; 0 for an empty field (R296). -/
def bitFieldSigned (a : BitVec n) (b : Word) : BitVec n :=
  let we := fieldWidth n b
  let f := a.toNat / 2 ^ fieldOffset b % 2 ^ we
  if we = 0 then 0
  else if f / 2 ^ (we - 1) = 1 then BitVec.ofInt n ((f : Int) - 2 ^ we) else BitVec.ofNat n f

/-- `bfi`: d with the field replaced by the low bits of a; d for an empty field (R296). -/
def bitFieldInsert (a : BitVec n) (b : Word) (d : BitVec n) : BitVec n :=
  let o := fieldOffset b
  let we := fieldWidth n b
  let mask : BitVec n := BitVec.ofNat n ((2 ^ we - 1) * 2 ^ o)
  if we = 0 then d else (d &&& ~~~mask) ||| ((a <<< o) &&& mask)

/-- The six comparisons of R298, on signed or unsigned numbers. -/
def compareInts (cond : Nat) (a b : Int) : Bool :=
  match cond with
  | 0 => a == b
  | 1 => a != b
  | 2 => a < b
  | 3 => a ≤ b
  | 4 => a > b
  | _ => a ≥ b

/-- Element k of width n of a word, zero- or sign-extended (R312). -/
def unpackElement (n : Nat) (signed : Bool) (k : Nat) (a : Word) : Word :=
  let e := a.extractLsb' (n * k) n
  if signed then e.signExtend 32 else e.zeroExtend 32

/-- Element k of width n of d replaced by the low bits of a (R312). -/
def packElement (n k : Nat) (a d : Word) : Word :=
  let mask : Word := BitVec.ofNat 32 ((2 ^ n - 1) * 2 ^ (n * k))
  (d &&& ~~~mask) ||| ((a <<< (n * k)) &&& mask)

/-! The instructions. -/

def runAdd (d a b : BitVec 7) := runBinary d a b (· + ·)
def runSub (d a b : BitVec 7) := runBinary d a b (· - ·)
def runAddc (d a b : BitVec 7) := runBinary d a b carryOut
def runSubb (d a b : BitVec 7) := runBinary d a b borrowOut
def runAddi (d a : BitVec 7) (i : BitVec 10) := runUnary d a 0 (· + i.signExtend 32)
def runMul (d a b : BitVec 7) := runBinary d a b (· * ·)
def runMulhI32 (d a b : BitVec 7) := runBinary d a b mulHiSigned
def runMulhN32 (d a b : BitVec 7) := runBinary d a b mulHiUnsigned
def runMad (d a b : BitVec 7) := runTernary d a b fun x y z => x * y + z
def runMinI32 (d a b : BitVec 7) := runBinary d a b minSigned
def runMinN32 (d a b : BitVec 7) := runBinary d a b minUnsigned
def runMaxI32 (d a b : BitVec 7) := runBinary d a b maxSigned
def runMaxN32 (d a b : BitVec 7) := runBinary d a b maxUnsigned
def runAnd (d a b : BitVec 7) := runBinary d a b (· &&& ·)
def runOr (d a b : BitVec 7) := runBinary d a b (· ||| ·)
def runXor (d a b : BitVec 7) := runBinary d a b (· ^^^ ·)
def runShlReg (d a b : BitVec 7) := runBinary d a b fun x c => shiftLeft x c.toNat
def runShrReg (d a b : BitVec 7) := runBinary d a b fun x c => shiftRight x c.toNat
def runSarReg (d a b : BitVec 7) := runBinary d a b fun x c => shiftArith x c.toNat
def runRolReg (d a b : BitVec 7) := runBinary d a b fun x c => rotateLeft32 x c.toNat
def runShlImm (d a : BitVec 7) (c : BitVec 5) := runUnary d a 0 fun x => shiftLeft x c.toNat
def runShrImm (d a : BitVec 7) (c : BitVec 5) := runUnary d a 0 fun x => shiftRight x c.toNat
def runSarImm (d a : BitVec 7) (c : BitVec 5) := runUnary d a 0 fun x => shiftArith x c.toNat
def runRolImm (d a : BitVec 7) (c : BitVec 5) := runUnary d a 0 fun x => rotateLeft32 x c.toNat
def runAbs (d a : BitVec 7) (l : BitVec 4) := runUnary d a l.toNat absolute
def runNeg (d a : BitVec 7) (l : BitVec 4) := runUnary d a l.toNat fun x => 0 - x
def runClz (d a : BitVec 7) (l : BitVec 4) := runUnary d a l.toNat fun x => BitVec.ofNat 32 (leadingZeros x 32)
def runPopc (d a : BitVec 7) (l : BitVec 4) := runUnary d a l.toNat fun x => BitVec.ofNat 32 (oneBits x 32)
def runBrev (d a : BitVec 7) (l : BitVec 4) := runUnary d a l.toNat bitReverse
def runMov (d a : BitVec 7) (l : BitVec 4) := runUnary d a l.toNat id

/-- `pk8`, `pk4` read d (R312). -/
def runPack (n k : Nat) (d a : BitVec 7) (la : Nat) (g : Group) (s : State) : IssueResult :=
  runLanes g s d.toNat 1 la fun w l =>
    let x := readField s g w l a.toNat
    let z := readField s g w l d.toNat
    ([⟨packElement n k x.val z.val, x.poison || z.poison⟩], 0)

def runPk8 (d a : BitVec 7) (l : BitVec 4) (k : BitVec 2) := runPack 8 k.toNat d a l.toNat
def runPk4 (d a : BitVec 7) (l : BitVec 4) (k : BitVec 3) := runPack 4 k.toNat d a l.toNat
def runUpk8N (d a : BitVec 7) (l : BitVec 4) (k : BitVec 2) := runUnary d a l.toNat (unpackElement 8 false k.toNat)
def runUpk8I (d a : BitVec 7) (l : BitVec 4) (k : BitVec 2) := runUnary d a l.toNat (unpackElement 8 true k.toNat)
def runUpk4N (d a : BitVec 7) (l : BitVec 4) (k : BitVec 3) := runUnary d a l.toNat (unpackElement 4 false k.toNat)
def runUpk4I (d a : BitVec 7) (l : BitVec 4) (k : BitVec 3) := runUnary d a l.toNat (unpackElement 4 true k.toNat)

def runBfx (d a b : BitVec 7) := runBinary d a b bitField
def runBfxs (d a b : BitVec 7) := runBinary d a b bitFieldSigned
def runBfi (d a b : BitVec 7) := runTernary d a b bitFieldInsert
def runBfx64 (d a b : BitVec 7) := runBinary64s d a b bitField
def runBfxs64 (d a b : BitVec 7) := runBinary64s d a b bitFieldSigned

/-- The 64-bit `bfi` reads the pair d and the single register b (R296). -/
def runBfi64 (d a b : BitVec 7) (g : Group) (s : State) : IssueResult :=
  runLanes g s d.toNat 2 0 fun w l =>
    let x := readPair s g w l a.toNat
    let y := readField s g w l b.toNat
    let z := readPair s g w l d.toNat
    (pairWords (bitFieldInsert x.val y.val z.val) (x.poison || y.poison || z.poison), 0)

/-- `sel` reads p, a and b; all three can poison the result (R297). -/
def runSel (d a b : BitVec 7) (p : BitVec 3) (g : Group) (s : State) : IssueResult :=
  runLanes g s d.toNat 1 0 fun w l =>
    let x := readField s g w l a.toNat
    let y := readField s g w l b.toNat
    let q := readPred w l p.toNat
    ([⟨if q.1 then x.val else y.val, x.poison || y.poison || q.2⟩], 0)

/-- `cmp` (R298): f false compares as i32, true as n32. -/
def runCmp (c : BitVec 4) (p : BitVec 3) (a b : BitVec 7) (f : Bool) (g : Group) (s : State) : IssueResult :=
  runPredicate p.toNat (fun w l =>
    let x := readField s g w l a.toNat
    let y := readField s g w l b.toNat
    (if f then compareInts c.toNat x.val.toNat y.val.toNat else compareInts c.toNat x.val.toInt y.val.toInt,
     x.poison || y.poison, 0)) g s

/-- `cmp64` (R299). -/
def runCmp64 (c : BitVec 4) (p : BitVec 3) (a b : BitVec 7) (f : Bool) (g : Group) (s : State) : IssueResult :=
  runPredicate p.toNat (fun w l =>
    let x := readPair s g w l a.toNat
    let y := readPair s g w l b.toNat
    (if f then compareInts c.toNat x.val.toNat y.val.toNat else compareInts c.toNat x.val.toInt y.val.toInt,
     x.poison || y.poison, 0)) g s

/-- `movi` (R300). -/
def runMovi (d : BitVec 7) (i : BitVec 17) (g : Group) (s : State) : IssueResult :=
  runLanes g s d.toNat 1 0 fun _ _ => ([clean (i.signExtend 32)], 0)

/-- `movh` keeps d [14:0] and d's poison (R300). -/
def runMovh (d : BitVec 7) (i : BitVec 17) (g : Group) (s : State) : IssueResult :=
  runLanes g s d.toNat 1 0 fun w l =>
    let z := readField s g w l d.toNat
    ([⟨i ++ z.val.extractLsb' 0 15, z.poison⟩], 0)

def runAdd64 (d a b : BitVec 7) := runBinary64 d a b (· + ·)
def runSub64 (d a b : BitVec 7) := runBinary64 d a b (· - ·)
def runMul64 (d a b : BitVec 7) := runBinary64 d a b (· * ·)
def runMad64 (d a b : BitVec 7) := runTernary64 d a b fun x y z => x * y + z
def runShl64 (d a b : BitVec 7) := runBinary64s d a b fun x c => shiftLeft x c.toNat
def runShr64 (d a b : BitVec 7) := runBinary64s d a b fun x c => shiftRight x c.toNat
def runSar64 (d a b : BitVec 7) := runBinary64s d a b fun x c => shiftArith x c.toNat
def runMin64I64 (d a b : BitVec 7) := runBinary64 d a b minSigned
def runMin64N64 (d a b : BitVec 7) := runBinary64 d a b minUnsigned
def runMax64I64 (d a b : BitVec 7) := runBinary64 d a b maxSigned
def runMax64N64 (d a b : BitVec 7) := runBinary64 d a b maxUnsigned
def runMulh64I64 (d a b : BitVec 7) := runBinary64 d a b mulHiSigned64
def runMulh64N64 (d a b : BitVec 7) := runBinary64 d a b mulHiUnsigned64

end Sys2Proof.Machine
end

