-- ==== Sys2Proof/Machine/Floating.lean ====
section
/-! DEFINITION. The floating-point instructions, opcodes 0x15 to 0x1F, and dot products and block scales, 0x20 to 0x22
(spec/13_register_instructions.md R301 to R311; spec/03_values.md R60 to R71, R78). -/

namespace Sys2Proof.Machine

/-- r, flags := f a, with lookahead la. -/
def runFUnary (d a : BitVec 7) (la : Nat) (f : Word → Word × FpFlags) (g : Group) (s : State) : IssueResult :=
  runLanes g s d.toNat 1 la fun w l =>
    let x := readField s g w l a.toNat
    let r := f x.val
    ([⟨r.1, x.poison⟩], r.2.toBits)

/-- r, flags := f a b. -/
def runFBinary (d a b : BitVec 7) (f : Word → Word → Word × FpFlags) (g : Group) (s : State) : IssueResult :=
  runLanes g s d.toNat 1 0 fun w l =>
    let x := readField s g w l a.toNat
    let y := readField s g w l b.toNat
    let r := f x.val y.val
    ([⟨r.1, x.poison || y.poison⟩], r.2.toBits)

/-- r, flags := f a b d. -/
def runFTernary (d a b : BitVec 7) (f : Word → Word → Word → Word × FpFlags) (g : Group) (s : State) : IssueResult :=
  runLanes g s d.toNat 1 0 fun w l =>
    let x := readField s g w l a.toNat
    let y := readField s g w l b.toNat
    let z := readField s g w l d.toNat
    let r := f x.val y.val z.val
    ([⟨r.1, x.poison || y.poison || z.poison⟩], r.2.toBits)

/-- A result code as a word. -/
def fpWord (r : Nat × FpFlags) : Word × FpFlags := (BitVec.ofNat 32 r.1, r.2)

/-- The packed 16-bit format of a t bit: h16 or w16 (R275). -/
def pairFormat (t : Bool) : FpFormat := if t then .w16 else .h16

def runFadd (d a b : BitVec 7) (r : BitVec 2) := runFBinary d a b (fp32Add r.toNat)
def runFsub (d a b : BitVec 7) (r : BitVec 2) := runFBinary d a b (fp32Sub r.toNat)
def runFmul (d a b : BitVec 7) (r : BitVec 2) := runFBinary d a b (fp32Mul r.toNat)
def runFfma (d a b : BitVec 7) (r : BitVec 2) := runFTernary d a b (fp32Fma r.toNat)
def runFmin (d a b : BitVec 7) := runFBinary d a b fun x y => fpWord (FpFormat.f32.minMax false x.toNat y.toNat)
def runFmax (d a b : BitVec 7) := runFBinary d a b fun x y => fpWord (FpFormat.f32.minMax true x.toNat y.toNat)
def runHmax2 (d a b : BitVec 7) (t : Bool) :=
  runFBinary d a b fun x y => packed2 (fun p q _ => (pairFormat t).minMax true p q) x y 0
def runHmin2 (d a b : BitVec 7) (t : Bool) :=
  runFBinary d a b fun x y => packed2 (fun p q _ => (pairFormat t).minMax false p q) x y 0

/-- `fcmp` (R303). -/
def runFcmp (c : BitVec 4) (p : BitVec 3) (a b : BitVec 7) (g : Group) (s : State) : IssueResult :=
  runPredicate p.toNat (fun w l =>
    let x := readField s g w l a.toNat
    let y := readField s g w l b.toNat
    let r := fp32Cmp c.toNat x.val y.val
    (r.1, x.poison || y.poison, r.2.toBits)) g s

def runFrcp (d a : BitVec 7) (l : BitVec 4) := runFUnary d a l.toNat fpRcp
def runFrsq (d a : BitVec 7) (l : BitVec 4) := runFUnary d a l.toNat fpRsq
def runFsqrt (d a : BitVec 7) (l : BitVec 4) := runFUnary d a l.toNat fun x => fpWord (fpSqrt x.toNat)
def runFex2 (d a : BitVec 7) (l : BitVec 4) := runFUnary d a l.toNat fpEx2
def runFlg2 (d a : BitVec 7) (l : BitVec 4) := runFUnary d a l.toNat fpLg2
def runFsin (d a : BitVec 7) (l : BitVec 4) := runFUnary d a l.toNat (fpTrig false)
def runFcos (d a : BitVec 7) (l : BitVec 4) := runFUnary d a l.toNat (fpTrig true)
def runFtanh (d a : BitVec 7) (l : BitVec 4) := runFUnary d a l.toNat fpTanh
def runFrnd (d a : BitVec 7) (l : BitVec 4) (r : BitVec 2) :=
  runFUnary d a l.toNat fun x => fpWord (fpRoundIntegral r.toNat x.toNat)

/-! Conversions (R71, R307). -/

/-- The float format of a conversion code (R279), none for an integer code. -/
def cvtFloat : Nat → Option FpFormat
  | 0 => some .f32
  | 1 => some .h16
  | 2 => some .w16
  | 3 => some .m8
  | 4 => some .m8w
  | 5 => some .m4
  | _ => none

/-- Width and signedness of an integer conversion code (R279). -/
def cvtInt : Nat → Nat × Bool
  | 6 => (32, true)
  | 7 => (32, false)
  | 8 => (16, true)
  | 9 => (16, false)
  | 10 => (8, true)
  | 11 => (8, false)
  | _ => (4, true)

/-- The bounds of an integer type. -/
def intMin (t : Nat × Bool) : Int := if t.2 then -(2 ^ (t.1 - 1)) else 0
def intMax (t : Nat × Bool) : Int := if t.2 then 2 ^ (t.1 - 1) - 1 else 2 ^ t.1 - 1

/-- An integer clamped to a type's range (R59). -/
def intClamp (t : Nat × Bool) (v : Int) : Int := if v < intMin t then intMin t else if v > intMax t then intMax t else v

/-- An integer held in a register as its type: the low bits, sign- or zero-extended (R58, R307). -/
def holdInt (t : Nat × Bool) (v : Int) : Word :=
  let low := (v % 2 ^ t.1).toNat
  if t.2 && low ≥ 2 ^ (t.1 - 1) then BitVec.ofInt 32 ((low : Int) - 2 ^ t.1) else BitVec.ofNat 32 low

/-- The integer that a register's low bits hold in a type (R307). -/
def readInt (t : Nat × Bool) (x : Word) : Int :=
  let low := x.toNat % 2 ^ t.1
  if t.2 && low ≥ 2 ^ (t.1 - 1) then (low : Int) - 2 ^ t.1 else low

/-- `fcvt` from code src to code tgt (R71, R307). A float is rounded before its value is held against an integer target's range, and one
out of range sets invalid alone (DEDUCED, log 48). -/
def fpConvert (tgt src rm : Nat) (sat : Bool) (x : Word) : Word × FpFlags :=
  match cvtFloat src, cvtFloat tgt with
  | some fs, some ft => fpWord (ft.convert rm sat (fs.unpack x.toNat))
  | none, some ft =>
    let v := readInt (cvtInt src) x
    if v == 0 then (0, FpFlags.none) else fpWord (ft.round rm sat (v < 0) v.natAbs 0 false)
  | some fs, none =>
    let t := cvtInt tgt
    match fs.unpack x.toNat with
    | .nan _ => (0, FpFlags.inv true)
    | .inf neg => (holdInt t (if neg then intMin t else intMax t), FpFlags.inv true)
    | .num neg m e =>
      let (v, inex) := fpToInt rm neg m e
      if v < intMin t || v > intMax t then (holdInt t (intClamp t v), FpFlags.inv true)
      else (holdInt t v, { inexact := inex })
  | none, none =>
    let t := cvtInt tgt
    let v := readInt (cvtInt src) x
    (holdInt t (if sat then intClamp t v else v), FpFlags.none)

def runFcvt (d a : BitVec 7) (t src : BitVec 4) (r : BitVec 2) := runFUnary d a 0 (fpConvert t.toNat src.toNat r.toNat false)
def runFcvtSat (d a : BitVec 7) (t src : BitVec 4) (r : BitVec 2) := runFUnary d a 0 (fpConvert t.toNat src.toNat r.toNat true)

/-! Packed 16-bit (R308). -/

def runHadd2 (d a b : BitVec 7) (t : Bool) :=
  let f := pairFormat t
  runFBinary d a b fun x y => packed2 (fun p q _ => f.add 0 false (f.unpack p) (f.unpack q)) x y 0
def runHmul2 (d a b : BitVec 7) (t : Bool) :=
  let f := pairFormat t
  runFBinary d a b fun x y => packed2 (fun p q _ => f.mul 0 (f.unpack p) (f.unpack q)) x y 0
def runHfma2 (d a b : BitVec 7) (t : Bool) :=
  let f := pairFormat t
  runFTernary d a b fun x y z => packed2 (fun p q r => f.fma 0 (f.unpack p) (f.unpack q) (f.unpack r)) x y z

/-! Dot products and block scales (R309 to R311). -/

/-- The n signed elements of width b of a word, element 0 first (R63, R64). -/
def signedElements (b n : Nat) (x : Word) : List Int := (List.range n).map fun k => (x.extractLsb' (b * k) b).toInt

/-- The codes of the n elements of width b of a word (R64). -/
def elementCodes (b n : Nat) (x : Word) : List Nat := (List.range n).map fun k => (x.extractLsb' (b * k) b).toNat

/-- The exact integer dot product (R309). -/
def intDot (b n : Nat) (x y : Word) : Int := (((signedElements b n x).zip (signedElements b n y)).map fun (p, q) => p * q).sum

def runDot4 (d a b : BitVec 7) := runTernary d a b fun x y z => z + BitVec.ofInt 32 (intDot 8 4 x y)
def runDot8 (d a b : BitVec 7) := runTernary d a b fun x y z => z + BitVec.ofInt 32 (intDot 4 8 x y)

/-- The sign bits of the infinite products of a list of element pairs. -/
def infiniteSigns (ps : List (FpVal × FpVal)) : List Bool :=
  ps.filterMap fun (x, y) => match fpProduct x y with
    | .inf n => some n
    | _ => none

/-- A finite product as an integer multiple of 2^q; 0 for the others. -/
def productAt (q : Int) (x y : FpVal) : Int :=
  match fpProduct x y with
  | .num n m e => fpScaled n m e q
  | _ => 0

/-- The minifloat dot product (R310): special results in their order, else the exact sum rounded once to nearest even. 2^-40 is a
unit that every product of R310's formats is a multiple of. -/
def fpDot (fa fb : FpFormat) (n : Nat) (x y : Word) : Word × FpFlags :=
  let ps := ((elementCodes fa.width n x).map fa.unpack).zip ((elementCodes fb.width n y).map fb.unpack)
  let infs := infiniteSigns ps
  let zeroInf := ps.any fun (p, q) => fpZeroTimesInf p q
  let both := infs.contains true && infs.contains false
  let inv := ps.any (fun (p, q) => p.isSNaN || q.isSNaN) || zeroInf || both
  if ps.any (fun (p, q) => p.isNaN || q.isNaN) || zeroInf || both then (BitVec.ofNat 32 FpFormat.f32.nan, FpFlags.inv inv)
  else match infs with
    | neg :: _ => (BitVec.ofNat 32 (FpFormat.f32.signed neg FpFormat.f32.infCode), FpFlags.none)
    | [] => fpWord (FpFormat.f32.roundInt 0 false ((ps.map fun (p, q) => productAt (-40) p q).sum) (-40))

def runDotm4 (d a b : BitVec 7) := runFBinary d a b (fpDot .m4 .m4 8)

/-- The formats of `dotm8` by f (R275). -/
def dotm8Formats (f : Nat) : FpFormat × FpFormat :=
  match f with
  | 0 => (.m8, .m8)
  | 1 => (.m8w, .m8w)
  | 2 => (.m8, .m8w)
  | _ => (.m8w, .m8)

def runDotm8 (d a b : BitVec 7) (f : BitVec 2) := runFBinary d a b (fpDot (dotm8Formats f.toNat).1 (dotm8Formats f.toNat).2 4)

/-- `sclb` (R311): a × 2^(s - 127), exact, added to d with one rounding. -/
def scaleAdd (k : Nat) (a b d : Word) : Word × FpFlags :=
  let sc := (b.extractLsb' (8 * k) 8).toNat
  if sc = 0xFF then (BitVec.ofNat 32 FpFormat.f32.nan, FpFlags.inv true)
  else
    let t := match FpFormat.f32.unpack a.toNat with
      | .num n m e => FpVal.num n m (e + sc - 127)
      | v => v
    fpWord (FpFormat.f32.add 0 false (FpFormat.f32.unpack d.toNat) t)

def runSclb (d a b : BitVec 7) (k : BitVec 2) := runFTernary d a b fun x y z => scaleAdd k.toNat x y z

end Sys2Proof.Machine
end

