-- ==== Sys2Proof/Machine/CrossLane.lean ====
section
/-! DEFINITION. Cross-lane instructions, opcodes 0x23 to 0x27 (spec/01_work_and_places.md R27 to R30; spec/13 R313 to R317). A lane
arrives and parks in one issue; the complete set executes in another, which releases its lanes. -/

namespace Sys2Proof.Machine

/-- The physical lanes of a visible lane (R31). -/
def physLanes (w : Warp) (v : Nat) : List Nat := if w.protected' then [2 * v, 2 * v + 1] else [v]

/-- An instruction that parks its lanes until a member mask has arrived (R27). -/
def isCrossLane (i : Instr) : Bool := 0x23 ≤ i.opcode && i.opcode ≤ 0x27

/-- Lane l stands parked at a cross-lane instruction at address pc. -/
def parkedAt (w : Warp) (l : Nat) (pc : VAddr) : Bool :=
  match (w.lane l).park with
  | some p => isCrossLane p.instr && (w.lane l).pc == pc && !(w.lane l).held
  | none => false

/-- A named lane counts as arrived: parked at the address, or absent, or exited (R27, R29). -/
def arrivedAt (w : Warp) (l : Nat) (pc : VAddr) : Bool := !(w.lane l).present || (w.lane l).exited || parkedAt w l pc

/-- The visible lanes a mask names (R31: bits above the width are ignored). -/
def maskLanes (w : Warp) (m : Word) : List Nat := (List.range w.width).filter fun v => m.getLsbD v

/-- The lanes that execute together with parked lane l once its mask is complete (R27, R28): every parked lane its mask names, and
l's own pair; none while a named lane has not arrived. -/
def crossSet (w : Warp) (l : Nat) : Option (List Nat) :=
  match (w.lane l).park with
  | none => none
  | some p =>
    let pc := (w.lane l).pc
    let named := maskLanes w p.mask
    if parkedAt w l pc && named.all (fun v => (physLanes w v).all fun x => arrivedAt w x pc) then
      some ((List.range 32).filter fun x => parkedAt w x pc && (named.contains (w.visible x) || w.visible x == w.visible l))
    else none

/-- Park the lanes of a group at the instruction they issue (R27): PC and repeat index stay, the mask is read now (R313). -/
def parkLanes (i : Instr) (mask : Warp → Nat → PWord) (g : Group) (s : State) : State :=
  match s.warpAt g.key with
  | none => s
  | some w => g.lanes.foldl (fun s l =>
      let m := mask w l
      s.onLanes g.key [l] fun x => { x with pc := x.pc - 4, rep := g.rep, park := some ⟨i, m.val, m.poison⟩ }) s

/-- Release parked lanes. -/
def unpark (s : State) (k : Nat) (lanes : List Nat) : State := s.onLanes k lanes fun x => { x with park := none }

/-- A lane of an executing set disagrees: its mask differs from the lowest lane's, or does not name it (R28). -/
def maskDisagrees (w : Warp) (first : Word) (l : Nat) : Bool :=
  match (w.lane l).park with
  | some p => !((List.range w.width).all fun v => p.mask.getLsbD v == first.getLsbD v) || !p.mask.getLsbD (w.visible l)
  | none => true

/-- Execute a complete set of parked lanes (R28): `g.lanes` are its lanes, whose PCs have passed the word; `sigs` gives what protected
mode compares between the lanes of a pair (R33). -/
def crossExecute (sigs : Warp → Group → List Sig) (exec : Warp → Bool → Group → State → State) (g : Group) (s : State) : IssueResult :=
  match s.warpAt g.key with
  | none => .wait g.lanes id
  | some w =>
    match (w.lane (g.lanes.headD 0)).park with
    | none => .done [] s
    | some p0 =>
      let bad := g.lanes.filter (maskDisagrees w p0.mask)
      if bad.isEmpty then
        let mp := g.lanes.any fun l => match (w.lane l).park with
          | some p => p.poison
          | none => false
        .done (sigs w g) (exec w mp g (unpark s g.key g.lanes))
      else
        let low := (bad.map w.visible).headD 0
        .trap (sigs w g) (bad.map fun l => (l, ⟨6, 0x09, low * 16⟩))

/-- The set that an arriving lane completes, which executes within the same issue (R27): every lane of it lowers its countdowns for its
release, those whose arrival completes it also, so that a commit does not depend on the order of arrival (R51, R52), and every PC
passes the word. Nothing happens when the set is not complete or must wait for a commit. -/
def joinSet (set : Warp → Nat → Option (List Nat)) (exec : Group → State → IssueResult) (g : Group) (s : State) (l : Nat) : IssueResult :=
  match s.warpAt g.key with
  | none => .done [] s
  | some w =>
    match set w l with
    | none => .done [] s
    | some lanes =>
      if lanes.any (commitBlocked w) then .done [] s
      else
        let g' := { g with lanes := lanes }
        match exec g' ((commitDue s g').onLanes g.key lanes fun x => { x with pc := x.pc + 4, rep := 0 }) with
        | .wait _ _ => .done [] s
        | r => r

/-- Arrive at an instruction that a set of lanes executes together: park, then execute each set that this completes (R27, R352). -/
def arrive (i : Instr) (mask : Warp → Nat → PWord) (set : Warp → Nat → Option (List Nat)) (exec : Group → State → IssueResult)
    (g : Group) (s : State) : IssueResult :=
  g.lanes.foldl (fun r l => match r with
    | .done sigs s => (match (s.warpAt g.key).bind fun w => (w.lane l).park with
      | some _ => (match joinSet set exec g s l with
        | .done more s => .done (sigs ++ more) s
        | r => r)
      | none => .done sigs s)
    | r => r) (.done [] (parkLanes i mask g s))

/-- A cross-lane instruction: the issue of a lane parks it, and a set that it completes executes within that issue; a set completed
otherwise (an exit) executes as an issue of its own (R27, R28). `sigs` gives what protected mode compares (R33); `exec` takes the warp,
the participants and whether any mask was poisoned. -/
def crossCompared (sigs : Warp → Group → List Sig) (i : Instr) (d : BitVec 7) (exec : Warp → Bool → Group → State → State) (g : Group)
    (s : State) : IssueResult :=
  match s.warpAt g.key with
  | none => .wait g.lanes id
  | some w =>
    match (w.lane (g.lanes.headD 0)).park with
    | none => arrive i (fun w l => readField s g w l d.toNat) crossSet (crossExecute sigs exec) g s
    | some _ => crossExecute sigs exec g s

/-- A cross-lane instruction whose operands are not compared. -/
def crossLane (i : Instr) (d : BitVec 7) (exec : Warp → Bool → Group → State → State) : Group → State → IssueResult :=
  crossCompared (fun _ _ => []) i d exec

/-- The participants among which lane l acts: in protected mode primaries and shadows each act among themselves (R31). -/
def peers (w : Warp) (lanes : List Nat) (l : Nat) : List Nat := if w.protected' then lanes.filter (· % 2 == l % 2) else lanes

/-- The source lane of `shfl` (R314), as a visible lane number. -/
def shuffleSource (width mode l : Nat) (b : Word) : Int :=
  match mode with
  | 0 => (b.toNat % width : Nat)
  | 1 => ((l : Int) + b.toInt) % (width : Int)
  | 2 => (l : Int) + b.toInt
  | _ => (l ^^^ (b.toNat % width) : Nat)

def runShfl (i : Instr) (d a b : BitVec 7) (f : BitVec 2) : Group → State → IssueResult :=
  crossLane i d fun w mp g s =>
    writeResults s g w d.toNat 1 0 (g.lanes.map fun l =>
      let y := readField s g w l b.toNat
      let src := shuffleSource w.width f.toNat (w.visible l) y.val
      let own := readField s g w l a.toNat
      let r := match (peers w g.lanes l).find? fun x => (w.visible x : Int) == src with
        | some x => let v := readField s g w x a.toNat; (⟨v.val, v.poison || y.poison⟩ : PWord)
        | none => own
      ⟨l, [⟨r.val, r.poison || mp⟩], 0⟩)

/-- The participants' source predicates (R315), as visible lane, value and poison: the primary lanes' only in protected mode (R33). -/
def voteValues (w : Warp) (lanes : List Nat) (n : Bool) (src : BitVec 3) : List (Nat × Bool × Bool) :=
  (accessLanes w lanes).map fun x => let p := readPred w x src.toNat; (w.visible x, p.1 != n, p.2)

/-- What protected mode compares of a vote: the source predicate and the mask (R33; as data: DEDUCED, log 47). -/
def voteSigs (src : BitVec 3) (w : Warp) (g : Group) : List Sig :=
  if w.protected' then
    g.lanes.map fun l => ⟨l, 2, [(readPred w l src.toNat).1.toNat, match (w.lane l).park with
      | some p => p.mask.toNat
      | none => 0]⟩
  else []

def runVoteBallot (i : Instr) (d : BitVec 7) (n : Bool) (src : BitVec 3) : Group → State → IssueResult :=
  crossCompared (voteSigs src) i d fun w mp g s =>
    writeResults s g w d.toNat 1 0 (g.lanes.map fun l =>
      let vs := voteValues w g.lanes n src
      ⟨l, [⟨BitVec.ofNat 32 ((vs.filter (·.2.1)).map fun v => 2 ^ v.1).sum, mp || vs.any (·.2.2)⟩], 0⟩)

/-- `vote.all`, `.any`, `.eq`: a predicate in every participant (R315). -/
def runVotePred (i : Instr) (d : BitVec 7) (n : Bool) (src q : BitVec 3) (f : List Bool → Bool) : Group → State → IssueResult :=
  crossCompared (voteSigs src) i d fun w mp g s =>
    g.lanes.foldl (fun s l =>
      let vs := voteValues w g.lanes n src
      writePred s g.key l q.toNat (f (vs.map (·.2.1))) (mp || vs.any (·.2.2))) s

def runVoteAll (i : Instr) (d : BitVec 7) (n : Bool) (src q : BitVec 3) := runVotePred i d n src q fun vs => vs.all id
def runVoteAny (i : Instr) (d : BitVec 7) (n : Bool) (src q : BitVec 3) := runVotePred i d n src q fun vs => vs.any id
def runVoteEq (i : Instr) (d : BitVec 7) (n : Bool) (src q : BitVec 3) := runVotePred i d n src q fun vs => vs.all id || !vs.any id

/-- One step of a lane reduction (R316). -/
def laneOp (op : Nat) (x y : Word) : Word :=
  match op with
  | 0 => x + y
  | 1 => (fp32Add 0 x y).1
  | 2 => minSigned x y
  | 3 => maxSigned x y
  | 4 => minUnsigned x y
  | 5 => maxUnsigned x y
  | 6 => BitVec.ofNat 32 (FpFormat.f32.minMax false x.toNat y.toNat).1
  | 7 => BitVec.ofNat 32 (FpFormat.f32.minMax true x.toNat y.toNat).1
  | 8 => x &&& y
  | 9 => x ||| y
  | _ => x ^^^ y

/-- The identity of a lane reduction (R316). -/
def laneIdentity (op : Nat) : Word :=
  match op with
  | 2 => 0x7FFFFFFF#32
  | 3 => 0x80000000#32
  | 4 => 0xFFFFFFFF#32
  | 6 => 0x7F800000#32
  | 7 => 0xFF800000#32
  | 8 => 0xFFFFFFFF#32
  | _ => 0#32

/-- The first operand of a lane reduction: a NaN that a floating-point operation delivers is the canonical one (R62). -/
def laneFirst (op : Nat) (x : Word) : Word :=
  if (op == 1 || op == 6 || op == 7) && (FpFormat.f32.unpack x.toNat).isNaN then 0x7FC00000#32 else x

/-- A reduction in ascending lane order that never takes the identity as an operand, but for an empty list (R316). -/
def foldLanes (op : Nat) : List Word → Word
  | [] => laneIdentity op
  | x :: xs => xs.foldl (laneOp op) (laneFirst op x)

/-- The operands of a lane reduction among lane l's peers: visible lane, value, poison. -/
def laneValues (s : State) (g : Group) (w : Warp) (a : BitVec 7) (l : Nat) : List (Nat × PWord) :=
  (peers w g.lanes l).map fun x => (w.visible x, readField s g w x a.toNat)

def runLred (i : Instr) (d a : BitVec 7) (la : BitVec 4) (o : BitVec 4) : Group → State → IssueResult :=
  crossLane i d fun w mp g s =>
    writeResults s g w d.toNat 1 la.toNat (g.lanes.map fun l =>
      let vs := laneValues s g w a l
      ⟨l, [⟨foldLanes o.toNat (vs.map (·.2.val)), mp || vs.any (·.2.poison)⟩], 0⟩)

def runLscan (i : Instr) (d a : BitVec 7) (la : BitVec 4) (x : Bool) (o : BitVec 4) : Group → State → IssueResult :=
  crossLane i d fun w mp g s =>
    writeResults s g w d.toNat 1 la.toNat (g.lanes.map fun l =>
      let vs := laneValues s g w a l
      let me := w.visible l
      let r := if x then ((vs.filter fun v => v.1 < me).map (·.2.val)).foldl (laneOp o.toNat) (laneIdentity o.toNat)
        else foldLanes o.toNat ((vs.filter fun v => v.1 ≤ me).map (·.2.val))
      ⟨l, [⟨r, mp || vs.any (·.2.poison)⟩], 0⟩)

/-- The mask of the visible lanes of a list. -/
def laneMask (vs : List Nat) : Word := BitVec.ofNat 32 (vs.map fun v => 2 ^ v).sum

def runMatchW (i : Instr) (d a : BitVec 7) : Group → State → IssueResult :=
  crossLane i d fun w mp g s =>
    writeResults s g w d.toNat 1 0 (g.lanes.map fun l =>
      let vs := laneValues s g w a l
      let own := (readField s g w l a.toNat).val
      ⟨l, [⟨laneMask ((vs.filter fun v => v.2.val == own).map (·.1)), mp || vs.any (·.2.poison)⟩], 0⟩)

def runMatch64 (i : Instr) (d a : BitVec 7) : Group → State → IssueResult :=
  crossLane i d fun w mp g s =>
    writeResults s g w d.toNat 1 0 (g.lanes.map fun l =>
      let vs := (peers w g.lanes l).map fun x => (w.visible x, readPair s g w x a.toNat)
      let own := (readPair s g w l a.toNat).val
      ⟨l, [⟨laneMask ((vs.filter fun v => v.2.val == own).map (·.1)), mp || vs.any (·.2.poison)⟩], 0⟩)

/-- `fmtv`: the participants that differ from the lowest (R317). -/
def runFmtv (i : Instr) (d a : BitVec 7) : Group → State → IssueResult :=
  crossLane i d fun w mp g s =>
    writeResults s g w d.toNat 1 0 (g.lanes.map fun l =>
      let vs := laneValues s g w a l
      let first := ((vs.map (·.2.val)).headD 0)
      ⟨l, [⟨laneMask ((vs.filter fun v => v.2.val != first).map (·.1)), mp || vs.any (·.2.poison)⟩], 0⟩)

/-- `cvg` writes nothing: its execution releases the participants (R317). -/
def runCvg (i : Instr) (d : BitVec 7) : Group → State → IssueResult := crossLane i d fun _ _ _ s => s

end Sys2Proof.Machine
end

