-- ==== Sys2Proof/Machine/Control.lean ====
section
/-! DEFINITION. Predicate logic, control flow, special-register reads and the window, opcodes 0x28 to 0x2C, 0x2E, 0x2F
(spec/13_register_instructions.md R318 to R323). -/

namespace Sys2Proof.Machine

/-- A predicate of two optionally negated sources (R318). -/
def runPredLogic (d : BitVec 3) (n : Bool) (a : BitVec 3) (m : Bool) (b : BitVec 3) (f : Bool → Bool → Bool) :
    Group → State → IssueResult :=
  runPredicate d.toNat fun w l =>
    let x := readPred w l a.toNat
    let y := readPred w l b.toNat
    (f (x.1 != n) (y.1 != m), x.2 || y.2, 0)

def runPand (d : BitVec 3) (n : Bool) (a : BitVec 3) (m : Bool) (b : BitVec 3) := runPredLogic d n a m b (· && ·)
def runPor (d : BitVec 3) (n : Bool) (a : BitVec 3) (m : Bool) (b : BitVec 3) := runPredLogic d n a m b (· || ·)
def runPxor (d : BitVec 3) (n : Bool) (a : BitVec 3) (m : Bool) (b : BitVec 3) := runPredLogic d n a m b (· != ·)

/-- `pnot` has one source (R318). -/
def runPnot (d : BitVec 3) (n : Bool) (a : BitVec 3) : Group → State → IssueResult :=
  runPredicate d.toNat fun w l =>
    let x := readPred w l a.toNat
    (!(x.1 != n), x.2, 0)

/-- Set the PC of every lane that takes a branch; the others stay past the word. -/
def takeBranch (g : Group) (s : State) (taken : Nat → Bool) (target : VAddr) : State :=
  g.lanes.foldl (fun s l => if taken l then setPc s g.key l target else s) s

/-- The target of a branch word at pc: off20 words away (R271). -/
def branchTarget (pc : VAddr) (o : BitVec 20) : VAddr := pc + 4 * o.signExtend 57

/-- `bra` (R319): a poisoned predicate, p7 excepted, is a consumption of kind 2. -/
def runBra (p : BitVec 3) (n : Bool) (o : BitVec 20) (g : Group) (s : State) : IssueResult :=
  match s.warpAt g.key with
  | none => .wait g.lanes id
  | some w =>
    let fails := laneFails g.lanes fun l => failIf (readPred w l p.toNat).2 (failContain 2 0)
    if fails.isEmpty then .done [] (takeBranch g s (fun l => (readPred w l p.toNat).1 != n) (branchTarget g.pc o))
    else .trap [] fails

/-- `brp` tests the poison bit alone (R319). -/
def runBrp (p : BitVec 3) (n : Bool) (o : BitVec 20) (g : Group) (s : State) : IssueResult :=
  match s.warpAt g.key with
  | none => .wait g.lanes id
  | some w => .done [] (takeBranch g s (fun l => (readPred w l p.toNat).2 != n) (branchTarget g.pc o))

/-- `call` writes the return address and jumps (R320). -/
def runCall (d : BitVec 7) (i : BitVec 17) (g : Group) (s : State) : IssueResult :=
  match s.warpAt g.key with
  | none => .wait g.lanes id
  | some w =>
    let back := pairWords ((g.pc + 4).zeroExtend 64) false
    let s := writeResults s g w d.toNat 2 0 (g.lanes.map fun l => ⟨l, back, 0⟩)
    .done [] (takeBranch g s (fun _ => true) (g.pc + 4 * i.signExtend 57))

/-- The checks of a jump target in a pair (R320): poison, alignment, range. -/
def targetFail (field : Nat) (t : PDWord) : Option Fail :=
  firstFail [failIf t.poison (failContain 2 field),
    failIf (t.val.toNat % 4 != 0) (failAlign 5 t.val.toNat),
    failIf (t.val.toNat / 2 ^ 57 != 0) (failPage 10 t.val.toNat 3 false)]

/-- `ret` and `jmp` set PC := a.d (R320). -/
def runJump (a : BitVec 7) (g : Group) (s : State) : IssueResult :=
  match s.warpAt g.key with
  | none => .wait g.lanes id
  | some w =>
    let target (l : Nat) : PDWord := readPair s g w l a.toNat
    let fails := laneFails g.lanes fun l => targetFail a.toNat (target l)
    if fails.isEmpty then
      .done [] (g.lanes.foldl (fun s l => setPc s g.key l ((target l).val.truncate 57)) s)
    else .trap [] fails

def runRet (a : BitVec 7) := runJump a
def runJmp (a : BitVec 7) := runJump a

/-- `nop` changes nothing but the PC (R321). -/
def runNop (_ : Group) (s : State) : IssueResult := .done [] s

/-! Special registers (R55, R322). -/

/-- Double word n of the launch record of a warp's grid (R216). -/
def State.launchWord (s : State) (w : Warp) (n : Nat) : DWord :=
  match s.work.groups.find w.wg with
  | some wg => match s.work.grids.find wg.grid with
    | some gr => gr.record.getD n 0
    | none => 0
  | none => 0

/-- The extents X, Y, Z of a warp's grid (R13, R216). -/
def State.extents (s : State) (w : Warp) : Nat × Nat × Nat :=
  let r := (s.launchWord w 2).toNat
  (bits 31 0 r, bits 47 32 r, bits 63 48 r)

/-- The coordinates of the work-group: its id is x + X·(y + Y·z) (R13). -/
def State.coords (s : State) (w : Warp) : Nat × Nat × Nat :=
  let id := (s.wgId w).toNat
  let (x, y, _) := s.extents w
  (id % x, id / x % y, id / x / y)

/-- The value of a special register for one lane (R55). -/
def readSpecial (s : State) (g : Group) (w : Warp) (l n : Nat) : Nat :=
  match n with
  | 0x000 => (s.cyc (g.core / 32)).toNat
  | 0x001 => s.clk.ref.toNat
  | 0x010 => (w.lane l).flags.toNat
  | 0x011 => (w.lane l).window
  | 0x012 => w.base * 16 + w.sizeCode
  | 0x013 => w.mode.toNat
  | 0x014 => g.core
  | 0x015 => g.slot
  | 0x016 => w.lsn.toNat
  | 0x017 => w.ctx.toNat
  | 0x018 => (s.wgId w).toNat
  | 0x019 => (s.coords w).1
  | 0x01A => (s.coords w).2.1 + 65536 * (s.coords w).2.2
  | 0x01B => (s.extents w).1
  | 0x01C => (s.extents w).2.1 + 65536 * (s.extents w).2.2
  | 0x020 => w.trap.cause.toNat
  | 0x021 => w.trap.epc.toNat
  | 0x022 => w.trap.emask.toNat
  | 0x023 => w.trap.erep.toNat
  | 0x024 => w.trap.einfo.toNat
  | 0x025 => w.trap.eskid.toNat
  | _ => 0

/-- `rsr` (R322). -/
def runRsr (d : BitVec 7) (i : BitVec 10) (g : Group) (s : State) : IssueResult :=
  let n := (srClass i).width
  runLanes g s d.toNat n 0 fun w l =>
    let v := readSpecial s g w l i.toNat
    (if n = 2 then pairWords (BitVec.ofNat 64 v) false else [clean (BitVec.ofNat 32 v)], 0)

/-- `wbase` (R323): w' := a + imm as i32; out of range is the window-overrun trap with the a field. -/
def runWbase (word : Nat) (a : BitVec 7) (i : BitVec 10) (g : Group) (s : State) : IssueResult :=
  match s.warpAt g.key with
  | none => .wait g.lanes id
  | some w =>
    let new (l : Nat) : Int := ((readField s g w l a.toNat).val + i.signExtend 32).toInt
    let fails := laneFails g.lanes fun l =>
      firstFail [failIf (new l < 0 || new l > 15 || 32 * new l ≥ w.size) ⟨4, 0x03, word + a.toNat * 2 ^ 32⟩,
        failIf (readField s g w l a.toNat).poison (failContain 1 a.toNat)]
    if fails.isEmpty then
      .done [] (g.lanes.foldl (fun s l => s.onLanes g.key [l] fun x => { x with window := (new l).toNat }) s)
    else .trap [] fails

end Sys2Proof.Machine
end

