-- ==== Sys2Proof/Machine/Access.lean ====
section
/-! DEFINITION. Accesses of threads: the checks before issue (spec/14_memory_instructions.md R324, R325), and the operations that an
issue puts in flight, with what each must follow (spec/06_memory_order.md R126 to R136). -/

namespace Sys2Proof.Machine

/-! Operations in flight. -/

/-- An operation is outstanding: a load not yet bound, a write not yet acknowledged, an exchange store not yet applied, or an engine
command (by its serial) that has not completed. -/
def State.pending (s : State) (id : Nat) : Bool :=
  (s.mem.ops.find id).isSome || (s.mem.exchStores.any fun x => x.id == id) || s.eng.copy.any fun c => c.id == id && c.status.isNone

/-- Keep the ids that are still outstanding. -/
def State.stillPending (s : State) (ids : List Nat) : List Nat := ids.filter s.pending

/-- The agent of an operation. -/
def MemOp.agent : MemOp → Agent
  | .load o => o.agent
  | .write o => o.agent

def MemOp.pa : MemOp → Nat
  | .load o => o.pa
  | .write o => o.pa

def MemOp.size : MemOp → Nat
  | .load o => o.size
  | .write o => o.data.length

def MemOp.kind : MemOp → Nat
  | .load o => o.kind
  | .write o => o.kind

def MemOp.isLoad : MemOp → Bool
  | .load _ => true
  | .write _ => false

/-- Two byte ranges meet. -/
def overlaps (a n b m : Nat) : Bool := a < b + m && b < a + n

/-- The operations outstanding of one thread, oldest first (ids rise). -/
def State.threadOps (s : State) (t : Agent) : List (Nat × MemOp) := s.mem.ops.filter fun (_, o) => o.agent == t

/-- The exchange stores of a thread that are on their way. -/
def State.exchOf (s : State) : Agent → List Nat
  | .thread c sl n l => s.mem.exchStores.filterMap fun x => if x.warp == warpKey c sl n && x.lane == l then some x.id else none
  | _ => []

/-- What fences and acquires make an access of a page kind follow: acquires do not order U pages (R134, R135). -/
def Lane.accessOrder (x : Lane) (kind : Nat) : List Nat := x.accessAfter ++ if kind == 2 then [] else x.acquireAfter

/-- The outstanding operations that a new load must follow (R131): same bytes, or both on S pages; what fences and acquires add. -/
def loadAfter (s : State) (x : Lane) (t : Agent) (pa n kind : Nat) : List Nat :=
  let own := (s.threadOps t).flatMap fun (id, o) =>
    if o.kind == 0 && kind == 0 then [id]
    else if overlaps o.pa o.size pa n then
      match o with
      | .load _ => [id]
      | .write w => if w.atom.isSome then [id] else w.after
    else []
  s.stillPending (own ++ x.accessOrder kind ++ x.loadAfter)

/-- The outstanding operations before which a new write becomes visible to no observer (R131): every earlier load, earlier writes
when both lie on S pages; what fences, acquires and releases add. -/
def storeAfter (s : State) (x : Lane) (t : Agent) (kind : Nat) : List Nat :=
  let own := (s.threadOps t).filterMap fun (id, o) =>
    if o.isLoad || (o.kind == 0 && kind == 0) then some id else none
  s.stillPending (own ++ x.accessOrder kind ++ if kind == 2 then [] else x.storeAfter)

/-- The outstanding operations that count as earlier accesses of a fence or release at a scope (R129, R134 to R136): at core scope a
plain store is performed at its issue; from die scope on the writes that loads returned count too. An exchange store is performed at
its pass (R138). `u` includes U pages. -/
def fenceSet (s : State) (x : Lane) (t : Agent) (scope : Nat) (u : Bool) : List Nat :=
  let own := (s.threadOps t).filterMap fun (id, o) =>
    let plain := match o with
      | .write w => w.atom.isNone
      | .load _ => false
    if (!u && o.kind == 2) || (scope == 0 && plain) then none else some id
  s.stillPending (own ++ s.exchOf t ++ (if scope == 0 then [] else x.seen))

/-! Checks of a global or constant access. -/

/-- One lane's access that has passed its checks: the lane, its virtual and physical address, its translation. -/
structure LaneAccess where
  lane : Nat
  va : Nat
  pa : Nat
  entry : TlbEntry

/-- What the checks of a memory instruction answer. -/
inductive AccessPlan where
  | fail (fs : List (Nat × Fail))
  | wait (ask : State → State)
  | go (as : List LaneAccess)

/-- The global (false) or constant segment's base, limit and code (R324). -/
def segmentOf (w : Warp) (constant : Bool) : Nat × Nat × Nat :=
  if constant then (w.segs.cbase.toNat, w.segs.clim.toNat, 4) else (w.segs.gbase.toNat, w.segs.glim.toNat, 0)

/-- Lane l's address in a segment: base + offset as a 64-bit sum (R324). -/
def segmentAddr (s : State) (g : Group) (w : Warp) (a : BitVec 7) (constant : Bool) (l : Nat) : Nat :=
  ((segmentOf w constant).1 + (readPair s g w l a.toNat).val.toNat) % 2 ^ 64

/-- The checks of ranks 5, 8 and 9 of one lane's access of n bytes (R325), with the instruction's own. -/
def segmentFail (s : State) (g : Group) (w : Warp) (n : Nat) (a : BitVec 7) (constant aligned : Bool)
    (extra : Nat → List (Option Fail)) (l : Nat) : Option Fail :=
  let o := readPair s g w l a.toNat
  let va := segmentAddr s g w a constant l
  let (_, lim, code) := segmentOf w constant
  firstFail ([failIf o.poison (failContain 1 a.toNat)] ++ extra l ++
    [failIf (aligned && va % n != 0) (failAlign code va), failIf (o.val.toNat + n > lim) (failSegment code o.val.toNat)])

/-- The whole of R325 for a global or constant access of n bytes at offset a.d, with access code for R247. -/
def planAccess (s : State) (g : Group) (w : Warp) (n access : Nat) (a : BitVec 7) (constant aligned : Bool)
    (extra : Nat → List (Option Fail)) : AccessPlan :=
  let early := laneFails g.lanes (segmentFail s g w n a constant aligned extra)
  if !early.isEmpty then .fail early
  else
    let trs := g.lanes.map fun l =>
      let va := segmentAddr s g w a constant l
      (l, va, translateFor s g.core w.ctx.toNat 10 va access w.system)
    let missing := trs.filter fun (_, _, f, e) => f.isNone && e.isNone
    if !missing.isEmpty then
      .wait fun s => missing.foldl (fun s (_, va, _, _) => s.askWalk g.core w.ctx.toNat va access) s
    else
      let bad := trs.filterMap fun (l, _, f, _) => f.map (l, ·)
      if !bad.isEmpty then .fail bad
      else .go (trs.filterMap fun (l, va, _, e) => e.map fun e => ⟨l, va, s.locate e va, e⟩)

/-- The comparison of the lanes' addresses (R32). -/
def addrSigs (s : State) (g : Group) (w : Warp) (a : BitVec 7) (constant : Bool) : List Sig :=
  g.lanes.map fun l => ⟨l, 1, [segmentAddr s g w a constant l]⟩

/-- Fill the L1 TLB with the translations an issue used. -/
def State.useEntries (s : State) (core : Nat) (as : List LaneAccess) : State := as.foldl (fun s a => s.fillL1Tlb core a.entry) s

/-- The thread that makes lane l's access. -/
def Group.agent (g : Group) (l : Nat) : Agent := .thread g.core g.slot g.warp l

/-- Add an operation in flight. -/
def State.addOp (s : State) (id : Nat) (o : MemOp) : State := { s with mem := { s.mem with ops := s.mem.ops.insert id o } }

/-- Change an operation in flight. -/
def State.onOp (s : State) (id : Nat) (f : MemOp → MemOp) : State := { s with mem := { s.mem with ops := s.mem.ops.adjust id f } }

/-- An operation has ended: a load is bound, a write is acknowledged. -/
def State.dropOp (s : State) (id : Nat) : State := { s with mem := { s.mem with ops := s.mem.ops.erase id } }

/-! Sizes (R279). -/

/-- Bytes of a size code. -/
def sizeBytes (code : Nat) : Nat :=
  match code with
  | 0 | 1 => 1
  | 2 | 3 => 2
  | 4 => 4
  | 5 => 8
  | _ => 16

/-- The words a load of a size code delivers (R328): zero- or sign-extended, or a pair or quad. -/
def loadWords (code : Nat) (bytes : List Byte) (poison : Nat → Bool) : List PWord :=
  let v := leNat bytes
  match code with
  | 0 | 2 => [⟨BitVec.ofNat 32 v, poison 0⟩]
  | 1 => [⟨(BitVec.ofNat 8 v).signExtend 32, poison 0⟩]
  | 3 => [⟨(BitVec.ofNat 16 v).signExtend 32, poison 0⟩]
  | _ => (List.range (bytes.length / 4)).map fun i => ⟨BitVec.ofNat 32 (v / 2 ^ (32 * i)), poison i⟩

/-- The data bytes a store of n bytes takes from its registers (R330). -/
def storeBytes (n : Nat) (vs : List PWord) : List Byte := leBytes n (vs.foldr (fun v acc => v.val.toNat + 2 ^ 32 * acc) 0)

/-! Loads in flight. -/

/-- Put a load in flight for each access (R328): with a lookahead a commit entry waits for it, otherwise its lanes wait. For a scalar
destination the first access, the lowest lane's, brings the value (R45). -/
def issueLoads (s : State) (g : Group) (w : Warp) (d : BitVec 7) (code hint la : Nat) (as : List LaneAccess) : State × List Nat :=
  let la := if w.inHandler then 0 else la
  let count := (sizeBytes code + 3) / 4
  as.zipIdx.foldl (fun (s, ids) (a, i) =>
    let (id, s) := s.take
    let mine := shareLanes w a.lane
    let second := isScalarDest d.toNat && i != 0
    let entry := la != 0 && !second
    let lanes := if second then mine else if isScalarDest d.toNat && la == 0 then g.lanes else mine
    let dest := if second then .discard else destOf w a.lane d.toNat count
    let after := loadAfter s (w.lane a.lane) (g.agent a.lane) a.pa (sizeBytes code) a.entry.kind
    let s := s.addOp id (.load ⟨g.agent a.lane, a.pa, sizeBytes code, code, a.entry.kind, hint, dest, entry, lanes, after, false,
      a.entry.mirror, BitVec.ofNat 57 a.va, g.pc, g.rep⟩)
    let s := if entry then
        let owners := if isScalarDest d.toNat then [a.lane] else mine
        s.onLanes g.key owners fun x => { x with commits := x.commits ++
          [⟨dest, la + 1, none, 0, some ⟨g.pc, g.rep, BitVec.ofNat 57 a.va⟩, some id⟩] }
      else if la != 0 then s
      else s.onLanes g.key lanes fun x => { x with loads := x.loads ++ [id] }
    (s, ids ++ [id])) (s, [])

/-- The class of an L1 line after an access (R101): hint 0 normal, 1 evict-first, 2 evict-last. -/
def classAfter (cls hint : Nat) : Nat :=
  match cls, hint with
  | 1, h => h
  | 0, 2 => 2
  | 0, _ => 0
  | c, _ => c

/-- A line's class after `cdemote` (R101). -/
def classDemoted (cls : Nat) : Nat := if cls == 2 then 0 else cls

/-- A global or constant load (R327, R328). -/
def runLoad (a d : BitVec 7) (la : BitVec 4) (code hint : Nat) (constant : Bool) (acquire : Option Nat) (g : Group) (s : State) :
    IssueResult :=
  match s.warpAt g.key with
  | none => .wait g.lanes id
  | some w =>
    let sigs := addrSigs s g w a constant
    match planAccess s g w (sizeBytes code) 0 a constant true (fun _ => []) with
    | .fail fs => .trap sigs fs
    | .wait ask => .wait g.lanes ask
    | .go as =>
      let as := as.filter fun x => (accessLanes w g.lanes).contains x.lane
      let s := s.useEntries g.core as
      let (s, ids) := issueLoads s g w d code hint la.toNat as
      match acquire with
      | none => .done sigs s
      | some _ =>
        -- an acquire on a C or S page: every later access of the thread but to a U page follows the load (R135, R329)
        .done sigs ((as.zip ids).foldl (fun s (x, id) =>
          if x.entry.kind == 2 then s
          else s.onLanes g.key (shareLanes w x.lane) fun y => { y with acquireAfter := s.stillPending y.acquireAfter ++ [id] }) s)

def runLdG (d a : BitVec 7) (l : BitVec 4) (sz : BitVec 3) (h : BitVec 2) := runLoad a d l sz.toNat h.toNat false none
def runLdC (d a : BitVec 7) (l : BitVec 4) (sz : BitVec 3) (h : BitVec 2) := runLoad a d l sz.toNat h.toNat true none
def runLdAcq (d a : BitVec 7) (l : BitVec 4) (sz c : BitVec 3) := runLoad a d l sz.toNat 0 false (some c.toNat)

/-! Scratch and exchange accesses (R81 to R85, R90, R138). -/

/-- What a lane's scratch or exchange access waits for: what fences and acquires made it follow (R134, R135), and its own exchange stores,
which are performed in program order (R138). -/
def localOrder (s : State) (g : Group) (w : Warp) (l : Nat) : List Nat := (w.lane l).accessOrder 0 ++ s.exchOf (g.agent l)

/-- The lanes whose scratch or exchange load waits; with the compatibility bit also for what control makes it follow (R132). -/
def orderedLanes (s : State) (g : Group) (w : Warp) (lanes : List Nat) : List Nat :=
  lanes.filter fun l => !(s.stillPending (localOrder s g w l ++ (w.lane l).loadAfter)).isEmpty

/-- A scratch store also waits behind the thread's earlier loads (R131: load, then store) and releases (R135). -/
def orderedStoreLanes (s : State) (g : Group) (w : Warp) (lanes : List Nat) : List Nat :=
  lanes.filter fun l =>
    !(s.stillPending (localOrder s g w l ++ (w.lane l).storeAfter)).isEmpty ||
      (s.threadOps (g.agent l)).any fun (_, o) => o.isLoad

/-- The checks of a scratch (1) or exchange (2) access of n bytes at offset a (R324, R325). -/
def localFail (s : State) (g : Group) (w : Warp) (n : Nat) (a : BitVec 7) (space lim : Nat)
    (extra : Nat → List (Option Fail)) (l : Nat) : Option Fail :=
  let o := readField s g w l a.toNat
  firstFail ([failIf o.poison (failContain 1 a.toNat)] ++ extra l ++
    [failIf (o.val.toNat % n != 0) (failAlign space o.val.toNat), failIf (o.val.toNat + n > lim) (failSegment space o.val.toNat)])

/-- The comparison of the lanes' offsets (R32). -/
def offsetSigs (s : State) (g : Group) (w : Warp) (a : BitVec 7) : List Sig :=
  g.lanes.map fun l => ⟨l, 1, [(readField s g w l a.toNat).val.toNat]⟩

/-- The comparison of the n bytes of data that the lanes store (R32, R330). -/
def dataSigs (s : State) (g : Group) (w : Warp) (d : BitVec 7) (n : Nat) : List Sig :=
  g.lanes.map fun l => ⟨l, 2, [leNat (storeBytes n (readRegs s g w l d.toNat ((n + 3) / 4)))]⟩

/-- Words of a load from storage on chip, each with the OR of the poison of the memory words that supply it (R328). -/
def localWords (m : Mem) (code addr : Nat) : List PWord :=
  loadWords code (m.readBytes addr (sizeBytes code)) fun i => (m.poisoned ((addr + 4 * i) / 4))

/-- A load performed at its pass: its value is there at issue (R328, R129). -/
def runLocalLoad (a d : BitVec 7) (la : BitVec 4) (code space : Nat) (lim : Warp → Nat) (fetch : State → Warp → Nat → List PWord)
    (g : Group) (s : State) : IssueResult :=
  match s.warpAt g.key with
  | none => .wait g.lanes id
  | some w =>
    let sigs := offsetSigs s g w a
    let fails := laneFails g.lanes (localFail s g w (sizeBytes code) a space (lim w) (fun _ => []))
    let late := orderedLanes s g w g.lanes
    if !fails.isEmpty then .trap sigs fails
    else if !late.isEmpty then .wait late id
    else .done sigs (writeResults s g w d.toNat ((sizeBytes code + 3) / 4) la.toNat
      (g.lanes.map fun l =>
        let src := if w.protected' then l / 2 * 2 else l
        ⟨l, fetch s w (readField s g w src a.toNat).val.toNat, 0⟩))

/-- `ld.s`: physical offset sbase + o (R324). -/
def runLdS (d a : BitVec 7) (l : BitVec 4) (sz : BitVec 3) (g : Group) (s : State) : IssueResult :=
  runLocalLoad a d l sz.toNat 1 (·.segs.slim.toNat) (fun s w o =>
    localWords s.mem.scratch sz.toNat (scratchAddr g.core (w.segs.sbase.toNat + o))) g s

/-- `ld.x`: offset xbase + o of the front bank (R90, R324). -/
def runLdX (d a : BitVec 7) (l : BitVec 4) (sz : BitVec 3) (g : Group) (s : State) : IssueResult :=
  runLocalLoad a d l sz.toNat 2 (·.segs.xlim.toNat) (fun s w o =>
    let off := w.segs.xbase.toNat + o
    localWords s.mem.exch sz.toNat (exchAddr g.core (s.exchBank g.core off false) off)) g s

/-- Poisoned store data is a consumption of kind 3 (R331). -/
def dataFail (s : State) (g : Group) (w : Warp) (d : BitVec 7) (count : Nat) (l : Nat) : List (Option Fail) :=
  [failIf (anyPoison (readRegs s g w l d.toNat count)) (failContain 3 d.toNat)]

/-- `st.s`: performed at its pass, lanes in ascending order so that the highest lane's byte remains, and their byte enables merged (R81,
R82, R331). -/
def runStS (d a : BitVec 7) (sz : BitVec 3) (g : Group) (s : State) : IssueResult :=
  match s.warpAt g.key with
  | none => .wait g.lanes id
  | some w =>
    let n := sizeBytes sz.toNat
    let count := (n + 3) / 4
    let sigs := offsetSigs s g w a ++ dataSigs s g w d n
    let fails := laneFails g.lanes (localFail s g w n a 1 w.segs.slim.toNat (dataFail s g w d count))
    let late := orderedStoreLanes s g w g.lanes
    if !fails.isEmpty then .trap sigs fails
    else if !late.isEmpty then .wait late id
    else .done sigs (s.onScratch fun m => m.writePass 4 ((accessLanes w g.lanes).map fun l =>
      (scratchAddr g.core (w.segs.sbase.toNat + (readField s g w l a.toNat).val.toNat), storeBytes n (readRegs s g w l d.toNat count))))

/-! Stores in flight (R331, R128, R190). -/

/-- An operation in flight that is an atomic or a reduction. -/
def State.isAtom (s : State) (id : Nat) : Bool :=
  match s.mem.ops.find id with
  | some (.write w) => w.atom.isSome
  | _ => false

/-- A queue entry takes one more operation: a plain write always, an atomic while fewer than 16 are merged (R189). -/
def entryTakes (s : State) (e : QueueEntry) (atom : Bool) : Bool := !atom || (e.ops.filter s.isAtom).length < 16

/-- A slice's write queue can take a write to a line: a free entry, or one for the line that takes it (R189). -/
def queueHasRoom (s : State) (line : Nat) (atom : Bool) : Bool :=
  let slice := sliceOfLine line
  let mine := s.mem.queue.filter fun e => sliceOfLine e.line == slice
  mine.length < 64 || mine.any fun e => e.line == line && entryTakes s e atom

/-- A core's store port is stopped: a write of the core that may go stands behind a full write queue (R190). -/
def State.portStopped (s : State) (core : Nat) : Bool :=
  s.mem.ops.any fun (_, o) => match o with
    | .write w => w.stage == .port && (s.stillPending w.after).isEmpty && !queueHasRoom s (lineOf w.pa) w.atom.isSome && match w.agent with
        | .thread c _ _ _ => c == core
        | _ => false
    | .load _ => false

/-- The lanes whose store does not issue: its core's store port is stopped, or its slice's queue is full (R190, R326). -/
def fullLanes (s : State) (core : Nat) (atom : Bool) (as : List LaneAccess) : List Nat :=
  (as.filter fun a => s.portStopped core || !queueHasRoom s (lineOf a.pa) atom).map (·.lane)

/-- The core's own copy of a line takes the bytes of a store: a sector that they cover is clean after it (R123, R331). -/
def L1Line.store (l : L1Line) (pa : Nat) (data : List Byte) : L1Line :=
  l.apply (byteMask (pa % 128) data.length) (patch (List.replicate 128 0) (pa % 128) data) 0 (sectorBits (sectorsCovered (pa % 128) data.length))

/-- Put a write in flight for lane access a. A plain store with nothing to follow updates the core's own L1 copy at once (R331);
the copy has been used (R102), and its class changes by the hint (R101). -/
def issueWrite (s : State) (g : Group) (w : Warp) (a : LaneAccess) (data : List Byte) (atom : Option (AtomOp × Nat × Nat))
    (dest : Dest) (lanes : List Nat) (graft : Option (List Nat)) (hint : Nat) (after : List Nat) (batch : Option Nat) : State × Nat :=
  let (id, s) := s.take
  let s := s.addOp id (.write ⟨g.agent a.lane, a.pa, data, false, atom, dest, lanes, none, a.entry.kind, a.entry.mirror, graft, after,
    .port, g.pc, w.lsn, w.rings.length, w.ctx.toNat, batch⟩)
  let s := s.onL1 g.core (lineOf a.pa) fun x =>
    let x := if atom.isNone then { x with cls := classAfter x.cls hint, age := id } else x
    if after.isEmpty && atom.isNone then x.store a.pa data else x
  (if after.isEmpty && atom.isNone then s.wakeCore g.core (lineOf a.pa) else s, id)

/-- `st.g`, `st.rel` and `gft` (R331, R333): `release` is the scope of a release; `cores` gives a graft's receivers. -/
def runStore (a d : BitVec 7) (n access hint : Nat) (release : Option Nat) (extra : Warp → Nat → List (Option Fail))
    (cores : Warp → Nat → Option (List Nat)) (moreSigs : Warp → List Sig) (g : Group) (s : State) : IssueResult :=
  match s.warpAt g.key with
  | none => .wait g.lanes id
  | some w =>
    let count := (n + 3) / 4
    let sigs := addrSigs s g w a false ++ dataSigs s g w d n ++ moreSigs w
    match planAccess s g w n access a false true (fun l => dataFail s g w d count l ++ extra w l) with
    | .fail fs => .trap sigs fs
    | .wait ask => .wait g.lanes ask
    | .go as =>
      let as := as.filter fun x => (accessLanes w g.lanes).contains x.lane
      let full := fullLanes s g.core false as
      if !full.isEmpty then .wait g.lanes id
      else
        let s0 := s
        .done sigs (as.foldl (fun s x =>
          let data := storeBytes n (readRegs s0 g w x.lane d.toNat count)
          let rel := match release with
            | some scope => if x.entry.kind == 2 then [] else fenceSet s (w.lane x.lane) (g.agent x.lane) scope false
            | none => []
          let after := storeAfter s (w.lane x.lane) (g.agent x.lane) x.entry.kind ++ rel
          (issueWrite s g w x data none .discard [] (cores w x.lane) hint after.dedup (some s0.fresh)).1) (s.useEntries g.core as))

def runStG (d a : BitVec 7) (sz : BitVec 3) (h : BitVec 2) :=
  runStore a d (sizeBytes sz.toNat) 1 h.toNat none (fun _ _ => []) (fun _ _ => none) (fun _ => [])
def runStRel (d a : BitVec 7) (sz c : BitVec 3) :=
  runStore a d (sizeBytes sz.toNat) 1 0 (some c.toNat) (fun _ _ => []) (fun _ _ => none) (fun _ => [])

end Sys2Proof.Machine
end

