-- ==== Sys2Proof/Machine/Slice.lean ====
section
/-! DEFINITION. Home slices and L1 data caches (spec/05_package_memories.md R114 to R119, R123; spec/04 R99 to R103; spec/08 R189; spec/09
R226, R227; spec/14 R335, R336): what each step between an access's issue and its acknowledgement does. -/

namespace Sys2Proof.Machine

/-! Agents and updates. -/

/-- The core of a thread that makes an access. -/
def Agent.core : Agent → Option Nat
  | .thread c _ _ _ | .cache c => some c
  | _ => none

/-- A write in flight, by number. -/
def State.writeOp (s : State) (id : Nat) : Option WriteOp :=
  match s.mem.ops.find id with
  | some (.write w) => some w
  | _ => none

/-- A load in flight, by number. -/
def State.loadOp (s : State) (id : Nat) : Option LoadOp :=
  match s.mem.ops.find id with
  | some (.load o) => some o
  | _ => none

/-- A holding update is under way on a line (R115). -/
def State.lineHeld (s : State) (line : Nat) : Bool := (s.lineUpdates line).any fun (_, u) => u.hold

/-- Bytes of a line held at a core: applied there by an update that is not acknowledged (R115). -/
def State.heldAt (s : State) (core line : Nat) (mask : BitVec 128) : Bool :=
  (s.lineUpdates line).any fun (_, u) => u.hold && u.applied.contains core && (u.mask &&& mask) != 0

/-- The bytes of a line in gather mode that other cores' masks hold (R117). -/
def othersMask (l : L2Line) (core : Nat) : BitVec 128 :=
  match l.gather with
  | some (_, ms) => ms.foldl (fun b (c, m) => if c == core then b else b ||| m) 0
  | none => 0

/-- The bytes of an access within its line. -/
def MemOp.mask (o : MemOp) : BitVec 128 := byteMask (o.pa % 128) o.size

/-! Die boundaries (05 R120, 08 R207, 18 R406). -/

/-- The die link between two neighbouring dies (R244). -/
def linkBetween (a b : Nat) : Option Nat :=
  match min a b, max a b with
  | 0, 1 => some 0
  | 2, 3 => some 1
  | 0, 2 => some 2
  | 1, 3 => some 3
  | _, _ => none

/-- A link offers no new flit: held, or in training, and not mapped out. -/
def DieLink.closed (l : DieLink) : Bool := (l.held || l.training) && !l.out

/-- A die's clock-crossing FIFOs stall. -/
def State.dieStalled (s : State) (die : Nat) : Bool :=
  match s.clk.dies[die]? with
  | some d => d.stallEnd.isSome
  | none => false

/-- Traffic between two dies waits: their link is held, or the FIFOs of one of them stall. -/
def State.crossHeld (s : State) (a b : Nat) : Bool :=
  a != b && (s.dieStalled a || s.dieStalled b || match linkBetween a b with
    | some j => (s.links.getD j DieLink.init).closed
    | none => false)

/-- The die of a line's home slice. -/
def dieOfLine (line : Nat) : Nat := sliceOfLine line / 32

/-- The die that an agent's accesses come from; none from outside the C-dies. -/
def State.agentDie (s : State) : Agent → Option Nat
  | .thread c _ _ _ => some (c / 32)
  | .engine id => (s.eng.copy.find? fun (c : CopyCmd) => c.id == id).bind fun c => c.engine.map (· / 16)
  | _ => none

/-- An agent's traffic with a line's home waits. -/
def State.agentHeld (s : State) (a : Agent) (line : Nat) : Bool :=
  match s.agentDie a with
  | some d => s.crossHeld d (dieOfLine line)
  | none => false

/-! Replacement (R102). -/

/-- The lines of a set of an L1. -/
def l1Set (s : State) (core set : Nat) : List (Nat × L1Line) :=
  (s.mem.l1.filter fun (k, _) => k / 2 ^ 45 == core && k % 2 ^ 45 % 128 == set).map fun (k, l) => (k % 2 ^ 45, l)

/-- The older of two lines. -/
def olderLine (a b : Nat × L1Line) : Nat × L1Line := if b.2.age < a.2.age then b else a

/-- The least recently used line of a class in a set. -/
def oldestOf (cls : Nat) (ls : List (Nat × L1Line)) : Option Nat :=
  match ls.filter fun l => l.2.cls == cls with
  | [] => none
  | x :: xs => some (xs.foldl olderLine x).1

/-- What a fill replaces: nothing, a line, or no way is free to a graft fill, which never replaces an evict-last line (R102, R118). -/
inductive Victim where
  | free
  | line (l : Nat)
  | full

def l1Victim (s : State) (core line : Nat) (graft : Bool) : Victim :=
  let ls := l1Set s core (line % 128)
  if ls.length < 16 then .free
  else match oldestOf 1 ls with
    | some l => .line l
    | none => match oldestOf 0 ls with
      | some l => .line l
      | none => if graft then .full else
        match oldestOf 2 ls with
        | some l => .line l
        | none => .free

/-- Register a core as a sharer of a line (R115). -/
def State.addSharer (s : State) (core line : Nat) : State :=
  { s with mem := { s.mem with l2 := s.mem.l2.adjust line fun l => { l with sharers := l.sharers ||| (1#128 <<< core) } } }

/-- Remove a core from a line's sharers. -/
def State.removeSharer (s : State) (core line : Nat) : State :=
  { s with mem := { s.mem with l2 := s.mem.l2.adjust line fun l => { l with sharers := l.sharers &&& ~~~(1#128 <<< core) } } }

/-- Fill a line into a core's L1 from its home: in gather mode the bytes of other cores' masks are invalid (R115, R117). -/
def State.fillL1 (s : State) (core line cls : Nat) (grafted : Bool) : State :=
  let (age, s) := s.take
  let s := match s.l1Line core line, l1Victim s core line grafted with
    | none, .line v => s.loseL1 core v true
    | _, _ => s
  let (data, poison) := s.homeLine line
  let valid := match s.mem.l2.find line with
    | some l => ~~~(othersMask l core)
    | none => BitVec.allOnes 128
  let entry : L1Line := ⟨data, valid, poison, cls, age, grafted⟩
  let s := s.touchL2 line
  (State.addSharer { s with mem := { s.mem with l1 := s.mem.l1.insert (l1Key core line) entry } } core line)

/-! Loads: fills and values (R115, R126, R128, R328). -/

/-- The loads of a core's threads that stand at a line. -/
def coreLoads (s : State) (core line : Nat) : List (Nat × LoadOp) :=
  s.mem.ops.filterMap fun (id, o) =>
    match o with
    | .load l => if l.agent.core == some core && lineOf l.pa == line then some (id, l) else none
    | .write _ => none

/-- A load finds its bytes in its core's L1. -/
def l1Hit (s : State) (core : Nat) (o : LoadOp) : Bool :=
  match s.l1Line core (lineOf o.pa) with
  | some l => (byteMask (o.pa % 128) o.size &&& ~~~l.valid) == 0
  | none => false

/-- Loads of a core that miss at a line. -/
def missingLoads (s : State) (core line : Nat) : List (Nat × LoadOp) :=
  (coreLoads s core line).filter fun (_, o) => !l1Hit s core o

/-! The pseudo-channels (R124, R438, R440). -/

/-- The slice of a pseudo-channel (R113). -/
def sliceOfChannel (pc : Nat) : Nat := 32 * (pc / 1024) + 16 * (pc / 512 % 2) + pc % 512 / 32

/-- The slice of a line serves no request: a drop of one of its pseudo-channels is copying (R440). -/
def State.sliceCopying (s : State) (line : Nat) : Bool := s.dram.copying.any fun c => sliceOfChannel c == sliceOfLine line

/-- The bank of a line takes a command now: no drop, no pause for repair, no refresh of it and none forced (R124, R438, R440). -/
def State.dramOpen (s : State) (line : Nat) : Bool :=
  let pc := s.channelOf line
  !s.sliceCopying line && !(s.dram.pauses.any fun x => x.1 == pc / 8) && !(s.dram.forced.any fun x => x.1 == pc) &&
    (s.dram.banks.getD (s.bankKey line) Bank.init).runEnd.isNone

/-- The home slice holds every sector of a line. -/
def slicePresent (s : State) (line : Nat) : Bool :=
  match s.mem.l2.find line with
  | some l => l.have' == 15#4
  | none => false

/-- A read of a line at its slice waits: an update holds it (R115), or its bank takes no command for what the slice lacks (R124). -/
def State.lineWaits (s : State) (line : Nat) : Bool := s.lineHeld line || (!slicePresent s line && !s.dramOpen line)

/-- Reads at home slices: a line that its slice holds has been used (R114), another is a request to the stacks (R124). -/
def State.readThrough (s : State) (lines : List Nat) : State :=
  lines.foldl (fun s line => if slicePresent s line then s.touchL2 line else s.dramRequest line) s

/-- A load touches bytes that another core's gather mask holds: an overlapping access (R117). -/
def gatherConflict (s : State) (core line : Nat) (mask : BitVec 128) : Bool :=
  match s.mem.l2.find line with
  | some l => (othersMask l core &&& mask) != 0
  | none => false

/-- A fill of a line into a core's L1 can take place now (R115, R117). -/
def l1FillReady (s : State) (core line : Nat) : Bool :=
  let miss := missingLoads s core line
  !miss.isEmpty && slicePresent s line && !s.sliceCopying line && !s.lineHeld line && !s.mem.notices.contains (core, line) &&
    !s.crossHeld (core / 32) (dieOfLine line) && miss.any fun (_, o) => !gatherConflict s core line (byteMask (o.pa % 128) o.size)

/-- The sectors of a line are poisoned at its home. -/
def linePoisoned (s : State) (line : Nat) : Bool := (s.homeLine line).2 != 0

/-- L1_FILL. A fill that only prefetches serve does nothing when a sector is poisoned (R338). -/
def l1FillEffect (s : State) (core line : Nat) : State :=
  let miss := missingLoads s core line
  let only := miss.all (·.2.prefetch)
  let s := if only && linePoisoned s line then s
    else s.fillL1 core line ((miss.head?.map (·.2.hint)).getD 0) false
  miss.foldl (fun s (id, o) => if o.prefetch then s.dropOp id else s) s

/-- The stores of a core's own threads that its loads see before their home has applied them, oldest first (R128). -/
def ownStores (s : State) (core line : Nat) : List WriteOp :=
  s.mem.ops.filterMap fun (_, o) =>
    match o with
    | .write w =>
      if w.agent.core == some core && w.atom.isNone && w.stage != .applied && lineOf w.pa == line &&
        (s.stillPending w.after).isEmpty then some w else none
    | .load _ => none

/-- The bytes of a line as a core sees them: a copy with its own stores over it. -/
def overlayStores (ws : List WriteOp) (data : List Byte) : List Byte := ws.foldl (fun d w => patch d (w.pa % 128) w.data) data

/-- The unacknowledged writes whose bytes a read of n bytes by a core may have returned (R136). -/
def writesSeen (s : State) (core pa n : Nat) : List Nat :=
  s.mem.ops.filterMap fun (id, w) =>
    match w with
    | .write w =>
      if overlaps w.pa w.data.length pa n && (w.stage == .applied || w.agent.core == some core) then some id else none
    | .load _ => none

/-- Those of a load. -/
def seenWrites (s : State) (core : Nat) (o : LoadOp) : List Nat := writesSeen s core o.pa o.size

/-- Lanes have read these unacknowledged writes: their releases wait for them (R136). -/
def State.noteSeen (s : State) (k : Nat) (lanes seen : List Nat) : State :=
  s.onLanes k lanes fun x => { x with seen := (s.stillPending (x.seen ++ seen)).dedup }

/-- The load can be performed: what it must follow has ended, its bytes are in L1, none is held (R115, R131). -/
def loadReady (s : State) (core : Nat) (o : LoadOp) : Bool :=
  o.agent.core == some core && !o.prefetch && (s.stillPending o.after).isEmpty && l1Hit s core o &&
    !s.heldAt core (lineOf o.pa) (byteMask (o.pa % 128) o.size)

/-- Deliver words to what waits for operation `id`: a commit entry, or lanes held by it (R51, R328, R335). -/
def deliver (s : State) (agent : Agent) (id : Nat) (lanes : List Nat) (dest : Dest) (vals : List PWord) : State :=
  match agent with
  | .thread c sl n _ =>
    let k := warpKey c sl n
    match s.warpAt k with
    | none => s
    | some w =>
      let waiting := lanes.filter fun l => (w.lane l).loads.contains id
      let targets := match dest with
        | .s _ _ => waiting.take 1
        | _ => waiting
      let s := targets.foldl (fun s l => writeDest s c sl n l dest vals) s
      s.onWarp k fun w => { w with lanes := w.lanes.map fun x =>
        { x with loads := x.loads.filter (· != id)
                 commits := x.commits.map fun e => if e.op == some id then { e with value := some vals, op := none } else e } }
  | _ => s

/-- LOAD_VALUE_ARRIVAL. -/
def loadArrivalEffect (s : State) (core id : Nat) (o : LoadOp) : State :=
  let line := lineOf o.pa
  match s.l1Line core line with
  | none => s
  | some l =>
    let data := overlayStores (ownStores s core line) l.data
    let bytes := (data.drop (o.pa % 128)).take o.size
    let poison := (sectorsTouched (o.pa % 128) o.size).any fun k => l.poison.getLsbD k
    let seen := seenWrites s core o
    let (age, s) := s.take
    let s := s.onL1 core line fun l => { l with cls := classAfter l.cls o.hint, age := age, grafted := false }
    let s := deliver (s.dropOp id) o.agent id o.lanes o.dest (loadWords o.code bytes fun _ => poison)
    match o.agent with
    | .thread c sl n _ => s.noteSeen (warpKey c sl n) o.lanes seen
    | _ => s

/-! Home slices. -/

/-- The translation that a fetch of a line uses, once cached; its checks are made at the fetch (R212). -/
def fetchEntry (s : State) (core asid line : Nat) : Option TlbEntry :=
  match s.lookup core asid (128 * line) with
  | .hit e => if s.homed (e.at (128 * line)) then some e else none
  | _ => none

/-- The physical line that a fetch asks for, once it is translated. -/
def fetchLine (s : State) (f : Nat × Nat × Nat) : Option Nat :=
  (fetchEntry s f.1 f.2.1 f.2.2).map fun e => lineOf (s.locate e (128 * f.2.2))

/-- Something waits for a line's sectors at its home: a load that misses, a queued atomic or partial write, or an instruction fetch. -/
def sliceWanted (s : State) (line : Nat) : Bool :=
  (s.mem.fetches.any fun f => fetchLine s f == some line) || s.mem.ops.any fun (_, o) => lineOf o.pa == line &&
    match o with
    | .load l => match l.agent.core with
      | some c => !l1Hit s c l
      | none => true
    | .write w => w.atom.isSome && w.stage == .queued

/-- SLICE_FILL can take place: the line is wanted and not whole in its slice, which has a way for it. -/
def sliceFillReady (s : State) (line : Nat) : Bool := sliceWanted s line && !slicePresent s line && sliceHasWay s line && s.dramOpen line

/-- The data pin, of the four of its pseudo-channel, that a corrected symbol error is attributed to (R438; log entry 13). -/
def pinOf (pc i : Nat) : Nat := 4 * pc + i % 4

/-- Read a sector of the stacks with its check (R123): a corrected error (1 + its pin, 0 for none) is counted, and counted at its pin (R438);
an uncorrectable one poisons the sector, and its stored poison flag, at every read as at a partial write's (DEDUCED, log 49), and is
counted. -/
def sectorCheck (s : State) (line k corrected : Nat) (uncorrectable : Bool) : State :=
  let pc := s.channelOf line
  let s := if corrected == 0 then s else
    let t := s.bump (channelCounter pc 16) 1
    { t with dram := { t.dram with errors := t.dram.errors.alter (pinOf pc (corrected - 1)) (· + 1) 0 } }
  if uncorrectable then (s.bump (channelCounter pc 20) 1).onHbm fun m => m.setPoison (line * 4 + k) true else s

/-- Take sectors of a line that its slice does not hold from the stacks. -/
def takeSectors (s : State) (line : Nat) (ks : List Nat) : State :=
  let (age, s) := s.take
  let base : L2Line := (s.mem.l2.find line).getD L2Line.empty
  let fresh := sectorBits (ks.filter fun k => !base.have'.getLsbD k)
  let (data, poison) := s.homeLine line
  s.setL2 line { base with
    data := (List.range 128).map fun i => if fresh.getLsbD (i / 32) then data.getD i 0 else base.data.getD i 0
    have' := base.have' ||| fresh, poison := (base.poison &&& ~~~fresh) ||| (poison &&& fresh), age := age }

/-- SLICE_FILL, with three bits for each sector whose read was corrected (1 + its pin) and the sectors found uncorrectable. -/
def sliceFillEffect (s : State) (line corrected uncorrectable : Nat) : State :=
  let missing := (List.range 4).filter fun k => match s.mem.l2.find line with
    | some l => !l.have'.getLsbD k
    | none => true
  takeSectors (missing.foldl (fun (s : State) k => sectorCheck s line k (corrected / 8 ^ k % 8) (uncorrectable.testBit k)) (s.dramRequest line)) line missing

/-- Something waits for a way in a slice's set. -/
def wayWanted (s : State) (slice set : Nat) : Bool :=
  (sliceSet s slice set).length ≥ 16 &&
    ((s.mem.fetches.any fun f => match fetchLine s f with
      | some line => sliceOfLine line == slice && l2Set s.cfg.pw line == set && (s.mem.l2.find line).isNone
      | none => false) ||
    s.mem.ops.any fun (_, o) =>
    let line := lineOf o.pa
    sliceOfLine line == slice && l2Set s.cfg.pw line == set && (s.mem.l2.find line).isNone &&
      match o with
      | .load _ => sliceWanted s line
      | .write w => w.stage == .queued)

/-! Write queues (R189). -/

/-- An earlier store of the same core to the same bytes has not reached its slice yet: arrival keeps their order (R131). -/
def earlierAtPort (s : State) (id : Nat) (w : WriteOp) : Bool :=
  s.mem.ops.any fun (j, o) => j < id &&
    match o with
    | .write v => v.stage == .port && v.agent.core.isSome && v.agent.core == w.agent.core && (v.batch.isNone || v.batch != w.batch) && overlaps v.pa v.data.length w.pa w.data.length
    | .load _ => false

/-- A write can reach its slice by itself. -/
def arriveAlone (s : State) (id : Nat) (w : WriteOp) : Bool :=
  w.stage == .port && (s.stillPending w.after).isEmpty && !earlierAtPort s id w && queueHasRoom s (lineOf w.pa) w.atom.isSome &&
    !s.agentHeld w.agent (lineOf w.pa)

/-- The writes that reach a line's write queue with a write: those of one store to the line (R189; R391, step 6). -/
def batchOf (s : State) (id : Nat) (w : WriteOp) : List (Nat × WriteOp) :=
  if w.batch.isNone then [(id, w)]
  else s.mem.ops.filterMap fun (j, o) => match o with
    | .write v => if v.batch == w.batch && v.stage == .port && lineOf v.pa == lineOf w.pa then some (j, v) else none
    | .load _ => none

/-- SLICE_WRITE_ARRIVAL can take place. -/
def writeArrivalReady (s : State) (id : Nat) (w : WriteOp) : Bool :=
  w.stage == .port && (batchOf s id w).all fun (j, v) => arriveAlone s j v

/-- Set the stage of a write. -/
def setStage (s : State) (id : Nat) (st : WriteStage) : State :=
  s.onOp id fun o => match o with
    | .write w => .write { w with stage := st }
    | .load l => .load l

/-! Atomics (R334 to R336). -/

/-- Min and max of two words of n bits, signed or not. -/
def pickSigned (n : Nat) (big : Bool) (a b : Nat) : Nat :=
  if ((BitVec.ofNat n a).toInt < (BitVec.ofNat n b).toInt) != big then a else b

/-- The new value of an atomic of n bytes from old value w and operand b; e is the expected value of `cas` (R334, R336). -/
def atomValue (op : AtomOp) (n w b e : Nat) : Nat :=
  match op with
  | .add => (w + b) % 2 ^ (8 * n)
  | .imin => pickSigned (8 * n) false w b
  | .nmin => min w b
  | .imax => pickSigned (8 * n) true w b
  | .nmax => max w b
  | .and => w &&& b
  | .or => w ||| b
  | .xor => w ^^^ b
  | .xchg => b
  | .cas => if w = e then b else w
  | .fadd32 => (fp32Add 0 (BitVec.ofNat 32 w) (BitVec.ofNat 32 b)).1.toNat
  | .faddH => (packed2 (fun p q _ => FpFormat.h16.add 0 false (FpFormat.h16.unpack p) (FpFormat.h16.unpack q))
      (BitVec.ofNat 32 w) (BitVec.ofNat 32 b) 0).1.toNat
  | .faddW => (packed2 (fun p q _ => FpFormat.w16.add 0 false (FpFormat.w16.unpack p) (FpFormat.w16.unpack q))
      (BitVec.ofNat 32 w) (BitVec.ofNat 32 b) 0).1.toNat
  | .fmax32 => FpFormat.f32.engineMinMax true w b
  | .fmin32 => FpFormat.f32.engineMinMax false w b

/-- The value of a reduction of 4-byte elements (R358): each element on its own. -/
def vectorValue (op : AtomOp) (n v b : Nat) : Nat :=
  leNat ((List.range (n / 4)).flatMap fun i =>
    leBytes 4 (atomValue op 4 (v / 2 ^ (32 * i) % 2 ^ 32) (b / 2 ^ (32 * i) % 2 ^ 32) 0))

/-- The new value of an atomic, or of an engine's reduction. -/
def newValue (w : WriteOp) (op : AtomOp) (n v b e : Nat) : Nat :=
  match w.agent with
  | .thread _ _ _ _ => atomValue op n v b e
  | _ => vectorValue op n v b

/-- A `red` that folds into the last operation of an entry: same operation, place and width, by agents that compute alike, and neither
returns a value or carries poison (R189). -/
def foldsInto (a b : WriteOp) : Bool :=
  match a.atom, b.atom with
  | some (x, _, _), some (y, _, _) => x == y && a.agent.core.isSome == b.agent.core.isSome && !a.poison && !b.poison && a.pa == b.pa && a.data.length == b.data.length && a.lanes.isEmpty && b.lanes.isEmpty &&
      x != .xchg && x != .cas
  | _, _ => false

/-- SLICE_WRITE_ARRIVAL: the write joins its line's entry or takes one (R189). -/
def writeArrivalEffect (s : State) (id : Nat) (w : WriteOp) : State :=
  let line := lineOf w.pa
  let s := setStage s id .queued
  -- a store that waited at its port becomes visible to its own core here (R128, R368)
  let s := match w.agent.core with
    | some c => if w.after.isEmpty || w.atom.isSome then s else s.wakeCore c line
    | none => s
  let last := (s.mem.queue.filter fun e => e.line == line && entryTakes s e w.atom.isSome).getLast?
  match last with
  | none => { s with mem := { s.mem with queue := s.mem.queue ++ [⟨line, [id], []⟩] } }
  | some e =>
    let old := e.ops.getLast?.bind fun j => (s.writeOp j).map fun v => (j, v)
    match old with
    | some (j, v) =>
      if foldsInto v w then
        let s := s.onOp j fun o => match o, v.atom, w.atom with
          | .write v, some (op, b, x), some (_, b2, _) => .write { v with atom := some (op, newValue v op v.data.length b b2 0, x) }
          | o, _, _ => o
        { s with mem := { s.mem with queue := s.mem.queue.map fun q => if q == e then { q with folded := q.folded ++ [id] } else q } }
      else { s with mem := { s.mem with queue := s.mem.queue.map fun q => if q == e then { q with ops := q.ops ++ [id] } else q } }
    | none => { s with mem := { s.mem with queue := s.mem.queue.map fun q => if q == e then { q with ops := q.ops ++ [id] } else q } }

/-- The head entry of a slice's queue. -/
def queueHead (s : State) (slice : Nat) : Option QueueEntry := s.mem.queue.find? fun e => sliceOfLine e.line == slice

/-- The writes of an entry, in arrival order. -/
def entryWrites (s : State) (e : QueueEntry) : List (Nat × WriteOp) := e.ops.filterMap fun id => (s.writeOp id).map (id, ·)

/-- Bytes an entry's write changes within its line. -/
def WriteOp.mask (w : WriteOp) : BitVec 128 := byteMask (w.pa % 128) w.data.length

/-- The writers' masks of a line in gather mode after a further write; none for an overlapping access: a byte of another core's mask, or a
ninth writer (R117, R226). -/
def gatherAdd (ms : List (Nat × BitVec 128)) (w : WriteOp) : Option (List (Nat × BitVec 128)) :=
  match w.agent.core with
  | some c =>
    if ms.any fun x => x.1 != c && (x.2 &&& w.mask) != 0 then none
    else if ms.any fun x => x.1 == c then some (ms.map fun x => if x.1 == c then (c, x.2 ||| w.mask) else x)
    else if ms.length ≥ 8 then none
    else some (ms ++ [(c, w.mask)])
  | none => if ms.any fun x => (x.2 &&& w.mask) != 0 then none else some ms

/-- The masks after the writes of an entry, one after another; none when one of them overlaps (R117). -/
def gatherAll (ms : List (Nat × BitVec 128)) (ws : List (Nat × WriteOp)) : Option (List (Nat × BitVec 128)) :=
  ws.foldl (fun acc w => acc.bind fun ms => gatherAdd ms w.2) (some ms)

/-- The writes of an entry hold an overlapping access to a line in gather mode (R117). -/
def gatherBlocks (l : L2Line) (ws : List (Nat × WriteOp)) : Bool :=
  match l.gather with
  | none => false
  | some (_, ms) => (gatherAll ms ws).isNone

/-- The core of a store or graft. -/
def WriteOp.storer (w : WriteOp) : Option Nat := if w.atom.isNone then w.agent.core else none

/-- The cores whose stores a line's updates under way carry. -/
def updatingCores (s : State) (line : Nat) : List Nat :=
  ((s.lineUpdates line).flatMap fun (_, u) => u.writes.filterMap fun id => (s.writeOp id).bind (·.storer)).dedup

/-- Lines of a slice in gather mode: their slots. -/
def gatherSlots (s : State) (slice : Nat) : List Nat :=
  s.mem.l2.filterMap fun (line, l) => if sliceOfLine line == slice then l.gather.map (·.1) else none

/-- An entry with a store that meets another core's unacknowledged store to a C or U line puts the line in gather mode, with the cores of
those stores as its writers (R116). Where its own writes overlap, it is served as in R115 when the updates are acknowledged (R117). -/
def gatherEntry (s : State) (e : QueueEntry) : Option (List Nat) :=
  let ws := entryWrites s e
  let storers := ws.filterMap fun (_, w) => w.storer
  let updating := updatingCores s e.line
  let writers := (updating ++ storers).dedup
  let ordered := (ws.map (·.2) ++ (s.lineUpdates e.line).flatMap fun (_, u) => u.writes.filterMap s.writeOp).all fun w => w.kind != 0
  let open' := match s.mem.l2.find e.line with
    | some l => l.gather.isNone
    | none => false
  if storers.any (fun b => updating.any (· != b)) && ordered && open' && writers.length ≤ 8 &&
      (gatherSlots s (sliceOfLine e.line)).length < 64 && (gatherAll (writers.map fun c => (c, 0)) ws).isSome
  then some writers else none

/-- Enter gather mode with its writers: the line leaves every other L1 (R116). -/
def enterGather (s : State) (line : Nat) (writers : List Nat) : State :=
  match s.mem.l2.find line with
  | none => s
  | some l =>
    let others := (bitCores l.sharers).filter fun c => !writers.contains c
    let used := gatherSlots s (sliceOfLine line)
    let slot := ((List.range 64).find? fun k => !used.contains k).getD 0
    let s := s.invalidateL1s others line
    let s := s.setL2 line { l with gather := some (slot, writers.map fun c => (c, 0)), sharers := l.sharers &&& coreBits writers }
    { s with mem := { s.mem with updates := s.mem.updates.map fun (k, u) =>
        (k, if u.line == line then { u with targets := u.targets.filter writers.contains } else u) } }

/-- Sectors that an entry changes in part or reads, which the slice must hold first (R123). -/
def sectorsNeeded (s : State) (e : QueueEntry) : List Nat :=
  let ws := entryWrites s e
  (List.range 4).filter fun k =>
    let got := ws.foldl (fun (b : BitVec 128) (_, w) => if w.atom.isNone then b ||| w.mask else b) 0
    let sect := byteMask (32 * k) 32
    let touched := ws.any fun (_, w) => (w.mask &&& sect) != 0
    let whole := (got &&& sect) == sect
    let present := match s.mem.l2.find e.line with
      | some l => l.have'.getLsbD k
      | none => false
    touched && !present && (!whole || ws.any fun (_, w) => w.atom.isSome && (w.mask &&& sect) != 0)

/-- WRITE_QUEUE_APPLY can take place for a slice's head entry. -/
def queueApplyReady (s : State) (slice : Nat) : Bool :=
  match queueHead s slice with
  | none => false
  | some e =>
    let blocked := match s.mem.l2.find e.line with
      | some l => gatherBlocks l (entryWrites s e)
      | none => false
    let gathered := match s.mem.l2.find e.line with
      | some l => l.gather.isSome
      | none => false
    sliceHasWay s e.line && !s.sliceCopying e.line && (sectorsNeeded s e).isEmpty && !blocked && (!s.lineHeld e.line || gathered || (gatherEntry s e).isSome)

/-- The value words of an atomic: zero for a poisoned read stays as read, with poison set (R335). -/
def valueWords (n v : Nat) (p : Bool) : List PWord := (List.range (n / 4)).map fun i => ⟨BitVec.ofNat 32 (v / 2 ^ (32 * i)), p⟩

/-- A mirror-class write goes to the partner address too (R120), an atomic with its tag and recorded result (R121). -/
def mirrorWrite (s : State) (id : Nat) (w : WriteOp) (bs : List Byte) (old : Option (List PWord)) : State :=
  if !w.mirror then s
  else
    let s := s.slicePut (mirrorPartner w.pa) bs w.poison
    let s := { s with mem := { s.mem with l2 := s.mem.l2.adjust (lineOf w.pa) fun l => { l with mirror := true } } }
    match old with
    | some vs => { s with mem := { s.mem with atomTags := s.mem.atomTags.insert (lineOf w.pa) (id, vs) } }
    | none => s

/-- An engine's reduction has met poison (R358, R188). -/
def State.notePoison (s : State) (a : Agent) : State :=
  match a with
  | .engine id => { s with eng := { s.eng with copy := s.eng.copy.map fun c => if c.id == id then { c with poison := true } else c } }
  | .remote src tag => { s with fab := { s.fab with remote := s.fab.remote.map fun r =>
      if r.src == src && r.tag == tag then { r with status := 10 } else r } }
  | _ => s

/-- Apply one write of an entry at its home: a store's bytes, or an atomic's new value, its old value returning to the lanes
(R137, R335). A poisoned target takes no update; a poisoned element of a reduction poisons its target (R358). -/
def applyWrite (s : State) (id : Nat) (w : WriteOp) : State :=
  match w.atom with
  | none => mirrorWrite (s.sliceWrite w.pa w.data w.poison) id w w.data none
  | some (op, b, e) =>
    let n := w.data.length
    let (v, p) := s.homeNat w.pa n
    let old := valueWords n v p
    let new := leBytes n (newValue w op n v b e)
    let s := if p then s.notePoison w.agent
      else if w.poison then mirrorWrite ((s.sliceWrite w.pa (leBytes n v) true).notePoison w.agent) id w (leBytes n v) none
      else mirrorWrite (s.sliceWrite w.pa new false) id w new (some old)
    -- a value returned to lanes counts as read (R136)
    let seen := if w.lanes.isEmpty then [] else (writesSeen s (w.agent.core.getD 0) w.pa n).filter (· != id)
    let s := deliver s w.agent id w.lanes w.dest old
    match w.agent with
    | .thread c sl n _ => if seen.isEmpty then s else s.noteSeen (warpKey c sl n) w.lanes seen
    | _ => s

/-- The sectors of a line that a mask covers hold no poison any more: they have been written whole (R123). -/
def State.cleanSectors (s : State) (line : Nat) (m : BitVec 128) : State :=
  match s.mem.l2.find line with
  | none => s
  | some l =>
    let whole := (List.range 4).filter fun k => (m &&& byteMask (32 * k) 32) == byteMask (32 * k) 32
    if whole.isEmpty then s else s.setL2 line { l with poison := l.poison &&& ~~~sectorBits whole }

/-- Apply the next write of an entry. The stores of an entry count together: a sector that they cover between them is written whole
(R123, R189; R391, step 6). The mask holds the bytes that the entry's stores have written so far. -/
def applyNext (line : Nat) (acc : State × BitVec 128) (x : Nat × WriteOp) : State × BitVec 128 :=
  let (s, m) := acc
  let s := applyWrite s x.1 x.2
  let m := if x.2.atom.isSome then m else if x.2.poison then m &&& ~~~x.2.mask else m ||| x.2.mask
  let s := s.cleanSectors line m
  (if x.2.mirror then s.cleanSectors (lineOf (mirrorPartner x.2.pa)) m else s, m)

/-- The receivers of an entry's grafts, other than the writer (R118). -/
def graftReceivers (ws : List (Nat × WriteOp)) : List Nat :=
  (ws.flatMap fun (_, w) => match w.graft with
    | some cs => cs.filter fun c => some c != w.agent.core
    | none => []).dedup

/-- Count a graft refusal at a core (R118). -/
def countRefusal (s : State) (core : Nat) : State := s.bump (coreCounter core 16) 1

/-- The sharers that an update of an entry is sent to (R115): all but the one core that wrote it with stores alone. -/
def updateTargets (sharers : BitVec 128) (ws : List (Nat × WriteOp)) : List Nat :=
  let writers := (ws.map fun (_, w) => w.agent.core).dedup
  let stores := ws.all fun (_, w) => w.atom.isNone
  (bitCores sharers).filter fun c => !(stores && writers == [some c])

/-- The writer's own L1 copy takes its stores' bytes at their application too, and no other core's: a fill may have come between, and other
writes of the entry reach it by their update (R115, R128). -/
def refreshOwn (s : State) (line : Nat) (ws : List (Nat × WriteOp)) : State :=
  ws.foldl (fun s (_, w) => match w.storer with
    | some c => s.onL1 c line fun l => l.store w.pa w.data
    | none => s) s

/-- In gather mode the bytes that writes change become invalid in the L1 copies of other cores, and an update under way no longer carries
them; a core's own copy keeps the bytes of its stores, but not those of its atomics, which have no result at issue (R115, R117). -/
def invalidateBytes (s : State) (line : Nat) (ws : List (Nat × WriteOp)) : State :=
  let changed := ws.foldl (fun (b : BitVec 128) (_, w) => b ||| w.mask) 0
  let s := (List.range 128).foldl (fun (s : State) c =>
    let others := ws.foldl (fun (b : BitVec 128) (_, w) => if w.agent.core == some c && w.atom.isNone then b else b ||| w.mask) 0
    s.onL1 c line fun l => { l with valid := l.valid &&& ~~~others }) s
  { s with mem := { s.mem with updates := s.mem.updates.map fun (k, u) =>
      (k, if u.line == line then { u with mask := u.mask &&& ~~~changed } else u) } }

/-- WRITE_QUEUE_APPLY: the head entry is applied to the slice, and its update goes out (R115 to R118, R189). -/
def queueApplyEffect (s : State) (slice : Nat) : State :=
  match queueHead s slice with
  | none => s
  | some e =>
    let ws := entryWrites s e
    let s := match gatherEntry s e with
      | some writers => enterGather s e.line writers
      | none => s
    let s := { s with mem := { s.mem with queue := s.mem.queue.erase e } }
    let s := (ws.foldl (applyNext e.line) (s, 0)).1
    let s := (e.ops ++ e.folded).foldl (fun s id => setStage s id .applied) s
    let s := refreshOwn s e.line ws
    let l := (s.mem.l2.find e.line).getD L2Line.empty
    let mask := ws.foldl (fun (b : BitVec 128) (_, w) => b ||| w.mask) 0
    let (data, poison) := s.homeLine e.line
    let (id, s) := s.take
    match l.gather with
    | some (slot, ms) =>
      -- gather mode: the writers' masks grow, nothing is forwarded, a graft's receivers that are no writers take no copy (R117, R119)
      let ms := (gatherAll ms ws).getD ms
      let s := s.setL2 e.line { l with gather := some (slot, ms) }
      let s := ((graftReceivers ws).filter fun c => !ms.any fun x => x.1 == c).foldl countRefusal (invalidateBytes s e.line ws)
      { s with mem := { s.mem with updates := s.mem.updates.insert id ⟨e.line, mask, data, poison, false, [], [], [], e.ops ++ e.folded⟩ } }
    | none =>
      let hold := ws.any fun (_, w) => w.kind != 2
      let u : Update := ⟨e.line, mask, data, poison, hold, updateTargets l.sharers ws, [], graftReceivers ws, e.ops ++ e.folded⟩
      { s with mem := { s.mem with updates := s.mem.updates.insert id u } }

/-- PARTIAL_SECTOR_MERGE can take place: a head entry needs the sector (R123). -/
def partialReady (s : State) (line sector : Nat) : Bool :=
  match queueHead s (sliceOfLine line) with
  | some e => e.line == line && sliceHasWay s line && (sectorsNeeded s e).contains sector && s.dramOpen line
  | none => false

/-- PARTIAL_SECTOR_MERGE: ecc 1 to 4 a corrected error (1 + its pin), 5 an uncorrectable one. -/
def partialEffect (s : State) (line sector ecc : Nat) : State :=
  takeSectors (sectorCheck (s.dramRequest line) line sector (if ecc < 5 then ecc else 0) (ecc == 5)) line [sector]

/-- GATHER_MERGE is due: the line is in gather mode and an overlapping access waits (R117). -/
def gatherMergeReady (s : State) (line : Nat) : Bool :=
  match s.mem.l2.find line with
  | some l => l.gather.isSome && (s.lineUpdates line).isEmpty &&
      (((queueHead s (sliceOfLine line)).any fun e => e.line == line && gatherBlocks l (entryWrites s e)) ||
        s.mem.ops.any fun (_, o) => match o with
          | .load x => lineOf x.pa == line && match x.agent.core with
            | some c => (othersMask l c &&& byteMask (x.pa % 128) x.size) != 0 && !l1Hit s c x
            | none => false
          | .write _ => false)
  | none => false

/-- GATHER_MERGE: the line leaves every L1, its masks clear and gather mode ends (R117). -/
def gatherMergeEffect (s : State) (line : Nat) : State :=
  match s.mem.l2.find line with
  | none => s
  | some l =>
    let s := s.invalidateL1s (List.range 128) line
    s.setL2 line { l with gather := none, sharers := 0 }

/-- Change an update. -/
def State.onUpdate (s : State) (upd : Nat) (f : Update → Update) : State :=
  { s with mem := { s.mem with updates := s.mem.updates.adjust upd f } }

/-- The sectors a mask touches. -/
def maskSectors (m : BitVec 128) : BitVec 4 := sectorBits ((List.range 4).filter fun k => (m &&& byteMask (32 * k) 32) != 0)

/-- An older update of the line has not reached the core yet: a core takes the updates of a line in their order (R115, R128). -/
def olderUpdate (s : State) (core upd : Nat) (u : Update) : Bool :=
  (s.lineUpdates u.line).any fun (k, v) => k < upd && (v.targets.contains core || v.push.contains core)

/-- SHARER_UPDATE: a sharer applies the changed bytes, if it still has the line, and acknowledges (R115). On a U page the bytes are
visible to the core at once (R128). -/
def sharerUpdateEffect (s : State) (core upd : Nat) (u : Update) : State :=
  let s := s.onL1 core u.line fun l => l.apply u.mask u.data u.poison (maskSectors u.mask)
  let s := s.onUpdate upd fun u => { u with targets := u.targets.filter (· != core), applied := u.applied ++ [core] }
  if u.hold then s else s.wakeCore core u.line

/-- The graft quota of a core (R228): the least effective quota over the boughs with a work-group resident there. -/
def State.graftQuota (s : State) (core : Nat) : Nat :=
  let qs := s.work.groups.vals.filterMap fun g => if g.core == core && g.resident then (s.work.grids.find g.grid).map (·.eff.quota) else none
  match qs with
  | [] => 0
  | q :: qs => qs.foldl min q

/-- GRAFT_FILL: a receiver accepts the pushed line as an update or as a marked fill, or refuses it (R118). -/
def graftFillEffect (s : State) (core upd : Nat) (u : Update) : State :=
  let s := s.onUpdate upd fun u => { u with push := u.push.filter (· != core) }
  match s.l1Line core u.line with
  | some _ =>
    let (data, poison) := s.homeLine u.line
    let open' := match s.mem.l2.find u.line with
      | some l => ~~~(othersMask l core)
      | none => BitVec.allOnes 128
    let s := s.onL1 core u.line fun l => l.apply open' data poison 15
    let s := s.addSharer core u.line
    s.onUpdate upd fun u => { u with applied := if u.applied.contains core then u.applied else u.applied ++ [core] }
  | none =>
    if s.graftCount core ≥ s.graftQuota core then countRefusal s core
    else match l1Victim s core u.line true with
      | .full => countRefusal s core
      | _ =>
        let s := s.fillL1 core u.line 0 true
        s.onUpdate upd fun u => { u with applied := u.applied ++ [core] }

/-- WRITER_ACKNOWLEDGE can take place: every sharer has acknowledged and every receiver has accepted or refused (R115, R118). -/
def acknowledgeReady (s : State) (u : Update) : Bool :=
  u.targets.isEmpty && u.push.isEmpty && !(u.writes.filterMap s.writeOp).any fun w => s.agentHeld w.agent u.line

/-- WRITER_ACKNOWLEDGE: the writes are performed and the holds released; they are now visible to every core that shares the line
(R115, R128, R368). -/
def acknowledgeEffect (s : State) (upd : Nat) (u : Update) : State :=
  let ws := u.writes.filterMap s.writeOp
  let own (c : Nat) : Bool := ws.all fun w => w.atom.isNone && w.agent.core == some c
  let seers := (List.range 128).filter fun c => !own c && (u.hold || !u.applied.contains c)
  let s := u.writes.foldl State.dropOp s
  let s := { s with mem := { s.mem with updates := s.mem.updates.erase upd } }
  seers.foldl (fun s c => s.wakeCore c u.line) s

/-- EVICTION_NOTICE reaches the slice. -/
def evictionNoticeEffect (s : State) (core line : Nat) : State :=
  let s := { s with mem := { s.mem with notices := s.mem.notices.erase (core, line) } }
  s.removeSharer core line

/-- The victim of a set needs no write-back, or its bank takes one now (R124). -/
def victimOpen (s : State) (slice set : Nat) : Bool :=
  match sliceVictim s slice set with
  | some (line, l) => !l.dirty || s.dramOpen line
  | none => false

/-! The events. -/

def execL1Fill (core line : Nat) (s : State) : Host.Outcome State Fault Refusal :=
  .next (if l1FillReady s core line then l1FillEffect s core line else s)

def execLoadValueArrival (core flight : Nat) (s : State) : Host.Outcome State Fault Refusal :=
  .next (match s.loadOp flight with
    | some o => if loadReady s core o then loadArrivalEffect s core flight o else s
    | none => s)

def execSliceWriteArrival (port : Nat) (s : State) : Host.Outcome State Fault Refusal :=
  .next (match s.writeOp port with
    | some w => if writeArrivalReady s port w then (batchOf s port w).foldl (fun s (j, v) => writeArrivalEffect s j v) s else s
    | none => s)

def execWriteQueueApply (slice : Nat) (s : State) : Host.Outcome State Fault Refusal :=
  .next (if queueApplyReady s slice then queueApplyEffect s slice else s)

def execGatherMerge (line : Nat) (s : State) : Host.Outcome State Fault Refusal :=
  .next (if gatherMergeReady s line then gatherMergeEffect s line else s)

def execSharerUpdate (core upd : Nat) (s : State) : Host.Outcome State Fault Refusal :=
  .next (match s.mem.updates.find upd with
    | some u => if u.targets.contains core && !olderUpdate s core upd u && !s.crossHeld (core / 32) (dieOfLine u.line) then
        sharerUpdateEffect s core upd u else s
    | none => s)

def execGraftFill (core upd : Nat) (s : State) : Host.Outcome State Fault Refusal :=
  .next (match s.mem.updates.find upd with
    | some u => if u.push.contains core && !olderUpdate s core upd u && !s.mem.notices.contains (core, u.line) &&
        !s.crossHeld (core / 32) (dieOfLine u.line) then graftFillEffect s core upd u else s
    | none => s)

def execWriterAcknowledge (upd : Nat) (s : State) : Host.Outcome State Fault Refusal :=
  .next (match s.mem.updates.find upd with
    | some u => if acknowledgeReady s u then acknowledgeEffect s upd u else s
    | none => s)

def execEvictionNotice (core line : Nat) (s : State) : Host.Outcome State Fault Refusal :=
  .next (if s.mem.notices.contains (core, line) && !s.crossHeld (core / 32) (dieOfLine line) then evictionNoticeEffect s core line else s)

def execSliceFill (line corrected uncorrectable : Nat) (s : State) : Host.Outcome State Fault Refusal :=
  .next (if sliceFillReady s line then sliceFillEffect s line corrected uncorrectable else s)

def execPartialSectorMerge (line sector ecc : Nat) (s : State) : Host.Outcome State Fault Refusal :=
  .next (if partialReady s line sector then partialEffect s line sector ecc else s)

def execSliceVictimEviction (slice set : Nat) (s : State) : Host.Outcome State Fault Refusal :=
  .next (if wayWanted s slice set && victimOpen s slice set then victimEffect s slice set else s)

end Sys2Proof.Machine
end

