-- ==== Sys2Proof/Machine/Atomic.lean ====
section
/-! DEFINITION. Exchange stores, graft stores, atomics, fences and cache operations, opcodes 0x35 to 0x38 and 0x43 to 0x4E
(spec/14_memory_instructions.md R332 to R338). -/

namespace Sys2Proof.Machine

/-! Exchange stores (R332) and grafts (R333). -/

/-- The gang size of a warp's grid: 0 without a gang (R216). -/
def State.gangSize (s : State) (w : Warp) : Nat := bits 14 9 (s.launchWord w 3).toNat

/-- Member b of a warp's gang: the work-group of its grid with that place among the gang's consecutive ids, resident or saved (R14,
R332). -/
def gangMember (s : State) (w : Warp) (b : Nat) : Option Nat :=
  match s.work.groups.find w.wg with
  | none => none
  | some me =>
    let n := s.gangSize w
    if n = 0 then none
    else
      let id := me.id.toNat / n * n + b
      match s.work.groups.find? fun (_, g) => g.grid == me.grid && g.id.toNat == id with
      | some (k, _) => some k
      | none => (s.ctl.saved.find? fun (_, x) => x.group.grid == me.grid && x.group.id.toNat == id).map (·.1)

/-- `st.x` (R332, R90): the write goes to the shadow bank of the named member, where it is applied (ST_X_APPLY). -/
def runStX (d a b : BitVec 7) (f : BitVec 2) (g : Group) (s : State) : IssueResult :=
  match s.warpAt g.key with
  | none => .wait g.lanes id
  | some w =>
    let n := 4 * 2 ^ f.toNat
    let member (l : Nat) : PWord := readField s g w l b.toNat
    let sigs := offsetSigs s g w a ++ (g.lanes.map fun l => ⟨l, 1, [(member l).val.toNat]⟩) ++ dataSigs s g w d n
    let fails := laneFails g.lanes fun l =>
      firstFail [localFail s g w n a 2 w.segs.xlim.toNat
          (fun l => failIf (member l).poison (failContain 1 b.toNat) :: dataFail s g w d (n / 4) l) l,
        failIf ((member l).val.toNat ≥ s.gangSize w) (failSegment 2 (member l).val.toNat)]
    let late := orderedStoreLanes s g w g.lanes
    if !fails.isEmpty then .trap sigs fails
    else if !late.isEmpty then .wait late id
    else .done sigs ((accessLanes w g.lanes).foldl (fun s' l =>
      match gangMember s w (member l).val.toNat with
      | some wg =>
        let (id, s') := s'.take
        let x : ExchStore := ⟨id, wg, (readField s g w l a.toNat).val.toNat, storeBytes n (readRegs s g w l d.toNat (n / 4)), g.key, l⟩
        { s' with mem := { s'.mem with exchStores := s'.mem.exchStores ++ [x] } }
      | none => s') s)

/-- Where an exchange store lands: the member's core and the offset in its bank; for a saved member, where it stood. -/
def exchTarget (s : State) (x : ExchStore) : Option (Nat × Nat) :=
  match s.work.groups.find x.wg with
  | some g => some (g.core, 4096 * g.exch.1 + x.off)
  | none => (s.ctl.saved.find x.wg).map fun y => (y.group.core, 4096 * y.group.exch.1 + x.off)

/-- The oldest exchange store bound for a core: those to one core are applied in the order of their issue, also where nothing orders them
(R92 lets any of them stand; DEDUCED, log 49). -/
def nextExchStore (s : State) (core : Nat) : Option (ExchStore × Nat) :=
  s.mem.exchStores.findSome? fun x => match exchTarget s x with
    | some (c, off) => if c == core then some (x, off) else none
    | none => none

/-- ST_X_APPLY: the oldest exchange store bound for a core is written to the shadow bank of its granule, or to the shadow region of a saved
member's image (R90, R332, R267). -/
def execStXApply (core : Nat) (s : State) : Host.Outcome State Fault Refusal :=
  .next (match nextExchStore s core with
    | none => s
    | some (x, off) =>
      let s := { s with mem := { s.mem with exchStores := s.mem.exchStores.erase x } }
      match shadowSpot s x.wg off with
      | some (d, m, o) => s.sectionWrite d m o (x.data.map (·, false))
      | none => s.onExch fun m => m.writeClean 4 (exchAddr core (s.exchBank core off true) off) x.data)

/-- A core that no work may name: mapped out, or on a die that is (R333, R436). -/
def State.coreOut (s : State) (c : Nat) : Bool := s.cfg.outCores.contains c || s.att.outDies.contains (c / 32)

/-- The core set of a graft: the bits of a quad (R333). -/
def graftSet (vs : List PWord) : List Nat :=
  (List.range 128).filter fun c => (vs.getD (c / 32) PWord.zero).val.getLsbD (c % 32)

/-- `gft` (R333). -/
def runGft (d a b : BitVec 7) (f : BitVec 2) (g : Group) (s : State) : IssueResult :=
  let set (w : Warp) (l : Nat) : List PWord := readRegs s g w l b.toNat 4
  runStore a d (4 * 2 ^ f.toNat) 4 0 none
    (fun w l => [failIf (anyPoison (set w l)) (failContain 1 b.toNat),
      ((graftSet (set w l)).find? s.coreOut).map fun c => ⟨7, 0x0A, c⟩])
    (fun w l => match (graftSet (set w l)).filter (· != g.core) with
      | [] => none
      | cs => some cs)
    (fun w => g.lanes.map fun l => ⟨l, 2, (set w l).map (·.val.toNat)⟩) g s

/-! Atomics and reductions (R334 to R336). -/

/-- A global atomic or reduction of n bytes: performed in its home slice's write queue (R335). -/
def runAtomGlobal (op : AtomOp) (n : Nat) (ret : Option (BitVec 7)) (a b : BitVec 7) (g : Group) (s : State) : IssueResult :=
  match s.warpAt g.key with
  | none => .wait g.lanes id
  | some w =>
    let expects := op == .cas
    let d := ret.getD 120
    let data := dataSigs s g w b n ++ (if expects then dataSigs s g w d n else [])
    let sigs := addrSigs s g w a false ++ data
    let extra (l : Nat) := dataFail s g w b (n / 4) l ++ (if expects then dataFail s g w d (n / 4) l else [])
    match planAccess s g w n 2 a false true extra with
    | .fail fs => .trap sigs fs
    | .wait ask => .wait g.lanes ask
    | .go as =>
      let as := as.filter fun x => (accessLanes w g.lanes).contains x.lane
      let full := fullLanes s g.core true as
      if !full.isEmpty then .wait g.lanes id
      else
        let s0 := s
        .done sigs (as.zipIdx.foldl (fun s (x, i) =>
          let lane := w.lane x.lane
          let number (r : BitVec 7) := leNat (storeBytes n (readRegs s0 g w x.lane r.toNat (n / 4)))
          let after := storeAfter s0 lane (g.agent x.lane) x.entry.kind ++
            (if ret.isSome then loadAfter s0 lane (g.agent x.lane) x.pa n x.entry.kind else [])
          let mine := shareLanes w x.lane
          let scalar := isScalarDest d.toNat
          let lanes := if ret.isNone then [] else if scalar && i == 0 then g.lanes else mine
          let dest := if ret.isNone || (scalar && i != 0) then .discard else destOf w x.lane d.toNat (n / 4)
          let (s, id) := issueWrite s g w x (List.replicate n 0) (some (op, number b, if expects then number d else 0)) dest lanes none 0
            after.dedup none
          s.onLanes g.key lanes fun y => { y with loads := y.loads ++ [id] }) (s.useEntries g.core as))

/-- A scratch atomic or reduction: lanes in ascending order at the issue's passes (R82, R335). -/
def runAtomScratch (op : AtomOp) (n : Nat) (ret : Option (BitVec 7)) (a b : BitVec 7) (g : Group) (s : State) : IssueResult :=
  match s.warpAt g.key with
  | none => .wait g.lanes id
  | some w =>
    let expects := op == .cas
    let d := ret.getD 120
    let sigs := offsetSigs s g w a ++ dataSigs s g w b n ++ (if expects then dataSigs s g w d n else [])
    let fails := laneFails g.lanes (localFail s g w n a 1 w.segs.slim.toNat fun l =>
      dataFail s g w b (n / 4) l ++ (if expects then dataFail s g w d (n / 4) l else []))
    let late := g.lanes.filter fun l => (orderedStoreLanes s g w g.lanes ++ orderedLanes s g w g.lanes).contains l
    if !fails.isEmpty then .trap sigs fails
    else if !late.isEmpty then .wait late id
    else
      let number (r : BitVec 7) (l : Nat) := leNat (storeBytes n (readRegs s g w l r.toNat (n / 4)))
      let go := (accessLanes w g.lanes).foldl (fun (acc : State × List LaneResult) l =>
        let (s', rs) := acc
        let addr := scratchAddr g.core (w.segs.sbase.toNat + (readField s g w l a.toNat).val.toNat)
        let (bytes, p) := s'.mem.scratch.readPoison 4 addr n
        let v := leNat bytes
        let new := leBytes n (atomValue op n v (number b l) (if expects then number d l else 0))
        (if p then s' else s'.onScratch fun m => m.writeClean 4 addr new,
          rs ++ ((shareLanes w l).map fun x => ⟨x, valueWords n v p, 0⟩))) (s, [])
      match ret with
      | none => .done sigs go.1
      | some d => .done sigs (writeResults go.1 g w d.toNat (n / 4) 0 go.2)

/-- An atomic of opcodes 0x43 to 0x4C: w selects the width, sp the space (R334). -/
def runAtom (op : AtomOp) (ret : Option (BitVec 7)) (a b : BitVec 7) (w sp : Bool) : Group → State → IssueResult :=
  if sp then runAtomScratch op (if w then 8 else 4) ret a b else runAtomGlobal op (if w then 8 else 4) ret a b

/-- The addition of a type field of `fadd`: f32, h16 or w16 (R334, R336). -/
def faddOp (t : BitVec 2) : AtomOp :=
  match t.toNat with
  | 0 => .fadd32
  | 1 => .faddH
  | _ => .faddW

def runAtmAdd (d a b : BitVec 7) (w sp : Bool) := runAtom .add (some d) a b w sp
def runRedAdd (a b : BitVec 7) (w sp : Bool) := runAtom .add none a b w sp
def runAtmImin (d a b : BitVec 7) (w sp : Bool) := runAtom .imin (some d) a b w sp
def runRedImin (a b : BitVec 7) (w sp : Bool) := runAtom .imin none a b w sp
def runAtmNmin (d a b : BitVec 7) (w sp : Bool) := runAtom .nmin (some d) a b w sp
def runRedNmin (a b : BitVec 7) (w sp : Bool) := runAtom .nmin none a b w sp
def runAtmImax (d a b : BitVec 7) (w sp : Bool) := runAtom .imax (some d) a b w sp
def runRedImax (a b : BitVec 7) (w sp : Bool) := runAtom .imax none a b w sp
def runAtmNmax (d a b : BitVec 7) (w sp : Bool) := runAtom .nmax (some d) a b w sp
def runRedNmax (a b : BitVec 7) (w sp : Bool) := runAtom .nmax none a b w sp
def runAtmAnd (d a b : BitVec 7) (w sp : Bool) := runAtom .and (some d) a b w sp
def runRedAnd (a b : BitVec 7) (w sp : Bool) := runAtom .and none a b w sp
def runAtmOr (d a b : BitVec 7) (w sp : Bool) := runAtom .or (some d) a b w sp
def runRedOr (a b : BitVec 7) (w sp : Bool) := runAtom .or none a b w sp
def runAtmXor (d a b : BitVec 7) (w sp : Bool) := runAtom .xor (some d) a b w sp
def runRedXor (a b : BitVec 7) (w sp : Bool) := runAtom .xor none a b w sp
def runAtmXchg (d a b : BitVec 7) (w sp : Bool) := runAtom .xchg (some d) a b w sp
def runAtmCas (d a b : BitVec 7) (w sp : Bool) := runAtom .cas (some d) a b w sp
def runAtmFaddG (d a b : BitVec 7) (t : BitVec 2) := runAtomGlobal (faddOp t) 4 (some d) a b
def runRedFaddG (a b : BitVec 7) (t : BitVec 2) := runAtomGlobal (faddOp t) 4 none a b
def runAtmFaddS (d a b : BitVec 7) (t : BitVec 2) := runAtomScratch (faddOp t) 4 (some d) a b
def runRedFaddS (a b : BitVec 7) (t : BitVec 2) := runAtomScratch (faddOp t) 4 none a b

/-! Fences (R134, R135, R337): the order falls on the lanes' later accesses. -/

/-- Apply a fence to every lane of a group. -/
def runFenceWith (f : State → Nat → Lane → Lane) (g : Group) (s : State) : IssueResult :=
  .done [] (g.lanes.foldl (fun s' l => s'.onLanes g.key [l] (f s l)) s)

/-- The engine commands of a warp, not complete yet, that target another package within a scope: 3 its tray, 4 the rack (R134). -/
def remoteCommands (s : State) (g : Group) (scope : Nat) : List Nat :=
  if scope < 3 then [] else
    (s.eng.copy.filter fun c => c.core == g.core && c.warp == g.key && c.slot.isNone && c.status.isNone &&
      (s.targetPackages c).any fun p => scope == 4 || p / 16 == s.cfg.pkg / 16).map (·.id)

/-- A full fence: every later access follows every earlier one, of every page kind and of the core memories (R134). -/
def runFence (c : BitVec 3) (g : Group) (s : State) : IssueResult :=
  runFenceWith (fun s l x => { x with accessAfter :=
    (s.stillPending x.accessAfter ++ fenceSet s x (g.agent l) c.toNat true ++ remoteCommands s g c.toNat).dedup }) g s

/-- `fence.rel`: later stores follow every earlier access to C and S pages (R135). -/
def runFenceRel (c : BitVec 3) (g : Group) (s : State) : IssueResult :=
  runFenceWith (fun s l x => { x with storeAfter := (s.stillPending x.storeAfter ++ fenceSet s x (g.agent l) c.toNat false).dedup }) g s

/-- The outstanding loads of a thread to C and S pages, atomics among them. -/
def earlierLoads (s : State) (t : Agent) : List Nat :=
  (s.threadOps t).filterMap fun (id, o) =>
    let reads := match o with
      | .load _ => true
      | .write w => !w.lanes.isEmpty
    if reads && o.kind != 2 then some id else none

/-- `fence.acq`: every later access, but to a U page, follows every earlier load (R135). -/
def runFenceAcq (_ : BitVec 3) (g : Group) (s : State) : IssueResult :=
  runFenceWith (fun s l x => { x with acquireAfter := (s.stillPending x.acquireAfter ++ earlierLoads s (g.agent l)).dedup }) g s

/-! Cache operations (R338). -/

/-- A cache operation's effect on every lane's line, after the whole of R325 with one byte and no alignment. -/
def runCacheOp (a : BitVec 7) (access : Nat) (f : LaneAccess → State → State) (g : Group) (s : State) : IssueResult :=
  match s.warpAt g.key with
  | none => .wait g.lanes id
  | some w =>
    let sigs := addrSigs s g w a false
    match planAccess s g w 1 access a false false (fun _ => []) with
    | .fail fs => .trap sigs fs
    | .wait ask => .wait g.lanes ask
    | .go as =>
      let as := as.filter fun x => (accessLanes w g.lanes).contains x.lane
      .done sigs (as.foldl (fun s x => f x s) (s.useEntries g.core as))

/-- Drop a core's instruction-cache copies of a physical line (R104). -/
def State.dropICache (s : State) (core line : Nat) : State :=
  { s with mem := { s.mem with icache := s.mem.icache.filter fun (k, l) => !(k / 2 ^ 61 == core && l.pline == line) } }

def runCflush (a : BitVec 7) (g : Group) (s : State) : IssueResult :=
  runCacheOp a 6 (fun x s => (s.loseL1 g.core (lineOf x.pa) true).dropICache g.core (lineOf x.pa)) g s

def runCdemote (a : BitVec 7) (g : Group) (s : State) : IssueResult :=
  runCacheOp a 0 (fun x s => s.onL1 g.core (lineOf x.pa) fun l => { l with cls := classDemoted l.cls }) g s

/-- `cpref` traps only at ranks 2, 4 and 5; a lane that fails a later check does nothing (R338). -/
def runCpref (a : BitVec 7) (h : BitVec 2) (g : Group) (s : State) : IssueResult :=
  match s.warpAt g.key with
  | none => .wait g.lanes id
  | some w =>
    let sigs := addrSigs s g w a false
    let fails := laneFails g.lanes fun l => failIf (readPair s g w l a.toNat).poison (failContain 1 a.toNat)
    if !fails.isEmpty then .trap sigs fails
    else
      let able := (accessLanes w g.lanes).filter fun l => (segmentFail s g w 1 a false false (fun _ => []) l).isNone
      let trs := able.map fun l =>
        let va := segmentAddr s g w a false l
        (l, va, translateFor s g.core w.ctx.toNat 10 va 0 w.system)
      let missing := trs.filter fun (_, _, f, e) => f.isNone && e.isNone
      if !missing.isEmpty then
        .wait g.lanes fun s => missing.foldl (fun s (_, va, _, _) => s.askWalk g.core w.ctx.toNat va 0) s
      else
        .done sigs (trs.foldl (fun s (l, va, f, e) =>
          let s := s.dropWalkFaults g.core w.ctx.toNat
          match f, e with
          | none, some e =>
            let pa := s.locate e va
            let s := s.fillL1Tlb g.core e
            match s.l1Line g.core (lineOf pa) with
            | some _ =>
              let (age, s) := s.take
              s.onL1 g.core (lineOf pa) fun x => { x with cls := classAfter x.cls h.toNat, age := age }
            | none =>
              let (id, s) := s.take
              s.addOp id (.load ⟨g.agent l, pa, 1, 0, 2, h.toNat, .discard, false, [], [], true, e.mirror, BitVec.ofNat 57 va, g.pc, g.rep⟩)
          | _, _ => s) s)

end Sys2Proof.Machine
end

