-- ==== Sys2Proof/Machine/Matrix.lean ====
section
/-! DEFINITION. Matrix instructions, opcodes 0x39 to 0x42 (spec/14_memory_instructions.md R339 to R346): the checks of an issue and the
command it posts. -/

namespace Sys2Proof.Machine

/-! Contract jobs on a core (R171, R172). -/

/-- The core set of a contract (R224). -/
def Contract.cores (c : Contract) : BitVec 128 := (c.entry.getD 4 0) ++ (c.entry.getD 3 0)

/-- The running job of a core: of the active jobs of its set the one with the earliest deadline, then the lower contract (R172). -/
def State.runningJob (s : State) (core : Nat) : Option Nat :=
  let act := s.work.contracts.filterMap fun (n, c) =>
    match c.job with
    | some j => if j.active && c.cores.getLsbD core then some (n, j.deadline) else none
    | none => none
  match act with
  | [] => none
  | x :: xs => some (xs.foldl (fun a b => if b.2 < a.2 then b else a) x).1

/-- The contracts of a bough. -/
def boughContracts (s : State) (ctx bough : Nat) : List Nat :=
  s.work.contracts.filterMap fun (n, c) => if c.ctx == some ctx && (c.entry.getD 7 0).toNat == bough then some n else none

/-- The contract that a grid runs under: of the nearest bough above it that has one, its own job's there where it has a job (R12, R162). -/
def Grid.contract (s : State) (g : Grid) : Option Nat :=
  match g.chain.findSome? fun b => match boughContracts s g.ctx.toNat b.bough with
    | [] => none
    | ns => some ns with
  | some ns => (g.job.filter ns.contains).orElse fun _ => ns.head?
  | none => g.job

/-- The contract that a work-group runs under. -/
def State.jobOf (s : State) (wg : Nat) : Option Nat :=
  match s.work.groups.find wg with
  | some g => (s.work.grids.find g.grid).bind (·.contract s)
  | none => none

/-- A work-group of the running job of its core (R172). -/
def State.urgent (s : State) (core wg : Nat) : Bool :=
  match s.runningJob core with
  | some n => s.jobOf wg == some n
  | none => false

/-- A warp that the running job of its core holds (R172). -/
def State.isHeld (s : State) (core wg : Nat) : Bool := (s.runningJob core).isSome && !s.urgent core wg

/-! Format words (R72, R73, R345). -/

/-- The width of an element format code: 8, 4 or 16 bits, none for a reserved code (R72). -/
def codeWidth (c : Nat) : Option Nat :=
  match c with
  | 0 | 2 | 3 => some 8
  | 1 | 4 => some 4
  | 5 | 6 => some 16
  | _ => none

def fmtA (f : Nat) : Nat := bits 3 0 f
def fmtB (f : Nat) : Nat := bits 7 4 f
def fmtScl (f : Nat) : Bool := bits 8 8 f == 1
def fmtPtab (f : Nat) : Nat := bits 12 9 f
def fmtPen (f : Nat) : Bool := bits 13 13 f == 1
def fmtFirst (f : Nat) : Nat := bits 17 14 f
def fmtCount (f : Nat) : Nat := 2 ^ bits 19 18 f
def fmtRound (f : Nat) : Nat := bits 21 20 f
def fmtSat (f : Nat) : Bool := bits 22 22 f == 1
def widthA (f : Nat) : Nat := (codeWidth (fmtA f)).getD 8
def widthB (f : Nat) : Nat := (codeWidth (fmtB f)).getD 8

/-- Rows of a macro for elements of a width (R94). -/
def macroRows (width : Nat) : Nat := 1024 / width

/-- The depth K of a format word (R73). -/
def fmtDepth (f : Nat) : Nat := fmtCount f * macroRows (widthB f)

/-- The conditions of R73 that do not need the permutation table. -/
def formatLegal (f : Nat) : Bool :=
  bits 31 23 f == 0 && (codeWidth (fmtA f)).isSome && (codeWidth (fmtB f)).isSome &&
  ((widthA f < 16 && widthB f < 16) || (fmtA f == fmtB f && widthA f == 16 && !fmtScl f && !fmtPen f)) &&
  fmtFirst f % fmtCount f == 0 && (fmtPen f || fmtPtab f == 0)

/-- The conditions of R345 on the format word of `acst`. -/
def storeFormatLegal (f : Nat) : Bool :=
  bits 31 23 f == 0 && (fmtA f ≤ 6 || fmtA f == 15) && fmtB f == 0 && bits 19 9 f == 0 &&
  (!fmtScl f || (fmtA f ≤ 4))

/-- The element width of an `acst`: 32 for f32 (R345). -/
def storeWidth (f : Nat) : Nat := if fmtA f == 15 then 32 else widthA f

/-! Layouts (R86 to R88). -/

/-- A layout word from its three registers (R86). -/
def layoutOf (r0 r1 r2 : Word) : Layout :=
  let v := r0.toNat + 2 ^ 32 * r1.toNat + 2 ^ 64 * r2.toNat
  ⟨bits 23 0 v, bits 43 24 v, bits 67 44 v, bits 91 68 v, bits 95 92 v⟩

/-- A permutation mode on a segment offset (R88). -/
def permute (mode o : Nat) : Nat :=
  let low := bits 6 2 o
  let x := match mode with
    | 1 => bits 11 7 o
    | 2 => bits 10 7 o * 2
    | 3 => bits 9 7 o * 4
    | 4 => bits 8 7 o * 8
    | 5 => bits 14 10 o
    | _ => 0
  o - low * 4 + (low ^^^ x) * 4

/-- The offset of the byte that holds element c of line i, for elements of w bits (R87). -/
def Layout.elem (y : Layout) (w i c : Nat) : Nat := permute y.pmode (y.base + i * y.st0 + c / 32 * y.st1 + c % 32 * w / 8)

/-- The offset of the scale of block b of line i, for depth k (R87). -/
def Layout.scale (y : Layout) (k i b : Nat) : Nat := permute y.pmode (y.base + y.st2 + i * (k / 32) + b)

/-- The highest byte a layout touches before permutation: elements, and scales when they are read. -/
def Layout.top (y : Layout) (w k : Nat) (scl : Bool) : Nat :=
  let e := y.base + 127 * y.st0 + (k / 32 - 1) * y.st1 + 4 * w - 1
  let c := y.base + y.st2 + 127 * (k / 32) + k / 32 - 1
  if scl then max e c else e

/-- The highest byte a layout touches, exactly. -/
def Layout.exactTop (y : Layout) (w k : Nat) (scl : Bool) : Nat :=
  (List.range 128).foldl (fun t i =>
    (List.range (k / 32)).foldl (fun t b =>
      let t := (List.range (4 * w)).foldl (fun t j => max t (permute y.pmode (y.base + i * y.st0 + b * y.st1 + j))) t
      if scl then max t (y.scale k i b) else t) t) 0

/-- Whether every byte lies below a limit: a permutation keeps a byte in its 128-byte line (R88), so a limit of whole lines needs no
more than the highest byte before permutation. -/
def Layout.within (y : Layout) (w k : Nat) (scl : Bool) (lim : Nat) : Bool :=
  if y.pmode == 0 || lim % 128 == 0 then y.top w k scl < lim else y.exactTop w k scl < lim

/-- The checks of a layout: pmode at rank 7, strides at rank 8, segment limit at rank 9 (R87). -/
def layoutFails (y : Layout) (third w k : Nat) (scl : Bool) (lim : Nat) : List (Option Fail) :=
  [failIf (y.pmode > 5) ⟨7, 0x01, third + 2 ^ 32⟩,
   failIf (y.base % 16 != 0 || y.st0 % 16 != 0 || y.st1 % 16 != 0) (failAlign 1 y.base),
   if y.pmode ≤ 5 && !y.within w k scl lim then some (failSegment 1 (y.exactTop w k scl)) else none]

/-! Posting a command (R339). -/

/-- A value read on the primary lanes and voted: the lanes that differ from the lowest (R73). -/
def disagreeing (vs : List (Nat × PWord)) : List Nat :=
  match vs with
  | [] => []
  | (_, x) :: _ => (vs.filter fun v => v.2.val != x.val).map (·.1)

/-- The value of the lowest lane of a vote. -/
def firstVote (vs : List (Nat × PWord)) : Word :=
  match vs with
  | (_, x) :: _ => x.val
  | [] => 0

/-- The warp's counter of matrix commands stands at 63, or no queue entry is free to it (R183, R234). -/
def matrixFull (s : State) (g : Group) (w : Warp) : Bool :=
  let mine := s.mem.matrix.filter fun c => c.core == g.core
  let reserved := (mine.filter (·.urgent)).length
  w.cntMat.toNat ≥ 63 ||
    if s.urgent g.core w.wg && reserved < 4 then false else mine.length - reserved ≥ 16

/-- The command takes one of the four entries reserved for contract jobs (R183). -/
def takesReserved (s : State) (g : Group) (w : Warp) : Bool :=
  s.urgent g.core w.wg && (s.mem.matrix.filter fun c => c.core == g.core && c.urgent).length < 4

/-- Set the class bit of the innermost ring level: 0 copy, 1 mat, 2 gth, 3 col (R218). -/
def Warp.markClass (w : Warp) (cls : Nat) : Warp :=
  match w.rings.reverse with
  | [] => w
  | r :: rs => { w with rings := (({ r with classes := r.classes ||| (1#4 <<< cls) } : RingLevel) :: rs).reverse }

/-- What a command's accesses must follow: posting is a release at a scope, core scope for a matrix command (R142), and what fences,
acquires and barriers have put before every later access comes before it too (R134, R135, R140). -/
def postAfter (s : State) (g : Group) (w : Warp) (scope : Nat) : List Nat :=
  ((accessLanes w g.lanes).flatMap fun l =>
    fenceSet s (w.lane l) (g.agent l) scope false ++ s.stillPending ((w.lane l).accessOrder 0)).dedup

/-- Post a matrix command of a group (R339): `mat` rises, the innermost ring's class bit is set. -/
def postMatrix (s : State) (g : Group) (w : Warp) (op : MatOp) (lanes : List Nat) : State × Nat :=
  let after := postAfter s g w 0
  let urgent := takesReserved s g w
  let (id, s) := s.take
  let c : MatCmd := ⟨id, g.core, g.key, w.wg, op, w.segs.sbase.toNat, lanes, after, urgent, false⟩
  let s := { s with mem := { s.mem with matrix := s.mem.matrix ++ [c] } }
  (s.onWarp g.key fun w => { w.markClass 1 with cntMat := w.cntMat + 1 }, id)

/-- Commit entries of a group's lanes that name a tile; an issue that names the tile waits for them (R340). -/
def tilePending (w : Warp) (lanes : List Nat) (tile : Nat) : List Nat :=
  lanes.filter fun l => (w.lane l).commits.any fun c => c.dest == .tile tile && c.value.isNone

/-- Commit the entries that name a tile (R340). -/
def commitTile (s : State) (g : Group) (tile : Nat) : State :=
  s.onLanes g.key g.lanes fun x => { x with commits := x.commits.filter fun c => c.dest != .tile tile }

/-- A tile field beyond the warp's limit (R98). -/
def tileFail (w : Warp) (t : Nat) : Option Fail := failIf (t ≥ w.segs.alim.toNat) (failSegment 3 t)

/-- The layout registers of a matrix instruction, and the first that is poisoned, as its field value. -/
def readLayout (s : State) (g : Group) (w : Warp) (y : BitVec 7) : List PWord := readRegs s g w (g.lanes.headD 0) y.toNat 3

/-- The first poisoned register of a layout. -/
def layoutPoison (s : State) (g : Group) (w : Warp) (y : BitVec 7) : Option Fail :=
  let vs := readLayout s g w y
  ((List.range 3).find? fun k => (vs.getD k PWord.zero).poison).map fun k => failContain 4 (y.toNat + k)

/-- The layout that a matrix instruction names. -/
def theLayout (s : State) (g : Group) (w : Warp) (y : BitVec 7) : Layout :=
  let vs := readLayout s g w y
  layoutOf (vs.getD 0 PWord.zero).val (vs.getD 1 PWord.zero).val (vs.getD 2 PWord.zero).val

/-- The third register of a layout, as the trap reports it (R87). -/
def layoutThird (s : State) (g : Group) (w : Warp) (y : BitVec 7) : Nat := ((readLayout s g w y).getD 2 PWord.zero).val.toNat

/-- The format word on the primary lanes. -/
def formatVotes (s : State) (g : Group) (w : Warp) (m : BitVec 7) : List (Nat × PWord) :=
  (accessLanes w g.lanes).map fun l => (l, readField s g w l m.toNat)

/-- Failures of the format word: poison at rank 5, the vote at rank 6 (R73, R325). -/
def formatFails (w : Warp) (vs : List (Nat × PWord)) (m : BitVec 7) : List (Nat × Fail) :=
  let bad := (vs.filter (·.2.poison)).map fun v => (v.1, failContain 4 m.toNat)
  let diff := disagreeing vs
  let word := (firstVote vs).toNat
  bad ++ diff.map fun l => (l, ⟨6, 0x08, word + 2 ^ 32 * w.visible (diff.headD 0)⟩)

/-- The comparison of the lanes' operands of an engine command (R32). -/
def commandSigs (s : State) (g : Group) (w : Warp) (regs : List (BitVec 7)) : List Sig :=
  g.lanes.map fun l => ⟨l, 3, regs.map fun r => (readField s g w l r.toNat).val.toNat⟩

/-! Permutation tables (R220). -/

/-- The table read of an issue with pen = 1: failed checks, a wait, or entries 0 to K - 1, the identity for base 0, with the unacknowledged
writes that the read returned (R136). -/
inductive TableRead where
  | ok (perm seen : List Nat)
  | fail (f : Fail)
  | wait (ask : State → State)

/-- The list is a permutation of 0 to k - 1. -/
def isPermutation (k : Nat) (es : List Nat) : Bool := es.length == k && (List.range k).all fun c => es.contains c

/-- Read table ptab, as loads of the issuing thread, after every other check has passed (R220). -/
def readTable (s : State) (g : Group) (w : Warp) (f : Nat) : TableRead :=
  let base := (s.launchWord w 11).toNat
  if !fmtPen f || base == 0 then .ok [] []
  else
    let k := fmtDepth f
    let va := base + 4096 * fmtPtab f
    match translateFor s g.core w.ctx.toNat 10 va 5 w.system with
    | (some x, _) => .fail x
    | (none, none) => .wait fun s => s.askWalk g.core w.ctx.toNat va 5
    | (none, some e) =>
      let pa := s.locate e va
      let l := g.lanes.headD 0
      let lines := (linePieces pa (2 * k)).map fun p => lineOf p.2.1
      if !(loadAfter s (w.lane l) (g.agent l) pa (2 * k) e.kind).isEmpty || lines.any s.lineHeld then .wait id
      else
        let seen := lines.flatMap fun line => overlayStores (ownStores s g.core line) (s.homeLine line).1
        let bytes := (seen.drop (pa % 128)).take (2 * k)
        let es := (List.range k).map fun c => leNat ((bytes.drop (2 * c)).take 2)
        if (s.homeRead pa (2 * k)).2 then .fail ⟨10, 0x0D, 4⟩
        else if !isPermutation k es then .fail ⟨7, 0x01, f + 2 ^ 32⟩
        else .ok es (writesSeen s g.core pa (2 * k))

/-! The instructions. -/

/-- Every lane of the group fails. -/
def allFail (g : Group) (f : Option Fail) : List (Nat × Fail) :=
  match f with
  | some f => g.lanes.map (·, f)
  | none => []

/-- The common issue of a matrix instruction: failed checks trap, a tile's pending entry or a full queue waits, then the table is
read and the command posted (R339, R340). `la` is none when the instruction makes no entry and its lanes go on. -/
def issueMatrix (g : Group) (s : State) (w : Warp) (sigs : List Sig) (fails : List (Nat × Fail)) (tile : Option Nat)
    (table : Option Nat) (op : List Nat → MatOp) (la : Option Nat) : IssueResult :=
  if !fails.isEmpty then .trap sigs fails
  else
    let pend := match tile with
      | some t => tilePending w g.lanes t
      | none => []
    if !pend.isEmpty then .wait pend id
    else if matrixFull s g w then .wait g.lanes id
    else
      match (match table with
        | some f => readTable s g w f
        | none => .ok [] []) with
      | .fail f => .trap sigs (g.lanes.map (·, f))
      | .wait ask => .wait g.lanes ask
      | .ok perm seen =>
        let s := if seen.isEmpty then s else s.noteSeen g.key g.lanes seen
        let s := match tile with
          | some t => commitTile s g t
          | none => s
        match la with
        | none => .done sigs (postMatrix s g w (op perm) []).1
        | some la =>
          let la := if w.inHandler then 0 else la
          let (s, id) := postMatrix s g w (op perm) g.lanes
          if la = 0 then .done sigs (s.onLanes g.key g.lanes fun x => { x with loads := x.loads ++ [id] })
          else .done sigs (s.onLanes g.key g.lanes fun x =>
            { x with commits := x.commits ++ [⟨.tile (tile.getD 0), la + 1, none, 0, none, some id⟩] })

/-- Checks of a format word that has been voted, at rank 7 (R73, R345). -/
def formatCheck (ok : Bool) (f : Nat) : Option Fail := failIf (!ok) ⟨7, 0x01, f + 2 ^ 32⟩

/-- `bld` (R341). -/
def runBld (y m : BitVec 7) (g : Group) (s : State) : IssueResult :=
  match s.warpAt g.key with
  | none => .wait g.lanes id
  | some w =>
    let vs := formatVotes s g w m
    let f := (firstVote vs).toNat
    let lay := theLayout s g w y
    let group := firstFail ([layoutPoison s g w y, formatCheck (formatLegal f) f] ++
      layoutFails lay (layoutThird s g w y) (widthB f) (if formatLegal f then fmtDepth f else 32) (fmtScl f) w.segs.slim.toNat)
    issueMatrix g s w (commandSigs s g w [m]) (formatFails w vs m ++ allFail g group) none (some f) (fun p => .bld lay f p) none

/-- `bsel` (R342). -/
def runBsel (t : BitVec 4) (m : BitVec 7) (g : Group) (s : State) : IssueResult :=
  match s.warpAt g.key with
  | none => .wait g.lanes id
  | some w =>
    let vs := formatVotes s g w m
    let f := (firstVote vs).toNat
    let ok := formatLegal f && t.toNat % fmtCount f == 0
    issueMatrix g s w (commandSigs s g w [m]) (formatFails w vs m ++ allFail g (formatCheck ok f)) none none
      (fun _ => .bsel f t.toNat) none

/-- `mma` and `mmaz` (R343). -/
def runMmaWith (zero : Bool) (t : BitVec 6) (y m : BitVec 7) (la : BitVec 4) (g : Group) (s : State) : IssueResult :=
  match s.warpAt g.key with
  | none => .wait g.lanes id
  | some w =>
    let vs := formatVotes s g w m
    let f := (firstVote vs).toNat
    let lay := theLayout s g w y
    let tile := w.segs.abase.toNat + t.toNat
    let group := firstFail ([layoutPoison s g w y, formatCheck (formatLegal f) f, tileFail w t.toNat] ++
      layoutFails lay (layoutThird s g w y) (widthA f) (if formatLegal f then fmtDepth f else 32) (fmtScl f) w.segs.slim.toNat)
    issueMatrix g s w (commandSigs s g w [m]) (formatFails w vs m ++ allFail g group) (some tile) (some f)
      (fun p => .mma zero tile lay f p) (some la.toNat)

def runMma (t : BitVec 6) (y m : BitVec 7) (l : BitVec 4) := runMmaWith false t y m l
def runMmaz (t : BitVec 6) (y m : BitVec 7) (l : BitVec 4) := runMmaWith true t y m l

/-- `acz` (R344). -/
def runAcz (t : BitVec 6) (g : Group) (s : State) : IssueResult :=
  match s.warpAt g.key with
  | none => .wait g.lanes id
  | some w =>
    let tile := w.segs.abase.toNat + t.toNat
    issueMatrix g s w [] (allFail g (tileFail w t.toNat)) (some tile) none (fun _ => .acz tile) none

/-- `acld` (R344). -/
def runAcld (t : BitVec 6) (y : BitVec 7) (g : Group) (s : State) : IssueResult :=
  match s.warpAt g.key with
  | none => .wait g.lanes id
  | some w =>
    let lay := theLayout s g w y
    let tile := w.segs.abase.toNat + t.toNat
    let group := firstFail ([layoutPoison s g w y, tileFail w t.toNat] ++
      layoutFails lay (layoutThird s g w y) 32 128 false w.segs.slim.toNat)
    issueMatrix g s w [] (allFail g group) (some tile) none (fun _ => .acld tile lay) none

/-- `acst` (R345). -/
def runAcst (t : BitVec 6) (y m : BitVec 7) (g : Group) (s : State) : IssueResult :=
  match s.warpAt g.key with
  | none => .wait g.lanes id
  | some w =>
    let vs := formatVotes s g w m
    let f := (firstVote vs).toNat
    let lay := theLayout s g w y
    let tile := w.segs.abase.toNat + t.toNat
    let group := firstFail ([layoutPoison s g w y, formatCheck (storeFormatLegal f) f, tileFail w t.toNat] ++
      layoutFails lay (layoutThird s g w y) (storeWidth f) 128 (fmtScl f) w.segs.slim.toNat)
    issueMatrix g s w (commandSigs s g w [m]) (formatFails w vs m ++ allFail g group) (some tile) none
      (fun _ => .acst tile lay f) none

/-- The checks of a lane's offset into a tile (R324, R346). -/
def accFail (s : State) (g : Group) (w : Warp) (a : BitVec 7) (t : Nat) (extra : Nat → List (Option Fail)) (l : Nat) : Option Fail :=
  let o := readField s g w l a.toNat
  firstFail ([failIf o.poison (failContain 1 a.toNat)] ++ extra l ++
    [failIf (o.val.toNat % 4 != 0) (failAlign 3 o.val.toNat),
     failIf (o.val.toNat ≥ 65536 || t ≥ w.segs.alim.toNat) (failSegment 3 o.val.toNat)])

/-- `acrd` (R346): la is honoured; each lane's value arrives when the command completes. -/
def runAcrd (d a : BitVec 7) (la : BitVec 4) (t : BitVec 6) (g : Group) (s : State) : IssueResult :=
  match s.warpAt g.key with
  | none => .wait g.lanes id
  | some w =>
    let tile := w.segs.abase.toNat + t.toNat
    let fails := laneFails g.lanes (accFail s g w a t.toNat fun _ => [])
    let pend := tilePending w g.lanes tile
    let sigs := offsetSigs s g w a
    if !fails.isEmpty then .trap sigs fails
    else if !pend.isEmpty then .wait pend id
    else if matrixFull s g w then .wait g.lanes id
    else
      let la := if w.inHandler then 0 else la.toNat
      let scalar := isScalarDest d.toNat
      let lead := g.lanes.headD 0
      let reads := g.lanes.map fun l =>
        let src := if w.protected' then l / 2 * 2 else l
        (l, (readField s g w src a.toNat).val.toNat, if scalar && l != lead then Dest.discard else destOf w l d.toNat 1)
      let (s, id) := postMatrix (commitTile s g tile) g w (.acrd tile reads) g.lanes
      if la = 0 then .done sigs (s.onLanes g.key g.lanes fun x => { x with loads := x.loads ++ [id] })
      else .done sigs ((g.lanes.filter fun l => !scalar || l == lead).foldl (fun s l =>
        s.onLanes g.key [l] fun x =>
          { x with commits := x.commits ++ [⟨destOf w l d.toNat 1, la + 1, none, 0, none, some id⟩] }) s)

/-- `acwr` (R346). -/
def runAcwr (d a : BitVec 7) (t : BitVec 6) (g : Group) (s : State) : IssueResult :=
  match s.warpAt g.key with
  | none => .wait g.lanes id
  | some w =>
    let tile := w.segs.abase.toNat + t.toNat
    let value (l : Nat) : PWord := readField s g w l d.toNat
    let fails := laneFails g.lanes (accFail s g w a t.toNat fun l => [failIf (value l).poison (failContain 4 d.toNat)])
    let writes := (accessLanes w g.lanes).map fun l => ((readField s g w l a.toNat).val.toNat, value l)
    issueMatrix g s w (offsetSigs s g w a ++ dataSigs s g w d 4) fails (some tile) none (fun _ => .acwr tile writes) none

/-- `acscl` (R346): d is voted across the active lanes. -/
def runAcscl (d : BitVec 7) (t : BitVec 6) (g : Group) (s : State) : IssueResult :=
  match s.warpAt g.key with
  | none => .wait g.lanes id
  | some w =>
    let tile := w.segs.abase.toNat + t.toNat
    let vs := (accessLanes w g.lanes).map fun l => (l, readField s g w l d.toNat)
    let diff := disagreeing vs
    let fails := ((vs.filter (·.2.poison)).map fun v => (v.1, failContain 4 d.toNat)) ++
      (diff.map fun l => (l, ⟨6, 0x09, 16 * w.visible (diff.headD 0)⟩)) ++ allFail g (tileFail w t.toNat)
    issueMatrix g s w (commandSigs s g w [d]) fails (some tile) none
      (fun _ => .acscl tile (firstVote vs)) none

end Sys2Proof.Machine
end

