-- ==== Sys2Proof/Machine/MatrixEngine.lean ====
section
/-! DEFINITION. The matrix engine of a core: its arithmetic (spec/03_values.md R74 to R77), its commands' effects (spec/14 R341 to R346),
macro exchange (spec/04 R95, R96) and its three steps (R347). -/

namespace Sys2Proof.Machine

/-! Elements and blocks (R64, R75). -/

/-- The float format of an element code, none for q8 and q4 (R72). -/
def codeFormat (c : Nat) : Option FpFormat :=
  match c with
  | 2 => some .m8
  | 3 => some .m8w
  | 4 => some .m4
  | 5 => some .h16
  | 6 => some .w16
  | _ => none

/-- The value of an element code: q8 and q4 are integers (R63). -/
def elementVal (c v : Nat) : FpVal :=
  match codeFormat c with
  | some f => f.unpack v
  | none =>
    let n := (codeWidth c).getD 8
    let x := (BitVec.ofNat n v).toInt
    .num (x < 0) x.natAbs 0

/-- The exponent of an m8 or m8w element as R75 takes it: the exponent field, 1 for a subnormal; none for zero or a special. -/
def alignExp (f : FpFormat) (v : Nat) : Option Nat :=
  match f.unpack v with
  | .num _ m _ =>
    let e := v / 2 ^ f.fracBits % 2 ^ f.expBits
    if m == 0 then none else some (max e 1)
  | _ => none

/-- A magnitude shifted left by k places; a negative k shifts right and rounds to nearest even (R75). -/
def shiftNearest (m : Nat) (k : Int) : Nat := (roundAt 0 false m k false 0).1

/-- The aligned integers of a block's elements and their unit exponent (R75, R76). -/
def alignBlock (c : Nat) (vs : List Nat) : List Int × Int :=
  match c with
  | 2 | 3 =>
    let f := if c == 2 then FpFormat.m8 else FpFormat.m8w
    let keep : Int := if c == 2 then 7 else 8
    let emax := (vs.filterMap (alignExp f)).foldl max 1
    let one (v : Nat) : Int :=
      match f.unpack v, alignExp f v with
      | .num neg m _, some e =>
        let k := shiftNearest m (keep - ((emax : Int) - e))
        if neg then -(k : Int) else k
      | _, _ => 0
    (vs.map one, (emax : Int) - (if c == 2 then 17 else 25))
  | 4 => (vs.map fun v => match FpFormat.m4.unpack v with
      | .num neg m e => fpScaled neg m e (-1)
      | _ => 0, -1)
  | _ => (vs.map fun v => match elementVal c v with
      | .num neg m e => fpScaled neg m e 0
      | _ => 0, 0)

/-- The sum of the 32 products of a block with the exponent of its unit: exact values for the 16-bit class (R76), aligned integers
otherwise (R75). -/
def blockSum (ca cb : Nat) (xs ys : List Nat) : Int × Int :=
  if (codeWidth ca).getD 8 == 16 then
    (((xs.zip ys).map fun (x, y) => productAt (-300) (elementVal ca x) (elementVal cb y)).sum, -300)
  else
    let a := alignBlock ca xs
    let b := alignBlock cb ys
    (((a.1.zip b.1).map fun (x, y) => x * y).sum, a.2 + b.2)

/-- The value t of one block (R74): its special result, or the exact sum scaled and rounded once to nearest even. -/
def blockTerm (ca cb sa sb : Nat) (xs ys : List Nat) : Nat :=
  let ps := (xs.map (elementVal ca)).zip (ys.map (elementVal cb))
  let infs := infiniteSigns ps
  if sa == 0xFF || sb == 0xFF || ps.any (fun (p, q) => p.isNaN || q.isNaN || fpZeroTimesInf p q) ||
      (infs.contains true && infs.contains false) then FpFormat.f32.nan
  else match infs with
    | neg :: _ => FpFormat.f32.signed neg FpFormat.f32.infCode
    | [] =>
      let (v, u) := blockSum ca cb xs ys
      (FpFormat.f32.roundInt 0 false v (((sa : Int) - 127) + ((sb : Int) - 127) + u)).1

/-- The 32-bit sum of an accumulator element and a block's term, in mode rm; a finite sum that overflows is clamped when sat holds
(R74, R77). -/
def accAdd (rm : Nat) (sat : Bool) (acc t : Nat) : Nat :=
  (FpFormat.f32.add rm sat (FpFormat.f32.unpack acc) (FpFormat.f32.unpack t)).1

/-! Macros (R93, R94, R341). -/

/-- The key of a physical macro. -/
def macroKey (core m : Nat) : Nat := core * 16 + m

def State.macro (s : State) (core m : Nat) : Macro := s.mem.macros.getD (macroKey core m) Macro.init

def State.setMacro (s : State) (core m : Nat) (x : Macro) : State :=
  { s with mem := { s.mem with macros := s.mem.macros.put (macroKey core m) x Macro.init } }

/-- The element of row r of column j at a width (R94). -/
def Macro.element (x : Macro) (w r j : Nat) : Nat := (x.cols.getD j 0).toNat / 2 ^ (w * r) % 2 ^ w

/-- The scale byte of block b of column j: 0x7F until written (R93). -/
def Macro.scale (x : Macro) (b j : Nat) : Nat := (x.scales.getD (128 * b + j) 0x7F#8).toNat

/-! Scratch reads and writes of a command (R84, R87). -/

/-- The element at a layout's place, of w bits (R87, R64). -/
def scratchElement (s : State) (core sbase : Nat) (y : Layout) (w i c : Nat) : Nat × Bool :=
  let a := scratchAddr core (sbase + y.elem w i c)
  let (bs, p) := s.mem.scratch.readPoison 4 a ((w + 7) / 8)
  (if w == 4 then leNat bs / 2 ^ (4 * (c % 2)) % 16 else leNat bs, p)

/-- The scale byte at a layout's place. -/
def scratchScale (s : State) (core sbase : Nat) (y : Layout) (k i b : Nat) : Nat × Bool :=
  let (bs, p) := s.mem.scratch.readPoison 4 (scratchAddr core (sbase + y.scale k i b)) 1
  (leNat bs, p)

/-- Write bytes at scratch offsets, each with its poison: a word written in full is cleared, a word that takes a poisoned byte is
poisoned (R85, R345). -/
def writeScattered (s : State) (core sbase : Nat) (bs : List (Nat × Byte × Bool)) : State :=
  s.onScratch fun m =>
    let at' (o : Nat) : Nat := scratchAddr core (sbase + o)
    let m := bs.foldl (fun m (o, b, _) => m.write (at' o) b) m
    let words := (bs.map fun x => at' x.1 / 4).dedup
    let touched := bs.map fun x => at' x.1
    let m := words.foldl (fun m k => if (List.range 4).all fun i => touched.contains (4 * k + i) then m.setPoison k false else m) m
    bs.foldl (fun m (o, _, p) => if p then m.setPoison (at' o / 4) true else m) m

/-- The permuted channel of place c: the table's entry, or c itself (R74). -/
def channelAt (perm : List Nat) (c : Nat) : Nat := if perm.isEmpty then c else perm.getD c c

/-! Effects of the commands. -/

/-- `bld` (R341). -/
def bldEffect (s : State) (core wg sbase : Nat) (y : Layout) (f : Nat) (perm : List Nat) : State :=
  let w := widthB f
  let rows := macroRows w
  let k := fmtDepth f
  (List.range (fmtCount f)).foldl (fun s q =>
    let cols := (List.range 128).map fun j =>
      let es := (List.range rows).map fun r => scratchElement s core sbase y w j (channelAt perm (q * rows + r))
      let bitsOf := es.zipIdx.foldl (fun acc (e, r) => acc + e.1 * 2 ^ (w * r)) 0
      let scs := if fmtScl f then (List.range (rows / 32)).map fun b => scratchScale s core sbase y k j (q * (rows / 32) + b)
        else (List.range (rows / 32)).map fun _ => (0x7F, false)
      (BitVec.ofNat 1024 bitsOf, scs, es.any (·.2) || scs.any (·.2))
    let x : Macro := ⟨some wg,
      cols.zipIdx.foldl (fun m (c, j) => m.put j c.1 0) [],
      cols.zipIdx.foldl (fun m (c, j) => c.2.1.zipIdx.foldl (fun (m : NMap Byte) (sc, b) =>
        NMap.put m (128 * b + j) (BitVec.ofNat 8 sc.1) 0x7F#8) m) [],
      BitVec.ofNat 128 (cols.zipIdx.foldl (fun n (c, j) => if c.2.2 then n + 2 ^ j else n) 0), fmtB f⟩
    s.setMacro core (fmtFirst f + q) x) s

/-- `bsel` (R342). -/
def bselEffect (s : State) (core wg f dst : Nat) : State :=
  (List.range (fmtCount f)).foldl (fun s q =>
    if dst == fmtFirst f then s
    else s.setMacro core (dst + q) { s.macro core (fmtFirst f + q) with owner := some wg }) s

/-- The element (i, j) of a tile and its poison (R98). -/
def tileElement (s : State) (core tile i j : Nat) : Nat × Bool :=
  let a := tileAddr core tile (512 * i + 4 * j)
  (leNat (s.mem.acc.readBytes a 4), s.mem.acc.poisoned (a / 4))

/-- Write element (i, j) of a tile with its poison. -/
def setTileElement (s : State) (core tile i j v : Nat) (p : Bool) : State :=
  let a := tileAddr core tile (512 * i + 4 * j)
  s.onAcc fun m => (m.writeBytes a (leBytes 4 v)).setPoison (a / 4) p

/-- Change every element of a tile, in row order. -/
def mapTile (s : State) (core tile : Nat) (f : Nat → Nat → Nat × Bool → Nat × Bool) : State :=
  (List.range 128).foldl (fun s i => (List.range 128).foldl (fun s j =>
    let r := f i j (tileElement s core tile i j)
    setTileElement s core tile i j r.1 r.2) s) s

/-- One block of an operand: its 32 codes, its scale, and its poison. -/
structure BlockIn where
  codes : List Nat
  scale : Nat
  poison : Bool

/-- Block b of row i of A (R74, R343). -/
def blockA (s : State) (core sbase : Nat) (y : Layout) (f : Nat) (perm : List Nat) (i b : Nat) : BlockIn :=
  let es := (List.range 32).map fun k => scratchElement s core sbase y (widthA f) i (channelAt perm (32 * b + k))
  let sc := if fmtScl f then scratchScale s core sbase y (fmtDepth f) i b else (127, false)
  ⟨es.map (·.1), sc.1, es.any (·.2) || sc.2⟩

/-- Block b of column j of B, from the macro set (R341, R343). -/
def blockB (s : State) (core f j b : Nat) : BlockIn :=
  let rows := macroRows (widthB f)
  let x := s.macro core (fmtFirst f + 32 * b / rows)
  let es := (List.range 32).map fun k => x.element (widthB f) ((32 * b + k) % rows) j
  ⟨es, if fmtScl f then x.scale (b % (rows / 32)) j else 127, x.poison.getLsbD j⟩

/-- The new value of one accumulator element: one addition per block, in ascending order (R74, R77). -/
def mmaElement (f : Nat) (as bs : List BlockIn) (acc : Nat × Bool) : Nat × Bool :=
  let v := (as.zip bs).foldl (fun v (a, b) =>
    accAdd (fmtRound f) (fmtSat f) v (blockTerm (fmtA f) (fmtB f) a.scale b.scale a.codes b.codes)) acc.1
  (v, acc.2 || as.any (·.poison) || bs.any (·.poison))

/-- `mma` and `mmaz` (R343). -/
def mmaEffect (s : State) (core sbase : Nat) (zero : Bool) (tile : Nat) (y : Layout) (f : Nat) (perm : List Nat) : State :=
  let blocks := List.range (fmtDepth f / 32)
  let rows := (List.range 128).map fun i => blocks.map (blockA s core sbase y f perm i)
  let cols := (List.range 128).map fun j => blocks.map (blockB s core f j)
  mapTile s core tile fun i j acc => mmaElement f (rows.getD i []) (cols.getD j []) (if zero then (0, false) else acc)

/-- A value converted to the output format of an `acst` (R71, R345). -/
def storeCode (c rm : Nat) (sat : Bool) (v : FpVal) : Nat :=
  match codeFormat c with
  | some f => (f.convert rm sat v).1
  | none =>
    let t := ((codeWidth c).getD 8, true)
    let x : Int := match v with
      | .nan _ => 0
      | .inf neg => if neg then intMin t else intMax t
      | .num neg m e => intClamp t (fpToInt rm neg m e).1
    (x % 2 ^ t.1).toNat

/-- The exponent E of R345 for an output format. -/
def storeBias (c : Nat) : Int :=
  match c with
  | 2 => 8
  | 3 => 15
  | 0 => 6
  | _ => 2

/-- The NaN code of an output format, 0 where it has none (R345). -/
def storeNaN (c : Nat) : Nat :=
  match c with
  | 2 => 0x7F
  | 3 => 0x7E
  | _ => 0

/-- The exponent floor(log2 |v|) of a nonzero finite value. -/
def valLog2 (v : FpVal) : Option Int :=
  match v with
  | .num _ m e => if m == 0 then none else some ((Nat.log2 m : Int) + e)
  | _ => none

/-- The codes and the scale of one block of 32 values under scl = 1 (R345). -/
def scaledBlock (c rm : Nat) (vs : List FpVal) : List Nat × Nat :=
  if vs.any fun v => match v with | .num .. => false | _ => true then (vs.map fun _ => storeNaN c, 0xFF)
  else match vs.filterMap valLog2 with
    | [] => (vs.map fun _ => 0, 0)
    | e :: es =>
      let top := es.foldl max e
      let sc := max 0 (top - storeBias c + 127)
      (vs.map fun v => match v with
        | .num neg m x => storeCode c rm true (.num neg m (x - (sc - 127)))
        | v => storeCode c rm true v, sc.toNat)

/-- The bytes of one block of a tile's row as `acst` writes them: offsets, bytes, poison (R345, R64). -/
def storeBlock (s : State) (core tile : Nat) (y : Layout) (f i b : Nat) : List (Nat × Byte × Bool) :=
  let w := storeWidth f
  let es := (List.range 32).map fun k => tileElement s core tile i (32 * b + k)
  let vals := es.map fun e => FpFormat.f32.unpack e.1
  let (codes, sc) :=
    if fmtScl f then scaledBlock (fmtA f) (fmtRound f) vals
    else if w == 32 then (es.map (·.1), 0)
    else (vals.map (storeCode (fmtA f) (fmtRound f) (fmtSat f)), 0)
  let packed := codes.zipIdx.foldl (fun acc (c, k) => acc + c * 2 ^ (w * k)) 0
  let bad (o : Nat) : Bool := (List.range 32).any fun k => w * k / 8 ≤ o && o < (w * k + w + 7) / 8 && (es.getD k (0, false)).2
  let data := (leBytes (4 * w) packed).zipIdx.map fun (x, o) =>
    (permute y.pmode (y.base + i * y.st0 + b * y.st1 + o), x, bad o)
  if fmtScl f then data ++ [(y.scale 128 i b, BitVec.ofNat 8 sc, es.any (·.2))] else data

/-- `acst` (R345). -/
def acstEffect (s : State) (core sbase tile : Nat) (y : Layout) (f : Nat) : State :=
  writeScattered s core sbase
    ((List.range 128).flatMap fun i => (List.range 4).flatMap fun b => storeBlock s core tile y f i b)

/-- Give each lane of an `acrd` its element (R346). -/
def acrdEffect (s : State) (core warp id tile : Nat) (reads : List (Nat × Nat × Dest)) : State :=
  let s := reads.foldl (fun s (l, o, d) =>
    let a := tileAddr core tile o
    let v : PWord := ⟨BitVec.ofNat 32 (leNat (s.mem.acc.readBytes a 4)), s.mem.acc.poisoned (a / 4)⟩
    match s.warpAt warp with
    | none => s
    | some w =>
      let s := if (w.lane l).loads.contains id then writeDest s (warp / 64) (warp / 8 % 8) (warp % 8) l d [v] else s
      s.onLanes warp [l] fun x => { x with
        commits := x.commits.map fun e => if e.op == some id then { e with value := some [v], op := none } else e }) s
  s.onWarp warp fun w => { w with lanes := w.lanes.map fun x => { x with loads := x.loads.filter (· != id) } }

/-- The effect of a command on memories and registers. -/
def matrixEffect (s : State) (c : MatCmd) : State :=
  match c.op with
  | .bld y f p => bldEffect s c.core c.wg c.sbase y f p
  | .bsel f d => bselEffect s c.core c.wg f d
  | .mma z t y f p => mmaEffect s c.core c.sbase z t y f p
  | .acz t => mapTile s c.core t fun _ _ _ => (0, false)
  | .acld t y => mapTile s c.core t fun i j _ => scratchElement s c.core c.sbase y 32 i j
  | .acst t y f => acstEffect s c.core c.sbase t y f
  | .acrd t rs => acrdEffect s c.core c.warp c.id t rs
  | .acwr t ws => ws.foldl (fun s (o, v) => s.onAcc fun m => m.writePoison 4 (tileAddr c.core t o) (leBytes 4 v.val.toNat) v.poison) s
  | .acscl t k => mapTile s c.core t fun _ _ e =>
      ((FpFormat.f32.mul 0 (FpFormat.f32.unpack e.1) (FpFormat.f32.unpack k.toNat)).1, e.2)

/-! The engine's queue (R95, R98, R183, R347). -/

/-- The macros a command names. -/
def MatOp.macros (op : MatOp) : List Nat :=
  let set (f a : Nat) : List Nat := (List.range (fmtCount f)).map (a + ·)
  match op with
  | .bld _ f _ => set f (fmtFirst f)
  | .bsel f d => set f (fmtFirst f) ++ set f d
  | .mma _ _ _ f _ => set f (fmtFirst f)
  | _ => []

/-- The tile a command names. -/
def MatOp.tile (op : MatOp) : Option Nat :=
  match op with
  | .mma _ t _ _ _ | .acz t | .acld t _ | .acst t _ _ | .acrd t _ | .acwr t _ | .acscl t _ => some t
  | _ => none

/-- Two commands share a macro or a tile. -/
def MatOp.shares (a b : MatOp) : Bool :=
  a.macros.any b.macros.contains || (a.tile.isSome && a.tile == b.tile)

/-- The next command of a core to start: in issue order, but while a contract job runs there its commands come ahead of those of
held warps (R98, R172). -/
def nextCommand (s : State) (core : Nat) : Option MatCmd :=
  let waiting := s.mem.matrix.filter fun c => c.core == core && !c.started
  match waiting.find? fun c => s.urgent core c.wg with
  | some c => some c
  | none => waiting.head?

/-- A command's macros are its work-group's (R95). -/
def ownsMacros (s : State) (c : MatCmd) : Bool := c.op.macros.all fun m => (s.macro c.core m).owner == some c.wg

/-- MATRIX_COMMAND_START can take place. -/
def matrixStartReady (s : State) (c : MatCmd) : Bool :=
  (s.stillPending c.after).isEmpty && ownsMacros s c &&
    !(s.mem.matrix.any fun d => d.core == c.core && d.started && d.op.shares c.op)

def execMatrixCommandStart (core : Nat) (s : State) : Host.Outcome State Fault Refusal :=
  .next (match nextCommand s core with
    | some c => if matrixStartReady s c then
        { s with mem := { s.mem with matrix := s.mem.matrix.map fun d => if d.id == c.id then { d with started := true } else d } }
      else s
    | none => s)

/-- The oldest command of a core that has started. -/
def runningCommand (s : State) (core : Nat) : Option MatCmd := s.mem.matrix.find? fun c => c.core == core && c.started

/-- MATRIX_COMMAND_COMPLETE: the effect, the arrivals, and the retirement in one step (R187, R340, R347). -/
def matrixCompleteEffect (s : State) (c : MatCmd) : State :=
  let s := matrixEffect s c
  let s := { s with mem := { s.mem with matrix := s.mem.matrix.filter fun d => d.id != c.id } }
  let s := deliver s (.thread (c.warp / 64) (c.warp / 8 % 8) (c.warp % 8) 0) c.id c.lanes .discard []
  s.onWarp c.warp fun w => if w.wg == c.wg then { w with cntMat := w.cntMat - 1 } else w

/-! Macro exchange (R95, R96, R265). -/

/-- Bytes of a macro section of a save image. -/
def macroImageSize : Nat := 17472

/-- A macro as its image section holds it: bit-planes, scales, column poison, owner tag (R265). The order of the bits in a plane and
of the tag's fields is the model's (log entry 9): plane p is bits p·131072/w on, row-major over rows and columns; the tag holds the
`bfmt` in its first byte. -/
def macroBytes (x : Macro) : List Byte :=
  let w := (codeWidth x.fmt).getD 8
  let rows := macroRows w
  let planes := (List.range 16384).map fun byte =>
    BitVec.ofNat 8 ((List.range 8).foldl (fun n t =>
      let k := 8 * byte + t
      let p := k / (131072 / w)
      let r := k % (131072 / w) / 128
      let j := k % 128
      if r < rows && (x.cols.getD j 0).getLsbD (w * r + p) then n + 2 ^ t else n) 0)
  planes ++ ((List.range 1024).map fun k => x.scales.getD k 0x7F#8) ++ leBytes 16 x.poison.toNat ++ leBytes 48 x.fmt

/-- A macro from its image section. -/
def macroOfBytes (wg : Nat) (bs : List Byte) : Macro :=
  let fmt := leNat ((bs.drop 17424).take 1)
  let w := (codeWidth fmt).getD 8
  let rows := macroRows w
  let bit (k : Nat) : Bool := (bs.getD (k / 8) 0).getLsbD (k % 8)
  let cols := (List.range 128).map fun j => BitVec.ofNat 1024 ((List.range rows).foldl (fun n r =>
    (List.range w).foldl (fun n p => if bit (p * (131072 / w) + r * 128 + j) then n + 2 ^ (w * r + p) else n) n) 0)
  ⟨some wg, cols.zipIdx.foldl (fun (m : NMap (BitVec 1024)) (c, j) => NMap.put m j c 0) [],
    (List.range 1024).foldl (fun (m : NMap Byte) k => NMap.put m k (bs.getD (16384 + k) 0x7F#8) 0x7F#8) [],
    BitVec.ofNat 128 (leNat ((bs.drop 17408).take 16)), fmt⟩

/-- The spill slot of macro m of the work-group at position p of core c (R96). -/
def spillSlot (s : State) (core pos m : Nat) : Nat := s.cfg.spillBase + ((64 * core + pos) * 16 + m) * 18432

/-- Change a work-group. -/
def State.onGroup (s : State) (wg : Nat) (f : WorkGroup → WorkGroup) : State :=
  { s with work := { s.work with groups := s.work.groups.adjust wg f } }

/-- Put the macro that another work-group owns into that owner's spill slot (R95 step 2). -/
def spillMacro (s : State) (core m : Nat) : State :=
  let x := s.macro core m
  match x.owner with
  | none => s
  | some o => match s.work.groups.find o with
    | none => s
    | some g =>
      let s := s.poolWrite (spillSlot s core g.pos m) (macroBytes x)
      s.onGroup o fun g => { g with spill := g.spill ||| (1#16 <<< m) }

/-- Where the bytes of a macro of a work-group stand: in its spill slot, or in its save image (R95 step 3). -/
def macroSource (s : State) (core : Nat) (g : WorkGroup) (m : Nat) : Option Nat :=
  if g.spill.getLsbD m then some (spillSlot s core g.pos m) else (g.macroImage.find? fun e => e.1 == m).map (·.2)

/-- A work-group's spill mask and image no longer hold a macro. -/
def WorkGroup.took (g : WorkGroup) (m : Nat) : WorkGroup :=
  { g with spill := g.spill &&& ~~~(1#16 <<< m), macroImage := g.macroImage.filter fun e => e.1 != m }

/-- Exchange macro m of a core: its owner's contents go to the spill slot, and the work-group's own come from its spill slot, from its
save image, or as never written; what lies at another package is asked for first (R95, R96). -/
def exchangeEffect (s : State) (core wg m : Nat) : State :=
  match s.work.groups.find wg with
  | none => s
  | some g =>
    match macroSource s core g m with
    | none => (spillMacro s core m).setMacro core m { Macro.init with owner := some wg }
    | some pa => match s.poolRead pa macroImageSize with
      | none => s.poolAsk pa macroImageSize
      | some (bs, _) => (((spillMacro s core m).poolDrop pa macroImageSize).setMacro core m (macroOfBytes wg bs)).onGroup wg fun g => g.took m

/-- MACRO_EXCHANGE can take place: the next command names the macro, another work-group owns it, no running command uses it. -/
def exchangeReady (s : State) (core m : Nat) : Bool :=
  match nextCommand s core with
  | some c => c.op.macros.contains m && (s.macro core m).owner != some c.wg &&
      !(s.mem.matrix.any fun d => d.core == core && d.started && d.op.macros.contains m)
  | none => false

def execMacroExchange (core mac : Nat) (s : State) : Host.Outcome State Fault Refusal :=
  .next (match nextCommand s core with
    | some c => if exchangeReady s core mac then exchangeEffect s core c.wg mac else s
    | none => s)

end Sys2Proof.Machine
end

