-- ==== Sys2Proof/Machine/Ops.lean ====
section
/-! DEFINITION. The named operations that change every kind of state (spec/11_events.md): the end of a run, events for the H-die cores,
fault reports, halts, taking an exception, the return from one, and the reset of a work-group. -/

namespace Sys2Proof.Machine

/-! Runs (R20, R22, R24, R168). -/

/-- A lane stands parked at a cross-lane instruction, where its wait count stays (R24, R30). -/
def Lane.parkedCross (x : Lane) : Bool :=
  match x.park with
  | some p => isCrossLane p.instr
  | none => false

/-- A lane's wait count at a run boundary (R24). -/
def boundaryWait (r : Run) (l : Nat) (x : Lane) : Lane :=
  if x.parkedCross then x
  else if r.issued.contains l then { x with waitCount := 0 }
  else if r.startIssuable.contains l then { x with waitCount := min 7 (x.waitCount + 1) }
  else x

/-- End the run of the warp at key k: wait counts change, the stamp takes the run's number when it issued, the slot is free to choose
(R20, R22, R24, R168). -/
def endRun (s : State) (k : Nat) : State :=
  match s.warpAt k with
  | none => s
  | some w =>
    match w.run with
    | none => s
    | some r =>
      let core := k / 64
      let slot := k / 8 % 8
      let number := (s.slotAt core slot).runs
      let s := s.setWarp k { w with
        lanes := w.lanes.zipIdx.map fun (x, l) => boundaryWait r l x
        stamp := if r.issues > 0 then number else w.stamp
        skid := (w.skid.1, r.issues)
        run := none }
      s.onSlot core slot fun x => { x with running := if x.running == some (k % 8) then none else x.running }

/-! Events for the H-die cores (R432). -/

/-- The first eight bytes of an event's record (R432). -/
def eventHead (e : HostEvent) (seq : Nat) : DWord :=
  BitVec.ofNat 64 (e.kind + 256 * e.die + 65536 * (e.tag % 65536) + 2 ^ 32 * (seq % 2 ^ 32))

/-- Move waiting events into the ring while it has a free record; each raises the interrupt of vector 0 (R432). -/
def pumpEvents : Nat → State → State
  | 0, s => s
  | n + 1, s =>
    match s.host.waiting with
    | [] => s
    | e :: es =>
      if s.host.producer - s.host.consumer ≥ 1024 then s
      else
        let p := s.host.producer
        pumpEvents n { s with host := { s.host with
          records := s.host.records.insert (p % 1024) (eventHead e p :: e.payload)
          producer := p + 1, waiting := es, vectors := s.host.vectors ++ [0] } }

/-- Raise an event that waits for an answer; a full ring makes it wait, without loss (R432). -/
def raiseEvent (s : State) (kind die : Nat) (payload : List DWord) : State × Nat :=
  let (tag, s) := s.take
  let e : HostEvent := ⟨tag % 65536, kind, die, payload⟩
  let s := { s with host := { s.host with waiting := s.host.waiting ++ [e], pending := s.host.pending ++ [e] } }
  (pumpEvents s.host.waiting.length s, tag % 65536)

/-- Withdraw pending events (R432). -/
def withdrawEvents (s : State) (f : HostEvent → Bool) : State :=
  { s with host := { s.host with pending := s.host.pending.filter fun e => !f e, waiting := s.host.waiting.filter fun e => !f e } }

/-! Memory that hardware reads and writes by virtual address. -/

/-- The physical address of a virtual address in a context, when it maps to a byte of this package. -/
def State.virt (s : State) (ctx va : Nat) : Option Nat :=
  if va ≥ 2 ^ 57 then none
  else match s.walk ctx va with
    | .leaf e => if s.homed (e.at va) then some (s.locate e va) else none
    | _ => none

/-- Write bytes of a page at its home, and at the partner when the page is of the mirror class (R120). -/
def State.pageWrite (s : State) (e : TlbEntry) (va : Nat) (bs : List Byte) : State :=
  let s := s.hwWrite (e.at va) bs false
  if e.mirror then s.hwWrite (mirrorPartner (e.at va)) bs false else s

/-- Write bytes of one page at a virtual address of a context, the mirror copy too (R120); an address that does not translate, or is
unbacked, takes none. -/
def State.storeVirt (s : State) (ctx va : Nat) (bs : List Byte) : State :=
  if va ≥ 2 ^ 57 then s
  else match s.walk ctx va with
    | .leaf e =>
      let pa := e.at va
      if !s.backed pa then s
      else if s.homed pa then s.pageWrite e va bs
      else
        let s := s.poolWrite pa bs
        if e.mirror then s.poolWrite (mirrorPartner pa) bs else s
    | _ => s

/-- Where a byte of a fault domain's ring lies in the pool: physical for the system fault domain, virtual in the context otherwise (R215). -/
def State.domainAddr (s : State) (sys : Bool) (ctx a : Nat) : Option Nat :=
  if sys then (if s.backed a then some a else none)
  else if a ≥ 2 ^ 57 then none
  else match s.walk ctx a with
    | .leaf e => if s.backed (e.at a) then some (if s.homed (e.at a) then s.locate e a else e.at a) else none
    | _ => none

/-- Write bytes at an address of a fault domain (R215). -/
def State.domainWrite (s : State) (sys : Bool) (ctx a : Nat) (bs : List Byte) : State :=
  if sys then s.poolWrite a bs else s.storeVirt ctx a bs

/-! Fault reports (R261). -/

/-- What a report says beyond its code. -/
structure Report where
  code : Nat
  exited : Bool
  depth : Nat
  ctx : Nat
  pc : Nat
  wgid : Nat
  lsn : Nat
  core : Nat
  slot : Nat
  addr : Nat
  status : Nat
  detail : Nat

def Report.blank (code : Nat) : Report := ⟨code, false, 0, 0, 0, 0, 0, 0, 0, 0, 0, 0⟩

/-- The low word of a record's offset 0, and its bytes from offset 8 on (R261). -/
def Report.head (r : Report) : Nat := r.code + (if r.exited then 256 else 0) + 512 * r.depth + 65536 * r.ctx
def Report.body (r : Report) (ref : Nat) : List Byte :=
  leBytes 8 r.pc ++ leBytes 8 r.wgid ++ leBytes 8 (r.lsn + 2 ^ 32 * r.core + 2 ^ 39 * r.slot) ++ leBytes 8 r.addr ++
  leBytes 8 (r.status + 256 * r.detail) ++ leBytes 8 ref ++ leBytes 8 0

/-- The bytes of a report record with number n (R261). -/
def Report.bytes (r : Report) (n ref : Nat) : List Byte := leBytes 8 (r.head + 2 ^ 32 * (n % 2 ^ 32)) ++ r.body ref

/-- Write a report into its ring at an address of its domain, whose producer index, consumer index and lost count are known (R261). A
record that has no place in the pool is not written (log 26). -/
def State.putReport (s : State) (p : PendingReport) (ring log producer consumer lost : Nat) : State :=
  let entries := 2 ^ (log + 4)
  let place := ring + 64 + 64 * (producer % entries)
  if producer - consumer ≥ entries then s.domainWrite p.sys p.ctx (ring + 16) (leBytes 8 (min (lost + 1) (2 ^ 64 - 1)))
  else if (s.domainAddr p.sys p.ctx place).isNone then s
  else
    let s := s.domainWrite p.sys p.ctx (place + 8) p.body
    let s := s.domainWrite p.sys p.ctx place (leBytes 8 (p.head + 2 ^ 32 * (producer % 2 ^ 32)))
    s.domainWrite p.sys p.ctx ring (leBytes 8 (producer + 1))

/-- Write a report now if its ring's first bytes can be read: none while they have not come from another package. -/
def State.tryReport (s : State) (p : PendingReport) : Option State :=
  -- the system block names the system ring (R215); a block read with poison names none
  let place : Option (Option (Nat × Nat)) := match p.ring with
    | some x => some (some x)
    | none => (s.poolRead (s.cfg.sysDomain + 40) 24).map fun r =>
        if r.2 then none else some (leNat ((r.1.drop 8).take 8), bits 3 0 (leNat ((r.1.drop 16).take 8)))
  match place with
  | none => none
  | some none => some s
  | some (some (ring, log)) =>
    if ring == 0 then some (s.bump 0x3E00 1)
    else match s.domainAddr p.sys p.ctx ring with
      | none => some s
      | some base => (s.poolRead base 24).map fun r =>
          let s := (s.putReport p ring log (leNat (r.1.take 8)) (leNat ((r.1.drop 8).take 8)) (leNat (r.1.drop 16))).poolDrop base 24
          if p.ring.isNone then s.poolDrop (s.cfg.sysDomain + 40) 24 else s

/-- Ask for what a waiting report needs from another package. -/
def State.askReport (s : State) (p : PendingReport) : State :=
  let s := if p.ring.isNone then s.poolAsk (s.cfg.sysDomain + 40) 24 else s
  let ring : Option Nat := match p.ring with
    | some x => some x.1
    | none => (s.poolRead (s.cfg.sysDomain + 40) 24).map fun r => leNat ((r.1.drop 8).take 8)
  match ring.bind (s.domainAddr p.sys p.ctx) with
  | some base => s.poolAsk base 24
  | none => s

/-- Write the waiting reports whose rings have come, the oldest first; the next one asks anew (R261). -/
def pumpReports : Nat → State → State
  | 0, s => s
  | n + 1, s =>
    match s.ctl.reports with
    | [] => s
    | p :: ps => match s.tryReport p with
      | some s => pumpReports n { s with ctl := { s.ctl with reports := ps } }
      | none => s.askReport p

/-- Write a report to a ring: dropped and counted when the ring address is 0, counted as lost when the ring is full (R261, R244); a report
to a ring of another package waits until the ring's indexes have been read there, and those after it wait behind it. -/
def writeReport (s : State) (ring : Option (Nat × Nat)) (sys : Bool) (ctx : Nat) (r : Report) : State :=
  let p : PendingReport := ⟨ring, sys, ctx, r.head, r.body s.clk.ref.toNat⟩
  let s := { s with ctl := { s.ctl with reports := s.ctl.reports ++ [p] } }
  pumpReports s.ctl.reports.length s

/-- Report to a grid's effective fault domain (R215, R261). -/
def reportTo (s : State) (eff : BoughEff) (ctx : Nat) (r : Report) : State :=
  writeReport s (some (eff.ring.toNat, eff.ringLog)) eff.sysDomain ctx r

/-- Report to the system fault domain (R215): its ring address and size lie in the block that the configuration record names. -/
def reportSystem (s : State) (r : Report) : State :=
  if s.cfg.sysDomain = 0 then s.bump 0x3E00 1
  else writeReport s none true 0 r

/-- The grid of a work-group. -/
def State.gridOf (s : State) (wg : Nat) : Option Grid :=
  match s.work.groups.find wg with
  | some g => s.work.grids.find g.grid
  | none => none

/-- Report to the fault domain of a work-group (R261). -/
def reportGroup (s : State) (wg : Nat) (r : Report) : State :=
  match s.work.groups.find wg, s.gridOf wg with
  | some g, some gr => reportTo s gr.eff gr.ctx.toNat { r with ctx := gr.ctx.toNat, wgid := g.id.toNat, core := g.core }
  | _, _ => reportSystem s r

/-! Halts (R253). -/

/-- The keys of a work-group's resident warps, by slot and number. -/
def groupKeys (g : WorkGroup) : List Nat := g.warps.map fun x => warpKey g.core x.1 x.2

/-- Halt the warps of a work-group but one: each stops at its run's end or next repeat boundary (R253). -/
def haltOthers (s : State) (wg except : Nat) : State :=
  match s.work.groups.find wg with
  | none => s
  | some g => (groupKeys g).foldl (fun s k =>
      if k == except then s
      -- a warp without a run stops at a run boundary, where the run's issue count is 0 (R22, R242)
      else s.onWarp k fun w => if w.stop == .none then { w with stop := .halting, skid := (0, (w.run.map (·.issues)).getD 0) } else w) s

/-- The halt of a work-group ends: its stopped siblings' latches clear and they are ready again (R253). -/
def endHalt (s : State) (wg : Nat) : State :=
  match s.work.groups.find wg with
  | none => s
  | some g =>
    let s := s.onGroup wg fun g => { g with halt := none }
    (groupKeys g).foldl (fun s k => s.onWarp k fun w =>
      if w.stop == .halted then { w with stop := .none, latch := false }
      else if w.stop == .halting then { w with stop := .none } else w) s

/-! Handler entry (R249, R252). -/

/-- The physical lanes that a mask of visible lanes names. -/
def emaskLanes (w : Warp) (m : Word) : List Nat := (maskLanes w m).flatMap (physLanes w)

/-- The payload of an event of kind 5 (R252). -/
def trapPayload (s : State) (k : Nat) (w : Warp) : List DWord :=
  [BitVec.ofNat 64 (k / 64 + 256 * (k / 8 % 8) + 4096 * (k % 8) + 65536 * w.trap.cause.toNat + 2 ^ 24 * w.trap.erep.toNat +
    2 ^ 32 * w.trap.emask.toNat), s.wgId w, w.trap.epc, w.trap.einfo, w.ctx.zeroExtend 64, 0, 0]

/-- A 64-bit register as a PC: 57 bits, of which bits 1:0 are 0 (R49); the bits above are dropped (log 47). -/
def codeAddr (x : DWord) : VAddr := x.truncate 57 &&& ~~~3#57

/-- The lanes of `sr.emask` enter the handler in system mode and the others are held; without an entry PC, or under host-assisted
dispatch, the H-die cores receive the trap (R249, R252). -/
def enterHandler (s : State) (k : Nat) : State :=
  match s.warpAt k with
  | none => s
  | some w =>
    let entry : DWord := match s.gridOf w.wg with
      | some g => g.eff.handler
      | none => 0
    if s.hostMode 4 || entry == 0 then (raiseEvent s 5 (k / 64 / 32) (trapPayload s k w)).1
    else
      let lanes := emaskLanes w w.trap.emask
      s.setWarp k { w.setSystem true with
        stop := .none, inHandler := true
        lanes := w.lanes.zipIdx.map fun (x, l) =>
          if lanes.contains l then { x with pc := codeAddr entry, rep := 0, park := none, held := false }
          else { x with held := true } }

/-- The visible lanes of a list as a mask (R248: in protected mode `sr.emask` names visible lanes). -/
def visibleMask (w : Warp) (lanes : List Nat) : Word := laneMask ((lanes.map w.visible).dedup)

/-! Barriers (R91, R140, R239, R367). -/

/-- The unexited warps of a work-group. -/
def residentKeys (s : State) (g : WorkGroup) : List Nat := (groupKeys g).filter fun k => (s.warpAt k).isSome

/-- The work-groups of a gang. -/
def gangGroups (s : State) (gang : Nat) : List (Nat × WorkGroup) := s.work.groups.filter fun (_, g) => g.gang == some gang

/-- The unexited warps of a gang. -/
def gangKeys (s : State) (gang : Nat) : List Nat := (gangGroups s gang).flatMap fun (_, g) => residentKeys s g

/-- What a barrier makes later accesses follow: every earlier access of the warps that is not performed at the scope (R140). -/
def barrierSet (s : State) (keys : List Nat) (scope : Nat) : List Nat :=
  (keys.flatMap fun k => match s.warpAt k with
    | some w => w.lanes.zipIdx.flatMap fun (x, l) => fenceSet s x (.thread (k / 64) (k / 8 % 8) (k % 8) l) scope true
    | none => []).dedup

/-- A barrier instruction. -/
def isBarrier : Instr → Bool
  | .barWg _ | .barGang _ | .barX _ => true
  | _ => false

/-- Release the warps that have arrived at a barrier: their lanes parked at the `bar` pass it, and their accesses follow those before it
(R140, R239). A warp that has not arrived, or that a rollback has taken back, stays where it is. -/
def releaseBarrier (s : State) (keys : List Nat) (scope : Nat) : State :=
  let keys := keys.filter fun k => match s.warpAt k with
    | some w => w.barrier != 0
    | none => false
  let after := barrierSet s keys scope
  keys.foldl (fun s k => s.onWarp k fun w => { w with
    barrier := 0
    lanes := w.lanes.map fun x =>
      if x.park.any fun p => isBarrier p.instr then { x with park := none, pc := x.pc + 4, rep := 0, accessAfter := (s.stillPending x.accessAfter ++ after).dedup }
      else x }) s

/-- A work-group's barrier completes when every unexited warp has arrived (R239). -/
def settleGroup (s : State) (wg : Nat) : State :=
  match s.work.groups.find wg with
  | none => s
  | some g =>
    let keys := residentKeys s g
    if g.barCount > 0 && g.barCount ≥ keys.length then
      releaseBarrier (s.onGroup wg fun g => { g with barCount := 0, barPhase := !g.barPhase }) keys 0
    else s

/-- Change a gang. -/
def State.onGang (s : State) (gang : Nat) (f : Gang → Gang) : State :=
  { s with work := { s.work with gangs := s.work.gangs.adjust gang f } }

/-- The unexited warps of the saved members of a gang: their arrivals stand (R239). -/
def savedWarps (s : State) (gang : Nat) : Nat :=
  s.ctl.saved.foldl (fun n y => if y.2.group.gang == some gang then n + (y.2.group.warps.filter fun x => x.1 != 2 ^ 20).length else n) 0

/-- A gang's barrier is complete but for the condition of R91 (R239). -/
def gangArrived (s : State) (gang : Nat) : Bool :=
  match s.work.gangs.find gang with
  | some x => x.count > 0 && x.count ≥ (gangKeys s gang).length + savedWarps s gang &&
      (gangGroups s gang).all (fun g => g.2.resident || g.2.dead)
  | none => false

/-- Complete a gang's barrier: the count clears, the phase flips, the warps are released; those of a saved member pass it when they are
restored (R239). -/
def completeGang (s : State) (gang : Nat) : State :=
  let swap := match s.work.gangs.find gang with
    | some x => x.form == some true
    | none => false
  let keys := gangKeys s gang
  let after := barrierSet s keys 1
  let pass (y : Nat × Saved) : Nat × Saved :=
    if y.2.group.gang == some gang then (y.1, { y.2 with passed := some swap, after := after }) else y
  let s := { s with ctl := { s.ctl with saved := s.ctl.saved.map pass } }
  releaseBarrier (s.onGang gang fun x => { x with count := 0, phase := !x.phase, form := none }) keys 1

/-- A gang's `bar` completes as soon as every unexited warp has arrived; `bar.x` completes with the swap (R239). -/
def settleGang (s : State) (gang : Nat) : State :=
  match s.work.gangs.find gang with
  | some x => if gangArrived s gang && x.form == some false then completeGang s gang else s
  | none => s

/-- After a warp has left: its work-group's and its gang's barriers may complete (R239). -/
def settleBarriers (s : State) (wg : Nat) (gang : Option Nat) : State :=
  let s := settleGroup s wg
  match gang with
  | some n => settleGang s n
  | none => s

/-- The swap of a gang can take place: every warp has arrived at `bar.x` and its exchange stores are applied (R91). -/
def swapReady (s : State) (gang : Nat) : Bool :=
  match s.work.gangs.find gang with
  | some x => x.form == some true && gangArrived s gang && !(s.mem.exchStores.any fun e => (gangKeys s gang).contains e.warp)
  | none => false

/-- Flip the polarity of granules of a core. -/
def flipPolarity (s : State) (core first n : Nat) : State :=
  let p := s.mem.polarity.getD core 0 ^^^ BitVec.ofNat 16 ((2 ^ n - 1) * 2 ^ first)
  { s with mem := { s.mem with polarity := s.mem.polarity.put core p 0 } }

/-- EXCHANGE_POLARITY_SWAP: every granule of the gang's region flips on every member core, and the warps are released (R91). -/
def execExchangePolaritySwap (gang : Nat) (s : State) : Host.Outcome State Fault Refusal :=
  .next (if swapReady s gang then
      completeGang ((gangGroups s gang).foldl (fun s (_, g) => flipPolarity s g.core g.exch.1 g.exch.2) s) gang
    else s)

/-! The reset of a work-group (R179, R259). -/

/-- Commands of a work-group that are still queued or running. -/
def groupCommands (s : State) (wg : Nat) : Bool :=
  s.eng.copy.any (fun c => c.wg == wg && c.slot.isNone) || s.mem.matrix.any fun c => c.wg == wg

/-- Write a completion record: `sr.ref`, then the status (R217). -/
def writeCompletion (s : State) (ctx addr status : Nat) : State :=
  if addr == 0 then s else (s.storeVirt ctx (addr + 8) (leBytes 8 s.clk.ref.toNat)).storeVirt ctx addr (leBytes 8 status)

/-- A job of a contract is complete when no grid of it is left, here or launched by the rack root; a contract that is being removed goes with
its last job (R171, R175). -/
def settleJob (s : State) (n : Nat) : State :=
  if s.work.grids.any (fun x => x.2.job == some n) || s.dist.records.any (fun r => r.job == some n) || s.dist.away.contains n then s
  else match s.work.contracts.find n with
    | none => s
    | some c =>
      let cs := if bits 33 32 (c.entry.getD 1 0).toNat == 2 then s.work.contracts.erase n else s.work.contracts.insert n { c with job := none }
      { s with work := { s.work with contracts := cs } }

/-- One grid more, or less, that the job of a contract waits for: the package of the contract counts it, told through the rack root (R162,
R171). -/
def jobCount (s : State) (pkg contract : Nat) (more : Bool) : State :=
  if pkg == s.cfg.pkg then
    if more then { s with dist := { s.dist with away := s.dist.away ++ [contract] } }
    else settleJob { s with dist := { s.dist with away := s.dist.away.erase contract } } contract
  else s.send (if s.rackRoot == s.cfg.pkg then pkg else s.rackRoot) false (.jobCount pkg contract more)

/-- A launch of a job has ended or been refused. -/
def launchEnded (s : State) (job : Option Nat) (owner : Option (Nat × Nat)) : State :=
  let s := match job with
    | some n => settleJob s n
    | none => s
  match owner with
  | some (p, n) => jobCount s p n false
  | none => s

/-- A grid is complete: its record is written, with status 0x02 when it failed, and its job may be complete (R163, R217). -/
def completeGrid (s : State) (grid : Nat) (g : Grid) : State :=
  let s := { s with
    dist := { s.dist with remaining := s.dist.remaining.erase grid }
    work := { s.work with grids := s.work.grids.erase grid } }
  launchEnded (writeCompletion s g.ctx.toNat (g.record.getD 10 0).toNat (if g.failed then 2 else 1)) g.job g.owner

/-- n work-groups of a grid have exited or been discarded: the grid completes with its last one, where it was launched; the rack root of
another package is told (R159, R163). -/
def groupsDone (s : State) (grid n : Nat) : State :=
  match s.work.grids.find grid with
  | none => s
  | some g =>
    match s.dist.remaining.find grid, g.launch with
    | some r, _ =>
      if r ≤ n then completeGrid s grid g else { s with dist := { s.dist with remaining := s.dist.remaining.insert grid (r - n) } }
    | none, some l => s.send s.rackRoot false (.partDone l n g.failed)
    | none, none => s

/-- A gang ends with its last member. -/
def settleMembers (s : State) (gang : Option Nat) : State :=
  match gang with
  | none => s
  | some n =>
    if s.work.groups.any (fun x => x.2.gang == some n) || s.ctl.saved.any (fun x => x.2.group.gang == some n) then s
    else { s with work := { s.work with gangs := s.work.gangs.erase n } }

/-- A work-group leaves the package: its storage is free, and it counts as exited (R163, R165). -/
def removeGroup (s : State) (wg : Nat) (g : WorkGroup) : State :=
  let s := { s with
    work := { s.work with groups := s.work.groups.erase wg }
    mem := { s.mem with
      exchStores := s.mem.exchStores.filter fun (x : ExchStore) => x.wg != wg
      macros := s.mem.macros.map fun (x : Nat × Macro) => (x.1, if x.2.owner == some wg then { x.2 with owner := none } else x.2) } }
  groupsDone (settleMembers s g.gang) g.grid 1

/-- Free a work-group that was reset once every command of it has retired (R179). -/
def reapGroup (s : State) (wg : Nat) : State :=
  match s.work.groups.find wg with
  | some g => if g.dead && !groupCommands s wg then removeGroup s wg g else s
  | none => s

/-- An access made by a thread of the warps listed. -/
def ofWarps (keys : List Nat) : Agent → Bool
  | .thread c sl n _ => keys.contains (warpKey c sl n)
  | _ => false

/-- Discard the warps of a work-group: the loads in flight are dropped, unstarted commands complete as reset, macros lose their owner,
the grid is marked failed; its storage stays until its commands have retired (R179, R96). -/
def forcedReset (s : State) (wg : Nat) : State :=
  match s.work.groups.find wg with
  | none => s
  | some g =>
    let keys := groupKeys g
    let s := keys.foldl (fun s k => endRun s k) s
    let s := { s with
      thr := { s.thr with warps := s.thr.warps.filter fun x => !keys.contains x.1 }
      eng := { s.eng with copy := s.eng.copy.map fun c =>
        if c.wg == wg && c.slot.isNone && c.engine.isNone && c.status.isNone then { c with status := some 2 } else c }
      work := { s.work with grids := s.work.grids.adjust g.grid fun x => { x with failed := true } }
      mem := { s.mem with
        ops := s.mem.ops.filter fun (_, o) => !(o.isLoad && ofWarps keys o.agent)
        matrix := s.mem.matrix.filter fun c => !(c.wg == wg && !c.started)
        macros := s.mem.macros.map fun (k, x) => (k, if x.owner == some wg then { x with owner := none } else x) } }
    let s := withdrawEvents s fun e => e.kind == 5 && keys.any fun k =>
      ((e.payload.getD 0 0).toNat % 128, (e.payload.getD 0 0).toNat / 256 % 8, (e.payload.getD 0 0).toNat / 4096 % 8) == (k / 64, k / 8 % 8, k % 8)
    let s := s.onGroup wg fun g => { g with dead := true, warps := [], spill := 0 }
    settleBarriers (reapGroup s wg) wg g.gang

/-- Kill a work-group: report 0x26 with the reason, then the forced reset of it alone (R259). -/
def killWith (s : State) (wg : Nat) (r : Report) : State := forcedReset (reportGroup s wg r) wg

/-- A kill that no instruction causes (R259). -/
def killGroup (s : State) (wg reason : Nat) : State := killWith s wg { Report.blank 0x26 with detail := reason }

/-- What a kill of warp w, at key k, reports: the instruction concerned is the one at pc (R259, R261; DEDUCED, log 26). -/
def killReport (k : Nat) (w : Warp) (reason pc : Nat) : Report :=
  { Report.blank 0x26 with detail := reason, pc := pc, lsn := w.lsn.toNat, slot := k / 8 % 8, depth := w.rings.length }

/-- A kill on account of the warp at key k: the instruction concerned is the one that trapped (R259, R261). -/
def killWarp (s : State) (k : Nat) (w : Warp) (reason : Nat) : State := killWith s w.wg (killReport k w reason w.trap.epc.toNat)

/-! Taking an exception (R249, R250) and returning from it (R251). -/

/-- Trap entry of the warp at key k: the trap registers save the cause, the PC, the lanes, the repeat index and the detail; the latch is
set, the run ends, the work-group halts, and the lanes of `sr.emask` go to the handler with the system-mode bit set. A trap in the
handler with the latch set is a double trap: report 0x27, then the kill. A trap of a sibling that is halting waits its turn. -/
def trapEntry (s : State) (k : Nat) (t : TrapInfo) (pc : VAddr) (rep : Nat) : State :=
  match s.warpAt k with
  | none => s
  | some w =>
    if w.inHandler && w.latch then
      let r := { Report.blank 0x27 with pc := pc.toNat, addr := t.einfo, depth := w.rings.length }
      killWith (reportGroup s w.wg { r with lsn := w.lsn.toNat, slot := k / 8 % 8 }) w.wg (killReport k w 2 pc.toNat)
    else
      let issues := match w.run with
        | some r => r.issues
        | none => 0
      let s := endRun (s.setWarp k { w with
        trap := ⟨BitVec.ofNat 8 t.code, pc.zeroExtend 64, visibleMask w t.lanes, BitVec.ofNat 6 rep, BitVec.ofNat 64 t.einfo,
          BitVec.ofNat 10 (32 * issues)⟩
        latch := true, stop := .trapped }) k
      match s.work.groups.find w.wg with
      | none => enterHandler s k
      | some g =>
        if g.halt.isSome && !w.inHandler then s
        else
          let s := s.onGroup w.wg fun g => { g with halt := some (t.code, k / 8 % 8, k % 8) }
          enterHandler (haltOthers s w.wg k) k

/-- After an `eret` of a work-group: another warp of it that holds an unhandled trap enters its handler, else the halt ends (R251). -/
def nextTrap (s : State) (wg : Nat) : State :=
  match s.work.groups.find wg with
  | none => s
  | some g =>
    let waiting := (groupKeys g).filter fun k => match s.warpAt k with
      | some w => w.stop == .trapped && w.rollback.isNone
      | none => false
    match waiting with
    | [] => endHalt s wg
    | k :: ks =>
      let k := ks.foldl min k
      let cause := match s.warpAt k with
        | some w => w.trap.cause.toNat
        | none => 0
      enterHandler (s.onGroup wg fun g => { g with halt := some (cause, k / 8 % 8, k % 8) }) k

/-- Leave the handler: system mode, the latch and the held lanes are released (R251, R321). -/
def leaveHandler (s : State) (k : Nat) : State :=
  s.onWarp k fun w => { w.setSystem false with
    inHandler := false, latch := false, stop := .none
    lanes := w.lanes.map fun x => { x with held := false } }

/-- The resume action (R251): the lanes of `sr.emask` take `sr.epc` and `sr.erep`. Bits 63:57 of an `sr.epc` that software has written are
dropped, the PC having 57 bits (DEDUCED, log 47). -/
def resumeWarp (s : State) (k : Nat) : State :=
  match s.warpAt k with
  | none => s
  | some w =>
    let lanes := emaskLanes w w.trap.emask
    let s := s.onLanes k lanes fun x => { x with pc := codeAddr w.trap.epc, rep := w.trap.erep.toNat, park := none }
    nextTrap (leaveHandler s k) w.wg

/-- Discard the innermost level of a ring table: its class mask and its records pass to the enclosing level (R219, R258, R372). -/
def dropLevel (rings : List RingLevel) : List RingLevel :=
  match rings.reverse with
  | r :: p :: ps => ({ p with classes := p.classes ||| r.classes } :: ps).reverse
  | _ => []

/-- Ask for the rollback of a warp's innermost level: it stops until RING_ROLLBACK (R258). -/
def requestRollback (s : State) (k : Nat) : State :=
  s.onWarp k fun w => { w with rollback := some true, stop := .trapped }

/-- One of the four actions of R251 on the warp at key k: 0 resume, 1 retry, 2 escalate, 3 kill. -/
def eretAction (s : State) (k action : Nat) : State :=
  match s.warpAt k with
  | none => s
  | some w =>
    match action with
    | 0 => resumeWarp s k
    | 1 => if w.rings.isEmpty then killWarp s k w 0 else requestRollback s k
    | 2 =>
      if w.rings.length ≤ 1 then killWarp s k w 0
      else requestRollback (s.onWarp k fun w => { w with rings := dropLevel w.rings }) k
    | _ => killWarp s k w 1

end Sys2Proof.Machine
end

