-- ==== Sys2Proof/Machine/System.lean ====
section
/-! DEFINITION. Instructions that wait, join barriers, watch lines, open rings and change a warp's system state, opcodes 0x2C f = 2 and
0x53 to 0x5F (spec/15_queue_table_counter_instructions.md R350 to R352, R365 to R378; spec/13 R321; spec/09 R219; spec/11 R251). -/

namespace Sys2Proof.Machine

/-! Voted operands (R350). -/

/-- A voted operand: its register field, words, position (1 a, 2 b) and the consumption kind on poison. -/
structure Voted where
  field : BitVec 7
  words : Nat
  pos : Nat
  kind : Nat

/-- The value of an operand on a lane. -/
def votedValue (s : State) (g : Group) (w : Warp) (v : Voted) (l : Nat) : Nat :=
  leNat (storeBytes (4 * v.words) (readRegs s g w l v.field.toNat v.words))

/-- The agreed value of a voted operand. -/
def agreed (s : State) (g : Group) (w : Warp) (v : Voted) : Nat := votedValue s g w v (g.lanes.headD 0)

/-- Failures of voted operands, lane by lane: poison at rank 5, then a difference from the lowest lane at rank 6 (R350, R248). -/
def votedFails (s : State) (g : Group) (w : Warp) (vs : List Voted) : List (Nat × Fail) :=
  g.lanes.flatMap fun l =>
    let poison := vs.map fun v => failIf (anyPoison (readRegs s g w l v.field.toNat v.words)) (failContain v.kind v.field.toNat)
    let differ := vs.map fun v => failIf (votedValue s g w v l != agreed s g w v) ⟨6, 0x09, v.pos + 16 * w.visible l⟩
    (poison ++ differ).filterMap fun f => f.map (l, ·)

/-- Comparison signatures of voted operands (R32). -/
def votedSigs (s : State) (g : Group) (w : Warp) (vs : List Voted) : List Sig :=
  g.lanes.map fun l => ⟨l, 3, vs.map fun v => votedValue s g w v l⟩

/-- Run on the warp of a group. -/
def withWarp (g : Group) (s : State) (f : Warp → IssueResult) : IssueResult :=
  match s.warpAt g.key with
  | none => .wait g.lanes id
  | some w => f w

/-! `exit` (R321). -/

/-- A lane waits to exit until its entries have arrived (R53). -/
def exitBlocked (w : Warp) (l : Nat) : Bool := (w.lane l).commits.any fun c => c.value.isNone

/-- `exit`: the lanes end; pending entries are discarded; the last handler lane's exit ends the halt (R321). -/
def runExit (g : Group) (s : State) : IssueResult :=
  withWarp g s fun w =>
    let late := g.lanes.filter (exitBlocked w)
    if !late.isEmpty then .wait late id
    else
      let s := s.onLanes g.key g.lanes fun x => { x with exited := true, commits := [] }
      if w.inHandler then
        match s.warpAt g.key with
        | none => .done [] s
        | some w' =>
          if w'.lanes.any fun x => x.present && !x.exited && !x.held then .done [] s
          else .done [] (nextTrap (leaveHandler s g.key) w.wg)
      else .done [] s

/-- `yield` changes nothing; its run ends after it (R378). -/
def runYield (_ : Group) (s : State) : IssueResult := .done [] s

/-! Warp-convergent instructions (R352). -/

/-- The kind of a convergent instruction: opcode and function value; the four actions of `eret` are one (R352, R374). -/
def convKind : Instr → Option Nat
  | .ropen _ _ _ => some 0
  | .rclose _ => some 1
  | .barWg _ => some 2
  | .barGang _ => some 3
  | .barX _ => some 4
  | .eretResume _ | .eretRetry _ | .eretEscalate _ | .eretKill _ => some 5
  | _ => none

/-- The lanes a convergent instruction concerns: the handler lanes in a handler, else every present lane that has not exited (R352). -/
def convLanes (w : Warp) : List Nat :=
  (List.range 32).filter fun l => (w.lane l).present && !(w.lane l).exited && !(w.inHandler && (w.lane l).held)

/-- The lanes that execute a convergent instruction together with parked lane l: all of them, once each is parked at one of that kind
and the warp has not arrived at a barrier already. -/
def convSet (w : Warp) (l : Nat) : Option (List Nat) :=
  let kindOf (x : Nat) : Option Nat := (w.lane x).park.bind fun p => convKind p.instr
  match kindOf l with
  | none => none
  | some k => if w.barrier == 0 && (convLanes w).all fun x => kindOf x == some k then some (convLanes w) else none

/-- The issue of a lane parks it, and the set that it completes executes within that issue; a set completed otherwise, or held back
by a wait, executes as an issue of its own (R352). -/
def convergent (i : Instr) (exec : Warp → Group → State → IssueResult) (g : Group) (s : State) : IssueResult :=
  withWarp g s fun w =>
    let run : Group → State → IssueResult := fun g s => withWarp g s fun w => exec w g s
    match (w.lane (g.lanes.headD 0)).park with
    | none => arrive i (fun _ _ => PWord.zero) convSet run g s
    | some _ => exec w g s

/-! Barriers (R367). -/

/-- Arrive at a barrier: the lanes stay parked until it completes. -/
def arriveBarrier (g : Group) (s : State) (kind : Nat) : State :=
  let s := s.onLanes g.key g.lanes fun x => { x with pc := x.pc - 4, rep := 0 }
  s.onWarp g.key fun w => { w with barrier := kind }

/-- `bar wg`, and every form outside a gang. -/
def joinGroup (g : Group) (s : State) (wg : Nat) : State :=
  settleGroup ((arriveBarrier g s 1).onGroup wg fun x => { x with barCount := x.barCount + 1 }) wg

/-- `bar gang` and `bar.x`: the first arrival sets the form; the other form raises 0x09 at position 0 (R239). -/
def runBarGangWith (i : Instr) (x : Bool) : Group → State → IssueResult := fun g s =>
  convergent i (fun w g s =>
    match (s.work.groups.find w.wg).bind (·.gang) with
    | none => .done [] (joinGroup g s w.wg)
    | some n =>
      match (s.work.gangs.find n).bind (·.form) with
      | some f =>
        if f != x then .trap [] (g.lanes.map fun l => (l, ⟨6, 0x09, 0⟩))
        else .done [] (settleGang ((arriveBarrier g s (if x then 3 else 2)).onGang n fun y => { y with count := y.count + 1 }) n)
      | none => .done [] (settleGang ((arriveBarrier g s (if x then 3 else 2)).onGang n fun y =>
          { y with count := y.count + 1, form := some x }) n)) g s

def runBarWg (i : Instr) (g : Group) (s : State) : IssueResult := convergent i (fun w g s => .done [] (joinGroup g s w.wg)) g s
def runBarGang (i : Instr) : Group → State → IssueResult := runBarGangWith i false
def runBarX (i : Instr) : Group → State → IssueResult := runBarGangWith i true

/-! `eret` (R374). -/

/-- The action code of an `eret` word. -/
def eretCode : Instr → Nat
  | .eretResume _ => 0
  | .eretRetry _ => 1
  | .eretEscalate _ => 2
  | _ => 3

/-- `eret`: 0x01 at rank 7 outside a handler; of different actions the highest code applies (R374). -/
def runEret (i : Instr) (g : Group) (s : State) : IssueResult :=
  withWarp g s fun w =>
    if !w.inHandler then .trap [] (g.lanes.map fun l => (l, ⟨7, 0x01, wordOf i + 2 ^ 32⟩))
    else convergent i (fun w g s =>
      let code := (g.lanes.map fun l => match (w.lane l).park with
        | some p => eretCode p.instr
        | none => 0).foldl max 0
      .done [] (eretAction (unpark s g.key g.lanes) g.key code)) g s

/-! Rings (R218, R219, R370 to R372). -/

/-- Set bits of a mask, ascending. -/
def maskBits (m : Word) : List Nat := (List.range 32).filter m.getLsbD

/-- A lane's record of a register block (R219): the masked registers, their poison, predicates with flags and window base, the opening
point; an absent lane writes 0. -/
def laneRecord (s : State) (core slot : Nat) (w : Warp) (mask : Word) (l : Nat) : List Byte :=
  let x := w.lane l
  let ks := maskBits mask
  if !x.present then List.replicate (4 * ks.length + 16) 0
  else
    let reg (k : Nat) : PWord := s.vreg core slot w l (32 * x.window + k)
    (ks.flatMap fun k => leBytes 4 (reg k).val.toNat) ++
      leBytes 4 ((ks.map fun k => if (reg k).poison then 2 ^ k else 0).sum) ++
      leBytes 4 (x.preds.toNat + 2 ^ 7 * x.predPoison.toNat + 2 ^ 14 * x.flags.toNat + 2 ^ 19 * x.window) ++
      leBytes 8 x.pc.toNat

/-- The 16-byte header of a record: address, space, visible lane, kind, length (R219). -/
def recordHeader (addr space lane kind len : Nat) : List Byte :=
  leBytes 8 (addr % 2 ^ 57 + 2 ^ 57 * space + 2 ^ 58 * lane) ++ leBytes 8 (kind + 4 * (if kind == 1 then len - 1 else 0))

/-- Round up to 16. -/
def up16 (n : Nat) : Nat := (n + 15) / 16 * 16

/-- Write bytes to the warp's scratch segment (R370: performed before its next issue). -/
def segmentWrite (s : State) (core : Nat) (w : Warp) (off : Nat) (bs : List Byte) : State :=
  s.onScratch fun m => m.writeClean 4 (scratchAddr core (w.segs.sbase.toNat + off)) bs

/-- Every lane of a group fails with one check. -/
def failAll (g : Group) (f : Fail) : IssueResult := .trap [] (g.lanes.map (·, f))

/-- `ropen` (R370). -/
def runRopen (i : Instr) (a b : BitVec 7) (g : Group) (s : State) : IssueResult :=
  convergent i (fun w g s =>
    let past := laneFails g.lanes fun l =>
      ((maskBits (BitVec.ofNat 32 (votedValue s g w ⟨a, 1, 1, 1⟩ l))).find? fun k => 32 * (w.lane l).window + k ≥ w.size).map fun k =>
        ⟨4, 0x03, wordOf i + 2 ^ 32 * k⟩
    -- the window at rank 4 stands before the votes at ranks 5 and 6 (R248)
    let bad := past ++ votedFails s g w [⟨a, 1, 1, 1⟩, ⟨b, 2, 2, 1⟩]
    if !bad.isEmpty then .trap [] bad
    else if w.lanes.any fun x => !x.commits.isEmpty then .wait g.lanes id
    else
      let mask := BitVec.ofNat 32 (votedValue s g w ⟨a, 1, 1, 1⟩ (g.lanes.headD 0))
      let pair := votedValue s g w ⟨b, 2, 2, 1⟩ (g.lanes.headD 0)
      let base := bits 31 0 pair
      let limit := bits 63 32 pair
      let outer := w.rings.isEmpty
      let base' := if outer then base else w.logBase.toNat
      let limit' := if outer then limit else w.logLimit
      let fill := if outer then base else w.logFill
      let size := 16 + 32 * (4 * (maskBits mask).length + 16)
      if outer && (base % 16 != 0 || limit % 16 != 0) then failAll g (failAlign 1 (if base % 16 != 0 then base else limit))
      else if outer && (base > limit || limit > w.segs.slim.toNat) then failAll g (failSegment 1 (if base > limit then base else limit))
      else if w.rings.length ≥ 8 then failAll g ⟨12, 0x0B, 1 + 2 * w.logFill⟩
      else if fill + size > limit' then failAll g ⟨12, 0x0B, 2 * fill⟩
      else
        let lead := g.lanes.headD 0
        -- the lanes already stand past their `ropen`: their PCs are the opening points
        let s := unpark s g.key g.lanes
        let w' := (s.warpAt g.key).getD w
        let level : RingLevel := ⟨(w'.lane lead).pc, mask, (w.lane lead).window, fill, 0, 0⟩
        let block := recordHeader 0 0 0 0 0 ++ (List.range 32).flatMap (laneRecord s g.core g.slot w' mask)
        let s := segmentWrite s g.core w fill block
        .done [] (s.onWarp g.key fun w => { w with
          rings := w.rings ++ [level], logBase := BitVec.ofNat 57 base', logLimit := limit', logFill := fill + size
          blocks := (if outer then [] else w.blocks) ++ [(fill, size)] })) g s

/-- The registers, predicates and scalar registers of a warp hold poison on these lanes (R372, kind 6). -/
def poisonedLanes (s : State) (g : Group) (w : Warp) (lanes : List Nat) : List Nat :=
  if w.sregs.any (·.poison) then lanes
  else lanes.filter fun l =>
    (w.lane l).predPoison != 0 ||
      s.thr.regs.any fun (k, v) => v.poison && k % packageLanes % 33 == w.phys l && inRange g.core g.slot (32 * w.base) w.size k

/-- The counters of the classes in a mask are 0 (R207, R258). -/
def classesIdle (w : Warp) (m : BitVec 4) : Bool :=
  (!m.getLsbD 0 || w.cntCopy == 0) && (!m.getLsbD 1 || w.cntMat == 0) && (!m.getLsbD 2 || w.cntGth == 0) &&
    (!m.getLsbD 3 || w.cntCol == 0)

/-- `rclose` (R372). -/
def runRclose (i : Instr) (g : Group) (s : State) : IssueResult :=
  convergent i (fun w g s =>
    match w.rings.reverse with
    | [] => failAll g ⟨7, 0x01, wordOf i + 2 ^ 32⟩
    | r :: _ =>
      let outer := dropLevel w.rings
      let bad := poisonedLanes s g w g.lanes
      if !classesIdle w r.classes then .wait g.lanes id
      else if !bad.isEmpty then .trap [] (bad.map fun l => (l, failContain 6 0))
      else
        let s := unpark s g.key g.lanes
        .done [] (s.onWarp g.key fun w => { w with
          rings := outer, logFill := if outer.isEmpty then w.logBase.toNat else w.logFill
          blocks := if outer.isEmpty then [] else w.blocks })) g s

/-- `rdepth` (R372). -/
def runRdepth (d : BitVec 7) (g : Group) (s : State) : IssueResult :=
  runLanes g s d.toNat 1 0 fun w _ => ([clean (BitVec.ofNat 32 w.rings.length)], 0)

/-- Bytes that a thread reads from the pool at once: its core's view of the home; none while one of them must wait (R124, R128, R131). -/
def readNow (s : State) (g : Group) (w : Warp) (l pa n kind : Nat) : Option (List Byte × Bool) :=
  let lines := (linePieces pa n).map fun p => lineOf p.2.1
  if !(loadAfter s (w.lane l) (g.agent l) pa n kind).isEmpty || lines.any s.lineWaits then none
  else
    let seen := lines.flatMap fun line => overlayStores (ownStores s g.core line) (s.homeLine line).1
    some ((seen.drop (pa % 128)).take n, (s.homeRead pa n).2)

/-- The pages that n bytes at a virtual address touch, as address and length. -/
def pagePieces (va n : Nat) : List (Nat × Nat) :=
  (granules 4096 va n).map fun k =>
    let a := max va (k * 4096)
    (a, min (va + n) (k * 4096 + 4096) - a)

/-- What one lane of an `rkeep` reads: a failed check, a wait with what it asks, or the bytes and their poison. -/
inductive KeepRead where
  | fail (f : Fail)
  | wait (ask : State → State)
  | ok (bytes : List Byte) (poison : Bool)

/-- The translations of the pages that n bytes at an address touch, with each page's address and length. -/
def keepPages (s : State) (g : Group) (w : Warp) (va n : Nat) : List (Nat × Nat × Option Fail × Option TlbEntry) :=
  (pagePieces va n).map fun (a, m) => (a, m, translateFor s g.core w.ctx.toNat 10 a 0 w.system)

/-- The ordering kind of an access on these pages: the strictest of S (0), C (1) and U (2) (R130). -/
def strictKind (ps : List (Nat × Nat × Option Fail × Option TlbEntry)) : Nat :=
  ps.foldl (fun k (_, _, _, e) => match e with
    | some e => min k e.kind
    | none => k) 2

/-- The physical places of those pages. -/
def keepPlaces (s : State) (g : Group) (w : Warp) (va n : Nat) : List (Nat × Nat) :=
  (keepPages s g w va n).filterMap fun (a, m, _, e) => e.map fun e => (s.locate e a, m)

/-- The pool bytes of an `rkeep.g` (R325, R371). -/
def keepGlobal (s : State) (g : Group) (w : Warp) (va n l : Nat) : KeepRead :=
  let pages := keepPages s g w va n
  pages.foldl (fun acc (a, m, t) =>
    match acc, t with
    | .ok bs p, (none, some e) =>
      match readNow s g w l (s.locate e a) m (strictKind pages) with
      | some (b, q) => .ok (bs ++ b) (p || q)
      | none => .wait id
    | .ok _ _, (some f, _) => .fail f
    | .ok _ _, (none, none) => .wait fun s => s.askWalk g.core w.ctx.toNat a 0
    | x, _ => x) (.ok [] false)

/-- What a read of these places leaves behind: the slices' lines were used (R114, R124), and the lanes have seen the writes (R136). -/
def State.tookPlaces (s : State) (g : Group) (w : Warp) (l : Nat) (ps : List (Nat × Nat)) : State :=
  (s.readThrough (ps.flatMap fun p => granules 128 p.1 p.2).dedup).noteSeen g.key (shareLanes w l)
    (ps.flatMap fun p => writesSeen s g.core p.1 p.2)

/-- `rkeep.g` (space 0) and `rkeep.s` (space 1): each lane keeps b bytes (R371). -/
def runRkeep (word space : Nat) (a b : BitVec 7) (g : Group) (s : State) : IssueResult :=
  withWarp g s fun w =>
    let off (l : Nat) : PDWord := if space == 0 then readPair s g w l a.toNat else
      let v := readField s g w l a.toNat; ⟨v.val.zeroExtend 64, v.poison⟩
    let len (l : Nat) : PWord := readField s g w l b.toNat
    let lim := if space == 0 then w.segs.glim.toNat else w.segs.slim.toNat
    let early := laneFails g.lanes fun l => firstFail [
      failIf (off l).poison (failContain 1 a.toNat), failIf (len l).poison (failContain 1 b.toNat),
      failIf ((len l).val.toNat > 256) ⟨7, 0x01, word + 2 ^ 32⟩,
      failIf ((off l).val.toNat + (len l).val.toNat > lim) (failSegment space (off l).val.toNat)]
    -- the poison of the bytes has rank 5 too: every lane that passes its own checks is read first (R248, R256)
    let sound := g.lanes.filter fun l => !(early.any fun x => x.1 == l)
    if early.any fun x => x.2.rank < 5 then .trap [] early
    else
      let prim := accessLanes w g.lanes
      let late := if space == 1 then orderedLanes s g w sound else []
      let place (l : Nat) : Nat := if space == 0 then (w.segs.gbase.toNat + (off l).val.toNat) % 2 ^ 64 else (off l).val.toNat
      let reads := sound.map fun l =>
        let n := (len l).val.toNat
        (l, if space == 0 then keepGlobal s g w (place l) n l
          else
            let r := s.mem.scratch.readPoison 4 (scratchAddr g.core (w.segs.sbase.toNat + place l)) n
            KeepRead.ok r.1 r.2)
      let fails := reads.filterMap fun (l, r) => match r with
        | .fail f => some (l, f)
        | .ok _ true => some (l, (⟨5, 0x0D, 3 + 16 * a.toNat⟩ : Fail))
        | _ => none
      let waits := reads.filterMap fun (_, r) => match r with
        | .wait f => some f
        | _ => none
      if !late.isEmpty then .wait late id
      else if !waits.isEmpty then .wait g.lanes fun s => waits.foldl (fun s f => f s) s
      else if !(early ++ fails).isEmpty then .trap [] (g.lanes.flatMap fun l => (early ++ fails).filter fun x => x.1 == l)
      else if w.rings.isEmpty then .done [] s
      else
        let recs := reads.filterMap fun (l, r) => match r with
          | .ok bs _ => if bs.isEmpty || !prim.contains l then none else
            some (recordHeader (place l) space (w.visible l) 1 bs.length ++ bs ++ List.replicate (up16 bs.length - bs.length) 0)
          | _ => none
        let total := (recs.map List.length).sum
        if w.logFill + total > w.logLimit then failAll g ⟨12, 0x0B, 2 * w.logFill⟩
        else
          let s := if space != 0 then s else
            prim.foldl (fun s l => s.tookPlaces g w l (keepPlaces s g w (place l) (len l).val.toNat)) s
          let s := segmentWrite s g.core w w.logFill recs.flatten
          .done [] (s.onWarp g.key fun w => { w with logFill := w.logFill + total })

def runRkeepG (word : Nat) (a b : BitVec 7) := runRkeep word 0 a b
def runRkeepS (word : Nat) (a b : BitVec 7) := runRkeep word 1 a b

/-! Counters and sync words (R365, R366, R235 to R237). -/

/-- The counter of a class: 0 copy, 1 mat, 2 gth, 3 col (R233). -/
def Warp.counter (w : Warp) (c : Nat) : Nat :=
  match c with
  | 0 => w.cntCopy.toNat
  | 1 => w.cntMat.toNat
  | 2 => w.cntGth.toNat
  | _ => w.cntCol.toNat

/-- `wcnt` (R365): commands retire only when their accesses are performed, so the wait is the acquire (R143, R187). -/
def runWcnt (c : BitVec 2) (k : BitVec 6) (g : Group) (s : State) : IssueResult :=
  withWarp g s fun w => if w.counter c.toNat ≤ k.toNat then .done [] s else .wait g.lanes id

/-- Write a clean 32-bit word of a core's scratchpad. -/
def State.scratchStore (s : State) (core off v : Nat) : State :=
  s.onScratch fun m => m.writeClean 4 (scratchAddr core off) (leBytes 4 v)

/-- One arrival of an amount at the sync word at a physical scratch offset (R236). -/
def State.arrive (s : State) (core off amount : Nat) : State :=
  let (tgt, p0) := s.scratchField core off 4
  let (cnt, p1) := s.scratchField core (off + 4) 4
  let (gen, p2) := s.scratchField core (off + 8) 4
  if p0 || p1 || p2 then s
  else
    let cnt := (cnt + amount) % 2 ^ 32
    if tgt == 0 || cnt < tgt then s.scratchStore core (off + 4) cnt
    else
      let s := (s.scratchStore core (off + 4) (cnt % tgt)).scratchStore core (off + 8) ((gen + cnt / tgt) % 2 ^ 32)
      s.scratchStore core (off + 12) (s.clk.ref.toNat % 2 ^ 32)

/-- A generation is reached (R237): n is 32 or 16 bits. -/
def reached (n gen g : Nat) : Bool := (gen + 2 ^ n - g % 2 ^ n) % 2 ^ n < 2 ^ (n - 1)

/-- The failed checks of a sync-word instruction: the votes, alignment, limit (R350, R366). -/
def syncFails (s : State) (g : Group) (w : Warp) (a b : BitVec 7) : List (Nat × Fail) :=
  let va : Voted := ⟨a, 1, 1, 1⟩
  let off := agreed s g w va
  votedFails s g w [va, ⟨b, 1, 2, 4⟩] ++
    allFail g (firstFail [failIf (off % 16 != 0) (failAlign 1 off), failIf (off + 16 > w.segs.slim.toNat) (failSegment 1 off)])

/-- The physical scratch offset and the value that a sync-word instruction names. -/
def syncOperands (s : State) (g : Group) (w : Warp) (a b : BitVec 7) : Nat × Nat :=
  (w.segs.sbase.toNat + agreed s g w ⟨a, 1, 1, 1⟩, agreed s g w ⟨b, 1, 2, 4⟩)

/-- `syarm`: ordered as a scratchpad store (R145, R366). -/
def runSyarm (a b : BitVec 7) (g : Group) (s : State) : IssueResult :=
  withWarp g s fun w =>
    let fails := syncFails s g w a b
    let (off, v) := syncOperands s g w a b
    let late := orderedStoreLanes s g w g.lanes
    if !fails.isEmpty then .trap [] fails
    else if !late.isEmpty then .wait late id
    else .done [] ((s.scratchStore g.core off v).scratchStore g.core (off + 4) 0)

/-- Lanes with an earlier access that is not performed at package scope, or with something that fences, barriers or releases put before
every later access (R134, R135, R140). -/
def unperformed (s : State) (g : Group) (w : Warp) : List Nat :=
  g.lanes.filter fun l => !(fenceSet s (w.lane l) (g.agent l) 2 true ++
    s.stillPending ((w.lane l).accessOrder 0 ++ (w.lane l).storeAfter)).isEmpty

/-- `syadd`: a release of package scope, then one arrival (R366). -/
def runSyadd (a b : BitVec 7) (g : Group) (s : State) : IssueResult :=
  withWarp g s fun w =>
    let fails := syncFails s g w a b
    let (off, v) := syncOperands s g w a b
    let late := unperformed s g w
    if !fails.isEmpty then .trap [] fails
    else if !late.isEmpty then .wait late id
    else .done [] (s.arrive g.core off v)

/-- `sywait` (R366). -/
def runSywait (a b : BitVec 7) (g : Group) (s : State) : IssueResult :=
  withWarp g s fun w =>
    let fails := syncFails s g w a b
    let (off, v) := syncOperands s g w a b
    let (gen, p) := s.scratchField g.core (off + 8) 4
    let late := orderedLanes s g w g.lanes
    if !fails.isEmpty then .trap [] fails
    else if !late.isEmpty then .wait late id
    else if p then failAll g (failContain 2 0)
    else if reached 32 gen v then .done [] s
    else .wait g.lanes id

/-! Monitors (R368, R369). -/

/-- `mon`: arms the line and loads it as `ld.g` with hint normal. -/
def runMon (a : BitVec 7) (g : Group) (s : State) : IssueResult :=
  withWarp g s fun w =>
    let bad := votedFails s g w [⟨a, 2, 1, 1⟩]
    if !bad.isEmpty then .trap [] bad
    else match planAccess s g w 1 0 a false false (fun _ => []) with
      | .fail fs => .trap [] fs
      | .wait ask => .wait g.lanes ask
      | .go as =>
        match as with
        | [] => .done [] s
        | x :: _ =>
          let s := s.useEntries g.core [x]
          let (id, s) := s.take
          let after := loadAfter s (w.lane x.lane) (g.agent x.lane) x.pa 1 x.entry.kind
          let s := s.addOp id (.load ⟨g.agent x.lane, x.pa, 1, 0, x.entry.kind, 0, .discard, false, [], after, false, x.entry.mirror,
            BitVec.ofNat 57 x.va, g.pc, g.rep⟩)
          .done [] (s.onWarp g.key fun w => { w with monitor := some ⟨lineOf x.pa, BitVec.ofNat 57 x.va, false⟩ })

/-- `mwait`: completes at once when the monitor is not armed or woken, else parks its lanes with a timeout (R369). -/
def runMwait (i : Instr) (a : BitVec 7) (g : Group) (s : State) : IssueResult :=
  withWarp g s fun w =>
    let bad := votedFails s g w [⟨a, 1, 1, 4⟩]
    let n := agreed s g w ⟨a, 1, 1, 4⟩
    if !bad.isEmpty then .trap [] bad
    else match w.monitor with
      | some ⟨_, _, false⟩ =>
        let s := parkLanes i (fun _ _ => PWord.zero) g s
        .done [] (s.onWarp g.key fun w => { w with mwait := if n == 0 then none else some (s.clk.ref.toNat + n) })
      | _ => .done [] (s.onWarp g.key fun w => { w with monitor := none })

/-- The lanes of a warp parked at `mwait`. -/
def mwaitLanes (w : Warp) : List Nat :=
  (List.range 32).filter fun l => match (w.lane l).park with
    | some ⟨.mwait _ _, _, _⟩ => !(w.lane l).held
    | _ => false

/-- A warp's parked lanes have been woken (R369, R254). -/
def mwaitWoken (w : Warp) : Bool :=
  !(mwaitLanes w).isEmpty && match w.monitor with
    | some m => m.hit
    | none => true

/-- MWAIT_WAKE: the parked lanes are released and the monitor disarms (R369). -/
def execMwaitWake (core slot warp : Nat) (s : State) : Host.Outcome State Fault Refusal :=
  .next (match s.warpAt (warpKey core slot warp) with
    | some w =>
      if mwaitWoken w then
        (s.onLanes (warpKey core slot warp) (mwaitLanes w) fun x => { x with park := none, pc := x.pc + 4, rep := 0 }).onWarp
          (warpKey core slot warp) fun w => { w with monitor := none, mwait := none }
      else s
    | none => s)

/-- The timeout of parked lanes has run out, and the tick in which it did is over without a wake (R254); a warp that is stopped takes no
trap of its own (R253, R264). -/
def mwaitExpired (s : State) (w : Warp) : Bool :=
  w.stop == .none && !(mwaitLanes w).isEmpty && !mwaitWoken w && (match w.mwait with
    | some t => t < s.clk.ref.toNat
    | none => false)

/-- MONITOR_TIMEOUT: the parked lanes raise 0x0C with the monitor still armed (R254). -/
def execMonitorTimeout (core slot warp : Nat) (s : State) : Host.Outcome State Fault Refusal :=
  .next (match s.warpAt (warpKey core slot warp) with
    | some w =>
      if mwaitExpired s w then
        let lanes := mwaitLanes w
        let va := match w.monitor with
          | some m => m.va.toNat
          | none => 0
        let s := s.onWarp (warpKey core slot warp) fun w => { w with mwait := none }
        trapEntry s (warpKey core slot warp) ⟨0x0C, lanes, va⟩ (w.lane (lanes.headD 0)).pc (w.lane (lanes.headD 0)).rep
      else s
    | none => s)

/-! Traps, segments, special registers, translation (R373, R375 to R377). -/

/-- `trap`: 0x10 at rank 3 in every issuable lane; its detail is the lowest lane's value (R373). -/
def runTrap (a : BitVec 7) (g : Group) (s : State) : IssueResult :=
  withWarp g s fun w => .trap [] (g.lanes.map fun l => (l, ⟨3, 0x10, (readField s g w l a.toNat).val.toNat⟩))

/-- A segment register as a number (R279). -/
def Segments.get (x : Segments) (n : Nat) : Nat :=
  match n with
  | 0 => x.gbase.toNat
  | 1 => x.glim.toNat
  | 2 => x.sbase.toNat
  | 3 => x.slim.toNat
  | 4 => x.xbase.toNat
  | 5 => x.xlim.toNat
  | 6 => x.abase.toNat
  | 7 => x.alim.toNat
  | 8 => x.cbase.toNat
  | _ => x.clim.toNat

/-- Set a segment register (R279): of a base or limit of 2^57, which R375 admits and 57 bits do not hold, the low bits (log 29). -/
def Segments.put (x : Segments) (n v : Nat) : Segments :=
  match n with
  | 0 => { x with gbase := BitVec.ofNat 57 v }
  | 1 => { x with glim := BitVec.ofNat 57 v }
  | 2 => { x with sbase := BitVec.ofNat 19 v }
  | 3 => { x with slim := BitVec.ofNat 20 v }
  | 4 => { x with xbase := BitVec.ofNat 16 v }
  | 5 => { x with xlim := BitVec.ofNat 17 v }
  | 6 => { x with abase := BitVec.ofNat 6 v }
  | 7 => { x with alim := BitVec.ofNat 7 v }
  | 8 => { x with cbase := BitVec.ofNat 57 v }
  | _ => { x with clim := BitVec.ofNat 32 v }

/-- The conditions of R375 on a base and a limit of segment pair p. -/
def segmentLegal (wg : Option WorkGroup) (p base lim : Nat) : Bool :=
  match p, wg with
  | 0, _ => base + lim ≤ 2 ^ 57
  | 4, _ => base + lim ≤ 2 ^ 57 && lim < 2 ^ 32
  | 1, some g => base % 4096 == 0 && 4096 * g.scr.1 ≤ base && base + lim ≤ 4096 * (g.scr.1 + g.scr.2)
  | 2, some g =>
    if g.gang.isSome then 4096 * g.exch.1 ≤ base && base + lim ≤ 4096 * (g.exch.1 + g.exch.2) else base == 0 && lim == 0
  | 3, some g => g.tiles.1 ≤ base && base + lim ≤ g.tiles.1 + g.tiles.2
  | _, none => false
  | _, _ => false

/-- `segw` (R375). -/
def runSegw (word : Nat) (a : BitVec 7) (n : BitVec 4) (g : Group) (s : State) : IssueResult :=
  withWarp g s fun w =>
    let v : Voted := ⟨a, 2, 1, 5⟩
    let bad := votedFails s g w [v]
    let x := agreed s g w v
    let k := n.toNat
    let base := if k % 2 == 0 then x else w.segs.get (k - 1)
    let lim := if k % 2 == 0 then w.segs.get (k + 1) else x
    if !bad.isEmpty then .trap [] bad
    else if !segmentLegal (s.work.groups.find w.wg) (k / 2) base lim then failAll g ⟨7, 0x01, word + 2 ^ 32⟩
    else .done [] (s.onWarp g.key fun w => { w with segs := w.segs.put k x })

/-- `segr` (R375). -/
def runSegr (d : BitVec 7) (n : BitVec 4) (g : Group) (s : State) : IssueResult :=
  runLanes g s d.toNat 2 0 fun w _ => (pairWords (BitVec.ofNat 64 (w.segs.get n.toNat)) false, 0)

/-- Write a trap register; reserved bits are discarded; a write of `sr.cause` clears the latch (R55, R250, R376). -/
def writeSpecial (w : Warp) (n v : Nat) : Warp :=
  match n with
  | 0x020 => { w with trap := { w.trap with cause := BitVec.ofNat 8 v }, latch := false }
  | 0x021 => { w with trap := { w.trap with epc := BitVec.ofNat 64 (v / 4 * 4) } }
  | 0x022 => { w with trap := { w.trap with emask := BitVec.ofNat 32 v } }
  | 0x023 => { w with trap := { w.trap with erep := BitVec.ofNat 6 v } }
  | 0x024 => { w with trap := { w.trap with einfo := BitVec.ofNat 64 v } }
  | 0x025 => { w with trap := { w.trap with eskid := BitVec.ofNat 10 v } }
  | _ => w

/-- `wsr` (R376): `sr.flags` takes each lane's value, a per-warp register the agreed one. -/
def runWsr (a : BitVec 7) (i : BitVec 10) (g : Group) (s : State) : IssueResult :=
  withWarp g s fun w =>
    if i.toNat == 0x010 then
      let fails := laneFails g.lanes fun l => failIf (readField s g w l a.toNat).poison (failContain 5 a.toNat)
      if !fails.isEmpty then .trap [] fails
      else .done [] (g.lanes.foldl (fun s' l =>
        s'.onLanes g.key [l] fun x => { x with flags := (readField s g w l a.toNat).val.truncate 5 }) s)
    else
      let v : Voted := ⟨a, (srClass i).width, 1, 5⟩
      let bad := votedFails s g w [v]
      if !bad.isEmpty then .trap [] bad
      else .done [] (s.onWarp g.key fun w' => writeSpecial w' i.toNat (agreed s g w v))

/-- An engine command of a context has been translated and is not complete (R377). -/
def translatedCommands (s : State) (hit : Nat → Bool) : Bool :=
  s.eng.copy.any fun c => hit c.ctx && c.engine.isSome && c.status.isNone

/-- Drop the cached translations that a test selects, and the L1 lines in the pages that those map (R99, R377; which lines a `tlbi` takes is
the model's choice, log 49). Every walk that started before ends here, and its result is discarded (R213). -/
def dropTranslations (s : State) (hit : TlbEntry → Bool) : State :=
  let gone := ((s.mem.l1tlb ++ s.mem.dieTlb).flatMap fun (_, es) => es.filter hit)
  let inPage (line : Nat) : Bool := gone.any fun e => e.pa ≤ line * 128 && line * 128 < e.pa + e.size
  let lost := s.mem.l1.filterMap fun (k, _) => if inPage (k % 2 ^ 45) then some (k / 2 ^ 45, k % 2 ^ 45) else none
  let s := lost.foldl (fun s (c, line) => s.loseL1 c line true) s
  { s with mem := { s.mem with
    l1tlb := s.mem.l1tlb.filterMap fun (k, es) => let es := es.filter fun e => !hit e; if es.isEmpty then none else some (k, es)
    dieTlb := s.mem.dieTlb.filterMap fun (k, es) => let es := es.filter fun e => !hit e; if es.isEmpty then none else some (k, es)
    walks := [], walkFaults := [] } }

/-- `tlbi.va` (R377). -/
def runTlbiVa (a b : BitVec 7) (g : Group) (s : State) : IssueResult :=
  withWarp g s fun w =>
    let bad := votedFails s g w [⟨a, 2, 1, 1⟩, ⟨b, 1, 2, 1⟩]
    let va := agreed s g w ⟨a, 2, 1, 1⟩
    let ctx := agreed s g w ⟨b, 1, 2, 1⟩ % 2048
    if !bad.isEmpty then .trap [] bad
    else if translatedCommands s (· == ctx) then .wait g.lanes id
    else .done [] (dropTranslations s (fun e => e.asid == ctx && e.va ≤ va && va < e.va + e.size))

/-- `tlbi.ctx` (R377). -/
def runTlbiCtx (b : BitVec 7) (g : Group) (s : State) : IssueResult :=
  withWarp g s fun w =>
    let bad := votedFails s g w [⟨b, 1, 2, 1⟩]
    let ctx := agreed s g w ⟨b, 1, 2, 1⟩ % 2048
    if !bad.isEmpty then .trap [] bad
    else if translatedCommands s (· == ctx) then .wait g.lanes id
    else .done [] (dropTranslations s (·.asid == ctx))

/-- `tlbi.all` (R377). -/
def runTlbiAll (g : Group) (s : State) : IssueResult :=
  if translatedCommands s (fun _ => true) then .wait g.lanes id
  else .done [] (dropTranslations s fun _ => true)

end Sys2Proof.Machine
end

