-- ==== Sys2Proof/Machine/Post.lean ====
section
/-! DEFINITION. Instructions that post work (spec/15_queue_table_counter_instructions.md R353, R363, R379): engine commands, entries of a
chain, and grids. -/

namespace Sys2Proof.Machine

/-! Engine commands (R353, R183, R184, R234). -/

/-- The boughs of a warp's grid, from the grid's own to the root. -/
def boughChain (s : State) (w : Warp) : List BoughEff :=
  match s.gridOf w.wg with
  | some g => g.chain
  | none => []

/-- The copy-queue entries held on a core by the warps of the subtree of a bough. -/
def shareHeld (s : State) (core ctx bough : Nat) : Nat :=
  (s.eng.copy.filter fun c => c.core == core && c.slot.isNone && c.ctx == ctx && c.chain.contains bough).length

/-- No entry is free to the warp: the queue is full, or the share of a bough on its chain (R183, R184). -/
def copyFull (s : State) (g : Group) (w : Warp) : Bool :=
  (s.eng.copy.filter fun c => c.core == g.core && c.slot.isNone).length ≥ 32 ||
    (boughChain s w).any fun b => shareHeld s g.core w.ctx.toNat b.bough ≥ b.share

/-- The class of a posting instruction's kind: 0 copy, 2 gth, 3 col. -/
def kindClass (kind : Nat) : Nat := if kind == 6 then 2 else if kind == 7 then 3 else 0

/-- Raise a warp's counter of a class by 1 and set the class bit of its innermost ring level (R234, R218). -/
def Warp.postClass (w : Warp) (cls : Nat) : Warp :=
  let w := w.markClass cls
  match cls with
  | 0 => { w with cntCopy := w.cntCopy + 1 }
  | 1 => { w with cntMat := w.cntMat + 1 }
  | 2 => { w with cntGth := w.cntGth + 1 }
  | _ => { w with cntCol := w.cntCol + 1 }

/-- The places a reference names, for the command's scope (R142): 0 in the posting core, 1 in the posting die, 2 wider. -/
def refScope (s : State) (core r : Nat) : Nat :=
  let at' (pkg c : Nat) : Nat := if pkg != s.cfg.pkg then 2 else if c == core then 0 else if c / 32 == core / 32 then 1 else 2
  match refSpace r with
  | 1 => 0
  | 4 => 0
  | 2 => at' (bits 32 26 r) (bits 25 19 r)
  | 3 => if bits 51 51 r == 1 then at' (bits 58 52 r) (bits 46 40 r) else 2
  | _ => 2

/-- The scope of a command, from its descriptor at posting (R142). -/
def commandScope (s : State) (core kind : Nat) (d : List DWord) : Nat :=
  let word (n : Nat) : Nat := (d.getD n 0).toNat
  let ends := if kind == 5 then [] else [refScope s core (word 1), refScope s core (word 2)]
  let sync := if bits 1 1 (word 0) == 1 || kind == 5 then [refScope s core (word 3)] else []
  let status := if bits 2 2 (word 0) == 1 then [2] else []
  (ends ++ sync ++ status ++ (if kind == 7 then [2] else [])).foldl max 0

/-- The 64 bytes of a descriptor in the warp's scratch segment, as double words, with the OR of their poison. -/
def readDescriptor (s : State) (core : Nat) (w : Warp) (off : Nat) : List DWord × Bool :=
  let r := s.mem.scratch.readPoison 4 (scratchAddr core (w.segs.sbase.toNat + off)) 64
  ((List.range 8).map fun i => BitVec.ofNat 64 (leNat ((r.1.drop (8 * i)).take 8)), r.2)

/-- The scratch block that a work-group holds now: its first byte. -/
def scratchBase (s : State) (wg : Nat) : Nat :=
  match s.work.groups.find wg with
  | some g => 4096 * g.scr.1
  | none => 0

/-- Post an engine command (R353): the voted offset is checked, the descriptor read, and the command entered with the next serial. -/
def runPost (kind : Nat) (a : BitVec 7) (g : Group) (s : State) : IssueResult :=
  withWarp g s fun w =>
    let v : Voted := ⟨a, 1, 1, 1⟩
    let off := agreed s g w v
    let fails := votedFails s g w [v] ++
      allFail g (firstFail [failIf (off % 64 != 0) (failAlign 1 off), failIf (off + 64 > w.segs.slim.toNat) (failSegment 1 off)])
    let late := orderedLanes s g w g.lanes
    let cls := kindClass kind
    let (desc, bad) := readDescriptor s g.core w off
    let sigs := votedSigs s g w [v]
    if !fails.isEmpty then .trap sigs fails
    else if bad then .trap sigs (g.lanes.map (·, failContain 4 0))
    else if !late.isEmpty then .wait late id
    else if w.counter cls ≥ 63 || copyFull s g w then .wait g.lanes id
    else
      let after := postAfter s g w (commandScope s g.core kind desc)
      let (id, s) := s.take
      let c : CopyCmd := {
        id := id, core := g.core, warp := g.key, wg := w.wg, ctx := w.ctx.toNat, kind := kind, desc := desc, segs := w.segs,
        system := w.system, after := after, chain := (boughChain s w).map (·.bough), slot := none, engine := none, moved := 0,
        poison := false, writes := [], acks := [], held := false, status := none, pc := g.pc, lsn := w.lsn, depth := w.rings.length,
        base := scratchBase s w.wg, owner := none, phase := 0, asked := false, reply := none, err := 0,
        landed := 0, dest := none, trans := [], got := [] }
      let s := { s with eng := { s.eng with copy := s.eng.copy ++ [c] } }
      .done sigs (s.onWarp g.key fun w => w.postClass cls)

def runXcp := runPost 0
def runXget := runPost 1
def runXput := runPost 2
def runXputRel := runPost 3
def runXred := runPost 4
def runXsig := runPost 5
def runXgth := runPost 6
def runXrsc := runPost 7

/-! Chains (R363, R197). -/

/-- The log2 of a chain's entry count, from the double word of its control block at offset 8 (R197, R363). -/
def ringLog (x : Nat) : Nat := bits 3 0 x + 4

/-- `chap`: the checks of a 64-byte atomic at a.d, a release of package scope, then the tail rises in one access unless the ring is full.
A control block read with poison changes nothing, as a poisoned atomic does (R335). -/
def runChap (a b : BitVec 7) (g : Group) (s : State) : IssueResult :=
  withWarp g s fun w =>
    let va : Voted := ⟨a, 2, 1, 1⟩
    let vb : Voted := ⟨b, 1, 2, 4⟩
    let fails := votedFails s g w [va, vb]
    let sigs := votedSigs s g w [va, vb]
    if !fails.isEmpty then .trap sigs fails
    else match planAccess s g w 64 2 a false true (fun _ => []) with
      | .fail fs => .trap sigs fs
      | .wait ask => .wait g.lanes ask
      | .go as =>
        let late := unperformed s g w
        if !late.isEmpty then .wait late id
        else match as with
          | [] => .done sigs s
          | x :: _ =>
            match readNow s g w x.lane x.pa 64 x.entry.kind with
            | none => .wait g.lanes id
            | some (bs, bad) =>
              let field (o n : Nat) : Nat := leNat ((bs.drop o).take n)
              let n := agreed s g w vb
              let t := (s.useEntries g.core [x]).tookPlaces g w x.lane [(x.pa, 64)]
              if bad || n == 0 then .done sigs t
              else if (field 24 4 + n + 2 ^ 32 - field 16 4) % 2 ^ 32 > 2 ^ ringLog (field 8 8) then .wait g.lanes id
              else .done sigs (t.pageWrite x.entry (x.va + 24) (leBytes 8 ((field 24 4 + n) % 2 ^ 32)))

/-! Grids (R379). -/

/-- The rack command queue of this package's rack root has a free record (R429). -/
def State.rackQueueFree (s : State) : Bool :=
  s.dist.rackBase != 0 && s.dist.rackReserved - s.dist.rackHead < 2 ^ s.dist.rackLog

/-- The package queue takes one more launch (R153). -/
def State.packageQueueFree (s : State) : Bool := s.dist.records.length + (s.dist.levels.getD 2 Level.init).queue.length < 2048

/-- A launch record in the context that launches it (R379: a `spawn` ignores its offset 96). -/
def recordIn (ws : List DWord) (ctx : Nat) : List DWord := ws.set 12 (BitVec.ofNat 64 ctx)

/-- Reserve a record of the rack command queue (R429). -/
def reserveRack (s : State) : State := { s with dist := { s.dist with rackReserved := s.dist.rackReserved + 1 } }

/-- Write a reserved record of the rack command queue and publish it, with the bough and the job that a `spawn` launches it from (R162, R429). -/
def publishRack (s : State) (n : Nat) (ws : List DWord) (within : Option Nat) (owner : Option (Nat × Nat)) : State :=
  let s := s.poolWrite (s.dist.rackBase + 128 * (n % 2 ^ s.dist.rackLog)) (ws.flatMap fun x => leBytes 8 x.toNat)
  { s with dist := { s.dist with published := s.dist.published ++ [n], origins := s.dist.origins.insert n (within, owner) } }

/-- A `spawn` for the rack command queue holds a record of it, in this package's rack root or reserved in another's (R157, R429). -/
def State.rackPlaceHeld (s : State) : Bool :=
  if s.rackRoot == s.cfg.pkg then s.rackQueueFree
  else match s.dist.reservation with
    | some (some _) => true
    | _ => false

/-- Ask the rack root of another package for a record, once until it answers (R157, R429). -/
def askRack (s : State) : State :=
  if s.rackRoot == s.cfg.pkg || s.dist.reservation.isSome then s
  else ({ s with dist := { s.dist with reservation := some none } } : State).send s.rackRoot false .reserve

/-- Enter a record into the rack command queue: in this package's rack root it is reserved, written and published at once; the rack root of
another package gets it over the ordered channel for the record reserved there (R162, R429). -/
def enterRack (s : State) (ws : List DWord) (addr ctx : Nat) (within : Option Nat) (owner : Option (Nat × Nat)) : State :=
  if s.rackRoot == s.cfg.pkg then publishRack (reserveRack s) s.dist.rackReserved (recordIn ws ctx) within owner
  else match s.dist.reservation with
    | some (some n) => ({ s with dist := { s.dist with reservation := none } } : State).send s.rackRoot false
        (.work ⟨recordIn ws ctx, addr, ctx, [], 0, n, [], within, owner⟩)
    | _ => s

/-- The package and contract whose job a launch from a work-group is part of, elsewhere or by way of the rack root (R162, R171). -/
def launchOwner (s : State) (wg : Nat) (rack : Bool) : Option (Nat × Nat) :=
  match s.jobOf wg with
  | some n => if rack then some (s.cfg.pkg, n) else none
  | none => (s.gridOf wg).bind (·.owner)

/-- `spawn`: the record is read as a 128-byte load, the thread's accesses are performed, and it enters the package queue, or the rack
command queue when its rack-wide bit is set (R379, R162). -/
def runSpawn (a : BitVec 7) (g : Group) (s : State) : IssueResult :=
  withWarp g s fun w =>
    let v : Voted := ⟨a, 2, 1, 1⟩
    let l := g.lanes.headD 0
    let va := segmentAddr s g w a false l
    let off := agreed s g w v
    let fails := votedFails s g w [v] ++
      allFail g (firstFail [failIf (va % 64 != 0) (failAlign 0 va), failIf (off + 128 > w.segs.glim.toNat) (failSegment 0 off)])
    let sigs := votedSigs s g w [v]
    if !fails.isEmpty then .trap sigs fails
    else
      let late := unperformed s g w
      match keepGlobal s g w va 128 l with
      | .fail f => .trap sigs (g.lanes.map (·, f))
      | .wait ask => .wait g.lanes ask
      | .ok _ true => .trap sigs (g.lanes.map (·, failContain 4 0))
      | .ok bs false =>
        if !late.isEmpty then .wait late id
        else
          let ws : List DWord := (List.range 16).map fun i => BitVec.ofNat 64 (leNat ((bs.drop (8 * i)).take 8))
          let rack := bits 16 16 (ws.getD 3 0).toNat == 1
          let bough := (boughChain s w).head?.map (·.bough)
          let owner := launchOwner s w.wg rack
          let s' := s.tookPlaces g w l (keepPlaces s g w va 128)
          let s' := match owner with
            | some (p, n) => jobCount s' p n true
            | none => s'
          if rack then
            if s.rackPlaceHeld then .done sigs (enterRack s' ws va w.ctx.toNat bough owner) else .wait g.lanes askRack
          else if !s.packageQueueFree then .wait g.lanes id
          else .done sigs { s' with dist := { s'.dist with records := s'.dist.records ++
              [⟨recordIn ws w.ctx.toNat, w.ctx.toNat, va, bough, s.jobOf w.wg, owner⟩] } }

end Sys2Proof.Machine
end

