-- ==== Sys2Proof/Machine/Run.lean ====
section
/-! DEFINITION. The meaning of an instruction word as one issue for a group, by constructor: the one place where the slots, which must know
whether a group can issue (R23), and `rep`, which issues the word it governs (R282), find it. A prefix and an event have none here. -/

namespace Sys2Proof.Machine

/-- What an issue of a word does for a group, once the checks of R273, R274 and R43 have passed. -/
def runWord (i : Instr) : Group → State → IssueResult :=
  match i with
  | .add _ d a b _ => runAdd d a b
  | .sub _ d a b _ => runSub d a b
  | .addc _ d a b _ => runAddc d a b
  | .subb _ d a b _ => runSubb d a b
  | .addi _ d a i => runAddi d a i
  | .mul _ d a b _ => runMul d a b
  | .mulhI32 _ d a b _ => runMulhI32 d a b
  | .mulhN32 _ d a b _ => runMulhN32 d a b
  | .mad _ d a b _ => runMad d a b
  | .minI32 _ d a b _ => runMinI32 d a b
  | .minN32 _ d a b _ => runMinN32 d a b
  | .maxI32 _ d a b _ => runMaxI32 d a b
  | .maxN32 _ d a b _ => runMaxN32 d a b
  | .and _ d a b _ => runAnd d a b
  | .or _ d a b _ => runOr d a b
  | .xor _ d a b _ => runXor d a b
  | .shlReg _ d a b _ => runShlReg d a b
  | .shrReg _ d a b _ => runShrReg d a b
  | .sarReg _ d a b _ => runSarReg d a b
  | .rolReg _ d a b _ => runRolReg d a b
  | .shlImm _ d a c => runShlImm d a c
  | .shrImm _ d a c => runShrImm d a c
  | .sarImm _ d a c => runSarImm d a c
  | .rolImm _ d a c => runRolImm d a c
  | .abs _ d a l => runAbs d a l
  | .neg _ d a l => runNeg d a l
  | .clz _ d a l => runClz d a l
  | .popc _ d a l => runPopc d a l
  | .brev _ d a l => runBrev d a l
  | .mov _ d a l => runMov d a l
  | .pk8 _ d a l k => runPk8 d a l k
  | .upk8N _ d a l k => runUpk8N d a l k
  | .upk8I _ d a l k => runUpk8I d a l k
  | .pk4 _ d a l k => runPk4 d a l k
  | .upk4N _ d a l k => runUpk4N d a l k
  | .upk4I _ d a l k => runUpk4I d a l k
  | .bfx _ d a b _ => runBfx d a b
  | .bfxs _ d a b _ => runBfxs d a b
  | .bfi _ d a b _ => runBfi d a b
  | .bfx64 _ d a b _ => runBfx64 d a b
  | .bfxs64 _ d a b _ => runBfxs64 d a b
  | .bfi64 _ d a b _ => runBfi64 d a b
  | .sel _ d a b p => runSel d a b p
  | .cmp _ c p a b _ f => runCmp c p a b f
  | .movi _ d i => runMovi d i
  | .movh _ d i => runMovh d i
  | .add64 _ d a b _ => runAdd64 d a b
  | .sub64 _ d a b _ => runSub64 d a b
  | .mul64 _ d a b _ => runMul64 d a b
  | .mad64 _ d a b _ => runMad64 d a b
  | .shl64 _ d a b _ => runShl64 d a b
  | .shr64 _ d a b _ => runShr64 d a b
  | .sar64 _ d a b _ => runSar64 d a b
  | .min64I64 _ d a b _ => runMin64I64 d a b
  | .min64N64 _ d a b _ => runMin64N64 d a b
  | .max64I64 _ d a b _ => runMax64I64 d a b
  | .max64N64 _ d a b _ => runMax64N64 d a b
  | .mulh64I64 _ d a b _ => runMulh64I64 d a b
  | .mulh64N64 _ d a b _ => runMulh64N64 d a b
  | .cmp64 _ c p a b _ f => runCmp64 c p a b f
  | .fadd _ d a b _ r => runFadd d a b r
  | .fsub _ d a b _ r => runFsub d a b r
  | .fmul _ d a b _ r => runFmul d a b r
  | .ffma _ d a b _ r => runFfma d a b r
  | .fmin _ d a b _ => runFmin d a b
  | .fmax _ d a b _ => runFmax d a b
  | .hmax2 _ d a b _ t => runHmax2 d a b t
  | .fcmp _ c p a b _ => runFcmp c p a b
  | .frcp _ d a l => runFrcp d a l
  | .frsq _ d a l => runFrsq d a l
  | .fsqrt _ d a l => runFsqrt d a l
  | .fex2 _ d a l => runFex2 d a l
  | .flg2 _ d a l => runFlg2 d a l
  | .fsin _ d a l => runFsin d a l
  | .fcos _ d a l => runFcos d a l
  | .ftanh _ d a l => runFtanh d a l
  | .frnd _ d a l r => runFrnd d a l r
  | .fcvt _ d a t s r => runFcvt d a t s r
  | .fcvtSat _ d a t s r => runFcvtSat d a t s r
  | .hadd2 _ d a b _ t => runHadd2 d a b t
  | .hmul2 _ d a b _ t => runHmul2 d a b t
  | .hfma2 _ d a b _ t => runHfma2 d a b t
  | .hmin2 _ d a b _ t => runHmin2 d a b t
  | .dot4 _ d a b _ => runDot4 d a b
  | .dot8 _ d a b _ => runDot8 d a b
  | .dotm4 _ d a b _ => runDotm4 d a b
  | .dotm8 _ d a b _ f => runDotm8 d a b f
  | .sclb _ d a b _ k => runSclb d a b k
  | .shfl e d a b u f => runShfl (.shfl e d a b u f) d a b f
  | .voteBallot e d n s => runVoteBallot (.voteBallot e d n s) d n s
  | .voteAll e d n s q => runVoteAll (.voteAll e d n s q) d n s q
  | .voteAny e d n s q => runVoteAny (.voteAny e d n s q) d n s q
  | .voteEq e d n s q => runVoteEq (.voteEq e d n s q) d n s q
  | .lred e d a l o => runLred (.lred e d a l o) d a l o
  | .lscan e d a l x o => runLscan (.lscan e d a l x o) d a l x o
  | .matchW e d a => runMatchW (.matchW e d a) d a
  | .match64 e d a => runMatch64 (.match64 e d a) d a
  | .fmtv e d a => runFmtv (.fmtv e d a) d a
  | .cvg e d => runCvg (.cvg e d) d
  | .pand _ d n a m b => runPand d n a m b
  | .por _ d n a m b => runPor d n a m b
  | .pxor _ d n a m b => runPxor d n a m b
  | .pnot _ d n a => runPnot d n a
  | .bra _ p n o => runBra p n o
  | .brp _ p n o => runBrp p n o
  | .call _ d i => runCall d i
  | .ret _ a => runRet a
  | .jmp _ a => runJmp a
  | .exit _ => runExit
  | .nop _ => runNop
  | .rep _ _ _ _ _ _ => fun g _ => .wait g.lanes id
  | .rsr _ d i => runRsr d i
  | .wbase e a i => runWbase (wordOf (.wbase e a i)) a i
  | .ldG _ d a l s h => runLdG d a l s h
  | .ldC _ d a l s h => runLdC d a l s h
  | .ldS _ d a l s => runLdS d a l s
  | .ldX _ d a l s => runLdX d a l s
  | .ldAcq _ d a l s c => runLdAcq d a l s c
  | .stG _ d a s h => runStG d a s h
  | .stS _ d a s => runStS d a s
  | .stRel _ d a s c => runStRel d a s c
  | .stX _ d a b f => runStX d a b f
  | .gft _ d a b f => runGft d a b f
  | .fence _ c => runFence c
  | .fenceRel _ c => runFenceRel c
  | .fenceAcq _ c => runFenceAcq c
  | .cflush _ a => runCflush a
  | .cdemote _ a => runCdemote a
  | .cpref _ a h => runCpref a h
  | .bld _ y m => runBld y m
  | .bsel _ g m => runBsel g m
  | .mma _ t y m l => runMma t y m l
  | .mmaz _ t y m l => runMmaz t y m l
  | .acz _ t => runAcz t
  | .acld _ t y => runAcld t y
  | .acst _ t y m => runAcst t y m
  | .acrd _ d a l t => runAcrd d a l t
  | .acwr _ d a t => runAcwr d a t
  | .acscl _ d t => runAcscl d t
  | .atmAdd _ d a b w s => runAtmAdd d a b w s
  | .redAdd _ a b w s => runRedAdd a b w s
  | .atmImin _ d a b w s => runAtmImin d a b w s
  | .redImin _ a b w s => runRedImin a b w s
  | .atmNmin _ d a b w s => runAtmNmin d a b w s
  | .redNmin _ a b w s => runRedNmin a b w s
  | .atmImax _ d a b w s => runAtmImax d a b w s
  | .redImax _ a b w s => runRedImax a b w s
  | .atmNmax _ d a b w s => runAtmNmax d a b w s
  | .redNmax _ a b w s => runRedNmax a b w s
  | .atmAnd _ d a b w s => runAtmAnd d a b w s
  | .redAnd _ a b w s => runRedAnd a b w s
  | .atmOr _ d a b w s => runAtmOr d a b w s
  | .redOr _ a b w s => runRedOr a b w s
  | .atmXor _ d a b w s => runAtmXor d a b w s
  | .redXor _ a b w s => runRedXor a b w s
  | .atmXchg _ d a b w s => runAtmXchg d a b w s
  | .atmCas _ d a b w s => runAtmCas d a b w s
  | .atmFaddG _ d a b t => runAtmFaddG d a b t
  | .redFaddG _ a b t => runRedFaddG a b t
  | .atmFaddS _ d a b t => runAtmFaddS d a b t
  | .redFaddS _ a b t => runRedFaddS a b t
  | .xcp _ a => runXcp a
  | .xget _ a => runXget a
  | .xput _ a => runXput a
  | .xputRel _ a => runXputRel a
  | .xred _ a => runXred a
  | .xsig _ a => runXsig a
  | .xgth _ a => runXgth a
  | .xrsc _ a => runXrsc a
  | .chap _ a b => runChap a b
  | .wcnt _ c k => runWcnt c k
  | .syarm _ a b => runSyarm a b
  | .syadd _ a b => runSyadd a b
  | .sywait _ a b => runSywait a b
  | .barWg e => runBarWg (.barWg e)
  | .barGang e => runBarGang (.barGang e)
  | .barX e => runBarX (.barX e)
  | .mon _ a => runMon a
  | .mwait e a => runMwait (.mwait e a) a
  | .ropen e a b => runRopen (.ropen e a b) a b
  | .rclose e => runRclose (.rclose e)
  | .rdepth _ d => runRdepth d
  | .rkeepG e a b => runRkeepG (wordOf (.rkeepG e a b)) a b
  | .rkeepS e a b => runRkeepS (wordOf (.rkeepS e a b)) a b
  | .trap _ a => runTrap a
  | .eretResume e => runEret (.eretResume e)
  | .eretRetry e => runEret (.eretRetry e)
  | .eretEscalate e => runEret (.eretEscalate e)
  | .eretKill e => runEret (.eretKill e)
  | .segw e a s => runSegw (wordOf (.segw e a s)) a s
  | .segr _ d s => runSegr d s
  | .wsr _ a i => runWsr a i
  | .tlbiVa _ a b => runTlbiVa a b
  | .tlbiCtx _ b => runTlbiCtx b
  | .tlbiAll _ => runTlbiAll
  | .yield _ => runYield
  | .spawn _ a => runSpawn a
  | .warpChoice _ _ => fun g _ => .wait g.lanes id
  | .cut _ _ => fun g _ => .wait g.lanes id
  | .loadValueArrival _ _ => fun g _ => .wait g.lanes id
  | .stXApply _ => fun g _ => .wait g.lanes id
  | .exchangePolaritySwap _ => fun g _ => .wait g.lanes id
  | .siblingStop _ _ _ => fun g _ => .wait g.lanes id
  | .mwaitWake _ _ _ => fun g _ => .wait g.lanes id
  | .monitorTimeout _ _ _ => fun g _ => .wait g.lanes id
  | .laneFailure _ _ _ => fun g _ => .wait g.lanes id
  | .spareLaneSwitch _ _ _ => fun g _ => .wait g.lanes id
  | .ringRollback _ _ _ => fun g _ => .wait g.lanes id
  | .impreciseStoreFault _ => fun g _ => .wait g.lanes id
  | .homeTimeout _ _ => fun g _ => .wait g.lanes id
  | .l1Fill _ _ => fun g _ => .wait g.lanes id
  | .sliceWriteArrival _ => fun g _ => .wait g.lanes id
  | .writeQueueApply _ => fun g _ => .wait g.lanes id
  | .gatherMerge _ => fun g _ => .wait g.lanes id
  | .sharerUpdate _ _ => fun g _ => .wait g.lanes id
  | .graftFill _ _ => fun g _ => .wait g.lanes id
  | .writerAcknowledge _ => fun g _ => .wait g.lanes id
  | .evictionNotice _ _ => fun g _ => .wait g.lanes id
  | .sliceFill _ _ _ => fun g _ => .wait g.lanes id
  | .partialSectorMerge _ _ _ => fun g _ => .wait g.lanes id
  | .sliceVictimEviction _ _ => fun g _ => .wait g.lanes id
  | .refreshDue _ _ => fun g _ => .wait g.lanes id
  | .forcedAllBankRefresh _ => fun g _ => .wait g.lanes id
  | .postponedRefreshDrain _ _ => fun g _ => .wait g.lanes id
  | .refreshEnd _ _ => fun g _ => .wait g.lanes id
  | .pinRepairDue _ _ => fun g _ => .wait g.lanes id
  | .pinRepairPauseEnd _ _ => fun g _ => .wait g.lanes id
  | .pageWalk _ _ _ => fun g _ => .wait g.lanes id
  | .syncWordArrival _ => fun g _ => .wait g.lanes id
  | .copyCommandTake _ _ => fun g _ => .wait g.lanes id
  | .engineLineWrite _ _ => fun g _ => .wait g.lanes id
  | .commandRetire _ _ => fun g _ => .wait g.lanes id
  | .xputRelRelease _ _ => fun g _ => .wait g.lanes id
  | .xgthVersionRecheck _ _ => fun g _ => .wait g.lanes id
  | .xrscChunkArrival _ _ _ => fun g _ => .wait g.lanes id
  | .columnHeadReduction _ _ => fun g _ => .wait g.lanes id
  | .remoteWriteAck _ => fun g _ => .wait g.lanes id
  | .flitReceive _ _ _ => fun g _ => .wait g.lanes id
  | .creditReturn _ _ _ => fun g _ => .wait g.lanes id
  | .relayForward _ _ => fun g _ => .wait g.lanes id
  | .linkFailure _ => fun g _ => .wait g.lanes id
  | .orderedDetourSwitch _ => fun g _ => .wait g.lanes id
  | .ethernetFrameReceive _ _ _ _ _ => fun g _ => .wait g.lanes id
  | .ethernetFrameResend _ _ _ => fun g _ => .wait g.lanes id
  | .matrixCommandStart _ => fun g _ => .wait g.lanes id
  | .macroExchange _ _ => fun g _ => .wait g.lanes id
  | .matrixCommandComplete _ => fun g _ => .wait g.lanes id
  | .chainEntryStart _ => fun g _ => .wait g.lanes id
  | .chainEntryComplete _ => fun g _ => .wait g.lanes id
  | .encodeFrameComplete _ => fun g _ => .wait g.lanes id
  | .chainSlotArm _ _ => fun g _ => .wait g.lanes id
  | .chainSlotDisarm _ _ => fun g _ => .wait g.lanes id
  | .launchRecordTake _ => fun g _ => .wait g.lanes id
  | .workGroupRoute _ _ => fun g _ => .wait g.lanes id
  | .chunkPassDown _ _ => fun g _ => .wait g.lanes id
  | .workGroupPlacement _ => fun g _ => .wait g.lanes id
  | .workGroupResidency _ => fun g _ => .wait g.lanes id
  | .packageSteal _ _ => fun g _ => .wait g.lanes id
  | .dieSteal _ => fun g _ => .wait g.lanes id
  | .stealRequest _ _ => fun g _ => .wait g.lanes id
  | .warpComplete _ _ _ => fun g _ => .wait g.lanes id
  | .prunerTrigger _ => fun g _ => .wait g.lanes id
  | .prunerMoveStep _ => fun g _ => .wait g.lanes id
  | .contractRelease _ => fun g _ => .wait g.lanes id
  | .deadlineMiss _ => fun g _ => .wait g.lanes id
  | .budgetOverrun _ => fun g _ => .wait g.lanes id
  | .contractAdmission => fun g _ => .wait g.lanes id
  | .frequencyStepRequest _ _ => fun g _ => .wait g.lanes id
  | .frequencyStepEffect _ _ => fun g _ => .wait g.lanes id
  | .clockCrossingStallEnd _ => fun g _ => .wait g.lanes id
  | .contextPreempt _ => fun g _ => .wait g.lanes id
  | .drainLimitExpiry _ => fun g _ => .wait g.lanes id
  | .warpSnapshot _ _ _ => fun g _ => .wait g.lanes id
  | .workGroupSave _ => fun g _ => .wait g.lanes id
  | .snapshotLimitExpiry _ => fun g _ => .wait g.lanes id
  | .contextResume _ => fun g _ => .wait g.lanes id
  | .workGroupRestore _ => fun g _ => .wait g.lanes id
  | .contextReset _ => fun g _ => .wait g.lanes id
  | .contextRelease _ => fun g _ => .wait g.lanes id
  | .contractRemove _ => fun g _ => .wait g.lanes id
  | .mapOutCore _ => fun g _ => .wait g.lanes id
  | .mapOutCDie _ => fun g _ => .wait g.lanes id
  | .mapOutStack _ => fun g _ => .wait g.lanes id
  | .mapOutPseudoChannel _ => fun g _ => .wait g.lanes id
  | .pseudoChannelDropCopyEnd _ _ => fun g _ => .wait g.lanes id
  | .mapOutDieLink _ => fun g _ => .wait g.lanes id
  | .mapOutStolilPort _ => fun g _ => .wait g.lanes id
  | .rackQueueReserve => fun g _ => .wait g.lanes id
  | .rackQueuePublish _ => fun g _ => .wait g.lanes id
  | .walkAnswer _ _ _ => fun g _ => .wait g.lanes id
  | .stealAnswer _ _ _ => fun g _ => .wait g.lanes id
  | .admissionAnswer _ _ _ => fun g _ => .wait g.lanes id
  | .pruneAnswer _ _ => fun g _ => .wait g.lanes id
  | .trapAnswer _ _ _ => fun g _ => .wait g.lanes id
  | .dramRepairAnswer _ _ => fun g _ => .wait g.lanes id
  | .dieLinkHold _ => fun g _ => .wait g.lanes id
  | .holdDrainComplete _ => fun g _ => .wait g.lanes id
  | .dieLinkRelease _ => fun g _ => .wait g.lanes id
  | .dieLinkTrain _ _ => fun g _ => .wait g.lanes id
  | .trainingEnd _ _ => fun g _ => .wait g.lanes id
  | .laneRepair _ _ => fun g _ => .wait g.lanes id
  | .laneRepairComplete _ => fun g _ => .wait g.lanes id
  | .linkRetrainTrigger _ => fun g _ => .wait g.lanes id
  | .stolilPortRetrain _ _ => fun g _ => .wait g.lanes id
  | .mailboxAttest => fun g _ => .wait g.lanes id
  | .mailboxWriteRecord => fun g _ => .wait g.lanes id
  | .mailboxReadCertChain => fun g _ => .wait g.lanes id
  | .mailboxCommandComplete => fun g _ => .wait g.lanes id
  | .counterClear _ => fun g _ => .wait g.lanes id
  | .configRegisterWrite _ _ _ => fun g _ => .wait g.lanes id
  | .powerGood _ _ _ => fun g _ => .wait g.lanes id
  | .stage1Reached _ _ => fun g _ => .wait g.lanes id
  | .stage2Reached _ _ _ => fun g _ => .wait g.lanes id
  | .heartbeatSend => fun g _ => .wait g.lanes id
  | .heartbeatTimeout => fun g _ => .wait g.lanes id
  | .epochAdvance _ => fun g _ => .wait g.lanes id
  | .fabricConfigWrite _ _ _ _ => fun g _ => .wait g.lanes id
  | .logRecordShip _ => fun g _ => .wait g.lanes id
  | .logRecordAck _ => fun g _ => .wait g.lanes id
  | .hostPostedWrite _ _ => fun g _ => .wait g.lanes id
  | .hostRead _ _ => fun g _ => .wait g.lanes id
  | .instructionCacheFill _ _ _ => fun g _ => .wait g.lanes id
  | .dieLinkFlitReceive _ _ _ _ _ => fun g _ => .wait g.lanes id

end Sys2Proof.Machine
end

