-- ==== Sys2Proof/Machine/Issue.lean ====
section
/-! DEFINITION. Issuing (spec/01_work_and_places.md R20 to R30; spec/12 R282, R283; spec/11 R248): fetching a group's word, which groups can
issue, what an issue leaves, and when it ends its run. -/

namespace Sys2Proof.Machine

/-! Fetch (R8, R49, R99, R103, R209). -/

/-- The key of an instruction-cache line: core, identifier, virtual line. -/
def icacheKey (core asid line : Nat) : Nat := (core * 2048 + asid) * 2 ^ 50 + line

/-- What a fetch answers. -/
inductive Fetched where
  | word (w : Word)
  | fail (f : Fail)
  | wait (ask : State → State)

/-- Ask for an instruction-cache fill. -/
def State.askFetch (s : State) (core asid line : Nat) : State :=
  if s.mem.fetches.contains (core, asid, line) then s
  else { s with mem := { s.mem with fetches := s.mem.fetches ++ [(core, asid, line)] } }

/-- Fetch the word at a virtual address: translation and execute permission first, then the core's instruction cache; a poisoned sector
is the containment trap at the instruction (R103, R247 rank 1). -/
def fetchWord (s : State) (core : Nat) (w : Warp) (pc : VAddr) : Fetched :=
  let asid := w.ctx.toNat
  match translateFor s core asid 1 pc.toNat 3 w.system with
  | (some f, _) => .fail f
  | (none, none) => .wait fun s => s.askWalk core asid pc.toNat 3
  | (none, some _) =>
    match s.mem.icache.find (icacheKey core asid (pc.toNat / 128)) with
    | none => .wait fun s => s.askFetch core asid (pc.toNat / 128)
    | some l =>
      let off := pc.toNat % 128
      if l.poison.getLsbD (off / 32) then .fail ⟨1, 0x0D, 0⟩
      else .word (BitVec.ofNat 32 (leNat ((l.data.drop off).take 4)))

/-! Repeats (R282, R283). -/

/-- The word that a prefix at pc governs. -/
def governed (s : State) (g : Group) : Fetched :=
  match s.warpAt g.key with
  | none => .wait id
  | some w => fetchWord s g.core w (g.pc + 4)

/-- After repeat j of n the lanes stand at the prefix with index j + 1, or past both words (R50). -/
def repeatStep (g : Group) (n : Nat) (s : State) : State :=
  s.onLanes g.key g.lanes fun x =>
    if g.rep + 1 < n then { x with pc := g.pc, rep := g.rep + 1 } else { x with pc := g.pc + 8, rep := 0 }

/-- One repeat of a prefixed instruction: both words are fetched, the prefix is checked, and the governed word issues with its enabled
fields raised. -/
def attemptRep (repWord : Instr) (c : BitVec 6) (x y z : Bool) (st : BitVec 2) (g : Group) (s : State) : IssueResult :=
  let n := c.toNat + 1
  let stride := 2 ^ st.toNat
  match governed s g with
  | .wait ask => .wait g.lanes ask
  | .fail f => .trap [] (g.lanes.map (·, f))
  | .word v =>
    match decode v with
    | none => .trap [] (g.lanes.map (·, failIllegal v.toNat))
    | some i =>
      if !repLegal n stride x y z i then .trap [] (g.lanes.map (·, failIllegal (wordOf repWord)))
      else
        let j := i.stepped x y z (g.rep * stride)
        match attemptIssue j v.toNat (runWord j) g s with
        | .done sigs s => .done sigs (repeatStep g n s)
        | r => r

/-- One attempt to issue the instruction of a group. -/
def attemptWord (i : Instr) (g : Group) (s : State) : IssueResult :=
  match i with
  | .rep _ c x y z st => attemptRep i c x y z st g s
  | _ => attemptIssue i (wordOf i) (runWord i) g s

/-! The end of an issue (R20, R24, R132). -/

/-- The run-end bit of an instruction word (R270). -/
def endBit (i : Instr) : Bool :=
  match encode i with
  | w :: _ => w.getLsbD 31
  | [] => false

/-- The run-end bit of an issue: of a prefixed instruction it counts in either word, after the last repeat (R20, R282). -/
def endsRun (i : Instr) (g : Group) (s : State) : Bool :=
  match i with
  | .rep _ c _ _ _ _ => g.rep == c.toNat && (endBit i || match governed s g with
      | .word v => v.getLsbD 31
      | _ => false)
  | _ => endBit i

/-- Loads of a lane that are not performed (R132). -/
def lateLoads (s : State) (g : Group) (l : Nat) : List Nat :=
  (s.threadOps (g.agent l)).filterMap fun (id, o) => match o with
    | .load _ => some id
    | .write w => if w.atom.isSome then some id else none

/-- With the compatibility bit, a lane's later loads follow the loads of lanes it met: in a cross-lane instruction, or in a group after
holding another key (R132). `before` is the warp before the issue. -/
def meetLanes (s : State) (g : Group) (before : Warp) (lanes : List Nat) (cross : Bool) : State :=
  if !before.compat then s
  else lanes.foldl (fun s l =>
    let others := lanes.filter fun m => m != l && (cross || (before.lane m).lastIssue != (before.lane l).lastIssue)
    s.onLanes g.key [l] fun x => { x with loadAfter := (x.loadAfter ++ others.flatMap (lateLoads s g)).dedup }) s

/-- Every lane of a warp has exited. -/
def allExited (w : Warp) : Bool := w.lanes.all fun x => !x.present || x.exited

/-- What an issue leaves (R20, R22, R24): its lanes, and those it released from a cross-lane instruction, have issued in the run, whose
issue count rises; the run may end. -/
def afterIssue (i : Instr) (ends : Bool) (g : Group) (before : Warp) (s : State) : State :=
  let (id, s) := s.take
  match s.warpAt g.key with
  | none => s
  | some w =>
    let freed := (List.range 32).filter fun l => (before.lane l).park.isSome && (w.lane l).park.isNone
    let lanes := (g.lanes ++ freed.filter fun l => !g.lanes.contains l)
    let cross := isCrossLane i
    let w := w.onLanes lanes fun x => { x with lastIssue := id }
    let w := if cross then w.onLanes freed fun x => { x with waitCount := 0 } else w
    let w := { w with
      skid := if before.stop == .halting then (w.skid.1 + 1, w.skid.2) else w.skid
      run := w.run.map fun r => { r with issued := (r.issued ++ lanes).dedup, issues := r.issues + 1 } }
    let s := meetLanes (s.setWarp g.key w) g before lanes cross
    let issues := match w.run with
      | some r => r.issues
      | none => 0
    let boundary := match i with
      | .rep _ _ _ _ _ _ => true
      | _ => false
    let isYield := match i with
      | .yield _ => true
      | _ => false
    if (ends && !g.sweep) || issues ≥ 24 || isYield || allExited w || ((w.stop == .halting || w.snapshot) && boundary) ||
        w.stop == .trapped || w.stop == .halted || w.stop == .contained then endRun s g.key
    else s

/-- The outcome of an attempt: the effect, the trap on the state before the issue (R247), or what a wait asks for (R21). -/
def settleIssue (i : Instr) (g : Group) (s : State) (r : IssueResult) : State :=
  match r with
  | .done _ s' =>
    match s.warpAt g.key with
    | some w => afterIssue i (endsRun i g s) g w s'
    | none => s'
  | .trap _ fails =>
    match resolveTrap fails with
    | some t =>
      let asid := match s.warpAt g.key with
        | some w => w.ctx.toNat
        | none => 0
      trapEntry (s.dropWalkFaults g.core asid) g.key t g.pc g.rep
    | none => s
  | .wait _ ask => ask s

/-- The state with the choice of a group taken back: what an issue starts from. -/
def State.unchoose (s : State) : State := { s with chosen := none }

/-- Issue an instruction for the group chosen by the step. -/
def issueWord (i : Instr) (run : Group → State → IssueResult) (s : State) : Host.Outcome State Fault Refusal :=
  match s.chosen with
  | none => .fault .noIssuingGroup
  | some g => .next (settleIssue i g s.unchoose (attemptIssue i (wordOf i) run g s.unchoose))

/-- Issue one repeat of a prefixed instruction for the group chosen by the step. -/
def issueRep (i : Instr) (s : State) : Host.Outcome State Fault Refusal :=
  match s.chosen with
  | none => .fault .noIssuingGroup
  | some g => .next (settleIssue i g s.unchoose (attemptWord i g s.unchoose))

/-! Replay of loads (R53, R268). -/

/-- What a replay takes from a load instruction: its size code, its hint, whether it is an acquire. -/
structure LoadShape where
  code : Nat
  hint : Nat
  acquire : Bool

def loadShape : Instr → Option LoadShape
  | .ldG _ _ _ _ sz h => some ⟨sz.toNat, h.toNat, false⟩
  | .ldC _ _ _ _ sz h => some ⟨sz.toNat, h.toNat, false⟩
  | .ldAcq _ _ _ _ sz _ => some ⟨sz.toNat, 0, true⟩
  | _ => none

/-- The shape of the load at a replay record's PC: its word, or the word that the prefix there governs, is read in the warp's context. -/
def replayShape (s : State) (w : Warp) (r : Replay) (count : Nat) : LoadShape :=
  let word (pc : Nat) : Option Instr := (s.virt w.ctx.toNat pc).bind fun pa => decode (BitVec.ofNat 32 (s.homeNat pa 4).1)
  let found := match word r.pc.toNat with
    | some (.rep _ _ _ _ _ _) => (word (r.pc.toNat + 4)).bind loadShape
    | some i => loadShape i
    | none => none
  found.getD ⟨if count == 1 then 4 else if count == 2 then 5 else 6, 0, false⟩

/-- The translation of a replayed load: the fault of the thread's first issue, or the physical address and the page (R53). The detail of 0x07
keeps the home package in [63:57] as R247 lays it out, and has no bit [61] of its own; a poisoned entry of the tables is the containment trap
of R209 (DEDUCED, log 47). -/
def replayAddr (s : State) (w : Warp) (va : Nat) : Except (Nat × Nat) TlbEntry :=
  match (if va < 2 ^ 57 then s.walk w.ctx.toNat va else .invalid) with
  | .leaf e =>
    match pageChecks s 10 va 0 w.system e with
    | none => .ok e
    | some f => .error (f.code, if f.code == 0x06 then f.einfo + 2 ^ 61 else f.einfo)
  | .poisoned => .error (0x0D, (failWalkPoison 10 va).einfo)
  | .invalid => .error (0x06, (failPage 10 va 0 false).einfo + 2 ^ 61)

/-- An entry whose load is to be replayed: it has neither a value nor an operation in flight. -/
def Commit.unreplayed (c : Commit) : Bool := c.value.isNone && c.op.isNone && c.load.isSome

/-- A lane with loads to replay. -/
def needsReplay (x : Lane) : Bool := x.commits.any Commit.unreplayed

/-- A lane must replay loads, or raise the fault of one, before it issues. A fault that has been raised (its code is 0 then) is met again only
after the handler, when a resume makes the replay again (R53). -/
def replayDue (w : Warp) (l : Nat) : Bool :=
  match (w.lane l).replayFault with
  | some (0, _) => !w.inHandler
  | some _ => true
  | none => needsReplay (w.lane l)

/-- The words a destination takes. -/
def Dest.count : Dest → Nat
  | .v _ n => n
  | .s _ n => n
  | _ => 1

/-- Put the load of a lane's replay record i in flight anew, in program order with the others (R131); an acquire stays one (R135). -/
def replayLoad (s : State) (core slot n l i : Nat) (w : Warp) (c : Commit) (r : Replay) (e : TlbEntry) : State :=
  let k := warpKey core slot n
  let h := replayShape s w r c.dest.count
  let pa := s.locate e r.va.toNat
  let after := loadAfter s (w.lane l) (.thread core slot n l) pa (sizeBytes h.code) e.kind
  let (id, s) := s.take
  let s := s.addOp id (.load ⟨.thread core slot n l, pa, sizeBytes h.code, h.code, e.kind, h.hint, c.dest, true, [l], after, false, e.mirror, r.va, r.pc, r.rep⟩)
  s.onLanes k [l] fun x => { x with
    commits := x.commits.set i { c with op := some id }
    acquireAfter := if h.acquire && e.kind != 2 then s.stillPending x.acquireAfter ++ [id] else x.acquireAfter }

/-- Re-execute the loads of a lane's replay records, in issue order (R53): each is put in flight anew, or its fault waits for the thread's
first issue. -/
def replayLane (s : State) (core slot n l : Nat) : State :=
  let k := warpKey core slot n
  let count := match s.warpAt k with
    | some w => (w.lane l).commits.length
    | none => 0
  (List.range count).foldl (fun s i =>
    match s.warpAt k with
    | none => s
    | some w => match ((w.lane l).commits[i]?).bind fun c => if c.unreplayed then c.load.map (c, ·) else none with
      | none => s
      | some (c, r) => match replayAddr s w r.va.toNat with
        | .error f => s.onLanes k [l] fun x => { x with replayFault := x.replayFault <|> some f }
        | .ok e => replayLoad s core slot n l i w c r e) s

/-! The scalar registers of a residency (R46). -/

/-- Where one byte of the constant segment at va lies, read in the launch's context as `ld.c` in user mode would, or the trap it gives with the
detail of the word it belongs to. A poisoned entry of the tables is the containment trap of R209 (DEDUCED, log 47). -/
def constantPlace (s : State) (ctx word va : Nat) : Except (Nat × Nat) Nat :=
  match (if va < 2 ^ 57 then s.walk ctx va else .invalid) with
  | .leaf e =>
    match pageChecks s 10 va 0 false e with
    | none => .ok (s.locate e va)
    | some f => .error (f.code, f.einfo - va % 2 ^ 57 + word % 2 ^ 57)
  | .poisoned => .error (0x0D, (failWalkPoison 10 word).einfo)
  | .invalid => .error (0x06, (failPage 10 word 0 false).einfo)

/-- That byte with its poison. -/
def constantByte (s : State) (ctx word va : Nat) : Except (Nat × Nat) (Byte × Bool) :=
  (constantPlace s ctx word va).map fun pa => (s.homeByte pa, s.homePoison pa)

/-- The lines that the load of s0 to s23 reads. -/
def constantLines (s : State) (ctx cbase clim : Nat) : List Nat :=
  ((List.range (min 96 clim)).filterMap fun b => match constantPlace s ctx cbase (cbase + b) with
    | .ok pa => some (lineOf pa)
    | .error _ => none).dedup

/-- s0 to s23 from the constant segment, or the trap of the first word that fails. -/
def loadConstants (s : State) (ctx cbase clim : Nat) : Except (Nat × Nat) (List PWord) :=
  (List.range 24).foldl (fun acc k =>
    match acc with
    | .error e => .error e
    | .ok ws =>
      let bytes := ((List.range 4).filter fun b => 4 * k + b < clim).map fun b => constantByte s ctx (cbase + 4 * k) (cbase + 4 * k + b)
      let bad := bytes.filterMap fun
        | .error e => some e
        | .ok _ => none
      match bad with
      | e :: _ => .error e
      | [] =>
        let got := bytes.filterMap fun
          | .ok b => some b
          | .error _ => none
        .ok (ws ++ [⟨BitVec.ofNat 32 (leNat (got.map (·.1))), got.any (·.2)⟩])) (.ok [])

/-- The constant segment of a warp's launch (R216). -/
def constantsOf (s : State) (w : Warp) : Except (Nat × Nat) (List PWord) :=
  loadConstants s w.ctx.toNat (s.launchWord w 8).toNat ((s.launchWord w 9).toNat % 2 ^ 32)

/-- The scalar registers of a warp as a load of them leaves them: the words, or 0 and the trap of its first issue (R46). -/
def Warp.withConstants (w : Warp) (c : Except (Nat × Nat) (List PWord)) : Warp :=
  match c with
  | .ok ws => { w with sregs := ws, startFault := none }
  | .error f => { w with startFault := some f }

/-! Groups that can issue (R21, R23, R27). -/

/-- What a group of lanes can do now: issue an instruction for some of its lanes; raise the trap of its fetch; make the reads that its
first issue needs (R46, R53); or wait. -/
inductive Prospect where
  | issue (i : Instr) (g : Group)
  | raise (t : TrapInfo) (g : Group)
  | prepare (g : Group)
  | blocked (ask : State → State)

/-- The lanes of a group that may issue instruction i now: those that wait leave the group (R23); of a protected pair both (R31). -/
def probe : Nat → Instr → Group → State → Prospect
  | 0, _, _, _ => .blocked id
  | n + 1, i, g, s =>
    match attemptWord i g s with
    | .wait late ask =>
      let pairs := match s.warpAt g.key with
        | some w => w.protected'
        | none => false
      let rest := g.lanes.filter fun l => !late.any fun x => x == l || (pairs && x / 2 == l / 2)
      if rest.isEmpty then .blocked ask
      else probe n i { g with lanes := rest } s
    | _ => .issue i g

/-- A group's prospect. `parked` is the instruction at which its lanes stand parked as a complete set. -/
def prospect (s : State) (w : Warp) (g : Group) (parked : Option Instr) : Prospect :=
  if (!w.inHandler && w.startFault.isSome) || g.lanes.any (replayDue w) then .prepare g
  else
    match parked with
    | some i => probe 33 i g s
    | none =>
      match fetchWord s g.core w g.pc with
      | .wait ask => .blocked ask
      | .fail f => .raise ⟨f.code, g.lanes, f.einfo⟩ g
      | .word v =>
        match decode v with
        | none => .raise ⟨0x01, g.lanes, v.toNat⟩ g
        | some i => probe 33 i g s

/-- Key order: PC first, then repeat index (R23). -/
def keyBefore (a b : Nat × Nat) : Bool := a.1 < b.1 || (a.1 == b.1 && a.2 < b.2)

/-- The lanes of a warp that form groups now, each with its key: the unparked ones that nothing of their own holds back. -/
def freeLanes (w : Warp) : List (Nat × Nat × Nat) :=
  (List.range 32).filterMap fun l =>
    let x := w.lane l
    if laneReady w l || (needsReplay x && x.present && !x.exited && !x.held && x.park.isNone) then some (x.pc.toNat, x.rep, l) else none

/-- The parked sets of a warp that are complete and have nothing to wait for (R27, R352). -/
def parkedSets (w : Warp) : List (List Nat × Instr) :=
  ((List.range 32).filterMap fun l =>
    match (w.lane l).park with
    | none => none
    | some p =>
      let set := if isCrossLane p.instr then crossSet w l else convSet w l
      match set with
      | some lanes =>
        if lanes.head? == some l && !(lanes.any fun x => commitBlocked w x || (w.lane x).held) then some (lanes, p.instr) else none
      | none => none)

/-- The groups of a warp with their keys, and the instruction of a parked set. -/
def warpGroups (core slot n : Nat) (w : Warp) (sweep : Bool) : List (Group × Option Instr) :=
  let free := freeLanes w
  let keys := (free.map fun x => (x.1, x.2.1)).dedup
  (keys.map fun (pc, r) =>
    ((⟨core, slot, n, (free.filter fun x => x.1 == pc && x.2.1 == r).map (·.2.2), BitVec.ofNat 57 pc, r, sweep⟩ : Group), none)) ++
  (parkedSets w).map fun (lanes, i) =>
    ((⟨core, slot, n, lanes, (w.lane (lanes.headD 0)).pc, 0, sweep⟩ : Group), some i)

/-- The prospects of every group of the warp at key k. -/
def prospects (s : State) (k : Nat) (sweep : Bool) : List (Group × Prospect) :=
  match s.warpAt k with
  | none => []
  | some w => (warpGroups (k / 64) (k / 8 % 8) (k % 8) w sweep).map fun (g, i) => (g, prospect s w g i)

/-- A prospect that lets its group issue, with the lanes that do. -/
def Prospect.lanes : Prospect → List Nat
  | .issue _ g => g.lanes
  | .raise _ g => g.lanes
  | .prepare g => g.lanes
  | .blocked _ => []

def Group.key2 (g : Group) : Nat × Nat := (g.pc.toNat, g.rep)

/-- The prospect of the lowest key. -/
def lowest : List (Group × Prospect) → Option (Group × Prospect)
  | [] => none
  | x :: xs => some (xs.foldl (fun a b => if keyBefore b.1.key2 a.1.key2 then b else a) x)

/-- What the slot does next for a warp with a run in progress: the next group of the sweep that can issue, with the sweep that is left,
else the lowest key among the starving or among all; nothing when no group can issue (R25). -/
def nextInRun (s : State) (k : Nat) (r : Run) : Option Prospect × List (Nat × Nat) :=
  let ps := (prospects s k false).filter fun p => !p.2.lanes.isEmpty
  let sweepOf (key : Nat × Nat) : Option Prospect := (ps.find? fun p => p.1.key2 == key).map fun p =>
    match p.2 with
    | .issue i g => .issue i { g with sweep := true }
    | x => x
  let rec go : List (Nat × Nat) → Option (Prospect × List (Nat × Nat))
    | [] => none
    | key :: rest => match sweepOf key with
      | some p => some (p, rest)
      | none => go rest
  match go r.sweep with
  | some (p, rest) => (some p, rest)
  | none =>
    let starving := ps.filter fun p => p.2.lanes.any fun l => r.starving.contains l
    ((lowest (if starving.isEmpty then ps else starving)).map (·.2), [])

/-- Raise a trap that a group's fetch or its first issue gives. -/
def raiseAt (s : State) (g : Group) (t : TrapInfo) : State :=
  let asid := match s.warpAt g.key with
    | some w => w.ctx.toNat
    | none => 0
  trapEntry (s.dropWalkFaults g.core asid) g.key t g.pc g.rep

/-- Before a group's first issue: the trap of the scalar registers' load is raised for every present lane, and after it the load is made
again; loads are replayed, or the trap of those whose replay failed is raised (R46, R53). -/
def prepareGroup (s : State) (g : Group) : State :=
  match s.warpAt g.key with
  | none => s
  | some w =>
    match w.startFault with
    | some (0, _) =>
      s.onWarp g.key fun w => w.withConstants (constantsOf s w)
    | some (code, info) =>
      let lanes := (List.range 32).filter fun l => (w.lane l).present
      raiseAt (s.onWarp g.key fun w => { w with startFault := some (0, 0) }) g ⟨code, lanes, info⟩
    | none =>
      let lanes := g.lanes.filter (replayDue w)
      let bad := laneFails lanes fun l => ((w.lane l).replayFault.filter (·.1 != 0)).map fun f => ⟨if f.1 == 7 then 11 else 10, f.1, f.2⟩
      match resolveTrap bad with
      | some t => raiseAt (s.onLanes g.key lanes fun x => { x with replayFault := some (0, 0) }) g t
      | none => lanes.foldl (fun s l => replayLane s g.core g.slot g.warp l) (s.onLanes g.key lanes fun x => { x with replayFault := none })

end Sys2Proof.Machine
end

