-- ==== Sys2Proof/Machine/Words.lean ====
section
/-! DEFINITION. The meanings of the instruction words (spec/13, spec/14, spec/15): each one is an issue (Machine/Issue.lean) of its run
definition in Machine/<Family>.lean for the group that the step has chosen. -/

namespace Sys2Proof.Machine

def execAdd (e : Bool) (d : BitVec 7) (a : BitVec 7) (b : BitVec 7) (u : Bool) (st : State) : Host.Outcome State Fault Refusal :=
  issueWord (.add e d a b u) (runAdd d a b) st
def execSub (e : Bool) (d : BitVec 7) (a : BitVec 7) (b : BitVec 7) (u : Bool) (st : State) : Host.Outcome State Fault Refusal :=
  issueWord (.sub e d a b u) (runSub d a b) st
def execAddc (e : Bool) (d : BitVec 7) (a : BitVec 7) (b : BitVec 7) (u : Bool) (st : State) : Host.Outcome State Fault Refusal :=
  issueWord (.addc e d a b u) (runAddc d a b) st
def execSubb (e : Bool) (d : BitVec 7) (a : BitVec 7) (b : BitVec 7) (u : Bool) (st : State) : Host.Outcome State Fault Refusal :=
  issueWord (.subb e d a b u) (runSubb d a b) st
def execAddi (e : Bool) (d : BitVec 7) (a : BitVec 7) (i : BitVec 10) (st : State) : Host.Outcome State Fault Refusal :=
  issueWord (.addi e d a i) (runAddi d a i) st
def execMul (e : Bool) (d : BitVec 7) (a : BitVec 7) (b : BitVec 7) (u : Bool) (st : State) : Host.Outcome State Fault Refusal :=
  issueWord (.mul e d a b u) (runMul d a b) st
def execMulhI32 (e : Bool) (d : BitVec 7) (a : BitVec 7) (b : BitVec 7) (u : Bool) (st : State) : Host.Outcome State Fault Refusal :=
  issueWord (.mulhI32 e d a b u) (runMulhI32 d a b) st
def execMulhN32 (e : Bool) (d : BitVec 7) (a : BitVec 7) (b : BitVec 7) (u : Bool) (st : State) : Host.Outcome State Fault Refusal :=
  issueWord (.mulhN32 e d a b u) (runMulhN32 d a b) st
def execMad (e : Bool) (d : BitVec 7) (a : BitVec 7) (b : BitVec 7) (u : Bool) (st : State) : Host.Outcome State Fault Refusal :=
  issueWord (.mad e d a b u) (runMad d a b) st
def execMinI32 (e : Bool) (d : BitVec 7) (a : BitVec 7) (b : BitVec 7) (u : Bool) (st : State) : Host.Outcome State Fault Refusal :=
  issueWord (.minI32 e d a b u) (runMinI32 d a b) st
def execMinN32 (e : Bool) (d : BitVec 7) (a : BitVec 7) (b : BitVec 7) (u : Bool) (st : State) : Host.Outcome State Fault Refusal :=
  issueWord (.minN32 e d a b u) (runMinN32 d a b) st
def execMaxI32 (e : Bool) (d : BitVec 7) (a : BitVec 7) (b : BitVec 7) (u : Bool) (st : State) : Host.Outcome State Fault Refusal :=
  issueWord (.maxI32 e d a b u) (runMaxI32 d a b) st
def execMaxN32 (e : Bool) (d : BitVec 7) (a : BitVec 7) (b : BitVec 7) (u : Bool) (st : State) : Host.Outcome State Fault Refusal :=
  issueWord (.maxN32 e d a b u) (runMaxN32 d a b) st
def execAnd (e : Bool) (d : BitVec 7) (a : BitVec 7) (b : BitVec 7) (u : Bool) (st : State) : Host.Outcome State Fault Refusal :=
  issueWord (.and e d a b u) (runAnd d a b) st
def execOr (e : Bool) (d : BitVec 7) (a : BitVec 7) (b : BitVec 7) (u : Bool) (st : State) : Host.Outcome State Fault Refusal :=
  issueWord (.or e d a b u) (runOr d a b) st
def execXor (e : Bool) (d : BitVec 7) (a : BitVec 7) (b : BitVec 7) (u : Bool) (st : State) : Host.Outcome State Fault Refusal :=
  issueWord (.xor e d a b u) (runXor d a b) st
def execShlReg (e : Bool) (d : BitVec 7) (a : BitVec 7) (b : BitVec 7) (u : Bool) (st : State) : Host.Outcome State Fault Refusal :=
  issueWord (.shlReg e d a b u) (runShlReg d a b) st
def execShrReg (e : Bool) (d : BitVec 7) (a : BitVec 7) (b : BitVec 7) (u : Bool) (st : State) : Host.Outcome State Fault Refusal :=
  issueWord (.shrReg e d a b u) (runShrReg d a b) st
def execSarReg (e : Bool) (d : BitVec 7) (a : BitVec 7) (b : BitVec 7) (u : Bool) (st : State) : Host.Outcome State Fault Refusal :=
  issueWord (.sarReg e d a b u) (runSarReg d a b) st
def execRolReg (e : Bool) (d : BitVec 7) (a : BitVec 7) (b : BitVec 7) (u : Bool) (st : State) : Host.Outcome State Fault Refusal :=
  issueWord (.rolReg e d a b u) (runRolReg d a b) st
def execShlImm (e : Bool) (d : BitVec 7) (a : BitVec 7) (c : BitVec 5) (st : State) : Host.Outcome State Fault Refusal :=
  issueWord (.shlImm e d a c) (runShlImm d a c) st
def execShrImm (e : Bool) (d : BitVec 7) (a : BitVec 7) (c : BitVec 5) (st : State) : Host.Outcome State Fault Refusal :=
  issueWord (.shrImm e d a c) (runShrImm d a c) st
def execSarImm (e : Bool) (d : BitVec 7) (a : BitVec 7) (c : BitVec 5) (st : State) : Host.Outcome State Fault Refusal :=
  issueWord (.sarImm e d a c) (runSarImm d a c) st
def execRolImm (e : Bool) (d : BitVec 7) (a : BitVec 7) (c : BitVec 5) (st : State) : Host.Outcome State Fault Refusal :=
  issueWord (.rolImm e d a c) (runRolImm d a c) st
def execAbs (e : Bool) (d : BitVec 7) (a : BitVec 7) (l : BitVec 4) (st : State) : Host.Outcome State Fault Refusal :=
  issueWord (.abs e d a l) (runAbs d a l) st
def execNeg (e : Bool) (d : BitVec 7) (a : BitVec 7) (l : BitVec 4) (st : State) : Host.Outcome State Fault Refusal :=
  issueWord (.neg e d a l) (runNeg d a l) st
def execClz (e : Bool) (d : BitVec 7) (a : BitVec 7) (l : BitVec 4) (st : State) : Host.Outcome State Fault Refusal :=
  issueWord (.clz e d a l) (runClz d a l) st
def execPopc (e : Bool) (d : BitVec 7) (a : BitVec 7) (l : BitVec 4) (st : State) : Host.Outcome State Fault Refusal :=
  issueWord (.popc e d a l) (runPopc d a l) st
def execBrev (e : Bool) (d : BitVec 7) (a : BitVec 7) (l : BitVec 4) (st : State) : Host.Outcome State Fault Refusal :=
  issueWord (.brev e d a l) (runBrev d a l) st
def execMov (e : Bool) (d : BitVec 7) (a : BitVec 7) (l : BitVec 4) (st : State) : Host.Outcome State Fault Refusal :=
  issueWord (.mov e d a l) (runMov d a l) st
def execPk8 (e : Bool) (d : BitVec 7) (a : BitVec 7) (l : BitVec 4) (k : BitVec 2) (st : State) : Host.Outcome State Fault Refusal :=
  issueWord (.pk8 e d a l k) (runPk8 d a l k) st
def execUpk8N (e : Bool) (d : BitVec 7) (a : BitVec 7) (l : BitVec 4) (k : BitVec 2) (st : State) : Host.Outcome State Fault Refusal :=
  issueWord (.upk8N e d a l k) (runUpk8N d a l k) st
def execUpk8I (e : Bool) (d : BitVec 7) (a : BitVec 7) (l : BitVec 4) (k : BitVec 2) (st : State) : Host.Outcome State Fault Refusal :=
  issueWord (.upk8I e d a l k) (runUpk8I d a l k) st
def execPk4 (e : Bool) (d : BitVec 7) (a : BitVec 7) (l : BitVec 4) (k : BitVec 3) (st : State) : Host.Outcome State Fault Refusal :=
  issueWord (.pk4 e d a l k) (runPk4 d a l k) st
def execUpk4N (e : Bool) (d : BitVec 7) (a : BitVec 7) (l : BitVec 4) (k : BitVec 3) (st : State) : Host.Outcome State Fault Refusal :=
  issueWord (.upk4N e d a l k) (runUpk4N d a l k) st
def execUpk4I (e : Bool) (d : BitVec 7) (a : BitVec 7) (l : BitVec 4) (k : BitVec 3) (st : State) : Host.Outcome State Fault Refusal :=
  issueWord (.upk4I e d a l k) (runUpk4I d a l k) st
def execBfx (e : Bool) (d : BitVec 7) (a : BitVec 7) (b : BitVec 7) (u : Bool) (st : State) : Host.Outcome State Fault Refusal :=
  issueWord (.bfx e d a b u) (runBfx d a b) st
def execBfxs (e : Bool) (d : BitVec 7) (a : BitVec 7) (b : BitVec 7) (u : Bool) (st : State) : Host.Outcome State Fault Refusal :=
  issueWord (.bfxs e d a b u) (runBfxs d a b) st
def execBfi (e : Bool) (d : BitVec 7) (a : BitVec 7) (b : BitVec 7) (u : Bool) (st : State) : Host.Outcome State Fault Refusal :=
  issueWord (.bfi e d a b u) (runBfi d a b) st
def execBfx64 (e : Bool) (d : BitVec 7) (a : BitVec 7) (b : BitVec 7) (u : Bool) (st : State) : Host.Outcome State Fault Refusal :=
  issueWord (.bfx64 e d a b u) (runBfx64 d a b) st
def execBfxs64 (e : Bool) (d : BitVec 7) (a : BitVec 7) (b : BitVec 7) (u : Bool) (st : State) : Host.Outcome State Fault Refusal :=
  issueWord (.bfxs64 e d a b u) (runBfxs64 d a b) st
def execBfi64 (e : Bool) (d : BitVec 7) (a : BitVec 7) (b : BitVec 7) (u : Bool) (st : State) : Host.Outcome State Fault Refusal :=
  issueWord (.bfi64 e d a b u) (runBfi64 d a b) st
def execSel (e : Bool) (d : BitVec 7) (a : BitVec 7) (b : BitVec 7) (p : BitVec 3) (st : State) : Host.Outcome State Fault Refusal :=
  issueWord (.sel e d a b p) (runSel d a b p) st
def execCmp (e : Bool) (c : BitVec 4) (p : BitVec 3) (a : BitVec 7) (b : BitVec 7) (u : Bool) (f : Bool) (st : State) : Host.Outcome State Fault Refusal :=
  issueWord (.cmp e c p a b u f) (runCmp c p a b f) st
def execMovi (e : Bool) (d : BitVec 7) (i : BitVec 17) (st : State) : Host.Outcome State Fault Refusal :=
  issueWord (.movi e d i) (runMovi d i) st
def execMovh (e : Bool) (d : BitVec 7) (i : BitVec 17) (st : State) : Host.Outcome State Fault Refusal :=
  issueWord (.movh e d i) (runMovh d i) st
def execAdd64 (e : Bool) (d : BitVec 7) (a : BitVec 7) (b : BitVec 7) (u : Bool) (st : State) : Host.Outcome State Fault Refusal :=
  issueWord (.add64 e d a b u) (runAdd64 d a b) st
def execSub64 (e : Bool) (d : BitVec 7) (a : BitVec 7) (b : BitVec 7) (u : Bool) (st : State) : Host.Outcome State Fault Refusal :=
  issueWord (.sub64 e d a b u) (runSub64 d a b) st
def execMul64 (e : Bool) (d : BitVec 7) (a : BitVec 7) (b : BitVec 7) (u : Bool) (st : State) : Host.Outcome State Fault Refusal :=
  issueWord (.mul64 e d a b u) (runMul64 d a b) st
def execMad64 (e : Bool) (d : BitVec 7) (a : BitVec 7) (b : BitVec 7) (u : Bool) (st : State) : Host.Outcome State Fault Refusal :=
  issueWord (.mad64 e d a b u) (runMad64 d a b) st
def execShl64 (e : Bool) (d : BitVec 7) (a : BitVec 7) (b : BitVec 7) (u : Bool) (st : State) : Host.Outcome State Fault Refusal :=
  issueWord (.shl64 e d a b u) (runShl64 d a b) st
def execShr64 (e : Bool) (d : BitVec 7) (a : BitVec 7) (b : BitVec 7) (u : Bool) (st : State) : Host.Outcome State Fault Refusal :=
  issueWord (.shr64 e d a b u) (runShr64 d a b) st
def execSar64 (e : Bool) (d : BitVec 7) (a : BitVec 7) (b : BitVec 7) (u : Bool) (st : State) : Host.Outcome State Fault Refusal :=
  issueWord (.sar64 e d a b u) (runSar64 d a b) st
def execMin64I64 (e : Bool) (d : BitVec 7) (a : BitVec 7) (b : BitVec 7) (u : Bool) (st : State) : Host.Outcome State Fault Refusal :=
  issueWord (.min64I64 e d a b u) (runMin64I64 d a b) st
def execMin64N64 (e : Bool) (d : BitVec 7) (a : BitVec 7) (b : BitVec 7) (u : Bool) (st : State) : Host.Outcome State Fault Refusal :=
  issueWord (.min64N64 e d a b u) (runMin64N64 d a b) st
def execMax64I64 (e : Bool) (d : BitVec 7) (a : BitVec 7) (b : BitVec 7) (u : Bool) (st : State) : Host.Outcome State Fault Refusal :=
  issueWord (.max64I64 e d a b u) (runMax64I64 d a b) st
def execMax64N64 (e : Bool) (d : BitVec 7) (a : BitVec 7) (b : BitVec 7) (u : Bool) (st : State) : Host.Outcome State Fault Refusal :=
  issueWord (.max64N64 e d a b u) (runMax64N64 d a b) st
def execMulh64I64 (e : Bool) (d : BitVec 7) (a : BitVec 7) (b : BitVec 7) (u : Bool) (st : State) : Host.Outcome State Fault Refusal :=
  issueWord (.mulh64I64 e d a b u) (runMulh64I64 d a b) st
def execMulh64N64 (e : Bool) (d : BitVec 7) (a : BitVec 7) (b : BitVec 7) (u : Bool) (st : State) : Host.Outcome State Fault Refusal :=
  issueWord (.mulh64N64 e d a b u) (runMulh64N64 d a b) st
def execCmp64 (e : Bool) (c : BitVec 4) (p : BitVec 3) (a : BitVec 7) (b : BitVec 7) (u : Bool) (f : Bool) (st : State) : Host.Outcome State Fault Refusal :=
  issueWord (.cmp64 e c p a b u f) (runCmp64 c p a b f) st
def execFadd (e : Bool) (d : BitVec 7) (a : BitVec 7) (b : BitVec 7) (u : Bool) (r : BitVec 2) (st : State) : Host.Outcome State Fault Refusal :=
  issueWord (.fadd e d a b u r) (runFadd d a b r) st
def execFsub (e : Bool) (d : BitVec 7) (a : BitVec 7) (b : BitVec 7) (u : Bool) (r : BitVec 2) (st : State) : Host.Outcome State Fault Refusal :=
  issueWord (.fsub e d a b u r) (runFsub d a b r) st
def execFmul (e : Bool) (d : BitVec 7) (a : BitVec 7) (b : BitVec 7) (u : Bool) (r : BitVec 2) (st : State) : Host.Outcome State Fault Refusal :=
  issueWord (.fmul e d a b u r) (runFmul d a b r) st
def execFfma (e : Bool) (d : BitVec 7) (a : BitVec 7) (b : BitVec 7) (u : Bool) (r : BitVec 2) (st : State) : Host.Outcome State Fault Refusal :=
  issueWord (.ffma e d a b u r) (runFfma d a b r) st
def execFmin (e : Bool) (d : BitVec 7) (a : BitVec 7) (b : BitVec 7) (u : Bool) (st : State) : Host.Outcome State Fault Refusal :=
  issueWord (.fmin e d a b u) (runFmin d a b) st
def execFmax (e : Bool) (d : BitVec 7) (a : BitVec 7) (b : BitVec 7) (u : Bool) (st : State) : Host.Outcome State Fault Refusal :=
  issueWord (.fmax e d a b u) (runFmax d a b) st
def execHmax2 (e : Bool) (d : BitVec 7) (a : BitVec 7) (b : BitVec 7) (u : Bool) (t : Bool) (st : State) : Host.Outcome State Fault Refusal :=
  issueWord (.hmax2 e d a b u t) (runHmax2 d a b t) st
def execFcmp (e : Bool) (c : BitVec 4) (p : BitVec 3) (a : BitVec 7) (b : BitVec 7) (u : Bool) (st : State) : Host.Outcome State Fault Refusal :=
  issueWord (.fcmp e c p a b u) (runFcmp c p a b) st
def execFrcp (e : Bool) (d : BitVec 7) (a : BitVec 7) (l : BitVec 4) (st : State) : Host.Outcome State Fault Refusal :=
  issueWord (.frcp e d a l) (runFrcp d a l) st
def execFrsq (e : Bool) (d : BitVec 7) (a : BitVec 7) (l : BitVec 4) (st : State) : Host.Outcome State Fault Refusal :=
  issueWord (.frsq e d a l) (runFrsq d a l) st
def execFsqrt (e : Bool) (d : BitVec 7) (a : BitVec 7) (l : BitVec 4) (st : State) : Host.Outcome State Fault Refusal :=
  issueWord (.fsqrt e d a l) (runFsqrt d a l) st
def execFex2 (e : Bool) (d : BitVec 7) (a : BitVec 7) (l : BitVec 4) (st : State) : Host.Outcome State Fault Refusal :=
  issueWord (.fex2 e d a l) (runFex2 d a l) st
def execFlg2 (e : Bool) (d : BitVec 7) (a : BitVec 7) (l : BitVec 4) (st : State) : Host.Outcome State Fault Refusal :=
  issueWord (.flg2 e d a l) (runFlg2 d a l) st
def execFsin (e : Bool) (d : BitVec 7) (a : BitVec 7) (l : BitVec 4) (st : State) : Host.Outcome State Fault Refusal :=
  issueWord (.fsin e d a l) (runFsin d a l) st
def execFcos (e : Bool) (d : BitVec 7) (a : BitVec 7) (l : BitVec 4) (st : State) : Host.Outcome State Fault Refusal :=
  issueWord (.fcos e d a l) (runFcos d a l) st
def execFtanh (e : Bool) (d : BitVec 7) (a : BitVec 7) (l : BitVec 4) (st : State) : Host.Outcome State Fault Refusal :=
  issueWord (.ftanh e d a l) (runFtanh d a l) st
def execFrnd (e : Bool) (d : BitVec 7) (a : BitVec 7) (l : BitVec 4) (r : BitVec 2) (st : State) : Host.Outcome State Fault Refusal :=
  issueWord (.frnd e d a l r) (runFrnd d a l r) st
def execFcvt (e : Bool) (d : BitVec 7) (a : BitVec 7) (t : BitVec 4) (s : BitVec 4) (r : BitVec 2) (st : State) : Host.Outcome State Fault Refusal :=
  issueWord (.fcvt e d a t s r) (runFcvt d a t s r) st
def execFcvtSat (e : Bool) (d : BitVec 7) (a : BitVec 7) (t : BitVec 4) (s : BitVec 4) (r : BitVec 2) (st : State) : Host.Outcome State Fault Refusal :=
  issueWord (.fcvtSat e d a t s r) (runFcvtSat d a t s r) st
def execHadd2 (e : Bool) (d : BitVec 7) (a : BitVec 7) (b : BitVec 7) (u : Bool) (t : Bool) (st : State) : Host.Outcome State Fault Refusal :=
  issueWord (.hadd2 e d a b u t) (runHadd2 d a b t) st
def execHmul2 (e : Bool) (d : BitVec 7) (a : BitVec 7) (b : BitVec 7) (u : Bool) (t : Bool) (st : State) : Host.Outcome State Fault Refusal :=
  issueWord (.hmul2 e d a b u t) (runHmul2 d a b t) st
def execHfma2 (e : Bool) (d : BitVec 7) (a : BitVec 7) (b : BitVec 7) (u : Bool) (t : Bool) (st : State) : Host.Outcome State Fault Refusal :=
  issueWord (.hfma2 e d a b u t) (runHfma2 d a b t) st
def execHmin2 (e : Bool) (d : BitVec 7) (a : BitVec 7) (b : BitVec 7) (u : Bool) (t : Bool) (st : State) : Host.Outcome State Fault Refusal :=
  issueWord (.hmin2 e d a b u t) (runHmin2 d a b t) st
def execDot4 (e : Bool) (d : BitVec 7) (a : BitVec 7) (b : BitVec 7) (u : Bool) (st : State) : Host.Outcome State Fault Refusal :=
  issueWord (.dot4 e d a b u) (runDot4 d a b) st
def execDot8 (e : Bool) (d : BitVec 7) (a : BitVec 7) (b : BitVec 7) (u : Bool) (st : State) : Host.Outcome State Fault Refusal :=
  issueWord (.dot8 e d a b u) (runDot8 d a b) st
def execDotm4 (e : Bool) (d : BitVec 7) (a : BitVec 7) (b : BitVec 7) (u : Bool) (st : State) : Host.Outcome State Fault Refusal :=
  issueWord (.dotm4 e d a b u) (runDotm4 d a b) st
def execDotm8 (e : Bool) (d : BitVec 7) (a : BitVec 7) (b : BitVec 7) (u : Bool) (f : BitVec 2) (st : State) : Host.Outcome State Fault Refusal :=
  issueWord (.dotm8 e d a b u f) (runDotm8 d a b f) st
def execSclb (e : Bool) (d : BitVec 7) (a : BitVec 7) (b : BitVec 7) (u : Bool) (k : BitVec 2) (st : State) : Host.Outcome State Fault Refusal :=
  issueWord (.sclb e d a b u k) (runSclb d a b k) st
def execShfl (e : Bool) (d : BitVec 7) (a : BitVec 7) (b : BitVec 7) (u : Bool) (f : BitVec 2) (st : State) : Host.Outcome State Fault Refusal :=
  issueWord (.shfl e d a b u f) (runShfl (.shfl e d a b u f) d a b f) st
def execVoteBallot (e : Bool) (d : BitVec 7) (n : Bool) (s : BitVec 3) (st : State) : Host.Outcome State Fault Refusal :=
  issueWord (.voteBallot e d n s) (runVoteBallot (.voteBallot e d n s) d n s) st
def execVoteAll (e : Bool) (d : BitVec 7) (n : Bool) (s : BitVec 3) (q : BitVec 3) (st : State) : Host.Outcome State Fault Refusal :=
  issueWord (.voteAll e d n s q) (runVoteAll (.voteAll e d n s q) d n s q) st
def execVoteAny (e : Bool) (d : BitVec 7) (n : Bool) (s : BitVec 3) (q : BitVec 3) (st : State) : Host.Outcome State Fault Refusal :=
  issueWord (.voteAny e d n s q) (runVoteAny (.voteAny e d n s q) d n s q) st
def execVoteEq (e : Bool) (d : BitVec 7) (n : Bool) (s : BitVec 3) (q : BitVec 3) (st : State) : Host.Outcome State Fault Refusal :=
  issueWord (.voteEq e d n s q) (runVoteEq (.voteEq e d n s q) d n s q) st
def execLred (e : Bool) (d : BitVec 7) (a : BitVec 7) (l : BitVec 4) (o : BitVec 4) (st : State) : Host.Outcome State Fault Refusal :=
  issueWord (.lred e d a l o) (runLred (.lred e d a l o) d a l o) st
def execLscan (e : Bool) (d : BitVec 7) (a : BitVec 7) (l : BitVec 4) (x : Bool) (o : BitVec 4) (st : State) : Host.Outcome State Fault Refusal :=
  issueWord (.lscan e d a l x o) (runLscan (.lscan e d a l x o) d a l x o) st
def execMatchW (e : Bool) (d : BitVec 7) (a : BitVec 7) (st : State) : Host.Outcome State Fault Refusal :=
  issueWord (.matchW e d a) (runMatchW (.matchW e d a) d a) st
def execMatch64 (e : Bool) (d : BitVec 7) (a : BitVec 7) (st : State) : Host.Outcome State Fault Refusal :=
  issueWord (.match64 e d a) (runMatch64 (.match64 e d a) d a) st
def execFmtv (e : Bool) (d : BitVec 7) (a : BitVec 7) (st : State) : Host.Outcome State Fault Refusal :=
  issueWord (.fmtv e d a) (runFmtv (.fmtv e d a) d a) st
def execCvg (e : Bool) (d : BitVec 7) (st : State) : Host.Outcome State Fault Refusal :=
  issueWord (.cvg e d) (runCvg (.cvg e d) d) st
def execPand (e : Bool) (d : BitVec 3) (n : Bool) (a : BitVec 3) (m : Bool) (b : BitVec 3) (st : State) : Host.Outcome State Fault Refusal :=
  issueWord (.pand e d n a m b) (runPand d n a m b) st
def execPor (e : Bool) (d : BitVec 3) (n : Bool) (a : BitVec 3) (m : Bool) (b : BitVec 3) (st : State) : Host.Outcome State Fault Refusal :=
  issueWord (.por e d n a m b) (runPor d n a m b) st
def execPxor (e : Bool) (d : BitVec 3) (n : Bool) (a : BitVec 3) (m : Bool) (b : BitVec 3) (st : State) : Host.Outcome State Fault Refusal :=
  issueWord (.pxor e d n a m b) (runPxor d n a m b) st
def execPnot (e : Bool) (d : BitVec 3) (n : Bool) (a : BitVec 3) (st : State) : Host.Outcome State Fault Refusal :=
  issueWord (.pnot e d n a) (runPnot d n a) st
def execBra (e : Bool) (p : BitVec 3) (n : Bool) (o : BitVec 20) (st : State) : Host.Outcome State Fault Refusal :=
  issueWord (.bra e p n o) (runBra p n o) st
def execBrp (e : Bool) (p : BitVec 3) (n : Bool) (o : BitVec 20) (st : State) : Host.Outcome State Fault Refusal :=
  issueWord (.brp e p n o) (runBrp p n o) st
def execCall (e : Bool) (d : BitVec 7) (i : BitVec 17) (st : State) : Host.Outcome State Fault Refusal :=
  issueWord (.call e d i) (runCall d i) st
def execRet (e : Bool) (a : BitVec 7) (st : State) : Host.Outcome State Fault Refusal := issueWord (.ret e a) (runRet a) st
def execJmp (e : Bool) (a : BitVec 7) (st : State) : Host.Outcome State Fault Refusal := issueWord (.jmp e a) (runJmp a) st
def execExit (e : Bool) (st : State) : Host.Outcome State Fault Refusal := issueWord (.exit e) (runExit) st
def execNop (e : Bool) (st : State) : Host.Outcome State Fault Refusal := issueWord (.nop e) (runNop) st
def execRep (e : Bool) (c : BitVec 6) (x : Bool) (y : Bool) (z : Bool) (s : BitVec 2) (st : State) : Host.Outcome State Fault Refusal :=
  issueRep (.rep e c x y z s) st
def execRsr (e : Bool) (d : BitVec 7) (i : BitVec 10) (st : State) : Host.Outcome State Fault Refusal :=
  issueWord (.rsr e d i) (runRsr d i) st
def execWbase (e : Bool) (a : BitVec 7) (i : BitVec 10) (st : State) : Host.Outcome State Fault Refusal :=
  issueWord (.wbase e a i) (runWbase (wordOf (.wbase e a i)) a i) st
def execLdG (e : Bool) (d : BitVec 7) (a : BitVec 7) (l : BitVec 4) (s : BitVec 3) (h : BitVec 2) (st : State) : Host.Outcome State Fault Refusal :=
  issueWord (.ldG e d a l s h) (runLdG d a l s h) st
def execLdC (e : Bool) (d : BitVec 7) (a : BitVec 7) (l : BitVec 4) (s : BitVec 3) (h : BitVec 2) (st : State) : Host.Outcome State Fault Refusal :=
  issueWord (.ldC e d a l s h) (runLdC d a l s h) st
def execLdS (e : Bool) (d : BitVec 7) (a : BitVec 7) (l : BitVec 4) (s : BitVec 3) (st : State) : Host.Outcome State Fault Refusal :=
  issueWord (.ldS e d a l s) (runLdS d a l s) st
def execLdX (e : Bool) (d : BitVec 7) (a : BitVec 7) (l : BitVec 4) (s : BitVec 3) (st : State) : Host.Outcome State Fault Refusal :=
  issueWord (.ldX e d a l s) (runLdX d a l s) st
def execLdAcq (e : Bool) (d : BitVec 7) (a : BitVec 7) (l : BitVec 4) (s : BitVec 3) (c : BitVec 3) (st : State) : Host.Outcome State Fault Refusal :=
  issueWord (.ldAcq e d a l s c) (runLdAcq d a l s c) st
def execStG (e : Bool) (d : BitVec 7) (a : BitVec 7) (s : BitVec 3) (h : BitVec 2) (st : State) : Host.Outcome State Fault Refusal :=
  issueWord (.stG e d a s h) (runStG d a s h) st
def execStS (e : Bool) (d : BitVec 7) (a : BitVec 7) (s : BitVec 3) (st : State) : Host.Outcome State Fault Refusal :=
  issueWord (.stS e d a s) (runStS d a s) st
def execStRel (e : Bool) (d : BitVec 7) (a : BitVec 7) (s : BitVec 3) (c : BitVec 3) (st : State) : Host.Outcome State Fault Refusal :=
  issueWord (.stRel e d a s c) (runStRel d a s c) st
def execStX (e : Bool) (d : BitVec 7) (a : BitVec 7) (b : BitVec 7) (f : BitVec 2) (st : State) : Host.Outcome State Fault Refusal :=
  issueWord (.stX e d a b f) (runStX d a b f) st
def execGft (e : Bool) (d : BitVec 7) (a : BitVec 7) (b : BitVec 7) (f : BitVec 2) (st : State) : Host.Outcome State Fault Refusal :=
  issueWord (.gft e d a b f) (runGft d a b f) st
def execFence (e : Bool) (c : BitVec 3) (st : State) : Host.Outcome State Fault Refusal := issueWord (.fence e c) (runFence c) st
def execFenceRel (e : Bool) (c : BitVec 3) (st : State) : Host.Outcome State Fault Refusal :=
  issueWord (.fenceRel e c) (runFenceRel c) st
def execFenceAcq (e : Bool) (c : BitVec 3) (st : State) : Host.Outcome State Fault Refusal :=
  issueWord (.fenceAcq e c) (runFenceAcq c) st
def execCflush (e : Bool) (a : BitVec 7) (st : State) : Host.Outcome State Fault Refusal :=
  issueWord (.cflush e a) (runCflush a) st
def execCdemote (e : Bool) (a : BitVec 7) (st : State) : Host.Outcome State Fault Refusal :=
  issueWord (.cdemote e a) (runCdemote a) st
def execCpref (e : Bool) (a : BitVec 7) (h : BitVec 2) (st : State) : Host.Outcome State Fault Refusal :=
  issueWord (.cpref e a h) (runCpref a h) st
def execBld (e : Bool) (y : BitVec 7) (m : BitVec 7) (st : State) : Host.Outcome State Fault Refusal :=
  issueWord (.bld e y m) (runBld y m) st
def execBsel (e : Bool) (g : BitVec 4) (m : BitVec 7) (st : State) : Host.Outcome State Fault Refusal :=
  issueWord (.bsel e g m) (runBsel g m) st
def execMma (e : Bool) (t : BitVec 6) (y : BitVec 7) (m : BitVec 7) (l : BitVec 4) (st : State) : Host.Outcome State Fault Refusal :=
  issueWord (.mma e t y m l) (runMma t y m l) st
def execMmaz (e : Bool) (t : BitVec 6) (y : BitVec 7) (m : BitVec 7) (l : BitVec 4) (st : State) : Host.Outcome State Fault Refusal :=
  issueWord (.mmaz e t y m l) (runMmaz t y m l) st
def execAcz (e : Bool) (t : BitVec 6) (st : State) : Host.Outcome State Fault Refusal := issueWord (.acz e t) (runAcz t) st
def execAcld (e : Bool) (t : BitVec 6) (y : BitVec 7) (st : State) : Host.Outcome State Fault Refusal :=
  issueWord (.acld e t y) (runAcld t y) st
def execAcst (e : Bool) (t : BitVec 6) (y : BitVec 7) (m : BitVec 7) (st : State) : Host.Outcome State Fault Refusal :=
  issueWord (.acst e t y m) (runAcst t y m) st
def execAcrd (e : Bool) (d : BitVec 7) (a : BitVec 7) (l : BitVec 4) (t : BitVec 6) (st : State) : Host.Outcome State Fault Refusal :=
  issueWord (.acrd e d a l t) (runAcrd d a l t) st
def execAcwr (e : Bool) (d : BitVec 7) (a : BitVec 7) (t : BitVec 6) (st : State) : Host.Outcome State Fault Refusal :=
  issueWord (.acwr e d a t) (runAcwr d a t) st
def execAcscl (e : Bool) (d : BitVec 7) (t : BitVec 6) (st : State) : Host.Outcome State Fault Refusal :=
  issueWord (.acscl e d t) (runAcscl d t) st
def execAtmAdd (e : Bool) (d : BitVec 7) (a : BitVec 7) (b : BitVec 7) (w : Bool) (s : Bool) (st : State) : Host.Outcome State Fault Refusal :=
  issueWord (.atmAdd e d a b w s) (runAtmAdd d a b w s) st
def execRedAdd (e : Bool) (a : BitVec 7) (b : BitVec 7) (w : Bool) (s : Bool) (st : State) : Host.Outcome State Fault Refusal :=
  issueWord (.redAdd e a b w s) (runRedAdd a b w s) st
def execAtmImin (e : Bool) (d : BitVec 7) (a : BitVec 7) (b : BitVec 7) (w : Bool) (s : Bool) (st : State) : Host.Outcome State Fault Refusal :=
  issueWord (.atmImin e d a b w s) (runAtmImin d a b w s) st
def execRedImin (e : Bool) (a : BitVec 7) (b : BitVec 7) (w : Bool) (s : Bool) (st : State) : Host.Outcome State Fault Refusal :=
  issueWord (.redImin e a b w s) (runRedImin a b w s) st
def execAtmNmin (e : Bool) (d : BitVec 7) (a : BitVec 7) (b : BitVec 7) (w : Bool) (s : Bool) (st : State) : Host.Outcome State Fault Refusal :=
  issueWord (.atmNmin e d a b w s) (runAtmNmin d a b w s) st
def execRedNmin (e : Bool) (a : BitVec 7) (b : BitVec 7) (w : Bool) (s : Bool) (st : State) : Host.Outcome State Fault Refusal :=
  issueWord (.redNmin e a b w s) (runRedNmin a b w s) st
def execAtmImax (e : Bool) (d : BitVec 7) (a : BitVec 7) (b : BitVec 7) (w : Bool) (s : Bool) (st : State) : Host.Outcome State Fault Refusal :=
  issueWord (.atmImax e d a b w s) (runAtmImax d a b w s) st
def execRedImax (e : Bool) (a : BitVec 7) (b : BitVec 7) (w : Bool) (s : Bool) (st : State) : Host.Outcome State Fault Refusal :=
  issueWord (.redImax e a b w s) (runRedImax a b w s) st
def execAtmNmax (e : Bool) (d : BitVec 7) (a : BitVec 7) (b : BitVec 7) (w : Bool) (s : Bool) (st : State) : Host.Outcome State Fault Refusal :=
  issueWord (.atmNmax e d a b w s) (runAtmNmax d a b w s) st
def execRedNmax (e : Bool) (a : BitVec 7) (b : BitVec 7) (w : Bool) (s : Bool) (st : State) : Host.Outcome State Fault Refusal :=
  issueWord (.redNmax e a b w s) (runRedNmax a b w s) st
def execAtmAnd (e : Bool) (d : BitVec 7) (a : BitVec 7) (b : BitVec 7) (w : Bool) (s : Bool) (st : State) : Host.Outcome State Fault Refusal :=
  issueWord (.atmAnd e d a b w s) (runAtmAnd d a b w s) st
def execRedAnd (e : Bool) (a : BitVec 7) (b : BitVec 7) (w : Bool) (s : Bool) (st : State) : Host.Outcome State Fault Refusal :=
  issueWord (.redAnd e a b w s) (runRedAnd a b w s) st
def execAtmOr (e : Bool) (d : BitVec 7) (a : BitVec 7) (b : BitVec 7) (w : Bool) (s : Bool) (st : State) : Host.Outcome State Fault Refusal :=
  issueWord (.atmOr e d a b w s) (runAtmOr d a b w s) st
def execRedOr (e : Bool) (a : BitVec 7) (b : BitVec 7) (w : Bool) (s : Bool) (st : State) : Host.Outcome State Fault Refusal :=
  issueWord (.redOr e a b w s) (runRedOr a b w s) st
def execAtmXor (e : Bool) (d : BitVec 7) (a : BitVec 7) (b : BitVec 7) (w : Bool) (s : Bool) (st : State) : Host.Outcome State Fault Refusal :=
  issueWord (.atmXor e d a b w s) (runAtmXor d a b w s) st
def execRedXor (e : Bool) (a : BitVec 7) (b : BitVec 7) (w : Bool) (s : Bool) (st : State) : Host.Outcome State Fault Refusal :=
  issueWord (.redXor e a b w s) (runRedXor a b w s) st
def execAtmXchg (e : Bool) (d : BitVec 7) (a : BitVec 7) (b : BitVec 7) (w : Bool) (s : Bool) (st : State) : Host.Outcome State Fault Refusal :=
  issueWord (.atmXchg e d a b w s) (runAtmXchg d a b w s) st
def execAtmCas (e : Bool) (d : BitVec 7) (a : BitVec 7) (b : BitVec 7) (w : Bool) (s : Bool) (st : State) : Host.Outcome State Fault Refusal :=
  issueWord (.atmCas e d a b w s) (runAtmCas d a b w s) st
def execAtmFaddG (e : Bool) (d : BitVec 7) (a : BitVec 7) (b : BitVec 7) (t : BitVec 2) (st : State) : Host.Outcome State Fault Refusal :=
  issueWord (.atmFaddG e d a b t) (runAtmFaddG d a b t) st
def execRedFaddG (e : Bool) (a : BitVec 7) (b : BitVec 7) (t : BitVec 2) (st : State) : Host.Outcome State Fault Refusal :=
  issueWord (.redFaddG e a b t) (runRedFaddG a b t) st
def execAtmFaddS (e : Bool) (d : BitVec 7) (a : BitVec 7) (b : BitVec 7) (t : BitVec 2) (st : State) : Host.Outcome State Fault Refusal :=
  issueWord (.atmFaddS e d a b t) (runAtmFaddS d a b t) st
def execRedFaddS (e : Bool) (a : BitVec 7) (b : BitVec 7) (t : BitVec 2) (st : State) : Host.Outcome State Fault Refusal :=
  issueWord (.redFaddS e a b t) (runRedFaddS a b t) st
def execXcp (e : Bool) (a : BitVec 7) (st : State) : Host.Outcome State Fault Refusal := issueWord (.xcp e a) (runXcp a) st
def execXget (e : Bool) (a : BitVec 7) (st : State) : Host.Outcome State Fault Refusal := issueWord (.xget e a) (runXget a) st
def execXput (e : Bool) (a : BitVec 7) (st : State) : Host.Outcome State Fault Refusal := issueWord (.xput e a) (runXput a) st
def execXputRel (e : Bool) (a : BitVec 7) (st : State) : Host.Outcome State Fault Refusal :=
  issueWord (.xputRel e a) (runXputRel a) st
def execXred (e : Bool) (a : BitVec 7) (st : State) : Host.Outcome State Fault Refusal := issueWord (.xred e a) (runXred a) st
def execXsig (e : Bool) (a : BitVec 7) (st : State) : Host.Outcome State Fault Refusal := issueWord (.xsig e a) (runXsig a) st
def execXgth (e : Bool) (a : BitVec 7) (st : State) : Host.Outcome State Fault Refusal := issueWord (.xgth e a) (runXgth a) st
def execXrsc (e : Bool) (a : BitVec 7) (st : State) : Host.Outcome State Fault Refusal := issueWord (.xrsc e a) (runXrsc a) st
def execChap (e : Bool) (a : BitVec 7) (b : BitVec 7) (st : State) : Host.Outcome State Fault Refusal :=
  issueWord (.chap e a b) (runChap a b) st
def execWcnt (e : Bool) (c : BitVec 2) (k : BitVec 6) (st : State) : Host.Outcome State Fault Refusal :=
  issueWord (.wcnt e c k) (runWcnt c k) st
def execSyarm (e : Bool) (a : BitVec 7) (b : BitVec 7) (st : State) : Host.Outcome State Fault Refusal :=
  issueWord (.syarm e a b) (runSyarm a b) st
def execSyadd (e : Bool) (a : BitVec 7) (b : BitVec 7) (st : State) : Host.Outcome State Fault Refusal :=
  issueWord (.syadd e a b) (runSyadd a b) st
def execSywait (e : Bool) (a : BitVec 7) (b : BitVec 7) (st : State) : Host.Outcome State Fault Refusal :=
  issueWord (.sywait e a b) (runSywait a b) st
def execBarWg (e : Bool) (st : State) : Host.Outcome State Fault Refusal := issueWord (.barWg e) (runBarWg (.barWg e)) st
def execBarGang (e : Bool) (st : State) : Host.Outcome State Fault Refusal := issueWord (.barGang e) (runBarGang (.barGang e)) st
def execBarX (e : Bool) (st : State) : Host.Outcome State Fault Refusal := issueWord (.barX e) (runBarX (.barX e)) st
def execMon (e : Bool) (a : BitVec 7) (st : State) : Host.Outcome State Fault Refusal := issueWord (.mon e a) (runMon a) st
def execMwait (e : Bool) (a : BitVec 7) (st : State) : Host.Outcome State Fault Refusal :=
  issueWord (.mwait e a) (runMwait (.mwait e a) a) st
def execRopen (e : Bool) (a : BitVec 7) (b : BitVec 7) (st : State) : Host.Outcome State Fault Refusal :=
  issueWord (.ropen e a b) (runRopen (.ropen e a b) a b) st
def execRclose (e : Bool) (st : State) : Host.Outcome State Fault Refusal := issueWord (.rclose e) (runRclose (.rclose e)) st
def execRdepth (e : Bool) (d : BitVec 7) (st : State) : Host.Outcome State Fault Refusal :=
  issueWord (.rdepth e d) (runRdepth d) st
def execRkeepG (e : Bool) (a : BitVec 7) (b : BitVec 7) (st : State) : Host.Outcome State Fault Refusal :=
  issueWord (.rkeepG e a b) (runRkeepG (wordOf (.rkeepG e a b)) a b) st
def execRkeepS (e : Bool) (a : BitVec 7) (b : BitVec 7) (st : State) : Host.Outcome State Fault Refusal :=
  issueWord (.rkeepS e a b) (runRkeepS (wordOf (.rkeepS e a b)) a b) st
def execTrap (e : Bool) (a : BitVec 7) (st : State) : Host.Outcome State Fault Refusal := issueWord (.trap e a) (runTrap a) st
def execEretResume (e : Bool) (st : State) : Host.Outcome State Fault Refusal :=
  issueWord (.eretResume e) (runEret (.eretResume e)) st
def execEretRetry (e : Bool) (st : State) : Host.Outcome State Fault Refusal :=
  issueWord (.eretRetry e) (runEret (.eretRetry e)) st
def execEretEscalate (e : Bool) (st : State) : Host.Outcome State Fault Refusal :=
  issueWord (.eretEscalate e) (runEret (.eretEscalate e)) st
def execEretKill (e : Bool) (st : State) : Host.Outcome State Fault Refusal := issueWord (.eretKill e) (runEret (.eretKill e)) st
def execSegw (e : Bool) (a : BitVec 7) (s : BitVec 4) (st : State) : Host.Outcome State Fault Refusal :=
  issueWord (.segw e a s) (runSegw (wordOf (.segw e a s)) a s) st
def execSegr (e : Bool) (d : BitVec 7) (s : BitVec 4) (st : State) : Host.Outcome State Fault Refusal :=
  issueWord (.segr e d s) (runSegr d s) st
def execWsr (e : Bool) (a : BitVec 7) (i : BitVec 10) (st : State) : Host.Outcome State Fault Refusal :=
  issueWord (.wsr e a i) (runWsr a i) st
def execTlbiVa (e : Bool) (a : BitVec 7) (b : BitVec 7) (st : State) : Host.Outcome State Fault Refusal :=
  issueWord (.tlbiVa e a b) (runTlbiVa a b) st
def execTlbiCtx (e : Bool) (b : BitVec 7) (st : State) : Host.Outcome State Fault Refusal :=
  issueWord (.tlbiCtx e b) (runTlbiCtx b) st
def execTlbiAll (e : Bool) (st : State) : Host.Outcome State Fault Refusal := issueWord (.tlbiAll e) (runTlbiAll) st
def execYield (e : Bool) (st : State) : Host.Outcome State Fault Refusal := issueWord (.yield e) (runYield) st
def execSpawn (e : Bool) (a : BitVec 7) (st : State) : Host.Outcome State Fault Refusal := issueWord (.spawn e a) (runSpawn a) st

end Sys2Proof.Machine
end

