-- ==== Sys2Proof/Machine/Schedule.lean ====
section
/-! DEFINITION. Choosing and ending runs (spec/01_work_and_places.md R20 to R25; spec/07_work_queues.md R166, R168, R169, R172), stopping at
a halt (spec/11 R242, R253), lane sparing (R260), ring rollback (R258, R219), imprecise store faults (R262), page walks
(spec/09 R213, R230), the answers to trap events (spec/11 R252), and fetches from an instruction cache that misses (spec/04 R99). -/

namespace Sys2Proof.Machine

/-! The choice of a warp (R168). -/

/-- A move of the pruner concerns a warp: it owns the allocation that moves (R166). -/
def PruneMove.owns (m : PruneMove) (k : Nat) (w : Warp) : Bool :=
  m.wg == w.wg && m.core == k / 64 && (m.kind != 0 || (m.slot == k / 8 % 8 && m.old == w.base))

/-- A warp that the pruner has stopped (R166). -/
def State.pruneStopped (s : State) (k : Nat) (w : Warp) : Bool := s.dist.moves.any fun m => m.stopped && m.owns k w

/-- The work-group of a warp is stopped by the containment of its context (R264). -/
def State.wgContained (s : State) (wg : Nat) : Bool :=
  match s.work.groups.find wg with
  | some g => g.contained.isSome
  | none => false

/-- A warp may take the slot: nothing stops or holds it, and no rollback is due (R168, R172, R258). A lane sparing leaves it ready (R169). -/
def mayRun (s : State) (k : Nat) (w : Warp) : Bool :=
  w.stop == .none && !w.snapshot && w.rollback.isNone && !s.isHeld (k / 64) w.wg && !s.pruneStopped k w && !s.wgContained w.wg

/-- The groups of a warp that can issue now. -/
def openGroups (s : State) (k : Nat) : List (Group × Prospect) := (prospects s k false).filter fun p => !p.2.lanes.isEmpty

/-- A warp is ready (R168). -/
def warpReady (s : State) (k : Nat) : Bool :=
  match s.warpAt k with
  | none => false
  | some w => mayRun s k w && !(openGroups s k).isEmpty

/-- The resident warps of a slot, by slot-local number. -/
def slotWarps (s : State) (core slot : Nat) : List Nat :=
  (List.range 8).filter fun n => (s.warpAt (warpKey core slot n)).isSome

/-- The stamp of the warp at key k. -/
def stampOf (s : State) (k : Nat) : Nat :=
  match s.warpAt k with
  | some w => w.stamp
  | none => 0

/-- The ready warp of the smallest stamp; ties go to the lower number (R168). -/
def choose (s : State) (core slot : Nat) : Option Nat :=
  match (slotWarps s core slot).filter fun n => warpReady s (warpKey core slot n) with
  | [] => none
  | n :: ns => some (ns.foldl (fun a b => if stampOf s (warpKey core slot b) < stampOf s (warpKey core slot a) then b else a) n)

/-- Make the requests that the blocked groups of a warp need: walks and instruction-cache fills (R21, R213). -/
def askAll (s : State) (k : Nat) : State :=
  (prospects s k false).foldl (fun s p => match p.2 with
    | .blocked ask => ask s
    | _ => s) s

/-- A starving group's place in a sweep: higher wait counts first, then lower keys (R25). -/
def sweepBefore (a b : Nat × Nat × Nat) : Bool := b.1 < a.1 || (a.1 == b.1 && keyBefore a.2 b.2)

/-- Insert into a sorted sweep. -/
def sweepInsert (x : Nat × Nat × Nat) : List (Nat × Nat × Nat) → List (Nat × Nat × Nat)
  | [] => [x]
  | y :: ys => if sweepBefore x y then x :: y :: ys else y :: sweepInsert x ys

/-- The highest wait count of the lanes of a warp that hold a key (R25). -/
def keyWait (w : Warp) (p : Group) : Nat :=
  ((List.range 32).filter fun l => p.lanes.contains l || (laneActive w l && ((w.lane l).pc.toNat, (w.lane l).rep) == p.key2)).foldl
    (fun m l => max m (w.lane l).waitCount) 0

/-- The run that begins for a warp: its starving lanes, and the keys of the sweep (R25). -/
def newRun (s : State) (k : Nat) (w : Warp) : Run :=
  let ps := openGroups s k
  let issuable := ps.flatMap (·.2.lanes)
  let starving := issuable.filter fun l => 3 ≤ (w.lane l).waitCount
  let due := ps.filter fun p => p.2.lanes.any starving.contains
  let sorted := (due.map fun p => (keyWait w p.1, p.1.key2)).foldl (fun xs x => sweepInsert x xs) []
  { escape := !starving.isEmpty, starving := starving, startIssuable := issuable, issued := [], sweep := (sorted.map (·.2)).take 24, issues := 0 }

/-- Begin a run (R20, R22, R168). -/
def beginRun (s : State) (core slot n : Nat) : State :=
  let k := warpKey core slot n
  match s.warpAt k with
  | none => s
  | some w =>
    let r := newRun s k w
    (s.setWarp k { w with run := some r }).onSlot core slot fun x => { x with running := some n, runs := x.runs + 1 }

/-! Lane sparing (R17, R260). -/

/-- Copy a range of registers from one physical lane of a slot to another. -/
def copyRange (s : State) (core slot base size src tgt : Nat) : State :=
  (List.range size).foldl (fun s i => s.setReg (regKey core slot tgt (32 * base + i)) (s.reg (regKey core slot src (32 * base + i)))) s

/-- Set a range of registers of a lane to 0 with poison set. -/
def poisonRange (s : State) (core slot base size lane : Nat) : State :=
  (List.range size).foldl (fun s i => s.setReg (regKey core slot lane (32 * base + i)) ⟨0, true⟩) s

/-- What becomes of the thread in lane l of a warp whose lane has failed, in the physical lane that hosts it now (R260). -/
def recoverLane (s : State) (core slot n : Nat) (w : Warp) (l : Nat) : State :=
  let k := warpKey core slot n
  let x := w.lane l
  if !x.present || x.exited then s
  else if w.protected' then
    let other := if l % 2 == 0 then l + 1 else l - 1
    let s := copyRange s core slot w.base w.size (w.phys other) (w.phys l)
    s.onLanes k [l] fun _ => w.lane other
  else
    let s := poisonRange s core slot w.base w.size (w.phys l)
    if w.rings.isEmpty then killWith s w.wg (killReport k w 3 0)
    else s.onWarp k fun w => { w with rollback := some (w.rollback.getD false) }

/-- The spare lane is to be switched in for a warp, which stands at a run boundary (R17); a warp that is being saved gets it at its restore
(R180). -/
def spareReady (s : State) (core slot : Nat) (w : Warp) : Bool :=
  w.run.isNone && !w.snapshot && w.spared != (s.slotAt core slot).spare

/-- SPARE_LANE_SWITCH (R260). -/
def spareEffect (s : State) (core slot n : Nat) (w : Warp) : State :=
  match (s.slotAt core slot).spare with
  | none => s
  | some l =>
    let w := { w with spared := some l }
    recoverLane (s.setWarp (warpKey core slot n) w) core slot n w l

def execSpareLaneSwitch (core slot warp : Nat) (s : State) : Host.Outcome State Fault Refusal :=
  .next (match s.warpAt (warpKey core slot warp) with
    | some w => if spareReady s core slot w then spareEffect s core slot warp w else s
    | none => s)

/-! WARP_CHOICE (R168). -/

/-- The warp chosen begins its run; when the spare lane is still to be switched in for it, that comes first (R17, R169). -/
def beginOrSpare (s : State) (core slot n : Nat) : State :=
  match s.warpAt (warpKey core slot n) with
  | some w => if spareReady s core slot w then spareEffect s core slot n w else beginRun s core slot n
  | none => s

/-- A slot at a run boundary chooses a ready warp; when none is ready it issues nothing, and what its warps wait for is asked for. -/
def warpChoiceEffect (s : State) (core slot : Nat) : State :=
  if (s.slotAt core slot).running.isSome then s
  else match choose s core slot with
    | some n => beginOrSpare s core slot n
    | none => (slotWarps s core slot).foldl (fun s n => askAll s (warpKey core slot n)) s

/-- WARP_CHOICE (R168). -/
def execWarpChoice (core slot : Nat) (s : State) : Host.Outcome State Fault Refusal := .next (warpChoiceEffect s core slot)

/-- The warp whose run is in progress in a slot has no group that can issue (R20). -/
def cutReady (s : State) (core slot : Nat) : Bool :=
  match (s.slotAt core slot).running with
  | none => false
  | some n => (openGroups s (warpKey core slot n)).isEmpty

/-- CUT (R20, R21): the run ends before the instruction that cannot issue; what it waits for has been asked for. -/
def execCut (core slot : Nat) (s : State) : Host.Outcome State Fault Refusal :=
  .next (if cutReady s core slot then
      match (s.slotAt core slot).running with
      | some n => endRun (askAll s (warpKey core slot n)) (warpKey core slot n)
      | none => s
    else s)

/-! Stopping at a halt (R253, R264, R242). -/

/-- A warp's next group (R253): the active lanes of the lowest key, else the parked lanes at the lowest address. -/
def nextGroup (w : Warp) : VAddr × Nat × List Nat :=
  let here := (List.range 32).filter fun l => (w.lane l).present && !(w.lane l).exited && !(w.inHandler && (w.lane l).held)
  let act := here.filter fun l => (w.lane l).park.isNone
  let from' := if act.isEmpty then here else act
  let key (l : Nat) : Nat × Nat := ((w.lane l).pc.toNat, (w.lane l).rep)
  match from' with
  | [] => (0, 0, [])
  | l :: ls =>
    let low := ls.foldl (fun a b => if keyBefore (key b) (key a) then b else a) l
    ((w.lane low).pc, (w.lane low).rep, from'.filter fun x => key x == key low)

/-- A warp that a halt reached has come to the end of its run (R253). -/
def siblingReady (w : Warp) : Bool := w.stop == .halting && w.run.isNone

/-- The stop: cause 0x0F with the sibling's trap, or 0x11 with the failed address; a set latch keeps the trap registers (R253, R264). -/
def stopWarp (g : WorkGroup) (w : Warp) : Warp :=
  let (pc, rep, _) := nextGroup w
  let stop : StopKind := if g.contained.isSome then .contained else .halted
  let skid : BitVec 10 := BitVec.ofNat 10 (w.skid.1 + 32 * w.skid.2)
  if w.latch then { w with stop := stop }
  else
    let (cause, info) : Nat × Nat := match g.contained, g.halt with
      | some pa, _ => (0x11, pa)
      | none, some (c, sl, n) => (0x0F, c + 256 * sl + 2048 * n)
      | none, none => (0x0F, 0)
    { w with
      stop := stop, latch := true
      trap := ⟨BitVec.ofNat 8 cause, pc.zeroExtend 64, 0, BitVec.ofNat 6 rep, BitVec.ofNat 64 info, skid⟩ }

/-- SIBLING_STOP (R253). -/
def execSiblingStop (core slot warp : Nat) (s : State) : Host.Outcome State Fault Refusal :=
  .next (match s.warpAt (warpKey core slot warp) with
    | some w =>
      if siblingReady w then
        match s.work.groups.find w.wg with
        | some g => s.setWarp (warpKey core slot warp) (stopWarp g w)
        | none => s
      else s
    | none => s)

/-! Lane failures (R260). -/

/-- The work-groups with a warp in a slot, resident or still in the core's launch buffer (R158, R260). -/
def slotGroups (s : State) (core slot : Nat) : List Nat :=
  ((slotWarps s core slot).filterMap (fun n => (s.warpAt (warpKey core slot n)).map (·.wg)) ++
    s.work.groups.filterMap fun (n, g) => if g.core == core && !g.dead && g.ranges.any (·.1 == slot) && !g.resident then some n else none).dedup

/-- Request the replacement of the package: the cause of the first request since reset is kept (R435). -/
def State.requestReplacement (s : State) (cause : Nat) : State :=
  { s with att := { s.att with replacement := true, cause := if s.att.cause == 0 then cause else s.att.cause } }

/-- The physical lane serves a thread position of the slot. -/
def laneInUse (x : Slot) (lane : Nat) : Bool :=
  match x.spare with
  | none => lane < 32
  | some l => lane ≤ 32 && lane != l

/-- LANE_FAILURE (R260): the run ends; the spare lane replaces the first failed lane, and a second failure fails the slot. -/
def laneFailureEffect (s : State) (core slot lane : Nat) : State :=
  let x := s.slotAt core slot
  if x.failed || !laneInUse x lane then s
  else
    let s := match x.running with
      | some n => endRun s (warpKey core slot n)
      | none => s
    match x.spare with
    | none =>
      reportSystem (s.onSlot core slot fun x => { x with spare := some lane })
        { Report.blank 0x25 with core := core, slot := slot, addr := lane }
    | some _ =>
      let s := (s.onSlot core slot fun x => { x with failed := true }).requestReplacement 1
      (slotGroups s core slot).foldl (fun s wg => killGroup s wg 4) s

def execLaneFailure (core slot lane : Nat) (s : State) : Host.Outcome State Fault Refusal :=
  .next (if core < 128 && slot < 8 then laneFailureEffect s core slot lane else s)

/-! Ring rollback (R219, R258, R151). -/

/-- The kept records of a log from offset o up to the fill pointer, oldest first: the offset and length of each. Register blocks are
passed over; `n` bounds the records. -/
def keptRecords (s : State) (core : Nat) (w : Warp) : Nat → Nat → List (Nat × Nat)
  | 0, _ => []
  | n + 1, o =>
    if o ≥ w.logFill then []
    else match w.blocks.find? fun b => b.1 == o with
      | some b => keptRecords s core w n (o + b.2)
      | none =>
        let h := (s.scratchField core (w.segs.sbase.toNat + o + 8) 8).1
        let len := bits 9 2 h + 1
        if bits 1 0 h == 1 then (o, len) :: keptRecords s core w n (o + 16 + up16 len) else keptRecords s core w n (o + 16)

/-- The pages of a kept global record, each with its physical address: none when one may not be written (R258). -/
def recordPlaces (s : State) (w : Warp) (va len : Nat) : Option (List (Nat × Nat × TlbEntry)) :=
  let off := (va + 2 ^ 57 - w.segs.gbase.toNat) % 2 ^ 57
  if off + len > w.segs.glim.toNat || va + len > 2 ^ 57 then none
  else (pagePieces va len).foldl (fun acc (a, m) =>
    match acc with
    | none => none
    | some ps => match s.walk w.ctx.toNat a with
      | .leaf e => if accessAllowed e 1 false && s.homed (e.at a) then some (ps ++ [(a, m, e)]) else none
      | _ => none) (some [])

/-- Write one kept record back: none when its address fails (R258). -/
def restoreRecord (s : State) (core : Nat) (w : Warp) (o len : Nat) : Option State :=
  let at' := w.segs.sbase.toNat + o
  let h := (s.scratchField core at' 8).1
  let addr := bits 56 0 h
  let data := s.mem.scratch.readBytes (scratchAddr core (at' + 16)) len
  if bits 57 57 h == 1 then
    if addr + len > w.segs.slim.toNat then none else some (segmentWrite s core w addr data)
  else (recordPlaces s w addr len).map fun ps =>
    ps.foldl (fun s (a, m, e) => s.pageWrite e a ((data.drop (a - addr)).take m)) s

/-- Write the records back, newest first: the state so far, and whether one failed. -/
def restoreRecords (s : State) (core : Nat) (w : Warp) : List (Nat × Nat) → State × Bool
  | [] => (s, false)
  | (o, len) :: rs =>
    match restoreRecord s core w o len with
    | none => (s, true)
    | some s => restoreRecords s core w rs

/-- Restore a lane from its record of a level's register block (R219). -/
def restoreLane (s : State) (core slot n : Nat) (r : RingLevel) (l : Nat) : State :=
  let k := warpKey core slot n
  match s.warpAt k with
  | none => s
  | some w =>
    let ks := maskBits r.mask
    let per := 4 * ks.length + 16
    let o := w.segs.sbase.toNat + r.logStart + 16 + per * l
    let word (i : Nat) : Nat := (s.scratchField core (o + 4 * i) 4).1
    let poison := word ks.length
    let f := word (ks.length + 1)
    let window := bits 22 19 f
    let opening := (s.scratchField core (o + 4 * ks.length + 8) 8).1
    let s := ks.zipIdx.foldl (fun s (v, i) =>
      if 32 * window + v < w.size then
        s.setReg (physReg core slot w l (32 * window + v)) ⟨BitVec.ofNat 32 (word i), poison.testBit v⟩
      else s) s
    s.onLanes k [l] fun x =>
      let x := { x with preds := BitVec.ofNat 7 f, predPoison := BitVec.ofNat 7 (f / 2 ^ 7), flags := BitVec.ofNat 5 (f / 2 ^ 14) }
      if x.exited then x
      else { x with
        pc := codeAddr (BitVec.ofNat 64 opening), rep := 0, window := window, commits := [], park := none, loads := [], replayFault := none }

/-- A rollback can go on: its run has ended, an escalation needs no wait, else the commands of the level's classes have retired and
the warp's writes are performed (R258, R150, R151). -/
def rollbackReady (s : State) (k : Nat) (w : Warp) : Bool :=
  w.rollback.isSome && w.run.isNone &&
    match w.rings.getLast? with
    | none => true
    | some r => r.attempt ≥ 3 || (classesIdle w r.classes && !(s.mem.ops.any fun (_, o) => !o.isLoad && ofWarps [k] o.agent))

/-- What follows a rollback: a handler's retry leaves the handler and the halt ends; after a lane sparing a handler begins again
(R251, R269). -/
def afterRollback (s : State) (k : Nat) (byHandler : Bool) : State :=
  match s.warpAt k with
  | none => s
  | some w =>
    let s := s.setWarp k { w with rollback := none }
    if byHandler then nextTrap (leaveHandler s k) w.wg
    else if w.inHandler then enterHandler s k
    else s

/-- A rollback ends in the kill of its work-group (R259): the instruction concerned is the one that trapped, none after a lane sparing. -/
def killRollback (s : State) (k : Nat) (w : Warp) (byHandler : Bool) (reason : Nat) : State :=
  if byHandler then killWarp s k w reason else killWith s w.wg (killReport k w reason 0)

/-- RING_ROLLBACK (R258). -/
def rollbackEffect (s : State) (core slot n : Nat) (w : Warp) (byHandler : Bool) : State :=
  let k := warpKey core slot n
  match w.rings.getLast? with
  | none => killRollback s k w byHandler 0
  | some r =>
    if r.attempt ≥ 3 then
      if w.rings.length ≤ 1 then killRollback s k w byHandler 0 else s.setWarp k { w with rings := dropLevel w.rings }
    else
      let (s, bad) := restoreRecords s core w (keptRecords s core w 32768 r.logStart).reverse
      if bad then killRollback s k w byHandler 5
      else
        let lanes := (List.range 32).filter fun l => (w.lane l).present
        let s := lanes.foldl (fun s l => restoreLane s core slot n r l) s
        let s := { s with mem := { s.mem with ops := s.mem.ops.filter fun (_, o) => !(o.isLoad && ofWarps [k] o.agent) } }
        let s := s.onWarp k fun w => { w with
          rings := w.rings.dropLast ++ [{ r with attempt := r.attempt + 1 }], logFill := r.logStart, mwait := none, barrier := 0
          blocks := w.blocks.filter fun b => b.1 < r.logStart }
        afterRollback s k byHandler

def execRingRollback (core slot warp : Nat) (s : State) : Host.Outcome State Fault Refusal :=
  .next (match s.warpAt (warpKey core slot warp) with
    | some w =>
      match w.rollback with
      | some h => if rollbackReady s (warpKey core slot warp) w then rollbackEffect s core slot warp w h else s
      | none => s
    | none => s)

/-! Imprecise store faults (R262, R269). -/

/-- The report of an imprecise store fault. -/
def storeReport (s : State) (f : StoreFault) : State :=
  let r : Report := { Report.blank 0x20 with exited := (s.warpAt f.warp).isNone, depth := f.depth, pc := f.pc.toNat, lsn := f.lsn.toNat }
  let r := { r with core := f.warp / 64, slot := f.warp / 8 % 8, addr := f.pa, ctx := f.ctx }
  if (s.work.groups.find f.wg).isSome then reportGroup s f.wg r else reportSystem s r

/-- The warp that made the store is still resident. -/
def faultWarp (s : State) (f : StoreFault) : Option Warp :=
  match s.warpAt f.warp with
  | some w => if w.wg == f.wg then some w else none
  | none => none

/-- A fault's trap can be delivered: the warp's run has ended, its work-group is not halted (R262, R269), and the pruner is not moving what it
owns (R166). -/
def faultDeliverable (s : State) (f : StoreFault) : Bool :=
  match faultWarp s f with
  | none => true
  | some w => w.run.isNone && !w.inHandler && w.stop == .none && !s.pruneStopped f.warp w &&
    match s.work.groups.find f.wg with
    | some g => g.halt.isNone && g.contained.isNone
    | none => true

/-- The first fault of a core whose report or trap can take place. -/
def nextFault (s : State) (core : Nat) : Option StoreFault :=
  s.faults.find? fun f => f.warp / 64 == core && (!f.reported || faultDeliverable s f)

/-- IMPRECISE_STORE_FAULT: the report, then the trap entry with cause 0x20 at the warp's next group; the warp's run ends for it. -/
def storeFaultEffect (s : State) (f : StoreFault) : State :=
  if !f.reported then
    let s := storeReport { s with faults := s.faults.map fun x => if x == f then { x with reported := true } else x } f
    match faultWarp s f with
    | some _ => endRun s f.warp
    | none => { s with faults := s.faults.filter (· != { f with reported := true }) }
  else
    let s := { s with faults := s.faults.erase f }
    match faultWarp s f with
    | none => s
    | some w =>
      let (pc, rep, lanes) := nextGroup w
      trapEntry s f.warp ⟨0x20, lanes, f.pa⟩ pc rep

def execImpreciseStoreFault (core : Nat) (s : State) : Host.Outcome State Fault Refusal :=
  .next (match nextFault s core with
    | some f => storeFaultEffect s f
    | none => s)

/-! Page walks (R209 to R213, R230). -/

/-- Fill a die's TLB (R213). -/
def State.fillDieTlb (s : State) (die : Nat) (e : TlbEntry) : State :=
  { s with mem := { s.mem with dieTlb := s.mem.dieTlb.put die (tlbInsert 16384 e (s.mem.dieTlb.getD die [])) [] } }

/-- The end of a walk: the translation, or the fault that waits for the access that asked (R212, R213). -/
def endWalk (s : State) (w : Walk) (e : WalkEnd) : State :=
  let s := { s with mem := { s.mem with walks := s.mem.walks.erase w } }
  match e with
  | .leaf e => s.fillDieTlb w.die e
  | .invalid => { s with mem := { s.mem with walkFaults := s.mem.walkFaults ++ [⟨w.die, w.asid, w.page, false⟩] } }
  | .poisoned => { s with mem := { s.mem with walkFaults := s.mem.walkFaults ++ [⟨w.die, w.asid, w.page, true⟩] } }

/-- The walk that an event names. -/
def findWalk (s : State) (die asid va : Nat) : Option Walk :=
  s.mem.walks.find? fun w => w.die == die && w.asid == asid && w.page == va / 4096

/-- The payload of an event of kind 1: the identifier, the access kind and the die, then the virtual address (R230). -/
def walkPayload (w : Walk) : List DWord :=
  [BitVec.ofNat 64 (w.asid + 2 ^ 16 * (w.access % 6) + 2 ^ 24 * w.die), BitVec.ofNat 64 w.va, 0, 0, 0, 0, 0]

/-- PAGE_WALK: a walk of the tables, or under host-assisted walking the event that asks host software (R209, R230). -/
def pageWalkEffect (s : State) (w : Walk) : State :=
  if w.host then
    let (s, tag) := raiseEvent s 1 w.die (walkPayload w)
    { s with mem := { s.mem with walks := s.mem.walks.map fun x => if x == w then { x with tag := some tag } else x } }
  else endWalk (s.readThrough (s.walkPath w.asid (4096 * w.page))) w (s.walk w.asid (4096 * w.page))

/-- A walk can be made now: every line that it reads can be read (R209, R115), as by a load. -/
def walkReady (s : State) (w : Walk) : Bool := w.host || !(s.walkPath w.asid (4096 * w.page)).any s.lineWaits

def execPageWalk (die asid va : Nat) (s : State) : Host.Outcome State Fault Refusal :=
  .next (match findWalk s die asid va with
    | some w => if w.tag.isNone && walkReady s w then pageWalkEffect s w else s
    | none => s)

/-- The pending event that an answer names (R432). -/
def pendingEvent (s : State) (kind tag : Nat) : Option HostEvent := s.host.pending.find? fun e => e.kind == kind && e.tag == tag

/-- An event has been answered. -/
def State.answered (s : State) (e : HostEvent) : State := { s with host := { s.host with pending := s.host.pending.filter (· != e) } }

/-- The end of a walk that an answer gives: w8 is the leaf entry, w16 its level in [2:0], a fault in [3], marked as poisoned in [4];
the die checks the entry by R210 to R212 (R230). -/
def answeredWalk (w : Walk) (w8 w16 : DWord) : WalkEnd :=
  if w16.getLsbD 3 then (if w16.getLsbD 4 then .poisoned else .invalid)
  else if bits 1 0 w8.toNat != 3 then .invalid
  else match leafEntry w.asid (4096 * w.page) (bits 2 0 w16.toNat) w8.toNat with
    | some e => .leaf e
    | none => .invalid

/-- WALK_ANSWER (R230). -/
def execWalkAnswer (tag : Nat) (w8 w16 : BitVec 64) (s : State) : Host.Outcome State Fault Refusal :=
  .next (match pendingEvent s 1 tag with
    | none => s
    | some e =>
      let s := s.answered e
      match s.mem.walks.find? fun w => w.tag == some tag with
      | some w => endWalk s w (answeredWalk w w8 w16)
      | none => s)

/-! Answers to trap events (R252). -/

/-- The key of the warp that an event of kind 5 names. -/
def trapWarp (e : HostEvent) : Nat :=
  let v := (e.payload.getD 0 0).toNat
  warpKey (bits 6 0 v) (bits 10 8 v) (bits 14 12 v)

/-- An answer's replacements, then its action (R252). -/
def trapAnswerEffect (s : State) (k : Nat) (w8 w16 : DWord) : State :=
  let s := s.onWarp k fun w => { w with trap := { w.trap with
    epc := if w8.getLsbD 2 then w16 else w.trap.epc
    erep := if w8.getLsbD 3 then BitVec.ofNat 6 (bits 9 4 w8.toNat) else w.trap.erep } }
  eretAction s k (bits 1 0 w8.toNat)

/-- TRAP_ANSWER: an answer with a reserved bit set is discarded, and the event stays pending (R252). -/
def execTrapAnswer (tag : Nat) (w8 w16 : BitVec 64) (s : State) : Host.Outcome State Fault Refusal :=
  .next (match pendingEvent s 5 tag with
    | none => s
    | some e =>
      if bits 63 10 w8.toNat != 0 || (w8.getLsbD 2 && bits 1 0 w16.toNat != 0) then s
      else trapAnswerEffect (s.answered e) (trapWarp e) w8 w16)

/-! Instruction-cache fills (R99, R103). -/

/-- The lines of a set of an instruction cache: 128 sets by the low bits of the virtual line, with their keys. -/
def iSet (s : State) (core line : Nat) : List (Nat × ILine) :=
  s.mem.icache.filter fun (k, _) => k / 2 ^ 61 == core && k % 2 ^ 50 % 128 == line % 128

/-- Make room in a set of 8 ways: the oldest line leaves. -/
def iEvict (s : State) (core line : Nat) : State :=
  let ls := iSet s core line
  if ls.length < 8 then s
  else match ls with
    | [] => s
    | x :: xs =>
      let old := xs.foldl (fun a b => if b.2.age < a.2.age then b else a) x
      { s with mem := { s.mem with icache := s.mem.icache.erase old.1 } }

/-- A line that an instruction cache asked for can be filled: translated, in its slice, and no update holds it (R103). -/
def iFillReady (s : State) (core asid line : Nat) : Bool :=
  s.mem.fetches.contains (core, asid, line) &&
    match fetchLine s (core, asid, line) with
    | some p => s.dieDead (128 * p) || (slicePresent s p && !s.sliceCopying p && !s.lineHeld p && !s.crossHeld (core / 32) (dieOfLine p))
    | none => false

/-- The fill of an instruction cache: the line as its home holds it (R99, R103), or poison from a failed slice (R122). -/
def iFillEffect (s : State) (core asid line : Nat) : State :=
  let s' := { s with mem := { s.mem with fetches := s.mem.fetches.erase (core, asid, line) } }
  match fetchEntry s core asid line with
  | none => s'
  | some e =>
    let pline := lineOf (s.locate e (128 * line))
    let (data, poison) := if s.dieDead (128 * pline) then (List.replicate 128 0, BitVec.allOnes 4) else s.homeLine pline
    let (age, s) := ((iEvict s' core line).touchL2 pline).take
    { s with mem := { s.mem with icache := s.mem.icache.insert (icacheKey core asid line) ⟨pline, data, poison, age⟩ } }

/-! The end of a matrix command (R187, R179). -/

/-- MATRIX_COMMAND_COMPLETE: the command retires; a work-group that was reset is freed with its last command. -/
def execMatrixCommandComplete (core : Nat) (s : State) : Host.Outcome State Fault Refusal :=
  .next (match runningCommand s core with
    | some c => reapGroup (matrixCompleteEffect s c) c.wg
    | none => s)

end Sys2Proof.Machine
end

