-- ==== Sys2Proof/Machine/Engine.lean ====
section
/-! DEFINITION. Copy engines (spec/08_engine_queues.md R185 to R188, R204, R205; spec/15 R353 to R362): taking a command with its checks,
the transfers, sync words and retirement; the column-head engines (R191, R192, R221, R222). -/

namespace Sys2Proof.Machine

/-! Containment (R264). -/

/-- The root bough of a context on this package: where its report goes (R264). -/
def rootBough (s : State) (ctx : Nat) : Option BoughEff :=
  match s.work.grids.find? fun (_, g) => g.ctx.toNat == ctx with
  | some (_, g) => g.chain.getLast?
  | none => none

/-- Contain a context: its work-groups halt, its commands that have not started complete with status 0x08, and report 0x23 is written
once (R264). -/
def State.containContext (s : State) (ctx pa : Nat) : State :=
  if s.ctl.contained.any (·.1 == ctx) then s
  else
    let r : Report := { Report.blank 0x23 with addr := pa, ctx := ctx }
    let s := match rootBough s ctx with
      | some b => reportTo s b ctx r
      | none => reportSystem s r
    let failed (c : CopyCmd) : CopyCmd :=
      if c.ctx == ctx && c.slot.isNone && c.engine.isNone && c.status.isNone then { c with status := some 8 } else c
    let s := { s with ctl := { s.ctl with contained := s.ctl.contained.insert ctx pa }, eng := { s.eng with copy := s.eng.copy.map failed } }
    (s.work.groups.filter fun x => s.groupCtx x.1 == some ctx).foldl (fun (s : State) (x : Nat × WorkGroup) =>
      if x.2.resident && !x.2.dead then haltOthers (s.onGroup x.1 fun g => { g with contained := some pa }) x.1 (2 ^ 64) else s) s

/-! Commands. -/

/-- Change a command. -/
def State.onCmd (s : State) (id : Nat) (f : CopyCmd → CopyCmd) : State :=
  { s with eng := { s.eng with copy := s.eng.copy.map fun c => if c.id == id then f c else c } }

def State.cmd (s : State) (id : Nat) : Option CopyCmd := s.eng.copy.find? fun c => c.id == id

/-- The lowest nonzero of two statuses (R188). -/
def lowStatus (a b : Nat) : Nat := if a == 0 then b else if b == 0 then a else min a b

/-- The lowest nonzero status of a list (R188). -/
def lowestStatus (xs : List Nat) : Nat := xs.foldl lowStatus 0

/-- A command is to write its bytes no further: it has met an error (R188). -/
def State.failCmd (s : State) (id status : Nat) : State := s.onCmd id fun c => { c with err := lowStatus c.err status }

/-- A contain-class error touches a command (R122, R188). -/
def State.containCmd (s : State) (c : CopyCmd) (pa : Nat) : State := (s.failCmd c.id 8).containContext c.ctx pa

/-! The checks at the taking of a command (R186, R188, R353 to R361, R364). -/

/-- The bytes that a command reads at its source. -/
def CopyCmd.srcTotal (c : CopyCmd) : Nat := if c.kind == 7 then c.ranks * c.len else if c.kind == 6 then c.len else c.total

/-- The bytes that it writes at its target: a rescaled chunk takes one byte an element (R361, R222). -/
def CopyCmd.tgtTotal (c : CopyCmd) : Nat := if c.kind == 7 && c.opcode == 13 then c.len / 4 else c.total

/-- The highest byte offset past an end, over its rows. -/
def CopyCmd.srcEnd (c : CopyCmd) : Nat := if c.isCopy then (c.rows - 1) * c.srcPitch + c.len else c.srcTotal
def CopyCmd.tgtEnd (c : CopyCmd) : Nat := if c.isCopy then (c.rows - 1) * c.tgtPitch + c.len else c.tgtTotal

/-- The source is inline data. -/
def CopyCmd.inline (c : CopyCmd) : Bool := refSpace c.src == 4 && c.kind != 5

/-- A format error (0x05): a reserved field that is not 0, or a field outside its limits. -/
def CopyCmd.formatBad (c : CopyCmd) : Bool :=
  let w0 := c.word 0
  let isXput := c.kind == 2 || c.kind == 3
  let max := 16 * 2 ^ 20
  bits 3 3 w0 != 0 || bits 15 8 w0 != 0 || (c.opcode != 0 && c.kind != 4 && c.kind != 7) || (bits 31 16 w0 != 0 && !c.isCopy) ||
  (!c.sw && c.kind != 5 && c.word 3 != 0) || ((c.sw || c.kind == 5) && (!(refSpace (c.word 3) == 1 || refSpace (c.word 3) == 2) ||
    !refLegal (c.word 3) || refOffset (c.word 3) % 16 != 0)) ||
  (!c.stw && c.word 4 != 0) || (c.stw && (c.word 4 % 4 != 0 || c.kind == 8)) ||
  (c.kind == 4 && c.word 5 != 0) || (c.kind == 5 && bits 63 32 (c.word 5) != 0) || (c.kind == 7 && bits 31 17 (c.word 5) != 0) ||
  (!(isXput && c.inline) && c.kind != 7 && c.word 6 != 0) || (!(isXput && c.inline) && !(c.kind == 7 && c.opcode == 13) && c.word 7 != 0) ||
  (if c.kind == 5 then c.src != 0 || c.tgt != 0 || c.len != 0
   else
    !refLegal c.src || !refLegal c.tgt || refSpace c.tgt == 4 || (c.inline && !(isXput && c.rows == 1 && c.len ≤ 16)) ||
    c.srcTotal == 0 || c.srcTotal > max || (c.isCopy && c.rows * c.len > max) || c.srcEnd > 2 ^ 57 || c.tgtEnd > 2 ^ 57) ||
  (c.kind == 4 && (c.len % 4 != 0 || refOffset c.src % 4 != 0 || refOffset c.tgt % 4 != 0 || c.opcode > 12 ||
    !(refSpace c.tgt == 0 || (refSpace c.tgt == 3 && refOffset c.tgt < 2 ^ 51)))) ||
  (c.kind == 6 && (c.len < 16 || !(refSpace c.src == 0 || (refSpace c.src == 3 && refOffset c.src < 2 ^ 51)))) ||
  (c.kind == 7 && (c.rank ≥ c.ranks || c.ranks == 0 || c.ranks > 256 || c.len % 4 != 0 || c.opcode > 13 || c.word 6 % 8 != 0 ||
    (c.opcode == 13 && (c.len % 128 != 0 || c.word 7 == 0 || !refLegal (c.word 7) || refSpace (c.word 7) == 4)))) ||
  (c.kind == 8 && (refSpace c.src == 1 || refSpace c.tgt == 1 || (c.sw && refSpace (c.word 3) == 1)))

/-- The bytes from o on of a core's scratchpad are held by work-groups of a context (R355). -/
def granulesOwned (s : State) (ctx core o n : Nat) : Bool :=
  (granules 4096 o n).all fun k => match ownerOf s core (4096 * k) with
    | some (wg, _) => s.groupCtx wg == some ctx
    | none => false

/-- The limits of a reference that n bytes reach to (R355). -/
def limitStatus (s : State) (c : CopyCmd) (r n : Nat) : Nat :=
  match refSpace r with
  | 0 => if c.kind != 8 && refOffset r + n > c.segs.glim.toNat then 3 else 0
  | 1 => if refOffset r + n > c.segs.slim.toNat then 3 else 0
  | 2 =>
    if refOffset r + n > scratchSize then 3
    else if !c.system && bits 32 26 r == s.cfg.pkg && !granulesOwned s c.ctx (bits 25 19 r) (refOffset r) n then 3
    else 0
  | 3 => if c.system then 0 else 3
  | _ => 0

/-- The status of one place: only aligned words in the register and accumulator windows, a live core, a live route (R106, R188). -/
def placeStatus (s : State) (aligned : Bool) : Place → Nat
  | .chip pkg core window _ =>
    if (window == 0 || window == 3) && !aligned then 4
    else if pkg == s.cfg.pkg && s.coreOut core then 7
    else if s.reachable pkg then 0 else 7
  | .pool pa _ mirror =>
    if !s.reachable (s.homePackage pa) then 7 else if s.homed pa && s.dieDead pa && !mirror then 8 else 0
  | .inline _ => 0

/-- The first and the last byte of each run of an end within a page and a row. -/
def endBytes (c : CopyCmd) (r total len : Nat) (at' : Nat → Nat) : List Nat :=
  (pageStarts total (max len 1) (c.alignAddr r 0) at').flatMap fun p =>
    [at' p, at' p + min (min (total - p) (max len 1 - p % max len 1)) (4096 - c.alignAddr r (at' p) % 4096) - 1]

/-- The places of an end's runs, or their statuses. -/
def endPlaces (s : State) (c : CopyCmd) (r total len : Nat) (at' : Nat → Nat) (access : Nat) : List (Except Nat Place) :=
  (endBytes c r total len at').map fun b => s.place c r b access

/-- The translations of an end's pages. -/
def endPages (s : State) (c : CopyCmd) (r total len : Nat) (at' : Nat → Nat) : List TlbEntry :=
  if refSpace r == 0 then (endBytes c r total len at').foldl (fun es b => match tlbFind c.ctx (c.va r b) es with
    | some _ => es
    | none => match s.walk c.ctx (c.va r b) with
      | .leaf e => e :: es
      | _ => es) []
  else []

/-- The translations that a command keeps from its taking (R186). -/
def commandPages (s : State) (c : CopyCmd) : List TlbEntry :=
  endPages s c c.src c.srcTotal c.len (if c.isCopy then c.srcByte else id) ++ endPages s c c.tgt c.tgtTotal c.len c.tgtByte ++
    (if c.kind == 7 && c.opcode == 13 then endPages s c (c.word 7) (c.len / 128) (c.len / 128) id else [])

/-- The statuses of an end: its limit, its pages, and where it must lie (R355). -/
def endStatus (s : State) (c : CopyCmd) (r n : Nat) (places : List (Except Nat Place)) (aligned here : Bool) : List Nat :=
  limitStatus s c r n :: places.map fun
    | .error e => e
    | .ok p => lowStatus (placeStatus s aligned p) (if here && s.placePackage p != s.cfg.pkg then 5 else 0)

/-- The package of a sync word. -/
def syncPackage (s : State) (c : CopyCmd) : Nat := if refSpace (c.word 3) == 2 then bits 32 26 (c.word 3) else s.cfg.pkg

/-- A reference that a command may take: a chain's entries take no scratch of their own (R355, R364). -/
def CopyCmd.takes (c : CopyCmd) (r : Nat) : Bool := refLegal r && !(c.kind == 8 && refSpace r == 1)

/-- The statuses that stand against a command but for its format: those of each end whose reference is legal (R186, R188). The pages of
a command past 16 MiB are not looked at: it is a format error. -/
def causes (s : State) (c : CopyCmd) : List Nat :=
  let named := (c.sw || c.kind == 5) && c.takes (c.word 3) && (refSpace (c.word 3) == 1 || refSpace (c.word 3) == 2)
  let sync := if named then [limitStatus s c (c.word 3) 16, if s.reachable (syncPackage s c) then 0 else 7] else []
  if c.kind == 5 then sync
  else
    let fits := c.srcTotal ≤ 16 * 2 ^ 20 && c.total ≤ 16 * 2 ^ 20
    let srcs := if fits then endPlaces s c c.src c.srcTotal c.len (if c.isCopy then c.srcByte else id) 0 else []
    let tgts := if fits then endPlaces s c c.tgt c.tgtTotal c.len c.tgtByte 1 else []
    let word (r pitch : Nat) : Bool := refOffset r % 4 == 0 && c.len % 4 == 0 && pitch % 4 == 0
    let srcHere := c.kind == 0 || c.kind == 2 || c.kind == 3 || c.kind == 4
    let tgtHere := c.kind == 0 || c.kind == 1 || c.kind == 6 || c.kind == 7
    let scale := if c.kind == 7 && c.opcode == 13 && refLegal (c.word 7) && fits then
        endStatus s c (c.word 7) (c.len / 128) (endPlaces s c (c.word 7) (c.len / 128) (c.len / 128) id 1) false true else []
    let apart := if named && (c.isCopy || c.kind == 4) then tgts.map fun
        | .ok p => if s.placePackage p == syncPackage s c then 0 else 5
        | .error _ => 0
      else []
    let pool := if c.kind == 4 then tgts.map fun
        | .ok (.chip ..) => 5
        | _ => 0
      else []
    sync ++ pool ++ (if c.takes c.src then endStatus s c c.src c.srcEnd srcs (word c.src c.srcPitch) srcHere else []) ++
      (if c.takes c.tgt then endStatus s c c.tgt c.tgtEnd tgts (word c.tgt c.tgtPitch) tgtHere ++ apart else []) ++ scale

/-- The status of a command when it is taken, 0 when nothing stands against it: the lowest that applies (R186, R188). -/
def takeStatus (s : State) (c : CopyCmd) : Nat := lowestStatus ((if c.formatBad then 5 else 0) :: causes s c)

/-- A reduce-scatter's sync word is at another package: its arrival sets out when the result is performed here (R145, R361). -/
def countsAway (s : State) (c : CopyCmd) : Bool := c.kind == 7 && c.sw && syncPackage s c != s.cfg.pkg

/-! COPY_COMMAND_TAKE (R185). -/

/-- A command's writes are performed and acknowledged, its arrivals applied. -/
def settled (s : State) (c : CopyCmd) : Bool :=
  (s.stillPending c.writes).isEmpty && c.acks.isEmpty && !(s.eng.arrivals.any fun a => a.cmd == c.id)

/-- An engine has done with a command: every byte is moved and performed, or an error stopped it. -/
def moveDone (s : State) (c : CopyCmd) : Bool :=
  c.engine.isSome && !c.held && settled s c &&
    (c.err != 0 || (match c.kind with
      | 5 => c.phase == 1
      | 6 => c.phase == 3 || (4 ≤ c.phase && c.moved == c.total)
      | 7 => (c.phase == 3 || (c.phase == 2 && !countsAway s c)) && c.moved == c.ranks * c.len
      | _ => c.moved == c.total))

/-- A command's final status, once it has ended (R187, R188). -/
def finalStatus (s : State) (c : CopyCmd) : Option Nat :=
  match c.status with
  | some x => if settled s c then some x else none
  | none => if moveDone s c then some (if 4 ≤ c.phase then c.phase - 4 else if c.err != 0 then c.err else if c.poison then 10 else 0) else none

/-- The command that an engine works on. -/
def engineCmd (s : State) (die engine : Nat) : Option CopyCmd :=
  s.eng.copy.find? fun c => c.engine == some (16 * die + engine) && c.status.isNone && (finalStatus s c).isNone

/-- The requester of a die that a command belongs to: its core's queue, or its host chain slot (R185). -/
def requester (die : Nat) (c : CopyCmd) : Option Nat :=
  match c.slot with
  | some s => if s / 4 == die && s < 16 then some (32 + s % 4) else none
  | none => if c.core / 32 == die then some (c.core % 32) else none

/-- The oldest untaken command of a requester. -/
def untaken (s : State) (die r : Nat) : Option CopyCmd :=
  s.eng.copy.find? fun c => requester die c == some r && c.engine.isNone && c.status.isNone

/-- The next requester of an engine in round-robin order, after the one it served last, with an untaken command. -/
def nextRequester (s : State) (die engine : Nat) : Option (Nat × CopyCmd) :=
  let last := s.eng.served.getD (16 * die + engine) 35
  (List.range 36).findSome? fun i =>
    let r := (last + 1 + i) % 36
    (untaken s die r).map fun c => (r, c)

/-- An idle engine can take a command. -/
def takeReady (s : State) (die engine : Nat) : Bool :=
  die < 4 && engine < 16 && (engineCmd s die engine).isNone && (nextRequester s die engine).isSome && !s.att.outDies.contains die && !s.dieStalled die

/-- The `xrsc` of a group and rank that an engine of this package has taken. -/
def rankCmd (s : State) (group rank : Nat) : Option CopyCmd :=
  s.eng.copy.find? fun c => c.kind == 7 && c.group == group && c.rank == rank && c.engine.isSome && c.status.isNone && c.err == 0

/-- The ports of a reduction: the engine h[4:2] of branch h[6:5] of die h[8:7], h the placement hash of the frame of the target's first byte
(R192); engine e of branch b of die d is 32 d + 8 b + e. -/
def columnHead (s : State) (c : CopyCmd) : Nat :=
  match s.place c c.tgt 0 1 with
  | .ok p =>
    let h := placementHash (frameOf p.addr)
    32 * bits 8 7 h + 8 * bits 6 5 h + bits 4 2 h
  | .error _ => 0

/-- The words past those folded that a port takes (R206; DESIGN CHOICE, log 50: the spec gives no depth). -/
def portDepth : Nat := 4096

/-- Once a rank's own command has chosen the engine, the contributions held for it go to its ports, as far as those have room, and give
their credits back (R361). -/
def takePorts (s : State) (group rank : Nat) : State :=
  match rankCmd s group rank with
  | none => s
  | some c =>
    let engine := columnHead s c
    let put (h : HeldChunk) : HeldChunk :=
      if h.group == group && h.dst == rank && h.port.isNone && h.off < c.landed + portDepth then
        { h with port := some (engine, h.rank % 16), credit := none }
      else h
    { s with eng := { s.eng with chunks := s.eng.chunks.map put } }

/-- The work-group of the scratch block that the target names when the command is taken. -/
def targetOwner (s : State) (c : CopyCmd) : Option (Nat × Nat) :=
  match refSpace c.tgt with
  | 2 => if bits 32 26 c.tgt == s.cfg.pkg then ownerOf s (bits 25 19 c.tgt) (refOffset c.tgt) else none
  | _ => none

/-- COPY_COMMAND_TAKE: the checks and translations; a status other than ok completes the command at once (R186). -/
def takeEffect (s : State) (die engine : Nat) : State :=
  match nextRequester s die engine with
  | none => s
  | some (r, c) =>
    let s := { s with eng := { s.eng with served := s.eng.served.insert (16 * die + engine) r } }
    let c := { c with owner := targetOwner s c }
    let st := takeStatus s c
    let pages := if st == 0 && c.kind != 5 then commandPages s c else []
    let s := s.onCmd c.id fun _ => { c with engine := some (16 * die + engine), held := c.kind == 3 && st == 0,
                                            status := if st == 0 then none else some st, trans := pages }
    let s := if c.kind == 7 && st == 0 then takePorts s c.group c.rank else s
    if st == 8 then s.containContext c.ctx (refOffset c.tgt) else s

def execCopyCommandTake (die engine : Nat) (s : State) : Host.Outcome State Fault Refusal :=
  .next (if takeReady s die engine then takeEffect s die engine else s)

/-! Reading and writing places. -/

/-- A byte of a register, with its poison. -/
def regByte (s : State) (core off : Nat) : Byte × Bool :=
  let r := s.reg (regKey core (bits 19 17 off) (bits 16 11 off) (bits 10 2 off))
  (BitVec.ofNat 8 (r.val.toNat / 2 ^ (8 * (off % 4))), r.poison)

/-- A byte of a window of the on-chip map (R105). -/
def chipByte (s : State) (core window off : Nat) : Byte × Bool :=
  match window with
  | 0 => regByte s core off
  | 1 => let a := scratchAddr core off; (s.mem.scratch.read a, s.mem.scratch.poisoned (a / 4))
  | 2 =>
    let o := off % 65536
    let a := exchAddr core (s.exchBank core o (bits 16 16 off == 1)) o
    (s.mem.exch.read a, s.mem.exch.poisoned (a / 4))
  | _ => let a := tileAddr core (off / 65536) (off % 65536); (s.mem.acc.read a, s.mem.acc.poisoned (a / 4))

/-- Write bytes with their poison into words of a memory on chip: a word written in part keeps its poison unless it takes some. -/
def Mem.writeMarked (m : Mem) (a : Nat) (bs : List (Byte × Bool)) : Mem :=
  let m := m.writeClean 4 a (bs.map (·.1))
  bs.zipIdx.foldl (fun m (b, i) => if b.2 then m.setPoison ((a + i) / 4) true else m) m

/-- Write aligned words of a register window (R44, R105). -/
def regWrite (s : State) (core off : Nat) (bs : List (Byte × Bool)) : State :=
  (List.range (bs.length / 4)).foldl (fun s i =>
    let o := off + 4 * i
    let ws := (bs.drop (4 * i)).take 4
    s.setReg (regKey core (bits 19 17 o) (bits 16 11 o) (bits 10 2 o)) ⟨BitVec.ofNat 32 (leNat (ws.map (·.1))), ws.any (·.2)⟩) s

/-- Write bytes into a window of the on-chip map (R105, R106). -/
def chipWrite (s : State) (core window off : Nat) (bs : List (Byte × Bool)) : State :=
  match window with
  | 0 => regWrite s core off bs
  | 1 => s.onScratch fun m => m.writeMarked (scratchAddr core off) bs
  | 2 =>
    let o := off % 65536
    s.onExch fun m => m.writeMarked (exchAddr core (s.exchBank core o (bits 16 16 off == 1)) o) bs
  | _ => s.onAcc fun m => m.writeMarked (tileAddr core (off / 65536) (off % 65536)) bs

/-- The work-group whose storage on this package an end names (R267). -/
def endOwner (c : CopyCmd) (r : Nat) : Option Nat :=
  match refSpace r with
  | 1 => some c.wg
  | 2 => c.owner.map (·.1)
  | _ => none

/-- A byte of a saved image's section. -/
def sectionByte (s : State) (spot : Nat × Nat × Nat) (i : Nat) : Byte × Bool :=
  let o := spot.2.2 + i
  let d := ((s.poolRead (spot.1 + o) 1).map fun r => r.1.getD 0 0).getD 0
  let m := ((s.poolRead (spot.2.1 + o / 4 / 8) 1).map fun r => leNat r.1).getD 0
  (d, m.testBit (o / 4 % 8))

/-- What the reading of a piece gives. -/
inductive Piece where
  | got (data : List (Byte × Bool)) (lines : List Nat)
  | ask (pkg pa n : Nat) (mirror : Bool)
  | stop (status pa : Nat)
  | wait

/-- Read n bytes of an end from position b on; they lie in one page (R356). -/
def readPiece (s : State) (c : CopyCmd) (r b n : Nat) : Piece :=
  match c.reply with
  | some (d, st) => if st == 0 then .got d [] else .stop st 0
  | none => match s.place c r b 0 with
    | .error e => .stop e 0
    | .ok (.inline i) => .got ((List.range n).map fun k => (BitVec.ofNat 8 ((c.word 6 + 2 ^ 64 * c.word 7) / 2 ^ (8 * (i + k))), false)) []
    | .ok (.chip pkg core window off) =>
      if pkg != s.cfg.pkg then .ask pkg (chipAddr core window off) n false
      else match (endOwner c r).bind fun wg => imageSpot s wg window off with
        | some spot => if imageAway s spot n then .wait else .got ((List.range n).map (sectionByte s spot)) []
        | none => .got ((List.range n).map fun i => chipByte s core window (off + i)) []
    | .ok (.pool pa _ mirror) =>
      if s.homePackage pa != s.cfg.pkg then .ask (s.homePackage pa) pa n mirror
      else if s.dieDead pa && !mirror then .stop 8 pa
      else if (granules 128 pa n).any fun line => s.lineWaits line || s.sliceCopying line || s.crossHeld (c.engine.getD 0 / 16) (dieOfLine line) then .wait
      else .got ((List.range n).map fun i => (s.homeByte (pa + i), s.homePoison (pa + i))) (granules 128 pa n)

/-- The place of byte b of an end in the image of a work-group that is saved. -/
def endSpot (s : State) (c : CopyCmd) (r b : Nat) : Option (Nat × Nat × Nat) :=
  match s.place c r b 0 with
  | .ok (.chip pkg _ window off) => if pkg == s.cfg.pkg then (endOwner c r).bind fun wg => imageSpot s wg window off else none
  | _ => none

/-- Ask for the bytes of an image that a piece reads, and forget them. -/
def askImage (s : State) (c : CopyCmd) (r b n : Nat) : State := ((endSpot s c r b).map (imageAsk s · n)).getD s
def dropImage (s : State) (c : CopyCmd) (r b n : Nat) : State := ((endSpot s c r b).map (imageDrop s · n)).getD s

/-- The write of bytes of one poison to a pool line. -/
def poolOp (agent : Agent) (pa kind : Nat) (mirror : Bool) (bs : List Byte) (poison : Bool) (c : CopyCmd) : MemOp :=
  .write { agent := agent, pa := pa, data := bs, poison := poison, atom := none, dest := .discard, lanes := [], old := none, kind := kind,
           mirror := mirror, graft := none, after := [], stage := .port, pc := c.pc, lsn := c.lsn, depth := c.depth, ctx := c.ctx, batch := none }

/-- Put the writes of a piece of a pool line in flight: one for each run of sectors (R356, R144). -/
def poolPut (s : State) (agent : Agent) (pa kind : Nat) (mirror : Bool) (bs : List (Byte × Bool)) (c : CopyCmd) : State × List Nat :=
  if bs.all fun b => !b.2 then
    let (id, s) := s.take
    (s.addOp id (poolOp agent pa kind mirror (bs.map (·.1)) false c), [id])
  else (granules 32 pa bs.length).foldl (fun (s, ids) k =>
    let a := max pa (32 * k)
    let part := (bs.drop (a - pa)).take (32 * k + 32 - a)
    let (id, s) := s.take
    (s.addOp id (poolOp agent a kind mirror (part.map (·.1)) (part.any (·.2)) c), ids ++ [id])) (s, [])

/-- The reduction of R221's codes 0 to 12, as the write queues apply it (R358). -/
def redOp (code : Nat) : AtomOp :=
  match code with
  | 0 => .add
  | 1 => .fadd32
  | 2 => .faddH
  | 3 => .faddW
  | 4 => .imax
  | 5 => .imin
  | 6 => .nmax
  | 7 => .nmin
  | 8 => .fmax32
  | 9 => .fmin32
  | 10 => .and
  | 11 => .or
  | _ => .xor

/-- Runs of elements of one poison, within sectors: the first element, the count, the poison. -/
def elementRuns (pa : Nat) : List (Word × Bool) → Nat → List (Nat × Nat × Bool)
  | [], _ => []
  | (_, p) :: ws, i =>
    match elementRuns pa ws (i + 1) with
    | (j, n, q) :: rest =>
      if j == i + 1 && q == p && (pa + 4 * j) / 32 == (pa + 4 * i) / 32 then (i, n + 1, p) :: rest else (i, 1, p) :: (j, n, q) :: rest
    | [] => [(i, 1, p)]

/-- The elements of a piece. -/
def elementsOf (bs : List (Byte × Bool)) : List (Word × Bool) :=
  (List.range (bs.length / 4)).map fun i =>
    let ws := (bs.drop (4 * i)).take 4
    (BitVec.ofNat 32 (leNat (ws.map (·.1))), ws.any (·.2))

/-- Put the reduction of a piece of a pool line in flight (R358). -/
def poolReduce (s : State) (agent : Agent) (pa kind : Nat) (mirror : Bool) (code : Nat) (es : List (Word × Bool)) (c : CopyCmd) :
    State × List Nat :=
  (elementRuns pa es 0).foldl (fun (s, ids) (i, n, p) =>
    let v := ((es.drop i).take n).foldr (fun x acc => x.1.toNat + 2 ^ 32 * acc) 0
    let (id, s) := s.take
    let op : MemOp := .write { agent := agent, pa := pa + 4 * i, data := List.replicate (4 * n) 0, poison := p, atom := some (redOp code, v, 0),
                               dest := .discard, lanes := [], old := none, kind := kind, mirror := mirror, graft := none, after := [],
                               stage := .port, pc := c.pc, lsn := c.lsn, depth := c.depth, ctx := c.ctx, batch := none }
    (s.addOp id op, ids ++ [id])) (s, [])

/-! Sync words (R235 to R238, R145). -/

/-- The core, offset and owner of a command's sync word. -/
def syncSpot (s : State) (c : CopyCmd) : Nat × Nat × Option (Nat × Nat) :=
  let r := c.word 3
  if refSpace r == 2 then (bits 25 19 r, refOffset r, if bits 32 26 r == s.cfg.pkg then ownerOf s (bits 25 19 r) (refOffset r) else none)
  else (c.core, c.segs.sbase.toNat + refOffset r, some (c.wg, c.base))

/-- Send an arrival of an amount on its way, behind the writes listed (R236). -/
def State.sendArrival (s : State) (c : CopyCmd) (amount : Nat) (after : List Nat) : State :=
  let (core, off, owner) := syncSpot s c
  if syncPackage s c == s.cfg.pkg then
    { s with eng := { s.eng with arrivals := s.eng.arrivals ++ [⟨core, off, amount, after, c.id, owner⟩] } }
  else
    let s := s.onCmd c.id fun c => { c with acks := c.acks ++ [syncPackage s c] }
    s.send (syncPackage s c) c.rel (.arrival s.cfg.pkg c.id core off amount)

/-- Record that a sync word of a saved work-group received an arrival: with the work-group, and in the image's last section and header as long
as the image's area holds it (R238, R265; log entry 46). -/
def recordSync (s : State) (wg off : Nat) : State :=
  match s.savedShape wg with
  | none => s
  | some (x, h) =>
    if x.syncs.contains off then s
    else
      let s := { s with ctl := { s.ctl with saved := s.ctl.saved.adjust wg fun x => { x with syncs := x.syncs ++ [off] } } }
      let present := ((s.poolRead (x.image + 2) 2).map fun r => leNat r.1).getD 0
      let macros := (List.range 16).countP present.testBit
      let at' := h.syncAt macros x.syncs.length
      if at' + 4 ≤ (h.syncAt macros 0 + 4095) / 4096 * 4096 then
        (s.poolWrite (x.image + at') (leBytes 4 off)).poolWrite (x.image + 4) (leBytes 4 (x.syncs.length + 1))
      else s

/-- An arrival at the sync word of a saved work-group raises cnt in its image, and its offset is recorded (R238). -/
def savedArrival (s : State) (wg off amount : Nat) : State :=
  match imageSpot s wg 1 off with
  | none => s
  | some spot =>
    let field (o : Nat) : Nat × Bool :=
      let bs := (List.range 4).map fun i => sectionByte s spot (o + i)
      (leNat (bs.map (·.1)), bs.any (·.2))
    let (cnt, p) := field 4
    if p || (field 0).2 || (field 8).2 then s
    else
      recordSync (s.sectionWrite spot.1 spot.2.1 (spot.2.2 + 4) ((leBytes 4 (cnt + amount)).map (·, false))) wg spot.2.2

/-- What an arrival at a sync word of a saved work-group reads: the sync word in the image, whose header counts the macros before its records. -/
def arrivalSpots (s : State) (a : Arrival) : List (Nat × Nat × Nat) :=
  match a.owner with
  | some (wg, _) => match imageSpot s wg 1 a.off, s.ctl.saved.find wg with
    | some spot, some x => [spot, (x.image, x.image, 0)]
    | _, _ => []
  | none => []

/-- The pruner is moving the scratch block of a work-group (R166). -/
def scratchMoving (s : State) (wg : Nat) : Bool := s.dist.moves.any fun m => m.kind == 1 && m.wg == wg && m.stopped

/-- An arrival that can be applied: its writes are performed, and the block of its sync word stands still. -/
def arrivalReady (s : State) (a : Arrival) : Bool :=
  (s.stillPending a.after).isEmpty && match a.owner with
    | some (wg, _) => !scratchMoving s wg
    | none => true

/-- Apply an arrival at its sync word, where its block stands now, or in its image. -/
def applyArrival (s : State) (a : Arrival) : State :=
  match a.owner with
  | some (wg, base) => if s.ctl.saved.any (·.1 == wg) then savedArrival s wg a.off a.amount else s.arrive (s.coreNow wg a.core) (s.scratchNow wg base a.off) a.amount
  | none => s.arrive a.core a.off a.amount

/-- SYNC_WORD_ARRIVAL (R236). -/
def execSyncWordArrival (core : Nat) (s : State) : Host.Outcome State Fault Refusal :=
  .next (match s.eng.arrivals.find? fun a => a.core == core && arrivalReady s a with
    | some a =>
      let spots := arrivalSpots s a
      if spots.any (imageAway s · 16) then spots.foldl (imageAsk · · 16) s
      else spots.foldl (imageDrop · · 16) (applyArrival { s with eng := { s.eng with arrivals := s.eng.arrivals.erase a } } a)
    | none => s)

/-! ENGINE_LINE_WRITE (R356). -/

/-- Where byte p of the data stands in the source: the body of a shard begins at byte 8 (R204). -/
def CopyCmd.from' (c : CopyCmd) (p : Nat) : Nat := if c.kind == 6 then 8 + p else c.srcByte p

/-- The length of the next piece: within its row and one line of the target. -/
def CopyCmd.pieceLen (c : CopyCmd) (p : Nat) : Nat :=
  let left := if c.isCopy then c.len - p % c.len else c.total - p
  min left (128 - c.alignAddr c.tgt (c.tgtByte p) % 128)

/-- The contributions of a command that its own package holds. -/
def ownHeld (s : State) (c : CopyCmd) : Nat := s.eng.chunks.countP fun h => h.src == s.cfg.pkg && h.tag == c.id

/-- The transfers of an engine that are not performed. -/
def inFlight (s : State) (c : CopyCmd) : Nat := (s.stillPending c.writes).length + c.acks.length + ownHeld s c

/-- The package that a command's next transfer goes to. -/
def nextTarget (s : State) (c : CopyCmd) : Nat :=
  if c.kind == 5 then syncPackage s c
  else match s.place c c.tgt (c.tgtByte c.moved) 1 with
    | .ok p => s.placePackage p
    | .error _ => s.cfg.pkg

/-- A command has transfers to a package yet to send. -/
def stillSends (s : State) (d : CopyCmd) (t : Nat) : Bool :=
  d.status.isNone && d.err == 0 && (if d.kind == 5 then d.phase == 0 else d.moved < d.total) && (s.targetPackages d).contains t

/-- The ordered channel keeps the order of posting: an earlier ordered command of the warp still sends to the package (R146). -/
def postingWaits (s : State) (c : CopyCmd) (t : Nat) : Bool :=
  t != s.cfg.pkg && !c.rel && s.eng.copy.any fun d =>
    d.id < c.id && d.warp == c.warp && d.wg == c.wg && d.slot.isNone && c.slot.isNone && !d.rel && stillSends s d t

/-- The way of a command's next transfer is free (R146, R193). -/
def wayOpen (s : State) (c : CopyCmd) : Bool := s.mayPost (nextTarget s c) c.rel && !postingWaits s c (nextTarget s c)

/-- An engine's command goes on: it is neither held nor in error, its die runs, and nothing that it asked for is on its way. -/
def CopyCmd.live (s : State) (c : CopyCmd) : Bool :=
  c.status.isNone && !c.held && !s.dieStalled (c.engine.getD 0 / 16) && (s.stillPending c.after).isEmpty && c.err == 0 && !(c.asked && c.reply.isNone)

/-- A command has read the version word of its shard when it needs one. -/
def lineReady (s : State) (c : CopyCmd) : Bool :=
  c.live s && inFlight s c < 64 && wayOpen s c &&
    (match c.kind with
      | 5 => c.phase == 0
      | 6 => c.phase == 0 || ((c.phase == 1 || 4 ≤ c.phase) && c.moved < c.total)
      | 7 => false
      | _ => c.moved < c.total) &&
    (match endOwner c c.tgt with
      | some wg => !scratchMoving s wg
      | none => true)

/-- A remote read is asked for. -/
def askPiece (s : State) (c : CopyCmd) (pkg pa n : Nat) (mirror : Bool) : State :=
  if !s.reachable pkg then s.failCmd c.id 7
  else if !s.mayPost pkg c.rel then s
  else (s.onCmd c.id fun c => { c with asked := true }).send pkg c.rel (.readReq s.cfg.pkg c.id pa n mirror)

/-- A piece has been read: the next read starts afresh. -/
def CopyCmd.clearReply (c : CopyCmd) : CopyCmd := { c with asked := false, reply := none, got := [] }

/-- Read the next part of n bytes of the source from byte b on, within one page: the bytes once all have been read, with the state; before,
the state alone. -/
def gatherPiece (s : State) (c : CopyCmd) (b n : Nat) : Option (List (Byte × Bool)) × State :=
  let at' := b + c.got.length
  let m := min (n - c.got.length) (4096 - c.alignAddr c.src at' % 4096)
  match readPiece s c c.src at' m with
  | .wait => (none, askImage s c c.src at' m)
  | .ask pkg pa k mirror => (none, askPiece s c pkg pa k mirror)
  | .stop st pa => (none, if st == 8 then s.containCmd c pa else s.failCmd c.id st)
  | .got bs lines =>
    let s := (dropImage s c c.src at' m).readThrough lines
    if c.got.length + m < n then (none, s.onCmd c.id fun c => { c with asked := false, reply := none, got := c.got ++ bs })
    else (some (c.got ++ bs), s)

/-- Write a piece of n bytes at position p of the data at its target (R356, R358, R267). -/
def writePiece (s : State) (c : CopyCmd) (p : Nat) (bs : List (Byte × Bool)) : State :=
  let n := bs.length
  match s.place c c.tgt (c.tgtByte p) 1 with
  | .error e => s.failCmd c.id e
  | .ok place =>
    let pkg := s.placePackage place
    if !s.reachable pkg then s.failCmd c.id 7 else
    let s := s.onCmd c.id fun c => { c.clearReply with moved := p + n, poison := c.poison || bs.any (·.2) }
    if pkg != s.cfg.pkg then
      let (core, off, _) := syncSpot s c
      let sync := if c.sw then some (core, off) else none
      let m : Msg := if c.kind == 4 then .reduce s.cfg.pkg c.id place.addr place.page.1 place.page.2 c.opcode ((elementsOf bs).map fun e => ⟨e.1, e.2⟩) sync
        else .write s.cfg.pkg c.id place.addr place.page.1 place.page.2 bs sync
      (s.onCmd c.id fun c => { c with acks := c.acks ++ [pkg] }).send pkg c.rel m
    else
      let lost := match place with
        | .pool pa _ mirror => s.dieDead pa && !mirror
        | _ => false
      let (s, ids) := match place with
        | .pool pa kind mirror =>
          if lost then (s.containCmd c pa, [])
          else if c.kind == 4 then poolReduce s (.engine c.id) pa kind mirror c.opcode (elementsOf bs) c
          else poolPut s (.engine c.id) pa kind mirror bs c
        | .chip _ core window off =>
          match (endOwner c c.tgt).bind fun wg => imageSpot s wg window off with
          | some (d, m, o) => (s.sectionWrite d m o bs, [])
          | none => (chipWrite s core window off bs, [])
        | .inline _ => (s, [])
      let s := s.onCmd c.id fun c => { c with writes := s.stillPending c.writes ++ ids }
      if c.sw && c.kind != 6 && !lost then s.sendArrival c n ids else s

/-- The version word of a shard against the expected one: 0 when it matches (R204). -/
def versionStatus (c : CopyCmd) (bs : List (Byte × Bool)) : Nat :=
  if bs.any (·.2) then 10 else if leNat (bs.map (·.1)) == c.word 5 then 0 else 1

/-- Where the bytes of a copy's source lie: the package, the address and the length of each run within a row and a page. -/
def sourceRuns (s : State) (c : CopyCmd) : List (Nat × Nat × Nat) :=
  (pageStarts c.total (max c.len 1) (c.alignAddr c.src 0) c.srcByte).filterMap fun p =>
    match s.place c c.src (c.srcByte p) 0 with
    | .ok (.inline _) => none
    | .ok x => some (s.placePackage x, x.addr, min (c.len - p % c.len) (4096 - c.alignAddr c.src (c.srcByte p) % 4096))
    | .error _ => none

/-- The bytes of a piece of n bytes at position p of a copy whose target bytes are source bytes too (R356). -/
def ontoSource (s : State) (c : CopyCmd) (p n : Nat) : List Nat :=
  if !c.isCopy then []
  else match s.place c c.tgt (c.tgtByte p) 1 with
    | .ok x =>
      let runs := sourceRuns s c
      (List.range n).filter fun i => runs.any fun r => r.1 == s.placePackage x && r.2.1 ≤ x.addr + i && x.addr + i < r.2.1 + r.2.2
    | .error _ => []

/-- Write a piece of a copy; a target byte that is a source byte too takes a value that the model leaves free (R356). -/
def copyPiece (s : State) (c : CopyCmd) (p : Nat) (bs : List (Byte × Bool)) : State :=
  let onto := ontoSource s c p bs.length
  if onto.isEmpty then writePiece s c p bs
  else
    let (k, s) := s.take
    writePiece s c p (bs.zipIdx.map fun x => if onto.contains x.2 then (Config.freeByte k x.2, x.1.2) else x.1)

/-- The target bytes of an `xgth` whose version word has changed are unspecified (R204): a piece of them takes free values. -/
def stalePiece (s : State) (c : CopyCmd) : State :=
  let (k, s) := s.take
  writePiece s c c.moved ((List.range (c.pieceLen c.moved)).map fun i => (Config.freeByte k i, Config.freePoison k i))

/-- ENGINE_LINE_WRITE: the next transfer of the engine's command: a signal, the first reading of a version word, or a piece of data. -/
def lineEffect (s : State) (c : CopyCmd) : State :=
  if c.kind == 5 then (s.onCmd c.id fun c => { c with phase := 1 }).sendArrival c (bits 31 0 (c.word 5)) []
  else if c.kind == 6 && 4 ≤ c.phase then stalePiece s c
  else
    let version := c.kind == 6 && c.phase == 0
    let p := c.moved
    match gatherPiece s c (if version then 0 else c.from' p) (if version then 8 else c.pieceLen p) with
    | (none, s) => s
    | (some bs, s) =>
      if version then
        let st := versionStatus c bs
        s.onCmd c.id fun c => if st == 0 then { c.clearReply with phase := 1 } else { c.clearReply with err := st }
      else copyPiece s c p bs

def execEngineLineWrite (die engine : Nat) (s : State) : Host.Outcome State Fault Refusal :=
  .next (match engineCmd s die engine with
    | some c => if lineReady s c then lineEffect s c else s
    | none => s)

/-! XPUT_REL_RELEASE (R357) and XGTH_VERSION_RECHECK (R204). -/

/-- Every earlier command of the warp that writes a package that this command writes has been acknowledged there. -/
def releaseReady (s : State) (c : CopyCmd) : Bool :=
  c.held && !(s.eng.copy.any fun d => d.id < c.id && d.warp == c.warp && d.wg == c.wg && d.slot.isNone && (finalStatus s d).isNone &&
    (s.targetPackages d).any (s.targetPackages c).contains)

def execXputRelRelease (die engine : Nat) (s : State) : Host.Outcome State Fault Refusal :=
  .next (match engineCmd s die engine with
    | some c => if releaseReady s c then s.onCmd c.id fun c => { c with held := false } else s
    | none => s)

/-- The body has been copied, and the version word can be read again. -/
def recheckReady (s : State) (c : CopyCmd) : Bool :=
  c.live s && c.kind == 6 && c.phase == 1 && c.moved == c.total && (s.stillPending c.writes).isEmpty

def recheckEffect (s : State) (c : CopyCmd) : State :=
  match gatherPiece s c 0 8 with
  | (none, s) => s
  | (some bs, s) =>
    let st := versionStatus c bs
    if st != 0 then s.onCmd c.id fun c => { c.clearReply with phase := 4 + st, moved := 0 }
    else
      let s := s.onCmd c.id fun c => { c.clearReply with phase := 3 }
      if c.sw then s.sendArrival c c.total [] else s

def execXgthVersionRecheck (die engine : Nat) (s : State) : Host.Outcome State Fault Refusal :=
  .next (match engineCmd s die engine with
    | some c => if recheckReady s c then recheckEffect s c else s
    | none => s)

/-! Reduce-scatter (R191, R192, R205, R361; log entry 50). -/

/-- The address of an entry of the rank table, or the status of its translation. -/
def rankSpot (s : State) (c : CopyCmd) (k : Nat) : Except Nat Nat :=
  let off := c.word 6 + 8 * k
  let va := c.segs.gbase.toNat + off
  if off + 8 > c.segs.glim.toNat then .error 3
  else match (if va < 2 ^ 57 then s.walk c.ctx va else .invalid) with
    | .invalid => .error 6
    | .poisoned => .error 10
    | .leaf e =>
      if !accessAllowed e 0 c.system then .error 3
      else if !s.backed (e.at va) then .error 4
      else .ok (if s.homed (e.at va) then s.locate e va else e.at va)

/-- The package of a rank, or the status of its reading (R361). -/
def rankEntry (bs : List Byte) (poison : Bool) : Except Nat Nat :=
  if poison then .error 10 else if leNat bs ≥ 128 then .error 5 else .ok (leNat bs)

/-- Read the package of rank k in a command's rank table: a status or the package with the state, or the state alone while the entry is on
its way or an update holds it. -/
def readRank (s : State) (c : CopyCmd) (k : Nat) : Option (Except Nat Nat) × State :=
  match rankSpot s c k with
  | .error st => (some (.error st), s)
  | .ok pa =>
    let here := (granules 128 pa 8).filter fun line => s.homePackage (128 * line) == s.cfg.pkg
    if here.any s.lineWaits then (none, s)
    else match s.poolRead pa 8 with
      | none => (none, s.poolAsk pa 8)
      | some (bs, p) => (some (rankEntry bs p), (s.poolDrop pa 8).readThrough here)

/-- Where a group's rank is kept. -/
def rankKey (group rank : Nat) : Nat := 256 * group + rank

/-- A command learns that its group is in conflict (R205): from now on it tells every rank. -/
def breakCmd (s : State) (id : Nat) : State :=
  s.onCmd id fun c => if c.kind == 7 && c.phase < 16 && c.engine.isSome && c.status.isNone && c.err == 0 then { c with phase := 16 } else c

/-- A contribution has been folded, or dropped: its sender is told (R193). -/
def chunkDone (s : State) (h : HeldChunk) (status : Nat) : State :=
  if h.src != s.cfg.pkg then s.oweAck h.src h.tag [] status
  else if status == 5 then breakCmd s h.tag
  else s

/-- Drop the contributions held here that fit a description. -/
def dropChunks (s : State) (p : HeldChunk → Bool) (status : Nat) : State :=
  (s.eng.chunks.filter p).foldl (fun s h => chunkDone s h status) { s with eng := { s.eng with chunks := s.eng.chunks.filter fun h => !p h } }

/-- A contribution belongs to a use of the group that is in conflict: its sender has not told so before it sent it. -/
def BrokenRank.covers (b : BrokenRank) (h : HeldChunk) : Bool :=
  match b.told.find (128 * h.rank + h.src) with
  | some tag => h.tag ≤ tag
  | none => true

/-- A contribution arrives at the package of its chunk's rank: held in the trunk crossbar, or at its port; one to a group in conflict is
dropped, and its sender told (R205, R361). -/
def takeChunk (s : State) (h : HeldChunk) : State :=
  if ((s.eng.broken.find (rankKey h.group h.dst)).map (·.covers h)).getD false then chunkDone s h 5
  else takePorts { s with eng := { s.eng with chunks := s.eng.chunks ++ [h] } } h.group h.dst

/-- Every rank of a group has told, and the rank's own command has ended: the conflict is over here. -/
def settleBroken (s : State) (group dst n : Nat) : State :=
  match s.eng.broken.find (rankKey group dst) with
  | none => s
  | some b =>
    if b.done && (List.range n).all fun q => b.told.any fun x => x.1 / 128 == q then
      { s with eng := { s.eng with broken := s.eng.broken.erase (rankKey group dst) } }
    else s

/-- A rank tells rank dst that their group is in conflict. -/
def takeBroken (s : State) (src tag group rank dst n : Nat) : State :=
  let key := rankKey group dst
  let b := s.eng.broken.getD key ⟨[], false⟩
  let s := { s with eng := { s.eng with broken := s.eng.broken.insert key { b with told := b.told.insert (128 * rank + src) tag } } }
  let s := dropChunks s (fun h => h.group == group && h.dst == dst && h.rank == rank && h.src == src && h.tag ≤ tag) 5
  settleBroken ((s.eng.copy.filter fun c => c.kind == 7 && c.group == group && c.rank == dst).foldl (fun s c => breakCmd s c.id) s) group dst n

/-- XRSC_CHUNK_ARRIVAL can take place: a flit of chunk `chunk` is the next that rank sends. -/
def chunkReady (s : State) (c : CopyCmd) (chunk : Nat) : Bool :=
  c.live s && c.phase < 16 && c.moved / c.len == chunk && chunk < c.ranks && inFlight s c < 64

/-- A flit of a participant's chunk sets out for the package of the chunk's rank, which it reads at the chunk's first flit (R193, R361). -/
def sendChunkFlit (s : State) (c : CopyCmd) (pkg : Nat) : State :=
  let b := c.moved % c.len
  let n := min (c.len - b) 256
  if !s.reachable pkg then s.failCmd c.id 7
  else if !s.mayPost pkg c.rel then s
  else match gatherPiece s c c.moved n with
    | (none, s) => s
    | (some bs, s) =>
      let data : List PWord := (elementsOf bs).map fun e => ⟨e.1, e.2⟩
      let k := c.moved / c.len
      let s := s.onCmd c.id fun c => { c.clearReply with
        moved := c.moved + n, poison := c.poison || bs.any (·.2), dest := if b + n == c.len then none else some pkg }
      if pkg == s.cfg.pkg then takeChunk s ⟨s.cfg.pkg, c.id, c.group, c.rank, k, c.ranks, c.opcode, b / 4, data, none, none⟩
      else (s.onCmd c.id fun c => { c with acks := c.acks ++ [pkg] }).send pkg c.rel
        (.chunk s.cfg.pkg c.id c.group c.rank k c.ranks c.opcode (b / 4) data)

/-- XRSC_CHUNK_ARRIVAL. -/
def chunkEffect (s : State) (c : CopyCmd) (k : Nat) : State :=
  match c.dest with
  | some pkg => sendChunkFlit s c pkg
  | none => match readRank s c k with
    | (none, s) => s
    | (some (.error st), s) => s.failCmd c.id st
    | (some (.ok pkg), s) => s.onCmd c.id fun c => { c with dest := some pkg }

def execXrscChunkArrival (group rank chunk : Nat) (s : State) : Host.Outcome State Fault Refusal :=
  .next (match rankCmd s group rank with
    | some c => if chunkReady s c chunk then chunkEffect s c chunk else s
    | none => s)

/-- One step of a reduction on two words (R221). -/
def reduceWord (op : Nat) (a b : PWord) : PWord :=
  ⟨BitVec.ofNat 32 (atomValue (redOp (if op == 13 then 1 else op)) 4 a.val.toNat b.val.toNat 0), a.poison || b.poison⟩

/-- Fold operands in port order, element by element. -/
def foldChunks (op : Nat) : List (List PWord) → List PWord
  | [] => []
  | x :: xs => xs.foldl (fun acc y => (acc.zip y).map fun p => reduceWord op p.1 p.2) x

/-- Groups of sixteen. -/
def sixteens : Nat → List α → List (List α)
  | 0, _ => []
  | n + 1, xs => if xs.isEmpty then [] else xs.take 16 :: sixteens n (xs.drop 16)

/-- The reduction of n operands in rank order: one stage of up to 16 ports, or two stages (R191, R192). -/
def reduceRanks (op : Nat) (xs : List (List PWord)) : List PWord :=
  if xs.length ≤ 16 then foldChunks op xs else foldChunks op ((sixteens 16 xs).map (foldChunks op))

/-- The scale of a block of 32 sums and its m8 elements (R222). -/
def rescaleBlock (ws : List PWord) : List Byte × Byte :=
  let vs := ws.map fun w => FpFormat.f32.unpack w.val.toNat
  let odd := vs.any fun | .num _ _ _ => false | _ => true
  let exps := vs.filterMap fun | .num _ m e => if m == 0 then none else some (e + (Nat.log2 m : Int)) | _ => none
  if odd then (List.replicate ws.length 0x7F, 0xFF)
  else match exps with
    | [] => (List.replicate ws.length 0, 0)
    | x :: xs =>
      let sc := (max 0 (xs.foldl max x + 119)).toNat
      (vs.map fun
        | .num neg m e => BitVec.ofNat 8 (FpFormat.m8.round 0 true neg m (e - ((sc : Int) - 127)) false).1
        | _ => 0, BitVec.ofNat 8 sc)

/-- The contributions held for one rank of a group. -/
def heldFor (s : State) (group dst : Nat) : List HeldChunk := s.eng.chunks.filter fun h => h.group == group && h.dst == dst

/-- The commands of this package that name a group and rank and have not ended. -/
def rankTwins (s : State) (c : CopyCmd) : List CopyCmd :=
  s.eng.copy.filter fun d => d.kind == 7 && d.group == c.group && d.rank == c.rank && d.status.isNone && d.err == 0

/-- A rank is posted twice, or ranks disagree on n or on the operation (R205), as far as this package knows. -/
def groupConflict (s : State) (c : CopyCmd) (hs : List HeldChunk) : Bool :=
  (s.eng.broken.any fun x => x.1 == rankKey c.group c.rank && !x.2.done) || hs.any (fun h => h.n != c.ranks || h.op != c.opcode || h.rank ≥ c.ranks) ||
    (hs.any fun h => hs.any fun g => g.rank == h.rank && (g.src != h.src || g.tag != h.tag)) || (rankTwins s c).length > 1

/-- The operand that a port has for word i of its rank's chunk. -/
def portWord (hs : List HeldChunk) (q i : Nat) : Option PWord :=
  (hs.find? fun h => h.port.isSome && h.rank == q && h.off ≤ i && i < h.off + h.data.length).bind fun h => h.data[i - h.off]?

/-- The words that one step of the fold takes: up to 32, a block of R222. -/
def foldWidth (c : CopyCmd) : Nat := min 32 (c.len / 4 - c.landed)

/-- The operands of the next words, rank by rank: none while a port has not delivered (R191). -/
def portWords (c : CopyCmd) (hs : List HeldChunk) : Option (List (List PWord)) :=
  (List.range c.ranks).mapM fun q => (List.range (foldWidth c)).mapM fun i => portWord hs q (c.landed + i)

/-- The result's target stands still, and the die of its engine runs (R166, R207). -/
def targetStill (s : State) (c : CopyCmd) : Bool :=
  !s.dieStalled (columnHead s c / 32) && [c.tgt, c.word 7].all fun r => match endOwner c r with
    | some wg => !scratchMoving s wg
    | none => true

/-- COLUMN_HEAD_REDUCTION can take place: every port has delivered the next words, or the group is in conflict; or the result is performed
and its bytes are still to be counted at another package; or a conflict has been told to every rank. -/
def reductionReady (s : State) (c : CopyCmd) : Bool :=
  let hs := heldFor s c.group c.rank
  if 16 ≤ c.phase then c.phase < 16 + c.ranks || settled s c
  else if c.phase == 2 then countsAway s c && (s.stillPending c.writes).isEmpty
  else c.phase < 2 && (groupConflict s c hs || (targetStill s c && inFlight s c ≤ 56 && (portWords c hs).isSome))

/-- The bytes that a reduce-scatter counts: its chunk, or the m8 elements and the scale bytes (R222, R361). -/
def resultBytes (c : CopyCmd) : Nat := if c.opcode == 13 then c.len / 4 + c.len / 128 else c.len

/-- The result's bytes count toward a sync word of this package once they are performed (R145). -/
def countResult (s : State) (c : CopyCmd) : State :=
  match s.cmd c.id with
  | some d => if c.sw && d.err == 0 && !countsAway s c then s.sendArrival c (resultBytes c) d.writes else s
  | none => s

/-- Write bytes of a result from byte b of a reference on, line by line; the writes in flight are the command's. -/
def writeResult (s : State) (c : CopyCmd) (r b : Nat) (bs : List (Byte × Bool)) : State :=
  (linePieces (c.alignAddr r b) bs.length).foldl (fun s (o, _, n) =>
    let part := (bs.drop o).take n
    match s.place c r (b + o) 1 with
    | .error e => s.failCmd c.id e
    | .ok (.pool pa kind mirror) =>
      if s.dieDead pa && !mirror then s.containCmd c pa
      else
        let (s, ids) := poolPut s (.engine c.id) pa kind mirror part c
        s.onCmd c.id fun c => { c with writes := s.stillPending c.writes ++ ids }
    | .ok (.chip _ core window off) =>
      match (endOwner c r).bind fun wg => imageSpot s wg window off with
      | some (d, m, o) => s.sectionWrite d m o part
      | none => chipWrite s core window off part
    | .ok (.inline _) => s) s

/-- Words of the result, as they lie in memory: of code 13 the m8 elements and the scale byte of their block (R222). -/
def putWords (s : State) (c : CopyCmd) (ws : List PWord) : State :=
  if c.opcode == 13 then
    let p := ws.any (·.poison)
    let (els, scale) := rescaleBlock ws
    writeResult (writeResult s c c.tgt c.landed (els.map (·, p))) c (c.word 7) (c.landed / 32) [(scale, p)]
  else writeResult s c c.tgt (4 * c.landed) (ws.flatMap fun w => (leBytes 4 w.val.toNat).map (·, w.poison))

/-- The next words are folded in port order and written; contributions that are done with leave their ports, and after the last word the
result's bytes are counted (R191, R222, R361). -/
def foldEffect (s : State) (c : CopyCmd) (xs : List (List PWord)) : State :=
  let r := reduceRanks c.opcode xs
  let upto := c.landed + foldWidth c
  let s := putWords (s.onCmd c.id fun c => { c with landed := upto, poison := c.poison || r.any (·.poison) }) c r
  let mine (h : HeldChunk) : Bool := h.group == c.group && h.dst == c.rank
  if 4 * upto < c.len then takePorts (dropChunks s (fun h => mine h && h.off + h.data.length ≤ upto) 0) c.group c.rank
  else countResult (dropChunks (s.onCmd c.id fun c => { c with phase := 2 }) mine 0) c

/-- Tell rank k of the group that it is in conflict, as far as the rank table names its package. -/
def tellRank (s : State) (c : CopyCmd) (k : Nat) : State :=
  match readRank s c k with
  | (none, s) => s
  | (some (.error _), s) => s.onCmd c.id fun c => { c with phase := c.phase + 1 }
  | (some (.ok pkg), s) =>
    let t := s.onCmd c.id fun c => { c with phase := c.phase + 1 }
    if k == c.rank || !s.reachable pkg then t
    else if pkg == s.cfg.pkg then takeBroken t s.cfg.pkg c.id c.group c.rank k c.ranks
    else if !s.mayPost pkg false then s
    else (t.onCmd c.id fun c => { c with acks := c.acks ++ [pkg] }).send pkg false (.broken s.cfg.pkg c.id c.group c.rank k c.ranks)

/-- Every rank has been told: the rank's commands end with status 0x05, and what comes for them is dropped (R205). -/
def endBroken (s : State) (c : CopyCmd) : State :=
  let key := rankKey c.group c.rank
  let b := s.eng.broken.getD key ⟨[], false⟩
  let ends (d : CopyCmd) : CopyCmd :=
    if d.kind == 7 && d.group == c.group && d.rank == c.rank && d.status.isNone then { d with status := some 5 } else d
  settleBroken { s with eng := { s.eng with
    copy := s.eng.copy.map ends
    broken := s.eng.broken.insert key { b with told := b.told.insert (128 * c.rank + s.cfg.pkg) c.id, done := true } } } c.group c.rank c.ranks

/-- A conflict shows: what is held for the rank is dropped, and its command begins to tell the other ranks. -/
def breakGroup (s : State) (c : CopyCmd) : State :=
  let key := rankKey c.group c.rank
  let b := s.eng.broken.getD key ⟨[], false⟩
  let s := { s with eng := { s.eng with broken := s.eng.broken.insert key b } }
  breakCmd (dropChunks s (fun h => h.group == c.group && h.dst == c.rank && b.covers h) 5) c.id

/-- COLUMN_HEAD_REDUCTION. -/
def reductionEffect (s : State) (c : CopyCmd) : State :=
  let hs := heldFor s c.group c.rank
  if 16 + c.ranks ≤ c.phase then endBroken s c
  else if 16 ≤ c.phase then tellRank s c (c.phase - 16)
  else if c.phase == 2 then (s.onCmd c.id fun c => { c with phase := 3 }).sendArrival c (resultBytes c) []
  else if groupConflict s c hs then breakGroup s c
  else match portWords c hs with
    | some xs => foldEffect s c xs
    | none => s

def execColumnHeadReduction (group rank : Nat) (s : State) : Host.Outcome State Fault Refusal :=
  .next (match rankCmd s group rank with
    | some c => if reductionReady s c then reductionEffect s c else s
    | none => s)

/-! COMMAND_RETIRE (R187, R233, R234, R362). -/

/-- The report of a status other than ok (R187, R261). -/
def reportCmd (s : State) (c : CopyCmd) (st : Nat) : State :=
  let r : Report := { Report.blank 0x21 with pc := c.pc.toNat, lsn := c.lsn.toNat, core := c.core, slot := c.warp / 8 % 8, depth := c.depth, status := st }
  match s.work.groups.find c.wg with
  | some _ => reportGroup s c.wg r
  | none => match s.ctl.saved.find c.wg with
    | some x => match s.work.grids.find x.group.grid with
      | some g => reportTo s g.eff g.ctx.toNat { r with ctx := g.ctx.toNat, wgid := x.group.id.toNat }
      | none => reportSystem s r
    | none => reportSystem s r

/-- The page of a command's status word: none when its limit, its translation or its home fails (R354, R362). -/
def statusPage (s : State) (c : CopyCmd) : Option (TlbEntry × Nat) :=
  let va := c.segs.gbase.toNat + c.word 4
  if c.word 4 + 4 > c.segs.glim.toNat || va + 4 > 2 ^ 57 then none
  else match s.walk c.ctx va with
    | .leaf e => if accessAllowed e 1 c.system && s.homed (e.at va) then some (e, va) else none
    | _ => none

/-- The status word, or the report (R187, R362). -/
def publishStatus (s : State) (c : CopyCmd) (st : Nat) : State :=
  if c.stw then
    match statusPage s c with
    | some (e, va) => s.pageWrite e va (leBytes 4 st)
    | none => reportCmd s c st
  else if st != 0 then reportCmd s c st
  else s

/-- A warp's counter of a class falls by 1. -/
def Warp.retireClass (w : Warp) (cls : Nat) : Warp :=
  match cls with
  | 0 => { w with cntCopy := w.cntCopy - 1 }
  | 1 => { w with cntMat := w.cntMat - 1 }
  | 2 => { w with cntGth := w.cntGth - 1 }
  | _ => { w with cntCol := w.cntCol - 1 }

/-- The counter falls: the resident warp's, or the one that the image holds (R233, R267). -/
def lowerCounter (s : State) (c : CopyCmd) : State :=
  match s.savedShape c.wg, s.warpAt c.warp with
  | none, some w => if w.wg == c.wg then s.setWarp c.warp (w.retireClass c.cls) else s
  | some (x, h), _ =>
    match x.group.warps.zipIdx.find? fun p => warpKey x.group.core p.1.1 p.1.2 == c.warp with
    | some (_, i) =>
      let word := x.image + h.warpAt i + 228
      if s.homePackage word == s.cfg.pkg then
        s.poolWrite (word + c.cls) [BitVec.ofNat 8 (leNat (s.homeRead (word + c.cls) 1).1 - 1)]
      else s.poolCombine word 0 (2 ^ 32 - 2 ^ (8 * c.cls))
    | none => s
  | none, none => s

/-- A command may retire: it has ended, and no older one of its warp and class is left (R187). -/
def retireReady (s : State) (c : CopyCmd) : Bool :=
  c.slot.isNone && (finalStatus s c).isSome &&
    !(s.eng.copy.any fun d => d.slot.isNone && d.id < c.id && d.warp == c.warp && d.wg == c.wg && d.cls == c.cls)

/-- COMMAND_RETIRE: the status, the counter, the entry, in this order (R187). -/
def retireEffect (s : State) (c : CopyCmd) : State :=
  let s := if c.kind == 7 && c.phase < 2 && c.engine.isSome then dropChunks s (fun h => h.group == c.group && h.dst == c.rank) 0 else s
  let s := publishStatus s c ((finalStatus s c).getD 0)
  let s := lowerCounter s c
  let s := { s with eng := { s.eng with copy := s.eng.copy.filter fun d => d.id != c.id } }
  reapGroup s c.wg

def execCommandRetire (core serial : Nat) (s : State) : Host.Outcome State Fault Refusal :=
  .next (match s.cmd serial with
    | some c => if c.core == core && retireReady s c then retireEffect s c else s
    | none => s)

end Sys2Proof.Machine
end

