-- ==== Sys2Proof/Machine/Chain.lean ====
section
/-! DEFINITION. Command chains and the encoders (spec/08_engine_queues.md R197 to R203; spec/15 R364; spec/19 R417). Host slot s of die d is
slot 4d + s; slot s of encoder e is slot 16 + 4e + s. -/

namespace Sys2Proof.Machine

/-! The slots. -/

def State.chainSlot (s : State) (n : Nat) : ChainSlot := s.eng.slots.getD n ChainSlot.init

def State.onChain (s : State) (n : Nat) (f : ChainSlot → ChainSlot) : State :=
  { s with eng := { s.eng with slots := s.eng.slots.alter n f ChainSlot.init } }

def ChainSlot.armed (x : ChainSlot) : Bool := x.reg.getLsbD 0
def ChainSlot.block (x : ChainSlot) : Nat := bits 51 6 x.reg.toNat * 64

/-- The bits that a chain slot register holds (R417). -/
def chainRegister (w : DWord) : DWord := BitVec.ofNat 64 (bits 51 6 w.toNat * 64 + bits 0 0 w.toNat)

/-- A slot takes a chain: its control block is read afresh. -/
def armSlot (s : State) (slot : Nat) (w : BitVec 64) : State :=
  let s := s.onChain slot fun x => { x with reg := chainRegister w }
  s.poolDrop (s.chainSlot slot).block 64

/-- CHAIN_SLOT_ARM: the register takes the word; the entry in progress goes on with the chain it belongs to (R417). -/
def execChainSlotArm (slot : Nat) (w : BitVec 64) (s : State) : Host.Outcome State Fault Refusal :=
  .next (if slot < 48 && w.getLsbD 0 then armSlot s slot w else s)

/-- CHAIN_SLOT_DISARM: no entry starts after the one in progress (R417). -/
def execChainSlotDisarm (slot : Nat) (w : BitVec 64) (s : State) : Host.Outcome State Fault Refusal :=
  .next (if slot < 48 && !w.getLsbD 0 then s.onChain slot fun x => { x with reg := chainRegister w } else s)

/-! The entry at the head (R197, R198). -/

/-- A field of a control block, wherever its home is; 0 while it has not come from there. -/
def State.blockField (s : State) (block o n : Nat) : Nat := ((s.poolRead (block + o) n).map fun r => leNat r.1).getD 0

/-- A control block that is rejected: m past 16, a ring that is not aligned, or a reserved field that is not 0 (R10, R197; DEDUCED, log 50). -/
def blockBad (s : State) (block : Nat) : Bool :=
  s.blockField block 8 8 > 12 || s.blockField block 0 8 % 64 != 0 || s.blockField block 44 4 != 0 || s.blockField block 48 16 != 0

/-- A slot is armed and idle: it looks at its chain. -/
def slotIdle (s : State) (n : Nat) : Bool := n < 48 && (s.chainSlot n).armed && (s.chainSlot n).job.isNone && s.backed (s.chainSlot n).block

/-- A slot has an entry to serve: it is armed, nothing is in progress, its chain runs and is not empty (R197, R199, R200). -/
def chainPending (s : State) (n : Nat) : Bool :=
  let x := s.chainSlot n
  slotIdle s n && !s.lineWaits (lineOf x.block) && (s.poolRead x.block 64).isSome && s.blockField x.block 40 1 == 0 &&
    s.blockField x.block 16 4 != s.blockField x.block 24 4

/-- The status with which a translation for an engine fails, or its leaf (R186). -/
def enginePage (s : State) (ctx va access : Nat) : Except Nat TlbEntry :=
  if va ≥ 2 ^ 57 then .error 6
  else match s.walk ctx va with
    | .invalid => .error 6
    | .poisoned => .error 10
    | .leaf e => if !accessAllowed e access true then .error 3 else if !s.backed (e.at va) then .error 4 else .ok e

/-- The page and the address of the entry at the head: a status when the context is invalid or the address fails (R198, R417). -/
def entryPlace (s : State) (n : Nat) : Except Nat (TlbEntry × Nat) :=
  let x := s.chainSlot n
  let head := s.blockField x.block 16 4
  let va := s.blockField x.block 0 8 + 64 * (head % 2 ^ (bits 3 0 (s.blockField x.block 8 8) + 4))
  if (s.rootTable x.ctx).isNone then .error 6
  else match enginePage s x.ctx va 0 with
    | .error st => .error st
    | .ok e => .ok (e, va)

/-- Where a translated address is read. -/
def State.readAddr (s : State) (x : TlbEntry × Nat) : Nat := if s.homed (x.1.at x.2) then s.locate x.1 x.2 else x.1.at x.2

/-- The three fields of a sync word that decide a wait, in place or in a saved image: the generation, and whether one is poisoned. -/
def syncState (s : State) (core off : Nat) : Nat × Bool :=
  let bytes (o : Nat) : List (Byte × Bool) := (List.range 4).map fun i =>
    match savedOwner s core off with
    | some (wg, _) =>
      match (if (scratchOwner s core off).isNone then imageSpot s wg 1 off else none) with
      | some spot => sectionByte s spot (o + i)
      | none => chipByte s core 1 (off + o + i)
    | none => chipByte s core 1 (off + o + i)
  (leNat ((bytes 8).map (·.1)), [0, 4, 8].any fun o => (bytes o).any (·.2))

/-- Entry bytes 8 to 55 as a descriptor (R364). -/
def chainDescriptor (ws : List DWord) : List DWord := (ws.drop 1).take 6 ++ [0, 0]

/-- The copy command of an entry. -/
def chainCommand (id slot ctx : Nat) (ws : List DWord) : CopyCmd :=
  { id := id, core := 0, warp := 2 ^ 40 + slot, wg := 2 ^ 64, ctx := ctx, kind := 8, desc := chainDescriptor ws, segs := Segments.zero,
    system := true, after := [], chain := [], slot := some slot, engine := none, moved := 0, poison := false, writes := [], acks := [],
    held := false, status := none, pc := 0, lsn := 0, depth := 0, base := 0, owner := none, phase := 0, asked := false, reply := none, err := 0, landed := 0,
    dest := none, trans := [], got := [] }

/-! Encode entries (R201 to R203). -/

/-- The fields of an encode entry (R202). -/
structure Frame' where
  width : Nat
  height : Nat
  deep : Bool
  key : Bool
  columns : Nat
  index : Nat
  luma : Nat
  chroma : Nat
  pitch : Nat
  limit : Nat
  out : Nat
  state : Nat

def encodeFields (ws : List DWord) : Frame' :=
  let w (i : Nat) : Nat := (ws.getD i 0).toNat
  ⟨bits 15 0 (w 1), bits 31 16 (w 1), bits 32 32 (w 1) == 1, bits 33 33 (w 1) == 1, bits 35 34 (w 1) + 1, bits 43 36 (w 1), w 2, w 3,
    bits 31 0 (w 4), bits 63 32 (w 4), w 5, w 6⟩

/-- The bytes of a row of samples. -/
def Frame'.row (f : Frame') : Nat := if f.deep then 2 * f.width else f.width

/-- The bytes of a stream state. -/
def Frame'.stateSize (f : Frame') : Nat := 4096 + 2 * f.height * f.pitch

/-- A field of an encode entry breaks its limits (R202). -/
def encodeBad (ws : List DWord) : Bool :=
  let f := encodeFields ws
  f.width % 8 != 0 || f.height % 8 != 0 || f.width < 64 || f.width > 3840 || f.height < 64 || f.height > 2160 ||
    bits 63 44 (ws.getD 1 0).toNat != 0 || f.luma % 256 != 0 || f.chroma % 256 != 0 || f.pitch % 256 != 0 || f.pitch < f.row ||
    f.limit < 4096 || f.limit > 2 ^ 24 || f.out % 256 != 0 || f.state % 4096 != 0 || bits 55 0 (ws.getD 7 0).toNat != 0

/-- The rows of a frame: luma, then chroma, with the addresses of their first bytes. -/
def Frame'.rows (f : Frame') : List Nat :=
  (List.range f.height).map (fun r => f.luma + r * f.pitch) ++ (List.range (f.height / 2)).map (fun r => f.chroma + r * f.pitch)

/-- The pages of a range: the lowest status, 0 when every page translates. -/
def rangeStatus (s : State) (ctx va n access : Nat) : Nat :=
  lowestStatus ((granules 4096 va n).map fun k => match enginePage s ctx (4096 * k) access with
    | .error st => st
    | .ok _ => 0)

/-- The status of an encode entry when it starts, 0 when nothing stands against it: the lowest that applies (R186, R188, R202). The pages
of a frame past the greatest are not looked at. -/
def encodeStatus (s : State) (ctx : Nat) (ws : List DWord) : Nat :=
  let f := encodeFields ws
  if encodeBad ws && (f.width > 3840 || f.height > 2160 || f.limit > 2 ^ 24 || f.pitch > 65536) then 5
  else
    lowestStatus ((if encodeBad ws then [5] else []) ++ (f.rows.map fun a => rangeStatus s ctx a f.row 0) ++
      [rangeStatus s ctx f.out f.limit 1, rangeStatus s ctx f.state f.stateSize 0, rangeStatus s ctx f.state f.stateSize 1])

/-! CHAIN_ENTRY_START (R198, R200). -/

/-- The place in an image of the sync word that an entry awaits. -/
def entrySpot (s : State) (ws : List DWord) : Option (Nat × Nat × Nat) :=
  let h := (ws.getD 0 0).toNat
  let core := bits 15 9 h
  let off := bits 34 16 h
  if bits 8 8 h == 1 && (scratchOwner s core off).isNone then (savedOwner s core off).bind fun x => imageSpot s x.1 1 off else none

/-- The status of an entry when it starts: none when it is to be carried out, or the whole is none while its sync word has not been reached. -/
def startStatus (s : State) (n ctx : Nat) (ws : List DWord) (poison : Bool) : Option (Option Nat) :=
  let h := (ws.getD 0 0).toNat
  let kind := bits 7 0 h
  if poison then some (some 10)
  else if bits 63 51 h != 0 || bits 34 16 h % 16 != 0 || kind > 2 || (kind == 1 && n ≥ 16) || (kind == 2 && n < 16) then
    some (some (if kind == 1 then lowStatus 5 (takeStatus s (chainCommand 0 n ctx ws)) else if kind == 2 then lowStatus 5 (encodeStatus s ctx ws) else 5))
  else
    let (gen, bad) := syncState s (bits 15 9 h) (bits 34 16 h)
    let wait := bits 8 8 h == 1
    if (entrySpot s ws).any (imageAway s · 16) then none
    else if wait && bad then some (some 10)
    else if wait && !reached 16 gen (bits 50 35 h) then none
    else match kind with
      | 0 => some (some 0)
      | 1 => some none
      | _ => let st := encodeStatus s ctx ws; some (if st == 0 then none else some st)

/-- The entry at the head of a slot's chain as a job, when it can start. -/
def nextJob (s : State) (n : Nat) : Option ChainJob :=
  let x := s.chainSlot n
  let head := s.blockField x.block 16 4
  if !chainPending s n then none
  else if blockBad s x.block then some ⟨x.block, none, head, [], x.ctx, some 5, [], false⟩
  else match entryPlace s n with
    | .error st => some ⟨x.block, none, head, [], x.ctx, some st, [], false⟩
    | .ok pa => match s.poolRead (s.readAddr pa) 64 with
      | none => none
      | some (bs, p) =>
        if s.homed (s.readAddr pa) && s.lineWaits (lineOf (s.readAddr pa)) then none else
        let ws : List DWord := (List.range 8).map fun i => BitVec.ofNat 64 (leNat ((bs.drop (8 * i)).take 8))
        (startStatus s n x.ctx ws p).map fun st => ⟨x.block, some pa, head, ws, x.ctx, st, [], false⟩

/-- The encoder of a slot is at work. -/
def encoderBusy (s : State) (n : Nat) : Bool :=
  n ≥ 16 && (List.range 4).any fun k => match (s.chainSlot (n / 4 * 4 + k)).job with
    | some j => j.status.isNone
    | none => false

/-- The slot of an encoder that is served next: round-robin over those whose entry can start. -/
def encoderTurn (s : State) (n : Nat) : Bool :=
  n < 16 || (let last := s.eng.served.getD (60 + n / 4) 3
    ((List.range 4).map fun i => n / 4 * 4 + (last + 1 + i) % 4).find? (fun m => (nextJob s m).isSome) == some n)

/-- An entry can start. -/
def entryStartReady (s : State) (n : Nat) : Bool := n < 48 && (nextJob s n).isSome && !encoderBusy s n && encoderTurn s n

/-- The words of an entry. -/
def entryWords (bs : List Byte) : List DWord := (List.range 8).map fun i => BitVec.ofNat 64 (leNat ((bs.drop (8 * i)).take 8))

/-- Ask for the entry at the head, or for the sync word in an image that it awaits, when it lies at another package. -/
def entryAsk (s : State) (n : Nat) : State :=
  match entryPlace s n with
  | .error _ => s
  | .ok pa => match s.poolRead (s.readAddr pa) 64 with
    | none => s.poolAsk (s.readAddr pa) 64
    | some (bs, _) => ((entrySpot s (entryWords bs)).map (imageAsk s · 16)).getD s

/-- CHAIN_ENTRY_START: a copy entry enters the requests of its die's engines, an encode entry is taken by its encoder. -/
def entryStartEffect (s : State) (n : Nat) (j : ChainJob) : State :=
  let s := (s.poolDrop j.block 64).readThrough (if s.homed j.block then [lineOf j.block] else [])
  let s := match j.entry with
    | some x =>
      let pa := s.readAddr x
      let s := (s.poolDrop pa 64).readThrough (if s.homed pa then [lineOf pa] else [])
      ((entrySpot s j.words).map (imageDrop s · 16)).getD s
    | none => s
  let s := s.onChain n fun x => { x with job := some j }
  let s := if n ≥ 16 then { s with eng := { s.eng with served := s.eng.served.insert (60 + n / 4) (n % 4) } } else s
  if j.status.isNone && n < 16 then
    let (id, s) := s.take
    { s with eng := { s.eng with copy := s.eng.copy ++ [chainCommand id n j.ctx j.words] } }
  else s

/-- An idle slot looks at a control block that another package is home of: it asks for it, or forgets what came. -/
def lookAgain (s : State) (n : Nat) : State :=
  let block := (s.chainSlot n).block
  if (s.poolRead block 64).isSome then s.poolDrop block 64 else s.poolAsk block 64

def execChainEntryStart (slot : Nat) (s : State) : Host.Outcome State Fault Refusal :=
  .next (if entryStartReady s slot then
      match nextJob s slot with
      | some j => entryStartEffect s slot j
      | none => s
    else if chainPending s slot then (if blockBad s (s.chainSlot slot).block then s else entryAsk s slot)
    else if slotIdle s slot then lookAgain s slot
    else s)

/-! ENCODE_FRAME_COMPLETE (R203). -/

/-- The lines of a range that this package is home of, as an engine reads them. -/
def engineLines (s : State) (ctx va n : Nat) : List Nat :=
  (pagePieces va n).flatMap fun (a, m) => match enginePage s ctx a 0 with
    | .ok e => if s.homed (s.readAddr (e, a)) then granules 128 (s.readAddr (e, a)) m else []
    | .error _ => []

/-- A page of a range lies on a failed slice, and is not of the mirror class: its address (R122). -/
def engineLost (s : State) (ctx va n : Nat) : Option Nat :=
  (pagePieces va n).findSome? fun (a, _) => match enginePage s ctx a 0 with
    | .ok e => if s.homed (e.at a) && s.dieDead (e.at a) && !e.mirror then some (e.at a) else none
    | .error _ => none

/-- Bytes at a virtual address of a context, page by page: none while some have not come from their home. -/
def engineRead (s : State) (ctx va n : Nat) : Option (List Byte × Bool) :=
  if (engineLines s ctx va n).any s.lineWaits then none
  else (pagePieces va n).foldl (fun acc (a, m) =>
    match acc, enginePage s ctx a 0 with
    | some (bs, p), .ok e => (s.poolRead (s.readAddr (e, a)) m).map fun r => (bs ++ r.1, p || r.2)
    | some (bs, p), .error _ => some (bs ++ List.replicate m 0, p)
    | none, _ => none) (some ([], false))

/-- Ask for the bytes of a range that lie at other packages. -/
def engineAsk (s : State) (ctx va n : Nat) : State :=
  (pagePieces va n).foldl (fun s (a, m) => match enginePage s ctx a 0 with
    | .ok e => s.poolAsk (e.at a) m
    | .error _ => s) s

/-- The number by which the writes of a chain slot's entry are acknowledged (R193). -/
def chainTag (slot : Nat) : Nat := 2 ^ 65 + slot

/-- Send a write of a slot's entry to another package; the entry waits for its acknowledgement (R149). -/
def sendFor (s : State) (slot pa kind : Nat) (mirror : Bool) (bs : List (Byte × Bool)) : State :=
  let pkg := s.homePackage pa
  (s.onChain slot fun x => { x with job := x.job.map fun j => { j with acks := j.acks ++ [pkg] } }).send pkg false
    (.write s.cfg.pkg (chainTag slot) pa kind mirror bs none)

/-- Write bytes at a virtual address of a slot's context; `mark` says which 32-byte sectors arrive poisoned. -/
def engineWrite (s : State) (slot ctx va : Nat) (bs : List Byte) (mark : Nat → Bool) : State :=
  (granules 32 va bs.length).foldl (fun s k =>
    let a := max va (32 * k)
    let part := (bs.drop (a - va)).take (32 * k + 32 - a)
    match enginePage s ctx a 1 with
    | .error _ => s
    | .ok e =>
      let pa := e.at a
      if !s.homed pa then sendFor s slot pa e.kind e.mirror (part.map (·, mark k))
      else
        let s := s.hwWrite pa part (mark k)
        if e.mirror then s.hwWrite (mirrorPartner pa) part (mark k) else s) s

/-- A list cut or filled with 0 to n bytes. -/
def fitBytes (n : Nat) (bs : List Byte) : List Byte := bs.take n ++ List.replicate (n - bs.length) 0

/-- The temporal unit of a frame: its bytes are the encoder's own; it holds at least 16 and at most W·H·d + 1,024 bytes (R203). -/
def temporalUnit (f : Frame') (ps : List Nat) (luma chroma state : List Byte) : List Byte :=
  let raw := Config.av1Unit ps luma chroma state
  let most := f.width * f.height * 3 / (if f.deep then 1 else 2) + 1024
  fitBytes (max 16 (min most raw.length)) raw

/-- The lowest status with which a slot's entry ends, if none stands yet. -/
def endEntry (s : State) (n st : Nat) : State :=
  s.onChain n fun x => { x with job := x.job.map fun j => { j with status := some (lowStatus st (j.status.getD 0)) } }

/-- A contain-class error ends an entry (R122, R188, R264). -/
def loseEntry (s : State) (n ctx pa : Nat) : State := (endEntry s n 8).containContext ctx pa

/-- The first eight bytes of the header of a state that holds this frame (R203). -/
def Frame'.header (f : Frame') : Nat := 1 + (if f.deep then 2 else 0) + 4 * (f.width / 8) + 2048 * (f.height / 8)

/-- The end of a frame: the unit with its length, then the header; a unit that would pass the limit writes nothing of itself and clears
the held bit (R203). The status is set for the entry's completion. A held state whose header has reserved bits is rejected (R10; DEDUCED,
log 50), and a state that holds nothing counts from 0. -/
def encodeEffect (s : State) (n : Nat) (j : ChainJob) (luma chroma state : List Byte) (poison : Bool) : State :=
  let f := encodeFields j.words
  let head := leNat (state.take 8)
  let held := head.testBit 0
  let count := if held then leNat ((state.drop 8).take 8) else 0
  let key := f.key || !held || bits 19 0 head != f.header
  let ps := [f.width, f.height, if f.deep then 1 else 0, if key then 1 else 0, f.columns, f.index]
  let before := if held then state else []
  let unit := temporalUnit f ps luma chroma before
  if held && head / 2 ^ 20 != 0 then endEntry s n 5
  else if 4 + unit.length > f.limit then endEntry (engineWrite s n j.ctx f.state (leBytes 8 (head - head % 2)) fun _ => false) n 9
  else match engineLost s j.ctx f.out (4 + unit.length) with
  | some pa => loseEntry s n j.ctx pa
  | none =>
    let (t, s) := s.take
    let mark (k : Nat) : Bool := poison && Config.av1Poison t k
    let s := engineWrite s n j.ctx f.out (leBytes 4 unit.length ++ unit) mark
    let rest := fitBytes (f.stateSize - 16) (Config.av1State ps luma chroma before)
    let s := engineWrite s n j.ctx (f.state + 16) rest mark
    endEntry (engineWrite s n j.ctx f.state (leBytes 8 f.header ++ leBytes 8 ((count + 1) % 2 ^ 64)) fun _ => false) n (if poison then 10 else 0)

/-- What a frame in progress reads: luma, chroma, the stream state, and whether a byte is poisoned. -/
def encodeInputs (s : State) (j : ChainJob) : Option (List Byte × List Byte × List Byte × Bool) :=
  let f := encodeFields j.words
  let plane (rows : List Nat) : Option (List Byte × Bool) := rows.foldl (fun acc a =>
    match acc, engineRead s j.ctx a f.row with
    | some (bs, p), some (r, q) => some (bs ++ r, p || q)
    | _, _ => none) (some ([], false))
  match plane (f.rows.take f.height), plane (f.rows.drop f.height), engineRead s j.ctx f.state f.stateSize with
  | some (l, p), some (c, q), some (st, r) => some (l, c, st, p || q || (r && st.head?.any (·.getLsbD 0)))
  | _, _, _ => none

/-- An encoder works on a frame of a slot. -/
def encodeRunning (s : State) (n : Nat) : Option ChainJob :=
  match (s.chainSlot n).job with
  | some j => if n ≥ 16 && j.status.isNone then some j else none
  | none => none

def execEncodeFrameComplete (slot : Nat) (s : State) : Host.Outcome State Fault Refusal :=
  .next (match encodeRunning s slot with
    | none => s
    | some j =>
      let f := encodeFields j.words
      let ranges := f.rows.map (·, f.row) ++ [(f.state, f.stateSize)]
      match ranges.findSome? fun x => engineLost s j.ctx x.1 x.2 with
      | some pa => loseEntry s slot j.ctx pa
      | none => match encodeInputs s j with
      | some (l, c, st, p) => encodeEffect (s.readThrough (ranges.flatMap fun x => engineLines s j.ctx x.1 x.2).dedup) slot j l c st p
      | none => engineAsk (f.rows.foldl (fun s a => engineAsk s j.ctx a f.row) s) j.ctx f.state f.stateSize)

/-! CHAIN_ENTRY_COMPLETE (R199). -/

/-- The copy command of a host slot. -/
def slotCommand (s : State) (n : Nat) : Option CopyCmd := s.eng.copy.find? fun c => c.slot == some n

/-- The status with which the entry of a slot ends, once it has. -/
def entryStatus (s : State) (n : Nat) : Option (ChainJob × Nat) :=
  match (s.chainSlot n).job with
  | none => none
  | some j => if !j.acks.isEmpty then none else match j.status, slotCommand s n with
    | some st, _ => some (j, st)
    | none, some c => (finalStatus s c).map fun st => (j, st)
    | none, none => none

/-- The status byte of an entry (R198): in its page here, or on its way to its home. -/
def entryStatusEffect (s : State) (n : Nat) (j : ChainJob) (st : Nat) : State :=
  let s := s.onChain n fun x => { x with job := some { j with posted := true } }
  match j.entry with
  | none => s
  | some (e, va) =>
    let pa := e.at va + 63
    if s.homed pa then s.pageWrite e (va + 63) [BitVec.ofNat 8 st]
    else
      let s := sendFor s n pa e.kind e.mirror [(BitVec.ofNat 8 st, false)]
      if e.mirror then sendFor s n (mirrorPartner pa) e.kind e.mirror [(BitVec.ofNat 8 st, false)] else s

/-- CHAIN_ENTRY_COMPLETE, its second part: once the status byte is performed, the sequence number and the head; 0x05 and 0x06 stop the chain instead (R197, R199). -/
def entryCompleteEffect (s : State) (n : Nat) (j : ChainJob) (st : Nat) : State :=
  let seq := s.blockField j.block 32 8
  let s := if st == 5 || st == 6 then s.poolWrite (j.block + 40) (leBytes 8 (1 + 256 * st + 65536 * (j.index % 65536)))
    else (s.poolWrite (j.block + 32) (leBytes 8 ((seq + 1) % 2 ^ 64))).poolWrite (j.block + 16) (leBytes 8 ((j.index + 1) % 2 ^ 32))
  let s := { s with eng := { s.eng with copy := s.eng.copy.filter fun c => c.slot != some n } }
  s.onChain n fun x => { x with job := none }

/-- CHAIN_ENTRY_COMPLETE: the status byte, and, once it and the control block's number can be read, the end of the entry. -/
def completeEntry (s : State) (n : Nat) (j : ChainJob) (st : Nat) : State :=
  let s := if j.posted then s else entryStatusEffect s n j st
  if !((s.chainSlot n).job.map fun j => j.acks.isEmpty).getD true then s
  else if (s.poolRead j.block 64).isNone then s.poolAsk j.block 64
  else entryCompleteEffect s n j st

def execChainEntryComplete (slot : Nat) (s : State) : Host.Outcome State Fault Refusal :=
  .next (match entryStatus s slot with
    | some (j, st) => completeEntry s slot j st
    | none => s)

end Sys2Proof.Machine
end

