-- ==== Sys2Proof/Machine/Contain.lean ====
section
/-! DEFINITION. The failure of home slices: the takeover by the buddy die and contain-class errors (spec/05_package_memories.md R120 to
R122; spec/11_events.md R262 to R264). -/

namespace Sys2Proof.Machine

/-- The slices of a die. -/
def dieSlices (die : Nat) : BitVec 128 := BitVec.ofNat 128 ((2 ^ 32 - 1) * 2 ^ (32 * die))

/-- The page of an access is of the mirror class. -/
def MemOp.mirrored : MemOp → Bool
  | .load o => o.mirror
  | .write o => o.mirror

/-- The context of an agent's access. -/
def agentCtx (s : State) : Agent → Option Nat
  | .thread c sl n _ => (s.warpAt (warpKey c sl n)).map (·.ctx.toNat)
  | .engine id => (s.cmd id).map (·.ctx)
  | _ => none

/-- A contain-class error reaches the context of an access (R264). -/
def containAgent (s : State) (a : Agent) (pa : Nat) : State :=
  match agentCtx s a with
  | some ctx => s.containContext ctx pa
  | none => s

/-- What counts toward a sync word behind a write that is not performed is not counted (R236). -/
def dropArrivals (s : State) (id : Nat) : State :=
  { s with eng := { s.eng with arrivals := s.eng.arrivals.filter fun (a : Arrival) => !a.after.contains id } }

/-- The error of a thread's store or atomic: an imprecise store fault; an atomic's lanes take poison (R122, R255, R262). -/
def failThreadWrite (s : State) (id k : Nat) (w : WriteOp) : State :=
  let wg := match s.warpAt k with
    | some x => if x.lsn == w.lsn then x.wg else 2 ^ 64
    | none => 2 ^ 64
  let s := if w.atom.isSome then deliver s w.agent id w.lanes w.dest (valueWords w.data.length 0 true) else s
  { s with faults := s.faults ++ [⟨k, wg, w.pa, w.pc, w.lsn, w.depth, w.ctx, false⟩] }

/-- An access to a contain-class line of a failed slice ends in error: poison for a load, a fault for a store or atomic, a status for an
engine command (R122). -/
def failOp (s : State) (id : Nat) (o : MemOp) : State :=
  let s := s.dropOp id
  match o with
  | .load l =>
    if l.prefetch then s
    else containAgent (deliver s l.agent id l.lanes l.dest (loadWords l.code (List.replicate l.size 0) fun _ => true)) l.agent l.pa
  | .write w =>
    let s := dropArrivals s id
    let s := match w.agent with
      | .thread c sl n _ => failThreadWrite s id (warpKey c sl n) w
      | .engine c => s.failCmd c 8
      | .remote src tag =>
        let fail (r : RemoteWrite) : RemoteWrite := if r.src == src && r.tag == tag then { r with status := lowStatus r.status 8 } else r
        { s with fab := { s.fab with remote := s.fab.remote.map fail } }
      | _ => s
    containAgent s w.agent w.pa

/-- The recorded result of an atomic that has been applied already: its tag is the last recorded one of its line (R121). -/
def recordedResult (s : State) (id : Nat) (w : WriteOp) : Option (List PWord) :=
  if w.atom.isNone then none
  else match s.mem.atomTags.find (lineOf w.pa) with
    | some (tag, vs) => if tag == id then some vs else none
    | none => none

/-- An access to a mirror-class line of a failed slice is tried again at the buddy die; an atomic that was applied there returns the recorded
result (R121). -/
def retryOp (s : State) (id : Nat) (o : MemOp) : State :=
  match o with
  | .load l => s.onOp id fun _ => .load { l with pa := mirrorPartner l.pa }
  | .write w => match recordedResult s id w with
    | some vs => (deliver s w.agent id w.lanes w.dest vs).dropOp id
    | none => s.onOp id fun _ => .write { w with pa := mirrorPartner w.pa, stage := .port }

/-- The end of an access at a failed slice. -/
def settleOp (s : State) (x : Nat × MemOp) : State :=
  if x.2.mirrored && !s.dieDead (mirrorPartner x.2.pa) then retryOp s x.1 x.2 else failOp s x.1 x.2

/-- A write that was applied before its slice failed: at a mirror-class line both copies hold it, and it is acknowledged (R120, R121). -/
def settleApplied (s : State) (id : Nat) : State :=
  match s.mem.ops.find id with
  | some o => if o.mirrored then s.dropOp id else failOp s id o
  | none => s

/-- Accesses that wait on a failed slice. -/
def deadOps (s : State) : List (Nat × MemOp) := s.mem.ops.filter fun x => s.dieDead x.2.pa

/-- Settle every access at a failed slice. -/
def settleDead (s : State) : State := (deadOps s).foldl settleOp s

/-- The slices fail: what they and the L1s hold of their lines is gone, and the buddy die serves the mirror-class lines from now on (R121,
R263). -/
def failSlices (s : State) (mask : BitVec 128) (pa : Nat) : State :=
  if mask &&& ~~~s.cfg.deadSlices == 0 then s
  else
    let s := { s with cfg := { s.cfg with deadSlices := s.cfg.deadSlices ||| mask } }
    let dead (line : Nat) : Bool := s.cfg.deadSlices.getLsbD (sliceOfLine line)
    let lost := s.mem.updates.filter fun (x : Nat × Update) => dead x.2.line
    let s := { s with mem := { s.mem with
      l2 := s.mem.l2.filter fun (x : Nat × L2Line) => !dead x.1
      queue := s.mem.queue.filter fun (e : QueueEntry) => !dead e.line
      updates := s.mem.updates.filter fun (x : Nat × Update) => !dead x.2.line
      notices := s.mem.notices.filter fun (x : Nat × Nat) => !dead x.2 } }
    let s := (s.mem.l1.filter fun (x : Nat × L1Line) => dead (x.1 % 2 ^ 45)).foldl
      (fun (s : State) x => s.loseL1 (x.1 / 2 ^ 45) (x.1 % 2 ^ 45) false) s
    let s := (lost.flatMap fun x => x.2.writes).foldl settleApplied s
    settleDead (reportSystem s { Report.blank 0x24 with addr := pa })

/-- The lines that the copy engines read next, of those that this package is home of. -/
def engineReads (s : State) : List Nat :=
  s.eng.copy.filterMap fun c =>
    if c.engine.isSome && c.live s && c.kind != 5 && c.moved < c.srcTotal then
      match s.place c c.src (if c.kind == 6 && c.phase == 0 then 0 else c.from' c.moved) 0 with
      | .ok (.pool pa _ _) => if s.homed pa then some (lineOf pa) else none
      | _ => none
    else none

/-- The lines that the encoders read for the frames in progress. -/
def encoderReads (s : State) : List Nat :=
  (s.eng.slots.filterMap fun x => (encodeRunning s x.1).map fun j =>
    let f := encodeFields j.words
    (f.rows.map (·, f.row) ++ [(f.state, f.stateSize)]).flatMap fun y => engineLines s j.ctx y.1 y.2).flatten

/-- The lines that the walkers read for the walks in progress. -/
def walkReads (s : State) : List Nat := s.mem.walks.flatMap fun w => if w.host then [] else s.walkPath w.asid (4096 * w.page)

/-- A transaction waits on a line: an access, a fetch, or a read of an engine, an encoder or a walker. -/
def lineAwaited (s : State) (line : Nat) : Bool :=
  s.mem.ops.any (fun x => lineOf x.2.pa == line) || (s.mem.fetches.filterMap (fetchLine s)).contains line ||
    (engineReads s).contains line || (walkReads s).contains line || (encoderReads s).contains line

/-- HOME_TIMEOUT can take place: a transaction waits on a line of the die, and no link of the die is held (R121, R406). -/
def timeoutReady (s : State) (die pa : Nat) : Bool :=
  die < 4 && hashDie (placementHash (frameOf pa)) == die && lineAwaited s (lineOf pa) &&
    !((linksOf die).any fun j => (s.links.getD j DieLink.init).closed)
where
  linksOf (die : Nat) : List Nat := match die with
    | 0 => [0, 2, 4]
    | 1 => [0, 3]
    | 2 => [1, 2, 5]
    | _ => [1, 3]

/-- HOME_TIMEOUT: the buddy die takes over the mirror-class lines, and the other accesses end in error (R121, R122, R263). -/
def timeoutEffect (s : State) (die pa : Nat) : State :=
  if s.dieDead pa then settleDead s else failSlices (s.requestReplacement 2) (dieSlices die) pa

def execHomeTimeout (die pa : Nat) (s : State) : Host.Outcome State Fault Refusal :=
  .next (if timeoutReady s die pa then timeoutEffect s die pa else s)

/-- INSTRUCTION_CACHE_FILL: a fetch that meets a failed slice reaches its context as a contain-class error (R122, R264). -/
def fetchFillEffect (s : State) (core asid line : Nat) : State :=
  let t := iFillEffect s core asid line
  match fetchLine s (core, asid, line) with
  | some p => if s.dieDead (128 * p) then t.containContext asid (128 * p) else t
  | none => t

def execInstructionCacheFill (core asid line : Nat) (s : State) : Host.Outcome State Fault Refusal :=
  .next (if iFillReady s core asid line then fetchFillEffect s core asid line else s)

end Sys2Proof.Machine
end

