-- ==== Sys2Proof/Machine/Launch.lean ====
section
/-! DEFINITION. Launches: reading a launch record and the bough chain, the effective fields, the refusals (spec/09_tables.md R214 to R217;
spec/01 R12, R14, R34; spec/07 R153, R162). -/

namespace Sys2Proof.Machine

/-! Bough control blocks (R214, R215). -/

/-- What reading of the launch's tables gives: the value, a refusal with its status, or bytes at a physical address that are on their way
from another package. -/
inductive Formed (α : Type) where
  | ok (a : α)
  | refuse (status : Nat)
  | ask (pa n : Nat)

/-- A bough control block, with its address. -/
structure Block where
  addr : Nat
  words : List DWord

def Block.word (b : Block) (i : Nat) : Nat := (b.words.getD i 0).toNat

/-- Read n bytes of a page at a virtual address as the launch's context may read them: 0x06 when the address fails, 0x05 for poison
(R215). -/
def readLaunch (s : State) (ctx va n : Nat) : Formed (List DWord) :=
  if va ≥ 2 ^ 57 then .refuse 6
  else match s.walk ctx va with
    | .leaf e =>
      let pa := e.at va
      if !accessAllowed e 0 false || !s.backed pa then .refuse 6
      else match s.poolRead (if s.homed pa then s.locate e va else pa) n with
        | none => .ask pa n
        | some (bs, p) =>
          if p then .refuse 5 else .ok ((List.range (n / 8)).map fun i => BitVec.ofNat 64 (leNat ((bs.drop (8 * i)).take 8)))
    | _ => .refuse 6

/-- The blocks from one up to the root, at most `n` of them (R215). -/
def readBlocks (s : State) (ctx : Nat) : Nat → Nat → Formed (List Block)
  | 0, _ => .refuse 5
  | n + 1, addr =>
    if addr % 64 != 0 then .refuse 5
    else match readLaunch s ctx addr 64 with
      | .refuse st => .refuse st
      | .ask pa m => .ask pa m
      | .ok ws =>
        let b : Block := ⟨addr, ws⟩
        if b.word 0 == 0 then .ok [b]
        else match readBlocks s ctx n (b.word 0) with
          | .ok bs => .ok (b :: bs)
          | x => x

/-- A reserved field of a block is not 0, or a field lies outside its limits (R10, R214). -/
def Block.bad (b : Block) : Bool :=
  let w1 := b.word 1
  let w3 := b.word 3
  let w4 := b.word 4
  bits 7 7 w1 != 0 || bits 15 12 w1 != 0 || bits 63 27 w1 != 0 || bits 63 24 w3 != 0 || bits 23 16 w3 > 128 || bits 15 6 w4 != 0 ||
    bits 63 30 w4 != 0 || bits 29 24 w4 > 32 || b.word 6 % 64 != 0 || bits 63 4 (b.word 7) != 0

/-- A chain, from a grid's bough to the root, is malformed: a depth, an identifier or a block (R215). -/
def chainBad (ctx : Nat) (bs : List Block) : Bool :=
  bs.zipIdx.any fun (b, i) => b.bad || bits 11 8 (b.word 1) != bs.length - 1 - i || bits 26 16 (b.word 1) != ctx

/-- The system fault domain: handler, ring and ring size, 0 when the configuration record names none, or its block is poisoned (R215). -/
def systemDomain (s : State) : DWord × DWord × Nat :=
  match s.poolRead (s.cfg.sysDomain + 40) 24 with
  | some (bs, false) =>
    if s.cfg.sysDomain = 0 then (0, 0, 0)
    else
      let f (o : Nat) : Nat := leNat ((bs.drop o).take 8)
      (BitVec.ofNat 64 (f 0), BitVec.ofNat 64 (f 8), bits 3 0 (f 16))
  | _ => (0, 0, 0)

/-- The system fault domain's block has not come from the package that is its home. -/
def systemAway (s : State) : Bool := s.cfg.sysDomain != 0 && (s.poolRead (s.cfg.sysDomain + 40) 24).isNone

/-- The defaults above a root (R215). -/
def rootDefaults (s : State) : BoughEff :=
  let (h, r, l) := systemDomain s
  ⟨0, 16384, 16384, 8192, 128, 0, false, false, 0, 32, h, r, l, true⟩

/-- The effective fields of a block, from those above it (R215). -/
def Block.apply (b : Block) (v : BoughEff) : BoughEff :=
  let o (i : Nat) : Bool := (b.word 1).testBit i
  let w4 := b.word 4
  { bough := b.addr
    regCap := if o 0 then min v.regCap (bits 31 0 (b.word 2)) else v.regCap
    scrCap := if o 0 then min v.scrCap (bits 63 32 (b.word 2)) else v.scrCap
    tileCap := if o 0 then min v.tileCap (bits 15 0 (b.word 3)) else v.tileCap
    coreCap := if o 0 then min v.coreCap (bits 23 16 (b.word 3)) else v.coreCap
    priority := if o 1 then bits 3 0 w4 else v.priority
    handler := if o 2 then BitVec.ofNat 64 (b.word 5) else v.handler
    ring := if o 2 then BitVec.ofNat 64 (b.word 6) else v.ring
    ringLog := if o 2 then bits 3 0 (b.word 7) else v.ringLog
    sysDomain := v.sysDomain && !o 2
    compat := if o 3 then w4.testBit 4 else v.compat
    protect := v.protect || (o 4 && w4.testBit 5)
    quota := if o 5 then bits 23 16 w4 else v.quota
    share := if o 6 then min v.share (bits 29 24 w4) else v.share }

/-- The effective fields of a chain, from the grid's bough to the root. -/
def effectiveChain (s : State) : List Block → List BoughEff
  | [] => []
  | b :: bs =>
    match effectiveChain s bs with
    | [] => [b.apply (rootDefaults s)]
    | v :: vs => b.apply v :: v :: vs

/-! Launch records (R216). -/

/-- The number of work-groups of a launch (R13). -/
def recordCount (ws : List DWord) : Nat :=
  let w := (ws.getD 2 0).toNat
  bits 31 0 w * bits 47 32 w * bits 63 48 w

/-- A field of a record lies outside its limits (R216). -/
def recordBad (ws : List DWord) : Bool :=
  let w (i : Nat) : Nat := (ws.getD i 0).toNat
  recordCount ws == 0 || w 1 % 4 != 0 || w 1 ≥ 2 ^ 57 || recordGang ws == 1 || recordSize ws > 4 || recordScratch ws > 128 ||
    recordTiles ws > 64 || recordExch ws > 16 || (recordGang ws == 0 && recordExch ws != 0) || bits 63 40 (w 3) != 0 || w 6 ≥ 2 ^ 57 ||
    w 7 ≥ 2 ^ 57 || w 8 ≥ 2 ^ 57 || bits 63 32 (w 9) != 0 || w 10 % 16 != 0 || w 11 % 4096 != 0 || bits 63 11 (w 12) != 0 ||
    w 13 != 0 || w 14 != 0 || w 15 != 0

/-- A launch's shape is refused: R14 or R34 is broken (R216). -/
def shapeBad (ws : List DWord) (protect : Bool) : Bool :=
  (recordGang ws ≥ 2 && (recordCount ws % recordGang ws != 0 || recordGang ws > 32)) || (protect && recordThreads ws > 256)

/-- The grid that a record launches, or its refusal (R208, R215, R216, R379). -/
def formGrid (s : State) (r : LaunchRecord) (launch : Option Nat) : Formed Grid :=
  if recordBad r.words || (s.rootTable r.ctx).isNone then .refuse 5
  else if systemAway s then .ask (s.cfg.sysDomain + 40) 24
  else match readBlocks s r.ctx 16 (r.words.getD 0 0).toNat with
    | .refuse st => .refuse st
    | .ask pa n => .ask pa n
    | .ok bs =>
      if chainBad r.ctx bs then .refuse 5
      else
        let chain := effectiveChain s bs
        let eff := chain.headD (rootDefaults s)
        let outside := match r.within with
          | some b => !(bs.any fun x => x.addr == b)
          | none => false
        if outside then .refuse 5
        else if shapeBad r.words eff.protect then .refuse 4
        else .ok { record := r.words, ctx := BitVec.ofNat 11 r.ctx, eff := eff, chain := chain, job := r.job, failed := false, addr := r.addr,
                   launch := launch, dropped := false, seen := 0, hashes := [], owner := r.owner }

/-! LAUNCH_RECORD_TAKE. -/

def State.level (s : State) (n : Nat) : Level := s.dist.levels.getD n Level.init

def State.onLevel (s : State) (n : Nat) (f : Level → Level) : State :=
  { s with dist := { s.dist with levels := s.dist.levels.alter n f Level.init } }

/-- Enter a grid with all its work-groups into the queue of a distributor. -/
def enterGrid (s : State) (level : Nat) (g : Grid) (rack : Bool) : State :=
  let n := s.work.grids.fresh
  let g := if rack then { g with launch := some n } else g
  let c : Chunk := ⟨n, [], 0, recordCount g.record, !rack, none, [], 0⟩
  let s := { s with
    work := { s.work with grids := s.work.grids.insert n g }
    dist := { s.dist with remaining := s.dist.remaining.insert n (recordCount g.record) } }
  s.onLevel level fun l => { l with queue := l.queue ++ [c] }

/-- What has come from other packages has been used. -/
def clearBuffer (s : State) : State := { s with fab := { s.fab with buffer := [] } }

/-- A distributor takes a record: the grid enters its queue, or its completion record says why not (R215, R216). `took` is the state in
which the record has left its queue. -/
def takeRecord (s took : State) (r : LaunchRecord) (level : Nat) (rack : Bool) : State :=
  match formGrid s r none with
  | .ask pa n => s.poolAsk pa n
  | .refuse st =>
    launchEnded (writeCompletion (clearBuffer took) r.ctx (r.words.getD 10 0).toNat st) r.job r.owner
  | .ok g => enterGrid (clearBuffer took) level g rack

/-- The record at the head of the rack command queue, which this package's rack root serves (R429): none while it is not published, or on
its way here. -/
def rackPlace (s : State) : Nat := s.dist.rackBase + 128 * (s.dist.rackHead % 2 ^ s.dist.rackLog)

/-- The rack root may take a record: it is published, the queue has room, and the package has started (R96, R425, R429). -/
def rackReady (s : State) : Bool :=
  s.rackRoot == s.cfg.pkg && s.dist.rackBase != 0 && s.dist.published.contains s.dist.rackHead && (s.level 0).queue.length < 4096 &&
    s.cfg.spillBase != 0 && s.att.stage == 2

def rackTake (s : State) : State :=
  match s.poolRead (rackPlace s) 128 with
  | none => s.poolAsk (rackPlace s) 128
  | some (bs, p) =>
    let ws : List DWord := (List.range 16).map fun i => BitVec.ofNat 64 (leNat ((bs.drop (8 * i)).take 8))
    let (within, owner) := s.dist.origins.getD s.dist.rackHead (none, none)
    let took := { s.poolDrop (rackPlace s) 128 with
      dist := { s.dist with
        rackHead := s.dist.rackHead + 1, published := s.dist.published.erase s.dist.rackHead
        origins := s.dist.origins.erase s.dist.rackHead } }
    let ctx := bits 10 0 (ws.getD 12 0).toNat
    if p then launchEnded (writeCompletion took ctx (ws.getD 10 0).toNat 5) none owner
    else takeRecord s took ⟨ws, ctx, rackPlace s, within, none, owner⟩ 0 true

/-- The package distributor takes the oldest record of its own queue. -/
def packageTake (s : State) : State :=
  match s.dist.records with
  | [] => s
  | r :: rs => takeRecord s { s with dist := { s.dist with records := rs } } r 2 false

/-- LAUNCH_RECORD_TAKE: source 0 is the package's own queue (`spawn`, contract releases), source 1 the rack command queue. -/
def execLaunchRecordTake (source : Nat) (s : State) : Host.Outcome State Fault Refusal :=
  .next (match source with
    | 0 => packageTake s
    | 1 => if rackReady s then rackTake s else s
    | _ => s)

/-! Parts of a grid from other packages. -/

/-- A grid keeps the placement hashes that come with its work-groups (R15). -/
def Grid.withHashes (g : Grid) (hs : List (Nat × BitVec 16)) : Grid :=
  { g with hashes := hs.foldl (fun m x => m.insert x.1 x.2) g.hashes }

/-- The grid of a chunk that comes from another package: known here, or formed from its record. -/
def partGrid (s : State) (c : GivenChunk) : Formed (Nat × State) :=
  match s.work.grids.find? fun x => x.2.launch == some c.launch with
  | some (n, g) => .ok (n, { s with work := { s.work with grids := s.work.grids.insert n (g.withHashes c.hashes) } })
  | none => match formGrid s ⟨c.record, c.ctx, c.addr, c.within, none, c.owner⟩ (some c.launch) with
    | .ok g =>
      let n := s.work.grids.fresh
      .ok (n, clearBuffer { s with work := { s.work with grids := s.work.grids.insert n (g.withHashes c.hashes) } })
    | .refuse st => .refuse st
    | .ask pa n => .ask pa n

end Sys2Proof.Machine
end

