-- ==== Sys2Proof/Machine/Distribute.lean ====
section
/-! DEFINITION. The distributors: order, routing and passing down (spec/07_work_queues.md R153 to R157). Level 0 is the rack root's, 1 the
tray's, 2 the package's and 3 + d die d's. -/

namespace Sys2Proof.Machine

/-! Placement hashes (R110, R155). -/

/-- The spread-mode hash of an id. -/
def spreadHash (id : Nat) : Nat := bits 15 0 id ^^^ bits 31 16 id ^^^ bits 47 32 id ^^^ bits 63 48 id

/-- The placement hash of a work-group id of a grid. -/
def Grid.hash (s : State) (g : Grid) (id : Nat) : Nat :=
  if bits 15 15 (g.record.getD 3 0).toNat == 1 then spreadHash id
  else
    let va := ((g.record.getD 4 0).toNat + id * (g.record.getD 5 0).toNat) % 2 ^ 64
    match (if va < 2 ^ 57 then s.walk g.ctx.toNat va else .invalid) with
    | .leaf e => if s.backed (e.at va) then placementHash (frameOf (e.at va)) else spreadHash id
    | _ => spreadHash id

/-- The work-groups that travel together: a gang, or one. -/
def Grid.unit (g : Grid) : Nat := max 1 (recordGang g.record)

/-- The hash of the unit of an id (R155): the one that its work-groups carry since they were first routed (R15), else the one that the
record gives. -/
def Grid.unitHash (s : State) (g : Grid) (id : Nat) : Nat :=
  let first := id / g.unit * g.unit
  match g.hashes.find first with
  | some h => h.toNat
  | none => g.hash s first

/-- The work-groups of a unit carry its hash from now on (R15). -/
def keepHash (s : State) (grid : Nat) (g : Grid) (id : Nat) : State :=
  { s with work := { s.work with grids := s.work.grids.adjust grid fun x =>
      { x with hashes := x.hashes.insert (id / g.unit * g.unit) (BitVec.ofNat 16 (g.unitHash s id)) } } }

/-- A unit has been placed: its work-groups hold the hash themselves. -/
def dropHash (s : State) (grid : Nat) (g : Grid) (id : Nat) : State :=
  { s with work := { s.work with grids := s.work.grids.adjust grid fun x => { x with hashes := x.hashes.erase (id / g.unit * g.unit) } } }

/-! Order (R156). -/

/-- The active job that a grid runs under: the contract of the nearest bough (R12), and its deadline. -/
def activeJob (s : State) (g : Grid) : Option (Nat × Contract × Nat) :=
  match g.contract s with
  | none => none
  | some n => match s.work.contracts.find n with
    | some c => match c.job with
      | some j => if j.active then some (n, c, j.deadline) else none
      | none => none
    | none => none

/-- A contract's job is the running job of its core set (R172). -/
def isRunning (s : State) (n : Nat) (c : Contract) : Bool :=
  match bitCores c.cores with
  | k :: _ => s.runningJob k == some n
  | [] => false

/-- The place of a grid's work in the order of R156: running jobs, other active jobs by deadline, then priorities from 15 down. -/
def gridOrder (s : State) (g : Grid) : Nat × Nat :=
  match activeJob s g with
  | some (n, c, d) => (if isRunning s n c then 0 else 1, d)
  | none => (2, 15 - g.eff.priority)

/-- An entry of a queue with its grid and its order. -/
structure Entry where
  chunk : Chunk
  grid : Grid
  order : Nat × Nat

/-- Insert an entry behind those that go before it. -/
def insertEntry (x : Entry) : List Entry → List Entry
  | [] => [x]
  | y :: ys => if keyBefore x.order y.order then x :: y :: ys else y :: insertEntry x ys

/-- The entries of a queue in the order of R156. -/
def orderedEntries (s : State) (q : List Chunk) : List Entry :=
  (q.filterMap fun c => (s.work.grids.find c.grid).map fun g => (⟨c, g, gridOrder s g⟩ : Entry)).foldl (fun xs x => insertEntry x xs) []

/-! Children (R154). -/

/-- The first die from one on that receives chunks (R436), and that has a core of the set that a contract places on. -/
def liveDie (s : State) (cores : BitVec 128) (d : Nat) : Nat :=
  (((List.range 4).map fun i => (d + i) % 4).find? fun x => !s.att.outDies.contains x && (cores &&& dieSlices x) != 0).getD d

/-- The child of a level that a hash leads to: a tray, a package or a die. -/
def childOf (s : State) (level : Nat) (g : Grid) (h : Nat) : Nat :=
  let pkg := s.cfg.poolTable.getD (h / 512 % 2 ^ s.cfg.pw) 0
  match level with
  | 0 => pkg / 16
  | 1 => pkg
  | _ => liveDie s (match activeJob s g with
      | some (_, c, _) => c.cores
      | none => BitVec.allOnes 128) (hashDie h)

/-- A child's queue takes another chunk: for a child at another package, which takes no flit while its queue is full, its channel says so. -/
def childRoom (s : State) (level child : Nat) : Bool :=
  match level with
  | 0 => if s.trayDistributor child == s.cfg.pkg then (s.level 1).queue.length < 4096 else s.mayPost (s.trayDistributor child) false
  | 1 => if child == s.cfg.pkg then s.packageQueueFree else s.mayPost child false
  | _ => (s.level (3 + child)).queue.length < 512

/-- Nothing more is routed to a child while a closed chunk waits for its queue (R157). -/
def childBlocked (s : State) (level child : Nat) : Bool :=
  !childRoom s level child && (s.level level).closed.any fun x => x.1 == child

/-! WORK_GROUP_ROUTE (R154). -/

/-- The budget that a level has left in this tick. -/
def budgetLeft (s : State) (level : Nat) : Nat :=
  let l := s.level level
  if l.tick == s.clk.ref.toNat then 16 - l.used else 16

/-- Use up budget of this tick. -/
def useBudget (s : State) (level n : Nat) : State :=
  let left := budgetLeft s level
  s.onLevel level fun l => { l with tick := s.clk.ref.toNat, used := 16 - (left - n) }

/-- The next unit of a part: its lowest id, and whether it comes from the ids set aside. -/
def nextUnit (s : State) (level : Nat) (x : Entry) : Option (Nat × Bool) :=
  let g := x.grid.unit
  let firsts := x.chunk.ids.filter fun i => i % g == 0
  match firsts.find? fun i => !childBlocked s level (childOf s level x.grid (x.grid.unitHash s i)) with
  | some i => some (i, true)
  | none => if x.chunk.next < x.chunk.count then some (x.chunk.next, false) else none

/-- The part that a level routes from next (R156): a gang that has begun to take whole budgets goes on (R154). -/
def routeEntry (s : State) (level : Nat) : Option Entry :=
  let xs := orderedEntries s (s.level level).queue
  (xs.find? fun x => 0 < x.chunk.spent).orElse fun _ => xs.find? fun x => (nextUnit s level x).isSome

/-- The work of a grid is discarded at the distributors of this package (R159). -/
def dropsAt (level : Nat) (g : Grid) : Bool := 2 ≤ level && g.dropped

/-- What a unit of g work-groups takes of a level's budget in this tick (R154): it goes, the whole budget is spent on it, or it waits. A gang
of more than 16 goes when the last tick whose budget it took has ended. -/
inductive Fare where
  | go (s : State)
  | pay (s : State)
  | wait

def unitFare (s : State) (level g spent : Nat) : Fare :=
  if g ≤ 16 then if budgetLeft s level < g then .wait else .go (useBudget s level g)
  else if g ≤ spent then if (s.level level).tick == s.clk.ref.toNat then .wait else .go s
  else if budgetLeft s level < 16 then .wait
  else .pay (useBudget s level 16)

/-- A part with a unit taken out. -/
def Chunk.without (c : Chunk) (id g : Nat) (aside : Bool) : Chunk :=
  if aside then { c with ids := c.ids.filter fun i => !(id ≤ i && i < id + g), spent := 0 } else { c with next := id + g, spent := 0 }

/-- A part is routed in full. -/
def Chunk.done (c : Chunk) : Bool := c.ids.isEmpty && c.next ≥ c.count

/-- Change a part in a queue. -/
def changeChunk (old new : Chunk) (q : List Chunk) : List Chunk := q.map fun c => if c == old then new else c

/-- Add a unit to the open chunk of a child. -/
def openUnit (child grid : Nat) (ids : List Nat) (skip : Bool) : List (Nat × Chunk) → List (Nat × Chunk)
  | [] => [(child, ⟨grid, ids, 0, 0, skip, none, [], 0⟩)]
  | x :: xs => if x.1 == child && x.2.grid == grid then (child, { x.2 with ids := x.2.ids ++ ids }) :: xs else x :: openUnit child grid ids skip xs

/-- Close the open chunks that are full, or whose part is routed in full. -/
def closeChunks (l : Level) (grid unit : Nat) (all : Bool) : Level :=
  let full (x : Nat × Chunk) : Bool := x.2.grid == grid && (all || x.2.ids.length + unit > 256)
  { l with closed := l.closed ++ l.opened.filter full, opened := l.opened.filter fun x => !full x }

/-- Route a unit, or set it aside while its child is blocked; its work-groups carry their hash from now on. -/
def routeUnit (s : State) (level : Nat) (x : Entry) (id : Nat) (aside : Bool) : State :=
  let g := x.grid.unit
  let child := childOf s level x.grid (x.grid.unitHash s id)
  let s := keepHash s x.chunk.grid x.grid id
  let ids := (List.range g).map (id + ·)
  if childBlocked s level child then
    s.onLevel level fun l => { l with queue := changeChunk x.chunk { x.chunk.without id g aside with ids := x.chunk.ids ++ ids } l.queue }
  else
    let rest := x.chunk.without id g aside
    s.onLevel level fun l =>
      let l := { l with
        queue := if rest.done then l.queue.erase x.chunk else changeChunk x.chunk rest l.queue
        opened := openUnit child x.chunk.grid ids x.chunk.skip l.opened }
      closeChunks l x.chunk.grid g rest.done

/-- WORK_GROUP_ROUTE: the next unit within the tick's budget; a gang of more than 16 takes whole budgets, and goes with the last. -/
def routeEffect (s : State) (level : Nat) (x : Entry) (id : Nat) (aside : Bool) : State :=
  if dropsAt level x.grid then groupsDone (s.onLevel level fun l => { l with queue := l.queue.erase x.chunk }) x.chunk.grid
      (x.chunk.ids.length + (x.chunk.count - x.chunk.next))
  else match unitFare s level x.grid.unit x.chunk.spent with
    | .go s => routeUnit s level x id aside
    | .pay s => s.onLevel level fun l => { l with queue := changeChunk x.chunk { x.chunk with spent := x.chunk.spent + 16 } l.queue }
    | .wait => s

/-- A level has a unit to route, and budget for it. -/
def routeReady (s : State) (level : Nat) : Bool :=
  level < 3 && match routeEntry s level with
    | some x => dropsAt level x.grid || match unitFare s level x.grid.unit x.chunk.spent with
      | .wait => false
      | _ => true
    | none => false

def execWorkGroupRoute (level _index : Nat) (s : State) : Host.Outcome State Fault Refusal :=
  .next (if routeReady s level then
      match routeEntry s level with
      | some x => match nextUnit s level x with
        | some (id, aside) => routeEffect s level x id aside
        | none => s
      | none => s
    else s)

/-! CHUNK_PASS_DOWN (R157). -/

/-- A chunk that starts in a new queue. -/
def Chunk.moved (c : Chunk) : Chunk := { c with since := none, spent := 0 }

/-- Put a chunk into a level's queue. -/
def enterChunk (s : State) (level : Nat) (c : Chunk) : State := s.onLevel level fun l => { l with queue := l.queue ++ [c.moved] }

/-- Send a chunk to the distributor of another package. -/
def sendChunk (s : State) (pkg level : Nat) (c : Chunk) : State :=
  match s.work.grids.find c.grid with
  | some g =>
    let hs := (c.ids.filter fun i => i % g.unit == 0).map fun i => (i, BitVec.ofNat 16 (g.unitHash s i))
    s.send pkg false (.work ⟨g.record, g.addr, g.ctx.toNat, c.ids, level, g.launch.getD 0, hs, none, g.owner⟩)
  | none => s

/-- The closed chunk that a level passes down next: of those whose child has room, the first in the order of R156. -/
def nextClosed (s : State) (level : Nat) : Option (Nat × Chunk) :=
  let q := (s.level level).closed.filter fun x => childRoom s level x.1
  match orderedEntries s (q.map (·.2)) with
  | x :: _ => q.find? fun y => y.2 == x.chunk
  | [] => none

/-- A closed chunk that passes down now. -/
def passReady (s : State) (level index : Nat) : Bool :=
  level < 3 && match (s.level level).closed[index]? with
    | some x => nextClosed s level == some x
    | none => false

/-- CHUNK_PASS_DOWN. -/
def passEffect (s : State) (level child : Nat) (c : Chunk) : State :=
  let s := s.onLevel level fun l => { l with closed := l.closed.erase (child, c) }
  match level with
  | 0 => if s.trayDistributor child == s.cfg.pkg then enterChunk s 1 c else sendChunk s (s.trayDistributor child) 1 c
  | 1 => if child == s.cfg.pkg then enterChunk s 2 c else sendChunk s child 2 c
  | _ => enterChunk s (3 + child) c

def execChunkPassDown (level index : Nat) (s : State) : Host.Outcome State Fault Refusal :=
  .next (if passReady s level index then
      match (s.level level).closed[index]? with
      | some (child, c) => passEffect s level child c
      | none => s
    else s)

end Sys2Proof.Machine
end

