-- ==== Sys2Proof/Machine/Resident.lean ====
section
/-! DEFINITION. Storage and residency: the buddy allocator, the binding of warps, placement in launch buffers, residency and the end of a
warp (spec/07_work_queues.md R156, R158, R159, R164, R165, R171; spec/01 R16, R18, R31; spec/02 R43, R46, R54; spec/10 R234). -/

namespace Sys2Proof.Machine

/-! The buddy allocator (R164, R165). -/

/-- A request rounded up to a power of two; 0 takes nothing. -/
def roundUp2 (n : Nat) : Nat := if n ≤ 1 then n else 2 ^ (Nat.log2 (n - 1) + 1)

/-- Two runs of units meet. -/
def runsMeet (a b : Nat × Nat) : Bool := a.1 < b.1 + b.2 && b.1 < a.1 + a.2

/-- The free blocks of a space of 2^k units from one on: the largest aligned ones that no run in use meets. -/
def freeBlocks (used : List (Nat × Nat)) : Nat → Nat → List (Nat × Nat)
  | 0, lo => if used.any (runsMeet (lo, 1)) then [] else [(lo, 1)]
  | k + 1, lo =>
    if used.any (runsMeet (lo, 2 ^ (k + 1))) then freeBlocks used k lo ++ freeBlocks used k (lo + 2 ^ k) else [(lo, 2 ^ (k + 1))]

/-- Of two free blocks, the smaller; the lower of equal ones. -/
def tighter (a b : Nat × Nat) : Nat × Nat := if b.2 < a.2 then b else a

/-- The first unit of the block that a request of n units takes: the lowest free block of its size, else the low end of the lowest of
the smallest larger size (R165). -/
def allocate (k : Nat) (used : List (Nat × Nat)) (n : Nat) : Option Nat :=
  if n = 0 then some 0
  else match (freeBlocks used k 0).filter fun b => n ≤ b.2 with
    | [] => none
    | b :: bs => some (bs.foldl tighter b).1

/-- The lowest run of n free granules of an exchange bank, which no allocator of R164 serves. -/
def allocateRun (used : List (Nat × Nat)) (n : Nat) : Option Nat :=
  if n = 0 then some 0 else (List.range (17 - n)).find? fun lo => !used.any (runsMeet (lo, n))

/-! What is in use on a core. -/

/-- The work-groups that hold storage on a core. -/
def groupsOn (s : State) (core : Nat) : List (Nat × WorkGroup) := s.work.groups.filter fun x => x.2.core == core

/-- The storage reserved on a core for contracts, but for the one given. -/
def reservedOn (s : State) (core : Nat) (own : Option Nat) : List Spot :=
  s.work.contracts.flatMap fun x => if some x.1 == own then [] else x.2.reserved.filter fun r => r.core == core

/-- The blocks that a move of the pruner fills. -/
def movesOn (s : State) (core kind slot : Nat) : List (Nat × Nat) :=
  (s.dist.moves.filter fun m => m.core == core && m.kind == kind && (kind != 0 || m.slot == slot)).map fun m => (m.new, m.size)

/-- The register blocks in use in a slot. -/
def usedRanges (s : State) (core slot : Nat) : List (Nat × Nat) :=
  let mine (rs : List (Nat × Nat × Nat × Nat)) : List (Nat × Nat) := (rs.filter fun r => r.1 == slot).map fun r => (r.2.2.1, 2 ^ r.2.2.2)
  (groupsOn s core).flatMap (fun x => mine x.2.ranges) ++ (reservedOn s core none).flatMap (fun r => mine r.ranges) ++ movesOn s core 0 slot

/-- The scratch granules, tiles and exchange granules in use. -/
def usedScr (s : State) (core : Nat) : List (Nat × Nat) :=
  (groupsOn s core).map (·.2.scr) ++ (reservedOn s core none).map (·.scr) ++ movesOn s core 1 0
def usedTiles (s : State) (core : Nat) : List (Nat × Nat) :=
  (groupsOn s core).map (·.2.tiles) ++ (reservedOn s core none).map (·.tiles) ++ movesOn s core 2 0
def usedExch (s : State) (core : Nat) : List (Nat × Nat) := (groupsOn s core).map (·.2.exch)

/-- The slot-local numbers in use in a slot. -/
def usedNumbers (s : State) (core slot : Nat) : List Nat :=
  (groupsOn s core).flatMap (fun x => (x.2.warps.filter fun w => w.1 == slot).map (·.2)) ++
    (reservedOn s core none).flatMap fun r => (r.ranges.filter fun x => x.1 == slot).map (·.2.1)

/-- The warps bound to a slot: resident, or placed there. -/
def boundWarps (s : State) (core slot : Nat) : Nat :=
  ((groupsOn s core).flatMap fun x => x.2.warps.filter fun w => w.1 == slot).length

/-! Binding (R18). -/

/-- A place for a warp: slot, number, first block of 32, size code. -/
abbrev WarpPlace := Nat × Nat × Nat × Nat

/-- The place that a slot offers the next warp, after the places already taken. -/
def slotOffer (s : State) (core size : Nat) (taken : List WarpPlace) (slot : Nat) : Option WarpPlace :=
  let here := taken.filter fun x => x.1 == slot
  let nums := usedNumbers s core slot ++ here.map (·.2.1)
  match (List.range 8).find? fun n => !nums.contains n, allocate 4 (usedRanges s core slot ++ here.map fun x => (x.2.2.1, 2 ^ x.2.2.2)) (2 ^ size) with
  | some n, some b => if (s.slotAt core slot).failed then none else some (slot, n, b, size)
  | _, _ => none

/-- Of the places offered, the one in the slot with the fewest warps; ties to the lowest slot. -/
def bestOffer (s : State) (core : Nat) (taken : List WarpPlace) (offers : List WarpPlace) : Option WarpPlace :=
  let load (x : WarpPlace) : Nat := boundWarps s core x.1 + (taken.filter fun y => y.1 == x.1).length
  match offers with
  | [] => none
  | x :: xs => some (xs.foldl (fun a b => if load b < load a then b else a) x)

/-- Bind n warps one at a time. -/
def bindWarps (s : State) (core size : Nat) : Nat → List WarpPlace → Option (List WarpPlace)
  | 0, taken => some taken
  | n + 1, taken =>
    match bestOffer s core taken ((List.range 8).filterMap (slotOffer s core size taken)) with
    | some x => bindWarps s core size n (taken ++ [x])
    | none => none

/-- Bind n warps to places reserved for a contract (R171). -/
def bindReserved (s : State) (core size : Nat) (rs : List WarpPlace) : Nat → List WarpPlace → Option (List WarpPlace)
  | 0, taken => some taken
  | n + 1, taken =>
    let busy (x : WarpPlace) : Bool := taken.any (fun y => y.1 == x.1 && y.2.1 == x.2.1) || (s.slotAt core x.1).failed ||
      (groupsOn s core).any fun g => g.2.ranges.any fun y => y.1 == x.1 && y.2.2.1 == x.2.2.1
    match bestOffer s core taken (rs.filter fun x => size ≤ x.2.2.2 && !busy x) with
    | some x => bindReserved s core size rs n (taken ++ [(x.1, x.2.1, x.2.2.1, size)])
    | none => none

/-! Placement (R158). -/

/-- What a grid's work-group would take on a core: by the allocator, or within a contract's reservation. -/
def spotOn (s : State) (g : Grid) (core : Nat) : Option Spot :=
  let ws := g.record
  let n := recordWarps ws g.eff.protect
  let scr := roundUp2 (recordScratch ws)
  let tiles := roundUp2 (recordTiles ws)
  match allocateRun (usedExch s core) (recordExch ws) with
  | none => none
  | some x =>
    match activeJob s g with
    | none =>
      match bindWarps s core (recordSize ws) n [], allocate 7 (usedScr s core) scr, allocate 6 (usedTiles s core) tiles with
      | some rs, some a, some b => some ⟨core, rs, (a, scr), (b, tiles), (x, recordExch ws)⟩
      | _, _, _ => none
    | some (_, c, _) =>
      match c.reserved.find? fun r => r.core == core with
      | none => none
      | some r =>
        let outside (k : Nat × Nat) (total : Nat) : List (Nat × Nat) := [(0, k.1), (k.1 + k.2, total - (k.1 + k.2))]
        match bindReserved s core (recordSize ws) r.ranges n [],
            allocate 7 ((groupsOn s core).map (·.2.scr) ++ outside r.scr 128) scr,
            allocate 6 ((groupsOn s core).map (·.2.tiles) ++ outside r.tiles 64) tiles with
        | some rs, some a, some b => some ⟨core, rs, (a, scr), (b, tiles), (x, recordExch ws)⟩
        | _, _, _ => none

/-- The work-groups of the subtree of a bough, resident or placed (R12). -/
def subtree (s : State) (ctx bough : Nat) : List WorkGroup :=
  (s.work.groups.filter fun x => !x.2.dead && match s.work.grids.find x.2.grid with
    | some (g : Grid) => g.ctx.toNat == ctx && g.chain.any fun b => b.bough == bough
    | none => false).map (·.2)

/-- The register blocks of a list of places. -/
def rangeBlocks (rs : List WarpPlace) : Nat := rs.foldl (fun n x => n + 2 ^ x.2.2.2) 0

/-- The holdings of every bough of a grid's chain stay within its caps when it takes a spot (R12, R158). -/
def capsHold (s : State) (g : Grid) (x : Spot) : Bool :=
  g.chain.all fun b =>
    let gs := subtree s g.ctx.toNat b.bough
    let cores := ((gs.map (·.core)) ++ [x.core]).dedup
    gs.foldl (fun n y => n + rangeBlocks y.ranges) (rangeBlocks x.ranges) ≤ b.regCap &&
      gs.foldl (fun n y => n + y.scr.2) x.scr.2 ≤ b.scrCap && gs.foldl (fun n y => n + y.tiles.2) x.tiles.2 ≤ b.tileCap &&
      cores.length ≤ b.coreCap

/-- A core takes work of a context: it is in service, and the context is neither stopped there nor contained (R177, R264, R436). -/
def coreOpen (s : State) (ctx core : Nat) : Bool :=
  !s.coreOut core && !(s.ctl.barred.getD ctx 0).getLsbD core && !(s.ctl.contained.any fun x => x.1 == ctx)

/-- The work-groups in a core's launch buffer. -/
def bufferOf (s : State) (core : Nat) : List Nat := s.dist.buffers.getD core []

/-- The spot that a core offers a grid's work-group (R158). -/
def coreOffer (s : State) (g : Grid) (core : Nat) : Option Spot :=
  let inSet := match activeJob s g with
    | some (_, c, _) => c.cores.getLsbD core
    | none => true
  if !inSet || !coreOpen s g.ctx.toNat core || (bufferOf s core).length ≥ 2 then none
  else match spotOn s g core with
    | some x => if capsHold s g x then some x else none
    | none => none

/-- The resident warps of a core. -/
def coreWarps (s : State) (core : Nat) : Nat := (s.thr.warps.filter fun x => x.1 / 64 == core).length

/-- The cores of a die in branches from one on: each branch on its own, a core with fewer resident warps first (R158). -/
def branchCores (die branch : Nat) : List (List Nat) :=
  (List.range 4).map fun i => (List.range 8).map fun k => 32 * die + 8 * ((branch + i) % 4) + k

/-- The spot that the first branch with a qualifying core offers. -/
def branchOffer (s : State) (g : Grid) (held : List Nat) (cores : List Nat) : Option Spot :=
  let offers := (cores.filter fun c => !held.contains c).filterMap (coreOffer s g)
  match offers with
  | [] => none
  | x :: xs => some (xs.foldl (fun a b => if coreWarps s b.core < coreWarps s a.core then b else a) x)

/-- The spot that a die offers a work-group of hash h. -/
def dieOffer (s : State) (die : Nat) (g : Grid) (h : Nat) (held : List Nat) : Option Spot :=
  (branchCores die (bits 6 5 h)).findSome? (branchOffer s g held)

/-- A number for a work-group that no work-group has, resident or saved. -/
def freshGroup (s : State) : Nat := max s.work.groups.fresh s.ctl.saved.fresh

/-- Put a work-group into a core's launch buffer; what it takes is reserved for it. -/
def putGroup (s : State) (grid id h : Nat) (gang : Option Nat) (x : Spot) : State :=
  let wg : WorkGroup := {
    grid := grid, id := BitVec.ofNat 64 id, core := x.core, gang := gang, warps := x.ranges.map (fun r => (r.1, r.2.1)),
    barCount := 0, barPhase := false, halt := none, contained := none, pos := 0, spill := 0, macroImage := [], scr := x.scr, tiles := x.tiles,
    exch := x.exch, ranges := x.ranges, dead := false, resident := false, hash := BitVec.ofNat 16 h }
  let n := freshGroup s
  let s := { s with
    work := { s.work with groups := s.work.groups.insert n wg }
    dist := { s.dist with buffers := s.dist.buffers.insert x.core (bufferOf s x.core ++ [n]) } }
  if x.exch.2 == 0 then s
  else s.onExch fun m =>
    (m.zero (exchAddr x.core 0 (4096 * x.exch.1)) (4096 * x.exch.2)).zero (exchAddr x.core 1 (4096 * x.exch.1)) (4096 * x.exch.2)

/-- Place the work-groups of a unit one at a time on distinct cores: all of them, or none. -/
def putUnit (die : Nat) (g : Grid) (grid h : Nat) (gang : Option Nat) : List Nat → List Nat → State → Option State
  | [], _, s => some s
  | id :: ids, held, s =>
    match dieOffer s die g h held with
    | some x => putUnit die g grid h gang ids (x.core :: held) (putGroup s grid id h gang x)
    | none => none

/-- Place a unit, with its gang (R14, R158). -/
def placeUnit (s : State) (die grid : Nat) (g : Grid) (ids : List Nat) : Option State :=
  let h := g.unitHash s (ids.headD 0)
  if g.unit < 2 then putUnit die g grid h none ids [] s
  else
    let n := s.work.gangs.fresh
    putUnit die g grid h (some n) ids []
      { s with work := { s.work with gangs := s.work.gangs.insert n ⟨grid, ids.headD 0, 0, false, none⟩ } }

/-! WORK_GROUP_PLACEMENT (R156, R158, R159). -/

/-- The cores of a die in service for gangs (R159). -/
def serviceCores (s : State) (die : Nat) : Nat :=
  ((List.range 32).filter fun i => !s.coreOut (32 * die + i) && (List.range 8).any fun sl => !(s.slotAt (32 * die + i) sl).failed).length

/-- What a die distributor does with the work at the head of a chunk. -/
inductive Fate where
  | place (s : State)
  | redirect (die : Nat)
  | hopeless
  | drop
  | wait

/-- The die of the package, after one, that has cores enough in service for a gang. -/
def gangDie (s : State) (die g : Nat) : Option Nat :=
  ([1, 2, 3].map fun i => (die + i) % 4).find? fun d => g ≤ serviceCores s d

/-- The fate of a chunk's head. -/
def headFate (s : State) (die : Nat) (x : Entry) : Fate :=
  let g := x.grid.unit
  if x.grid.dropped then .drop
  else if g ≥ 2 && serviceCores s die < g then
    match gangDie s die g with
    | some d => .redirect d
    | none => .hopeless
  else match placeUnit s die x.chunk.grid x.grid (x.chunk.ids.take g) with
    | some s' => .place s'
    | none => .wait

/-- A context's work waits for system software on this die: it holds back nothing. -/
def isStopped (s : State) (die : Nat) (g : Grid) : Bool := (List.range 32).all fun i => !coreOpen s g.ctx.toNat (32 * die + i)

/-- What the die distributor does next: the first chunk in order whose head can move, or the head that now begins to wait; a head that
cannot become resident blocks the later work of its own and lower priorities (R156). -/
def nextFate (s : State) (die : Nat) : List Entry → Option (Entry × Fate)
  | [] => none
  | x :: xs =>
    match headFate s die x with
    | .wait =>
      if x.order.1 < 2 || isStopped s die x.grid then nextFate s die xs
      else if x.chunk.since.isNone then some (x, .wait) else none
    | f => some (x, f)

/-- Take n ids from the head of a chunk in a die's queue. -/
def takeIds (s : State) (die n : Nat) (c : Chunk) : State :=
  let rest := { c with ids := c.ids.drop n, since := none, spent := 0 }
  s.onLevel (3 + die) fun l => { l with queue := if rest.ids.isEmpty then l.queue.erase c else changeChunk c rest l.queue }

/-- The work-groups of a grid in the queues of the package distributor and its dies. -/
def queuedOf (s : State) (grid : Nat) : Nat :=
  ([2, 3, 4, 5, 6].flatMap fun n => ((s.level n).queue ++ (s.level n).opened.map (·.2) ++ (s.level n).closed.map (·.2)).filter fun c =>
    c.grid == grid).foldl (fun n c => n + c.ids.length + (c.count - c.next)) 0

/-- Discard the chunks of a grid on the package (R159). -/
def discardGrid (s : State) (grid : Nat) : State :=
  let n := queuedOf s grid
  let clean (l : Level) : Level := { l with
    queue := l.queue.filter (fun c => c.grid != grid), opened := l.opened.filter (fun x => x.2.grid != grid),
    closed := l.closed.filter (fun x => x.2.grid != grid) }
  let s := [2, 3, 4, 5, 6].foldl (fun (s : State) k => s.onLevel k clean) s
  if n == 0 then s else groupsDone s grid n

/-- A gang that no die can hold: the grid fails, its chunks are discarded, report 0x28 (R159). -/
def gangUnplaceable (s : State) (grid : Nat) (g : Grid) : State :=
  let s := reportTo s g.eff g.ctx.toNat { Report.blank 0x28 with addr := g.unit, ctx := g.ctx.toNat }
  let s := { s with work := { s.work with grids := s.work.grids.insert grid { g with failed := true, dropped := true } } }
  discardGrid s grid

/-- What the die distributor does next; a gang that has begun to take whole budgets goes on (R154). -/
def dieFate (s : State) (die : Nat) : Option (Entry × Fate) :=
  let xs := orderedEntries s (s.level (3 + die)).queue
  match xs.find? fun x => 0 < x.chunk.spent with
  | some x => some (x, headFate s die x)
  | none => nextFate s die xs

/-- A unit has been placed: its ids leave the chunk, and its work-groups hold the hash themselves. -/
def placedUnit (s : State) (die : Nat) (x : Entry) : State :=
  dropHash (takeIds s die x.grid.unit x.chunk) x.chunk.grid x.grid (x.chunk.ids.headD 0)

/-- A unit that can be placed takes its budget (R154) and goes. -/
def placeFare (s s' : State) (die : Nat) (x : Entry) : State :=
  match unitFare s (3 + die) x.grid.unit x.chunk.spent with
  | .go _ => placedUnit (if x.grid.unit ≤ 16 then useBudget s' (3 + die) x.grid.unit else s') die x
  | .pay s => s.onLevel (3 + die) fun l => { l with queue := changeChunk x.chunk { x.chunk with spent := x.chunk.spent + 16 } l.queue }
  | .wait => s

/-- WORK_GROUP_PLACEMENT. -/
def placementEffect (s : State) (die : Nat) : State :=
  match dieFate s die with
  | none => s
  | some (x, .place s') => placeFare s s' die x
  | some (x, .redirect d) =>
    if (s.level (3 + d)).queue.length ≥ 512 then s
    else enterChunk (s.onLevel (3 + die) fun l => { l with queue := l.queue.erase x.chunk }) (3 + d) x.chunk
  | some (x, .hopeless) => gangUnplaceable s x.chunk.grid x.grid
  | some (x, .drop) => discardGrid s x.chunk.grid
  | some (x, .wait) =>
    s.onLevel (3 + die) fun l => { l with queue := changeChunk x.chunk { x.chunk with since := some s.clk.ref.toNat } l.queue }

/-- A die distributor has something to do. -/
def placementReady (s : State) (die : Nat) : Bool :=
  die < 4 && match dieFate s die with
    | some (_, .redirect d) => (s.level (3 + d)).queue.length < 512
    | some (x, .place _) => match unitFare s (3 + die) x.grid.unit x.chunk.spent with
      | .wait => false
      | _ => true
    | some (x, .wait) => x.chunk.spent == 0 || x.chunk.since.isNone
    | some _ => true
    | none => false

def execWorkGroupPlacement (die : Nat) (s : State) : Host.Outcome State Fault Refusal :=
  .next (if placementReady s die then placementEffect s die else s)

/-! WORK_GROUP_RESIDENCY (R158). -/

/-- The lanes of warp j of a grid: the threads below T, two lanes to a thread under protection (R16, R31). -/
def firstLanes (g : Grid) (j : Nat) : List Lane :=
  (List.range 32).map fun l =>
    let thread := if g.eff.protect then 16 * j + l / 2 else 32 * j + l
    if thread < recordThreads g.record then { Lane.absent with present := true, pc := BitVec.ofNat 57 (g.record.getD 1 0).toNat } else Lane.absent

/-- The segments at residency (R54). -/
def firstSegs (g : Grid) (x : WorkGroup) : Segments :=
  let w (i : Nat) : Nat := (g.record.getD i 0).toNat
  { gbase := BitVec.ofNat 57 (w 6), glim := BitVec.ofNat 57 (w 7), sbase := BitVec.ofNat 19 (4096 * x.scr.1)
    slim := BitVec.ofNat 20 (4096 * recordScratch g.record), xbase := BitVec.ofNat 16 (4096 * x.exch.1)
    xlim := BitVec.ofNat 17 (4096 * x.exch.2), abase := BitVec.ofNat 6 x.tiles.1, alim := BitVec.ofNat 7 (recordTiles g.record)
    cbase := BitVec.ofNat 57 (w 8), clim := BitVec.ofNat 32 (w 9) }

/-- A warp at residency: everything clear, before the scalar registers are loaded (R43 to R56, R233). -/
def firstWarp (s : State) (g : Grid) (wg : Nat) (x : WorkGroup) (j serial : Nat) (r : WarpPlace) : Warp :=
  { wg := wg, index := j, lanes := firstLanes g j, base := r.2.2.1, sizeCode := r.2.2.2, sregs := List.replicate 24 PWord.zero,
    segs := firstSegs g x, mode := (if g.eff.protect then 2 else 0) ||| (if g.eff.compat then 4 else 0), lsn := BitVec.ofNat 32 serial,
    ctx := g.ctx, trap := TrapRegs.zero, latch := false, inHandler := false, stop := .none, rings := [], logBase := 0, logLimit := 0,
    logFill := 0, cntCopy := 0, cntMat := 0, cntGth := 0, cntCol := 0, monitor := none, mwait := none, run := none,
    stamp := (s.slotAt x.core r.1).runs, snapshot := false, spared := (s.slotAt x.core r.1).spare, rollback := none,
    startFault := none, barrier := 0, skid := (0, 0), blocks := [] }

/-- Clear a register range in every lane of its slot (R43). -/
def clearRange (s : State) (core : Nat) (r : WarpPlace) : State :=
  { s with thr := { s.thr with regs := s.thr.regs.filter fun (x : Nat × PWord) => !inRange core r.1 (32 * r.2.2.1) (32 * 2 ^ r.2.2.2) x.1 } }

/-- Clear the storage of a work-group (R43, R79, R97). -/
def clearStorage (s : State) (x : WorkGroup) : State :=
  let s := x.ranges.foldl (fun (s : State) r => clearRange s x.core r) s
  (s.onScratch fun m => m.zero (scratchAddr x.core (4096 * x.scr.1)) (4096 * x.scr.2)).onAcc fun m =>
    m.zero (tileAddr x.core x.tiles.1 0) (tileSize * x.tiles.2)

/-- The lowest free residency position of a core (R96). -/
def freePosition (s : State) (core : Nat) : Nat :=
  let taken := (s.work.groups.filter fun x => x.2.core == core && x.2.resident && !x.2.dead).map (·.2.pos)
  ((List.range 64).find? fun p => !taken.contains p).getD 63

/-- A grid's first residency on a core: the core drops its instruction lines of the grid's context (R104). -/
def firstOnCore (s : State) (core grid : Nat) (g : Grid) : State :=
  if g.seen.getLsbD core then s
  else
    let s := { s with work := { s.work with grids := s.work.grids.insert grid { g with seen := g.seen ||| coreBits [core] } } }
    { s with mem := { s.mem with icache := s.mem.icache.filter fun (x : Nat × ILine) => x.1 / 2 ^ 50 != core * 2048 + g.ctx.toNat } }

/-- Make the warps of a work-group, in order, with the constants loaded into their scalar registers (R46) and their launch serial numbers (R18,
R55): `sr.lsn` counts a context's warps from 0, a first number that the spec does not give (DESIGN CHOICE, log 47). -/
def makeWarps (s : State) (g : Grid) (wg : Nat) (x : WorkGroup) : State :=
  let first := s.dist.serials.getD g.ctx.toNat 0
  let ws := x.ranges.zipIdx.map fun (r, j) => 
    (warpKey x.core r.1 r.2.1, (firstWarp s g wg x j (first + j) r).withConstants (constantsOf s (firstWarp s g wg x j (first + j) r)))
  let warps := ws.foldl (fun (m : NMap Warp) w => m.insert w.1 w.2) s.thr.warps
  { s with
    thr := { s.thr with warps := warps }
    dist := { s.dist with serials := s.dist.serials.insert g.ctx.toNat (first + ws.length) } }

/-- The work-groups that become resident with the head of a core's launch buffer: it alone, or the members of its gang, each at the head of
its core's buffer; none while one is not (R14, R36). -/
def residents (s : State) (core : Nat) : List (Nat × WorkGroup) :=
  match bufferOf s core with
  | [] => []
  | wg :: _ => match s.work.groups.find wg with
    | none => []
    | some x => match x.gang with
      | none => [(wg, x)]
      | some n =>
        let ms := s.work.groups.filter fun y => y.2.gang == some n && !y.2.dead && !y.2.resident
        if ms.all fun y => (bufferOf s y.2.core).head? == some y.1 then ms else []

/-- The reads of a work-group's constants can be made now (R46). -/
def constantsReady (s : State) (x : WorkGroup) : Bool :=
  match s.work.grids.find x.grid with
  | none => true
  | some g => !(constantLines s g.ctx.toNat (g.record.getD 8 0).toNat ((g.record.getD 9 0).toNat % 2 ^ 32)).any s.lineWaits

/-- A work-group becomes resident: it leaves its buffer, its storage is cleared, its warps are made. -/
def becomeResident (s : State) (wg : Nat) (x : WorkGroup) : State :=
  let core := x.core
  let s := { s with dist := { s.dist with buffers := s.dist.buffers.put core ((bufferOf s core).erase wg) [] } }
  match s.work.grids.find x.grid with
  | none => s
  | some g =>
    let x := { x with resident := true, pos := freePosition s core, spill := 0 }
    let s := firstOnCore (clearStorage s x) core x.grid g
    let s := s.readThrough (constantLines s g.ctx.toNat (g.record.getD 8 0).toNat ((g.record.getD 9 0).toNat % 2 ^ 32))
    makeWarps { s with work := { s.work with groups := s.work.groups.insert wg x } } g wg x

/-- WORK_GROUP_RESIDENCY: the work-group at the head of a core's launch buffer becomes resident, with the other members of its gang. -/
def residencyEffect (s : State) (core : Nat) : State :=
  let xs := residents s core
  if xs.all fun x => constantsReady s x.2 then xs.foldl (fun s x => becomeResident s x.1 x.2) s else s

def execWorkGroupResidency (core : Nat) (s : State) : Host.Outcome State Fault Refusal := .next (residencyEffect s core)

/-! WARP_COMPLETE (R234, R239). -/

/-- A warp has completed its exit: every thread has exited and its four counters are 0. -/
def completeReady (w : Warp) : Bool :=
  w.run.isNone && !w.inHandler && w.rollback.isNone && !w.snapshot && (w.lanes.all fun x => !x.present || x.exited) && w.cntCopy == 0 &&
    w.cntMat == 0 && w.cntGth == 0 && w.cntCol == 0

/-- The mark of a warp that has left, in its work-group's list. -/
def goneWarp (i : Nat) : Nat × Nat := (2 ^ 20, i)

/-- WARP_COMPLETE: the warp leaves; the last one frees its work-group, and a barrier that waited for it may complete. -/
def completeEffect (s : State) (k : Nat) (w : Warp) : State :=
  let s := { s with thr := { s.thr with warps := s.thr.warps.erase k } }
  let s := s.onGroup w.wg fun g => { g with warps := g.warps.set w.index (goneWarp w.index) }
  match s.work.groups.find w.wg with
  | none => s
  | some g => if g.warps.all fun x => x.1 == 2 ^ 20 then removeGroup (settleBarriers s w.wg g.gang) w.wg g else settleBarriers s w.wg g.gang

def execWarpComplete (core slot warp : Nat) (s : State) : Host.Outcome State Fault Refusal :=
  .next (match s.warpAt (warpKey core slot warp) with
    | some w => if completeReady w then completeEffect s (warpKey core slot warp) w else s
    | none => s)

end Sys2Proof.Machine
end

