-- ==== Sys2Proof/Machine/Steal.lean ====
section
/-! DEFINITION. Work stealing (spec/07_work_queues.md R160, R161, R182) and the pruner (R166, R167, R182). -/

namespace Sys2Proof.Machine

/-! Idle distributors (R160, R161). -/

/-- A core has a free warp position. -/
def coreVacant (s : State) (core : Nat) : Bool :=
  !s.coreOut core && (List.range 8).any fun sl => !(s.slotAt core sl).failed && (usedNumbers s core sl).length < 8

/-- A chunk holds contracted work, or may not leave its package (R160, R162): it is not stealable there. -/
def stealable (s : State) (level : Nat) (c : Chunk) : Bool :=
  match s.work.grids.find c.grid with
  | some g => (activeJob s g).isNone && !g.dropped && c.next ≥ c.count && (level != 2 || (g.launch.isSome && !c.skip))
  | none => false

/-- The stealable chunks of a level, newest first. -/
def stealables (s : State) (level : Nat) : List Chunk := ((s.level level).queue.filter (stealable s level)).reverse

/-- The package distributor is idle: it holds no chunk that can be placed, and some core has a free warp position. -/
def packageIdle (s : State) : Bool :=
  (routeEntry s 2).isNone && !((s.level 2).closed.any fun x => childRoom s 2 x.1) && (List.range 128).any (coreVacant s)

/-- A die distributor is idle. -/
def dieIdle (s : State) (die : Nat) : Bool :=
  (!match nextFate s die (orderedEntries s (s.level (3 + die)).queue) with
    | some (_, .place _) => true
    | _ => false) &&
  (List.range 32).any fun i => coreVacant s (32 * die + i)

/-- An idle distributor may try again. -/
def mayRetry (s : State) (level : Nat) : Bool := s.dist.retry.getD level 0 ≤ s.clk.ref.toNat

/-- No victim was found: the next try is 200 ticks later. -/
def noVictim (s : State) (level : Nat) : State :=
  { s with dist := { s.dist with retry := s.dist.retry.insert level (s.clk.ref.toNat + 200) } }

/-- Under host-assisted stealing an idle distributor asks the H-die cores, once until it is answered (R182, R433): the payload names its
package. -/
def askSteal (s : State) (level die : Nat) : State :=
  if s.dist.asked.contains level then s
  else
    let s := (raiseEvent s 2 die [BitVec.ofNat 64 s.cfg.pkg, 0, 0, 0, 0, 0, 0]).1
    { s with dist := { s.dist with asked := s.dist.asked ++ [level] } }

/-! STEAL_REQUEST: a victim gives up its newest stealable chunks. -/

/-- The chunks that a queue still has room for (R153). -/
def queueRoom (s : State) (level : Nat) : Nat :=
  if level == 2 then 2048 - s.dist.records.length - (s.level 2).queue.length else 512 - (s.level level).queue.length

/-- Send chunks of the package queue to another package. -/
def giveChunks (s : State) (thief : Nat) (cs : List Chunk) : State :=
  cs.foldl (fun s c => sendChunk (s.onLevel 2 fun l => { l with queue := l.queue.erase c }) thief 2 c) s

/-- The victim of a request gives half of its stealable chunks when it has two, or as many as a host answer names. -/
def stealRequestEffect (s : State) (thief count : Nat) : State :=
  let xs := stealables s 2
  let n := if count == 0 then (if xs.length ≥ 2 then xs.length / 2 else 0) else min count xs.length
  if n == 0 then s.send thief false .stealNone else giveChunks s thief (xs.take n)

def execStealRequest (thief count : Nat) (s : State) : Host.Outcome State Fault Refusal :=
  .next (if s.inTray thief && thief != s.cfg.pkg then stealRequestEffect s thief count else s)

/-! PACKAGE_STEAL: the victims are asked in turn. -/

/-- Ask a victim for chunks, `count` of them or its half (0). -/
def askVictim (s : State) (victim count : Nat) : State :=
  ({ s with dist := { s.dist with asking := some (victim, false) } } : State).send victim false (.stealAsk s.cfg.pkg count)

/-- The victim after one, in the order own + 1, own + 2 and so on, modulo 16: none after the last. A package with no route is passed over. -/
def nextVictim (s : State) (from' : Nat) : Option Nat :=
  let tray := 16 * (s.cfg.pkg / 16)
  let first := (from' + 16 - s.cfg.pkg % 16) % 16
  ((List.range 16).filterMap fun i => if first < i then some (tray + (s.cfg.pkg + i) % 16) else none).find? s.reachable

/-- A victim has no two stealable chunks to give (R160). -/
def victimDeclines (s : State) (victim : Nat) : State :=
  match s.dist.asking with
  | some (v, false) => if v == victim then { s with dist := { s.dist with asking := some (v, true) } } else s
  | _ => s

/-- Chunks have come to the package queue: the request has its answer. -/
def stealDone (s : State) : State := { s with dist := { s.dist with asking := none } }

/-- PACKAGE_STEAL: an idle distributor asks its first victim, or the next one after one that has declined; after the last it waits (R160).
Under the host-assisted mode it asks the H-die cores (R182). -/
def packageStealEffect (s : State) : State :=
  let next (from' : Nat) : State := match nextVictim s from' with
    | some v => if s.mayPost v false then askVictim s v 0 else s
    | none => noVictim (stealDone s) 2
  match s.dist.asking with
  | some (_, false) => s
  | some (v, true) => if s.hostMode 2 then noVictim (stealDone s) 2 else next v
  | none => if s.hostMode 2 then askSteal s 2 4 else next s.cfg.pkg

/-- PACKAGE_STEAL. The victim is the machine's own choice, by the order of R160, and its chunks come as messages: what the event names does not
matter. -/
def execPackageSteal (_victim : Nat) (_given : List GivenChunk) (s : State) : Host.Outcome State Fault Refusal :=
  .next (if packageIdle s && mayRetry s 2 then packageStealEffect s else s)

/-! DIE_STEAL (R161). -/

/-- The first victim with two stealable chunks. -/
def dieVictim (s : State) (die : Nat) : Option Nat :=
  ([1, 2, 3].map fun i => (die + i) % 4).find? fun d => !s.att.outDies.contains d && (stealables s (3 + d)).length ≥ 2

/-- Move chunks from one die's queue to another's, the newest first, as far as it has room. -/
def moveChunks (s : State) (victim die n : Nat) : State :=
  ((stealables s (3 + victim)).take (min n (queueRoom s (3 + die)))).foldl (fun s c =>
    enterChunk (s.onLevel (3 + victim) fun l => { l with queue := l.queue.erase c }) (3 + die) c) s

def dieStealEffect (s : State) (die : Nat) : State :=
  if s.hostMode 2 then askSteal s (3 + die) die
  else match dieVictim s die with
    | some v => moveChunks s v die ((stealables s (3 + v)).length / 2)
    | none => noVictim s (3 + die)

/-- An idle die distributor may steal. -/
def dieStealReady (s : State) (die : Nat) : Bool := die < 4 && !s.att.outDies.contains die && dieIdle s die && mayRetry s (3 + die)

def execDieSteal (die : Nat) (s : State) : Host.Outcome State Fault Refusal :=
  .next (if dieStealReady s die then dieStealEffect s die else s)

/-- STEAL_ANSWER: host software names the victim and the number of chunks, and the distributor moves them (R182). -/
def stealAnswerEffect (s : State) (e : HostEvent) (victim count : Nat) : State :=
  let level := if e.die == 4 then 2 else 3 + e.die
  let s := { s.answered e with dist := { s.dist with asked := s.dist.asked.filter (· != level) } }
  if count == 0 then noVictim s level
  else if e.die == 4 then
    if s.inTray victim && victim != s.cfg.pkg && s.reachable victim && s.dist.asking.isNone then askVictim s victim count else noVictim s level
  else if victim < 4 && victim != e.die then moveChunks s victim e.die count
  else noVictim s level

def execStealAnswer (tag victim count : Nat) (s : State) : Host.Outcome State Fault Refusal :=
  .next (match pendingEvent s 2 tag with
    | some e => stealAnswerEffect s e victim count
    | none => s)

/-! The pruner (R166). -/

/-- A chunk's head that has failed to place for 1,000 ticks, at the head of its priority level on a die. -/
def stuckHead (s : State) (die : Nat) : Option Entry :=
  match nextFate s die (orderedEntries s (s.level (3 + die)).queue) with
  | some _ => none
  | none => (orderedEntries s (s.level (3 + die)).queue).find? fun x =>
      !isStopped s die x.grid && match x.chunk.since with
        | some t => t + 1000 ≤ s.clk.ref.toNat
        | none => false

/-- The free units of a space of 2^k units. -/
def freeUnits (k : Nat) (used : List (Nat × Nat)) : Nat := (freeBlocks used k 0).foldl (fun n b => n + b.2) 0

/-- A core holds enough free storage of each kind in total for a work-group of a grid. -/
def enoughFree (s : State) (core : Nat) (g : Grid) : Bool :=
  let ws := g.record
  let regs := (List.range 8).foldl (fun n sl => n + if (s.slotAt core sl).failed then 0 else freeUnits 4 (usedRanges s core sl)) 0
  recordWarps ws g.eff.protect * 2 ^ recordSize ws ≤ regs && roundUp2 (recordScratch ws) ≤ freeUnits 7 (usedScr s core) &&
    roundUp2 (recordTiles ws) ≤ freeUnits 6 (usedTiles s core)

/-- A contract job is active on a core's set (R167). -/
def jobActive (s : State) (core : Nat) : Bool := (s.runningJob core).isSome

/-- The pruner may run on a core for the work-group: the lowest qualifying core of the preferred branch. -/
def pruneCore (s : State) (die : Nat) (x : Entry) : Option Nat :=
  let branch := bits 6 5 (x.grid.unitHash s (x.chunk.ids.headD 0))
  ((List.range 8).map fun i => 32 * die + 8 * branch + i).find? fun c =>
    coreOpen s x.grid.ctx.toNat c && !jobActive s c && enoughFree s c x.grid

/-- An allocation that can move: its first unit, its units and its work-group. -/
abbrev Holding := Nat × Nat × Nat

/-- The allocations of a kind on a core: 0 the registers of a slot, 1 scratch, 2 tiles. -/
def holdings (s : State) (core kind slot : Nat) : List Holding :=
  let of (x : Nat × WorkGroup) : List Holding :=
    match kind with
    | 0 => (x.2.ranges.filter fun r => r.1 == slot).map fun r => (r.2.2.1, 2 ^ r.2.2.2, x.1)
    | 1 => [(x.2.scr.1, x.2.scr.2, x.1)]
    | _ => [(x.2.tiles.1, x.2.tiles.2, x.1)]
  (groupsOn s core).flatMap fun x => (of x).filter fun h => h.2.1 != 0

/-- What is in use of a kind, and the size of its space. -/
def usedKind (s : State) (core kind slot : Nat) : List (Nat × Nat) :=
  match kind with
  | 0 => usedRanges s core slot
  | 1 => usedScr s core
  | _ => usedTiles s core
def kindLog (kind : Nat) : Nat := if kind == 0 then 4 else if kind == 1 then 7 else 6

/-- What stays where it is: the reservations of contracts (R167) and the blocks of work-groups that were reset. -/
def fixedBlocks (s : State) (core kind slot : Nat) : List (Nat × Nat) :=
  (reservedOn s core none).flatMap (fun r => match kind with
    | 0 => (r.ranges.filter fun y => y.1 == slot).map fun y => (y.2.2.1, 2 ^ y.2.2.2)
    | 1 => [r.scr]
    | _ => [r.tiles]) ++
  (holdings s core kind slot).filterMap fun h => match s.work.groups.find h.2.2 with
    | some g => if g.dead then some (h.1, h.2.1) else none
    | none => none

/-- Insert a holding by address. -/
def insertHolding (h : Holding) : List Holding → List Holding
  | [] => [h]
  | x :: xs => if h.1 < x.1 then h :: x :: xs else x :: insertHolding h xs

/-- Places outside a block for the allocations inside it, in ascending address; none when one finds no place. -/
def evacuate (core kind slot : Nat) (used : List (Nat × Nat)) : List Holding → Option (List PruneMove)
  | [] => some []
  | (a, n, wg) :: hs =>
    match allocate (kindLog kind) used n with
    | some b => (evacuate core kind slot ((b, n) :: used) hs).map fun ms => ⟨core, kind, slot, a, b, n, wg, false⟩ :: ms
    | none => none

/-- The moves that free the lowest aligned block of n units whose allocations can all move out of it; the blocks `kept` are spoken for. -/
def clearBlock (s : State) (core kind slot n : Nat) (kept : List (Nat × Nat)) : Option (List PruneMove) :=
  let used := usedKind s core kind slot ++ kept
  ((List.range (2 ^ kindLog kind / n)).map (n * ·)).findSome? fun lo =>
    if (fixedBlocks s core kind slot ++ kept).any (runsMeet (lo, n)) then none
    else
      let inside := ((holdings s core kind slot).filter fun h => runsMeet (lo, n) (h.1, h.2.1)).foldl (fun xs h => insertHolding h xs) []
      evacuate core kind slot ((lo, n) :: used) inside

/-- The moves that one kind needs: none when the allocator already serves it. -/
def kindMoves (s : State) (core kind n : Nat) : List PruneMove :=
  if n == 0 || (allocate (kindLog kind) (usedKind s core kind 0) n).isSome then [] else (clearBlock s core kind 0 n []).getD []

/-- A register block as it stands after a move. -/
def moveRange (s : State) (m : PruneMove) : State :=
  s.onGroup m.wg fun g => { g with ranges := g.ranges.map fun r => if r.1 == m.slot && r.2.2.1 == m.old then (r.1, r.2.1, m.new, r.2.2.2) else r }

/-- The most warps, up to n, that a core's slots bind, with their places. -/
def bindMost (s : State) (core size : Nat) : Nat → List WarpPlace
  | 0 => []
  | n + 1 => (bindWarps s core size (n + 1) []).getD (bindMost s core size n)

/-- The moves that make room for the register blocks of n warps: a block is cleared for each warp that does not bind, in the first slot with
a free number where one can be. The first argument bounds the blocks. -/
def regMoves (core size n : Nat) : Nat → State → List PruneMove
  | 0, _ => []
  | k + 1, s =>
    if (bindWarps s core size n []).isSome then []
    else
      let taken := bindMost s core size n
      let here (sl : Nat) : List WarpPlace := taken.filter fun x => x.1 == sl
      match (List.range 8).findSome? fun sl =>
        if (s.slotAt core sl).failed || 8 ≤ (usedNumbers s core sl).length + (here sl).length then none
        else clearBlock s core 0 sl (2 ^ size) ((here sl).map fun x => (x.2.2.1, 2 ^ x.2.2.2)) with
      | some ms => ms ++ regMoves core size n k (ms.foldl moveRange s)
      | none => []

/-- The moves that a work-group of a grid needs on a core. -/
def pruneMoves (s : State) (core : Nat) (g : Grid) : List PruneMove :=
  let ws := g.record
  let warps := recordWarps ws g.eff.protect
  let regs := regMoves core (recordSize ws) warps warps s
  regs ++ kindMoves s core 1 (roundUp2 (recordScratch ws)) ++ kindMoves s core 2 (roundUp2 (recordTiles ws))

/-- The payload of an event of kind 4: the core and the needed blocks (R182, R433): size code, warps, scratch granules and tiles. -/
def prunePayload (core : Nat) (g : Grid) : List DWord :=
  [BitVec.ofNat 64 core, BitVec.ofNat 64 (recordSize g.record + 2 ^ 8 * recordWarps g.record g.eff.protect +
    2 ^ 16 * roundUp2 (recordScratch g.record) + 2 ^ 24 * roundUp2 (recordTiles g.record)), 0, 0, 0, 0, 0]

/-- The core and work-group for which the pruner starts on a core. -/
def pruneFor (s : State) (core : Nat) : Option Entry :=
  match stuckHead s (core / 32) with
  | some x => if pruneCore s (core / 32) x == some core then some x else none
  | none => none

/-- PRUNER_TRIGGER: the moves are chosen, or the H-die cores are asked once. -/
def prunerEffect (s : State) (core : Nat) (x : Entry) : State :=
  if s.hostMode 3 then
    if s.host.pending.any (fun e => e.kind == 4 && e.payload.head? == some (BitVec.ofNat 64 core)) then s
    else (raiseEvent s 4 (core / 32) (prunePayload core x.grid)).1
  else { s with dist := { s.dist with moves := s.dist.moves ++ pruneMoves s core x.grid } }

/-- The pruner is to start on a core: no move of it is left there. -/
def prunerReady (s : State) (core : Nat) : Bool := !(s.dist.moves.any fun m => m.core == core) && (pruneFor s core).isSome

def execPrunerTrigger (core : Nat) (s : State) : Host.Outcome State Fault Refusal :=
  .next (match pruneFor s core with
    | some x => if prunerReady s core then prunerEffect s core x else s
    | none => s)

/-! PRUNER_MOVE_STEP. -/

/-- The owners of an allocation: the keys of its warps. -/
def moveOwners (s : State) (m : PruneMove) : List Nat :=
  (s.thr.warps.filter fun x => m.owns x.1 x.2).map (·.1)

/-- A matrix command of a core reads or writes an allocation. -/
def matrixTouches (m : PruneMove) (c : MatCmd) : Bool :=
  c.core == m.core && c.wg == m.wg && match m.kind with
    | 0 => c.warp / 8 % 8 == m.slot && (match c.op with
        | .acrd _ _ => true
        | _ => false)
    | 1 => match c.op with
        | .bld _ _ _ | .mma _ _ _ _ _ | .acld _ _ | .acst _ _ _ => true
        | _ => false
    | _ => c.op.tile.isSome

/-- Move the registers of a range, in every lane of its slot; what the new block held is gone. -/
def moveRegs (s : State) (m : PruneMove) : State :=
  let src := inRange m.core m.slot (32 * m.old) (32 * m.size)
  let taken := s.thr.regs.filter fun (x : Nat × PWord) => src x.1
  let kept := s.thr.regs.filter fun (x : Nat × PWord) => !src x.1 && !inRange m.core m.slot (32 * m.new) (32 * m.size) x.1
  { s with thr := { s.thr with regs := taken.foldl (fun r x => r.insert (x.1 - 32 * m.old * packageLanes + 32 * m.new * packageLanes) x.2) kept } }

/-- Copy an allocation to its new block and rewrite its owners' bases (R43, R54). -/
def moveBlock (s : State) (m : PruneMove) : State :=
  let owners := moveOwners s m
  match m.kind with
  | 0 =>
    let s := owners.foldl (fun s k => s.onWarp k fun w => { w with base := m.new }) (moveRegs s m)
    moveRange s m
  | 1 =>
    let s := s.onScratch fun c => c.move (scratchAddr m.core (4096 * m.old)) (scratchAddr m.core (4096 * m.new)) (4096 * m.size)
    let s := owners.foldl (fun s k => s.onWarp k fun w => { w with segs := { w.segs with
      sbase := w.segs.sbase + BitVec.ofNat 19 (4096 * m.new) - BitVec.ofNat 19 (4096 * m.old) } }) s
    s.onGroup m.wg fun g => { g with scr := (m.new, g.scr.2) }
  | _ =>
    let s := s.onAcc fun c => c.move (tileAddr m.core m.old 0) (tileAddr m.core m.new 0) (tileSize * m.size)
    let s := owners.foldl (fun s k => s.onWarp k fun w => { w with segs := { w.segs with
      abase := w.segs.abase + BitVec.ofNat 6 m.new - BitVec.ofNat 6 m.old } }) s
    s.onGroup m.wg fun g => { g with tiles := (m.new, g.tiles.2) }

/-- An allocation still stands where the move found it: its work-group has not left or been saved or reset since. -/
def moveValid (s : State) (m : PruneMove) : Bool :=
  (holdings s m.core m.kind m.slot).contains (m.old, m.size, m.wg) && match s.work.groups.find m.wg with
    | some g => !g.dead
    | none => false

/-- The move of a core that is next. -/
def nextPrune (s : State) (core : Nat) : Option PruneMove := s.dist.moves.find? fun m => m.core == core

/-- Forget a move. -/
def dropMove (s : State) (m : PruneMove) : State := { s with dist := { s.dist with moves := s.dist.moves.erase m } }

/-- Every owner stands at a run boundary, and no matrix command touches the allocation. -/
def moveReady (s : State) (m : PruneMove) : Bool :=
  ((moveOwners s m).all fun k => match s.warpAt k with
    | some w => w.run.isNone
    | none => true) && !(s.mem.matrix.any (matrixTouches m))

/-- Stop the owners of an allocation for its move, or let them go. -/
def stopOwners (s : State) (m : PruneMove) (stopped : Bool) : State :=
  { s with dist := { s.dist with moves := s.dist.moves.map fun x => if x == m then { x with stopped := stopped } else x } }

/-- PRUNER_MOVE_STEP: the owners are stopped; then the allocation moves and they go on. While a contract job is active on the core's set the
pruner does not run there, and the owners of a move that it had begun go on (R167). -/
def pruneStepEffect (s : State) (m : PruneMove) : State :=
  if !moveValid s m then dropMove s m
  else if jobActive s m.core then stopOwners s m false
  else if !m.stopped then stopOwners s m true
  else if moveReady s m then moveBlock (dropMove s m) m
  else s

/-- A move of a core can go on. -/
def pruneStepReady (s : State) (core : Nat) : Bool :=
  match nextPrune s core with
  | some m => !moveValid s m || (if jobActive s core then m.stopped else !m.stopped || moveReady s m)
  | none => false

def execPrunerMoveStep (core : Nat) (s : State) : Host.Outcome State Fault Refusal :=
  .next (match nextPrune s core with
    | some m => if pruneStepReady s core then pruneStepEffect s m else s
    | none => s)

/-- A named move is possible: the allocation is movable and its new block is free, within its space and its slot. -/
def namedMove (s : State) (core kind slot old new : Nat) : Option PruneMove :=
  match (holdings s core kind slot).find? fun h => h.1 == old with
  | some (a, n, wg) =>
    if new % n == 0 && new + n ≤ 2 ^ kindLog kind && !(usedKind s core kind slot).any (runsMeet (new, n)) &&
      !(fixedBlocks s core kind slot).any (runsMeet (a, n)) then some ⟨core, kind, slot, a, new, n, wg, false⟩ else none
  | none => none

/-- PRUNE_ANSWER: host software names the allocations, each by its kind plus 4 times its slot and its first unit, and their new blocks
(R182); the pruner moves those that can move. -/
def pruneAnswerEffect (s : State) (e : HostEvent) (moves : List (Nat × Nat × Nat)) : State :=
  let core := (e.payload.headD 0).toNat
  if jobActive s core then s.answered e
  else moves.foldl (fun s m => match namedMove s core (m.1 % 4) (m.1 / 4) m.2.1 m.2.2 with
    | some x => { s with dist := { s.dist with moves := s.dist.moves ++ [x] } }
    | none => s) (s.answered e)

def execPruneAnswer (tag : Nat) (moves : List (Nat × Nat × Nat)) (s : State) : Host.Outcome State Fault Refusal :=
  .next (match pendingEvent s 4 tag with
    | some e => pruneAnswerEffect s e moves
    | none => s)

end Sys2Proof.Machine
end

