-- ==== Sys2Proof/Machine/Contract.lean ====
section
/-! DEFINITION. Real-time contracts: admission, release, charge, overrun, deadline miss and removal (spec/07_work_queues.md R170 to R175,
R182; spec/09_tables.md R224, R225; spec/10_counters.md R244). -/

namespace Sys2Proof.Machine

/-! Registers of the H-die configuration space, as 4-byte words (R413, R414). -/

/-- A 4-byte word. -/
def State.cfg32 (s : State) (off : Nat) : Nat := s.att.regs.getD off 0

/-- An 8-byte word. -/
def State.cfg64 (s : State) (off : Nat) : Nat := s.cfg32 off + 2 ^ 32 * s.cfg32 (off + 4)

def State.setCfg32 (s : State) (off v : Nat) : State := { s with att := { s.att with regs := s.att.regs.insert off (v % 2 ^ 32) } }

def State.setCfg64 (s : State) (off v : Nat) : State := (s.setCfg32 off v).setCfg32 (off + 4) (v / 2 ^ 32)

/-! The fields of a table entry or request (R170, R224). -/

/-- The preemption bound L (R176). -/
def preemptionBound : Nat := 1600

def entryWord (e : List DWord) (i : Nat) : Nat := (e.getD i 0).toNat
def entryP (e : List DWord) : Nat := bits 31 0 (entryWord e 0)
def entryB (e : List DWord) : Nat := bits 63 32 (entryWord e 0)
def entryD (e : List DWord) : Nat := bits 31 0 (entryWord e 1)
def entryState (e : List DWord) : Nat := bits 33 32 (entryWord e 1)
def entryPhase (e : List DWord) : Nat := entryWord e 2
def entryCores (e : List DWord) : BitVec 128 := (e.getD 4 0) ++ (e.getD 3 0)
def entryWarps (e : List DWord) : Nat := bits 6 0 (entryWord e 5)
def entrySize (e : List DWord) : Nat := bits 9 7 (entryWord e 5)
def entryScratch (e : List DWord) : Nat := roundUp2 (bits 17 10 (entryWord e 5))
def entryTiles (e : List DWord) : Nat := roundUp2 (bits 24 18 (entryWord e 5))

/-- An entry with its state field set. -/
def withState (e : List DWord) (st : Nat) : List DWord := e.set 1 (BitVec.ofNat 64 (entryD e + 2 ^ 32 * st))

/-! Admission (R173, R225). -/

/-- A request with a field outside the limits of R170, or a reserved field that is not 0. -/
def requestBad (e : List DWord) : Bool :=
  entryP e < 3200 || entryB e == 0 || entryB e > entryP e || entryD e > entryP e || entryCores e == 0 || entrySize e > 4 ||
    bits 63 34 (entryWord e 1) != 0 || bits 63 25 (entryWord e 5) != 0

/-- The contracts on a core set, with their entries. -/
def contractsOn (s : State) (cores : BitVec 128) : List (List DWord) :=
  (s.work.contracts.filter fun x => entryCores x.2.entry == cores).map (·.2.entry)

/-- Every die of a core set runs at 1.2 GHz or faster. -/
def fastEnough (s : State) (cores : BitVec 128) : Bool :=
  (List.range 4).all fun d => (cores &&& dieSlices d) == 0 || match s.clk.dies[d]? with
    | some c => c.running && 12 ≤ c.code
    | none => false

/-- The spot that the footprint of a request takes on a core. -/
def footprintOn (s : State) (e : List DWord) (core : Nat) : Option Spot :=
  if s.coreOut core then none
  else match bindWarps s core (entrySize e) (entryWarps e) [], allocate 7 (usedScr s core) (entryScratch e),
      allocate 6 (usedTiles s core) (entryTiles e) with
    | some rs, some a, some b => some ⟨core, rs, (a, entryScratch e), (b, entryTiles e), (0, 0)⟩
    | _, _, _ => none

/-- The spots of the footprint on every core of the set. -/
def footprint (s : State) (e : List DWord) : List Nat → Option (List Spot)
  | [] => some []
  | c :: cs => match footprintOn s e c, footprint s e cs with
    | some x, some xs => some (x :: xs)
    | _, _ => none

/-- The sum of B/P over entries, as numerator and denominator. -/
def utilisation (es : List (List DWord)) : Nat × Nat :=
  es.foldl (fun x e => (x.1 * entryP e + entryB e * x.2, x.2 * entryP e)) (0, 1)

/-- The first test that a request fails; none when all pass (R173, R225). -/
def admissionStatus (s : State) (e : List DWord) : Nat :=
  let cores := entryCores e
  let es := e :: contractsOn s cores
  let (n, d) := utilisation es
  let least := es.foldl (fun m x => min m (entryP x)) (entryP e)
  if requestBad e then 7
  else if !fastEnough s cores || s.work.contracts.any (fun x => entryCores x.2.entry != cores && (entryCores x.2.entry &&& cores) != 0) then 1
  else if s.work.contracts.length ≥ 64 || es.length > 8 then 2
  else if (footprint s e (bitCores cores)).isNone then 3
  else if entryB e + preemptionBound > entryD e then 4
  else if 10 * n > 9 * d then 5
  else if es.length > 1 && (es.any (fun x => entryD x != entryP x) || n * least + preemptionBound * d > d * least) then 6
  else 0

/-- The first release of a contract: at its phase, or at the first t_k that has not passed (R171). -/
def firstRelease (s : State) (e : List DWord) : Nat :=
  let now := s.clk.ref.toNat
  if now ≤ entryPhase e then entryPhase e else entryPhase e + (now - entryPhase e + entryP e - 1) / entryP e * entryP e

/-- The lowest free entry of the contract table. -/
def freeEntry (s : State) : Option Nat := (List.range 64).find? fun n => (s.work.contracts.find n).isNone

/-- Enter a contract with its reservations. -/
def enterContract (s : State) (e : List DWord) (rs : List Spot) : State :=
  match freeEntry s with
  | some n => { s with work := { s.work with contracts := s.work.contracts.insert n ⟨withState e 1, firstRelease s e, none, rs, none⟩ } }
  | none => s

/-- Answer a request: the status and its count (R225, R244); a status past 0x07 has no count. -/
def answerAdmission (s : State) (st : Nat) : State :=
  let s := s.setCfg32 0x4040 st
  if st < 8 then s.bump (0x3C00 + 4 * st) 1 else s

/-- The request that stands in the configuration space. -/
def admissionRequest (s : State) : List DWord := (List.range 8).map fun i => BitVec.ofNat 64 (s.cfg64 (0x4000 + 8 * i))

/-- CONTRACT_ADMISSION: the tests in order; or the request goes to the H-die cores, once until it is answered (R173, R182). -/
def admissionEffect (s : State) : State :=
  let e := admissionRequest s
  if s.hostMode 1 then
    if s.host.pending.any (fun x => x.kind == 3) then s else (raiseEvent s 3 4 (e.take 7)).1
  else
    let st := admissionStatus s e
    let s := if st == 0 then enterContract s e ((footprint s e (bitCores (entryCores e))).getD []) else s
    answerAdmission s st

def execContractAdmission (s : State) : Host.Outcome State Fault Refusal := .next (admissionEffect s)

/-- The spot that host software claims on a core: places are a core, a slot with a first block of registers, or 8 with a first granule of
scratch, or 9 with a first tile (R182). -/
def claimedSpot (s : State) (e : List DWord) (places : List (Nat × Nat × Nat)) (core : Nat) : Option Spot :=
  let mine := places.filter fun p => p.1 == core
  let first (k : Nat) : Nat := ((mine.find? fun p => p.2.1 == k).map (·.2.2)).getD 0
  let regs := (mine.filter fun p => p.2.1 < 8).map (·.2)
  let free (k : Nat) (used : List (Nat × Nat)) (a n : Nat) : Bool := n == 0 || (a % n == 0 && a + n ≤ 2 ^ k && !used.any (runsMeet (a, n)))
  let size := 2 ^ entrySize e
  let bound : Option (List WarpPlace) := regs.foldl (fun acc p =>
    match acc with
    | none => none
    | some taken =>
      let here := taken.filter fun x => x.1 == p.1
      let nums := usedNumbers s core p.1 ++ here.map (·.2.1)
      if !free 4 (usedRanges s core p.1 ++ here.map fun x => (x.2.2.1, 2 ^ x.2.2.2)) p.2 size || (s.slotAt core p.1).failed then none
      else ((List.range 8).find? fun n => !nums.contains n).map fun n => taken ++ [(p.1, n, p.2, entrySize e)]) (some [])
  match bound with
  | none => none
  | some rs =>
    if rs.length != entryWarps e || s.coreOut core || !free 7 (usedScr s core) (first 8) (entryScratch e) ||
        !free 6 (usedTiles s core) (first 9) (entryTiles e) then none
    else some ⟨core, rs, (first 8, entryScratch e), (first 9, entryTiles e), (0, 0)⟩

/-- The spots that host software claims on every core of the set. -/
def claimed (s : State) (e : List DWord) (places : List (Nat × Nat × Nat)) : List Nat → Option (List Spot)
  | [] => some []
  | c :: cs => match claimedSpot s e places c, claimed s e places cs with
    | some x, some xs => some (x :: xs)
    | _, _ => none

/-- ADMISSION_ANSWER: a refusal, or the placed reservations, which must be free (R182). The request's last double word, the bough, has no place
in the event's payload: it is read as the register has it when the answer comes (DESIGN CHOICE, log 50). -/
def admissionAnswerEffect (s : State) (x : HostEvent) (status : Nat) (places : List (Nat × Nat × Nat)) : State :=
  let e := x.payload ++ [BitVec.ofNat 64 (s.cfg64 0x4038)]
  let s := s.answered x
  if status != 0 then answerAdmission s (status % 256)
  else if (freeEntry s).isNone then answerAdmission s 2
  else match claimed s e places (bitCores (entryCores e)) with
    | some rs => answerAdmission (enterContract s e rs) 0
    | none => answerAdmission s 3

def execAdmissionAnswer (tag status : Nat) (places : List (Nat × Nat × Nat)) (s : State) : Host.Outcome State Fault Refusal :=
  .next (match pendingEvent s 3 tag with
    | some e => admissionAnswerEffect s e status places
    | none => s)

/-! Releases (R171). -/

/-- The context's work is stopped, or being pre-empted, on a core of a set (R177, R180). -/
def setStopped (s : State) (ctx : Nat) (cores : BitVec 128) : Bool :=
  (s.ctl.barred.getD ctx 0 &&& cores) != 0 || (s.ctl.preempts.any fun p => p.ctx == ctx && (p.cores &&& cores) != 0)

/-- A release is due: its tick has come, and the package queue has room. -/
def releaseDue (s : State) (c : Contract) : Bool := entryState c.entry == 1 && c.next ≤ s.clk.ref.toNat && s.packageQueueFree

/-- A contract after its release. -/
def Contract.released (c : Contract) (j : Option Job) : Contract := { c with next := c.next + entryP c.entry, job := j }

def State.setContract (s : State) (n : Nat) (c : Contract) : State := { s with work := { s.work with contracts := s.work.contracts.insert n c } }

/-- A release is skipped and counted. -/
def skipRelease (s : State) (n : Nat) (c : Contract) : State := (s.setContract n (c.released c.job)).bump (0x3808 + 16 * n) 1

/-- The record that a contract launches: in the contract's bough (R171). -/
def contractRecord (c : Contract) (bs : List Byte) : List DWord :=
  ((List.range 16).map fun i => BitVec.ofNat 64 (leNat ((bs.drop (8 * i)).take 8))).set 0 (c.entry.getD 7 0)

/-- CONTRACT_RELEASE: job k enters the package queue, or its release is skipped. -/
def contractReleaseEffect (s : State) (n : Nat) (c : Contract) : State :=
  if c.job.isSome then skipRelease s n c
  else
    let pa := entryWord c.entry 6
    match s.poolRead pa 128 with
    | none => s.poolAsk pa 128
    | some (bs, p) =>
      let s := s.poolDrop pa 128
      let ws := contractRecord c bs
      let ctx := bits 10 0 (ws.getD 12 0).toNat
      if setStopped s ctx (entryCores c.entry) then skipRelease s n c
      else if p then skipRelease s n c
      else
        let j : Job := ⟨c.next, c.next + entryD c.entry, 0, true, false⟩
        let s := s.setContract n { c.released (some j) with ctx := some ctx }
        { s with dist := { s.dist with records := s.dist.records ++ [⟨ws, ctx, pa, none, some n, none⟩] } }

def execContractRelease (contract : Nat) (s : State) : Host.Outcome State Fault Refusal :=
  .next (match s.work.contracts.find contract with
    | some c => if releaseDue s c then contractReleaseEffect s contract c else s
    | none => s)

/-! Charges and deadlines (R171, R172). -/

/-- The charge of the tick that ends now: a running job pays one unit, but for the 1,600 ticks after its release. -/
def chargeTick (s : State) : State :=
  let now := s.clk.ref.toNat
  { s with work := { s.work with contracts := s.work.contracts.map fun (x : Nat × Contract) =>
    match x.2.job with
    | some j =>
      if j.active && isRunning s x.1 x.2 && j.release + preemptionBound < now then (x.1, { x.2 with job := some { j with charge := j.charge + 1 } })
      else x
    | none => x } }

/-- The job's absolute deadline has passed. -/
def missDue (s : State) (c : Contract) : Bool :=
  match c.job with
  | some j => !j.missed && j.deadline < s.clk.ref.toNat
  | none => false

def execDeadlineMiss (contract : Nat) (s : State) : Host.Outcome State Fault Refusal :=
  .next (match s.work.contracts.find contract with
    | some c =>
      if missDue s c then (s.setContract contract { c with job := c.job.map fun j => { j with missed := true } }).bump (0x3804 + 16 * contract) 1
      else s
    | none => s)

/-- A job's charge has reached its budget. -/
def overrunDue (c : Contract) : Bool :=
  match c.job with
  | some j => j.active && entryB c.entry ≤ j.charge
  | none => false

def execBudgetOverrun (contract : Nat) (s : State) : Host.Outcome State Fault Refusal :=
  .next (match s.work.contracts.find contract with
    | some c =>
      if overrunDue c then (s.setContract contract { c with job := c.job.map fun j => { j with active := false } }).bump (0x3800 + 16 * contract) 1
      else s
    | none => s)

end Sys2Proof.Machine
end

