-- ==== Sys2Proof/Machine/Save.lean ====
section
/-! DEFINITION. The save image of a work-group: its bytes, and what a restore reads from them (spec/11_events.md R265, R266; spec/02 R53, R57;
spec/09 R218). -/

namespace Sys2Proof.Machine

/-! Bytes. -/

/-- Pad bytes with zeros to a length. -/
def padTo (n : Nat) (bs : List Byte) : List Byte := bs ++ List.replicate (n - bs.length) 0

/-- A poison map: the bit of word i is bit i mod 8 of byte i/8 (R265). -/
def poisonMap (ps : List Bool) : List Byte :=
  (List.range (ps.length / 8)).map fun i => BitVec.ofNat 8 ((List.range 8).foldl (fun n t => if ps.getD (8 * i + t) false then n + 2 ^ t else n) 0)

/-- A region of memory on chip with its poison map: n bytes from a. -/
def regionBytes (m : Mem) (a n : Nat) : List Byte := m.readBytes a n ++ poisonMap ((List.range (n / 4)).map fun i => m.poisoned (a / 4 + i))

def flag (b : Bool) (k : Nat) : Nat := if b then 2 ^ k else 0

/-! Lane records (R266). -/

/-- The destination field of a commit entry; the image has no code for vz: 3 in [10:9] is the model's. -/
def destCode : Dest → Nat
  | .v r _ => r
  | .s r _ => 512 + r
  | .tile t => 1024 + t
  | .discard => 1536

/-- A commit entry: its destination, countdown, marks, value, and its load's place and address. -/
def commitBytes (c : Commit) : List Byte :=
  let ws := c.value.getD []
  let load := c.load.getD ⟨0, 0, 0⟩
  leBytes 8 (destCode c.dest + 2 ^ 11 * c.countdown + 2 ^ 16 + flag c.value.isSome 17 + flag (ws.any (·.poison)) 18 +
    flag (c.dest.count == 2) 19 + 2 ^ 20 * load.rep) ++
  leBytes 8 ((ws.getD 0 PWord.zero).val.toNat + 2 ^ 32 * (ws.getD 1 PWord.zero).val.toNat) ++ leBytes 8 load.pc.toNat ++ leBytes 8 load.va.toNat

/-- The words of offsets 0 and 8 of a lane record. -/
def laneWord (x : Lane) : Nat :=
  x.rep + 2 ^ 8 * x.waitCount + 2 ^ 16 * x.window + 2 ^ 20 * x.preds.toNat + 2 ^ 27 * x.predPoison.toNat + 2 ^ 34 * x.flags.toNat +
    flag x.exited 39 + flag x.park.isSome 40 + flag (!x.present) 41

/-- A lane record: state, commit entries, and the register range with its poison map. -/
def laneBytes (s : State) (core slot : Nat) (w : Warp) (l : Nat) : List Byte :=
  let x := w.lane l
  let rs := (List.range w.size).map (s.vreg core slot w l)
  padTo 64 (leBytes 8 x.pc.toNat ++ leBytes 8 (laneWord x)) ++ padTo 512 ((x.commits.take 16).flatMap commitBytes) ++
    rs.flatMap (fun r => leBytes 4 r.val.toNat) ++ poisonMap (rs.map (·.poison))

/-! The fixed part of a warp (R266). -/

/-- A ring level in 24 bytes: the fields of R218 in their order (log entry 10). -/
def levelBytes (r : RingLevel) : List Byte :=
  leBytes 24 (1 + 2 * (r.openPc.toNat / 4) + 2 ^ 56 * r.mask.toNat + 2 ^ 88 * r.window + 2 ^ 92 * r.logStart + 2 ^ 111 * r.attempt +
    2 ^ 113 * r.classes.toNat)

/-- The ticks left of a wait at `mwait`, saturating at 16 bits. -/
def mwaitLeft (s : State) (w : Warp) : Nat :=
  match w.mwait with
  | some t => min 65535 (t - s.clk.ref.toNat)
  | none => 0

/-- The fixed part: 1,024 bytes. -/
def fixedBytes (s : State) (w : Warp) : List Byte :=
  let g := w.segs
  let d (n : Nat) : List Byte := leBytes 8 n
  let q (n : Nat) : List Byte := leBytes 4 n
  let t := w.trap
  padTo 1024 (
    d g.gbase.toNat ++ d g.glim.toNat ++ d g.cbase.toNat ++ d g.clim.toNat ++ d g.sbase.toNat ++ d g.slim.toNat ++ d g.xbase.toNat ++
    d g.xlim.toNat ++ d g.abase.toNat ++ d g.alim.toNat ++ (w.sregs.flatMap fun r => q r.val.toNat) ++
    d (w.sregs.zipIdx.foldl (fun n x => n + flag x.1.poison x.2) 0) ++
    q w.mode.toNat ++ q w.lsn.toNat ++ q w.ctx.toNat ++ q t.cause.toNat ++ d t.epc.toNat ++ q t.emask.toNat ++ q t.erep.toNat ++
    d t.einfo.toNat ++ q t.eskid.toNat ++
    q (w.cntCopy.toNat + 2 ^ 8 * w.cntMat.toNat + 2 ^ 16 * w.cntGth.toNat + 2 ^ 24 * w.cntCol.toNat) ++
    d (flag w.latch 0 + flag w.inHandler 1 + 2 ^ 8 * mwaitLeft s w) ++ d w.logBase.toNat ++ q w.logLimit ++ q w.logFill ++
    padTo 192 (w.rings.flatMap levelBytes))

/-- A warp's section; of a warp that has left, every lane has exited. -/
def warpBytes (s : State) (h : ImageShape) (g : WorkGroup) (x : Nat × Nat) : List Byte :=
  match s.warpAt (warpKey g.core x.1 x.2) with
  | some w => fixedBytes s w ++ (List.range 32).flatMap (laneBytes s g.core x.1 w)
  | none => List.replicate 1024 0 ++ (List.range 32).flatMap fun _ => padTo h.lane (leBytes 8 0 ++ leBytes 8 (2 ^ 39))

/-! The image (R265). -/

/-- A macro that a save finds: on the core, in the spill slot, or in the image of an earlier save. -/
def macroHome (s : State) (wg : Nat) (g : WorkGroup) (m : Nat) : Option (List Byte) :=
  if (s.macro g.core m).owner == some wg then some (macroBytes (s.macro g.core m))
  else (macroSource s g.core g m).map fun pa => ((s.poolRead pa macroImageSize).map (·.1)).getD (List.replicate macroImageSize 0)

/-- The macros that a work-group's image holds, ascending. -/
def macrosOf (s : State) (wg : Nat) (g : WorkGroup) : List (Nat × List Byte) := (List.range 16).filterMap fun m => (macroHome s wg g m).map (m, ·)

/-- Bytes of macros that lie at other packages and are not here yet. -/
def macroMissing (s : State) (wg : Nat) (g : WorkGroup) : Option Nat :=
  (List.range 16).findSome? fun m =>
    if (s.macro g.core m).owner == some wg then none
    else match macroSource s g.core g m with
      | some pa => if (s.poolRead pa macroImageSize).isNone then some pa else none
      | none => none

/-- The polarity bits of a work-group's granules. -/
def polarityOf (s : State) (g : WorkGroup) : Nat := bits 15 0 ((s.mem.polarity.getD g.core 0).toNat / 2 ^ g.exch.1 % 2 ^ g.exch.2)

/-- A role of a work-group's exchange region: the front or the shadow granules, with their poison map. -/
def roleBytes (s : State) (g : WorkGroup) (shadow : Bool) : List Byte :=
  let a (i : Nat) : Nat := exchAddr g.core (s.exchBank g.core (4096 * (g.exch.1 + i)) shadow) (4096 * (g.exch.1 + i))
  (List.range g.exch.2).flatMap (fun i => s.mem.exch.readBytes (a i) 4096) ++
    (List.range g.exch.2).flatMap fun i => poisonMap ((List.range 1024).map fun k => s.mem.exch.poisoned (a i / 4 + k))

/-- The header's double words. -/
def headerWords (s : State) (grid : Grid) (g : WorkGroup) (macros : List Nat) : List Nat :=
  let h := grid.shape
  let gang := g.gang.bind s.work.gangs.find
  let present := macros.foldl (fun n m => n + 2 ^ m) 0
  [1 + flag (g.halt.isSome || g.contained.isSome) 8 + flag grid.eff.protect 9 + 2 ^ 10 * h.warps + 2 ^ 16 * present, g.id.toNat, grid.addr,
    h.slim + 2 ^ 20 * h.tiles + 2 ^ 27 * h.gran + 2 ^ 32 * recordSize grid.record,
    g.barCount + flag g.barPhase 5 + (match gang with
      | some x => 2 ^ 16 * x.count + flag x.phase 26 + flag (x.form == some true) 27
      | none => 0)]

/-- The whole image of a work-group. -/
def imageBytes (s : State) (wg : Nat) (g : WorkGroup) (grid : Grid) : List Byte :=
  let h := grid.shape
  let ms := macrosOf s wg g
  padTo 128 ((headerWords s grid g (ms.map (·.1))).flatMap (leBytes 8)) ++
    (g.warps.zip g.ranges).flatMap (fun x => warpBytes s h g x.1) ++
    regionBytes s.mem.scratch (scratchAddr g.core (4096 * g.scr.1)) h.slim ++
    roleBytes s g false ++ roleBytes s g true ++ padTo 64 (leBytes 2 (polarityOf s g)) ++
    regionBytes s.mem.acc (tileAddr g.core g.tiles.1 0) (tileSize * h.tiles) ++ ms.flatMap (·.2)

/-! Reading an image back. -/

/-- A number of n bytes at an offset. -/
def imageNat (bs : List Byte) (o n : Nat) : Nat := leNat ((bs.drop o).take n)

/-- The bit of word i of the map at an offset. -/
def mapBit (bs : List Byte) (o i : Nat) : Bool := (bs.getD (o + i / 8) 0).getLsbD (i % 8)

/-- A reserved field of one of n commit entries is not 0. -/
def commitsBad : Nat → List Byte → Bool
  | 0, _ => false
  | n + 1, bs => imageNat bs 3 5 / 4 != 0 || commitsBad n (bs.drop 32)

/-- A reserved field of a lane record is not 0 (R266). -/
def laneBad (bs : List Byte) : Bool :=
  let w := imageNat bs 8 8
  bits 7 6 w != 0 || bits 15 11 w != 0 || bits 63 42 w != 0 || imageNat bs 16 48 != 0 || commitsBad 16 (bs.drop 64)

/-- A reserved field of one of n lane records of the given size is not 0. -/
def lanesBad (size : Nat) : Nat → List Byte → Bool
  | 0, _ => false
  | n + 1, bs => laneBad bs || lanesBad size n (bs.drop size)

/-- A reserved field of the header, of a warp's fixed part or of a lane record is not 0, or the version is not 0x01 (R268). -/
def imageBad (h : ImageShape) (bs : List Byte) : Bool :=
  let w (i : Nat) : Nat := imageNat bs (8 * i) 8
  let fixed (i : Nat) : Bool :=
    let o := h.warpAt i
    imageNat bs (o + 179) 5 != 0 || [7, 15, 23, 31].any (fun k => bits k (k - 1) (imageNat bs (o + 228) 4) != 0) || bits 63 24 (imageNat bs (o + 232) 8) != 0 || bits 7 2 (imageNat bs (o + 232) 1) != 0 ||
      imageNat bs (o + 448) 576 != 0 || lanesBad h.lane 32 (bs.drop (o + 1024))
  bits 7 0 (w 0) != 1 || bits 15 15 (w 0) != 0 || bits 63 35 (w 3) != 0 || bits 15 6 (w 4) != 0 || bits 63 28 (w 4) != 0 ||
    imageNat bs 40 88 != 0 || (List.range h.warps).any fixed

/-- A ring level from its 24 bytes. -/
def levelOf (n : Nat) : RingLevel :=
  ⟨BitVec.ofNat 57 (4 * bits 55 1 n), BitVec.ofNat 32 (bits 87 56 n), bits 91 88 n, bits 110 92 n, bits 112 111 n, BitVec.ofNat 4 (bits 116 113 n)⟩

/-- A destination from its code and the number of its words. -/
def savedDest (c n : Nat) : Dest :=
  match bits 10 9 c with
  | 0 => .v (bits 8 0 c) n
  | 1 => .s (bits 8 0 c) n
  | 2 => .tile (bits 8 0 c)
  | _ => .discard

/-- A commit entry read back over the entry as it was saved, which keeps the flags that the image does not hold, and the value of an
entry of more than two words. -/
def commitOf (bs : List Byte) (o : Nat) (c : Commit) : Commit :=
  let w := imageNat bs o 8
  let v := imageNat bs (o + 8) 8
  let p := w.testBit 18
  let n := if c.dest.count > 2 then c.dest.count else if w.testBit 19 then 2 else 1
  let words : List PWord := [⟨BitVec.ofNat 32 v, p⟩] ++ (if n == 2 then [⟨BitVec.ofNat 32 (v / 2 ^ 32), p⟩] else [])
  { c with
    dest := savedDest w n
    countdown := bits 15 11 w
    value := if !w.testBit 17 then none else if n > 2 then c.value else some words
    load := if w.testBit 17 then c.load
      else some ⟨BitVec.ofNat 57 (imageNat bs (o + 16) 8), bits 25 20 w, BitVec.ofNat 57 (imageNat bs (o + 24) 8)⟩ }

/-- A lane read back over the lane as it was saved. -/
def laneOf (bs : List Byte) (o : Nat) (x : Lane) : Lane :=
  let w := imageNat bs (o + 8) 8
  { x with
    present := !w.testBit 41
    exited := w.testBit 39
    pc := BitVec.ofNat 57 (imageNat bs o 8)
    rep := bits 5 0 w
    window := bits 19 16 w
    preds := BitVec.ofNat 7 (bits 26 20 w)
    predPoison := BitVec.ofNat 7 (bits 33 27 w)
    flags := BitVec.ofNat 5 (bits 38 34 w)
    waitCount := bits 10 8 w
    commits := x.commits.zipIdx.map fun (c, i) => if i < 16 then commitOf bs (o + 64 + 32 * i) c else c
    park := if w.testBit 40 then x.park else none
    loads := [], storeAfter := [], accessAfter := [], acquireAfter := [], loadAfter := [], seen := [] }

/-- A lane that has passed a barrier while it was saved. -/
def Lane.passed (s : State) (after : List Nat) (x : Lane) : Lane :=
  if x.park.isSome then { x with park := none, pc := x.pc + 4, rep := 0, accessAfter := s.stillPending after } else x

/-- A warp read back over the warp as it was saved, for a work-group whose blocks have moved. -/
def warpOf (bs : List Byte) (h : ImageShape) (i : Nat) (old new : WorkGroup) (r : Nat × Nat × Nat × Nat) (spare : Option Nat) (stamp : Nat)
    (w : Warp) : Warp :=
  let o := h.warpAt i
  let d (k : Nat) : Nat := imageNat bs (o + k) 8
  let q (k : Nat) : Nat := imageNat bs (o + k) 4
  let cnt := q 228
  let marks := d 232
  let segs : Segments :=
    { gbase := BitVec.ofNat 57 (d 0), glim := BitVec.ofNat 57 (d 8), cbase := BitVec.ofNat 57 (d 16), clim := BitVec.ofNat 32 (d 24)
      sbase := BitVec.ofNat 19 (d 32) + BitVec.ofNat 19 (4096 * new.scr.1) - BitVec.ofNat 19 (4096 * old.scr.1), slim := BitVec.ofNat 20 (d 40)
      xbase := BitVec.ofNat 16 (d 48) + BitVec.ofNat 16 (4096 * new.exch.1) - BitVec.ofNat 16 (4096 * old.exch.1), xlim := BitVec.ofNat 17 (d 56)
      abase := BitVec.ofNat 6 (d 64) + BitVec.ofNat 6 (new.tiles.1) - BitVec.ofNat 6 (old.tiles.1), alim := BitVec.ofNat 7 (d 72) }
  let levels := (List.range 8).map fun k => imageNat bs (o + 256 + 24 * k) 24
  { w with
    lanes := w.lanes.zipIdx.map fun (x, l) => laneOf bs (h.laneAt i l) x
    base := r.2.2.1
    sregs := (List.range 24).map fun k => ⟨BitVec.ofNat 32 (q (80 + 4 * k)), (q 176).testBit k⟩
    segs := segs
    mode := BitVec.ofNat 3 (q 184)
    lsn := BitVec.ofNat 32 (q 188)
    ctx := BitVec.ofNat 11 (q 192)
    trap := ⟨BitVec.ofNat 8 (q 196), BitVec.ofNat 64 (d 200), BitVec.ofNat 32 (q 208), BitVec.ofNat 6 (q 212), BitVec.ofNat 64 (d 216),
      BitVec.ofNat 10 (q 224)⟩
    latch := marks.testBit 0
    inHandler := marks.testBit 1
    rings := (levels.filter fun n => n % 2 == 1).map levelOf
    logBase := BitVec.ofNat 57 (d 240)
    logLimit := q 248
    logFill := q 252
    cntCopy := BitVec.ofNat 6 (bits 5 0 cnt)
    cntMat := BitVec.ofNat 6 (bits 13 8 cnt)
    cntGth := BitVec.ofNat 6 (bits 21 16 cnt)
    cntCol := BitVec.ofNat 6 (bits 29 24 cnt)
    monitor := none, mwait := none, run := none, stamp := stamp, snapshot := false, spared := spare }

/-- Load the registers of a warp's lanes. -/
def loadLanes (bs : List Byte) (h : ImageShape) (i core slot : Nat) (w : Warp) (s : State) : State :=
  (List.range 32).foldl (fun s l =>
    let o := h.laneAt i l + 576
    (List.range w.size).foldl (fun (s : State) r =>
      s.setReg (physReg core slot w l r) ⟨BitVec.ofNat 32 (imageNat bs (o + 4 * r) 4), mapBit bs (o + 4 * w.size) r⟩) s) s

/-- Load a region of memory on chip: n bytes at address a, from offset o of an image with the map at offset p. -/
def loadRegion (bs : List Byte) (o p a n : Nat) (m : Mem) : Mem :=
  (List.range (n / 4)).foldl (fun (m : Mem) i => m.setPoison (a / 4 + i) (mapBit bs p i)) (m.writeBytes a ((bs.drop o).take n))

/-- Load the storage of a work-group (R268). -/
def loadStorage (bs : List Byte) (h : ImageShape) (g : WorkGroup) (s : State) : State :=
  let s := s.onScratch (loadRegion bs h.scratch (h.scratch + h.slim) (scratchAddr g.core (4096 * g.scr.1)) h.slim)
  let s := s.onAcc (loadRegion bs h.acc (h.acc + h.tiles * 65536) (tileAddr g.core g.tiles.1 0) (tileSize * h.tiles))
  let pol := imageNat bs (h.exch + 2 * h.gran * 4224) 2
  let cur := s.mem.polarity.getD g.core 0
  let mask := BitVec.ofNat 16 ((2 ^ g.exch.2 - 1) * 2 ^ g.exch.1)
  let s := { s with mem := { s.mem with polarity := s.mem.polarity.put g.core ((cur &&& ~~~mask) ||| (BitVec.ofNat 16 (pol * 2 ^ g.exch.1) &&& mask)) 0 } }
  (List.range h.gran).foldl (fun (s : State) i => [false, true].foldl (fun (s : State) shadow =>
    let role := h.exch + (if shadow then h.gran * 4224 else 0)
    let off := 4096 * (g.exch.1 + i)
    let a := exchAddr g.core (s.exchBank g.core off shadow) off
    s.onExch fun m => (List.range 1024).foldl (fun (m : Mem) k => m.setPoison (a / 4 + k) (mapBit bs (role + h.gran * 4096) (1024 * i + k)))
      (m.writeBytes a ((bs.drop (role + 4096 * i)).take 4096))) s) s

end Sys2Proof.Machine
end

