-- ==== Sys2Proof/Machine/Preempt.lean ====
section
/-! DEFINITION. The context command window: pre-emption, snapshots, saving, restoring, reset, release and the removal of contracts
(spec/19_attachment_and_startup.md R427, R428; spec/07_work_queues.md R175, R177 to R181; spec/11_events.md R264 to R268). -/

namespace Sys2Proof.Machine

/-! The window (R427). -/

/-- The status of the context command window (R427); before a first command it is 1 (log entry 2). -/
def State.commandStatus (s : State) : Nat := s.att.regs.getD 0x6030 1
def State.setCommandStatus (s : State) (st : Nat) : State := s.setCfg64 0x6030 st

/-- A command word as its register takes it: a reserved bit is discarded (R10). -/
def commandWord (w : DWord) : DWord := w &&& 0x3F07FF001F#64

def commandCode (w : BitVec 64) : Nat := bits 3 0 w.toNat
def commandCtx (w : BitVec 64) : Nat := bits 26 16 w.toNat
def commandRack (w : BitVec 64) : Bool := w.getLsbD 4

/-- What a command works with beside its word: cores, limits, save area, and whether the rack root gave it. -/
structure CommandArgs where
  cores : BitVec 128
  td : Nat
  ts : Nat
  area : Nat
  length : Nat
  rack : Bool

/-- The arguments that stand in the window. -/
def windowArgs (s : State) : CommandArgs :=
  let cores := BitVec.ofNat 64 (s.cfg64 0x6010) ++ BitVec.ofNat 64 (s.cfg64 0x6008)
  ⟨if cores == 0 then BitVec.allOnes 128 else cores, s.cfg32 0x6018, s.cfg32 0x601C, s.cfg64 0x6020, s.cfg64 0x6028, false⟩

/-- A package's share of a rack-wide command: every core, and its part of the save area. -/
def rackArgs (s : State) (td ts area length : Nat) : CommandArgs :=
  ⟨BitVec.allOnes 128, td, ts, area + s.cfg.pkg * (length / 128), length / 128, true⟩

/-! Rack-wide commands (R181). -/

/-- A package has finished its part; the last one gives the status to the packages that asked. -/
def rackReport (s : State) (st : Nat) : State :=
  let c := { s.ctl with waiting := s.ctl.waiting.drop 1, worst := max s.ctl.worst st }
  if !c.waiting.isEmpty then { s with ctl := c }
  else c.requesters.foldl (fun s p => if p == s.cfg.pkg then s.setCommandStatus c.worst else s.send p false (.commandDone c.worst))
    { s with ctl := { c with requesters := [], current := none } }

/-- The end of a command on this package. -/
def finishCommand (s : State) (rack : Bool) (st : Nat) : State :=
  if !rack then s.setCommandStatus st
  else if s.rackRoot == s.cfg.pkg then rackReport s st
  else s.send s.rackRoot false (.commandDone st)

/-! Contexts. -/

/-- The work-groups of a context on a set of cores, but for those that were reset. -/
def contextGroups (s : State) (ctx : Nat) (cores : BitVec 128) : List (Nat × WorkGroup) :=
  s.work.groups.filter fun x => !x.2.dead && cores.getLsbD x.2.core && match s.work.grids.find x.2.grid with
    | some (g : Grid) => g.ctx.toNat == ctx
    | none => false

/-- A pre-emption of a set of cores reaches a work-group: it stands there, or a member of its gang does, for no member stays without the
others (R14; DEDUCED, log 50). -/
def preemptReaches (s : State) (g : WorkGroup) (cores : BitVec 128) : Bool :=
  cores.getLsbD g.core || match g.gang with
    | some n => (gangGroups s n).any fun x => !x.2.dead && cores.getLsbD x.2.core
    | none => false

/-- The work-groups of a context that a pre-emption of a set of cores reaches. -/
def preemptGroups (s : State) (ctx : Nat) (cores : BitVec 128) : List (Nat × WorkGroup) :=
  (contextGroups s ctx (BitVec.allOnes 128)).filter fun x => preemptReaches s x.2 cores

/-- A chunk belongs to a context. -/
def chunkOf (s : State) (ctx : Nat) (c : Chunk) : Bool :=
  match s.work.grids.find c.grid with
  | some g => g.ctx.toNat == ctx
  | none => false

/-- The chunks that a level holds. -/
def levelChunks (l : Level) : List Chunk := l.queue ++ l.opened.map (·.2) ++ l.closed.map (·.2)

/-- A context has launched work on this package. -/
def hasWork (s : State) (ctx : Nat) : Bool :=
  !(contextGroups s ctx (BitVec.allOnes 128)).isEmpty || s.dist.records.any (fun r => r.ctx == ctx) ||
    (List.range 7).any (fun n => (levelChunks (s.level n)).any (chunkOf s ctx)) ||
    s.ctl.saved.any (fun x => s.groupCtx x.1 == some ctx)

/-- A context is stopped (R428), as this package sees it (log entry 11). -/
def contextStopped (s : State) (ctx : Nat) : Bool := s.ctl.stopped.getD ctx 0 == BitVec.allOnes 128 || !hasWork s ctx

/-- Every valid context is stopped (R428): those with work are looked at. -/
def allStopped (s : State) : Bool :=
  let ctxs := (s.work.grids.map fun (x : Nat × Grid) => x.2.ctx.toNat).dedup ++ s.dist.records.map (·.ctx)
  ctxs.all fun c => (s.rootTable c).isNone || contextStopped s c

/-- A context takes no more work on a set of cores until it is resumed. -/
def State.bar (s : State) (ctx : Nat) (cores : BitVec 128) : State :=
  { s with ctl := { s.ctl with barred := s.ctl.barred.insert ctx (s.ctl.barred.getD ctx 0 ||| cores) } }

/-- A context has been stopped on a set of cores. -/
def State.stopOn (s : State) (ctx : Nat) (cores : BitVec 128) : State :=
  { s with ctl := { s.ctl with stopped := s.ctl.stopped.insert ctx (s.ctl.stopped.getD ctx 0 ||| cores) } }

/-! Pre-emption (R177). -/

/-- The bytes of the index of a save area (R428). -/
def indexSize : Nat := 135168

/-- Every byte of a save area is backed. -/
def areaBacked (s : State) (area length : Nat) : Bool :=
  (List.range ((length + 4095) / 4096)).all fun i => s.backed (area + 4096 * i)

/-- A new request joined with one under way: the cores together, the earlier limits (R177). -/
def mergePreempt (s : State) (p q : Preempt) : Preempt :=
  { p with
    cores := p.cores ||| q.cores
    drainEnd := min p.drainEnd q.drainEnd
    snapEnd := min p.snapEnd q.snapEnd
    groups := p.groups ++ (((preemptGroups s p.ctx q.cores).filter fun x => !(p.groups.any fun y => y.1 == x.1)).map fun x => (x.1, x.2.id))
    rack := p.rack + q.rack
    own := p.own || q.own }

/-- Replace the pre-emption of a context. -/
def State.setPreempt (s : State) (p : Preempt) : State :=
  { s with ctl := { s.ctl with preempts := s.ctl.preempts.map fun q => if q.ctx == p.ctx then p else q } }

def findPreempt (s : State) (ctx : Nat) : Option Preempt := s.ctl.preempts.find? fun p => p.ctx == ctx

/-- Command 1: the drain begins. -/
def startPreempt (s : State) (ctx : Nat) (a : CommandArgs) : State :=
  if a.area % 4096 != 0 || a.length % 4096 != 0 then finishCommand s a.rack 3
  else if a.length < indexSize || !areaBacked s a.area a.length then finishCommand s a.rack 2
  else
    let s := if a.rack then s else s.setCommandStatus 0
    let now := s.clk.ref.toNat
    let new : Preempt := {
      ctx := ctx, cores := a.cores, drainEnd := now + a.td, snapEnd := now + a.td + a.ts, ts := a.ts, snap := false, area := a.area,
      length := a.length, groups := (preemptGroups s ctx a.cores).map fun x => (x.1, x.2.id)
      outcomes := [], used := 0, full := false, rack := if a.rack then 1 else 0, own := !a.rack }
    let s := s.bar ctx a.cores
    match findPreempt s ctx with
    | some p => s.setPreempt (mergePreempt s p new)
    | none => { s with ctl := { s.ctl with preempts := s.ctl.preempts ++ [new] } }

/-- The index of a save area (R428). -/
def writeIndex (s : State) (p : Preempt) : State :=
  let entries := p.groups.map (fun x => (x.2, 0, 0)) ++ p.outcomes
  s.poolWrite p.area (padTo 64 (leBytes 8 entries.length ++ leBytes 8 p.used) ++
    entries.flatMap fun (e : DWord × Nat × Nat) => leBytes 8 e.1.toNat ++ leBytes 8 (e.2.1 + e.2.2))

/-- A pre-emption is complete: the index is written, and every request that is joined in it has its answer. -/
def completePreempt (s : State) (p : Preempt) : State :=
  let st := if p.full then 4 else 1
  let s := (writeIndex s p).stopOn p.ctx p.cores
  let s := { s with ctl := { s.ctl with preempts := s.ctl.preempts.filter fun q => q.ctx != p.ctx } }
  let s := if p.own then finishCommand s false st else s
  (List.range p.rack).foldl (fun s _ => finishCommand s true st) s

/-- No work-group of the pre-empted context is left on its cores. -/
def preemptEmpty (s : State) (p : Preempt) : Bool := (preemptGroups s p.ctx p.cores).isEmpty

/-- Request a snapshot of every remaining warp. -/
def requestSnapshots (s : State) (p : Preempt) : State :=
  (preemptGroups s p.ctx p.cores).foldl (fun s x => (groupKeys x.2).foldl (fun s k => s.onWarp k fun w => { w with snapshot := true }) s) s

/-- The drain ends: nothing is left, or its limit has run out. -/
def drainReady (s : State) (p : Preempt) : Bool := !p.snap && (preemptEmpty s p || p.drainEnd ≤ s.clk.ref.toNat)

/-- DRAIN_LIMIT_EXPIRY: what remains is snapshotted; with nothing left the pre-emption is complete. -/
def drainEffect (s : State) (p : Preempt) : State :=
  if preemptEmpty s p then completePreempt s p else requestSnapshots (s.setPreempt { p with snap := true }) p

def execDrainLimitExpiry (ctx : Nat) (s : State) : Host.Outcome State Fault Refusal :=
  .next (match findPreempt s ctx with
    | some p => if drainReady s p then drainEffect s p else s
    | none => s)

/-! WARP_SNAPSHOT (R178, R53). -/

/-- The loads that a warp has in flight. -/
def warpLoads (s : State) (k : Nat) : List (Nat × LoadOp) :=
  s.mem.ops.filterMap fun (x : Nat × MemOp) => match x.2 with
    | .load o => if ofWarps [k] o.agent then some (x.1, o) else none
    | .write _ => none

/-- The stores, atomics and grafts that a warp has in flight. -/
def warpStores (s : State) (k : Nat) : Bool :=
  s.mem.ops.any (fun x => !x.2.isLoad && ofWarps [k] x.2.agent) || s.mem.exchStores.any fun e => e.warp == k

/-- A load that a lane of a warp waits for becomes its replay record: every lane's own, or, for a scalar register, that of the
lowest-numbered lane that waits (R45, R53). -/
def replays (w : Warp) (l : Nat) (o : Nat × LoadOp) : Bool :=
  (w.lane l).loads.contains o.1 && match o.2.dest with
    | .s _ _ => (List.range l).all fun i => !(w.lane i).loads.contains o.1
    | _ => true

/-- The loads of a lane become replay records, with the PC and the repeat index of the load: those under lookahead keep their countdown, those
that the lane waits for are due at its next issue (R51, R53). -/
def snapshotLane (ops : List (Nat × LoadOp)) (w : Warp) (l : Nat) : Lane :=
  let x := w.lane l
  let waited := (ops.filter (replays w l)).map fun o => (⟨o.2.dest, 1, none, 0, some ⟨o.2.pc, o.2.rep, o.2.va⟩, none⟩ : Commit)
  let drop (c : Commit) : Commit := match c.op with
    | some id => if ops.any (fun o => o.1 == id) then { c with op := none } else c
    | none => c
  { x with commits := x.commits.map drop ++ waited, loads := x.loads.filter fun id => !(ops.any fun o => o.1 == id) }

/-- The pre-emption that wants a snapshot of a warp. -/
def snapshotFor (s : State) (w : Warp) : Option Preempt :=
  s.ctl.preempts.find? fun p => p.snap && p.ctx == w.ctx.toNat && match s.work.groups.find w.wg with
    | some g => preemptReaches s g p.cores
    | none => false

/-- A snapshot of a warp has something to do: the request, or the loads of a warp that has stopped. -/
def snapshotReady (s : State) (k : Nat) (w : Warp) : Bool :=
  (snapshotFor s w).isSome && (!w.snapshot || (w.run.isNone && !(warpLoads s k).isEmpty))

def snapshotEffect (s : State) (k : Nat) : State :=
  let s := s.onWarp k fun w => { w with snapshot := true }
  match s.warpAt k with
  | none => s
  | some w =>
    if w.run.isSome then s
    else
      let ops := warpLoads s k
      (ops.foldl (fun (s : State) o => s.dropOp o.1) s).onWarp k fun w => { w with lanes := (List.range 32).map (snapshotLane ops w) }

def execWarpSnapshot (core slot warp : Nat) (s : State) : Host.Outcome State Fault Refusal :=
  .next (match s.warpAt (warpKey core slot warp) with
    | some w => if snapshotReady s (warpKey core slot warp) w then snapshotEffect s (warpKey core slot warp) else s
    | none => s)

/-! WORK_GROUP_SAVE (R178, R265, R428). -/

/-- A warp stands still for its save: it has stopped, its accesses and rollback are complete, and the writes that its loads returned are
performed (R136, R150). -/
def warpSettled (s : State) (k : Nat) : Bool :=
  match s.warpAt k with
  | none => true
  | some w => w.snapshot && w.run.isNone && w.rollback.isNone && w.stop != .halting && (warpLoads s k).isEmpty && !warpStores s k &&
      (w.lanes.all fun x => (s.stillPending x.seen).isEmpty) &&
      !(s.faults.any fun f => f.warp == k && f.wg == w.wg && (!f.reported || faultDeliverable s f))

/-- A work-group can be saved: every warp stands still, no matrix command of it is left, and the pruner does not move it. -/
def saveReady (s : State) (wg : Nat) (g : WorkGroup) : Bool :=
  g.resident && !g.dead && (groupKeys g).all (warpSettled s) && !(s.mem.matrix.any fun c => c.wg == wg) &&
    !(s.dist.moves.any fun m => m.wg == wg && m.stopped)

/-- The pre-emption that saves a work-group. -/
def savingFor (s : State) (wg : Nat) (g : WorkGroup) : Option Preempt :=
  match s.groupCtx wg with
  | some ctx => s.ctl.preempts.find? fun p => p.snap && p.ctx == ctx && preemptReaches s g p.cores
  | none => none

/-- Reset a work-group by pre-emption or by command 3: the report names it (R179). -/
def resetGroup (s : State) (wg : Nat) : State := forcedReset (reportGroup s wg (Report.blank 0x22)) wg

/-- A work-group leaves a pre-emption's list with an outcome. -/
def Preempt.settle (p : Preempt) (wg : Nat) (id : DWord) (outcome off : Nat) : Preempt :=
  { p with groups := p.groups.filter fun x => x.1 != wg, outcomes := p.outcomes ++ [(id, outcome, off)] }

/-- Events that belong to a work-group's warps are withdrawn (R432). -/
def withdrawGroup (s : State) (g : WorkGroup) : State :=
  withdrawEvents s fun e => e.kind == 5 && (groupKeys g).contains (trapWarp e)

/-- The work-group leaves its core: its warps and blocks are free, its macros have no owner. -/
def vacate (s : State) (wg : Nat) (g : WorkGroup) : State :=
  let keys := groupKeys g
  { s with
    thr := { s.thr with warps := s.thr.warps.filter fun x => !keys.contains x.1 }
    work := { s.work with groups := s.work.groups.erase wg }
    mem := { s.mem with macros := s.mem.macros.map fun (x : Nat × Macro) => (x.1, if x.2.owner == some wg then { x.2 with owner := none } else x.2) } }

/-- The warps of a work-group by index. -/
def groupWarps (s : State) (g : WorkGroup) : NMap Warp :=
  g.warps.zipIdx.filterMap fun (x, i) => (s.warpAt (warpKey g.core x.1 x.2)).map (i, ·)

/-- Complete a pre-emption when nothing is left. -/
def settlePreempt (s : State) (ctx : Nat) : State :=
  match findPreempt s ctx with
  | some p => if preemptEmpty s p then completePreempt s p else s
  | none => s

/-- The lanes of a work-group's warps, by index, for which a spare lane is still to be switched in: they failed during the save, and get it
at the restore (R180). -/
def failedLanes (s : State) (g : WorkGroup) : List (Nat × Nat) :=
  (groupWarps s g).filterMap fun (i, w) => match g.warps[i]? with
    | some x =>
      let spare := (s.slotAt g.core x.1).spare
      if w.spared != spare then spare.map (i, ·) else none
    | none => none

/-- A work-group's image and its outcome; or the reset of a work-group for whose image the area has no room. -/
def saveGroup (s : State) (wg : Nat) (g : WorkGroup) (grid : Grid) (p : Preempt) : State :=
    let bs := imageBytes s wg g grid
    let off := indexSize + p.used
    let size := (bs.length + 4095) / 4096 * 4096
    if off + size > p.length then
      (resetGroup s wg).setPreempt { p.settle wg g.id 2 0 with full := true }
    else
      let image := p.area + off
      let s := (s.poolWrite image bs).setPreempt { p.settle wg g.id 1 off with used := p.used + size }
      let x : Saved := ⟨g, image, [], groupWarps s g, polarityOf s g, none, [], failedLanes s g⟩
      let s := vacate (withdrawGroup s g) wg g
      { s with ctl := { s.ctl with saved := s.ctl.saved.insert wg x } }

/-- The work-groups that are saved with one: it alone, or the members of its gang (R14). -/
def membersOf (s : State) (wg : Nat) (g : WorkGroup) : List (Nat × WorkGroup) :=
  match g.gang with
  | some n => (gangGroups s n).filter fun x => !x.2.dead
  | none => [(wg, g)]

/-- The work-groups, the grid and the pre-emption of a save that can take place: every member of a gang stands still. -/
def savePlan (s : State) (wg : Nat) : Option (List (Nat × WorkGroup) × Grid × Preempt) :=
  match s.work.groups.find wg with
  | none => none
  | some g => match s.work.grids.find g.grid, savingFor s wg g with
    | some grid, some p => if (membersOf s wg g).all fun x => saveReady s x.1 x.2 then some (membersOf s wg g, grid, p) else none
    | _, _ => none

/-- WORK_GROUP_SAVE: a work-group is saved, with the other members of its gang. -/
def saveEffect (s : State) (xs : List (Nat × WorkGroup)) (grid : Grid) (p : Preempt) : State :=
  match xs.findSome? fun x => macroMissing s x.1 x.2 with
  | some pa => s.poolAsk pa macroImageSize
  | none => settlePreempt (xs.foldl (fun s x => saveGroup s x.1 x.2 grid ((findPreempt s p.ctx).getD p)) s) p.ctx

def execWorkGroupSave (wg : Nat) (s : State) : Host.Outcome State Fault Refusal :=
  .next (match savePlan s wg with
    | some (xs, grid, p) => saveEffect s xs grid p
    | none => s)

/-! SNAPSHOT_LIMIT_EXPIRY. -/

/-- The snapshot ends: nothing is left, or its limit has run out. -/
def snapEndReady (s : State) (p : Preempt) : Bool := p.snap && (preemptEmpty s p || p.snapEnd ≤ s.clk.ref.toNat)

/-- What remains is reset, and the pre-emption is complete. -/
def snapEndEffect (s : State) (p : Preempt) : State :=
  let left := preemptGroups s p.ctx p.cores
  let s := left.foldl (fun s x => resetGroup s x.1) s
  completePreempt s (left.foldl (fun q x => q.settle x.1 x.2.id 2 0) p)

def execSnapshotLimitExpiry (ctx : Nat) (s : State) : Host.Outcome State Fault Refusal :=
  .next (match findPreempt s ctx with
    | some p => if snapEndReady s p then snapEndEffect s p else s
    | none => s)

/-! Containment ends (R264). -/

/-- A warp that a containment stopped goes on: one that took cause 0x11 as under the resume action; one whose latch was set as its halt or
its handler has it. -/
def releaseWarp (g : WorkGroup) (w : Warp) : Warp :=
  match w.stop with
  | .contained =>
    if w.trap.cause == 0x11 && !w.inHandler then { w with stop := if g.halt.isSome then .halted else .none, latch := g.halt.isSome }
    else if w.inHandler then { w with stop := .none }
    else if g.halt.isSome then { w with stop := if w.trap.cause == 0x0F then .halted else .trapped }
    else { w with stop := .none, latch := false }
  | .halting => if g.halt.isNone || w.inHandler then { w with stop := .none } else w
  | _ => w

/-- Release a work-group from containment. -/
def releaseGroup (s : State) (wg : Nat) (g : WorkGroup) : State :=
  let s := s.onGroup wg fun g => { g with contained := none }
  (groupKeys g).foldl (fun s k => s.onWarp k (releaseWarp g)) s

/-- Command 4. -/
def startRelease (s : State) (ctx : Nat) (rack : Bool) : State :=
  if !(s.ctl.contained.any fun x => x.1 == ctx) then finishCommand s rack 2
  else
    let s := { s with ctl := { s.ctl with contained := s.ctl.contained.erase ctx } }
    let gs := (contextGroups s ctx (BitVec.allOnes 128)).filter fun x => x.2.contained.isSome
    finishCommand (gs.foldl (fun s x => releaseGroup s x.1 x.2) s) rack 1

/-! Reset (R179, R427). -/

/-- Discard the chunks of a context from a level: their grids fail. -/
def discardLevel (ctx : Nat) (s : State) (n : Nat) : State :=
  let l := s.level n
  let gone := (levelChunks l).filter (chunkOf s ctx)
  let keep (c : Chunk) : Bool := !chunkOf s ctx c
  let s' := s.onLevel n fun l => { l with queue := l.queue.filter keep, opened := l.opened.filter (fun x => keep x.2), closed := l.closed.filter fun x => keep x.2 }
  gone.foldl (fun (s : State) c =>
    let s := { s with work := { s.work with grids := s.work.grids.adjust c.grid fun g => { g with failed := true } } }
    groupsDone s c.grid (c.ids.length + (c.count - c.next))) s'

/-- The levels whose work is for a set of cores alone. -/
def levelsFor (cores : BitVec 128) (rack : Bool) : List Nat :=
  let all := cores == BitVec.allOnes 128
  (if all && rack then [0, 1] else []) ++ (if all then [2] else []) ++ ((List.range 4).filter fun d => dieSlices d &&& ~~~cores == 0).map (3 + ·)

/-- Discard the launch records of a context that no distributor has taken; their completion records say failed. -/
def discardRecords (s : State) (ctx : Nat) : State :=
  let gone := s.dist.records.filter fun r => r.ctx == ctx
  let s := { s with dist := { s.dist with records := s.dist.records.filter fun r => r.ctx != ctx } }
  gone.foldl (fun s r => launchEnded (writeCompletion s ctx (r.words.getD 10 0).toNat 2) r.job r.owner) s

/-- The reduce-scatters of a context that wait for ranks end with its reset, as commands that did not run (R179, R361; DEDUCED, log 50). -/
def resetReduces (s : State) (ctx : Nat) : State :=
  let waits (c : CopyCmd) : Bool := c.kind == 7 && c.ctx == ctx && c.engine.isSome && c.status.isNone && c.phase != 2 && c.phase != 3
  let gone := s.eng.copy.filter waits
  let s := { s with eng := { s.eng with copy := s.eng.copy.map fun c => if waits c then { c with status := some 2, acks := [] } else c } }
  gone.foldl (fun s c =>
    let s := { s with eng := { s.eng with broken := s.eng.broken.erase (rankKey c.group c.rank) } }
    dropChunks s (fun h => h.group == c.group && (h.dst == c.rank || (h.src == s.cfg.pkg && h.tag == c.id))) 0) s

/-- Command 3. -/
def startReset (s : State) (ctx : Nat) (a : CommandArgs) : State :=
  let s := (s.bar ctx a.cores).stopOn ctx a.cores
  let s := (contextGroups s ctx a.cores).foldl (fun s x => resetGroup s x.1) s
  let s := (levelsFor a.cores a.rack).foldl (discardLevel ctx) s
  let s := if a.cores == BitVec.allOnes 128 then resetReduces (discardRecords s ctx) ctx else s
  let left := (contextGroups s ctx (BitVec.allOnes 128)).any fun x => x.2.contained.isSome
  let s := if left then s else { s with ctl := { s.ctl with contained := s.ctl.contained.erase ctx } }
  finishCommand s a.rack 1

/-! Resumption (R268, R427). -/

/-- The images that a save area's index lists, with their work-group ids; none while the index lies at another package and is not here. -/
def indexImages (s : State) (area : Nat) : Option (List (Nat × Nat)) :=
  match s.poolRead area 64 with
  | none => none
  | some (bs, _) =>
    let n := min (imageNat bs 0 4) 8192
    match s.poolRead (area + 64) (16 * n) with
    | none => none
    | some (es, _) => some ((List.range n).filterMap fun i =>
        let v := imageNat es (16 * i + 8) 8
        if bits 1 0 v == 1 && v / 4096 != 0 then some (area + v / 4096 * 4096, imageNat es (16 * i) 8) else none)

/-- A resumption ends with its last image. -/
def settleResume (s : State) (ctx : Nat) : State :=
  if s.ctl.restores.any fun r => r.1 == ctx then s
  else match s.ctl.resumes.find? fun r => r.1 == ctx with
    | some (_, rack) => finishCommand { s with ctl := { s.ctl with resumes := s.ctl.resumes.filter fun r => r.1 != ctx } } rack 1
    | none => s

/-- Command 2: the images that the index lists are to be restored, and the context's pending work may launch again. -/
def startResume (s : State) (ctx : Nat) (a : CommandArgs) : State :=
  if !contextStopped s ctx then finishCommand s a.rack 2
  else match indexImages s a.area with
    | none => s.poolAsk a.area indexSize
    | some xs =>
      let mine := xs.filter fun x => s.ctl.saved.any fun y => y.2.image == x.1
      let s := if a.rack then s else s.setCommandStatus 0
      let s := s.poolDrop a.area indexSize
      settleResume { s with ctl := { s.ctl with
        stopped := s.ctl.stopped.erase ctx, barred := s.ctl.barred.erase ctx
        restores := s.ctl.restores ++ mine.map (fun x => (ctx, x.1, x.2))
        resumes := s.ctl.resumes ++ [(ctx, a.rack)] } } ctx

/-! WORK_GROUP_RESTORE (R268). -/

/-- The entry that asks for the restore of a saved work-group. -/
def restoreEntry (s : State) (x : Saved) : Option (Nat × Nat × Nat) := s.ctl.restores.find? fun r => r.2.1 == x.image

/-- The spot on a die for a work-group that is restored, by its hash as R158 chooses, apart from the restored members of its gang. -/
def restoreSpot (s : State) (g : Grid) (x : WorkGroup) (die : Nat) : Option Spot :=
  let members := match x.gang with
    | some n => ((gangGroups s n).filter fun y => !y.2.dead).map (·.2.core)
    | none => []
  if s.att.outDies.contains die then none else dieOffer s die g x.hash.toNat members

/-- The work-group of an image in its new place. -/
def restoredGroup (s : State) (h : ImageShape) (bs : List Byte) (image : Nat) (old : WorkGroup) (spot : Spot) (ctx : Nat) : WorkGroup :=
  let w0 := imageNat bs 0 8
  let w4 := imageNat bs 32 8
  let present := (List.range 16).filter fun m => w0.testBit (16 + m)
  let warps := (old.warps.zip spot.ranges).map fun (x : (Nat × Nat) × WarpPlace) => if x.1.1 == 2 ^ 20 then x.1 else (x.2.1, x.2.2.1)
  let halt := match old.halt with
    | some (c, sl, n) => match old.warps.zipIdx.find? fun y => y.1 == (sl, n) with
      | some (_, i) => match warps[i]? with
        | some (a, b) => some (c, a, b)
        | none => some (c, sl, n)
      | none => some (c, sl, n)
    | none => none
  { old with
    core := spot.core, warps := warps, ranges := spot.ranges, scr := spot.scr, tiles := spot.tiles, exch := spot.exch
    id := BitVec.ofNat 64 (imageNat bs 8 8)
    barCount := bits 4 0 w4, barPhase := w4.testBit 5
    halt := if w0.testBit 8 then halt else none
    contained := s.ctl.contained.find ctx
    pos := freePosition s spot.core, spill := 0
    macroImage := present.zipIdx.map fun (m, i) => (m, image + h.macros + i * macroImageSize) }

/-- Put the warps of an image into their places. -/
def restoreWarps (s : State) (h : ImageShape) (bs : List Byte) (x : Saved) (new : WorkGroup) : State :=
  let halted := (imageNat bs 0 8).testBit 8
  x.warps.foldl (fun (s : State) (y : Nat × Warp) =>
    match new.ranges[y.1]? with
    | none => s
    | some r =>
      let slot := s.slotAt new.core r.1
      let w := warpOf bs h y.1 x.group new r slot.spare slot.runs y.2
      let w := { w with stop := if halted then w.stop else .none }
      let w := if x.passed.isSome then { w with barrier := 0, lanes := w.lanes.map (Lane.passed s x.after) } else w
      let w := if x.group.contained.isSome && new.contained.isNone then releaseWarp new w else w
      loadLanes bs h y.1 new.core r.1 w (s.setWarp (warpKey new.core r.1 r.2.1) w)) s

/-- The key that a warp of a saved work-group has after its restore. -/
def newKey (old new : WorkGroup) (k : Nat) : Nat :=
  match (old.warps.zip new.warps).find? fun x => warpKey old.core x.1.1 x.1.2 == k with
  | some (_, y) => warpKey new.core y.1 y.2
  | none => k

/-- The commands and faults of a restored work-group name its warps' new places. -/
def rekey (s : State) (wg : Nat) (old new : WorkGroup) : State :=
  { s with
    eng := { s.eng with copy := s.eng.copy.map fun (c : CopyCmd) => if c.wg == wg then { c with warp := newKey old new c.warp } else c }
    faults := s.faults.map fun (f : StoreFault) => if f.wg == wg then { f with warp := newKey old new f.warp } else f }

/-- A trap that waits for its handler is handled after the restore (R180). -/
def resumeTrap (s : State) (wg : Nat) (g : WorkGroup) : State :=
  let ws := (groupKeys g).filterMap s.warpAt
  if g.halt.isSome && g.contained.isNone && !(ws.any fun w => w.inHandler) && ws.any (fun w => w.stop == .trapped) then nextTrap s wg else s

/-- An image is refused: the work-group is killed with reason 1 (R268, R259). -/
def killSaved (s : State) (wg : Nat) (x : Saved) (g : Grid) : State :=
  let r : Report := { Report.blank 0x26 with detail := 1, ctx := g.ctx.toNat, wgid := x.group.id.toNat }
  let s := reportTo s g.eff g.ctx.toNat r
  let dropCmd (c : CopyCmd) : CopyCmd :=
    if c.wg == wg && c.slot.isNone && c.engine.isNone && c.status.isNone then { c with status := some 2 } else c
  let s := { s with
    ctl := { s.ctl with saved := s.ctl.saved.erase wg }
    eng := { s.eng with copy := s.eng.copy.map dropCmd }
    work := { s.work with grids := s.work.grids.adjust x.group.grid fun g => { g with failed := true } } }
  groupsDone (settleMembers s x.group.gang) x.group.grid 1

/-- A restore has been made or refused. -/
def endRestore (s : State) (e : Nat × Nat × Nat) : State :=
  settleResume { s with ctl := { s.ctl with restores := s.ctl.restores.erase e } } e.1

/-- The spare lanes of the lanes that failed while a work-group was saved are switched in (R180, R260). -/
def recoverSaved (s : State) (new : WorkGroup) (failed : List (Nat × Nat)) : State :=
  failed.foldl (fun s x => match new.warps[x.1]? with
    | some (slot, n) => match s.warpAt (warpKey new.core slot n) with
      | some w => recoverLane s new.core slot n w x.2
      | none => s
    | none => s) s

/-- A saved work-group with its number, its grid and the entry that asks for its restore. -/
structure Restore where
  wg : Nat
  saved : Saved
  grid : Grid
  entry : Nat × Nat × Nat

/-- The bytes of the image that a restore reads; none while they have not come. -/
def Restore.image (s : State) (r : Restore) : Option (List Byte) := (s.poolRead r.saved.image r.grid.shape.macros).map (·.1)

/-- A restore is refused: its work-group is killed. -/
def refuseRestore (s : State) (r : Restore) : State :=
  endRestore (killSaved (s.poolDrop r.saved.image r.grid.shape.macros) r.wg r.saved r.grid) r.entry

/-- New storage and binding, the sections reloaded, the sync words' loops, and the deliveries on their way again (R268). The loads of the
replay records are made again before each thread's first issue (R53). -/
def restoreGroup (s : State) (r : Restore) (bs : List Byte) (spot : Spot) : State :=
  let x := r.saved
  let g := r.grid
  let h := g.shape
  let s := s.poolDrop x.image h.macros
  let new := restoredGroup s h bs x.image x.group spot g.ctx.toNat
  let s := firstOnCore (clearStorage s new) new.core new.grid g
  let s := loadStorage bs h new { s with
    work := { s.work with groups := s.work.groups.insert r.wg new }
    ctl := { s.ctl with saved := s.ctl.saved.erase r.wg } }
  let s := if x.passed == some true then flipPolarity s new.core new.exch.1 new.exch.2 else s
  let s := rekey (restoreWarps s h bs x new) r.wg x.group new
  let s := x.syncs.foldl (fun (s : State) o => s.arrive new.core (4096 * new.scr.1 + o) 0) s
  endRestore (resumeTrap (recoverSaved s new x.failed) r.wg new) r.entry

/-- Restore work-groups on a die, one after another: all of them, or none. -/
def restoreOn (die : Nat) : List (Restore × List Byte) → State → Option State
  | [], s => some s
  | (r, bs) :: rs, s => match restoreSpot s r.grid r.saved.group die with
    | some spot => restoreOn die rs (restoreGroup s r bs spot)
    | none => none

/-- The dies that a work-group may be restored on: that of its hash first. -/
def restoreDies (x : WorkGroup) : List Nat := (List.range 4).map fun i => (hashDie x.hash.toNat + i) % 4

/-- A saved work-group that is to be restored. -/
def restoreOf (s : State) (wg : Nat) (x : Saved) : Option Restore :=
  match s.work.grids.find x.group.grid, restoreEntry s x with
  | some g, some e => some ⟨wg, x, g, e⟩
  | _, _ => none

/-- What a restore works on: a work-group, with the members of its gang that are to be restored (R14). -/
def restorePlan (s : State) (wg : Nat) : List Restore :=
  match s.ctl.saved.find wg with
  | none => []
  | some x => match x.group.gang with
    | none => (restoreOf s wg x).toList
    | some n => if (restoreOf s wg x).isNone then [] else
        s.ctl.saved.filterMap fun y => if y.2.group.gang == some n then restoreOf s y.1 y.2 else none

/-- The restores of a plan that are refused. -/
def refused (rs : List (Restore × List Byte)) : List Restore := (rs.filter fun x => imageBad x.1.grid.shape x.2).map (·.1)

/-- What the restores of a plan come to: none when no die takes them together. -/
def restoreResult (s : State) (rs : List (Restore × List Byte)) : Option State :=
  match refused rs, rs with
  | r :: rs', _ => some ((r :: rs').foldl refuseRestore s)
  | [], [] => none
  | [], x :: _ => (restoreDies x.1.saved.group).findSome? fun d => restoreOn d rs s

/-- The images of a plan; none while one has not come. -/
def planImages (s : State) : List Restore → Option (List (Restore × List Byte))
  | [] => some []
  | r :: rs => match r.image s, planImages s rs with
    | some bs, some xs => some ((r, bs) :: xs)
    | _, _ => none

/-- WORK_GROUP_RESTORE (R268). -/
def restoreEffect (s : State) (rs : List Restore) : State :=
  match planImages s rs with
  | none => rs.foldl (fun s r => s.poolAsk r.saved.image r.grid.shape.macros) s
  | some xs => (restoreResult s xs).getD s

/-- A restore can go on. -/
def restoreReady (s : State) (wg : Nat) : Bool :=
  let rs := restorePlan s wg
  !rs.isEmpty && match planImages s rs with
    | some xs => (restoreResult s xs).isSome
    | none => rs.any fun r => (r.image s).isNone && !s.fab.wanted.contains (lineOf r.saved.image)

def execWorkGroupRestore (wg : Nat) (s : State) : Host.Outcome State Fault Refusal := .next (restoreEffect s (restorePlan s wg))

/-! Removing a contract (R175, R427). -/

/-- A contract's releases end, and its reservations go with its last job. -/
def removeContract (s : State) (n : Nat) (c : Contract) : State :=
  if c.job.isNone then { s with work := { s.work with contracts := s.work.contracts.erase n } }
  else s.setContract n { c with entry := withState c.entry 2 }

/-- Command 5. -/
def startRemove (s : State) (w : BitVec 64) (rack : Bool) : State :=
  let n := bits 37 32 w.toNat
  match s.work.contracts.find n with
  | none => finishCommand s rack 2
  | some c =>
    let pa := entryWord c.entry 6 + 96
    match s.poolRead pa 8 with
    | none => s.poolAsk pa 8
    | some (bs, _) =>
      let s := s.poolDrop pa 8
      if bits 10 0 (leNat bs) != commandCtx w then finishCommand s rack 2 else finishCommand (removeContract s n c) rack 1

/-! Starting a command. -/

/-- A command's effect on this package. -/
def localCommand (s : State) (w : BitVec 64) (a : CommandArgs) : State :=
  match commandCode w with
  | 1 => startPreempt s (commandCtx w) a
  | 2 => startResume s (commandCtx w) a
  | 3 => startReset s (commandCtx w) a
  | 4 => startRelease s (commandCtx w) a.rack
  | 5 => startRemove s w a.rack
  | _ => finishCommand s a.rack 3

/-- The rack root gives a command to every package, its own among them (R181). -/
def rackBroadcast (s : State) (o : RackOrder) : State :=
  let others := s.cfg.poolTable.dedup.filter fun p => p != s.cfg.pkg
  let s := { s with ctl := { s.ctl with
    waiting := s.ctl.waiting ++ s.cfg.pkg :: others, requesters := s.ctl.requesters ++ [o.src], current := some o.word
    worst := if s.ctl.waiting.isEmpty then 0 else s.ctl.worst } }
  let s := others.foldl (fun (s : State) p => s.send p false (.contextCommand s.cfg.pkg o.word o.td o.ts o.area o.length)) s
  localCommand s o.word (rackArgs s o.td o.ts o.area o.length)

/-- Two requests that are joined: pre-emptions of one context (R177). -/
def joins (v w : DWord) : Bool := commandCode v == 1 && commandCode w == 1 && commandCtx v == commandCtx w

/-- A request reaches the rack root: it is broadcast, also when it joins the pre-emption under way, whose limits it may shorten on every
package; any other waits for the command under way (R177, R181). -/
def rackOrder (s : State) (o : RackOrder) : State :=
  match s.ctl.current with
  | none => rackBroadcast s o
  | some w => if joins w o.word && s.ctl.orders.isEmpty then rackBroadcast s o else { s with ctl := { s.ctl with orders := s.ctl.orders ++ [o] } }

/-- The requests that wait go on, while none is under way. -/
def nextOrder : Nat → State → State
  | 0, s => s
  | n + 1, s => match s.ctl.current, s.ctl.orders with
    | none, o :: os => nextOrder n (rackBroadcast { s with ctl := { s.ctl with orders := os } } o)
    | _, _ => s

/-- A rack-wide command of this package's window. -/
def rackStart (s : State) (w : BitVec 64) : State :=
  let a := windowArgs s
  if commandCode w == 1 && a.length % 524288 != 0 then s.setCommandStatus 3
  else if s.rackRoot == s.cfg.pkg then rackOrder (s.setCommandStatus 0) ⟨s.cfg.pkg, w, a.td, a.ts, a.area, a.length⟩
  else (s.setCommandStatus 0).send s.rackRoot false (.contextCommand s.cfg.pkg w a.td a.ts a.area a.length)

/-- A write of offset 0 of the window: discarded while a command is busy; one with a reserved code is malformed (R427). -/
def windowCommand (s : State) (w : BitVec 64) : State :=
  if s.commandStatus == 0 then s
  else
    let w := commandWord w
    let s := s.setCfg64 0x6000 w.toNat
    if commandCode w == 0 || commandCode w > 5 then s.setCommandStatus 3
    else if commandRack w then rackStart s w
    else localCommand s w (windowArgs s)

def execContextPreempt (w : BitVec 64) (s : State) : Host.Outcome State Fault Refusal :=
  .next (if commandCode w == 1 then windowCommand s w else s)
def execContextResume (w : BitVec 64) (s : State) : Host.Outcome State Fault Refusal :=
  .next (if commandCode w == 2 then windowCommand s w else s)
def execContextReset (w : BitVec 64) (s : State) : Host.Outcome State Fault Refusal :=
  .next (if commandCode w == 3 then windowCommand s w else s)
def execContextRelease (w : BitVec 64) (s : State) : Host.Outcome State Fault Refusal :=
  .next (if commandCode w == 4 then windowCommand s w else s)
def execContractRemove (w : BitVec 64) (s : State) : Host.Outcome State Fault Refusal :=
  .next (if commandCode w == 5 then windowCommand s w else s)

end Sys2Proof.Machine
end

