-- ==== Sys2Proof/Machine/Clock.lean ====
section
/-! DEFINITION. Frequency steps of the C-dies (spec/07_work_queues.md R175; spec/08_engine_queues.md R207; spec/09_tables.md R231; spec/10_counters.md
R241). -/

namespace Sys2Proof.Machine

/-- The clock of a die. -/
def State.dieClock (s : State) (die : Nat) : DieClock := (s.clk.dies[die]?).getD DieClock.init

def State.onDie (s : State) (die : Nat) (f : DieClock → DieClock) : State := { s with clk := { s.clk with dies := s.clk.dies.modify die f } }

/-- A contract has a core of a die in its set. -/
def Contract.usesDie (c : Contract) (die : Nat) : Bool := (entryCores c.entry &&& dieSlices die) != 0

/-- A contract's job is active (R172). -/
def Contract.jobActive (c : Contract) : Bool :=
  match c.job with
  | some j => j.active
  | none => false

/-- A contract's job is active on a die. -/
def State.dieBusy (s : State) (die : Nat) : Bool := s.work.contracts.any fun (x : Nat × Contract) => x.2.usesDie die && x.2.jobActive

/-- A step to a code is refused: it would take a die of a contract's core set below 1.2 GHz (R175). -/
def stepRefused (s : State) (die code : Nat) : Bool := code < 12 && s.work.contracts.any fun (x : Nat × Contract) => x.2.usesDie die

/-- FREQUENCY_STEP_REQUEST: the step is refused, or waits for its moment. -/
def stepRequestEffect (s : State) (die code : Nat) : State :=
  if !(s.dieClock die).running || 24 < code || stepRefused s die code then s
  else s.onDie die fun (d : DieClock) => { d with pending := some (code, s.clk.ref.toNat) }

def execFrequencyStepRequest (die code : Nat) (s : State) : Host.Outcome State Fault Refusal := .next (stepRequestEffect s die code)

/-- A release of a contract of the die falls before a tick: the stall would reach into its job (R175). -/
def releaseBefore (s : State) (die tick : Nat) : Bool :=
  s.work.contracts.any fun (x : Nat × Contract) => x.2.usesDie die && entryState x.2.entry == 1 && x.2.next < tick

/-- FREQUENCY_STEP_EFFECT can take place with a stall of so many ticks. -/
def stepReady (s : State) (die stall : Nat) : Bool :=
  let d := s.dieClock die
  d.running && d.pending.isSome && d.stallEnd.isNone && stall ≤ 800 && !s.dieBusy die && !releaseBefore s die (s.clk.ref.toNat + stall)

/-- The clock after a step, with the record of it (R231, R241). -/
def DieClock.step (d : DieClock) (ref : DWord) (code stall : Nat) : DieClock :=
  let r : StepRecord := ⟨ref, d.cyc, d.code, code, stall, (d.stepCount + 1) % 256, d.frac⟩
  { d with code := code, pending := none, stallEnd := some (ref.toNat + stall), steps := (r :: d.steps).take 8, stepCount := d.stepCount + 1 }

/-- FREQUENCY_STEP_EFFECT: the new clock takes effect, the step is recorded, and the clock-crossing FIFOs relock. -/
def stepEffect (s : State) (die stall : Nat) : State :=
  match (s.dieClock die).pending with
  | none => s
  | some (code, _) =>
    if stepRefused s die code then s.onDie die fun (d : DieClock) => { d with pending := none }
    else s.onDie die fun (d : DieClock) => d.step s.clk.ref code stall

def execFrequencyStepEffect (die stall : Nat) (s : State) : Host.Outcome State Fault Refusal :=
  .next (if stepReady s die stall then stepEffect s die stall else s)

/-- The stall of a die is over. -/
def stallOver (s : State) (die : Nat) : Bool :=
  match (s.dieClock die).stallEnd with
  | some t => t ≤ s.clk.ref.toNat
  | none => false

def execClockCrossingStallEnd (die : Nat) (s : State) : Host.Outcome State Fault Refusal :=
  .next (if stallOver s die then s.onDie die fun (d : DieClock) => { d with stallEnd := none } else s)

/-- The bytes of a step record (R231). -/
def StepRecord.words (r : StepRecord) : List DWord :=
  [r.ref, r.cyc,
    BitVec.ofNat 64 (r.oldCode % 32 + 2 ^ 8 * (r.newCode % 32) + 2 ^ 16 * (r.stall % 65536) + 2 ^ 32 * (r.number % 256)),
    BitVec.ofNat 64 (r.frac % 65536)]

/-- A double word of a die's ring of eight records: step n stands at place n mod 8 (R231; log entry 12). -/
def stepRingWord (d : DieClock) (off : Nat) : DWord :=
  let place := off / 32 % 8
  match d.steps.find? fun (r : StepRecord) => r.number % 8 == place with
  | some r => r.words.getD (off / 8 % 4) 0
  | none => 0

end Sys2Proof.Machine
end

