-- ==== Sys2Proof/Machine/Dram.lean ====
section
/-! DEFINITION. The HBM4E controllers: refresh, its counters, and the repair of data pins (spec/05_package_memories.md R123 to R125;
spec/18_programs_dram_and_links.md R400; spec/20_service.md R438, R439, R441). -/

namespace Sys2Proof.Machine

/-! Banks (R124). -/

def State.bank (s : State) (key : Nat) : Bank := s.dram.banks.getD key Bank.init

def State.onBank (s : State) (key : Nat) (f : Bank → Bank) : State :=
  { s with dram := { s.dram with banks := s.dram.banks.alter key f Bank.init } }

/-- The lines whose write-back a wanted way waits for. -/
def writeBacks (s : State) (wanted : List Nat) : List Nat :=
  wanted.filterMap fun line =>
    if sliceHasWay s line then none
    else match sliceVictim s (sliceOfLine line) (l2Set s.cfg.pw line) with
      | some (v, l) => if l.dirty then some v else none
      | none => none

/-- The lines with a request queued at the stacks: fills, partial writes, reads of engines, encoders and walkers, and write-backs. -/
def waitingLines (s : State) : List Nat :=
  let fills := (s.mem.ops.map fun (x : Nat × MemOp) => lineOf x.2.pa) ++ s.mem.fetches.filterMap (fetchLine s)
  let heads := (s.mem.queue.map fun (e : QueueEntry) => e.line).filter fun line => match queueHead s (sliceOfLine line) with
    | some e => e.line == line && !(sectorsNeeded s e).isEmpty
    | none => false
  let reads := (engineReads s ++ encoderReads s ++ walkReads s).filter fun line => !slicePresent s line
  ((fills.filter fun line => sliceWanted s line && !slicePresent s line) ++ heads ++ reads ++
    writeBacks s (fills ++ s.mem.queue.map fun (e : QueueEntry) => e.line)).dedup

/-- A request to a bank is queued. -/
def bankQueued (s : State) (key : Nat) : Bool := (waitingLines s).any fun line => s.bankKey line == key

/-- A bank is busy: a request queued, one completed within 240 ns, or a pause of its group (R124, R438). -/
def bankBusy (s : State) (key : Nat) : Bool :=
  bankQueued s key || (s.dram.pauses.any fun x => x.1 == key / 128) || match (s.bank key).done with
    | some t => s.clk.ref.toNat < t + 48
    | none => false

/-- The pseudo-channel is refreshed: its stack is up and it is not dropped (R421, R440). -/
def channelUp (s : State) (pc : Nat) : Bool := s.att.stacksUp.contains (pc / 512) && !s.att.outStacks.contains (pc / 512) && !s.dram.dropped.contains pc

/-- A forced all-bank refresh of a pseudo-channel is triggered or runs. -/
def State.forcedAt (s : State) (pc : Nat) : Bool := s.dram.forced.any fun x => x.1 == pc

/-- Start a per-bank refresh at a tick; it lasts 120 ns. -/
def startRefresh (s : State) (pc bank tick : Nat) : State :=
  (s.onBank (16 * pc + bank) fun b => { b with runEnd := some (tick + 24) }).bump (channelCounter pc 8) 1

/-- REFRESH_DUE: the first row of R124 that matches. -/
def refreshDueEffect (s : State) (pc bank : Nat) : State :=
  let key := 16 * pc + bank
  let b := s.bank key
  if s.forcedAt pc then s
  else if b.postponed ≥ 8 then { s with dram := { s.dram with forced := s.dram.forced.insert pc (none, bank) } }
  else if bankBusy s key then (s.onBank key fun b => { b with postponed := b.postponed + 1 }).bump (channelCounter pc 12) 1
  else if b.runEnd.isNone then startRefresh s pc bank s.clk.ref.toNat
  else s.onBank key fun b => { b with waiting := b.waiting + 1 }

def execRefreshDue (pc bank : Nat) (s : State) : Host.Outcome State Fault Refusal :=
  .next (if pc < 4096 && bank < 16 && channelUp s pc then refreshDueEffect s pc bank else s)

/-- The per-bank refreshes that run in a pseudo-channel. -/
def refreshesRun (s : State) (pc : Nat) : Bool := (List.range 16).any fun b => (s.bank (16 * pc + b)).runEnd.isSome

/-- A triggered forced refresh can begin: what ran has completed, and no repair pauses the group (R125, R438). -/
def forcedReady (s : State) (pc : Nat) : Bool :=
  match s.dram.forced.find pc with
  | some (none, _) => channelUp s pc && !refreshesRun s pc && !s.dram.pauses.any fun x => x.1 == pc / 8
  | _ => false

/-- FORCED_ALL_BANK_REFRESH: all sixteen banks refresh for 410 ns. -/
def forcedEffect (s : State) (pc : Nat) : State :=
  let put (x : Option Nat × Nat) : Option Nat × Nat := (some (s.clk.ref.toNat + 82), x.2)
  let s := { s with dram := { s.dram with forced := s.dram.forced.adjust pc put } }
  s.bump (channelCounter pc 4) 1

def execForcedAllBankRefresh (pc : Nat) (s : State) : Host.Outcome State Fault Refusal :=
  .next (if forcedReady s pc then forcedEffect s pc else s)

/-- A postponed refresh can take place: the bank is idle. -/
def drainDue (s : State) (pc bank : Nat) : Bool :=
  let b := s.bank (16 * pc + bank)
  channelUp s pc && 0 < b.postponed && b.runEnd.isNone && b.waiting == 0 && !s.forcedAt pc && !bankBusy s (16 * pc + bank)

def execPostponedRefreshDrain (pc bank : Nat) (s : State) : Host.Outcome State Fault Refusal :=
  .next (if bank < 16 && drainDue s pc bank then
    startRefresh (s.onBank (16 * pc + bank) fun b => { b with postponed := b.postponed - 1 }) pc bank s.clk.ref.toNat
  else s)

/-- A refresh that waited for one to end starts at its end, unless a forced refresh is triggered. -/
def startWaiting (s : State) (pc bank tick : Nat) : State :=
  let b := s.bank (16 * pc + bank)
  if b.waiting == 0 || s.forcedAt pc || !channelUp s pc then s
  else startRefresh (s.onBank (16 * pc + bank) fun b => { b with waiting := b.waiting - 1 }) pc bank tick

/-- The end of a refresh of a bank, or of all banks when `bank` is 16, once its time has come. -/
def refreshEndAt (s : State) (pc bank : Nat) : Option Nat :=
  let t := if bank < 16 then (s.bank (16 * pc + bank)).runEnd else (s.dram.forced.find pc).bind (·.1)
  t.filter (· ≤ s.clk.ref.toNat)

/-- REFRESH_END: after a forced refresh every other bank's nonzero count falls by 1 (R124). -/
def refreshEndEffect (s : State) (pc bank tick : Nat) : State :=
  if bank < 16 then startWaiting (s.onBank (16 * pc + bank) fun b => { b with runEnd := none }) pc bank tick
  else
    let trigger := ((s.dram.forced.find pc).map (·.2)).getD 16
    let s := { s with dram := { s.dram with forced := s.dram.forced.erase pc } }
    (List.range 16).foldl (fun (s : State) b =>
      let s := if b == trigger then s else s.onBank (16 * pc + b) fun (x : Bank) => { x with postponed := x.postponed - 1 }
      startWaiting s pc b tick) s

def execRefreshEnd (pc bank : Nat) (s : State) : Host.Outcome State Fault Refusal :=
  .next (match refreshEndAt s pc bank with
    | some t => refreshEndEffect s pc bank t
    | none => s)

/-- A request to a line waits on a refresh that runs. -/
def waitsOnRefresh (s : State) (line : Nat) : Bool :=
  (s.bank (s.bankKey line)).runEnd.isSome || ((s.dram.forced.find (s.channelOf line)).bind (·.1)).isSome

/-- What a tick of the reference timer adds to the counters of the pseudo-channels (R125, R244). -/
def dramTick (s : State) : State :=
  (waitingLines s).foldl (fun (s : State) line =>
    let pc := s.channelOf line
    let s := s.bump (channelCounter pc 28) 1
    if waitsOnRefresh s line then s.bump (channelCounter pc 0) 1 else s) s

/-! Repair of data pins (R438, R439). Group g of a stack is 64·stack + g; it serves eight pseudo-channels. -/

/-- The group of a pin. -/
def pinGroup (pin : Nat) : Nat := pin / 32

/-- Redundant pins that a group has left. -/
def pinsFree (s : State) (group : Nat) : Nat := 2 - s.dram.repaired.getD group 0

/-- A pin is due for repair. -/
def pinDue (s : State) (pin : Nat) : Bool := s.dram.errors.getD pin 0 ≥ 16 && !s.dram.left.contains pin

/-- A drop copies in the slice that a group serves (R441). -/
def groupCopying (s : State) (group : Nat) : Bool := s.dram.copying.any fun c => sliceOfChannel c == sliceOfChannel (8 * group)

/-- A due pin can be attended to now: no drop copies, no pause of its group runs, and its event is not out. -/
def repairReady (s : State) (pin : Nat) : Bool :=
  pinDue s pin && !groupCopying s (pinGroup pin) && !(s.dram.pauses.any fun x => x.1 == pinGroup pin) && !(s.dram.asked.any fun x => x.2 == pin)

/-- Leave pins in service under ECC: cause 4 when no redundant pin is free (R435). -/
def leavePins (s : State) (pins : List Nat) (cause : Bool) : State :=
  if pins.isEmpty then s
  else
    let s := { s with dram := { s.dram with left := s.dram.left ++ pins } }
    if cause then s.requestReplacement 4 else s

/-- Pause a group to repair pins, as many as it has redundant pins for, the lower-numbered first; the others are left. -/
def repairPins (s : State) (group : Nat) (pins : List Nat) : State :=
  let n := pinsFree s group
  let s := leavePins s (pins.drop n) true
  if (pins.take n).isEmpty then s
  else { s with dram := { s.dram with pauses := s.dram.pauses.insert group (s.clk.ref.toNat + 800, pins.take n) } }

/-- The payload of kind 6 (R439). -/
def pinPayload (s : State) (pin : Nat) : List DWord :=
  [BitVec.ofNat 64 (pin / 2048 + 2 ^ 3 * (pin % 2048 / 32) + 2 ^ 9 * (pin % 32) + 2 ^ 14 * pinsFree s (pinGroup pin) +
    2 ^ 16 * min 65535 (s.dram.errors.getD pin 0)), 0, 0, 0, 0, 0, 0]

/-- PIN_REPAIR_DUE: the group pauses for every pin of it that is due, or the host is asked. -/
def pinDueEffect (s : State) (pin : Nat) : State :=
  if s.hostMode 5 then
    let (s, tag) := raiseEvent s 6 4 (pinPayload s pin)
    { s with dram := { s.dram with asked := s.dram.asked ++ [(tag, pin)] } }
  else repairPins s (pinGroup pin) ((List.range 32).filterMap fun i => if repairReady s (32 * pinGroup pin + i) then some (32 * pinGroup pin + i) else none)

def execPinRepairDue (stack pin : Nat) (s : State) : Host.Outcome State Fault Refusal :=
  .next (if stack < 8 && pin < 2048 && repairReady s (2048 * stack + pin) then pinDueEffect s (2048 * stack + pin) else s)

/-- PIN_REPAIR_PAUSE_END: the pins are routed to redundant pins, and service resumes. -/
def pauseEndEffect (s : State) (group : Nat) (pins : List Nat) : State :=
  { s with dram := { s.dram with
    pauses := s.dram.pauses.erase group
    errors := pins.foldl (fun e p => e.erase p) s.dram.errors
    repaired := s.dram.repaired.alter group (· + pins.length) 0 } }

def execPinRepairPauseEnd (stack group : Nat) (s : State) : Host.Outcome State Fault Refusal :=
  .next (if stack < 8 && group < 64 then
    match s.dram.pauses.find (64 * stack + group) with
    | some (_, pins) => pauseEndEffect s (64 * stack + group) pins
    | none => s
  else s)

/-- DRAM_REPAIR_ANSWER: repair now, or leave in service (R439). -/
def repairAnswerEffect (s : State) (e : HostEvent) (pin : Nat) (w8 : DWord) : State :=
  let s := s.answered e
  let s := { s with dram := { s.dram with asked := s.dram.asked.filter fun x => x.2 != pin } }
  if w8 == 0 then repairPins s (pinGroup pin) [pin] else leavePins s [pin] false

/-- The repair of the pin must wait: its group pauses already, or a drop copies (R438, R441). -/
def repairHeld (s : State) (pin : Nat) : Bool := groupCopying s (pinGroup pin) || s.dram.pauses.any fun x => x.1 == pinGroup pin

def execDramRepairAnswer (tag : Nat) (w8 : BitVec 64) (s : State) : Host.Outcome State Fault Refusal :=
  .next (match pendingEvent s 6 tag, s.dram.asked.find? fun x => x.1 == tag with
    | some e, some (_, pin) => if 1 < w8.toNat || (w8 == 0 && repairHeld s pin) then s else repairAnswerEffect s e pin w8
    | _, _ => s)

end Sys2Proof.Machine
end

