-- ==== Sys2Proof/Machine/Link.lean ====
section
/-! DEFINITION. The die links and their service block (spec/18_programs_dram_and_links.md R405 to R412; spec/19_attachment_and_startup.md R421, R433,
R434; spec/10_counters.md R244 to R246). -/

namespace Sys2Proof.Machine

def State.link (s : State) (j : Nat) : DieLink := s.links.getD j DieLink.init

def State.onLink (s : State) (j : Nat) (f : DieLink → DieLink) : State := { s with links := s.links.alter j f DieLink.init }

/-- A counter of a die link's direction (R244). -/
def linkCounter (j dir field : Nat) : Nat := 0x3000 + 32 * (2 * j + dir) + field

/-- Raise a wrapping 64-bit counter (R245). -/
def State.bumpWrap (s : State) (off : Nat) : State := { s with counts := s.counts.put off ((s.count off + 1) % 2 ^ 64) 0 }

/-- Raise an event that needs no answer (R433). -/
def raiseNotice (s : State) (kind die : Nat) (payload : List DWord) : State :=
  let (tag, s) := s.take
  let s := { s with host := { s.host with waiting := s.host.waiting ++ [⟨tag % 65536, kind, die, payload⟩] } }
  pumpEvents s.host.waiting.length s

/-- Kind 7: a link, a direction and its retry count (R433; log entry 14). -/
def raiseLink (s : State) (link dir retries : Nat) : State :=
  raiseNotice s 7 4 [BitVec.ofNat 64 (link + 2 ^ 8 * dir + 2 ^ 32 * retries), 0, 0, 0, 0, 0, 0]

/-- The C-dies that a link joins (R244). -/
def linkDies (j : Nat) : List Nat :=
  match j with
  | 0 => [0, 1]
  | 1 => [2, 3]
  | 2 => [0, 2]
  | 3 => [1, 3]
  | 4 => [0]
  | _ => [2]

/-- A job of an admitted contract is active on a die that a link joins (R406). -/
def linkBusy (s : State) (j : Nat) : Bool := (linkDies j).any s.dieBusy

/-! Flits (R421, R246). -/

/-- A link carries flits: up, not held and not mapped out. -/
def DieLink.carries (l : DieLink) : Bool := l.up && !l.held && !l.out

/-- Where the fault count of a lane stands, and the spares of its half. -/
def laneKey (modul dir lane : Nat) : Nat := (modul * 2 + dir) * 64 + lane
def halfKey (modul dir half : Nat) : Nat := (modul * 2 + dir) * 2 + half

/-- DIE_LINK_FLIT_RECEIVE: a flit that the adapter has accepted arrives, and is delivered in order, or retried with the fault attributed
to a lane. A hold that has taken effect lets no new flit in (R406). -/
def linkFlitEffect (s : State) (j dir : Nat) (crcOk : Bool) (modul lane : Nat) : State :=
  let idle := s.count (linkCounter j dir 0) == s.count (linkCounter j dir 8)
  if idle && (s.link j).hold && !linkBusy s j then s
  else
    let s := if idle then s.bumpWrap (linkCounter j dir 0) else s
    if crcOk then s.bumpWrap (linkCounter j dir 8)
    else
      let s := (s.bump (linkCounter j dir 16) 1).bump (linkCounter j dir 20) 1
      s.onLink j fun l => { l with faults := l.faults.alter (laneKey modul dir lane) (· + 1) 0 }

def execDieLinkFlitReceive (link dir : Nat) (crcOk : Bool) (modul lane : Nat) (s : State) : Host.Outcome State Fault Refusal :=
  .next (if link < 6 && dir < 2 && modul < 128 && lane < 64 && (s.link link).carries then linkFlitEffect s link dir crcOk modul lane else s)

/-! The service block (R405). -/

/-- The module and direction that sel names. -/
def DieLink.modul (l : DieLink) : Nat := l.sel % 128
def DieLink.dir (l : DieLink) : Nat := l.sel / 128 % 2

/-- The fault map of a module and direction: lanes with 16 or more errors, or that failed a training. -/
def DieLink.faultMap (l : DieLink) (modul dir : Nat) : BitVec 64 :=
  (List.range 64).foldl (fun b n => if l.faults.getD (laneKey modul dir n) 0 ≥ 16 then b ||| (1#64 <<< n) else b) 0

/-- Spares left in a half of a module. -/
def sparesLeft (s : State) (l : DieLink) (modul dir half : Nat) : Nat := s.att.spareLanes - l.spares.getD (halfKey modul dir half) 0

/-- The words of the service block as they read. -/
def DieLink.ctlWord (l : DieLink) : Nat := (if l.hold then 1 else 0) + (if l.width then 4 else 0)
def DieLink.stateWord (l : DieLink) : Nat :=
  (if l.held then 1 else 0) + (if l.training then 2 else 0) + (if l.up then 4 else 0) + (if l.failed then 8 else 0) + 256 * l.lanes
def repairWord (s : State) (l : DieLink) : Nat :=
  l.result + 4 * min 3 (sparesLeft s l l.modul l.dir 0) + 16 * min 3 (sparesLeft s l l.modul l.dir 1)

/-! Hold, release and training (R406, R408). -/

/-- DIE_LINK_HOLD: the hold is asked for. -/
def linkHoldEffect (s : State) (j : Nat) (width : Bool) : State := s.onLink j fun l => { l with hold := true, width := width }

def execDieLinkHold (link : Nat) (s : State) : Host.Outcome State Fault Refusal :=
  .next (if link < 6 then linkHoldEffect s link (s.link link).width else s)

/-- DIE_LINK_RELEASE: a clearing of hold while up is 0 is discarded. -/
def linkReleaseEffect (s : State) (j : Nat) : State :=
  if (s.link j).up then s.onLink j fun l => { l with hold := false, held := false, auto := false } else s

def execDieLinkRelease (link : Nat) (s : State) : Host.Outcome State Fault Refusal :=
  .next (if link < 6 then linkReleaseEffect s link else s)

/-- DIE_LINK_TRAIN: a training begins while the link is held; otherwise the write is discarded. -/
def linkTrainEffect (s : State) (j : Nat) (narrow : Bool) : State :=
  let l := s.link j
  if !l.held || l.training || l.out then s
  else s.onLink j fun l => { l with hold := true, width := narrow, training := true, narrow := narrow, up := false, failed := false, lanes := 0 }

def execDieLinkTrain (link : Nat) (narrow : Bool) (s : State) : Host.Outcome State Fault Refusal :=
  .next (if link < 6 then linkTrainEffect s link narrow else s)

/-- A lane takes a spare of its half (R407): whether it could, and the state. -/
def repairLane (s : State) (j modul dir lane : Nat) : Bool × State :=
  let half := lane / 32
  if sparesLeft s (s.link j) modul dir half == 0 then (false, s)
  else
    let s := s.onLink j fun l =>
      { l with spares := l.spares.alter (halfKey modul dir half) (· + 1) 0, routed := l.routed ++ [laneKey modul dir lane] }
    (true, s.bump (linkCounter j dir 24) 1)

/-- The set bits of a fault map. -/
def mapBits (b : BitVec 64) : List Nat := (List.range 64).filter fun n => b.getLsbD n

/-- The modules and directions of a link whose fault maps are not empty, in the order of R409. -/
def faultyModules (l : DieLink) : List (Nat × Nat) :=
  ((List.range 2).flatMap fun d => (List.range 128).map fun m => (m, d)).filter fun x => l.faultMap x.1 x.2 != 0

/-- The two passes of R409 in the link logic: decide the width, repair, and train; or stay held and report. -/
def autoService (s : State) (j : Nat) : State :=
  let l := s.link j
  let xs := faultyModules l
  let tooMany (half : Nat) : Bool := xs.any fun x =>
    ((mapBits (l.faultMap x.1 x.2)).filter fun n => n / 32 == half).length > sparesLeft s l x.1 x.2 half
  if tooMany 0 then
    let d := ((xs.find? fun x => ((mapBits (l.faultMap x.1 x.2)).filter (· < 32)).length > sparesLeft s l x.1 x.2 0).map (·.2)).getD 0
    raiseLink (s.onLink j fun l => { l with auto := false }) j d (s.count (linkCounter j d 16))
  else
    let narrow := tooMany 1
    let s := xs.foldl (fun (s : State) x =>
      ((mapBits (l.faultMap x.1 x.2)).filter fun n => n < 32 || !narrow).foldl (fun (s : State) n => (repairLane s j x.1 x.2 n).2) s) s
    linkTrainEffect s j narrow

/-- A hold can take effect: nothing of a contract is active, and every accepted flit is delivered (R406). -/
def holdReady (s : State) (j : Nat) : Bool :=
  let l := s.link j
  l.hold && !l.held && !linkBusy s j && (List.range 2).all fun d => s.count (linkCounter j d 0) == s.count (linkCounter j d 8)

/-- HOLD_DRAIN_COMPLETE: the link is held; the link logic goes on with its own retraining. -/
def holdDrainEffect (s : State) (j : Nat) : State :=
  let s := s.onLink j fun l => { l with held := true }
  if (s.link j).auto then autoService s j else s

def execHoldDrainComplete (link : Nat) (s : State) : Host.Outcome State Fault Refusal :=
  .next (if link < 6 && holdReady s link then holdDrainEffect s link else s)

/-- The lanes tested that failed: within the trained width. -/
def badLanes (l : DieLink) (bad : List (Nat × Nat × Nat)) : List (Nat × Nat × Nat) :=
  bad.filter fun x => x.1 < 128 && x.2.1 < 2 && x.2.2 < (if l.narrow then 32 else 64)

/-- TRAINING_END: up at its width with every fault map clear, or failed and still held. -/
def trainingEndEffect (s : State) (j : Nat) (bad : List (Nat × Nat × Nat)) : State :=
  let l := s.link j
  let xs := badLanes l bad
  if xs.isEmpty then
    let w := if l.narrow then 32 else 64
    let s := s.onLink j fun l => { l with training := false, up := true, lanes := w, faults := [] }
    let s := { s with counts := (s.counts.insert (linkCounter j 0 28) w).insert (linkCounter j 1 28) w }
    if l.auto then linkReleaseEffect s j else s
  else
    let s := s.onLink j fun l => { l with
      training := false, failed := true, auto := false
      faults := xs.foldl (fun f x => f.alter (laneKey x.1 x.2.1 x.2.2) (max 16) 0) l.faults }
    let d := ((xs.head?).map (·.2.1)).getD 0
    if l.auto then raiseLink s j d (s.count (linkCounter j d 16)) else s

def execTrainingEnd (link : Nat) (bad : List (Nat × Nat × Nat)) (s : State) : Host.Outcome State Fault Refusal :=
  .next (if link < 6 && (s.link link).training then trainingEndEffect s link bad else s)

/-! Repair (R407). -/

/-- LANE_REPAIR: a write with go set; result 3 when the link is not held. -/
def laneRepairEffect (s : State) (j : Nat) (w : Word) : State :=
  let l := s.link j
  if !w.getLsbD 6 || l.pending.isSome || l.out then s
  else if !l.held then s.onLink j fun l => { l with result := 3 }
  else s.onLink j fun l => { l with result := 0, pending := some (l.modul, l.dir, w.toNat % 64) }

def execLaneRepair (link : Nat) (w : BitVec 32) (s : State) : Host.Outcome State Fault Refusal :=
  .next (if link < 6 then laneRepairEffect s link w else s)

/-- LANE_REPAIR_COMPLETE. -/
def laneRepairEnd (s : State) (j : Nat) (x : Nat × Nat × Nat) : State :=
  let (done, s) := repairLane s j x.1 x.2.1 x.2.2
  s.onLink j fun l => { l with pending := none, result := if done then 1 else 2 }

def execLaneRepairComplete (link : Nat) (s : State) : Host.Outcome State Fault Refusal :=
  .next (match (s.link link).pending with
    | some x => if (s.link link).out then s else laneRepairEnd s link x
    | none => s)

/-! Retraining (R434). -/

/-- The retries of a direction since the last look. -/
def newRetries (s : State) (j dir : Nat) : Nat := s.count (linkCounter j dir 16) - (s.link j).reported.getD dir 0

/-- 1 ms has passed since the link logic last looked at a link's retries. -/
def lookDue (s : State) (j : Nat) : Bool := (s.link j).carries && (s.link j).reported.getD 2 0 + 200000 ≤ s.clk.ref.toNat

/-- The link logic looks: it keeps the retries and the tick. -/
def lookAt (s : State) (j : Nat) : State :=
  s.onLink j fun l => { l with reported := ((l.reported.insert 0 (s.count (linkCounter j 0 16))).insert 1
    (s.count (linkCounter j 1 16))).insert 2 s.clk.ref.toNat }

/-- LINK_RETRAIN_TRIGGER: retries that rose by 64 or more begin a retraining, or an event of kind 7. -/
def retrainEffect (s : State) (j : Nat) : State :=
  let dirs := (List.range 2).filter fun d => newRetries s j d ≥ 64
  let t := lookAt s j
  if dirs.isEmpty then t
  else if s.hostMode 6 then dirs.foldl (fun (t : State) d => raiseLink t j d (s.count (linkCounter j d 16))) t
  else if (s.link j).hold then t
  else t.onLink j fun l => { l with hold := true, auto := true }

def execLinkRetrainTrigger (link : Nat) (s : State) : Host.Outcome State Fault Refusal :=
  .next (if link < 6 && lookDue s link then retrainEffect s link else s)

end Sys2Proof.Machine
end

