-- ==== Sys2Proof/Machine/Port.lean ====
section
/-! DEFINITION. The Stolil ports: credits, relays, link failure and the detour of ordered traffic (spec/08_engine_queues.md R183, R193 to R196;
spec/06_memory_order.md R146; spec/19_attachment_and_startup.md R434). -/

namespace Sys2Proof.Machine

/-- A counter of a Stolil port (R244). -/
def portCounter (q field : Nat) : Nat := 0x3400 + 32 * q + field

/-! Credits and relays (R193, R195). -/

/-- CREDIT_RETURN: the oldest flit's credit returns, with the times the link layer resent it counted, and what waited for it leaves. -/
def creditEffect (s : State) (q : Nat) (relaxed : Bool) (resent : Nat) : State :=
  let s := s.bump (portCounter q 0) resent
  State.pump (s.onChan q relaxed fun c => { c with credits := c.credits + 1, sent := c.sent.drop 1 })

/-- A credit is out at a port's channel (0 ordered, 1 relaxed). -/
def creditOut (s : State) (q chan : Nat) : Bool := chan < 2 && !((s.portAt q).chan (chan == 1)).sent.isEmpty

def execCreditReturn (port chan resent : Nat) (s : State) : Host.Outcome State Fault Refusal :=
  .next (if creditOut s port chan then creditEffect s port (chan == 1) resent else s)

/-- A transit flit can leave. -/
def relayReady (s : State) (q chan : Nat) : Bool :=
  let c := (s.portAt q).chan (chan == 1)
  chan < 2 && s.portLive q && 0 < c.credits && !c.transit.isEmpty

/-- RELAY_FORWARD: the oldest transit flit leaves, before the relay's own traffic (R195). -/
def relayEffect (s : State) (q : Nat) (relaxed : Bool) : State :=
  State.pump (s.onChan q relaxed fun c => match c.transit with
    | [] => c
    | f :: fs => { c.take f with transit := fs })

def execRelayForward (port chan : Nat) (s : State) : Host.Outcome State Fault Refusal :=
  .next (if relayReady s port chan then relayEffect s port (chan == 1) else s)

/-- Put a flit among the transit flits of a port. -/
def State.toTransit (s : State) (q : Nat) (f : Flit) : State := s.onChan q f.relaxed fun c => { c with transit := c.transit ++ [f] }

/-! Link failure (R196, R146). -/

/-- The relay for a target: the lowest-numbered live peer of the tray other than the target (log entry 6). -/
def relayFor (s : State) (t : Nat) : Option Nat := s.livePeers.find? (· != t)

/-- A message that an engine command sent: its command ends with status 0x07 when no route is left. -/
def ofCommand : Msg → Bool
  | .write _ tag _ _ _ _ _ => tag < 2 ^ 64
  | .readReq _ tag _ _ _ => tag < 2 ^ 64
  | .arrival _ _ _ _ _ => true
  | .chunk _ _ _ _ _ _ _ _ _ => true
  | .broken _ _ _ _ _ _ => true
  | .reduce _ tag _ _ _ _ _ _ => tag < 2 ^ 64
  | _ => false

/-- The package that a command reads next. -/
def readTarget (s : State) (c : CopyCmd) : Option Nat :=
  match s.place c c.src (if c.kind == 6 && c.phase == 0 then 0 else c.from' c.moved) 0 with
  | .ok p => some (s.placePackage p)
  | .error _ => none

/-- A command that an engine serves waits for a target. -/
def waitsFor (s : State) (t : Nat) (c : CopyCmd) : Bool :=
  c.engine.isSome && c.status.isNone && (c.acks.contains t || c.dest == some t || (c.moved < c.total && ((s.targetPackages c).contains t || readTarget s c == some t)))

/-- The commands that wait for a target complete with status 0x07 (R196). -/
def failTarget (s : State) (t : Nat) : State :=
  let s := { s with fab := { s.fab with outbox := s.fab.outbox.filter fun (f : Flit) => !(f.target == t && ofCommand f.msg) } }
  (s.eng.copy.filter (waitsFor s t)).foldl (fun (s : State) (c : CopyCmd) =>
    (s.onCmd c.id fun c => { c with acks := c.acks.filter (· != t), asked := false }).failCmd c.id 7) s

/-- Ordered commands to a target that are sent and not acknowledged. -/
def orderedOut (s : State) (t : Nat) : Bool :=
  let acks := (s.eng.copy.map fun (c : CopyCmd) => if c.rel then 0 else c.acks.count t).sum
  let waiting := (s.fab.outbox.filter fun (f : Flit) => f.target == t && !f.relaxed && ofCommand f.msg).length
  waiting < acks

/-- A target's ordered traffic changes its route: the detour, under a hold while commands are in flight; or none is left. -/
def reroute (s : State) (t : Nat) : State :=
  match relayFor s t with
  | some p =>
    let held := if orderedOut s t && !s.fab.held.contains t then s.fab.held ++ [t] else s.fab.held
    { s with fab := { s.fab with detour := s.fab.detour.insert t p, held := held } }
  | none => failTarget { s with fab := { s.fab with detour := s.fab.detour.erase t } } t

/-- A flit that was on a failed link: the source sends its own again, under the same number; a relay keeps another's. -/
def resendFlit (s : State) (q : Nat) (f : Flit) : State :=
  if f.source != s.cfg.pkg then s.toTransit q f
  else match s.portTo f.target f.relaxed with
    | some q' => s.toTransit q' f
    | none => if ofCommand f.msg then s else s.toTransit q f

/-- A port goes down: a link-down event, full credits for its next use, other routes, and what was on the wire is sent again. -/
def failPort (s : State) (q : Nat) : State :=
  let p := s.portAt q
  let peer := s.portPeer q
  let s := s.bump (portCounter q 12) 1
  let down (full : Nat) (c : Channel) : Channel := { c with credits := full, sent := [], transit := [] }
  let s := s.onPort q fun p => { p with up := false, ordered := down 64 p.ordered, relaxed := down 192 p.relaxed }
  let via := (s.fab.detour.filter fun (x : Nat × Nat) => x.2 == peer).map (·.1)
  let ts := if s.fab.detour.any (·.1 == peer) then via else peer :: via
  let s := ts.foldl reroute s
  State.pump ((p.ordered.sent ++ p.ordered.transit ++ p.relaxed.sent ++ p.relaxed.transit).foldl (fun (s : State) f => resendFlit s q f) s)

def execLinkFailure (port : Nat) (s : State) : Host.Outcome State Fault Refusal :=
  .next (if port < 15 && s.portLive port then failPort s port else s)

/-- A port comes up. Ordered traffic that takes a detour to its peer goes back to the direct link under the same hold. -/
def portUp (s : State) (q : Nat) : State :=
  let peer := s.portPeer q
  let s := s.onPort q fun p => { p with up := true }
  let s := if s.fab.detour.any (·.1 == peer) && !s.fab.held.contains peer then { s with fab := { s.fab with held := s.fab.held ++ [peer] } } else s
  s.pump

/-- The old route of a target is quiet. -/
def switchReady (s : State) (t : Nat) : Bool := s.fab.held.contains t && !orderedOut s t

/-- ORDERED_DETOUR_SWITCH: the held ordered commands take the route that is live now: the direct link, else the detour. -/
def switchEffect (s : State) (t : Nat) : State :=
  let s := { s with fab := { s.fab with held := s.fab.held.filter (· != t) } }
  let s := if s.portLive (s.portOf t) then { s with fab := { s.fab with detour := s.fab.detour.erase t } } else s
  s.pump

def execOrderedDetourSwitch (target : Nat) (s : State) : Host.Outcome State Fault Refusal :=
  .next (if switchReady s target then switchEffect s target else s)

/-- STOLIL_PORT_RETRAIN: the link layer's own retraining ends; a port that fails stays down and raises kind 7 (R434). -/
def portRetrainEffect (s : State) (q : Nat) (ok : Bool) : State :=
  if ok then (if (s.portAt q).up then s else portUp s q)
  else
    let s := if (s.portAt q).up then failPort s q else s
    raiseLink s (6 + q) 0 (s.count (portCounter q 0))

def execStolilPortRetrain (port : Nat) (ok : Bool) (s : State) : Host.Outcome State Fault Refusal :=
  .next (if port < 15 && !(s.portAt port).out && s.att.fabricUp then portRetrainEffect s port ok else s)

end Sys2Proof.Machine
end

