-- ==== Sys2Proof/Machine/Service.lean ====
section
/-! DEFINITION. Map-out commands and the drop of a pseudo-channel (spec/20_service.md R435 to R437, R440, R441). -/

namespace Sys2Proof.Machine

/-- The status of the map-out command (R436): 0 busy, 1 done, 2 refused, 3 malformed; before a first command it is 1 (log entry 2). -/
def State.mapStatus (s : State) : Nat := s.att.regs.getD 0x1030 1

def State.setMapStatus (s : State) (st : Nat) : State := { s with att := { s.att with regs := s.att.regs.insert 0x1030 st } }

/-- A map-out is done, and the package asks for its replacement (R435). -/
def mapDone (s : State) : State := (s.requestReplacement 3).setMapStatus 1

/-- No work-group is resident on a core, nor placed there. -/
def coreEmpty (s : State) (core : Nat) : Bool := !s.work.groups.any fun (x : Nat × WorkGroup) => x.2.core == core

/-- A core's L1 is invalidated, and the core leaves every sharer record. -/
def forgetCore (s : State) (core : Nat) : State :=
  let lines := (s.mem.l1.filter fun (x : Nat × L1Line) => x.1 / 2 ^ 45 == core).map fun x => x.1 % 2 ^ 45
  let s := lines.foldl (fun (s : State) line => s.loseL1 core line false) s
  let s := { s with mem := { s.mem with notices := s.mem.notices.filter fun (x : Nat × Nat) => x.1 != core } }
  let drop (x : Nat × L2Line) : Nat × L2Line := (x.1, { x.2 with sharers := x.2.sharers &&& ~~~(1#128 <<< core) })
  { s with mem := { s.mem with l2 := s.mem.l2.map drop } }

/-- Take a core out of service. -/
def outCore (s : State) (core : Nat) : State :=
  if s.cfg.outCores.contains core then s
  else forgetCore { s with cfg := { s.cfg with outCores := s.cfg.outCores ++ [core] } } core

/-- Kind 1. -/
def mapCore (s : State) (core : Nat) : State :=
  if s.coreOut core then s.setMapStatus 1
  else if !coreEmpty s core then s.setMapStatus 2
  else mapDone (outCore s core)

/-- The cores of a die. -/
def coresOf (die : Nat) : List Nat := (List.range 32).map (32 * die + ·)

/-- Kind 2: its cores are out, and its slices are treated as declared failed. -/
def mapDie (s : State) (die : Nat) : State :=
  if s.att.outDies.contains die then s.setMapStatus 1
  else if !(coresOf die).all (coreEmpty s) || s.work.contracts.any (fun (x : Nat × Contract) => x.2.usesDie die) then s.setMapStatus 2
  else
    let s := mapDone ((coresOf die).foldl outCore s)
    failSlices { s with att := { s.att with outDies := s.att.outDies ++ [die] } } (dieSlices die) 0

/-- The slices that a stack serves (R113). -/
def stackSlices (stack : Nat) : BitVec 128 := BitVec.ofNat 128 ((2 ^ 16 - 1) * 2 ^ (16 * stack))

/-- Kind 3. -/
def mapStack (s : State) (stack : Nat) : State :=
  if s.att.outStacks.contains stack then s.setMapStatus 1
  else if !allStopped s then s.setMapStatus 2
  else
    let s := mapDone { s with att := { s.att with outStacks := s.att.outStacks ++ [stack] } }
    failSlices s (stackSlices stack) 0

/-- Pseudo-channels of a slice that are dropped or whose drop is copying. -/
def slicesDropped (s : State) (slice : Nat) : Nat :=
  ((s.dram.dropped ++ s.dram.copying).filter fun c => sliceOfChannel c == slice).length

/-- Kind 4: the copy begins; the command is busy until it ends. -/
def mapChannel (s : State) (pc : Nat) : State :=
  if s.dram.dropped.contains pc then s.setMapStatus 1
  else if !allStopped s || slicesDropped s (sliceOfChannel pc) ≥ 8 then s.setMapStatus 2
  else { s with dram := { s.dram with copying := s.dram.copying ++ [pc] } }.setMapStatus 0

/-- Kind 5: the link must be held. -/
def mapLink (s : State) (j : Nat) : State :=
  if (s.link j).out then s.setMapStatus 1
  else if !(s.link j).held then s.setMapStatus 2
  else mapDone (s.onLink j fun l => { l with out := true })

/-- Kind 6. -/
def mapPort (s : State) (q : Nat) : State :=
  if (s.portAt q).out then s.setMapStatus 1
  else
    let s := if (s.portAt q).up then failPort s q else s
    mapDone (s.onPort q fun p => { p with out := true })

/-- The command word of a kind and index. -/
def mapWord (kind index : Nat) : Nat := kind + 2 ^ 16 * index

/-- A map-out command, unless one is busy (R436): a kind or an index that names no part is malformed; reserved bits are discarded (R10). -/
def mapOut (s : State) (w : Nat) : State :=
  if s.mapStatus == 0 then s
  else
    let index := bits 27 16 w
    let s := s.setCfg64 0x1028 (mapWord (bits 3 0 w) index)
    match bits 3 0 w with
      | 1 => if index < 128 then mapCore s index else s.setMapStatus 3
      | 2 => if index < 4 then mapDie s index else s.setMapStatus 3
      | 3 => if index < 8 then mapStack s index else s.setMapStatus 3
      | 4 => mapChannel s index
      | 5 => if index < 6 then mapLink s index else s.setMapStatus 3
      | 6 => if index < 15 then mapPort s index else s.setMapStatus 3
      | _ => s.setMapStatus 3

def execMapOutCore (core : Nat) (s : State) : Host.Outcome State Fault Refusal := .next (if core < 128 then mapOut s (mapWord 1 core) else s)
def execMapOutCDie (die : Nat) (s : State) : Host.Outcome State Fault Refusal := .next (if die < 4 then mapOut s (mapWord 2 die) else s)
def execMapOutStack (stack : Nat) (s : State) : Host.Outcome State Fault Refusal := .next (if stack < 8 then mapOut s (mapWord 3 stack) else s)
def execMapOutPseudoChannel (pc : Nat) (s : State) : Host.Outcome State Fault Refusal :=
  .next (if pc < 4096 then mapOut s (mapWord 4 pc) else s)
def execMapOutDieLink (link : Nat) (s : State) : Host.Outcome State Fault Refusal := .next (if link < 6 then mapOut s (mapWord 5 link) else s)
def execMapOutStolilPort (port : Nat) (s : State) : Host.Outcome State Fault Refusal := .next (if port < 15 then mapOut s (mapWord 6 port) else s)

/-! The end of a drop's copy (R440). -/

/-- A line of the slice of a dropped pseudo-channel that no frame backs any more. -/
def lostLine (s : State) (slice line : Nat) : Bool := sliceOfLine line == slice && !s.backed (128 * line)

/-- Lines of frames that are no longer backed are discarded, in the stacks and in every cache. -/
def discardLines (s : State) (slice : Nat) : State :=
  let gone := s.mem.l1.filter fun (x : Nat × L1Line) => lostLine s slice (x.1 % 2 ^ 45)
  let s := gone.foldl (fun (s : State) x => s.loseL1 (x.1 / 2 ^ 45) (x.1 % 2 ^ 45) false) s
  let s := { s with mem := { s.mem with l2 := s.mem.l2.filter fun (x : Nat × L2Line) => !lostLine s slice x.1 } }
  s.onHbm fun m => { cells := m.cells.filter fun (x : Host.Cell) => !lostLine s slice (x.1 / 128)
                     poison := m.poison.filter fun k => !lostLine s slice (k / 4) }

/-- A line that failed ECC on the way is written poisoned; the failed sectors are counted where they were read (R123, R440). -/
def poisonCopied (s : State) (slice : Nat) (failed : List Nat) : State :=
  let mine := failed.filter fun k => sliceOfLine (k / 4) == slice && s.homed (32 * k)
  let s := mine.foldl (fun (s : State) k => s.bump (channelCounter (s.channelOf (k / 4)) 20) 1) s
  s.onHbm fun m => (mine.map (· / 4)).dedup.foldl (fun (m : Mem) line =>
    (List.range 4).foldl (fun (m : Mem) i => m.setPoison (4 * line + i) true) m) m

/-- PSEUDO_CHANNEL_DROP_COPY_END: the survivors serve the slice's lines, and the command is done. -/
def dropEndEffect (s : State) (pc : Nat) (failed : List Nat) : State :=
  let slice := sliceOfChannel pc
  let s := poisonCopied s slice failed
  let s := { s with dram := { s.dram with copying := s.dram.copying.filter (· != pc), dropped := s.dram.dropped ++ [pc] } }
  mapDone (discardLines s slice)

def execPseudoChannelDropCopyEnd (pc : Nat) (failed : List Nat) (s : State) : Host.Outcome State Fault Refusal :=
  .next (if s.dram.copying.contains pc then dropEndEffect s pc failed else s)

end Sys2Proof.Machine
end

