-- ==== Sys2Proof/Machine/Startup.lean ====
section
/-! DEFINITION. Signed records and the stages of start-up (spec/19_attachment_and_startup.md R416, R422 to R425; spec/00_scope.md R6; spec/10_counters.md
R240, R241). -/

namespace Sys2Proof.Machine

/-! Records (R422, R423). -/

/-- The bytes that a record's signature covers. -/
def FlashRecord.signed (r : FlashRecord) : List Byte :=
  leBytes 8 (0x4E585231 + 2 ^ 32 * r.kind + 2 ^ 40 * r.slot) ++ leBytes 4 r.version ++ leBytes 4 r.body.length ++ r.body

/-- A record whole. -/
def FlashRecord.bytes (r : FlashRecord) : List Byte := r.signed ++ r.signature

/-- Read a record: the magic, a body of a multiple of 8 bytes, and a signature of 512 bytes, with nothing after. -/
def parseRecord (bs : List Byte) : Option FlashRecord :=
  let head := leNat (bs.take 8)
  let len := leNat ((bs.drop 12).take 4)
  if bs.length < 528 || bits 31 0 head != 0x4E585231 || len % 8 != 0 || bs.length != 528 + len then none
  else some ⟨bits 39 32 head, bits 47 40 head, leNat ((bs.drop 8).take 4), (bs.drop 16).take len, bs.drop (16 + len), bits 63 48 head == 0⟩

/-- An 8-byte field of a kind 2 record's body. The layout of the body is the model's (log entry 15): 0 host-attach mode [0], tray number
[6:4], rack root [14:8], tray distributor [19:16], spare lanes [23:20], role in a host pair [25:24], peer [38:32]; 8 function-mode word
[31:0]; 16 fault-domain block; 24 pool width [2:0]; 32 pool table, a byte an entry; 160, 168 governed packages; 176 frequency codes, a byte
a die. -/
def bodyField (r : FlashRecord) (o : Nat) : Nat := leNat ((r.body.drop o).take 8)

/-- The reserved bits of a kind 2 body are 0. -/
def bodyClean (r : FlashRecord) : Bool :=
  let w := bodyField r 0
  r.kind != 2 || (r.body.length == 184 && bits 3 1 w == 0 && bits 7 7 w == 0 && bits 15 15 w == 0 && bits 31 26 w == 0 && bits 25 24 w != 3 &&
    bits 63 39 w == 0 && bits 63 7 (bodyField r 8) == 0 && bits 63 3 (bodyField r 24) == 0 && ((r.body.drop 32).take 128).all fun b => b.toNat < 128)

/-- The key that a record of a slot is checked with: the vendor's, or the owner's once a kind 3 record is applied. -/
def recordKey (applied : List FlashRecord) (r : FlashRecord) : Option Nat :=
  match r.slot with
  | 0 => some Config.vendorKey
  | 1 => if r.kind == 3 then none else (applied.find? fun (x : FlashRecord) => x.kind == 3).map fun x => leNat x.body
  | _ => none

/-- RECORD_VERIFY: every condition of R422 holds. -/
def recordValid (applied : List FlashRecord) (recorded : Nat) (r : FlashRecord) : Bool :=
  r.clean && bodyClean r && recorded ≤ r.version && match recordKey applied r with
    | some key => pssVerify key r.signed r.signature
    | none => false

/-- Of two records, the one with the higher version; the first on a tie. -/
def newerRecord (a b : FlashRecord) : FlashRecord := if a.version < b.version then b else a

/-- Apply the valid record of a kind with the highest version, when the flash holds one (R422, R423). -/
def applyKind (a : Attach) (kind : Nat) : Attach :=
  match a.flash.filter fun (r : FlashRecord) => r.kind == kind && recordValid a.applied a.recorded r with
  | [] => a
  | r :: rs =>
    let best := rs.foldl newerRecord r
    { a with applied := a.applied ++ [best], recorded := max a.recorded best.version, version := max a.version best.version }

/-- The applied record of a kind. -/
def appliedKind (a : Attach) (kind : Nat) : Option FlashRecord := a.applied.find? fun (r : FlashRecord) => r.kind == kind

/-! Stage 0 (R424). -/

/-- The counter that a starting clock is loaded with: 8.75 × `sr.ref` (R241). -/
def DieClock.started (code : Nat) (ref : DWord) : DieClock :=
  { DieClock.init with running := true, code := code, cyc := BitVec.ofNat 64 (35 * ref.toNat / 4), frac := 35 * ref.toNat % 4 * 16384 }

/-- POWER_GOOD: timers zero, records verified, safe function; what the flash holds, and the highest recorded version, stay. C2 and stack 4
serve when C0 or stack 0 fails. -/
def powerGoodEffect (s : State) (slotId : Nat) (c0Failed stack0Failed : Bool) : State :=
  let r := State.reset
  let a := { r.att with slot := slotId % 16, flash := s.att.flash, recorded := s.att.recorded }
  let a := applyKind (applyKind (applyKind a 3) 1) 2
  let a := { a with rejected := (appliedKind a 1).isNone || (appliedKind a 2).isNone }
  let r := { r with att := a, cfg := { r.cfg with pkg := slotId % 16, poolTable := [slotId % 16] }, agenda := s.agenda, fresh := s.fresh }
  if !c0Failed && !stack0Failed then r
  else
    let clocks := [DieClock.init, DieClock.init, DieClock.started 0 0, DieClock.init]
    let r := { r with clk := { r.clk with dies := clocks }, att := { r.att with diesUp := [2], stacksUp := [4] } }
    let r := r.requestReplacement 5
    let r := if c0Failed then
        { r with att := { r.att with outDies := [0] }, cfg := { r.cfg with outCores := coresOf 0, deadSlices := dieSlices 0 } }
      else r
    if stack0Failed then
      { r with att := { r.att with outStacks := [0] }, cfg := { r.cfg with deadSlices := r.cfg.deadSlices ||| stackSlices 0 } }
    else r

def execPowerGood (slotId : Nat) (c0Failed stack0Failed : Bool) (s : State) : Host.Outcome State Fault Refusal :=
  .next (powerGoodEffect s slotId c0Failed stack0Failed)

/-! Stage 1. -/

/-- Take the fields of the configuration record (R423). -/
def configured (s : State) (r : FlashRecord) : State :=
  let w := bodyField r 0
  let tray := bits 6 4 w
  let table := ((r.body.drop 32).take 128).map fun b => b.toNat
  let gov := bodyField r 160 + 2 ^ 64 * bodyField r 168
  { s with
    cfg := { s.cfg with pkg := 16 * tray + s.att.slot, pw := bits 2 0 (bodyField r 24), poolTable := table, sysDomain := bodyField r 16 }
    att := { s.att with
      tray := tray, roles := bits 14 8 w + 128 * bits 19 16 w, spareLanes := bits 23 20 w, role := bits 25 24 w, peer := bits 38 32 w,
      governed := (List.range 128).filter gov.testBit, cxl := w.testBit 0
      codes := (List.range 4).map fun d => min 24 (((r.body.drop (176 + d)).headD 0).toNat) } }

/-- A die comes up at its configured clock; a running clock steps there, and records it (R231, R241). -/
def startDie (s : State) (die : Nat) : State :=
  let code := s.att.codes.getD die 0
  s.onDie die fun (d : DieClock) =>
    if !d.running then DieClock.started code s.clk.ref
    else if d.code == code then d
    else { d.step s.clk.ref code 0 with stallEnd := none }

/-- A die that does not come up is mapped out (R424). -/
def failDie (s : State) (die : Nat) : State :=
  let s := (coresOf die).foldl outCore (s.requestReplacement 5)
  { s with
    att := { s.att with outDies := if s.att.outDies.contains die then s.att.outDies else s.att.outDies ++ [die] }
    cfg := { s.cfg with deadSlices := s.cfg.deadSlices ||| dieSlices die } }

/-- A die boundary is trained, or mapped out. -/
def startLink (s : State) (failed : Bool) (j : Nat) : State :=
  if failed || (linkDies j).any s.att.outDies.contains then (s.requestReplacement 5).onLink j fun l => { l with out := true }
  else
    let s := s.onLink j fun l => { l with up := true, lanes := 64 }
    { s with counts := (s.counts.insert (linkCounter j 0 28) 64).insert (linkCounter j 1 28) 64 }

/-- STAGE_1_REACHED. -/
def stage1Effect (s : State) (r : FlashRecord) (diesFailed linksFailed : Nat) : State :=
  let s := configured s r
  let bad (d : Nat) : Bool := diesFailed.testBit d || s.att.outDies.contains d
  let s := (List.range 4).foldl (fun (s : State) d => if bad d then failDie s d else startDie s d) s
  let s := (List.range 6).foldl (fun (s : State) j => startLink s (linksFailed.testBit j) j) s
  { s with att := { s.att with stage := 1, diesUp := (List.range 4).filter fun d => !bad d } }

def execStage1Reached (diesFailed linksFailed : Nat) (s : State) : Host.Outcome State Fault Refusal :=
  .next (match appliedKind s.att 2 with
    | some r => if s.att.stage == 0 && !s.att.rejected then stage1Effect s r diesFailed linksFailed else s
    | none => s)

/-! Stage 2. -/

/-- A stack that does not come up is mapped out. -/
def failStack (s : State) (stack : Nat) : State :=
  let s := s.requestReplacement 5
  { s with
    att := { s.att with outStacks := if s.att.outStacks.contains stack then s.att.outStacks else s.att.outStacks ++ [stack] }
    cfg := { s.cfg with deadSlices := s.cfg.deadSlices ||| stackSlices stack } }

/-- TRAY_NUMBER_EXCHANGE: a port comes up; one whose peer reports another tray number stays down, which counts as a link-down event and
sets configuration rejected (R416); one that fails is mapped out. -/
def startPort (s : State) (failed mismatched : Bool) (q : Nat) : State :=
  if failed then (s.requestReplacement 5).onPort q fun p => { p with out := true }
  else if mismatched then
    let s := s.bump (portCounter q 12) 1
    { s with att := { s.att with rejected := true } }
  else portUp s q

/-- STAGE_2_REACHED. -/
def stage2Effect (s : State) (r : FlashRecord) (stacksFailed portsFailed portsMismatched : Nat) : State :=
  let bad (k : Nat) : Bool := stacksFailed.testBit k || s.att.outStacks.contains k
  let up := (List.range 8).filter fun k => !bad k
  let s := (List.range 8).foldl (fun (s : State) k => if bad k then failStack s k else s) s
  let s := { s with
    cfg := { s.cfg with functionMode := BitVec.ofNat 32 (bits 6 0 (bodyField r 8)) }
    att := { s.att with stage := 2, safe := false, stacksUp := up, fabricUp := true, beatIn := s.clk.ref.toNat } }
  (List.range 15).foldl (fun (s : State) q => startPort s (portsFailed.testBit q) (portsMismatched.testBit q) q) s

def execStage2Reached (stacksFailed portsFailed portsMismatched : Nat) (s : State) : Host.Outcome State Fault Refusal :=
  .next (match appliedKind s.att 2 with
    | some r => if s.att.stage == 1 then stage2Effect s r stacksFailed portsFailed portsMismatched else s
    | none => s)

end Sys2Proof.Machine
end

