-- ==== Sys2Proof/Machine/Mailbox.lean ====
section
/-! DEFINITION. The trust mailbox and the redundant host pair (spec/19_attachment_and_startup.md R415, R426, R429 (the report), R430, R431). -/

namespace Sys2Proof.Machine

def bit01 (b : Bool) : Nat := if b then 1 else 0

/-- A word with the bits named set. -/
def bitsWord (xs : List Nat) : Nat := xs.foldl (fun v k => v ||| 2 ^ k) 0

/-- Identity offset 8 (R415). -/
def State.statusWord (s : State) : Nat :=
  s.att.stage + 4 * bit01 s.att.safe + 8 * bit01 s.att.replacement + 16 * bit01 s.att.rejected + 2 ^ 8 * bitsWord s.att.diesUp +
    2 ^ 12 * bitsWord s.att.stacksUp + 2 ^ 20 * bit01 s.att.fabricUp

/-! The mailbox (R426). Its bytes are kept by their offset; the status is a register, 1 before a first command (log entry 2). -/

def State.mailStatus (s : State) : Nat := s.att.regs.getD 0x300044 1

def State.setMailStatus (s : State) (st : Nat) : State := { s with att := { s.att with regs := s.att.regs.insert 0x300044 st } }

/-- n bytes of the mailbox. -/
def State.mailBytes (s : State) (o n : Nat) : List Byte := (List.range n).map fun i => s.att.mailbox.getD (o + i) 0

/-- Write bytes of the mailbox. -/
def State.mailPut (s : State) (o : Nat) (bs : List Byte) : State :=
  { s with att := { s.att with mailbox := bs.zipIdx.foldl (fun (m : NMap Byte) x => m.put (o + x.2) x.1 0) s.att.mailbox } }

/-- The response, up to the end of the mailbox. -/
def State.respond (s : State) (bs : List Byte) : State :=
  let s := { s with att := { s.att with mailbox := s.att.mailbox.filter fun (x : Nat × Byte) => x.1 < 0x1000 } }
  s.mailPut 0x1000 (bs.take 0x1000)

/-- A command begins, unless one is busy. -/
def startMail (s : State) (command : Nat) : State :=
  if s.mailStatus == 0 then s
  else if command == 0 || 3 < command then s.setMailStatus 2
  else { s with att := { s.att with command := command } }.setMailStatus 0

def execMailboxAttest (s : State) : Host.Outcome State Fault Refusal := .next (startMail s 1)
def execMailboxWriteRecord (s : State) : Host.Outcome State Fault Refusal := .next (startMail s 2)
def execMailboxReadCertChain (s : State) : Host.Outcome State Fault Refusal := .next (startMail s 3)

/-- The hash of the applied record of a kind; zeros when none is applied. -/
def recordHash (s : State) (kind : Nat) : List Byte :=
  match appliedKind s.att kind with
  | some r => sha512 r.bytes
  | none => List.replicate 64 0

/-- The attestation report before its signature. -/
def reportBody (s : State) : List Byte :=
  leBytes 8 1 ++ leBytes 8 s.statusWord ++ leBytes 8 s.cfg.functionMode.toNat ++ leBytes 8 s.att.version ++ s.mailBytes 0 64 ++
    recordHash s 1 ++ recordHash s 2 ++ recordHash s 3 ++ leBytes 8 s.clk.ref.toNat ++ List.replicate 24 0

/-- A command ends with a status, and raises the mailbox's vector (R418). -/
def mailDone (s : State) (st : Nat) : State :=
  let s := { s with att := { s.att with command := 0 }, host := { s.host with vectors := s.host.vectors ++ [1] } }
  s.setMailStatus st

/-- The end of command 1. -/
def attestEnd (s : State) : State :=
  let body := reportBody s
  let (n, s) := s.take
  mailDone (s.respond (body ++ (Config.reportSignature n body ++ List.replicate 512 0).take 512)) 1

/-- The record that command 2 names: from the mailbox, or from memory; none while it is on its way here. The flag tells of poison. -/
def mailRecord (s : State) (len : Nat) : Option (List Byte × Bool) :=
  if (s.mailBytes 72 1).all fun b => !b.getLsbD 0 then some (s.mailBytes 0x100 len, false)
  else s.poolRead (leNat (s.mailBytes 80 8)) len

/-- The end of command 2. -/
def writeRecordEnd (s : State) : State :=
  let memory := (s.mailBytes 72 1).any fun b => b.getLsbD 0
  let pa := leNat (s.mailBytes 80 8)
  let len := leNat (s.mailBytes 88 8)
  if (if memory then 2 ^ 26 else 3840) < len then mailDone s 3
  else if memory && !(granules 4096 pa len).all (fun f => s.backed (4096 * f)) then mailDone s 2
  else match mailRecord s len with
    | none => s.poolAsk pa len
    | some (bs, poisoned) =>
      let s := if memory then s.poolDrop pa len else s
      match parseRecord bs with
      | none => mailDone s 2
      | some r =>
        if poisoned || !recordValid s.att.applied s.att.recorded r then mailDone s 2
        else mailDone { s with att := { s.att with flash := s.att.flash ++ [r] } } 1

/-- MAILBOX_COMMAND_COMPLETE. -/
def mailComplete (s : State) : State :=
  match s.att.command with
  | 1 => attestEnd s
  | 2 => writeRecordEnd s
  | _ => mailDone (s.respond Config.certChain) 1

def execMailboxCommandComplete (s : State) : Host.Outcome State Fault Refusal :=
  .next (if s.att.command != 0 then mailComplete s else s)

/-! The host pair (R430, R431). -/

/-- The package acts as primary, or stands by. -/
def State.primary (s : State) : Bool := s.att.role == 1
def State.standby (s : State) : Bool := s.att.role == 2

/-- 100 µs have passed since the primary's last heartbeat. -/
def beatDue (s : State) : Bool := s.primary && s.att.stage == 2 && s.att.beatOut + 20000 ≤ s.clk.ref.toNat

def execHeartbeatSend (s : State) : Host.Outcome State Fault Refusal :=
  .next (if beatDue s then
    State.send { s with att := { s.att with beatOut := s.clk.ref.toNat } } s.att.peer false .heartbeat
  else s)

/-- A package adopts a higher epoch; a primary that receives one becomes standby (R431). -/
def adoptEpoch (s : State) (n : Nat) : State :=
  if n ≤ s.att.epoch then s
  else { s with att := { s.att with
    epoch := n, role := if s.att.role == 1 then 2 else s.att.role
    beatIn := if s.att.role == 1 then s.clk.ref.toNat else s.att.beatIn } }

def execEpochAdvance (epoch : Nat) (s : State) : Host.Outcome State Fault Refusal := .next (if epoch < 2 ^ 32 then adoptEpoch s epoch else s)

/-- No heartbeat has come for 1 ms. -/
def beatLate (s : State) : Bool := s.standby && s.att.stage == 2 && s.att.beatIn + 200000 ≤ s.clk.ref.toNat && s.att.epoch + 1 < 2 ^ 32

/-- HEARTBEAT_TIMEOUT: the standby raises its epoch, tells every governed package and the old primary, and acts as primary. -/
def takeOver (s : State) : State :=
  let n := s.att.epoch + 1
  let peers := (s.att.governed ++ [s.att.peer]).dedup.filter fun p => p != s.cfg.pkg
  let s := { s with att := { s.att with epoch := n, role := 1, beatOut := s.clk.ref.toNat } }
  peers.foldl (fun (s : State) p => s.send p false (.epoch n)) s

def execHeartbeatTimeout (s : State) : Host.Outcome State Fault Refusal := .next (if beatLate s then takeOver s else s)

/-- LOG_RECORD_SHIP: the primary ships a record of its log to the standby. -/
def execLogRecordShip (record : Nat) (s : State) : Host.Outcome State Fault Refusal :=
  .next (if s.primary && !s.att.log.contains record then
    State.send { s with att := { s.att with log := s.att.log ++ [record] } } s.att.peer false (.logRecord record)
  else s)

/-- The standby keeps a record and acknowledges it. -/
def keepRecord (s : State) (n : Nat) : State :=
  let s := if s.att.log.contains n then s else { s with att := { s.att with log := s.att.log ++ [n] } }
  s.send s.att.peer false (.logAck n)

/-- LOG_RECORD_ACK: a record counts as committed. -/
def commitRecord (s : State) (n : Nat) : State :=
  if s.att.log.contains n && !s.att.committed.contains n then { s with att := { s.att with committed := s.att.committed ++ [n] } } else s

def execLogRecordAck (record : Nat) (s : State) : Host.Outcome State Fault Refusal := .next (if s.primary then commitRecord s record else s)

end Sys2Proof.Machine
end

