-- ==== Sys2Proof/Machine/Registers.lean ====
section
/-! DEFINITION. The H-die configuration space: what it reads as, and what a write does (spec/19_attachment_and_startup.md R413 to R419, R425, R427, R429,
R431, R432; spec/09_tables.md R223, R224; spec/10_counters.md R244, R245); host access through BAR2 (R418). -/

namespace Sys2Proof.Machine

/-- Half of an 8-byte value: the 4 bytes at an offset. -/
def half (v off : Nat) : Nat := v / 2 ^ (8 * (off % 8)) % 2 ^ 32

/-! The counter block (R244, R245). -/

/-- The parts that a counter belongs to are up (R425). -/
def counterUp (s : State) (o : Nat) : Bool :=
  if o < 0x2000 then s.att.diesUp.contains (o / 2048)
  else if o < 0x2800 then s.att.diesUp.contains ((o - 0x2000) / 512)
  else if o < 0x3400 then 1 ≤ s.att.stage
  else if o < 0x3800 then s.att.stage == 2
  else if 0x10000 ≤ o then s.att.stacksUp.contains ((o - 0x10000) / 16384)
  else true

/-- A saturating field: a write of any value clears it. -/
def saturating (o : Nat) : Bool :=
  if o < 0x2000 then o % 64 ≤ 16
  else if o < 0x2800 then o % 16 ≤ 4
  else if o < 0x3000 then false
  else if o < 0x3180 then 16 ≤ o % 32 && o % 32 ≤ 24
  else if o < 0x3400 then false
  else if o < 0x35E0 then o % 32 ≤ 12
  else if o < 0x3800 then false
  else if o < 0x3C00 then o % 16 ≤ 8
  else if o < 0x3C20 then true
  else if o < 0x10000 then o == 0x3E00
  else o < 0x30000

/-- A 4-byte word of the counter block. -/
def counterWord (s : State) (o : Nat) : Nat :=
  if !counterUp s o then 0
  else if o < 0x2000 && o % 64 == 20 then s.graftCount (o / 64) % 256
  else if 0x3000 ≤ o && o < 0x3180 && o % 32 < 16 then half (s.count (o / 8 * 8)) o
  else if 0x3000 ≤ o && o < 0x3180 && o % 32 == 28 then s.count o
  else if 0x3400 ≤ o && o < 0x35E0 && o % 32 == 16 then (s.portAt ((o - 0x3400) / 32)).ordered.next % 2 ^ 32
  else if 0x3400 ≤ o && o < 0x35E0 && o % 32 == 20 then (s.portAt ((o - 0x3400) / 32)).relaxed.next % 2 ^ 32
  else if saturating o then s.count o
  else 0

/-- COUNTER_CLEAR: writes to other fields are discarded. -/
def clearCounter (s : State) (o : Nat) : State :=
  if saturating o && counterUp s o then { s with counts := s.counts.erase o } else s

def execCounterClear (offset : Nat) (s : State) : Host.Outcome State Fault Refusal := .next (if offset % 4 == 0 then clearCounter s offset else s)

/-! Reads. -/

/-- The pre-emption latency table (R223, R176). -/
def latencyTable : List Nat := [6, 24, 40, 2 * 2 ^ 24, 2000 + 2 ^ 24, 2048, 2 * 2 ^ 24]

/-- The identity and status block (R415, R435). -/
def identity (s : State) (i : Nat) : Nat :=
  match i with
  | 0 => 0x4120 + 2 ^ 32 * Config.siliconStep.toNat
  | 1 => s.statusWord
  | 2 => s.att.version
  | 3 => s.cfg.pkg
  | 4 => bitsWord s.att.outDies + 2 ^ 4 * bitsWord s.att.outStacks + 2 ^ 12 * bitsWord ((List.range 6).filter fun j => (s.link j).out) +
      2 ^ 18 * bitsWord ((List.range 15).filter fun q => (s.portAt q).out)
  | 5 => bitsWord ((List.range 64).filter s.coreOut)
  | 6 => bitsWord ((List.range 64).filter fun c => s.coreOut (64 + c))
  | _ => s.att.cause + 2 ^ 8 * min 255 s.dram.dropped.length

/-- The package registers at 0x1000 (R413). -/
def packageRegister (s : State) (i : Nat) : Nat :=
  match i with
  | 0 => s.cfg.contextTable
  | 1 => s.cfg.functionMode.toNat
  | 2 => s.cfg.pw
  | 3 => s.att.epoch
  | 6 => s.mapStatus
  | 7 => s.cfg.spillBase
  | _ => s.cfg64 (0x1000 + 8 * i)

/-- The rack command queue is full, or has no base (R429). -/
def rackFull (s : State) : Bool := s.dist.rackBase == 0 || s.dist.rackReserved - s.dist.rackHead ≥ 2 ^ s.dist.rackLog

/-- The rack command queue registers; 0 but on the rack root (R429). -/
def rackRegister (s : State) (i : Nat) : Nat :=
  if s.rackRoot != s.cfg.pkg then 0
  else match i with
    | 0 => s.dist.rackBase
    | 1 => s.dist.rackLog
    | 2 => if rackFull s then 2 ^ 32 else s.dist.rackReserved % 2 ^ 32
    | _ => s.dist.rackHead % 2 ^ 32

/-- A double word of the contract table (R224). -/
def contractWord (s : State) (n i : Nat) : Nat :=
  match s.work.contracts.find n with
  | some c => entryWord c.entry i
  | none => 0

/-- A 4-byte word of a link's service block (R405); 0 until the boundaries are up (R425). -/
def linkWord (s : State) (j o : Nat) : Nat :=
  let l := s.link j
  if s.att.stage == 0 then 0
  else match o with
    | 0 => l.ctlWord
    | 4 => l.stateWord
    | 8 => l.sel
    | 12 => repairWord s l
    | 16 => half (l.faultMap l.modul l.dir).toNat 0
    | 20 => half (l.faultMap l.modul l.dir).toNat 4
    | _ => 0

/-- A double word of a chain slot (R417). -/
def chainWord (s : State) (n i : Nat) : Nat := if i == 0 then (s.chainSlot n).reg.toNat else (s.chainSlot n).ctx

/-- An 8-byte register of the space, by its aligned offset; `configWord` reads the blocks of 4-byte words. -/
def configDword (s : State) (b : Nat) : Nat :=
  if b < 0x40 then identity s (b / 8)
  else if 0x1000 ≤ b && b < 0x1040 then packageRegister s ((b - 0x1000) / 8)
  else if 0x1080 ≤ b && b < 0x10A0 then rackRegister s ((b - 0x1080) / 8)
  else if 0x1100 ≤ b && b < 0x1500 then s.cfg.poolTable.getD ((b - 0x1100) / 8) 0
  else if 0x3000 ≤ b && b < 0x4000 then contractWord s ((b - 0x3000) / 64) (b / 8 % 8)
  else if 0x4000 ≤ b && b < 0x4048 then s.cfg64 b
  else if 0x5000 ≤ b && b < 0x5400 then (stepRingWord (s.dieClock ((b - 0x5000) / 256)) (b % 256)).toNat
  else if b == 0x6030 then s.commandStatus
  else if 0x6000 ≤ b && b < 0x6038 then s.cfg64 b
  else if 0x30000 ≤ b && b < 0x30300 then chainWord s ((b - 0x30000) / 16) (b / 8 % 2)
  else if 0x200000 ≤ b && b < 0x210000 then ((s.host.records.getD ((b - 0x200000) / 64) []).getD (b / 8 % 8) 0).toNat
  else if 0x210000 ≤ b && b < 0x210040 then (s.host.window.getD ((b - 0x210000) / 8) 0).toNat
  else if b == 0x211000 then s.host.producer
  else if b == 0x211008 then s.host.consumer
  else 0

/-- A 4-byte word of the space. -/
def configWord (s : State) (o : Nat) : Nat :=
  if 0x2000 ≤ o && o < 0x201C then latencyTable.getD ((o - 0x2000) / 4) 0
  else if 0x40000 ≤ o && o < 0x400C0 then linkWord s ((o - 0x40000) / 32) (o % 32)
  else if 0x100000 ≤ o && o < 0x130000 then counterWord s (o - 0x100000)
  else if o == 0x300044 then s.mailStatus
  else if 0x300000 ≤ o && o < 0x302000 then leNat (s.mailBytes (o - 0x300000) 4)
  else half (configDword s (o / 8 * 8)) o

/-- A read of the space: aligned, of 4 or 8 bytes; any other reads 0 (R414). -/
def configRead (s : State) (off size : Nat) : Nat :=
  if size == 4 && off % 4 == 0 then configWord s off
  else if size == 8 && off % 8 == 0 then configWord s off + 2 ^ 32 * configWord s (off + 4)
  else 0

/-! The rack command queue (R429). -/

/-- RACK_QUEUE_RESERVE: a read of offset 16. -/
def rackReserve (s : State) : State :=
  let v := rackRegister s 2
  let s := { s with att := { s.att with answer := leBytes 8 v } }
  if s.rackRoot != s.cfg.pkg || rackFull s then s else { s with dist := { s.dist with rackReserved := s.dist.rackReserved + 1 } }

def execRackQueueReserve (s : State) : Host.Outcome State Fault Refusal := .next (rackReserve s)

/-- RACK_QUEUE_PUBLISH: an index that is reserved and not published yet. -/
def rackPublish (s : State) (n : Nat) : State :=
  let d := s.dist
  if s.rackRoot == s.cfg.pkg && d.rackHead ≤ n && n < d.rackReserved && !d.published.contains n then { s with dist := { d with published := d.published ++ [n] } }
  else s

def execRackQueuePublish (index : Nat) (s : State) : Host.Outcome State Fault Refusal := .next (rackPublish s index)

/-- The queue's base and size take writes only while it is empty and every context of the rack is stopped. -/
def rackOpen (s : State) : Bool := s.rackRoot == s.cfg.pkg && s.dist.rackReserved == s.dist.rackHead && allStopped s

def rackWrite (s : State) (i v : Nat) : State :=
  match i with
  | 0 =>
    let base := v / 4096 * 4096
    if rackOpen s && (base == 0 || s.backed base) then { s with dist := { s.dist with rackBase := base } } else s
  | 1 =>
    let k := v % 32
    if rackOpen s && 4 ≤ k && k ≤ 16 then { s with dist := { s.dist with rackLog := k } } else s
  | 2 => rackPublish s (v % 2 ^ 32)
  | _ => s

/-! Writes. -/

/-- An outcome's state. -/
def orStay (s : State) : Host.Outcome State Fault Refusal → State
  | .next t => t
  | _ => s

/-- The write of offset 0 of the answer window applies the answer that stands in the window (R432). The answers of kinds 2, 3 and 4 have no
layout in the manual: their own events bring them. -/
def applyAnswer (s : State) (v : Nat) : State :=
  let tag := bits 15 0 v
  let w (i : Nat) : DWord := s.host.window.getD i 0
  match bits 23 16 v with
  | 1 => orStay s (execWalkAnswer tag (w 1) (w 2) s)
  | 5 => orStay s (execTrapAnswer tag (w 1) (w 2) s)
  | 6 => orStay s (execDramRepairAnswer tag (w 1) s)
  | _ => s

/-- A write of a package register. -/
def packageWrite (s : State) (i v : Nat) (low : Bool) : State :=
  match i with
  | 0 => { s with cfg := { s.cfg with contextTable := v % 2 ^ 52 } }
  | 1 => if s.att.stage == 0 then s else { s with cfg := { s.cfg with functionMode := BitVec.ofNat 32 (v % 128) } }
  | 2 => if allStopped s then { s with cfg := { s.cfg with pw := v % 8 } } else s
  | 4 => s.setCfg64 0x1020 (v / 2 ^ 36 * 2 ^ 36)
  | 5 => if low then mapOut s v else s
  | 7 => { s with cfg := { s.cfg with spillBase := v / 4096 * 4096 % 2 ^ 52 } }
  | _ => s

/-- A write of an entry of the pool package table, only while every context of the rack is stopped (R111, R414). -/
def tableWrite (s : State) (i v : Nat) : State :=
  if !allStopped s then s
  else
    let t := s.cfg.poolTable ++ List.replicate (128 - s.cfg.poolTable.length) 0
    { s with cfg := { s.cfg with poolTable := t.set i (v % 128) } }

/-- A write of a chain slot register (R417). -/
def chainWrite (s : State) (n i v : Nat) : State :=
  if i == 0 then s.onChain n fun x => { x with reg := chainRegister (BitVec.ofNat 64 v) }
  else if (s.chainSlot n).armed then s
  else s.onChain n fun x => { x with ctx := v % 2048 }

/-- A write of an 8-byte register; `low` tells that its low half is written. -/
def writeDword (s : State) (b v : Nat) (low : Bool) : State :=
  if 0x1000 ≤ b && b < 0x1040 then packageWrite s ((b - 0x1000) / 8) v low
  else if 0x1080 ≤ b && b < 0x10A0 then (if b == 0x1090 && !low then s else rackWrite s ((b - 0x1080) / 8) v)
  else if 0x1100 ≤ b && b < 0x1500 then tableWrite s ((b - 0x1100) / 8) v
  else if 0x4000 ≤ b && b < 0x4040 then s.setCfg64 b v
  else if b == 0x6000 then (if low then windowCommand s (BitVec.ofNat 64 v) else s.setCfg64 b (commandWord (BitVec.ofNat 64 v)).toNat)
  else if 0x6008 ≤ b && b < 0x6030 then s.setCfg64 b v
  else if 0x30000 ≤ b && b < 0x30300 then chainWrite s ((b - 0x30000) / 16) (b / 8 % 2) v
  else if b == 0x210000 then (if low then applyAnswer s v else s)
  else if 0x210008 ≤ b && b < 0x210040 then
    let w := s.host.window ++ List.replicate (8 - s.host.window.length) 0
    { s with host := { s.host with window := w.set ((b - 0x210000) / 8) (BitVec.ofNat 64 v) } }
  else if b == 0x211008 then
    let s := { s with host := { s.host with consumer := v } }
    pumpEvents s.host.waiting.length s
  else s

/-- A write of a word of a link's service block (R405 to R408). -/
def linkWrite (s : State) (j o v : Nat) : State :=
  if s.att.stage == 0 then s
  else match o with
    | 0 =>
      if !v.testBit 0 then
        if (s.link j).up then (linkReleaseEffect s j).onLink j fun l => { l with width := v.testBit 2 } else s
      else if v.testBit 1 then linkTrainEffect s j (v.testBit 2)
      else linkHoldEffect s j (v.testBit 2)
    | 8 => s.onLink j fun l => { l with sel := v % 256 }
    | 12 => laneRepairEffect s j (BitVec.ofNat 32 v)
    | _ => s

/-- A write of four bytes of the mailbox: offset 64 starts a command, offset 72 holds its bit 0; the status and the response are
read-only (R10, R426). -/
def mailWrite (s : State) (o v : Nat) : State :=
  if o == 64 then startMail (s.mailPut 64 (leBytes 4 v)) v
  else if o == 72 then s.mailPut 72 (leBytes 4 (v % 2))
  else if o < 64 || (80 ≤ o && o < 96) || (0x100 ≤ o && o < 0x1000) then s.mailPut o (leBytes 4 v)
  else s

/-- A write of an aligned 4-byte word. -/
def writeWord (s : State) (o v : Nat) : State :=
  if 0x40000 ≤ o && o < 0x400C0 then linkWrite s ((o - 0x40000) / 32) (o % 32) v
  else if 0x100000 ≤ o && o < 0x130000 then clearCounter s (o - 0x100000)
  else if 0x300000 ≤ o && o < 0x302000 then mailWrite s (o - 0x300000) v
  else
    let b := o / 8 * 8
    let old := configDword s b
    writeDword s b (if o == b then old / 2 ^ 32 * 2 ^ 32 + v % 2 ^ 32 else old % 2 ^ 32 + 2 ^ 32 * (v % 2 ^ 32)) (o == b)

/-- The blocks that are written a word at a time. -/
def wordBlock (o : Nat) : Bool := (0x40000 ≤ o && o < 0x400C0) || (0x100000 ≤ o && o < 0x130000) || (0x300000 ≤ o && o < 0x302000)

/-- A write of the space: aligned, of 4 or 8 bytes; any other is discarded (R414). -/
def configWrite (s : State) (off size : Nat) (v : DWord) : State :=
  if size == 4 && off % 4 == 0 then writeWord s off (v.toNat % 2 ^ 32)
  else if size == 8 && off % 8 == 0 then
    if wordBlock off then writeWord (writeWord s off (v.toNat % 2 ^ 32)) (off + 4) (v.toNat / 2 ^ 32)
    else writeDword s off v.toNat true
  else s

def execConfigRegisterWrite (offset size : Nat) (v : BitVec 64) (s : State) : Host.Outcome State Fault Refusal := .next (configWrite s offset size v)

/-- FABRIC_CONFIG_WRITE: performed only when the sender's epoch equals this package's (R431). -/
def execFabricConfigWrite (epoch offset size : Nat) (v : BitVec 64) (s : State) : Host.Outcome State Fault Refusal :=
  .next (if epoch == s.att.epoch then configWrite s offset size v else s)

/-! The host through BAR2 (R418, R149). -/

/-- The physical address of an offset of the window. -/
def windowAddr (s : State) (off : Nat) : Nat := s.cfg64 0x1020 + off

/-- Every line of a range is backed. -/
def rangeBacked (s : State) (pa n : Nat) : Bool := (granules 128 pa n).all fun k => s.backed (128 * k)

/-- An access by the host reaches the on-chip map of the package (R105, R106). -/
def onChip (pa : Nat) : Bool := pa / 2 ^ 51 == 1

/-- The core, window and offset of an access by the host to storage on chip; none for a reserved field, for parts of words of the register
and accumulator windows, and for a core out of service (R106, R188). -/
def hostPlace (s : State) (pa n : Nat) : Option (Nat × Nat × Nat) :=
  let core := bits 46 40 pa
  let window := bits 39 36 pa
  let words := (window == 0 || window == 3) && (pa % 4 != 0 || n % 4 != 0)
  if s.coreOut core || words || !((List.range n).all fun i => chipLegal (pa + i) && (pa + i) / 2 ^ 36 == pa / 2 ^ 36) then none
  else some (core, window, bits 35 0 pa)

/-- A write by the host can be performed now: no update holds a line of it, and no drop copies there. -/
def hostReady (s : State) (pa n : Nat) : Bool := onChip pa || (granules 128 pa n).all fun k => !s.lineHeld k && !s.sliceCopying k

/-- A write by the host to storage on chip; one that R106 rejects writes nothing. -/
def hostChipWrite (s : State) (pa : Nat) (data : List Byte) : State :=
  match hostPlace s pa data.length with
  | some (core, window, off) => chipWrite s core window off (data.map (·, false))
  | none => s

/-- HOST_POSTED_WRITE: performed in arrival order; one to an unbacked address is discarded. -/
def execHostPostedWrite (offset : Nat) (data : List Byte) (s : State) : Host.Outcome State Fault Refusal :=
  let pa := windowAddr s offset
  .next (if 2 ^ 36 < offset + data.length || !hostReady s pa data.length then s
    else if onChip pa then hostChipWrite s pa data
    else if rangeBacked s pa data.length then s.poolWrite pa data
    else s)

/-- HOST_READ: the bytes, or all ones when unbacked; a range of another package is asked for first. A read of storage on chip that R106
rejects returns all ones too (DEDUCED, log 50). -/
def hostReadEffect (s : State) (pa n : Nat) : State :=
  if onChip pa then
    let bs := match hostPlace s pa n with
      | some (core, window, off) => (List.range n).map fun i => (chipByte s core window (off + i)).1
      | none => List.replicate n 0xFF
    { s with att := { s.att with answer := bs } }
  else if !rangeBacked s pa n then { s with att := { s.att with answer := List.replicate n 0xFF } }
  else match s.poolRead pa n with
    | none => s.poolAsk pa n
    | some (bs, _) =>
      let s := s.poolDrop pa n
      { s with att := { s.att with answer := bs } }

def execHostRead (offset size : Nat) (s : State) : Host.Outcome State Fault Refusal :=
  .next (if offset + size ≤ 2 ^ 36 && hostReady s (windowAddr s offset) size then hostReadEffect s (windowAddr s offset) size else s)

end Sys2Proof.Machine
end

