-- ==== Sys2Proof/Machine/Fabric.lean ====
section
/-! DEFINITION. What other packages send: flits over Stolil and frames over the uplinks, what each message does here, and the
acknowledgement of remote writes (spec/08_engine_queues.md R193 to R196, R204, R205; spec/06_memory_order.md R144, R146; spec/15 R358, R359;
spec/19_attachment_and_startup.md R420, R430, R431). -/

namespace Sys2Proof.Machine

/-! Writes of other packages (R193). -/

/-- The command for which a remote write stands in the write queues. -/
def remoteCmd : CopyCmd := chainCommand 0 0 0 []

/-- The writes of a package that are not acknowledged: ordered writes of the same package follow them (R146). -/
def earlierRemote (s : State) (src : Nat) (relaxed : Bool) : List Nat :=
  if relaxed then [] else (s.fab.remote.filter fun (r : RemoteWrite) => r.src == src).flatMap (·.after)

/-- An arrival of another package's command sets out, behind the writes listed (R236): its number among what the acknowledgement waits for. -/
def remoteArrival (s : State) (core off amount : Nat) (after : List Nat) : Nat × State :=
  let (n, s) := s.take
  (n, { s with eng := { s.eng with arrivals := s.eng.arrivals ++ [⟨core, off, amount, after, n, ownerOf s core off⟩] } })

/-- What a remote write waits for has happened. -/
def remoteSettled (s : State) (ids : List Nat) : Bool :=
  (s.stillPending ids).isEmpty && !s.eng.arrivals.any fun (a : Arrival) => ids.contains a.cmd

/-- The arrival that rides on a write. -/
def withSync (s : State) (sync : Option (Nat × Nat)) (amount : Nat) (ids : List Nat) : List Nat × State :=
  match sync with
  | none => (ids, s)
  | some (core, off) =>
    let (n, s) := remoteArrival s core off amount ids
    (ids ++ [n], s)

/-- Hold new writes behind earlier ones. -/
def holdBehind (s : State) (ids after : List Nat) : State :=
  ids.foldl (fun (s : State) id => s.onOp id fun o => match o with
    | .write w => .write { w with after := w.after ++ after }
    | .load l => .load l) s

/-- Bytes for storage on chip: none while earlier ordered writes or a move of the block are under way; status 4 for a reserved field, 7 for
a core out of service (R106, R188, R207, R267). -/
def remoteChip (s : State) (src tag pa : Nat) (relaxed : Bool) (bs : List (Byte × Bool)) (sync : Option (Nat × Nat)) : Option State :=
  match chipPlace s.cfg.pkg pa with
  | .ok (.chip _ core window off) =>
    if s.coreOut core then some (s.oweAck src tag [] 7)
    else if !remoteSettled s (earlierRemote s src relaxed) then none
    else
      let owner := if window == 1 then (ownerOf s core off).map (·.1) else none
      if (owner.map (scratchMoving s)).getD false then none
      else
        let s := match owner.bind fun wg => imageSpot s wg window off with
          | some (d, m, o) => s.sectionWrite d m o bs
          | none => chipWrite s core window off bs
        let (ids, s) := withSync s sync bs.length []
        some (s.oweAck src tag ids 0)
  | _ => some (s.oweAck src tag [] 4)

/-- The status that stops a remote access to a pool address: unbacked here, or at a failed slice (R122, R188). -/
def poolStatus (s : State) (pa n : Nat) (mirror : Bool) : Nat :=
  if !(granules 128 pa n).all (fun k => s.homed (128 * k)) then 4
  else if (granules 128 pa n).any (fun k => s.dieDead (128 * k)) && !mirror then 8
  else 0

/-- Bytes, or a reduction, for pool memory: the write queues perform them (R144, R358). -/
def remotePool (s : State) (src tag pa n : Nat) (mirror relaxed : Bool) (sync : Option (Nat × Nat)) (put : State → Nat → State × List Nat) : State :=
  let st := poolStatus s pa n mirror
  if st != 0 then s.oweAck src tag [] st
  else
    let after := s.stillPending (earlierRemote s src relaxed)
    let (s, ids) := put s (s.liveAt pa mirror)
    let s := holdBehind s ids after
    let (ids, s) := withSync s sync n ids
    s.oweAck src tag ids 0

/-- REMOTE_WRITE_ACK is due for a package's write: what it wrote is performed at package scope. -/
def ackDue (s : State) (source : Nat) : Option RemoteWrite :=
  s.fab.remote.find? fun (r : RemoteWrite) => r.src == source && remoteSettled s r.after

/-- REMOTE_WRITE_ACK. -/
def execRemoteWriteAck (source : Nat) (s : State) : Host.Outcome State Fault Refusal :=
  .next (match ackDue s source with
    | some r =>
      State.send { s with fab := { s.fab with remote := s.fab.remote.erase r } } source false (.ack s.cfg.pkg r.tag r.status)
    | none => s)

/-- An acknowledgement of a write for a chain slot's entry (R149, R188, R199). -/
def takeChainAck (s : State) (slot src status : Nat) : State :=
  match (s.chainSlot slot).job with
  | none => s
  | some j =>
    let s := s.onChain slot fun x => { x with job := x.job.map fun j => { j with acks := j.acks.erase src } }
    if status == 0 then s else if status == 8 then loseEntry s slot j.ctx 0 else endEntry s slot status

/-- An acknowledgement reaches the command or the chain entry that waits for it (R188, R199, R264); one of a reduce-scatter tells of a
conflict in its group (R205, R361). -/
def takeAck (s : State) (src tag status : Nat) : State :=
  if 2 ^ 65 ≤ tag then takeChainAck s (tag - 2 ^ 65) src status else
  match s.cmd tag with
  | none => s
  | some c =>
    let s := s.onCmd tag fun c => { c with acks := c.acks.erase src }
    if status == 8 then s.containCmd c 0
    else if status == 10 then s.onCmd tag fun c => { c with poison := true }
    else if status == 5 && c.kind == 7 then breakCmd s tag
    else if status != 0 then s.failCmd tag status
    else s

/-! Reads of other packages. -/

/-- The place in an image that a read of storage on chip means. -/
def remoteSpot (s : State) (pa : Nat) : Option (Nat × Nat × Nat) :=
  if pa < 2 ^ 51 then none
  else match chipPlace s.cfg.pkg pa with
    | .ok (.chip _ core window off) =>
      (if window == 1 && !s.coreOut core then (ownerOf s core off).map (·.1) else none).bind fun wg => imageSpot s wg window off
    | _ => none

/-- A read of an image whose bytes have not all come from their homes. -/
def remoteAway (s : State) (pa n : Nat) : Bool := (remoteSpot s pa).any (imageAway s · n)

/-- The lines of this package's slices that a read takes. -/
def remoteLines (s : State) (pa n : Nat) (mirror : Bool) : List Nat :=
  if 2 ^ 51 ≤ pa || poolStatus s pa n mirror != 0 then [] else granules 128 (s.liveAt pa mirror) n

/-- What a read gives: none while a line is held, or a refresh is under way, else the bytes and a status. -/
def remoteRead (s : State) (pa n : Nat) (mirror : Bool) : Option (List (Byte × Bool) × Nat) :=
  if 2 ^ 51 ≤ pa then
    match chipPlace s.cfg.pkg pa with
    | .ok (.chip _ core window off) =>
      if s.coreOut core then some ([], 7)
      else match (if window == 1 then (ownerOf s core off).map (·.1) else none).bind fun wg => imageSpot s wg window off with
        | some spot => some ((List.range n).map (sectionByte s spot), 0)
        | none => some ((List.range n).map fun i => chipByte s core window (off + i), 0)
    | _ => some ([], 4)
  else
    let st := poolStatus s pa n mirror
    if st != 0 then some ([], st)
    else
      let pa := s.liveAt pa mirror
      if (granules 128 pa n).any (fun k => s.lineWaits k || s.sliceCopying k) then none
      else some ((List.range n).map fun i => (s.homeByte (pa + i), s.homePoison (pa + i)), 0)

/-- A read of the package's own hardware follows its ordered writes (R149). -/
def readFollows (s : State) (src tag : Nat) : Bool := tag < 2 ^ 64 || remoteSettled s (earlierRemote s src false)

/-- The answer to a read: for a command, or for the hardware's own buffer; a read that failed there gives poison. -/
def takeReply (s : State) (tag : Nat) (data : List (Byte × Bool)) (status : Nat) : State :=
  if tag < 2 ^ 64 then s.onCmd tag fun c => if c.asked then { c with reply := some (data, status) } else c
  else
    let line := tag - 2 ^ 64
    if !s.fab.wanted.contains line then s
    else
      let data := if status == 0 then data else List.replicate 128 (0, true)
      let s : State := { s with fab := { s.fab with wanted := s.fab.wanted.filter (· != line), buffer := s.fab.buffer.insert line data } }
      pumpReports s.ctl.reports.length s

/-! Work and commands of other packages (07 R153 to R163, R181). -/

/-- A part for the package distributor answers its request for work, where it has asked the package that sends it (R160). -/
def workAnswers (s : State) (from' level : Nat) : State :=
  if level == 2 && s.dist.asking == some (from', false) then stealDone s else s

/-- A launch for its record of the rack command queue, or a part of a grid for the tray or package distributor: none while there is no room
or a record is on its way here. -/
def takeWork (s : State) (from' : Nat) (c : GivenChunk) : Option State :=
  if c.level == 0 then
    if s.rackRoot == s.cfg.pkg then some (publishRack s c.launch c.record c.within c.owner) else none
  else if (if c.level == 1 then (s.level 1).queue.length ≥ 4096 else !s.packageQueueFree) then none
  else match partGrid s c with
    | .ok (n, s) => some (enterChunk (workAnswers s from' c.level) c.level ⟨n, c.ids, 0, 0, false, none, [], 0⟩)
    | .refuse _ => some (s.send s.rackRoot false (.partDone c.launch c.ids.length true))
    | .ask pa n => some (s.poolAsk pa n)

/-- A part that cannot be formed yet is not accepted, though its record is asked for. -/
def workWaits (s : State) (c : GivenChunk) : Bool :=
  c.level != 0 && match partGrid s c with
    | .ask _ _ => true
    | _ => false

/-- A package asks for a record of the rack command queue for a `spawn`: the next index, or none while the queue is full (R157, R429). -/
def takeReserve (s : State) (from' : Nat) : State :=
  if s.rackRoot == s.cfg.pkg && s.rackQueueFree then (reserveRack s).send from' false (.reserved (some s.dist.rackReserved))
  else s.send from' false (.reserved none)

/-- Work-groups of a launch have ended at another package (R163). -/
def takePartDone (s : State) (launch count : Nat) (failed : Bool) : State :=
  match s.work.grids.find? fun (x : Nat × Grid) => x.2.launch == some launch with
  | none => s
  | some (n, g) =>
    let s := if failed then { s with work := { s.work with grids := s.work.grids.insert n { g with failed := true } } } else s
    groupsDone s n count

/-- A context command over the fabric: to the rack root, which gives it to every package, after those under way; or from the rack root
(R181). -/
def takeCommand (s : State) (src : Nat) (w : BitVec 64) (td ts area length : Nat) : State :=
  if s.rackRoot == s.cfg.pkg then rackOrder s ⟨src, w, td, ts, area, length⟩
  else localCommand s w (rackArgs s td ts area length)

/-- The end of a command: of a package, at the rack root; or of the whole, where it was asked for. -/
def takeCommandDone (s : State) (status : Nat) : State :=
  if s.rackRoot == s.cfg.pkg then rackReport s status else s.setCommandStatus status

/-! Messages. -/

/-- The port's channel whose credit a contribution holds until a column-head port takes it (R193, R206). -/
def flitCredit (s : State) (from' : Nat) (relaxed : Bool) : Option (Nat × Bool) := if s.inTray from' then some (s.portOf from', relaxed) else none

/-- What a message does: none when it cannot be accepted yet. -/
def takeMsg (s : State) (from' : Nat) (relaxed : Bool) : Msg → Option State
  | .write src tag pa kind mirror data sync =>
    if 2 ^ 51 ≤ pa then remoteChip s src tag pa relaxed data sync
    else some (remotePool s src tag pa data.length mirror relaxed sync fun s pa => poolPut s (.remote src tag) pa kind mirror data remoteCmd)
  | .ack src tag status => some (takeAck s src tag status)
  | .readReq src tag pa n mirror =>
    if remoteAway s pa n then (remoteSpot s pa).map (imageAsk s · n)
    else if !readFollows s src tag then none
    else (remoteRead s pa n mirror).map fun r =>
      ((((remoteSpot s pa).map (imageDrop s · n)).getD s).readThrough (remoteLines s pa n mirror)).send src relaxed (.readReply tag r.1 r.2)
  | .readReply tag data status => some (takeReply s tag data status)
  | .arrival src tag core off amount =>
    let (n, s) := remoteArrival s core off amount (s.stillPending (earlierRemote s src relaxed))
    some (s.oweAck src tag [n] 0)
  | .chunk src tag group rank dst n op off data =>
    some (takeChunk s ⟨src, tag, group, rank, dst, n, op, off, data, none, flitCredit s from' relaxed⟩)
  | .broken src tag group rank dst n => some (takeBroken (s.oweAck src tag [] 0) src tag group rank dst n)
  | .reduce src tag pa kind mirror op data sync =>
    some (remotePool s src tag pa (4 * data.length) mirror relaxed sync fun s pa =>
      poolReduce s (.remote src tag) pa kind mirror op (data.map fun w => (w.val, w.poison)) remoteCmd)
  | .work c => takeWork s from' c
  | .stealAsk thief count => some (stealRequestEffect s thief count)
  | .stealNone => some (victimDeclines s from')
  | .jobCount pkg contract more => some (jobCount s pkg contract more)
  | .reserve => some (takeReserve s from')
  | .reserved index => some { s with dist := { s.dist with reservation := index.map some } }
  | .partDone launch count failed => some (takePartDone s launch count failed)
  | .contextCommand src w td ts area length => some (takeCommand s src w td ts area length)
  | .commandDone status => some (takeCommandDone s status)
  | .heartbeat => some { s with att := { s.att with beatIn := s.clk.ref.toNat } }
  | .logRecord n => some (if s.standby && from' == s.att.peer then keepRecord s n else s)
  | .logAck n => some (if s.primary && from' == s.att.peer then commitRecord s n else s)
  | .epoch n => some (adoptEpoch s n)

/-- A message that is only asked for again: it is not accepted. -/
def msgWaits (s : State) : Msg → Bool
  | .work c => workWaits s c
  | .readReq _ _ pa n _ => remoteAway s pa n
  | _ => false

/-! Flits (R193, R195, R196). -/

/-- The channel has taken a number already. -/
def Channel.taken (c : Channel) (n : Nat) : Bool := n < c.expect || c.seen.contains n

/-- The lowest number not taken, with those above it. -/
def settleSeen : Nat → Nat → List Nat → Nat × List Nat
  | 0, e, xs => (e, xs)
  | k + 1, e, xs => if xs.contains e then settleSeen k (e + 1) (xs.filter (· != e)) else (e, xs)

/-- Take a number: on the ordered channel nothing below it comes any more. -/
def Channel.accept (c : Channel) (relaxed : Bool) (n : Nat) : Channel :=
  if !relaxed then { c with expect := n + 1 }
  else
    let (e, xs) := settleSeen (c.seen.length + 1) c.expect (n :: c.seen)
    { c with expect := e, seen := xs }

/-- FLIT_RECEIVE of a good flit for this package: a number that its source's channel has taken is a duplicate. -/
def acceptFlit (s : State) (port : Nat) (f : Flit) : State :=
  let q := s.portOf f.source
  if ((s.portAt q).chan f.relaxed).taken f.seq then s.bump (portCounter port 8) 1
  else match takeMsg s f.source f.relaxed f.msg with
    | none => s
    | some t => if msgWaits s f.msg then t else t.onChan q f.relaxed fun c => c.accept f.relaxed f.seq

/-- FLIT_RECEIVE: a bad CRC is counted, and the link layer resends; a transit flit is held for its way out. -/
def flitEffect (s : State) (port : Nat) (crcOk : Bool) (f : Flit) : State :=
  if !crcOk then s.bump (portCounter port 4) 1
  else if !s.inTray f.source || f.source == s.cfg.pkg || !s.inTray f.target then s
  else if f.target == s.cfg.pkg then acceptFlit s port f
  else s.toTransit (s.portOf f.target) f

def execFlitReceive (port : Nat) (crcOk : Bool) (flit : Flit) (s : State) : Host.Outcome State Fault Refusal :=
  .next (if port < 15 && s.portLive port then flitEffect s port crcOk flit else s)

/-! Ethernet (R420). -/

/-- Perform the flits of a frame in order; none when one cannot be accepted yet. -/
def takeFlits (s : State) (from' : Nat) : List Flit → Option State
  | [] => some s
  | f :: fs => if msgWaits s f.msg then none else match takeMsg s from' f.relaxed f.msg with
    | some t => takeFlits t from' fs
    | none => none

/-- Frames below an acknowledgement number are acknowledged. -/
def Uplink.acked (u : Uplink) (ack : Nat) : Uplink := { u with sent := u.sent.filter fun x => (x.1 + 2 ^ 32 - ack) % 2 ^ 32 < 2 ^ 31 }

/-- Change the frame numbers of an uplink with a package. -/
def State.onUplink (s : State) (uplink peer : Nat) (f : Uplink → Uplink) : State :=
  { s with fab := { s.fab with uplinks := s.fab.uplinks.alter (uplinkKey uplink peer) f Uplink.init } }

def State.uplinkAt (s : State) (uplink peer : Nat) : Uplink := s.fab.uplinks.getD (uplinkKey uplink peer) Uplink.init

/-- ETHERNET_FRAME_RECEIVE: a frame is taken in sequence; a duplicate, a damaged one, one over its length or one that is not for this package
is discarded. -/
def frameEffect (s : State) (uplink seq ack : Nat) (f : Frame) : State :=
  if f.target != s.cfg.pkg || 32 < f.flits.length then s else
  let s := s.onUplink uplink f.source fun u => u.acked ack
  if seq != (s.uplinkAt uplink f.source).expect then s
  else match takeFlits s f.source f.flits with
    | some t => t.onUplink uplink f.source fun u => { u with expect := (seq + 1) % 2 ^ 32 }
    | none => (f.flits.findSome? fun x => if msgWaits s x.msg then takeMsg s f.source x.relaxed x.msg else none).getD s

def execEthernetFrameReceive (uplink seq ack : Nat) (fcsOk : Bool) (frame : Frame) (s : State) : Host.Outcome State Fault Refusal :=
  .next (if uplink < 4 && frame.source < 128 && fcsOk && s.att.fabricUp then frameEffect s uplink seq ack frame else s)

/-- A frame has not been acknowledged within 20 µs. -/
def frameLate (s : State) (uplink peer seq : Nat) : Bool :=
  (s.uplinkAt uplink peer).sent.any fun x => x.1 == seq && x.2.1 + 4000 ≤ s.clk.ref.toNat

/-- ETHERNET_FRAME_RESEND: the frame goes out again, under its number. -/
def execEthernetFrameResend (uplink peer seq : Nat) (s : State) : Host.Outcome State Fault Refusal :=
  .next (if uplink < 4 && peer < 128 && frameLate s uplink peer seq then
    s.onUplink uplink peer fun u => { u with sent := u.sent.map fun x => if x.1 == seq then (x.1, s.clk.ref.toNat, x.2.2) else x }
  else s)

end Sys2Proof.Machine
end

