-- ==== Sys2Proof/Machine/Background.lean ====
section
/-! DEFINITION. Which event takes place next when the agenda names none: the first in a fixed order whose condition holds. The spec
leaves the order of independent events open; this order is the model's own (log entry 3). -/

namespace Sys2Proof.Machine

/-- What a step answers. -/
abbrev Answer := Host.Outcome State Fault Refusal

/-- The first event that a list of candidates offers. -/
def firstEvent (xs : List α) (f : α → Option Answer) : Option Answer := xs.findSome? f

/-- An event when its condition holds. -/
def due (c : Bool) (i : Answer) : Option Answer := if c then some i else none

/-- An event that changes something. -/
def moving (s : State) (c : Bool) (i : Answer) : Option Answer :=
  if c then match i with
    | .next t => if t = s then none else some i
    | _ => some i
  else none

/-- The slot and number of a warp's key. -/
def keyPlace (k : Nat) : Nat × Nat × Nat := (k / 64, k / 8 % 8, k % 8)

/-- Events of the warps: stops, sparing, rollback, wake-ups and timeouts. -/
def warpEvent (s : State) : Option Answer :=
  firstEvent s.thr.warps fun (k, w) =>
    let (c, sl, n) := keyPlace k
    due (siblingReady w) (execSiblingStop c sl n s) <|> due (spareReady s c sl w) (execSpareLaneSwitch c sl n s) <|>
      due (rollbackReady s k w) (execRingRollback c sl n s) <|> due (mwaitWoken w) (execMwaitWake c sl n s) <|>
      due (mwaitExpired s w) (execMonitorTimeout c sl n s)

/-- Events of loads: values, fills and walks. -/
def loadEvent (s : State) : Option Answer :=
  (firstEvent s.mem.ops fun (id, o) => match o with
    | .load o => match o.agent.core with
      | some c => due (loadReady s c o) (execLoadValueArrival c id s) <|> due (l1FillReady s c (lineOf o.pa)) (execL1Fill c (lineOf o.pa) s)
      | none => none
    | .write _ => none) <|>
  (firstEvent s.mem.fetches fun (c, asid, line) => due (iFillReady s c asid line) (execInstructionCacheFill c asid line s)) <|>
  (firstEvent s.mem.walks fun w => due (w.tag.isNone && walkReady s w) (execPageWalk w.die w.asid (4096 * w.page) s))

/-- Events of an update under way. -/
def updateEvent (s : State) : Option Answer :=
  (firstEvent s.mem.updates fun (id, u) =>
    (firstEvent u.targets fun c => moving s true (execSharerUpdate c id s)) <|> (firstEvent u.push fun c => moving s true (execGraftFill c id s)) <|>
      due (acknowledgeReady s u) (execWriterAcknowledge id s)) <|>
  (firstEvent s.mem.notices fun (c, line) => moving s true (execEvictionNotice c line s))

/-- Events of the home slices: the lines that accesses wait for. -/
def sliceEvent (s : State) : Option Answer :=
  (firstEvent s.mem.queue fun e =>
    let slice := sliceOfLine e.line
    due (queueApplyReady s slice) (execWriteQueueApply slice s) <|>
      (firstEvent (List.range 4) fun k => due (partialReady s e.line k) (execPartialSectorMerge e.line k 0 s)) <|>
      due (gatherMergeReady s e.line) (execGatherMerge e.line s)) <|>
  (firstEvent (s.mem.fetches.filterMap (fetchLine s)) fun line =>
    let slice := sliceOfLine line
    due (sliceFillReady s line) (execSliceFill line 0 0 s) <|>
      due (wayWanted s slice (l2Set s.cfg.pw line) && victimOpen s slice (l2Set s.cfg.pw line))
        (execSliceVictimEviction slice (l2Set s.cfg.pw line) s)) <|>
  (firstEvent s.mem.ops fun (id, o) =>
    let line := lineOf o.pa
    let slice := sliceOfLine line
    due (sliceFillReady s line) (execSliceFill line 0 0 s) <|> due (gatherMergeReady s line) (execGatherMerge line s) <|>
      (match o with
        | .write w => due (writeArrivalReady s id w) (execSliceWriteArrival id s)
        | .load _ => none) <|>
      due (wayWanted s slice (l2Set s.cfg.pw line) && victimOpen s slice (l2Set s.cfg.pw line))
        (execSliceVictimEviction slice (l2Set s.cfg.pw line) s))

/-- Events of the exchange banks and the matrix engines. -/
def coreEvent (s : State) : Option Answer :=
  (firstEvent s.mem.exchStores fun x => (exchTarget s x).map fun t => execStXApply t.1 s) <|>
  (firstEvent s.work.gangs fun (g, _) => due (swapReady s g) (execExchangePolaritySwap g s)) <|>
  (firstEvent s.mem.matrix fun c =>
    (due c.started (execMatrixCommandComplete c.core s)) <|>
    (match nextCommand s c.core with
      | some d => due (matrixStartReady s d) (execMatrixCommandStart c.core s)
      | none => none) <|>
    (firstEvent c.op.macros fun m => due (exchangeReady s c.core m) (execMacroExchange c.core m s))) <|>
  (firstEvent s.faults fun f => due (nextFault s (f.warp / 64)).isSome (execImpreciseStoreFault (f.warp / 64) s))

/-- Events of the copy engines, their arrivals and the chains. -/
def engineEvent (s : State) : Option Answer :=
  (firstEvent s.eng.arrivals fun a => moving s true (execSyncWordArrival a.core s)) <|>
  (firstEvent s.eng.copy fun c =>
    moving s (retireReady s c) (execCommandRetire c.core c.id s) <|>
    (match c.engine with
      | none => none
      | some e =>
        moving s true (execXputRelRelease (e / 16) (e % 16) s) <|> moving s true (execEngineLineWrite (e / 16) (e % 16) s) <|>
          moving s true (execXgthVersionRecheck (e / 16) (e % 16) s) <|>
          (if c.kind == 7 then
            moving s (c.moved < c.ranks * c.len) (execXrscChunkArrival c.group c.rank (c.moved / c.len) s) <|>
              moving s true (execColumnHeadReduction c.group c.rank s)
          else none))) <|>
  (if s.eng.copy.any fun c => c.engine.isNone then
    firstEvent (List.range 4) fun d => firstEvent (List.range 16) fun e => moving s (takeReady s d e) (execCopyCommandTake d e s)
  else none) <|>
  (firstEvent s.eng.slots fun (n, _) =>
    moving s true (execEncodeFrameComplete n s) <|> moving s true (execChainEntryComplete n s) <|> moving s (entryStartReady s n || chainPending s n) (execChainEntryStart n s))

/-- Events of the distributors: launches, routes, placements, stealing and pruning. -/
def distEvent (s : State) : Option Answer :=
  (firstEvent s.dist.buffers fun (c, _) => moving s true (execWorkGroupResidency c s)) <|>
  (if s.dist.records.isEmpty then none else moving s true (execLaunchRecordTake 0 s)) <|>
  moving s (rackReady s) (execLaunchRecordTake 1 s) <|>
  (firstEvent s.dist.levels fun (n, l) =>
    (firstEvent (List.range l.closed.length) fun i => moving s (passReady s n i) (execChunkPassDown n i s)) <|>
      moving s (routeReady s n) (execWorkGroupRoute n 0 s) <|>
      moving s (3 ≤ n && placementReady s (n - 3)) (execWorkGroupPlacement (n - 3) s)) <|>
  (firstEvent s.thr.warps fun (k, w) =>
    let (c, sl, n) := keyPlace k
    moving s (completeReady w) (execWarpComplete c sl n s)) <|>
  moving s (s.dist.asking.isSome && packageIdle s && mayRetry s 2) (execPackageSteal 0 [] s) <|>
  (firstEvent s.dist.moves fun m => moving s (pruneStepReady s m.core) (execPrunerMoveStep m.core s)) <|>
  (if s.dist.levels.isEmpty then none
  else (firstEvent (List.range 4) fun d => moving s (dieStealReady s d && (dieVictim s d).isSome) (execDieSteal d s)) <|>
    firstEvent (List.range 128) fun c => moving s (prunerReady s c) (execPrunerTrigger c s))

/-- Events of the contracts. -/
def contractEvent (s : State) : Option Answer :=
  firstEvent s.work.contracts fun (n, c) =>
    moving s (overrunDue c) (execBudgetOverrun n s) <|> moving s (missDue s c) (execDeadlineMiss n s) <|>
      moving s (releaseDue s c) (execContractRelease n s)

/-- Events of pre-emption and restoring. -/
def preemptEvent (s : State) : Option Answer :=
  (firstEvent s.thr.warps fun (k, w) =>
    let (c, sl, n) := keyPlace k
    due (snapshotReady s k w) (execWarpSnapshot c sl n s)) <|>
  (if s.ctl.preempts.isEmpty then none
  else (firstEvent s.work.groups fun (n, _) => moving s true (execWorkGroupSave n s)) <|>
    firstEvent s.ctl.preempts fun p =>
      moving s (drainReady s p) (execDrainLimitExpiry p.ctx s) <|> moving s (snapEndReady s p) (execSnapshotLimitExpiry p.ctx s)) <|>
  (if s.ctl.restores.isEmpty then none else firstEvent s.ctl.saved fun (n, _) => moving s true (execWorkGroupRestore n s))

/-- Events of the stacks, the die links and the clocks. -/
def partEvent (s : State) : Option Answer :=
  (firstEvent (List.range 4) fun d => due (stallOver s d) (execClockCrossingStallEnd d s)) <|>
  (firstEvent s.dram.forced fun (pc, _) => moving s (forcedReady s pc) (execForcedAllBankRefresh pc s) <|> moving s true (execRefreshEnd pc 16 s)) <|>
  (firstEvent s.dram.banks fun (k, _) =>
    moving s true (execRefreshEnd (k / 16) (k % 16) s) <|> moving s (drainDue s (k / 16) (k % 16)) (execPostponedRefreshDrain (k / 16) (k % 16) s)) <|>
  (firstEvent s.dram.errors fun (p, _) => moving s (repairReady s p) (execPinRepairDue (p / 2048) (p % 2048) s)) <|>
  (firstEvent s.dram.pauses fun (g, t, _) => moving s (t ≤ s.clk.ref.toNat) (execPinRepairPauseEnd (g / 64) (g % 64) s)) <|>
  (firstEvent s.links fun (j, l) =>
    moving s (holdReady s j) (execHoldDrainComplete j s) <|> moving s l.pending.isSome (execLaneRepairComplete j s) <|>
      moving s (lookDue s j) (execLinkRetrainTrigger j s))

/-- Events of the fabric and the attachment. -/
def fabricEvent (s : State) : Option Answer :=
  (firstEvent s.fab.ports fun (q, _) => moving s true (execRelayForward q 0 s) <|> moving s true (execRelayForward q 1 s)) <|>
  (firstEvent s.fab.held fun t => moving s true (execOrderedDetourSwitch t s)) <|>
  (firstEvent s.fab.remote fun r => moving s true (execRemoteWriteAck r.src s)) <|>
  (firstEvent s.fab.uplinks fun (k, u) => firstEvent u.sent fun x => moving s true (execEthernetFrameResend (k / 128) (k % 128) x.1 s)) <|>
  moving s (s.att.command != 0) (execMailboxCommandComplete s) <|> moving s (beatDue s) (execHeartbeatSend s) <|>
  moving s (beatLate s) (execHeartbeatTimeout s)

/-- Accesses at slices that have failed. -/
def deadEvent (s : State) : Option Answer :=
  if s.cfg.deadSlices == 0 then none
  else firstEvent (deadOps s) fun (_, o) => moving s true (execHomeTimeout (dieOfLine (lineOf o.pa)) o.pa s)

/-- The event that takes place next when the agenda is empty. -/
def defaultEvent (s : State) : Option Answer :=
  warpEvent s <|> loadEvent s <|> updateEvent s <|> deadEvent s <|> sliceEvent s <|> coreEvent s <|> engineEvent s <|> partEvent s <|>
    preemptEvent s <|> contractEvent s <|> distEvent s <|> fabricEvent s

end Sys2Proof.Machine
end

