-- ==== Sys2Proof/Machine/Turns.lean ====
section
/-! DEFINITION. What moves next: the head of the agenda, else the event that is due, else the next issue (spec/01 R19, R20). Time moves
only by the edges that the agenda gives (R240, R241). -/

namespace Sys2Proof.Machine

/-! Clock edges (R3, R240, R241). -/

/-- The increment of `sr.cyc` at a frequency code, in units of 2^-16: 2,293,760 / (12 + k) to nearest even (R241). -/
def cycStep (code : Nat) : Nat :=
  let n := 12 + code
  let q := 2293760 / n
  let r := 2293760 % n
  if 2 * r > n || (2 * r == n && q % 2 == 1) then q + 1 else q

/-- A core cycle of a die (R241). -/
def DieClock.tick (d : DieClock) : DieClock :=
  if !d.running then d
  else
    let t := d.cyc.toNat * 65536 + d.frac + cycStep d.code
    { d with cyc := BitVec.ofNat 64 (t / 65536), frac := t % 65536 }

def coreEdgeEffect (s : State) (die : Nat) : State := { s with clk := { s.clk with dies := s.clk.dies.modify die DieClock.tick } }

/-- An edge of the reference timer (R240), with what a tick adds to the charges of contracts (R172) and to the counters of the
pseudo-channels (R125, R244); the rack root goes on with the requests that wait (R181; log 17). -/
def refEdgeEffect (s : State) : State :=
  nextOrder s.ctl.orders.length (dramTick (chargeTick { s with clk := { s.clk with ref := s.clk.ref + 1 } }))

/-! Parity and ECC (R85, R103). -/

/-- A parity error of an L1 line: it is invalidated, counted, and refetched by a load of the L1 itself that no register awaits (R103). -/
def l1ParityEffect (s : State) (core line : Nat) : State :=
  match s.l1Line core line with
  | none => s
  | some l =>
    let (id, s) := ((s.bump (coreCounter core 8) 1).loseL1 core line true).take
    s.addOp id (.load ⟨.cache core, 128 * line, 1, 0, 2, l.cls, .discard, false, [], [], true, false, 0, 0, 0⟩)

/-- A parity error of an instruction-cache line (R103). -/
def iParityEffect (s : State) (core asid line : Nat) : State :=
  match s.mem.icache.find (icacheKey core asid line) with
  | none => s
  | some _ =>
    let s := s.bump (coreCounter core 12) 1
    let s := { s with mem := { s.mem with icache := s.mem.icache.erase (icacheKey core asid line) } }
    s.askFetch core asid line

/-- An ECC error in a sector that a slice holds (its line times 4, and the sector): corrected, or poisoned, and counted (R114, R244). -/
def sliceEccEffect (s : State) (slice word : Nat) (uncorrectable : Bool) : State :=
  match s.mem.l2.find (word / 4) with
  | none => s
  | some l =>
    if sliceOfLine (word / 4) != slice || !l.have'.getLsbD (word % 4) then s
    else
      let s := s.bump (sliceCounter slice (if uncorrectable then 4 else 0)) 1
      if uncorrectable then s.setL2 (word / 4) { l with poison := l.poison ||| (1#4 <<< (word % 4)) } else s

/-- An ECC error in a word of a core's scratchpad (0), exchange (1) or accumulator (2) storage: corrected, or poisoned, and counted (R85);
or in a sector of a slice (3). -/
def sramEccEffect (s : State) (core space word : Nat) (uncorrectable : Bool) : State :=
  if space == 3 then sliceEccEffect s core word uncorrectable else
  let s := s.bump (coreCounter core (if uncorrectable then 4 else 0)) 1
  if !uncorrectable then s
  else match space with
    | 0 => s.onScratch fun m => m.setPoison (core * (scratchSize / 4) + word % (scratchSize / 4)) true
    | 1 => s.onExch fun m => m.setPoison (core * (exchSize / 2) + word % (exchSize / 2)) true
    | _ => s.onAcc fun m => m.setPoison (core * (16 * tileSize) + word % (16 * tileSize)) true

/-! The next move. -/

/-- What the machine does next: execute an instruction or event in a state, take the event that is due, or pass to a state. -/
inductive Move where
  | run (i : Instr) (s : State)
  | event (o : Answer)
  | pass (s : State)

/-- The run of a warp with the sweep that is left. -/
def Run.withSweep (r : Run) (xs : List (Nat × Nat)) : Run := { r with sweep := xs }

/-- The move of an issue slot: at a run boundary the choice of a warp; in a run the next issue, or the cut (R20, R25). -/
def slotMove (s : State) (core slot : Nat) : Move :=
  match (s.slotAt core slot).running with
  | none => .run (.warpChoice core slot) s
  | some n =>
    let k := warpKey core slot n
    match (s.warpAt k).bind (·.run) with
    | none => .run (.warpChoice core slot) (s.onSlot core slot fun x => { x with running := none })
    | some r =>
      match nextInRun s k r with
      | (none, _) => .run (.cut core slot) s
      | (some (.issue i g), sweep) =>
        .run i { s.onWarp k fun w => { w with run := w.run.map (·.withSweep sweep) } with chosen := some g }
      | (some (.raise t g), _) => .pass (raiseAt s g t)
      | (some (.prepare g), _) => .pass (prepareGroup s g)
      | (some (.blocked ask), _) => .pass (ask s)

/-- The slots that hold warps, as core and slot. -/
def occupiedSlots (s : State) : List (Nat × Nat) := ((s.thr.warps.map fun (k, _) => k / 8).dedup).map fun x => (x / 8, x % 8)

/-- Slots in turn after a place: those above it first. -/
def slotsAfter (f : Nat × Nat) (xs : List (Nat × Nat)) : List (Nat × Nat) :=
  (xs.filter fun x => slotKey f.1 f.2 < slotKey x.1 x.2) ++ xs.filter fun x => slotKey x.1 x.2 ≤ slotKey f.1 f.2

/-- The move of the slots when nothing else names one: the slot in focus goes on with its run, else the next slot that holds warps takes
its turn; with no warp resident the machine waits. -/
def focusMove (s : State) : Move :=
  if (s.slotAt s.focus.1 s.focus.2).running.isSome then slotMove s s.focus.1 s.focus.2
  else
    match (slotsAfter s.focus (occupiedSlots s)).head? with
    | some x => slotMove { s with focus := x } x.1 x.2
    | none => .pass s

/-- The move that a turn of the agenda names; an instruction word is no event. -/
def turnMove (s : State) : Turn → Move
  | .event i => if (encode i).isEmpty then .run i s else .pass s
  | .slot core slot => slotMove s core slot
  | .refEdge => .pass (refEdgeEffect s)
  | .coreEdge die => .pass (coreEdgeEffect s die)
  | .l1Parity core line => .pass (l1ParityEffect s core line)
  | .iParity core asid line => .pass (iParityEffect s core asid line)
  | .sramEcc core space word u => .pass (sramEccEffect s core space word u)

/-- The machine's next move. -/
def nextMove (s : State) : Move :=
  match s.agenda with
  | t :: ts => turnMove { s with agenda := ts } t
  | [] =>
    match defaultEvent s with
    | some o => .event o
    | none => focusMove s

end Sys2Proof.Machine
end

