-- ==== Sys2Proof/Machine/Dispatch.lean ====
section
/-! DEFINITION. The meaning of every instruction and event: one direct call each. -/

namespace Sys2Proof.Machine

def exec (i : Instr) (s : State) : Host.Outcome State Fault Refusal :=
  match i with
  | .add e d a b u => Sys2Proof.Machine.execAdd e d a b u s
  | .sub e d a b u => Sys2Proof.Machine.execSub e d a b u s
  | .addc e d a b u => Sys2Proof.Machine.execAddc e d a b u s
  | .subb e d a b u => Sys2Proof.Machine.execSubb e d a b u s
  | .addi e d a imm => Sys2Proof.Machine.execAddi e d a imm s
  | .mul e d a b u => Sys2Proof.Machine.execMul e d a b u s
  | .mulhI32 e d a b u => Sys2Proof.Machine.execMulhI32 e d a b u s
  | .mulhN32 e d a b u => Sys2Proof.Machine.execMulhN32 e d a b u s
  | .mad e d a b u => Sys2Proof.Machine.execMad e d a b u s
  | .minI32 e d a b u => Sys2Proof.Machine.execMinI32 e d a b u s
  | .minN32 e d a b u => Sys2Proof.Machine.execMinN32 e d a b u s
  | .maxI32 e d a b u => Sys2Proof.Machine.execMaxI32 e d a b u s
  | .maxN32 e d a b u => Sys2Proof.Machine.execMaxN32 e d a b u s
  | .and e d a b u => Sys2Proof.Machine.execAnd e d a b u s
  | .or e d a b u => Sys2Proof.Machine.execOr e d a b u s
  | .xor e d a b u => Sys2Proof.Machine.execXor e d a b u s
  | .shlReg e d a b u => Sys2Proof.Machine.execShlReg e d a b u s
  | .shrReg e d a b u => Sys2Proof.Machine.execShrReg e d a b u s
  | .sarReg e d a b u => Sys2Proof.Machine.execSarReg e d a b u s
  | .rolReg e d a b u => Sys2Proof.Machine.execRolReg e d a b u s
  | .shlImm e d a c => Sys2Proof.Machine.execShlImm e d a c s
  | .shrImm e d a c => Sys2Proof.Machine.execShrImm e d a c s
  | .sarImm e d a c => Sys2Proof.Machine.execSarImm e d a c s
  | .rolImm e d a c => Sys2Proof.Machine.execRolImm e d a c s
  | .abs e d a l => Sys2Proof.Machine.execAbs e d a l s
  | .neg e d a l => Sys2Proof.Machine.execNeg e d a l s
  | .clz e d a l => Sys2Proof.Machine.execClz e d a l s
  | .popc e d a l => Sys2Proof.Machine.execPopc e d a l s
  | .brev e d a l => Sys2Proof.Machine.execBrev e d a l s
  | .mov e d a l => Sys2Proof.Machine.execMov e d a l s
  | .pk8 e d a l k => Sys2Proof.Machine.execPk8 e d a l k s
  | .upk8N e d a l k => Sys2Proof.Machine.execUpk8N e d a l k s
  | .upk8I e d a l k => Sys2Proof.Machine.execUpk8I e d a l k s
  | .pk4 e d a l k => Sys2Proof.Machine.execPk4 e d a l k s
  | .upk4N e d a l k => Sys2Proof.Machine.execUpk4N e d a l k s
  | .upk4I e d a l k => Sys2Proof.Machine.execUpk4I e d a l k s
  | .bfx e d a b u => Sys2Proof.Machine.execBfx e d a b u s
  | .bfxs e d a b u => Sys2Proof.Machine.execBfxs e d a b u s
  | .bfi e d a b u => Sys2Proof.Machine.execBfi e d a b u s
  | .bfx64 e d a b u => Sys2Proof.Machine.execBfx64 e d a b u s
  | .bfxs64 e d a b u => Sys2Proof.Machine.execBfxs64 e d a b u s
  | .bfi64 e d a b u => Sys2Proof.Machine.execBfi64 e d a b u s
  | .sel e d a b p => Sys2Proof.Machine.execSel e d a b p s
  | .cmp e c p a b u f => Sys2Proof.Machine.execCmp e c p a b u f s
  | .movi e d imm => Sys2Proof.Machine.execMovi e d imm s
  | .movh e d imm => Sys2Proof.Machine.execMovh e d imm s
  | .add64 e d a b u => Sys2Proof.Machine.execAdd64 e d a b u s
  | .sub64 e d a b u => Sys2Proof.Machine.execSub64 e d a b u s
  | .mul64 e d a b u => Sys2Proof.Machine.execMul64 e d a b u s
  | .mad64 e d a b u => Sys2Proof.Machine.execMad64 e d a b u s
  | .shl64 e d a b u => Sys2Proof.Machine.execShl64 e d a b u s
  | .shr64 e d a b u => Sys2Proof.Machine.execShr64 e d a b u s
  | .sar64 e d a b u => Sys2Proof.Machine.execSar64 e d a b u s
  | .min64I64 e d a b u => Sys2Proof.Machine.execMin64I64 e d a b u s
  | .min64N64 e d a b u => Sys2Proof.Machine.execMin64N64 e d a b u s
  | .max64I64 e d a b u => Sys2Proof.Machine.execMax64I64 e d a b u s
  | .max64N64 e d a b u => Sys2Proof.Machine.execMax64N64 e d a b u s
  | .mulh64I64 e d a b u => Sys2Proof.Machine.execMulh64I64 e d a b u s
  | .mulh64N64 e d a b u => Sys2Proof.Machine.execMulh64N64 e d a b u s
  | .cmp64 e c p a b u f => Sys2Proof.Machine.execCmp64 e c p a b u f s
  | .fadd e d a b u r => Sys2Proof.Machine.execFadd e d a b u r s
  | .fsub e d a b u r => Sys2Proof.Machine.execFsub e d a b u r s
  | .fmul e d a b u r => Sys2Proof.Machine.execFmul e d a b u r s
  | .ffma e d a b u r => Sys2Proof.Machine.execFfma e d a b u r s
  | .fmin e d a b u => Sys2Proof.Machine.execFmin e d a b u s
  | .fmax e d a b u => Sys2Proof.Machine.execFmax e d a b u s
  | .hmax2 e d a b u t => Sys2Proof.Machine.execHmax2 e d a b u t s
  | .fcmp e c p a b u => Sys2Proof.Machine.execFcmp e c p a b u s
  | .frcp e d a l => Sys2Proof.Machine.execFrcp e d a l s
  | .frsq e d a l => Sys2Proof.Machine.execFrsq e d a l s
  | .fsqrt e d a l => Sys2Proof.Machine.execFsqrt e d a l s
  | .fex2 e d a l => Sys2Proof.Machine.execFex2 e d a l s
  | .flg2 e d a l => Sys2Proof.Machine.execFlg2 e d a l s
  | .fsin e d a l => Sys2Proof.Machine.execFsin e d a l s
  | .fcos e d a l => Sys2Proof.Machine.execFcos e d a l s
  | .ftanh e d a l => Sys2Proof.Machine.execFtanh e d a l s
  | .frnd e d a l r => Sys2Proof.Machine.execFrnd e d a l r s
  | .fcvt e d a t sf r => Sys2Proof.Machine.execFcvt e d a t sf r s
  | .fcvtSat e d a t sf r => Sys2Proof.Machine.execFcvtSat e d a t sf r s
  | .hadd2 e d a b u t => Sys2Proof.Machine.execHadd2 e d a b u t s
  | .hmul2 e d a b u t => Sys2Proof.Machine.execHmul2 e d a b u t s
  | .hfma2 e d a b u t => Sys2Proof.Machine.execHfma2 e d a b u t s
  | .hmin2 e d a b u t => Sys2Proof.Machine.execHmin2 e d a b u t s
  | .dot4 e d a b u => Sys2Proof.Machine.execDot4 e d a b u s
  | .dot8 e d a b u => Sys2Proof.Machine.execDot8 e d a b u s
  | .dotm4 e d a b u => Sys2Proof.Machine.execDotm4 e d a b u s
  | .dotm8 e d a b u f => Sys2Proof.Machine.execDotm8 e d a b u f s
  | .sclb e d a b u k => Sys2Proof.Machine.execSclb e d a b u k s
  | .shfl e d a b u f => Sys2Proof.Machine.execShfl e d a b u f s
  | .voteBallot e d n sf => Sys2Proof.Machine.execVoteBallot e d n sf s
  | .voteAll e d n sf q => Sys2Proof.Machine.execVoteAll e d n sf q s
  | .voteAny e d n sf q => Sys2Proof.Machine.execVoteAny e d n sf q s
  | .voteEq e d n sf q => Sys2Proof.Machine.execVoteEq e d n sf q s
  | .lred e d a l o => Sys2Proof.Machine.execLred e d a l o s
  | .lscan e d a l x o => Sys2Proof.Machine.execLscan e d a l x o s
  | .matchW e d a => Sys2Proof.Machine.execMatchW e d a s
  | .match64 e d a => Sys2Proof.Machine.execMatch64 e d a s
  | .fmtv e d a => Sys2Proof.Machine.execFmtv e d a s
  | .cvg e d => Sys2Proof.Machine.execCvg e d s
  | .pand e d n a m b => Sys2Proof.Machine.execPand e d n a m b s
  | .por e d n a m b => Sys2Proof.Machine.execPor e d n a m b s
  | .pxor e d n a m b => Sys2Proof.Machine.execPxor e d n a m b s
  | .pnot e d n a => Sys2Proof.Machine.execPnot e d n a s
  | .bra e p n o => Sys2Proof.Machine.execBra e p n o s
  | .brp e p n o => Sys2Proof.Machine.execBrp e p n o s
  | .call e d imm => Sys2Proof.Machine.execCall e d imm s
  | .ret e a => Sys2Proof.Machine.execRet e a s
  | .jmp e a => Sys2Proof.Machine.execJmp e a s
  | .exit e => Sys2Proof.Machine.execExit e s
  | .nop e => Sys2Proof.Machine.execNop e s
  | .rep e c x y z sf => Sys2Proof.Machine.execRep e c x y z sf s
  | .rsr e d imm => Sys2Proof.Machine.execRsr e d imm s
  | .wbase e a imm => Sys2Proof.Machine.execWbase e a imm s
  | .ldG e d a l sf h => Sys2Proof.Machine.execLdG e d a l sf h s
  | .ldC e d a l sf h => Sys2Proof.Machine.execLdC e d a l sf h s
  | .ldS e d a l sf => Sys2Proof.Machine.execLdS e d a l sf s
  | .ldX e d a l sf => Sys2Proof.Machine.execLdX e d a l sf s
  | .ldAcq e d a l sf c => Sys2Proof.Machine.execLdAcq e d a l sf c s
  | .stG e d a sf h => Sys2Proof.Machine.execStG e d a sf h s
  | .stS e d a sf => Sys2Proof.Machine.execStS e d a sf s
  | .stRel e d a sf c => Sys2Proof.Machine.execStRel e d a sf c s
  | .stX e d a b f => Sys2Proof.Machine.execStX e d a b f s
  | .gft e d a b f => Sys2Proof.Machine.execGft e d a b f s
  | .fence e c => Sys2Proof.Machine.execFence e c s
  | .fenceRel e c => Sys2Proof.Machine.execFenceRel e c s
  | .fenceAcq e c => Sys2Proof.Machine.execFenceAcq e c s
  | .cflush e a => Sys2Proof.Machine.execCflush e a s
  | .cdemote e a => Sys2Proof.Machine.execCdemote e a s
  | .cpref e a h => Sys2Proof.Machine.execCpref e a h s
  | .bld e y m => Sys2Proof.Machine.execBld e y m s
  | .bsel e g m => Sys2Proof.Machine.execBsel e g m s
  | .mma e t y m l => Sys2Proof.Machine.execMma e t y m l s
  | .mmaz e t y m l => Sys2Proof.Machine.execMmaz e t y m l s
  | .acz e t => Sys2Proof.Machine.execAcz e t s
  | .acld e t y => Sys2Proof.Machine.execAcld e t y s
  | .acst e t y m => Sys2Proof.Machine.execAcst e t y m s
  | .acrd e d a l t => Sys2Proof.Machine.execAcrd e d a l t s
  | .acwr e d a t => Sys2Proof.Machine.execAcwr e d a t s
  | .acscl e d t => Sys2Proof.Machine.execAcscl e d t s
  | .atmAdd e d a b w sf => Sys2Proof.Machine.execAtmAdd e d a b w sf s
  | .redAdd e a b w sf => Sys2Proof.Machine.execRedAdd e a b w sf s
  | .atmImin e d a b w sf => Sys2Proof.Machine.execAtmImin e d a b w sf s
  | .redImin e a b w sf => Sys2Proof.Machine.execRedImin e a b w sf s
  | .atmNmin e d a b w sf => Sys2Proof.Machine.execAtmNmin e d a b w sf s
  | .redNmin e a b w sf => Sys2Proof.Machine.execRedNmin e a b w sf s
  | .atmImax e d a b w sf => Sys2Proof.Machine.execAtmImax e d a b w sf s
  | .redImax e a b w sf => Sys2Proof.Machine.execRedImax e a b w sf s
  | .atmNmax e d a b w sf => Sys2Proof.Machine.execAtmNmax e d a b w sf s
  | .redNmax e a b w sf => Sys2Proof.Machine.execRedNmax e a b w sf s
  | .atmAnd e d a b w sf => Sys2Proof.Machine.execAtmAnd e d a b w sf s
  | .redAnd e a b w sf => Sys2Proof.Machine.execRedAnd e a b w sf s
  | .atmOr e d a b w sf => Sys2Proof.Machine.execAtmOr e d a b w sf s
  | .redOr e a b w sf => Sys2Proof.Machine.execRedOr e a b w sf s
  | .atmXor e d a b w sf => Sys2Proof.Machine.execAtmXor e d a b w sf s
  | .redXor e a b w sf => Sys2Proof.Machine.execRedXor e a b w sf s
  | .atmXchg e d a b w sf => Sys2Proof.Machine.execAtmXchg e d a b w sf s
  | .atmCas e d a b w sf => Sys2Proof.Machine.execAtmCas e d a b w sf s
  | .atmFaddG e d a b t => Sys2Proof.Machine.execAtmFaddG e d a b t s
  | .redFaddG e a b t => Sys2Proof.Machine.execRedFaddG e a b t s
  | .atmFaddS e d a b t => Sys2Proof.Machine.execAtmFaddS e d a b t s
  | .redFaddS e a b t => Sys2Proof.Machine.execRedFaddS e a b t s
  | .xcp e a => Sys2Proof.Machine.execXcp e a s
  | .xget e a => Sys2Proof.Machine.execXget e a s
  | .xput e a => Sys2Proof.Machine.execXput e a s
  | .xputRel e a => Sys2Proof.Machine.execXputRel e a s
  | .xred e a => Sys2Proof.Machine.execXred e a s
  | .xsig e a => Sys2Proof.Machine.execXsig e a s
  | .xgth e a => Sys2Proof.Machine.execXgth e a s
  | .xrsc e a => Sys2Proof.Machine.execXrsc e a s
  | .chap e a b => Sys2Proof.Machine.execChap e a b s
  | .wcnt e c k => Sys2Proof.Machine.execWcnt e c k s
  | .syarm e a b => Sys2Proof.Machine.execSyarm e a b s
  | .syadd e a b => Sys2Proof.Machine.execSyadd e a b s
  | .sywait e a b => Sys2Proof.Machine.execSywait e a b s
  | .barWg e => Sys2Proof.Machine.execBarWg e s
  | .barGang e => Sys2Proof.Machine.execBarGang e s
  | .barX e => Sys2Proof.Machine.execBarX e s
  | .mon e a => Sys2Proof.Machine.execMon e a s
  | .mwait e a => Sys2Proof.Machine.execMwait e a s
  | .ropen e a b => Sys2Proof.Machine.execRopen e a b s
  | .rclose e => Sys2Proof.Machine.execRclose e s
  | .rdepth e d => Sys2Proof.Machine.execRdepth e d s
  | .rkeepG e a b => Sys2Proof.Machine.execRkeepG e a b s
  | .rkeepS e a b => Sys2Proof.Machine.execRkeepS e a b s
  | .trap e a => Sys2Proof.Machine.execTrap e a s
  | .eretResume e => Sys2Proof.Machine.execEretResume e s
  | .eretRetry e => Sys2Proof.Machine.execEretRetry e s
  | .eretEscalate e => Sys2Proof.Machine.execEretEscalate e s
  | .eretKill e => Sys2Proof.Machine.execEretKill e s
  | .segw e a sf => Sys2Proof.Machine.execSegw e a sf s
  | .segr e d sf => Sys2Proof.Machine.execSegr e d sf s
  | .wsr e a imm => Sys2Proof.Machine.execWsr e a imm s
  | .tlbiVa e a b => Sys2Proof.Machine.execTlbiVa e a b s
  | .tlbiCtx e b => Sys2Proof.Machine.execTlbiCtx e b s
  | .tlbiAll e => Sys2Proof.Machine.execTlbiAll e s
  | .yield e => Sys2Proof.Machine.execYield e s
  | .spawn e a => Sys2Proof.Machine.execSpawn e a s
  | .warpChoice core slot => Sys2Proof.Machine.execWarpChoice core slot s
  | .cut core slot => Sys2Proof.Machine.execCut core slot s
  | .loadValueArrival core flight => Sys2Proof.Machine.execLoadValueArrival core flight s
  | .stXApply core => Sys2Proof.Machine.execStXApply core s
  | .exchangePolaritySwap gang => Sys2Proof.Machine.execExchangePolaritySwap gang s
  | .siblingStop core slot warp => Sys2Proof.Machine.execSiblingStop core slot warp s
  | .mwaitWake core slot warp => Sys2Proof.Machine.execMwaitWake core slot warp s
  | .monitorTimeout core slot warp => Sys2Proof.Machine.execMonitorTimeout core slot warp s
  | .laneFailure core slot lane => Sys2Proof.Machine.execLaneFailure core slot lane s
  | .spareLaneSwitch core slot warp => Sys2Proof.Machine.execSpareLaneSwitch core slot warp s
  | .ringRollback core slot warp => Sys2Proof.Machine.execRingRollback core slot warp s
  | .impreciseStoreFault core => Sys2Proof.Machine.execImpreciseStoreFault core s
  | .homeTimeout die pa => Sys2Proof.Machine.execHomeTimeout die pa s
  | .l1Fill core line => Sys2Proof.Machine.execL1Fill core line s
  | .sliceWriteArrival port => Sys2Proof.Machine.execSliceWriteArrival port s
  | .writeQueueApply slice => Sys2Proof.Machine.execWriteQueueApply slice s
  | .gatherMerge line => Sys2Proof.Machine.execGatherMerge line s
  | .sharerUpdate core upd => Sys2Proof.Machine.execSharerUpdate core upd s
  | .graftFill core upd => Sys2Proof.Machine.execGraftFill core upd s
  | .writerAcknowledge upd => Sys2Proof.Machine.execWriterAcknowledge upd s
  | .evictionNotice core line => Sys2Proof.Machine.execEvictionNotice core line s
  | .sliceFill line corrected uncorrectable => Sys2Proof.Machine.execSliceFill line corrected uncorrectable s
  | .partialSectorMerge line sector ecc => Sys2Proof.Machine.execPartialSectorMerge line sector ecc s
  | .sliceVictimEviction slice set => Sys2Proof.Machine.execSliceVictimEviction slice set s
  | .refreshDue pc bank => Sys2Proof.Machine.execRefreshDue pc bank s
  | .forcedAllBankRefresh pc => Sys2Proof.Machine.execForcedAllBankRefresh pc s
  | .postponedRefreshDrain pc bank => Sys2Proof.Machine.execPostponedRefreshDrain pc bank s
  | .refreshEnd pc bank => Sys2Proof.Machine.execRefreshEnd pc bank s
  | .pinRepairDue stack pin => Sys2Proof.Machine.execPinRepairDue stack pin s
  | .pinRepairPauseEnd stack group => Sys2Proof.Machine.execPinRepairPauseEnd stack group s
  | .pageWalk die asid va => Sys2Proof.Machine.execPageWalk die asid va s
  | .syncWordArrival core => Sys2Proof.Machine.execSyncWordArrival core s
  | .copyCommandTake die engine => Sys2Proof.Machine.execCopyCommandTake die engine s
  | .engineLineWrite die engine => Sys2Proof.Machine.execEngineLineWrite die engine s
  | .commandRetire core serial => Sys2Proof.Machine.execCommandRetire core serial s
  | .xputRelRelease die engine => Sys2Proof.Machine.execXputRelRelease die engine s
  | .xgthVersionRecheck die engine => Sys2Proof.Machine.execXgthVersionRecheck die engine s
  | .xrscChunkArrival group rank chunk => Sys2Proof.Machine.execXrscChunkArrival group rank chunk s
  | .columnHeadReduction group rank => Sys2Proof.Machine.execColumnHeadReduction group rank s
  | .remoteWriteAck source => Sys2Proof.Machine.execRemoteWriteAck source s
  | .flitReceive port crcOk flit => Sys2Proof.Machine.execFlitReceive port crcOk flit s
  | .creditReturn port chan resent => Sys2Proof.Machine.execCreditReturn port chan resent s
  | .relayForward port chan => Sys2Proof.Machine.execRelayForward port chan s
  | .linkFailure port => Sys2Proof.Machine.execLinkFailure port s
  | .orderedDetourSwitch target => Sys2Proof.Machine.execOrderedDetourSwitch target s
  | .ethernetFrameReceive uplink seq ack fcsOk frame => Sys2Proof.Machine.execEthernetFrameReceive uplink seq ack fcsOk frame s
  | .ethernetFrameResend uplink peer seq => Sys2Proof.Machine.execEthernetFrameResend uplink peer seq s
  | .matrixCommandStart core => Sys2Proof.Machine.execMatrixCommandStart core s
  | .macroExchange core mac => Sys2Proof.Machine.execMacroExchange core mac s
  | .matrixCommandComplete core => Sys2Proof.Machine.execMatrixCommandComplete core s
  | .chainEntryStart slot => Sys2Proof.Machine.execChainEntryStart slot s
  | .chainEntryComplete slot => Sys2Proof.Machine.execChainEntryComplete slot s
  | .encodeFrameComplete slot => Sys2Proof.Machine.execEncodeFrameComplete slot s
  | .chainSlotArm slot w => Sys2Proof.Machine.execChainSlotArm slot w s
  | .chainSlotDisarm slot w => Sys2Proof.Machine.execChainSlotDisarm slot w s
  | .launchRecordTake source => Sys2Proof.Machine.execLaunchRecordTake source s
  | .workGroupRoute level index => Sys2Proof.Machine.execWorkGroupRoute level index s
  | .chunkPassDown level index => Sys2Proof.Machine.execChunkPassDown level index s
  | .workGroupPlacement die => Sys2Proof.Machine.execWorkGroupPlacement die s
  | .workGroupResidency core => Sys2Proof.Machine.execWorkGroupResidency core s
  | .packageSteal victim given => Sys2Proof.Machine.execPackageSteal victim given s
  | .dieSteal die => Sys2Proof.Machine.execDieSteal die s
  | .stealRequest thief count => Sys2Proof.Machine.execStealRequest thief count s
  | .warpComplete core slot warp => Sys2Proof.Machine.execWarpComplete core slot warp s
  | .prunerTrigger core => Sys2Proof.Machine.execPrunerTrigger core s
  | .prunerMoveStep core => Sys2Proof.Machine.execPrunerMoveStep core s
  | .contractRelease contract => Sys2Proof.Machine.execContractRelease contract s
  | .deadlineMiss contract => Sys2Proof.Machine.execDeadlineMiss contract s
  | .budgetOverrun contract => Sys2Proof.Machine.execBudgetOverrun contract s
  | .contractAdmission => Sys2Proof.Machine.execContractAdmission s
  | .frequencyStepRequest die code => Sys2Proof.Machine.execFrequencyStepRequest die code s
  | .frequencyStepEffect die stall => Sys2Proof.Machine.execFrequencyStepEffect die stall s
  | .clockCrossingStallEnd die => Sys2Proof.Machine.execClockCrossingStallEnd die s
  | .contextPreempt w => Sys2Proof.Machine.execContextPreempt w s
  | .drainLimitExpiry ctx => Sys2Proof.Machine.execDrainLimitExpiry ctx s
  | .warpSnapshot core slot warp => Sys2Proof.Machine.execWarpSnapshot core slot warp s
  | .workGroupSave wg => Sys2Proof.Machine.execWorkGroupSave wg s
  | .snapshotLimitExpiry ctx => Sys2Proof.Machine.execSnapshotLimitExpiry ctx s
  | .contextResume w => Sys2Proof.Machine.execContextResume w s
  | .workGroupRestore wg => Sys2Proof.Machine.execWorkGroupRestore wg s
  | .contextReset w => Sys2Proof.Machine.execContextReset w s
  | .contextRelease w => Sys2Proof.Machine.execContextRelease w s
  | .contractRemove w => Sys2Proof.Machine.execContractRemove w s
  | .mapOutCore core => Sys2Proof.Machine.execMapOutCore core s
  | .mapOutCDie die => Sys2Proof.Machine.execMapOutCDie die s
  | .mapOutStack stack => Sys2Proof.Machine.execMapOutStack stack s
  | .mapOutPseudoChannel pc => Sys2Proof.Machine.execMapOutPseudoChannel pc s
  | .pseudoChannelDropCopyEnd pc failed => Sys2Proof.Machine.execPseudoChannelDropCopyEnd pc failed s
  | .mapOutDieLink link => Sys2Proof.Machine.execMapOutDieLink link s
  | .mapOutStolilPort port => Sys2Proof.Machine.execMapOutStolilPort port s
  | .rackQueueReserve => Sys2Proof.Machine.execRackQueueReserve s
  | .rackQueuePublish index => Sys2Proof.Machine.execRackQueuePublish index s
  | .walkAnswer tag w8 w16 => Sys2Proof.Machine.execWalkAnswer tag w8 w16 s
  | .stealAnswer tag victim count => Sys2Proof.Machine.execStealAnswer tag victim count s
  | .admissionAnswer tag status places => Sys2Proof.Machine.execAdmissionAnswer tag status places s
  | .pruneAnswer tag moves => Sys2Proof.Machine.execPruneAnswer tag moves s
  | .trapAnswer tag w8 w16 => Sys2Proof.Machine.execTrapAnswer tag w8 w16 s
  | .dramRepairAnswer tag w8 => Sys2Proof.Machine.execDramRepairAnswer tag w8 s
  | .dieLinkHold link => Sys2Proof.Machine.execDieLinkHold link s
  | .holdDrainComplete link => Sys2Proof.Machine.execHoldDrainComplete link s
  | .dieLinkRelease link => Sys2Proof.Machine.execDieLinkRelease link s
  | .dieLinkTrain link narrow => Sys2Proof.Machine.execDieLinkTrain link narrow s
  | .trainingEnd link bad => Sys2Proof.Machine.execTrainingEnd link bad s
  | .laneRepair link w => Sys2Proof.Machine.execLaneRepair link w s
  | .laneRepairComplete link => Sys2Proof.Machine.execLaneRepairComplete link s
  | .linkRetrainTrigger link => Sys2Proof.Machine.execLinkRetrainTrigger link s
  | .stolilPortRetrain port ok => Sys2Proof.Machine.execStolilPortRetrain port ok s
  | .mailboxAttest => Sys2Proof.Machine.execMailboxAttest s
  | .mailboxWriteRecord => Sys2Proof.Machine.execMailboxWriteRecord s
  | .mailboxReadCertChain => Sys2Proof.Machine.execMailboxReadCertChain s
  | .mailboxCommandComplete => Sys2Proof.Machine.execMailboxCommandComplete s
  | .counterClear offset => Sys2Proof.Machine.execCounterClear offset s
  | .configRegisterWrite offset size v => Sys2Proof.Machine.execConfigRegisterWrite offset size v s
  | .powerGood slotId c0Failed stack0Failed => Sys2Proof.Machine.execPowerGood slotId c0Failed stack0Failed s
  | .stage1Reached diesFailed linksFailed => Sys2Proof.Machine.execStage1Reached diesFailed linksFailed s
  | .stage2Reached stacksFailed portsFailed portsMismatched => Sys2Proof.Machine.execStage2Reached stacksFailed portsFailed portsMismatched s
  | .heartbeatSend => Sys2Proof.Machine.execHeartbeatSend s
  | .heartbeatTimeout => Sys2Proof.Machine.execHeartbeatTimeout s
  | .epochAdvance epoch => Sys2Proof.Machine.execEpochAdvance epoch s
  | .fabricConfigWrite epoch offset size v => Sys2Proof.Machine.execFabricConfigWrite epoch offset size v s
  | .logRecordShip record => Sys2Proof.Machine.execLogRecordShip record s
  | .logRecordAck record => Sys2Proof.Machine.execLogRecordAck record s
  | .hostPostedWrite offset data => Sys2Proof.Machine.execHostPostedWrite offset data s
  | .hostRead offset size => Sys2Proof.Machine.execHostRead offset size s
  | .instructionCacheFill core asid line => Sys2Proof.Machine.execInstructionCacheFill core asid line s
  | .dieLinkFlitReceive link dir crcOk modul lane => Sys2Proof.Machine.execDieLinkFlitReceive link dir crcOk modul lane s

end Sys2Proof.Machine
end

