-- ==== Sys2Proof/Machine/Place.lean ====
section
/-! DEFINITION. A program in place: a small resident warp whose next word is given (log entry 4). It stands for the launch, placement,
residency, walk and instruction-cache fill that bring a program to its first issue (spec/07 R154 to R158, spec/09 R213). -/

namespace Sys2Proof.Machine

/-- The index in the pool package table of this package. -/
def poolIndex (s : State) : Nat := s.cfg.poolTable.findIdx (· == s.cfg.pkg) % 2 ^ s.cfg.pw

/-- The 2 MiB page at virtual address 0 of context 0, on frames whose home is this package. -/
def placedPage (s : State) : TlbEntry := ⟨0, 0, 2 ^ 21, poolIndex s * 2 ^ 21, true, true, true, true, 1, false⟩

/-- The PC of the placed word. -/
def placedPc : VAddr := 0x1000

/-- A thread that is about to issue its first word. -/
def placedLane : Lane := { Lane.absent with present := true, pc := placedPc }

/-- The segments of the placed warp. -/
def placedSegs : Segments := ⟨0, 2 ^ 21, 0, 524288, 0, 65536, 0, 64, 0, 2 ^ 21⟩

/-- A warp of one thread, with a run in progress. -/
def placedWarp (s : State) (wg : Nat) : Warp :=
  { wg := wg, index := 0, lanes := placedLane :: List.replicate 31 Lane.absent, base := 0, sizeCode := 4, sregs := List.replicate 24 PWord.zero,
    segs := placedSegs, mode := 0, lsn := 0, ctx := 0, trap := TrapRegs.zero, latch := false, inHandler := false, stop := .none,
    rings := [], logBase := 0, logLimit := 0, logFill := 0, cntCopy := 0, cntMat := 0, cntGth := 0, cntCol := 0, monitor := none, mwait := none,
    run := some ⟨false, [], [0], [], [], 0⟩, stamp := 0, snapshot := false, spared := (s.slotAt 0 0).spare, rollback := none,
    startFault := none, barrier := 0, skid := (0, 0), blocks := [] }

/-- The bough fields of the placed grid. -/
def placedEff : BoughEff := ⟨0, 512, 128, 64, 128, 0, false, false, 128, 32, 0, 0, 0, true⟩

/-- Its grid: one work-group of one thread. -/
def placedGrid : Grid :=
  { record := [0, 0x1000, 0x1000100000001] ++ List.replicate 13 0, ctx := 0, eff := placedEff, chain := [placedEff], job := none, failed := false,
    addr := 0, launch := none, dropped := false, seen := 1, hashes := [], owner := none }

/-- Its work-group. -/
def placedGroup (grid : Nat) : WorkGroup :=
  { grid := grid, id := 0, core := 0, gang := none, warps := [(0, 0)], barCount := 0, barPhase := false, halt := none, contained := none,
    pos := 0, spill := 0, macroImage := [], scr := (0, 128), tiles := (0, 64), exch := (0, 16), ranges := [(0, 0, 0, 4)], dead := false,
    resident := true, hash := 0 }

/-- Store a word at the placed PC, with the warp, the translation and the instruction-cache line that its fetch uses, and name its slot
as the next turn. -/
def State.placeWord (s : State) (v : Word) : State :=
  let wg := freshGroup s
  let grid := s.work.grids.fresh
  let e := placedPage s
  let pa := e.at placedPc.toNat
  let bytes := leBytes 4 v.toNat
  let warp := placedWarp s wg
  let s := s.sliceWrite pa bytes false
  let (age, s) := s.take
  let line : ILine := ⟨lineOf pa, bytes ++ List.replicate 124 0, 0, age⟩
  let mem := { s.mem with
    l1tlb := s.mem.l1tlb.insert 0 (tlbInsert 128 e (s.mem.l1tlb.getD 0 []))
    icache := s.mem.icache.insert (icacheKey 0 0 (placedPc.toNat / 128)) line }
  let work := { s.work with groups := s.work.groups.insert wg (placedGroup grid), grids := s.work.grids.insert grid placedGrid }
  let thr := { s.thr with warps := s.thr.warps.insert 0 warp }
  let s := { s with mem := mem, work := work, thr := thr, agenda := .slot 0 0 :: s.agenda, chosen := none }
  s.onSlot 0 0 fun x => { x with running := some 0, runs := x.runs + 1 }

end Sys2Proof.Machine
end

