-- ==== Sys2Proof/Safety.lean ====
section
/-! DEFINITION. What counts as a safe run, and the terms in which statements speak of one issue of an instruction word. -/

namespace Sys2Proof.Machine

/-- The memories of the package are in canonical form. -/
def State.canonical (s : State) : Bool :=
  s.mem.scratch.wf && s.mem.exch.wf && s.mem.acc.wf && s.mem.hbm.wf

/-- n steps answer a next state. -/
def State.safeFor : Nat → State → Prop
  | 0, _ => True
  | n + 1, s => ∃ s', step s = .next s' ∧ s'.safeFor n

/-! One issue. -/

/-- Group g, of the warp w, has been chosen to issue i, and the checks of ranks 2 to 4 pass: i is legal (R273), the mode allows it (R274)
and no register operand leaves the range (R43; `trap` makes no such check, R373). The warp is not in protected mode. -/
structure Issues (i : Instr) (g : Group) (w : Warp) (s : State) : Prop where
  chosen : s.chosen = some g
  warp : s.warpAt g.key = some w
  lanes : g.lanes.Nodup
  present : ∀ l ∈ g.lanes, l < 32 ∧ (w.lane l).present = true
  unprotected : w.protected' = false
  legal : i.wellFormed = true
  mode : privileged i = true → w.system = true
  window : i.opcode ≠ 0x59 → ∀ l ∈ g.lanes, windowFail w l i.operands = none

/-- The state in which an instruction reads its operands: the entries that fall due at this issue have committed, and the PCs of the
group's lanes stand past the word (R51, R289). -/
def State.issuing (s : State) (g : Group) : State := s.unchoose.begun g

/-- What the end of an issue may change in its warp: the run and its record, and each lane's wait count, last issue and the loads that its
later loads follow (R20, R22, R24, R132). -/
structure EndedWarp (v u : Warp) : Prop where
  rest : u = { v with lanes := u.lanes, run := u.run, stamp := u.stamp, skid := u.skid }
  count : u.lanes.length = v.lanes.length
  lane : ∀ l, u.lane l =
    { v.lane l with waitCount := (u.lane l).waitCount, loadAfter := (u.lane l).loadAfter, lastIssue := (u.lane l).lastIssue }

/-- t is the effect e of an issue of g, with the end of the issue: nothing else of the machine has changed. -/
structure Ended (g : Group) (e t : State) : Prop where
  outside : t = { e with thr := { e.thr with warps := t.thr.warps, slots := t.thr.slots }, fresh := e.fresh + 1 }
  others : ∀ k, k ≠ g.key → t.warpAt k = e.warpAt k
  slots : ∀ c n, t.slotAt c n = { e.slotAt c n with running := (t.slotAt c n).running }
  warp : ∀ v, e.warpAt g.key = some v → ∃ u, t.warpAt g.key = some u ∧ EndedWarp v u

/-- An issue of i by g completes from s with the effect e. -/
def Completes (i : Instr) (g : Group) (s e : State) : Prop := ∃ t, exec i s = .next t ∧ Ended g e t

/-- The lookahead that an instruction acts with: 0 in a trap handler (R251). -/
def Warp.delay (v : Warp) (la : Nat) : Nat := if v.inHandler then 0 else la

/-- Lane l of a group writes its result: every lane for a thread register, the lowest for a scalar register (R45). -/
def writesField (g : Group) (d l : Nat) : Bool := g.lanes.contains l && (!isScalarDest d || g.lanes.head? == some l)

/-- e is b with n words `val l` written to register field d of the lanes of g, and the flags `fl l` raised, with lookahead la: at once, or
as a commit entry of countdown la + 1 (R44, R45, R51, R70, R289). The word vz discards. Nothing else differs. -/
structure Wrote (g : Group) (v : Warp) (b e : State) (d n la : Nat) (val : Nat → List PWord) (fl : Nat → BitVec 5) : Prop where
  /-- A thread register takes its lane's word. -/
  thread : d < 96 → v.delay la = 0 → ∀ l ∈ g.lanes, ∀ k < n,
    e.vreg g.core g.slot v l (32 * (v.lane l).window + d + k) = (val l).getD k PWord.zero
  /-- Every other thread register stays. -/
  registers : ∀ key, (d < 96 → v.delay la = 0 → ∀ l ∈ g.lanes, ∀ k < n,
    key ≠ physReg g.core g.slot v l (32 * (v.lane l).window + d + k)) → e.reg key = b.reg key
  /-- The warp: the scalar registers and its lanes may differ, nothing else. -/
  warp : ∃ u, e.warpAt g.key = some u ∧ u = { v with lanes := u.lanes, sregs := u.sregs } ∧ u.lanes.length = v.lanes.length ∧
    (∀ k, u.sregs.getD k PWord.zero =
      if isScalarDest d ∧ v.delay la = 0 ∧ d - 96 ≤ k ∧ k < d - 96 + n ∧ k < v.sregs.length then
        match g.lanes.head? with
        | some l => (val l).getD (k - (d - 96)) PWord.zero
        | none => v.sregs.getD k PWord.zero
      else v.sregs.getD k PWord.zero) ∧
    (∀ l, u.lane l = { v.lane l with
      flags := (v.lane l).flags ||| (if l ∈ g.lanes ∧ (v.delay la = 0 ∨ writesField g d l = false) then fl l else 0)
      commits := (v.lane l).commits ++ (if v.delay la ≠ 0 ∧ writesField g d l = true then
        [⟨destOf v l d n, la + 1, some (val l), fl l, none, none⟩] else []) })
  others : ∀ k, k ≠ g.key → e.warpAt k = b.warpAt k
  outside : e = { b with thr := { b.thr with regs := e.thr.regs, warps := e.thr.warps } }

/-- e is b with each lane of g changed by F. Nothing else differs. -/
structure LanesChanged (g : Group) (v : Warp) (b e : State) (F : Nat → Lane → Lane) : Prop where
  warp : ∃ u, e.warpAt g.key = some u ∧ u = { v with lanes := u.lanes } ∧ u.lanes.length = v.lanes.length ∧
    ∀ l, u.lane l = if l ∈ g.lanes then F l (v.lane l) else v.lane l
  others : ∀ k, k ≠ g.key → e.warpAt k = b.warpAt k
  outside : e = { b with thr := { b.thr with warps := e.thr.warps } }

/-- A condition on the state in which an instruction reads its operands, the group and its warp. -/
abbrev Cond := State → Group → Warp → Prop

/-- No condition. -/
def always : Cond := fun _ _ _ => True

/-- Whenever i issues and its condition holds, it completes with the effect E. -/
def Does (i : Instr) (ok : Cond) (E : State → Group → Warp → State) : Prop :=
  ∀ g w s v, Issues i g w s → (s.issuing g).warpAt g.key = some v → ok (s.issuing g) g v → Completes i g s (E (s.issuing g) g v)

/-- Whenever i issues and its condition holds, it completes with an effect that is so related to the state it reads. -/
def Achieves (i : Instr) (ok : Cond) (P : State → Group → Warp → State → Prop) : Prop :=
  ∀ g w s v, Issues i g w s → (s.issuing g).warpAt g.key = some v → ok (s.issuing g) g v →
    ∃ e, Completes i g s e ∧ P (s.issuing g) g v e

/-- What a lane computes: its result words and the IEEE flags it raises. -/
abbrev LaneFn := State → Group → Warp → Nat → List PWord × BitVec 5

/-! Lane functions by the operands they read: a result is poisoned when an operand is (R48, R289). -/

/-- A word of one register. -/
def fromOne (a : BitVec 7) (f : Word → Word) : LaneFn := fun b g v l =>
  let x := readField b g v l a.toNat
  ([⟨f x.val, x.poison⟩], 0)

/-- A word of two registers. -/
def fromTwo (a b : BitVec 7) (f : Word → Word → Word) : LaneFn := fun s g v l =>
  let x := readField s g v l a.toNat
  let y := readField s g v l b.toNat
  ([⟨f x.val y.val, x.poison || y.poison⟩], 0)

/-- A word of three registers. -/
def fromThree (a b d : BitVec 7) (f : Word → Word → Word → Word) : LaneFn := fun s g v l =>
  let x := readField s g v l a.toNat
  let y := readField s g v l b.toNat
  let z := readField s g v l d.toNat
  ([⟨f x.val y.val z.val, x.poison || y.poison || z.poison⟩], 0)

/-- A pair of two pairs. -/
def fromPairs (a b : BitVec 7) (f : DWord → DWord → DWord) : LaneFn := fun s g v l =>
  let x := readPair s g v l a.toNat
  let y := readPair s g v l b.toNat
  (pairWords (f x.val y.val) (x.poison || y.poison), 0)

/-- A pair of a pair and a register. -/
def fromPairWord (a b : BitVec 7) (f : DWord → Word → DWord) : LaneFn := fun s g v l =>
  let x := readPair s g v l a.toNat
  let y := readField s g v l b.toNat
  (pairWords (f x.val y.val) (x.poison || y.poison), 0)

/-- A word and flags of one register. -/
def floatOne (a : BitVec 7) (f : Word → Word × FpFlags) : LaneFn := fun s g v l =>
  let x := readField s g v l a.toNat
  ([⟨(f x.val).1, x.poison⟩], (f x.val).2.toBits)

/-- A word and flags of two registers. -/
def floatTwo (a b : BitVec 7) (f : Word → Word → Word × FpFlags) : LaneFn := fun s g v l =>
  let x := readField s g v l a.toNat
  let y := readField s g v l b.toNat
  ([⟨(f x.val y.val).1, x.poison || y.poison⟩], (f x.val y.val).2.toBits)

/-- A word and flags of three registers. -/
def floatThree (a b d : BitVec 7) (f : Word → Word → Word → Word × FpFlags) : LaneFn := fun s g v l =>
  let x := readField s g v l a.toNat
  let y := readField s g v l b.toNat
  let z := readField s g v l d.toNat
  ([⟨(f x.val y.val z.val).1, x.poison || y.poison || z.poison⟩], (f x.val y.val z.val).2.toBits)

/-- The result does not depend on anything: a word. -/
def constant (x : Word) : LaneFn := fun _ _ _ _ => ([clean x], 0)

/-- i writes n words to field d with lookahead la, whenever it issues and its condition holds: each lane's words and flags are `f` of what
its operands read. -/
def LaneResults (i : Instr) (ok : Cond) (d : BitVec 7) (n la : Nat) (f : LaneFn) : Prop :=
  Achieves i ok fun b g v e => Wrote g v b e d.toNat n la (fun l => (f b g v l).1) (fun l => (f b g v l).2)

/-- i changes each lane of its group by F, and nothing else. -/
def LaneEffects (i : Instr) (ok : Cond) (F : State → Group → Warp → Nat → Lane → Lane) : Prop :=
  Achieves i ok fun b g v e => LanesChanged g v b e (F b g v)

/-- i writes predicate p of each lane: value, poison, flags (R47, R298). -/
def PredicateResults (i : Instr) (p : BitVec 3) (f : State → Group → Warp → Nat → Bool × Bool × BitVec 5) : Prop :=
  LaneEffects i always fun b g v l x =>
    let y := x.setPred p.toNat (f b g v l).1 (f b g v l).2.1
    { y with flags := y.flags ||| (f b g v l).2.2 }

/-- Whenever i issues and the condition holds, it takes the trap t on the state before the issue (R247). -/
def Traps (i : Instr) (bad : Cond) (t : State → Group → Warp → TrapInfo) : Prop :=
  ∀ g w s v, Issues i g w s → (s.issuing g).warpAt g.key = some v → bad (s.issuing g) g v →
    exec i s = .next (trapEntry (s.unchoose.dropWalkFaults g.core w.ctx.toNat) g.key (t (s.issuing g) g v) g.pc g.rep)

/-- Whenever i issues and the condition holds, the lanes wait: the machine returns to the state before the choice (R21). -/
def Waits (i : Instr) (bad : Cond) : Prop :=
  ∀ g w s v, Issues i g w s → (s.issuing g).warpAt g.key = some v → bad (s.issuing g) g v → exec i s = .next s.unchoose

/-! Cross-lane instructions (R27 to R30, R313). -/

/-- The field of the member mask of a cross-lane instruction. -/
def maskField : Instr → Option (BitVec 7)
  | .shfl _ d _ _ _ _ => some d
  | .voteBallot _ d _ _ => some d
  | .voteAll _ d _ _ _ => some d
  | .voteAny _ d _ _ _ => some d
  | .voteEq _ d _ _ _ => some d
  | .lred _ d _ _ _ => some d
  | .lscan _ d _ _ _ _ => some d
  | .matchW _ d _ => some d
  | .match64 _ d _ => some d
  | .fmtv _ d _ => some d
  | .cvg _ d => some d
  | _ => none

/-- The lanes of the group arrive at a cross-lane instruction with mask m, and are all that it names but the absent and the exited (R27,
R29). -/
def gathers (d : BitVec 7) (m : Word) : Cond := fun b g v =>
  g.lanes ≠ [] ∧ g.lanes.Pairwise (· < ·) ∧
  (∀ l < 32, l ∈ g.lanes ↔ m.getLsbD l = true ∧ (v.lane l).present = true ∧ (v.lane l).exited = false) ∧
  (∀ l < 32, m.getLsbD l = true → (v.lane l).park = none) ∧
  ∀ l ∈ g.lanes, (v.lane l).held = false ∧ (v.lane l).pc = g.pc + 4 ∧ (readField b g v l d.toNat).val = m

/-- A mask that a lane of the group reads is poisoned (R313). -/
def maskPoison (d : BitVec 7) (b : State) (g : Group) (v : Warp) : Bool := g.lanes.any fun l => (readField b g v l d.toNat).poison

/-- Every lane that arrives names a lane that has neither arrived nor is absent or exited (R27). -/
def stillWaits (d : BitVec 7) : Cond := fun b g v =>
  (∀ l ∈ g.lanes, (v.lane l).park = none) ∧
  ∀ l ∈ g.lanes, ∃ x < 32, (readField b g v l d.toNat).val.getLsbD x = true ∧ x ∉ g.lanes ∧ (v.lane x).present = true ∧
    (v.lane x).exited = false ∧ (v.lane x).park = none

/-- The lanes of the group are parked with one mask, which names each of them: a set that executes as an issue of its own (R28). -/
def parkedSet : Cond := fun _ g v =>
  g.lanes ≠ [] ∧ ∃ m, ∀ l ∈ g.lanes, m.getLsbD l = true ∧ ∃ p, (v.lane l).park = some p ∧ p.mask = m

/-- A mask with which a lane of the group is parked was poisoned (R313). -/
def parkPoison (_ : State) (g : Group) (v : Warp) : Bool := g.lanes.any fun l => (v.lane l).park.any fun p => p.poison

/-! Voted operands (R350): every lane of the group names the same clean value. -/

/-- A register on which the lanes agree. -/
def agree (a : BitVec 7) (x : Word) : Cond := fun b g v => g.lanes ≠ [] ∧ ∀ l ∈ g.lanes, readField b g v l a.toNat = ⟨x, false⟩

/-- A pair on which the lanes agree. -/
def agreePair (a : BitVec 7) (x : DWord) : Cond := fun b g v => g.lanes ≠ [] ∧ ∀ l ∈ g.lanes, readPair b g v l a.toNat = ⟨x, false⟩

/-! Memory instructions. -/

/-- The k-th of n registers that a lane stores, or reads as an operand, is clean. -/
def cleanData (d : BitVec 7) (n : Nat) : Cond := fun b g v =>
  ∀ l ∈ g.lanes, ∀ k < n, (readField b g v l (regUp d.toNat k)).poison = false

/-- Byte i of the data that a lane's registers give, little-endian (R8, R330). -/
def dataByte (b : State) (g : Group) (v : Warp) (d : BitVec 7) (l i : Nat) : Byte :=
  BitVec.ofNat 8 ((readField b g v l (regUp d.toNat (i / 4))).val.toNat / 2 ^ (8 * (i % 4)))

/-- Every lane's offset into a core memory is clean, aligned and within the limit (R324, R325). -/
def inLocal (a : BitVec 7) (n : Nat) (lim : Warp → Nat) : Cond := fun b g v => ∀ l ∈ g.lanes,
  let o := readField b g v l a.toNat
  o.poison = false ∧ o.val.toNat % n = 0 ∧ o.val.toNat + n ≤ lim v

/-- Nothing that a lane's scratch and exchange accesses must follow is outstanding: what fences and acquires name, and its exchange stores
(R134, R135, R138). -/
def clearWay (b : State) (g : Group) (v : Warp) (l : Nat) : Prop :=
  b.stillPending ((v.lane l).accessAfter ++ (v.lane l).acquireAfter) = [] ∧
  ∀ x ∈ b.mem.exchStores, ¬ (x.warp = g.key ∧ x.lane = l)

/-- Loads may pass: the way is clear, and with the compatibility bit nothing that a branch depends on is outstanding (R132). -/
def inOrder : Cond := fun b g v => ∀ l ∈ g.lanes, clearWay b g v l ∧ b.stillPending (v.lane l).loadAfter = []

/-- Stores may pass: the way is clear, and the lane's releases and its earlier loads are done (R131, R135). -/
def inStoreOrder : Cond := fun b g v => ∀ l ∈ g.lanes,
  clearWay b g v l ∧ b.stillPending (v.lane l).storeAfter = [] ∧ ∀ x ∈ b.threadOps (g.agent l), x.2.isLoad = false

/-- Every earlier access of the lanes is performed at package scope, and so is all that fences, acquires, releases and barriers put before
their later accesses (R134, R135, R140, R366). -/
def allPerformed : Cond := fun b g v => ∀ l ∈ g.lanes, fenceSet b (v.lane l) (g.agent l) 2 true = [] ∧
  b.stillPending ((v.lane l).accessAfter ++ (v.lane l).acquireAfter ++ (v.lane l).storeAfter) = []

/-- Scratchpad or exchange bytes after stores by the lanes of a group: lane l stores `data l` at `addr l`; of lanes that store one byte the
last remains (R82). A word of which the pass stores every byte is clean after it, others keep their poison (R81, R85). -/
def Stored (g : Group) (m m' : Mem) (n : Nat) (addr : Nat → Nat) (data : Nat → Nat → Byte) : Prop :=
  (∀ x, m'.read x = match (g.lanes.filter fun l => addr l ≤ x && x < addr l + n).getLast? with
    | some l => data l (x - addr l)
    | none => m.read x) ∧
  ∀ k, m'.poisoned k = (m.poisoned k && !(List.range 4).all fun i => g.lanes.any fun l => addr l ≤ 4 * k + i && 4 * k + i < addr l + n)

/-- Every lane's offset into a segment of the pool is clean, aligned and within the limit, and a cached translation E l allows the access
(R324, R325). -/
def reaches (a : BitVec 7) (n access : Nat) (constant aligned : Bool) (E : Nat → TlbEntry) : Cond := fun b g v => ∀ l ∈ g.lanes,
  let o := readPair b g v l a.toNat
  let va := segmentAddr b g v a constant l
  o.poison = false ∧ (aligned = true → va % n = 0) ∧ o.val.toNat + n ≤ (segmentOf v constant).2.1 ∧
    translateFor b g.core v.ctx.toNat 10 va access v.system = (none, some (E l))

/-- The physical address that a lane reaches. -/
def placeOf (b : State) (g : Group) (v : Warp) (a : BitVec 7) (constant : Bool) (E : Nat → TlbEntry) (l : Nat) : Nat :=
  b.locate (E l) (segmentAddr b g v a constant l)

/-- e is b with one operation in flight for each lane of the group, numbered from b.fresh on, that `ops` describes; `F` is what a lane of
the warp keeps of it. The stacks, L2, core memories, registers and all else stay; of L1 and monitors only those of the core, as a store
reaches them. -/
structure InFlight (g : Group) (v : Warp) (b e : State) (ops : Nat → MemOp → Prop) (F : Nat → Nat → Lane → Lane) : Prop where
  content : ∀ k l, g.lanes[k]? = some l → ∃ o, e.mem.ops.find (b.fresh + k) = some o ∧ ops l o
  older : ∀ id < b.fresh, e.mem.ops.find id = b.mem.ops.find id
  warp : ∃ u, e.warpAt g.key = some u ∧ { u with monitor := none } = { v with lanes := u.lanes, monitor := none } ∧
    u.lanes.length = v.lanes.length ∧ ∀ l, u.lane l = match g.lanes.idxOf? l with
      | some k => F (b.fresh + k) l (v.lane l)
      | none => v.lane l
  others : ∀ k, k ≠ g.key → (e.warpAt k).map (fun w => { w with monitor := none }) = (b.warpAt k).map (fun w => { w with monitor := none })
  outside : e = { b with
    mem := { b.mem with ops := e.mem.ops, l1 := e.mem.l1, l1tlb := e.mem.l1tlb }
    thr := { b.thr with warps := e.thr.warps }
    fresh := b.fresh + g.lanes.length }

/-! Commands and convergent instructions. -/

/-- The layout that a matrix instruction names is clean, legal and within the scratch limit, for elements of w bits and depth k (R86,
R87). -/
def layoutFits (y : BitVec 7) (w k : Nat) (scl : Bool) : Cond := fun b g v =>
  (∀ x ∈ readLayout b g v y, x.poison = false) ∧
  let z := theLayout b g v y
  z.pmode ≤ 5 ∧ z.base % 16 = 0 ∧ z.st0 % 16 = 0 ∧ z.st1 % 16 = 0 ∧ z.within w k scl v.segs.slim.toNat = true

/-- A matrix command has room, and the tile that it names lies within the limit and is not awaited (R98, R183, R234, R340). -/
def postable (tile : Option (BitVec 6)) : Cond := fun b g v => matrixFull b g v = false ∧ ∀ t ∈ tile,
  t.toNat < v.segs.alim.toNat ∧ ∀ l ∈ g.lanes, ∀ c ∈ (v.lane l).commits,
    c.dest = .tile (v.segs.abase.toNat + t.toNat) → c.value.isSome = true

/-- e is b with one more matrix command of the group, which `waits` lanes await; the matrix counter rises and the class bit of the innermost
ring level is set (R218, R234, R339). F is what a lane of the group becomes. -/
structure MatrixPosted (g : Group) (v : Warp) (b e : State) (op : MatOp) (waits : List Nat) (F : Nat → Lane → Lane) : Prop where
  queue : e.mem.matrix = b.mem.matrix ++ [⟨b.fresh, g.core, g.key, v.wg, op, v.segs.sbase.toNat, waits, postAfter b g v 0,
    takesReserved b g v, false⟩]
  warp : ∃ u, e.warpAt g.key = some u ∧ u = { v with lanes := u.lanes, cntMat := v.cntMat + 1, rings := u.rings } ∧
    u.lanes.length = v.lanes.length ∧ (∀ l, u.lane l = if l ∈ g.lanes then F l (v.lane l) else v.lane l) ∧
    u.rings.dropLast = v.rings.dropLast ∧ u.rings.getLast? = v.rings.getLast?.map fun r => { r with classes := r.classes ||| 2#4 }
  others : ∀ k, k ≠ g.key → e.warpAt k = b.warpAt k
  outside : e = { b with
    mem := { b.mem with matrix := e.mem.matrix }
    thr := { b.thr with warps := e.thr.warps }
    fresh := b.fresh + 1 }

/-- The scratchpad after an atomic of one lane: a poisoned operand in memory takes no update (R335). -/
def atomStep (op : AtomOp) (n : Nat) (addr operand expected : Nat → Nat) (m : Mem) (l : Nat) : Mem :=
  let old := m.readPoison 4 (addr l) n
  if old.2 then m else m.writeClean 4 (addr l) (leBytes n (atomValue op n (leNat old.1) (operand l) (expected l)))

/-- The scratchpad after the atomics of some lanes, in their order. -/
def atomFold (op : AtomOp) (n : Nat) (addr operand expected : Nat → Nat) (m : Mem) (ls : List Nat) : Mem :=
  ls.foldl (atomStep op n addr operand expected) m

/-- The lanes of a group that come before one of them. -/
def lanesBefore (g : Group) (l : Nat) : List Nat := g.lanes.takeWhile (· != l)

/-- Every lane that a convergent instruction concerns arrives in this group, no entry that its release would commit is still awaited, and the
warp stands at no barrier (R51, R352). -/
def allArrive : Cond := fun _ g v =>
  g.lanes = convLanes v ∧ g.lanes ≠ [] ∧ v.barrier = 0 ∧ ∀ l ∈ g.lanes, (v.lane l).park = none ∧ commitBlocked v l = false

/-- The lanes of the group stand parked at a convergent instruction: a set that executes as an issue of its own (R352). -/
def allParked : Cond := fun _ g v => g.lanes ≠ [] ∧ ∃ p, (v.lane (g.lanes.headD 0)).park = some p

/-- The group's lanes parked at the instruction, with their PCs past it, and the entries committed that fall due as they are released (R51). -/
def standing (i : Instr) (b : State) (g : Group) : State :=
  (commitDue b g).onLanes g.key g.lanes fun x => { x with rep := 0, park := some ⟨i, 0, false⟩ }

/-- What a convergent instruction does once its set is complete, by the issue that completes it or by one of its own (R352). -/
def Converges (i : Instr) (ok : Cond) (E : State → Group → Warp → State) : Prop :=
  Achieves i (fun b g v => allArrive b g v ∧ ∀ u, (standing i b g).warpAt g.key = some u → ok (standing i b g) g u)
    (fun b g _ e => ∃ u, (standing i b g).warpAt g.key = some u ∧ e = E (standing i b g) g u) ∧
  Does i (fun b g v => allParked b g v ∧ ok b g v) E

/-- A lane that arrives at a convergent instruction parks there while another that it concerns has not arrived, or waits for an entry that the
release would commit (R51, R352). -/
def ParksUntilAll (i : Instr) : Prop :=
  LaneEffects i (fun _ g v => (∀ l ∈ g.lanes, (v.lane l).park = none) ∧
      ∃ x ∈ convLanes v, (x ∉ g.lanes ∧ ∀ p, (v.lane x).park = some p → convKind p.instr ≠ convKind i) ∨ commitBlocked v x = true)
    fun _ g _ _ x => { x with pc := x.pc - 4, rep := g.rep, park := some ⟨i, 0, false⟩ }

/-! Events of the machine: their condition, what they do, and the state that they leave as it is while the condition does not hold. -/

/-- Whenever its condition holds, the event takes place, with a result so related to the state. -/
def Happens (i : Instr) (ok : State → Prop) (P : State → State → Prop) : Prop := ∀ s, ok s → ∃ t, exec i s = .next t ∧ P s t

/-- Whenever the condition holds, the event changes nothing. -/
def Idle (i : Instr) (ok : State → Prop) : Prop := ∀ s, ok s → exec i s = .next s

/-- The home bytes of the pool are the same in both states, and so is their poison. -/
def SameHome (s t : State) : Prop := ∀ a, t.homeByte a = s.homeByte a ∧ t.homePoison a = s.homePoison a

/-! Numbers. -/

/-- The offset, effective width and value of the bit field of R296, of a number of n bits. -/
def fieldOf (n : Nat) (x : Nat) (b : Word) : Nat × Nat × Nat :=
  let o := b.toNat % 256
  let we := min (b.toNat / 256 % 256) (n - o)
  (o, we, x / 2 ^ o % 2 ^ we)

/-- The six integer conditions of R298. -/
def holdsInt (c : Nat) (x y : Int) : Prop :=
  match c with
  | 0 => x = y
  | 1 => x ≠ y
  | 2 => x < y
  | 3 => x ≤ y
  | 4 => y < x
  | _ => y ≤ x

/-- The number that a finite floating-point value stands for (R60); infinities as ±2^128, which no f32 reaches, and NaNs as 0. -/
def valueOf : FpVal → ℚ
  | .num neg m e => (if neg then -1 else 1) * (m : ℚ) * 2 ^ e
  | .inf neg => if neg then -2 ^ 128 else 2 ^ 128
  | .nan _ => 0

/-- A finite value. -/
def isFinite : FpVal → Prop
  | .num _ _ _ => True
  | _ => False

/-- The six ordered conditions of R303 on numbers. -/
def holdsReal (c : Nat) (x y : ℚ) : Prop :=
  match c with
  | 0 => x = y
  | 1 => x ≠ y
  | 2 => x < y
  | 3 => x ≤ y
  | 4 => y < x
  | _ => y ≤ x

/-- A word is an f32 NaN (R61). -/
def isNaNWord (x : Word) : Bool := x.toNat / 2 ^ 23 % 256 == 255 && x.toNat % 2 ^ 23 != 0

/-- A word is a signalling f32 NaN: the top fraction bit is 0 (R61). -/
def isSignalling (x : Word) : Bool := isNaNWord x && !x.getLsbD 22

end Sys2Proof.Machine
end

