-- ==== Sys2Proof/Certificates/Slice0/Obligations.lean ====
section
/-! DEFINITION. The statements about the model, for the provers. -/

open Sys2Proof Sys2Proof.Machine

/-! Register instructions (spec/13). Each statement holds for every destination form: a thread register, a scalar register (the lowest lane's
result), vz (nothing is written), and for every lookahead; `Wrote` says what each form does and that nothing else changes. -/

/-- R292, R293: the 32-bit additions, products, minima and maxima are those of the operands as n32 or i32. R293, R294: bitwise logic, and
shifts by the whole of the count: 0 or the sign fill from 32 on, a rotation by the count mod 32. -/
def Obligations.IntegerWords : Prop :=
  (∀ e u d a b i,
    LaneResults (.add e d a b u) always d 1 0 (fromTwo a b fun x y => BitVec.ofNat 32 (x.toNat + y.toNat)) ∧
    LaneResults (.sub e d a b u) always d 1 0 (fromTwo a b fun x y => BitVec.ofInt 32 ((x.toNat : Int) - y.toNat)) ∧
    LaneResults (.addc e d a b u) always d 1 0 (fromTwo a b fun x y => BitVec.ofNat 32 ((x.toNat + y.toNat) / 2 ^ 32)) ∧
    LaneResults (.subb e d a b u) always d 1 0 (fromTwo a b fun x y => if x.toNat < y.toNat then 1 else 0) ∧
    LaneResults (.addi e d a i) always d 1 0 (fromOne a fun x => BitVec.ofInt 32 (x.toInt + i.toInt)) ∧
    LaneResults (.mul e d a b u) always d 1 0 (fromTwo a b fun x y => BitVec.ofNat 32 (x.toNat * y.toNat)) ∧
    LaneResults (.mulhI32 e d a b u) always d 1 0 (fromTwo a b fun x y => BitVec.ofInt 32 (x.toInt * y.toInt / 2 ^ 32)) ∧
    LaneResults (.mulhN32 e d a b u) always d 1 0 (fromTwo a b fun x y => BitVec.ofNat 32 (x.toNat * y.toNat / 2 ^ 32)) ∧
    LaneResults (.mad e d a b u) always d 1 0 (fromThree a b d fun x y z => BitVec.ofNat 32 (x.toNat * y.toNat + z.toNat)) ∧
    LaneResults (.minI32 e d a b u) always d 1 0 (fromTwo a b fun x y => BitVec.ofInt 32 (min x.toInt y.toInt)) ∧
    LaneResults (.minN32 e d a b u) always d 1 0 (fromTwo a b fun x y => BitVec.ofNat 32 (min x.toNat y.toNat)) ∧
    LaneResults (.maxI32 e d a b u) always d 1 0 (fromTwo a b fun x y => BitVec.ofInt 32 (max x.toInt y.toInt)) ∧
    LaneResults (.maxN32 e d a b u) always d 1 0 (fromTwo a b fun x y => BitVec.ofNat 32 (max x.toNat y.toNat))) ∧
  (∀ e u d a b (c : BitVec 5),
    LaneResults (.and e d a b u) always d 1 0 (fromTwo a b fun x y => x &&& y) ∧
    LaneResults (.or e d a b u) always d 1 0 (fromTwo a b fun x y => x ||| y) ∧
    LaneResults (.xor e d a b u) always d 1 0 (fromTwo a b fun x y => x ^^^ y) ∧
    LaneResults (.shlReg e d a b u) always d 1 0 (fromTwo a b fun x y => BitVec.ofNat 32 (x.toNat * 2 ^ y.toNat)) ∧
    LaneResults (.shrReg e d a b u) always d 1 0 (fromTwo a b fun x y => BitVec.ofNat 32 (x.toNat / 2 ^ y.toNat)) ∧
    LaneResults (.sarReg e d a b u) always d 1 0 (fromTwo a b fun x y => BitVec.ofInt 32 (x.toInt / 2 ^ y.toNat)) ∧
    LaneResults (.rolReg e d a b u) always d 1 0 (fromTwo a b fun x y =>
      BitVec.ofNat 32 (x.toNat * 2 ^ (y.toNat % 32) + x.toNat * 2 ^ (y.toNat % 32) / 2 ^ 32)) ∧
    LaneResults (.shlImm e d a c) always d 1 0 (fromOne a fun x => BitVec.ofNat 32 (x.toNat * 2 ^ c.toNat)) ∧
    LaneResults (.shrImm e d a c) always d 1 0 (fromOne a fun x => BitVec.ofNat 32 (x.toNat / 2 ^ c.toNat)) ∧
    LaneResults (.sarImm e d a c) always d 1 0 (fromOne a fun x => BitVec.ofInt 32 (x.toInt / 2 ^ c.toNat)) ∧
    LaneResults (.rolImm e d a c) always d 1 0 (fromOne a fun x =>
      BitVec.ofNat 32 (x.toNat * 2 ^ c.toNat + x.toNat * 2 ^ c.toNat / 2 ^ 32)))

/-- R295, R312: the unary integer instructions and the packing of bytes and nibbles, with their lookahead: element k of n bits. R296: a bit
field is extracted with zero or sign extension, or inserted; a field past the top bit is cut there, an empty one gives 0 or leaves d. -/
def Obligations.BitFieldsAndPacking : Prop :=
  (∀ e d a (la : BitVec 4) (k : BitVec 2) (j : BitVec 3),
    let pack (n k : Nat) : LaneFn := fun b g v l =>
      let x := readField b g v l a.toNat
      let z := readField b g v l d.toNat
      ([⟨BitVec.ofNat 32 (z.val.toNat - z.val.toNat / 2 ^ (n * k) % 2 ^ n * 2 ^ (n * k) + x.val.toNat % 2 ^ n * 2 ^ (n * k)),
        x.poison || z.poison⟩], 0)
    LaneResults (.abs e d a la) always d 1 la.toNat (fromOne a fun x => BitVec.ofNat 32 x.toInt.natAbs) ∧
    LaneResults (.neg e d a la) always d 1 la.toNat (fromOne a fun x => BitVec.ofInt 32 (-x.toInt)) ∧
    LaneResults (.clz e d a la) always d 1 la.toNat (fromOne a fun x =>
      BitVec.ofNat 32 (if x = 0 then 32 else 31 - Nat.log2 x.toNat)) ∧
    LaneResults (.popc e d a la) always d 1 la.toNat (fromOne a fun x =>
      BitVec.ofNat 32 ((List.range 32).filter fun i => x.getLsbD i).length) ∧
    LaneResults (.brev e d a la) always d 1 la.toNat (fromOne a fun x =>
      BitVec.ofNat 32 (((List.range 32).filter fun i => x.getLsbD i).map fun i => 2 ^ (31 - i)).sum) ∧
    LaneResults (.mov e d a la) always d 1 la.toNat (fromOne a fun x => x) ∧
    LaneResults (.pk8 e d a la k) always d 1 la.toNat (pack 8 k.toNat) ∧
    LaneResults (.pk4 e d a la j) always d 1 la.toNat (pack 4 j.toNat) ∧
    LaneResults (.upk8N e d a la k) always d 1 la.toNat (fromOne a fun x => BitVec.ofNat 32 (x.toNat / 2 ^ (8 * k.toNat) % 2 ^ 8)) ∧
    LaneResults (.upk8I e d a la k) always d 1 la.toNat (fromOne a fun x =>
      BitVec.ofInt 32 (BitVec.ofNat 8 (x.toNat / 2 ^ (8 * k.toNat))).toInt) ∧
    LaneResults (.upk4N e d a la j) always d 1 la.toNat (fromOne a fun x => BitVec.ofNat 32 (x.toNat / 2 ^ (4 * j.toNat) % 2 ^ 4)) ∧
    LaneResults (.upk4I e d a la j) always d 1 la.toNat (fromOne a fun x =>
      BitVec.ofInt 32 (BitVec.ofNat 4 (x.toNat / 2 ^ (4 * j.toNat))).toInt)) ∧
  (∀ e u d a b,
    let signed (n : Nat) (x : Nat) (y : Word) : Int :=
      let (_, we, f) := fieldOf n x y
      if 2 * f < 2 ^ we then (f : Int) else (f : Int) - 2 ^ we
    let inserted (n : Nat) (x : Nat) (y : Word) (z : Nat) : Nat :=
      let (o, we, old) := fieldOf n z y
      z - old * 2 ^ o + x % 2 ^ we * 2 ^ o
    LaneResults (.bfx e d a b u) always d 1 0 (fromTwo a b fun x y => BitVec.ofNat 32 (fieldOf 32 x.toNat y).2.2) ∧
    LaneResults (.bfxs e d a b u) always d 1 0 (fromTwo a b fun x y => BitVec.ofInt 32 (signed 32 x.toNat y)) ∧
    LaneResults (.bfi e d a b u) always d 1 0 (fromThree a b d fun x y z => BitVec.ofNat 32 (inserted 32 x.toNat y z.toNat)) ∧
    LaneResults (.bfx64 e d a b u) always d 2 0 (fromPairWord a b fun x y => BitVec.ofNat 64 (fieldOf 64 x.toNat y).2.2) ∧
    LaneResults (.bfxs64 e d a b u) always d 2 0 (fromPairWord a b fun x y => BitVec.ofInt 64 (signed 64 x.toNat y)) ∧
    LaneResults (.bfi64 e d a b u) always d 2 0 fun s g v l =>
      let x := readPair s g v l a.toNat
      let y := readField s g v l b.toNat
      let z := readPair s g v l d.toNat
      (pairWords (BitVec.ofNat 64 (inserted 64 x.val.toNat y.val z.val.toNat)) (x.poison || y.poison || z.poison), 0))

/-- R297, R298, R300 and R299 for `cmp64`: `sel` chooses by its predicate, the comparisons write theirs, and the constants build a word. -/
def Obligations.SelectCompareConstants : Prop := ∀ e u f d a b (c : BitVec 4) (p : BitVec 3) (i : BitVec 17),
  (LaneResults (.sel e d a b p) always d 1 0 fun s g v l =>
    let x := readField s g v l a.toNat
    let y := readField s g v l b.toNat
    ([⟨if p = 7 ∨ (v.lane l).preds.getLsbD p.toNat = true then x.val else y.val,
      x.poison || y.poison || (p ≠ 7 && (v.lane l).predPoison.getLsbD p.toNat)⟩], 0)) ∧
  encode (.sel e d a b p) = [BitVec.ofBool e ++ 0x0C#7 ++ d ++ a ++ b ++ p] ∧
  (∀ r : Nat → Int → Int → Bool, (∀ c x y, r c x y = true ↔ holdsInt c x y) →
    (PredicateResults (.cmp e c p a b u f) p fun s g v l =>
      let x := readField s g v l a.toNat
      let y := readField s g v l b.toNat
      (if f then r c.toNat x.val.toNat y.val.toNat else r c.toNat x.val.toInt y.val.toInt, x.poison || y.poison, 0)) ∧
    (PredicateResults (.cmp64 e c p a b u f) p fun s g v l =>
      let x := readPair s g v l a.toNat
      let y := readPair s g v l b.toNat
      (if f then r c.toNat x.val.toNat y.val.toNat else r c.toNat x.val.toInt y.val.toInt, x.poison || y.poison, 0))) ∧
  LaneResults (.movi e d i) always d 1 0 (constant (BitVec.ofInt 32 i.toInt)) ∧
  LaneResults (.movh e d i) always d 1 0 (fromOne d fun x => BitVec.ofNat 32 (i.toNat * 2 ^ 15 + x.toNat % 2 ^ 15)) ∧
  encode (.movi e d i) = [BitVec.ofBool e ++ 0x0E#7 ++ d ++ i] ∧ encode (.movh e d i) = [BitVec.ofBool e ++ 0x0F#7 ++ d ++ i] ∧
  ∀ x : Word, ∃ lo hi : BitVec 17, x.toNat = hi.toNat * 2 ^ 15 + (BitVec.ofInt 32 lo.toInt).toNat % 2 ^ 15

/-- R299: 64-bit arithmetic on pairs wraps modulo 2^64; counts are whole single registers. -/
def Obligations.Integers64 : Prop := ∀ e u d a b,
  LaneResults (.add64 e d a b u) always d 2 0 (fromPairs a b fun x y => BitVec.ofNat 64 (x.toNat + y.toNat)) ∧
  LaneResults (.sub64 e d a b u) always d 2 0 (fromPairs a b fun x y => BitVec.ofInt 64 ((x.toNat : Int) - y.toNat)) ∧
  LaneResults (.mul64 e d a b u) always d 2 0 (fromPairs a b fun x y => BitVec.ofNat 64 (x.toNat * y.toNat)) ∧
  (LaneResults (.mad64 e d a b u) always d 2 0 fun s g v l =>
    let x := readPair s g v l a.toNat
    let y := readPair s g v l b.toNat
    let z := readPair s g v l d.toNat
    (pairWords (BitVec.ofNat 64 (x.val.toNat * y.val.toNat + z.val.toNat)) (x.poison || y.poison || z.poison), 0)) ∧
  LaneResults (.shl64 e d a b u) always d 2 0 (fromPairWord a b fun x y => BitVec.ofNat 64 (x.toNat * 2 ^ y.toNat)) ∧
  LaneResults (.shr64 e d a b u) always d 2 0 (fromPairWord a b fun x y => BitVec.ofNat 64 (x.toNat / 2 ^ y.toNat)) ∧
  LaneResults (.sar64 e d a b u) always d 2 0 (fromPairWord a b fun x y => BitVec.ofInt 64 (x.toInt / 2 ^ y.toNat)) ∧
  LaneResults (.min64I64 e d a b u) always d 2 0 (fromPairs a b fun x y => BitVec.ofInt 64 (min x.toInt y.toInt)) ∧
  LaneResults (.min64N64 e d a b u) always d 2 0 (fromPairs a b fun x y => BitVec.ofNat 64 (min x.toNat y.toNat)) ∧
  LaneResults (.max64I64 e d a b u) always d 2 0 (fromPairs a b fun x y => BitVec.ofInt 64 (max x.toInt y.toInt)) ∧
  LaneResults (.max64N64 e d a b u) always d 2 0 (fromPairs a b fun x y => BitVec.ofNat 64 (max x.toNat y.toNat)) ∧
  LaneResults (.mulh64I64 e d a b u) always d 2 0 (fromPairs a b fun x y => BitVec.ofInt 64 (x.toInt * y.toInt / 2 ^ 64)) ∧
  LaneResults (.mulh64N64 e d a b u) always d 2 0 (fromPairs a b fun x y => BitVec.ofNat 64 (x.toNat * y.toNat / 2 ^ 64))

/-- R301 to R303: f32 arithmetic rounded in the mode of the word, minima, maxima and comparisons, with the IEEE flags each lane raises. -/
def Obligations.FloatArithmetic : Prop := ∀ e u d a b (r : BitVec 2) (c : BitVec 4) (p : BitVec 3),
  LaneResults (.fadd e d a b u r) always d 1 0 (floatTwo a b (fp32Add r.toNat)) ∧
  LaneResults (.fsub e d a b u r) always d 1 0 (floatTwo a b (fp32Sub r.toNat)) ∧
  LaneResults (.fmul e d a b u r) always d 1 0 (floatTwo a b (fp32Mul r.toNat)) ∧
  LaneResults (.ffma e d a b u r) always d 1 0 (floatThree a b d (fp32Fma r.toNat)) ∧
  LaneResults (.fmin e d a b u) always d 1 0 (floatTwo a b fun x y => fpWord (FpFormat.f32.minMax false x.toNat y.toNat)) ∧
  LaneResults (.fmax e d a b u) always d 1 0 (floatTwo a b fun x y => fpWord (FpFormat.f32.minMax true x.toNat y.toNat)) ∧
  PredicateResults (.fcmp e c p a b u) p fun s g v l =>
    let x := readField s g v l a.toNat
    let y := readField s g v l b.toNat
    ((fp32Cmp c.toNat x.val y.val).1, x.poison || y.poison, (fp32Cmp c.toNat x.val y.val).2.toBits)

/-- R304 to R307: the functions of one f32 operand with their lookahead, rounding to an integral value, and the conversions. -/
def Obligations.FloatFunctions : Prop := ∀ e d a (la : BitVec 4) (r : BitVec 2) (t s : BitVec 4),
  LaneResults (.frcp e d a la) always d 1 la.toNat (floatOne a fpRcp) ∧
  LaneResults (.frsq e d a la) always d 1 la.toNat (floatOne a fpRsq) ∧
  LaneResults (.fsqrt e d a la) always d 1 la.toNat (floatOne a fun x => fpWord (fpSqrt x.toNat)) ∧
  LaneResults (.fex2 e d a la) always d 1 la.toNat (floatOne a fpEx2) ∧
  LaneResults (.flg2 e d a la) always d 1 la.toNat (floatOne a fpLg2) ∧
  LaneResults (.fsin e d a la) always d 1 la.toNat (floatOne a (fpTrig false)) ∧
  LaneResults (.fcos e d a la) always d 1 la.toNat (floatOne a (fpTrig true)) ∧
  LaneResults (.ftanh e d a la) always d 1 la.toNat (floatOne a fpTanh) ∧
  LaneResults (.frnd e d a la r) always d 1 la.toNat (floatOne a fun x => fpWord (fpRoundIntegral r.toNat x.toNat)) ∧
  LaneResults (.fcvt e d a t s r) always d 1 0 (floatOne a (fpConvert t.toNat s.toNat r.toNat false)) ∧
  LaneResults (.fcvtSat e d a t s r) always d 1 0 (floatOne a (fpConvert t.toNat s.toNat r.toNat true))

/-- R308 to R311: the packed 16-bit forms element by element, the integer dot products as exact sums, the minifloat dot products and the
block scale. -/
def Obligations.PackedAndDots : Prop := ∀ e u d a b (t : Bool) (f k : BitVec 2),
  let h := if t then FpFormat.w16 else FpFormat.h16
  let element (n k : Nat) (x : Word) : Int := (BitVec.ofNat n (x.toNat / 2 ^ (n * k))).toInt
  let dot (n : Nat) (x y z : Word) : Word :=
    BitVec.ofInt 32 (z.toInt + ((List.range (32 / n)).map fun k => element n k x * element n k y).sum)
  LaneResults (.hadd2 e d a b u t) always d 1 0 (floatTwo a b fun x y =>
    packed2 (fun p q _ => h.add 0 false (h.unpack p) (h.unpack q)) x y 0) ∧
  LaneResults (.hmul2 e d a b u t) always d 1 0 (floatTwo a b fun x y =>
    packed2 (fun p q _ => h.mul 0 (h.unpack p) (h.unpack q)) x y 0) ∧
  LaneResults (.hfma2 e d a b u t) always d 1 0 (floatThree a b d
    (packed2 fun p q r => h.fma 0 (h.unpack p) (h.unpack q) (h.unpack r))) ∧
  LaneResults (.hmin2 e d a b u t) always d 1 0 (floatTwo a b fun x y => packed2 (fun p q _ => h.minMax false p q) x y 0) ∧
  LaneResults (.hmax2 e d a b u t) always d 1 0 (floatTwo a b fun x y => packed2 (fun p q _ => h.minMax true p q) x y 0) ∧
  LaneResults (.dot4 e d a b u) always d 1 0 (fromThree a b d (dot 8)) ∧
  LaneResults (.dot8 e d a b u) always d 1 0 (fromThree a b d (dot 4)) ∧
  LaneResults (.dotm4 e d a b u) always d 1 0 (floatTwo a b (fpDot .m4 .m4 8)) ∧
  LaneResults (.dotm8 e d a b u f) always d 1 0 (floatTwo a b
    (fpDot (if f = 0 ∨ f = 2 then .m8 else .m8w) (if f = 0 ∨ f = 3 then .m8 else .m8w) 4)) ∧
  LaneResults (.sclb e d a b u k) always d 1 0 (floatThree a b d (scaleAdd k.toNat))

/-- R303: an f32 comparison decides by the numbers, ±0 equal and infinities at the ends; with a NaN operand only `.ne` and `.un` hold, and
invalid is raised for a signalling NaN, and for every NaN by the four order relations. R62: an arithmetic result with a NaN operand is the
canonical NaN, and invalid is raised exactly when an operand is a signalling NaN (for `ffma` also for 0 × ∞, R301). -/
def Obligations.FloatComparisonAndNaNs : Prop :=
  (∀ (c : Nat) (x y : Word), c < 8 →
    let unordered := isNaNWord x || isNaNWord y
    let signalling := isSignalling x || isSignalling y
    (unordered = true → fp32Cmp c x y = (c == 1 || c == 6, { invalid := signalling || (2 ≤ c && c ≤ 5) })) ∧
    (unordered = false → (fp32Cmp c x y).2 = {} ∧
      ((fp32Cmp c x y).1 = true ↔ c = 7 ∨ c < 6 ∧ holdsReal c (valueOf (FpFormat.f32.unpack x.toNat)) (valueOf (FpFormat.f32.unpack y.toNat))))) ∧
  (∀ (r k : Nat) (x y z : Word),
    let nan : Word := 0x7FC00000
    let invalid (b : Bool) : FpFlags := { invalid := b }
    (isNaNWord x = true ∨ isNaNWord y = true →
      fp32Add r x y = (nan, invalid (isSignalling x || isSignalling y)) ∧
      fp32Sub r x y = (nan, invalid (isSignalling x || isSignalling y)) ∧
      fp32Mul r x y = (nan, invalid (isSignalling x || isSignalling y))) ∧
    (isNaNWord x = true ∨ isNaNWord y = true ∨ isNaNWord z = true → (fp32Fma r x y z).1 = nan ∧
      (isNaNWord x = true ∨ isNaNWord y = true → (fp32Fma r x y z).2 = invalid (isSignalling x || isSignalling y || isSignalling z))) ∧
    (isNaNWord x = true → fpRcp x = (nan, invalid (isSignalling x)) ∧ fpRsq x = (nan, invalid (isSignalling x)) ∧
      fpWord (fpSqrt x.toNat) = (nan, invalid (isSignalling x)) ∧ fpEx2 x = (nan, invalid (isSignalling x)) ∧
      fpLg2 x = (nan, invalid (isSignalling x)) ∧ (∀ c, fpTrig c x = (nan, invalid (isSignalling x))) ∧
      fpTanh x = (nan, invalid (isSignalling x)) ∧ fpWord (fpRoundIntegral r x.toNat) = (nan, invalid (isSignalling x))) ∧
    (isNaNWord x = true ∨ isNaNWord z = true → (scaleAdd k x y z).1 = nan))

/-- R68, R69: a rounded result that does not overflow is the format's value that the mode asks for (to nearest, ties to the even code; toward
zero; toward −∞; toward +∞), and inexact says that it differs from the exact number. -/
def Obligations.RoundsOnce : Prop := ∀ f ∈ [FpFormat.f32, .h16, .w16, .m8w], ∀ (rm : Nat) (neg : Bool) (m : Nat) (e : Int),
  rm < 4 → m ≠ 0 →
  let x : ℚ := (if neg then -1 else 1) * m * 2 ^ e
  let r := f.round rm false neg m e false
  let y := valueOf (f.unpack r.1)
  r.2.overflow = false →
    isFinite (f.unpack r.1) ∧ (r.2.inexact = true ↔ y ≠ x) ∧
    ∀ c, isFinite (f.unpack c) →
      let z := valueOf (f.unpack c)
      match rm with
      | 0 => |y - x| ≤ |z - x| ∧ (|y - x| = |z - x| → z ≠ y → r.1 % 2 = 0)
      | 1 => |y| ≤ |x| ∧ (|z| ≤ |x| → 0 ≤ z * x → |z| ≤ |y|)
      | 2 => y ≤ x ∧ (z ≤ x → z ≤ y)
      | _ => x ≤ y ∧ (x ≤ z → y ≤ z)

/-- R318: predicates of one or two sources, each negated by its bit; p7 reads 1, and the poison is that of the sources (R47). -/
def Obligations.PredicateLogic : Prop := ∀ e d n a m b,
  let source (v : Warp) (l : Nat) (p : BitVec 3) (neg : Bool) : Bool := ((p = 7) || (v.lane l).preds.getLsbD p.toNat) != neg
  let poison (v : Warp) (l : Nat) (p : BitVec 3) : Bool := p ≠ 7 && (v.lane l).predPoison.getLsbD p.toNat
  PredicateResults (.pand e d n a m b) d (fun _ _ v l => (source v l a n && source v l b m, poison v l a || poison v l b, 0)) ∧
  PredicateResults (.por e d n a m b) d (fun _ _ v l => (source v l a n || source v l b m, poison v l a || poison v l b, 0)) ∧
  PredicateResults (.pxor e d n a m b) d (fun _ _ v l => (source v l a n != source v l b m, poison v l a || poison v l b, 0)) ∧
  PredicateResults (.pnot e d n a) d (fun _ _ v l => (!source v l a n, poison v l a, 0)) ∧
  (∀ x : Lane, ∀ value poisoned, x.setPred 7 value poisoned = x) ∧
  let fields : BitVec 29 := BitVec.ofBool e ++ 0x28#7 ++ 0#4 ++ d ++ 0#3 ++ BitVec.ofBool n ++ a ++ 0#3 ++ BitVec.ofBool m ++ b
  encode (.pand e d n a m b) = [fields ++ 0#3] ∧ encode (.por e d n a m b) = [fields ++ 1#3] ∧ encode (.pxor e d n a m b) = [fields ++ 2#3] ∧
  encode (.pnot e d n a) = [BitVec.ofBool e ++ 0x28#7 ++ 0#4 ++ d ++ 0#3 ++ BitVec.ofBool n ++ a ++ 0#7 ++ 3#3]

/-- R319 to R321, R378: where each lane goes on. `bra` and `brp` set the PC of the lanes that branch, relative to the word; `call` writes the
address past it to a pair and jumps; `ret` and `jmp` take the pair; `nop` and `yield` change nothing but the PC. R319, R320, R257, R248: a
poisoned branch predicate or jump target is a consumption of kind 2; then a misaligned target traps in space 5, and then one past the address
space is a page fault of a fetch. Each names the lanes that fail, and the detail is the lowest's. R321, R53: the lanes of an `exit` end once
their pending entries have arrived; the last handler lane to exit ends the handler. -/
def Obligations.ControlFlow : Prop :=
  (∀ e n d a (p : BitVec 3) (o : BitVec 20) (i : BitVec 17),
    let pred (v : Warp) (l : Nat) : Bool := p = 7 || (v.lane l).preds.getLsbD p.toNat
    let poison (v : Warp) (l : Nat) : Bool := p ≠ 7 && (v.lane l).predPoison.getLsbD p.toNat
    let target (b : State) (g : Group) (v : Warp) (l : Nat) : PDWord := readPair b g v l a.toNat
    let inCode : Cond := fun b g v => ∀ l ∈ g.lanes, (target b g v l).poison = false ∧ (target b g v l).val.toNat % 4 = 0 ∧
      (target b g v l).val.toNat < 2 ^ 57
    LaneEffects (.bra e p n o) (fun _ g v => ∀ l ∈ g.lanes, poison v l = false)
      (fun _ g v l x => if pred v l != n then { x with pc := g.pc + BitVec.ofInt 57 (4 * o.toInt), rep := 0 } else x) ∧
    LaneEffects (.brp e p n o) always
      (fun _ g v l x => if poison v l != n then { x with pc := g.pc + BitVec.ofInt 57 (4 * o.toInt), rep := 0 } else x) ∧
    Achieves (.call e d i) always (fun b g v c => ∃ m u, m.warpAt g.key = some u ∧
      Wrote g v b m d.toNat 2 0 (fun _ => [clean ((g.pc + 4).truncate 32), clean (BitVec.ofNat 32 ((g.pc + 4).toNat / 2 ^ 32))]) (fun _ => 0) ∧
      LanesChanged g u m c fun _ x => { x with pc := g.pc + BitVec.ofInt 57 (4 * i.toInt), rep := 0 }) ∧
    LaneEffects (.ret e a) inCode (fun b g v l x => { x with pc := BitVec.ofNat 57 (target b g v l).val.toNat, rep := 0 }) ∧
    LaneEffects (.jmp e a) inCode (fun b g v l x => { x with pc := BitVec.ofNat 57 (target b g v l).val.toNat, rep := 0 }) ∧
    Does (.nop e) always (fun b _ _ => b) ∧
    Does (.yield e) always (fun b _ _ => b)) ∧
  (∀ e n a (p : BitVec 3) (o : BitVec 20),
    let target (b : State) (g : Group) (v : Warp) (l : Nat) : PDWord := readPair b g v l a.toNat
    let jumps (i : Instr) : Prop :=
      Traps i (fun b g v => ∃ l ∈ g.lanes, (target b g v l).poison = true)
        (fun b g v => ⟨0x0D, g.lanes.filter fun l => (target b g v l).poison, 2 + 16 * a.toNat⟩) ∧
      Traps i (fun b g v => (∀ l ∈ g.lanes, (target b g v l).poison = false) ∧ ∃ l ∈ g.lanes, (target b g v l).val.toNat % 4 ≠ 0)
        (fun b g v =>
          let bad := g.lanes.filter fun l => (target b g v l).val.toNat % 4 != 0
          ⟨0x04, bad, (target b g v (bad.headD 0)).val.toNat % 2 ^ 57 + 5 * 2 ^ 57⟩) ∧
      Traps i (fun b g v => (∀ l ∈ g.lanes, (target b g v l).poison = false ∧ (target b g v l).val.toNat % 4 = 0) ∧
          ∃ l ∈ g.lanes, 2 ^ 57 ≤ (target b g v l).val.toNat)
        (fun b g v =>
          let bad := g.lanes.filter fun l => 2 ^ 57 ≤ (target b g v l).val.toNat
          ⟨0x06, bad, (target b g v (bad.headD 0)).val.toNat % 2 ^ 57 + 3 * 2 ^ 57⟩)
    Traps (.bra e p n o) (fun _ g v => p ≠ 7 ∧ ∃ l ∈ g.lanes, (v.lane l).predPoison.getLsbD p.toNat = true)
      (fun _ g v => ⟨0x0D, g.lanes.filter fun l => (v.lane l).predPoison.getLsbD p.toNat, 2⟩) ∧
    jumps (.ret e a) ∧ jumps (.jmp e a)) ∧
  (∀ e,
    let ended (x : Lane) : Lane := { x with exited := true, commits := [] }
    let arrived : Cond := fun _ g v => ∀ l ∈ g.lanes, ∀ c ∈ (v.lane l).commits, c.value.isSome = true
    let another : Cond := fun _ g v => ∃ l < v.lanes.length, l ∉ g.lanes ∧ (v.lane l).present = true ∧ (v.lane l).exited = false ∧
      (v.lane l).held = false
    LaneEffects (.exit e) (fun b g v => arrived b g v ∧ v.inHandler = false) (fun _ _ _ _ => ended) ∧
    LaneEffects (.exit e) (fun b g v => arrived b g v ∧ v.inHandler = true ∧ another b g v) (fun _ _ _ _ => ended) ∧
    Does (.exit e) (fun b g v => arrived b g v ∧ v.inHandler = true ∧ ¬ another b g v)
      (fun b g v => nextTrap (leaveHandler (b.onLanes g.key g.lanes ended) g.key) v.wg) ∧
    Waits (.exit e) (fun _ g v => ∃ l ∈ g.lanes, ∃ c ∈ (v.lane l).commits, c.value = none))

/-- R282: a repeat of a prefixed word does what the word does with its enabled fields raised by the stride times the index; then the lanes
stand at the prefix with the next index, or past both words after the last. Stated of every governed word through its run, and of `add` by
its result. -/
def Obligations.Repeats : Prop := ∀ e c x y z st g w s v word j₀,
  Issues (.rep e c x y z st) g w s → (s.issuing g).warpAt g.key = some v → governed s.unchoose g = .word word →
  decode word = some j₀ → repLegal (c.toNat + 1) (2 ^ st.toNat) x y z j₀ = true →
  let k := g.rep * 2 ^ st.toNat
  let after (x : Lane) : Lane :=
    if g.rep < c.toNat then { x with pc := g.pc, rep := g.rep + 1 } else { x with pc := g.pc + 8, rep := 0 }
  (∀ sigs b, Issues (j₀.stepped x y z k) g w s → runWord (j₀.stepped x y z k) g (s.issuing g) = .done sigs b →
    Completes (.rep e c x y z st) g s (b.onLanes g.key g.lanes after)) ∧
  (∀ e' d a b u, j₀ = .add e' d a b u →
    let up (on : Bool) (f : BitVec 7) : BitVec 7 := if on then f + BitVec.ofNat 7 k else f
    Issues (.add e' (up x d) (up y a) (up z b) u) g w s →
    ∃ m, Completes (.rep e c x y z st) g s (m.onLanes g.key g.lanes after) ∧
      let f := fromTwo (up y a) (up z b) fun x y => BitVec.ofNat 32 (x.toNat + y.toNat)
      Wrote g v (s.issuing g) m (up x d).toNat 1 0 (fun l => (f (s.issuing g) g v l).1) (fun l => (f (s.issuing g) g v l).2))

/-- What each cross-lane instruction does once its set is complete (R314 to R317): G gives the participants, `base` the state with them
released, and mp whether a mask was poisoned. -/
def crossLaneResults (ok : BitVec 7 → Cond) (G : Group → Warp → Group) (base : BitVec 7 → Instr → State → Group → Warp → State)
    (mp : BitVec 7 → State → Group → Warp → Bool) : Prop :=
  let words (i : Instr) (d : BitVec 7) (la : Nat) (f : State → Group → Warp → Nat → PWord) : Prop :=
    Achieves i (ok d) fun b g v e => ∃ u, (base d i b g v).warpAt g.key = some u ∧
      Wrote (G g v) u (base d i b g v) e d.toNat 1 la
        (fun l => let r := f (base d i b g v) (G g v) u l; [⟨r.val, r.poison || mp d b g v⟩]) fun _ => 0
  let preds (i : Instr) (d : BitVec 7) (q : BitVec 3) (f : Group → Warp → Bool × Bool) : Prop :=
    Achieves i (ok d) fun b g v e => ∃ u, (base d i b g v).warpAt g.key = some u ∧
      LanesChanged (G g v) u (base d i b g v) e fun _ x => x.setPred q.toNat (f (G g v) u).1 (mp d b g v || (f (G g v) u).2)
  let vals (a : BitVec 7) (b : State) (g : Group) (v : Warp) (ls : List Nat) : List Word := ls.map fun l => (readField b g v l a.toNat).val
  let anyPoison (a : BitVec 7) (b : State) (g : Group) (v : Warp) : Bool := g.lanes.any fun l => (readField b g v l a.toNat).poison
  let mask (ls : List Nat) : Word := BitVec.ofNat 32 (ls.map fun l => 2 ^ l).sum
  let pred (v : Warp) (s : BitVec 3) (n : Bool) (l : Nat) : Bool := ((s = 7) || (v.lane l).preds.getLsbD s.toNat) != n
  let predPoison (v : Warp) (s : BitVec 3) (g : Group) : Bool := s ≠ 7 && g.lanes.any fun l => (v.lane l).predPoison.getLsbD s.toNat
  let fold (o : Nat) : List Word → Word
    | [] => laneIdentity o
    | x :: xs => xs.foldl (laneOp o) (laneFirst o x)
  ∀ e d a b u (f : BitVec 2) n (s q : BitVec 3) (la o : BitVec 4),
  (words (.shfl e d a b u f) d 0 fun t g v l =>
    let y := readField t g v l b.toNat
    let source : Int := match f.toNat with
      | 0 => (y.val.toNat % 32 : Nat)
      | 1 => ((l : Int) + y.val.toInt) % 32
      | 2 => (l : Int) + y.val.toInt
      | _ => (l ^^^ (y.val.toNat % 32) : Nat)
    if 0 ≤ source ∧ source.toNat ∈ g.lanes then
      let x := readField t g v source.toNat a.toNat
      ⟨x.val, x.poison || y.poison⟩
    else readField t g v l a.toNat) ∧
  (words (.voteBallot e d n s) d 0 fun _ g v _ => ⟨mask (g.lanes.filter (pred v s n)), predPoison v s g⟩) ∧
  preds (.voteAll e d n s q) d q (fun g v => (g.lanes.all (pred v s n), predPoison v s g)) ∧
  preds (.voteAny e d n s q) d q (fun g v => (g.lanes.any (pred v s n), predPoison v s g)) ∧
  preds (.voteEq e d n s q) d q (fun g v => (g.lanes.all (pred v s n) || !g.lanes.any (pred v s n), predPoison v s g)) ∧
  (words (.lred e d a la o) d la.toNat fun t g v _ => ⟨fold o.toNat (vals a t g v g.lanes), anyPoison a t g v⟩) ∧
  (words (.lscan e d a la false o) d la.toNat fun t g v l =>
    ⟨fold o.toNat (vals a t g v (g.lanes.filter (· ≤ l))), anyPoison a t g v⟩) ∧
  (words (.lscan e d a la true o) d la.toNat fun t g v l =>
    ⟨(vals a t g v (g.lanes.filter (· < l))).foldl (laneOp o.toNat) (laneIdentity o.toNat), anyPoison a t g v⟩) ∧
  (words (.matchW e d a) d 0 fun t g v l =>
    ⟨mask (g.lanes.filter fun m => (readField t g v m a.toNat).val = (readField t g v l a.toNat).val), anyPoison a t g v⟩) ∧
  (words (.match64 e d a) d 0 fun t g v l =>
    ⟨mask (g.lanes.filter fun m => (readPair t g v m a.toNat).val = (readPair t g v l a.toNat).val),
      g.lanes.any fun m => (readPair t g v m a.toNat).poison⟩) ∧
  (words (.fmtv e d a) d 0 fun t g v _ =>
    ⟨mask (g.lanes.filter fun m => (readField t g v m a.toNat).val ≠ (readField t g v (g.lanes.headD 0) a.toNat).val), anyPoison a t g v⟩) ∧
  Achieves (.cvg e d) (ok d) (fun b g v t => t = base d (.cvg e d) b g v)

/-- R27 to R29, R51, R313 to R317: lanes that arrive together, and are all that the mask names, execute at once, on the state with the
entries committed that fall due at the release, unless one of them has not arrived; the result is each participant's, its poison that of the
operands and of the mask. -/
def Obligations.CrossLane : Prop := ∀ m, crossLaneResults (fun d b g v => gathers d m b g v ∧ ∀ l ∈ g.lanes, commitBlocked v l = false)
  (fun g _ => g) (fun _ _ b g _ => commitDue b g) maskPoison

/-- R28: a parked set that becomes complete otherwise (an `exit`) executes with the masks that its lanes arrived with, and is released. R27,
R51, R313: a lane that arrives at a cross-lane instruction before its set is complete, or while an entry that the release would commit has not
arrived, parks there, with the mask it reads now. R28: lanes of a parked set whose masks differ, or do not name them, raise 0x09 with the
lowest such lane. -/
def Obligations.CrossLaneSets : Prop :=
  (crossLaneResults (fun _ => parkedSet) (fun g _ => g) (fun _ _ b g _ => b.onLanes g.key g.lanes fun x => { x with park := none })
      fun _ => parkPoison) ∧
  (∀ i d, maskField i = some d →
    LaneEffects i (fun b g v => stillWaits d b g v ∨ ∃ m, gathers d m b g v ∧ ∃ l ∈ g.lanes, commitBlocked v l = true) fun b g v l x =>
      let m := readField b g v l d.toNat
      { x with pc := x.pc - 4, rep := g.rep, park := some ⟨i, m.val, m.poison⟩ }) ∧
  (∀ i d, maskField i = some d →
    let wrong (g : Group) (v : Warp) (l : Nat) : Bool := match (v.lane l).park, (v.lane (g.lanes.headD 0)).park with
      | some p, some p₀ => p.mask != p₀.mask || !p.mask.getLsbD l
      | _, _ => true
    Traps i (fun _ g v => g.lanes ≠ [] ∧ (∀ l ∈ g.lanes, (v.lane l).park ≠ none) ∧ ∃ l ∈ g.lanes, wrong g v l = true)
      fun _ g v => ⟨0x09, g.lanes.filter (wrong g v), 16 * (g.lanes.filter (wrong g v)).headD 0⟩)

/-- R55, R322: what `rsr` reads from each special register, its width, and that the value is clean; R372 for `rdepth`, R375 for `segr`. R323,
R375, R376: `wbase` sets each lane's window when the new base lies in the range, and traps with the window overrun otherwise; `wsr` writes a
lane's flags or a trap register (a write of `sr.cause` clears the latch); `segw` sets a legal segment register. -/
def Obligations.SpecialRegisters : Prop :=
  (∀ e d (n : BitVec 4),
    let reads (number : Nat) (f : State → Group → Warp → Nat → Nat) : Prop :=
      LaneResults (.rsr e d (BitVec.ofNat 10 number)) always d 1 0 fun b g v l => ([clean (BitVec.ofNat 32 (f b g v l))], 0)
    let readsPair (number : Nat) (f : State → Group → Warp → Nat) : Prop :=
      LaneResults (.rsr e d (BitVec.ofNat 10 number)) always d 2 0 fun b g v _ =>
        ([clean (BitVec.ofNat 32 (f b g v)), clean (BitVec.ofNat 32 (f b g v / 2 ^ 32))], 0)
    let id (b : State) (v : Warp) : Nat := (b.wgId v).toNat
    let extents (b : State) (v : Warp) : Nat := (b.launchWord v 2).toNat
    let xs (b : State) (v : Warp) : Nat := extents b v % 2 ^ 32
    let ys (b : State) (v : Warp) : Nat := extents b v / 2 ^ 32 % 2 ^ 16
    readsPair 0x000 (fun b g _ => (b.cyc (g.core / 32)).toNat) ∧
    readsPair 0x001 (fun b _ _ => b.clk.ref.toNat) ∧
    reads 0x010 (fun _ _ v l => (v.lane l).flags.toNat) ∧
    reads 0x011 (fun _ _ v l => (v.lane l).window) ∧
    reads 0x012 (fun _ _ v _ => v.base * 16 + v.sizeCode) ∧
    reads 0x013 (fun _ _ v _ => v.mode.toNat) ∧
    reads 0x014 (fun _ g _ _ => g.core) ∧
    reads 0x015 (fun _ g _ _ => g.slot) ∧
    reads 0x016 (fun _ _ v _ => v.lsn.toNat) ∧
    reads 0x017 (fun _ _ v _ => v.ctx.toNat) ∧
    readsPair 0x018 (fun b _ v => id b v) ∧
    reads 0x019 (fun b _ v _ => id b v % xs b v) ∧
    reads 0x01A (fun b _ v _ => id b v / xs b v % ys b v + 2 ^ 16 * (id b v / xs b v / ys b v)) ∧
    reads 0x01B (fun b _ v _ => xs b v) ∧
    reads 0x01C (fun b _ v _ => extents b v / 2 ^ 32) ∧
    reads 0x020 (fun _ _ v _ => v.trap.cause.toNat) ∧
    readsPair 0x021 (fun _ _ v => v.trap.epc.toNat) ∧
    reads 0x022 (fun _ _ v _ => v.trap.emask.toNat) ∧
    reads 0x023 (fun _ _ v _ => v.trap.erep.toNat) ∧
    readsPair 0x024 (fun _ _ v => v.trap.einfo.toNat) ∧
    reads 0x025 (fun _ _ v _ => v.trap.eskid.toNat) ∧
    LaneResults (.rdepth e d) always d 1 0 (fun _ _ v _ => ([clean (BitVec.ofNat 32 v.rings.length)], 0)) ∧
    LaneResults (.segr e d n) always d 2 0 (fun _ _ v _ =>
      ([clean (BitVec.ofNat 32 (v.segs.get n.toNat)), clean (BitVec.ofNat 32 (v.segs.get n.toNat / 2 ^ 32))], 0))) ∧
  (∀ e a (i : BitVec 10) (n : BitVec 4) (x : Word) (y : DWord),
    let base (b : State) (g : Group) (v : Warp) (l : Nat) : Int :=
      (BitVec.ofInt 32 ((readField b g v l a.toNat).val.toInt + i.toInt)).toInt
    let outside (b : State) (g : Group) (v : Warp) (l : Nat) : Bool := base b g v l < 0 || base b g v l > 15 || 32 * base b g v l ≥ v.size
    let wsr (number : Nat) : Instr := .wsr e a (BitVec.ofNat 10 number)
    let onTrap (b : State) (g : Group) (f : TrapRegs → TrapRegs) : State := b.onWarp g.key fun w => { w with trap := f w.trap }
    let toSegment : Nat → Nat × Nat := fun old => if n.toNat % 2 = 0 then (y.toNat, old) else (old, y.toNat)
    LaneEffects (.wbase e a i)
      (fun b g v => ∀ l ∈ g.lanes, (readField b g v l a.toNat).poison = false ∧ outside b g v l = false)
      (fun b g v l t => { t with window := (base b g v l).toNat }) ∧
    Traps (.wbase e a i) (fun b g v => ∃ l ∈ g.lanes, outside b g v l = true)
      (fun b g v => ⟨0x03, g.lanes.filter (outside b g v), wordOf (.wbase e a i) + 2 ^ 32 * a.toNat⟩) ∧
    LaneEffects (wsr 0x010) (fun b g v => ∀ l ∈ g.lanes, (readField b g v l a.toNat).poison = false)
      (fun b g v l t => { t with flags := BitVec.ofNat 5 (readField b g v l a.toNat).val.toNat }) ∧
    Does (wsr 0x020) (agree a x) (fun b g _ => b.onWarp g.key fun w =>
      { w with trap := { w.trap with cause := BitVec.ofNat 8 x.toNat }, latch := false }) ∧
    Does (wsr 0x021) (agreePair a y) (fun b g _ => onTrap b g fun t => { t with epc := BitVec.ofNat 64 (y.toNat - y.toNat % 4) }) ∧
    Does (wsr 0x022) (agree a x) (fun b g _ => onTrap b g fun t => { t with emask := x }) ∧
    Does (wsr 0x023) (agree a x) (fun b g _ => onTrap b g fun t => { t with erep := BitVec.ofNat 6 x.toNat }) ∧
    Does (wsr 0x024) (agreePair a y) (fun b g _ => onTrap b g fun t => { t with einfo := y }) ∧
    Does (wsr 0x025) (agree a x) (fun b g _ => onTrap b g fun t => { t with eskid := BitVec.ofNat 10 x.toNat }) ∧
    Does (.segw e a n) (fun b g v => agreePair a y b g v ∧
        let (base, lim) := toSegment (v.segs.get (if n.toNat % 2 = 0 then n.toNat + 1 else n.toNat - 1))
        segmentLegal (b.work.groups.find v.wg) (n.toNat / 2) base lim = true)
      (fun b g _ => b.onWarp g.key fun w => { w with segs := w.segs.put n.toNat y.toNat }))

/-- R324, R328, R81, R90, R85: `ld.s` and `ld.x` deliver the bytes at the lane's offset, extended by the size, each word with the poison of the
memory word it comes from; `ld.x` reads the front bank of its granule. R330 to R332, R81, R82, R85, R90: `st.s` writes each lane's bytes to the
scratchpad and nothing else; `st.x` sends each lane's bytes toward the shadow bank of the member it names, in the order of the lanes. -/
def Obligations.LocalAccesses : Prop :=
  (∀ e d a (la : BitVec 4) (sz : BitVec 3),
    let n := sizeBytes sz.toNat
    let loaded (m : Mem) (at' : Nat) : List PWord :=
      let v := ((List.range n).map fun i => (m.read (at' + i)).toNat * 2 ^ (8 * i)).sum
      match sz.toNat with
      | 0 | 2 => [⟨BitVec.ofNat 32 v, m.poisoned (at' / 4)⟩]
      | 1 => [⟨BitVec.ofInt 32 (BitVec.ofNat 8 v).toInt, m.poisoned (at' / 4)⟩]
      | 3 => [⟨BitVec.ofInt 32 (BitVec.ofNat 16 v).toInt, m.poisoned (at' / 4)⟩]
      | _ => (List.range (n / 4)).map fun i => ⟨BitVec.ofNat 32 (v / 2 ^ (32 * i)), m.poisoned ((at' + 4 * i) / 4)⟩
    LaneResults (.ldS e d a la sz) (fun b g v => inLocal a n (·.segs.slim.toNat) b g v ∧ inOrder b g v) d ((n + 3) / 4) la.toNat
      (fun b g v l => (loaded b.mem.scratch (524288 * g.core + v.segs.sbase.toNat + (readField b g v l a.toNat).val.toNat), 0)) ∧
    LaneResults (.ldX e d a la sz) (fun b g v => inLocal a n (·.segs.xlim.toNat) b g v ∧ inOrder b g v) d ((n + 3) / 4) la.toNat
      (fun b g v l =>
        let off := v.segs.xbase.toNat + (readField b g v l a.toNat).val.toNat
        let bank := if (b.mem.polarity.getD g.core 0).getLsbD (off / 4096) then 1 else 0
        (loaded b.mem.exch (65536 * (2 * g.core + bank) + off), 0))) ∧
  (∀ e d a x (sz : BitVec 3) (f : BitVec 2),
    let n := sizeBytes sz.toNat
    let k := 2 ^ f.toNat
    let offset (b : State) (g : Group) (v : Warp) (l : Nat) : Nat := (readField b g v l a.toNat).val.toNat
    Achieves (.stS e d a sz)
      (fun b g v => inLocal a n (·.segs.slim.toNat) b g v ∧ cleanData d ((n + 3) / 4) b g v ∧ inStoreOrder b g v ∧ b.mem.scratch.wf = true)
      (fun b g v t => t = { b with mem := { b.mem with scratch := t.mem.scratch } } ∧
        Stored g b.mem.scratch t.mem.scratch n (fun l => 524288 * g.core + v.segs.sbase.toNat + offset b g v l) (dataByte b g v d)) ∧
    let sends (b : State) (g : Group) (v : Warp) : List (Nat × Nat) := g.lanes.filterMap fun l =>
      (gangMember b v (readField b g v l x.toNat).val.toNat).map fun wg => (l, wg)
    Does (.stX e d a x f)
      (fun b g v => inLocal a (4 * k) (·.segs.xlim.toNat) b g v ∧ cleanData d k b g v ∧ inStoreOrder b g v ∧
        ∀ l ∈ g.lanes, (readField b g v l x.toNat).poison = false ∧ (readField b g v l x.toNat).val.toNat < b.gangSize v)
      (fun b g v => { b with
        mem := { b.mem with exchStores := b.mem.exchStores ++ (sends b g v).zipIdx.map fun y =>
          ⟨b.fresh + y.2, y.1.2, offset b g v y.1.1, (List.range (4 * k)).map (dataByte b g v d y.1.1), g.key, y.1.1⟩ }
        fresh := b.fresh + (sends b g v).length }))

/-- R327 to R329, R45, R51: each lane of a global or constant load puts one load in flight. With a lookahead a commit entry waits for it,
otherwise the lane does; for a scalar destination the lowest lane's brings the value, and without a lookahead every lane waits for it. The
later accesses of a thread, but those to U pages, follow its `ld.acq` on a C or S page (R135). -/
def Obligations.GlobalLoads : Prop := ∀ e d a (la : BitVec 4) (sz c : BitVec 3) (h : BitVec 2) (E : Nat → TlbEntry),
  let n := sizeBytes sz.toNat
  let loads (i : Instr) (constant acquire : Bool) (hint : Nat) : Prop :=
    Achieves i (reaches a n 0 constant true E) fun b g v t =>
      let second (l : Nat) : Bool := isScalarDest d.toNat && g.lanes.head? != some l
      let dest (l : Nat) : Dest := if second l then .discard else destOf v l d.toNat ((n + 3) / 4)
      let entry (l : Nat) : Bool := v.delay la.toNat != 0 && !second l
      let va (l : Nat) : VAddr := BitVec.ofNat 57 (segmentAddr b g v a constant l)
      InFlight g v b t
        (fun l o => ∃ after, o = .load ⟨g.agent l, placeOf b g v a constant E l, n, sz.toNat, (E l).kind, hint, dest l, entry l,
            if isScalarDest d.toNat ∧ v.delay la.toNat = 0 ∧ second l = false then g.lanes else [l], after, false, (E l).mirror, va l,
            g.pc, g.rep⟩ ∧
          (g.lanes = [l] → after = loadAfter b (v.lane l) (g.agent l) (placeOf b g v a constant E l) n (E l).kind))
        (fun id l x =>
          let x := if entry l then { x with commits := x.commits ++ [⟨dest l, v.delay la.toNat + 1, none, 0, some ⟨g.pc, g.rep, va l⟩, some id⟩] }
            else if v.delay la.toNat ≠ 0 then x
            else if second l then { x with loads := x.loads ++ [b.fresh, id] }
            else { x with loads := x.loads ++ [id] }
          if acquire ∧ (E l).kind ≠ 2 then { x with acquireAfter := t.stillPending x.acquireAfter ++ [id] } else x)
  loads (.ldG e d a la sz h) false false h.toNat ∧ loads (.ldC e d a la sz h) true false h.toNat ∧ loads (.ldAcq e d a la sz c) false true 0

/-- R330, R331, R333, R135: each lane of a global store puts one write of its bytes in flight, a `gft` with the cores of its set but the
issuer's own; no lane waits for it, and no memory behind the L1 changes at the issue. The core's store port and the queues have room (R190). -/
def Obligations.GlobalStores : Prop := ∀ e d a x (sz c : BitVec 3) (h f : BitVec 2) (E : Nat → TlbEntry),
  let stores (i : Instr) (n access : Nat) (ok : Cond) (graft : State → Group → Warp → Nat → Option (List Nat)) : Prop :=
    Achieves i (fun b g v => reaches a n access false true E b g v ∧ cleanData d ((n + 3) / 4) b g v ∧ ok b g v ∧
        b.portStopped g.core = false ∧ ∀ l ∈ g.lanes, queueHasRoom b (placeOf b g v a false E l / 128) false = true) fun b g v t =>
      InFlight g v b t
        (fun l o => ∃ after, o = .write ⟨g.agent l, placeOf b g v a false E l, (List.range n).map (dataByte b g v d l), false, none, .discard,
          [], none, (E l).kind, (E l).mirror, graft b g v l, after, .port, g.pc, v.lsn, v.rings.length, v.ctx.toNat, some b.fresh⟩)
        (fun _ _ x => x)
  let set (b : State) (g : Group) (v : Warp) (l : Nat) : List Nat := (List.range 128).filter fun k =>
    (readField b g v l (regUp x.toNat (k / 32))).val.getLsbD (k % 32)
  stores (.stG e d a sz h) (sizeBytes sz.toNat) 1 always (fun _ _ _ _ => none) ∧
  stores (.stRel e d a sz c) (sizeBytes sz.toNat) 1 always (fun _ _ _ _ => none) ∧
  stores (.gft e d a x f) (4 * 2 ^ f.toNat) 4
    (fun b g v => cleanData x 4 b g v ∧ ∀ l ∈ g.lanes, ∀ k ∈ set b g v l, b.coreOut k = false)
    (fun b g v l =>
      let others := (set b g v l).filter (· != g.core)
      if others = [] then none else some others)

/-- R134, R135, R138, R337: a fence orders the lanes' later accesses (its later stores, for the release side; but those to U pages, for the
acquire side) behind the accesses named by its kind and scope that are still outstanding; nothing else changes. An access counts unless its
page kind (R135) or the scope (R129) leaves it out; exchange stores always count. R338: `cflush` removes each lane's line from the core's L1
and instruction cache, `cdemote` takes back the hint of a present line, and `cpref` raises the class of a present line, which it uses (R102),
and brings an absent one; a lane of `cpref` past the limit does nothing. No memory changes. -/
def Obligations.FencesAndCaches : Prop :=
  (∀ e (c : BitVec 3),
    LaneEffects (.fence e c) always (fun b g _ l x =>
      { x with accessAfter := (b.stillPending x.accessAfter ++ fenceSet b x (g.agent l) c.toNat true ++ remoteCommands b g c.toNat).dedup }) ∧
    LaneEffects (.fenceRel e c) always (fun b g _ l x =>
      { x with storeAfter := (b.stillPending x.storeAfter ++ fenceSet b x (g.agent l) c.toNat false).dedup }) ∧
    LaneEffects (.fenceAcq e c) always (fun b g _ l x =>
      { x with acquireAfter := (b.stillPending x.acquireAfter ++ earlierLoads b (g.agent l)).dedup }) ∧
    ∀ (s : State) (x : Lane) (t : Agent) (id : Nat) (all : Bool),
      (id ∈ fenceSet s x t c.toNat all ↔ s.pending id = true ∧ ((c.toNat ≠ 0 ∧ id ∈ x.seen) ∨ id ∈ s.exchOf t ∨ ∃ o, (id, o) ∈ s.threadOps t ∧
        (all = true ∨ o.kind ≠ 2) ∧ (c.toNat = 0 → ∀ w, o = .write w → w.atom.isSome = true))) ∧
      (id ∈ earlierLoads s t ↔ ∃ o, (id, o) ∈ s.threadOps t ∧ o.kind ≠ 2 ∧ ∀ w, o = .write w → w.lanes ≠ [])) ∧
  (∀ e a (h : BitVec 2) (E : Nat → TlbEntry),
    let line (b : State) (g : Group) (v : Warp) (l : Nat) : Nat := placeOf b g v a false E l / 128
    let hit (b : State) (g : Group) (v : Warp) (k : Nat) : Prop := ∃ l ∈ g.lanes, k = l1Key g.core (line b g v l)
    Achieves (.cflush e a) (reaches a 1 6 false false E) (fun b g v t =>
      (∀ k, hit b g v k → t.mem.l1.find k = none) ∧ (∀ k, ¬ hit b g v k → t.mem.l1.find k = b.mem.l1.find k) ∧
      t.mem.icache = (b.mem.icache.filter fun x => !(x.1 / 2 ^ 61 == g.core && g.lanes.any fun l => x.2.pline == line b g v l)) ∧
      (∀ k, (t.warpAt k).map (fun w => { w with monitor := none }) = (b.warpAt k).map (fun w => { w with monitor := none })) ∧
      t = { b with
        mem := { b.mem with l1 := t.mem.l1, icache := t.mem.icache, notices := t.mem.notices, l1tlb := t.mem.l1tlb }
        thr := { b.thr with warps := t.thr.warps } }) ∧
    Achieves (.cdemote e a) (reaches a 1 0 false false E) (fun b g v t =>
      (∀ k, hit b g v k → t.mem.l1.find k = (b.mem.l1.find k).map fun x => { x with cls := if x.cls = 2 then 0 else x.cls }) ∧
      (∀ k, ¬ hit b g v k → t.mem.l1.find k = b.mem.l1.find k) ∧
      t = { b with mem := { b.mem with l1 := t.mem.l1, l1tlb := t.mem.l1tlb } }) ∧
    Achieves (.cpref e a h) (reaches a 1 0 false false E) (fun b g v t =>
      (∀ k, hit b g v k → ∀ x, b.mem.l1.find k = some x → ∃ age ≥ b.fresh, t.mem.l1.find k =
        some { x with cls := classAfter x.cls h.toNat, age := age }) ∧
      (∀ k, hit b g v k → b.mem.l1.find k = none → t.mem.l1.find k = none) ∧
      (∀ k, ¬ hit b g v k → t.mem.l1.find k = b.mem.l1.find k) ∧
      (∀ l ∈ g.lanes, b.mem.l1.find (l1Key g.core (line b g v l)) = none → ∃ id ≥ b.fresh, t.mem.ops.find id = some (.load
        ⟨g.agent l, placeOf b g v a false E l, 1, 0, 2, h.toNat, .discard, false, [], [], true, (E l).mirror,
          BitVec.ofNat 57 (segmentAddr b g v a false l), g.pc, g.rep⟩)) ∧
      (∀ id < b.fresh, t.mem.ops.find id = b.mem.ops.find id) ∧
      t = { b with
        mem := { b.mem with l1 := t.mem.l1, l1tlb := t.mem.l1tlb, ops := t.mem.ops, walkFaults := t.mem.walkFaults }
        fresh := t.fresh }) ∧
    Does (.cpref e a h)
      (fun b g v => ∀ l ∈ g.lanes, (readPair b g v l a.toNat).poison = false ∧ v.segs.glim.toNat < (readPair b g v l a.toNat).val.toNat + 1)
      (fun b _ _ => b))

/-- R339 to R346: the matrix instructions check their operands and post one command each, in issue order. The primary lanes agree on the format
word f. A tile's own commands raise a commit entry, or make the lanes wait, when the instruction has a lookahead; `acrd` delivers each lane's
word. A read of the permutation table counts as the thread's: later releases follow the writes that it saw (R136, R220). R87, R88: the check of
a layout against a limit is that every byte of every element and scale of the 128 lines, after the permutation, lies below it. -/
def Obligations.MatrixPosts : Prop :=
  (∀ e d a y m (t : BitVec 6) (n : BitVec 4) (la : BitVec 4) (f : Word) (p saw : List Nat),
    let F := f.toNat
    let tile (v : Warp) : Nat := v.segs.abase.toNat + t.toNat
    let keep (_ : Nat) (x : Lane) : Lane := x
    let noting (b : State) (x : Lane) : Lane := if saw = [] then x else { x with seen := (b.stillPending (x.seen ++ saw)).dedup }
    let commit (v : Warp) (_ : Nat) (x : Lane) : Lane := { x with commits := x.commits.filter fun c => c.dest != .tile (tile v) }
    let await (b : State) (v : Warp) (_ : Nat) (x : Lane) : Lane :=
      let x := commit v 0 x
      if v.delay la.toNat = 0 then { x with loads := x.loads ++ [b.fresh] }
      else { x with commits := x.commits ++ [⟨.tile (tile v), v.delay la.toNat + 1, none, 0, none, some b.fresh⟩] }
    let posts (i : Instr) (ok : Cond) (op : State → Group → Warp → MatOp) (change : State → Warp → Nat → Lane → Lane) : Prop :=
      Achieves i ok fun b g v t => MatrixPosted g v b t (op b g v) [] (change b v)
    let table : Cond := fun b g v => readTable b g v F = .ok p saw
    let offsets : Cond := fun b g v => ∀ l ∈ g.lanes, let o := readField b g v l a.toNat
      o.poison = false ∧ o.val.toNat % 4 = 0 ∧ o.val.toNat < 65536
    let offset (b : State) (g : Group) (v : Warp) (l : Nat) : Nat := (readField b g v l a.toNat).val.toNat
    posts (.bld e y m) (fun b g v => agree m f b g v ∧ formatLegal F = true ∧ layoutFits y (widthB F) (fmtDepth F) (fmtScl F) b g v ∧
        postable none b g v ∧ table b g v) (fun b g v => .bld (theLayout b g v y) F p) (fun b _ _ => noting b) ∧
    posts (.bsel e n m) (fun b g v => agree m f b g v ∧ formatLegal F = true ∧ n.toNat % fmtCount F = 0 ∧ postable none b g v)
      (fun _ _ _ => .bsel F n.toNat) (fun _ _ => keep) ∧
    (∀ zero : Bool, let i : Instr := if zero then .mmaz e t y m la else .mma e t y m la
      Achieves i (fun b g v => agree m f b g v ∧ formatLegal F = true ∧ layoutFits y (widthA F) (fmtDepth F) (fmtScl F) b g v ∧
          postable (some t) b g v ∧ table b g v)
        fun b g v s => MatrixPosted g v b s (.mma zero (tile v) (theLayout b g v y) F p) g.lanes fun l x => await b v l (noting b x)) ∧
    posts (.acz e t) (postable (some t)) (fun _ _ v => .acz (tile v)) (fun _ => commit) ∧
    posts (.acld e t y) (fun b g v => layoutFits y 32 128 false b g v ∧ postable (some t) b g v)
      (fun b g v => .acld (tile v) (theLayout b g v y)) (fun _ => commit) ∧
    posts (.acst e t y m) (fun b g v => agree m f b g v ∧ storeFormatLegal F = true ∧ layoutFits y (storeWidth F) 128 (fmtScl F) b g v ∧
        postable (some t) b g v) (fun b g v => .acst (tile v) (theLayout b g v y) F) (fun _ => commit) ∧
    Achieves (.acrd e d a la t) (fun b g v => offsets b g v ∧ postable (some t) b g v) (fun b g v s =>
      let second (g : Group) (l : Nat) : Bool := isScalarDest d.toNat && g.lanes.head? != some l
      let dest (l : Nat) : Dest := if second g l then .discard else destOf v l d.toNat 1
      MatrixPosted g v b s (.acrd (tile v) (g.lanes.map fun l => (l, offset b g v l, dest l))) g.lanes fun l x =>
        let x := commit v l x
        if v.delay la.toNat = 0 then { x with loads := x.loads ++ [b.fresh] }
        else if second g l then x
        else { x with commits := x.commits ++ [⟨dest l, v.delay la.toNat + 1, none, 0, none, some b.fresh⟩] }) ∧
    posts (.acwr e d a t) (fun b g v => offsets b g v ∧ cleanData d 1 b g v ∧ postable (some t) b g v)
      (fun b g v => .acwr (tile v) (g.lanes.map fun l => (offset b g v l, readField b g v l d.toNat))) (fun _ => commit) ∧
    posts (.acscl e d t) (fun b g v => agree d f b g v ∧ postable (some t) b g v) (fun _ _ v => .acscl (tile v) f) (fun _ => commit)) ∧
  (∀ (y : Layout) (w k lim : Nat) (scl : Bool), w ∈ [4, 8, 16, 32] → 32 ≤ k → k % 32 = 0 →
    (y.within w k scl lim = true ↔
      (∀ i < 128, ∀ c < k / 32, ∀ j < 4 * w, permute y.pmode (y.base + i * y.st0 + c * y.st1 + j) < lim) ∧
      (scl = true → ∀ i < 128, ∀ c < k / 32, permute y.pmode (y.base + y.st2 + i * (k / 32) + c) < lim)))

/-- R335, R82: a scratch atomic performs its lanes one after another at the issue, lowest first; each returns the value before its own update,
poisoned when a word of it was. The `red` forms return nothing. R334, R336: the new value of an atomic of n bytes from the old value w, the
operand b and the expected value x; integers wrap, `imin` and `imax` compare as signed numbers. -/
def Obligations.ScratchAtomics : Prop :=
  (∀ e d a b (w : Bool) (t : BitVec 2),
    let place (c : State) (g : Group) (v : Warp) (l : Nat) : Nat := 524288 * g.core + v.segs.sbase.toNat + (readField c g v l a.toNat).val.toNat
    let number (c : State) (g : Group) (v : Warp) (n : Nat) (r : BitVec 7) (l : Nat) : Nat :=
      ((List.range n).map fun i => (dataByte c g v r l i).toNat * 2 ^ (8 * i)).sum
    let ok (n : Nat) (cas : Bool) : Cond := fun c g v => inLocal a n (·.segs.slim.toNat) c g v ∧ inStoreOrder c g v ∧
      cleanData b (n / 4) c g v ∧ (cas = true → cleanData d (n / 4) c g v)
    let fold (op : AtomOp) (n : Nat) (c : State) (g : Group) (v : Warp) (ls : List Nat) : Mem :=
      atomFold op n (place c g v) (number c g v n b) (if op = .cas then number c g v n d else fun _ => 0) c.mem.scratch ls
    let result (op : AtomOp) (n : Nat) (c : State) (g : Group) (v : Warp) : State :=
      { c with mem := { c.mem with scratch := fold op n c g v g.lanes } }
    let returns (i : Instr) (op : AtomOp) (n : Nat) : Prop :=
      Achieves i (ok n (op == .cas)) fun c g v s => Wrote g v (result op n c g v) s d.toNat (n / 4) 0
        (fun l =>
          let m := fold op n c g v (lanesBefore g l)
          let old := ((List.range n).map fun i => (m.read (place c g v l + i)).toNat * 2 ^ (8 * i)).sum
          let bad := (List.range (n / 4 + 1)).any fun k => 4 * (place c g v l / 4 + k) < place c g v l + n && m.poisoned (place c g v l / 4 + k)
          (List.range (n / 4)).map fun k => ⟨BitVec.ofNat 32 (old / 2 ^ (32 * k)), bad⟩)
        fun _ => 0
    let reduces (i : Instr) (op : AtomOp) (n : Nat) : Prop := Does i (ok n false) (result op n)
    let n := if w then 8 else 4
    let fadd : AtomOp := if t.toNat = 0 then .fadd32 else if t.toNat = 1 then .faddH else .faddW
    returns (.atmAdd e d a b w true) .add n ∧ reduces (.redAdd e a b w true) .add n ∧
    returns (.atmImin e d a b w true) .imin n ∧ reduces (.redImin e a b w true) .imin n ∧
    returns (.atmNmin e d a b w true) .nmin n ∧ reduces (.redNmin e a b w true) .nmin n ∧
    returns (.atmImax e d a b w true) .imax n ∧ reduces (.redImax e a b w true) .imax n ∧
    returns (.atmNmax e d a b w true) .nmax n ∧ reduces (.redNmax e a b w true) .nmax n ∧
    returns (.atmAnd e d a b w true) .and n ∧ reduces (.redAnd e a b w true) .and n ∧
    returns (.atmOr e d a b w true) .or n ∧ reduces (.redOr e a b w true) .or n ∧
    returns (.atmXor e d a b w true) .xor n ∧ reduces (.redXor e a b w true) .xor n ∧
    returns (.atmXchg e d a b w true) .xchg n ∧ returns (.atmCas e d a b w true) .cas n ∧
    returns (.atmFaddS e d a b t) fadd 4 ∧ reduces (.redFaddS e a b t) fadd 4) ∧
  (∀ (n w b x : Nat), n = 4 ∨ n = 8 → w < 2 ^ (8 * n) → b < 2 ^ (8 * n) →
    let signed (z : Nat) : Int := if z < 2 ^ (8 * n - 1) then z else (z : Int) - 2 ^ (8 * n)
    atomValue .add n w b x = (w + b) % 2 ^ (8 * n) ∧
    signed (atomValue .imin n w b x) = min (signed w) (signed b) ∧ signed (atomValue .imax n w b x) = max (signed w) (signed b) ∧
    (atomValue .imin n w b x = w ∨ atomValue .imin n w b x = b) ∧ (atomValue .imax n w b x = w ∨ atomValue .imax n w b x = b) ∧
    atomValue .nmin n w b x = min w b ∧ atomValue .nmax n w b x = max w b ∧
    (∀ k, (atomValue .and n w b x).testBit k = (w.testBit k && b.testBit k)) ∧
    (∀ k, (atomValue .or n w b x).testBit k = (w.testBit k || b.testBit k)) ∧
    (∀ k, (atomValue .xor n w b x).testBit k = (w.testBit k != b.testBit k)) ∧
    atomValue .xchg n w b x = b ∧ atomValue .cas n w b x = (if w = x then b else w))

/-- R334, R335, R326: a global atomic puts one operation for each lane in flight, to be applied in the write queue of its home slice; the
lanes of a form that returns a value wait for it. No memory changes at the issue. -/
def Obligations.GlobalAtomics : Prop := ∀ e d a b (w : Bool) (t : BitVec 2) (E : Nat → TlbEntry),
  let number (c : State) (g : Group) (v : Warp) (n : Nat) (r : BitVec 7) (l : Nat) : Nat :=
    ((List.range n).map fun i => (dataByte c g v r l i).toNat * 2 ^ (8 * i)).sum
  let atomics (i : Instr) (op : AtomOp) (n : Nat) (returns : Bool) : Prop :=
    Achieves i (fun c g v => reaches a n 2 false true E c g v ∧ cleanData b (n / 4) c g v ∧ (op = .cas → cleanData d (n / 4) c g v) ∧
        c.portStopped g.core = false ∧ ∀ l ∈ g.lanes, queueHasRoom c (placeOf c g v a false E l / 128) true = true) fun c g v s =>
      let second (l : Nat) : Bool := isScalarDest d.toNat && g.lanes.head? != some l
      InFlight g v c s
        (fun l o => ∃ after, o = .write ⟨g.agent l, placeOf c g v a false E l, List.replicate n 0, false,
          some (op, number c g v n b l, if op = .cas then number c g v n d l else 0),
          if returns = true ∧ second l = false then destOf v l d.toNat (n / 4) else .discard,
          if returns = false then [] else if isScalarDest d.toNat ∧ second l = false then g.lanes else [l],
          none, (E l).kind, (E l).mirror, none, after, .port, g.pc, v.lsn, v.rings.length, v.ctx.toNat, none⟩)
        (fun id l x => if returns = false then x
          else if second l then { x with loads := x.loads ++ [c.fresh, id] } else { x with loads := x.loads ++ [id] })
  let n := if w then 8 else 4
  let fadd : AtomOp := if t.toNat = 0 then .fadd32 else if t.toNat = 1 then .faddH else .faddW
  atomics (.atmAdd e d a b w false) .add n true ∧ atomics (.redAdd e a b w false) .add n false ∧
  atomics (.atmImin e d a b w false) .imin n true ∧ atomics (.redImin e a b w false) .imin n false ∧
  atomics (.atmNmin e d a b w false) .nmin n true ∧ atomics (.redNmin e a b w false) .nmin n false ∧
  atomics (.atmImax e d a b w false) .imax n true ∧ atomics (.redImax e a b w false) .imax n false ∧
  atomics (.atmNmax e d a b w false) .nmax n true ∧ atomics (.redNmax e a b w false) .nmax n false ∧
  atomics (.atmAnd e d a b w false) .and n true ∧ atomics (.redAnd e a b w false) .and n false ∧
  atomics (.atmOr e d a b w false) .or n true ∧ atomics (.redOr e a b w false) .or n false ∧
  atomics (.atmXor e d a b w false) .xor n true ∧ atomics (.redXor e a b w false) .xor n false ∧
  atomics (.atmXchg e d a b w false) .xchg n true ∧ atomics (.atmCas e d a b w false) .cas n true ∧
  atomics (.atmFaddG e d a b t) fadd 4 true ∧ atomics (.redFaddG e a b t) fadd 4 false

/-- R353, R183, R184, R142, R218, R234: a command whose descriptor offset is agreed, aligned and within the limit, and whose words are clean,
enters the core's copy queue with the next serial while the queue, the shares and the counter have room; the counter of its class rises and the
ring level takes the class. A full queue or counter makes the lanes wait. R363, R197: `chap` raises the tail of a chain's ring by the agreed
count in one access of its control block, behind every earlier access of the thread, as a write to the page of the control block; it waits
while the ring has no room for the entries. A count of 0, or a block read with poison, changes no byte. -/
def Obligations.CommandPosts : Prop :=
  (∀ e a (o : Word),
    let at' (g : Group) (v : Warp) : Nat := 524288 * g.core + v.segs.sbase.toNat + o.toNat
    let legal : Cond := fun b g v => agree a o b g v ∧ o.toNat % 64 = 0 ∧ o.toNat + 64 ≤ v.segs.slim.toNat ∧
      (b.mem.scratch.readPoison 4 (at' g v) 64).2 = false ∧ inOrder b g v
    let room (cls : Nat) : Cond := fun b g v => v.counter cls < 63 ∧ copyFull b g v = false
    let posts (i : Instr) (kind cls : Nat) (raise : Warp → Warp) : Prop :=
      Achieves i (fun b g v => legal b g v ∧ room cls b g v) (fun b g v t => ∃ c : CopyCmd,
        t = ({ b with eng := { b.eng with copy := b.eng.copy ++ [c] }, fresh := b.fresh + 1 } : State).onWarp g.key (fun w => raise (w.markClass cls)) ∧
        c.id = b.fresh ∧ c.kind = kind ∧ c.core = g.core ∧ c.warp = g.key ∧ c.wg = v.wg ∧ c.ctx = v.ctx.toNat ∧ c.segs = v.segs ∧
        c.system = v.system ∧ c.status = none ∧ c.engine = none ∧ c.slot = none ∧ c.moved = 0 ∧ c.pc = g.pc ∧
        (∀ k < 8, c.desc[k]? = some (BitVec.ofNat 64 (((List.range 8).map fun j =>
          (b.mem.scratch.read (at' g v + 8 * k + j)).toNat * 2 ^ (8 * j)).sum))) ∧
        c.after = postAfter b g v (commandScope b g.core kind c.desc)) ∧
      Waits i (fun b g v => legal b g v ∧ ¬ room cls b g v)
    let copy (w : Warp) : Warp := { w with cntCopy := w.cntCopy + 1 }
    posts (.xcp e a) 0 0 copy ∧ posts (.xget e a) 1 0 copy ∧ posts (.xput e a) 2 0 copy ∧ posts (.xputRel e a) 3 0 copy ∧
    posts (.xred e a) 4 0 copy ∧ posts (.xsig e a) 5 0 copy ∧ posts (.xgth e a) 6 2 (fun w => { w with cntGth := w.cntGth + 1 }) ∧
    posts (.xrsc e a) 7 3 (fun w => { w with cntCol := w.cntCol + 1 })) ∧
  (∀ e a b (o : DWord) (n : Word) (E : Nat → TlbEntry) (block : List Byte),
    let number (k m : Nat) : Nat := ((List.range m).map fun i => (block.getD (k + i) 0).toNat * 2 ^ (8 * i)).sum
    let used : Nat := (number 24 4 + 2 ^ 32 - number 16 4 + n.toNat) % 2 ^ 32
    let lead (g : Group) : Nat := g.lanes.headD 0
    let ready (bad : Bool) : Cond := fun c g v => agreePair a o c g v ∧ agree b n c g v ∧ reaches a 64 2 false true E c g v ∧
      allPerformed c g v ∧ block.length = 64 ∧
      readNow c g v (lead g) (placeOf c g v a false E (lead g)) 64 (E (lead g)).kind = some (block, bad)
    let taken (c : State) (g : Group) (v : Warp) : State :=
      (c.fillL1Tlb g.core (E (lead g))).tookPlaces g v (lead g) [(placeOf c g v a false E (lead g), 64)]
    Does (.chap e a b) (fun c g v => ready false c g v ∧ n ≠ 0 ∧ used ≤ 2 ^ (number 8 1 % 16 + 4)) (fun c g v =>
      (taken c g v).pageWrite (E (lead g)) (segmentAddr c g v a false (lead g) + 24) (leBytes 8 ((number 24 4 + n.toNat) % 2 ^ 32))) ∧
    Does (.chap e a b) (fun c g v => ready true c g v ∨ ready false c g v ∧ n = 0) taken ∧
    Waits (.chap e a b) (fun c g v => ready false c g v ∧ n ≠ 0 ∧ 2 ^ (number 8 1 % 16 + 4) < used))

/-- R365: `wcnt` completes when the counter of its class is at most k and changes nothing; otherwise its lanes wait. R366: `syarm` sets the
target and clears the count of an aligned sync word within the limit, `syadd` makes one arrival once the thread's accesses are performed,
`sywait` waits for a generation and traps on a poisoned one. -/
def Obligations.SyncWordInstructions : Prop :=
  (∀ e (c : BitVec 2) (k : BitVec 6),
    let count (v : Warp) : Nat := match c.toNat with
      | 0 => v.cntCopy.toNat
      | 1 => v.cntMat.toNat
      | 2 => v.cntGth.toNat
      | _ => v.cntCol.toNat
    Does (.wcnt e c k) (fun _ _ v => count v ≤ k.toNat) (fun b _ _ => b) ∧ Waits (.wcnt e c k) (fun _ _ v => k.toNat < count v)) ∧
  (∀ e a b (o n : Word),
    let at' (g : Group) (v : Warp) : Nat := 524288 * g.core + v.segs.sbase.toNat + o.toNat
    let legal : Cond := fun c g v => agree a o c g v ∧ agree b n c g v ∧ o.toNat % 16 = 0 ∧ o.toNat + 16 ≤ v.segs.slim.toNat ∧
      v.segs.sbase.toNat % 16 = 0 ∧ c.mem.scratch.wf = true
    let acquires : Cond := fun c g v => legal c g v ∧ inOrder c g v
    let gen (c : State) (g : Group) (v : Warp) : Nat :=
      ((List.range 4).map fun i => (c.mem.scratch.read (at' g v + 8 + i)).toNat * 2 ^ (8 * i)).sum
    let bad (c : State) (g : Group) (v : Warp) : Bool := c.mem.scratch.poisoned (at' g v / 4 + 2)
    let open' (c : State) (g : Group) (v : Warp) : Prop := (gen c g v + 2 ^ 32 - n.toNat) % 2 ^ 32 < 2 ^ 31
    Achieves (.syarm e a b) (fun c g v => legal c g v ∧ inStoreOrder c g v) (fun c g v t =>
      t = { c with mem := { c.mem with scratch := t.mem.scratch } } ∧
      (∀ x, t.mem.scratch.read x = if at' g v ≤ x ∧ x < at' g v + 4 then BitVec.ofNat 8 (n.toNat / 2 ^ (8 * (x - at' g v)))
        else if at' g v + 4 ≤ x ∧ x < at' g v + 8 then 0 else c.mem.scratch.read x) ∧
      ∀ k, t.mem.scratch.poisoned k = (c.mem.scratch.poisoned k && k != at' g v / 4 && k != at' g v / 4 + 1)) ∧
    Does (.syadd e a b) (fun c g v => legal c g v ∧ allPerformed c g v)
      (fun c g v => c.arrive g.core (v.segs.sbase.toNat + o.toNat) n.toNat) ∧
    Does (.sywait e a b) (fun c g v => acquires c g v ∧ bad c g v = false ∧ open' c g v) (fun c _ _ => c) ∧
    Waits (.sywait e a b) (fun c g v => acquires c g v ∧ bad c g v = false ∧ ¬ open' c g v) ∧
    Traps (.sywait e a b) (fun c g v => acquires c g v ∧ bad c g v = true) (fun _ g _ => ⟨0x0D, g.lanes, 2⟩))

/-- R236: an arrival of a bytes at a sync word with a clean target, count and generation adds a to the count, modulo 2^32; while the count
reaches a target that is not 0 it subtracts the target and raises the generation, modulo 2^32, and `tstamp` takes `sr.ref`. A poisoned
field takes nothing. No other byte changes. -/
def Obligations.Arrivals : Prop := ∀ (s : State) (core off a : Nat), s.mem.scratch.wf = true → off % 16 = 0 →
  let at' := 524288 * core + off
  let field (m : Mem) (k : Nat) : Nat := ((List.range 4).map fun i => (m.read (at' + 4 * k + i)).toNat * 2 ^ (8 * i)).sum
  let m := s.mem.scratch
  let t := s.arrive core off a
  let n := t.mem.scratch
  let total := (field m 1 + a) % 2 ^ 32
  t = { s with mem := { s.mem with scratch := n } } ∧
  (∀ x, x < at' ∨ at' + 16 ≤ x → n.read x = m.read x) ∧ field n 0 = field m 0 ∧
  (m.poisoned (at' / 4) = true ∨ m.poisoned (at' / 4 + 1) = true ∨ m.poisoned (at' / 4 + 2) = true → t = s) ∧
  (m.poisoned (at' / 4) = false → m.poisoned (at' / 4 + 1) = false → m.poisoned (at' / 4 + 2) = false →
    (field m 0 = 0 ∨ total < field m 0 → field n 1 = total ∧ field n 2 = field m 2 ∧ field n 3 = field m 3) ∧
    (field m 0 ≠ 0 → field m 0 ≤ total → ∃ turns > 0, field n 1 + turns * field m 0 = total ∧ field n 1 < field m 0 ∧
      field n 2 = (field m 2 + turns) % 2 ^ 32 ∧ field n 3 = s.clk.ref.toNat % 2 ^ 32))

/-- R237: a generation is reached when its distance from the word's, modulo 2^32 or 2^16, is less than half of the modulus; a
waiter that is passed by that half or more is not released. -/
def Obligations.GenerationReached : Prop := ∀ gen g : Nat, gen < 2 ^ 32 → g < 2 ^ 32 →
  (reached 32 gen g = true ↔ ((gen : Int) - g) % 2 ^ 32 < 2 ^ 31) ∧
  (g < 2 ^ 16 → (reached 16 (gen % 2 ^ 16) g = true ↔ ((gen % 2 ^ 16 : Nat) - (g : Int)) % 2 ^ 16 < 2 ^ 15)) ∧
  (∀ past, 2 ^ 31 ≤ past → past < 2 ^ 32 → reached 32 ((g + past) % 2 ^ 32) g = false) ∧
  ∀ past, g < 2 ^ 16 → 2 ^ 15 ≤ past → past < 2 ^ 16 → reached 16 ((g + past) % 2 ^ 16) g = false

/-- R368, R369: `mon` arms the line of the byte named and loads it; `mwait` completes and disarms when nothing is armed or the monitor is
woken, else it parks the group's lanes with the end of the timeout. -/
def Obligations.Monitors : Prop := ∀ e a (o : DWord) (n : Word) (E : Nat → TlbEntry),
  let place (b : State) (g : Group) (v : Warp) : Nat := placeOf b g v a false E (g.lanes.headD 0)
  let va (b : State) (g : Group) (v : Warp) : VAddr := BitVec.ofNat 57 (segmentAddr b g v a false (g.lanes.headD 0))
  let quiet (m : Option Monitor) : Prop := ∀ x, m = some x → x.hit = true
  Achieves (.mon e a) (fun b g v => agreePair a o b g v ∧ reaches a 1 0 false false E b g v) (fun b g v t =>
    (∃ after, t.mem.ops.find b.fresh = some (.load ⟨g.agent (g.lanes.headD 0), place b g v, 1, 0, (E (g.lanes.headD 0)).kind, 0, .discard,
      false, [], after, false, (E (g.lanes.headD 0)).mirror, va b g v, g.pc, g.rep⟩)) ∧
    (∀ id < b.fresh, t.mem.ops.find id = b.mem.ops.find id) ∧
    t.warpAt g.key = some { v with monitor := some ⟨place b g v / 128, va b g v, false⟩ } ∧
    (∀ k, k ≠ g.key → t.warpAt k = b.warpAt k) ∧
    t = { b with
      mem := { b.mem with ops := t.mem.ops, l1tlb := t.mem.l1tlb }
      thr := { b.thr with warps := t.thr.warps }
      fresh := b.fresh + 1 }) ∧
  Does (.mwait e a) (fun b g v => agree a n b g v ∧ quiet v.monitor) (fun b g _ => b.onWarp g.key fun w => { w with monitor := none }) ∧
  Does (.mwait e a) (fun b g v => agree a n b g v ∧ ¬ quiet v.monitor) (fun b g _ =>
    (b.onLanes g.key g.lanes fun x => { x with pc := x.pc - 4, rep := g.rep, park := some ⟨.mwait e a, 0, false⟩ }).onWarp g.key fun w =>
      { w with mwait := if n = 0 then none else some (b.clk.ref.toNat + n.toNat) })

/-- R352, R367, R239: a warp whose lanes have all come arrives at the barrier that its `bar` names, with the form of a gang's; outside a gang
every form joins the work-group's. A gang arrival of the other form raises 0x09 and arrives nowhere. R239, R140: the barrier of a work-group
completes when every unexited warp of it has arrived: the count clears, the phase flips, and each lane of the warps that stands parked at the
`bar` passes it, its later accesses behind all that the barrier orders; a warp that a rollback has taken back stays where it is. Otherwise
nothing changes. -/
def Obligations.Barriers : Prop :=
  (∀ e n,
    let arrived (b : State) (g : Group) (kind : Nat) : State :=
      (b.onLanes g.key g.lanes fun x => { x with pc := x.pc - 4, rep := 0 }).onWarp g.key fun w => { w with barrier := kind }
    let ofGroup (b : State) (g : Group) (v : Warp) : State :=
      settleGroup ((arrived b g 1).onGroup v.wg fun x => { x with barCount := x.barCount + 1 }) v.wg
    let ofGang (swap : Bool) (b : State) (g : Group) (_ : Warp) : State :=
      settleGang ((arrived b g (if swap then 3 else 2)).onGang n fun x => { x with count := x.count + 1, form := some swap }) n
    let gang (b : State) (v : Warp) : Option Nat := (b.work.groups.find v.wg).bind (·.gang)
    let agrees (swap : Bool) : Cond := fun b _ v => gang b v = some n ∧ ∀ x, b.work.gangs.find n = some x → x.form = none ∨ x.form = some swap
    let differs (swap : Bool) : Cond := fun b g v => allParked b g v ∧ gang b v = some n ∧
      ∃ x, b.work.gangs.find n = some x ∧ x.form = some (!swap)
    Converges (.barWg e) always ofGroup ∧
    Converges (.barGang e) (agrees false) (ofGang false) ∧ Converges (.barX e) (agrees true) (ofGang true) ∧
    Converges (.barGang e) (fun b _ v => gang b v = none) ofGroup ∧ Converges (.barX e) (fun b _ v => gang b v = none) ofGroup ∧
    Traps (.barGang e) (differs false) (fun _ g _ => ⟨0x09, g.lanes, 0⟩) ∧ Traps (.barX e) (differs true) (fun _ g _ => ⟨0x09, g.lanes, 0⟩) ∧
    ParksUntilAll (.barWg e) ∧ ParksUntilAll (.barGang e) ∧ ParksUntilAll (.barX e)) ∧
  (∀ (s : State) (wg : Nat) (x : WorkGroup), s.work.groups.find wg = some x →
    let keys := residentKeys s x
    let there := keys.filter fun k => (s.warpAt k).any fun w => w.barrier != 0
    let t := settleGroup s wg
    (x.barCount = 0 ∨ x.barCount < keys.length → t = s) ∧
    (0 < x.barCount → keys.length ≤ x.barCount →
      t.work.groups.find wg = some { x with barCount := 0, barPhase := !x.barPhase } ∧
      (∀ k, k ∉ there → t.warpAt k = s.warpAt k) ∧
      ∀ k ∈ there, ∀ w, s.warpAt k = some w → ∃ u, t.warpAt k = some u ∧ u = { w with lanes := u.lanes, barrier := 0 } ∧
        u.lanes.length = w.lanes.length ∧ ∀ l, l < w.lanes.length →
          ((¬ ∃ p, (w.lane l).park = some p ∧ isBarrier p.instr = true) → u.lane l = w.lane l) ∧
          ((∃ p, (w.lane l).park = some p ∧ isBarrier p.instr = true) → u.lane l = { w.lane l with
            park := none, pc := (w.lane l).pc + 4, rep := 0, accessAfter := (u.lane l).accessAfter } ∧
            (∀ id, id ∈ barrierSet s there 0 → id ∈ (u.lane l).accessAfter) ∧
            ∀ id, id ∈ s.stillPending (w.lane l).accessAfter → id ∈ (u.lane l).accessAfter)))

/-- R370: `ropen` pushes a level and its register block. The block begins with the header and holds each physical lane's masked registers,
their poison, its predicates, flags and window, and its opening point; the level keeps the opening point of the lowest lane. R372: `rclose`
discards the innermost level once the counters of its classes are 0 and nothing of the warp is poisoned; its classes pass to the enclosing
level, and after the outermost the fill pointer returns to the log base. It waits for the counters, and raises 0x01 without a level. R371,
R219: `rkeep.g` and `rkeep.s` read b bytes at each lane's offset and push one kept record for each lane with b above 0, in the order of the
lanes, at the fill pointer, once the loads before it may pass (R130, R131); without a level they keep nothing; records that would pass the log
limit raise 0x0B. -/
def Obligations.Rings : Prop :=
  (∀ e a b (mask : Word) (pair : DWord),
    let marked : List Nat := (List.range 32).filter fun k => mask.getLsbD k
    let size : Nat := 16 + 32 * (4 * marked.length + 16)
    let outer (v : Warp) : Bool := v.rings.isEmpty
    let base (v : Warp) : Nat := if outer v then pair.toNat % 2 ^ 32 else v.logBase.toNat
    let limit (v : Warp) : Nat := if outer v then pair.toNat / 2 ^ 32 else v.logLimit
    let fill (v : Warp) : Nat := if outer v then pair.toNat % 2 ^ 32 else v.logFill
    let legal : Cond := fun b' g v => agree a mask b' g v ∧ agreePair b pair b' g v ∧ (∀ x ∈ v.lanes, x.commits = []) ∧
      (∀ l ∈ g.lanes, ∀ k ∈ marked, 32 * (v.lane l).window + k < v.size) ∧
      (outer v = true → base v % 16 = 0 ∧ limit v % 16 = 0 ∧ base v ≤ limit v ∧ limit v ≤ v.segs.slim.toNat) ∧
      v.rings.length < 8 ∧ fill v + size ≤ limit v
    let record (s : State) (g : Group) (u : Warp) (l : Nat) : List Byte :=
      let x := u.lane l
      let reg (k : Nat) : PWord := s.vreg g.core g.slot u l (32 * x.window + k)
      if x.present = false then List.replicate (4 * marked.length + 16) 0
      else (marked.flatMap fun k => leBytes 4 (reg k).val.toNat) ++
        leBytes 4 ((marked.map fun k => if (reg k).poison then 2 ^ k else 0).sum) ++
        leBytes 4 (x.preds.toNat + 2 ^ 7 * x.predPoison.toNat + 2 ^ 14 * x.flags.toNat + 2 ^ 19 * x.window) ++ leBytes 8 x.pc.toNat
    Converges (.ropen e a b) legal (fun s g v =>
      let s := s.onLanes g.key g.lanes fun x => { x with park := none }
      let u := (s.warpAt g.key).getD v
      let low := u.lane (g.lanes.headD 0)
      let block := (List.replicate 16 (0 : Byte)) ++ (List.range 32).flatMap (record s g u)
      (s.onScratch fun m => m.writeClean 4 (524288 * g.core + (v.segs.sbase.toNat + fill v)) block).onWarp g.key fun w => { w with
        rings := w.rings ++ [⟨low.pc, mask, low.window, fill v, 0, 0⟩]
        logBase := BitVec.ofNat 57 (base v)
        logLimit := limit v
        logFill := fill v + size
        blocks := (if outer v then [] else w.blocks) ++ [(fill v, size)] }) ∧
    Traps (.ropen e a b) (fun s g v => allParked s g v ∧ agree a mask s g v ∧ agreePair b pair s g v ∧ (∀ x ∈ v.lanes, x.commits = []) ∧
        (∀ l ∈ g.lanes, ∀ k ∈ marked, 32 * (v.lane l).window + k < v.size) ∧ 0 < v.rings.length ∧ v.rings.length < 8 ∧ v.logLimit < v.logFill + size)
      (fun _ g v => ⟨0x0B, g.lanes, 2 * v.logFill⟩) ∧
    ParksUntilAll (.ropen e a b)) ∧
  (∀ e,
    let idle (v : Warp) (m : BitVec 4) : Prop :=
      (m.getLsbD 0 = true → v.cntCopy = 0) ∧ (m.getLsbD 1 = true → v.cntMat = 0) ∧ (m.getLsbD 2 = true → v.cntGth = 0) ∧
        (m.getLsbD 3 = true → v.cntCol = 0)
    let clean : Cond := fun s g v => (∀ x ∈ v.sregs, x.poison = false) ∧ (∀ l ∈ g.lanes, (v.lane l).predPoison = 0) ∧
      ∀ key r, (key, r) ∈ s.thr.regs → r.poison = true → ∀ l ∈ g.lanes,
        ¬ (key % packageLanes % 33 = v.phys l ∧ inRange g.core g.slot (32 * v.base) v.size key = true)
    Converges (.rclose e) (fun s g v => clean s g v ∧ ∃ r, v.rings.getLast? = some r ∧ idle v r.classes) (fun s g v =>
      let r := v.rings.getLastD ⟨0, 0, 0, 0, 0, 0⟩
      let up : List RingLevel := match v.rings.dropLast.getLast? with
        | none => []
        | some p => v.rings.dropLast.dropLast ++ [{ p with classes := p.classes ||| r.classes }]
      (s.onLanes g.key g.lanes fun x => { x with park := none }).onWarp g.key fun w => { w with
        rings := up
        logFill := if up = [] then w.logBase.toNat else w.logFill
        blocks := if up = [] then [] else w.blocks }) ∧
    Waits (.rclose e) (fun s g v => allParked s g v ∧ ∃ r, v.rings.getLast? = some r ∧ ¬ idle v r.classes) ∧
    Traps (.rclose e) (fun s g v => allParked s g v ∧ v.rings = [])
      (fun _ g _ => ⟨0x01, g.lanes, wordOf (.rclose e) + 2 ^ 32⟩) ∧
    ParksUntilAll (.rclose e)) ∧
  (∀ e a b (E : Nat → Nat → TlbEntry) (B : Nat → Nat → List Byte),
    let count (s : State) (g : Group) (v : Warp) (l : Nat) : Nat := (readField s g v l b.toNat).val.toNat
    let clean (s : State) (g : Group) (v : Warp) (l : Nat) : Prop :=
      (readField s g v l b.toNat).poison = false ∧ count s g v l ≤ 256
    let offset (s : State) (g : Group) (v : Warp) (l : Nat) : Nat := (readField s g v l a.toNat).val.toNat
    let scratchAt (s : State) (g : Group) (v : Warp) (l : Nat) : Nat := 524288 * g.core + (v.segs.sbase.toNat + offset s g v l)
    let reachesS : Cond := fun s g v => ∀ l ∈ g.lanes, clean s g v l ∧ (readField s g v l a.toNat).poison = false ∧
      offset s g v l + count s g v l ≤ v.segs.slim.toNat ∧ clearWay s g v l ∧ s.stillPending (v.lane l).loadAfter = [] ∧
      ∀ x < count s g v l, s.mem.scratch.poisoned ((scratchAt s g v l + x) / 4) = false
    let reachesG : Cond := fun s g v => ∀ l ∈ g.lanes, clean s g v l ∧ (readPair s g v l a.toNat).poison = false ∧
      (readPair s g v l a.toNat).val.toNat + count s g v l ≤ v.segs.glim.toNat ∧
      ∀ p ∈ pagePieces (segmentAddr s g v a false l) (count s g v l),
        translateFor s g.core v.ctx.toNat 10 p.1 0 v.system = (none, some (E l p.1)) ∧
        readNow s g v l (s.locate (E l p.1) p.1) p.2 (strictKind (keepPages s g v (segmentAddr s g v a false l) (count s g v l))) =
          some (B l p.1, false)
    let record (addr space l : Nat) (bytes : List Byte) : List Byte :=
      if bytes = [] then []
      else leBytes 8 (addr % 2 ^ 57 + 2 ^ 57 * space + 2 ^ 58 * l) ++ leBytes 8 (1 + 4 * (bytes.length - 1)) ++ bytes ++
        List.replicate ((bytes.length + 15) / 16 * 16 - bytes.length) 0
    let recordsS (s : State) (g : Group) (v : Warp) : List Byte := g.lanes.flatMap fun l =>
      record (offset s g v l) 1 l ((List.range (count s g v l)).map fun x => s.mem.scratch.read (scratchAt s g v l + x))
    let recordsG (s : State) (g : Group) (v : Warp) : List Byte := g.lanes.flatMap fun l =>
      let va := segmentAddr s g v a false l
      record va 0 l ((pagePieces va (count s g v l)).flatMap fun p => B l p.1)
    let seen (s : State) (g : Group) (v : Warp) : State := g.lanes.foldl (fun t l =>
      t.tookPlaces g v l (keepPlaces t g v (segmentAddr s g v a false l) (count s g v l))) s
    let keeps (i : Instr) (legal : Cond) (records : State → Group → Warp → List Byte) (taken : State → Group → Warp → State) : Prop :=
      Does i (fun s g v => legal s g v ∧ v.rings = []) (fun s _ _ => s) ∧
      Does i (fun s g v => legal s g v ∧ v.rings ≠ [] ∧ v.logFill + (records s g v).length ≤ v.logLimit)
        (fun s g v => ((taken s g v).onScratch fun m => m.writeClean 4 (524288 * g.core + (v.segs.sbase.toNat + v.logFill)) (records s g v)).onWarp
          g.key fun w => { w with logFill := w.logFill + (records s g v).length }) ∧
      Traps i (fun s g v => g.lanes ≠ [] ∧ legal s g v ∧ v.rings ≠ [] ∧ v.logLimit < v.logFill + (records s g v).length)
        (fun _ g v => ⟨0x0B, g.lanes, 2 * v.logFill⟩)
    keeps (.rkeepS e a b) reachesS recordsS (fun s _ _ => s) ∧ keeps (.rkeepG e a b) reachesG recordsG seen)

/-- R373, R248: `trap` raises 0x10 in every lane of the group, with the lowest lane's operand as the detail; its poison is ignored. R374, R352:
once the handler lanes stand at `eret` words, the action with the highest code of them is taken; outside a handler it is illegal. R251, R253:
`resume` puts the lanes of `sr.emask` at the PC that `sr.epc` holds (57 bits, of which the lowest two are 0: R49, log 47) with the repeat index
`sr.erep`, clears the system-mode bit and the latch and releases the held lanes; the halt of the work-group ends when no other warp of it holds
a trap. -/
def Obligations.HandlerReturn : Prop :=
  (∀ e a,
    Traps (.trap e a) (fun _ g _ => g.lanes ≠ [])
      (fun b g v => ⟨0x10, g.lanes, (readField b g v (g.lanes.headD 0) a.toNat).val.toNat⟩)) ∧
  (∀ e,
    let code : Instr → Nat
      | .eretResume _ => 0
      | .eretRetry _ => 1
      | .eretEscalate _ => 2
      | _ => 3
    ∀ i ∈ [Instr.eretResume e, .eretRetry e, .eretEscalate e, .eretKill e],
      Converges i (fun _ _ v => v.inHandler = true) (fun b g v =>
        eretAction (b.onLanes g.key g.lanes fun x => { x with park := none }) g.key
          ((g.lanes.map fun l => match (v.lane l).park with
            | some p => code p.instr
            | none => 0).foldl max 0)) ∧
      Traps i (fun _ g v => g.lanes ≠ [] ∧ v.inHandler = false) (fun _ g _ => ⟨0x01, g.lanes, wordOf i + 2 ^ 32⟩)) ∧
  (∀ (s : State) (k : Nat) (w : Warp), s.warpAt k = some w → w.protected' = false → w.lanes.length = 32 →
    w.inHandler = true →
    let t := resumeWarp s k
    (∀ x, s.work.groups.find w.wg = some x → ∀ j ∈ groupKeys x, ∀ u, s.warpAt j = some u → j ≠ k → u.stop ≠ .trapped) →
    ∃ u, t.warpAt k = some u ∧ u.system = false ∧ u.inHandler = false ∧ u.latch = false ∧ u.stop = .none ∧
      (∀ l < 32, u.lane l = if w.trap.emask.getLsbD l then
          { w.lane l with held := false, pc := w.trap.epc.truncate 57 &&& ~~~3#57, rep := w.trap.erep.toNat, park := none }
        else { w.lane l with held := false }) ∧
      (∀ x, t.work.groups.find w.wg = some x → x.halt = none) ∧
      u.sregs = w.sregs ∧ u.trap = w.trap ∧ u.rings = w.rings ∧ t.thr.regs = s.thr.regs ∧ t.mem = s.mem)

/-- R249, R250, R215: trap entry outside a double trap saves cause, PC, lanes, repeat index and detail, records no skid issues with the run's
issue count, sets the latch and ends the run; under hardware dispatch with an entry PC the named lanes start there in system mode and the
others are held with their state unchanged. No register, no memory and no predicate of the warp changes. R250, R259: a precise trap in a
handler whose latch is set overwrites no trap register: report 0x27 with the second trap's PC and detail is written, and the work-group is
killed with reason 2. -/
def Obligations.TrapEntry : Prop :=
  (∀ (s : State) (k : Nat) (t : TrapInfo) (pc : VAddr) (rep : Nat) (w : Warp) (x : WorkGroup) (y : Grid),
    s.warpAt k = some w → (w.inHandler = false ∨ w.latch = false) → w.protected' = false → w.lanes.length = 32 → t.lanes.Nodup →
    (∀ l ∈ t.lanes, l < 32) → s.work.groups.find w.wg = some x → (x.halt = none ∨ w.inHandler = true) →
    s.work.grids.find x.grid = some y → k ∈ groupKeys x →
    let r := trapEntry s k t pc rep
    let issues : Nat := match w.run with
      | some n => n.issues
      | none => 0
    r.thr.regs = s.thr.regs ∧
    (∃ z, r.work.groups.find w.wg = some z ∧ z.halt = some (t.code, k / 8 % 8, k % 8)) ∧
    ∃ u, r.warpAt k = some u ∧ u.latch = true ∧ u.run = none ∧ u.sregs = w.sregs ∧
      u.trap.cause = BitVec.ofNat 8 t.code ∧ u.trap.epc = pc.zeroExtend 64 ∧ u.trap.erep = BitVec.ofNat 6 rep ∧
      (∀ l < 32, u.trap.emask.getLsbD l = true ↔ l ∈ t.lanes) ∧
      u.trap.einfo = BitVec.ofNat 64 t.einfo ∧ u.trap.eskid = BitVec.ofNat 10 (32 * issues) ∧
      (s.hostMode 4 = false → y.eff.handler ≠ 0 → u.inHandler = true ∧ u.system = true ∧ r.mem = s.mem ∧
        ∀ l < 32, if l ∈ t.lanes then (u.lane l).pc = y.eff.handler.truncate 57 &&& ~~~3#57 ∧ (u.lane l).rep = 0 ∧ (u.lane l).held = false ∧
            (u.lane l).park = none
          else (u.lane l).held = true ∧ (u.lane l).pc = (w.lane l).pc ∧ (u.lane l).rep = (w.lane l).rep ∧ (u.lane l).park = (w.lane l).park) ∧
      (s.hostMode 4 = true ∨ y.eff.handler = 0 → u.inHandler = w.inHandler ∧ u.stop = .trapped ∧
        ∀ l < 32, (u.lane l).pc = (w.lane l).pc ∧ (u.lane l).rep = (w.lane l).rep)) ∧
  (∀ (s : State) (k : Nat) (t : TrapInfo) (pc : VAddr) (rep : Nat) (w : Warp), s.warpAt k = some w →
    w.inHandler = true → w.latch = true →
    let second : Report := ⟨0x27, false, w.rings.length, 0, pc.toNat, 0, w.lsn.toNat, 0, k / 8 % 8, t.einfo, 0, 0⟩
    trapEntry s k t pc rep = killWith (reportGroup s w.wg second) w.wg
      { Report.blank 0x26 with detail := 2, pc := pc.toNat, lsn := w.lsn.toNat, slot := k / 8 % 8, depth := w.rings.length })

/-- R377: `tlbi` waits for the translated commands of the contexts it names, then no TLB of the package holds a translation that it names:
those of one address and context, of one context, or all; every other stays; and no walk that began before it is outstanding (R213). R379,
R162, R153: `spawn` reads an aligned launch record within the limit once the thread's accesses are performed, and enters it into the package
queue with its own context, bough and job; a full queue makes it wait. A rack-wide record goes to the rack command queue, for a record of it
that the rack root of another package has reserved first; without one the spawn asks for it and waits. -/
def Obligations.InvalidatesAndSpawns : Prop :=
  (∀ e a b (y : DWord) (x : Word),
    let ctx := x.toNat % 2048
    let invalidates (i : Instr) (ok : Cond) (hit : TlbEntry → Bool) (commands : Nat → Bool) : Prop :=
      Achieves i (fun s g v => ok s g v ∧ translatedCommands s commands = false) (fun s _ _ t =>
        (∀ k z, (∃ es, (k, es) ∈ t.mem.l1tlb ∧ z ∈ es) ↔ (∃ es, (k, es) ∈ s.mem.l1tlb ∧ z ∈ es) ∧ hit z = false) ∧
        (∀ k z, (∃ es, (k, es) ∈ t.mem.dieTlb ∧ z ∈ es) ↔ (∃ es, (k, es) ∈ s.mem.dieTlb ∧ z ∈ es) ∧ hit z = false) ∧
        (∀ k l, t.mem.l1.find k = some l → s.mem.l1.find k = some l) ∧ t.mem.walks = [] ∧ t.mem.walkFaults = [] ∧
        (∀ k, (t.warpAt k).map (fun w => { w with monitor := none }) = (s.warpAt k).map (fun w => { w with monitor := none })) ∧
        t = { s with
          mem := { s.mem with
            l1tlb := t.mem.l1tlb, dieTlb := t.mem.dieTlb, l1 := t.mem.l1, notices := t.mem.notices, walks := t.mem.walks
            walkFaults := t.mem.walkFaults }
          thr := { s.thr with warps := t.thr.warps } }) ∧
      Waits i (fun s g v => ok s g v ∧ translatedCommands s commands = true)
    invalidates (.tlbiVa e a b) (fun s g v => agreePair a y s g v ∧ agree b x s g v)
      (fun z => z.asid == ctx && z.va ≤ y.toNat && y.toNat < z.va + z.size) (· == ctx) ∧
    invalidates (.tlbiCtx e b) (agree b x) (fun z => z.asid == ctx) (· == ctx) ∧
    invalidates (.tlbiAll e) always (fun _ => true) (fun _ => true)) ∧
  (∀ e a (o : DWord) (bytes : List Byte),
    let words : List DWord := (List.range 16).map fun k => BitVec.ofNat 64 (((List.range 8).map fun j =>
      (bytes.getD (8 * k + j) 0).toNat * 2 ^ (8 * j)).sum)
    let va (b : State) (g : Group) (v : Warp) : Nat := segmentAddr b g v a false (g.lanes.headD 0)
    let own (v : Warp) : List DWord := words.set 12 (BitVec.ofNat 64 v.ctx.toNat)
    let wide : Prop := (words.getD 3 0).getLsbD 16 = true
    let ready : Cond := fun b g v => agreePair a o b g v ∧ va b g v % 64 = 0 ∧ o.toNat + 128 ≤ v.segs.glim.toNat ∧ bytes.length = 128 ∧
      allPerformed b g v ∧ ∃ c p, keepGlobal b g v (va b g v) 128 (g.lanes.headD 0) = .ok c p ∧ c = bytes ∧ p = false
    let bough (b : State) (v : Warp) : Option Nat := (boughChain b v).head?.map (·.bough)
    let read (rack : Bool) (b : State) (g : Group) (v : Warp) : State :=
      let t := b.tookPlaces g v (g.lanes.headD 0) (keepPlaces b g v (va b g v) 128)
      match launchOwner b v.wg rack with
      | some (p, n) => jobCount t p n true
      | none => t
    let here (b : State) : Prop := b.rackRoot = b.cfg.pkg
    Does (.spawn e a) (fun b g v => ready b g v ∧ ¬ wide ∧ b.packageQueueFree = true) (fun b g v =>
      let t := read false b g v
      { t with dist := { t.dist with
        records := t.dist.records ++ [⟨own v, v.ctx.toNat, va b g v, bough b v, b.jobOf v.wg, launchOwner b v.wg false⟩] } }) ∧
    Waits (.spawn e a) (fun b g v => ready b g v ∧ ¬ wide ∧ b.packageQueueFree = false) ∧
    Does (.spawn e a) (fun b g v => ready b g v ∧ wide ∧ here b ∧ here (read true b g v) ∧ b.rackQueueFree = true) (fun b g v =>
      let t := read true b g v
      let n := t.dist.rackReserved
      let t := ({ t with dist := { t.dist with rackReserved := n + 1 } } : State).poolWrite (t.dist.rackBase + 128 * (n % 2 ^ t.dist.rackLog))
        ((own v).flatMap fun x => leBytes 8 x.toNat)
      { t with dist := { t.dist with
        published := t.dist.published ++ [n], origins := t.dist.origins.insert n (bough b v, launchOwner b v.wg true) } }) ∧
    (∀ n, Does (.spawn e a) (fun b g v => ready b g v ∧ wide ∧ ¬ here b ∧ ¬ here (read true b g v) ∧ b.dist.reservation = some (some n) ∧
        (read true b g v).dist.reservation = some (some n)) (fun b g v =>
      let t := read true b g v
      ({ t with dist := { t.dist with reservation := none } } : State).send t.rackRoot false
        (.work ⟨own v, va b g v, v.ctx.toNat, [], 0, n, [], bough b v, launchOwner b v.wg true⟩))) ∧
    (∀ g w s v, Issues (.spawn e a) g w s → (s.issuing g).warpAt g.key = some v → ready (s.issuing g) g v → wide →
      ¬ here (s.issuing g) → (s.issuing g).dist.reservation = none → exec (.spawn e a) s = .next (askRack s.unchoose)) ∧
    Waits (.spawn e a) (fun b g v => ready b g v ∧ wide ∧ here b ∧ b.rackQueueFree = false))

/-- R100 to R103, R115, R118, R128: L1_FILL brings a line that a load misses from its whole home slice and registers the core as a sharer;
LOAD_VALUE_ARRIVAL binds a load to the bytes of its core's copy and delivers them; EVICTION_NOTICE, SHARER_UPDATE, GRAFT_FILL and
WRITER_ACKNOWLEDGE do what the protocol of R115 and R118 gives them. None of them changes a home byte. -/
def Obligations.CacheEvents : Prop := ∀ core line id,
  Happens (.l1Fill core line)
    (fun s => l1FillReady s core line = true ∧ ∃ x ∈ missingLoads s core line, x.2.prefetch = false)
    (fun s t => SameHome s t ∧ (∃ x, t.l1Line core line = some x ∧ (x.data, x.poison) = s.homeLine line ∧ x.grafted = false) ∧
      (∀ l, s.mem.l2.find line = some l → t.mem.l2.find line = some { l with
        sharers := l.sharers ||| (1#128 <<< core), age := s.fresh + 1 }) ∧
      t = { s with
        mem := { s.mem with l1 := t.mem.l1, l2 := t.mem.l2, notices := t.mem.notices, ops := t.mem.ops }
        thr := { s.thr with warps := t.thr.warps }
        fresh := s.fresh + 2 }) ∧
  (∀ o c sl n x, Happens (.loadValueArrival core id)
    (fun s => s.loadOp id = some o ∧ loadReady s core o = true ∧ o.agent = .thread c sl n x)
    (fun s t => ∃ l, s.l1Line core (o.pa / 128) = some l ∧
      let data := overlayStores (ownStores s core (o.pa / 128)) l.data
      let poison := (sectorsTouched (o.pa % 128) o.size).any fun k => l.poison.getLsbD k
      let words := loadWords o.code ((data.drop (o.pa % 128)).take o.size) fun _ => poison
      t.mem.ops.find id = none ∧ (∀ j, j ≠ id → t.mem.ops.find j = s.mem.ops.find j) ∧ SameHome s t ∧
      t = { s with
        mem := { s.mem with l1 := t.mem.l1, ops := t.mem.ops }
        thr := { s.thr with warps := t.thr.warps, regs := t.thr.regs }
        fresh := s.fresh + 1 } ∧
      ∀ w, s.warpAt (warpKey c sl n) = some w → ∃ u, t.warpAt (warpKey c sl n) = some u ∧
        (∀ y, u.lane y = { w.lane y with
          loads := (w.lane y).loads.filter (· != id)
          commits := (w.lane y).commits.map fun e => if e.op = some id then { e with value := some words, op := none } else e
          seen := (u.lane y).seen }) ∧
        ∀ y r k, o.lanes = [y] → o.dest = .v r k → id ∈ (w.lane y).loads → ∀ i < words.length,
          t.vreg c sl w y (r + i) = words.getD i PWord.zero)) ∧
  Happens (.evictionNotice core line)
    (fun s => (core, line) ∈ s.mem.notices ∧ s.crossHeld (core / 32) (dieOfLine line) = false)
    (fun s t => t.mem.notices = s.mem.notices.erase (core, line) ∧
      t.mem.l2.find line = (s.mem.l2.find line).map (fun l => { l with sharers := l.sharers &&& ~~~(1#128 <<< core) }) ∧ SameHome s t ∧
      t = { s with mem := { s.mem with l2 := t.mem.l2, notices := t.mem.notices } }) ∧
  Happens (.sharerUpdate core id)
    (fun s => ∃ u, s.mem.updates.find id = some u ∧ core ∈ u.targets ∧ olderUpdate s core id u = false ∧
      s.crossHeld (core / 32) (dieOfLine u.line) = false)
    (fun s t => ∀ u, s.mem.updates.find id = some u →
      t.mem.updates.find id = some { u with targets := u.targets.filter (· != core), applied := u.applied ++ [core] } ∧
      t.l1Line core u.line = (s.l1Line core u.line).map (fun l => l.apply u.mask u.data u.poison (maskSectors u.mask)) ∧
      t = { s with
        mem := { s.mem with l1 := t.mem.l1, updates := t.mem.updates }
        thr := { s.thr with warps := t.thr.warps } }) ∧
  Happens (.graftFill core id)
    (fun s => ∃ u, s.mem.updates.find id = some u ∧ core ∈ u.push ∧ olderUpdate s core id u = false ∧ (core, u.line) ∉ s.mem.notices ∧
      s.crossHeld (core / 32) (dieOfLine u.line) = false)
    (fun s t => SameHome s t ∧ ∀ u, s.mem.updates.find id = some u →
      (∃ x, t.mem.updates.find id = some x ∧ x.push = u.push.filter (· != core)) ∧
      (∀ l, s.l1Line core u.line = some l → t.l1Line core u.line = some (l.apply (((s.mem.l2.find u.line).map fun x => ~~~(othersMask x core)).getD (BitVec.allOnes 128)) (s.homeLine u.line).1 (s.homeLine u.line).2 15)) ∧
      (s.l1Line core u.line = none → s.graftQuota core ≤ s.graftCount core → t.l1Line core u.line = none ∧
        t.count (64 * core + 16) = min (s.count (64 * core + 16) + 1) 0xFFFFFFFF) ∧
      (s.l1Line core u.line = none → s.graftCount core < s.graftQuota core → (l1Set s core (u.line % 128)).length < 16 →
        ∃ x, t.l1Line core u.line = some x ∧ x.data = (s.homeLine u.line).1 ∧ x.grafted = true)) ∧
  Happens (.writerAcknowledge id)
    (fun s => ∃ u, s.mem.updates.find id = some u ∧ u.targets = [] ∧ u.push = [] ∧
      ∀ j ∈ u.writes, ∀ w, s.writeOp j = some w → s.agentHeld w.agent u.line = false)
    (fun s t => t.mem.updates.find id = none ∧ SameHome s t ∧ (∀ u, s.mem.updates.find id = some u →
        ∀ j, t.mem.ops.find j = if j ∈ u.writes then none else s.mem.ops.find j) ∧
      t = { s with
        mem := { s.mem with ops := t.mem.ops, updates := t.mem.updates }
        thr := { s.thr with warps := t.thr.warps } })

/-- R114, R115, R123: bytes written within a line at its home slice are read back there, every other byte stays, and a sector's poison is that
of the data, kept where the sector is not covered in full. R114 to R118, R123, R189, R227: writes reach the queue of their slice; the head
entry is applied and its update sent; an overlapping access ends gather mode, which takes the line from every L1; sectors are filled from the
stacks with their check; a victim leaves the slice and, when dirty, is written back, of the mirror class to both copies (R120). -/
def Obligations.SliceEvents : Prop :=
  (∀ (s : State) (pa : Nat) (bs : List Byte) (p : Bool), pa % 128 + bs.length ≤ 128 → s.dieDead pa = false →
    let t := s.sliceWrite pa bs p
    (∀ a, t.homeByte a = if pa ≤ a ∧ a < pa + bs.length then bs.getD (a - pa) 0 else s.homeByte a) ∧
    (∀ a, t.homePoison a = if 0 < bs.length ∧ pa < a / 32 * 32 + 32 ∧ a / 32 * 32 < pa + bs.length then
        p || (s.homePoison a && !(pa ≤ a / 32 * 32 && a / 32 * 32 + 32 ≤ pa + bs.length))
      else s.homePoison a) ∧
    t = { s with mem := { s.mem with l2 := t.mem.l2 }, fresh := s.fresh + 1 }) ∧
  (∀ port slice line set corrected bad sector ecc,
    Happens (.sliceWriteArrival port) (fun s => s.mem.ops.wf = true ∧ ∃ w, s.writeOp port = some w ∧ writeArrivalReady s port w = true) (fun s t =>
      (∀ w, s.writeOp port = some w → ∀ j v, (j, v) ∈ batchOf s port w →
        (∃ x, t.writeOp j = some x ∧ x.stage = .queued) ∧ ∃ e ∈ t.mem.queue, e.line = v.pa / 128 ∧ (j ∈ e.ops ∨ j ∈ e.folded)) ∧
      t = { s with
        mem := { s.mem with ops := t.mem.ops, queue := t.mem.queue }
        thr := { s.thr with warps := t.thr.warps } }) ∧
    Happens (.writeQueueApply slice) (fun s => queueApplyReady s slice = true) (fun s t => ∀ e, queueHead s slice = some e →
      t.mem.queue = s.mem.queue.erase e ∧ (∀ j ∈ e.ops ++ e.folded, ∀ w, t.writeOp j = some w → w.stage = .applied) ∧
      ∃ j ≥ s.fresh, ∃ u, t.mem.updates.find j = some u ∧ u.line = e.line ∧ u.writes = e.ops ++ e.folded) ∧
    Happens (.gatherMerge line) (fun s => gatherMergeReady s line = true) (fun s t => SameHome s t ∧
      (∀ l, s.mem.l2.find line = some l → t.mem.l2.find line = some { l with gather := none, sharers := 0 }) ∧
      (∀ c < 128, t.l1Line c line = none) ∧
      t = { s with
        mem := { s.mem with l1 := t.mem.l1, l2 := t.mem.l2 }
        thr := { s.thr with warps := t.thr.warps } }) ∧
    Happens (.sliceFill line corrected bad) (fun s => sliceFillReady s line = true ∧ s.mem.hbm.wf = true) (fun s t =>
      let missing (k : Nat) : Prop := ∀ l, s.mem.l2.find line = some l → l.have'.getLsbD k = false
      slicePresent t line = true ∧ (∀ a, t.homeByte a = s.homeByte a) ∧
      (∀ a, t.homePoison a = true ↔ s.homePoison a = true ∨ (a / 128 = line ∧ missing (a % 128 / 32) ∧ bad.testBit (a % 128 / 32) = true)) ∧
      t.mem.l1 = s.mem.l1 ∧ t.thr = s.thr ∧ t.mem.ops = s.mem.ops) ∧
    Happens (.partialSectorMerge line sector ecc) (fun s => partialReady s line sector = true ∧ s.mem.hbm.wf = true) (fun s t =>
      (∃ l, t.mem.l2.find line = some l ∧ l.have'.getLsbD sector = true) ∧ (∀ a, t.homeByte a = s.homeByte a) ∧
      (∀ a, t.homePoison a = true ↔ s.homePoison a = true ∨ (ecc = 5 ∧ a / 32 = 4 * line + sector)) ∧
      t.mem.l1 = s.mem.l1 ∧ t.thr = s.thr ∧ t.mem.ops = s.mem.ops) ∧
    ∀ l, Happens (.sliceVictimEviction slice set)
      (fun s => wayWanted s slice set = true ∧ sliceVictim s slice set = some (line, l) ∧ s.mem.l2.find line = some l ∧ s.mem.hbm.wf = true ∧
        (l.dirty = true → s.dramOpen line = true))
      (fun s t =>
        let partner := mirrorPartner (line * 128)
        t.mem.l2.find line = none ∧ (∀ c < 128, l.sharers.getLsbD c = true → t.l1Line c line = none) ∧
        (∀ a, a / 128 ≠ line → (l.mirror = true → a / 128 ≠ partner / 128) → t.homeByte a = s.homeByte a ∧ t.homePoison a = s.homePoison a) ∧
        (l.dirty = true → l.data.length = 128 → partner / 128 ≠ line →
          (∀ a, a / 128 = line → t.homeByte a = s.homeByte a ∧ t.homePoison a = s.homePoison a) ∧
          (l.mirror = true → s.dieDead (partner / 128 * 128) = false → ∀ i < 128, l.have'.getLsbD (i / 32) = true →
            t.mem.hbm.read (partner / 128 * 128 + i) = l.data.getD i 0)) ∧ t.mem.ops = s.mem.ops))

/-- R17, R260: the first failure of a lane in use puts the spare lane in its place and is reported; a warp at a run boundary then switches: a
protected thread is copied from the other lane of its pair, an unprotected one is poisoned and its ring rolled back, or its work-group killed
without one. A second failure fails the slot, requests the replacement of the package, and kills the slot's work-groups. R258, R219, R151,
R259: a rollback of a level with less than 3 attempts writes the kept records back, the newest first, and returns each lane that has not exited
to its opening point, with the registers, predicates, flags and window of its record; the attempt count rises and the fill pointer returns to
the log start. After 3 attempts the level is escalated, past the outermost the work-group is killed. -/
def Obligations.SparingAndRollbacks : Prop :=
  (∀ core slot warp lane w,
    let k := warpKey core slot warp
    let stopped (s : State) : State := match (s.slotAt core slot).running with
      | some n => endRun s (warpKey core slot n)
      | none => s
    Happens (.laneFailure core slot lane)
      (fun s => core < 128 ∧ slot < 8 ∧ (s.slotAt core slot).failed = false ∧ (s.slotAt core slot).spare = none ∧ lane < 32)
      (fun s t => t = reportSystem ((stopped s).onSlot core slot fun x => { x with spare := some lane })
        ⟨0x25, false, 0, 0, 0, 0, 0, core, slot, lane, 0, 0⟩) ∧
    (∀ l, Happens (.laneFailure core slot lane)
      (fun s => core < 128 ∧ slot < 8 ∧ (s.slotAt core slot).failed = false ∧ (s.slotAt core slot).spare = some l ∧ lane ≤ 32 ∧ lane ≠ l)
      (fun s t =>
        let u := ((stopped s).onSlot core slot fun x => { x with failed := true })
        t = (slotGroups u core slot).foldl (fun s wg => killGroup s wg 4)
          { u with att := { u.att with replacement := true, cause := if u.att.cause = 0 then 1 else u.att.cause } })) ∧
    Idle (.laneFailure core slot lane) (fun s => 128 ≤ core ∨ 8 ≤ slot ∨ (s.slotAt core slot).failed = true ∨ 32 < lane ∨
      (s.slotAt core slot).spare = some lane ∨ ((s.slotAt core slot).spare = none ∧ lane = 32)) ∧
    (∀ l, l < 32 → w.base * 32 + w.size ≤ 1024 →
      let due (s : State) : Prop := s.warpAt k = some w ∧ w.run = none ∧ w.snapshot = false ∧ (s.slotAt core slot).spare = some l ∧ w.spared ≠ some l
      let there : Prop := (w.lane l).present = true ∧ (w.lane l).exited = false
      Happens (.spareLaneSwitch core slot warp) (fun s => due s ∧ ¬ there) (fun s t => t = s.setWarp k { w with spared := some l }) ∧
      Happens (.spareLaneSwitch core slot warp) (fun s => due s ∧ there ∧ w.protected' = true) (fun s t =>
        let pair := if l % 2 = 0 then l + 1 else l - 1
        (∀ i < w.size, t.reg (regKey core slot 32 (32 * w.base + i)) = s.reg (regKey core slot pair (32 * w.base + i))) ∧
        ∃ u, t.warpAt k = some u ∧ u = { w with lanes := u.lanes, spared := some l } ∧ (l < w.lanes.length → u.lane l = w.lane pair)) ∧
      Happens (.spareLaneSwitch core slot warp) (fun s => due s ∧ there ∧ w.protected' = false ∧ w.rings ≠ []) (fun _ t =>
        (∀ i < w.size, t.reg (regKey core slot 32 (32 * w.base + i)) = ⟨0, true⟩) ∧
        t.warpAt k = some { w with spared := some l, rollback := some (w.rollback.getD false) }) ∧
      Happens (.spareLaneSwitch core slot warp) (fun s => due s ∧ there ∧ w.protected' = false ∧ w.rings = []) (fun s t =>
        ∃ u, (∀ i < w.size, u.reg (regKey core slot 32 (32 * w.base + i)) = ⟨0, true⟩) ∧ u.mem = s.mem ∧
          u.warpAt k = some { w with spared := some l } ∧
          t = killWith u w.wg { Report.blank 0x26 with detail := 3, lsn := w.lsn.toNat, slot := k / 8 % 8, depth := w.rings.length })) ∧
    Idle (.spareLaneSwitch core slot warp) (fun s => ∀ u, s.warpAt k = some u → u.run ≠ none ∨ u.snapshot = true ∨
      u.spared = (s.slotAt core slot).spare)) ∧
  (∀ core slot warp w r,
    let k := warpKey core slot warp
    let due (s : State) (h : Bool) : Prop := s.warpAt k = some w ∧ w.rollback = some h ∧ rollbackReady s k w = true ∧ w.rings.getLast? = some r
    let marked : List Nat := (List.range 32).filter fun j => r.mask.getLsbD j
    let killed (h : Bool) (reason : Nat) : Report := { Report.blank 0x26 with
      detail := reason, pc := if h then w.trap.epc.toNat else 0, lsn := w.lsn.toNat, slot := k / 8 % 8, depth := w.rings.length }
    let at' (l : Nat) : Nat := w.segs.sbase.toNat + r.logStart + 16 + (4 * marked.length + 16) * l
    let word (s : State) (l i : Nat) : Nat := (s.scratchField core (at' l + 4 * i) 4).1
    (∀ h y, Happens (.ringRollback core slot warp)
      (fun s => due s h ∧ (h = false → w.inHandler = false) ∧ r.attempt < 3 ∧ w.lanes.length = 32 ∧ w.base * 32 + w.size ≤ 1024 ∧
        restoreRecords s core w (keptRecords s core w 32768 r.logStart).reverse = (y, false))
      (fun _ t => t.mem.scratch = y.mem.scratch ∧ (h = false → t.mem.hbm = y.mem.hbm) ∧ ∃ u, t.warpAt k = some u ∧
        (h = true → u.inHandler = false ∧ u.system = false ∧ u.latch = false ∧ u.stop = .none) ∧
        u.rollback = none ∧ u.logFill = r.logStart ∧ u.rings = w.rings.dropLast ++ [{ r with attempt := r.attempt + 1 }] ∧
        u.sregs = w.sregs ∧ u.barrier = 0 ∧ u.mwait = none ∧
        ∀ l < 32, (w.lane l).present = true →
          let f := word y l (marked.length + 1)
          (∀ i < marked.length, 32 * (f / 2 ^ 19 % 16) + marked.getD i 0 < w.size →
            t.vreg core slot w l (32 * (f / 2 ^ 19 % 16) + marked.getD i 0) =
              ⟨BitVec.ofNat 32 (word y l i), (word y l marked.length).testBit (marked.getD i 0)⟩) ∧
          (u.lane l).preds = BitVec.ofNat 7 f ∧ (u.lane l).predPoison = BitVec.ofNat 7 (f / 2 ^ 7) ∧ (u.lane l).flags = BitVec.ofNat 5 (f / 2 ^ 14) ∧
          ((w.lane l).exited = false →
            (u.lane l).pc = (BitVec.ofNat 64 (y.scratchField core (at' l + 4 * marked.length + 8) 8).1).truncate 57 &&& ~~~3#57 ∧
            (u.lane l).rep = 0 ∧ (u.lane l).window = f / 2 ^ 19 % 16 ∧ (u.lane l).park = none ∧ (u.lane l).commits = [] ∧ (u.lane l).loads = []))) ∧
    (∀ h y, Happens (.ringRollback core slot warp)
      (fun s => due s h ∧ r.attempt < 3 ∧ restoreRecords s core w (keptRecords s core w 32768 r.logStart).reverse = (y, true))
      (fun _ t => t = killWith y w.wg (killed h 5))) ∧
    (∀ h, Happens (.ringRollback core slot warp) (fun s => due s h ∧ 3 ≤ r.attempt ∧ 1 < w.rings.length)
      (fun s t => t = s.setWarp k { w with rings := dropLevel w.rings })) ∧
    (∀ h, Happens (.ringRollback core slot warp) (fun s => due s h ∧ 3 ≤ r.attempt ∧ w.rings.length ≤ 1)
      (fun s t => t = killWith s w.wg (killed h 0))) ∧
    Idle (.ringRollback core slot warp) (fun s => ∀ u, s.warpAt k = some u → u.rollback = none ∨ rollbackReady s k u = false))

/-- R20, R22, R168, R17, R21, R253, R264: at a run boundary the slot begins a run for the ready warp of the smallest stamp, the lower number on
a tie, after the spare lane has been switched in for it where one is due; a run whose warp has no group that can issue is cut; a halting warp
stops at its run's end with cause 0x0F, or 0x11 in a contained context, at its next group, unless its latch keeps the trap registers. R369,
R254: a wake releases the lanes parked at `mwait` and disarms the monitor; the end of the timeout without a wake raises 0x0C in them, with the
address that `mon` named as the detail, unless the warp is stopped. R262: an imprecise store fault is reported first, which ends the warp's
run, and then enters the trap 0x20 at the warp's next group with the store's address; one whose warp has left is only reported. -/
def Obligations.WarpEvents : Prop :=
  (∀ core slot warp,
    let key (n : Nat) : Nat := warpKey core slot n
    let ready (s : State) (n : Nat) : Prop := n < 8 ∧ warpReady s (key n) = true
    Happens (.warpChoice core slot) (fun s => (s.slotAt core slot).running = none ∧ (∃ n, ready s n) ∧
        ∀ n w, ready s n → s.warpAt (key n) = some w → w.spared = (s.slotAt core slot).spare) (fun s t => ∃ n w r, ready s n ∧
      (∀ m, ready s m → stampOf s (key n) < stampOf s (key m) ∨ (stampOf s (key n) = stampOf s (key m) ∧ n ≤ m)) ∧
      s.warpAt (key n) = some w ∧ t.warpAt (key n) = some { w with run := some r } ∧ r.issues = 0 ∧ r.issued = [] ∧
      t.slotAt core slot = { s.slotAt core slot with running := some n, runs := (s.slotAt core slot).runs + 1 } ∧
      (∀ k, k ≠ key n → t.warpAt k = s.warpAt k) ∧
      t = { s with thr := { s.thr with warps := t.thr.warps, slots := t.thr.slots } }) ∧
    Happens (.warpChoice core slot) (fun s => (s.slotAt core slot).running = none ∧ ∃ n w, ready s n ∧ (∀ m, ready s m → m = n) ∧
        s.warpAt (key n) = some w ∧ w.run = none ∧ w.spared ≠ (s.slotAt core slot).spare)
      (fun s t => ∃ n, ready s n ∧ exec (.spareLaneSwitch core slot n) s = .next t) ∧
    Idle (.warpChoice core slot) (fun s => ((s.slotAt core slot).running).isSome = true) ∧
    Happens (.cut core slot) (fun s => ∃ n, (s.slotAt core slot).running = some n ∧ openGroups s (key n) = []) (fun s t =>
      ∀ n w, (s.slotAt core slot).running = some n → t.warpAt (key n) = some w → w.run = none) ∧
    Idle (.cut core slot) (fun s => ∀ n, (s.slotAt core slot).running = some n → openGroups s (key n) ≠ []) ∧
    (∀ w x, Happens (.siblingStop core slot warp)
      (fun s => s.warpAt (key warp) = some w ∧ w.stop = .halting ∧ w.run = none ∧ s.work.groups.find w.wg = some x)
      (fun s t => ∃ u, t.warpAt (key warp) = some u ∧ u = { w with stop := u.stop, latch := true, trap := u.trap } ∧
        u.stop = (if x.contained.isSome then .contained else .halted) ∧
        (w.latch = true → u.trap = w.trap) ∧
        (w.latch = false → u.trap.epc = (nextGroup w).1.zeroExtend 64 ∧ u.trap.erep = BitVec.ofNat 6 (nextGroup w).2.1 ∧ u.trap.emask = 0 ∧
          u.trap.eskid = BitVec.ofNat 10 (w.skid.1 + 32 * w.skid.2) ∧
          (∀ pa, x.contained = some pa → u.trap.cause = 0x11 ∧ u.trap.einfo = BitVec.ofNat 64 pa) ∧
          (∀ c sl n, x.contained = none → x.halt = some (c, sl, n) → u.trap.cause = 0x0F ∧
            u.trap.einfo = BitVec.ofNat 64 (c + 2 ^ 8 * sl + 2 ^ 11 * n))) ∧
        (∀ k, k ≠ key warp → t.warpAt k = s.warpAt k) ∧ t = { s with thr := { s.thr with warps := t.thr.warps } })) ∧
    Idle (.siblingStop core slot warp) (fun s => ∀ w, s.warpAt (key warp) = some w → w.stop ≠ .halting ∨ w.run ≠ none)) ∧
  (∀ core slot warp,
    let k := warpKey core slot warp
    let parked (w : Warp) (l : Nat) : Prop := l < 32 ∧ (w.lane l).held = false ∧ ∃ p e a, (w.lane l).park = some p ∧ p.instr = .mwait e a
    let woken (w : Warp) : Prop := ∀ m, w.monitor = some m → m.hit = true
    Happens (.mwaitWake core slot warp) (fun s => ∃ w, s.warpAt k = some w ∧ (∃ l, parked w l) ∧ woken w) (fun s t =>
      ∀ w, s.warpAt k = some w → ∃ u, t.warpAt k = some u ∧ u = { w with lanes := u.lanes, monitor := none, mwait := none } ∧
        (∀ l < w.lanes.length, (parked w l → u.lane l = { w.lane l with park := none, pc := (w.lane l).pc + 4, rep := 0 }) ∧
          (¬ parked w l → u.lane l = w.lane l)) ∧
        (∀ j, j ≠ k → t.warpAt j = s.warpAt j) ∧ t = { s with thr := { s.thr with warps := t.thr.warps } }) ∧
    Idle (.mwaitWake core slot warp) (fun s => ∀ w, s.warpAt k = some w → ¬ woken w ∨ ∀ l, ¬ parked w l) ∧
    (∀ w m e, Happens (.monitorTimeout core slot warp)
      (fun s => s.warpAt k = some w ∧ (∃ l, parked w l) ∧ w.monitor = some m ∧ m.hit = false ∧ w.mwait = some e ∧ e < s.clk.ref.toNat ∧ w.stop = .none)
      (fun s t => t = trapEntry (s.onWarp k fun w => { w with mwait := none }) k ⟨0x0C, mwaitLanes w, m.va.toNat⟩
          (w.lane ((mwaitLanes w).headD 0)).pc (w.lane ((mwaitLanes w).headD 0)).rep ∧
        ∀ l, l ∈ mwaitLanes w ↔ parked w l)) ∧
    Idle (.monitorTimeout core slot warp) (fun s => ∀ w, s.warpAt k = some w → woken w ∨ w.stop ≠ .none ∨ ∀ e, w.mwait = some e → s.clk.ref.toNat ≤ e)) ∧
  (∀ core (f : StoreFault) w,
    let marked (s : State) : State := { s with faults := s.faults.map fun x => if x = f then { x with reported := true } else x }
    Happens (.impreciseStoreFault core) (fun s => nextFault s core = some f ∧ f.reported = false ∧ faultWarp (storeReport (marked s) f) f = some w)
      (fun s t => t = endRun (storeReport (marked s) f) f.warp) ∧
    Happens (.impreciseStoreFault core) (fun s => nextFault s core = some f ∧ f.reported = false ∧ faultWarp (storeReport (marked s) f) f = none)
      (fun s t => let r := storeReport (marked s) f
        t = { r with faults := r.faults.filter (· != { f with reported := true }) }) ∧
    Happens (.impreciseStoreFault core) (fun s => nextFault s core = some f ∧ f.reported = true ∧ faultWarp s f = some w)
      (fun s t => t = trapEntry { s with faults := s.faults.erase f } f.warp ⟨0x20, (nextGroup w).2.2, f.pa⟩ (nextGroup w).1 (nextGroup w).2.1) ∧
    Happens (.impreciseStoreFault core) (fun s => nextFault s core = some f ∧ f.reported = true ∧ faultWarp s f = none)
      (fun s t => t = { s with faults := s.faults.erase f }) ∧
    Idle (.impreciseStoreFault core) (fun s => s.faults = []))

/-- R99, R103, R115, R209 to R213, R230, R252: a walk that no held line makes wait ends with the translation in the die's TLB, or with the fault that its access finds; under
host-assisted walking it asks, and the answer ends it. An answer to a trap event replaces PC and repeat index as it says and takes its
action; one with a reserved bit is discarded. An instruction cache fills with the line as its home holds it. -/
def Obligations.WalkEvents : Prop := ∀ die asid va tag core line (w8 w16 : BitVec 64) (w : Walk) (ev : HostEvent),
  let ended (s t : State) (r : WalkEnd) : Prop := t.mem.walks = s.mem.walks.erase w ∧ SameHome s t ∧ match r with
    | .leaf e => e ∈ t.mem.dieTlb.getD w.die [] ∧ t.mem.walkFaults = s.mem.walkFaults
    | .invalid => t.mem.walkFaults = s.mem.walkFaults ++ [⟨w.die, w.asid, w.page, false⟩]
    | .poisoned => t.mem.walkFaults = s.mem.walkFaults ++ [⟨w.die, w.asid, w.page, true⟩]
  Happens (.pageWalk die asid va) (fun s => findWalk s die asid va = some w ∧ w.tag = none ∧ w.host = false ∧ walkReady s w = true)
    (fun s t => ended s t (s.walk w.asid (4096 * w.page))) ∧
  Happens (.pageWalk die asid va) (fun s => findWalk s die asid va = some w ∧ w.tag = none ∧ w.host = true)
    (fun _ t => ∃ x ∈ t.host.pending, x.kind = 1 ∧ x.die = w.die ∧ x.payload = walkPayload w ∧ { w with tag := some x.tag } ∈ t.mem.walks) ∧
  Idle (.pageWalk die asid va) (fun s => ∀ x, findWalk s die asid va = some x → x.tag ≠ none ∨ walkReady s x = false) ∧
  Happens (.walkAnswer tag w8 w16)
    (fun s => pendingEvent s 1 tag = some ev ∧ s.mem.walks.find? (fun x => x.tag == some tag) = some w)
    (fun s t => ended s t (answeredWalk w w8 w16) ∧ ev ∉ t.host.pending) ∧
  Idle (.walkAnswer tag w8 w16) (fun s => pendingEvent s 1 tag = none) ∧
  Happens (.trapAnswer tag w8 w16)
    (fun s => pendingEvent s 5 tag = some ev ∧ w8.toNat < 2 ^ 10 ∧ (w8.getLsbD 2 = true → w16.toNat % 4 = 0))
    (fun s t => t = eretAction (({ s with host := { s.host with pending := s.host.pending.filter (· != ev) } } : State).onWarp (trapWarp ev)
      fun w => { w with trap := { w.trap with
        epc := if w8.getLsbD 2 then w16 else w.trap.epc
        erep := if w8.getLsbD 3 then BitVec.ofNat 6 (w8.toNat / 2 ^ 4) else w.trap.erep } }) (trapWarp ev) (w8.toNat % 4)) ∧
  Idle (.trapAnswer tag w8 w16) (fun s => pendingEvent s 5 tag = none ∨ 2 ^ 10 ≤ w8.toNat ∨ (w8.getLsbD 2 = true ∧ w16.toNat % 4 ≠ 0)) ∧
  (∀ e : TlbEntry, Happens (.instructionCacheFill core asid line)
    (fun s => iFillReady s core asid line = true ∧ fetchEntry s core asid line = some e ∧ s.dieDead (s.locate e (128 * line) / 128 * 128) = false)
    (fun s t => t.mem.fetches = s.mem.fetches.erase (core, asid, line) ∧ SameHome s t ∧ ∃ x,
      t.mem.icache.find (icacheKey core asid line) = some x ∧ x.pline = s.locate e (128 * line) / 128 ∧
      (x.data, x.poison) = s.homeLine (s.locate e (128 * line) / 128)))

/-- R90, R91, R332, R239: an exchange store lands in the shadow bank of its granule on the member's core; the swap of a gang flips every
granule of its members' regions once, and completes its barrier. -/
def Obligations.ExchangeEvents : Prop := ∀ core gang,
  (∀ x off, Happens (.stXApply core) (fun s => nextExchStore s core = some (x, off) ∧ s.savedShape x.wg = none ∧ s.mem.exch.wf = true)
    (fun s t =>
      let bank := if (s.mem.polarity.getD core 0).getLsbD (off / 4096) then 0 else 1
      let at' := 65536 * (2 * core + bank) + off
      (∀ a, t.mem.exch.read a = if at' ≤ a ∧ a < at' + x.data.length then x.data.getD (a - at') 0 else s.mem.exch.read a) ∧
      t = { s with mem := { s.mem with exch := t.mem.exch, exchStores := s.mem.exchStores.erase x } })) ∧
  Idle (.stXApply core) (fun s => s.mem.exchStores = []) ∧
  Happens (.exchangePolaritySwap gang) (fun s => swapReady s gang = true) (fun s t =>
    (∀ c, t.mem.polarity.getD c 0 = (gangGroups s gang).foldl (fun p x =>
      if x.2.core = c then p ^^^ BitVec.ofNat 16 ((2 ^ x.2.exch.2 - 1) * 2 ^ x.2.exch.1) else p) (s.mem.polarity.getD c 0)) ∧
    (∀ x, s.work.gangs.find gang = some x → t.work.gangs.find gang = some { x with count := 0, phase := !x.phase, form := none }) ∧
    ∀ k ∈ gangKeys s gang, ∀ w u, s.warpAt k = some w → t.warpAt k = some u → u.barrier = 0 ∧
      (w.barrier ≠ 0 → ∀ l p, (u.lane l).park = some p → isBarrier p.instr = false)) ∧
  Idle (.exchangePolaritySwap gang) (fun s => swapReady s gang = false)

/-- R185 to R187, R204, R236, R354 to R362: an idle engine takes the next requester's command after its checks; a failed check is its
status. Transfers read a piece of the source and write it at the target; signals and counted bytes arrive at their sync word; a command
whose end is settled retires in order, its counter falls and its entry is free. -/
def Obligations.EngineEvents : Prop := ∀ (die engine core serial : Nat) (c : CopyCmd),
  let with' (s : State) (f : CopyCmd → CopyCmd) : State :=
    { s with eng := { s.eng with copy := s.eng.copy.map fun d => if d.id = c.id then f d else d } }
  Happens (.copyCommandTake die engine)
    (fun s => takeReady s die engine = true ∧ ∃ r, nextRequester s die engine = some (r, c) ∧ takeStatus s { c with owner := targetOwner s c } ≠ 8)
    (fun s t => t.thr = s.thr ∧ t.mem = s.mem ∧ ∃ d, t.cmd c.id = some d ∧ d.engine = some (16 * die + engine) ∧
      d.status = (if takeStatus s { c with owner := targetOwner s c } = 0 then none else some (takeStatus s { c with owner := targetOwner s c })) ∧
      d.moved = c.moved ∧ d.desc = c.desc ∧ (d.held = true ↔ c.kind = 3 ∧ d.status = none)) ∧
  Idle (.copyCommandTake die engine) (fun s => engineCmd s die engine ≠ none ∨ ∀ r < 36, untaken s die r = none) ∧
  (∀ pa kind mirror (bs : List Byte) y, Happens (.engineLineWrite die engine)
    (fun s => engineCmd s die engine = some c ∧ y.cmd c.id = some c ∧ lineReady s c = true ∧ c.kind ≤ 3 ∧ c.sw = false ∧
      gatherPiece s c (c.from' c.moved) (c.pieceLen c.moved) = (some (bs.map fun x => (x, false)), y) ∧
      y.place c c.tgt (c.tgtByte c.moved) 1 = .ok (.pool pa kind mirror) ∧ y.homePackage pa = y.cfg.pkg ∧ y.dieDead pa = false)
    (fun s t => t.thr = s.thr ∧ SameHome s t ∧ t.mem = { y.mem with ops := t.mem.ops } ∧
      ∃ id ys d, t.mem.ops.find id = some (poolOp (.engine c.id) pa kind mirror ys false c) ∧ s.fresh ≤ id ∧ ys.length = bs.length ∧
        (∀ i < bs.length, i ∉ ontoSource y c c.moved bs.length → ys.getD i 0 = bs.getD i 0) ∧
        t.cmd c.id = some d ∧ d.moved = c.moved + bs.length ∧ id ∈ d.writes ∧ d.status = none)) ∧
  Happens (.engineLineWrite die engine)
    (fun s => engineCmd s die engine = some c ∧ lineReady s c = true ∧ c.kind = 5 ∧ syncPackage s c = s.cfg.pkg)
    (fun s t => t.eng.arrivals = s.eng.arrivals ++
        [⟨(syncSpot s c).1, (syncSpot s c).2.1, (c.word 5) % 2 ^ 32, [], c.id, (syncSpot s c).2.2⟩] ∧
      t.mem = s.mem ∧ t.thr = s.thr ∧ ∃ d, t.cmd c.id = some d ∧ d.phase = 1) ∧
  Idle (.engineLineWrite die engine) (fun s => ∀ d, engineCmd s die engine = some d → lineReady s d = false) ∧
  Happens (.xputRelRelease die engine) (fun s => engineCmd s die engine = some c ∧ releaseReady s c = true)
    (fun s t => t = with' s fun d => { d with held := false }) ∧
  Idle (.xputRelRelease die engine) (fun s => engineCmd s die engine = some c ∧ ∃ d ∈ s.eng.copy, d.id < c.id ∧ d.warp = c.warp ∧ d.wg = c.wg ∧
    d.slot = none ∧ finalStatus s d = none ∧ ∃ p ∈ s.targetPackages d, p ∈ s.targetPackages c) ∧
  (∀ bs y, Happens (.xgthVersionRecheck die engine)
    (fun s => engineCmd s die engine = some c ∧ recheckReady s c = true ∧ gatherPiece s c 0 8 = (some bs, y) ∧ c.sw = false)
    (fun s t => SameHome s t ∧ t = with' y fun d => { d.clearReply with
      phase := if versionStatus c bs = 0 then 3 else 4 + versionStatus c bs
      moved := if versionStatus c bs = 0 then d.moved else 0 })) ∧
  (∀ a, Happens (.syncWordArrival core)
    (fun s => s.eng.arrivals.find? (fun x => x.core == core && arrivalReady s x) = some a ∧ ∀ wg base, a.owner = some (wg, base) →
      s.ctl.saved.any (·.1 == wg) = false)
    (fun s t => t = match a.owner with
      | some (wg, base) => ({ s with eng := { s.eng with arrivals := s.eng.arrivals.erase a } } : State).arrive (s.coreNow wg a.core)
          (s.scratchNow wg base a.off) a.amount
      | none => ({ s with eng := { s.eng with arrivals := s.eng.arrivals.erase a } } : State).arrive a.core a.off a.amount)) ∧
  Idle (.syncWordArrival core) (fun s => s.eng.arrivals = []) ∧
  (∀ w, Happens (.commandRetire core serial)
    (fun s => s.cmd serial = some c ∧ c.id = serial ∧ c.core = core ∧ retireReady s c = true ∧ c.stw = false ∧ finalStatus s c = some 0 ∧
      (c.kind = 7 → 2 ≤ c.phase) ∧ s.savedShape c.wg = none ∧ s.warpAt c.warp = some w ∧ w.wg = c.wg ∧ ∀ g, s.work.groups.find c.wg = some g → g.dead = false)
    (fun s t => t = { s.setWarp c.warp (w.retireClass c.cls) with eng := { s.eng with copy := s.eng.copy.filter fun d => d.id ≠ serial } })) ∧
  Idle (.commandRetire core serial) (fun s => ∀ d, s.cmd serial = some d → finalStatus s d = none)

/-- R191, R192, R221: the fold of up to 256 operands in rank order, whole or in stages of 16, is for integer addition the sum modulo 2^32, and
it is poisoned where an operand is. R191, R193, R205, R361: a rank reads the package of a chunk's rank in its table and sends the chunk there
in flits; one of its own package is held for its reduction. Once every port has the next words they are folded in rank order and written; the
last ends the reduction. A rank posted twice, or in disagreement, tells every rank and then completes with status 0x05. -/
def Obligations.ReductionEvents : Prop :=
  (∀ (xs : List (List PWord)) (m : Nat), xs ≠ [] → xs.length ≤ 256 → (∀ x ∈ xs, x.length = m) →
    (reduceRanks 0 xs).length = m ∧ ∀ i < m,
      ((reduceRanks 0 xs).getD i PWord.zero).val.toNat = (xs.map fun x => (x.getD i PWord.zero).val.toNat).sum % 2 ^ 32 ∧
      ((reduceRanks 0 xs).getD i PWord.zero).poison = xs.any fun x => (x.getD i PWord.zero).poison) ∧
  (∀ (group rank chunk : Nat) (c : CopyCmd) (bs : List (Byte × Bool)) (y : State),
    let n := min (c.len - c.moved % c.len) 256
    let mine (h : HeldChunk) : Prop := h.group = c.group ∧ h.dst = c.rank
    let bare (h : HeldChunk) : HeldChunk := { h with port := none, credit := none }
    let words : List PWord := (elementsOf bs).map fun e => ⟨e.1, e.2⟩
    let sent (d : CopyCmd) (pkg : Nat) : CopyCmd := { d.clearReply with
      moved := d.moved + n, poison := d.poison || bs.any (·.2), dest := if c.moved % c.len + n = d.len then none else some pkg }
    let sends (s : State) : Prop := rankCmd s group rank = some c ∧ s.cmd c.id = some c ∧ chunkReady s c chunk = true
    let reduces (s : State) : Prop := rankCmd s group rank = some c ∧ s.cmd c.id = some c ∧ reductionReady s c = true
    (∀ pkg, Happens (.xrscChunkArrival group rank chunk) (fun s => sends s ∧ c.dest = none ∧ readRank s c chunk = (some (.ok pkg), y))
      (fun _ t => t = y.onCmd c.id fun d => { d with dest := some pkg })) ∧
    Happens (.xrscChunkArrival group rank chunk)
      (fun s => sends s ∧ c.dest = some s.cfg.pkg ∧ gatherPiece s c c.moved n = (some bs, y) ∧ y.cfg.pkg = s.cfg.pkg ∧
        y.eng.broken.find (rankKey c.group chunk) = none ∧ y.cmd c.id = some c)
      (fun s t => t.thr = s.thr ∧ (∃ d, t.cmd c.id = some d ∧ d = sent c s.cfg.pkg) ∧
        t.eng.chunks.map bare = (y.eng.chunks ++
          ([⟨s.cfg.pkg, c.id, c.group, c.rank, chunk, c.ranks, c.opcode, c.moved % c.len / 4, words, none, none⟩] : List HeldChunk)).map bare) ∧
    (∀ pkg, Happens (.xrscChunkArrival group rank chunk)
      (fun s => sends s ∧ c.dest = some pkg ∧ pkg ≠ s.cfg.pkg ∧ y.cfg.pkg = s.cfg.pkg ∧ s.reachable pkg = true ∧ s.mayPost pkg c.rel = true ∧
        gatherPiece s c c.moved n = (some bs, y))
      (fun _ t => t = (y.onCmd c.id fun d => { sent d pkg with acks := d.acks ++ [pkg] }).send pkg c.rel
        (.chunk y.cfg.pkg c.id c.group c.rank chunk c.ranks c.opcode (c.moved % c.len / 4) words))) ∧
    Idle (.xrscChunkArrival group rank chunk) (fun s => ∀ d, rankCmd s group rank = some d → chunkReady s d chunk = false) ∧
    (∀ xs, Happens (.columnHeadReduction group rank)
      (fun s => reduces s ∧ c.phase < 2 ∧ groupConflict s c (heldFor s c.group c.rank) = false ∧
        portWords c (heldFor s c.group c.rank) = some xs)
      (fun s t =>
        let r := reduceRanks c.opcode xs
        let upto := c.landed + foldWidth c
        let z := putWords (s.onCmd c.id fun d => { d with landed := upto, poison := d.poison || r.any (·.poison) }) c r
        t.mem = z.mem ∧ t.thr = z.thr ∧
        (∃ d, t.cmd c.id = some d ∧ d.landed = upto ∧ d.phase = if 4 * upto < c.len then c.phase else 2) ∧
        ∀ h ∈ t.eng.chunks, mine h → 4 * upto < c.len ∧ upto < h.off + h.data.length)) ∧
    Happens (.columnHeadReduction group rank) (fun s => reduces s ∧ c.phase < 2 ∧ groupConflict s c (heldFor s c.group c.rank) = true)
      (fun s t => t.mem = s.mem ∧ t.thr = s.thr ∧ (∃ d, t.cmd c.id = some d ∧ d.phase = 16) ∧ ∃ b, t.eng.broken.find (rankKey c.group c.rank) = some b ∧
        ∀ h ∈ t.eng.chunks, mine h → b.covers h = false) ∧
    (∀ r, Happens (.columnHeadReduction group rank)
      (fun s => reduces s ∧ 16 ≤ c.phase ∧ c.phase < 16 + c.ranks ∧ readRank s c (c.phase - 16) = (some r, y) ∧
        ((∃ st, r = .error st) ∨ c.phase - 16 = c.rank))
      (fun _ t => t = y.onCmd c.id fun d => { d with phase := d.phase + 1 })) ∧
    (∀ pkg, Happens (.columnHeadReduction group rank)
      (fun s => reduces s ∧ 16 ≤ c.phase ∧ c.phase < 16 + c.ranks ∧ c.phase - 16 ≠ c.rank ∧ readRank s c (c.phase - 16) = (some (.ok pkg), y) ∧
        y.reachable pkg = true ∧ pkg ≠ y.cfg.pkg ∧ y.mayPost pkg false = true)
      (fun _ t => t = (y.onCmd c.id fun d => { d with phase := d.phase + 1, acks := d.acks ++ [pkg] }).send pkg false
        (.broken y.cfg.pkg c.id c.group c.rank (c.phase - 16) c.ranks))) ∧
    Happens (.columnHeadReduction group rank) (fun s => reduces s ∧ 16 + c.ranks ≤ c.phase)
      (fun s t => t.mem = s.mem ∧ t.thr = s.thr ∧
        ∀ d ∈ t.eng.copy, d.kind = 7 → d.group = c.group → d.rank = c.rank → d.status ≠ none) ∧
    Happens (.columnHeadReduction group rank) (fun s => reduces s ∧ c.phase = 2)
      (fun s t => t.mem = s.mem ∧ t.thr = s.thr ∧ ∃ d, t.cmd c.id = some d ∧ d.phase = 3 ∧ d.acks = c.acks ++ [syncPackage s c]) ∧
    Idle (.columnHeadReduction group rank) (fun s => ∀ d, rankCmd s group rank = some d → reductionReady s d = false))

/-- R95, R98, R339 to R347: a command starts when it is next, its macros are its work-group's and no started command shares a macro or the
tile; it completes with its effect on the tile, lane or macro that it names, and retires. A macro of another owner is put into that owner's
spill slot before the work-group uses it. -/
def Obligations.MatrixEvents : Prop := ∀ (core mac : Nat) (c : MatCmd),
  Happens (.matrixCommandStart core) (fun s => nextCommand s core = some c ∧ matrixStartReady s c = true)
    (fun s t => t = { s with mem := { s.mem with matrix := s.mem.matrix.map fun d => if d.id = c.id then { d with started := true } else d } }) ∧
  Idle (.matrixCommandStart core) (fun s => ∀ d, nextCommand s core = some d → matrixStartReady s d = false) ∧
  (∀ w tile (G : State → Nat → Nat → Nat × Bool → Nat × Bool),
    (c.op = .acz tile ∧ G = (fun _ _ _ _ => (0, false)) ∨
      (∃ y, c.op = .acld tile y ∧ G = fun s i j _ => scratchElement s c.core c.sbase y 32 i j) ∨
      (∃ k, c.op = .acscl tile k ∧ G = fun _ _ _ e => ((FpFormat.f32.mul 0 (FpFormat.f32.unpack e.1) (FpFormat.f32.unpack k.toNat)).1, e.2)) ∨
      (∃ z y f p, c.op = .mma z tile y f p ∧ G = fun s i j e =>
        mmaElement f ((List.range (fmtDepth f / 32)).map (blockA s c.core c.sbase y f p i))
          ((List.range (fmtDepth f / 32)).map (blockB s c.core f j)) (if z then (0, false) else e))) →
    Happens (.matrixCommandComplete core)
      (fun s => runningCommand s core = some c ∧ s.mem.acc.wf = true ∧ s.warpAt c.warp = some w ∧ w.wg = c.wg ∧ tile < 64 ∧
        c.warp = warpKey (c.warp / 64) (c.warp / 8 % 8) (c.warp % 8) ∧ ∀ g, s.work.groups.find c.wg = some g → g.dead = false)
      (fun s t =>
        (∀ i < 128, ∀ j < 128, tileElement t c.core tile i j =
          ((G s i j (tileElement s c.core tile i j)).1 % 2 ^ 32, (G s i j (tileElement s c.core tile i j)).2)) ∧
        (∀ a, a / 65536 ≠ 64 * c.core + tile → t.mem.acc.read a = s.mem.acc.read a) ∧
        t.mem.scratch = s.mem.scratch ∧ t.mem.hbm = s.mem.hbm ∧ (∀ d ∈ t.mem.matrix, d.id ≠ c.id) ∧
        ∃ u, t.warpAt c.warp = some u ∧ u.cntMat = w.cntMat - 1 ∧ (∀ l, c.id ∉ (u.lane l).loads) ∧ u.sregs = w.sregs)) ∧
  (∀ y f p, c.op = .bld y f p → formatLegal f = true → Happens (.matrixCommandComplete core)
    (fun s => runningCommand s core = some c ∧ ∀ g, s.work.groups.find c.wg = some g → g.dead = false)
    (fun s t => ∀ q < fmtCount f, ∀ r < macroRows (widthB f), ∀ j < 128,
      (t.macro c.core (fmtFirst f + q)).owner = some c.wg ∧
      (t.macro c.core (fmtFirst f + q)).element (widthB f) r j =
        (scratchElement s c.core c.sbase y (widthB f) j (channelAt p (q * macroRows (widthB f) + r))).1)) ∧
  Idle (.matrixCommandComplete core) (fun s => runningCommand s core = none) ∧
  Happens (.macroExchange core mac)
    (fun s => nextCommand s core = some c ∧ exchangeReady s core mac = true ∧ ∃ g, s.work.groups.find c.wg = some g ∧
      macroSource s core g mac = none)
    (fun s t => t.macro core mac = { Macro.init with owner := some c.wg } ∧ (∀ m < 16, m ≠ mac → t.macro core m = s.macro core m) ∧
      ∀ o x, (s.macro core mac).owner = some o → s.work.groups.find o = some x →
        t.work.groups.find o = some { x with spill := x.spill ||| (1#16 <<< mac) }) ∧
  Idle (.macroExchange core mac) (fun s => nextCommand s core = none)

/-- R197 to R203, R417: arming and disarming write a slot's register; an entry at the head starts when its sync word is reached, and its
completion writes the status byte, which another package acknowledges first, and then, unless a format or translation error stops the chain, the sequence number and the head. A frame
is encoded from its inputs, and its entry ends with status 9 when the unit would pass the limit. -/
def Obligations.ChainEvents : Prop := ∀ (slot : Nat) (w : BitVec 64) (j : ChainJob) (st : Nat),
  let register : BitVec 64 := BitVec.ofNat 64 (w.toNat % 2 ^ 52 / 64 * 64 + w.toNat % 2)
  let stated (s : State) : State :=
    if j.posted then s
    else
      let s := s.onChain slot fun x => { x with job := some { j with posted := true } }
      match j.entry with
      | some (e, va) => s.pageWrite e (va + 63) [BitVec.ofNat 8 st]
      | none => s
  Happens (.chainSlotArm slot w) (fun _ => slot < 48 ∧ w.getLsbD 0 = true)
    (fun s t => t.chainSlot slot = { s.chainSlot slot with reg := register } ∧ (∀ n, n ≠ slot → t.chainSlot n = s.chainSlot n) ∧
      t = ({ s with eng := { s.eng with slots := t.eng.slots } } : State).poolDrop (w.toNat % 2 ^ 52 / 64 * 64) 64) ∧
  Happens (.chainSlotDisarm slot w) (fun _ => slot < 48 ∧ w.getLsbD 0 = false)
    (fun s t => t.chainSlot slot = { s.chainSlot slot with reg := register } ∧ (∀ n, n ≠ slot → t.chainSlot n = s.chainSlot n) ∧
      t = { s with eng := { s.eng with slots := t.eng.slots } }) ∧
  Happens (.chainEntryStart slot) (fun s => entryStartReady s slot = true ∧ nextJob s slot = some j) (fun s t =>
    SameHome s t ∧ (t.chainSlot slot).job = some j ∧ (t.chainSlot slot).reg = (s.chainSlot slot).reg ∧
    (j.status = none → slot < 16 → ∃ id ≥ s.fresh, t.eng.copy = s.eng.copy ++ [chainCommand id slot j.ctx j.words])) ∧
  Idle (.chainEntryStart slot) (fun s => slotIdle s slot = false) ∧
  Happens (.chainEntryComplete slot)
    (fun s => entryStatus s slot = some (j, st) ∧ (∀ e va, j.entry = some (e, va) → j.posted = false → s.homed (e.at va + 63) = true) ∧
      ((stated s).poolRead j.block 64).isSome = true) (fun s t =>
    let y := stated s
    t.chainSlot slot = { s.chainSlot slot with job := none } ∧ (∀ c ∈ t.eng.copy, c.slot ≠ some slot) ∧
    t.mem = (if st = 5 ∨ st = 6 then y.poolWrite (j.block + 40) (leBytes 8 (1 + 2 ^ 8 * st + 2 ^ 16 * (j.index % 2 ^ 16)))
      else (y.poolWrite (j.block + 32) (leBytes 8 ((y.blockField j.block 32 8 + 1) % 2 ^ 64))).poolWrite (j.block + 16)
        (leBytes 8 ((j.index + 1) % 2 ^ 32))).mem) ∧
  (∀ e va, Happens (.chainEntryComplete slot)
    (fun s => entryStatus s slot = some (j, st) ∧ j.posted = false ∧ j.entry = some (e, va) ∧ s.homed (e.at va + 63) = false ∧ e.mirror = false)
    (fun s t =>
      let pa := e.at va + 63
      let pkg := s.homePackage pa
      t = (s.onChain slot fun x => { x with job := some { j with posted := true, acks := [pkg] } }).send pkg false
        (.write s.cfg.pkg (chainTag slot) pa e.kind false [(BitVec.ofNat 8 st, false)] none))) ∧
  Idle (.chainEntryComplete slot) (fun s => entryStatus s slot = none) ∧
  (∀ l c x p, let f := encodeFields j.words
    let held := (leNat (x.take 8)).testBit 0
    let key := f.key || !held || (leNat (x.take 8)) % 2 ^ 20 != f.header
    let unit := temporalUnit f [f.width, f.height, if f.deep then 1 else 0, if key then 1 else 0, f.columns, f.index] l c (if held then x else [])
    Happens (.encodeFrameComplete slot)
      (fun s => encodeRunning s slot = some j ∧ encodeInputs s j = some (l, c, x, p) ∧ s.cfg.deadSlices = 0)
      (fun _ t => ∃ y, (t.chainSlot slot).job = some y ∧ y = { j with
        acks := y.acks
        status := some (if held = true ∧ leNat (x.take 8) / 2 ^ 20 ≠ 0 then 5 else if f.limit < 4 + unit.length then 9 else if p then 10 else 0) }) ∧
    16 ≤ unit.length) ∧
  Idle (.encodeFrameComplete slot) (fun s => encodeRunning s slot = none)

/-! Work distribution (spec/07, spec/09). -/

/-- R162, R215, R216, R379, R429: the package distributor and the rack root take the oldest record: its grid stands in the queue with every
work-group to place; one whose fields or bough chain are refused only has its completion record written. -/
def Obligations.LaunchRecordEvents : Prop := ∀ (r : LaunchRecord) (rs : List LaunchRecord) (g : Grid) (st : Nat) (bs : List Byte),
  let queued (s t : State) (level : Nat) (g : Grid) (skip : Bool) : Prop :=
    let n := s.work.grids.fresh
    (∀ k, t.work.grids.find k = if k = n then some g else s.work.grids.find k) ∧ t.dist.remaining.find n = some (recordCount g.record) ∧
    (t.level level).queue = (s.level level).queue ++ [⟨n, [], 0, recordCount g.record, skip, none, [], 0⟩] ∧
    (∀ k, k ≠ level → t.level k = s.level k) ∧
    t = { s with
      work := { s.work with grids := t.work.grids }
      dist := t.dist
      fab := { s.fab with buffer := [] } }
  Happens (.launchRecordTake 0) (fun s => s.dist.records = r :: rs ∧ formGrid s r none = .ok g)
    (fun s t => queued s t 2 g true ∧ t.dist.records = rs) ∧
  Happens (.launchRecordTake 0) (fun s => s.dist.records = r :: rs ∧ r.job = none ∧ r.owner = none ∧ formGrid s r none = .refuse st)
    (fun s t => t = writeCompletion (clearBuffer { s with dist := { s.dist with records := rs } }) r.ctx (r.words.getD 10 0).toNat st) ∧
  Idle (.launchRecordTake 0) (fun s => s.dist.records = []) ∧
  Happens (.launchRecordTake 1)
    (fun s => rackReady s = true ∧ s.poolRead (rackPlace s) 128 = some (bs, false) ∧
      let ws : List DWord := (List.range 16).map fun i => BitVec.ofNat 64 (leNat ((bs.drop (8 * i)).take 8))
      let origin := s.dist.origins.getD s.dist.rackHead (none, none)
      formGrid s ⟨ws, (ws.getD 12 0).toNat % 2 ^ 11, rackPlace s, origin.1, none, origin.2⟩ none = .ok g)
    (fun s t => queued s t 0 { g with launch := some s.work.grids.fresh } false ∧ t.dist.rackHead = s.dist.rackHead + 1 ∧
      t.dist.published = s.dist.published.erase s.dist.rackHead) ∧
  Idle (.launchRecordTake 1) (fun s => rackReady s = false) ∧
  ∀ (s : State) (l : Option Nat) (c : List Block),
    (recordBad r.words = true → formGrid s r l = .refuse 5) ∧
    (s.rootTable r.ctx = none → formGrid s r l = .refuse 5) ∧
    (recordBad r.words = false → s.rootTable r.ctx ≠ none → systemAway s = false →
      readBlocks s r.ctx 16 (r.words.getD 0 0).toNat = .ok c → chainBad r.ctx c = true → formGrid s r l = .refuse 5) ∧
    (recordBad r.words = false → s.rootTable r.ctx ≠ none → systemAway s = false →
      readBlocks s r.ctx 16 (r.words.getD 0 0).toNat = .ok c → chainBad r.ctx c = false →
      r.within = none → recordGang r.words > 32 → formGrid s r l = .refuse 4) ∧
    (formGrid s r l = .ok g → g.record = r.words ∧ g.ctx = BitVec.ofNat 11 r.ctx ∧ g.failed = false ∧ g.dropped = false ∧ g.job = r.job ∧
      g.launch = l ∧ g.owner = r.owner ∧ g.hashes = [])

/-- R14, R43 to R56, R97, R158, R159: the unit at a chunk's head takes a core of the die for each work-group, distinct for a gang; a resident
work-group starts with its threads at the entry PC, cleared storage, its segments and its constants in s0 to s23, all members of a gang at
once; a warp that has completed leaves. -/
def Obligations.ResidencyEvents : Prop := ∀ die core slot warp wg (x : WorkGroup) (g : Grid) (e : Entry) (u : State),
  let k := warpKey core slot warp
  Happens (.workGroupPlacement die)
    (fun s => placementReady s die = true ∧ dieFate s die = some (e, .place u) ∧ s.work.groups.wf = true ∧
      ∃ z, unitFare s (3 + die) e.grid.unit e.chunk.spent = .go z)
    (fun s t => ∀ id ∈ e.chunk.ids.take e.grid.unit, ∃ n y, s.work.groups.find n = none ∧ t.work.groups.find n = some y ∧
      y.id = BitVec.ofNat 64 id ∧ y.grid = e.chunk.grid ∧ y.hash = BitVec.ofNat 16 (e.grid.unitHash s (e.chunk.ids.headD 0)) ∧ y.core / 32 = die ∧ y.resident = false ∧ n ∈ bufferOf t y.core) ∧
  (∀ d, Happens (.workGroupPlacement die)
    (fun s => placementReady s die = true ∧ dieFate s die = some (e, .redirect d))
    (fun s t => t = enterChunk (s.onLevel (3 + die) fun l => { l with queue := l.queue.erase e.chunk }) (3 + d) e.chunk)) ∧
  Happens (.workGroupPlacement die)
    (fun s => placementReady s die = true ∧ dieFate s die = some (e, .hopeless))
    (fun s t => t = gangUnplaceable s e.chunk.grid e.grid) ∧
  Idle (.workGroupPlacement die) (fun s => placementReady s die = false) ∧
  Happens (.workGroupResidency core)
    (fun s => (∃ rest, bufferOf s core = wg :: rest) ∧ s.work.groups.find wg = some x ∧ s.work.grids.find x.grid = some g ∧ x.core = core ∧
      x.gang = none ∧ constantsReady s x = true ∧
      (x.ranges.map fun r => warpKey core r.1 r.2.1).Nodup ∧ core < 128 ∧ (∀ r ∈ x.ranges, r.1 < 8) ∧ s.mem.scratch.wf = true ∧
      s.mem.acc.wf = true)
    (fun s t => bufferOf t core = (bufferOf s core).tail ∧
      (∃ y, t.work.groups.find wg = some y ∧ y = { x with resident := true, pos := y.pos, spill := 0 }) ∧
      (∀ j r, x.ranges[j]? = some r →
        (∃ w, t.warpAt (warpKey core r.1 r.2.1) = some w ∧ w.wg = wg ∧ w.index = j ∧ w.ctx = g.ctx ∧ w.rings = [] ∧ w.run = none ∧
          (match loadConstants s g.ctx.toNat (g.record.getD 8 0).toNat ((g.record.getD 9 0).toNat % 2 ^ 32) with
            | .ok ws => w.sregs = ws ∧ w.startFault = none
            | .error f => w.sregs = List.replicate 24 PWord.zero ∧ w.startFault = some f) ∧ w.lsn = BitVec.ofNat 32 (s.dist.serials.getD g.ctx.toNat 0 + j) ∧
          w.segs.sbase = BitVec.ofNat 19 (4096 * x.scr.1) ∧ w.segs.slim = BitVec.ofNat 20 (4096 * recordScratch g.record) ∧
          w.segs.gbase = BitVec.ofNat 57 (g.record.getD 6 0).toNat ∧ w.segs.glim = BitVec.ofNat 57 (g.record.getD 7 0).toNat ∧
          ∀ l < 32, (w.lane l).exited = false ∧ (w.lane l).commits = [] ∧ (w.lane l).preds = 0 ∧ (w.lane l).flags = 0 ∧ (w.lane l).window = 0 ∧
            ((w.lane l).present = true ↔ (if g.eff.protect then 16 * j + l / 2 else 32 * j + l) < recordThreads g.record) ∧
            ((w.lane l).present = true → (w.lane l).pc = BitVec.ofNat 57 (g.record.getD 1 0).toNat)) ∧
        ∀ i < 32 * 2 ^ r.2.2.2, ∀ l < 33, t.reg (regKey core r.1 l (32 * r.2.2.1 + i)) = PWord.zero) ∧
      (∀ a < 4096 * x.scr.2, t.mem.scratch.read (scratchAddr core (4096 * x.scr.1) + a) = 0) ∧
      (∀ a < tileSize * x.tiles.2, t.mem.acc.read (tileAddr core x.tiles.1 0 + a) = 0) ∧ t.mem.hbm = s.mem.hbm ∧ t.mem.exch = s.mem.exch) ∧
  (∀ xs, Happens (.workGroupResidency core)
    (fun s => residents s core = xs ∧ ∀ y ∈ xs, constantsReady s y.2 = true ∧ (s.work.grids.find y.2.grid).isSome = true)
    (fun _ t => ∀ y ∈ xs, ∃ z, t.work.groups.find y.1 = some z ∧ z.resident = true)) ∧
  Idle (.workGroupResidency core) (fun s => bufferOf s core = [] ∨ ∃ y ∈ residents s core, constantsReady s y.2 = false) ∧
  (∀ w, Happens (.warpComplete core slot warp)
    (fun s => s.warpAt k = some w ∧ completeReady w = true ∧ s.work.groups.find w.wg = some x ∧
      ∃ y ∈ x.warps.set w.index (goneWarp w.index), y.1 ≠ 2 ^ 20)
    (fun s t => t.warpAt k = none ∧ ∃ u, t = settleBarriers u w.wg x.gang ∧ u = { s with
      thr := { s.thr with warps := s.thr.warps.erase k }
      work := { s.work with groups := u.work.groups } } ∧
      u.work.groups.find w.wg = some { x with warps := x.warps.set w.index (goneWarp w.index) })) ∧
  (∀ w, Happens (.warpComplete core slot warp)
    (fun s => s.warpAt k = some w ∧ completeReady w = true ∧ s.work.groups.find w.wg = some x ∧
      ∀ y ∈ x.warps.set w.index (goneWarp w.index), y.1 = 2 ^ 20)
    (fun _ t => t.warpAt k = none ∧ t.work.groups.find w.wg = none)) ∧
  Idle (.warpComplete core slot warp) (fun s => ∀ w, s.warpAt k = some w → completeReady w = false)

/-- R15, R153 to R157: a level routes the next unit of the part that goes first to its child's open chunk, within 16 work-groups a tick, or
sets it aside while that child is blocked, and its work-groups carry their hash from then on; a larger gang takes whole budgets first. Of the
closed chunks whose child has room, the first in the order of R156 passes down. R160, R161, R182: an idle package distributor asks the victims
of its tray one after another, the next after one that has declined, and looks again 200 ticks after the last; an idle die distributor takes
half of the stealable chunks of a victim that has two, the newest first, as far as its queue has room. Under host-assisted stealing both ask,
and do what the answer names. R166, R167, R182: the pruner chooses moves for a core on which a stuck head would fit, or asks; a step stops the
owners of the next move and then, at their run boundaries, moves the block and its bases; while a contract job is active on the core's set no
step goes on; an answer's moves are made where they are possible. -/
def Obligations.DistributionEvents : Prop :=
  (∀ level index (x : Entry) (id : Nat) (aside : Bool) child (c : Chunk),
    let due (s : State) : Prop := routeReady s level = true ∧ routeEntry s level = some x ∧ nextUnit s level x = some (id, aside) ∧
      dropsAt level x.grid = false ∧ x.grid.unit ≤ 16
    let to' (s : State) : Nat := childOf s level x.grid (x.grid.unitHash s id)
    let spent (s t : State) : Prop := (t.level level).tick = s.clk.ref.toNat ∧
      (t.level level).used = (if (s.level level).tick = s.clk.ref.toNat then (s.level level).used else 0) + x.grid.unit ∧
      (∀ k, k ≠ level → t.level k = s.level k) ∧
      (∀ k, t.work.grids.find k = if k = x.chunk.grid then (s.work.grids.find k).map fun g => { g with
          hashes := g.hashes.insert (id / x.grid.unit * x.grid.unit) (BitVec.ofNat 16 (x.grid.unitHash s id)) }
        else s.work.grids.find k) ∧
      t = { s with
        dist := { s.dist with levels := t.dist.levels }
        work := { s.work with grids := t.work.grids } }
    Happens (.workGroupRoute level index) (fun s => due s ∧ childBlocked s level (to' s) = false)
      (fun s t => spent s t ∧ ∃ y ∈ (t.level level).opened ++ (t.level level).closed, y.1 = to' s ∧ y.2.grid = x.chunk.grid ∧
        ∀ i < x.grid.unit, id + i ∈ y.2.ids) ∧
    Happens (.workGroupRoute level index) (fun s => due s ∧ childBlocked s level (to' s) = true)
      (fun s t => spent s t ∧ (t.level level).opened = (s.level level).opened ∧ (t.level level).closed = (s.level level).closed ∧
        ∃ y ∈ (t.level level).queue, y.grid = x.chunk.grid ∧ ∀ i < x.grid.unit, id + i ∈ y.ids) ∧
    Happens (.workGroupRoute level index)
      (fun s => routeReady s level = true ∧ routeEntry s level = some x ∧ nextUnit s level x = some (id, aside) ∧ dropsAt level x.grid = false ∧
        16 < x.grid.unit ∧ x.chunk.spent < x.grid.unit)
      (fun s t => (t.level level).used = 16 ∧ (t.level level).tick = s.clk.ref.toNat ∧
        { x.chunk with spent := x.chunk.spent + 16 } ∈ (t.level level).queue ∧ t = { s with dist := { s.dist with levels := t.dist.levels } }) ∧
    Idle (.workGroupRoute level index) (fun s => routeReady s level = false) ∧
    Happens (.chunkPassDown level index)
      (fun s => passReady s level index = true ∧ (s.level level).closed[index]? = some (child, c))
      (fun s t =>
        let u := s.onLevel level fun l => { l with closed := l.closed.erase (child, c) }
        t = match level with
          | 0 => if s.trayDistributor child = s.cfg.pkg then enterChunk u 1 c else sendChunk u (s.trayDistributor child) 1 c
          | 1 => if child = s.cfg.pkg then enterChunk u 2 c else sendChunk u child 2 c
          | _ => enterChunk u (3 + child) c) ∧
    Idle (.chunkPassDown level index) (fun s => ∀ x, (s.level level).closed[index]? = some x → childRoom s level x.1 = false) ∧
    ∀ s : State, passReady s level index = true → (s.level level).closed[index]? = some (child, c) → childRoom s level child = true ∧
      ∀ y ∈ (s.level level).closed, childRoom s level y.1 = true → ∀ g h, s.work.grids.find c.grid = some g → s.work.grids.find y.2.grid = some h →
        keyBefore (gridOrder s h) (gridOrder s g) = false) ∧
  (∀ die thief count tag victim given (e : HostEvent),
    let asks (s t : State) (level die : Nat) : Prop := t.dist.asked = s.dist.asked ++ [level] ∧
      ∃ x ∈ t.host.pending, x.kind = 2 ∧ x.die = die ∧ x.payload = [BitVec.ofNat 64 s.cfg.pkg, 0, 0, 0, 0, 0, 0]
    let later (s t : State) (level : Nat) : Prop := t = { s with dist := { s.dist with retry := t.dist.retry } } ∧
      ∀ k, t.dist.retry.find k = if k = level then some (s.clk.ref.toNat + 200) else s.dist.retry.find k
    let moved (s t : State) (a b n : Nat) : Prop :=
      let xs := (stealables s (3 + a)).take (min n (queueRoom s (3 + b)))
      (t.level (3 + a)).queue = xs.foldl List.erase (s.level (3 + a)).queue ∧
      (t.level (3 + b)).queue = (s.level (3 + b)).queue ++ xs.map Chunk.moved ∧
      (∀ k, k ≠ 3 + a → k ≠ 3 + b → t.level k = s.level k) ∧ t.thr = s.thr ∧ t.mem = s.mem ∧ t.work = s.work
    let free (s : State) : Prop := packageIdle s = true ∧ mayRetry s 2 = true
    let looks (s : State) (from' : Nat) : Prop := free s ∧ s.hostMode 2 = false ∧
      (s.dist.asking = none ∧ from' = s.cfg.pkg ∨ s.dist.asking = some (from', true))
    (∀ a v, Happens (.packageSteal victim given) (fun s => looks s a ∧ nextVictim s a = some v ∧ s.mayPost v false = true)
      (fun s t => t = askVictim s v 0 ∧ v / 16 = s.cfg.pkg / 16 ∧ v ≠ s.cfg.pkg)) ∧
    (∀ a, Happens (.packageSteal victim given) (fun s => looks s a ∧ nextVictim s a = none)
      (fun s t => later { s with dist := { s.dist with asking := none } } t 2)) ∧
    Happens (.packageSteal victim given) (fun s => free s ∧ s.hostMode 2 = true ∧ s.dist.asking = none ∧ 2 ∉ s.dist.asked) (fun s t => asks s t 2 4) ∧
    Idle (.packageSteal victim given) (fun s => packageIdle s = false ∨ mayRetry s 2 = false ∨ ∃ v, s.dist.asking = some (v, false)) ∧
    Happens (.dieSteal die) (fun s => dieStealReady s die = true ∧ s.hostMode 2 = false ∧ dieVictim s die = none) (fun s t => later s t (3 + die)) ∧
    (∀ v, Happens (.dieSteal die) (fun s => dieStealReady s die = true ∧ s.hostMode 2 = false ∧ dieVictim s die = some v)
      (fun s t => v ≠ die ∧ 2 ≤ (stealables s (3 + v)).length ∧ moved s t v die ((stealables s (3 + v)).length / 2))) ∧
    Happens (.dieSteal die) (fun s => dieStealReady s die = true ∧ s.hostMode 2 = true ∧ 3 + die ∉ s.dist.asked) (fun s t => asks s t (3 + die) die) ∧
    Idle (.dieSteal die) (fun s => dieStealReady s die = false) ∧
    Happens (.stealRequest thief count) (fun s => thief / 16 = s.cfg.pkg / 16 ∧ thief ≠ s.cfg.pkg) (fun s t =>
      let xs := (stealables s 2).take (if count = 0 then (if (stealables s 2).length ≤ 1 then 0 else (stealables s 2).length / 2) else count)
      (t.level 2).queue = xs.foldl List.erase (s.level 2).queue ∧ (∀ k, k ≠ 2 → t.level k = s.level k) ∧
      (xs = [] → t = s.send thief false .stealNone) ∧
      t = { s with
        dist := { s.dist with levels := t.dist.levels }
        fab := t.fab }) ∧
    Idle (.stealRequest thief count) (fun s => thief / 16 ≠ s.cfg.pkg / 16 ∨ thief = s.cfg.pkg) ∧
    Happens (.stealAnswer tag victim count) (fun s => pendingEvent s 2 tag = some e ∧ e.die < 4 ∧ victim < 4 ∧ victim ≠ e.die ∧ 0 < count)
      (fun s t => moved s t victim e.die count ∧ e ∉ t.host.pending ∧ 3 + e.die ∉ t.dist.asked) ∧
    Happens (.stealAnswer tag victim count)
      (fun s => pendingEvent s 2 tag = some e ∧ e.die = 4 ∧ victim / 16 = s.cfg.pkg / 16 ∧ victim ≠ s.cfg.pkg ∧ s.reachable victim = true ∧
        s.dist.asking = none ∧ 0 < count)
      (fun s t => t = askVictim { s with
        host := { s.host with pending := s.host.pending.filter (· ≠ e) }
        dist := { s.dist with asked := s.dist.asked.filter (· ≠ 2) } } victim count) ∧
    Idle (.stealAnswer tag victim count) (fun s => pendingEvent s 2 tag = none)) ∧
  (∀ core tag (x : Entry) (m : PruneMove) (e : HostEvent) (moves : List (Nat × Nat × Nat)),
    Happens (.prunerTrigger core) (fun s => pruneFor s core = some x ∧ (∀ m ∈ s.dist.moves, m.core ≠ core) ∧ s.hostMode 3 = false)
      (fun s t => t = { s with dist := { s.dist with moves := s.dist.moves ++ pruneMoves s core x.grid } }) ∧
    Happens (.prunerTrigger core)
      (fun s => pruneFor s core = some x ∧ (∀ m ∈ s.dist.moves, m.core ≠ core) ∧ s.hostMode 3 = true ∧ ∀ e ∈ s.host.pending, e.kind ≠ 4)
      (fun s t => t.dist = s.dist ∧ ∃ e ∈ t.host.pending, e.kind = 4 ∧ e.die = core / 32 ∧ e.payload = prunePayload core x.grid) ∧
    Idle (.prunerTrigger core) (fun s => pruneFor s core = none) ∧
    Happens (.prunerMoveStep core) (fun s => nextPrune s core = some m ∧ moveValid s m = false)
      (fun s t => t = { s with dist := { s.dist with moves := s.dist.moves.erase m } }) ∧
    Happens (.prunerMoveStep core) (fun s => nextPrune s core = some m ∧ moveValid s m = true ∧ jobActive s core = true ∧ m.stopped = true)
      (fun s t => t = { s with dist := { s.dist with moves := s.dist.moves.map fun x => if x = m then { x with stopped := false } else x } }) ∧
    Happens (.prunerMoveStep core) (fun s => nextPrune s core = some m ∧ moveValid s m = true ∧ jobActive s core = false ∧ m.stopped = false)
      (fun s t => t = { s with dist := { s.dist with moves := s.dist.moves.map fun x => if x = m then { x with stopped := true } else x } }) ∧
    (∀ y, Happens (.prunerMoveStep core)
      (fun s => nextPrune s core = some m ∧ moveValid s m = true ∧ jobActive s core = false ∧ m.stopped = true ∧ moveReady s m = true ∧ m.kind = 1 ∧
        s.work.groups.find m.wg = some y ∧ s.thr.warps.wf = true ∧ s.mem.scratch.wf = true ∧ m.old + m.size ≤ 128 ∧ m.new + m.size ≤ 128 ∧
        (m.old + m.size ≤ m.new ∨ m.new + m.size ≤ m.old))
      (fun s t => t.work.groups.find m.wg = some { y with scr := (m.new, y.scr.2) } ∧
        (∀ a < 4096 * m.size, t.mem.scratch.read (scratchAddr core (4096 * m.new) + a) = s.mem.scratch.read (scratchAddr core (4096 * m.old) + a)) ∧
        (∀ k ∈ moveOwners s m, ∀ w, s.warpAt k = some w → t.warpAt k = some { w with segs := { w.segs with
          sbase := w.segs.sbase + BitVec.ofNat 19 (4096 * m.new) - BitVec.ofNat 19 (4096 * m.old) } }) ∧
        t.mem.hbm = s.mem.hbm ∧ t.mem.acc = s.mem.acc ∧ t.thr.regs = s.thr.regs)) ∧
    Idle (.prunerMoveStep core) (fun s => pruneStepReady s core = false) ∧
    Happens (.pruneAnswer tag moves) (fun s => pendingEvent s 4 tag = some e ∧ jobActive s (e.payload.headD 0).toNat = true)
      (fun s t => t = { s with host := { s.host with pending := s.host.pending.filter (· ≠ e) } }) ∧
    (∀ a b c y, moves = [(a, b, c)] → Happens (.pruneAnswer tag moves)
      (fun s => pendingEvent s 4 tag = some e ∧ jobActive s (e.payload.headD 0).toNat = false ∧
        namedMove s (e.payload.headD 0).toNat (a % 4) (a / 4) b c = some y)
      (fun s t => t = { s with
        host := { s.host with pending := s.host.pending.filter (· ≠ e) }
        dist := { s.dist with moves := s.dist.moves ++ [y] } })) ∧
    Idle (.pruneAnswer tag moves) (fun s => pendingEvent s 4 tag = none))

/-! Contracts, clocks, pre-emption and the control of contexts (spec/07, spec/09, spec/19). -/

/-- R170 to R175, R182, R224, R225: a release enters the package queue with its job and deadline, or is skipped and counted while the last job
is not complete; a deadline that passes and a budget that is used up are counted; an admission ends with its status, and a request that passes
holds an entry; a contract that is removed leaves with its last job. R175, R231, R241: a step of a die's clock waits for its moment, unless it
would take a contract's die below 1.2 GHz, and for the jobs of the die's contracts; its effect sets the code, records the step and stalls the
clock crossings for its ticks. -/
def Obligations.ContractAndClockEvents : Prop :=
  (∀ n tag status places (c : Contract) (j : Job) (bs : List Byte) (w : BitVec 64) (x : HostEvent),
    let has (s : State) : Prop := s.work.contracts.find n = some c
    let now (s : State) : Nat := s.clk.ref.toNat
    let next : Nat := c.next + entryP c.entry
    Happens (.contractRelease n) (fun s => has s ∧ releaseDue s c = true ∧ c.job ≠ none)
      (fun s t => t = (s.setContract n { c with next := next }).bump (0x3808 + 16 * n) 1) ∧
    Happens (.contractRelease n)
      (fun s => has s ∧ releaseDue s c = true ∧ c.job = none ∧ s.poolRead (entryWord c.entry 6) 128 = some (bs, false) ∧
        setStopped s (((contractRecord c bs).getD 12 0).toNat % 2 ^ 11) (entryCores c.entry) = false)
      (fun s t => t.work.contracts.find n = some { c with
          next := next
          job := some ⟨c.next, c.next + entryD c.entry, 0, true, false⟩
          ctx := some (((contractRecord c bs).getD 12 0).toNat % 2 ^ 11) } ∧
        t.dist = { s.dist with records := s.dist.records ++
          [⟨contractRecord c bs, ((contractRecord c bs).getD 12 0).toNat % 2 ^ 11, entryWord c.entry 6, none, some n, none⟩] } ∧
        t.counts = s.counts ∧ t.thr = s.thr ∧ t.mem = s.mem ∧ ∀ k, k ≠ n → t.work.contracts.find k = s.work.contracts.find k) ∧
    Idle (.contractRelease n) (fun s => has s ∧ (entryState c.entry ≠ 1 ∨ now s < c.next)) ∧
    Happens (.deadlineMiss n) (fun s => has s ∧ c.job = some j ∧ j.missed = false ∧ j.deadline < now s)
      (fun s t => t = (s.setContract n { c with job := some { j with missed := true } }).bump (0x3804 + 16 * n) 1) ∧
    Idle (.deadlineMiss n) (fun s => has s ∧ (c.job = none ∨ (c.job = some j ∧ (j.missed = true ∨ now s ≤ j.deadline)))) ∧
    Happens (.budgetOverrun n) (fun s => has s ∧ c.job = some j ∧ j.active = true ∧ entryB c.entry ≤ j.charge)
      (fun s t => t = (s.setContract n { c with job := some { j with active := false } }).bump (0x3800 + 16 * n) 1) ∧
    Idle (.budgetOverrun n) (fun s => has s ∧ (c.job = none ∨ (c.job = some j ∧ (j.active = false ∨ j.charge < entryB c.entry)))) ∧
    Happens .contractAdmission (fun s => s.hostMode 1 = false) (fun s t =>
      let e := admissionRequest s
      let st := admissionStatus s e
      t.cfg32 0x4040 = st ∧ t.count (0x3C00 + 4 * st) = min (s.count (0x3C00 + 4 * st) + 1) (2 ^ 32 - 1) ∧ (st ≠ 0 → t.work = s.work) ∧
      (st = 0 → ∃ k < 64, s.work.contracts.find k = none ∧ ∃ rs, footprint s e (bitCores (entryCores e)) = some rs ∧
        t.work.contracts.find k = some ⟨withState e 1, firstRelease s e, none, rs, none⟩) ∧
      t = { s with
        work := { s.work with contracts := t.work.contracts }
        att := { s.att with regs := t.att.regs }
        counts := t.counts }) ∧
    Happens .contractAdmission (fun s => s.hostMode 1 = true ∧ ∀ e ∈ s.host.pending, e.kind ≠ 3) (fun s t => t.work = s.work ∧
      ∃ e ∈ t.host.pending, e.kind = 3 ∧ e.die = 4 ∧ e.payload = (admissionRequest s).take 7) ∧
    Happens (.admissionAnswer tag status places) (fun s => pendingEvent s 3 tag = some x ∧ status ≠ 0)
      (fun s t => t = answerAdmission (s.answered x) (status % 256)) ∧
    Happens (.admissionAnswer tag status places)
      (fun s => pendingEvent s 3 tag = some x ∧ status = 0 ∧ (∀ k < 64, s.work.contracts.find k ≠ none))
      (fun s t => t = answerAdmission (s.answered x) 2) ∧
    Idle (.admissionAnswer tag status places) (fun s => pendingEvent s 3 tag = none) ∧
    Happens (.contractRemove w)
      (fun s => commandCode w = 5 ∧ commandRack w = false ∧ s.commandStatus ≠ 0 ∧ n = w.toNat / 2 ^ 32 % 64 ∧ has s ∧
        s.poolRead (entryWord c.entry 6 + 96) 8 = some (bs, false) ∧ leNat bs % 2 ^ 11 = commandCtx w)
      (fun _ t => t.commandStatus = 1 ∧
        t.work.contracts.find n = if c.job = none then none else some { c with entry := withState c.entry 2 }) ∧
    ∀ (s : State) (e : List DWord), admissionStatus s e = 0 →
      3200 ≤ entryP e ∧ 0 < entryB e ∧ entryB e ≤ entryP e ∧ entryD e ≤ entryP e ∧ entryB e + 1600 ≤ entryD e ∧ entryCores e ≠ 0 ∧
      s.work.contracts.length < 64 ∧ (contractsOn s (entryCores e)).length ≤ 7 ∧
      ∀ y ∈ s.work.contracts, entryCores y.2.entry = entryCores e ∨ entryCores y.2.entry &&& entryCores e = 0) ∧
  (∀ die code stall since,
    let slow (s : State) : Prop := code < 12 ∧ ∃ x ∈ s.work.contracts, entryCores x.2.entry &&& dieSlices die ≠ 0
    let others (s t : State) : Prop := (∀ d, d ≠ die → t.dieClock d = s.dieClock d) ∧ t = { s with clk := { s.clk with dies := t.clk.dies } }
    Happens (.frequencyStepRequest die code) (fun s => (s.dieClock die).running = true ∧ code ≤ 24 ∧ ¬ slow s) (fun s t => others s t ∧
      t.dieClock die = { s.dieClock die with pending := some (code, s.clk.ref.toNat) }) ∧
    Idle (.frequencyStepRequest die code) (fun s => (s.dieClock die).running = false ∨ 24 < code ∨ slow s) ∧
    Happens (.frequencyStepEffect die stall)
      (fun s => stepReady s die stall = true ∧ (s.dieClock die).pending = some (code, since) ∧ ¬ slow s)
      (fun s t => others s t ∧
        let d := s.dieClock die
        t.dieClock die = { d with
          code := code
          pending := none
          stallEnd := some (s.clk.ref.toNat + stall)
          steps := (⟨s.clk.ref, d.cyc, d.code, code, stall, (d.stepCount + 1) % 256, d.frac⟩ :: d.steps).take 8
          stepCount := d.stepCount + 1 }) ∧
    Happens (.frequencyStepEffect die stall)
      (fun s => stepReady s die stall = true ∧ (s.dieClock die).pending = some (code, since) ∧ slow s)
      (fun s t => others s t ∧ t.dieClock die = { s.dieClock die with pending := none }) ∧
    Idle (.frequencyStepEffect die stall) (fun s => 800 < stall ∨ s.dieBusy die = true ∨ (s.dieClock die).pending = none ∨
      ∃ x ∈ s.work.contracts, entryCores x.2.entry &&& dieSlices die ≠ 0 ∧ entryState x.2.entry = 1 ∧ x.2.next < s.clk.ref.toNat + stall) ∧
    Happens (.clockCrossingStallEnd die) (fun s => ∃ e, (s.dieClock die).stallEnd = some e ∧ e ≤ s.clk.ref.toNat)
      (fun s t => others s t ∧ t.dieClock die = { s.dieClock die with stallEnd := none }) ∧
    Idle (.clockCrossingStallEnd die) (fun s => ∀ e, (s.dieClock die).stallEnd = some e → s.clk.ref.toNat < e))

/-- R177 to R180, R265: a pre-emption drains its context's cores, then has every warp stop with a snapshot; a work-group that stands still is saved
into the area, with the members of its gang, or reset when it does not fit; at the snapshot limit the rest is reset, and the requester is told. -/
def Obligations.PreemptionEvents : Prop := ∀ core slot warp wg ctx (c : BitVec 64) (p : Preempt) (g : WorkGroup) (d : Grid) w xs a,
  let k := warpKey core slot warp
  let areaEnd (p : Preempt) : Nat := indexSize + p.used
  Happens (.contextPreempt c)
    (fun s => commandCode c = 1 ∧ commandRack c = false ∧ s.commandStatus ≠ 0 ∧ (windowArgs s).area % 4096 = 0 ∧
      (windowArgs s).length % 4096 = 0 ∧ indexSize ≤ (windowArgs s).length ∧ areaBacked s (windowArgs s).area (windowArgs s).length = true ∧
      findPreempt s (commandCtx c) = none)
    (fun s t => t.commandStatus = 0 ∧ t.thr = s.thr ∧ t.mem = s.mem ∧ t.work = s.work ∧
      t.ctl.barred.getD (commandCtx c) 0 = s.ctl.barred.getD (commandCtx c) 0 ||| (windowArgs s).cores ∧
      ∃ q, t.ctl.preempts = s.ctl.preempts ++ [q] ∧ q.ctx = commandCtx c ∧ q.cores = (windowArgs s).cores ∧ q.snap = false ∧
        q.drainEnd = s.clk.ref.toNat + (windowArgs s).td ∧ q.snapEnd = s.clk.ref.toNat + (windowArgs s).td + (windowArgs s).ts ∧
        q.groups = (preemptGroups s (commandCtx c) (windowArgs s).cores).map (fun x => (x.1, x.2.id)) ∧ q.outcomes = [] ∧ q.rack = 0 ∧ q.own = true) ∧
  Happens (.contextPreempt c)
    (fun s => commandCode c = 1 ∧ commandRack c = false ∧ s.commandStatus ≠ 0 ∧ (windowArgs s).area % 4096 = 0 ∧
      (windowArgs s).length % 4096 = 0 ∧ ((windowArgs s).length < indexSize ∨ areaBacked s (windowArgs s).area (windowArgs s).length = false))
    (fun s t => t.commandStatus = 2 ∧ t.ctl = s.ctl) ∧
  Happens (.drainLimitExpiry ctx) (fun s => findPreempt s ctx = some p ∧ drainReady s p = true ∧ preemptEmpty s p = true)
    (fun s t => t = completePreempt s p) ∧
  Happens (.drainLimitExpiry ctx) (fun s => findPreempt s ctx = some p ∧ drainReady s p = true ∧ preemptEmpty s p = false) (fun s t =>
    findPreempt t ctx = some { p with snap := true } ∧ t.mem = s.mem ∧ t.work = s.work ∧
    ∀ key u, s.warpAt key = some u → t.warpAt key = some (if ∃ x ∈ preemptGroups s p.ctx p.cores, key ∈ groupKeys x.2 then
      { u with snapshot := true } else u)) ∧
  Idle (.drainLimitExpiry ctx) (fun s => findPreempt s ctx = none ∨ (findPreempt s ctx = some p ∧ (p.snap = true ∨
    (preemptEmpty s p = false ∧ s.clk.ref.toNat < p.drainEnd)))) ∧
  Happens (.warpSnapshot core slot warp) (fun s => s.warpAt k = some w ∧ (snapshotFor s w).isSome = true ∧ w.snapshot = false ∧ w.run ≠ none)
    (fun s t => t.warpAt k = some { w with snapshot := true } ∧ (∀ j, j ≠ k → t.warpAt j = s.warpAt j) ∧
      t = { s with thr := { s.thr with warps := t.thr.warps } }) ∧
  Happens (.warpSnapshot core slot warp) (fun s => s.warpAt k = some w ∧ (snapshotFor s w).isSome = true ∧ w.run = none ∧
      (w.snapshot = false ∨ warpLoads s k ≠ []))
    (fun s t => t.warpAt k = some { w with snapshot := true, lanes := (List.range 32).map (snapshotLane (warpLoads s k) w) } ∧
      (∀ id, (∃ o, (id, o) ∈ warpLoads s k) → t.mem.ops.find id = none) ∧
      t = { s with
        mem := { s.mem with ops := t.mem.ops }
        thr := { s.thr with warps := t.thr.warps } }) ∧
  Idle (.warpSnapshot core slot warp) (fun s => ∀ u, s.warpAt k = some u → snapshotFor s u = none) ∧
  Happens (.workGroupSave wg)
    (fun s => savePlan s wg = some ([(wg, g)], d, p) ∧ findPreempt s p.ctx = some p ∧ macroMissing s wg g = none ∧
      areaEnd p + ((imageBytes s wg g d).length + 4095) / 4096 * 4096 ≤ p.length)
    (fun s t => t.work.groups.find wg = none ∧ (∀ key ∈ groupKeys g, t.warpAt key = none) ∧
      let written := s.poolWrite (p.area + areaEnd p) (imageBytes s wg g d)
      t.ctl.saved.find wg = some ⟨g, p.area + areaEnd p, [], groupWarps written g, polarityOf written g, none, [], failedLanes written g⟩) ∧
  Happens (.workGroupSave wg)
    (fun s => savePlan s wg = some ([(wg, g)], d, p) ∧ findPreempt s p.ctx = some p ∧ macroMissing s wg g = none ∧
      p.length < areaEnd p + ((imageBytes s wg g d).length + 4095) / 4096 * 4096)
    (fun s t => t = settlePreempt ((resetGroup s wg).setPreempt { p.settle wg g.id 2 0 with full := true }) p.ctx) ∧
  Happens (.workGroupSave wg) (fun s => savePlan s wg = some (xs, d, p) ∧ xs.findSome? (fun x => macroMissing s x.1 x.2) = some a)
    (fun s t => t = s.poolAsk a macroImageSize) ∧
  Idle (.workGroupSave wg) (fun s => savePlan s wg = none) ∧
  (∀ s, savePlan s wg = some (xs, d, p) → ∀ x, s.work.groups.find wg = some x → ∀ n, x.gang = some n →
    xs = (gangGroups s n).filter (fun y => !y.2.dead) ∧ ∀ y ∈ xs, saveReady s y.1 y.2 = true) ∧
  Happens (.snapshotLimitExpiry ctx) (fun s => findPreempt s ctx = some p ∧ p.snap = true ∧ preemptEmpty s p = true)
    (fun s t => t = completePreempt s p) ∧
  Happens (.snapshotLimitExpiry ctx)
    (fun s => findPreempt s ctx = some p ∧ p.snap = true ∧ p.snapEnd ≤ s.clk.ref.toNat ∧ preemptGroups s p.ctx p.cores = [(wg, g)])
    (fun s t => t = completePreempt (resetGroup s wg) (p.settle wg g.id 2 0)) ∧
  Idle (.snapshotLimitExpiry ctx) (fun s => findPreempt s ctx = none ∨ (findPreempt s ctx = some p ∧ (p.snap = false ∨
    (preemptEmpty s p = false ∧ s.clk.ref.toNat < p.snapEnd))))

/-- R179, R181, R264, R268, R427: the commands of the context window: the reserved bits of a word are discarded, and while one is busy another is
discarded whole; a resume lets the stopped context's work launch again and restores its images, those of a gang together; a reset stops the context on its cores and resets
its work-groups; a release ends a containment. -/
def Obligations.ContextEvents : Prop := ∀ (w : BitVec 64) wg (r : Restore) (bs : List Byte) (spot : Spot) (k : Nat),
  let command (i : Instr) : Prop := (k = 1 ∧ i = .contextPreempt w) ∨ (k = 2 ∧ i = .contextResume w) ∨ (k = 3 ∧ i = .contextReset w) ∨
    (k = 4 ∧ i = .contextRelease w) ∨ (k = 5 ∧ i = .contractRemove w)
  let ctx := commandCtx w
  let taken (s : State) : State := s.setCfg64 0x6000 (commandWord w).toNat
  let free (s : State) : Prop := commandRack w = false ∧ s.commandStatus ≠ 0
  (∀ i, command i → Idle i (fun s => commandCode w ≠ k ∨ s.commandStatus = 0) ∧
    Happens i (fun s => commandCode w = k ∧ s.commandStatus ≠ 0) (fun _ t => t.cfg64 0x6000 = (commandWord w).toNat)) ∧
  Happens (.contextResume w) (fun s => free s ∧ commandCode w = 2 ∧ contextStopped s ctx = false)
    (fun s t => t = (taken s).setCommandStatus 2) ∧
  (∀ xs, Happens (.contextResume w)
    (fun s => free s ∧ commandCode w = 2 ∧ contextStopped s ctx = true ∧ indexImages s (windowArgs s).area = some xs)
    (fun s t => t.ctl.stopped.find ctx = none ∧ t.ctl.barred.find ctx = none ∧ t.thr = s.thr ∧ t.mem = s.mem ∧ t.work = s.work ∧
      t.ctl.restores = s.ctl.restores ++ (xs.filter fun y => s.ctl.saved.any fun z => z.2.image == y.1).map (fun y => (ctx, y.1, y.2)) ∧
      ((∃ y ∈ t.ctl.restores, y.1 = ctx) → t.commandStatus = 0) ∧
      ((∀ y ∈ t.ctl.restores, y.1 ≠ ctx) → (∀ y ∈ s.ctl.resumes, y.1 ≠ ctx) → t.commandStatus = 1))) ∧
  Happens (.workGroupRestore wg)
    (fun s => restorePlan s wg = [r] ∧ r.image s = some bs ∧ imageBad r.grid.shape bs = false ∧
      (restoreDies r.saved.group).findSome? (restoreSpot s r.grid r.saved.group) = some spot ∧ r.saved.group.halt = none ∧ r.saved.failed = [])
    (fun s t => t.ctl.saved.find wg = none ∧ ∃ y, t.work.groups.find wg = some y ∧ y.core = spot.core ∧ y.scr = spot.scr ∧ y.tiles = spot.tiles ∧
      y.exch = spot.exch ∧ y.ranges = spot.ranges ∧ y.grid = r.saved.group.grid ∧ y.id = BitVec.ofNat 64 (imageNat bs 8 8) ∧
      y.hash = r.saved.group.hash ∧
      y.contained = s.ctl.contained.find r.grid.ctx.toNat) ∧
  Happens (.workGroupRestore wg)
    (fun s => restorePlan s wg = [r] ∧ r.image s = some bs ∧ imageBad r.grid.shape bs = true)
    (fun s t => t.ctl.saved.find wg = none ∧
      t = endRestore (killSaved (s.poolDrop r.saved.image r.grid.shape.macros) r.wg r.saved r.grid) r.entry) ∧
  (∀ xs, Idle (.workGroupRestore wg) (fun s => restorePlan s wg = [] ∨ (planImages s (restorePlan s wg) = some xs ∧ refused xs = [] ∧
    ∀ x ∈ xs.head?, ∀ d ∈ restoreDies x.1.saved.group, restoreOn d xs s = none))) ∧
  Happens (.workGroupRestore wg) (fun s => restorePlan s wg = [r] ∧ r.image s = none)
    (fun s t => t = s.poolAsk r.saved.image r.grid.shape.macros) ∧
  Happens (.contextReset w) (fun s => free s ∧ commandCode w = 3 ∧ s.work.groups.wf = true)
    (fun s t => t.commandStatus = 1 ∧ contextGroups t ctx (windowArgs s).cores = [] ∧
      t.ctl.barred.getD ctx 0 = s.ctl.barred.getD ctx 0 ||| (windowArgs s).cores ∧
      t.ctl.stopped.getD ctx 0 = s.ctl.stopped.getD ctx 0 ||| (windowArgs s).cores) ∧
  Happens (.contextRelease w) (fun s => free s ∧ commandCode w = 4 ∧ ctx ∉ s.ctl.contained.map (·.1))
    (fun s t => t = (taken s).setCommandStatus 2) ∧
  Happens (.contextRelease w) (fun s => free s ∧ commandCode w = 4 ∧ ctx ∈ s.ctl.contained.map (·.1))
    (fun s t => t.commandStatus = 1 ∧ t.ctl.contained.find ctx = none ∧ t.mem = s.mem ∧
      ∀ n y, t.work.groups.find n = some y → ∃ z, s.work.groups.find n = some z ∧ y = { z with contained := y.contained } ∧
        (s.work.groups.wf = true → s.groupCtx n = some ctx → z.dead = false → z.core < 128 → y.contained = none))

/-! The stacks, failed parts and service (spec/05, spec/18, spec/20). -/

/-- R124, R125, R438, R439: a due per-bank refresh runs, is postponed while its bank is busy, or at the eighth postponement triggers a refresh of
all sixteen banks, after which every other bank owes one less; a data pin that is due is repaired under a pause of its group, or left. -/
def Obligations.RefreshAndPinEvents : Prop := ∀ pc bank stack pin group tag (w8 : BitVec 64) (e : HostEvent),
  let key := 16 * pc + bank
  let here (s : State) : Prop := pc < 4096 ∧ bank < 16 ∧ channelUp s pc = true ∧ s.forcedAt pc = false
  let now (s : State) : Nat := s.clk.ref.toNat
  let dram (s t : State) : Prop := t.thr = s.thr ∧ t.mem = s.mem ∧ t.work = s.work ∧ t.dram.banks = s.dram.banks ∧ t.dram.forced = s.dram.forced
  let p := 2048 * stack + pin
  let due (s : State) : Prop := stack < 8 ∧ pin < 2048 ∧ repairReady s p = true
  let pins (s : State) : List Nat := ((List.range 32).map (p / 32 * 32 + ·)).filter (repairReady s ·)
  Happens (.refreshDue pc bank) (fun s => here s ∧ 8 ≤ (s.bank key).postponed)
    (fun s t => t = { s with dram := { s.dram with forced := s.dram.forced.insert pc (none, bank) } }) ∧
  Happens (.refreshDue pc bank) (fun s => here s ∧ (s.bank key).postponed < 8 ∧ bankBusy s key = true)
    (fun s t => t = (s.onBank key fun b => { b with postponed := b.postponed + 1 }).bump (0x10000 + 32 * pc + 12) 1) ∧
  Happens (.refreshDue pc bank) (fun s => here s ∧ (s.bank key).postponed < 8 ∧ bankBusy s key = false ∧ (s.bank key).runEnd = none)
    (fun s t => t = (s.onBank key fun b => { b with runEnd := some (now s + 24) }).bump (0x10000 + 32 * pc + 8) 1) ∧
  Happens (.refreshDue pc bank) (fun s => here s ∧ (s.bank key).postponed < 8 ∧ bankBusy s key = false ∧ (s.bank key).runEnd ≠ none)
    (fun s t => t = s.onBank key fun b => { b with waiting := b.waiting + 1 }) ∧
  Idle (.refreshDue pc bank) (fun s => 4096 ≤ pc ∨ 16 ≤ bank ∨ channelUp s pc = false ∨ s.forcedAt pc = true) ∧
  (∀ b, Happens (.forcedAllBankRefresh pc) (fun s => s.dram.forced.find pc = some (none, b) ∧ channelUp s pc = true ∧ refreshesRun s pc = false ∧
      ∀ x ∈ s.dram.pauses, x.1 ≠ pc / 8)
    (fun s t => t.dram.forced.find pc = some (some (now s + 82), b) ∧ t.count (0x10000 + 32 * pc + 4) =
        min (s.count (0x10000 + 32 * pc + 4) + 1) (2 ^ 32 - 1) ∧ t.dram.banks = s.dram.banks ∧ t.mem = s.mem)) ∧
  Idle (.forcedAllBankRefresh pc) (fun s => s.dram.forced.find pc = none ∨ channelUp s pc = false ∨ refreshesRun s pc = true ∨ ∃ x ∈ s.dram.pauses, x.1 = pc / 8) ∧
  Happens (.postponedRefreshDrain pc bank) (fun s => bank < 16 ∧ drainDue s pc bank = true)
    (fun s t => t.bank key = { s.bank key with postponed := (s.bank key).postponed - 1, runEnd := some (now s + 24) } ∧
      (∀ k, k ≠ key → t.bank k = s.bank k) ∧ t.mem = s.mem) ∧
  Idle (.postponedRefreshDrain pc bank) (fun s => (s.bank key).postponed = 0 ∨ bankBusy s key = true) ∧
  (∀ t₀, Happens (.refreshEnd pc bank)
    (fun s => bank < 16 ∧ (s.bank key).runEnd = some t₀ ∧ t₀ ≤ now s ∧ ((s.bank key).waiting = 0 ∨ s.forcedAt pc = true ∨ channelUp s pc = false))
    (fun s t => t = s.onBank key fun b => { b with runEnd := none }) ∧
  Happens (.refreshEnd pc bank)
    (fun s => bank < 16 ∧ (s.bank key).runEnd = some t₀ ∧ t₀ ≤ now s ∧ 0 < (s.bank key).waiting ∧ s.forcedAt pc = false ∧ channelUp s pc = true)
    (fun s t => t.bank key = { s.bank key with runEnd := some (t₀ + 24), waiting := (s.bank key).waiting - 1 } ∧
      ∀ k, k ≠ key → t.bank k = s.bank k)) ∧
  (∀ t₀ trigger, Happens (.refreshEnd pc 16) (fun s => s.dram.forced.find pc = some (some t₀, trigger) ∧ t₀ ≤ now s)
    (fun s t => t.dram.forced.find pc = none ∧ (∀ b < 16, (t.bank (16 * pc + b)).postponed =
        if b = trigger then (s.bank (16 * pc + b)).postponed else (s.bank (16 * pc + b)).postponed - 1) ∧
      ∀ k, k / 16 ≠ pc → t.bank k = s.bank k)) ∧
  Idle (.refreshEnd pc bank) (fun s => bank < 16 ∧ ∀ e, (s.bank key).runEnd = some e → now s < e) ∧
  Happens (.pinRepairDue stack pin) (fun s => due s ∧ s.hostMode 5 = false) (fun s t => dram s t ∧
    t.dram.pauses.find (p / 32) = (if (pins s).take (pinsFree s (p / 32)) = [] then s.dram.pauses.find (p / 32)
      else some (now s + 800, (pins s).take (pinsFree s (p / 32)))) ∧
    t.dram.left = s.dram.left ++ (pins s).drop (pinsFree s (p / 32)) ∧
    ((pins s).drop (pinsFree s (p / 32)) ≠ [] → t.att.replacement = true ∧ (s.att.cause = 0 → t.att.cause = 4))) ∧
  Happens (.pinRepairDue stack pin) (fun s => due s ∧ s.hostMode 5 = true) (fun s t => dram s t ∧ ∃ x ∈ t.host.pending, x.kind = 6 ∧ x.die = 4 ∧
    x.payload = pinPayload s p ∧ t.dram.asked = s.dram.asked ++ [(x.tag, p)]) ∧
  Idle (.pinRepairDue stack pin) (fun s => s.dram.errors.getD p 0 < 16) ∧
  (∀ e ps, Happens (.pinRepairPauseEnd stack group)
    (fun s => stack < 8 ∧ group < 64 ∧ s.dram.pauses.find (64 * stack + group) = some (e, ps))
    (fun s t => dram s t ∧ t.dram.pauses.find (64 * stack + group) = none ∧ (∀ q ∈ ps, t.dram.errors.getD q 0 = 0) ∧
      t.dram.repaired.getD (64 * stack + group) 0 = s.dram.repaired.getD (64 * stack + group) 0 + ps.length)) ∧
  Idle (.pinRepairPauseEnd stack group) (fun s => s.dram.pauses.find (64 * stack + group) = none) ∧
  (∀ q, Happens (.dramRepairAnswer tag w8)
    (fun s => pendingEvent s 6 tag = some e ∧ s.dram.asked.find? (fun x => x.1 == tag) = some (tag, q) ∧ w8 = 0 ∧ repairHeld s q = false ∧
      0 < pinsFree s (q / 32))
    (fun s t => dram s t ∧ e ∉ t.host.pending ∧ (∀ x ∈ t.dram.asked, x.2 ≠ q) ∧ t.dram.pauses.find (q / 32) = some (now s + 800, [q])) ∧
  Happens (.dramRepairAnswer tag w8)
    (fun s => pendingEvent s 6 tag = some e ∧ s.dram.asked.find? (fun x => x.1 == tag) = some (tag, q) ∧ w8 = 1)
    (fun s t => dram s t ∧ e ∉ t.host.pending ∧ (∀ x ∈ t.dram.asked, x.2 ≠ q) ∧ t.dram.left = s.dram.left ++ [q] ∧ t.att = s.att)) ∧
  Idle (.dramRepairAnswer tag w8) (fun s => pendingEvent s 6 tag = none ∨ 1 < w8.toNat)

/-- R120 to R122, R263, R435 to R437, R440: a die that does not answer is declared failed, and nothing waits on its lines any more; a map-out
command takes a part out of service when it is free, or is refused, and has the package replaced. -/
def Obligations.MapOutEvents : Prop := ∀ die pa core stack pc link port (failed : List Nat),
  let word (kind index : Nat) (s : State) : State := s.setCfg64 0x1028 (kind + 2 ^ 16 * index)
  let free (s : State) : Prop := s.mapStatus ≠ 0
  let asked (t : State) : Prop := t.att.replacement = true ∧ t.mapStatus = 1
  Happens (.homeTimeout die pa) (fun s => timeoutReady s die pa = true ∧ s.dieDead pa = false ∧ s.mem.ops.wf = true)
    (fun s t => t.cfg = { s.cfg with deadSlices := s.cfg.deadSlices ||| dieSlices die } ∧ t.att.replacement = true ∧
      ∀ id o, t.mem.ops.find id = some o → t.dieDead o.pa = false) ∧
  Happens (.homeTimeout die pa) (fun s => timeoutReady s die pa = true ∧ s.dieDead pa = true ∧ s.mem.ops.wf = true)
    (fun s t => t.cfg = s.cfg ∧ ∀ id o, t.mem.ops.find id = some o → t.dieDead o.pa = false) ∧
  Idle (.homeTimeout die pa) (fun s => 4 ≤ die ∨ timeoutReady s die pa = false) ∧
  Happens (.mapOutCore core) (fun s => core < 128 ∧ free s ∧ s.coreOut core = false ∧ coreEmpty s core = true)
    (fun s t => asked t ∧ t.cfg = { s.cfg with outCores := s.cfg.outCores ++ [core] } ∧ (∀ line < 2 ^ 45, t.l1Line core line = none) ∧
      t.mem.hbm = s.mem.hbm ∧ t.work = s.work) ∧
  Happens (.mapOutCore core) (fun s => core < 128 ∧ free s ∧ s.coreOut core = false ∧ coreEmpty s core = false)
    (fun s t => t = (word 1 core s).setMapStatus 2) ∧
  Happens (.mapOutCore core) (fun s => core < 128 ∧ free s ∧ s.coreOut core = true) (fun s t => t = (word 1 core s).setMapStatus 1) ∧
  Idle (.mapOutCore core) (fun s => ¬ free s) ∧
  Happens (.mapOutCDie die)
    (fun s => die < 4 ∧ free s ∧ die ∉ s.att.outDies ∧ (∀ c < 128, c / 32 = die → coreEmpty s c = true) ∧
      ∀ x ∈ s.work.contracts, x.2.usesDie die = false)
    (fun s t => asked t ∧ t.att.outDies = s.att.outDies ++ [die] ∧ (∀ c < 128, c / 32 = die → c ∈ t.cfg.outCores) ∧
      t.cfg.deadSlices = s.cfg.deadSlices ||| dieSlices die) ∧
  Happens (.mapOutCDie die)
    (fun s => die < 4 ∧ free s ∧ die ∉ s.att.outDies ∧ ((∃ c < 128, c / 32 = die ∧ coreEmpty s c = false) ∨
      ∃ x ∈ s.work.contracts, x.2.usesDie die = true))
    (fun s t => t = (word 2 die s).setMapStatus 2) ∧
  Idle (.mapOutCDie die) (fun s => ¬ free s) ∧
  Happens (.mapOutStack stack) (fun s => stack < 8 ∧ free s ∧ stack ∉ s.att.outStacks ∧ allStopped s = true)
    (fun s t => asked t ∧ t.att.outStacks = s.att.outStacks ++ [stack] ∧ t.cfg.deadSlices = s.cfg.deadSlices ||| stackSlices stack) ∧
  Happens (.mapOutStack stack) (fun s => stack < 8 ∧ free s ∧ stack ∉ s.att.outStacks ∧ allStopped s = false)
    (fun s t => t = (word 3 stack s).setMapStatus 2) ∧
  Idle (.mapOutStack stack) (fun s => ¬ free s) ∧
  Happens (.mapOutPseudoChannel pc)
    (fun s => pc < 4096 ∧ free s ∧ pc ∉ s.dram.dropped ∧ allStopped s = true ∧ slicesDropped s (sliceOfChannel pc) < 8)
    (fun s t => t.mapStatus = 0 ∧ t.dram = { s.dram with copying := s.dram.copying ++ [pc] } ∧ t.mem = s.mem ∧ t.work = s.work) ∧
  Happens (.mapOutPseudoChannel pc)
    (fun s => pc < 4096 ∧ free s ∧ pc ∉ s.dram.dropped ∧ (allStopped s = false ∨ 8 ≤ slicesDropped s (sliceOfChannel pc)))
    (fun s t => t = (word 4 pc s).setMapStatus 2) ∧
  Idle (.mapOutPseudoChannel pc) (fun s => ¬ free s) ∧
  Happens (.pseudoChannelDropCopyEnd pc failed) (fun s => pc ∈ s.dram.copying ∧ s.mem.hbm.wf = true)
    (fun s t => asked t ∧ t.dram.dropped = s.dram.dropped ++ [pc] ∧ pc ∉ t.dram.copying ∧
      (failed = [] → ∀ a, t.backed a = true → t.homeByte a = s.homeByte a ∧ t.homePoison a = s.homePoison a)) ∧
  Idle (.pseudoChannelDropCopyEnd pc failed) (fun s => pc ∉ s.dram.copying) ∧
  Happens (.mapOutDieLink link) (fun s => link < 6 ∧ free s ∧ (s.link link).out = false ∧ (s.link link).held = true)
    (fun s t => asked t ∧ t.link link = { s.link link with out := true } ∧ (∀ j, j ≠ link → t.link j = s.link j) ∧ t.mem = s.mem) ∧
  Happens (.mapOutDieLink link) (fun s => link < 6 ∧ free s ∧ (s.link link).out = false ∧ (s.link link).held = false)
    (fun s t => t = (word 5 link s).setMapStatus 2) ∧
  Idle (.mapOutDieLink link) (fun s => ¬ free s) ∧
  Happens (.mapOutStolilPort port) (fun s => port < 15 ∧ free s ∧ (s.portAt port).out = false)
    (fun s t => asked t ∧ (t.portAt port).out = true ∧ (t.portAt port).up = false ∧ ∀ q, q ≠ port → (t.portAt q).up = (s.portAt q).up) ∧
  Idle (.mapOutStolilPort port) (fun s => ¬ free s)

/-- R405 to R409, R421, R434, R246: the service of a die link: hold, drain, release, training, the repair of lanes by the spares of their half,
the retraining that rising retries begin, and the flits that cross it. -/
def Obligations.DieLinkEvents : Prop := ∀ link narrow bad (w : BitVec 32) dir crc modul lane,
  let on (s t : State) (l : DieLink) : Prop := t.link link = l ∧ (∀ j, j ≠ link → t.link j = s.link j) ∧ t.thr = s.thr ∧ t.mem = s.mem ∧ t.work = s.work
  let l (s : State) : DieLink := s.link link
  let count (s : State) (f : Nat) : Nat := s.count (0x3000 + 32 * (2 * link + dir) + f)
  let idle (s : State) : Prop := count s 0 = count s 8
  let passes (s : State) : Prop := link < 6 ∧ dir < 2 ∧ modul < 128 ∧ lane < 64 ∧ (l s).up = true ∧ (l s).held = false ∧ (l s).out = false
  Happens (.dieLinkHold link) (fun _ => link < 6) (fun s t => on s t { l s with hold := true }) ∧
  Happens (.holdDrainComplete link) (fun s => link < 6 ∧ holdReady s link = true ∧ (l s).auto = false)
    (fun s t => on s t { l s with held := true }) ∧
  Happens (.holdDrainComplete link) (fun s => link < 6 ∧ holdReady s link = true ∧ (l s).auto = true)
    (fun s t => t = autoService (s.onLink link fun l => { l with held := true }) link) ∧
  Idle (.holdDrainComplete link) (fun s => (l s).hold = false ∨ (l s).held = true ∨ linkBusy s link = true) ∧
  Happens (.dieLinkRelease link) (fun s => link < 6 ∧ (l s).up = true)
    (fun s t => on s t { l s with hold := false, held := false, auto := false }) ∧
  Idle (.dieLinkRelease link) (fun s => (l s).up = false) ∧
  Happens (.dieLinkTrain link narrow) (fun s => link < 6 ∧ (l s).held = true ∧ (l s).training = false ∧ (l s).out = false)
    (fun s t => on s t { l s with hold := true, width := narrow, training := true, narrow := narrow, up := false, failed := false, lanes := 0 }) ∧
  Idle (.dieLinkTrain link narrow) (fun s => (l s).held = false) ∧
  Happens (.trainingEnd link bad) (fun s => link < 6 ∧ (l s).training = true ∧ badLanes (l s) bad = [] ∧ (l s).auto = false)
    (fun s t => on s t { l s with training := false, up := true, lanes := if (l s).narrow then 32 else 64, faults := [] } ∧
      ∀ d < 2, t.count (0x3000 + 32 * (2 * link + d) + 28) = if (l s).narrow then 32 else 64) ∧
  Happens (.trainingEnd link bad) (fun s => link < 6 ∧ (l s).training = true ∧ badLanes (l s) bad = [] ∧ (l s).auto = true)
    (fun s t => on s t { l s with
      training := false, up := true, lanes := if (l s).narrow then 32 else 64, faults := [], hold := false, held := false, auto := false }) ∧
  Happens (.trainingEnd link bad) (fun s => link < 6 ∧ (l s).training = true ∧ badLanes (l s) bad ≠ [])
    (fun s t => on s t { l s with training := false, failed := true, auto := false, faults := (t.link link).faults } ∧
      ∀ x ∈ badLanes (l s) bad, ((t.link link).faultMap x.1 x.2.1).getLsbD x.2.2 = true) ∧
  Idle (.trainingEnd link bad) (fun s => (l s).training = false) ∧
  Happens (.laneRepair link w) (fun s => link < 6 ∧ w.getLsbD 6 = true ∧ (l s).pending = none ∧ (l s).out = false ∧ (l s).held = true)
    (fun s t => on s t { l s with result := 0, pending := some ((l s).sel % 128, (l s).sel / 128 % 2, w.toNat % 64) }) ∧
  Happens (.laneRepair link w) (fun s => link < 6 ∧ w.getLsbD 6 = true ∧ (l s).pending = none ∧ (l s).out = false ∧ (l s).held = false)
    (fun s t => on s t { l s with result := 3 }) ∧
  Idle (.laneRepair link w) (fun s => w.getLsbD 6 = false ∨ (l s).pending ≠ none ∨ (l s).out = true) ∧
  Happens (.laneRepairComplete link) (fun s => (l s).pending = some (modul, dir, lane) ∧ (l s).out = false ∧ 0 < sparesLeft s (l s) modul dir (lane / 32))
    (fun s t => on s t { l s with
      pending := none, result := 1, routed := (l s).routed ++ [laneKey modul dir lane], spares := (t.link link).spares } ∧
      sparesLeft t (t.link link) modul dir (lane / 32) = sparesLeft s (l s) modul dir (lane / 32) - 1) ∧
  Happens (.laneRepairComplete link) (fun s => (l s).pending = some (modul, dir, lane) ∧ (l s).out = false ∧ sparesLeft s (l s) modul dir (lane / 32) = 0)
    (fun s t => on s t { l s with pending := none, result := 2 } ∧ t.counts = s.counts) ∧
  Idle (.laneRepairComplete link) (fun s => (l s).pending = none ∨ (l s).out = true) ∧
  Happens (.linkRetrainTrigger link) (fun s => link < 6 ∧ lookDue s link = true ∧ ∀ d < 2, newRetries s link d < 64)
    (fun s t => t = lookAt s link) ∧
  Happens (.linkRetrainTrigger link)
    (fun s => link < 6 ∧ lookDue s link = true ∧ (∃ d < 2, 64 ≤ newRetries s link d) ∧ s.hostMode 6 = false ∧ (l s).hold = false)
    (fun s t => on s t { l (lookAt s link) with hold := true, auto := true }) ∧
  Idle (.linkRetrainTrigger link) (fun s => lookDue s link = false) ∧
  Happens (.dieLinkFlitReceive link dir true modul lane)
    (fun s => passes s ∧ ¬ (idle s ∧ (l s).hold = true ∧ linkBusy s link = false))
    (fun s t => count t 8 = (count s 8 + 1) % 2 ^ 64 ∧ count t 0 = (if idle s then (count s 0 + 1) % 2 ^ 64 else count s 0) ∧ on s t (l s)) ∧
  Happens (.dieLinkFlitReceive link dir false modul lane)
    (fun s => passes s ∧ ¬ (idle s ∧ (l s).hold = true ∧ linkBusy s link = false))
    (fun s t => count t 8 = count s 8 ∧ count t 16 = min (count s 16 + 1) (2 ^ 32 - 1) ∧ count t 20 = min (count s 20 + 1) (2 ^ 32 - 1) ∧
      on s t { l s with faults := (t.link link).faults } ∧
      (t.link link).faults.getD (laneKey modul dir lane) 0 = (l s).faults.getD (laneKey modul dir lane) 0 + 1) ∧
  Idle (.dieLinkFlitReceive link dir crc modul lane) (fun s => ¬ passes s ∨ (idle s ∧ (l s).hold = true ∧ linkBusy s link = false))

/-! The fabric (spec/06, spec/08, spec/19). -/

/-- R146, R193 to R196, R416, R420, R434, R436: flits and frames are taken in sequence, once, and a damaged one is counted or discarded; a credit that
returns lets waiting flits leave, relays send transit flits before their own; a link that fails sends its traffic by other routes, and ordered
traffic changes its route only when the old one is quiet; a remote write is acknowledged when it is performed. -/
def Obligations.FabricEvents : Prop := ∀ port chan resent source target uplink peer seq ack (f : Flit) (fs : List Flit) (fr : Frame) (r : RemoteWrite) (c : Channel)
    (u : State) crc,
  let live (s : State) : Prop := port < 15 ∧ (s.portAt port).up = true ∧ (s.portAt port).out = false
  let relaxed : Bool := chan == 1
  let line (s : State) (peer : Nat) : Uplink := s.fab.uplinks.getD (128 * uplink + peer) Uplink.init
  let acked (s : State) : State := s.onUplink uplink fr.source fun u => { u with sent := u.sent.filter fun x => (x.1 + 2 ^ 32 - ack) % 2 ^ 32 < 2 ^ 31 }
  Happens (.remoteWriteAck source) (fun s => ackDue s source = some r)
    (fun s t => t = ({ s with fab := { s.fab with remote := s.fab.remote.erase r } } : State).send source false (.ack s.cfg.pkg r.tag r.status)) ∧
  Idle (.remoteWriteAck source) (fun s => ∀ r ∈ s.fab.remote, r.src ≠ source ∨ remoteSettled s r.after = false) ∧
  Happens (.flitReceive port false f) live (fun s t => t = s.bump (0x3400 + 32 * port + 4) 1) ∧
  Happens (.flitReceive port true f)
    (fun s => live s ∧ f.source / 16 = s.cfg.pkg / 16 ∧ f.source ≠ s.cfg.pkg ∧ f.target = s.cfg.pkg ∧
      ((s.portAt (s.portOf f.source)).chan f.relaxed).taken f.seq = true)
    (fun s t => t = s.bump (0x3400 + 32 * port + 8) 1) ∧
  Happens (.flitReceive port true f)
    (fun s => live s ∧ f.source / 16 = s.cfg.pkg / 16 ∧ f.source ≠ s.cfg.pkg ∧ f.target = s.cfg.pkg ∧
      ((s.portAt (s.portOf f.source)).chan f.relaxed).taken f.seq = false ∧ takeMsg s f.source f.relaxed f.msg = some u ∧ msgWaits s f.msg = false)
    (fun s t => ((t.portAt (s.portOf f.source)).chan f.relaxed).taken f.seq = true ∧
      t = { u with fab := { u.fab with ports := t.fab.ports } }) ∧
  Happens (.flitReceive port true f)
    (fun s => live s ∧ f.source / 16 = s.cfg.pkg / 16 ∧ f.source ≠ s.cfg.pkg ∧ f.target / 16 = s.cfg.pkg / 16 ∧ f.target ≠ s.cfg.pkg)
    (fun s t => ((t.portAt (s.portOf f.target)).chan f.relaxed).transit = ((s.portAt (s.portOf f.target)).chan f.relaxed).transit ++ [f] ∧
      t = { s with fab := { s.fab with ports := t.fab.ports } }) ∧
  Idle (.flitReceive port crc f) (fun s => ¬ live s) ∧
  (∀ s, takeMsg s source relaxed (.heartbeat) = some { s with att := { s.att with beatIn := s.clk.ref.toNat } }) ∧
  (∀ s pa n tag, pa < 2 ^ 51 → poolStatus s pa n false = 0 → readFollows s source tag = true →
    (∀ k ∈ granules 128 pa n, s.lineWaits k = false ∧ s.sliceCopying k = false) →
    takeMsg s source relaxed (.readReq source tag pa n false) =
      some ((s.readThrough (granules 128 pa n)).send source relaxed (.readReply tag ((List.range n).map fun i => (s.homeByte (pa + i), s.homePoison (pa + i))) 0))) ∧
  Happens (.creditReturn port chan resent) (fun s => chan < 2 ∧ (s.portAt port).chan relaxed = c ∧ c.sent ≠ [])
    (fun s t => t = ((s.bump (0x3400 + 32 * port) resent).onChan port relaxed fun c => { c with credits := c.credits + 1, sent := c.sent.tail }).pump) ∧
  Idle (.creditReturn port chan resent) (fun s => 2 ≤ chan ∨ ((s.portAt port).chan relaxed).sent = []) ∧
  Happens (.relayForward port chan)
    (fun s => live s ∧ chan < 2 ∧ (s.portAt port).chan relaxed = c ∧ 0 < c.credits ∧ c.transit = f :: fs)
    (fun s t => t = (s.onChan port relaxed fun c => { c with credits := c.credits - 1, sent := c.sent ++ [f], transit := fs }).pump) ∧
  Idle (.relayForward port chan) (fun s => 2 ≤ chan ∨ ((s.portAt port).chan relaxed).transit = [] ∨ ((s.portAt port).chan relaxed).credits = 0) ∧
  Happens (.linkFailure port) live (fun s t => (t.portAt port).up = false ∧ (t.portAt port).ordered.credits = 64 ∧
    (t.portAt port).relaxed.credits = 192 ∧ (t.portAt port).ordered.sent = [] ∧ (t.portAt port).relaxed.sent = [] ∧
    (∀ q, q ≠ port → (t.portAt q).up = (s.portAt q).up) ∧
    t.count (0x3400 + 32 * port + 12) = min (s.count (0x3400 + 32 * port + 12) + 1) (2 ^ 32 - 1)) ∧
  Idle (.linkFailure port) (fun s => ¬ live s) ∧
  Happens (.orderedDetourSwitch target) (fun s => target ∈ s.fab.held ∧ orderedOut s target = false) (fun s t =>
    let d := if s.portLive (s.portOf target) = true then s.fab.detour.erase target else s.fab.detour
    t = ({ s with fab := { s.fab with held := s.fab.held.filter (· ≠ target), detour := d } } : State).pump) ∧
  Idle (.orderedDetourSwitch target) (fun s => target ∉ s.fab.held ∨ orderedOut s target = true) ∧
  Happens (.stolilPortRetrain port true) (fun s => port < 15 ∧ s.att.fabricUp = true ∧ (s.portAt port).out = false)
    (fun _ t => (t.portAt port).up = true) ∧
  Happens (.stolilPortRetrain port false) (fun s => port < 15 ∧ s.att.fabricUp = true ∧ (s.portAt port).out = false)
    (fun _ t => (t.portAt port).up = false) ∧
  Idle (.stolilPortRetrain port crc) (fun s => 15 ≤ port ∨ s.att.fabricUp = false ∨ (s.portAt port).out = true) ∧
  Happens (.ethernetFrameReceive uplink seq ack true fr)
    (fun s => uplink < 4 ∧ fr.source < 128 ∧ s.att.fabricUp = true ∧ seq = (line s fr.source).expect ∧ fr.target = s.cfg.pkg ∧ fr.flits.length ≤ 32 ∧
      takeFlits (acked s) fr.source fr.flits = some u)
    (fun _ t => t = u.onUplink uplink fr.source fun u => { u with expect := (seq + 1) % 2 ^ 32 }) ∧
  Happens (.ethernetFrameReceive uplink seq ack true fr)
    (fun s => uplink < 4 ∧ fr.source < 128 ∧ s.att.fabricUp = true ∧ seq ≠ (line s fr.source).expect ∧ fr.target = s.cfg.pkg ∧ fr.flits.length ≤ 32)
    (fun s t => t = acked s) ∧
  Idle (.ethernetFrameReceive uplink seq ack crc fr)
    (fun s => 4 ≤ uplink ∨ 128 ≤ fr.source ∨ s.att.fabricUp = false ∨ crc = false ∨ fr.target ≠ s.cfg.pkg ∨ 32 < fr.flits.length) ∧
  Happens (.ethernetFrameResend uplink peer seq)
    (fun s => uplink < 4 ∧ peer < 128 ∧ ∃ x ∈ (line s peer).sent, x.1 = seq ∧ x.2.1 + 4000 ≤ s.clk.ref.toNat)
    (fun s t => (line t peer).sent = (line s peer).sent.map (fun x => if x.1 = seq then (x.1, s.clk.ref.toNat, x.2.2) else x) ∧
      (line t peer).next = (line s peer).next ∧ t = { s with fab := { s.fab with uplinks := t.fab.uplinks } }) ∧
  Idle (.ethernetFrameResend uplink peer seq)
    (fun s => 4 ≤ uplink ∨ 128 ≤ peer ∨ ∀ x ∈ (line s peer).sent, x.1 = seq → s.clk.ref.toNat < x.2.1 + 4000)

/-! Attachment and trust (spec/19). -/

/-- R415, R424, R425, R240: power-good resets everything but the flash and the recorded version, with C2 or stack 4 in the place of C0 or stack
0 that failed; at stage 1 the dies that came up and the fields of the configuration record take effect, at stage 2 the stacks, the function
modes and the fabric. R426, R430, R431: a mailbox command ends with its status, its response and the mailbox's vector; heartbeats are sent each
100 µs, a standby that misses them for 1 ms acts as primary under the next epoch; a package adopts only a higher epoch, a record counts once it
is acknowledged. -/
def Obligations.StartupAndMailboxEvents : Prop :=
  (∀ slot c0 stack0 dies links failedStacks ports mismatched (r : FlashRecord),
    Happens (.powerGood slot c0 stack0) (fun _ => True) (fun s t => t.thr = State.reset.thr ∧ t.mem = State.reset.mem ∧ t.work = State.reset.work ∧
      t.eng = State.reset.eng ∧ t.clk.ref = 0 ∧ t.counts = [] ∧ t.cfg.functionMode = 0x7F ∧ t.cfg.pw = 0 ∧ t.cfg.pkg = slot % 16 ∧
      t.att.stage = 0 ∧ t.att.safe = true ∧ t.att.flash = s.att.flash ∧ s.att.recorded ≤ t.att.recorded ∧
      t.att.replacement = (c0 || stack0) ∧ t.att.cause = (if c0 || stack0 then 5 else 0) ∧
      t.att.diesUp = (if c0 || stack0 then [2] else [0]) ∧ t.att.stacksUp = (if c0 || stack0 then [4] else [0]) ∧
      t.att.outDies = (if c0 then [0] else []) ∧ t.att.outStacks = (if stack0 then [0] else [])) ∧
    Happens (.stage1Reached dies links) (fun s => appliedKind s.att 2 = some r ∧ s.att.stage = 0 ∧ s.att.rejected = false) (fun s t =>
      t.att.stage = 1 ∧ t.att.diesUp = (List.range 4).filter (fun d => !(dies.testBit d || s.att.outDies.contains d)) ∧
      t.cfg.pkg = 16 * (bodyField r 0 / 2 ^ 4 % 8) + s.att.slot ∧ t.cfg.pw = bodyField r 24 % 8 ∧
      t.cfg.poolTable = ((r.body.drop 32).take 128).map (·.toNat) ∧ t.att.role = bodyField r 0 / 2 ^ 24 % 4 ∧
      (∀ d < 4, d ∉ t.att.diesUp → d ∈ t.att.outDies ∧ t.cfg.deadSlices &&& dieSlices d = dieSlices d ∧ t.att.replacement = true)) ∧
    Idle (.stage1Reached dies links) (fun s => appliedKind s.att 2 = none ∨ s.att.stage ≠ 0 ∨ s.att.rejected = true) ∧
    Happens (.stage2Reached failedStacks ports mismatched) (fun s => appliedKind s.att 2 = some r ∧ s.att.stage = 1) (fun s t =>
      t.att.stage = 2 ∧ t.att.safe = false ∧ t.att.fabricUp = true ∧ t.cfg.functionMode = BitVec.ofNat 32 (bodyField r 8 % 2 ^ 7) ∧
      t.att.stacksUp = (List.range 8).filter (fun k => !(failedStacks.testBit k || s.att.outStacks.contains k)) ∧
      (∀ q < 15, ports.testBit q = true → (t.portAt q).out = true ∧ t.att.replacement = true) ∧
      (∀ q < 15, ports.testBit q = false → mismatched.testBit q = true → t.att.rejected = true) ∧
      ∀ q < 15, ports.testBit q = false → mismatched.testBit q = false → (t.portAt q).up = true) ∧
    Idle (.stage2Reached failedStacks ports mismatched) (fun s => appliedKind s.att 2 = none ∨ s.att.stage ≠ 1)) ∧
  (∀ n (bs : List Byte) (r : FlashRecord),
    let ended (s t : State) (st : Nat) : Prop := t.mailStatus = st ∧ t.att.command = 0 ∧ t.host.vectors = s.host.vectors ++ [1] ∧ t.thr = s.thr ∧
      t.mem = s.mem ∧ t.work = s.work
    let answers (t : State) (body : List Byte) : Prop := ∀ i < body.length, i < 0x1000 → t.att.mailbox.getD (0x1000 + i) 0 = body.getD i 0
    let now (s : State) : Nat := s.clk.ref.toNat
    let memory (s : State) : Prop := ((s.mailBytes 72 1).headD 0).getLsbD 0 = true
    let len (s : State) : Nat := leNat (s.mailBytes 88 8)
    (∀ i k, (i = .mailboxAttest ∧ k = 1) ∨ (i = .mailboxWriteRecord ∧ k = 2) ∨ (i = .mailboxReadCertChain ∧ k = 3) →
      Happens i (fun s => s.mailStatus ≠ 0) (fun s t => t.mailStatus = 0 ∧ t.att.command = k ∧ t.mem = s.mem ∧ t.host = s.host) ∧
      Idle i fun s => s.mailStatus = 0) ∧
    Happens .mailboxCommandComplete (fun s => s.att.command = 1) (fun s t => ended s t 1 ∧ answers t (reportBody s)) ∧
    Happens .mailboxCommandComplete (fun s => s.att.command = 3) (fun s t => ended s t 1 ∧ answers t Config.certChain) ∧
    Happens .mailboxCommandComplete (fun s => s.att.command = 2 ∧ ¬ memory s ∧ 3840 < len s) (fun s t => ended s t 3 ∧ t.att.flash = s.att.flash) ∧
    Happens .mailboxCommandComplete
      (fun s => s.att.command = 2 ∧ ¬ memory s ∧ len s ≤ 3840 ∧ bs = s.mailBytes 0x100 (len s) ∧
        (parseRecord bs = none ∨ (parseRecord bs = some r ∧ recordValid s.att.applied s.att.recorded r = false)))
      (fun s t => ended s t 2 ∧ t.att.flash = s.att.flash) ∧
    Happens .mailboxCommandComplete
      (fun s => s.att.command = 2 ∧ ¬ memory s ∧ len s ≤ 3840 ∧ bs = s.mailBytes 0x100 (len s) ∧ parseRecord bs = some r ∧
        recordValid s.att.applied s.att.recorded r = true)
      (fun s t => ended s t 1 ∧ t.att.flash = s.att.flash ++ [r]) ∧
    Idle .mailboxCommandComplete (fun s => s.att.command = 0) ∧
    Happens .heartbeatSend (fun s => s.att.role = 1 ∧ s.att.stage = 2 ∧ s.att.beatOut + 20000 ≤ now s)
      (fun s t => t = ({ s with att := { s.att with beatOut := now s } } : State).send s.att.peer false .heartbeat) ∧
    Idle .heartbeatSend (fun s => s.att.role ≠ 1 ∨ s.att.stage ≠ 2 ∨ now s < s.att.beatOut + 20000) ∧
    Happens .heartbeatTimeout
      (fun s => s.att.role = 2 ∧ s.att.stage = 2 ∧ s.att.beatIn + 200000 ≤ now s ∧ s.att.epoch + 1 < 2 ^ 32)
      (fun s t => t.att = { s.att with epoch := s.att.epoch + 1, role := 1, beatOut := now s } ∧ t.mem = s.mem ∧ t.thr = s.thr) ∧
    Idle .heartbeatTimeout (fun s => s.att.role ≠ 2 ∨ s.att.stage ≠ 2 ∨ now s < s.att.beatIn + 200000) ∧
    Happens (.epochAdvance n) (fun s => s.att.epoch < n ∧ n < 2 ^ 32 ∧ s.att.role = 1)
      (fun s t => t = { s with att := { s.att with epoch := n, role := 2, beatIn := now s } }) ∧
    Happens (.epochAdvance n) (fun s => s.att.epoch < n ∧ n < 2 ^ 32 ∧ s.att.role ≠ 1)
      (fun s t => t = { s with att := { s.att with epoch := n } }) ∧
    Idle (.epochAdvance n) (fun s => n ≤ s.att.epoch) ∧
    Happens (.logRecordShip n) (fun s => s.att.role = 1 ∧ n ∉ s.att.log)
      (fun s t => t = ({ s with att := { s.att with log := s.att.log ++ [n] } } : State).send s.att.peer false (.logRecord n)) ∧
    Idle (.logRecordShip n) (fun s => s.att.role ≠ 1 ∨ n ∈ s.att.log) ∧
    Happens (.logRecordAck n) (fun s => s.att.role = 1 ∧ n ∈ s.att.log ∧ n ∉ s.att.committed)
      (fun s t => t = { s with att := { s.att with committed := s.att.committed ++ [n] } }) ∧
    Idle (.logRecordAck n) (fun s => s.att.role ≠ 1 ∨ n ∉ s.att.log ∨ n ∈ s.att.committed))

/-- R106, R149, R414, R418, R425, R429, R431, R244, R245: registers of the configuration space take aligned writes of 4 or 8 bytes, over the fabric under the
epoch in force; counters clear on a write; the rack queue hands out its places and takes published ones; the host reads and writes the pool
through its window. -/
def Obligations.HostEvents : Prop := ∀ off size (v : BitVec 64) epoch index (data bs : List Byte) (p : Bool) core window o,
  let va (s : State) : Nat := s.cfg64 0x1020 + off
  let line (s : State) (n : Nat) : Prop := off + n ≤ 2 ^ 36 ∧ hostReady s (va s) n = true
  let rack (s : State) : Prop := s.rackRoot = s.cfg.pkg
  Happens (.counterClear off) (fun s => off % 4 = 0 ∧ saturating off = true ∧ counterUp s off = true)
    (fun s t => t.count off = 0 ∧ (∀ k, k ≠ off → t.count k = s.count k) ∧ t = { s with counts := t.counts }) ∧
  Idle (.counterClear off) (fun s => off % 4 ≠ 0 ∨ saturating off = false ∨ counterUp s off = false) ∧
  Idle (.configRegisterWrite off size v) (fun _ => (size ≠ 4 ∧ size ≠ 8) ∨ off % size ≠ 0 ∨ (size = 8 ∧ off < 0x40)) ∧
  Happens (.configRegisterWrite 0x1000 8 v) (fun _ => True)
    (fun s t => t = { s with cfg := { s.cfg with contextTable := v.toNat % 2 ^ 52 } }) ∧
  Happens (.configRegisterWrite 0x1008 8 v) (fun s => s.att.stage ≠ 0)
    (fun s t => t = { s with cfg := { s.cfg with functionMode := BitVec.ofNat 32 (v.toNat % 2 ^ 7) } }) ∧
  Idle (.configRegisterWrite 0x1008 8 v) (fun s => s.att.stage = 0) ∧
  Happens (.configRegisterWrite (0x4000 + 8 * index) 8 v) (fun _ => index < 8)
    (fun s t => t.cfg64 (0x4000 + 8 * index) = v.toNat ∧ (∀ o, o / 8 ≠ 0x800 + index → t.cfg32 o = s.cfg32 o) ∧
      t = { s with att := { s.att with regs := t.att.regs } }) ∧
  Happens (.fabricConfigWrite epoch off size v) (fun s => epoch = s.att.epoch) (fun s t => exec (.configRegisterWrite off size v) s = .next t) ∧
  Idle (.fabricConfigWrite epoch off size v) (fun s => epoch ≠ s.att.epoch) ∧
  Happens .rackQueueReserve (fun s => rack s ∧ rackFull s = false) (fun s t => t = { s with
    dist := { s.dist with rackReserved := s.dist.rackReserved + 1 }
    att := { s.att with answer := leBytes 8 (s.dist.rackReserved % 2 ^ 32) } }) ∧
  Happens .rackQueueReserve (fun s => rack s ∧ rackFull s = true) (fun s t => t = { s with att := { s.att with answer := leBytes 8 (2 ^ 32) } }) ∧
  Happens .rackQueueReserve (fun s => ¬ rack s) (fun s t => t = { s with att := { s.att with answer := leBytes 8 0 } }) ∧
  Happens (.rackQueuePublish index)
    (fun s => rack s ∧ s.dist.rackHead ≤ index ∧ index < s.dist.rackReserved ∧ index ∉ s.dist.published)
    (fun s t => t = { s with dist := { s.dist with published := s.dist.published ++ [index] } }) ∧
  Idle (.rackQueuePublish index)
    (fun s => ¬ rack s ∨ index < s.dist.rackHead ∨ s.dist.rackReserved ≤ index ∨ index ∈ s.dist.published) ∧
  Happens (.hostPostedWrite off data)
    (fun s => line s data.length ∧ onChip (va s) = false ∧ rangeBacked s (va s) data.length = true) (fun s t => t = s.poolWrite (va s) data) ∧
  Happens (.hostPostedWrite off data) (fun s => line s data.length ∧ onChip (va s) = true ∧ hostPlace s (va s) data.length = some (core, 1, o))
    (fun s t => t = s.onScratch fun m => m.writeMarked (scratchAddr core o) (data.map (·, false))) ∧
  Happens (.hostPostedWrite off data)
    (fun s => line s data.length ∧ onChip (va s) = false ∧ sliceHasWay s (lineOf (va s)) = true ∧ va s % 128 + data.length ≤ 128 ∧ data ≠ [] ∧ s.homed (va s) = true ∧ s.mem.hbm.wf = true ∧
      s.dieDead (va s) = false)
    (fun s t => (∀ a, t.homeByte a = if va s ≤ a ∧ a < va s + data.length then data.getD (a - va s) 0 else s.homeByte a) ∧
      t.work = s.work ∧ t.eng = s.eng ∧ t.fab = s.fab) ∧
  Idle (.hostPostedWrite off data) (fun s => 2 ^ 36 < off + data.length ∨
    (onChip (va s) = false ∧ rangeBacked s (va s) data.length = false) ∨ (onChip (va s) = true ∧ hostPlace s (va s) data.length = none)) ∧
  Happens (.hostRead off size) (fun s => line s size ∧
      ((onChip (va s) = false ∧ rangeBacked s (va s) size = false) ∨ (onChip (va s) = true ∧ hostPlace s (va s) size = none)))
    (fun s t => t = { s with att := { s.att with answer := List.replicate size 0xFF } }) ∧
  Happens (.hostRead off size) (fun s => line s size ∧ onChip (va s) = true ∧ hostPlace s (va s) size = some (core, window, o))
    (fun s t => t = { s with att := { s.att with answer := (List.range size).map fun i => (chipByte s core window (o + i)).1 } }) ∧
  Happens (.hostRead off size) (fun s => line s size ∧ onChip (va s) = false ∧ rangeBacked s (va s) size = true ∧ s.poolRead (va s) size = some (bs, p))
    (fun s t => t.att = { s.att with answer := bs } ∧ t.thr = s.thr ∧ t.mem = s.mem ∧ t.work = s.work) ∧
  Idle (.hostRead off size) (fun _ => 2 ^ 36 < off + size)

/-! Encoding, fetch and issue, and the machine as a whole (spec/01, spec/04, spec/10, spec/11, spec/12, spec/19). -/

/-- R270, R271: the words of the instruction set and their instructions correspond one to one: a word that decodes to an instruction is that
instruction's one word, and an instruction's word decodes to it, with every field at every value; an event has no word. -/
def Obligations.DecodeInvertsEncode : Prop := ∀ (i : Instr) (w : Word),
  (encode i = [w] ↔ decode w = some i) ∧ (encode i).length ≤ 1 ∧ decodeTableWord 32 w.toNat = decode w

/-- The worked encodings of spec/12, spec/14, spec/15 and spec/16. -/
def Obligations.ExampleWords : Prop :=
  decode 0x010A041A = some (.addc false 5 1 3 false) ∧ decode 0x0E040000 = some (.movi false 2 0) ∧ decode 0x020C1801 = some (.addi false 6 6 1) ∧
  decode 0x10142860 = some (.add64 false 10 10 12 false) ∧ decode 0xA92FFFFB = some (.bra true 1 false 0xFFFFB) ∧
  decode 0xAC000002 = some (.exit true) ∧ decode 0x951040C0 = some (.fadd true 8 16 24 false 0) ∧
  decode 0x300828A0 = some (.ldG false 4 10 2 4 0) ∧ decode 0x33081C29 = some (.stS false 4 7 5) ∧
  decode 0x27100003 = some (.cvg false 8) ∧ decode 0x52002818 = some (.chap false 10 3) ∧ decode 0x5C0C0003 = some (.segr false 6 3)

/-- R20, R23, R25, R51, R99, R273: a slot's turn in which its warp has one group to issue runs the instruction that the word at the group's PC
decodes to, for that group; a word that decodes to nothing traps; an event of the agenda is executed as it stands, and every event completes in
every state. -/
def Obligations.StepRunsDecoded : Prop := ∀ (s : State) (core slot n : Nat) (w : Warp) (r : Run) (g : Group) (v : Word) (ts : List Turn),
  let k := warpKey core slot n
  let u : State := { s with agenda := ts }
  (∀ i, encode i = [] → (∃ t, exec i s = .next t) ∧ (s.agenda = .event i :: ts → step s = exec i u)) ∧
  (s.agenda = .slot core slot :: ts → slot < 8 → n < 8 → (s.slotAt core slot).running = some n → s.warpAt k = some w → w.run = some r →
    r.sweep = [] → warpGroups core slot n w false = [(g, none)] → g.lanes ≠ [] → w.startFault = none →
    (∀ l ∈ g.lanes, (w.lane l).replayFault = none ∧ needsReplay (w.lane l) = false) → fetchWord u core w g.pc = .word v →
    (∀ i, decode v = some i → (∀ late ask, attemptWord i g u ≠ .wait late ask) →
      step s = exec i { u with thr := { u.thr with warps := u.thr.warps.adjust k fun x => { x with run := x.run.map (·.withSweep []) } }, chosen := some g }) ∧
    (decode v = none → step s = .next (raiseAt u g ⟨0x01, g.lanes, v.toNat⟩))) ∧
  ∀ (e : TlbEntry) (l : ILine) (pc : VAddr), translateFor s core w.ctx.toNat 1 pc.toNat 3 w.system = (none, some e) →
    s.mem.icache.find (icacheKey core w.ctx.toNat (pc.toNat / 128)) = some l →
    (l.poison.getLsbD (pc.toNat % 128 / 32) = false → fetchWord s core w pc =
      .word (BitVec.ofNat 32 (((List.range 4).map fun i => (l.data.getD (pc.toNat % 128 + i) 0).toNat * 2 ^ (8 * i)).sum))) ∧
    (l.poison.getLsbD (pc.toNat % 128 / 32) = true → fetchWord s core w pc = .fail ⟨1, 0x0D, 0⟩)

/-- R43, R247, R248, R273, R274: before anything else an issue is checked: an illegal register field or subfield traps 0x01 at rank 2, a privileged
instruction in user mode 0x02 at rank 3, and a register past the warp's range 0x03 at rank 4 with the field's number, in the lanes that fail. -/
def Obligations.StaticChecks : Prop := ∀ (i : Instr) (s : State) (g : Group) (w : Warp), encode i ≠ [] → (∀ e c x y z t, i ≠ .rep e c x y z t) →
  s.chosen = some g → s.warpAt g.key = some w → w.protected' = false → g.lanes ≠ [] →
  let raises (t : TrapInfo) : Prop := exec i s = .next (trapEntry (s.unchoose.dropWalkFaults g.core w.ctx.toNat) g.key t g.pc g.rep)
  let past (l : Nat) : Option Nat := if i.opcode = 0x59 then none else windowFail w l i.operands
  (i.wellFormed = false → raises ⟨0x01, g.lanes, wordOf i⟩) ∧
  (i.wellFormed = true → privileged i = true → w.system = false → raises ⟨0x02, g.lanes, wordOf i⟩) ∧
  (i.wellFormed = true → (privileged i = true → w.system = true) →
    let bad := g.lanes.filter fun l => (past l).isSome
    bad ≠ [] → raises ⟨0x03, bad, wordOf i + (past (bad.headD 0)).getD 0 * 2 ^ 32⟩)

/-- R424, R425, R240: the machine right after reset: stage 0 in safe function, C0 alone running at code 0 on stack 0, the timer and every counter 0,
every function in its host-assisted mode, nothing resident, queued or in flight, and the memories in canonical form. That the pool reads as 0, that
the registers hold 0 and that the agenda is empty, so that a step changes nothing, is the model's choice (log entries 1, 2 and 3). -/
def Obligations.ResetState : Prop := let s := State.reset
  s.canonical = true ∧ s.att.stage = 0 ∧ s.att.safe = true ∧ s.att.diesUp = [0] ∧ s.att.stacksUp = [0] ∧ s.att.fabricUp = false ∧ s.clk.ref = 0 ∧
  (s.clk.dies.map fun d => (d.running, d.code)) = [(true, 0), (false, 0), (false, 0), (false, 0)] ∧ s.cfg.functionMode = 0x7F ∧ s.cfg.pw = 0 ∧
  s.thr.warps = [] ∧ s.work.groups = [] ∧ s.eng.copy = [] ∧ s.mem.ops = [] ∧ (∀ k, s.count k = 0) ∧ (∀ k, s.reg k = PWord.zero) ∧
  (∀ a, s.homeByte a = 0) ∧ step s = .next s

/-- The memories of the package stay in canonical form: of the scratchpads, the exchange banks, the accumulators and the stacks each address that
holds a byte is listed once, in order, and none that reads as an unlisted one, whatever step the machine takes. The form is the model's own
(log entry 1). -/
def Obligations.CanonicalKept : Prop := ∀ s t : State, s.canonical = true → step s = .next t → t.canonical = true
end

