-- ==== Sys2Proof/Laws/Memory.lean ====
section
/-! SUPPORT. Laws of memories: reading after writing, and that every operation keeps the canonical form. -/

namespace Sys2Proof.Machine

/-! Cells. -/

/-- Canonical form says of a list with a head: the head holds another byte than an unlisted address, lies below the rest, and the rest is
canonical. -/
theorem cellsWf_cons {a : Nat} {b : Byte} {m : List Host.Cell} :
    Mem.cellsWf ((a, b) :: m) = true ↔ b ≠ unlistedByte ∧ (∀ x ∈ m, a < x.1) ∧ Mem.cellsWf m = true := by
  induction m generalizing a b with
  | nil => simp [Mem.cellsWf]
  | cons x m ih =>
    obtain ⟨c, d⟩ := x
    simp only [Mem.cellsWf, Bool.and_eq_true, bne_iff_ne, decide_eq_true_eq, List.mem_cons, forall_eq_or_imp, and_assoc]
    constructor
    · rintro ⟨h1, h2, h3⟩
      exact ⟨h1, h2, fun y hy => Nat.lt_trans h2 ((ih.1 h3).2.1 y hy), h3⟩
    · rintro ⟨h1, h2, -, h3⟩
      exact ⟨h1, h2, h3⟩

theorem cellsRead_above {m : List Host.Cell} {k : Nat} (h : ∀ x ∈ m, k < x.1) : cellsRead m k = unlistedByte := by
  induction m with
  | nil => rfl
  | cons x m ih =>
    obtain ⟨a, b⟩ := x
    have := h (a, b) (by simp)
    rw [cellsRead, if_neg (by intro e; simp only [e] at this; omega)]
    exact ih fun y hy => h y (by simp [hy])

theorem cellsRead_write_self {m : List Host.Cell} (h : Mem.cellsWf m = true) (k : Nat) (v : Byte) : cellsRead (cellsWrite k v m) k = v := by
  induction m with
  | nil => unfold cellsWrite; split <;> simp_all [cellsRead]
  | cons x m ih =>
    obtain ⟨a, b⟩ := x
    obtain ⟨-, hl, hm⟩ := cellsWf_cons.1 h
    unfold cellsWrite
    split
    · rename_i hk
      split
      · rename_i hv
        rw [hv]; exact cellsRead_above fun y hy => by
          rcases List.mem_cons.1 hy with rfl | hy
          · exact hk
          · exact Nat.lt_trans hk (hl y hy)
      · simp [cellsRead]
    · split
      · rename_i hak
        split
        · rename_i hv
          rw [hv]; exact cellsRead_above fun y hy => hak ▸ hl y hy
        · simp [cellsRead]
      · rename_i hak
        rw [cellsRead, if_neg hak]; exact ih hm

theorem cellsRead_write_ne (m : List Host.Cell) {j k : Nat} (h : j ≠ k) (v : Byte) : cellsRead (cellsWrite k v m) j = cellsRead m j := by
  induction m with
  | nil => unfold cellsWrite; split <;> simp [cellsRead, h.symm]
  | cons x m ih =>
    obtain ⟨a, b⟩ := x
    unfold cellsWrite
    split
    · split <;> simp [cellsRead, h.symm]
    · split
      · rename_i hak; subst hak
        split <;> simp [cellsRead, h.symm]
      · simp only [cellsRead, ih]

theorem mem_cellsWrite {m : List Host.Cell} {k : Nat} {v : Byte} {x : Host.Cell} (h : x ∈ cellsWrite k v m) : x ∈ m ∨ x.1 = k := by
  induction m with
  | nil => unfold cellsWrite at h; split at h <;> simp_all
  | cons y m ih =>
    obtain ⟨a, b⟩ := y
    unfold cellsWrite at h
    split at h
    · split at h
      · exact .inl h
      · rcases List.mem_cons.1 h with rfl | h
        · exact .inr rfl
        · exact .inl h
    · split at h
      · split at h
        · exact .inl (by simp [h])
        · rcases List.mem_cons.1 h with rfl | h
          · exact .inr rfl
          · exact .inl (by simp [h])
      · rcases List.mem_cons.1 h with rfl | h
        · exact .inl (by simp)
        · rcases ih h with h | h
          · exact .inl (by simp [h])
          · exact .inr h

theorem cellsWf_write {m : List Host.Cell} (h : Mem.cellsWf m = true) (k : Nat) (v : Byte) : Mem.cellsWf (cellsWrite k v m) = true := by
  induction m with
  | nil => unfold cellsWrite; split <;> simp_all [Mem.cellsWf]
  | cons x m ih =>
    obtain ⟨a, b⟩ := x
    obtain ⟨hb, hl, hm⟩ := cellsWf_cons.1 h
    unfold cellsWrite
    split
    · rename_i hk
      split
      · exact h
      · rename_i hv
        refine cellsWf_cons.2 ⟨hv, fun y hy => ?_, h⟩
        rcases List.mem_cons.1 hy with rfl | hy
        · exact hk
        · exact Nat.lt_trans hk (hl y hy)
    · rename_i hk
      split
      · rename_i hak
        split
        · exact hm
        · rename_i hv
          exact cellsWf_cons.2 ⟨hv, hak ▸ hl, hm⟩
      · rename_i hak
        refine cellsWf_cons.2 ⟨hb, fun y hy => ?_, ih hm⟩
        rcases mem_cellsWrite hy with hy | hy
        · exact hl y hy
        · omega

theorem cellsWf_filter {m : List Host.Cell} (h : Mem.cellsWf m = true) (p : Host.Cell → Bool) : Mem.cellsWf (m.filter p) = true := by
  induction m with
  | nil => rfl
  | cons x m ih =>
    obtain ⟨a, b⟩ := x
    obtain ⟨hb, hl, hm⟩ := cellsWf_cons.1 h
    rw [List.filter_cons]
    split
    · exact cellsWf_cons.2 ⟨hb, fun y hy => hl y (List.mem_of_mem_filter hy), ih hm⟩
    · exact ih hm

/-! Rising lists of numbers. -/

theorem rising_cons {a : Nat} {m : List Nat} : risingList (a :: m) = true ↔ (∀ x ∈ m, a < x) ∧ risingList m = true := by
  induction m generalizing a with
  | nil => simp [risingList]
  | cons b m ih =>
    simp only [risingList, Bool.and_eq_true, decide_eq_true_eq, List.mem_cons, forall_eq_or_imp]
    constructor
    · rintro ⟨h1, h2⟩
      exact ⟨⟨h1, fun y hy => Nat.lt_trans h1 ((ih.1 h2).1 y hy)⟩, h2⟩
    · rintro ⟨⟨h1, -⟩, h2⟩
      exact ⟨h1, h2⟩

theorem mem_insertRising {k x : Nat} {m : List Nat} : x ∈ insertRising k m ↔ x = k ∨ x ∈ m := by
  induction m with
  | nil => simp [insertRising]
  | cons a m ih =>
    unfold insertRising
    split
    · simp
    · split
      · rename_i h; subst h; simp
      · simp only [List.mem_cons, ih]; tauto

theorem rising_insert {m : List Nat} (h : risingList m = true) (k : Nat) : risingList (insertRising k m) = true := by
  induction m with
  | nil => rfl
  | cons a m ih =>
    obtain ⟨hl, hm⟩ := rising_cons.1 h
    unfold insertRising
    split
    · rename_i hk
      refine rising_cons.2 ⟨fun y hy => ?_, h⟩
      rcases List.mem_cons.1 hy with rfl | hy
      · exact hk
      · exact Nat.lt_trans hk (hl y hy)
    · split
      · exact h
      · refine rising_cons.2 ⟨fun y hy => ?_, ih hm⟩
        rcases mem_insertRising.1 hy with rfl | hy
        · omega
        · exact hl y hy

theorem mem_removeRising_of {k x : Nat} {m : List Nat} (h : x ∈ removeRising k m) : x ∈ m := by
  induction m with
  | nil => exact h
  | cons a m ih =>
    unfold removeRising at h
    split at h
    · simp [h]
    · rcases List.mem_cons.1 h with rfl | h
      · simp
      · simp [ih h]

theorem rising_remove {m : List Nat} (h : risingList m = true) (k : Nat) : risingList (removeRising k m) = true := by
  induction m with
  | nil => rfl
  | cons a m ih =>
    obtain ⟨hl, hm⟩ := rising_cons.1 h
    unfold removeRising
    split
    · exact hm
    · exact rising_cons.2 ⟨fun y hy => hl y (mem_removeRising_of hy), ih hm⟩

theorem mem_removeRising {m : List Nat} (h : risingList m = true) {k x : Nat} : x ∈ removeRising k m ↔ x ∈ m ∧ x ≠ k := by
  induction m with
  | nil => simp [removeRising]
  | cons a m ih =>
    obtain ⟨hl, hm⟩ := rising_cons.1 h
    unfold removeRising
    split
    · rename_i hak; subst hak
      constructor
      · intro hx; exact ⟨by simp [hx], fun e => by have := hl x hx; omega⟩
      · rintro ⟨hx, hne⟩
        rcases List.mem_cons.1 hx with rfl | hx
        · exact absurd rfl hne
        · exact hx
    · rename_i hak
      simp only [List.mem_cons, ih hm]
      constructor
      · rintro (rfl | ⟨h1, h2⟩)
        · exact ⟨.inl rfl, hak⟩
        · exact ⟨.inr h1, h2⟩
      · rintro ⟨rfl | h1, h2⟩
        · exact .inl rfl
        · exact .inr ⟨h1, h2⟩

theorem rising_filter {m : List Nat} (h : risingList m = true) (p : Nat → Bool) : risingList (m.filter p) = true := by
  induction m with
  | nil => rfl
  | cons a m ih =>
    obtain ⟨hl, hm⟩ := rising_cons.1 h
    rw [List.filter_cons]
    split
    · exact rising_cons.2 ⟨fun y hy => hl y (List.mem_of_mem_filter hy), ih hm⟩
    · exact ih hm

/-! Memories. -/

theorem wf_cells {m : Mem} (h : m.wf = true) : Mem.cellsWf m.cells = true := (Bool.and_eq_true _ _ ▸ h).1

theorem wf_poison {m : Mem} (h : m.wf = true) : risingList m.poison = true := (Bool.and_eq_true _ _ ▸ h).2

theorem wf_of {m : Mem} (h : Mem.cellsWf m.cells = true) (k : risingList m.poison = true) : m.wf = true := by
  simp [Mem.wf, h, k]

theorem wf_write {m : Mem} (h : m.wf = true) (a : Nat) (b : Byte) : (m.write a b).wf = true :=
  wf_of (m := m.write a b) (cellsWf_write (wf_cells h) a b) (show risingList m.poison = true from wf_poison h)

theorem wf_setPoison {m : Mem} (h : m.wf = true) (k : Nat) (p : Bool) : (m.setPoison k p).wf = true := by
  refine wf_of (m := m.setPoison k p) (show Mem.cellsWf m.cells = true from wf_cells h) ?_
  show risingList (if p = true then insertRising k m.poison else removeRising k m.poison) = true
  split
  · exact rising_insert (wf_poison h) k
  · exact rising_remove (wf_poison h) k

theorem read_write_self {m : Mem} (h : m.wf = true) (a : Nat) (b : Byte) : (m.write a b).read a = b := cellsRead_write_self (wf_cells h) a b

theorem read_write_ne (m : Mem) {a x : Nat} (h : x ≠ a) (b : Byte) : (m.write a b).read x = m.read x := cellsRead_write_ne m.cells h b

@[simp] theorem read_setPoison (m : Mem) (k x : Nat) (p : Bool) : (m.setPoison k p).read x = m.read x := rfl

@[simp] theorem poisoned_write (m : Mem) (a k : Nat) (b : Byte) : (m.write a b).poisoned k = m.poisoned k := rfl

theorem poisoned_setPoison {m : Mem} (h : m.wf = true) (k j : Nat) (p : Bool) :
    (m.setPoison k p).poisoned j = if j = k then p else m.poisoned j := by
  unfold Mem.setPoison Mem.poisoned
  cases p
  · simp only [Bool.false_eq_true, if_false]
    rw [Bool.eq_iff_iff, List.contains_iff_mem, mem_removeRising (wf_poison h)]
    by_cases hj : j = k <;> simp [hj]
  · simp only [if_true]
    rw [Bool.eq_iff_iff, List.contains_iff_mem, mem_insertRising]
    by_cases hj : j = k <;> simp [hj]

/-- A fold of operations that each keep the canonical form keeps it. -/
theorem wf_foldl {α : Type} (f : Mem → α → Mem) (hf : ∀ m x, m.wf = true → (f m x).wf = true) (xs : List α) {m : Mem} (h : m.wf = true) :
    (xs.foldl f m).wf = true := by
  induction xs generalizing m with
  | nil => exact h
  | cons x xs ih => exact ih (hf m x h)

theorem wf_writeBytes {m : Mem} (h : m.wf = true) (a : Nat) (bs : List Byte) : (m.writeBytes a bs).wf = true :=
  wf_foldl _ (fun _ x hm => wf_write hm _ x.1) _ h

theorem wf_writeClean {m : Mem} (h : m.wf = true) (g a : Nat) (bs : List Byte) : (m.writeClean g a bs).wf = true := by
  refine wf_foldl _ (fun m x hm => ?_) _ (wf_writeBytes h a bs)
  split
  · exact wf_setPoison hm _ _
  · exact hm

theorem wf_writePoison {m : Mem} (h : m.wf = true) (g a : Nat) (bs : List Byte) (p : Bool) : (m.writePoison g a bs p).wf = true := by
  unfold Mem.writePoison
  split
  · exact wf_foldl _ (fun m x hm => wf_setPoison hm _ _) _ (wf_writeBytes h a bs)
  · exact wf_writeClean h g a bs

theorem wf_zero {m : Mem} (h : m.wf = true) (a n : Nat) : (m.zero a n).wf = true :=
  wf_of (cellsWf_filter (wf_cells h) _) (rising_filter (wf_poison h) _)

theorem wf_move {m : Mem} (h : m.wf = true) (a b n : Nat) : (m.move a b n).wf = true :=
  wf_foldl _ (fun _ _ hm => wf_setPoison hm _ _) _ (wf_foldl _ (fun _ _ hm => wf_write hm _ _) _ (wf_zero h b n))

/-- What a run of bytes reads as after it was written; the rest stays. -/
theorem read_writeBytes {m : Mem} (h : m.wf = true) (a : Nat) (bs : List Byte) (x : Nat) :
    (m.writeBytes a bs).read x = if a ≤ x ∧ x < a + bs.length then bs.getD (x - a) 0 else m.read x := by
  have key : ∀ (bs : List Byte) (i : Nat) (m : Mem), m.wf = true →
      ((bs.zipIdx i).foldl (fun m (y : Byte × Nat) => m.write (a + y.2) y.1) m).read x =
        if a + i ≤ x ∧ x < a + i + bs.length then bs.getD (x - a - i) 0 else m.read x := by
    intro bs
    induction bs with
    | nil =>
      intro i m _
      rw [if_neg (by simp only [List.length_nil]; omega)]; rfl
    | cons b bs ih =>
      intro i m hm
      rw [List.zipIdx_cons, List.foldl_cons, ih (i + 1) _ (wf_write hm _ _)]
      by_cases h1 : a + (i + 1) ≤ x ∧ x < a + (i + 1) + bs.length
      · rw [if_pos h1, if_pos (by simp only [List.length_cons]; omega)]
        obtain ⟨j, hj⟩ : ∃ j, x - a - i = j + 1 := ⟨x - a - (i + 1), by omega⟩
        rw [hj, List.getD_cons_succ]; congr 1; omega
      · rw [if_neg h1]
        by_cases h2 : x = a + i
        · subst h2
          rw [if_pos (by simp only [List.length_cons]; omega)]
          simp only [Nat.add_sub_cancel_left, Nat.sub_self, List.getD_cons_zero]
          exact read_write_self hm _ _
        · rw [if_neg (by simp only [List.length_cons]; omega)]
          exact read_write_ne _ h2 _
  have := key bs 0 m h
  simpa [Mem.writeBytes] using this

@[simp] theorem poisoned_writeBytes (m : Mem) (a : Nat) (bs : List Byte) (k : Nat) : (m.writeBytes a bs).poisoned k = m.poisoned k := by
  have key : ∀ (bs : List Byte) (i : Nat) (m : Mem),
      ((bs.zipIdx i).foldl (fun m (y : Byte × Nat) => m.write (a + y.2) y.1) m).poisoned k = m.poisoned k := by
    intro bs
    induction bs with
    | nil => intro i m; rfl
    | cons b bs ih => intro i m; rw [List.zipIdx_cons, List.foldl_cons, ih]; rfl
  exact key bs 0 m

theorem read_poisonFold (f : Mem → Nat → Mem) (hf : ∀ m k x, (f m k).read x = m.read x) (ks : List Nat) (m : Mem) (x : Nat) :
    (ks.foldl f m).read x = m.read x := by
  induction ks generalizing m with
  | nil => rfl
  | cons k ks ih => rw [List.foldl_cons, ih, hf]

@[simp] theorem read_writeClean (m : Mem) (g a : Nat) (bs : List Byte) (x : Nat) : (m.writeClean g a bs).read x = (m.writeBytes a bs).read x :=
  read_poisonFold _ (fun m k x => by split <;> rfl) _ _ x

@[simp] theorem read_writePoison (m : Mem) (g a : Nat) (bs : List Byte) (p : Bool) (x : Nat) :
    (m.writePoison g a bs p).read x = (m.writeBytes a bs).read x := by
  unfold Mem.writePoison
  split
  · exact read_poisonFold (fun m k => m.setPoison k true) (fun _ _ _ => rfl) _ _ x
  · exact read_writeClean ..

/-- The granules that n bytes touch. -/
theorem mem_granules {g a n k : Nat} : k ∈ granules g a n ↔ 0 < n ∧ a / g ≤ k ∧ k ≤ (a + n - 1) / g := by
  unfold granules
  split
  · simp_all
  · rename_i hn
    simp only [List.mem_map, List.mem_range]
    have hle : a / g ≤ (a + n - 1) / g := Nat.div_le_div_right (by omega)
    constructor
    · rintro ⟨i, hi, rfl⟩; omega
    · rintro ⟨-, h1, h2⟩; exact ⟨k - a / g, by omega, by omega⟩

/-- Clearing the granules of a list that a condition picks. -/
theorem poisoned_clearFold (p : Nat → Bool) (ks : List Nat) {m : Mem} (h : m.wf = true) (k : Nat) :
    (ks.foldl (fun m k => if p k then m.setPoison k false else m) m).poisoned k = (m.poisoned k && !(ks.contains k && p k)) := by
  induction ks generalizing m with
  | nil => simp
  | cons j ks ih =>
    rw [List.foldl_cons]
    by_cases hc : p j = true
    · simp only [hc, if_true]
      rw [ih (wf_setPoison h _ _), poisoned_setPoison h]
      by_cases hj : k = j
      · subst hj; simp [hc]
      · simp [hj]
    · simp only [hc, Bool.false_eq_true, if_false]
      rw [ih h]
      by_cases hj : k = j
      · subst hj; simp [hc]
      · simp [hj]

/-- A clean write clears the granules it covers in full, and leaves the poison of the others. -/
theorem poisoned_writeClean {m : Mem} (h : m.wf = true) {g : Nat} (hg : 0 < g) (a : Nat) (bs : List Byte) (k : Nat) :
    (m.writeClean g a bs).poisoned k = (m.poisoned k && !(covers g a bs.length k && 0 < bs.length)) := by
  unfold Mem.writeClean
  rw [poisoned_clearFold (covers g a bs.length) _ (wf_writeBytes h a bs), poisoned_writeBytes]
  congr 2
  by_cases hc : covers g a bs.length k = true
  · by_cases hb : 0 < bs.length
    · have hm : k ∈ granules g a bs.length := by
        rw [mem_granules]
        simp only [covers, Bool.and_eq_true, decide_eq_true_eq] at hc
        obtain ⟨c1, c2⟩ := hc
        refine ⟨hb, ?_, ?_⟩
        · exact (Nat.div_le_iff_le_mul_add_pred hg).2 (by rw [Nat.mul_comm]; omega)
        · exact (Nat.le_div_iff_mul_le hg).2 (by omega)
      simp [hm, hb, hc]
    · have : granules g a bs.length = [] := by unfold granules; rw [if_pos (by omega)]
      simp [this, hb]
  · simp [hc]

/-! The writes of one pass. -/

theorem wf_writePass {m : Mem} (h : m.wf = true) (g : Nat) (ws : List (Nat × List Byte)) : (m.writePass g ws).wf = true := by
  unfold Mem.writePass
  refine wf_foldl _ (fun m k hm => ?_) _ (wf_foldl _ (fun m w hm => wf_writeBytes hm w.1 w.2) _ h)
  dsimp only
  split
  · exact wf_setPoison hm k false
  · exact hm

/-- A pass writes the bytes of one write after another. -/
@[simp] theorem read_writePass (m : Mem) (g : Nat) (ws : List (Nat × List Byte)) (x : Nat) :
    (m.writePass g ws).read x = (ws.foldl (fun m w => m.writeBytes w.1 w.2) m).read x :=
  read_poisonFold _ (fun m k x => by dsimp only; split <;> simp) _ _ x

/-- A pass clears the granules of which it writes every byte, and no other. -/
theorem poisoned_writePass {m : Mem} (h : m.wf = true) {g : Nat} (hg : 0 < g) (ws : List (Nat × List Byte)) (k : Nat) :
    (m.writePass g ws).poisoned k = (m.poisoned k &&
      !(List.range g).all fun i => ws.any fun w => w.1 ≤ g * k + i && g * k + i < w.1 + w.2.length) := by
  have hb : ∀ (ws : List (Nat × List Byte)) (m : Mem), (ws.foldl (fun m w => m.writeBytes w.1 w.2) m).poisoned k = m.poisoned k := by
    intro ws
    induction ws with
    | nil => intro m; rfl
    | cons w ws ih => intro m; rw [List.foldl_cons, ih, poisoned_writeBytes]
  unfold Mem.writePass
  rw [poisoned_clearFold _ _ (wf_foldl _ (fun m w hm => wf_writeBytes hm w.1 w.2) _ h), hb]
  congr 2
  rw [Bool.and_eq_right_iff_imp]
  intro hw
  obtain ⟨w, hm, hi⟩ := List.any_eq_true.1 (List.all_eq_true.1 hw 0 (List.mem_range.2 hg))
  simp only [Bool.and_eq_true, decide_eq_true_eq] at hi
  rw [List.contains_iff_mem, List.mem_flatMap]
  refine ⟨w, hm, mem_granules.2 ⟨by omega, ?_, ?_⟩⟩
  · exact (Nat.div_le_iff_le_mul_add_pred hg).2 (by omega)
  · exact (Nat.le_div_iff_mul_le hg).2 (by rw [Nat.mul_comm]; omega)

end Sys2Proof.Machine
end

