-- ==== Sys2Proof/Laws/Canonical.lean ====
section
/-! SUPPORT. The canonical form of the memories is kept: by the composed operations on one memory, and by the operations of the package that
act on one of its memories. -/

namespace Sys2Proof.Machine

theorem wf_empty : Mem.empty.wf = true := rfl

theorem wf_writeMarked {m : Mem} (h : m.wf = true) (a : Nat) (bs : List (Byte × Bool)) : (m.writeMarked a bs).wf = true :=
  wf_foldl _ (fun m x h => by
    obtain ⟨b, i⟩ := x
    by_cases hb : b.2 = true
    · simpa [hb] using wf_setPoison h ((a + i) / 4) true
    · simpa [hb] using h) _ (wf_writeClean h 4 a _)

theorem wf_loadRegion {m : Mem} (h : m.wf = true) (bs : List Byte) (o p a n : Nat) : (loadRegion bs o p a n m).wf = true :=
  wf_foldl _ (fun _ i h => wf_setPoison h (a / 4 + i) (mapBit bs p i)) _ (wf_writeBytes h a _)

/-! The whole package. -/

/-- The four memories of a package in canonical form. -/
theorem canonical_iff {s : State} : s.canonical = true ↔
    s.mem.scratch.wf = true ∧ s.mem.exch.wf = true ∧ s.mem.acc.wf = true ∧ s.mem.hbm.wf = true := by
  simp [State.canonical, and_assoc]

/-- A change that keeps the four memories keeps their form. -/
theorem canonical_of_eq {s t : State} (h : s.canonical = true) (hs : t.mem.scratch = s.mem.scratch) (he : t.mem.exch = s.mem.exch)
    (ha : t.mem.acc = s.mem.acc) (hh : t.mem.hbm = s.mem.hbm) : t.canonical = true := by
  unfold State.canonical at *; rw [hs, he, ha, hh]; exact h

theorem canonical_onScratch {s : State} (h : s.canonical = true) {f : Mem → Mem} (hf : ∀ m, m.wf = true → (f m).wf = true) :
    (s.onScratch f).canonical = true :=
  have h := canonical_iff.1 h
  canonical_iff.2 ⟨hf _ h.1, h.2⟩

theorem canonical_onExch {s : State} (h : s.canonical = true) {f : Mem → Mem} (hf : ∀ m, m.wf = true → (f m).wf = true) :
    (s.onExch f).canonical = true :=
  have h := canonical_iff.1 h
  canonical_iff.2 ⟨h.1, hf _ h.2.1, h.2.2⟩

theorem canonical_onAcc {s : State} (h : s.canonical = true) {f : Mem → Mem} (hf : ∀ m, m.wf = true → (f m).wf = true) :
    (s.onAcc f).canonical = true :=
  have h := canonical_iff.1 h
  canonical_iff.2 ⟨h.1, h.2.1, hf _ h.2.2.1, h.2.2.2⟩

theorem canonical_onHbm {s : State} (h : s.canonical = true) {f : Mem → Mem} (hf : ∀ m, m.wf = true → (f m).wf = true) :
    (s.onHbm f).canonical = true :=
  have h := canonical_iff.1 h
  canonical_iff.2 ⟨h.1, h.2.1, h.2.2.1, hf _ h.2.2.2⟩

/-- A fold of changes that each keep the form. -/
theorem canonical_foldl {α : Type} (f : State → α → State) (hf : ∀ s x, s.canonical = true → (f s x).canonical = true) (xs : List α)
    {s : State} (h : s.canonical = true) : (xs.foldl f s).canonical = true := by
  induction xs generalizing s with
  | nil => exact h
  | cons x xs ih => exact ih (hf s x h)

/-- Ring records in a scratch segment. -/
theorem canonical_segmentWrite {s : State} (h : s.canonical = true) (core : Nat) (w : Warp) (off : Nat) (bs : List Byte) :
    (segmentWrite s core w off bs).canonical = true := canonical_onScratch h fun _ k => wf_writeClean k 4 _ bs

theorem canonical_scratchStore {s : State} (h : s.canonical = true) (core off v : Nat) : (s.scratchStore core off v).canonical = true :=
  canonical_onScratch h fun _ k => wf_writeClean k 4 _ _

/-- An arrival at a sync word. -/
theorem canonical_arrive {s : State} (h : s.canonical = true) (core off amount : Nat) : (s.arrive core off amount).canonical = true := by
  unfold State.arrive
  generalize s.scratchField core off 4 = x
  generalize s.scratchField core (off + 4) 4 = y
  generalize s.scratchField core (off + 8) 4 = z
  obtain ⟨x, p⟩ := x
  obtain ⟨y, q⟩ := y
  obtain ⟨z, r⟩ := z
  simp only []
  split_ifs
  · exact h
  · apply canonical_scratchStore h
  · apply canonical_scratchStore
    apply canonical_scratchStore
    apply canonical_scratchStore h

theorem canonical_setReg {s : State} (h : s.canonical = true) (k : Nat) (v : PWord) : (s.setReg k v).canonical = true :=
  canonical_of_eq h rfl rfl rfl rfl

end Sys2Proof.Machine
end

