-- ==== Sys2Proof/Laws/Encoding.lean ====
section
/-! SUPPORT. Fields of a word written as fields side by side: the encoder's words, read back. The width of a word stands in them as a
sum, so they rewrite with `rw`, one field at a time, from the right. -/

namespace Sys2Proof

/-- A shift that passes the last field. -/
theorem append_shr {n w : Nat} (x : BitVec n) (y : BitVec w) (k : Nat) (h : w ≤ k) : (x ++ y).toNat >>> k = x.toNat >>> (k - w) := by
  rw [BitVec.toNat_append, Nat.shiftRight_or_distrib]
  have h1 : y.toNat >>> k = 0 := by
    rw [Nat.shiftRight_eq_div_pow]; exact Nat.div_eq_of_lt (Nat.lt_of_lt_of_le y.isLt (Nat.pow_le_pow_right (by decide) h))
  rw [h1, Nat.or_zero]
  obtain ⟨j, rfl⟩ := Nat.exists_eq_add_of_le h
  rw [Nat.add_sub_cancel_left, Nat.shiftRight_add, Nat.shiftLeft_shiftRight]

/-- The last field, of seven bits. -/
theorem append_mod {n : Nat} (x : BitVec n) (y : BitVec 7) : (x ++ y).toNat % 128 = y.toNat := by
  rw [BitVec.toNat_append, show (128 : Nat) = 2 ^ 7 from rfl, Nat.or_mod_two_pow, Nat.shiftLeft_eq, Nat.mul_mod_left, Nat.zero_or]
  exact Nat.mod_eq_of_lt y.isLt

/-- Bits above the last field. -/
theorem extract_skip {n w : Nat} (x : BitVec n) (y : BitVec w) (k m : Nat) (h : w ≤ k) :
    (x ++ y).extractLsb' k m = x.extractLsb' (k - w) m := by
  ext i hi
  rw [BitVec.getElem_extractLsb', BitVec.getElem_extractLsb', BitVec.getLsbD_append, if_neg (by omega)]
  congr 1; omega

/-- Bits within the last field. -/
theorem extract_within {n w : Nat} (x : BitVec n) (y : BitVec w) (k m : Nat) (h : k + m ≤ w) :
    (x ++ y).extractLsb' k m = y.extractLsb' k m := by
  ext i hi
  rw [BitVec.getElem_extractLsb', BitVec.getElem_extractLsb', BitVec.getLsbD_append, if_pos (by omega)]

/-- A whole field. -/
theorem extract_all {w : Nat} (y : BitVec w) : y.extractLsb' 0 w = y := by
  ext i hi
  rw [BitVec.getElem_extractLsb', Nat.zero_add, ← BitVec.getLsbD_eq_getElem]

/-- A bit above the last field. -/
theorem bit_skip {n w : Nat} (x : BitVec n) (y : BitVec w) (k : Nat) (h : w ≤ k) : (x ++ y).getLsbD k = x.getLsbD (k - w) := by
  rw [BitVec.getLsbD_append, if_neg (by omega)]

/-- A bit within the last field. -/
theorem bit_within {n w : Nat} (x : BitVec n) (y : BitVec w) (k : Nat) (h : k < w) : (x ++ y).getLsbD k = y.getLsbD k := by
  rw [BitVec.getLsbD_append, if_pos h]

/-- A field of one bit. -/
theorem bit_ofBool (b : Bool) : (BitVec.ofBool b).getLsbD 0 = b := by cases b <;> rfl

end Sys2Proof
end

