-- ==== Sys2Proof/Laws/Map.lean ====
section
/-! SUPPORT. Laws of sparse maps: what a lookup gives after each operation, and that each keeps the keys rising. -/

namespace Sys2Proof.NMap

theorem find_insert_self (k : Nat) (v : α) (m : NMap α) : find k (insert k v m) = some v := by
  induction m with
  | nil => simp [insert, find]
  | cons x m ih =>
    obtain ⟨j, u⟩ := x
    simp only [insert]
    split
    · simp [find]
    · split
      · simp [find]
      · simp [find, *]

theorem find_insert_ne {j k : Nat} (h : j ≠ k) (v : α) (m : NMap α) : find j (insert k v m) = find j m := by
  induction m with
  | nil => simp [insert, find, h.symm]
  | cons x m ih =>
    obtain ⟨i, u⟩ := x
    simp only [insert]
    split
    · simp [find, h.symm]
    · split
      · subst_vars; simp [find, h.symm]
      · simp [find, ih]

theorem find_erase_self (k : Nat) (m : NMap α) : find k (erase k m) = none := by
  induction m with
  | nil => simp [erase, find]
  | cons x m ih => obtain ⟨j, u⟩ := x; simp only [erase]; split <;> simp [find, *]

theorem find_erase_ne {j k : Nat} (h : j ≠ k) (m : NMap α) : find j (erase k m) = find j m := by
  induction m with
  | nil => simp [erase, find]
  | cons x m ih =>
    obtain ⟨i, u⟩ := x
    simp only [erase]
    split
    · subst_vars; simp [find, ih, h.symm]
    · simp [find, ih]

theorem find_adjust_self (k : Nat) (f : α → α) (m : NMap α) : find k (adjust k f m) = (find k m).map f := by
  induction m with
  | nil => simp [adjust, find]
  | cons x m ih => obtain ⟨j, u⟩ := x; simp only [adjust]; split <;> simp [find, *]

theorem find_adjust_ne {j k : Nat} (h : j ≠ k) (f : α → α) (m : NMap α) : find j (adjust k f m) = find j m := by
  induction m with
  | nil => simp [adjust, find]
  | cons x m ih =>
    obtain ⟨i, u⟩ := x
    simp only [adjust]
    split
    · subst_vars; simp [find, h.symm]
    · simp [find, ih]

theorem getD_put_self [DecidableEq α] (m : NMap α) (k : Nat) (v d : α) : (m.put k v d).getD k d = v := by
  unfold put getD; split <;> simp [find_erase_self, find_insert_self, *]

theorem getD_put_ne [DecidableEq α] {j k : Nat} (h : j ≠ k) (m : NMap α) (v d e : α) : (m.put k v d).getD j e = m.getD j e := by
  unfold put getD; split <;> simp [find_erase_ne h, find_insert_ne h]

theorem getD_alter_self [DecidableEq α] (m : NMap α) (k : Nat) (f : α → α) (d : α) : (m.alter k f d).getD k d = f (m.getD k d) :=
  getD_put_self ..

theorem getD_alter_ne [DecidableEq α] {j k : Nat} (h : j ≠ k) (m : NMap α) (f : α → α) (d e : α) : (m.alter k f d).getD j e = m.getD j e :=
  getD_put_ne h ..

/-- Every key of a list lies above a bound. -/
def above (k : Nat) (m : NMap α) : Prop := ∀ x ∈ m, k < x.1

theorem wf_cons {j : Nat} {u : α} {m : NMap α} : wf ((j, u) :: m) = true ↔ above j m ∧ wf m = true := by
  constructor
  · intro h
    induction m generalizing j u with
    | nil => exact ⟨by simp [above], rfl⟩
    | cons x m ih =>
      obtain ⟨k, v⟩ := x
      simp only [wf, Bool.and_eq_true, decide_eq_true_eq] at h
      refine ⟨?_, h.2⟩
      intro y hy
      rcases List.mem_cons.1 hy with rfl | hy
      · exact h.1
      · exact Nat.lt_trans h.1 ((ih h.2).1 y hy)
  · rintro ⟨ha, hw⟩
    cases m with
    | nil => rfl
    | cons x m => obtain ⟨k, v⟩ := x; simp only [wf, Bool.and_eq_true, decide_eq_true_eq]; exact ⟨ha (k, v) (by simp), hw⟩

theorem above_insert {i k : Nat} {v : α} {m : NMap α} (h : above i m) (hk : i < k) : above i (insert k v m) := by
  induction m with
  | nil => simpa [above, insert] using hk
  | cons x m ih =>
    obtain ⟨j, u⟩ := x
    have hm : above i m := fun y hy => h y (by simp [hy])
    have hj : i < j := h (j, u) (by simp)
    simp only [insert]
    split
    · intro y hy; rcases List.mem_cons.1 hy with rfl | hy
      · exact hk
      · exact h y hy
    · split
      · intro y hy; rcases List.mem_cons.1 hy with rfl | hy
        · exact hk
        · exact hm y hy
      · intro y hy; rcases List.mem_cons.1 hy with rfl | hy
        · exact hj
        · exact ih hm y hy

theorem wf_insert {k : Nat} {v : α} {m : NMap α} (h : wf m = true) : wf (insert k v m) = true := by
  induction m with
  | nil => rfl
  | cons x m ih =>
    obtain ⟨j, u⟩ := x
    have ⟨ha, hw⟩ := wf_cons.1 h
    simp only [insert]
    split
    · rename_i hk
      refine wf_cons.2 ⟨?_, h⟩
      intro y hy; rcases List.mem_cons.1 hy with rfl | hy
      · exact hk
      · exact Nat.lt_trans hk (ha y hy)
    · split
      · subst_vars; exact wf_cons.2 ⟨ha, hw⟩
      · exact wf_cons.2 ⟨above_insert ha (by omega), ih hw⟩

theorem erase_subset {k : Nat} {m : NMap α} {y} (h : y ∈ erase k m) : y ∈ m := by
  induction m with
  | nil => simp [erase] at h
  | cons x m ih =>
    obtain ⟨j, u⟩ := x
    simp only [erase] at h
    split at h
    · exact List.mem_cons_of_mem _ (ih h)
    · rcases List.mem_cons.1 h with rfl | h
      · simp
      · exact List.mem_cons_of_mem _ (ih h)

theorem wf_erase {k : Nat} {m : NMap α} (h : wf m = true) : wf (erase k m) = true := by
  induction m with
  | nil => rfl
  | cons x m ih =>
    obtain ⟨j, u⟩ := x
    have ⟨ha, hw⟩ := wf_cons.1 h
    simp only [erase]
    split
    · exact ih hw
    · exact wf_cons.2 ⟨fun y hy => ha y (erase_subset hy), ih hw⟩

theorem adjust_keys (k : Nat) (f : α → α) (m : NMap α) : (adjust k f m).map (·.1) = m.map (·.1) := by
  induction m with
  | nil => rfl
  | cons x m ih => obtain ⟨j, u⟩ := x; simp only [adjust]; split <;> simp [ih]

theorem wf_adjust {k : Nat} {f : α → α} {m : NMap α} (h : wf m = true) : wf (adjust k f m) = true := by
  induction m with
  | nil => rfl
  | cons x m ih =>
    obtain ⟨j, u⟩ := x
    have ⟨ha, hw⟩ := wf_cons.1 h
    simp only [adjust]
    split
    · exact wf_cons.2 ⟨ha, hw⟩
    · refine wf_cons.2 ⟨?_, ih hw⟩
      intro y hy
      have : y.1 ∈ (adjust k f m).map (·.1) := List.mem_map_of_mem hy
      rw [adjust_keys] at this
      obtain ⟨z, hz, e⟩ := List.mem_map.1 this
      exact e ▸ ha z hz

theorem wf_put [DecidableEq α] {k : Nat} {v d : α} {m : NMap α} (h : wf m = true) : wf (m.put k v d) = true := by
  unfold put; split
  · exact wf_erase h
  · exact wf_insert h

end Sys2Proof.NMap
end

