-- ==== Sys2Proof/Laws/State.lean ====
section
/-! SUPPORT. What each named update of the state leaves alone, and what it sets: one lemma per field, true by rfl. -/

namespace Sys2Proof.Machine

/-! `State.setWarp`. -/

@[simp] theorem State.setWarp_clk (s : State) (k : Nat) (w : Warp) : (s.setWarp k w).clk = s.clk := rfl
@[simp] theorem State.setWarp_work (s : State) (k : Nat) (w : Warp) : (s.setWarp k w).work = s.work := rfl
@[simp] theorem State.setWarp_mem (s : State) (k : Nat) (w : Warp) : (s.setWarp k w).mem = s.mem := rfl
@[simp] theorem State.setWarp_cfg (s : State) (k : Nat) (w : Warp) : (s.setWarp k w).cfg = s.cfg := rfl
@[simp] theorem State.setWarp_agenda (s : State) (k : Nat) (w : Warp) : (s.setWarp k w).agenda = s.agenda := rfl
@[simp] theorem State.setWarp_counts (s : State) (k : Nat) (w : Warp) : (s.setWarp k w).counts = s.counts := rfl
@[simp] theorem State.setWarp_eng (s : State) (k : Nat) (w : Warp) : (s.setWarp k w).eng = s.eng := rfl
@[simp] theorem State.setWarp_host (s : State) (k : Nat) (w : Warp) : (s.setWarp k w).host = s.host := rfl
@[simp] theorem State.setWarp_fab (s : State) (k : Nat) (w : Warp) : (s.setWarp k w).fab = s.fab := rfl
@[simp] theorem State.setWarp_dist (s : State) (k : Nat) (w : Warp) : (s.setWarp k w).dist = s.dist := rfl
@[simp] theorem State.setWarp_ctl (s : State) (k : Nat) (w : Warp) : (s.setWarp k w).ctl = s.ctl := rfl
@[simp] theorem State.setWarp_dram (s : State) (k : Nat) (w : Warp) : (s.setWarp k w).dram = s.dram := rfl
@[simp] theorem State.setWarp_links (s : State) (k : Nat) (w : Warp) : (s.setWarp k w).links = s.links := rfl
@[simp] theorem State.setWarp_att (s : State) (k : Nat) (w : Warp) : (s.setWarp k w).att = s.att := rfl
@[simp] theorem State.setWarp_faults (s : State) (k : Nat) (w : Warp) : (s.setWarp k w).faults = s.faults := rfl
@[simp] theorem State.setWarp_focus (s : State) (k : Nat) (w : Warp) : (s.setWarp k w).focus = s.focus := rfl
@[simp] theorem State.setWarp_chosen (s : State) (k : Nat) (w : Warp) : (s.setWarp k w).chosen = s.chosen := rfl
@[simp] theorem State.setWarp_fresh (s : State) (k : Nat) (w : Warp) : (s.setWarp k w).fresh = s.fresh := rfl
@[simp] theorem State.setWarp_thr_regs (s : State) (k : Nat) (w : Warp) : (s.setWarp k w).thr.regs = s.thr.regs := rfl
@[simp] theorem State.setWarp_thr_slots (s : State) (k : Nat) (w : Warp) : (s.setWarp k w).thr.slots = s.thr.slots := rfl

/-! `State.onWarp`. -/

@[simp] theorem State.onWarp_clk (s : State) (k : Nat) (f : Warp → Warp) : (s.onWarp k f).clk = s.clk := rfl
@[simp] theorem State.onWarp_work (s : State) (k : Nat) (f : Warp → Warp) : (s.onWarp k f).work = s.work := rfl
@[simp] theorem State.onWarp_mem (s : State) (k : Nat) (f : Warp → Warp) : (s.onWarp k f).mem = s.mem := rfl
@[simp] theorem State.onWarp_cfg (s : State) (k : Nat) (f : Warp → Warp) : (s.onWarp k f).cfg = s.cfg := rfl
@[simp] theorem State.onWarp_agenda (s : State) (k : Nat) (f : Warp → Warp) : (s.onWarp k f).agenda = s.agenda := rfl
@[simp] theorem State.onWarp_counts (s : State) (k : Nat) (f : Warp → Warp) : (s.onWarp k f).counts = s.counts := rfl
@[simp] theorem State.onWarp_eng (s : State) (k : Nat) (f : Warp → Warp) : (s.onWarp k f).eng = s.eng := rfl
@[simp] theorem State.onWarp_host (s : State) (k : Nat) (f : Warp → Warp) : (s.onWarp k f).host = s.host := rfl
@[simp] theorem State.onWarp_fab (s : State) (k : Nat) (f : Warp → Warp) : (s.onWarp k f).fab = s.fab := rfl
@[simp] theorem State.onWarp_dist (s : State) (k : Nat) (f : Warp → Warp) : (s.onWarp k f).dist = s.dist := rfl
@[simp] theorem State.onWarp_ctl (s : State) (k : Nat) (f : Warp → Warp) : (s.onWarp k f).ctl = s.ctl := rfl
@[simp] theorem State.onWarp_dram (s : State) (k : Nat) (f : Warp → Warp) : (s.onWarp k f).dram = s.dram := rfl
@[simp] theorem State.onWarp_links (s : State) (k : Nat) (f : Warp → Warp) : (s.onWarp k f).links = s.links := rfl
@[simp] theorem State.onWarp_att (s : State) (k : Nat) (f : Warp → Warp) : (s.onWarp k f).att = s.att := rfl
@[simp] theorem State.onWarp_faults (s : State) (k : Nat) (f : Warp → Warp) : (s.onWarp k f).faults = s.faults := rfl
@[simp] theorem State.onWarp_focus (s : State) (k : Nat) (f : Warp → Warp) : (s.onWarp k f).focus = s.focus := rfl
@[simp] theorem State.onWarp_chosen (s : State) (k : Nat) (f : Warp → Warp) : (s.onWarp k f).chosen = s.chosen := rfl
@[simp] theorem State.onWarp_fresh (s : State) (k : Nat) (f : Warp → Warp) : (s.onWarp k f).fresh = s.fresh := rfl
@[simp] theorem State.onWarp_thr_regs (s : State) (k : Nat) (f : Warp → Warp) : (s.onWarp k f).thr.regs = s.thr.regs := rfl
@[simp] theorem State.onWarp_thr_slots (s : State) (k : Nat) (f : Warp → Warp) : (s.onWarp k f).thr.slots = s.thr.slots := rfl

/-! `State.onLanes`. -/

@[simp] theorem State.onLanes_clk (s : State) (k : Nat) (ls : List Nat) (f : Lane → Lane) : (s.onLanes k ls f).clk = s.clk := rfl
@[simp] theorem State.onLanes_work (s : State) (k : Nat) (ls : List Nat) (f : Lane → Lane) : (s.onLanes k ls f).work = s.work := rfl
@[simp] theorem State.onLanes_mem (s : State) (k : Nat) (ls : List Nat) (f : Lane → Lane) : (s.onLanes k ls f).mem = s.mem := rfl
@[simp] theorem State.onLanes_cfg (s : State) (k : Nat) (ls : List Nat) (f : Lane → Lane) : (s.onLanes k ls f).cfg = s.cfg := rfl
@[simp] theorem State.onLanes_agenda (s : State) (k : Nat) (ls : List Nat) (f : Lane → Lane) : (s.onLanes k ls f).agenda = s.agenda := rfl
@[simp] theorem State.onLanes_counts (s : State) (k : Nat) (ls : List Nat) (f : Lane → Lane) : (s.onLanes k ls f).counts = s.counts := rfl
@[simp] theorem State.onLanes_eng (s : State) (k : Nat) (ls : List Nat) (f : Lane → Lane) : (s.onLanes k ls f).eng = s.eng := rfl
@[simp] theorem State.onLanes_host (s : State) (k : Nat) (ls : List Nat) (f : Lane → Lane) : (s.onLanes k ls f).host = s.host := rfl
@[simp] theorem State.onLanes_fab (s : State) (k : Nat) (ls : List Nat) (f : Lane → Lane) : (s.onLanes k ls f).fab = s.fab := rfl
@[simp] theorem State.onLanes_dist (s : State) (k : Nat) (ls : List Nat) (f : Lane → Lane) : (s.onLanes k ls f).dist = s.dist := rfl
@[simp] theorem State.onLanes_ctl (s : State) (k : Nat) (ls : List Nat) (f : Lane → Lane) : (s.onLanes k ls f).ctl = s.ctl := rfl
@[simp] theorem State.onLanes_dram (s : State) (k : Nat) (ls : List Nat) (f : Lane → Lane) : (s.onLanes k ls f).dram = s.dram := rfl
@[simp] theorem State.onLanes_links (s : State) (k : Nat) (ls : List Nat) (f : Lane → Lane) : (s.onLanes k ls f).links = s.links := rfl
@[simp] theorem State.onLanes_att (s : State) (k : Nat) (ls : List Nat) (f : Lane → Lane) : (s.onLanes k ls f).att = s.att := rfl
@[simp] theorem State.onLanes_faults (s : State) (k : Nat) (ls : List Nat) (f : Lane → Lane) : (s.onLanes k ls f).faults = s.faults := rfl
@[simp] theorem State.onLanes_focus (s : State) (k : Nat) (ls : List Nat) (f : Lane → Lane) : (s.onLanes k ls f).focus = s.focus := rfl
@[simp] theorem State.onLanes_chosen (s : State) (k : Nat) (ls : List Nat) (f : Lane → Lane) : (s.onLanes k ls f).chosen = s.chosen := rfl
@[simp] theorem State.onLanes_fresh (s : State) (k : Nat) (ls : List Nat) (f : Lane → Lane) : (s.onLanes k ls f).fresh = s.fresh := rfl
@[simp] theorem State.onLanes_thr_regs (s : State) (k : Nat) (ls : List Nat) (f : Lane → Lane) : (s.onLanes k ls f).thr.regs = s.thr.regs := rfl
@[simp] theorem State.onLanes_thr_slots (s : State) (k : Nat) (ls : List Nat) (f : Lane → Lane) : (s.onLanes k ls f).thr.slots = s.thr.slots := rfl

/-! `State.setReg`. -/

@[simp] theorem State.setReg_clk (s : State) (k : Nat) (v : PWord) : (s.setReg k v).clk = s.clk := rfl
@[simp] theorem State.setReg_work (s : State) (k : Nat) (v : PWord) : (s.setReg k v).work = s.work := rfl
@[simp] theorem State.setReg_mem (s : State) (k : Nat) (v : PWord) : (s.setReg k v).mem = s.mem := rfl
@[simp] theorem State.setReg_cfg (s : State) (k : Nat) (v : PWord) : (s.setReg k v).cfg = s.cfg := rfl
@[simp] theorem State.setReg_agenda (s : State) (k : Nat) (v : PWord) : (s.setReg k v).agenda = s.agenda := rfl
@[simp] theorem State.setReg_counts (s : State) (k : Nat) (v : PWord) : (s.setReg k v).counts = s.counts := rfl
@[simp] theorem State.setReg_eng (s : State) (k : Nat) (v : PWord) : (s.setReg k v).eng = s.eng := rfl
@[simp] theorem State.setReg_host (s : State) (k : Nat) (v : PWord) : (s.setReg k v).host = s.host := rfl
@[simp] theorem State.setReg_fab (s : State) (k : Nat) (v : PWord) : (s.setReg k v).fab = s.fab := rfl
@[simp] theorem State.setReg_dist (s : State) (k : Nat) (v : PWord) : (s.setReg k v).dist = s.dist := rfl
@[simp] theorem State.setReg_ctl (s : State) (k : Nat) (v : PWord) : (s.setReg k v).ctl = s.ctl := rfl
@[simp] theorem State.setReg_dram (s : State) (k : Nat) (v : PWord) : (s.setReg k v).dram = s.dram := rfl
@[simp] theorem State.setReg_links (s : State) (k : Nat) (v : PWord) : (s.setReg k v).links = s.links := rfl
@[simp] theorem State.setReg_att (s : State) (k : Nat) (v : PWord) : (s.setReg k v).att = s.att := rfl
@[simp] theorem State.setReg_faults (s : State) (k : Nat) (v : PWord) : (s.setReg k v).faults = s.faults := rfl
@[simp] theorem State.setReg_focus (s : State) (k : Nat) (v : PWord) : (s.setReg k v).focus = s.focus := rfl
@[simp] theorem State.setReg_chosen (s : State) (k : Nat) (v : PWord) : (s.setReg k v).chosen = s.chosen := rfl
@[simp] theorem State.setReg_fresh (s : State) (k : Nat) (v : PWord) : (s.setReg k v).fresh = s.fresh := rfl
@[simp] theorem State.setReg_thr_warps (s : State) (k : Nat) (v : PWord) : (s.setReg k v).thr.warps = s.thr.warps := rfl
@[simp] theorem State.setReg_thr_slots (s : State) (k : Nat) (v : PWord) : (s.setReg k v).thr.slots = s.thr.slots := rfl

/-! `State.onSlot`. -/

@[simp] theorem State.onSlot_clk (s : State) (c n : Nat) (f : Slot → Slot) : (s.onSlot c n f).clk = s.clk := rfl
@[simp] theorem State.onSlot_work (s : State) (c n : Nat) (f : Slot → Slot) : (s.onSlot c n f).work = s.work := rfl
@[simp] theorem State.onSlot_mem (s : State) (c n : Nat) (f : Slot → Slot) : (s.onSlot c n f).mem = s.mem := rfl
@[simp] theorem State.onSlot_cfg (s : State) (c n : Nat) (f : Slot → Slot) : (s.onSlot c n f).cfg = s.cfg := rfl
@[simp] theorem State.onSlot_agenda (s : State) (c n : Nat) (f : Slot → Slot) : (s.onSlot c n f).agenda = s.agenda := rfl
@[simp] theorem State.onSlot_counts (s : State) (c n : Nat) (f : Slot → Slot) : (s.onSlot c n f).counts = s.counts := rfl
@[simp] theorem State.onSlot_eng (s : State) (c n : Nat) (f : Slot → Slot) : (s.onSlot c n f).eng = s.eng := rfl
@[simp] theorem State.onSlot_host (s : State) (c n : Nat) (f : Slot → Slot) : (s.onSlot c n f).host = s.host := rfl
@[simp] theorem State.onSlot_fab (s : State) (c n : Nat) (f : Slot → Slot) : (s.onSlot c n f).fab = s.fab := rfl
@[simp] theorem State.onSlot_dist (s : State) (c n : Nat) (f : Slot → Slot) : (s.onSlot c n f).dist = s.dist := rfl
@[simp] theorem State.onSlot_ctl (s : State) (c n : Nat) (f : Slot → Slot) : (s.onSlot c n f).ctl = s.ctl := rfl
@[simp] theorem State.onSlot_dram (s : State) (c n : Nat) (f : Slot → Slot) : (s.onSlot c n f).dram = s.dram := rfl
@[simp] theorem State.onSlot_links (s : State) (c n : Nat) (f : Slot → Slot) : (s.onSlot c n f).links = s.links := rfl
@[simp] theorem State.onSlot_att (s : State) (c n : Nat) (f : Slot → Slot) : (s.onSlot c n f).att = s.att := rfl
@[simp] theorem State.onSlot_faults (s : State) (c n : Nat) (f : Slot → Slot) : (s.onSlot c n f).faults = s.faults := rfl
@[simp] theorem State.onSlot_focus (s : State) (c n : Nat) (f : Slot → Slot) : (s.onSlot c n f).focus = s.focus := rfl
@[simp] theorem State.onSlot_chosen (s : State) (c n : Nat) (f : Slot → Slot) : (s.onSlot c n f).chosen = s.chosen := rfl
@[simp] theorem State.onSlot_fresh (s : State) (c n : Nat) (f : Slot → Slot) : (s.onSlot c n f).fresh = s.fresh := rfl
@[simp] theorem State.onSlot_thr_regs (s : State) (c n : Nat) (f : Slot → Slot) : (s.onSlot c n f).thr.regs = s.thr.regs := rfl
@[simp] theorem State.onSlot_thr_warps (s : State) (c n : Nat) (f : Slot → Slot) : (s.onSlot c n f).thr.warps = s.thr.warps := rfl

/-! `State.addOp`. -/

@[simp] theorem State.addOp_thr (s : State) (k : Nat) (o : MemOp) : (s.addOp k o).thr = s.thr := rfl
@[simp] theorem State.addOp_clk (s : State) (k : Nat) (o : MemOp) : (s.addOp k o).clk = s.clk := rfl
@[simp] theorem State.addOp_work (s : State) (k : Nat) (o : MemOp) : (s.addOp k o).work = s.work := rfl
@[simp] theorem State.addOp_cfg (s : State) (k : Nat) (o : MemOp) : (s.addOp k o).cfg = s.cfg := rfl
@[simp] theorem State.addOp_agenda (s : State) (k : Nat) (o : MemOp) : (s.addOp k o).agenda = s.agenda := rfl
@[simp] theorem State.addOp_counts (s : State) (k : Nat) (o : MemOp) : (s.addOp k o).counts = s.counts := rfl
@[simp] theorem State.addOp_eng (s : State) (k : Nat) (o : MemOp) : (s.addOp k o).eng = s.eng := rfl
@[simp] theorem State.addOp_host (s : State) (k : Nat) (o : MemOp) : (s.addOp k o).host = s.host := rfl
@[simp] theorem State.addOp_fab (s : State) (k : Nat) (o : MemOp) : (s.addOp k o).fab = s.fab := rfl
@[simp] theorem State.addOp_dist (s : State) (k : Nat) (o : MemOp) : (s.addOp k o).dist = s.dist := rfl
@[simp] theorem State.addOp_ctl (s : State) (k : Nat) (o : MemOp) : (s.addOp k o).ctl = s.ctl := rfl
@[simp] theorem State.addOp_dram (s : State) (k : Nat) (o : MemOp) : (s.addOp k o).dram = s.dram := rfl
@[simp] theorem State.addOp_links (s : State) (k : Nat) (o : MemOp) : (s.addOp k o).links = s.links := rfl
@[simp] theorem State.addOp_att (s : State) (k : Nat) (o : MemOp) : (s.addOp k o).att = s.att := rfl
@[simp] theorem State.addOp_faults (s : State) (k : Nat) (o : MemOp) : (s.addOp k o).faults = s.faults := rfl
@[simp] theorem State.addOp_focus (s : State) (k : Nat) (o : MemOp) : (s.addOp k o).focus = s.focus := rfl
@[simp] theorem State.addOp_chosen (s : State) (k : Nat) (o : MemOp) : (s.addOp k o).chosen = s.chosen := rfl
@[simp] theorem State.addOp_fresh (s : State) (k : Nat) (o : MemOp) : (s.addOp k o).fresh = s.fresh := rfl
@[simp] theorem State.addOp_mem_scratch (s : State) (k : Nat) (o : MemOp) : (s.addOp k o).mem.scratch = s.mem.scratch := rfl
@[simp] theorem State.addOp_mem_exch (s : State) (k : Nat) (o : MemOp) : (s.addOp k o).mem.exch = s.mem.exch := rfl
@[simp] theorem State.addOp_mem_acc (s : State) (k : Nat) (o : MemOp) : (s.addOp k o).mem.acc = s.mem.acc := rfl
@[simp] theorem State.addOp_mem_hbm (s : State) (k : Nat) (o : MemOp) : (s.addOp k o).mem.hbm = s.mem.hbm := rfl
@[simp] theorem State.addOp_mem_polarity (s : State) (k : Nat) (o : MemOp) : (s.addOp k o).mem.polarity = s.mem.polarity := rfl
@[simp] theorem State.addOp_mem_macros (s : State) (k : Nat) (o : MemOp) : (s.addOp k o).mem.macros = s.mem.macros := rfl
@[simp] theorem State.addOp_mem_l1 (s : State) (k : Nat) (o : MemOp) : (s.addOp k o).mem.l1 = s.mem.l1 := rfl
@[simp] theorem State.addOp_mem_icache (s : State) (k : Nat) (o : MemOp) : (s.addOp k o).mem.icache = s.mem.icache := rfl
@[simp] theorem State.addOp_mem_l2 (s : State) (k : Nat) (o : MemOp) : (s.addOp k o).mem.l2 = s.mem.l2 := rfl
@[simp] theorem State.addOp_mem_l1tlb (s : State) (k : Nat) (o : MemOp) : (s.addOp k o).mem.l1tlb = s.mem.l1tlb := rfl
@[simp] theorem State.addOp_mem_dieTlb (s : State) (k : Nat) (o : MemOp) : (s.addOp k o).mem.dieTlb = s.mem.dieTlb := rfl
@[simp] theorem State.addOp_mem_walks (s : State) (k : Nat) (o : MemOp) : (s.addOp k o).mem.walks = s.mem.walks := rfl
@[simp] theorem State.addOp_mem_walkFaults (s : State) (k : Nat) (o : MemOp) : (s.addOp k o).mem.walkFaults = s.mem.walkFaults := rfl
@[simp] theorem State.addOp_mem_fetches (s : State) (k : Nat) (o : MemOp) : (s.addOp k o).mem.fetches = s.mem.fetches := rfl
@[simp] theorem State.addOp_mem_queue (s : State) (k : Nat) (o : MemOp) : (s.addOp k o).mem.queue = s.mem.queue := rfl
@[simp] theorem State.addOp_mem_updates (s : State) (k : Nat) (o : MemOp) : (s.addOp k o).mem.updates = s.mem.updates := rfl
@[simp] theorem State.addOp_mem_notices (s : State) (k : Nat) (o : MemOp) : (s.addOp k o).mem.notices = s.mem.notices := rfl
@[simp] theorem State.addOp_mem_exchStores (s : State) (k : Nat) (o : MemOp) : (s.addOp k o).mem.exchStores = s.mem.exchStores := rfl
@[simp] theorem State.addOp_mem_matrix (s : State) (k : Nat) (o : MemOp) : (s.addOp k o).mem.matrix = s.mem.matrix := rfl
@[simp] theorem State.addOp_mem_atomTags (s : State) (k : Nat) (o : MemOp) : (s.addOp k o).mem.atomTags = s.mem.atomTags := rfl

/-! `State.onOp`. -/

@[simp] theorem State.onOp_thr (s : State) (k : Nat) (f : MemOp → MemOp) : (s.onOp k f).thr = s.thr := rfl
@[simp] theorem State.onOp_clk (s : State) (k : Nat) (f : MemOp → MemOp) : (s.onOp k f).clk = s.clk := rfl
@[simp] theorem State.onOp_work (s : State) (k : Nat) (f : MemOp → MemOp) : (s.onOp k f).work = s.work := rfl
@[simp] theorem State.onOp_cfg (s : State) (k : Nat) (f : MemOp → MemOp) : (s.onOp k f).cfg = s.cfg := rfl
@[simp] theorem State.onOp_agenda (s : State) (k : Nat) (f : MemOp → MemOp) : (s.onOp k f).agenda = s.agenda := rfl
@[simp] theorem State.onOp_counts (s : State) (k : Nat) (f : MemOp → MemOp) : (s.onOp k f).counts = s.counts := rfl
@[simp] theorem State.onOp_eng (s : State) (k : Nat) (f : MemOp → MemOp) : (s.onOp k f).eng = s.eng := rfl
@[simp] theorem State.onOp_host (s : State) (k : Nat) (f : MemOp → MemOp) : (s.onOp k f).host = s.host := rfl
@[simp] theorem State.onOp_fab (s : State) (k : Nat) (f : MemOp → MemOp) : (s.onOp k f).fab = s.fab := rfl
@[simp] theorem State.onOp_dist (s : State) (k : Nat) (f : MemOp → MemOp) : (s.onOp k f).dist = s.dist := rfl
@[simp] theorem State.onOp_ctl (s : State) (k : Nat) (f : MemOp → MemOp) : (s.onOp k f).ctl = s.ctl := rfl
@[simp] theorem State.onOp_dram (s : State) (k : Nat) (f : MemOp → MemOp) : (s.onOp k f).dram = s.dram := rfl
@[simp] theorem State.onOp_links (s : State) (k : Nat) (f : MemOp → MemOp) : (s.onOp k f).links = s.links := rfl
@[simp] theorem State.onOp_att (s : State) (k : Nat) (f : MemOp → MemOp) : (s.onOp k f).att = s.att := rfl
@[simp] theorem State.onOp_faults (s : State) (k : Nat) (f : MemOp → MemOp) : (s.onOp k f).faults = s.faults := rfl
@[simp] theorem State.onOp_focus (s : State) (k : Nat) (f : MemOp → MemOp) : (s.onOp k f).focus = s.focus := rfl
@[simp] theorem State.onOp_chosen (s : State) (k : Nat) (f : MemOp → MemOp) : (s.onOp k f).chosen = s.chosen := rfl
@[simp] theorem State.onOp_fresh (s : State) (k : Nat) (f : MemOp → MemOp) : (s.onOp k f).fresh = s.fresh := rfl
@[simp] theorem State.onOp_mem_scratch (s : State) (k : Nat) (f : MemOp → MemOp) : (s.onOp k f).mem.scratch = s.mem.scratch := rfl
@[simp] theorem State.onOp_mem_exch (s : State) (k : Nat) (f : MemOp → MemOp) : (s.onOp k f).mem.exch = s.mem.exch := rfl
@[simp] theorem State.onOp_mem_acc (s : State) (k : Nat) (f : MemOp → MemOp) : (s.onOp k f).mem.acc = s.mem.acc := rfl
@[simp] theorem State.onOp_mem_hbm (s : State) (k : Nat) (f : MemOp → MemOp) : (s.onOp k f).mem.hbm = s.mem.hbm := rfl
@[simp] theorem State.onOp_mem_polarity (s : State) (k : Nat) (f : MemOp → MemOp) : (s.onOp k f).mem.polarity = s.mem.polarity := rfl
@[simp] theorem State.onOp_mem_macros (s : State) (k : Nat) (f : MemOp → MemOp) : (s.onOp k f).mem.macros = s.mem.macros := rfl
@[simp] theorem State.onOp_mem_l1 (s : State) (k : Nat) (f : MemOp → MemOp) : (s.onOp k f).mem.l1 = s.mem.l1 := rfl
@[simp] theorem State.onOp_mem_icache (s : State) (k : Nat) (f : MemOp → MemOp) : (s.onOp k f).mem.icache = s.mem.icache := rfl
@[simp] theorem State.onOp_mem_l2 (s : State) (k : Nat) (f : MemOp → MemOp) : (s.onOp k f).mem.l2 = s.mem.l2 := rfl
@[simp] theorem State.onOp_mem_l1tlb (s : State) (k : Nat) (f : MemOp → MemOp) : (s.onOp k f).mem.l1tlb = s.mem.l1tlb := rfl
@[simp] theorem State.onOp_mem_dieTlb (s : State) (k : Nat) (f : MemOp → MemOp) : (s.onOp k f).mem.dieTlb = s.mem.dieTlb := rfl
@[simp] theorem State.onOp_mem_walks (s : State) (k : Nat) (f : MemOp → MemOp) : (s.onOp k f).mem.walks = s.mem.walks := rfl
@[simp] theorem State.onOp_mem_walkFaults (s : State) (k : Nat) (f : MemOp → MemOp) : (s.onOp k f).mem.walkFaults = s.mem.walkFaults := rfl
@[simp] theorem State.onOp_mem_fetches (s : State) (k : Nat) (f : MemOp → MemOp) : (s.onOp k f).mem.fetches = s.mem.fetches := rfl
@[simp] theorem State.onOp_mem_queue (s : State) (k : Nat) (f : MemOp → MemOp) : (s.onOp k f).mem.queue = s.mem.queue := rfl
@[simp] theorem State.onOp_mem_updates (s : State) (k : Nat) (f : MemOp → MemOp) : (s.onOp k f).mem.updates = s.mem.updates := rfl
@[simp] theorem State.onOp_mem_notices (s : State) (k : Nat) (f : MemOp → MemOp) : (s.onOp k f).mem.notices = s.mem.notices := rfl
@[simp] theorem State.onOp_mem_exchStores (s : State) (k : Nat) (f : MemOp → MemOp) : (s.onOp k f).mem.exchStores = s.mem.exchStores := rfl
@[simp] theorem State.onOp_mem_matrix (s : State) (k : Nat) (f : MemOp → MemOp) : (s.onOp k f).mem.matrix = s.mem.matrix := rfl
@[simp] theorem State.onOp_mem_atomTags (s : State) (k : Nat) (f : MemOp → MemOp) : (s.onOp k f).mem.atomTags = s.mem.atomTags := rfl

/-! `State.dropOp`. -/

@[simp] theorem State.dropOp_thr (s : State) (k : Nat) : (s.dropOp k).thr = s.thr := rfl
@[simp] theorem State.dropOp_clk (s : State) (k : Nat) : (s.dropOp k).clk = s.clk := rfl
@[simp] theorem State.dropOp_work (s : State) (k : Nat) : (s.dropOp k).work = s.work := rfl
@[simp] theorem State.dropOp_cfg (s : State) (k : Nat) : (s.dropOp k).cfg = s.cfg := rfl
@[simp] theorem State.dropOp_agenda (s : State) (k : Nat) : (s.dropOp k).agenda = s.agenda := rfl
@[simp] theorem State.dropOp_counts (s : State) (k : Nat) : (s.dropOp k).counts = s.counts := rfl
@[simp] theorem State.dropOp_eng (s : State) (k : Nat) : (s.dropOp k).eng = s.eng := rfl
@[simp] theorem State.dropOp_host (s : State) (k : Nat) : (s.dropOp k).host = s.host := rfl
@[simp] theorem State.dropOp_fab (s : State) (k : Nat) : (s.dropOp k).fab = s.fab := rfl
@[simp] theorem State.dropOp_dist (s : State) (k : Nat) : (s.dropOp k).dist = s.dist := rfl
@[simp] theorem State.dropOp_ctl (s : State) (k : Nat) : (s.dropOp k).ctl = s.ctl := rfl
@[simp] theorem State.dropOp_dram (s : State) (k : Nat) : (s.dropOp k).dram = s.dram := rfl
@[simp] theorem State.dropOp_links (s : State) (k : Nat) : (s.dropOp k).links = s.links := rfl
@[simp] theorem State.dropOp_att (s : State) (k : Nat) : (s.dropOp k).att = s.att := rfl
@[simp] theorem State.dropOp_faults (s : State) (k : Nat) : (s.dropOp k).faults = s.faults := rfl
@[simp] theorem State.dropOp_focus (s : State) (k : Nat) : (s.dropOp k).focus = s.focus := rfl
@[simp] theorem State.dropOp_chosen (s : State) (k : Nat) : (s.dropOp k).chosen = s.chosen := rfl
@[simp] theorem State.dropOp_fresh (s : State) (k : Nat) : (s.dropOp k).fresh = s.fresh := rfl
@[simp] theorem State.dropOp_mem_scratch (s : State) (k : Nat) : (s.dropOp k).mem.scratch = s.mem.scratch := rfl
@[simp] theorem State.dropOp_mem_exch (s : State) (k : Nat) : (s.dropOp k).mem.exch = s.mem.exch := rfl
@[simp] theorem State.dropOp_mem_acc (s : State) (k : Nat) : (s.dropOp k).mem.acc = s.mem.acc := rfl
@[simp] theorem State.dropOp_mem_hbm (s : State) (k : Nat) : (s.dropOp k).mem.hbm = s.mem.hbm := rfl
@[simp] theorem State.dropOp_mem_polarity (s : State) (k : Nat) : (s.dropOp k).mem.polarity = s.mem.polarity := rfl
@[simp] theorem State.dropOp_mem_macros (s : State) (k : Nat) : (s.dropOp k).mem.macros = s.mem.macros := rfl
@[simp] theorem State.dropOp_mem_l1 (s : State) (k : Nat) : (s.dropOp k).mem.l1 = s.mem.l1 := rfl
@[simp] theorem State.dropOp_mem_icache (s : State) (k : Nat) : (s.dropOp k).mem.icache = s.mem.icache := rfl
@[simp] theorem State.dropOp_mem_l2 (s : State) (k : Nat) : (s.dropOp k).mem.l2 = s.mem.l2 := rfl
@[simp] theorem State.dropOp_mem_l1tlb (s : State) (k : Nat) : (s.dropOp k).mem.l1tlb = s.mem.l1tlb := rfl
@[simp] theorem State.dropOp_mem_dieTlb (s : State) (k : Nat) : (s.dropOp k).mem.dieTlb = s.mem.dieTlb := rfl
@[simp] theorem State.dropOp_mem_walks (s : State) (k : Nat) : (s.dropOp k).mem.walks = s.mem.walks := rfl
@[simp] theorem State.dropOp_mem_walkFaults (s : State) (k : Nat) : (s.dropOp k).mem.walkFaults = s.mem.walkFaults := rfl
@[simp] theorem State.dropOp_mem_fetches (s : State) (k : Nat) : (s.dropOp k).mem.fetches = s.mem.fetches := rfl
@[simp] theorem State.dropOp_mem_queue (s : State) (k : Nat) : (s.dropOp k).mem.queue = s.mem.queue := rfl
@[simp] theorem State.dropOp_mem_updates (s : State) (k : Nat) : (s.dropOp k).mem.updates = s.mem.updates := rfl
@[simp] theorem State.dropOp_mem_notices (s : State) (k : Nat) : (s.dropOp k).mem.notices = s.mem.notices := rfl
@[simp] theorem State.dropOp_mem_exchStores (s : State) (k : Nat) : (s.dropOp k).mem.exchStores = s.mem.exchStores := rfl
@[simp] theorem State.dropOp_mem_matrix (s : State) (k : Nat) : (s.dropOp k).mem.matrix = s.mem.matrix := rfl
@[simp] theorem State.dropOp_mem_atomTags (s : State) (k : Nat) : (s.dropOp k).mem.atomTags = s.mem.atomTags := rfl

/-! `State.onScratch`. -/

@[simp] theorem State.onScratch_thr (s : State) (f : Mem → Mem) : (s.onScratch f).thr = s.thr := rfl
@[simp] theorem State.onScratch_clk (s : State) (f : Mem → Mem) : (s.onScratch f).clk = s.clk := rfl
@[simp] theorem State.onScratch_work (s : State) (f : Mem → Mem) : (s.onScratch f).work = s.work := rfl
@[simp] theorem State.onScratch_cfg (s : State) (f : Mem → Mem) : (s.onScratch f).cfg = s.cfg := rfl
@[simp] theorem State.onScratch_agenda (s : State) (f : Mem → Mem) : (s.onScratch f).agenda = s.agenda := rfl
@[simp] theorem State.onScratch_counts (s : State) (f : Mem → Mem) : (s.onScratch f).counts = s.counts := rfl
@[simp] theorem State.onScratch_eng (s : State) (f : Mem → Mem) : (s.onScratch f).eng = s.eng := rfl
@[simp] theorem State.onScratch_host (s : State) (f : Mem → Mem) : (s.onScratch f).host = s.host := rfl
@[simp] theorem State.onScratch_fab (s : State) (f : Mem → Mem) : (s.onScratch f).fab = s.fab := rfl
@[simp] theorem State.onScratch_dist (s : State) (f : Mem → Mem) : (s.onScratch f).dist = s.dist := rfl
@[simp] theorem State.onScratch_ctl (s : State) (f : Mem → Mem) : (s.onScratch f).ctl = s.ctl := rfl
@[simp] theorem State.onScratch_dram (s : State) (f : Mem → Mem) : (s.onScratch f).dram = s.dram := rfl
@[simp] theorem State.onScratch_links (s : State) (f : Mem → Mem) : (s.onScratch f).links = s.links := rfl
@[simp] theorem State.onScratch_att (s : State) (f : Mem → Mem) : (s.onScratch f).att = s.att := rfl
@[simp] theorem State.onScratch_faults (s : State) (f : Mem → Mem) : (s.onScratch f).faults = s.faults := rfl
@[simp] theorem State.onScratch_focus (s : State) (f : Mem → Mem) : (s.onScratch f).focus = s.focus := rfl
@[simp] theorem State.onScratch_chosen (s : State) (f : Mem → Mem) : (s.onScratch f).chosen = s.chosen := rfl
@[simp] theorem State.onScratch_fresh (s : State) (f : Mem → Mem) : (s.onScratch f).fresh = s.fresh := rfl
@[simp] theorem State.onScratch_mem_exch (s : State) (f : Mem → Mem) : (s.onScratch f).mem.exch = s.mem.exch := rfl
@[simp] theorem State.onScratch_mem_acc (s : State) (f : Mem → Mem) : (s.onScratch f).mem.acc = s.mem.acc := rfl
@[simp] theorem State.onScratch_mem_hbm (s : State) (f : Mem → Mem) : (s.onScratch f).mem.hbm = s.mem.hbm := rfl
@[simp] theorem State.onScratch_mem_polarity (s : State) (f : Mem → Mem) : (s.onScratch f).mem.polarity = s.mem.polarity := rfl
@[simp] theorem State.onScratch_mem_macros (s : State) (f : Mem → Mem) : (s.onScratch f).mem.macros = s.mem.macros := rfl
@[simp] theorem State.onScratch_mem_l1 (s : State) (f : Mem → Mem) : (s.onScratch f).mem.l1 = s.mem.l1 := rfl
@[simp] theorem State.onScratch_mem_icache (s : State) (f : Mem → Mem) : (s.onScratch f).mem.icache = s.mem.icache := rfl
@[simp] theorem State.onScratch_mem_l2 (s : State) (f : Mem → Mem) : (s.onScratch f).mem.l2 = s.mem.l2 := rfl
@[simp] theorem State.onScratch_mem_l1tlb (s : State) (f : Mem → Mem) : (s.onScratch f).mem.l1tlb = s.mem.l1tlb := rfl
@[simp] theorem State.onScratch_mem_dieTlb (s : State) (f : Mem → Mem) : (s.onScratch f).mem.dieTlb = s.mem.dieTlb := rfl
@[simp] theorem State.onScratch_mem_walks (s : State) (f : Mem → Mem) : (s.onScratch f).mem.walks = s.mem.walks := rfl
@[simp] theorem State.onScratch_mem_walkFaults (s : State) (f : Mem → Mem) : (s.onScratch f).mem.walkFaults = s.mem.walkFaults := rfl
@[simp] theorem State.onScratch_mem_fetches (s : State) (f : Mem → Mem) : (s.onScratch f).mem.fetches = s.mem.fetches := rfl
@[simp] theorem State.onScratch_mem_ops (s : State) (f : Mem → Mem) : (s.onScratch f).mem.ops = s.mem.ops := rfl
@[simp] theorem State.onScratch_mem_queue (s : State) (f : Mem → Mem) : (s.onScratch f).mem.queue = s.mem.queue := rfl
@[simp] theorem State.onScratch_mem_updates (s : State) (f : Mem → Mem) : (s.onScratch f).mem.updates = s.mem.updates := rfl
@[simp] theorem State.onScratch_mem_notices (s : State) (f : Mem → Mem) : (s.onScratch f).mem.notices = s.mem.notices := rfl
@[simp] theorem State.onScratch_mem_exchStores (s : State) (f : Mem → Mem) : (s.onScratch f).mem.exchStores = s.mem.exchStores := rfl
@[simp] theorem State.onScratch_mem_matrix (s : State) (f : Mem → Mem) : (s.onScratch f).mem.matrix = s.mem.matrix := rfl
@[simp] theorem State.onScratch_mem_atomTags (s : State) (f : Mem → Mem) : (s.onScratch f).mem.atomTags = s.mem.atomTags := rfl

/-! `State.onExch`. -/

@[simp] theorem State.onExch_thr (s : State) (f : Mem → Mem) : (s.onExch f).thr = s.thr := rfl
@[simp] theorem State.onExch_clk (s : State) (f : Mem → Mem) : (s.onExch f).clk = s.clk := rfl
@[simp] theorem State.onExch_work (s : State) (f : Mem → Mem) : (s.onExch f).work = s.work := rfl
@[simp] theorem State.onExch_cfg (s : State) (f : Mem → Mem) : (s.onExch f).cfg = s.cfg := rfl
@[simp] theorem State.onExch_agenda (s : State) (f : Mem → Mem) : (s.onExch f).agenda = s.agenda := rfl
@[simp] theorem State.onExch_counts (s : State) (f : Mem → Mem) : (s.onExch f).counts = s.counts := rfl
@[simp] theorem State.onExch_eng (s : State) (f : Mem → Mem) : (s.onExch f).eng = s.eng := rfl
@[simp] theorem State.onExch_host (s : State) (f : Mem → Mem) : (s.onExch f).host = s.host := rfl
@[simp] theorem State.onExch_fab (s : State) (f : Mem → Mem) : (s.onExch f).fab = s.fab := rfl
@[simp] theorem State.onExch_dist (s : State) (f : Mem → Mem) : (s.onExch f).dist = s.dist := rfl
@[simp] theorem State.onExch_ctl (s : State) (f : Mem → Mem) : (s.onExch f).ctl = s.ctl := rfl
@[simp] theorem State.onExch_dram (s : State) (f : Mem → Mem) : (s.onExch f).dram = s.dram := rfl
@[simp] theorem State.onExch_links (s : State) (f : Mem → Mem) : (s.onExch f).links = s.links := rfl
@[simp] theorem State.onExch_att (s : State) (f : Mem → Mem) : (s.onExch f).att = s.att := rfl
@[simp] theorem State.onExch_faults (s : State) (f : Mem → Mem) : (s.onExch f).faults = s.faults := rfl
@[simp] theorem State.onExch_focus (s : State) (f : Mem → Mem) : (s.onExch f).focus = s.focus := rfl
@[simp] theorem State.onExch_chosen (s : State) (f : Mem → Mem) : (s.onExch f).chosen = s.chosen := rfl
@[simp] theorem State.onExch_fresh (s : State) (f : Mem → Mem) : (s.onExch f).fresh = s.fresh := rfl
@[simp] theorem State.onExch_mem_scratch (s : State) (f : Mem → Mem) : (s.onExch f).mem.scratch = s.mem.scratch := rfl
@[simp] theorem State.onExch_mem_acc (s : State) (f : Mem → Mem) : (s.onExch f).mem.acc = s.mem.acc := rfl
@[simp] theorem State.onExch_mem_hbm (s : State) (f : Mem → Mem) : (s.onExch f).mem.hbm = s.mem.hbm := rfl
@[simp] theorem State.onExch_mem_polarity (s : State) (f : Mem → Mem) : (s.onExch f).mem.polarity = s.mem.polarity := rfl
@[simp] theorem State.onExch_mem_macros (s : State) (f : Mem → Mem) : (s.onExch f).mem.macros = s.mem.macros := rfl
@[simp] theorem State.onExch_mem_l1 (s : State) (f : Mem → Mem) : (s.onExch f).mem.l1 = s.mem.l1 := rfl
@[simp] theorem State.onExch_mem_icache (s : State) (f : Mem → Mem) : (s.onExch f).mem.icache = s.mem.icache := rfl
@[simp] theorem State.onExch_mem_l2 (s : State) (f : Mem → Mem) : (s.onExch f).mem.l2 = s.mem.l2 := rfl
@[simp] theorem State.onExch_mem_l1tlb (s : State) (f : Mem → Mem) : (s.onExch f).mem.l1tlb = s.mem.l1tlb := rfl
@[simp] theorem State.onExch_mem_dieTlb (s : State) (f : Mem → Mem) : (s.onExch f).mem.dieTlb = s.mem.dieTlb := rfl
@[simp] theorem State.onExch_mem_walks (s : State) (f : Mem → Mem) : (s.onExch f).mem.walks = s.mem.walks := rfl
@[simp] theorem State.onExch_mem_walkFaults (s : State) (f : Mem → Mem) : (s.onExch f).mem.walkFaults = s.mem.walkFaults := rfl
@[simp] theorem State.onExch_mem_fetches (s : State) (f : Mem → Mem) : (s.onExch f).mem.fetches = s.mem.fetches := rfl
@[simp] theorem State.onExch_mem_ops (s : State) (f : Mem → Mem) : (s.onExch f).mem.ops = s.mem.ops := rfl
@[simp] theorem State.onExch_mem_queue (s : State) (f : Mem → Mem) : (s.onExch f).mem.queue = s.mem.queue := rfl
@[simp] theorem State.onExch_mem_updates (s : State) (f : Mem → Mem) : (s.onExch f).mem.updates = s.mem.updates := rfl
@[simp] theorem State.onExch_mem_notices (s : State) (f : Mem → Mem) : (s.onExch f).mem.notices = s.mem.notices := rfl
@[simp] theorem State.onExch_mem_exchStores (s : State) (f : Mem → Mem) : (s.onExch f).mem.exchStores = s.mem.exchStores := rfl
@[simp] theorem State.onExch_mem_matrix (s : State) (f : Mem → Mem) : (s.onExch f).mem.matrix = s.mem.matrix := rfl
@[simp] theorem State.onExch_mem_atomTags (s : State) (f : Mem → Mem) : (s.onExch f).mem.atomTags = s.mem.atomTags := rfl

/-! `State.onAcc`. -/

@[simp] theorem State.onAcc_thr (s : State) (f : Mem → Mem) : (s.onAcc f).thr = s.thr := rfl
@[simp] theorem State.onAcc_clk (s : State) (f : Mem → Mem) : (s.onAcc f).clk = s.clk := rfl
@[simp] theorem State.onAcc_work (s : State) (f : Mem → Mem) : (s.onAcc f).work = s.work := rfl
@[simp] theorem State.onAcc_cfg (s : State) (f : Mem → Mem) : (s.onAcc f).cfg = s.cfg := rfl
@[simp] theorem State.onAcc_agenda (s : State) (f : Mem → Mem) : (s.onAcc f).agenda = s.agenda := rfl
@[simp] theorem State.onAcc_counts (s : State) (f : Mem → Mem) : (s.onAcc f).counts = s.counts := rfl
@[simp] theorem State.onAcc_eng (s : State) (f : Mem → Mem) : (s.onAcc f).eng = s.eng := rfl
@[simp] theorem State.onAcc_host (s : State) (f : Mem → Mem) : (s.onAcc f).host = s.host := rfl
@[simp] theorem State.onAcc_fab (s : State) (f : Mem → Mem) : (s.onAcc f).fab = s.fab := rfl
@[simp] theorem State.onAcc_dist (s : State) (f : Mem → Mem) : (s.onAcc f).dist = s.dist := rfl
@[simp] theorem State.onAcc_ctl (s : State) (f : Mem → Mem) : (s.onAcc f).ctl = s.ctl := rfl
@[simp] theorem State.onAcc_dram (s : State) (f : Mem → Mem) : (s.onAcc f).dram = s.dram := rfl
@[simp] theorem State.onAcc_links (s : State) (f : Mem → Mem) : (s.onAcc f).links = s.links := rfl
@[simp] theorem State.onAcc_att (s : State) (f : Mem → Mem) : (s.onAcc f).att = s.att := rfl
@[simp] theorem State.onAcc_faults (s : State) (f : Mem → Mem) : (s.onAcc f).faults = s.faults := rfl
@[simp] theorem State.onAcc_focus (s : State) (f : Mem → Mem) : (s.onAcc f).focus = s.focus := rfl
@[simp] theorem State.onAcc_chosen (s : State) (f : Mem → Mem) : (s.onAcc f).chosen = s.chosen := rfl
@[simp] theorem State.onAcc_fresh (s : State) (f : Mem → Mem) : (s.onAcc f).fresh = s.fresh := rfl
@[simp] theorem State.onAcc_mem_scratch (s : State) (f : Mem → Mem) : (s.onAcc f).mem.scratch = s.mem.scratch := rfl
@[simp] theorem State.onAcc_mem_exch (s : State) (f : Mem → Mem) : (s.onAcc f).mem.exch = s.mem.exch := rfl
@[simp] theorem State.onAcc_mem_hbm (s : State) (f : Mem → Mem) : (s.onAcc f).mem.hbm = s.mem.hbm := rfl
@[simp] theorem State.onAcc_mem_polarity (s : State) (f : Mem → Mem) : (s.onAcc f).mem.polarity = s.mem.polarity := rfl
@[simp] theorem State.onAcc_mem_macros (s : State) (f : Mem → Mem) : (s.onAcc f).mem.macros = s.mem.macros := rfl
@[simp] theorem State.onAcc_mem_l1 (s : State) (f : Mem → Mem) : (s.onAcc f).mem.l1 = s.mem.l1 := rfl
@[simp] theorem State.onAcc_mem_icache (s : State) (f : Mem → Mem) : (s.onAcc f).mem.icache = s.mem.icache := rfl
@[simp] theorem State.onAcc_mem_l2 (s : State) (f : Mem → Mem) : (s.onAcc f).mem.l2 = s.mem.l2 := rfl
@[simp] theorem State.onAcc_mem_l1tlb (s : State) (f : Mem → Mem) : (s.onAcc f).mem.l1tlb = s.mem.l1tlb := rfl
@[simp] theorem State.onAcc_mem_dieTlb (s : State) (f : Mem → Mem) : (s.onAcc f).mem.dieTlb = s.mem.dieTlb := rfl
@[simp] theorem State.onAcc_mem_walks (s : State) (f : Mem → Mem) : (s.onAcc f).mem.walks = s.mem.walks := rfl
@[simp] theorem State.onAcc_mem_walkFaults (s : State) (f : Mem → Mem) : (s.onAcc f).mem.walkFaults = s.mem.walkFaults := rfl
@[simp] theorem State.onAcc_mem_fetches (s : State) (f : Mem → Mem) : (s.onAcc f).mem.fetches = s.mem.fetches := rfl
@[simp] theorem State.onAcc_mem_ops (s : State) (f : Mem → Mem) : (s.onAcc f).mem.ops = s.mem.ops := rfl
@[simp] theorem State.onAcc_mem_queue (s : State) (f : Mem → Mem) : (s.onAcc f).mem.queue = s.mem.queue := rfl
@[simp] theorem State.onAcc_mem_updates (s : State) (f : Mem → Mem) : (s.onAcc f).mem.updates = s.mem.updates := rfl
@[simp] theorem State.onAcc_mem_notices (s : State) (f : Mem → Mem) : (s.onAcc f).mem.notices = s.mem.notices := rfl
@[simp] theorem State.onAcc_mem_exchStores (s : State) (f : Mem → Mem) : (s.onAcc f).mem.exchStores = s.mem.exchStores := rfl
@[simp] theorem State.onAcc_mem_matrix (s : State) (f : Mem → Mem) : (s.onAcc f).mem.matrix = s.mem.matrix := rfl
@[simp] theorem State.onAcc_mem_atomTags (s : State) (f : Mem → Mem) : (s.onAcc f).mem.atomTags = s.mem.atomTags := rfl

/-! `State.onHbm`. -/

@[simp] theorem State.onHbm_thr (s : State) (f : Mem → Mem) : (s.onHbm f).thr = s.thr := rfl
@[simp] theorem State.onHbm_clk (s : State) (f : Mem → Mem) : (s.onHbm f).clk = s.clk := rfl
@[simp] theorem State.onHbm_work (s : State) (f : Mem → Mem) : (s.onHbm f).work = s.work := rfl
@[simp] theorem State.onHbm_cfg (s : State) (f : Mem → Mem) : (s.onHbm f).cfg = s.cfg := rfl
@[simp] theorem State.onHbm_agenda (s : State) (f : Mem → Mem) : (s.onHbm f).agenda = s.agenda := rfl
@[simp] theorem State.onHbm_counts (s : State) (f : Mem → Mem) : (s.onHbm f).counts = s.counts := rfl
@[simp] theorem State.onHbm_eng (s : State) (f : Mem → Mem) : (s.onHbm f).eng = s.eng := rfl
@[simp] theorem State.onHbm_host (s : State) (f : Mem → Mem) : (s.onHbm f).host = s.host := rfl
@[simp] theorem State.onHbm_fab (s : State) (f : Mem → Mem) : (s.onHbm f).fab = s.fab := rfl
@[simp] theorem State.onHbm_dist (s : State) (f : Mem → Mem) : (s.onHbm f).dist = s.dist := rfl
@[simp] theorem State.onHbm_ctl (s : State) (f : Mem → Mem) : (s.onHbm f).ctl = s.ctl := rfl
@[simp] theorem State.onHbm_dram (s : State) (f : Mem → Mem) : (s.onHbm f).dram = s.dram := rfl
@[simp] theorem State.onHbm_links (s : State) (f : Mem → Mem) : (s.onHbm f).links = s.links := rfl
@[simp] theorem State.onHbm_att (s : State) (f : Mem → Mem) : (s.onHbm f).att = s.att := rfl
@[simp] theorem State.onHbm_faults (s : State) (f : Mem → Mem) : (s.onHbm f).faults = s.faults := rfl
@[simp] theorem State.onHbm_focus (s : State) (f : Mem → Mem) : (s.onHbm f).focus = s.focus := rfl
@[simp] theorem State.onHbm_chosen (s : State) (f : Mem → Mem) : (s.onHbm f).chosen = s.chosen := rfl
@[simp] theorem State.onHbm_fresh (s : State) (f : Mem → Mem) : (s.onHbm f).fresh = s.fresh := rfl
@[simp] theorem State.onHbm_mem_scratch (s : State) (f : Mem → Mem) : (s.onHbm f).mem.scratch = s.mem.scratch := rfl
@[simp] theorem State.onHbm_mem_exch (s : State) (f : Mem → Mem) : (s.onHbm f).mem.exch = s.mem.exch := rfl
@[simp] theorem State.onHbm_mem_acc (s : State) (f : Mem → Mem) : (s.onHbm f).mem.acc = s.mem.acc := rfl
@[simp] theorem State.onHbm_mem_polarity (s : State) (f : Mem → Mem) : (s.onHbm f).mem.polarity = s.mem.polarity := rfl
@[simp] theorem State.onHbm_mem_macros (s : State) (f : Mem → Mem) : (s.onHbm f).mem.macros = s.mem.macros := rfl
@[simp] theorem State.onHbm_mem_l1 (s : State) (f : Mem → Mem) : (s.onHbm f).mem.l1 = s.mem.l1 := rfl
@[simp] theorem State.onHbm_mem_icache (s : State) (f : Mem → Mem) : (s.onHbm f).mem.icache = s.mem.icache := rfl
@[simp] theorem State.onHbm_mem_l2 (s : State) (f : Mem → Mem) : (s.onHbm f).mem.l2 = s.mem.l2 := rfl
@[simp] theorem State.onHbm_mem_l1tlb (s : State) (f : Mem → Mem) : (s.onHbm f).mem.l1tlb = s.mem.l1tlb := rfl
@[simp] theorem State.onHbm_mem_dieTlb (s : State) (f : Mem → Mem) : (s.onHbm f).mem.dieTlb = s.mem.dieTlb := rfl
@[simp] theorem State.onHbm_mem_walks (s : State) (f : Mem → Mem) : (s.onHbm f).mem.walks = s.mem.walks := rfl
@[simp] theorem State.onHbm_mem_walkFaults (s : State) (f : Mem → Mem) : (s.onHbm f).mem.walkFaults = s.mem.walkFaults := rfl
@[simp] theorem State.onHbm_mem_fetches (s : State) (f : Mem → Mem) : (s.onHbm f).mem.fetches = s.mem.fetches := rfl
@[simp] theorem State.onHbm_mem_ops (s : State) (f : Mem → Mem) : (s.onHbm f).mem.ops = s.mem.ops := rfl
@[simp] theorem State.onHbm_mem_queue (s : State) (f : Mem → Mem) : (s.onHbm f).mem.queue = s.mem.queue := rfl
@[simp] theorem State.onHbm_mem_updates (s : State) (f : Mem → Mem) : (s.onHbm f).mem.updates = s.mem.updates := rfl
@[simp] theorem State.onHbm_mem_notices (s : State) (f : Mem → Mem) : (s.onHbm f).mem.notices = s.mem.notices := rfl
@[simp] theorem State.onHbm_mem_exchStores (s : State) (f : Mem → Mem) : (s.onHbm f).mem.exchStores = s.mem.exchStores := rfl
@[simp] theorem State.onHbm_mem_matrix (s : State) (f : Mem → Mem) : (s.onHbm f).mem.matrix = s.mem.matrix := rfl
@[simp] theorem State.onHbm_mem_atomTags (s : State) (f : Mem → Mem) : (s.onHbm f).mem.atomTags = s.mem.atomTags := rfl

/-! `State.onGroup`. -/

@[simp] theorem State.onGroup_thr (s : State) (k : Nat) (f : WorkGroup → WorkGroup) : (s.onGroup k f).thr = s.thr := rfl
@[simp] theorem State.onGroup_clk (s : State) (k : Nat) (f : WorkGroup → WorkGroup) : (s.onGroup k f).clk = s.clk := rfl
@[simp] theorem State.onGroup_mem (s : State) (k : Nat) (f : WorkGroup → WorkGroup) : (s.onGroup k f).mem = s.mem := rfl
@[simp] theorem State.onGroup_cfg (s : State) (k : Nat) (f : WorkGroup → WorkGroup) : (s.onGroup k f).cfg = s.cfg := rfl
@[simp] theorem State.onGroup_agenda (s : State) (k : Nat) (f : WorkGroup → WorkGroup) : (s.onGroup k f).agenda = s.agenda := rfl
@[simp] theorem State.onGroup_counts (s : State) (k : Nat) (f : WorkGroup → WorkGroup) : (s.onGroup k f).counts = s.counts := rfl
@[simp] theorem State.onGroup_eng (s : State) (k : Nat) (f : WorkGroup → WorkGroup) : (s.onGroup k f).eng = s.eng := rfl
@[simp] theorem State.onGroup_host (s : State) (k : Nat) (f : WorkGroup → WorkGroup) : (s.onGroup k f).host = s.host := rfl
@[simp] theorem State.onGroup_fab (s : State) (k : Nat) (f : WorkGroup → WorkGroup) : (s.onGroup k f).fab = s.fab := rfl
@[simp] theorem State.onGroup_dist (s : State) (k : Nat) (f : WorkGroup → WorkGroup) : (s.onGroup k f).dist = s.dist := rfl
@[simp] theorem State.onGroup_ctl (s : State) (k : Nat) (f : WorkGroup → WorkGroup) : (s.onGroup k f).ctl = s.ctl := rfl
@[simp] theorem State.onGroup_dram (s : State) (k : Nat) (f : WorkGroup → WorkGroup) : (s.onGroup k f).dram = s.dram := rfl
@[simp] theorem State.onGroup_links (s : State) (k : Nat) (f : WorkGroup → WorkGroup) : (s.onGroup k f).links = s.links := rfl
@[simp] theorem State.onGroup_att (s : State) (k : Nat) (f : WorkGroup → WorkGroup) : (s.onGroup k f).att = s.att := rfl
@[simp] theorem State.onGroup_faults (s : State) (k : Nat) (f : WorkGroup → WorkGroup) : (s.onGroup k f).faults = s.faults := rfl
@[simp] theorem State.onGroup_focus (s : State) (k : Nat) (f : WorkGroup → WorkGroup) : (s.onGroup k f).focus = s.focus := rfl
@[simp] theorem State.onGroup_chosen (s : State) (k : Nat) (f : WorkGroup → WorkGroup) : (s.onGroup k f).chosen = s.chosen := rfl
@[simp] theorem State.onGroup_fresh (s : State) (k : Nat) (f : WorkGroup → WorkGroup) : (s.onGroup k f).fresh = s.fresh := rfl
@[simp] theorem State.onGroup_work_grids (s : State) (k : Nat) (f : WorkGroup → WorkGroup) : (s.onGroup k f).work.grids = s.work.grids := rfl
@[simp] theorem State.onGroup_work_contracts (s : State) (k : Nat) (f : WorkGroup → WorkGroup) : (s.onGroup k f).work.contracts = s.work.contracts := rfl
@[simp] theorem State.onGroup_work_gangs (s : State) (k : Nat) (f : WorkGroup → WorkGroup) : (s.onGroup k f).work.gangs = s.work.gangs := rfl

/-! `State.onGang`. -/

@[simp] theorem State.onGang_thr (s : State) (k : Nat) (f : Gang → Gang) : (s.onGang k f).thr = s.thr := rfl
@[simp] theorem State.onGang_clk (s : State) (k : Nat) (f : Gang → Gang) : (s.onGang k f).clk = s.clk := rfl
@[simp] theorem State.onGang_mem (s : State) (k : Nat) (f : Gang → Gang) : (s.onGang k f).mem = s.mem := rfl
@[simp] theorem State.onGang_cfg (s : State) (k : Nat) (f : Gang → Gang) : (s.onGang k f).cfg = s.cfg := rfl
@[simp] theorem State.onGang_agenda (s : State) (k : Nat) (f : Gang → Gang) : (s.onGang k f).agenda = s.agenda := rfl
@[simp] theorem State.onGang_counts (s : State) (k : Nat) (f : Gang → Gang) : (s.onGang k f).counts = s.counts := rfl
@[simp] theorem State.onGang_eng (s : State) (k : Nat) (f : Gang → Gang) : (s.onGang k f).eng = s.eng := rfl
@[simp] theorem State.onGang_host (s : State) (k : Nat) (f : Gang → Gang) : (s.onGang k f).host = s.host := rfl
@[simp] theorem State.onGang_fab (s : State) (k : Nat) (f : Gang → Gang) : (s.onGang k f).fab = s.fab := rfl
@[simp] theorem State.onGang_dist (s : State) (k : Nat) (f : Gang → Gang) : (s.onGang k f).dist = s.dist := rfl
@[simp] theorem State.onGang_ctl (s : State) (k : Nat) (f : Gang → Gang) : (s.onGang k f).ctl = s.ctl := rfl
@[simp] theorem State.onGang_dram (s : State) (k : Nat) (f : Gang → Gang) : (s.onGang k f).dram = s.dram := rfl
@[simp] theorem State.onGang_links (s : State) (k : Nat) (f : Gang → Gang) : (s.onGang k f).links = s.links := rfl
@[simp] theorem State.onGang_att (s : State) (k : Nat) (f : Gang → Gang) : (s.onGang k f).att = s.att := rfl
@[simp] theorem State.onGang_faults (s : State) (k : Nat) (f : Gang → Gang) : (s.onGang k f).faults = s.faults := rfl
@[simp] theorem State.onGang_focus (s : State) (k : Nat) (f : Gang → Gang) : (s.onGang k f).focus = s.focus := rfl
@[simp] theorem State.onGang_chosen (s : State) (k : Nat) (f : Gang → Gang) : (s.onGang k f).chosen = s.chosen := rfl
@[simp] theorem State.onGang_fresh (s : State) (k : Nat) (f : Gang → Gang) : (s.onGang k f).fresh = s.fresh := rfl
@[simp] theorem State.onGang_work_groups (s : State) (k : Nat) (f : Gang → Gang) : (s.onGang k f).work.groups = s.work.groups := rfl
@[simp] theorem State.onGang_work_grids (s : State) (k : Nat) (f : Gang → Gang) : (s.onGang k f).work.grids = s.work.grids := rfl
@[simp] theorem State.onGang_work_contracts (s : State) (k : Nat) (f : Gang → Gang) : (s.onGang k f).work.contracts = s.work.contracts := rfl

/-! `State.onCmd`. -/

@[simp] theorem State.onCmd_thr (s : State) (k : Nat) (f : CopyCmd → CopyCmd) : (s.onCmd k f).thr = s.thr := rfl
@[simp] theorem State.onCmd_clk (s : State) (k : Nat) (f : CopyCmd → CopyCmd) : (s.onCmd k f).clk = s.clk := rfl
@[simp] theorem State.onCmd_work (s : State) (k : Nat) (f : CopyCmd → CopyCmd) : (s.onCmd k f).work = s.work := rfl
@[simp] theorem State.onCmd_mem (s : State) (k : Nat) (f : CopyCmd → CopyCmd) : (s.onCmd k f).mem = s.mem := rfl
@[simp] theorem State.onCmd_cfg (s : State) (k : Nat) (f : CopyCmd → CopyCmd) : (s.onCmd k f).cfg = s.cfg := rfl
@[simp] theorem State.onCmd_agenda (s : State) (k : Nat) (f : CopyCmd → CopyCmd) : (s.onCmd k f).agenda = s.agenda := rfl
@[simp] theorem State.onCmd_counts (s : State) (k : Nat) (f : CopyCmd → CopyCmd) : (s.onCmd k f).counts = s.counts := rfl
@[simp] theorem State.onCmd_host (s : State) (k : Nat) (f : CopyCmd → CopyCmd) : (s.onCmd k f).host = s.host := rfl
@[simp] theorem State.onCmd_fab (s : State) (k : Nat) (f : CopyCmd → CopyCmd) : (s.onCmd k f).fab = s.fab := rfl
@[simp] theorem State.onCmd_dist (s : State) (k : Nat) (f : CopyCmd → CopyCmd) : (s.onCmd k f).dist = s.dist := rfl
@[simp] theorem State.onCmd_ctl (s : State) (k : Nat) (f : CopyCmd → CopyCmd) : (s.onCmd k f).ctl = s.ctl := rfl
@[simp] theorem State.onCmd_dram (s : State) (k : Nat) (f : CopyCmd → CopyCmd) : (s.onCmd k f).dram = s.dram := rfl
@[simp] theorem State.onCmd_links (s : State) (k : Nat) (f : CopyCmd → CopyCmd) : (s.onCmd k f).links = s.links := rfl
@[simp] theorem State.onCmd_att (s : State) (k : Nat) (f : CopyCmd → CopyCmd) : (s.onCmd k f).att = s.att := rfl
@[simp] theorem State.onCmd_faults (s : State) (k : Nat) (f : CopyCmd → CopyCmd) : (s.onCmd k f).faults = s.faults := rfl
@[simp] theorem State.onCmd_focus (s : State) (k : Nat) (f : CopyCmd → CopyCmd) : (s.onCmd k f).focus = s.focus := rfl
@[simp] theorem State.onCmd_chosen (s : State) (k : Nat) (f : CopyCmd → CopyCmd) : (s.onCmd k f).chosen = s.chosen := rfl
@[simp] theorem State.onCmd_fresh (s : State) (k : Nat) (f : CopyCmd → CopyCmd) : (s.onCmd k f).fresh = s.fresh := rfl
@[simp] theorem State.onCmd_eng_arrivals (s : State) (k : Nat) (f : CopyCmd → CopyCmd) : (s.onCmd k f).eng.arrivals = s.eng.arrivals := rfl
@[simp] theorem State.onCmd_eng_served (s : State) (k : Nat) (f : CopyCmd → CopyCmd) : (s.onCmd k f).eng.served = s.eng.served := rfl
@[simp] theorem State.onCmd_eng_chunks (s : State) (k : Nat) (f : CopyCmd → CopyCmd) : (s.onCmd k f).eng.chunks = s.eng.chunks := rfl
@[simp] theorem State.onCmd_eng_slots (s : State) (k : Nat) (f : CopyCmd → CopyCmd) : (s.onCmd k f).eng.slots = s.eng.slots := rfl

/-! `State.onL1`. -/

@[simp] theorem State.onL1_thr (s : State) (c n : Nat) (f : L1Line → L1Line) : (s.onL1 c n f).thr = s.thr := rfl
@[simp] theorem State.onL1_clk (s : State) (c n : Nat) (f : L1Line → L1Line) : (s.onL1 c n f).clk = s.clk := rfl
@[simp] theorem State.onL1_work (s : State) (c n : Nat) (f : L1Line → L1Line) : (s.onL1 c n f).work = s.work := rfl
@[simp] theorem State.onL1_cfg (s : State) (c n : Nat) (f : L1Line → L1Line) : (s.onL1 c n f).cfg = s.cfg := rfl
@[simp] theorem State.onL1_agenda (s : State) (c n : Nat) (f : L1Line → L1Line) : (s.onL1 c n f).agenda = s.agenda := rfl
@[simp] theorem State.onL1_counts (s : State) (c n : Nat) (f : L1Line → L1Line) : (s.onL1 c n f).counts = s.counts := rfl
@[simp] theorem State.onL1_eng (s : State) (c n : Nat) (f : L1Line → L1Line) : (s.onL1 c n f).eng = s.eng := rfl
@[simp] theorem State.onL1_host (s : State) (c n : Nat) (f : L1Line → L1Line) : (s.onL1 c n f).host = s.host := rfl
@[simp] theorem State.onL1_fab (s : State) (c n : Nat) (f : L1Line → L1Line) : (s.onL1 c n f).fab = s.fab := rfl
@[simp] theorem State.onL1_dist (s : State) (c n : Nat) (f : L1Line → L1Line) : (s.onL1 c n f).dist = s.dist := rfl
@[simp] theorem State.onL1_ctl (s : State) (c n : Nat) (f : L1Line → L1Line) : (s.onL1 c n f).ctl = s.ctl := rfl
@[simp] theorem State.onL1_dram (s : State) (c n : Nat) (f : L1Line → L1Line) : (s.onL1 c n f).dram = s.dram := rfl
@[simp] theorem State.onL1_links (s : State) (c n : Nat) (f : L1Line → L1Line) : (s.onL1 c n f).links = s.links := rfl
@[simp] theorem State.onL1_att (s : State) (c n : Nat) (f : L1Line → L1Line) : (s.onL1 c n f).att = s.att := rfl
@[simp] theorem State.onL1_faults (s : State) (c n : Nat) (f : L1Line → L1Line) : (s.onL1 c n f).faults = s.faults := rfl
@[simp] theorem State.onL1_focus (s : State) (c n : Nat) (f : L1Line → L1Line) : (s.onL1 c n f).focus = s.focus := rfl
@[simp] theorem State.onL1_chosen (s : State) (c n : Nat) (f : L1Line → L1Line) : (s.onL1 c n f).chosen = s.chosen := rfl
@[simp] theorem State.onL1_fresh (s : State) (c n : Nat) (f : L1Line → L1Line) : (s.onL1 c n f).fresh = s.fresh := rfl
@[simp] theorem State.onL1_mem_scratch (s : State) (c n : Nat) (f : L1Line → L1Line) : (s.onL1 c n f).mem.scratch = s.mem.scratch := rfl
@[simp] theorem State.onL1_mem_exch (s : State) (c n : Nat) (f : L1Line → L1Line) : (s.onL1 c n f).mem.exch = s.mem.exch := rfl
@[simp] theorem State.onL1_mem_acc (s : State) (c n : Nat) (f : L1Line → L1Line) : (s.onL1 c n f).mem.acc = s.mem.acc := rfl
@[simp] theorem State.onL1_mem_hbm (s : State) (c n : Nat) (f : L1Line → L1Line) : (s.onL1 c n f).mem.hbm = s.mem.hbm := rfl
@[simp] theorem State.onL1_mem_polarity (s : State) (c n : Nat) (f : L1Line → L1Line) : (s.onL1 c n f).mem.polarity = s.mem.polarity := rfl
@[simp] theorem State.onL1_mem_macros (s : State) (c n : Nat) (f : L1Line → L1Line) : (s.onL1 c n f).mem.macros = s.mem.macros := rfl
@[simp] theorem State.onL1_mem_icache (s : State) (c n : Nat) (f : L1Line → L1Line) : (s.onL1 c n f).mem.icache = s.mem.icache := rfl
@[simp] theorem State.onL1_mem_l2 (s : State) (c n : Nat) (f : L1Line → L1Line) : (s.onL1 c n f).mem.l2 = s.mem.l2 := rfl
@[simp] theorem State.onL1_mem_l1tlb (s : State) (c n : Nat) (f : L1Line → L1Line) : (s.onL1 c n f).mem.l1tlb = s.mem.l1tlb := rfl
@[simp] theorem State.onL1_mem_dieTlb (s : State) (c n : Nat) (f : L1Line → L1Line) : (s.onL1 c n f).mem.dieTlb = s.mem.dieTlb := rfl
@[simp] theorem State.onL1_mem_walks (s : State) (c n : Nat) (f : L1Line → L1Line) : (s.onL1 c n f).mem.walks = s.mem.walks := rfl
@[simp] theorem State.onL1_mem_walkFaults (s : State) (c n : Nat) (f : L1Line → L1Line) : (s.onL1 c n f).mem.walkFaults = s.mem.walkFaults := rfl
@[simp] theorem State.onL1_mem_fetches (s : State) (c n : Nat) (f : L1Line → L1Line) : (s.onL1 c n f).mem.fetches = s.mem.fetches := rfl
@[simp] theorem State.onL1_mem_ops (s : State) (c n : Nat) (f : L1Line → L1Line) : (s.onL1 c n f).mem.ops = s.mem.ops := rfl
@[simp] theorem State.onL1_mem_queue (s : State) (c n : Nat) (f : L1Line → L1Line) : (s.onL1 c n f).mem.queue = s.mem.queue := rfl
@[simp] theorem State.onL1_mem_updates (s : State) (c n : Nat) (f : L1Line → L1Line) : (s.onL1 c n f).mem.updates = s.mem.updates := rfl
@[simp] theorem State.onL1_mem_notices (s : State) (c n : Nat) (f : L1Line → L1Line) : (s.onL1 c n f).mem.notices = s.mem.notices := rfl
@[simp] theorem State.onL1_mem_exchStores (s : State) (c n : Nat) (f : L1Line → L1Line) : (s.onL1 c n f).mem.exchStores = s.mem.exchStores := rfl
@[simp] theorem State.onL1_mem_matrix (s : State) (c n : Nat) (f : L1Line → L1Line) : (s.onL1 c n f).mem.matrix = s.mem.matrix := rfl
@[simp] theorem State.onL1_mem_atomTags (s : State) (c n : Nat) (f : L1Line → L1Line) : (s.onL1 c n f).mem.atomTags = s.mem.atomTags := rfl

/-! `State.dropL1`. -/

@[simp] theorem State.dropL1_thr (s : State) (c n : Nat) : (s.dropL1 c n).thr = s.thr := rfl
@[simp] theorem State.dropL1_clk (s : State) (c n : Nat) : (s.dropL1 c n).clk = s.clk := rfl
@[simp] theorem State.dropL1_work (s : State) (c n : Nat) : (s.dropL1 c n).work = s.work := rfl
@[simp] theorem State.dropL1_cfg (s : State) (c n : Nat) : (s.dropL1 c n).cfg = s.cfg := rfl
@[simp] theorem State.dropL1_agenda (s : State) (c n : Nat) : (s.dropL1 c n).agenda = s.agenda := rfl
@[simp] theorem State.dropL1_counts (s : State) (c n : Nat) : (s.dropL1 c n).counts = s.counts := rfl
@[simp] theorem State.dropL1_eng (s : State) (c n : Nat) : (s.dropL1 c n).eng = s.eng := rfl
@[simp] theorem State.dropL1_host (s : State) (c n : Nat) : (s.dropL1 c n).host = s.host := rfl
@[simp] theorem State.dropL1_fab (s : State) (c n : Nat) : (s.dropL1 c n).fab = s.fab := rfl
@[simp] theorem State.dropL1_dist (s : State) (c n : Nat) : (s.dropL1 c n).dist = s.dist := rfl
@[simp] theorem State.dropL1_ctl (s : State) (c n : Nat) : (s.dropL1 c n).ctl = s.ctl := rfl
@[simp] theorem State.dropL1_dram (s : State) (c n : Nat) : (s.dropL1 c n).dram = s.dram := rfl
@[simp] theorem State.dropL1_links (s : State) (c n : Nat) : (s.dropL1 c n).links = s.links := rfl
@[simp] theorem State.dropL1_att (s : State) (c n : Nat) : (s.dropL1 c n).att = s.att := rfl
@[simp] theorem State.dropL1_faults (s : State) (c n : Nat) : (s.dropL1 c n).faults = s.faults := rfl
@[simp] theorem State.dropL1_focus (s : State) (c n : Nat) : (s.dropL1 c n).focus = s.focus := rfl
@[simp] theorem State.dropL1_chosen (s : State) (c n : Nat) : (s.dropL1 c n).chosen = s.chosen := rfl
@[simp] theorem State.dropL1_fresh (s : State) (c n : Nat) : (s.dropL1 c n).fresh = s.fresh := rfl
@[simp] theorem State.dropL1_mem_scratch (s : State) (c n : Nat) : (s.dropL1 c n).mem.scratch = s.mem.scratch := rfl
@[simp] theorem State.dropL1_mem_exch (s : State) (c n : Nat) : (s.dropL1 c n).mem.exch = s.mem.exch := rfl
@[simp] theorem State.dropL1_mem_acc (s : State) (c n : Nat) : (s.dropL1 c n).mem.acc = s.mem.acc := rfl
@[simp] theorem State.dropL1_mem_hbm (s : State) (c n : Nat) : (s.dropL1 c n).mem.hbm = s.mem.hbm := rfl
@[simp] theorem State.dropL1_mem_polarity (s : State) (c n : Nat) : (s.dropL1 c n).mem.polarity = s.mem.polarity := rfl
@[simp] theorem State.dropL1_mem_macros (s : State) (c n : Nat) : (s.dropL1 c n).mem.macros = s.mem.macros := rfl
@[simp] theorem State.dropL1_mem_icache (s : State) (c n : Nat) : (s.dropL1 c n).mem.icache = s.mem.icache := rfl
@[simp] theorem State.dropL1_mem_l2 (s : State) (c n : Nat) : (s.dropL1 c n).mem.l2 = s.mem.l2 := rfl
@[simp] theorem State.dropL1_mem_l1tlb (s : State) (c n : Nat) : (s.dropL1 c n).mem.l1tlb = s.mem.l1tlb := rfl
@[simp] theorem State.dropL1_mem_dieTlb (s : State) (c n : Nat) : (s.dropL1 c n).mem.dieTlb = s.mem.dieTlb := rfl
@[simp] theorem State.dropL1_mem_walks (s : State) (c n : Nat) : (s.dropL1 c n).mem.walks = s.mem.walks := rfl
@[simp] theorem State.dropL1_mem_walkFaults (s : State) (c n : Nat) : (s.dropL1 c n).mem.walkFaults = s.mem.walkFaults := rfl
@[simp] theorem State.dropL1_mem_fetches (s : State) (c n : Nat) : (s.dropL1 c n).mem.fetches = s.mem.fetches := rfl
@[simp] theorem State.dropL1_mem_ops (s : State) (c n : Nat) : (s.dropL1 c n).mem.ops = s.mem.ops := rfl
@[simp] theorem State.dropL1_mem_queue (s : State) (c n : Nat) : (s.dropL1 c n).mem.queue = s.mem.queue := rfl
@[simp] theorem State.dropL1_mem_updates (s : State) (c n : Nat) : (s.dropL1 c n).mem.updates = s.mem.updates := rfl
@[simp] theorem State.dropL1_mem_notices (s : State) (c n : Nat) : (s.dropL1 c n).mem.notices = s.mem.notices := rfl
@[simp] theorem State.dropL1_mem_exchStores (s : State) (c n : Nat) : (s.dropL1 c n).mem.exchStores = s.mem.exchStores := rfl
@[simp] theorem State.dropL1_mem_matrix (s : State) (c n : Nat) : (s.dropL1 c n).mem.matrix = s.mem.matrix := rfl
@[simp] theorem State.dropL1_mem_atomTags (s : State) (c n : Nat) : (s.dropL1 c n).mem.atomTags = s.mem.atomTags := rfl

/-! `State.setL2`. -/

@[simp] theorem State.setL2_thr (s : State) (n : Nat) (l : L2Line) : (s.setL2 n l).thr = s.thr := rfl
@[simp] theorem State.setL2_clk (s : State) (n : Nat) (l : L2Line) : (s.setL2 n l).clk = s.clk := rfl
@[simp] theorem State.setL2_work (s : State) (n : Nat) (l : L2Line) : (s.setL2 n l).work = s.work := rfl
@[simp] theorem State.setL2_cfg (s : State) (n : Nat) (l : L2Line) : (s.setL2 n l).cfg = s.cfg := rfl
@[simp] theorem State.setL2_agenda (s : State) (n : Nat) (l : L2Line) : (s.setL2 n l).agenda = s.agenda := rfl
@[simp] theorem State.setL2_counts (s : State) (n : Nat) (l : L2Line) : (s.setL2 n l).counts = s.counts := rfl
@[simp] theorem State.setL2_eng (s : State) (n : Nat) (l : L2Line) : (s.setL2 n l).eng = s.eng := rfl
@[simp] theorem State.setL2_host (s : State) (n : Nat) (l : L2Line) : (s.setL2 n l).host = s.host := rfl
@[simp] theorem State.setL2_fab (s : State) (n : Nat) (l : L2Line) : (s.setL2 n l).fab = s.fab := rfl
@[simp] theorem State.setL2_dist (s : State) (n : Nat) (l : L2Line) : (s.setL2 n l).dist = s.dist := rfl
@[simp] theorem State.setL2_ctl (s : State) (n : Nat) (l : L2Line) : (s.setL2 n l).ctl = s.ctl := rfl
@[simp] theorem State.setL2_dram (s : State) (n : Nat) (l : L2Line) : (s.setL2 n l).dram = s.dram := rfl
@[simp] theorem State.setL2_links (s : State) (n : Nat) (l : L2Line) : (s.setL2 n l).links = s.links := rfl
@[simp] theorem State.setL2_att (s : State) (n : Nat) (l : L2Line) : (s.setL2 n l).att = s.att := rfl
@[simp] theorem State.setL2_faults (s : State) (n : Nat) (l : L2Line) : (s.setL2 n l).faults = s.faults := rfl
@[simp] theorem State.setL2_focus (s : State) (n : Nat) (l : L2Line) : (s.setL2 n l).focus = s.focus := rfl
@[simp] theorem State.setL2_chosen (s : State) (n : Nat) (l : L2Line) : (s.setL2 n l).chosen = s.chosen := rfl
@[simp] theorem State.setL2_fresh (s : State) (n : Nat) (l : L2Line) : (s.setL2 n l).fresh = s.fresh := rfl
@[simp] theorem State.setL2_mem_scratch (s : State) (n : Nat) (l : L2Line) : (s.setL2 n l).mem.scratch = s.mem.scratch := rfl
@[simp] theorem State.setL2_mem_exch (s : State) (n : Nat) (l : L2Line) : (s.setL2 n l).mem.exch = s.mem.exch := rfl
@[simp] theorem State.setL2_mem_acc (s : State) (n : Nat) (l : L2Line) : (s.setL2 n l).mem.acc = s.mem.acc := rfl
@[simp] theorem State.setL2_mem_hbm (s : State) (n : Nat) (l : L2Line) : (s.setL2 n l).mem.hbm = s.mem.hbm := rfl
@[simp] theorem State.setL2_mem_polarity (s : State) (n : Nat) (l : L2Line) : (s.setL2 n l).mem.polarity = s.mem.polarity := rfl
@[simp] theorem State.setL2_mem_macros (s : State) (n : Nat) (l : L2Line) : (s.setL2 n l).mem.macros = s.mem.macros := rfl
@[simp] theorem State.setL2_mem_l1 (s : State) (n : Nat) (l : L2Line) : (s.setL2 n l).mem.l1 = s.mem.l1 := rfl
@[simp] theorem State.setL2_mem_icache (s : State) (n : Nat) (l : L2Line) : (s.setL2 n l).mem.icache = s.mem.icache := rfl
@[simp] theorem State.setL2_mem_l1tlb (s : State) (n : Nat) (l : L2Line) : (s.setL2 n l).mem.l1tlb = s.mem.l1tlb := rfl
@[simp] theorem State.setL2_mem_dieTlb (s : State) (n : Nat) (l : L2Line) : (s.setL2 n l).mem.dieTlb = s.mem.dieTlb := rfl
@[simp] theorem State.setL2_mem_walks (s : State) (n : Nat) (l : L2Line) : (s.setL2 n l).mem.walks = s.mem.walks := rfl
@[simp] theorem State.setL2_mem_walkFaults (s : State) (n : Nat) (l : L2Line) : (s.setL2 n l).mem.walkFaults = s.mem.walkFaults := rfl
@[simp] theorem State.setL2_mem_fetches (s : State) (n : Nat) (l : L2Line) : (s.setL2 n l).mem.fetches = s.mem.fetches := rfl
@[simp] theorem State.setL2_mem_ops (s : State) (n : Nat) (l : L2Line) : (s.setL2 n l).mem.ops = s.mem.ops := rfl
@[simp] theorem State.setL2_mem_queue (s : State) (n : Nat) (l : L2Line) : (s.setL2 n l).mem.queue = s.mem.queue := rfl
@[simp] theorem State.setL2_mem_updates (s : State) (n : Nat) (l : L2Line) : (s.setL2 n l).mem.updates = s.mem.updates := rfl
@[simp] theorem State.setL2_mem_notices (s : State) (n : Nat) (l : L2Line) : (s.setL2 n l).mem.notices = s.mem.notices := rfl
@[simp] theorem State.setL2_mem_exchStores (s : State) (n : Nat) (l : L2Line) : (s.setL2 n l).mem.exchStores = s.mem.exchStores := rfl
@[simp] theorem State.setL2_mem_matrix (s : State) (n : Nat) (l : L2Line) : (s.setL2 n l).mem.matrix = s.mem.matrix := rfl
@[simp] theorem State.setL2_mem_atomTags (s : State) (n : Nat) (l : L2Line) : (s.setL2 n l).mem.atomTags = s.mem.atomTags := rfl

/-! `State.unchoose`. -/

@[simp] theorem State.unchoose_thr (s : State) : (s.unchoose ).thr = s.thr := rfl
@[simp] theorem State.unchoose_clk (s : State) : (s.unchoose ).clk = s.clk := rfl
@[simp] theorem State.unchoose_work (s : State) : (s.unchoose ).work = s.work := rfl
@[simp] theorem State.unchoose_mem (s : State) : (s.unchoose ).mem = s.mem := rfl
@[simp] theorem State.unchoose_cfg (s : State) : (s.unchoose ).cfg = s.cfg := rfl
@[simp] theorem State.unchoose_agenda (s : State) : (s.unchoose ).agenda = s.agenda := rfl
@[simp] theorem State.unchoose_counts (s : State) : (s.unchoose ).counts = s.counts := rfl
@[simp] theorem State.unchoose_eng (s : State) : (s.unchoose ).eng = s.eng := rfl
@[simp] theorem State.unchoose_host (s : State) : (s.unchoose ).host = s.host := rfl
@[simp] theorem State.unchoose_fab (s : State) : (s.unchoose ).fab = s.fab := rfl
@[simp] theorem State.unchoose_dist (s : State) : (s.unchoose ).dist = s.dist := rfl
@[simp] theorem State.unchoose_ctl (s : State) : (s.unchoose ).ctl = s.ctl := rfl
@[simp] theorem State.unchoose_dram (s : State) : (s.unchoose ).dram = s.dram := rfl
@[simp] theorem State.unchoose_links (s : State) : (s.unchoose ).links = s.links := rfl
@[simp] theorem State.unchoose_att (s : State) : (s.unchoose ).att = s.att := rfl
@[simp] theorem State.unchoose_faults (s : State) : (s.unchoose ).faults = s.faults := rfl
@[simp] theorem State.unchoose_focus (s : State) : (s.unchoose ).focus = s.focus := rfl
@[simp] theorem State.unchoose_fresh (s : State) : (s.unchoose ).fresh = s.fresh := rfl
@[simp] theorem State.unchoose_chosen (s : State) : s.unchoose.chosen = none := rfl

/-! `State.take`. -/

@[simp] theorem State.take_thr (s : State) : s.take.2.thr = s.thr := rfl
@[simp] theorem State.take_clk (s : State) : s.take.2.clk = s.clk := rfl
@[simp] theorem State.take_work (s : State) : s.take.2.work = s.work := rfl
@[simp] theorem State.take_mem (s : State) : s.take.2.mem = s.mem := rfl
@[simp] theorem State.take_cfg (s : State) : s.take.2.cfg = s.cfg := rfl
@[simp] theorem State.take_agenda (s : State) : s.take.2.agenda = s.agenda := rfl
@[simp] theorem State.take_counts (s : State) : s.take.2.counts = s.counts := rfl
@[simp] theorem State.take_eng (s : State) : s.take.2.eng = s.eng := rfl
@[simp] theorem State.take_host (s : State) : s.take.2.host = s.host := rfl
@[simp] theorem State.take_fab (s : State) : s.take.2.fab = s.fab := rfl
@[simp] theorem State.take_dist (s : State) : s.take.2.dist = s.dist := rfl
@[simp] theorem State.take_ctl (s : State) : s.take.2.ctl = s.ctl := rfl
@[simp] theorem State.take_dram (s : State) : s.take.2.dram = s.dram := rfl
@[simp] theorem State.take_links (s : State) : s.take.2.links = s.links := rfl
@[simp] theorem State.take_att (s : State) : s.take.2.att = s.att := rfl
@[simp] theorem State.take_faults (s : State) : s.take.2.faults = s.faults := rfl
@[simp] theorem State.take_focus (s : State) : s.take.2.focus = s.focus := rfl
@[simp] theorem State.take_chosen (s : State) : s.take.2.chosen = s.chosen := rfl
@[simp] theorem State.take_fresh (s : State) : s.take.2.fresh = s.fresh + 1 := rfl
@[simp] theorem State.take_id (s : State) : s.take.1 = s.fresh := rfl

end Sys2Proof.Machine
end

