-- ==== Sys2Proof/Laws/Warp.lean ====
section
/-! SUPPORT. Laws of warps, lanes and slots: what a read gives after each update. -/

namespace Sys2Proof.Machine

@[simp] theorem onLane_length (w : Warp) (l : Nat) (f : Lane → Lane) : (w.onLane l f).lanes.length = w.lanes.length := by
  simp [Warp.onLane]

theorem lane_onLane (w : Warp) (l m : Nat) (f : Lane → Lane) :
    (w.onLane l f).lane m = if m = l ∧ l < w.lanes.length then f (w.lane m) else w.lane m := by
  unfold Warp.onLane Warp.lane
  simp only [List.getD_eq_getElem?_getD, List.getElem?_modify]
  by_cases h : l = m
  · subst h
    by_cases hl : l < w.lanes.length <;> simp [hl]
  · have : m ≠ l := fun e => h e.symm
    simp [h, this]

theorem onLanes_cons (w : Warp) (l : Nat) (ls : List Nat) (f : Lane → Lane) : w.onLanes (l :: ls) f = (w.onLane l f).onLanes ls f := rfl

@[simp] theorem onLanes_nil (w : Warp) (f : Lane → Lane) : w.onLanes [] f = w := rfl

@[simp] theorem onLanes_length (w : Warp) (ls : List Nat) (f : Lane → Lane) : (w.onLanes ls f).lanes.length = w.lanes.length := by
  induction ls generalizing w with
  | nil => rfl
  | cons l ls ih => rw [onLanes_cons, ih, onLane_length]

/-- Updating lanes changes the lanes alone. -/
theorem onLanes_rest (w : Warp) (ls : List Nat) (f : Lane → Lane) : w.onLanes ls f = { w with lanes := (w.onLanes ls f).lanes } := by
  induction ls generalizing w with
  | nil => rfl
  | cons l ls ih => rw [onLanes_cons, ih]; rfl

theorem lane_onLanes_of_not_mem (w : Warp) (ls : List Nat) (f : Lane → Lane) (m : Nat) (h : m ∉ ls) : (w.onLanes ls f).lane m = w.lane m := by
  induction ls generalizing w with
  | nil => rfl
  | cons l ls ih =>
    rw [onLanes_cons, ih _ (fun h' => h (by simp [h'])), lane_onLane, if_neg]
    intro e; exact h (by simp [e.1])

theorem lane_onLanes_of_mem (w : Warp) (ls : List Nat) (f : Lane → Lane) (m : Nat) (hn : ls.Nodup) (h : m ∈ ls) (hm : m < w.lanes.length) :
    (w.onLanes ls f).lane m = f (w.lane m) := by
  induction ls generalizing w with
  | nil => cases h
  | cons l ls ih =>
    obtain ⟨hl, hn⟩ := List.nodup_cons.1 hn
    rw [onLanes_cons]
    rcases List.mem_cons.1 h with rfl | h
    · rw [lane_onLanes_of_not_mem _ _ _ _ hl, lane_onLane, if_pos ⟨rfl, hm⟩]
    · have hne : m ≠ l := fun e => hl (e ▸ h)
      rw [ih _ hn h (by simpa using hm), lane_onLane, if_neg (fun e => hne e.1)]

/-- A lane that is present lies in the warp's list. -/
theorem lt_of_present {w : Warp} {l : Nat} (h : (w.lane l).present = true) : l < w.lanes.length := by
  by_contra hl
  simp [Warp.lane, List.getD_eq_getElem?_getD, List.getElem?_eq_none (Nat.le_of_not_lt hl), Lane.absent] at h

/-! Warps of the state. -/

@[simp] theorem warpAt_setWarp_self (s : State) (k : Nat) (w : Warp) : (s.setWarp k w).warpAt k = some w := NMap.find_insert_self ..

theorem warpAt_setWarp_ne (s : State) {j k : Nat} (w : Warp) (h : j ≠ k) : (s.setWarp k w).warpAt j = s.warpAt j := NMap.find_insert_ne h ..

@[simp] theorem warpAt_onWarp_self (s : State) (k : Nat) (f : Warp → Warp) : (s.onWarp k f).warpAt k = (s.warpAt k).map f :=
  NMap.find_adjust_self ..

theorem warpAt_onWarp_ne (s : State) {j k : Nat} (f : Warp → Warp) (h : j ≠ k) : (s.onWarp k f).warpAt j = s.warpAt j :=
  NMap.find_adjust_ne h ..

@[simp] theorem warpAt_onLanes_self (s : State) (k : Nat) (ls : List Nat) (f : Lane → Lane) :
    (s.onLanes k ls f).warpAt k = (s.warpAt k).map (·.onLanes ls f) := NMap.find_adjust_self ..

theorem warpAt_onLanes_ne (s : State) {j k : Nat} (ls : List Nat) (f : Lane → Lane) (h : j ≠ k) :
    (s.onLanes k ls f).warpAt j = s.warpAt j := NMap.find_adjust_ne h ..

@[simp] theorem warpAt_setReg (s : State) (k j : Nat) (v : PWord) : (s.setReg k v).warpAt j = s.warpAt j := rfl

@[simp] theorem warpAt_onSlot (s : State) (c n j : Nat) (f : Slot → Slot) : (s.onSlot c n f).warpAt j = s.warpAt j := rfl

@[simp] theorem warpAt_unchoose (s : State) (k : Nat) : s.unchoose.warpAt k = s.warpAt k := rfl

@[simp] theorem warpAt_take (s : State) (k : Nat) : s.take.2.warpAt k = s.warpAt k := rfl

/-! Registers. -/

@[simp] theorem reg_setReg_self (s : State) (k : Nat) (v : PWord) : (s.setReg k v).reg k = v := NMap.getD_put_self ..

theorem reg_setReg_ne (s : State) {j k : Nat} (v : PWord) (h : j ≠ k) : (s.setReg k v).reg j = s.reg j := NMap.getD_put_ne h ..

@[simp] theorem reg_onWarp (s : State) (k j : Nat) (f : Warp → Warp) : (s.onWarp k f).reg j = s.reg j := rfl

@[simp] theorem reg_onLanes (s : State) (k j : Nat) (ls : List Nat) (f : Lane → Lane) : (s.onLanes k ls f).reg j = s.reg j := rfl

/-- Two lanes of a slot hold no register in common. -/
theorem physReg_inj {core slot : Nat} {w : Warp} {l m a b : Nat} (hl : l < 32) (hm : m < 32)
    (h : physReg core slot w l a = physReg core slot w m b) : l = m ∧ a = b := by
  have ha : w.phys l < 33 := by unfold Warp.phys; split <;> omega
  have hb : w.phys m < 33 := by unfold Warp.phys; split <;> omega
  have hp : w.phys l = w.phys m ∧ a = b := by
    unfold physReg regKey packageLanes at h; omega
  refine ⟨?_, hp.2⟩
  have := hp.1
  unfold Warp.phys at this
  split at this <;> split at this <;> simp_all

/-! Slots. -/

theorem slotAt_onSlot (s : State) (c n d m : Nat) (f : Slot → Slot) :
    (s.onSlot c n f).slotAt d m = if slotKey d m = slotKey c n then f (s.slotAt d m) else s.slotAt d m := by
  by_cases h : slotKey d m = slotKey c n
  · rw [if_pos h]; unfold State.slotAt State.onSlot; rw [h]; exact NMap.getD_alter_self ..
  · rw [if_neg h]; exact NMap.getD_alter_ne h ..

end Sys2Proof.Machine
end

