-- ==== Sys2Proof/Laws/Ended.lean ====
section
/-! SUPPORT. What the end of an issue can do (`afterIssue`): the terms of `Ended`. -/

namespace Sys2Proof.Machine

theorem EndedWarp.refl (v : Warp) : EndedWarp v v := ⟨rfl, rfl, fun _ => rfl⟩

theorem EndedWarp.trans {v u x : Warp} (h : EndedWarp v u) (k : EndedWarp u x) : EndedWarp v x := by
  refine ⟨?_, k.count.trans h.count, fun l => ?_⟩
  · rw [k.rest, h.rest]
  · rw [k.lane l, h.lane l]

/-- An update of lanes that writes only what the end of an issue may write. -/
theorem EndedWarp.onLanes (w : Warp) (ls : List Nat) {f : Lane → Lane}
    (hf : ∀ x, f x = { x with waitCount := (f x).waitCount, loadAfter := (f x).loadAfter, lastIssue := (f x).lastIssue }) :
    EndedWarp w (w.onLanes ls f) := by
  induction ls generalizing w with
  | nil => exact .refl w
  | cons l ls ih =>
    rw [onLanes_cons]
    refine EndedWarp.trans ⟨rfl, by simp, fun m => ?_⟩ (ih _)
    rw [lane_onLane]; split
    · exact hf _
    · rfl

/-- t differs from e in what the end of an issue may write, with no number taken. -/
structure Near (g : Group) (e t : State) : Prop where
  outside : t = { e with thr := { e.thr with warps := t.thr.warps, slots := t.thr.slots } }
  others : ∀ k, k ≠ g.key → t.warpAt k = e.warpAt k
  slots : ∀ c n, t.slotAt c n = { e.slotAt c n with running := (t.slotAt c n).running }
  warp : ∀ v, e.warpAt g.key = some v → ∃ u, t.warpAt g.key = some u ∧ EndedWarp v u

theorem Near.refl (g : Group) (e : State) : Near g e e := ⟨rfl, fun _ _ => rfl, fun _ _ => rfl, fun v h => ⟨v, h, .refl v⟩⟩

theorem Near.trans {g : Group} {a b c : State} (h : Near g a b) (k : Near g b c) : Near g a c := by
  refine ⟨?_, fun j hj => (k.others j hj).trans (h.others j hj), fun c n => ?_, fun v hv => ?_⟩
  · rw [k.outside, h.outside]
  · rw [k.slots, h.slots]
  · obtain ⟨u, hu, e⟩ := h.warp v hv
    obtain ⟨x, hx, f⟩ := k.warp u hu
    exact ⟨x, hx, e.trans f⟩

theorem Near.setWarp {g : Group} {e : State} {v w : Warp} (h : e.warpAt g.key = some v) (hw : EndedWarp v w) : Near g e (e.setWarp g.key w) := by
  refine ⟨rfl, fun k hk => warpAt_setWarp_ne _ _ hk, fun _ _ => rfl, fun x hx => ?_⟩
  rw [h] at hx; cases hx
  exact ⟨w, by simp, hw⟩

theorem Near.onLanes (g : Group) (e : State) (ls : List Nat) {f : Lane → Lane}
    (hf : ∀ x, f x = { x with waitCount := (f x).waitCount, loadAfter := (f x).loadAfter, lastIssue := (f x).lastIssue }) :
    Near g e (e.onLanes g.key ls f) := by
  refine ⟨rfl, fun k hk => warpAt_onLanes_ne _ _ _ hk, fun _ _ => rfl, fun v hv => ?_⟩
  exact ⟨v.onLanes ls f, by simp [hv], .onLanes v ls hf⟩

theorem Near.onSlot (g : Group) (e : State) (c n : Nat) {f : Slot → Slot} (hf : ∀ x, f x = { x with running := (f x).running }) :
    Near g e (e.onSlot c n f) := by
  refine ⟨rfl, fun _ _ => rfl, fun d m => ?_, fun v hv => ⟨v, hv, .refl v⟩⟩
  rw [slotAt_onSlot]; split
  · exact hf _
  · rfl

theorem boundaryWait_lane (r : Run) (l : Nat) (x : Lane) :
    boundaryWait r l x = { x with waitCount := (boundaryWait r l x).waitCount } := by
  unfold boundaryWait; split <;> (try split) <;> (try split) <;> rfl

theorem lane_zipIdx_map (w : Warp) (f : Lane × Nat → Lane) (m : Nat) :
    ({ w with lanes := w.lanes.zipIdx.map f } : Warp).lane m = if m < w.lanes.length then f (w.lane m, m) else Lane.absent := by
  unfold Warp.lane
  simp only [List.getD_eq_getElem?_getD, List.getElem?_map, List.getElem?_zipIdx]
  by_cases h : m < w.lanes.length <;> simp [h]

theorem lane_of_le {w : Warp} {m : Nat} (h : ¬ m < w.lanes.length) : w.lane m = Lane.absent := by
  simp [Warp.lane, List.getD_eq_getElem?_getD, List.getElem?_eq_none (Nat.le_of_not_lt h)]

theorem endRun_near (g : Group) (e : State) : Near g e (endRun e g.key) := by
  unfold endRun
  split
  · exact .refl g e
  · rename_i w hw
    split
    · exact .refl g e
    · rename_i r _
      refine Near.trans (.setWarp hw ⟨rfl, by simp, fun l => ?_⟩) (.onSlot g _ _ _ fun _ => rfl)
      have hl := lane_zipIdx_map w (fun x => boundaryWait r x.2 x.1) l
      rw [show ∀ a b c d, Warp.lane { w with lanes := a, stamp := b, skid := c, run := d } l = Warp.lane { w with lanes := a } l from
        fun _ _ _ _ => rfl, hl]
      split
      · have hb := boundaryWait_lane r l (w.lane l)
        show boundaryWait r l (w.lane l) = _
        rw [hb]
      · rename_i h; rw [lane_of_le h]

/-- The run may end as well. -/
theorem Near.ite_endRun {g : Group} {a b : State} (h : Near g a b) (c : Bool) : Near g a (if c = true then endRun b g.key else b) := by
  cases c
  · exact h
  · exact h.trans (endRun_near g b)

theorem meetLanes_near (g : Group) (e : State) (before : Warp) (lanes : List Nat) (cross : Bool) :
    Near g e (meetLanes e g before lanes cross) := by
  unfold meetLanes
  split
  · exact .refl g e
  · have : ∀ (ks : List Nat) (s : State), Near g s (ks.foldl (fun s l =>
        let others := lanes.filter fun m => m != l && (cross || (before.lane m).lastIssue != (before.lane l).lastIssue)
        s.onLanes g.key [l] fun x => { x with loadAfter := (x.loadAfter ++ others.flatMap (lateLoads s g)).dedup }) s) := by
      intro ks
      induction ks with
      | nil => exact fun s => .refl g s
      | cons k ks ih => exact fun s => Near.trans (.onLanes g s [k] fun _ => rfl) (ih _)
    exact this lanes e

/-- The end of an issue changes only what `Ended` names. -/
theorem afterIssue_ended (i : Instr) (ends : Bool) (g : Group) (before : Warp) (e : State) : Ended g e (afterIssue i ends g before e) := by
  have key : Near g e.take.2 (afterIssue i ends g before e) := by
    unfold afterIssue
    simp only
    split
    · exact .refl g _
    · rename_i w hw
      have h1 : ∀ (ls fs : List Nat) (c : Bool) (n : Nat) (sk : Nat × Nat) (r : Option Run),
          EndedWarp w { (if c then (w.onLanes ls fun x => { x with lastIssue := n }).onLanes fs fun x => { x with waitCount := 0 }
            else w.onLanes ls fun x => { x with lastIssue := n }) with skid := sk, run := r } := by
        intro ls fs c n sk r
        refine EndedWarp.trans (u := if c then (w.onLanes ls fun x => { x with lastIssue := n }).onLanes fs fun x => { x with waitCount := 0 }
            else w.onLanes ls fun x => { x with lastIssue := n }) ?_ ⟨rfl, rfl, fun _ => rfl⟩
        cases c
        · exact .onLanes w ls fun _ => rfl
        · exact EndedWarp.trans (.onLanes w ls fun _ => rfl) (.onLanes _ fs fun _ => rfl)
      have h2 := fun ls fs c n sk r => Near.trans (Near.setWarp hw (h1 ls fs c n sk r)) (meetLanes_near g _ before ls c)
      exact (h2 ..).ite_endRun _
  exact ⟨key.outside, key.others, key.slots, key.warp⟩

end Sys2Proof.Machine
end

