-- ==== Sys2Proof/Laws/Results.lean ====
section
/-! SUPPORT. What writing the results of an issue can do (`writeResults`): the terms of `Wrote`. -/

namespace Sys2Proof.Machine

/-! Runs of registers. -/

/-- Words written to the registers `key i`, `key (i + 1)`, … -/
def putRegs (s : State) (key : Nat → Nat) (vals : List PWord) (i : Nat) : State :=
  (vals.zipIdx i).foldl (fun s (v, i) => s.setReg (key i) v) s

theorem putRegs_cons (s : State) (key : Nat → Nat) (v : PWord) (vals : List PWord) (i : Nat) :
    putRegs s key (v :: vals) i = putRegs (s.setReg (key i) v) key vals (i + 1) := rfl

theorem putRegs_frame (s : State) (key : Nat → Nat) (vals : List PWord) (i : Nat) :
    putRegs s key vals i = { s with thr := { s.thr with regs := (putRegs s key vals i).thr.regs } } := by
  induction vals generalizing s i with
  | nil => rfl
  | cons v vals ih => rw [putRegs_cons, ih]; rfl

theorem putRegs_other (s : State) (key : Nat → Nat) (vals : List PWord) (i k : Nat)
    (h : ∀ j, i ≤ j → j < i + vals.length → k ≠ key j) : (putRegs s key vals i).reg k = s.reg k := by
  induction vals generalizing s i with
  | nil => rfl
  | cons v vals ih =>
    rw [putRegs_cons, ih, reg_setReg_ne]
    · exact h i (by omega) (by simp)
    · intro j hj hj'; exact h j (by omega) (by simp; omega)

theorem putRegs_at (s : State) (key : Nat → Nat) (hk : ∀ a b, key a = key b → a = b) (vals : List PWord) (i j : Nat) (h : j < vals.length) :
    (putRegs s key vals i).reg (key (i + j)) = vals.getD j PWord.zero := by
  induction vals generalizing s i j with
  | nil => simp at h
  | cons v vals ih =>
    rw [putRegs_cons]
    cases j with
    | zero =>
      rw [putRegs_other]
      · simp
      · intro m hm _ e; have := hk _ _ e; omega
    | succ j =>
      have := ih (s.setReg (key i) v) (i + 1) j (by simpa using h)
      rw [show i + (j + 1) = i + 1 + j by omega, this]; simp

/-! One lane's result. -/

theorem reg_orFlags (s : State) (k l j : Nat) (f : BitVec 5) : (orFlags s k l f).reg j = s.reg j := rfl

/-- A warp whose lanes and scalar registers alone differ. -/
structure SameWarp (x u : Warp) : Prop where
  rest : u = { x with lanes := u.lanes, sregs := u.sregs }
  count : u.lanes.length = x.lanes.length

theorem SameWarp.refl (x : Warp) : SameWarp x x := ⟨rfl, rfl⟩

theorem SameWarp.trans {a b c : Warp} (h : SameWarp a b) (k : SameWarp b c) : SameWarp a c :=
  ⟨by rw [k.rest, h.rest], k.count.trans h.count⟩

theorem SameWarp.physReg {x u : Warp} (h : SameWarp x u) (core slot l n : Nat) :
    Machine.physReg core slot u l n = Machine.physReg core slot x l n := by rw [h.rest]; rfl

/-- Part of writing results: lanes `ls` of the group, the first of them being the group's when `first`. -/
structure Part (g : Group) (v : Warp) (b e : State) (d n la : Nat) (val : Nat → List PWord) (fl : Nat → BitVec 5) (ls : List Nat)
    (first : Bool) : Prop where
  thread : d < 96 → v.delay la = 0 → ∀ l ∈ ls, ∀ k < n,
    e.reg (physReg g.core g.slot v l (32 * (v.lane l).window + d + k)) = (val l).getD k PWord.zero
  registers : ∀ key, (d < 96 → v.delay la = 0 → ∀ l ∈ ls, ∀ k < n,
    key ≠ physReg g.core g.slot v l (32 * (v.lane l).window + d + k)) → e.reg key = b.reg key
  warp : ∀ x, b.warpAt g.key = some x → SameWarp v x → ∃ u, e.warpAt g.key = some u ∧ SameWarp x u ∧
    (∀ k, u.sregs.getD k PWord.zero =
      if isScalarDest d ∧ first ∧ v.delay la = 0 ∧ d - 96 ≤ k ∧ k < d - 96 + n ∧ k < x.sregs.length then
        match ls.head? with
        | some l => (val l).getD (k - (d - 96)) PWord.zero
        | none => x.sregs.getD k PWord.zero
      else x.sregs.getD k PWord.zero) ∧
    (∀ l, u.lane l = { x.lane l with
      flags := (x.lane l).flags ||| (if l ∈ ls ∧ (v.delay la = 0 ∨ (isScalarDest d ∧ ¬ (first ∧ ls.head? = some l))) then fl l else 0)
      commits := (x.lane l).commits ++ (if v.delay la ≠ 0 ∧ l ∈ ls ∧ (¬ isScalarDest d ∨ (first ∧ ls.head? = some l)) then
        [⟨destOf v l d n, la + 1, some (val l), fl l, none, none⟩] else []) })
  others : ∀ k, k ≠ g.key → e.warpAt k = b.warpAt k
  outside : e = { b with thr := { b.thr with regs := e.thr.regs, warps := e.thr.warps } }

theorem sregs_set (sr : List PWord) (r : Nat) (vals : List PWord) (i k : Nat) :
    ((vals.zipIdx i).foldl (fun sr (x : PWord × Nat) => sr.set (r + x.2) x.1) sr).getD k PWord.zero =
      (if r + i ≤ k ∧ k < r + i + vals.length ∧ k < sr.length then vals.getD (k - (r + i)) PWord.zero else sr.getD k PWord.zero) := by
  induction vals generalizing sr i with
  | nil => simp; omega
  | cons v vals ih =>
    rw [List.zipIdx_cons, List.foldl_cons, ih]
    simp only [List.length_set, List.length_cons, List.getD_eq_getElem?_getD, List.getElem?_set]
    by_cases h1 : k = r + i
    · subst h1
      by_cases hl : r + i < sr.length
      · simp [hl]
      · simp [hl]
    · by_cases h2 : r + (i + 1) ≤ k ∧ k < r + (i + 1) + vals.length ∧ k < sr.length
      · have h3 : r + i ≤ k ∧ k < r + i + (vals.length + 1) ∧ k < sr.length := by omega
        have h4 : k - (r + i) = (k - (r + (i + 1))) + 1 := by omega
        simp [h2, h3, h4]
      · have h3 : ¬ (r + i ≤ k ∧ k < r + i + (vals.length + 1) ∧ k < sr.length) := by omega
        have h5 : ¬ (r + i = k) := fun e => h1 e.symm
        rw [if_neg h2, if_neg h3, if_neg h5]

theorem sregs_set_length (sr : List PWord) (r : Nat) (xs : List (PWord × Nat)) :
    (xs.foldl (fun sr (x : PWord × Nat) => sr.set (r + x.2) x.1) sr).length = sr.length := by
  induction xs generalizing sr with
  | nil => rfl
  | cons x xs ih => rw [List.foldl_cons, ih, List.length_set]

/-- One lane of `writeResults`. -/
def writeLane (g : Group) (v : Warp) (d n la : Nat) (s : State) (r : LaneResult) (i : Nat) : State :=
  if isScalarDest d && i != 0 then orFlags s g.key r.lane r.flags
  else if v.delay la = 0 then orFlags (writeDest s g.core g.slot g.warp r.lane (destOf v r.lane d n) r.vals) g.key r.lane r.flags
  else s.onLanes g.key [r.lane] fun x =>
    { x with commits := x.commits ++ [⟨destOf v r.lane d n, la + 1, some r.vals, r.flags, none, none⟩] }

theorem writeResults_eq (s : State) (g : Group) (v : Warp) (d n la : Nat) (rs : List LaneResult) :
    writeResults s g v d n la rs = rs.zipIdx.foldl (fun s x => writeLane g v d n la s x.1 x.2) s := by
  by_cases h : v.inHandler = true
  · simp [writeResults, writeLane, Warp.delay, h]
  · simp [writeResults, writeLane, Warp.delay, h]

theorem lane_one {x : Warp} {l m : Nat} {f : Lane → Lane} (hl : l < x.lanes.length) :
    (x.onLanes [l] f).lane m = if m = l then f (x.lane m) else x.lane m := by
  rw [onLanes_cons, onLanes_nil, lane_onLane]; simp [hl]

theorem SameWarp.onLanes (x : Warp) (ls : List Nat) (f : Lane → Lane) : SameWarp x (x.onLanes ls f) :=
  ⟨by rw [onLanes_rest], by simp⟩

theorem sregs_onLanes (x : Warp) (ls : List Nat) (f : Lane → Lane) : (x.onLanes ls f).sregs = x.sregs := by
  rw [onLanes_rest]

theorem lane_withSregs (x : Warp) (sr : List PWord) (m : Nat) : Warp.lane { x with sregs := sr } m = x.lane m := rfl

theorem orFlags_part {g : Group} {v : Warp} {b : State} {d n la : Nat} {val fl} {l : Nat} (hl : l < v.lanes.length)
    (hs : isScalarDest d = true) : Part g v b (orFlags b g.key l (fl l)) d n la val fl [l] false := by
  refine ⟨?_, fun _ _ => rfl, ?_, fun k hk => warpAt_onLanes_ne _ _ _ hk, rfl⟩
  · intro h; simp [isScalarDest] at hs; omega
  · intro x hx hv
    refine ⟨_, by simp [orFlags, hx]; rfl, .onLanes .., fun k => ?_, fun m => ?_⟩
    · rw [sregs_onLanes]; simp
    · rw [lane_one (hv.count ▸ hl)]
      by_cases hm : m = l <;> simp [hm, hs]

theorem delayed_part {g : Group} {v : Warp} {b : State} {d n la : Nat} {val fl} {l : Nat} {i : Nat} (hl : l < v.lanes.length)
    (hs : isScalarDest d = true → i = 0) (hd : v.delay la ≠ 0) :
    Part g v b (writeLane g v d n la b ⟨l, val l, fl l⟩ i) d n la val fl [l] (i == 0) := by
  have hw : writeLane g v d n la b ⟨l, val l, fl l⟩ i = b.onLanes g.key [l] fun x =>
    { x with commits := x.commits ++ [⟨destOf v l d n, la + 1, some (val l), fl l, none, none⟩] } := by
    unfold writeLane
    rw [if_neg (by simp; exact hs), if_neg hd]
  rw [hw]
  refine ⟨fun _ h => absurd h hd, fun _ _ => rfl, ?_, fun k hk => warpAt_onLanes_ne _ _ _ hk, rfl⟩
  intro x hx hv
  refine ⟨_, by rw [warpAt_onLanes_self, hx]; rfl, .onLanes .., fun k => ?_, fun m => ?_⟩
  · rw [sregs_onLanes]; simp [hd]
  · rw [lane_one (hv.count ▸ hl)]
    by_cases hm : m = l
    · by_cases hsc : isScalarDest d = true
      · simp [hm, hd, hs hsc, hsc]
      · simp [hm, hd, hsc]
    · simp [hm, Ne.symm hm, hd]

theorem thread_part {g : Group} {v : Warp} {b : State} {d n la : Nat} {val fl} {l : Nat} {i : Nat} (hl : l < v.lanes.length)
    (hn : (val l).length = n) (hd : v.delay la = 0) (h96 : d < 96) {x₀ : Warp} (hx₀ : b.warpAt g.key = some x₀) (hv₀ : SameWarp v x₀) :
    Part g v b (writeLane g v d n la b ⟨l, val l, fl l⟩ i) d n la val fl [l] (i == 0) := by
  have hs : isScalarDest d = false := by simp [isScalarDest]; omega
  have hp : ∀ r, physReg g.core g.slot x₀ l r = physReg g.core g.slot v l r := hv₀.physReg _ _ _
  have hw : writeLane g v d n la b ⟨l, val l, fl l⟩ i =
      orFlags (putRegs b (fun k => physReg g.core g.slot v l (32 * (v.lane l).window + d + k)) (val l) 0) g.key l (fl l) := by
    unfold writeLane
    simp only [hs, Bool.false_and, Bool.false_eq_true, if_false, hd, if_true]
    congr 1
    unfold destOf writeDest putRegs
    rw [if_pos h96]
    rw [show warpKey g.core g.slot g.warp = g.key from rfl]
    simp only [hx₀, hp]
  rw [hw]
  have hinj : ∀ a c, physReg g.core g.slot v l (32 * (v.lane l).window + d + a) = physReg g.core g.slot v l (32 * (v.lane l).window + d + c) →
      a = c := by
    intro a c h; unfold physReg regKey packageLanes at h; omega
  have hf := putRegs_frame b (fun k => physReg g.core g.slot v l (32 * (v.lane l).window + d + k)) (val l) 0
  refine ⟨?_, ?_, ?_, ?_, ?_⟩
  · intro _ _ m hm k hk
    simp only [List.mem_singleton] at hm; subst hm
    rw [reg_orFlags]
    have := putRegs_at b (fun k => physReg g.core g.slot v m (32 * (v.lane m).window + d + k)) hinj (val m) 0 k (by omega)
    simpa using this
  · intro key hkey
    rw [reg_orFlags]
    apply putRegs_other
    intro j _ hj
    exact hkey h96 hd l (by simp) j (by omega)
  · intro x hx hv
    have hx' : (putRegs b (fun k => physReg g.core g.slot v l (32 * (v.lane l).window + d + k)) (val l) 0).warpAt g.key = some x := by
      rw [hf]; exact hx
    refine ⟨_, by rw [orFlags, warpAt_onLanes_self, hx']; rfl, .onLanes .., fun k => ?_, fun m => ?_⟩
    · rw [sregs_onLanes]; simp [hs]
    · rw [lane_one (hv.count ▸ hl)]
      by_cases hm : m = l <;> simp [hm, hd]
  · intro k hk
    rw [orFlags, warpAt_onLanes_ne _ _ _ hk, hf]; rfl
  · unfold orFlags State.onLanes State.onWarp
    rw [hf]

theorem scalar_part {g : Group} {v : Warp} {b : State} {d n la : Nat} {val fl} {l : Nat} (hl : l < v.lanes.length)
    (hn : (val l).length = n) (hd : v.delay la = 0) (hs : isScalarDest d = true) :
    Part g v b (writeLane g v d n la b ⟨l, val l, fl l⟩ 0) d n la val fl [l] true := by
  have hw : writeLane g v d n la b ⟨l, val l, fl l⟩ 0 =
      orFlags (b.onWarp g.key fun w =>
        { w with sregs := ((val l).zipIdx).foldl (fun sr (x : PWord × Nat) => sr.set (d - 96 + x.2) x.1) w.sregs }) g.key l (fl l) := by
    unfold writeLane
    rw [if_neg (by simp), if_pos hd]
    congr 1
    simp only [isScalarDest, Bool.and_eq_true, decide_eq_true_eq] at hs
    unfold destOf writeDest
    rw [if_neg (by omega), if_pos hs.2]
    rfl
  rw [hw]
  refine ⟨?_, fun _ _ => rfl, ?_, ?_, rfl⟩
  · intro h; simp [isScalarDest] at hs; omega
  · intro x hx hv
    refine ⟨_, by rw [orFlags, warpAt_onLanes_self, warpAt_onWarp_self, hx]; rfl, ?_, fun k => ?_, fun m => ?_⟩
    · exact SameWarp.trans (b := { x with sregs := ((val l).zipIdx).foldl (fun sr (x : PWord × Nat) => sr.set (d - 96 + x.2) x.1) x.sregs })
        ⟨rfl, rfl⟩ (.onLanes ..)
    · rw [sregs_onLanes, sregs_set]
      simp only [hs, hd, hn, Nat.add_zero, List.head?_cons, true_and]
    · rw [lane_one (by exact hv.count ▸ hl)]
      by_cases hm : m = l
      · simp [hm, hd, lane_withSregs]
      · simp [hm, hd, lane_withSregs]
  · intro k hk
    rw [orFlags, warpAt_onLanes_ne _ _ _ hk, warpAt_onWarp_ne _ _ hk]

theorem discard_part {g : Group} {v : Warp} {b : State} {d n la : Nat} {val fl} {l i : Nat} (hl : l < v.lanes.length)
    (hd : v.delay la = 0) (h : 120 ≤ d) :
    Part g v b (writeLane g v d n la b ⟨l, val l, fl l⟩ i) d n la val fl [l] (i == 0) := by
  have hs : isScalarDest d = false := by simp [isScalarDest]; omega
  have hw : writeLane g v d n la b ⟨l, val l, fl l⟩ i = orFlags b g.key l (fl l) := by
    unfold writeLane destOf
    simp only [hs, Bool.false_and, Bool.false_eq_true, if_false, hd, if_true]
    rw [if_neg (by omega), if_neg (by omega)]
    rfl
  rw [hw]
  refine ⟨fun h' => by omega, fun _ _ => rfl, ?_, fun k hk => warpAt_onLanes_ne _ _ _ hk, rfl⟩
  intro x hx hv
  refine ⟨_, by simp [orFlags, hx]; rfl, .onLanes .., fun k => ?_, fun m => ?_⟩
  · rw [sregs_onLanes]; simp [hs]
  · rw [lane_one (hv.count ▸ hl)]
    by_cases hm : m = l <;> simp [hm, hd]

/-- One lane of writing results. -/
theorem writeLane_part {g : Group} {v : Warp} {b : State} {d n la : Nat} {val fl} {l i : Nat} (hl : l < v.lanes.length)
    (hn : (val l).length = n) {x₀ : Warp} (hx₀ : b.warpAt g.key = some x₀) (hv₀ : SameWarp v x₀) :
    Part g v b (writeLane g v d n la b ⟨l, val l, fl l⟩ i) d n la val fl [l] (i == 0) := by
  by_cases hs : isScalarDest d = true
  · by_cases hi : i = 0
    · subst hi
      by_cases hd : v.delay la = 0
      · exact scalar_part hl hn hd hs
      · exact delayed_part hl (fun _ => rfl) hd
    · have : writeLane g v d n la b ⟨l, val l, fl l⟩ i = orFlags b g.key l (fl l) := by
        unfold writeLane; rw [if_pos (by simp [hs, hi])]
      rw [this, show (i == 0) = false by simp [hi]]
      exact orFlags_part hl hs
  · by_cases hd : v.delay la = 0
    · by_cases h96 : d < 96
      · exact thread_part hl hn hd h96 hx₀ hv₀
      · refine discard_part hl hd ?_
        simp [isScalarDest] at hs; omega
    · exact delayed_part hl (fun h => absurd h hs) hd

/-- Parts compose: the head lane, then the rest, none of which is the group's first. -/
theorem Part.cons {g : Group} {v : Warp} {a b c : State} {d n la : Nat} {val fl} {l : Nat} {ls : List Nat} {first : Bool}
    (hl : l ∉ ls) (h32 : ∀ m ∈ l :: ls, m < 32) 
    (h : Part g v a b d n la val fl [l] first) (k : Part g v b c d n la val fl ls false) :
    Part g v a c d n la val fl (l :: ls) first := by
  refine ⟨?_, ?_, ?_, fun j hj => (k.others j hj).trans (h.others j hj), ?_⟩
  · intro h96 hd m hm i hi
    rcases List.mem_cons.1 hm with rfl | hm
    · rw [k.registers, h.thread h96 hd m (by simp) i hi]
      intro _ _ m' hm' i' _ e
      have := (physReg_inj (h32 m (by simp)) (h32 m' (by simp [hm'])) e).1
      exact hl (this ▸ hm')
    · exact k.thread h96 hd m hm i hi
  · intro key hkey
    rw [k.registers, h.registers]
    · intro h96 hd m hm i hi
      simp only [List.mem_singleton] at hm; subst hm
      exact hkey h96 hd m (by simp) i hi
    · exact fun h96 hd m hm i hi => hkey h96 hd m (by simp [hm]) i hi
  · intro x hx hv
    obtain ⟨u, hu, su, hus, hul⟩ := h.warp x hx hv
    obtain ⟨y, hy, sy, hys, hyl⟩ := k.warp u hu (hv.trans su)
    refine ⟨y, hy, su.trans sy, fun i => ?_, fun m => ?_⟩
    · rw [hys i, if_neg (by simp), hus i]; rfl
    · rw [hyl m, hul m]
      by_cases hm : m = l
      · subst hm
        simp [hl]
      · by_cases hml : m ∈ ls
        · by_cases hsc : isScalarDest d = true
          · simp [hm, Ne.symm hm, hml, hsc]
          · simp [hm, Ne.symm hm, hml, hsc]
        · simp [hm, Ne.symm hm, hml]
  · rw [k.outside, h.outside]

theorem writeLanes_part {g : Group} {v : Warp} {d n la : Nat} {val fl} (ls : List Nat) :
    ∀ (b : State) (i : Nat) (x₀ : Warp), b.warpAt g.key = some x₀ → SameWarp v x₀ → ls.Nodup → (∀ l ∈ ls, l < 32 ∧ l < v.lanes.length) →
      (∀ l ∈ ls, (val l).length = n) →
      Part g v b (((ls.map fun l => (⟨l, val l, fl l⟩ : LaneResult)).zipIdx i).foldl (fun s x => writeLane g v d n la s x.1 x.2) b)
        d n la val fl ls (i == 0) := by
  induction ls with
  | nil =>
    intro b i x₀ hx hv _ _ _
    refine ⟨by simp, fun _ _ => rfl, ?_, fun _ _ => rfl, rfl⟩
    intro x hx _
    refine ⟨x, hx, .refl x, fun k => ?_, fun m => ?_⟩
    · simp
    · simp
  | cons l ls ih =>
    intro b i x₀ hx hv hnd hlt hlen
    obtain ⟨hl, hnd'⟩ := List.nodup_cons.1 hnd
    have h1 := writeLane_part (g := g) (b := b) (d := d) (n := n) (la := la) (val := val) (fl := fl) (i := i)
      (hlt l (by simp)).2 (hlen l (by simp)) hx hv
    obtain ⟨u, hu, su, -, -⟩ := h1.warp x₀ hx hv
    have h2 := ih _ (i + 1) u hu (hv.trans su) hnd' (fun m hm => hlt m (by simp [hm])) (fun m hm => hlen m (by simp [hm]))
    exact Part.cons hl (fun m hm => (hlt m hm).1) h1 (by simpa using h2)

/-- Writing the results of an issue does what `Wrote` says. -/
theorem writeResults_wrote {g : Group} {v : Warp} {b : State} {d n la : Nat} {val fl} (hb : b.warpAt g.key = some v) (hn : g.lanes.Nodup)
    (hl : ∀ l ∈ g.lanes, l < 32 ∧ l < v.lanes.length) (hv : ∀ l ∈ g.lanes, (val l).length = n) :
    Wrote g v b (writeResults b g v d n la (g.lanes.map fun l => ⟨l, val l, fl l⟩)) d n la val fl := by
  rw [writeResults_eq]
  have h := writeLanes_part (g := g) (v := v) (d := d) (n := n) (la := la) (val := val) (fl := fl) g.lanes b 0 v hb (.refl v) hn hl hv
  obtain ⟨u, hu, su, hus, hul⟩ := h.warp v hb (.refl v)
  refine ⟨h.thread, h.registers, ⟨u, hu, su.rest, su.count, fun k => ?_, fun l => ?_⟩, h.others, h.outside⟩
  · rw [hus k]
    cases g.lanes.head? <;> by_cases hs : isScalarDest d = true <;> simp [hs]
  · rw [hul l]
    unfold writesField
    by_cases hm : l ∈ g.lanes <;> by_cases hs : isScalarDest d = true <;> simp [hm, hs]

end Sys2Proof.Machine
end

