-- ==== Sys2Proof/Laws/Issue.lean ====
section
/-! SUPPORT. What an issue does around its instruction: the state it starts from, and how it completes. -/

namespace Sys2Proof.Machine

/-- The commits of an issue change registers of the machine, and of the group's warp its lanes and scalar registers. -/
structure Committed (k : Nat) (b e : State) : Prop where
  outside : e = { b with thr := { b.thr with regs := e.thr.regs, warps := e.thr.warps } }
  others : ∀ j, j ≠ k → e.warpAt j = b.warpAt j
  warp : ∀ x, b.warpAt k = some x → ∃ u, e.warpAt k = some u ∧ SameWarp x u ∧ ∀ l, (u.lane l).present = (x.lane l).present ∧
    (u.lane l).window = (x.lane l).window ∧ (u.lane l).preds = (x.lane l).preds ∧ (u.lane l).predPoison = (x.lane l).predPoison ∧
    (u.lane l).exited = (x.lane l).exited ∧ (u.lane l).park = (x.lane l).park

theorem Committed.refl (k : Nat) (b : State) : Committed k b b :=
  ⟨rfl, fun _ _ => rfl, fun x hx => ⟨x, hx, .refl x, fun _ => ⟨rfl, rfl, rfl, rfl, rfl, rfl⟩⟩⟩

theorem Committed.trans {k : Nat} {a b c : State} (h : Committed k a b) (h' : Committed k b c) : Committed k a c := by
  refine ⟨by rw [h'.outside, h.outside], fun j hj => (h'.others j hj).trans (h.others j hj), fun x hx => ?_⟩
  obtain ⟨u, hu, su, lu⟩ := h.warp x hx
  obtain ⟨y, hy, sy, ly⟩ := h'.warp u hu
  refine ⟨y, hy, su.trans sy, fun l => ?_⟩
  obtain ⟨a1, a2, a3, a4, a5, a6⟩ := lu l
  obtain ⟨b1, b2, b3, b4, b5, b6⟩ := ly l
  exact ⟨b1.trans a1, b2.trans a2, b3.trans a3, b4.trans a4, b5.trans a5, b6.trans a6⟩

/-- An update of lanes that leaves presence, window, predicates and parking. -/
theorem Committed.onLanes (k : Nat) (b : State) (ls : List Nat) {f : Lane → Lane}
    (hf : ∀ x, (f x).present = x.present ∧ (f x).window = x.window ∧ (f x).preds = x.preds ∧ (f x).predPoison = x.predPoison ∧
      (f x).exited = x.exited ∧ (f x).park = x.park) : Committed k b (b.onLanes k ls f) := by
  refine ⟨rfl, fun j hj => warpAt_onLanes_ne _ _ _ hj, fun x hx => ⟨x.onLanes ls f, by simp [hx], .onLanes .., ?_⟩⟩
  clear hx
  induction ls generalizing x with
  | nil => exact fun _ => ⟨rfl, rfl, rfl, rfl, rfl, rfl⟩
  | cons m ls ih =>
    intro l
    obtain ⟨a1, a2, a3, a4, a5, a6⟩ := ih (x.onLane m f) l
    rw [onLanes_cons]
    have : ((x.onLane m f).lane l).present = (x.lane l).present ∧ ((x.onLane m f).lane l).window = (x.lane l).window ∧
        ((x.onLane m f).lane l).preds = (x.lane l).preds ∧ ((x.onLane m f).lane l).predPoison = (x.lane l).predPoison ∧
        ((x.onLane m f).lane l).exited = (x.lane l).exited ∧ ((x.onLane m f).lane l).park = (x.lane l).park := by
      rw [lane_onLane]; split
      · exact hf _
      · exact ⟨rfl, rfl, rfl, rfl, rfl, rfl⟩
    obtain ⟨b1, b2, b3, b4, b5, b6⟩ := this
    exact ⟨a1.trans b1, a2.trans b2, a3.trans b3, a4.trans b4, a5.trans b5, a6.trans b6⟩

theorem putRegs_committed (k : Nat) (b : State) (key : Nat → Nat) (vals : List PWord) (i : Nat) : Committed k b (putRegs b key vals i) := by
  have h := putRegs_frame b key vals i
  refine ⟨by rw [h], fun j _ => by rw [h]; rfl, fun x hx => ⟨x, by rw [h]; exact hx, .refl x, fun _ => ⟨rfl, rfl, rfl, rfl, rfl, rfl⟩⟩⟩

theorem writeDest_committed (b : State) (core slot n l : Nat) (d : Dest) (vals : List PWord) :
    Committed (warpKey core slot n) b (writeDest b core slot n l d vals) := by
  unfold writeDest
  cases d with
  | v r c =>
    simp only
    split
    · exact putRegs_committed _ b (fun i => physReg core slot _ l (r + i)) vals 0
    · exact .refl ..
  | s r c =>
    refine ⟨rfl, fun j hj => warpAt_onWarp_ne _ _ hj, fun x hx => ?_⟩
    refine ⟨{ x with sregs := vals.zipIdx.foldl (fun sr (v, i) => sr.set (r + i) v) x.sregs }, ?_, ⟨rfl, rfl⟩, fun _ =>
      ⟨rfl, rfl, rfl, rfl, rfl, rfl⟩⟩
    rw [warpAt_onWarp_self, hx]; rfl
  | tile t => exact .refl ..
  | discard => exact .refl ..

theorem orFlags_committed (b : State) (k l : Nat) (f : BitVec 5) : Committed k b (orFlags b k l f) :=
  .onLanes _ _ _ fun _ => ⟨rfl, rfl, rfl, rfl, rfl, rfl⟩

theorem commitEntries_committed (g : Group) (l : Nat) (due : List Commit) (b : State) : Committed g.key b
    (due.foldl (fun s c => orFlags (writeDest s g.core g.slot g.warp l c.dest (c.value.getD [])) g.key l c.flags) b) := by
  induction due generalizing b with
  | nil => exact .refl ..
  | cons c due ih =>
    exact ((writeDest_committed b g.core g.slot g.warp l _ _).trans (orFlags_committed _ g.key l c.flags)).trans (ih _)

theorem commitLane_committed (b : State) (g : Group) (l : Nat) : Committed g.key b (commitLane b g l) := by
  unfold commitLane
  simp only
  split
  · exact .refl ..
  · split
    · exact .refl ..
    · refine Committed.trans ?_ (commitEntries_committed ..)
      exact .onLanes _ _ _ fun _ => ⟨rfl, rfl, rfl, rfl, rfl, rfl⟩

theorem commitDue_committed (b : State) (g : Group) : Committed g.key b (commitDue b g) := by
  unfold commitDue
  generalize g.lanes = ls
  induction ls generalizing b with
  | nil => exact .refl ..
  | cons l ls ih => exact (commitLane_committed b g l).trans (ih _)

/-- The state that an issue starts from: registers, and lanes and scalar registers of the warp, may have changed. -/
theorem begun_committed (s : State) (g : Group) : Committed g.key s (s.begun g) :=
  (commitDue_committed s g).trans (.onLanes _ _ _ fun _ => ⟨rfl, rfl, rfl, rfl, rfl, rfl⟩)

/-- The warp of a group when its instruction reads its operands. -/
theorem Issues.issuing {i : Instr} {g : Group} {w : Warp} {s : State} (h : Issues i g w s) : ∃ v, (s.issuing g).warpAt g.key = some v ∧
    SameWarp w v ∧ (∀ l ∈ g.lanes, l < 32 ∧ l < v.lanes.length) ∧ (∀ l, (v.lane l).present = (w.lane l).present ∧
      (v.lane l).window = (w.lane l).window ∧ (v.lane l).preds = (w.lane l).preds ∧ (v.lane l).predPoison = (w.lane l).predPoison ∧
      (v.lane l).exited = (w.lane l).exited ∧ (v.lane l).park = (w.lane l).park) := by
  obtain ⟨v, hv, sv, lv⟩ := (begun_committed s.unchoose g).warp w h.warp
  refine ⟨v, hv, sv, fun l hl => ⟨(h.present l hl).1, ?_⟩, lv⟩
  exact lt_of_present ((lv l).1.trans (h.present l hl).2)

/-- The static checks pass. -/
theorem Issues.static {i : Instr} {g : Group} {w : Warp} {s : State} (h : Issues i g w s) (word : Nat) :
    laneFails g.lanes (staticFail w i word) = [] := by
  unfold laneFails
  rw [List.filterMap_eq_nil_iff]
  intro l hl
  have : staticFail w i word l = none := by
    unfold staticFail
    rw [if_neg (by simp [h.legal])]
    rw [if_neg (by
      intro hc
      simp only [Bool.and_eq_true, Bool.not_eq_true'] at hc
      exact absurd (h.mode hc.1) (by simp [hc.2]))]
    by_cases ho : i.opcode = 0x59
    · simp [ho]
    · simp [ho, h.window ho l hl]
  simp [this]

theorem protectedCheck_unprotected {w : Warp} (h : w.protected' = false) (k : Nat) (ls : List Nat) (r : IssueResult) :
    protectedCheck w k ls r = r := by
  unfold protectedCheck; simp [h]

/-- An attempt by an unprotected group whose checks pass is the run of the instruction. -/
theorem attemptIssue_eq {i : Instr} {g : Group} {w : Warp} {s : State} (h : Issues i g w s) (word : Nat)
    (run : Group → State → IssueResult) : attemptIssue i word run g s.unchoose = run g (s.issuing g) := by
  unfold attemptIssue
  rw [warpAt_unchoose, h.warp]
  simp only [h.static, List.isEmpty_nil, Bool.not_true, Bool.false_eq_true, if_false]
  exact protectedCheck_unprotected h.unprotected ..

/-- An issue whose run is done completes with its effect. -/
theorem issueWord_done {i : Instr} {g : Group} {w : Warp} {s : State} (h : Issues i g w s) {run : Group → State → IssueResult} {sigs : List Sig}
    {e : State} (hr : run g (s.issuing g) = .done sigs e) : ∃ t, issueWord i run s = .next t ∧ Ended g e t := by
  refine ⟨_, ?_, afterIssue_ended i (endsRun i g s.unchoose) g w e⟩
  unfold issueWord
  rw [h.chosen]
  simp only [attemptIssue_eq h, hr, settleIssue, warpAt_unchoose, h.warp]

/-- An issue whose run traps takes the trap on the state before it. -/
theorem issueWord_trap {i : Instr} {g : Group} {w : Warp} {s : State} (h : Issues i g w s) {run : Group → State → IssueResult} {sigs : List Sig}
    {fails : List (Nat × Fail)} {t : TrapInfo} (hr : run g (s.issuing g) = .trap sigs fails) (ht : resolveTrap fails = some t) :
    issueWord i run s = .next (trapEntry (s.unchoose.dropWalkFaults g.core w.ctx.toNat) g.key t g.pc g.rep) := by
  unfold issueWord
  rw [h.chosen]
  simp only [attemptIssue_eq h, hr, settleIssue, warpAt_unchoose, h.warp, ht]

/-- An instruction whose run is done under a condition achieves what its effect satisfies. -/
theorem achieves_of {i : Instr} {ok : Cond} {P : State → Group → Warp → State → Prop} {run : Group → State → IssueResult}
    (he : ∀ s, exec i s = issueWord i run s)
    (hr : ∀ g w s v, Issues i g w s → (s.issuing g).warpAt g.key = some v → ok (s.issuing g) g v →
      ∃ sigs e, run g (s.issuing g) = .done sigs e ∧ P (s.issuing g) g v e) : Achieves i ok P := by
  intro g w s v h hv ho
  obtain ⟨sigs, e, hd, hp⟩ := hr g w s v h hv ho
  obtain ⟨t, ht, et⟩ := issueWord_done h hd
  exact ⟨e, ⟨t, (he s).trans ht, et⟩, hp⟩

/-- An instruction whose run is done under a condition with an effect. -/
theorem does_of {i : Instr} {ok : Cond} {E : State → Group → Warp → State} {run : Group → State → IssueResult}
    (he : ∀ s, exec i s = issueWord i run s)
    (hr : ∀ g w s v, Issues i g w s → (s.issuing g).warpAt g.key = some v → ok (s.issuing g) g v →
      ∃ sigs, run g (s.issuing g) = .done sigs (E (s.issuing g) g v)) : Does i ok E := by
  intro g w s v h hv ho
  obtain ⟨sigs, hd⟩ := hr g w s v h hv ho
  obtain ⟨t, ht, et⟩ := issueWord_done h hd
  exact ⟨t, (he s).trans ht, et⟩

/-- An instruction whose run traps under a condition. -/
theorem traps_of {i : Instr} {bad : Cond} {t : State → Group → Warp → TrapInfo} {run : Group → State → IssueResult}
    (he : ∀ s, exec i s = issueWord i run s)
    (hr : ∀ g w s v, Issues i g w s → (s.issuing g).warpAt g.key = some v → bad (s.issuing g) g v →
      ∃ sigs fails, run g (s.issuing g) = .trap sigs fails ∧ resolveTrap fails = some (t (s.issuing g) g v)) : Traps i bad t := by
  intro g w s v h hv hb
  obtain ⟨sigs, fails, hd, ht⟩ := hr g w s v h hv hb
  exact (he s).trans (issueWord_trap h hd ht)

/-- The lanes of the group are in the warp's list when the instruction reads its operands. -/
theorem Issues.lengths {i : Instr} {g : Group} {w v : Warp} {s : State} (h : Issues i g w s) (hv : (s.issuing g).warpAt g.key = some v) :
    ∀ l ∈ g.lanes, l < 32 ∧ l < v.lanes.length := by
  obtain ⟨v', hv', -, hl, -⟩ := h.issuing
  rw [hv] at hv'; cases hv'
  exact hl

/-- An instruction whose run computes words for its lanes has lane results. -/
theorem runLanes_results {i : Instr} {d : BitVec 7} {n la : Nat} {f : LaneFn} {ok : Cond}
    {run : Group → State → IssueResult} (he : ∀ s, exec i s = issueWord i run s)
    (hr : ∀ g s, run g s = runLanes g s d.toNat n la (f s g)) (hl : ∀ s g w l, ((f s g w l).1).length = n) : LaneResults i ok d n la f := by
  refine achieves_of he fun g w s v h hv _ => ⟨[], _, ?_, writeResults_wrote (val := fun l => (f (s.issuing g) g v l).1)
    (fl := fun l => (f (s.issuing g) g v l).2) hv h.lanes (h.lengths hv) fun l _ => hl _ _ _ l⟩
  rw [hr]; unfold runLanes; rw [hv]

/-- Changing the lanes of a group one after another. -/
theorem foldLanes_changed {g : Group} {v : Warp} {b : State} (F : Nat → Lane → Lane) (hv : b.warpAt g.key = some v) (hn : g.lanes.Nodup)
    (hl : ∀ l ∈ g.lanes, l < v.lanes.length) : LanesChanged g v b (g.lanes.foldl (fun s l => s.onLanes g.key [l] (F l)) b) F := by
  have key : ∀ (ls : List Nat) (b : State) (x : Warp), b.warpAt g.key = some x → ls.Nodup → (∀ l ∈ ls, l < x.lanes.length) →
      (∃ u, (ls.foldl (fun s l => s.onLanes g.key [l] (F l)) b).warpAt g.key = some u ∧ u = { x with lanes := u.lanes } ∧
        u.lanes.length = x.lanes.length ∧ ∀ l, u.lane l = if l ∈ ls then F l (x.lane l) else x.lane l) ∧
      (∀ k, k ≠ g.key → (ls.foldl (fun s l => s.onLanes g.key [l] (F l)) b).warpAt k = b.warpAt k) ∧
      ls.foldl (fun s l => s.onLanes g.key [l] (F l)) b = { b with thr := { b.thr with
        warps := (ls.foldl (fun s l => s.onLanes g.key [l] (F l)) b).thr.warps } } := by
    intro ls
    induction ls with
    | nil => exact fun b x hx _ _ => ⟨⟨x, hx, rfl, rfl, fun _ => by simp⟩, fun _ _ => rfl, rfl⟩
    | cons l ls ih =>
      intro b x hx hn hl
      obtain ⟨hm, hn'⟩ := List.nodup_cons.1 hn
      have hx' : (b.onLanes g.key [l] (F l)).warpAt g.key = some (x.onLanes [l] (F l)) := by simp [hx]
      obtain ⟨⟨u, hu, ur, uc, ul⟩, ho, hs⟩ := ih (b.onLanes g.key [l] (F l)) (x.onLanes [l] (F l)) hx' hn'
        (fun m hm => by rw [onLanes_length]; exact hl m (by simp [hm]))
      refine ⟨⟨u, hu, ?_, by rw [uc, onLanes_length], fun m => ?_⟩, fun k hk => ?_, ?_⟩
      · rw [ur, onLanes_rest]
      · rw [ul m, lane_one (hl l (by simp))]
        by_cases hml : m = l
        · subst hml; simp [hm]
        · simp [hml]
      · rw [List.foldl_cons, ho k hk, warpAt_onLanes_ne _ _ _ hk]
      · rw [List.foldl_cons, hs]; rfl
  obtain ⟨a, c, d⟩ := key g.lanes b v hv hn hl
  exact ⟨a, c, d⟩

/-- Changing the lanes of a group at once. -/
theorem onLanes_changed {g : Group} {v : Warp} {b : State} (f : Lane → Lane) (hv : b.warpAt g.key = some v) (hn : g.lanes.Nodup)
    (hl : ∀ l ∈ g.lanes, l < v.lanes.length) : LanesChanged g v b (b.onLanes g.key g.lanes f) fun _ => f := by
  refine ⟨⟨v.onLanes g.lanes f, by simp [hv], onLanes_rest .., by simp, fun l => ?_⟩, fun k hk => warpAt_onLanes_ne _ _ _ hk, rfl⟩
  by_cases h : l ∈ g.lanes
  · rw [if_pos h, lane_onLanes_of_mem _ _ _ _ hn h (hl l h)]
  · rw [if_neg h, lane_onLanes_of_not_mem _ _ _ _ h]

/-- Two updates of a lane in a row are one. -/
theorem onLanes_onLanes_one (s : State) (k l : Nat) (f h : Lane → Lane) :
    (s.onLanes k [l] f).onLanes k [l] h = s.onLanes k [l] fun x => h (f x) := by
  have hm : ∀ m : NMap Warp, NMap.adjust k (·.onLanes [l] h) (NMap.adjust k (·.onLanes [l] f) m) =
      NMap.adjust k (·.onLanes [l] fun x => h (f x)) m := by
    intro m
    induction m with
    | nil => rfl
    | cons x m ih =>
      obtain ⟨j, u⟩ := x
      by_cases hj : j = k
      · subst hj
        simp only [NMap.adjust, if_true]
        congr 2
        simp only [onLanes_cons, onLanes_nil, Warp.onLane]
        congr 1
        apply List.ext_getElem?
        intro i
        simp only [List.getElem?_modify]
        cases u.lanes[i]? <;> by_cases hi : l = i <;> simp [hi]
      · simp only [NMap.adjust, if_neg hj, ih]
  unfold State.onLanes State.onWarp
  simp only [hm]

/-- An instruction whose run writes a predicate of every lane. -/
theorem runPredicate_effects {i : Instr} {p : BitVec 3} {f : State → Group → Warp → Nat → Bool × Bool × BitVec 5} {ok : Cond}
    {run : Group → State → IssueResult} (he : ∀ s, exec i s = issueWord i run s)
    (hr : ∀ g s, run g s = runPredicate p.toNat (f s g) g s) :
    LaneEffects i ok fun b g v l x =>
      let y := x.setPred p.toNat (f b g v l).1 (f b g v l).2.1
      { y with flags := y.flags ||| (f b g v l).2.2 } := by
  refine achieves_of he fun g w s v h hv _ => ⟨[], _, ?_, foldLanes_changed _ hv h.lanes fun l hl => (h.lengths hv l hl).2⟩
  rw [hr]; unfold runPredicate; rw [hv]
  simp only [orFlags, writePred, onLanes_onLanes_one]

end Sys2Proof.Machine
end

