-- ==== Sys2Proof/Laws/CrossLane.lean ====
section
/-! SUPPORT. How a cross-lane instruction runs: arriving, parking and executing (R27, R28). -/

namespace Sys2Proof.Machine

/-! Updates of one warp compose. -/

theorem adjust_adjust (k : Nat) (f h : α → α) (m : NMap α) : NMap.adjust k h (NMap.adjust k f m) = NMap.adjust k (fun x => h (f x)) m := by
  induction m with
  | nil => rfl
  | cons x m ih =>
    obtain ⟨j, u⟩ := x
    by_cases hj : j = k
    · simp [NMap.adjust, hj]
    · simp only [NMap.adjust, if_neg hj, ih]

theorem adjust_fixed {k : Nat} {f : α → α} {m : NMap α} {x : α} (h : m.find k = some x) (hf : f x = x) : NMap.adjust k f m = m := by
  induction m with
  | nil => rfl
  | cons y m ih =>
    obtain ⟨j, u⟩ := y
    by_cases hj : j = k
    · subst hj
      simp only [NMap.find, if_true, Option.some.injEq] at h
      simp [NMap.adjust, h, hf]
    · simp only [NMap.find, if_neg hj] at h
      simp only [NMap.adjust, if_neg hj, ih h]

theorem onWarp_onWarp (s : State) (k : Nat) (f h : Warp → Warp) : (s.onWarp k f).onWarp k h = s.onWarp k fun w => h (f w) := by
  unfold State.onWarp; simp only [adjust_adjust]

theorem onWarp_fixed {s : State} {k : Nat} {f : Warp → Warp} {v : Warp} (h : s.warpAt k = some v) (hf : f v = v) : s.onWarp k f = s := by
  unfold State.onWarp; rw [adjust_fixed h hf]

/-- Changing lanes one after another is one change of the warp. -/
theorem foldOnLanes_eq (ls : List Nat) (F : Nat → Lane → Lane) (k : Nat) (b : State) :
    ls.foldl (fun s l => s.onLanes k [l] (F l)) b = b.onWarp k fun w => ls.foldl (fun w l => w.onLanes [l] (F l)) w := by
  induction ls generalizing b with
  | nil =>
    simp only [List.foldl_nil]
    unfold State.onWarp
    have : ∀ m : NMap Warp, NMap.adjust k (fun w => w) m = m := by
      intro m
      induction m with
      | nil => rfl
      | cons y m ih => unfold NMap.adjust; split <;> simp [ih]
    rw [this]
  | cons l ls ih => rw [List.foldl_cons, ih]; exact onWarp_onWarp ..

/-- Warps are equal when they differ in their lanes alone and the lanes are equal one by one. -/
theorem warp_ext {v u : Warp} (hr : u = { v with lanes := u.lanes }) (hc : u.lanes.length = v.lanes.length) (hl : ∀ l, u.lane l = v.lane l) :
    u = v := by
  have : u.lanes = v.lanes := by
    apply List.ext_getElem hc
    intro i h1 h2
    have := hl i
    simpa [Warp.lane, List.getD_eq_getElem?_getD, List.getElem?_eq_getElem h1, List.getElem?_eq_getElem h2] using this
  rw [hr, this]

/-- What reading operands takes from a warp. -/
structure SameRead (v u : Warp) : Prop where
  rest : u = { v with lanes := u.lanes }
  count : u.lanes.length = v.lanes.length
  window : ∀ l, (u.lane l).window = (v.lane l).window
  preds : ∀ l, (u.lane l).preds = (v.lane l).preds
  predPoison : ∀ l, (u.lane l).predPoison = (v.lane l).predPoison

theorem SameRead.readField {v u : Warp} (h : SameRead v u) (s : State) (g : Group) (l n : Nat) : readField s g u l n = readField s g v l n := by
  have hr := h.rest
  unfold Machine.readField State.vreg physReg Warp.phys Warp.visible Warp.width Warp.protected' State.wgId
  rw [h.window]
  rw [hr]

theorem SameRead.readPair {v u : Warp} (h : SameRead v u) (s : State) (g : Group) (l n : Nat) : readPair s g u l n = readPair s g v l n := by
  unfold Machine.readPair; rw [h.readField, h.readField]

theorem SameRead.readPred {v u : Warp} (h : SameRead v u) (l p : Nat) : readPred u l p = readPred v l p := by
  unfold Machine.readPred; rw [h.preds, h.predPoison]

theorem SameRead.protected {v u : Warp} (h : SameRead v u) : u.protected' = v.protected' := by
  rw [h.rest]; rfl

theorem SameRead.writeResults {v u : Warp} (h : SameRead v u) (s : State) (g : Group) (d n la : Nat) (rs : List LaneResult) :
    writeResults s g u d n la rs = writeResults s g v d n la rs := by
  have hr : u.inHandler = v.inHandler := by rw [h.rest]
  unfold Machine.writeResults destOf
  simp only [hr, h.window]

/-- Strictly rising lists with the same members are equal. -/
theorem eq_of_rising {xs ys : List Nat} (hx : xs.Pairwise (· < ·)) (hy : ys.Pairwise (· < ·)) (h : ∀ a, a ∈ xs ↔ a ∈ ys) : xs = ys := by
  have p : xs.Perm ys := (List.perm_ext_iff_of_nodup (hx.imp fun h => Nat.ne_of_lt h) (hy.imp fun h => Nat.ne_of_lt h)).2 h
  exact p.eq_of_pairwise (fun a b _ _ h1 h2 => absurd h1 (Nat.lt_asymm h2)) hx hy

theorem range_rising (n : Nat) (p : Nat → Bool) : ((List.range n).filter p).Pairwise (· < ·) :=
  List.Pairwise.filter _ (List.pairwise_lt_range)

/-- The opcode of an instruction is the opcode field of its word. -/
theorem opcode_of {i : Instr} {w : Word} {rest : List Word} (h : encode i = w :: rest) : i.opcode = (w.extractLsb' 24 7).toNat := by
  unfold Instr.opcode; rw [h]

/-- The instructions with a member mask are those of opcodes 0x23 to 0x27. -/
theorem isCrossLane_of_maskField {i : Instr} {d : BitVec 7} (h : maskField i = some d) : isCrossLane i = true := by
  unfold isCrossLane
  unfold maskField at h
  split at h
  all_goals first
    | (rw [opcode_of rfl]
       repeat rw [extract_skip _ _ _ _ (by decide)]
       rw [extract_within _ _ _ _ (by decide), extract_all]
       rfl)
    | cases h

/-! Arriving. -/

/-- The parked form of a lane. -/
def parkedLane (i : Instr) (g : Group) (m : PWord) (x : Lane) : Lane :=
  { x with pc := x.pc - 4, rep := g.rep, park := some ⟨i, m.val, m.poison⟩ }

/-- Passing the word after parking at it. -/
theorem pass_parkedLane (i : Instr) (g : Group) (m : PWord) {x : Lane} (hz : x.rep = 0) :
    { parkedLane i g m x with pc := (parkedLane i g m x).pc + 4, rep := 0 } = { x with park := some ⟨i, m.val, m.poison⟩ } := by
  obtain ⟨⟩ := x
  dsimp only at hz
  subst hz
  dsimp only [parkedLane]
  rw [BitVec.sub_add_cancel]

theorem unpark_lane {x : Lane} (p : Option Park) (hz : x.park = none) : { ({ x with park := p } : Lane) with park := none } = x := by
  obtain ⟨⟩ := x
  dsimp only at hz
  subst hz
  rfl

theorem rest_onLanes {v u : Warp} (h : u = { v with lanes := u.lanes }) (ls : List Nat) (f : Lane → Lane) :
    u.onLanes ls f = { v with lanes := (u.onLanes ls f).lanes } := by
  have e := onLanes_rest u ls f
  generalize (u.onLanes ls f).lanes = x at e ⊢
  rw [e, h]

theorem parkLanes_eq {i : Instr} {mask : Warp → Nat → PWord} {g : Group} {b : State} {v : Warp} (hv : b.warpAt g.key = some v) :
    parkLanes i mask g b = g.lanes.foldl (fun s l => s.onLanes g.key [l] (parkedLane i g (mask v l))) b := by
  unfold parkLanes parkedLane; rw [hv]

theorem parkLanes_changed {i : Instr} {mask : Warp → Nat → PWord} {g : Group} {b : State} {v : Warp} (hv : b.warpAt g.key = some v)
    (hn : g.lanes.Nodup) (hl : ∀ l ∈ g.lanes, l < v.lanes.length) :
    LanesChanged g v b (parkLanes i mask g b) fun l => parkedLane i g (mask v l) := by
  rw [parkLanes_eq hv]; exact foldLanes_changed _ hv hn hl

/-! The commits of a release do not see where lanes stand or are parked (R51). -/

/-- Changes of a warp that leave alone what operands are read from and the entries of its lanes, and pass by changes of entries, flags and
scalar registers. -/
structure Aside (h : Warp → Warp) : Prop where
  same : ∀ w, SameRead w (h w)
  commits : ∀ w l, ((h w).lane l).commits = (w.lane l).commits
  entries : ∀ w l c, h (w.onLanes [l] fun x => { x with commits := c }) = (h w).onLanes [l] fun x => { x with commits := c }
  flags : ∀ w l f, h (w.onLanes [l] fun x => { x with flags := x.flags ||| f }) = (h w).onLanes [l] fun x => { x with flags := x.flags ||| f }
  sregs : ∀ w r, h { w with sregs := r } = { h w with sregs := r }

theorem onLane_comm (w : Warp) (l m : Nat) (f h : Lane → Lane) (hc : ∀ x, f (h x) = h (f x)) :
    (w.onLane l f).onLane m h = (w.onLane m h).onLane l f := by
  refine warp_ext rfl (by simp) fun n => ?_
  simp only [lane_onLane, onLane_length]
  split <;> split <;> simp_all

theorem SameRead.trans {v u t : Warp} (h : SameRead v u) (h' : SameRead u t) : SameRead v t :=
  ⟨by rw [h'.rest, h.rest], h'.count.trans h.count, fun l => (h'.window l).trans (h.window l), fun l => (h'.preds l).trans (h.preds l),
    fun l => (h'.predPoison l).trans (h.predPoison l)⟩

theorem Aside.one (l : Nat) (p : VAddr → VAddr) (r : Nat → Nat) (q : Option Park → Option Park) :
    Aside fun w => w.onLane l fun x => { x with pc := p x.pc, rep := r x.rep, park := q x.park } where
  same w := by
    refine ⟨rfl, by simp, fun m => ?_, fun m => ?_, fun m => ?_⟩ <;> rw [lane_onLane] <;> split <;> rfl
  commits w m := by rw [lane_onLane]; split <;> rfl
  entries w m c := onLane_comm w m l _ _ fun _ => rfl
  flags w m f := onLane_comm w m l _ _ fun _ => rfl
  sregs _ _ := rfl

theorem Aside.comp {f h : Warp → Warp} (hf : Aside f) (hh : Aside h) : Aside fun w => h (f w) where
  same w := (hf.same w).trans (hh.same (f w))
  commits w l := by rw [hh.commits, hf.commits]
  entries w l c := by rw [hf.entries, hh.entries]
  flags w l x := by rw [hf.flags, hh.flags]
  sregs w r := by rw [hf.sregs, hh.sregs]

theorem Aside.none : Aside fun w => w := ⟨fun _ => ⟨rfl, rfl, fun _ => rfl, fun _ => rfl, fun _ => rfl⟩, fun _ _ => rfl, fun _ _ _ => rfl, fun _ _ _ => rfl, fun _ _ => rfl⟩

/-- Moving and parking lanes are such changes. -/
theorem Aside.lanes (ls : List Nat) (p : VAddr → VAddr) (r : Nat → Nat) (q : Nat → Option Park → Option Park) :
    Aside fun w => ls.foldl (fun w l => w.onLanes [l] fun x => { x with pc := p x.pc, rep := r x.rep, park := q l x.park }) w := by
  induction ls with
  | nil => exact Aside.none
  | cons l ls ih => exact (Aside.one l p r (q l)).comp ih

theorem onWarp_setReg (s : State) (k key : Nat) (v : PWord) (h : Warp → Warp) : (s.onWarp k h).setReg key v = (s.setReg key v).onWarp k h := rfl

theorem onWarp_absent {s : State} {k : Nat} (h : Warp → Warp) (hn : s.warpAt k = none) : s.onWarp k h = s := by
  unfold State.onWarp
  unfold State.warpAt at hn
  have : ∀ m : NMap Warp, m.find k = none → NMap.adjust k h m = m := by
    intro m
    induction m with
    | nil => intro _; rfl
    | cons y m ih =>
      obtain ⟨j, u⟩ := y
      by_cases hj : j = k
      · simp [NMap.find, hj]
      · intro hm
        simp only [NMap.find, if_neg hj] at hm
        simp only [NMap.adjust, if_neg hj, ih hm]
  rw [this _ hn]

theorem Aside.writeDest {h : Warp → Warp} (ha : Aside h) (s : State) (core slot n l : Nat) (d : Dest) (vals : List PWord) :
    writeDest (s.onWarp (warpKey core slot n) h) core slot n l d vals = (writeDest s core slot n l d vals).onWarp (warpKey core slot n) h := by
  unfold Machine.writeDest
  cases d with
  | v r c =>
    simp only [warpAt_onWarp_self]
    cases hw : s.warpAt (warpKey core slot n) with
    | none => rfl
    | some w =>
      have hp : ∀ x, physReg core slot (h w) l x = physReg core slot w l x := by
        intro x; rw [(ha.same w).rest]; rfl
      simp only [Option.map_some, hp]
      generalize vals.zipIdx = xs
      clear hw
      induction xs generalizing s with
      | nil => rfl
      | cons x xs ih => exact ih (s.setReg (physReg core slot w l (r + x.2)) x.1)
  | s r c =>
    simp only [onWarp_onWarp]
    congr 1
    funext w
    have hs : (h w).sregs = w.sregs := by rw [(ha.same w).rest]
    rw [hs]
    exact (ha.sregs w _).symm
  | tile t => rfl
  | discard => rfl

theorem Aside.commitLane {h : Warp → Warp} (ha : Aside h) (s : State) (g : Group) (l : Nat) :
    commitLane (s.onWarp g.key h) g l = (commitLane s g l).onWarp g.key h := by
  unfold Machine.commitLane
  rw [warpAt_onWarp_self]
  cases hw : s.warpAt g.key with
  | none => rfl
  | some w =>
    simp only [Option.map_some, ha.commits]
    rw [show (h w).inHandler = w.inHandler by rw [(ha.same w).rest]]
    split
    · rfl
    · generalize (w.lane l).commits.map (fun c => { c with countdown := c.countdown - 1 }) = cs
      have h0 : ∀ (xs : List Commit) (b : State),
          xs.foldl (fun s c => orFlags (Machine.writeDest s g.core g.slot g.warp l c.dest (c.value.getD [])) g.key l c.flags) (b.onWarp g.key h) =
          (xs.foldl (fun s c => orFlags (Machine.writeDest s g.core g.slot g.warp l c.dest (c.value.getD [])) g.key l c.flags) b).onWarp g.key h := by
        intro xs
        induction xs with
        | nil => intro b; rfl
        | cons c xs ih =>
          intro b
          rw [List.foldl_cons, List.foldl_cons, ← ih]
          congr 1
          unfold Group.key
          rw [ha.writeDest]
          unfold orFlags State.onLanes
          simp only [onWarp_onWarp, ← ha.flags]
      rw [← h0]
      congr 1
      unfold State.onLanes
      simp only [onWarp_onWarp, ← ha.entries]

/-- The commits of a release pass by such a change. -/
theorem Aside.commitDue {h : Warp → Warp} (ha : Aside h) (s : State) (g : Group) :
    commitDue (s.onWarp g.key h) g = (commitDue s g).onWarp g.key h := by
  unfold Machine.commitDue
  generalize g.lanes = ls
  induction ls generalizing s with
  | nil => rfl
  | cons l ls ih => rw [List.foldl_cons, List.foldl_cons, ha.commitLane, ih]

/-- The lanes of the arriving group, once parked, are the complete set of each of them. -/
theorem crossSet_gathered {i : Instr} {d : BitVec 7} {m : Word} {b : State} {g : Group} {v u : Warp} {l : Nat}
    (hi : isCrossLane i = true) (hg : gathers d m b g v) (hp : v.protected' = false) (h32 : ∀ l ∈ g.lanes, l < 32) (hl : l ∈ g.lanes)
    (hr : u = { v with lanes := u.lanes })
    (hu : ∀ l, u.lane l = if l ∈ g.lanes then parkedLane i g (readField b g v l d.toNat) (v.lane l) else v.lane l) :
    crossSet u l = some g.lanes := by
  obtain ⟨-, hs, hm, hk, ha⟩ := hg
  have hpu : u.protected' = false := by rw [hr]; exact hp
  have hw : u.width = 32 := by simp [Warp.width, hpu]
  have hvis : ∀ x, u.visible x = x := by intro x; simp [Warp.visible, hpu]
  have hphys : ∀ x, physLanes u x = [x] := by intro x; simp [physLanes, hpu]
  have hpark : ∀ x ∈ g.lanes, parkedAt u x g.pc = true := by
    intro x hx
    obtain ⟨h1, h2, -⟩ := ha x hx
    simp [parkedAt, hu x, hx, parkedLane, hi, h1, h2]
  have hlm := (ha l hl).2.2
  have hpc : (u.lane l).pc = g.pc := by rw [hu l, if_pos hl]; simp [parkedLane, (ha l hl).2.1]
  have hnot : ∀ x < 32, x ∉ g.lanes → m.getLsbD x = true → parkedAt u x g.pc = false := by
    intro x hx hx' hb
    simp [parkedAt, hu x, hx', hk x hx hb]
  unfold crossSet
  have hpl : (u.lane l).park = some ⟨i, m, (readField b g v l d.toNat).poison⟩ := by
    rw [hu l, if_pos hl]; simp [parkedLane, hlm]
  rw [hpl]
  simp only [hpc, hpark l hl, Bool.true_and]
  have hall : ((maskLanes u m).all fun v => (physLanes u v).all fun x => arrivedAt u x g.pc) = true := by
    rw [List.all_eq_true]
    intro x hx
    simp only [maskLanes, hw, List.mem_filter, List.mem_range] at hx
    simp only [hphys, List.all_cons, List.all_nil, Bool.and_true, arrivedAt, Bool.or_eq_true]
    by_cases hxg : x ∈ g.lanes
    · exact Or.inr (hpark x hxg)
    · left
      rw [hu x, if_neg hxg]
      by_contra hc
      simp only [Bool.not_eq_true', not_or, Bool.not_eq_true] at hc
      exact hxg ((hm x hx.1).2 ⟨hx.2, by simpa using hc.1, by simpa using hc.2⟩)
  rw [if_pos hall]
  congr 1
  refine eq_of_rising (range_rising ..) hs fun x => ?_
  simp only [List.mem_filter, List.mem_range, Bool.and_eq_true, Bool.or_eq_true, hvis, List.contains_iff_mem, maskLanes, hw, beq_iff_eq]
  constructor
  · rintro ⟨hx, hpx, hn⟩
    rcases hn with ⟨-, hn⟩ | rfl
    · by_contra hxg
      simp [hnot x hx hxg hn] at hpx
    · exact hl
  · intro hx
    exact ⟨h32 x hx, hpark x hx, Or.inl ⟨h32 x hx, ((hm x (h32 x hx)).1 hx).1⟩⟩

/-- Parking, as a change of the warp. -/
theorem parkLanes_onWarp {i : Instr} {mask : Warp → Nat → PWord} {g : Group} {b : State} {v : Warp} (hv : b.warpAt g.key = some v) :
    parkLanes i mask g b = b.onWarp g.key fun w => g.lanes.foldl (fun w l => w.onLanes [l] (parkedLane i g (mask v l))) w := by
  rw [parkLanes_eq hv, foldOnLanes_eq]

/-- Lanes that arrive together, and complete their set, execute at once, on the state in which they arrived with the entries committed that
fall due at the release (R27, R51). -/
theorem crossCompared_gathers {sigs : Warp → Group → List Sig} {i : Instr} {d : BitVec 7} {m : Word}
    {exec : Warp → Bool → Group → State → State} {g : Group} {b : State} {v : Warp}
    (hi : isCrossLane i = true) (hv : b.warpAt g.key = some v) (hg : gathers d m b g v) (hp : v.protected' = false) (hn : g.lanes.Nodup)
    (hl : ∀ l ∈ g.lanes, l < 32 ∧ l < v.lanes.length) (hz : ∀ l ∈ g.lanes, (v.lane l).rep = 0)
    (hfree : ∀ l ∈ g.lanes, commitBlocked v l = false)
    (hx : ∀ v' u, (commitDue b g).warpAt g.key = some v' → SameRead v' u →
      ∃ y, (exec u (maskPoison d b g v) g (commitDue b g)).warpAt g.key = some y ∧ ∀ l ∈ g.lanes, (y.lane l).park = none) :
    ∃ v' u, (commitDue b g).warpAt g.key = some v' ∧ SameRead v' u ∧
      crossCompared sigs i d exec g b = .done (sigs u g) (exec u (maskPoison d b g v) g (commitDue b g)) := by
  have hlen : ∀ l ∈ g.lanes, l < v.lanes.length := fun l h => (hl l h).2
  have hnone : ∀ l ∈ g.lanes, (v.lane l).park = none := fun l h =>
    hg.2.2.2.1 l (hl l h).1 ((hg.2.2.1 l (hl l h).1).1 h).1
  obtain ⟨v', hv', sv', -⟩ := (commitDue_committed b g).warp v hv
  obtain ⟨⟨u, hu, ur, uc, ul⟩, -, -⟩ := parkLanes_changed (i := i) (mask := fun w l => readField b g w l d.toNat) hv hn hlen
  have hset : ∀ l ∈ g.lanes, crossSet u l = some g.lanes := fun l h =>
    crossSet_gathered hi hg hp (fun l h => (hl l h).1) h ur ul
  -- the change of the warp: park, pass the word, unpark
  obtain ⟨F, hF⟩ : ∃ F : Warp → Warp, F = fun w => g.lanes.foldl (fun w l => w.onLanes [l] (parkedLane i g (readField b g v l d.toNat))) w :=
    ⟨_, rfl⟩
  obtain ⟨P, hP⟩ : ∃ P : Warp → Warp, P = fun w => w.onLanes g.lanes fun x => { x with pc := x.pc + 4, rep := 0 } := ⟨_, rfl⟩
  obtain ⟨U, hU⟩ : ∃ U : Warp → Warp, U = fun w => w.onLanes g.lanes fun x => { x with park := none } := ⟨_, rfl⟩
  have aF : Aside F := by
    rw [hF]; exact Aside.lanes g.lanes (· - 4) (fun _ => g.rep) fun l _ => some ⟨i, (readField b g v l d.toNat).val, (readField b g v l d.toNat).poison⟩
  have aP : Aside P := by rw [hP]; exact Aside.lanes g.lanes (· + 4) (fun _ => 0) fun _ q => q
  have aU : Aside U := by rw [hU]; exact Aside.lanes g.lanes (fun x => x) (fun r => r) fun _ _ => none
  have hpark : parkLanes i (fun w l => readField b g w l d.toNat) g b = b.onWarp g.key F := by rw [hF]; exact parkLanes_onWarp hv
  have huF : u = F v := by
    rw [hpark, warpAt_onWarp_self, hv] at hu
    exact (Option.some.inj hu).symm
  have hlen' : ∀ l ∈ g.lanes, l < v'.lanes.length := fun l h => by rw [sv'.count]; exact hlen l h
  -- parking, passing and releasing a lane that stood there unparked changes nothing
  have hfix : U (P (F v)) = v := by
    have s1 := (aF.same v).trans ((aP.same (F v)).trans (aU.same (P (F v))))
    refine warp_ext s1.rest s1.count fun l => ?_
    have hlu : ∀ l, (F v).lane l = if l ∈ g.lanes then parkedLane i g (readField b g v l d.toNat) (v.lane l) else v.lane l := by
      rw [← huF]; exact ul
    have hc : (F v).lanes.length = v.lanes.length := (aF.same v).count
    rw [hU, hP]
    by_cases h : l ∈ g.lanes
    · rw [lane_onLanes_of_mem _ _ _ _ hn h (by rw [onLanes_length, hc]; exact hlen l h),
        lane_onLanes_of_mem _ _ _ _ hn h (by rw [hc]; exact hlen l h), hlu l, if_pos h, pass_parkedLane _ _ _ (hz l h)]
      exact unpark_lane _ (hnone l h)
    · rw [lane_onLanes_of_not_mem _ _ _ _ h, lane_onLanes_of_not_mem _ _ _ _ h, hlu l, if_neg h]
  have hb : b.onWarp g.key (fun w => U (P (F w))) = b := onWarp_fixed hv hfix
  have hback : unpark ((commitDue b g).onWarp g.key fun w => P (F w)) g.key g.lanes = commitDue b g := by
    have h1 := ((aF.comp aP).comp aU).commitDue b g
    rw [hb] at h1
    conv_rhs => rw [h1]
    unfold unpark State.onLanes
    rw [onWarp_onWarp, hU]
  -- the lanes of the set, parked at the word that they have passed
  obtain ⟨⟨y, hy, -, -, yl⟩, -, -⟩ := parkLanes_changed (i := i) (mask := fun _ l => readField b g v l d.toNat) hv' hn hlen'
  have hyF : F v' = y := by
    rw [parkLanes_onWarp hv', warpAt_onWarp_self, hv'] at hy
    rw [hF]; exact Option.some.inj hy
  have hpl : ∀ l ∈ g.lanes, ((P (F v')).lane l).park = some ⟨i, m, (readField b g v l d.toNat).poison⟩ := by
    intro l h
    rw [hP, hyF, lane_onLanes_of_mem _ _ _ _ hn h (by rw [← hyF, (aF.same v').count]; exact hlen' l h), yl l, if_pos h]
    show some (Park.mk i (readField b g v l d.toNat).val _) = _
    rw [(hg.2.2.2.2 l h).2.2]
  have same : SameRead v' (P (F v')) := (aF.same v').trans (aP.same (F v'))
  refine ⟨v', P (F v'), hv', same, ?_⟩
  obtain ⟨l₀, ls, hls⟩ : ∃ l₀ ls, g.lanes = l₀ :: ls := by
    cases h : g.lanes with
    | nil => exact absurd h hg.1
    | cons l₀ ls => exact ⟨l₀, ls, rfl⟩
  have h0 : l₀ ∈ g.lanes := by simp [hls]
  have hh : g.lanes.headD 0 = l₀ := by simp [hls]
  have hp' : v'.protected' = false := by rw [← hp, sv'.rest]; rfl
  have hbad : (g.lanes.filter (maskDisagrees (P (F v')) m)) = [] := by
    rw [List.filter_eq_nil_iff]
    intro l h
    have hvis : (P (F v')).visible l = l := by simp [Warp.visible, same.protected, hp']
    simp only [maskDisagrees, hpl l h, hvis]
    have := ((hg.2.2.1 l (hl l h).1).1 h).1
    simp [this]
  have hpo : (g.lanes.any fun l => match ((P (F v')).lane l).park with | some p => p.poison | none => false) = maskPoison d b g v := by
    unfold maskPoison
    rw [Bool.eq_iff_iff, List.any_eq_true, List.any_eq_true]
    constructor
    · rintro ⟨l, h, hh⟩; exact ⟨l, h, by simpa [hpl l h] using hh⟩
    · rintro ⟨l, h, hh⟩; exact ⟨l, h, by simpa [hpl l h] using hh⟩
  have hex : crossExecute sigs exec g ((commitDue b g).onWarp g.key fun w => P (F w)) =
      .done (sigs (P (F v')) g) (exec (P (F v')) (maskPoison d b g v) g (commitDue b g)) := by
    unfold crossExecute
    rw [warpAt_onWarp_self, hv']
    simp only [Option.map_some, hh, hpl l₀ h0, hbad, List.isEmpty_nil, if_true, hback]
    exact congrArg (fun mp => IssueResult.done _ (exec (P (F v')) mp g (commitDue b g))) hpo
  -- the arrival of the first lane executes the set
  have hjoin : joinSet crossSet (crossExecute sigs exec) g (parkLanes i (fun w l => readField b g w l d.toNat) g b) l₀ =
      .done (sigs (P (F v')) g) (exec (P (F v')) (maskPoison d b g v) g (commitDue b g)) := by
    unfold joinSet
    rw [hu]
    simp only [hset l₀ h0]
    have hcb : g.lanes.any (commitBlocked u) = false := by
      rw [List.any_eq_false]
      intro l h
      rw [huF]
      have := hfree l h
      unfold commitBlocked at this ⊢
      rw [aF.commits, show (F v).inHandler = v.inHandler by rw [(aF.same v).rest]]
      simpa using this
    rw [hcb, hpark]
    have hst : (commitDue (b.onWarp g.key F) g).onLanes g.key g.lanes (fun x => { x with pc := x.pc + 4, rep := 0 }) =
        (commitDue b g).onWarp g.key fun w => P (F w) := by
      rw [aF.commitDue]; unfold State.onLanes; rw [onWarp_onWarp, hP]
    show (match crossExecute sigs exec g ((commitDue (b.onWarp g.key F) g).onLanes g.key g.lanes fun x => { x with pc := x.pc + 4, rep := 0 }) with
      | .wait _ _ => IssueResult.done [] _
      | r => r) = _
    rw [hst, hex]
  obtain ⟨z, hz', hzp⟩ := hx v' _ hv' same
  unfold crossCompared
  rw [hv]
  simp only [hh, hnone l₀ h0]
  unfold arrive
  rw [hls, List.foldl_cons]
  have hp0 : ((parkLanes i (fun w l => readField b g w l d.toNat) g b).warpAt g.key).bind (fun w => (w.lane l₀).park) =
      some ⟨i, m, (readField b g v l₀ d.toNat).poison⟩ := by
    rw [hu]
    have hm := (hg.2.2.2.2 l₀ h0).2.2
    simp [ul l₀, h0, parkedLane, hm]
  simp only [hp0, hjoin, List.nil_append]
  have hrest : ∀ (ls' : List Nat), (∀ l ∈ ls', l ∈ g.lanes) → ls'.foldl (fun r l => match r with
      | .done sigs' s => (match (s.warpAt g.key).bind fun w => (w.lane l).park with
        | some _ => (match joinSet crossSet (crossExecute sigs exec) g s l with
          | .done more s => .done (sigs' ++ more) s
          | r => r)
        | none => .done sigs' s)
      | r => r) (IssueResult.done (sigs (P (F v')) g) (exec (P (F v')) (maskPoison d b g v) g (commitDue b g))) =
        .done (sigs (P (F v')) g) (exec (P (F v')) (maskPoison d b g v) g (commitDue b g)) := by
    intro ls'
    induction ls' with
    | nil => intro _; rfl
    | cons l ls' ih =>
      intro h
      rw [List.foldl_cons]
      simp only [hz', Option.bind_some, hzp l (h l (by simp))]
      exact ih fun x hx => h x (by simp [hx])
  exact hrest ls fun l h => by simp [hls, h]

end Sys2Proof.Machine
end

