-- ==== Sys2Proof/Laws/Local.lean ====
section
/-! SUPPORT. What stores to the memories of a core do, and the bytes of a store's registers. -/

namespace Sys2Proof.Machine

theorem leBytes_length (n v : Nat) : (leBytes n v).length = n := by
  induction n generalizing v with
  | zero => rfl
  | succ n ih => simp [leBytes, ih]

theorem leBytes_eq (n v : Nat) : leBytes n v = (List.range n).map fun i => BitVec.ofNat 8 (v / 256 ^ i) := by
  induction n generalizing v with
  | zero => rfl
  | succ n ih =>
    rw [leBytes, ih, List.range_succ_eq_map, List.map_cons, List.map_map]
    congr 1
    · simp
    · apply List.map_congr_left
      intro i _
      simp only [Function.comp_apply, Nat.pow_succ', Nat.div_div_eq_div_mul]

/-- The number that the words of a store hold, word by word. -/
theorem words_div (vs : List PWord) (k : Nat) :
    vs.foldr (fun v acc => v.val.toNat + 2 ^ 32 * acc) 0 / 2 ^ (32 * k) % 2 ^ 32 = (vs.getD k PWord.zero).val.toNat := by
  induction vs generalizing k with
  | nil => simp [PWord.zero]
  | cons v vs ih =>
    rw [List.foldr_cons]
    have hv := v.val.isLt
    cases k with
    | zero => simp [Nat.add_mod, Nat.mod_eq_of_lt hv]
    | succ k =>
      rw [List.getD_cons_succ, ← ih k, show 32 * (k + 1) = 32 + 32 * k from by omega, Nat.pow_add, ← Nat.div_div_eq_div_mul]
      congr 2
      omega

/-- The bytes that a store takes from its registers. -/
theorem storeBytes_eq (n : Nat) (vs : List PWord) : storeBytes n vs = (List.range n).map fun i =>
    BitVec.ofNat 8 ((vs.getD (i / 4) PWord.zero).val.toNat / 2 ^ (8 * (i % 4))) := by
  unfold storeBytes
  rw [leBytes_eq]
  apply List.map_congr_left
  intro i _
  apply BitVec.eq_of_toNat_eq
  rw [BitVec.toNat_ofNat, BitVec.toNat_ofNat, ← words_div]
  generalize vs.foldr (fun v acc => v.val.toNat + 2 ^ 32 * acc) 0 = v
  have e : 256 ^ i = 2 ^ (32 * (i / 4)) * 2 ^ (8 * (i % 4)) := by
    rw [show (256 : Nat) = 2 ^ 8 from rfl, ← Nat.pow_mul, ← Nat.pow_add]; congr 1; omega
  rw [e, ← Nat.div_div_eq_div_mul]
  generalize v / 2 ^ (32 * (i / 4)) = y
  have h4 : i % 4 < 4 := Nat.mod_lt _ (by decide)
  generalize i % 4 = j at h4 ⊢
  have : 2 ^ 32 = 2 ^ (8 * j) * 2 ^ (32 - 8 * j) := by rw [← Nat.pow_add]; congr 1; omega
  rw [this, Nat.mod_mul_right_div_self, Nat.mod_mod_of_dvd]
  exact Nat.pow_dvd_pow (m := 8) 2 (by omega)

theorem storeBytes_length (n : Nat) (vs : List PWord) : (storeBytes n vs).length = n := by simp [storeBytes_eq]

/-- The bytes that a lane's registers give. -/
theorem storeBytes_data {b : State} {g : Group} {v : Warp} {d : BitVec 7} {l n count : Nat} (h : n ≤ 4 * count) :
    storeBytes n (readRegs b g v l d.toNat count) = (List.range n).map (dataByte b g v d l) := by
  rw [storeBytes_eq]
  apply List.map_congr_left
  intro i hi
  have : i / 4 < count := by simp only [List.mem_range] at hi; omega
  simp [readRegs, dataByte, List.getD_eq_getElem?_getD, this]

/-- Storing the bytes of the lanes in one pass. -/
theorem stores_stored {g : Group} {m : Mem} (h : m.wf = true) (n : Nat) (addr : Nat → Nat) (data : Nat → Nat → Byte) :
    Stored g m (m.writePass 4 (g.lanes.map fun l => (addr l, (List.range n).map (data l)))) n addr data := by
  refine ⟨fun x => ?_, fun k => ?_⟩
  · rw [read_writePass, List.foldl_map]
    generalize g.lanes = ls
    induction ls using List.reverseRecOn with
    | nil => rfl
    | append_singleton ls l ih =>
      have hw : (ls.foldl (fun m l => m.writeBytes (addr l) ((List.range n).map (data l))) m).wf = true :=
        wf_foldl _ (fun _ _ hm => wf_writeBytes hm _ _) _ h
      rw [List.foldl_append, List.foldl_cons, List.foldl_nil, read_writeBytes hw, List.filter_append, List.filter_cons, List.filter_nil]
      simp only [List.length_map, List.length_range]
      by_cases hx : addr l ≤ x ∧ x < addr l + n
      · rw [if_pos hx, if_pos (by simpa using hx), List.getLast?_concat]
        have : x - addr l < n := by omega
        simp [List.getD_eq_getElem?_getD, this]
      · rw [if_neg hx, if_neg (by simpa using hx), List.append_nil]
        exact ih
  · rw [poisoned_writePass h (by decide)]
    simp [List.any_map, Function.comp_def]

end Sys2Proof.Machine
end

