-- ==== Sys2Proof/Laws/PerInstr.lean ====
section
/-! SUPPORT. Families of statements per instruction. Coded: a word instruction is one 32-bit word (R270), an event has none. -/

namespace Sys2Proof.Laws.Coded

/-- The encoder gives the instruction one word, or none. -/
def Statement (i : Instr) : Prop := encode i = [] ∨ ∃ w, encode i = [w]

/-- An instruction with a word is coded. -/
theorem of_word {i : Instr} {w : Word} (h : encode i = [w]) : Statement i := .inr ⟨w, h⟩

/-- An event is coded. -/
theorem of_event {i : Instr} (h : encode i = []) : Statement i := .inl h

theorem add : ∀ x0 x1 x2 x3 x4, Statement (.add x0 x1 x2 x3 x4) := fun _ _ _ _ _ => of_word rfl
theorem sub : ∀ x0 x1 x2 x3 x4, Statement (.sub x0 x1 x2 x3 x4) := fun _ _ _ _ _ => of_word rfl
theorem addc : ∀ x0 x1 x2 x3 x4, Statement (.addc x0 x1 x2 x3 x4) := fun _ _ _ _ _ => of_word rfl
theorem subb : ∀ x0 x1 x2 x3 x4, Statement (.subb x0 x1 x2 x3 x4) := fun _ _ _ _ _ => of_word rfl
theorem addi : ∀ x0 x1 x2 x3, Statement (.addi x0 x1 x2 x3) := fun _ _ _ _ => of_word rfl
theorem mul : ∀ x0 x1 x2 x3 x4, Statement (.mul x0 x1 x2 x3 x4) := fun _ _ _ _ _ => of_word rfl
theorem mulhI32 : ∀ x0 x1 x2 x3 x4, Statement (.mulhI32 x0 x1 x2 x3 x4) := fun _ _ _ _ _ => of_word rfl
theorem mulhN32 : ∀ x0 x1 x2 x3 x4, Statement (.mulhN32 x0 x1 x2 x3 x4) := fun _ _ _ _ _ => of_word rfl
theorem mad : ∀ x0 x1 x2 x3 x4, Statement (.mad x0 x1 x2 x3 x4) := fun _ _ _ _ _ => of_word rfl
theorem minI32 : ∀ x0 x1 x2 x3 x4, Statement (.minI32 x0 x1 x2 x3 x4) := fun _ _ _ _ _ => of_word rfl
theorem minN32 : ∀ x0 x1 x2 x3 x4, Statement (.minN32 x0 x1 x2 x3 x4) := fun _ _ _ _ _ => of_word rfl
theorem maxI32 : ∀ x0 x1 x2 x3 x4, Statement (.maxI32 x0 x1 x2 x3 x4) := fun _ _ _ _ _ => of_word rfl
theorem maxN32 : ∀ x0 x1 x2 x3 x4, Statement (.maxN32 x0 x1 x2 x3 x4) := fun _ _ _ _ _ => of_word rfl
theorem and : ∀ x0 x1 x2 x3 x4, Statement (.and x0 x1 x2 x3 x4) := fun _ _ _ _ _ => of_word rfl
theorem or : ∀ x0 x1 x2 x3 x4, Statement (.or x0 x1 x2 x3 x4) := fun _ _ _ _ _ => of_word rfl
theorem xor : ∀ x0 x1 x2 x3 x4, Statement (.xor x0 x1 x2 x3 x4) := fun _ _ _ _ _ => of_word rfl
theorem shlReg : ∀ x0 x1 x2 x3 x4, Statement (.shlReg x0 x1 x2 x3 x4) := fun _ _ _ _ _ => of_word rfl
theorem shrReg : ∀ x0 x1 x2 x3 x4, Statement (.shrReg x0 x1 x2 x3 x4) := fun _ _ _ _ _ => of_word rfl
theorem sarReg : ∀ x0 x1 x2 x3 x4, Statement (.sarReg x0 x1 x2 x3 x4) := fun _ _ _ _ _ => of_word rfl
theorem rolReg : ∀ x0 x1 x2 x3 x4, Statement (.rolReg x0 x1 x2 x3 x4) := fun _ _ _ _ _ => of_word rfl
theorem shlImm : ∀ x0 x1 x2 x3, Statement (.shlImm x0 x1 x2 x3) := fun _ _ _ _ => of_word rfl
theorem shrImm : ∀ x0 x1 x2 x3, Statement (.shrImm x0 x1 x2 x3) := fun _ _ _ _ => of_word rfl
theorem sarImm : ∀ x0 x1 x2 x3, Statement (.sarImm x0 x1 x2 x3) := fun _ _ _ _ => of_word rfl
theorem rolImm : ∀ x0 x1 x2 x3, Statement (.rolImm x0 x1 x2 x3) := fun _ _ _ _ => of_word rfl
theorem abs : ∀ x0 x1 x2 x3, Statement (.abs x0 x1 x2 x3) := fun _ _ _ _ => of_word rfl
theorem neg : ∀ x0 x1 x2 x3, Statement (.neg x0 x1 x2 x3) := fun _ _ _ _ => of_word rfl
theorem clz : ∀ x0 x1 x2 x3, Statement (.clz x0 x1 x2 x3) := fun _ _ _ _ => of_word rfl
theorem popc : ∀ x0 x1 x2 x3, Statement (.popc x0 x1 x2 x3) := fun _ _ _ _ => of_word rfl
theorem brev : ∀ x0 x1 x2 x3, Statement (.brev x0 x1 x2 x3) := fun _ _ _ _ => of_word rfl
theorem mov : ∀ x0 x1 x2 x3, Statement (.mov x0 x1 x2 x3) := fun _ _ _ _ => of_word rfl
theorem pk8 : ∀ x0 x1 x2 x3 x4, Statement (.pk8 x0 x1 x2 x3 x4) := fun _ _ _ _ _ => of_word rfl
theorem upk8N : ∀ x0 x1 x2 x3 x4, Statement (.upk8N x0 x1 x2 x3 x4) := fun _ _ _ _ _ => of_word rfl
theorem upk8I : ∀ x0 x1 x2 x3 x4, Statement (.upk8I x0 x1 x2 x3 x4) := fun _ _ _ _ _ => of_word rfl
theorem pk4 : ∀ x0 x1 x2 x3 x4, Statement (.pk4 x0 x1 x2 x3 x4) := fun _ _ _ _ _ => of_word rfl
theorem upk4N : ∀ x0 x1 x2 x3 x4, Statement (.upk4N x0 x1 x2 x3 x4) := fun _ _ _ _ _ => of_word rfl
theorem upk4I : ∀ x0 x1 x2 x3 x4, Statement (.upk4I x0 x1 x2 x3 x4) := fun _ _ _ _ _ => of_word rfl
theorem bfx : ∀ x0 x1 x2 x3 x4, Statement (.bfx x0 x1 x2 x3 x4) := fun _ _ _ _ _ => of_word rfl
theorem bfxs : ∀ x0 x1 x2 x3 x4, Statement (.bfxs x0 x1 x2 x3 x4) := fun _ _ _ _ _ => of_word rfl
theorem bfi : ∀ x0 x1 x2 x3 x4, Statement (.bfi x0 x1 x2 x3 x4) := fun _ _ _ _ _ => of_word rfl
theorem bfx64 : ∀ x0 x1 x2 x3 x4, Statement (.bfx64 x0 x1 x2 x3 x4) := fun _ _ _ _ _ => of_word rfl
theorem bfxs64 : ∀ x0 x1 x2 x3 x4, Statement (.bfxs64 x0 x1 x2 x3 x4) := fun _ _ _ _ _ => of_word rfl
theorem bfi64 : ∀ x0 x1 x2 x3 x4, Statement (.bfi64 x0 x1 x2 x3 x4) := fun _ _ _ _ _ => of_word rfl
theorem sel : ∀ x0 x1 x2 x3 x4, Statement (.sel x0 x1 x2 x3 x4) := fun _ _ _ _ _ => of_word rfl
theorem cmp : ∀ x0 x1 x2 x3 x4 x5 x6, Statement (.cmp x0 x1 x2 x3 x4 x5 x6) := fun _ _ _ _ _ _ _ => of_word rfl
theorem movi : ∀ x0 x1 x2, Statement (.movi x0 x1 x2) := fun _ _ _ => of_word rfl
theorem movh : ∀ x0 x1 x2, Statement (.movh x0 x1 x2) := fun _ _ _ => of_word rfl
theorem add64 : ∀ x0 x1 x2 x3 x4, Statement (.add64 x0 x1 x2 x3 x4) := fun _ _ _ _ _ => of_word rfl
theorem sub64 : ∀ x0 x1 x2 x3 x4, Statement (.sub64 x0 x1 x2 x3 x4) := fun _ _ _ _ _ => of_word rfl
theorem mul64 : ∀ x0 x1 x2 x3 x4, Statement (.mul64 x0 x1 x2 x3 x4) := fun _ _ _ _ _ => of_word rfl
theorem mad64 : ∀ x0 x1 x2 x3 x4, Statement (.mad64 x0 x1 x2 x3 x4) := fun _ _ _ _ _ => of_word rfl
theorem shl64 : ∀ x0 x1 x2 x3 x4, Statement (.shl64 x0 x1 x2 x3 x4) := fun _ _ _ _ _ => of_word rfl
theorem shr64 : ∀ x0 x1 x2 x3 x4, Statement (.shr64 x0 x1 x2 x3 x4) := fun _ _ _ _ _ => of_word rfl
theorem sar64 : ∀ x0 x1 x2 x3 x4, Statement (.sar64 x0 x1 x2 x3 x4) := fun _ _ _ _ _ => of_word rfl
theorem min64I64 : ∀ x0 x1 x2 x3 x4, Statement (.min64I64 x0 x1 x2 x3 x4) := fun _ _ _ _ _ => of_word rfl
theorem min64N64 : ∀ x0 x1 x2 x3 x4, Statement (.min64N64 x0 x1 x2 x3 x4) := fun _ _ _ _ _ => of_word rfl
theorem max64I64 : ∀ x0 x1 x2 x3 x4, Statement (.max64I64 x0 x1 x2 x3 x4) := fun _ _ _ _ _ => of_word rfl
theorem max64N64 : ∀ x0 x1 x2 x3 x4, Statement (.max64N64 x0 x1 x2 x3 x4) := fun _ _ _ _ _ => of_word rfl
theorem mulh64I64 : ∀ x0 x1 x2 x3 x4, Statement (.mulh64I64 x0 x1 x2 x3 x4) := fun _ _ _ _ _ => of_word rfl
theorem mulh64N64 : ∀ x0 x1 x2 x3 x4, Statement (.mulh64N64 x0 x1 x2 x3 x4) := fun _ _ _ _ _ => of_word rfl
theorem cmp64 : ∀ x0 x1 x2 x3 x4 x5 x6, Statement (.cmp64 x0 x1 x2 x3 x4 x5 x6) := fun _ _ _ _ _ _ _ => of_word rfl
theorem fadd : ∀ x0 x1 x2 x3 x4 x5, Statement (.fadd x0 x1 x2 x3 x4 x5) := fun _ _ _ _ _ _ => of_word rfl
theorem fsub : ∀ x0 x1 x2 x3 x4 x5, Statement (.fsub x0 x1 x2 x3 x4 x5) := fun _ _ _ _ _ _ => of_word rfl
theorem fmul : ∀ x0 x1 x2 x3 x4 x5, Statement (.fmul x0 x1 x2 x3 x4 x5) := fun _ _ _ _ _ _ => of_word rfl
theorem ffma : ∀ x0 x1 x2 x3 x4 x5, Statement (.ffma x0 x1 x2 x3 x4 x5) := fun _ _ _ _ _ _ => of_word rfl
theorem fmin : ∀ x0 x1 x2 x3 x4, Statement (.fmin x0 x1 x2 x3 x4) := fun _ _ _ _ _ => of_word rfl
theorem fmax : ∀ x0 x1 x2 x3 x4, Statement (.fmax x0 x1 x2 x3 x4) := fun _ _ _ _ _ => of_word rfl
theorem hmax2 : ∀ x0 x1 x2 x3 x4 x5, Statement (.hmax2 x0 x1 x2 x3 x4 x5) := fun _ _ _ _ _ _ => of_word rfl
theorem fcmp : ∀ x0 x1 x2 x3 x4 x5, Statement (.fcmp x0 x1 x2 x3 x4 x5) := fun _ _ _ _ _ _ => of_word rfl
theorem frcp : ∀ x0 x1 x2 x3, Statement (.frcp x0 x1 x2 x3) := fun _ _ _ _ => of_word rfl
theorem frsq : ∀ x0 x1 x2 x3, Statement (.frsq x0 x1 x2 x3) := fun _ _ _ _ => of_word rfl
theorem fsqrt : ∀ x0 x1 x2 x3, Statement (.fsqrt x0 x1 x2 x3) := fun _ _ _ _ => of_word rfl
theorem fex2 : ∀ x0 x1 x2 x3, Statement (.fex2 x0 x1 x2 x3) := fun _ _ _ _ => of_word rfl
theorem flg2 : ∀ x0 x1 x2 x3, Statement (.flg2 x0 x1 x2 x3) := fun _ _ _ _ => of_word rfl
theorem fsin : ∀ x0 x1 x2 x3, Statement (.fsin x0 x1 x2 x3) := fun _ _ _ _ => of_word rfl
theorem fcos : ∀ x0 x1 x2 x3, Statement (.fcos x0 x1 x2 x3) := fun _ _ _ _ => of_word rfl
theorem ftanh : ∀ x0 x1 x2 x3, Statement (.ftanh x0 x1 x2 x3) := fun _ _ _ _ => of_word rfl
theorem frnd : ∀ x0 x1 x2 x3 x4, Statement (.frnd x0 x1 x2 x3 x4) := fun _ _ _ _ _ => of_word rfl
theorem fcvt : ∀ x0 x1 x2 x3 x4 x5, Statement (.fcvt x0 x1 x2 x3 x4 x5) := fun _ _ _ _ _ _ => of_word rfl
theorem fcvtSat : ∀ x0 x1 x2 x3 x4 x5, Statement (.fcvtSat x0 x1 x2 x3 x4 x5) := fun _ _ _ _ _ _ => of_word rfl
theorem hadd2 : ∀ x0 x1 x2 x3 x4 x5, Statement (.hadd2 x0 x1 x2 x3 x4 x5) := fun _ _ _ _ _ _ => of_word rfl
theorem hmul2 : ∀ x0 x1 x2 x3 x4 x5, Statement (.hmul2 x0 x1 x2 x3 x4 x5) := fun _ _ _ _ _ _ => of_word rfl
theorem hfma2 : ∀ x0 x1 x2 x3 x4 x5, Statement (.hfma2 x0 x1 x2 x3 x4 x5) := fun _ _ _ _ _ _ => of_word rfl
theorem hmin2 : ∀ x0 x1 x2 x3 x4 x5, Statement (.hmin2 x0 x1 x2 x3 x4 x5) := fun _ _ _ _ _ _ => of_word rfl
theorem dot4 : ∀ x0 x1 x2 x3 x4, Statement (.dot4 x0 x1 x2 x3 x4) := fun _ _ _ _ _ => of_word rfl
theorem dot8 : ∀ x0 x1 x2 x3 x4, Statement (.dot8 x0 x1 x2 x3 x4) := fun _ _ _ _ _ => of_word rfl
theorem dotm4 : ∀ x0 x1 x2 x3 x4, Statement (.dotm4 x0 x1 x2 x3 x4) := fun _ _ _ _ _ => of_word rfl
theorem dotm8 : ∀ x0 x1 x2 x3 x4 x5, Statement (.dotm8 x0 x1 x2 x3 x4 x5) := fun _ _ _ _ _ _ => of_word rfl
theorem sclb : ∀ x0 x1 x2 x3 x4 x5, Statement (.sclb x0 x1 x2 x3 x4 x5) := fun _ _ _ _ _ _ => of_word rfl
theorem shfl : ∀ x0 x1 x2 x3 x4 x5, Statement (.shfl x0 x1 x2 x3 x4 x5) := fun _ _ _ _ _ _ => of_word rfl
theorem voteBallot : ∀ x0 x1 x2 x3, Statement (.voteBallot x0 x1 x2 x3) := fun _ _ _ _ => of_word rfl
theorem voteAll : ∀ x0 x1 x2 x3 x4, Statement (.voteAll x0 x1 x2 x3 x4) := fun _ _ _ _ _ => of_word rfl
theorem voteAny : ∀ x0 x1 x2 x3 x4, Statement (.voteAny x0 x1 x2 x3 x4) := fun _ _ _ _ _ => of_word rfl
theorem voteEq : ∀ x0 x1 x2 x3 x4, Statement (.voteEq x0 x1 x2 x3 x4) := fun _ _ _ _ _ => of_word rfl
theorem lred : ∀ x0 x1 x2 x3 x4, Statement (.lred x0 x1 x2 x3 x4) := fun _ _ _ _ _ => of_word rfl
theorem lscan : ∀ x0 x1 x2 x3 x4 x5, Statement (.lscan x0 x1 x2 x3 x4 x5) := fun _ _ _ _ _ _ => of_word rfl
theorem matchW : ∀ x0 x1 x2, Statement (.matchW x0 x1 x2) := fun _ _ _ => of_word rfl
theorem match64 : ∀ x0 x1 x2, Statement (.match64 x0 x1 x2) := fun _ _ _ => of_word rfl
theorem fmtv : ∀ x0 x1 x2, Statement (.fmtv x0 x1 x2) := fun _ _ _ => of_word rfl
theorem cvg : ∀ x0 x1, Statement (.cvg x0 x1) := fun _ _ => of_word rfl
theorem pand : ∀ x0 x1 x2 x3 x4 x5, Statement (.pand x0 x1 x2 x3 x4 x5) := fun _ _ _ _ _ _ => of_word rfl
theorem por : ∀ x0 x1 x2 x3 x4 x5, Statement (.por x0 x1 x2 x3 x4 x5) := fun _ _ _ _ _ _ => of_word rfl
theorem pxor : ∀ x0 x1 x2 x3 x4 x5, Statement (.pxor x0 x1 x2 x3 x4 x5) := fun _ _ _ _ _ _ => of_word rfl
theorem pnot : ∀ x0 x1 x2 x3, Statement (.pnot x0 x1 x2 x3) := fun _ _ _ _ => of_word rfl
theorem bra : ∀ x0 x1 x2 x3, Statement (.bra x0 x1 x2 x3) := fun _ _ _ _ => of_word rfl
theorem brp : ∀ x0 x1 x2 x3, Statement (.brp x0 x1 x2 x3) := fun _ _ _ _ => of_word rfl
theorem call : ∀ x0 x1 x2, Statement (.call x0 x1 x2) := fun _ _ _ => of_word rfl
theorem ret : ∀ x0 x1, Statement (.ret x0 x1) := fun _ _ => of_word rfl
theorem jmp : ∀ x0 x1, Statement (.jmp x0 x1) := fun _ _ => of_word rfl
theorem exit : ∀ x0, Statement (.exit x0) := fun _ => of_word rfl
theorem nop : ∀ x0, Statement (.nop x0) := fun _ => of_word rfl
theorem rep : ∀ x0 x1 x2 x3 x4 x5, Statement (.rep x0 x1 x2 x3 x4 x5) := fun _ _ _ _ _ _ => of_word rfl
theorem rsr : ∀ x0 x1 x2, Statement (.rsr x0 x1 x2) := fun _ _ _ => of_word rfl
theorem wbase : ∀ x0 x1 x2, Statement (.wbase x0 x1 x2) := fun _ _ _ => of_word rfl
theorem ldG : ∀ x0 x1 x2 x3 x4 x5, Statement (.ldG x0 x1 x2 x3 x4 x5) := fun _ _ _ _ _ _ => of_word rfl
theorem ldC : ∀ x0 x1 x2 x3 x4 x5, Statement (.ldC x0 x1 x2 x3 x4 x5) := fun _ _ _ _ _ _ => of_word rfl
theorem ldS : ∀ x0 x1 x2 x3 x4, Statement (.ldS x0 x1 x2 x3 x4) := fun _ _ _ _ _ => of_word rfl
theorem ldX : ∀ x0 x1 x2 x3 x4, Statement (.ldX x0 x1 x2 x3 x4) := fun _ _ _ _ _ => of_word rfl
theorem ldAcq : ∀ x0 x1 x2 x3 x4 x5, Statement (.ldAcq x0 x1 x2 x3 x4 x5) := fun _ _ _ _ _ _ => of_word rfl
theorem stG : ∀ x0 x1 x2 x3 x4, Statement (.stG x0 x1 x2 x3 x4) := fun _ _ _ _ _ => of_word rfl
theorem stS : ∀ x0 x1 x2 x3, Statement (.stS x0 x1 x2 x3) := fun _ _ _ _ => of_word rfl
theorem stRel : ∀ x0 x1 x2 x3 x4, Statement (.stRel x0 x1 x2 x3 x4) := fun _ _ _ _ _ => of_word rfl
theorem stX : ∀ x0 x1 x2 x3 x4, Statement (.stX x0 x1 x2 x3 x4) := fun _ _ _ _ _ => of_word rfl
theorem gft : ∀ x0 x1 x2 x3 x4, Statement (.gft x0 x1 x2 x3 x4) := fun _ _ _ _ _ => of_word rfl
theorem fence : ∀ x0 x1, Statement (.fence x0 x1) := fun _ _ => of_word rfl
theorem fenceRel : ∀ x0 x1, Statement (.fenceRel x0 x1) := fun _ _ => of_word rfl
theorem fenceAcq : ∀ x0 x1, Statement (.fenceAcq x0 x1) := fun _ _ => of_word rfl
theorem cflush : ∀ x0 x1, Statement (.cflush x0 x1) := fun _ _ => of_word rfl
theorem cdemote : ∀ x0 x1, Statement (.cdemote x0 x1) := fun _ _ => of_word rfl
theorem cpref : ∀ x0 x1 x2, Statement (.cpref x0 x1 x2) := fun _ _ _ => of_word rfl
theorem bld : ∀ x0 x1 x2, Statement (.bld x0 x1 x2) := fun _ _ _ => of_word rfl
theorem bsel : ∀ x0 x1 x2, Statement (.bsel x0 x1 x2) := fun _ _ _ => of_word rfl
theorem mma : ∀ x0 x1 x2 x3 x4, Statement (.mma x0 x1 x2 x3 x4) := fun _ _ _ _ _ => of_word rfl
theorem mmaz : ∀ x0 x1 x2 x3 x4, Statement (.mmaz x0 x1 x2 x3 x4) := fun _ _ _ _ _ => of_word rfl
theorem acz : ∀ x0 x1, Statement (.acz x0 x1) := fun _ _ => of_word rfl
theorem acld : ∀ x0 x1 x2, Statement (.acld x0 x1 x2) := fun _ _ _ => of_word rfl
theorem acst : ∀ x0 x1 x2 x3, Statement (.acst x0 x1 x2 x3) := fun _ _ _ _ => of_word rfl
theorem acrd : ∀ x0 x1 x2 x3 x4, Statement (.acrd x0 x1 x2 x3 x4) := fun _ _ _ _ _ => of_word rfl
theorem acwr : ∀ x0 x1 x2 x3, Statement (.acwr x0 x1 x2 x3) := fun _ _ _ _ => of_word rfl
theorem acscl : ∀ x0 x1 x2, Statement (.acscl x0 x1 x2) := fun _ _ _ => of_word rfl
theorem atmAdd : ∀ x0 x1 x2 x3 x4 x5, Statement (.atmAdd x0 x1 x2 x3 x4 x5) := fun _ _ _ _ _ _ => of_word rfl
theorem redAdd : ∀ x0 x1 x2 x3 x4, Statement (.redAdd x0 x1 x2 x3 x4) := fun _ _ _ _ _ => of_word rfl
theorem atmImin : ∀ x0 x1 x2 x3 x4 x5, Statement (.atmImin x0 x1 x2 x3 x4 x5) := fun _ _ _ _ _ _ => of_word rfl
theorem redImin : ∀ x0 x1 x2 x3 x4, Statement (.redImin x0 x1 x2 x3 x4) := fun _ _ _ _ _ => of_word rfl
theorem atmNmin : ∀ x0 x1 x2 x3 x4 x5, Statement (.atmNmin x0 x1 x2 x3 x4 x5) := fun _ _ _ _ _ _ => of_word rfl
theorem redNmin : ∀ x0 x1 x2 x3 x4, Statement (.redNmin x0 x1 x2 x3 x4) := fun _ _ _ _ _ => of_word rfl
theorem atmImax : ∀ x0 x1 x2 x3 x4 x5, Statement (.atmImax x0 x1 x2 x3 x4 x5) := fun _ _ _ _ _ _ => of_word rfl
theorem redImax : ∀ x0 x1 x2 x3 x4, Statement (.redImax x0 x1 x2 x3 x4) := fun _ _ _ _ _ => of_word rfl
theorem atmNmax : ∀ x0 x1 x2 x3 x4 x5, Statement (.atmNmax x0 x1 x2 x3 x4 x5) := fun _ _ _ _ _ _ => of_word rfl
theorem redNmax : ∀ x0 x1 x2 x3 x4, Statement (.redNmax x0 x1 x2 x3 x4) := fun _ _ _ _ _ => of_word rfl
theorem atmAnd : ∀ x0 x1 x2 x3 x4 x5, Statement (.atmAnd x0 x1 x2 x3 x4 x5) := fun _ _ _ _ _ _ => of_word rfl
theorem redAnd : ∀ x0 x1 x2 x3 x4, Statement (.redAnd x0 x1 x2 x3 x4) := fun _ _ _ _ _ => of_word rfl
theorem atmOr : ∀ x0 x1 x2 x3 x4 x5, Statement (.atmOr x0 x1 x2 x3 x4 x5) := fun _ _ _ _ _ _ => of_word rfl
theorem redOr : ∀ x0 x1 x2 x3 x4, Statement (.redOr x0 x1 x2 x3 x4) := fun _ _ _ _ _ => of_word rfl
theorem atmXor : ∀ x0 x1 x2 x3 x4 x5, Statement (.atmXor x0 x1 x2 x3 x4 x5) := fun _ _ _ _ _ _ => of_word rfl
theorem redXor : ∀ x0 x1 x2 x3 x4, Statement (.redXor x0 x1 x2 x3 x4) := fun _ _ _ _ _ => of_word rfl
theorem atmXchg : ∀ x0 x1 x2 x3 x4 x5, Statement (.atmXchg x0 x1 x2 x3 x4 x5) := fun _ _ _ _ _ _ => of_word rfl
theorem atmCas : ∀ x0 x1 x2 x3 x4 x5, Statement (.atmCas x0 x1 x2 x3 x4 x5) := fun _ _ _ _ _ _ => of_word rfl
theorem atmFaddG : ∀ x0 x1 x2 x3 x4, Statement (.atmFaddG x0 x1 x2 x3 x4) := fun _ _ _ _ _ => of_word rfl
theorem redFaddG : ∀ x0 x1 x2 x3, Statement (.redFaddG x0 x1 x2 x3) := fun _ _ _ _ => of_word rfl
theorem atmFaddS : ∀ x0 x1 x2 x3 x4, Statement (.atmFaddS x0 x1 x2 x3 x4) := fun _ _ _ _ _ => of_word rfl
theorem redFaddS : ∀ x0 x1 x2 x3, Statement (.redFaddS x0 x1 x2 x3) := fun _ _ _ _ => of_word rfl
theorem xcp : ∀ x0 x1, Statement (.xcp x0 x1) := fun _ _ => of_word rfl
theorem xget : ∀ x0 x1, Statement (.xget x0 x1) := fun _ _ => of_word rfl
theorem xput : ∀ x0 x1, Statement (.xput x0 x1) := fun _ _ => of_word rfl
theorem xputRel : ∀ x0 x1, Statement (.xputRel x0 x1) := fun _ _ => of_word rfl
theorem xred : ∀ x0 x1, Statement (.xred x0 x1) := fun _ _ => of_word rfl
theorem xsig : ∀ x0 x1, Statement (.xsig x0 x1) := fun _ _ => of_word rfl
theorem xgth : ∀ x0 x1, Statement (.xgth x0 x1) := fun _ _ => of_word rfl
theorem xrsc : ∀ x0 x1, Statement (.xrsc x0 x1) := fun _ _ => of_word rfl
theorem chap : ∀ x0 x1 x2, Statement (.chap x0 x1 x2) := fun _ _ _ => of_word rfl
theorem wcnt : ∀ x0 x1 x2, Statement (.wcnt x0 x1 x2) := fun _ _ _ => of_word rfl
theorem syarm : ∀ x0 x1 x2, Statement (.syarm x0 x1 x2) := fun _ _ _ => of_word rfl
theorem syadd : ∀ x0 x1 x2, Statement (.syadd x0 x1 x2) := fun _ _ _ => of_word rfl
theorem sywait : ∀ x0 x1 x2, Statement (.sywait x0 x1 x2) := fun _ _ _ => of_word rfl
theorem barWg : ∀ x0, Statement (.barWg x0) := fun _ => of_word rfl
theorem barGang : ∀ x0, Statement (.barGang x0) := fun _ => of_word rfl
theorem barX : ∀ x0, Statement (.barX x0) := fun _ => of_word rfl
theorem mon : ∀ x0 x1, Statement (.mon x0 x1) := fun _ _ => of_word rfl
theorem mwait : ∀ x0 x1, Statement (.mwait x0 x1) := fun _ _ => of_word rfl
theorem ropen : ∀ x0 x1 x2, Statement (.ropen x0 x1 x2) := fun _ _ _ => of_word rfl
theorem rclose : ∀ x0, Statement (.rclose x0) := fun _ => of_word rfl
theorem rdepth : ∀ x0 x1, Statement (.rdepth x0 x1) := fun _ _ => of_word rfl
theorem rkeepG : ∀ x0 x1 x2, Statement (.rkeepG x0 x1 x2) := fun _ _ _ => of_word rfl
theorem rkeepS : ∀ x0 x1 x2, Statement (.rkeepS x0 x1 x2) := fun _ _ _ => of_word rfl
theorem trap : ∀ x0 x1, Statement (.trap x0 x1) := fun _ _ => of_word rfl
theorem eretResume : ∀ x0, Statement (.eretResume x0) := fun _ => of_word rfl
theorem eretRetry : ∀ x0, Statement (.eretRetry x0) := fun _ => of_word rfl
theorem eretEscalate : ∀ x0, Statement (.eretEscalate x0) := fun _ => of_word rfl
theorem eretKill : ∀ x0, Statement (.eretKill x0) := fun _ => of_word rfl
theorem segw : ∀ x0 x1 x2, Statement (.segw x0 x1 x2) := fun _ _ _ => of_word rfl
theorem segr : ∀ x0 x1 x2, Statement (.segr x0 x1 x2) := fun _ _ _ => of_word rfl
theorem wsr : ∀ x0 x1 x2, Statement (.wsr x0 x1 x2) := fun _ _ _ => of_word rfl
theorem tlbiVa : ∀ x0 x1 x2, Statement (.tlbiVa x0 x1 x2) := fun _ _ _ => of_word rfl
theorem tlbiCtx : ∀ x0 x1, Statement (.tlbiCtx x0 x1) := fun _ _ => of_word rfl
theorem tlbiAll : ∀ x0, Statement (.tlbiAll x0) := fun _ => of_word rfl
theorem yield : ∀ x0, Statement (.yield x0) := fun _ => of_word rfl
theorem spawn : ∀ x0 x1, Statement (.spawn x0 x1) := fun _ _ => of_word rfl
theorem warpChoice : ∀ x0 x1, Statement (.warpChoice x0 x1) := fun _ _ => of_event rfl
theorem cut : ∀ x0 x1, Statement (.cut x0 x1) := fun _ _ => of_event rfl
theorem loadValueArrival : ∀ x0 x1, Statement (.loadValueArrival x0 x1) := fun _ _ => of_event rfl
theorem stXApply : ∀ x0, Statement (.stXApply x0) := fun _ => of_event rfl
theorem exchangePolaritySwap : ∀ x0, Statement (.exchangePolaritySwap x0) := fun _ => of_event rfl
theorem siblingStop : ∀ x0 x1 x2, Statement (.siblingStop x0 x1 x2) := fun _ _ _ => of_event rfl
theorem mwaitWake : ∀ x0 x1 x2, Statement (.mwaitWake x0 x1 x2) := fun _ _ _ => of_event rfl
theorem monitorTimeout : ∀ x0 x1 x2, Statement (.monitorTimeout x0 x1 x2) := fun _ _ _ => of_event rfl
theorem laneFailure : ∀ x0 x1 x2, Statement (.laneFailure x0 x1 x2) := fun _ _ _ => of_event rfl
theorem spareLaneSwitch : ∀ x0 x1 x2, Statement (.spareLaneSwitch x0 x1 x2) := fun _ _ _ => of_event rfl
theorem ringRollback : ∀ x0 x1 x2, Statement (.ringRollback x0 x1 x2) := fun _ _ _ => of_event rfl
theorem impreciseStoreFault : ∀ x0, Statement (.impreciseStoreFault x0) := fun _ => of_event rfl
theorem homeTimeout : ∀ x0 x1, Statement (.homeTimeout x0 x1) := fun _ _ => of_event rfl
theorem l1Fill : ∀ x0 x1, Statement (.l1Fill x0 x1) := fun _ _ => of_event rfl
theorem sliceWriteArrival : ∀ x0, Statement (.sliceWriteArrival x0) := fun _ => of_event rfl
theorem writeQueueApply : ∀ x0, Statement (.writeQueueApply x0) := fun _ => of_event rfl
theorem gatherMerge : ∀ x0, Statement (.gatherMerge x0) := fun _ => of_event rfl
theorem sharerUpdate : ∀ x0 x1, Statement (.sharerUpdate x0 x1) := fun _ _ => of_event rfl
theorem graftFill : ∀ x0 x1, Statement (.graftFill x0 x1) := fun _ _ => of_event rfl
theorem writerAcknowledge : ∀ x0, Statement (.writerAcknowledge x0) := fun _ => of_event rfl
theorem evictionNotice : ∀ x0 x1, Statement (.evictionNotice x0 x1) := fun _ _ => of_event rfl
theorem sliceFill : ∀ x0 x1 x2, Statement (.sliceFill x0 x1 x2) := fun _ _ _ => of_event rfl
theorem partialSectorMerge : ∀ x0 x1 x2, Statement (.partialSectorMerge x0 x1 x2) := fun _ _ _ => of_event rfl
theorem sliceVictimEviction : ∀ x0 x1, Statement (.sliceVictimEviction x0 x1) := fun _ _ => of_event rfl
theorem refreshDue : ∀ x0 x1, Statement (.refreshDue x0 x1) := fun _ _ => of_event rfl
theorem forcedAllBankRefresh : ∀ x0, Statement (.forcedAllBankRefresh x0) := fun _ => of_event rfl
theorem postponedRefreshDrain : ∀ x0 x1, Statement (.postponedRefreshDrain x0 x1) := fun _ _ => of_event rfl
theorem refreshEnd : ∀ x0 x1, Statement (.refreshEnd x0 x1) := fun _ _ => of_event rfl
theorem pinRepairDue : ∀ x0 x1, Statement (.pinRepairDue x0 x1) := fun _ _ => of_event rfl
theorem pinRepairPauseEnd : ∀ x0 x1, Statement (.pinRepairPauseEnd x0 x1) := fun _ _ => of_event rfl
theorem pageWalk : ∀ x0 x1 x2, Statement (.pageWalk x0 x1 x2) := fun _ _ _ => of_event rfl
theorem syncWordArrival : ∀ x0, Statement (.syncWordArrival x0) := fun _ => of_event rfl
theorem copyCommandTake : ∀ x0 x1, Statement (.copyCommandTake x0 x1) := fun _ _ => of_event rfl
theorem engineLineWrite : ∀ x0 x1, Statement (.engineLineWrite x0 x1) := fun _ _ => of_event rfl
theorem commandRetire : ∀ x0 x1, Statement (.commandRetire x0 x1) := fun _ _ => of_event rfl
theorem xputRelRelease : ∀ x0 x1, Statement (.xputRelRelease x0 x1) := fun _ _ => of_event rfl
theorem xgthVersionRecheck : ∀ x0 x1, Statement (.xgthVersionRecheck x0 x1) := fun _ _ => of_event rfl
theorem xrscChunkArrival : ∀ x0 x1 x2, Statement (.xrscChunkArrival x0 x1 x2) := fun _ _ _ => of_event rfl
theorem columnHeadReduction : ∀ x0 x1, Statement (.columnHeadReduction x0 x1) := fun _ _ => of_event rfl
theorem remoteWriteAck : ∀ x0, Statement (.remoteWriteAck x0) := fun _ => of_event rfl
theorem flitReceive : ∀ x0 x1 x2, Statement (.flitReceive x0 x1 x2) := fun _ _ _ => of_event rfl
theorem creditReturn : ∀ x0 x1 x2, Statement (.creditReturn x0 x1 x2) := fun _ _ _ => of_event rfl
theorem relayForward : ∀ x0 x1, Statement (.relayForward x0 x1) := fun _ _ => of_event rfl
theorem linkFailure : ∀ x0, Statement (.linkFailure x0) := fun _ => of_event rfl
theorem orderedDetourSwitch : ∀ x0, Statement (.orderedDetourSwitch x0) := fun _ => of_event rfl
theorem ethernetFrameReceive : ∀ x0 x1 x2 x3 x4, Statement (.ethernetFrameReceive x0 x1 x2 x3 x4) := fun _ _ _ _ _ => of_event rfl
theorem ethernetFrameResend : ∀ x0 x1 x2, Statement (.ethernetFrameResend x0 x1 x2) := fun _ _ _ => of_event rfl
theorem matrixCommandStart : ∀ x0, Statement (.matrixCommandStart x0) := fun _ => of_event rfl
theorem macroExchange : ∀ x0 x1, Statement (.macroExchange x0 x1) := fun _ _ => of_event rfl
theorem matrixCommandComplete : ∀ x0, Statement (.matrixCommandComplete x0) := fun _ => of_event rfl
theorem chainEntryStart : ∀ x0, Statement (.chainEntryStart x0) := fun _ => of_event rfl
theorem chainEntryComplete : ∀ x0, Statement (.chainEntryComplete x0) := fun _ => of_event rfl
theorem encodeFrameComplete : ∀ x0, Statement (.encodeFrameComplete x0) := fun _ => of_event rfl
theorem chainSlotArm : ∀ x0 x1, Statement (.chainSlotArm x0 x1) := fun _ _ => of_event rfl
theorem chainSlotDisarm : ∀ x0 x1, Statement (.chainSlotDisarm x0 x1) := fun _ _ => of_event rfl
theorem launchRecordTake : ∀ x0, Statement (.launchRecordTake x0) := fun _ => of_event rfl
theorem workGroupRoute : ∀ x0 x1, Statement (.workGroupRoute x0 x1) := fun _ _ => of_event rfl
theorem chunkPassDown : ∀ x0 x1, Statement (.chunkPassDown x0 x1) := fun _ _ => of_event rfl
theorem workGroupPlacement : ∀ x0, Statement (.workGroupPlacement x0) := fun _ => of_event rfl
theorem workGroupResidency : ∀ x0, Statement (.workGroupResidency x0) := fun _ => of_event rfl
theorem packageSteal : ∀ x0 x1, Statement (.packageSteal x0 x1) := fun _ _ => of_event rfl
theorem dieSteal : ∀ x0, Statement (.dieSteal x0) := fun _ => of_event rfl
theorem stealRequest : ∀ x0 x1, Statement (.stealRequest x0 x1) := fun _ _ => of_event rfl
theorem warpComplete : ∀ x0 x1 x2, Statement (.warpComplete x0 x1 x2) := fun _ _ _ => of_event rfl
theorem prunerTrigger : ∀ x0, Statement (.prunerTrigger x0) := fun _ => of_event rfl
theorem prunerMoveStep : ∀ x0, Statement (.prunerMoveStep x0) := fun _ => of_event rfl
theorem contractRelease : ∀ x0, Statement (.contractRelease x0) := fun _ => of_event rfl
theorem deadlineMiss : ∀ x0, Statement (.deadlineMiss x0) := fun _ => of_event rfl
theorem budgetOverrun : ∀ x0, Statement (.budgetOverrun x0) := fun _ => of_event rfl
theorem contractAdmission : Statement (.contractAdmission) := of_event rfl
theorem frequencyStepRequest : ∀ x0 x1, Statement (.frequencyStepRequest x0 x1) := fun _ _ => of_event rfl
theorem frequencyStepEffect : ∀ x0 x1, Statement (.frequencyStepEffect x0 x1) := fun _ _ => of_event rfl
theorem clockCrossingStallEnd : ∀ x0, Statement (.clockCrossingStallEnd x0) := fun _ => of_event rfl
theorem contextPreempt : ∀ x0, Statement (.contextPreempt x0) := fun _ => of_event rfl
theorem drainLimitExpiry : ∀ x0, Statement (.drainLimitExpiry x0) := fun _ => of_event rfl
theorem warpSnapshot : ∀ x0 x1 x2, Statement (.warpSnapshot x0 x1 x2) := fun _ _ _ => of_event rfl
theorem workGroupSave : ∀ x0, Statement (.workGroupSave x0) := fun _ => of_event rfl
theorem snapshotLimitExpiry : ∀ x0, Statement (.snapshotLimitExpiry x0) := fun _ => of_event rfl
theorem contextResume : ∀ x0, Statement (.contextResume x0) := fun _ => of_event rfl
theorem workGroupRestore : ∀ x0, Statement (.workGroupRestore x0) := fun _ => of_event rfl
theorem contextReset : ∀ x0, Statement (.contextReset x0) := fun _ => of_event rfl
theorem contextRelease : ∀ x0, Statement (.contextRelease x0) := fun _ => of_event rfl
theorem contractRemove : ∀ x0, Statement (.contractRemove x0) := fun _ => of_event rfl
theorem mapOutCore : ∀ x0, Statement (.mapOutCore x0) := fun _ => of_event rfl
theorem mapOutCDie : ∀ x0, Statement (.mapOutCDie x0) := fun _ => of_event rfl
theorem mapOutStack : ∀ x0, Statement (.mapOutStack x0) := fun _ => of_event rfl
theorem mapOutPseudoChannel : ∀ x0, Statement (.mapOutPseudoChannel x0) := fun _ => of_event rfl
theorem pseudoChannelDropCopyEnd : ∀ x0 x1, Statement (.pseudoChannelDropCopyEnd x0 x1) := fun _ _ => of_event rfl
theorem mapOutDieLink : ∀ x0, Statement (.mapOutDieLink x0) := fun _ => of_event rfl
theorem mapOutStolilPort : ∀ x0, Statement (.mapOutStolilPort x0) := fun _ => of_event rfl
theorem rackQueueReserve : Statement (.rackQueueReserve) := of_event rfl
theorem rackQueuePublish : ∀ x0, Statement (.rackQueuePublish x0) := fun _ => of_event rfl
theorem walkAnswer : ∀ x0 x1 x2, Statement (.walkAnswer x0 x1 x2) := fun _ _ _ => of_event rfl
theorem stealAnswer : ∀ x0 x1 x2, Statement (.stealAnswer x0 x1 x2) := fun _ _ _ => of_event rfl
theorem admissionAnswer : ∀ x0 x1 x2, Statement (.admissionAnswer x0 x1 x2) := fun _ _ _ => of_event rfl
theorem pruneAnswer : ∀ x0 x1, Statement (.pruneAnswer x0 x1) := fun _ _ => of_event rfl
theorem trapAnswer : ∀ x0 x1 x2, Statement (.trapAnswer x0 x1 x2) := fun _ _ _ => of_event rfl
theorem dramRepairAnswer : ∀ x0 x1, Statement (.dramRepairAnswer x0 x1) := fun _ _ => of_event rfl
theorem dieLinkHold : ∀ x0, Statement (.dieLinkHold x0) := fun _ => of_event rfl
theorem holdDrainComplete : ∀ x0, Statement (.holdDrainComplete x0) := fun _ => of_event rfl
theorem dieLinkRelease : ∀ x0, Statement (.dieLinkRelease x0) := fun _ => of_event rfl
theorem dieLinkTrain : ∀ x0 x1, Statement (.dieLinkTrain x0 x1) := fun _ _ => of_event rfl
theorem trainingEnd : ∀ x0 x1, Statement (.trainingEnd x0 x1) := fun _ _ => of_event rfl
theorem laneRepair : ∀ x0 x1, Statement (.laneRepair x0 x1) := fun _ _ => of_event rfl
theorem laneRepairComplete : ∀ x0, Statement (.laneRepairComplete x0) := fun _ => of_event rfl
theorem linkRetrainTrigger : ∀ x0, Statement (.linkRetrainTrigger x0) := fun _ => of_event rfl
theorem stolilPortRetrain : ∀ x0 x1, Statement (.stolilPortRetrain x0 x1) := fun _ _ => of_event rfl
theorem mailboxAttest : Statement (.mailboxAttest) := of_event rfl
theorem mailboxWriteRecord : Statement (.mailboxWriteRecord) := of_event rfl
theorem mailboxReadCertChain : Statement (.mailboxReadCertChain) := of_event rfl
theorem mailboxCommandComplete : Statement (.mailboxCommandComplete) := of_event rfl
theorem counterClear : ∀ x0, Statement (.counterClear x0) := fun _ => of_event rfl
theorem configRegisterWrite : ∀ x0 x1 x2, Statement (.configRegisterWrite x0 x1 x2) := fun _ _ _ => of_event rfl
theorem powerGood : ∀ x0 x1 x2, Statement (.powerGood x0 x1 x2) := fun _ _ _ => of_event rfl
theorem stage1Reached : ∀ x0 x1, Statement (.stage1Reached x0 x1) := fun _ _ => of_event rfl
theorem stage2Reached : ∀ x0 x1 x2, Statement (.stage2Reached x0 x1 x2) := fun _ _ _ => of_event rfl
theorem heartbeatSend : Statement (.heartbeatSend) := of_event rfl
theorem heartbeatTimeout : Statement (.heartbeatTimeout) := of_event rfl
theorem epochAdvance : ∀ x0, Statement (.epochAdvance x0) := fun _ => of_event rfl
theorem fabricConfigWrite : ∀ x0 x1 x2 x3, Statement (.fabricConfigWrite x0 x1 x2 x3) := fun _ _ _ _ => of_event rfl
theorem logRecordShip : ∀ x0, Statement (.logRecordShip x0) := fun _ => of_event rfl
theorem logRecordAck : ∀ x0, Statement (.logRecordAck x0) := fun _ => of_event rfl
theorem hostPostedWrite : ∀ x0 x1, Statement (.hostPostedWrite x0 x1) := fun _ _ => of_event rfl
theorem hostRead : ∀ x0 x1, Statement (.hostRead x0 x1) := fun _ _ => of_event rfl
theorem instructionCacheFill : ∀ x0 x1 x2, Statement (.instructionCacheFill x0 x1 x2) := fun _ _ _ => of_event rfl
theorem dieLinkFlitReceive : ∀ x0 x1 x2 x3 x4, Statement (.dieLinkFlitReceive x0 x1 x2 x3 x4) := fun _ _ _ _ _ => of_event rfl

end Sys2Proof.Laws.Coded
end

