-- ==== Sys2Proof/Tests/Slice0.lean ====
section
/-! SUPPORT. Tests: words of the spec decode to their instructions, ill-formed instructions are refused, single steps give the spec's worked
results, and for every statement of the obligations a state that meets its hypotheses. -/

namespace Sys2Proof.Tests

open Sys2Proof.Machine

/-! Small states. -/

/-- A warp of the given lanes, changed by f, about to issue a word at 0x1000, with some thread registers set alike in its lanes. -/
def scene (lanes : List Nat) (f : Warp → Warp) (regs : List (Nat × Nat)) : State :=
  let s := State.reset.withFetchWord 32 0
  let s := s.onWarp 0 fun w => f { w with lanes := (List.range 32).map fun l => if lanes.contains l then placedLane else Lane.absent }
  let s := regs.foldl (fun s (k, v) => lanes.foldl (fun s l => s.setReg (regKey 0 0 l k) ⟨BitVec.ofNat 32 v, false⟩) s) s
  { s with chosen := some ⟨0, 0, 0, lanes, 0x1000, 0, false⟩ }

/-- Every lane of a warp changed. -/
def eachLane (f : Lane → Lane) (w : Warp) : Warp := { w with lanes := w.lanes.map f }

/-- System mode. -/
def asSystem (w : Warp) : Warp := { w with mode := 1 }

/-- The group that a scene has chosen, its warp before the issue, the state that its instruction reads, and the warp there. -/
def crew (s : State) : Group := s.chosen.getD ⟨0, 0, 0, [], 0, 0, false⟩
def warpBefore (s : State) : Warp := (s.warpAt 0).getD (placedWarp s 0)
def reading (s : State) : State := s.issuing (crew s)
def during (s : State) : Warp := ((reading s).warpAt 0).getD (placedWarp s 0)

/-- The instruction issues in the scene. -/
def issuesNow (i : Instr) (s : State) : Bool :=
  let g := crew s
  let w := warpBefore s
  s.chosen.isSome && (s.warpAt 0).isSome && ((reading s).warpAt 0).isSome && g.key == 0 && decide g.lanes.Nodup &&
    g.lanes.all (fun l => l < 32 && (w.lane l).present) && !w.protected' && i.wellFormed && (!privileged i || w.system) &&
    (i.opcode == 0x59 || g.lanes.all fun l => (windowFail w l i.operands).isNone)

/-- The hypotheses of a statement about i under a condition can be met. -/
def Meets (i : Instr) (ok : Cond) : Prop :=
  ∃ g w s v, Issues i g w s ∧ (s.issuing g).warpAt g.key = some v ∧ ok (s.issuing g) g v

theorem issues_of {i : Instr} {s : State} (h : issuesNow i s = true) :
    Issues i (crew s) (warpBefore s) s ∧ (s.issuing (crew s)).warpAt (crew s).key = some (during s) := by
  simp only [issuesNow, Bool.and_eq_true, decide_eq_true_eq, List.all_eq_true, Bool.or_eq_true, beq_iff_eq, Bool.not_eq_true',
    Option.isNone_iff_eq_none] at h
  obtain ⟨⟨⟨⟨⟨⟨⟨⟨⟨h1, h2⟩, h3⟩, h4⟩, h5⟩, h6⟩, h7⟩, h8⟩, h9⟩, h10⟩ := h
  obtain ⟨g, hg⟩ := Option.isSome_iff_exists.1 h1
  obtain ⟨w, hw⟩ := Option.isSome_iff_exists.1 h2
  obtain ⟨v, hv⟩ := Option.isSome_iff_exists.1 h3
  have e1 : crew s = g := by simp [crew, hg]
  have e2 : warpBefore s = w := by simp [warpBefore, hw]
  have e3 : during s = v := by simp [during, hv]
  refine ⟨⟨by rw [hg, e1], by rw [h4, hw, e2], h5, fun l hl => by simpa using h6 l hl, h7, h8, ?_, ?_⟩, ?_⟩
  · intro hp
    rcases h9 with h9 | h9
    · rw [hp] at h9; cases h9
    · exact h9
  · intro ho l hl
    rcases h10 with h10 | h10
    · exact absurd h10 ho
    · exact h10 l hl
  · rw [h4]; show (reading s).warpAt 0 = _; rw [hv, e3]

theorem meets_of {i : Instr} {ok : Cond} (s : State) (h : issuesNow i s = true) (k : ok (reading s) (crew s) (during s)) : Meets i ok :=
  ⟨crew s, warpBefore s, s, during s, (issues_of h).1, (issues_of h).2, k⟩

/-- An option's value, where it is known. -/
theorem of_some {α : Type} {o : Option α} {x : α} (h : o = some x) {P : α → Prop} (k : P x) : ∀ y, o = some y → P y := by
  rintro y rfl; cases h; exact k

/-- The 2 MiB page that every translation of a scene uses. -/
def page (_ : Nat) : TlbEntry := placedPage State.reset

/-! Hypotheses that are met: instruction words. -/

theorem witness_IntegerWords : Meets (.add false 4 8 12 false) always ∧ Meets (.addi true 4 8 0x3FF) always ∧
    Meets (.mad false 96 8 12 true) always ∧ Meets (.sarReg false 120 8 12 false) always ∧ Meets (.rolImm false 95 121 31) always :=
  ⟨meets_of (scene [0, 31] id []) (by decide) trivial, meets_of (scene [0, 31] id []) (by decide) trivial,
    meets_of (scene [0, 31] id []) (by decide) trivial, meets_of (scene [0, 31] id []) (by decide) trivial,
    meets_of (scene [0, 31] id []) (by decide) trivial⟩

theorem witness_BitFieldsAndPacking : Meets (.abs false 4 8 15) always ∧ Meets (.pk4 false 96 8 0 7) always ∧
    Meets (.bfxs false 4 8 12 false) always ∧ Meets (.bfi64 false 94 118 12 false) always :=
  ⟨meets_of (scene [0, 31] id []) (by decide) trivial, meets_of (scene [0, 31] id []) (by decide) trivial,
    meets_of (scene [0, 31] id []) (by decide) trivial, meets_of (scene [0, 31] id []) (by decide) trivial⟩

/-- The relation of the comparisons exists. -/
theorem witness_SelectCompareConstants : Meets (.sel false 4 8 12 7) always ∧ Meets (.cmp false 5 7 8 12 false true) always ∧
    Meets (.cmp64 false 2 0 8 12 false false) always ∧ Meets (.movi false 4 0x1FFFF) always ∧ Meets (.movh false 4 0x1FFFF) always ∧
    ∃ r : Nat → Int → Int → Bool, ∀ c x y, r c x y = true ↔ holdsInt c x y := by
  refine ⟨meets_of (scene [0, 31] id []) (by decide) trivial, meets_of (scene [0, 31] id []) (by decide) trivial,
    meets_of (scene [0, 31] id []) (by decide) trivial, meets_of (scene [0, 31] id []) (by decide) trivial,
    meets_of (scene [0, 31] id []) (by decide) trivial, ?_⟩
  classical
  exact ⟨fun c x y => decide (holdsInt c x y), fun c x y => by simp⟩

theorem witness_Integers64 : Meets (.mad64 false 4 8 12 false) always ∧ Meets (.sar64 false 96 118 95 true) always ∧
    Meets (.mulh64I64 false 120 8 12 false) always :=
  ⟨meets_of (scene [0, 31] id []) (by decide) trivial, meets_of (scene [0, 31] id []) (by decide) trivial,
    meets_of (scene [0, 31] id []) (by decide) trivial⟩

theorem witness_FloatArithmetic : Meets (.fadd false 4 8 12 false 3) always ∧ Meets (.ffma true 96 8 12 false 0) always ∧
    Meets (.fcmp false 7 6 8 12 false) always :=
  ⟨meets_of (scene [0, 31] id []) (by decide) trivial, meets_of (scene [0, 31] id []) (by decide) trivial,
    meets_of (scene [0, 31] id []) (by decide) trivial⟩

theorem witness_FloatFunctions : Meets (.frcp false 4 8 15) always ∧ Meets (.frnd false 4 8 0 3) always ∧
    Meets (.fcvt false 4 8 12 0 3) always ∧ Meets (.fcvtSat false 96 8 0 12 1) always :=
  ⟨meets_of (scene [0, 31] id []) (by decide) trivial, meets_of (scene [0, 31] id []) (by decide) trivial,
    meets_of (scene [0, 31] id []) (by decide) trivial, meets_of (scene [0, 31] id []) (by decide) trivial⟩

theorem witness_PackedAndDots : Meets (.hfma2 false 4 8 12 false true) always ∧ Meets (.dot8 false 4 8 12 false) always ∧
    Meets (.dotm8 false 4 8 12 false 3) always ∧ Meets (.sclb false 4 8 12 false 3) always :=
  ⟨meets_of (scene [0, 31] id []) (by decide) trivial, meets_of (scene [0, 31] id []) (by decide) trivial,
    meets_of (scene [0, 31] id []) (by decide) trivial, meets_of (scene [0, 31] id []) (by decide) trivial⟩

/-- A quiet and a signalling NaN, and two numbers. -/
theorem witness_FloatComparisonAndNaNs : isNaNWord 0x7FC00000 = true ∧ isSignalling 0x7FC00000 = false ∧ isNaNWord 0xFF800001 = true ∧
    isSignalling 0xFF800001 = true ∧ isNaNWord 0x7F800000 = false ∧ isNaNWord 0x80000000 = false := by decide

/-- A rounding that does not overflow, in each format, at the ends of its range. -/
theorem witness_RoundsOnce : (FpFormat.f32.round 0 false false 0x1FFFFFF (-1) false).2.overflow = false ∧
    (FpFormat.f32.round 3 false false 1 (-200) false).2.overflow = false ∧ (FpFormat.h16.round 1 false true 65504 0 false).2.overflow = false ∧
    (FpFormat.w16.round 2 false true 3 (-9) false).2.overflow = false ∧ (FpFormat.m8w.round 0 false false 57344 0 false).2.overflow = false := by
  decide

theorem witness_PredicateLogic : Meets (.pand false 7 true 7 false 0) always ∧ Meets (.pnot true 0 true 6) always :=
  ⟨meets_of (scene [0, 31] id []) (by decide) trivial, meets_of (scene [0, 31] id []) (by decide) trivial⟩

theorem witness_ControlFlow :
    Meets (.bra false 1 true 0x80000) (fun _ g v => ∀ l ∈ g.lanes, (v.lane l).predPoison.getLsbD 1 = false) ∧
    Meets (.bra false 1 true 0x80000) (fun _ g v => (1 : BitVec 3) ≠ 7 ∧ ∃ l ∈ g.lanes, (v.lane l).predPoison.getLsbD 1 = true) ∧
    Meets (.call false 94 0x10000) always ∧
    Meets (.ret false 8) (fun b g v => ∀ l ∈ g.lanes, (readPair b g v l 8).poison = false ∧ (readPair b g v l 8).val.toNat % 4 = 0 ∧
      (readPair b g v l 8).val.toNat < 2 ^ 57) ∧
    Meets (.jmp false 8) (fun b g v => (∀ l ∈ g.lanes, (readPair b g v l 8).poison = false) ∧
      ∃ l ∈ g.lanes, (readPair b g v l 8).val.toNat % 4 ≠ 0) ∧
    Meets (.jmp false 8) (fun b g v => (∀ l ∈ g.lanes, (readPair b g v l 8).poison = false ∧ (readPair b g v l 8).val.toNat % 4 = 0) ∧
      ∃ l ∈ g.lanes, 2 ^ 57 ≤ (readPair b g v l 8).val.toNat) ∧
    Meets (.jmp false 8) (fun b g v => ∃ l ∈ g.lanes, (readPair b g v l 8).poison = true) :=
  ⟨meets_of (scene [0, 31] id []) (by decide) (by decide),
    meets_of (scene [0, 31] (eachLane fun x => { x with predPoison := 2 }) []) (by decide) (by decide),
    meets_of (scene [0, 31] id []) (by decide) trivial,
    meets_of (scene [0, 31] id [(8, 0xFFFFFFFC), (9, 0x1FFFFFF)]) (by decide) (by decide),
    meets_of (scene [0, 31] id [(8, 2)]) (by decide) (by decide),
    meets_of (scene [0, 31] id [(9, 0x2000000)]) (by decide) (by decide),
    meets_of ((scene [0, 31] id []).setReg (regKey 0 0 31 9) ⟨0, true⟩) (by decide) (by decide)⟩

/-- One pending entry of each kind. -/
def pendingEntry (arrived : Bool) : Commit := ⟨.v 4 1, 1, if arrived then some [PWord.zero] else none, 0, none, none⟩

theorem witness_Exit :
    Meets (.exit false) (fun _ g v => (∀ l ∈ g.lanes, ∀ c ∈ (v.lane l).commits, c.value.isSome = true) ∧ v.inHandler = false) ∧
    Meets (.exit false) (fun _ g v => (∀ l ∈ g.lanes, ∀ c ∈ (v.lane l).commits, c.value.isSome = true) ∧ v.inHandler = true ∧
      ∃ l < v.lanes.length, l ∉ g.lanes ∧ (v.lane l).present = true ∧ (v.lane l).exited = false ∧ (v.lane l).held = false) ∧
    Meets (.exit false) (fun _ g v => (∀ l ∈ g.lanes, ∀ c ∈ (v.lane l).commits, c.value.isSome = true) ∧ v.inHandler = true ∧
      ¬ ∃ l < v.lanes.length, l ∉ g.lanes ∧ (v.lane l).present = true ∧ (v.lane l).exited = false ∧ (v.lane l).held = false) ∧
    Meets (.exit false) (fun _ g v => ∃ l ∈ g.lanes, ∃ c ∈ (v.lane l).commits, c.value = none) :=
  ⟨meets_of (scene [0, 31] id []) (by decide) (by decide),
    meets_of ((scene [0] (fun w => { w with inHandler := true }) []).onLanes 0 [1] fun _ => placedLane) (by decide) (by decide),
    meets_of (scene [0, 31] (fun w => { w with inHandler := true }) []) (by decide) (by decide),
    meets_of (scene [0, 31] (eachLane fun x => { x with commits := [{ pendingEntry false with countdown := 2 }] }) []) (by decide) (by decide)⟩

/-- A prefix and the word that it governs, in the line that is fetched. -/
def prefixed (w : Word) (s : State) : State :=
  { s with mem := { s.mem with icache := s.mem.icache.adjust (icacheKey 0 0 32) fun l =>
    { l with data := List.replicate 4 0 ++ leBytes 4 w.toNat ++ List.replicate 120 0 } } }

/-- `rep` over `add v94, v8, v12` with a step of 1: its last legal index. -/
theorem witness_Repeats :
    let s := prefixed 0x01BC2060 (scene [0, 31] id [])
    let s : State := { s with chosen := some ⟨0, 0, 0, [0, 31], 0x1000, 1, false⟩ }
    Issues (.rep false 1 true false false 0) (crew s) (warpBefore s) s ∧ (s.issuing (crew s)).warpAt (crew s).key = some (during s) ∧
    governed s.unchoose (crew s) = .word 0x01BC2060 ∧ decode 0x01BC2060 = some (.add false 94 8 12 false) ∧
    repLegal 2 1 true false false (.add false 94 8 12 false) = true ∧ Issues (.add false 95 8 12 false) (crew s) (warpBefore s) s ∧
    ∃ sigs b, runWord (.add false 95 8 12 false) (crew s) (s.issuing (crew s)) = .done sigs b := by
  refine ⟨(issues_of (by decide)).1, (issues_of (i := .rep false 1 true false false 0) (by decide)).2, by rfl, by decide, by decide,
    (issues_of (by decide)).1, ?_⟩
  exact ⟨_, _, rfl⟩

theorem witness_CrossLane : Meets (.shfl false 4 8 12 false 2) (gathers 4 0x80000001) ∧ Meets (.cvg false 4) (gathers 4 0x80000003) ∧
    Meets (.lscan false 4 8 3 true 10) (gathers 4 0x80000001) := by
  refine ⟨meets_of (scene [0, 31] id [(4, 0x80000001)]) (by decide) ?_, meets_of (scene [0, 31] id [(4, 0x80000003)]) (by decide) ?_,
    meets_of (scene [0, 31] id [(4, 0x80000001)]) (by decide) ?_⟩
  all_goals unfold gathers; decide

/-- A lane parked at an instruction. -/
def parkedAt' (i : Instr) (m : Word) (x : Lane) : Lane := if x.present then { x with park := some ⟨i, m, false⟩ } else x

theorem witness_CrossLaneSets : Meets (.cvg false 4) parkedSet ∧ Meets (.voteAll false 4 false 0 7) (stillWaits 4) ∧
    (maskField (.cvg false 4) = some 4 ∧ Meets (.cvg false 4) fun _ g v => g.lanes ≠ [] ∧ (∀ l ∈ g.lanes, (v.lane l).park ≠ none) ∧
      ∃ l ∈ g.lanes, (match (v.lane l).park, (v.lane (g.lanes.headD 0)).park with
        | some p, some p₀ => p.mask != p₀.mask || !p.mask.getLsbD l
        | _, _ => true) = true) := by
  refine ⟨meets_of (scene [0, 31] (eachLane (parkedAt' (.cvg false 4) 0x80000001)) []) (by decide) ?_,
    meets_of ((scene [0] id [(4, 3)]).onLanes 0 [1] fun _ => placedLane) (by decide) ?_, rfl,
    meets_of (scene [0, 31] (eachLane (parkedAt' (.cvg false 4) 1)) []) (by decide) (by decide)⟩
  · refine ⟨by decide, 0x80000001, fun l hl => ?_⟩
    have : l = 0 ∨ l = 31 := by simpa using (show l ∈ [0, 31] from hl)
    rcases this with rfl | rfl
    · exact ⟨by decide, ⟨.cvg false 4, 0x80000001, false⟩, by decide, rfl⟩
    · exact ⟨by decide, ⟨.cvg false 4, 0x80000001, false⟩, by decide, rfl⟩
  · unfold stillWaits; decide

theorem witness_SpecialRegisters : Meets (.rsr false 4 0x021) always ∧ Meets (.rdepth false 4) always ∧ Meets (.segr false 4 9) always ∧
    Meets (.wbase false 8 1) (fun b g v => ∀ l ∈ g.lanes, (readField b g v l 8).poison = false ∧
      (let x := (BitVec.ofInt 32 ((readField b g v l 8).val.toInt + 1)).toInt; (x < 0 || x > 15 || 32 * x ≥ v.size) = false)) ∧
    Meets (.wbase false 8 1) (fun b g v => ∃ l ∈ g.lanes,
      (let x := (BitVec.ofInt 32 ((readField b g v l 8).val.toInt + 1)).toInt; (x < 0 || x > 15 || 32 * x ≥ v.size) = true)) ∧
    Meets (.wsr false 8 0x010) (fun b g v => ∀ l ∈ g.lanes, (readField b g v l 8).poison = false) ∧
    Meets (.wsr false 8 0x020) (agree 8 7) ∧ Meets (.wsr false 8 0x021) (agreePair 8 0x700000004) ∧
    Meets (.segw false 8 3) (fun b g v => agreePair 8 0x80000 b g v ∧
      segmentLegal (b.work.groups.find v.wg) 1 (v.segs.get 2) 0x80000 = true) := by
  refine ⟨meets_of (scene [0, 31] asSystem []) (by decide) trivial, meets_of (scene [0, 31] id []) (by decide) trivial,
    meets_of (scene [0, 31] id []) (by decide) trivial, meets_of (scene [0, 31] id [(8, 14)]) (by decide) (by decide),
    meets_of (scene [0, 31] id [(8, 15)]) (by decide) (by decide), meets_of (scene [0, 31] id []) (by decide) (by decide),
    meets_of (scene [0, 31] asSystem [(8, 7)]) (by decide) ?_, meets_of (scene [0, 31] asSystem [(8, 4), (9, 7)]) (by decide) ?_,
    meets_of (scene [0, 31] asSystem [(8, 0x80000)]) (by decide) ⟨?_, by decide⟩⟩
  · unfold agree; decide
  · unfold agreePair; decide
  · unfold agreePair; decide

/-- The work-group of a scene as the only one of its gang. -/
def inGang (s : State) : State :=
  { s with work := { s.work with
      groups := s.work.groups.adjust 0 fun x => { x with gang := some 0 }
      grids := s.work.grids.adjust 0 fun y => { y with record := y.record.set 3 0x200 }
      gangs := [(0, ⟨0, 0, 0, false, none⟩)] } }

theorem witness_LocalAccesses :
    Meets (.ldS false 4 8 15 6) (fun b g v => inLocal 8 16 (·.segs.slim.toNat) b g v ∧ inOrder b g v) ∧
    Meets (.ldX false 4 8 0 1) (fun b g v => inLocal 8 1 (·.segs.xlim.toNat) b g v ∧ inOrder b g v) ∧
    Meets (.stS false 4 8 5) (fun b g v => inLocal 8 8 (·.segs.slim.toNat) b g v ∧ cleanData 4 2 b g v ∧ inStoreOrder b g v ∧
      b.mem.scratch.wf = true) ∧
    Meets (.stX false 4 8 12 2) (fun b g v => inLocal 8 16 (·.segs.xlim.toNat) b g v ∧ cleanData 4 4 b g v ∧ inStoreOrder b g v ∧
      ∀ l ∈ g.lanes, (readField b g v l 12).poison = false ∧ (readField b g v l 12).val.toNat < b.gangSize v) := by
  refine ⟨meets_of (scene [0, 31] id [(8, 524272)]) (by decide) ?_, meets_of (scene [0, 31] id [(8, 65535)]) (by decide) ?_,
    meets_of (scene [0, 31] id [(8, 524280)]) (by decide) ?_, meets_of (inGang (scene [0, 31] id [(8, 65520)])) (by decide) ?_⟩
  · unfold inLocal inOrder clearWay; decide
  · unfold inLocal inOrder clearWay; decide
  · unfold inLocal cleanData inStoreOrder clearWay; decide
  · unfold inLocal cleanData inStoreOrder clearWay; decide

theorem witness_GlobalLoads : Meets (.ldG false 4 8 0 6 2) (reaches 8 16 0 false true page) ∧
    Meets (.ldC false 96 8 3 1 0) (reaches 8 1 0 true true page) ∧ Meets (.ldAcq false 4 8 0 5 4) (reaches 8 8 0 false true page) := by
  refine ⟨meets_of (scene [0, 31] id [(8, 2097136)]) (by decide) ?_, meets_of (scene [0, 31] id [(8, 2097151)]) (by decide) ?_,
    meets_of (scene [0, 31] id []) (by decide) ?_⟩
  all_goals unfold reaches; decide

theorem witness_GlobalStores :
    Meets (.stG false 4 8 6 2) (fun b g v => reaches 8 16 1 false true page b g v ∧ cleanData 4 4 b g v ∧ b.portStopped g.core = false ∧
      ∀ l ∈ g.lanes, queueHasRoom b (placeOf b g v 8 false page l / 128) false = true) ∧
    Meets (.gft false 4 8 12 1) (fun b g v => reaches 8 8 4 false true page b g v ∧ cleanData 4 2 b g v ∧ cleanData 12 4 b g v ∧
      (∀ l ∈ g.lanes, ∀ k ∈ (List.range 128).filter fun k => (readField b g v l (regUp 12 (k / 32))).val.getLsbD (k % 32),
        b.coreOut k = false) ∧ b.portStopped g.core = false ∧ ∀ l ∈ g.lanes, queueHasRoom b (placeOf b g v 8 false page l / 128) false = true) := by
  refine ⟨meets_of (scene [0, 31] id [(8, 2097136)]) (by decide) ?_, meets_of (scene [0, 31] id [(12, 3)]) (by decide) ?_⟩
  · unfold reaches cleanData; decide
  · unfold reaches cleanData; decide

theorem witness_FencesAndCaches : Meets (.fence false 4) always ∧ Meets (.cflush false 8) (reaches 8 1 6 false false page) ∧
    Meets (.cpref false 8 2) (reaches 8 1 0 false false page) ∧
    Meets (.cpref false 8 2) (fun b g v => ∀ l ∈ g.lanes, (readPair b g v l 8).poison = false ∧
      v.segs.glim.toNat < (readPair b g v l 8).val.toNat + 1) := by
  refine ⟨meets_of (scene [0, 31] id []) (by decide) trivial, meets_of (scene [0, 31] id [(8, 2097151)]) (by decide) ?_,
    meets_of (scene [0, 31] id []) (by decide) ?_, meets_of (scene [0, 31] id [(8, 2097152)]) (by decide) (by decide)⟩
  all_goals unfold reaches; decide

theorem witness_MatrixPosts :
    Meets (.bld false 96 8) (fun b g v => agree 8 0 b g v ∧ formatLegal 0 = true ∧ layoutFits 96 (widthB 0) (fmtDepth 0) (fmtScl 0) b g v ∧
      postable none b g v ∧ ∃ q saw, readTable b g v 0 = .ok q saw ∧ q = []) ∧
    Meets (.mma false 63 96 8 15) (fun b g v => agree 8 0 b g v ∧ formatLegal 0 = true ∧
      layoutFits 96 (widthA 0) (fmtDepth 0) (fmtScl 0) b g v ∧ postable (some 63) b g v ∧ ∃ q saw, readTable b g v 0 = .ok q saw ∧ q = []) ∧
    Meets (.acz false 63) (postable (some 63)) ∧
    Meets (.acld false 0 96) (fun b g v => layoutFits 96 32 128 false b g v ∧ postable (some 0) b g v) ∧
    Meets (.acst false 0 96 8) (fun b g v => agree 8 0 b g v ∧ storeFormatLegal 0 = true ∧ layoutFits 96 (storeWidth 0) 128 (fmtScl 0) b g v ∧
      postable (some 0) b g v) ∧
    Meets (.acwr false 4 8 0) (fun b g v => (∀ l ∈ g.lanes, (readField b g v l 8).poison = false ∧ (readField b g v l 8).val.toNat % 4 = 0 ∧
      (readField b g v l 8).val.toNat < 65536) ∧ cleanData 4 1 b g v ∧ postable (some 0) b g v) ∧
    (Layout.within ⟨0, 0, 0, 0, 0⟩ 32 128 true 512 = true ∧ Layout.within ⟨0, 0, 0, 0, 0⟩ 4 32 false 15 = false) := by
  refine ⟨meets_of (scene [0, 31] id []) (by decide) ?_, meets_of (scene [0, 31] id []) (by decide) ?_,
    meets_of (scene [0, 31] id []) (by decide) ?_, meets_of (scene [0, 31] id []) (by decide) ?_,
    meets_of (scene [0, 31] id []) (by decide) ?_, meets_of (scene [0, 31] id [(8, 65532)]) (by decide) ?_, by decide⟩
  · exact ⟨by unfold agree; decide, by decide, by unfold layoutFits; decide, by unfold postable; decide, [], _, rfl, rfl⟩
  · exact ⟨by unfold agree; decide, by decide, by unfold layoutFits; decide, by unfold postable; decide, [], _, rfl, rfl⟩
  · unfold postable; decide
  · unfold layoutFits postable; decide
  · unfold agree layoutFits postable; decide
  · unfold cleanData postable; decide

theorem witness_ScratchAtomics :
    Meets (.atmAdd false 4 8 12 true true) (fun c g v => inLocal 8 8 (·.segs.slim.toNat) c g v ∧ inStoreOrder c g v ∧ cleanData 12 2 c g v) ∧
    Meets (.atmCas false 4 8 12 false true) (fun c g v => inLocal 8 4 (·.segs.slim.toNat) c g v ∧ inStoreOrder c g v ∧ cleanData 12 1 c g v ∧
      cleanData 4 1 c g v) ∧
    Meets (.redFaddS false 8 12 2) (fun c g v => inLocal 8 4 (·.segs.slim.toNat) c g v ∧ inStoreOrder c g v ∧ cleanData 12 1 c g v) := by
  refine ⟨meets_of (scene [0, 31] id [(8, 524280)]) (by decide) ?_, meets_of (scene [0, 31] id [(8, 524284)]) (by decide) ?_,
    meets_of (scene [0, 31] id []) (by decide) ?_⟩
  all_goals unfold inLocal inStoreOrder clearWay cleanData; decide

theorem witness_GlobalAtomics :
    Meets (.atmCas false 4 8 12 true false) (fun c g v => reaches 8 8 2 false true page c g v ∧ cleanData 12 2 c g v ∧ cleanData 4 2 c g v ∧
      c.portStopped g.core = false ∧ ∀ l ∈ g.lanes, queueHasRoom c (placeOf c g v 8 false page l / 128) true = true) ∧
    Meets (.redFaddG false 8 12 0) (fun c g v => reaches 8 4 2 false true page c g v ∧ cleanData 12 1 c g v ∧
      c.portStopped g.core = false ∧ ∀ l ∈ g.lanes, queueHasRoom c (placeOf c g v 8 false page l / 128) true = true) := by
  refine ⟨meets_of (scene [0, 31] id [(8, 2097144)]) (by decide) ?_, meets_of (scene [0, 31] id []) (by decide) ?_⟩
  all_goals unfold reaches cleanData; decide

/-- The hypotheses on a command's descriptor at offset o. -/
def descriptorAt (o : Word) : Cond := fun b g v => agree 8 o b g v ∧ o.toNat % 64 = 0 ∧ o.toNat + 64 ≤ v.segs.slim.toNat ∧
  (b.mem.scratch.readPoison 4 (524288 * g.core + v.segs.sbase.toNat + o.toNat) 64).2 = false ∧ inOrder b g v

/-- The hypotheses on a chain's control block, all zero, and n entries. -/
def chainAt (n : Word) : Cond := fun c g v => agreePair 8 0x1FFFC0 c g v ∧ agree 12 n c g v ∧ reaches 8 64 2 false true page c g v ∧ allPerformed c g v ∧
  readNow c g v (g.lanes.headD 0) (placeOf c g v 8 false page (g.lanes.headD 0)) 64 1 = some (List.replicate 64 0, false)

theorem witness_CommandPosts :
    Meets (.xcp false 8) (fun b g v => descriptorAt 0x7FFC0 b g v ∧ v.counter 0 < 63 ∧ copyFull b g v = false) ∧
    Meets (.xgth false 8) (fun b g v => descriptorAt 0 b g v ∧ ¬ (v.counter 2 < 63 ∧ copyFull b g v = false)) ∧
    Meets (.chap false 8 12) (fun b g v => chainAt 16 b g v ∧ (0 + 2 ^ 32 - 0 + 16) % 2 ^ 32 ≤ 2 ^ (0 + 4)) ∧
    Meets (.chap false 8 12) (fun b g v => chainAt 17 b g v ∧ 2 ^ (0 + 4) < (0 + 2 ^ 32 - 0 + 17) % 2 ^ 32) := by
  refine ⟨meets_of (scene [0, 31] id [(8, 0x7FFC0)]) (by decide) ?_, meets_of (scene [0, 31] (fun w => { w with cntGth := 63 }) []) (by decide) ?_,
    meets_of (scene [0, 31] id [(8, 0x1FFFC0), (12, 16)]) (by decide) ?_, meets_of (scene [0, 31] id [(8, 0x1FFFC0), (12, 17)]) (by decide) ?_⟩
  · unfold descriptorAt agree inOrder clearWay; decide
  · unfold descriptorAt agree inOrder clearWay; decide
  · unfold chainAt agree agreePair reaches allPerformed; decide
  · unfold chainAt agree agreePair reaches allPerformed; decide

/-- The hypotheses on a sync word at the end of the segment, and an amount. -/
def syncAt (n : Word) : Cond := fun c g v => agree 8 0x7FFF0 c g v ∧ agree 12 n c g v ∧ v.segs.sbase.toNat % 16 = 0 ∧
  0x7FFF0 + 16 ≤ v.segs.slim.toNat ∧ c.mem.scratch.wf = true ∧ inOrder c g v

theorem witness_SyncWordInstructions :
    Meets (.wcnt false 1 5) (fun _ _ v => v.cntMat.toNat ≤ 5) ∧ Meets (.wcnt false 1 5) (fun _ _ v => 5 < v.cntMat.toNat) ∧
    Meets (.syarm false 8 12) (fun c g v => syncAt 9 c g v ∧ inStoreOrder c g v) ∧
    Meets (.syadd false 8 12) (fun c g v => syncAt 9 c g v ∧ allPerformed c g v) ∧
    Meets (.sywait false 8 12) (fun c g v => syncAt 0 c g v ∧ c.mem.scratch.poisoned (0x7FFF0 / 4 + 2) = false ∧
      (leNat (c.mem.scratch.readBytes 0x7FFF8 4) + 2 ^ 32 - 0) % 2 ^ 32 < 2 ^ 31) ∧
    Meets (.sywait false 8 12) (fun c g v => syncAt 1 c g v ∧ c.mem.scratch.poisoned (0x7FFF0 / 4 + 2) = false ∧
      ¬ (leNat (c.mem.scratch.readBytes 0x7FFF8 4) + 2 ^ 32 - 1) % 2 ^ 32 < 2 ^ 31) ∧
    Meets (.sywait false 8 12) (fun c g v => syncAt 1 c g v ∧ c.mem.scratch.poisoned (0x7FFF0 / 4 + 2) = true) := by
  refine ⟨meets_of (scene [0, 31] (fun w => { w with cntMat := 5 }) []) (by decide) (by decide),
    meets_of (scene [0, 31] (fun w => { w with cntMat := 6 }) []) (by decide) (by decide),
    meets_of (scene [0, 31] id [(8, 0x7FFF0), (12, 9)]) (by decide) ?_, meets_of (scene [0, 31] id [(8, 0x7FFF0), (12, 9)]) (by decide) ?_,
    meets_of (scene [0, 31] id [(8, 0x7FFF0)]) (by decide) ?_, meets_of (scene [0, 31] id [(8, 0x7FFF0), (12, 1)]) (by decide) ?_,
    meets_of ((scene [0, 31] id [(8, 0x7FFF0), (12, 1)]).onScratch fun m => m.setPoison (0x7FFF0 / 4 + 2) true) (by decide) ?_⟩
  all_goals (unfold syncAt agree inOrder; (try unfold inStoreOrder); (try unfold allPerformed); unfold clearWay); decide

/-- A scratchpad with a target of 3 and a count of 2 at 0, and one with a poisoned target. -/
theorem witness_Arrivals :
    let m := Mem.empty.writeBytes 0 [3, 0, 0, 0, 2, 0, 0, 0]
    m.wf = true ∧ 0 % 16 = 0 ∧ m.poisoned 0 = false ∧ m.poisoned 1 = false ∧ m.poisoned 2 = false ∧ m.read 0 = 3 ∧ m.read 4 = 2 ∧
    Mem.empty.wf = true ∧ Mem.empty.read 0 = 0 ∧ (Mem.empty.setPoison 0 true).wf = true ∧ (Mem.empty.setPoison 0 true).poisoned 0 = true := by
  decide

/-- The ends of both ranges. -/
theorem witness_GenerationReached : (0xFFFFFFFF : Nat) < 2 ^ 32 ∧ (0 : Nat) < 2 ^ 16 ∧ 2 ^ 31 ≤ 2 ^ 31 ∧ 2 ^ 31 < 2 ^ 32 ∧
    2 ^ 15 ≤ 2 ^ 16 - 1 ∧ 2 ^ 16 - 1 < 2 ^ 16 := by decide

theorem witness_Monitors :
    Meets (.mon false 8) (fun b g v => agreePair 8 0x1FFFFF b g v ∧ reaches 8 1 0 false false page b g v) ∧
    Meets (.mwait false 8) (fun b g v => agree 8 0 b g v ∧ ∀ x, v.monitor = some x → x.hit = true) ∧
    Meets (.mwait false 8) (fun b g v => agree 8 0 b g v ∧ ¬ ∀ x, v.monitor = some x → x.hit = true) := by
  refine ⟨meets_of (scene [0, 31] id [(8, 0x1FFFFF)]) (by decide) ?_,
    meets_of (scene [0, 31] (fun w => { w with monitor := some ⟨0, 0, true⟩ }) []) (by decide) ⟨?_, ?_⟩,
    meets_of (scene [0, 31] (fun w => { w with monitor := some ⟨0, 0, false⟩ }) []) (by decide) ⟨?_, ?_⟩⟩
  · unfold agreePair reaches; decide
  · unfold agree; decide
  · exact of_some (x := ⟨0, 0, true⟩) (by decide) rfl
  · unfold agree; decide
  · intro h; exact absurd (h ⟨0, 0, false⟩ (by decide)) (by decide)

/-- The hypotheses of a convergent instruction's first form, for lanes that all arrive. -/
theorem arrives_of {i : Instr} {ok : Cond} (s : State) (h : issuesNow i s = true) (a : allArrive (reading s) (crew s) (during s)) (u : Warp)
    (hu : (standing i (reading s) (crew s)).warpAt (crew s).key = some u) (k : ok (standing i (reading s) (crew s)) (crew s) u) :
    Meets i fun b g v => allArrive b g v ∧ ∀ u, (standing i b g).warpAt g.key = some u → ok (standing i b g) g u :=
  meets_of s h ⟨a, of_some hu k⟩

/-- Every lane parked at an instruction. -/
def parkedScene (i : Instr) (f : Warp → Warp) (regs : List (Nat × Nat)) : State := scene [0, 31] (fun w => f (eachLane (parkedAt' i 0) w)) regs

theorem witness_Barriers :
    Meets (.barWg false) (fun b g v => allArrive b g v ∧ ∀ u, (standing (.barWg false) b g).warpAt g.key = some u → True) ∧
    Meets (.barX false) (fun b g v => allParked b g v ∧ (b.work.groups.find v.wg).bind (·.gang) = some 0 ∧
      ∀ x, b.work.gangs.find 0 = some x → x.form = none ∨ x.form = some true) ∧
    Meets (.barGang false) (fun b g v => allParked b g v ∧ (b.work.groups.find v.wg).bind (·.gang) = some 0 ∧
      ∃ x, b.work.gangs.find 0 = some x ∧ x.form = some true) ∧
    Meets (.barX false) (fun b g v => allParked b g v ∧ (b.work.groups.find v.wg).bind (·.gang) = none) ∧
    Meets (.barWg false) (fun _ g v => (∀ l ∈ g.lanes, (v.lane l).park = none) ∧
      ∃ x ∈ convLanes v, x ∉ g.lanes ∧ ∀ p, (v.lane x).park = some p → convKind p.instr ≠ convKind (.barWg false)) := by
  refine ⟨meets_of (scene [0, 31] id []) (by decide) ⟨?_, fun _ _ => trivial⟩,
    meets_of (inGang (parkedScene (.barX false) id [])) (by decide) ⟨?_, by decide, of_some (x := ⟨0, 0, 0, false, none⟩) (by decide) (.inl rfl)⟩,
    meets_of ({ inGang (parkedScene (.barGang false) id []) with
      work := { (inGang (parkedScene (.barGang false) id [])).work with gangs := [(0, ⟨0, 0, 1, false, some true⟩)] } }) (by decide)
      ⟨?_, by decide, ⟨0, 0, 1, false, some true⟩, by decide, rfl⟩,
    meets_of (parkedScene (.barX false) id []) (by decide) ⟨?_, by decide⟩,
    meets_of ((scene [0] id []).onLanes 0 [1] fun _ => placedLane) (by decide) ⟨by decide, 1, by decide, by decide, ?_⟩⟩
  · unfold allArrive; decide
  · exact ⟨by decide, ⟨.barX false, 0, false⟩, by decide⟩
  · exact ⟨by decide, ⟨.barGang false, 0, false⟩, by decide⟩
  · exact ⟨by decide, ⟨.barX false, 0, false⟩, by decide⟩
  · intro p hp; exact absurd hp (by decide +revert)

/-- A level of the ring. -/
def levelAt (classes : BitVec 4) : RingLevel := ⟨0x1004, 1, 0, 0, 0, classes⟩

theorem witness_Rings :
    Meets (.ropen false 8 12) (fun s g v => allParked s g v ∧ agree 8 1 s g v ∧ agreePair 12 0x8000000000 s g v ∧
      (∀ x ∈ v.lanes, x.commits = []) ∧ (∀ l ∈ g.lanes, 32 * (v.lane l).window + 0 < v.size) ∧ v.rings = [] ∧ 128 ≤ v.segs.slim.toNat) ∧
    Meets (.ropen false 8 12) (fun s g v => allParked s g v ∧ agree 8 1 s g v ∧ (∀ x ∈ v.lanes, x.commits = []) ∧
      0 < v.rings.length ∧ v.rings.length < 8 ∧ v.logLimit < v.logFill + 656) ∧
    Meets (.rclose false) (fun s g v => allParked s g v ∧ (∀ x ∈ v.sregs, x.poison = false) ∧ (∀ l ∈ g.lanes, (v.lane l).predPoison = 0) ∧
      (∀ x ∈ s.thr.regs, x.2.poison = false) ∧ ∃ r, v.rings.getLast? = some r ∧ r.classes = 0) ∧
    Meets (.rclose false) (fun s g v => allParked s g v ∧ ∃ r, v.rings.getLast? = some r ∧ ¬ (r.classes.getLsbD 1 = true → v.cntMat = 0)) ∧
    Meets (.rclose false) (fun s g v => allParked s g v ∧ v.rings = []) ∧
    Meets (.rkeepS false 8 12) (fun s g v => (∀ l ∈ g.lanes, (readField s g v l 12).poison = false ∧ (readField s g v l 12).val.toNat ≤ 256 ∧
      (readField s g v l 8).poison = false ∧ (readField s g v l 8).val.toNat + (readField s g v l 12).val.toNat ≤ v.segs.slim.toNat ∧
      clearWay s g v l ∧ s.stillPending (v.lane l).loadAfter = [] ∧ ∀ x < (readField s g v l 12).val.toNat, s.mem.scratch.poisoned (((readField s g v l 8).val.toNat + x) / 4) = false) ∧
      v.rings ≠ [] ∧ v.logFill + 96 ≤ v.logLimit) ∧
    Meets (.rkeepG false 8 12) (fun s g v => (∀ l ∈ g.lanes, (readField s g v l 12).poison = false ∧ (readField s g v l 12).val.toNat ≤ 256 ∧
      (readPair s g v l 8).poison = false ∧ (readPair s g v l 8).val.toNat + (readField s g v l 12).val.toNat ≤ v.segs.glim.toNat ∧
      ∀ p ∈ pagePieces (segmentAddr s g v 8 false l) (readField s g v l 12).val.toNat,
        translateFor s g.core v.ctx.toNat 10 p.1 0 v.system = (none, some (page l)) ∧
        readNow s g v l (s.locate (page l) p.1) p.2
          (strictKind (keepPages s g v (segmentAddr s g v 8 false l) (readField s g v l 12).val.toNat)) = some (List.replicate p.2 0, false)) ∧
      v.rings = []) := by
  refine ⟨meets_of (parkedScene (.ropen false 8 12) id [(8, 1), (13, 128)]) (by decide) ⟨⟨by decide, ⟨.ropen false 8 12, 0, false⟩, by decide⟩, ?_⟩,
    meets_of (parkedScene (.ropen false 8 12) (fun w => { w with rings := [levelAt 0], logFill := 656, logLimit := 1024 }) [(8, 1), (13, 128)])
      (by decide) ⟨⟨by decide, ⟨.ropen false 8 12, 0, false⟩, by decide⟩, ?_⟩,
    meets_of (parkedScene (.rclose false) (fun w => { w with rings := [levelAt 0] }) []) (by decide)
      ⟨⟨by decide, ⟨.rclose false, 0, false⟩, by decide⟩, by decide, by decide, by decide, levelAt 0, by decide, rfl⟩,
    meets_of (parkedScene (.rclose false) (fun w => { w with rings := [levelAt 2], cntMat := 1 }) []) (by decide)
      ⟨⟨by decide, ⟨.rclose false, 0, false⟩, by decide⟩, levelAt 2, by decide, by decide⟩,
    meets_of (parkedScene (.rclose false) id []) (by decide) ⟨⟨by decide, ⟨.rclose false, 0, false⟩, by decide⟩, by decide⟩,
    meets_of (scene [0, 31] (fun w => { w with rings := [levelAt 0], logFill := 656, logLimit := 752 }) [(8, 524258), (12, 30)]) (by decide)
      (by unfold clearWay; decide),
    meets_of (scene [0, 31] id [(8, 4094), (12, 4)]) (by decide) (by decide)⟩
  · unfold agree agreePair; decide
  · unfold agree; decide

theorem witness_HandlerReturn :
    Meets (.trap false 8) (fun _ g _ => g.lanes ≠ []) ∧ Meets (.eretKill false) (fun b g v => allParked b g v ∧ v.inHandler = true) ∧
    Meets (.eretResume false) (fun _ g v => g.lanes ≠ [] ∧ v.inHandler = false) ∧
    (let s := scene [0, 31] (fun w => { w with inHandler := true, latch := true, mode := 1 }) [];
      s.warpAt 0 = some (warpBefore s) ∧ (warpBefore s).protected' = false ∧ (warpBefore s).lanes.length = 32 ∧
      (warpBefore s).inHandler = true ∧ ∀ x, s.work.groups.find (warpBefore s).wg = some x → ∀ j ∈ groupKeys x, j = 0) := by
  refine ⟨meets_of (scene [0, 31] id []) (by decide) (by decide),
    meets_of (parkedScene (.eretKill false) (fun w => { w with inHandler := true, mode := 1 }) []) (by decide)
      ⟨⟨by decide, ⟨.eretKill false, 0, false⟩, by decide⟩, by decide⟩,
    meets_of (scene [0, 31] asSystem []) (by decide) (by decide), by rfl, by decide, by decide, by decide, ?_⟩
  exact of_some (x := placedGroup 0) (by decide) (by decide)

/-- A trap outside a handler, with a handler's address and without; a second trap in a handler. -/
theorem witness_TrapEntry :
    (let s := scene [0, 31] id [];
      s.warpAt 0 = some (warpBefore s) ∧ (warpBefore s).inHandler = false ∧ (warpBefore s).protected' = false ∧
      (warpBefore s).lanes.length = 32 ∧ [0, 31].Nodup ∧ s.work.groups.find 0 = some (placedGroup 0) ∧ (placedGroup 0).halt = none ∧
      s.work.grids.find 0 = some placedGrid ∧ 0 ∈ groupKeys (placedGroup 0) ∧ placedGrid.eff.handler = 0) ∧
    (let s := scene [0, 31] (fun w => { w with inHandler := true, latch := true }) [];
      s.warpAt 0 = some (warpBefore s) ∧ (warpBefore s).inHandler = true ∧ (warpBefore s).latch = true) := by
  refine ⟨⟨by rfl, by decide, by decide, by decide, by decide, by decide, by decide, by decide, by decide, by decide⟩, by rfl, by decide, by decide⟩

/-- The hypotheses on a launch record of zeros at offset 0, on the rack or not. -/
def recordAt : Cond := fun b g v => agreePair 8 0x1FFF80 b g v ∧ segmentAddr b g v 8 false (g.lanes.headD 0) % 64 = 0 ∧
  0x1FFF80 + 128 ≤ v.segs.glim.toNat ∧ allPerformed b g v

/-- The bytes of a rack-wide record of zeros. -/
def wideBytes : List Byte := List.replicate 26 0 ++ 1 :: List.replicate 101 0

/-- A scene with a rack-wide record; the rack root is the package given, and holds a queue of 16 records. -/
def rackScene (root : Nat) (reservation : Option (Option Nat)) : State :=
  let s := (scene [0, 31] id [(8, 0x1FFF80)]).onHbm fun m => m.writeBytes (0x1FFF80 + 26) [1]
  { s with
    att := { s.att with roles := root }
    dist := { s.dist with rackBase := 0x100000, rackLog := 4, reservation := reservation } }

/-- The hypotheses on the rack-wide record. -/
def wideAt : Cond := fun b g v => recordAt b g v ∧
  ∃ c p, keepGlobal b g v (segmentAddr b g v 8 false 0) 128 (g.lanes.headD 0) = .ok c p ∧ c = wideBytes ∧ p = false

theorem witness_InvalidatesAndSpawns :
    Meets (.tlbiVa false 8 12) (fun s g v => (agreePair 8 0x1FFFFFF00000000 s g v ∧ agree 12 0x7FF s g v) ∧
      translatedCommands s (· == 0x7FF) = false) ∧
    Meets (.tlbiAll false) (fun s _ _ => translatedCommands s (fun _ => true) = false) ∧
    Meets (.spawn false 8) (fun b g v => recordAt b g v ∧ b.packageQueueFree = true ∧
      ∃ c p, keepGlobal b g v (segmentAddr b g v 8 false 0) 128 (g.lanes.headD 0) = .ok c p ∧ c = List.replicate 128 0 ∧ p = false) ∧
    Meets (.spawn false 8) (fun b g v => wideAt b g v ∧ b.rackRoot = b.cfg.pkg ∧ b.rackQueueFree = true) ∧
    Meets (.spawn false 8) (fun b g v => wideAt b g v ∧ b.rackRoot ≠ b.cfg.pkg ∧ b.dist.reservation = some (some 65535)) ∧
    Meets (.spawn false 8) (fun b g v => wideAt b g v ∧ b.rackRoot ≠ b.cfg.pkg ∧ b.dist.reservation = none) := by
  refine ⟨meets_of (scene [0, 31] asSystem [(9, 0x1FFFFFF), (12, 0x7FF)]) (by decide) ?_, meets_of (scene [0, 31] asSystem []) (by decide) (by decide),
    meets_of (scene [0, 31] id [(8, 0x1FFF80)]) (by decide) ⟨?_, by decide, List.replicate 128 0, false, ?_, rfl, rfl⟩,
    meets_of (rackScene 0 none) (by decide) ⟨⟨?_, wideBytes, false, ?_, rfl, rfl⟩, by decide, by decide⟩,
    meets_of (rackScene 127 (some (some 65535))) (by decide) ⟨⟨?_, wideBytes, false, ?_, rfl, rfl⟩, by decide, by decide⟩,
    meets_of (rackScene 127 none) (by decide) ⟨⟨?_, wideBytes, false, ?_, rfl, rfl⟩, by decide, by decide⟩⟩
  · unfold agree agreePair; decide
  · unfold recordAt agreePair allPerformed; decide
  · rfl
  · unfold recordAt agreePair allPerformed; decide
  · rfl
  · unfold recordAt agreePair allPerformed; decide
  · rfl
  · unfold recordAt agreePair allPerformed; decide
  · rfl

/-! Events. -/

/-- A package with one resident warp of one thread in slot 0 of core 0, its run in progress. -/
def base : State := State.reset.withFetchWord 32 0

/-- The same with its memory changed. -/
def withMem (f : MemSys → MemSys) : State := { base with mem := f base.mem }

/-- A load and a store of the thread at the last word of line 0. -/
def aLoad : LoadOp := ⟨.thread 0 0 0 0, 124, 4, 2, 0, 0, .v 4 1, false, [0], [], false, false, 124, 0x1000, 0⟩
def aStore : WriteOp :=
  { agent := .thread 0 0 0 0, pa := 124, data := [1, 2, 3, 4], poison := false, atom := none, dest := .discard, lanes := [], old := none, kind := 0,
    mirror := false, graft := none, after := [], stage := .port, pc := 0x1000, lsn := 0, depth := 0, ctx := 0, batch := none }

/-- Line 0 as its slice and as the cache of a core hold it. -/
def sliceLine : L2Line := ⟨List.replicate 128 0, 15, 0, true, 1, none, 0, false⟩
def cacheLine : L1Line := ⟨List.replicate 128 0, BitVec.allOnes 128, 0, 0, 0, false⟩

/-- The load's miss, its hit, a notice of eviction, and an update on its way to core 127. -/
def missing : State := withMem fun m => { m with ops := [(7, .load aLoad)], l2 := [(0, sliceLine)] }
def found : State := withMem fun m => { m with ops := [(7, .load aLoad)], l1 := [(0, cacheLine)] }
def noticed : State := withMem fun m => { m with notices := [(127, 0)] }
def updating (targets push writes : List Nat) : State := withMem fun m => { m with
  updates := [(5, ⟨0, 1, List.replicate 128 0, 0, true, targets, [], push, writes⟩)]
  ops := [(7, .write { aStore with stage := .applied })] }

theorem witness_CacheEvents :
    (l1FillReady missing 0 0 = true ∧ ∃ x ∈ missingLoads missing 0 0, x.2.prefetch = false) ∧
    (found.loadOp 7 = some aLoad ∧ loadReady found 0 aLoad = true ∧ aLoad.agent = .thread 0 0 0 0) ∧
    ((127, 0) ∈ noticed.mem.notices ∧ noticed.crossHeld (127 / 32) (dieOfLine 0) = false) ∧
    (let s := updating [127] [] [7];
      ∃ u, s.mem.updates.find 5 = some u ∧ 127 ∈ u.targets ∧ olderUpdate s 127 5 u = false ∧ s.crossHeld (127 / 32) (dieOfLine u.line) = false) ∧
    (let s := updating [] [127] [7];
      (∃ u, s.mem.updates.find 5 = some u ∧ 127 ∈ u.push ∧ olderUpdate s 127 5 u = false ∧ (127, u.line) ∉ s.mem.notices ∧
        s.crossHeld (127 / 32) (dieOfLine u.line) = false) ∧
      ∀ u, s.mem.updates.find 5 = some u → s.l1Line 127 u.line = none ∧ s.graftQuota 127 ≤ s.graftCount 127) ∧
    (let s := updating [] [0] [7];
      (∃ u, s.mem.updates.find 5 = some u ∧ 0 ∈ u.push ∧ olderUpdate s 0 5 u = false ∧ (0, u.line) ∉ s.mem.notices ∧
        s.crossHeld 0 (dieOfLine u.line) = false) ∧
      ∀ u, s.mem.updates.find 5 = some u → s.l1Line 0 u.line = none ∧ s.graftCount 0 < s.graftQuota 0 ∧ (l1Set s 0 (u.line % 128)).length < 16) ∧
    (let s := updating [] [] [7];
      ∃ u, s.mem.updates.find 5 = some u ∧ u.targets = [] ∧ u.push = [] ∧
        ∀ j ∈ u.writes, ∀ w, s.writeOp j = some w → s.agentHeld w.agent u.line = false) := by
  refine ⟨⟨by decide, (7, aLoad), by decide, rfl⟩, ⟨by decide, by decide, rfl⟩, ⟨by decide, by decide⟩,
    ⟨⟨0, 1, List.replicate 128 0, 0, true, [127], [], [], [7]⟩, by decide, by decide, by decide, by decide⟩,
    ⟨⟨⟨0, 1, List.replicate 128 0, 0, true, [], [], [127], [7]⟩, by decide, by decide, by decide, by decide, by decide⟩,
      of_some (x := ⟨0, 1, List.replicate 128 0, 0, true, [], [], [127], [7]⟩) (by decide) ⟨by decide, by decide⟩⟩,
    ⟨⟨⟨0, 1, List.replicate 128 0, 0, true, [], [], [0], [7]⟩, by decide, by decide, by decide, by decide, by decide⟩,
      of_some (x := ⟨0, 1, List.replicate 128 0, 0, true, [], [], [0], [7]⟩) (by decide) ⟨by decide, by decide, by decide⟩⟩,
    ⟨⟨0, 1, List.replicate 128 0, 0, true, [], [], [], [7]⟩, by decide, by decide, by decide, ?_⟩⟩
  intro j hj
  cases List.mem_singleton.1 hj
  exact of_some (x := { aStore with stage := .applied }) (by decide) (by decide)

/-- The store at its port and in its queue, and an atomic on its line there. -/
def atPort : State := withMem fun m => { m with ops := [(7, .write aStore)] }
def inQueue (w : WriteOp) (l2 : NMap L2Line) : State := withMem fun m => { m with ops := [(7, .write { w with stage := .queued })], queue := [⟨0, [7], []⟩], l2 := l2 }
def anAtomic : WriteOp := { aStore with data := [0, 0, 0, 0], atom := some (.add, 1, 0) }

/-- Core 1 writes a line whose gather mode holds the store's byte; a set whose sixteen ways are taken. -/
def gathering : State := inQueue aStore [(0, { sliceLine with gather := some (63, [(1, BitVec.allOnes 128)]) })]
def fullSet : State := inQueue aStore ((List.range 16).map fun i => (32 * 65537 * (1 + i), { sliceLine with age := i }))

theorem witness_SliceEvents :
    (124 % 128 + aStore.data.length ≤ 128 ∧ base.dieDead 124 = false) ∧
    (atPort.mem.ops.wf = true ∧ ∃ w, atPort.writeOp 7 = some w ∧ writeArrivalReady atPort 7 w = true) ∧
    queueApplyReady (inQueue aStore [(0, sliceLine)]) 0 = true ∧
    gatherMergeReady gathering 0 = true ∧
    (sliceFillReady (withMem fun m => { m with ops := [(7, .load aLoad)] }) 0 = true ∧ base.mem.hbm.wf = true) ∧
    (partialReady (inQueue anAtomic []) 0 3 = true ∧ (inQueue anAtomic []).mem.hbm.wf = true) ∧
    (wayWanted fullSet 0 0 = true ∧ sliceVictim fullSet 0 0 = some (32 * 65537, sliceLine) ∧ fullSet.mem.l2.find (32 * 65537) = some sliceLine ∧
      fullSet.mem.hbm.wf = true ∧ fullSet.dramOpen (32 * 65537) = true) := by
  refine ⟨by decide, ⟨by decide, aStore, by decide, by decide⟩, by decide, by decide, by decide, by decide, by decide⟩

/-- The slot of the warp with a failed lane or none, and the warp between runs, changed by f. -/
def lane31 (spare : Option Nat) (f : Warp → Warp) : State :=
  let s := base.onWarp 0 fun w => f { w with run := none }
  s.onSlot 0 0 fun x => { x with running := none, spare := spare }

/-- The warp of a scene at key 0. -/
def warpIn (s : State) : Warp := (s.warpAt 0).getD (placedWarp s 0)

/-- A level with one kept record: of a scratch byte, or of a global one that is not mapped. -/
def logged (space : Byte) : State :=
  let s := lane31 none fun w => { w with rings := [levelAt 0], rollback := some false, logLimit := 656, logFill := 32 }
  s.onScratch fun m => m.writeMarked (scratchAddr 0 7) [(space, false), (1, false)]

/-- The failure of a first and of a second lane; a failed lane that no thread, a thread of a pair, or a thread with a ring used; and the rollback
of a level, its escalation, and the kill past the outermost level. -/
theorem witness_SparingAndRollbacks :
    (((lane31 none id).slotAt 0 0).failed = false ∧ ((lane31 none id).slotAt 0 0).spare = none) ∧
    (((lane31 (some 31) id).slotAt 0 0).failed = false ∧ ((lane31 (some 31) id).slotAt 0 0).spare = some 31 ∧ 32 ≤ 32 ∧ 32 ≠ 31) ∧
    ((warpIn (lane31 (some 31) id)).base * 32 + (warpIn (lane31 (some 31) id)).size ≤ 1024 ∧
      (lane31 (some 31) id).warpAt 0 = some (warpIn (lane31 (some 31) id)) ∧ (warpIn (lane31 (some 31) id)).run = none ∧
      (warpIn (lane31 (some 31) id)).snapshot = false ∧ (warpIn (lane31 (some 31) id)).spared ≠ some 31 ∧ ¬ ((warpIn (lane31 (some 31) id)).lane 31).present = true) ∧
    (let s := lane31 (some 0) fun w => { w with mode := 2 };
      s.warpAt 0 = some (warpIn s) ∧ (warpIn s).run = none ∧ (s.slotAt 0 0).spare = some 0 ∧ (warpIn s).spared ≠ some 0 ∧
      ((warpIn s).lane 0).present = true ∧ ((warpIn s).lane 0).exited = false ∧ (warpIn s).protected' = true) ∧
    (let s := lane31 (some 0) id;
      s.warpAt 0 = some (warpIn s) ∧ ((warpIn s).lane 0).present = true ∧ (warpIn s).protected' = false ∧ (warpIn s).rings = []) ∧
    ((base.slotAt 0 0).failed = false ∧ base.warpAt 0 = some (warpIn base) ∧
      (warpIn base).spared = (base.slotAt 0 0).spare ∧ (warpIn base).rollback = none) ∧
    (let s := lane31 (some 0) fun w => { w with rings := [levelAt 0] };
      s.warpAt 0 = some (warpIn s) ∧ (warpIn s).run = none ∧ (s.slotAt 0 0).spare = some 0 ∧ (warpIn s).spared ≠ some 0 ∧
      ((warpIn s).lane 0).present = true ∧ ((warpIn s).lane 0).exited = false ∧ (warpIn s).protected' = false ∧ (warpIn s).rings ≠ []) ∧
    (let s := lane31 none fun w => { w with rings := [levelAt 0, { levelAt 0 with attempt := 3 }], rollback := some true };
      s.warpAt 0 = some (warpIn s) ∧ (warpIn s).rollback = some true ∧ rollbackReady s 0 (warpIn s) = true ∧
      (warpIn s).rings.getLast? = some { levelAt 0 with attempt := 3 } ∧ 1 < (warpIn s).rings.length) ∧
    (let s := lane31 none fun w => { w with rings := [{ levelAt 0 with attempt := 3 }], rollback := some true };
      s.warpAt 0 = some (warpIn s) ∧ (warpIn s).rollback = some true ∧ rollbackReady s 0 (warpIn s) = true ∧
      (warpIn s).rings.getLast? = some { levelAt 0 with attempt := 3 } ∧ (warpIn s).rings.length ≤ 1) := by
  and_intros <;> decide

theorem witness_SparingAndRollbacks_records (b : Byte) (h : b ∈ [(0 : Byte), 2]) :
    let s := logged b
    let w := warpIn s
    s.warpAt 0 = some w ∧ w.rollback = some false ∧ rollbackReady s 0 w = true ∧ w.rings.getLast? = some (levelAt 0) ∧ w.inHandler = false ∧
      w.lanes.length = 32 ∧ w.base * 32 + w.size ≤ 1024 ∧ keptRecords s 0 w 32768 0 = [(0, 1)] ∧ (restoreRecords s 0 w [(0, 1)]).2 = (b == 0) := by
  fin_cases h <;> and_intros <;> decide

/-- The warp between runs, changed by f, in an idle slot. -/
def waiting (f : Warp → Warp) : State := lane31 none f

/-- A lane parked at `mwait`. -/
def asleep (m : Option Monitor) (t : Option Nat) : State :=
  waiting fun w => { (eachLane (fun x => if x.present then { x with park := some ⟨.mwait false 8, 0, false⟩ } else x) w) with monitor := m, mwait := t }

/-- A store fault of the warp, of a warp that has left, and one that is reported. -/
def aFault : StoreFault := ⟨0, 0, 0xFFFFFFFFFF, 0x1000, 0, 0, 0, false⟩
def faulting (f : StoreFault) : State := { waiting id with faults := [f] }

/-- The choice of a warp; a cut; a sibling that stops, with a halt or a containment; a wake, a timeout; a store fault's report, its trap, and
one whose warp has left. -/
theorem witness_WarpEvents :
    ((((waiting id).slotAt 0 0).running = none ∧ ∃ n, n < 8 ∧ warpReady (waiting id) (warpKey 0 0 n) = true) ∧
      ((waiting id).warpAt 0 = some (warpIn (waiting id)) ∧ (∀ n < 8, warpReady (waiting id) (warpKey 0 0 n) = true → n = 0) ∧
        (warpIn (waiting id)).spared = ((waiting id).slotAt 0 0).spare)) ∧
    (let s := lane31 (some 31) id;
      s.warpAt 0 = some (warpIn s) ∧ (s.slotAt 0 0).running = none ∧ (∀ n < 8, warpReady s (warpKey 0 0 n) = true ↔ n = 0) ∧ (warpIn s).run = none ∧
        (warpIn s).spared ≠ (s.slotAt 0 0).spare) ∧
    (((base.slotAt 0 0).running).isSome = true ∧ openGroups base 0 ≠ [] ∧ base.warpAt 0 = some (warpIn base) ∧ (warpIn base).stop ≠ .halting ∧
      (∀ l < 32, ((warpIn base).lane l).park = none) ∧ (warpIn base).mwait = none ∧ base.faults = []) ∧
    (let s := base.onWarp 0 fun w => eachLane (fun x => { x with loads := [9] }) w;
      ∃ n, (s.slotAt 0 0).running = some n ∧ openGroups s (warpKey 0 0 n) = []) ∧
    (let s := waiting fun w => { w with stop := .halting };
      s.warpAt 0 = some (warpIn s) ∧ (warpIn s).stop = .halting ∧ (warpIn s).run = none ∧ s.work.groups.find (warpIn s).wg = some (placedGroup 0)) ∧
    (let s := (asleep none none);
      (∃ l, l < 32 ∧ ((warpIn s).lane l).held = false ∧ ∃ p e a, ((warpIn s).lane l).park = some p ∧ p.instr = .mwait e a) ∧
        s.warpAt 0 = some (warpIn s) ∧ ∀ m, (warpIn s).monitor = some m → m.hit = true) ∧
    (let s : State := { asleep (some ⟨0, 0x1FFFFFFFFFFFFFF, false⟩) (some 0) with clk := { base.clk with ref := 1 } };
      (∃ l, l < 32 ∧ ((warpIn s).lane l).held = false ∧ ∃ p e a, ((warpIn s).lane l).park = some p ∧ p.instr = .mwait e a) ∧
        s.warpAt 0 = some (warpIn s) ∧ (warpIn s).monitor = some ⟨0, 0x1FFFFFFFFFFFFFF, false⟩ ∧ (warpIn s).mwait = some 0 ∧ 0 < s.clk.ref.toNat ∧ (warpIn s).stop = .none) ∧
    (let s := faulting aFault;
      nextFault s 0 = some aFault ∧
        faultWarp (storeReport { s with faults := s.faults.map fun x => if x = aFault then { x with reported := true } else x } aFault) aFault =
          some (warpIn s)) ∧
    (nextFault (faulting { aFault with reported := true }) 0 = some { aFault with reported := true } ∧
      faultWarp (faulting { aFault with reported := true }) { aFault with reported := true } = some (warpIn (faulting { aFault with reported := true }))) ∧
    (nextFault (faulting { aFault with reported := true, wg := 1 }) 0 = some { aFault with reported := true, wg := 1 } ∧
      faultWarp (faulting { aFault with reported := true, wg := 1 }) { aFault with reported := true, wg := 1 } = none) := by
  refine ⟨by decide, by decide, by decide, ⟨0, by decide, by decide⟩, by decide, ⟨⟨0, by decide, by decide, ⟨_, 0, false⟩, false, 8, by decide, rfl⟩, by decide, by decide +revert⟩,
    ⟨⟨0, by decide, by decide, ⟨_, 0, false⟩, false, 8, by decide, rfl⟩, by decide⟩, by decide, by decide, by decide⟩

/-- Tables of context 0 at 1 MiB that map the first GiB to itself, with the given function modes. -/
def mapped (mode : BitVec 32) (s : State) : State := { s with
  cfg := { s.cfg with contextTable := 0x100000, functionMode := mode }
  mem := { s.mem with hbm := ⟨[(0x100000, 1), (0x100001, 0x10), (0x100002, 0x10), (0x101000, 1), (0x101001, 0x20), (0x101002, 0x10), (0x102000, 1),
    (0x102001, 0x30), (0x102002, 0x10), (0x103000, 0x7F)], []⟩ } }

/-- A walk on die 3, an event of a kind with its tag, and a fetch that misses. -/
def aWalk : Walk := ⟨3, 0, 0x3FFFF, 0x3FFFFFFF, 2, false, none⟩
def walking (mode : BitVec 32) (w : Walk) : State := mapped mode { base with mem := { base.mem with walks := [w] } }
def anEvent (kind die : Nat) : HostEvent := ⟨65535, kind, die, [0, 0, 0, 0, 0, 0, 0]⟩
def asked (kind die : Nat) (s : State) : State := { s with host := { s.host with pending := [anEvent kind die] } }
def fetching : State := withMem fun m => { m with fetches := [(0, 0, 0)], l2 := [(0, sliceLine)] }

theorem witness_WalkEvents :
    (findWalk (walking 0 aWalk) 3 0 0x3FFFFFFF = some aWalk ∧ aWalk.tag = none ∧ aWalk.host = false ∧ walkReady (walking 0 aWalk) aWalk = true ∧
      (walking 0 aWalk).walk 0 0x3FFFFFFF = .leaf ⟨0, 0, 2 ^ 30, 0, true, true, true, true, 1, false⟩) ∧
    findWalk (walking 1 { aWalk with host := true }) 3 0 0x3FFFFFFF = some { aWalk with host := true } ∧
    (let s := asked 1 3 (walking 1 { aWalk with tag := some 65535 });
      pendingEvent s 1 65535 = some (anEvent 1 3) ∧ s.mem.walks.find? (fun x => x.tag == some 65535) = some { aWalk with tag := some 65535 }) ∧
    (base.mem.walks = [] ∧ pendingEvent base 1 0 = none ∧ pendingEvent base 5 0 = none) ∧
    (pendingEvent (asked 5 0 base) 5 65535 = some (anEvent 5 0) ∧ (0x3FF : BitVec 64).toNat < 2 ^ 10 ∧
      ((0x3FF : BitVec 64).getLsbD 2 = true → (0x1004 : BitVec 64).toNat % 4 = 0)) ∧
    (iFillReady fetching 0 0 0 = true ∧ fetchEntry fetching 0 0 0 = some (placedPage State.reset) ∧
      fetching.dieDead (fetching.locate (placedPage State.reset) (128 * 0) / 128 * 128) = false) := by
  decide

/-- An exchange store to the last word of a region, and a gang whose one warp has arrived at `bar.x`. -/
def aStX : ExchStore := ⟨9, 0, 65532, [1, 2, 3, 4], 0, 0⟩
def swapping : State :=
  let s := inGang (waiting fun w => { w with barrier := 3 })
  { s with work := { s.work with gangs := [(0, ⟨0, 0, 1, false, some true⟩)] } }

theorem witness_ExchangeEvents :
    (let s := withMem fun m => { m with exchStores := [aStX] };
      nextExchStore s 0 = some (aStX, 65532) ∧ s.savedShape aStX.wg = none ∧ s.mem.exch.wf = true) ∧ swapReady swapping 0 = true ∧
      base.mem.exchStores = [] ∧ swapReady base 0 = false := by
  decide

/-- A command of kind k with a descriptor, taken by engine 3 of die 0 or by none. -/
def aCmd (k : Nat) (desc : List DWord) (taken : Bool) : CopyCmd :=
  { id := 5, core := 31, warp := 0, wg := 0, ctx := 0, kind := k, desc := desc, segs := placedSegs, system := true, after := [], chain := [], slot := none,
    engine := if taken then some 3 else none, moved := 0, poison := false, writes := [], acks := [], held := false, status := none, pc := 0x1000, lsn := 0,
    depth := 0, base := 0, owner := none, phase := 0, asked := false, reply := none, err := 0,
    landed := 0, dest := none, trans := [⟨0, 0, 2 ^ 30, 0, true, true, true, true, 1, false⟩], got := [] }
def posted (c : CopyCmd) : State := { mapped 0 base with eng := { base.eng with copy := [c] } }

/-- Sixteen inline bytes to physical address 0; a signal to the last sync word of a scratchpad; a shard of 16 bytes. -/
def putCmd : CopyCmd := aCmd 2 [0x1000000000, 0x8000000000000000, 0x6000000000000000, 0, 0, 0, 0x0123456789ABCDEF, 0xFFFFFFFFFFFFFFFF] true
def sigCmd : CopyCmd := aCmd 5 [0, 0, 0, 0x200000000007FFF0, 0, 0xFFFFFFFF, 0, 0] true
def gthCmd : CopyCmd := { aCmd 6 [0x1000000000, 0x6000000000000000, 0x2000000000000000, 0, 0, 0, 0, 0] true with phase := 1, moved := 8 }
def anArrival : Arrival := ⟨31, 524272, 4294967295, [], 5, none⟩

/-- The bytes of a piece of a command's source, and the state in which they have been read. -/
def piece (s : State) (c : CopyCmd) (b n : Nat) : List (Byte × Bool) := (gatherPiece s c b n).1.getD []
def pieceState (s : State) (c : CopyCmd) (b n : Nat) : State := (gatherPiece s c b n).2

theorem witness_EngineEvents :
    (let c := { putCmd with engine := none }; let s := posted c;
      takeReady s 0 3 = true ∧ (nextRequester s 0 3 = some (31, c)) ∧ takeStatus s { c with owner := targetOwner s c } = 0) ∧
    (let s := posted putCmd;
      engineCmd s 0 3 = some putCmd ∧ s.cmd 5 = some putCmd ∧ lineReady s putCmd = true ∧ putCmd.sw = false) ∧
    (let s := posted putCmd; let b := putCmd.from' putCmd.moved; let n := putCmd.pieceLen putCmd.moved; let y := pieceState s putCmd b n;
      (gatherPiece s putCmd b n).1 = some ((([0xEF, 0xCD, 0xAB, 0x89, 0x67, 0x45, 0x23, 0x01] : List Byte) ++ List.replicate 8 0xFF).map fun x => (x, false)) ∧
      y.cmd 5 = some putCmd ∧ y.place putCmd putCmd.tgt (putCmd.tgtByte putCmd.moved) 1 = .ok (.pool 0 1 false) ∧ y.homePackage 0 = y.cfg.pkg ∧
      y.dieDead 0 = false) ∧
    (engineCmd (posted sigCmd) 0 3 = some sigCmd ∧ lineReady (posted sigCmd) sigCmd = true ∧ syncPackage (posted sigCmd) sigCmd = 0) ∧
    (let c := { putCmd with kind := 3, held := true }; engineCmd (posted c) 0 3 = some c ∧ releaseReady (posted c) c = true) ∧
    (let c := { putCmd with id := 6, kind := 3, held := true }; let d := { putCmd with engine := some 4 };
      let s : State := { posted c with
        cfg := { base.cfg with poolTable := [127] }
        eng := { base.eng with copy := [d, c] } };
      engineCmd s 0 3 = some c ∧ d ∈ s.eng.copy ∧ d.id < c.id ∧ d.warp = c.warp ∧ d.wg = c.wg ∧ d.slot = none ∧ finalStatus s d = none ∧
        ∃ p ∈ s.targetPackages d, p ∈ s.targetPackages c) ∧
    ((posted putCmd).eng.arrivals = [] ∧ engineCmd (posted putCmd) 0 3 ≠ none ∧ base.eng.copy = []) ∧
    (engineCmd (posted gthCmd) 0 3 = some gthCmd ∧ recheckReady (posted gthCmd) gthCmd = true ∧ gthCmd.sw = false ∧
      (gatherPiece (posted gthCmd) gthCmd 0 8).1 = some (List.replicate 8 (0, false))) ∧
    (let s : State := { base with eng := { base.eng with arrivals := [anArrival] } };
      s.eng.arrivals.find? (fun x => x.core == 31 && arrivalReady s x) = some anArrival ∧ anArrival.owner = none) ∧
    (let c := { putCmd with moved := 16 };
      (posted c).cmd 5 = some c ∧ c.id = 5 ∧ c.core = 31 ∧ retireReady (posted c) c = true ∧ c.stw = false ∧ finalStatus (posted c) c = some 0 ∧
        c.kind ≠ 7 ∧ (posted c).savedShape c.wg = none ∧ (posted c).warpAt c.warp = some (warpIn (posted c)) ∧ (warpIn (posted c)).wg = c.wg ∧
        ∀ g, (posted c).work.groups.find c.wg = some g → g.dead = false) := by
  refine ⟨by decide, by decide, ⟨by decide, by decide, by decide, by decide, by decide⟩, by decide, by decide, by decide, by decide,
    ⟨by decide, by decide, by decide, by decide⟩, by decide, ?_⟩
  exact ⟨by decide, by decide, by decide, by decide, by decide, by decide, by decide, by decide, by decide, by decide,
    of_some (x := placedGroup 0) (by decide) (by decide)⟩

/-- The one rank of a group, whose rank table names this package; a contribution that a port has for it; the same when the result is written
and its bytes go to another package. -/
def rscCmd : CopyCmd := { aCmd 7 [0x400000000, 0x6000000000000000, 0x6000000000001000, 0, 0, 0xFFFFFFFF00000100, 0, 0] true with dest := some 0 }
def held (n : Nat) : State := { posted rscCmd with
  eng := { (posted rscCmd).eng with chunks := [⟨0, 5, 0xFFFFFFFF, 0, 0, n, 0, 0, [⟨1, false⟩], some (0, 0), none⟩] } }
def countCmd : CopyCmd := { rscCmd with
  desc := [0x400000002, 0x6000000000000000, 0x6000000000001000, 0x400000002007FFF0, 0, 0xFFFFFFFF00000100, 0, 0], phase := 2, moved := 256 }

/-- The first of two ranks, whose table names this package and package 127. -/
def pairCmd (phase : Nat) (dest : Option Nat) (moved table : Nat) : CopyCmd := { rscCmd with
  desc := [0x400000000, 0x6000000000000000, 0x6000000000001000, 0, 0, 0xFFFFFFFF00000200, BitVec.ofNat 64 table, 0], phase := phase, dest := dest,
  moved := moved }

/-- What the reading of a rank's package answers. -/
def rankAnswer (s : State) (c : CopyCmd) (k : Nat) : Option Nat := match (readRank s c k).1 with
  | some (.ok pkg) => some pkg
  | some (.error st) => some (1000 + st)
  | none => none

theorem answered {s : State} {c : CopyCmd} {k pkg : Nat} (h : rankAnswer s c k = some pkg) (lt : pkg < 1000) :
    ∃ y, readRank s c k = (some (.ok pkg), y) := by
  unfold rankAnswer at h
  split at h
  · next e => cases h; exact ⟨_, Prod.ext e rfl⟩
  · cases h; omega
  · cases h

set_option maxRecDepth 100000 in
theorem witness_ReductionEvents :
    ([[⟨0xFFFFFFFF, false⟩], [(⟨1, true⟩ : PWord)]] ≠ [] ∧ [[⟨0xFFFFFFFF, false⟩], [(⟨1, true⟩ : PWord)]].length ≤ 256 ∧
      ∀ x ∈ [[⟨0xFFFFFFFF, false⟩], [(⟨1, true⟩ : PWord)]], x.length = 1) ∧
    (let c := pairCmd 0 none 4 0x102FF8; let s := posted c;
      (rankCmd s 0xFFFFFFFF 0 = some c ∧ s.cmd 5 = some c ∧ chunkReady s c 1 = true ∧ c.dest = none) ∧ ∃ y, readRank s c 1 = (some (.ok 127), y)) ∧
    (let s := posted rscCmd; let y := pieceState s rscCmd 0 4;
      (rankCmd s 0xFFFFFFFF 0 = some rscCmd ∧ s.cmd 5 = some rscCmd ∧ chunkReady s rscCmd 0 = true ∧ rscCmd.dest = some s.cfg.pkg) ∧
        (gatherPiece s rscCmd 0 4).1 = some (List.replicate 4 (0, false)) ∧ y.cfg.pkg = s.cfg.pkg ∧ y.eng.broken.find (rankKey 0xFFFFFFFF 0) = none ∧
        y.cmd 5 = some rscCmd) ∧
    (let c := pairCmd 0 (some 127) 4 0x102FF8; let s := posted c;
      (rankCmd s 0xFFFFFFFF 0 = some c ∧ s.cmd 5 = some c ∧ chunkReady s c 1 = true ∧ c.dest = some 127) ∧ (127 ≠ s.cfg.pkg ∧
        (pieceState s c 4 4).cfg.pkg = s.cfg.pkg ∧ s.reachable 127 = true ∧ s.mayPost 127 c.rel = true) ∧
        (gatherPiece s c 4 4).1 = some (List.replicate 4 (0, false))) ∧
    (let s := posted rscCmd; ∀ d, rankCmd s 0xFFFFFFFF 0 = some d → chunkReady s d 1 = false) ∧
    (let s := held 1;
      rankCmd s 0xFFFFFFFF 0 = some rscCmd ∧ s.cmd 5 = some rscCmd ∧ reductionReady s rscCmd = true ∧ rscCmd.phase < 2 ∧
        groupConflict s rscCmd (heldFor s 0xFFFFFFFF 0) = false ∧ portWords rscCmd (heldFor s 0xFFFFFFFF 0) = some [[⟨1, false⟩]]) ∧
    (let s := held 2;
      rankCmd s 0xFFFFFFFF 0 = some rscCmd ∧ s.cmd 5 = some rscCmd ∧ reductionReady s rscCmd = true ∧ rscCmd.phase < 2 ∧
        groupConflict s rscCmd (heldFor s 0xFFFFFFFF 0) = true) ∧
    (let c := pairCmd 16 none 4 0x102FF8; let s := posted c;
      (rankCmd s 0xFFFFFFFF 0 = some c ∧ s.cmd 5 = some c ∧ reductionReady s c = true ∧ 16 ≤ c.phase ∧ c.phase < 16 + c.ranks ∧ c.phase - 16 = c.rank) ∧
        ∃ y, readRank s c 0 = (some (.ok 0), y)) ∧
    (let c := pairCmd 17 none 4 0x102FF8; let s := posted c; let y := (readRank s c 1).2;
      (rankCmd s 0xFFFFFFFF 0 = some c ∧ s.cmd 5 = some c ∧ reductionReady s c = true ∧ 16 ≤ c.phase ∧ c.phase < 16 + c.ranks ∧ c.phase - 16 ≠ c.rank) ∧
        (∃ z, readRank s c 1 = (some (.ok 127), z)) ∧ y.reachable 127 = true ∧ 127 ≠ y.cfg.pkg ∧ y.mayPost 127 false = true) ∧
    (let c := pairCmd 18 none 4 0; let s := posted c;
      rankCmd s 0xFFFFFFFF 0 = some c ∧ s.cmd 5 = some c ∧ reductionReady s c = true ∧ 16 + c.ranks ≤ c.phase) ∧
    (let s := posted countCmd;
      rankCmd s 0xFFFFFFFF 0 = some countCmd ∧ s.cmd 5 = some countCmd ∧ reductionReady s countCmd = true ∧ countCmd.phase = 2) ∧
    (let s := posted rscCmd; ∀ d, rankCmd s 0xFFFFFFFF 0 = some d → reductionReady s d = false) := by
  refine ⟨by decide, ⟨by decide, answered (by decide) (by decide)⟩, ⟨by decide, by rfl, by decide⟩, ⟨by decide, by decide, by rfl⟩,
    of_some (x := rscCmd) (by decide) (by decide), by decide, by decide, ⟨by decide, answered (by decide) (by decide)⟩,
    ⟨by decide, answered (by decide) (by decide), by decide⟩, by decide, by decide, of_some (x := rscCmd) (by decide) (by decide)⟩

/-- A matrix command of the warp, started or not. -/
def aMat (op : MatOp) (started : Bool) : MatCmd := ⟨5, 0, 0, 0, op, 0, [], [], false, started⟩
def matrix (op : MatOp) (started : Bool) : State := withMem fun m => { m with matrix := [aMat op started] }

/-- A layout at 0, and the format of elements of eight bits. -/
def flat : Layout := ⟨0, 128, 1, 0, 0⟩

theorem witness_MatrixEvents :
    (nextCommand (matrix (.acz 63) false) 0 = some (aMat (.acz 63) false) ∧ matrixStartReady (matrix (.acz 63) false) (aMat (.acz 63) false) = true) ∧
    (∀ op ∈ [MatOp.acz 63, .acld 0 flat, .acscl 63 0x3F800000, .mma true 0 flat 0 []],
      let s := matrix op true;
      runningCommand s 0 = some (aMat op true) ∧ s.mem.acc.wf = true ∧ s.warpAt 0 = some (warpIn s) ∧ (warpIn s).wg = 0 ∧ 63 < 64 ∧
        0 = warpKey (0 / 64) (0 / 8 % 8) (0 % 8) ∧ s.work.groups.find 0 = some (placedGroup 0) ∧ (placedGroup 0).dead = false) ∧
    (formatLegal 0 = true ∧ runningCommand (matrix (.bld flat 0 []) true) 0 = some (aMat (.bld flat 0 []) true) ∧
      (matrix (.bld flat 0 []) true).work.groups.find 0 = some (placedGroup 0) ∧ (placedGroup 0).dead = false) ∧
    (let s := matrix (.bld flat 0 []) false;
      nextCommand s 0 = some (aMat (.bld flat 0 []) false) ∧ exchangeReady s 0 (fmtFirst 0) = true ∧ s.work.groups.find 0 = some (placedGroup 0) ∧
        macroSource s 0 (placedGroup 0) (fmtFirst 0) = none) := by
  decide

/-- A control block at 2 MiB with one copy entry at 0x200100; a slot that serves it, and slots with an entry in progress. -/
def chained : State :=
  let s := mapped 0 base
  { s with
    mem := { s.mem with hbm := ⟨s.mem.hbm.cells ++ [(0x200001, 1), (0x200002, 0x20), (0x200018, 1), (0x200100, 1)], []⟩ }
    eng := { s.eng with slots := [(15, ⟨0x200001, 0, none⟩)] } }
def aJob (st : Option Nat) : ChainJob := ⟨0x200000, none, 0, [0, 0, 0, 0, 0, 0, 0, 0], 0, st, [], false⟩
def inProgress (n : Nat) (st : Option Nat) : State := { base with eng := { base.eng with slots := [(n, ⟨0x200001, 0, some (aJob st)⟩)] } }

/-- An entry that another package homes. -/
def awayEntry : TlbEntry × Nat := (⟨0, 0, 2 ^ 30, 0, true, true, true, true, 1, false⟩, 0)
def awayJob : ChainJob := { aJob (some 6) with entry := some awayEntry }

set_option maxRecDepth 100000 in
theorem witness_ChainEvents :
    (47 < 48 ∧ (0xFFFFFFFFFFFFFFFF : BitVec 64).getLsbD 0 = true) ∧ (47 < 48 ∧ (0xFFFFFFFFFFFFFFFE : BitVec 64).getLsbD 0 = false) ∧
    (entryStartReady chained 15 = true ∧ nextJob chained 15 =
      some ⟨0x200000, some (⟨0, 0, 2 ^ 30, 0, true, true, true, true, 1, false⟩, 0x200100), 0, [1, 0, 0, 0, 0, 0, 0, 0], 0, none, [], false⟩) ∧
    slotIdle (inProgress 47 none) 47 = false ∧
    (entryStatus (inProgress 47 (some 6)) 47 = some (aJob (some 6), 6) ∧ (aJob (some 6)).entry = none ∧
      ((inProgress 47 (some 6)).onChain 47 fun x => { x with job := some { aJob (some 6) with posted := true } }).poolRead 0x200000 64 ≠ none) ∧
    (let s : State := { base with
        cfg := { base.cfg with poolTable := [127] }
        eng := { base.eng with slots := [(47, ⟨0x200001, 0, some awayJob⟩)] } };
      entryStatus s 47 = some (awayJob, 6) ∧ awayJob.posted = false ∧ s.homed (awayEntry.1.at awayEntry.2 + 63) = false ∧ awayEntry.1.mirror = false) ∧
    entryStatus (inProgress 47 none) 47 = none ∧
    (encodeRunning (inProgress 16 none) 16 = some (aJob none) ∧ (∃ x, encodeInputs (inProgress 16 none) (aJob none) = some x) ∧
      (inProgress 16 none).cfg.deadSlices = 0) ∧
    encodeRunning (inProgress 16 (some 0)) 16 = none := by
  refine ⟨by decide, by decide, by decide, by decide, by decide, by decide, by decide,
    ⟨by decide, Option.isSome_iff_exists.1 (by decide), by decide⟩, by decide⟩

/-- A launch record of one work-group of one thread at 0x1000, with the given launch count. -/
def aRecord (w2 w3 : DWord) : LaunchRecord := ⟨[0, 0x1000, w2, w3] ++ List.replicate 12 0, 0, 0, none, none, none⟩
def launching (r : LaunchRecord) : State := let s := mapped 0 base; { s with dist := { s.dist with records := [r] } }

/-- The rack command queue at 4 MiB with one published record. -/
def racked : State :=
  let s := mapped 0 base
  { s with
    cfg := { s.cfg with spillBase := 0x800000 }
    att := { s.att with stage := 2 }
    mem := { s.mem with hbm := ⟨s.mem.hbm.cells ++ [(0x400009, 0x10), (0x400010, 1), (0x400014, 1), (0x400016, 1)], []⟩ }
    dist := { s.dist with rackBase := 0x400000, rackReserved := 1, published := [0] } }
def rackRecord : LaunchRecord := { aRecord 0x1000100000001 0 with addr := 0x400000 }
def isOk {α : Type} : Formed α → Bool
  | .ok _ => true
  | _ => false

theorem formed {α : Type} {x : Formed α} (h : isOk x = true) : ∃ a, x = .ok a := by
  cases x with
  | ok a => exact ⟨a, rfl⟩
  | _ => cases h

theorem witness_LaunchRecordEvents :
    ((launching (aRecord 0x1000100000001 0)).dist.records = [aRecord 0x1000100000001 0] ∧
      ∃ g, formGrid (launching (aRecord 0x1000100000001 0)) (aRecord 0x1000100000001 0) none = .ok g) ∧
    ((launching (aRecord 0 0)).dist.records = [aRecord 0 0] ∧ (aRecord 0 0).job = none ∧ formGrid (launching (aRecord 0 0)) (aRecord 0 0) none = .refuse 5) ∧
    (rackReady racked = true ∧ rackPlace racked = 0x400000 ∧ racked.poolRead 0x400000 128 =
        some ((rackRecord.words.flatMap fun x => leBytes 8 x.toNat), false) ∧ ∃ g, formGrid racked rackRecord none = .ok g) ∧
    (recordBad (aRecord 0 0).words = true ∧ recordBad (aRecord 0x1000100000001 0).words = false) ∧ base.rootTable 2047 = none := by
  refine ⟨⟨by rfl, formed (by decide)⟩, ⟨by rfl, rfl, by rfl⟩, ⟨by decide, by decide, by rfl, formed (by decide)⟩, by decide, by decide⟩

/-- A value of an option with a property that can be computed. -/
theorem some_of_any {α : Type} {o : Option α} {p : α → Bool} (h : o.any p = true) : ∃ x, o = some x ∧ p x = true := by
  cases o with
  | none => cases h
  | some x => exact ⟨x, rfl, h⟩

/-- What a die distributor does next, and whether the budget lets it. -/
def placesNext (s : State) (die : Nat) : Entry × Fate → Bool
  | (e, .place _) => match unitFare s (3 + die) e.grid.unit e.chunk.spent with
    | .go _ => true
    | _ => false
  | _ => false
def redirectsNext : Entry × Fate → Bool
  | (_, .redirect _) => true
  | _ => false
def hopelessNext : Entry × Fate → Bool
  | (_, .hopeless) => true
  | _ => false

theorem places_of {s : State} {die : Nat} (h : (dieFate s die).any (placesNext s die) = true) :
    ∃ e u, dieFate s die = some (e, .place u) ∧ ∃ z, unitFare s (3 + die) e.grid.unit e.chunk.spent = .go z := by
  obtain ⟨⟨e, f⟩, h1, h2⟩ := some_of_any h
  cases f with
  | place u =>
    refine ⟨e, u, h1, ?_⟩
    simp only [placesNext] at h2
    split at h2
    · exact ⟨_, by assumption⟩
    · cases h2
  | _ => cases h2

theorem redirects_of {s : State} {die : Nat} (h : (dieFate s die).any redirectsNext = true) : ∃ e d, dieFate s die = some (e, .redirect d) := by
  obtain ⟨⟨e, f⟩, h1, h2⟩ := some_of_any h
  cases f <;> first | exact ⟨e, _, h1⟩ | cases h2

theorem hopeless_of {s : State} {die : Nat} (h : (dieFate s die).any hopelessNext = true) : ∃ e, dieFate s die = some (e, .hopeless) := by
  obtain ⟨⟨e, f⟩, h1, h2⟩ := some_of_any h
  cases f <;> first | exact ⟨e, h1⟩ | cases h2

/-- A chunk of the placed grid, and a state with levels of the distributors as given. -/
def aChunk (ids : List Nat) : Chunk := ⟨0, ids, 0, 0, false, none, [], 0⟩
def distributing (ls : NMap Level) (s : State) : State := { s with cfg := { s.cfg with functionMode := 0 }, dist := { s.dist with levels := ls } }
def queued (cs : List Chunk) : Level := ⟨cs, [], [], 0, 0⟩

/-- The placed grid as one of gangs of two, with dies mapped out. -/
def gangs (out : List Nat) : State :=
  let s := distributing [(6, queued [aChunk [0, 1]])] base
  { s with
    att := { s.att with outDies := out }
    work := { s.work with grids := s.work.grids.adjust 0 fun y => { y with record := y.record.set 3 0x400 } } }

/-- A work-group in the launch buffer of core 127, and a warp whose threads have exited, alone or with a sibling. -/
def buffered : State := { base with
  work := { base.work with groups := [(0, placedGroup 0), (1, { placedGroup 0 with core := 127, resident := false, warps := [(7, 7)], ranges := [(7, 7, 0, 4)] })] }
  dist := { base.dist with buffers := [(127, [1])] } }
def gangBuffered : State :=
  let x (core : Nat) : WorkGroup := { placedGroup 0 with core := core, resident := false, gang := some 0 }
  { base with
    work := { base.work with groups := [(1, x 126), (2, x 127)] }
    dist := { base.dist with buffers := [(126, [1]), (127, [2])] } }
def exited (warps : List (Nat × Nat)) : State :=
  let s := waiting (eachLane fun x => { x with exited := true })
  { s with work := { s.work with groups := [(0, { placedGroup 0 with warps := warps })] } }

set_option maxRecDepth 100000 in
theorem witness_ResidencyEvents :
    (placementReady (distributing [(6, queued [aChunk [2 ^ 48 - 1]])] base) 3 = true ∧ base.work.groups.wf = true ∧
      ∃ e u, dieFate (distributing [(6, queued [aChunk [2 ^ 48 - 1]])] base) 3 = some (e, .place u) ∧
        ∃ z, unitFare (distributing [(6, queued [aChunk [2 ^ 48 - 1]])] base) 6 e.grid.unit e.chunk.spent = .go z) ∧
    (placementReady (gangs [3]) 3 = true ∧ ∃ e d, dieFate (gangs [3]) 3 = some (e, .redirect d)) ∧
    (placementReady (gangs [0, 1, 2, 3]) 3 = true ∧ ∃ e, dieFate (gangs [0, 1, 2, 3]) 3 = some (e, .hopeless)) ∧
    ((∃ rest, bufferOf buffered 127 = 1 :: rest) ∧
      ∃ x, buffered.work.groups.find 1 = some x ∧ buffered.work.grids.find x.grid = some placedGrid ∧ x.core = 127 ∧
        x.gang = none ∧ constantsReady buffered x = true ∧ (x.ranges.map fun r => warpKey 127 r.1 r.2.1).Nodup ∧ (∀ r ∈ x.ranges, r.1 < 8) ∧ buffered.mem.scratch.wf = true ∧
        buffered.mem.acc.wf = true) ∧
    (placementReady base 3 = false ∧ bufferOf base 127 = []) ∧
    (let xs := residents gangBuffered 127;
      xs.length = 2 ∧ ∀ y ∈ xs, constantsReady gangBuffered y.2 = true ∧ (gangBuffered.work.grids.find y.2.grid).isSome = true) ∧
    (let s := exited [(0, 0), (1, 0)];
      s.warpAt 0 = some (warpIn s) ∧ completeReady (warpIn s) = true ∧ s.work.groups.find 0 = some { placedGroup 0 with warps := [(0, 0), (1, 0)] } ∧
        ∃ y ∈ [(0, 0), (1, 0)].set (warpIn s).index (goneWarp (warpIn s).index), y.1 ≠ 2 ^ 20) ∧
    (let s := exited [(0, 0)];
      s.warpAt 0 = some (warpIn s) ∧ completeReady (warpIn s) = true ∧ s.work.groups.find 0 = some (placedGroup 0) ∧
        ∀ y ∈ [(0, 0)].set (warpIn s).index (goneWarp (warpIn s).index), y.1 = 2 ^ 20) := by
  refine ⟨⟨by decide, by decide, places_of (by decide)⟩, ⟨by decide, redirects_of (by decide)⟩, ⟨by decide, hopeless_of (by decide)⟩,
    ⟨⟨[], by decide⟩, _, by rfl, by decide, by decide, by decide, by decide, by decide, by decide, by decide, by decide⟩, by decide, by decide, ?_, ?_⟩
  · exact ⟨by decide, by decide, by decide, (1, 0), by decide, by decide⟩
  · exact ⟨by decide, by decide, by decide, by decide⟩

/-- A level has a unit to route, of at most sixteen work-groups or of more. -/
def routes (level : Nat) (s : State) (blocked : Bool) : Prop :=
  ∃ x id aside, routeReady s level = true ∧ routeEntry s level = some x ∧ nextUnit s level x = some (id, aside) ∧ dropsAt level x.grid = false ∧
    x.grid.unit ≤ 16 ∧ childBlocked s level (childOf s level x.grid (x.grid.unitHash s id)) = blocked
def routesWide (level : Nat) (s : State) : Prop :=
  ∃ x id aside, routeReady s level = true ∧ routeEntry s level = some x ∧ nextUnit s level x = some (id, aside) ∧ dropsAt level x.grid = false ∧
    16 < x.grid.unit ∧ x.chunk.spent < x.grid.unit

theorem routes_of {level : Nat} {s : State} {b : Bool} (h : routeReady s level = true) (k : (routeEntry s level).any (fun x =>
    !dropsAt level x.grid && x.grid.unit ≤ 16 && (nextUnit s level x).any fun y =>
      childBlocked s level (childOf s level x.grid (x.grid.unitHash s y.1)) == b) = true) : routes level s b := by
  obtain ⟨x, h1, h2⟩ := some_of_any k
  simp only [Bool.and_eq_true, Bool.not_eq_true', decide_eq_true_eq] at h2
  obtain ⟨⟨h2, h3⟩, h4⟩ := h2
  obtain ⟨⟨id, aside⟩, h5, h6⟩ := some_of_any h4
  exact ⟨x, id, aside, h, h1, h5, h2, h3, by simpa using h6⟩

theorem routesWide_of {level : Nat} {s : State} (h : routeReady s level = true) (k : (routeEntry s level).any (fun x =>
    !dropsAt level x.grid && decide (16 < x.grid.unit) && decide (x.chunk.spent < x.grid.unit) && (nextUnit s level x).isSome) = true) :
    routesWide level s := by
  obtain ⟨x, h1, h2⟩ := some_of_any k
  simp only [Bool.and_eq_true, Bool.not_eq_true', decide_eq_true_eq, Option.isSome_iff_exists] at h2
  obtain ⟨⟨⟨h2, h3⟩, h4⟩, ⟨id, aside⟩, h5⟩ := h2
  exact ⟨x, id, aside, h, h1, h5, h2, h3, h4⟩

/-- A launch of two work-groups at the head of the package's queue; the same with the dies' queues full and a chunk for each closed. -/
def launch : Chunk := ⟨0, [], 0, 2, false, none, [], 0⟩
def full : List Chunk := List.replicate 512 (aChunk [])
def blocked : State := distributing [(2, ⟨[launch], [], (List.range 4).map (·, aChunk [7]), 0, 0⟩), (3, queued full), (4, queued full), (5, queued full), (6, queued full)] base

/-- A distributor with two chunks that can be stolen, on die 1; and work of the grid at the package, which came from the rack. -/
def robbed (mode : BitVec 32) : State :=
  let s := distributing [(4, queued [aChunk [1], aChunk [2]])] base
  { s with cfg := { s.cfg with functionMode := mode } }
def fromRack : State := { distributing [(2, queued [aChunk [1], aChunk [2]])] base with
  work := { base.work with grids := [(0, { placedGrid with launch := some 9 })] } }
/-- The ports of the tray's packages up. -/
def joined (s : State) : State := { s with
  fab := { s.fab with ports := (List.range 15).map (·, { Port.init with up := true }) }
  att := { s.att with fabricUp := true } }

/-- A gang of 17 at the head of the package's queue. -/
def wideLaunch : State :=
  let s := distributing [(2, queued [{ launch with count := 17 }])] base
  { s with work := { s.work with grids := s.work.grids.adjust 0 fun y => { y with record := y.record.set 3 (17 * 512) } } }

/-- Core 96 alone in service, its scratch in pieces, and a work-group that needs 64 granules at once and has waited for 1,000 ticks. -/
def holder (g : Nat) : WorkGroup := { placedGroup 0 with core := 96, warps := [], ranges := [], scr := (g, 1), tiles := (0, 0), exch := (0, 0) }
def stuck (mode : BitVec 32) : State :=
  let s := distributing [(6, queued [{ aChunk [0] with since := some 0 }])] base
  { s with
    cfg := { s.cfg with outCores := (List.range 128).filter (· != 96), functionMode := mode }
    clk := { s.clk with ref := 1000 }
    work := { s.work with
      groups := [(0, placedGroup 0), (1, holder 0), (2, holder 64)]
      grids := s.work.grids.adjust 0 fun y => { y with record := y.record.set 3 (64 * 0x100000) } } }
def aMove (wg old : Nat) (stopped : Bool) : PruneMove := ⟨96, 1, 0, old, 127, 1, wg, stopped⟩
def pruneEvent : HostEvent := { anEvent 4 3 with payload := [96, 0, 0, 0, 0, 0, 0] }
def pruneAsked : State := { stuck 0 with host := { base.host with pending := [pruneEvent] } }
def moving (m : PruneMove) : State := { stuck 0 with dist := { (stuck 0).dist with moves := [m] } }

set_option maxRecDepth 100000 in
theorem witness_DistributionEvents :
    routes 2 (distributing [(2, queued [launch])] base) false ∧ routes 2 blocked true ∧ routesWide 2 wideLaunch ∧ routeReady base 2 = false ∧
    (let s := distributing [(0, ⟨[], [], [(0, aChunk [7])], 0, 0⟩)] base;
      passReady s 0 0 = true ∧ (s.level 0).closed[0]? = some (0, aChunk [7])) ∧ (base.level 2).closed = [] ∧
    (let s := joined (distributing [] base);
      packageIdle s = true ∧ mayRetry s 2 = true ∧ s.hostMode 2 = false ∧ s.dist.asking = none ∧ nextVictim s 0 = some 1 ∧ s.mayPost 1 false = true) ∧
    (let s : State := { distributing [] base with dist := { base.dist with asking := some (15, true) } };
      packageIdle s = true ∧ mayRetry s 2 = true ∧ s.hostMode 2 = false ∧ nextVictim s 15 = none) ∧
    (packageIdle base = true ∧ mayRetry base 2 = true ∧ base.hostMode 2 = true ∧ base.dist.asking = none ∧ 2 ∉ base.dist.asked) ∧
    (let s := distributing [] base; dieStealReady s 3 = true ∧ s.hostMode 2 = false ∧ dieVictim s 3 = none) ∧
    (dieStealReady (robbed 0) 3 = true ∧ (robbed 0).hostMode 2 = false ∧ dieVictim (robbed 0) 3 = some 1) ∧
    (dieStealReady (robbed 4) 3 = true ∧ (robbed 4).hostMode 2 = true ∧ 6 ∉ (robbed 4).dist.asked) ∧
    (15 / 16 = fromRack.cfg.pkg / 16 ∧ 15 ≠ fromRack.cfg.pkg ∧ (stealables fromRack 2).length = 2) ∧
    (pendingEvent (asked 2 3 (robbed 4)) 2 65535 = some (anEvent 2 3) ∧ (anEvent 2 3).die < 4 ∧ 1 < 4 ∧ 1 ≠ (anEvent 2 3).die ∧ 0 < 2 ^ 32) ∧
    (let s := asked 2 4 (joined base); pendingEvent s 2 65535 = some (anEvent 2 4) ∧ (anEvent 2 4).die = 4 ∧ 15 / 16 = s.cfg.pkg / 16 ∧ 15 ≠ s.cfg.pkg ∧
      s.reachable 15 = true ∧ s.dist.asking = none) ∧ pendingEvent base 2 0 = none := by
  refine ⟨routes_of (by decide) (by decide), routes_of (by decide) (by decide), routesWide_of (by decide) (by decide), by decide, by decide, by decide,
    by decide, by decide, by decide, by decide, by decide, by decide, by decide, by decide, by decide, by decide⟩

/-- The same with a job of a contract on core 96. -/
def onJob (s : State) : State := { s with work := { s.work with
  contracts := [(63, ⟨[0, 2 ^ 32, 0, 0, 0x100000000, 0, 0x200000, 0], 0, some ⟨0, 1601, 0, true, false⟩, [], none⟩)] } }

set_option maxRecDepth 100000 in
/-- The pruner: its start, in hardware and by the host; a move that is void, one that stops its owners, one that waits for a job, one that is
made; and an answer. -/
theorem witness_DistributionEvents_pruner :
    (∃ x, pruneFor (stuck 0) 96 = some x) ∧ (stuck 0).hostMode 3 = false ∧ (∀ m ∈ (stuck 0).dist.moves, m.core ≠ 96) ∧
    (∃ x, pruneFor (stuck 8) 96 = some x) ∧ (stuck 8).hostMode 3 = true ∧ (∀ e ∈ (stuck 8).host.pending, e.kind ≠ 4) ∧
    pruneFor base 96 = none ∧ (nextPrune (moving (aMove 7 0 false)) 96 = some (aMove 7 0 false) ∧ moveValid (moving (aMove 7 0 false)) (aMove 7 0 false) = false) ∧
    (let m := aMove 1 0 true; let s := onJob (moving m); nextPrune s 96 = some m ∧ moveValid s m = true ∧ jobActive s 96 = true ∧ m.stopped = true) ∧
    (let m := aMove 1 0 false; let s := moving m; nextPrune s 96 = some m ∧ moveValid s m = true ∧ jobActive s 96 = false ∧ m.stopped = false) ∧
    (let m := aMove 1 0 true; let s := moving m;
      nextPrune s 96 = some m ∧ moveValid s m = true ∧ jobActive s 96 = false ∧ moveReady s m = true ∧ s.work.groups.find m.wg = some (holder 0) ∧
        s.thr.warps.wf = true ∧ s.mem.scratch.wf = true ∧ m.old + m.size ≤ 128 ∧ m.new + m.size ≤ 128 ∧ m.old + m.size ≤ m.new) ∧
    pruneStepReady (stuck 0) 96 = false ∧ (let s := onJob pruneAsked; pendingEvent s 4 65535 = some pruneEvent ∧ jobActive s 96 = true) ∧
    (pendingEvent pruneAsked 4 65535 = some pruneEvent ∧ jobActive pruneAsked (pruneEvent.payload.headD 0).toNat = false ∧
      namedMove pruneAsked (pruneEvent.payload.headD 0).toNat (1 % 4) (1 / 4) 0 127 = some (aMove 1 0 false)) ∧ pendingEvent base 4 0 = none := by
  refine ⟨Option.isSome_iff_exists.1 (by decide), by decide, by decide, Option.isSome_iff_exists.1 (by decide), by decide, by decide, by decide,
    by decide, by decide, by decide, by decide, by decide, by decide, by decide, by decide⟩

/-- A contract: a period, budget and deadline at their least, a state, and the lowest core of its set; alone at place 63 of the table, in the
state's tick and with the placed work's memory. -/
def anEntry (st : Nat) : List DWord := [BitVec.ofNat 64 (3200 + 2 ^ 32), BitVec.ofNat 64 (1601 + st * 2 ^ 32), 0, 1, 0, 0, 0x200000, 0]
def aContract (st next : Nat) (j : Option Job) : Contract := ⟨anEntry st, next, j, [], none⟩
def aJob5 (charge : Nat) (missed active : Bool) : Job := ⟨0, 1601, charge, active, missed⟩
def contracted (tick : Nat) (c : Contract) : State := { base with
  clk := { base.clk with ref := BitVec.ofNat 64 tick }
  work := { base.work with contracts := [(63, c)] } }

/-- A contract's record of zeros. -/
def zeros (n : Nat) : List Byte := List.replicate n 0

/-- A request in the configuration space of a package whose die 0 runs at 1.2 GHz. -/
def requesting (mode : BitVec 32) : State :=
  let s := { State.reset with
    cfg := { State.reset.cfg with functionMode := mode }
    clk := { State.reset.clk with dies := State.reset.clk.dies.map fun d => { d with code := 12 } } }
  (anEntry 0).zipIdx.foldl (fun (s : State) (e, i) => s.setCfg64 (0x4000 + 8 * i) e.toNat) s

/-- Sixty-four contracts. -/
def crowded : State := { asked 3 4 base with work := { base.work with contracts := (List.range 64).map fun n => (n, aContract 1 0 none) } }

set_option maxRecDepth 100000 in
theorem witness_ContractEvents :
    (let c := aContract 1 0 (some (aJob5 0 false true));
      (contracted 0 c).work.contracts.find 63 = some c ∧ releaseDue (contracted 0 c) c = true ∧ c.job ≠ none) ∧
    (let c := aContract 1 0 none;
      (contracted 0 c).work.contracts.find 63 = some c ∧ releaseDue (contracted 0 c) c = true ∧ c.job = none ∧
        (contracted 0 c).poolRead (entryWord c.entry 6) 128 = some (zeros 128, false) ∧
        setStopped (contracted 0 c) (((contractRecord c (zeros 128)).getD 12 0).toNat % 2 ^ 11) (entryCores c.entry) = false) ∧
    (let c := aContract 1 1 none;
      (contracted 0 c).work.contracts.find 63 = some c ∧ (contracted 0 c).clk.ref.toNat < c.next ∧ c.job = none) ∧ pendingEvent base 3 0 = none ∧
    (let c := aContract 1 0 (some (aJob5 0 false true));
      (contracted 1602 c).work.contracts.find 63 = some c ∧ c.job = some (aJob5 0 false true) ∧ (aJob5 0 false true).missed = false ∧
        (aJob5 0 false true).deadline < (contracted 1602 c).clk.ref.toNat) ∧
    (let c := aContract 1 0 (some (aJob5 1 false true));
      (contracted 0 c).work.contracts.find 63 = some c ∧ c.job = some (aJob5 1 false true) ∧ (aJob5 1 false true).active = true ∧
        entryB c.entry ≤ (aJob5 1 false true).charge) ∧
    ((requesting 0).hostMode 1 = false ∧ admissionStatus (requesting 0) (admissionRequest (requesting 0)) = 0) ∧
    ((distributing [] base).hostMode 1 = false ∧ admissionStatus (distributing [] base) (admissionRequest (distributing [] base)) = 7) ∧
    ((requesting 2).hostMode 1 = true ∧ ∀ e ∈ (requesting 2).host.pending, e.kind ≠ 3) ∧
    (pendingEvent (asked 3 4 base) 3 65535 = some (anEvent 3 4) ∧ (7 : Nat) ≠ 0) ∧
    (pendingEvent crowded 3 65535 = some (anEvent 3 4) ∧ (0 : Nat) = 0 ∧ ∀ k < 64, crowded.work.contracts.find k ≠ none) ∧
    (let c := aContract 1 0 none;
      let s := contracted 0 c;
      let w : BitVec 64 := 0x3F00000005;
      commandCode w = 5 ∧ commandRack w = false ∧ s.commandStatus ≠ 0 ∧ 63 = w.toNat / 2 ^ 32 % 64 ∧
        s.work.contracts.find 63 = some c ∧ s.poolRead (entryWord c.entry 6 + 96) 8 = some (zeros 8, false) ∧
        leNat (zeros 8) % 2 ^ 11 = commandCtx w) := by
  and_intros <;> decide

/-- Die 3 with the given clock, and with a contract on core 96 or none. -/
def clocked (d : DieClock) (contracts : NMap Contract) : State := { base with
  clk := { base.clk with ref := 800, dies := [DieClock.init, DieClock.init, DieClock.init, d] }
  work := { base.work with contracts := contracts } }
def running (pending : Option (Nat × Nat)) (stallEnd : Option Nat) : DieClock := { DieClock.init with running := true, code := 24, pending := pending, stallEnd := stallEnd }
def onDie3 : NMap Contract := [(0, { aContract 1 10000 none with entry := (anEntry 1).set 3 0 |>.set 4 0 |>.set 3 (BitVec.ofNat 64 0) |>.set 4 0x100000000 })]

theorem witness_ClockEvents :
    (((clocked (running none none) []).dieClock 3).running = true ∧ 24 ≤ 24 ∧ ¬ (24 < 12 ∧ ∃ x ∈ onDie3, entryCores x.2.entry &&& dieSlices 3 ≠ 0)) ∧
    (((clocked (running none none) onDie3).dieClock 3).running = true ∧ 12 ≤ 24 ∧ ¬ (12 < 12 ∧ ∃ x ∈ onDie3, entryCores x.2.entry &&& dieSlices 3 ≠ 0)) ∧
    (stepReady (clocked (running (some (11, 0)) none) []) 3 800 = true ∧
      ((clocked (running (some (11, 0)) none) []).dieClock 3).pending = some (11, 0) ∧
      ¬ (11 < 12 ∧ ∃ x ∈ (clocked (running (some (11, 0)) none) []).work.contracts, entryCores x.2.entry &&& dieSlices 3 ≠ 0)) ∧
    (stepReady (clocked (running (some (11, 0)) none) onDie3) 3 800 = true ∧
      ((clocked (running (some (11, 0)) none) onDie3).dieClock 3).pending = some (11, 0) ∧
      (11 < 12 ∧ ∃ x ∈ (clocked (running (some (11, 0)) none) onDie3).work.contracts, entryCores x.2.entry &&& dieSlices 3 ≠ 0)) ∧
    ((clocked DieClock.init []).dieClock 3).running = false ∧ 800 < 801 ∧ ((clocked DieClock.init []).dieClock 3).stallEnd = none ∧
    (let s := clocked (running none none) onDie3;
      ∃ x ∈ s.work.contracts, entryCores x.2.entry &&& dieSlices 3 ≠ 0 ∧ entryState x.2.entry = 1 ∧ x.2.next < s.clk.ref.toNat + 9201) ∧
    (∃ e, ((clocked (running none (some 800)) []).dieClock 3).stallEnd = some e ∧ e ≤ (clocked (running none (some 800)) []).clk.ref.toNat) := by
  refine ⟨by decide, by decide, by decide, by decide, by decide, by decide, by decide, by decide, 800, by decide, by decide⟩

/-- A pre-emption of a context on core 0, its drain or its snapshot under way, with an area of the given length. -/
def aPreempt (ctx : Nat) (snap : Bool) (length : Nat) : Preempt :=
  ⟨ctx, 1, 0, 0, 0, snap, 0x200000, length, [(0, 0)], [], 0, false, 0, true⟩
def preempting (p : Preempt) (s : State) : State := { s with ctl := { s.ctl with preempts := [p] } }

/-- The context command window with a save area of the least length. -/
def windowed (s : State) : State := s.setCfg64 0x6028 indexSize

/-- The warp between runs, its snapshot taken, with registers of the least size and no blocks. -/
def smallGroup : WorkGroup := { placedGroup 0 with scr := (0, 0), tiles := (0, 0), exch := (0, 0), ranges := [(0, 0, 0, 0)] }
def settledWith (g : WorkGroup) : State :=
  let s := waiting fun w => { w with snapshot := true, sizeCode := 0 }
  { s with work := { s.work with groups := [(0, g)] } }
def settled : State := settledWith smallGroup
def emptyGroup : WorkGroup := { smallGroup with warps := [], ranges := [] }

theorem no_room (p : Preempt) (n : Nat) (h : p.length < indexSize + p.used) : p.length < (indexSize + p.used) + n := by omega

set_option maxRecDepth 100000 in
theorem witness_PreemptionEvents :
    (let s := windowed base;
      let c : BitVec 64 := 0x7FF0001;
      commandCode c = 1 ∧ commandRack c = false ∧ s.commandStatus ≠ 0 ∧ (windowArgs s).area % 4096 = 0 ∧
        (windowArgs s).length % 4096 = 0 ∧ indexSize ≤ (windowArgs s).length ∧ areaBacked s (windowArgs s).area (windowArgs s).length = true ∧
        findPreempt s (commandCtx c) = none) ∧
    (let s := base;
      let c : BitVec 64 := 0x7FF0001;
      commandCode c = 1 ∧ commandRack c = false ∧ s.commandStatus ≠ 0 ∧ (windowArgs s).area % 4096 = 0 ∧ (windowArgs s).length % 4096 = 0 ∧
        (windowArgs s).length < indexSize) ∧
    (let s := (windowed base).setCfg64 0x6020 0x8000000000;
      areaBacked s (windowArgs s).area (windowArgs s).length = false) ∧
    (findPreempt base 0 = none ∧ savePlan base 0 = none ∧ ∀ u, base.warpAt 0 = some u → snapshotFor base u = none) ∧
    (let p := aPreempt 2047 false 0;
      findPreempt (preempting p base) 2047 = some p ∧ drainReady (preempting p base) p = true ∧ preemptEmpty (preempting p base) p = true) ∧
    (let p := aPreempt 0 false 0;
      findPreempt (preempting p base) 0 = some p ∧ drainReady (preempting p base) p = true ∧ preemptEmpty (preempting p base) p = false) ∧
    (let s := preempting (aPreempt 0 true 0) base;
      s.warpAt 0 = some (warpIn s) ∧ (snapshotFor s (warpIn s)).isSome = true ∧ (warpIn s).snapshot = false ∧ (warpIn s).run ≠ none) ∧
    (let s := preempting (aPreempt 0 true 0) (waiting id);
      s.warpAt 0 = some (warpIn s) ∧ (snapshotFor s (warpIn s)).isSome = true ∧ (warpIn s).run = none ∧ (warpIn s).snapshot = false) ∧
    (let p := aPreempt 0 true (indexSize + 4096);
      let s := preempting p (settledWith emptyGroup);
      savePlan s 0 = some ([(0, emptyGroup)], placedGrid, p) ∧ findPreempt s p.ctx = some p ∧ macroMissing s 0 emptyGroup = none ∧
        (indexSize + p.used) + ((imageBytes s 0 emptyGroup placedGrid).length + 4095) / 4096 * 4096 ≤ p.length) ∧
    (let p := aPreempt 0 true 0;
      let s := preempting p settled;
      savePlan s 0 = some ([(0, smallGroup)], placedGrid, p) ∧ findPreempt s p.ctx = some p ∧ macroMissing s 0 smallGroup = none ∧
        p.length < (indexSize + p.used) + ((imageBytes s 0 smallGroup placedGrid).length + 4095) / 4096 * 4096) ∧
    (let p := aPreempt 0 true 0;
      let g := { emptyGroup with spill := 0x8000 };
      let s := preempting p (settledWith g);
      savePlan { s with cfg := { s.cfg with poolTable := [127] } } 0 = some ([(0, g)], placedGrid, p) ∧
        ∃ a, macroMissing { s with cfg := { s.cfg with poolTable := [127] } } 0 g = some a) ∧
    (let p := aPreempt 2047 true 0;
      findPreempt (preempting p base) 2047 = some p ∧ p.snap = true ∧ preemptEmpty (preempting p base) p = true) ∧
    (let p := aPreempt 0 true 0;
      findPreempt (preempting p base) 0 = some p ∧ p.snap = true ∧ p.snapEnd ≤ (preempting p base).clk.ref.toNat ∧
        preemptGroups (preempting p base) p.ctx p.cores = [(0, placedGroup 0)]) := by
  refine ⟨by decide, by decide, by decide, by decide +revert, by decide, by decide, by decide, by decide,
    by decide, ⟨by decide, by decide, by decide, no_room (aPreempt 0 true 0) _ (by decide)⟩, ⟨by decide, Option.isSome_iff_exists.1 (by decide)⟩, by decide, by decide⟩

/-- A saved work-group whose image at 2 MiB + 4,096 an index at 2 MiB lists. -/
def aSaved : Saved := ⟨smallGroup, 0x201000, [], [], 0, none, [], []⟩
def away (version : Byte) : State := { base with
  ctl := { base.ctl with
    stopped := [(0, BitVec.allOnes 128)]
    saved := [(5, aSaved)]
    restores := [(0, 0x201000, 0)] }
  mem := { base.mem with hbm := ⟨[(0x200000, 1), (0x200048, 1), (0x200049, 0x10)] ++ (if version == 0 then [] else [(0x201000, version)]), []⟩ } }

/-- A command word of a context's window. -/
def aCommand (k ctx : Nat) : BitVec 64 := BitVec.ofNat 64 (k + 2 ^ 16 * ctx)

theorem read_of {o : Option (List Byte × Bool)} {b : Bool} (f : List Byte → Bool) (h : o.any (fun x => !x.2 && f x.1 == b) = true) :
    ∃ bs, o = some (bs, false) ∧ f bs = b := by
  obtain ⟨⟨bs, p⟩, h1, h2⟩ := some_of_any h
  simp only [Bool.and_eq_true, Bool.not_eq_true', beq_iff_eq] at h2
  obtain ⟨rfl, h2⟩ := h2
  exact ⟨bs, h1, h2⟩

theorem imageNat_zeros (m o n : Nat) : imageNat (List.replicate m 0#8) o n = 0 := by
  have h : ∀ k, leNat (List.replicate k 0#8) = 0 := fun k => by
    induction k with
    | zero => rfl
    | succ k ih => simp [List.replicate_succ, leNat, ih] at *
  simp [imageNat, h]

theorem lanesBad_zeros (size m : Nat) : ∀ n, lanesBad size n (List.replicate m 0#8) = false := by
  have h : ∀ n m, commitsBad n (List.replicate m 0#8) = false := fun n => by
    induction n with
    | zero => intro; rfl
    | succ n ih => intro m; simp [commitsBad, imageNat_zeros, ih]
  intro n
  induction n generalizing m with
  | zero => rfl
  | succ n ih => simp [lanesBad, laneBad, imageNat_zeros, h, ih, bits]

/-- An image of version 1 with nothing else set. -/
theorem imageBad_first (h : ImageShape) (m : Nat) : imageBad h (1#8 :: List.replicate (m + 7) 0#8) = false := by
  have z (o n : Nat) : imageNat (1#8 :: List.replicate (m + 7) 0#8) (o + 1) n = 0 := imageNat_zeros ..
  have z0 : imageNat (1#8 :: List.replicate (m + 7) 0#8) 0 8 = 1 := by
    simp [imageNat, leNat, List.replicate_succ]
  have w (i : Nat) : h.warpAt i = h.warpAt i - 1 + 1 := by simp only [ImageShape.warpAt]; omega
  have e (i k n : Nat) : imageNat (1#8 :: List.replicate (m + 7) 0#8) (h.warpAt i + k) n = 0 := by
    rw [w, Nat.add_right_comm]; exact z ..
  simp [imageBad, z0, e, lanesBad_zeros, z 23, z 31, z 39, bits]

/-- The restore of the saved work-group, and the states in which no core takes it and in which its image is homed elsewhere. -/
def aRestore : Restore := ⟨5, aSaved, placedGrid, (0, 0x201000, 0)⟩
def nowhere : State := let s := away 1; { s with cfg := { s.cfg with outCores := List.range 128 } }
def farImage : State := let s := away 1; { s with cfg := { s.cfg with poolTable := [127] } }

theorem image_of {s : State} {b : Bool} (f : List Byte → Bool)
    (h : (s.poolRead aSaved.image placedGrid.shape.macros).any (fun x => !x.2 && f x.1 == b) = true) :
    ∃ bs, aRestore.image s = some bs ∧ f bs = b := by
  obtain ⟨bs, h, e⟩ := read_of f h
  exact ⟨bs, by simp only [Restore.image, aRestore, h, Option.map_some], e⟩

set_option maxRecDepth 1000000 in
theorem image_read : ∃ bs, aRestore.image (away 1) = some bs ∧ imageBad placedGrid.shape bs = false := by
  obtain ⟨bs, h, e⟩ := image_of (s := away 1) (b := true) (· == 1#8 :: List.replicate (placedGrid.shape.macros - 8 + 7) 0#8) (by decide +kernel)
  exact ⟨bs, h, eq_of_beq e ▸ imageBad_first ..⟩

set_option maxRecDepth 1000000 in
theorem image_nowhere : ∃ xs, planImages nowhere [aRestore] = some xs ∧ refused xs = [] ∧
    ∀ x ∈ xs.head?, ∀ d ∈ restoreDies x.1.saved.group, restoreOn d xs nowhere = none := by
  obtain ⟨bs, h, e⟩ := image_of (s := nowhere) (b := true) (· == 1#8 :: List.replicate (placedGrid.shape.macros - 8 + 7) 0#8) (by decide +kernel)
  refine ⟨[(aRestore, bs)], by simp [planImages, h], ?_, ?_⟩
  · have := eq_of_beq e ▸ imageBad_first aRestore.grid.shape (placedGrid.shape.macros - 8)
    simp [refused, this]
  · have k : ∀ d ∈ restoreDies aSaved.group, restoreSpot nowhere placedGrid aSaved.group d = none := by decide
    rintro x ⟨⟩ d hd
    simp [restoreOn, aRestore, k d hd]

set_option maxRecDepth 1000000 in
theorem witness_ContextEvents :
    (∀ k, k ∈ [1, 2, 3, 4, 5] → commandCode (aCommand (k + 32) 2047) = k ∧ base.commandStatus ≠ 0) ∧
    (let w := aCommand 2 0;
      commandRack w = false ∧ base.commandStatus ≠ 0 ∧ commandCode w = 2 ∧ contextStopped base (commandCtx w) = false) ∧
    (let w := aCommand 2 0;
      let s := (away 1).setCfg64 0x6020 0x200000;
      commandRack w = false ∧ s.commandStatus ≠ 0 ∧ commandCode w = 2 ∧ contextStopped s (commandCtx w) = true ∧
        indexImages s (windowArgs s).area = some [(0x201000, 0)]) ∧
    (restorePlan (away 1) 5 = [aRestore] ∧
      (∃ bs, aRestore.image (away 1) = some bs ∧ imageBad placedGrid.shape bs = false) ∧
      ((restoreDies aSaved.group).findSome? (restoreSpot (away 1) placedGrid aSaved.group)).isSome = true ∧ aSaved.group.halt = none ∧ aSaved.failed = []) ∧ restorePlan (away 1) 6 = [] ∧
    (restorePlan (away 0) 5 = [aRestore] ∧
      ∃ bs, aRestore.image (away 0) = some bs ∧ imageBad placedGrid.shape bs = true) ∧
    (restorePlan nowhere 5 = [aRestore] ∧ ∃ xs, planImages nowhere [aRestore] = some xs ∧ refused xs = [] ∧
      ∀ x ∈ xs.head?, ∀ d ∈ restoreDies x.1.saved.group, restoreOn d xs nowhere = none) ∧
    (restorePlan farImage 5 = [aRestore] ∧ aRestore.image farImage = none) ∧
    (let w := aCommand 3 2047;
      commandRack w = false ∧ base.commandStatus ≠ 0 ∧ commandCode w = 3 ∧ base.work.groups.wf = true) ∧
    (let w := aCommand 4 2047;
      commandRack w = false ∧ base.commandStatus ≠ 0 ∧ commandCode w = 4 ∧ commandCtx w ∉ base.ctl.contained.map (·.1)) ∧
    (let w := aCommand 4 2047;
      let s := { base with ctl := { base.ctl with contained := [(2047, 0)] } };
      commandRack w = false ∧ s.commandStatus ≠ 0 ∧ commandCode w = 4 ∧ commandCtx w ∈ s.ctl.contained.map (·.1)) := by
  refine ⟨by decide, by decide, by decide, ⟨by rfl, image_read, by decide⟩, by rfl, ⟨by rfl, image_of _ (by decide +kernel)⟩, ⟨by rfl, image_nowhere⟩, ⟨by rfl, by decide⟩,
    by decide, by decide, by decide⟩

/-- The stacks with bank 15 of pseudo-channel 511 as given, or pin 2047 of stack 0 with so many errors. -/
def banked (b : Bank) (forced : NMap (Option Nat × Nat)) (m : MemSys → MemSys) : State := { withMem m with
  dram := { base.dram with
    banks := [(8191, b)]
    forced := forced } }
def paused (s : State) : State := { s with dram := { s.dram with pauses := [(63, (0, [2047]))] } }
def pinned (mode : BitVec 32) (repaired : NMap Nat) : State := { base with
  cfg := { base.cfg with functionMode := mode }
  dram := { base.dram with
    errors := [(2047, 16)]
    repaired := repaired } }
def pinAsked (asked' : Nat) : State := { pinned 32 [] with
  host := { base.host with pending := [anEvent 6 4] }
  dram := { (pinned 32 []).dram with asked := [(65535, asked')] } }

set_option maxRecDepth 100000 in
theorem witness_RefreshAndPinEvents :
    (let s := banked ⟨8, none, 0, none⟩ [] id;
      511 < 4096 ∧ 15 < 16 ∧ channelUp s 511 = true ∧ s.forcedAt 511 = false ∧ 8 ≤ (s.bank (16 * 511 + 15)).postponed) ∧
    (let s := paused (banked ⟨7, none, 0, none⟩ [] id);
      channelUp s 511 = true ∧ s.forcedAt 511 = false ∧ (s.bank (16 * 511 + 15)).postponed < 8 ∧ bankBusy s (16 * 511 + 15) = true) ∧
    (let s := banked ⟨7, none, 0, none⟩ [] id;
      channelUp s 511 = true ∧ s.forcedAt 511 = false ∧ (s.bank (16 * 511 + 15)).postponed < 8 ∧ bankBusy s (16 * 511 + 15) = false ∧
        (s.bank (16 * 511 + 15)).runEnd = none) ∧
    (let s := banked ⟨0, some 1, 0, none⟩ [] id;
      channelUp s 511 = true ∧ s.forcedAt 511 = false ∧ (s.bank (16 * 511 + 15)).postponed < 8 ∧ bankBusy s (16 * 511 + 15) = false ∧
        (s.bank (16 * 511 + 15)).runEnd ≠ none) ∧
    (let s := banked ⟨8, none, 0, none⟩ [(511, (none, 15))] id;
      s.dram.forced.find 511 = some (none, 15) ∧ channelUp s 511 = true ∧ refreshesRun s 511 = false ∧ ∀ x ∈ s.dram.pauses, x.1 ≠ 63) ∧
    (15 < 16 ∧ drainDue (banked ⟨1, none, 0, none⟩ [] id) 511 15 = true) ∧
    (let s := banked ⟨0, some 0, 0, none⟩ [] id;
      15 < 16 ∧ (s.bank (16 * 511 + 15)).runEnd = some 0 ∧ 0 ≤ s.clk.ref.toNat ∧ (s.bank (16 * 511 + 15)).waiting = 0) ∧
    (let s := banked ⟨0, some 0, 1, none⟩ [] id;
      15 < 16 ∧ (s.bank (16 * 511 + 15)).runEnd = some 0 ∧ 0 ≤ s.clk.ref.toNat ∧ 0 < (s.bank (16 * 511 + 15)).waiting ∧ s.forcedAt 511 = false ∧ channelUp s 511 = true) ∧
    (let s := banked ⟨8, none, 0, none⟩ [(511, (some 0, 15))] id;
      s.dram.forced.find 511 = some (some 0, 15) ∧ 0 ≤ s.clk.ref.toNat) ∧
    (0 < 8 ∧ 2047 < 2048 ∧ repairReady (pinned 0 []) 2047 = true ∧ (pinned 0 []).hostMode 5 = false ∧ pinsFree (pinned 0 []) 63 = 2) ∧
    (repairReady (pinned 0 [(63, 2)]) 2047 = true ∧ (pinned 0 [(63, 2)]).hostMode 5 = false ∧ pinsFree (pinned 0 [(63, 2)]) 63 = 0) ∧
    (repairReady (pinned 32 []) 2047 = true ∧ (pinned 32 []).hostMode 5 = true) ∧
    (0 < 8 ∧ 63 < 64 ∧ (paused base).dram.pauses.find (64 * 0 + 63) = some (0, [2047])) ∧
    (channelUp base 511 = true ∧ base.dram.forced.find 511 = none ∧ (base.bank 8191).postponed = 0 ∧ (base.bank 8191).runEnd = none ∧
      base.dram.errors.getD 2047 0 < 16 ∧ base.dram.pauses.find 63 = none ∧ pendingEvent base 6 0 = none) ∧
    (pendingEvent (pinAsked 2047) 6 65535 = some (anEvent 6 4) ∧
      (pinAsked 2047).dram.asked.find? (fun x => x.1 == 65535) = some (65535, 2047) ∧ repairHeld (pinAsked 2047) 2047 = false ∧
      0 < pinsFree (pinAsked 2047) (2047 / 32)) := by
  and_intros <;> decide

/-- A store to the first line of die 1, its die alive or dead; a package whose context with work is stopped; one with no work. -/
def lineOfDie1 : Nat := (((List.range 16).map (2 ^ 16 * ·)).find? fun a => hashDie (placementHash (frameOf a)) == 1).getD 0
def late (dead : BitVec 128) : State := { withMem fun m => { m with ops := [(7, .write { aStore with pa := lineOfDie1 })] } with
  cfg := { base.cfg with deadSlices := dead } }
def quiet : State := { base with ctl := { base.ctl with stopped := [(0, BitVec.allOnes 128)] } }
def copied : State := { base with dram := { base.dram with copying := [4095] } }
def heldLink (out held : Bool) : State := { base with links := [(5, { DieLink.init with held := held, out := out })] }

set_option maxRecDepth 100000 in
theorem witness_MapOutEvents :
    (timeoutReady base 1 0 = false ∧ ({ base with att := { base.att with regs := [(0x1030, 0)] } } : State).mapStatus = 0 ∧ 0 ∉ base.dram.copying) ∧
    (timeoutReady (late 0) 1 lineOfDie1 = true ∧ (late 0).dieDead lineOfDie1 = false ∧ (late 0).mem.ops.wf = true) ∧
    (timeoutReady (late (BitVec.allOnes 128)) 1 lineOfDie1 = true ∧ (late (BitVec.allOnes 128)).dieDead lineOfDie1 = true) ∧
    (127 < 128 ∧ base.mapStatus ≠ 0 ∧ base.coreOut 127 = false ∧ coreEmpty base 127 = true) ∧
    (0 < 128 ∧ base.mapStatus ≠ 0 ∧ base.coreOut 0 = false ∧ coreEmpty base 0 = false) ∧
    (let s := { base with cfg := { base.cfg with outCores := [127] } };
      127 < 128 ∧ s.mapStatus ≠ 0 ∧ s.coreOut 127 = true) ∧
    (3 < 4 ∧ base.mapStatus ≠ 0 ∧ 3 ∉ base.att.outDies ∧ (∀ c < 128, c / 32 = 3 → coreEmpty base c = true) ∧
      ∀ x ∈ base.work.contracts, x.2.usesDie 3 = false) ∧
    (0 < 4 ∧ base.mapStatus ≠ 0 ∧ 0 ∉ base.att.outDies ∧ ∃ c < 128, c / 32 = 0 ∧ coreEmpty base c = false) ∧
    (let s := clocked DieClock.init onDie3;
      3 < 4 ∧ s.mapStatus ≠ 0 ∧ 3 ∉ s.att.outDies ∧ ∃ x ∈ s.work.contracts, x.2.usesDie 3 = true) ∧
    (7 < 8 ∧ quiet.mapStatus ≠ 0 ∧ 7 ∉ quiet.att.outStacks ∧ allStopped quiet = true) ∧
    (7 < 8 ∧ (mapped 0 base).mapStatus ≠ 0 ∧ 7 ∉ (mapped 0 base).att.outStacks ∧ allStopped (mapped 0 base) = false) ∧
    (4095 < 4096 ∧ quiet.mapStatus ≠ 0 ∧ 4095 ∉ quiet.dram.dropped ∧ allStopped quiet = true ∧ slicesDropped quiet (sliceOfChannel 4095) < 8) ∧
    (4095 < 4096 ∧ (mapped 0 base).mapStatus ≠ 0 ∧ 4095 ∉ (mapped 0 base).dram.dropped ∧ allStopped (mapped 0 base) = false) ∧
    (4095 ∈ copied.dram.copying ∧ copied.mem.hbm.wf = true) ∧
    (5 < 6 ∧ (heldLink false true).mapStatus ≠ 0 ∧ ((heldLink false true).link 5).out = false ∧ ((heldLink false true).link 5).held = true) ∧
    (5 < 6 ∧ base.mapStatus ≠ 0 ∧ (base.link 5).out = false ∧ (base.link 5).held = false) ∧
    (14 < 15 ∧ base.mapStatus ≠ 0 ∧ (base.portAt 14).out = false) := by
  and_intros <;> decide

/-- Link 5 as given, with counters, its dies' clocks at tick 200,000. -/
def linked (l : DieLink) (counts : NMap Nat) : State := { base with
  cfg := { base.cfg with functionMode := 0 }
  links := [(5, l)]
  counts := counts
  clk := { base.clk with ref := 200000 } }
def upLink : DieLink := { DieLink.init with up := true, lanes := 64 }
def heldUp : DieLink := { upLink with hold := true, held := true }

/-- The spare of the lane's half, taken or not; the retries of direction 1 up to 64. -/
def repairing (spares : NMap Nat) : State := linked { heldUp with sel := 255, pending := some (127, 1, 63), spares := spares } []
def retried (n : Nat) : State := linked upLink [(0x3000 + 32 * 11 + 16, n)]

set_option maxRecDepth 100000 in
theorem witness_DieLinkEvents :
    (let s := linked { upLink with hold := true } []; 5 < 6 ∧ holdReady s 5 = true ∧ (s.link 5).auto = false) ∧
    (let s := linked { upLink with hold := true, auto := true } []; 5 < 6 ∧ holdReady s 5 = true ∧ (s.link 5).auto = true) ∧
    (5 < 6 ∧ ((linked heldUp []).link 5).up = true) ∧
    (let s := linked heldUp []; (s.link 5).held = true ∧ (s.link 5).training = false ∧ (s.link 5).out = false) ∧
    (let s := linked { heldUp with training := true, narrow := true } [];
      (s.link 5).training = true ∧ badLanes (s.link 5) [(127, 1, 32)] = [] ∧ (s.link 5).auto = false) ∧
    (let s := linked { heldUp with training := true, auto := true } [];
      (s.link 5).training = true ∧ badLanes (s.link 5) [(128, 0, 0)] = [] ∧ (s.link 5).auto = true) ∧
    (let s := linked { heldUp with training := true } [];
      (s.link 5).training = true ∧ badLanes (s.link 5) [(127, 1, 63)] ≠ []) ∧
    (let s := linked heldUp []; (0x7F : BitVec 32).getLsbD 6 = true ∧ (s.link 5).pending = none ∧ (s.link 5).out = false ∧ (s.link 5).held = true) ∧
    (let s := linked upLink []; (0x7F : BitVec 32).getLsbD 6 = true ∧ (s.link 5).pending = none ∧ (s.link 5).out = false ∧ (s.link 5).held = false) ∧
    (let s := repairing []; (s.link 5).pending = some (127, 1, 63) ∧ (s.link 5).out = false ∧ 0 < sparesLeft s (s.link 5) 127 1 (63 / 32)) ∧
    (let s := repairing [(halfKey 127 1 1, 2)]; (s.link 5).pending = some (127, 1, 63) ∧ (s.link 5).out = false ∧ sparesLeft s (s.link 5) 127 1 (63 / 32) = 0) ∧
    (let s := linked { upLink with out := true } []; (s.link 5).hold = false ∧ (s.link 5).held = false ∧ (s.link 5).training = false ∧
      (s.link 5).pending = none ∧ (s.link 5).out = true ∧ (base.link 5).up = false ∧ lookDue base 5 = false) ∧
    (lookDue (retried 63) 5 = true ∧ ∀ d < 2, newRetries (retried 63) 5 d < 64) ∧
    (lookDue (retried 64) 5 = true ∧ (∃ d < 2, 64 ≤ newRetries (retried 64) 5 d) ∧ (retried 64).hostMode 6 = false ∧ ((retried 64).link 5).hold = false) ∧
    (let s := linked upLink [];
      5 < 6 ∧ 1 < 2 ∧ 127 < 128 ∧ 63 < 64 ∧ (s.link 5).up = true ∧ (s.link 5).held = false ∧ (s.link 5).out = false ∧ (s.link 5).hold = false) := by
  and_intros <;> decide

/-- Package 0 of the tray with its ports 13 and 14 as given, the fabric up. -/
def fabric (p : Port) (f : Fabric → Fabric) : State := { base with
  fab := f { base.fab with ports := [(13, p), (14, p)] }
  att := { base.att with fabricUp := true } }
def upPort : Port := { Port.init with up := true }
def aFlit (target seq : Nat) : Flit := ⟨15, target, false, seq, .heartbeat⟩
def aRemote : RemoteWrite := ⟨127, 9, [], 0⟩
def aFrame : Frame := ⟨127, 0, false, [aFlit 0 0]⟩
def lastFrame : State := fabric upPort fun f => { f with uplinks := [(511, ⟨0, 0xFFFFFFFF, [(0, 0, aFrame)]⟩)] }
def resending : State := { lastFrame with clk := { base.clk with ref := 4000 } }

set_option maxRecDepth 100000 in
theorem witness_FabricEvents :
    (base.fab.remote = [] ∧ (base.portAt 14).up = false ∧ ((base.portAt 14).chan true).sent = [] ∧ ((base.portAt 14).chan true).transit = [] ∧
      base.fab.held = [] ∧ base.att.fabricUp = false) ∧
    (ackDue (fabric upPort fun f => { f with remote := [aRemote] }) 127 = some aRemote) ∧
    (let s := fabric upPort id; 14 < 15 ∧ (s.portAt 14).up = true ∧ (s.portAt 14).out = false) ∧
    (let s := fabric { upPort with ordered := { upPort.ordered with expect := 4 } } id;
      (aFlit 0 3).source / 16 = s.cfg.pkg / 16 ∧ (aFlit 0 3).source ≠ s.cfg.pkg ∧ (aFlit 0 3).target = s.cfg.pkg ∧
        ((s.portAt (s.portOf (aFlit 0 3).source)).chan (aFlit 0 3).relaxed).taken (aFlit 0 3).seq = true) ∧
    (let s := fabric upPort id;
      (aFlit 0 3).source / 16 = s.cfg.pkg / 16 ∧ (aFlit 0 3).source ≠ s.cfg.pkg ∧ (aFlit 0 3).target = s.cfg.pkg ∧
        ((s.portAt (s.portOf (aFlit 0 3).source)).chan (aFlit 0 3).relaxed).taken (aFlit 0 3).seq = false ∧
        takeMsg s (aFlit 0 3).source (aFlit 0 3).relaxed (aFlit 0 3).msg = some { s with att := { s.att with beatIn := s.clk.ref.toNat } } ∧
        msgWaits s (aFlit 0 3).msg = false) ∧
    (let s := fabric upPort id;
      (aFlit 14 3).source / 16 = s.cfg.pkg / 16 ∧ (aFlit 14 3).source ≠ s.cfg.pkg ∧ (aFlit 14 3).target / 16 = s.cfg.pkg / 16 ∧
        (aFlit 14 3).target ≠ s.cfg.pkg) ∧
    (poolStatus base 124 8 false = 0 ∧ readFollows base 127 9 = true ∧ ∀ k ∈ granules 128 124 8, base.lineWaits k = false ∧ base.sliceCopying k = false) ∧
    (let s := fabric { upPort with ordered := { upPort.ordered with credits := 63, sent := [aFlit 15 0] } } id;
      ((s.portAt 14).chan false).sent = [aFlit 15 0]) ∧
    (let s := fabric { upPort with relaxed := { upPort.relaxed with credits := 191, sent := [aFlit 15 0] } } id;
      ((s.portAt 14).chan true).sent = [aFlit 15 0]) ∧
    (let s := fabric { upPort with ordered := { upPort.ordered with credits := 1, transit := [aFlit 15 0] } } id;
      (s.portAt 14).up = true ∧ (s.portAt 14).out = false ∧ ((s.portAt 14).chan false).credits = 1 ∧ ((s.portAt 14).chan false).transit = [aFlit 15 0]) ∧
    (let s := fabric upPort fun f => { f with held := [15], detour := [(15, 14)] };
      15 ∈ s.fab.held ∧ orderedOut s 15 = false ∧ s.portLive (s.portOf 15) = true) ∧
    (let s := fabric Port.init fun f => { f with held := [15] }; 15 ∈ s.fab.held ∧ orderedOut s 15 = false ∧ s.portLive (s.portOf 15) = false) ∧
    (let s := fabric Port.init id; 14 < 15 ∧ s.att.fabricUp = true ∧ (s.portAt 14).out = false) ∧
    (let s := lastFrame;
      3 < 4 ∧ s.att.fabricUp = true ∧ 0xFFFFFFFF = (s.fab.uplinks.getD (128 * 3 + 127) Uplink.init).expect ∧ aFrame.target = s.cfg.pkg ∧ aFrame.flits.length ≤ 32 ∧
        (takeFlits (s.onUplink 3 127 fun u => { u with sent := u.sent.filter fun x => (x.1 + 2 ^ 32 - 0) % 2 ^ 32 < 2 ^ 31 }) aFrame.source
          aFrame.flits).isSome = true) ∧
    (let s := lastFrame; 3 < 4 ∧ s.att.fabricUp = true ∧ 0 ≠ (s.fab.uplinks.getD (128 * 3 + 127) Uplink.init).expect) ∧
    (3 < 4 ∧ ∃ x ∈ (resending.fab.uplinks.getD (128 * 3 + 127) Uplink.init).sent, x.1 = 0 ∧ x.2.1 + 4000 ≤ resending.clk.ref.toNat) := by
  refine ⟨by decide, by decide, by decide, by decide, ⟨by decide, by decide, by decide, by decide, rfl, by decide⟩, by decide, by decide, by decide, by decide, by decide,
    by decide, by decide, by decide, by decide, by decide, by decide⟩

/-- A record of kind 2 that is applied, at stage 0 and 1. -/
def aConfig : FlashRecord := ⟨2, 0, 1, zeros 184, [], true⟩
def starting (stage : Nat) : State := { State.reset with att := { State.reset.att with
  applied := [aConfig]
  stage := stage } }

/-- An RSA-4096 modulus, and the RSASSA-PSS signature of a record of kind 1 without a body, of security version 7, under it; both were made with
Python's hashlib and integer arithmetic. -/
def ownerModulus : Nat := ([
    (0xc632ca75af47f6dcde321f666fe68117078c8afe9ab419b9d29ba19740062f42b4c472c4857d85f3d6ddc42c784464fcf2fbe7312937ace19df30199, 480),
    (0xeb55934777ad8c39eebaed07445cdeafe2918bc3c19a57bc5152d5d15a7904d10b782f1384a6a35ea49b5469cf8ba55de3e331ce206afb8bf1b5ef47, 480),
    (0x87feb19735e5a3523e7f2d364b893fe19e02c380847dd336be712cecc22f044af32a8dd94cd476ab4058367fccbf488596180fec66df503c15c35666, 480),
    (0xbe30016d420efe8d3f494d0654b1ad21e2b0ca211c82720132c5060eb9a6ac18c4c921d2477f44b1bc6f45298b54cc21f9d1fa2ac638137b15fdf9be, 480),
    (0xa352b4ea5bee5ff46c1b0611e5696d2672bc33d8bef71335408362af55359daa9c09938e6f7e1d1a79c800ad6ca92e36a61222ec3473ac5cf5b11400, 480),
    (0xe32da1c14ad3f3fb3d5dfc7a7d7598bf55cf143dd38327d8064b91dc6016a6c91637b2598e0116a90190f1fab23bfdd0f6fd717aab56cb2dcec792af, 480),
    (0xf2855f30ee982b4224d21c04625406687a04dd6658b07901c3b8acfb1aa4d1b4ca7253dd7d2b3990ff8ff78f08fbb3afd87d948868bc40845a788de4, 480),
    (0xba8c514fa5d3024f4b50ae6283e24bb9acbe19c74e0ac5b1be9d74c35e3af5a5a84e250f960079f90b8bbd1e8175af661db7d4ea97d45ac4f35062fe, 480),
    (0x563901f95349410d54154245022f4109414c3f28ee290163d6f5f904c14ab767, 256)] : List (Nat × Nat)).foldl (fun n x => n * 2 ^ x.2 + x.1) 0
/-- The signature. -/
def ownerSignature : Nat := ([
    (0xb4ffd85629d6fdf7cb4c3a9993f2e63d8b6f9718ff3b73b80f1965c41b28d2c7dd1eeab2c846fc25ba9679ed4319f59c92e9e4d901c73d056e1ec8bf, 480),
    (0xaff871db3e898f2ebf92c1e1da8182b7989d3f416fd3bac04a72080a4f6ce528ea7407c4d7f2a8d63aba0a0e3b6a022f213a66f3237e3c64f74678b6, 480),
    (0x9aba2cb7d8c5c117956faaaa83d83328916f58011d852b065c87fc15f7007edb84e32b54a81c04d2cf1520d2434eece506d280c550820ef25f7f9e85, 480),
    (0x24d9a04e619e342959420ffd4f6a76f16698798a75dfb6301e28237305f0bc52fa24d92be54040109566c94eeb51f8b9954e7218eac4f4736b24678a, 480),
    (0x3b452031599c50a6eff62932d8a78eaba428ea87a61b63dad957d7978a67d94c746607beca6d301a406ac3a4b124ad9e980d03ba4373ed06bcf7224c, 480),
    (0x14ac5a3380b0aae4418342e1fb638718f6e265df986251caff269b74f9d0ed9943e6f24c71c9fbf0b77c19cd37f8fddcb3eb62309ac4c1971c7c4957, 480),
    (0xb7f6b578881fe0d13e3888e92b378894a8df3521f5d98af90d3de36596b7e2ae459cbd06d714cd721dac2b81e8fdf19b22a711146e2760b78da44f9a, 480),
    (0x5419a855137a34fb62c417e764b9c4f916ba3d96e00fd37480a43c0737db293950a613282c860ec056ddb5456ef60174d1f2afa12986553a60da470f, 480),
    (0x23da4a2c6339f9a02557c7ec3e323355746fcc88473050431abdca9c885eab6a, 256)] : List (Nat × Nat)).foldl (fun n x => n * 2 ^ x.2 + x.1) 0
def ownerRecord : FlashRecord := ⟨3, 0, 1, leBytes 512 ownerModulus, [], true⟩
def vendorDigest : FlashRecord := ⟨1, 1, 7, [], beBytes 512 ownerSignature, true⟩

/-- A mailbox with the given bytes and command under way. -/
def mailing (command : Nat) (bs : NMap Byte) : State := { State.reset with att := { State.reset.att with
  mailbox := bs
  command := command
  applied := [ownerRecord] } }
/-- Bytes laid out from a place of the mailbox on. -/
def laid (a : Nat) (bs : List Byte) : NMap Byte := bs.zipIdx.map fun x => (a + x.2, x.1)

theorem find_laid (bs : List Byte) (a k i : Nat) (h : i < bs.length) :
    NMap.find (a + k + i) ((bs.zipIdx k).map fun x => (a + x.2, x.1)) = bs[i]? := by
  induction bs generalizing k i with
  | nil => simp at h
  | cons b bs ih =>
    cases i with
    | zero => simp [NMap.find]
    | succ i =>
      have h1 := ih (k + 1) i (by simpa using h)
      simp only [List.zipIdx_cons, List.map_cons, NMap.find, List.getElem?_cons_succ] at h1 ⊢
      rw [if_neg (by omega), ← h1]
      congr 1
      omega

/-- Bytes laid out in the request area read back. -/
theorem mail_laid (s : State) (bs : List Byte) (pre : NMap Byte) (hp : ∀ x ∈ pre, x.1 < 256) (h : s.att.mailbox = pre ++ laid 256 bs) :
    s.mailBytes 256 bs.length = bs := by
  have skip : ∀ i, NMap.find (256 + i) (pre ++ laid 256 bs) = NMap.find (256 + i) (laid 256 bs) := by
    intro i
    clear h
    induction pre with
    | nil => rfl
    | cons x pre ih =>
      have h1 := hp x (by simp)
      obtain ⟨j, v⟩ := x
      simp only [List.cons_append, NMap.find]
      rw [if_neg (by simp at h1; omega)]
      exact ih fun y hy => hp y (by simp [hy])
  apply List.ext_getElem (by simp [State.mailBytes])
  intro i h1 h2
  have h3 := (skip i).trans (find_laid bs 256 0 i h2)
  simp only [State.mailBytes, List.getElem_map, List.getElem_range, NMap.getD, h, h3]
  simp [h2]

def writing : State := mailing 2 ([(88, 0x10), (89, 2)] ++ laid 256 vendorDigest.bytes)

set_option maxRecDepth 100000 in
theorem witness_StartupAndMailboxEvents :
    (appliedKind (starting 0).att 2 = some aConfig ∧ (starting 0).att.stage = 0 ∧ (starting 0).att.rejected = false) ∧
    (appliedKind (starting 1).att 2 = some aConfig ∧ (starting 1).att.stage = 1) ∧
    State.reset.mailStatus ≠ 0 ∧
    (mailing 1 []).att.command = 1 ∧ (mailing 3 []).att.command = 3 ∧
    (let s := mailing 2 [(88, 1), (89, 0x0F)];
      s.att.command = 2 ∧ ¬ ((s.mailBytes 72 1).headD 0).getLsbD 0 = true ∧ 3840 < leNat (s.mailBytes 88 8)) ∧
    (let s := mailing 2 [];
      s.att.command = 2 ∧ ¬ ((s.mailBytes 72 1).headD 0).getLsbD 0 = true ∧ leNat (s.mailBytes 88 8) ≤ 3840 ∧
        parseRecord (s.mailBytes 0x100 (leNat (s.mailBytes 88 8))) = none) ∧
    (let s : State := { starting 2 with clk := { State.reset.clk with ref := 20000 } };
      let t : State := { s with att := { s.att with role := 1 } };
      t.att.role = 1 ∧ t.att.stage = 2 ∧ t.att.beatOut + 20000 ≤ t.clk.ref.toNat) ∧
    (let s : State := { starting 2 with clk := { State.reset.clk with ref := 200000 } };
      let t : State := { s with att := { s.att with role := 2, epoch := 2 ^ 32 - 2 } };
      t.att.role = 2 ∧ t.att.stage = 2 ∧ t.att.beatIn + 200000 ≤ t.clk.ref.toNat ∧ t.att.epoch + 1 < 2 ^ 32) ∧
    (let s : State := { State.reset with att := { State.reset.att with role := 1 } };
      s.att.epoch < 2 ^ 32 - 1 ∧ 2 ^ 32 - 1 < 2 ^ 32 ∧ s.att.role = 1 ∧ 5 ∉ s.att.log) ∧
    (State.reset.att.epoch < 2 ^ 32 - 1 ∧ State.reset.att.role ≠ 1) ∧
    (let s : State := { State.reset with att := { State.reset.att with role := 1, log := [5] } };
      s.att.role = 1 ∧ 5 ∈ s.att.log ∧ 5 ∉ s.att.committed) := by
  and_intros <;> decide

set_option maxRecDepth 100000 in
/-- A record written through the mailbox that a record of an owner's key vouches for. -/
theorem witness_StartupAndMailboxEvents_record :
    writing.att.command = 2 ∧ ¬ ((writing.mailBytes 72 1).headD 0).getLsbD 0 = true ∧ leNat (writing.mailBytes 88 8) ≤ 3840 ∧
      parseRecord (writing.mailBytes 0x100 (leNat (writing.mailBytes 88 8))) = some vendorDigest := by
  have h1 : leNat (writing.mailBytes 88 8) = vendorDigest.bytes.length := by decide +kernel
  rw [h1, mail_laid writing _ [(88, 0x10), (89, 2)] (by decide) rfl]
  refine ⟨by decide +kernel, by decide +kernel, by decide +kernel, by decide +kernel⟩

set_option maxRecDepth 1000000 in
theorem witness_StartupAndMailboxEvents_signature : recordValid writing.att.applied writing.att.recorded vendorDigest = true := by decide +kernel

/-- The rack root's queue of two places, one reserved. -/
def queueAt (n : Nat) : State := { State.reset with dist := { State.reset.dist with
  rackBase := 0x1000
  rackLog := 1
  rackReserved := n } }
def window (w : Nat) : State := { base with att := { base.att with regs := [(0x1024, w)] } }

set_option maxRecDepth 100000 in
theorem witness_HostEvents :
    (0x1FD0 % 4 = 0 ∧ saturating 0x1FD0 = true ∧ counterUp { State.reset with att := { State.reset.att with diesUp := [3] } } 0x1FD0 = true) ∧
    (starting 1).att.stage ≠ 0 ∧
    (State.reset.att.epoch = 0) ∧
    ((queueAt 1).rackRoot = (queueAt 1).cfg.pkg ∧ rackFull (queueAt 1) = false) ∧
    ((queueAt 2).rackRoot = (queueAt 2).cfg.pkg ∧ rackFull (queueAt 2) = true) ∧
    ¬ (let s : State := { State.reset with att := { State.reset.att with roles := 127 } }; s.rackRoot = s.cfg.pkg) ∧
    ((queueAt 2).dist.rackHead ≤ 1 ∧ 1 < (queueAt 2).dist.rackReserved ∧ 1 ∉ (queueAt 2).dist.published) ∧
    (124 + 4 ≤ 2 ^ 36 ∧ hostReady State.reset (State.reset.cfg64 0x1020 + 124) 4 = true ∧
      onChip (State.reset.cfg64 0x1020 + 124) = false ∧ sliceHasWay State.reset (lineOf (State.reset.cfg64 0x1020 + 124)) = true ∧
      (State.reset.cfg64 0x1020 + 124) % 128 + ([1, 2, 3, 4] : List Byte).length ≤ 128 ∧ State.reset.homed (State.reset.cfg64 0x1020 + 124) = true ∧
      State.reset.mem.hbm.wf = true ∧ State.reset.dieDead (State.reset.cfg64 0x1020 + 124) = false) ∧
    (let s := window 0x40000;
      hostReady s (s.cfg64 0x1020 + 0) 8 = true ∧ onChip (s.cfg64 0x1020 + 0) = false ∧ rangeBacked s (s.cfg64 0x1020 + 0) 8 = false) ∧
    (let s := window 0x80010;
      hostReady s (s.cfg64 0x1020 + 124) 4 = true ∧ onChip (s.cfg64 0x1020 + 124) = true ∧ hostPlace s (s.cfg64 0x1020 + 124) 4 = some (0, 1, 124)) ∧
    (let s := window 0x80000; onChip (s.cfg64 0x1020 + 1) = true ∧ hostPlace s (s.cfg64 0x1020 + 1) 4 = none) ∧
    (counterUp base 3 = false ∨ 3 % 4 ≠ 0) ∧ State.reset.att.stage = 0 ∧ 2 ^ 36 < 2 ^ 36 + 1 ∧
    (hostReady base (base.cfg64 0x1020 + 0x200000) 8 = true ∧ onChip (base.cfg64 0x1020 + 0x200000) = false ∧ rangeBacked base (base.cfg64 0x1020 + 0x200000) 8 = true ∧
      base.poolRead (base.cfg64 0x1020 + 0x200000) 8 = some (zeros 8, false)) := by
  and_intros <;> decide

/-- The machine about to fetch a word. -/
def about (v : Nat) : State := State.reset.withFetchWord 32 v
def onlyGroup : Group := ⟨0, 0, 0, [0], 0x1000, 0, false⟩

/-- The attempt of a word's issue is not a wait. -/
def goesOn (i : Instr) (s : State) : Bool := match attemptWord i onlyGroup s with
  | .wait _ _ => false
  | _ => true

theorem not_wait {i : Instr} {s : State} (h : goesOn i s = true) : ∀ late ask, attemptWord i onlyGroup s ≠ .wait late ask := by
  intro late ask e
  simp [goesOn, e] at h

/-- A turn of the slot of core 0 with one group to issue: a word that decodes, and one that does not. -/
def Turned (s : State) (v : Word) : Prop :=
  s.agenda = [.slot 0 0] ∧ (s.slotAt 0 0).running = some 0 ∧ ∃ w, s.warpAt (warpKey 0 0 0) = some w ∧ ∃ r, w.run = some r ∧ r.sweep = [] ∧
    warpGroups 0 0 0 w false = [(onlyGroup, none)] ∧ w.startFault = none ∧
    (∀ l ∈ onlyGroup.lanes, (w.lane l).replayFault = none ∧ needsReplay (w.lane l) = false) ∧
    fetchWord { s with agenda := [] } 0 w onlyGroup.pc = .word v

def addNow : State := about 0x010A041A
def noWord : State := about 0x7F000000

set_option maxRecDepth 100000 in
theorem witness_StepRunsDecoded :
    (encode (.heartbeatSend) = [] ∧ ∃ ts, ({ State.reset with agenda := [.event .heartbeatSend] } : State).agenda = .event .heartbeatSend :: ts) ∧
    (Turned addNow 0x010A041A ∧ decode 0x010A041A = some (.addc false 5 1 3 false) ∧
      ∀ late ask, attemptWord (.addc false 5 1 3 false) onlyGroup { addNow with agenda := [] } ≠ .wait late ask) ∧
    (Turned noWord 0x7F000000 ∧ decode 0x7F000000 = none) ∧
    (∃ e l, translateFor addNow 0 0 1 0x1000 3 false = (none, some e) ∧ addNow.mem.icache.find (icacheKey 0 0 (0x1000 / 128)) = some l ∧
      l.poison.getLsbD (0x1000 % 128 / 32) = false) := by
  refine ⟨⟨by decide, [], rfl⟩, ⟨⟨by decide, by decide, warpIn addNow, by decide, ⟨false, [], [0], [], [], 0⟩, by decide, by decide, by rfl, by decide, by decide, by rfl⟩, by decide, not_wait (by decide)⟩,
    ⟨⟨by decide, by decide, warpIn noWord, by decide, ⟨false, [], [0], [], [], 0⟩, by decide, by decide, by rfl, by decide, by decide, by rfl⟩, by decide⟩, ?_⟩
  exact ⟨placedPage State.reset, (addNow.mem.icache.headD (0, ⟨0, [], 0, 0⟩)).2, by decide, by decide, by decide⟩

/-- A word in a scene: an operand that names no register; a privileged instruction in user mode; a register past the range of the warp. -/
def failsStatic (i : Instr) (s : State) : Bool :=
  match s.chosen with
  | some g => match s.warpAt g.key with
    | some w => encode i != [] && !w.protected' && !g.lanes.isEmpty && (i.wellFormed == false || (privileged i && !w.system) ||
        (i.opcode != 0x59 && g.lanes.any fun l => (windowFail w l i.operands).isSome))
    | none => false
  | none => false

theorem witness_StaticChecks :
    (failsStatic (.add false 121 0 0 false) (scene [0, 31] id []) = true ∧ (Instr.add false 121 0 0 false).wellFormed = false) ∧
    (failsStatic (.eretKill false) (scene [0, 31] id []) = true ∧ (Instr.eretKill false).wellFormed = true ∧ privileged (.eretKill false) = true) ∧
    (failsStatic (.add false 0 0 95 false) (scene [0, 31] (fun w => { w with sizeCode := 1 }) []) = true ∧
      (Instr.add false 0 0 95 false).wellFormed = true ∧ privileged (.add false 0 0 95 false) = false) := by
  refine ⟨by decide, by decide, by decide⟩

/-- A word and its instruction; an event. -/
theorem witness_DecodeInvertsEncode : encode (.addc false 5 1 3 false) = [0x010A041A] ∧ encode .heartbeatSend = [] := by decide

/-- A state in canonical form with memory that holds something, and its step. -/
theorem witness_CanonicalKept : (∃ t, step addNow = .next t) ∧ addNow.canonical = true := by
  refine ⟨?_, by decide⟩
  exact ⟨_, rfl⟩

/-! Decoding: of each row of the opcode table one word, its fields at the places that the table gives them. -/

theorem test_decode_integers_1 :
    decode 0x81F45198 = some (.add true 122 20 51 false) ∧ decode 0x01D5146D = some (.sub false 106 69 13 true) ∧
    decode 0x01EB04E2 = some (.addc false 117 65 28 false) ∧ decode 0x0170D84B = some (.subb false 56 54 9 false) ∧
    decode 0x028EDC3D = some (.addi false 71 55 61) ∧ decode 0x03F47688 = some (.mul false 122 29 81 false) ∧
    decode 0x830FF4E9 = some (.mulhI32 true 7 125 29 false) ∧ decode 0x034CD89A = some (.mulhN32 false 38 54 19 false) ∧
    decode 0x8391A6C3 = some (.mad true 72 105 88 false) ∧ decode 0x04972A90 = some (.minI32 false 75 74 82 false) ∧
    decode 0x841B1EE1 = some (.minN32 true 13 71 92 false) ∧ decode 0x04A06E06 = some (.maxI32 false 80 27 64 true) ∧
    decode 0x84792FBF = some (.maxN32 true 60 75 119 true) ∧ decode 0x854E8330 = some (.and true 39 32 102 false) := by
  decide

theorem test_decode_integers_2 :
    decode 0x0517293D = some (.or false 11 74 39 true) ∧ decode 0x85BCE92A = some (.xor true 94 58 37 false) ∧
    decode 0x0684D8B4 = some (.shlReg false 66 54 22 true) ∧ decode 0x06F0FDB1 = some (.shrReg false 120 63 54 false) ∧
    decode 0x06C52256 = some (.sarReg false 98 72 74 true) ∧ decode 0x86B2B66F = some (.rolReg true 89 45 77 true) ∧
    decode 0x8713B003 = some (.shlImm true 9 108 3) ∧ decode 0x877B6916 = some (.shrImm true 61 90 22) ∧
    decode 0x07117A17 = some (.sarImm false 8 94 23) ∧ decode 0x87A72B16 = some (.rolImm true 83 74 22) ∧
    decode 0x884B71C0 = some (.abs true 37 92 7) ∧ decode 0x8807E601 = some (.neg true 3 121 8) ∧ decode 0x882D3C82 = some (.clz true 22 79 2) ∧
    decode 0x88107343 = some (.popc true 8 28 13) := by
  decide

theorem test_decode_integers_3 :
    decode 0x88237D04 = some (.brev true 17 95 4) ∧ decode 0x8867DB85 = some (.mov true 51 118 14) ∧
    decode 0x89165A02 = some (.pk8 true 11 22 8 2) ∧ decode 0x89E44B92 = some (.upk8N true 114 18 14 2) ∧
    decode 0x89B6D99B = some (.upk8I true 91 54 6 3) ∧ decode 0x89F678E1 = some (.pk4 true 123 30 3 1) ∧
    decode 0x09287AF2 = some (.upk4N false 20 30 11 2) ∧ decode 0x097FAEBA = some (.upk4I false 63 107 10 2) ∧
    decode 0x8A4A049C = some (.bfx true 37 1 19 true) ∧ decode 0x8A9F2549 = some (.bfxs true 79 73 41 false) ∧
    decode 0x0A77D386 = some (.bfi false 59 116 112 true) ∧ decode 0x8B68CC74 = some (.bfx64 true 52 51 14 true) ∧
    decode 0x8B106449 = some (.bfxs64 true 8 25 9 false) ∧ decode 0x8B2A3D62 = some (.bfi64 true 21 15 44 false) := by
  decide

theorem test_decode_integers_4 :
    decode 0x0C0324A5 = some (.sel false 1 73 20 5) ∧ decode 0x0D6A1051 = some (.cmp false 6 5 4 10 false true) ∧
    decode 0x0EA48128 = some (.movi false 82 33064) := by
  decide

theorem test_decode_wide_integers_1 :
    decode 0x8F9CBA74 = some (.movh true 78 47732) ∧ decode 0x90203F6C = some (.add64 true 16 15 109 true) ∧
    decode 0x907CF941 = some (.sub64 true 62 62 40 false) ∧ decode 0x101D8166 = some (.mul64 false 14 96 44 true) ∧
    decode 0x90D764AB = some (.mad64 true 107 89 21 false) ∧ decode 0x11F5EA24 = some (.shl64 false 122 122 68 true) ∧
    decode 0x11B31BB1 = some (.shr64 false 89 70 118 false) ∧ decode 0x91FD4F7A = some (.sar64 true 126 83 111 false) ∧
    decode 0x9286BFA8 = some (.min64I64 true 67 47 117 false) ∧ decode 0x92C6762D = some (.min64N64 true 99 29 69 true) ∧
    decode 0x129FA32A = some (.max64I64 false 79 104 101 false) ∧ decode 0x12D2D2FB = some (.max64N64 false 105 52 95 false) ∧
    decode 0x13870170 = some (.mulh64I64 false 67 64 46 false) ∧ decode 0x13CC91ED = some (.mulh64N64 false 102 36 61 true) := by
  decide

theorem test_decode_wide_integers_2 :
    decode 0x14CBED6D = some (.cmp64 false 12 5 123 45 true true) := by
  decide

theorem test_decode_floats :
    decode 0x95167472 = some (.fadd true 11 29 14 false 2) ∧ decode 0x16586DF2 = some (.fsub false 44 27 62 false 2) ∧
    decode 0x97CF4C5A = some (.fmul true 103 83 11 false 2) ∧ decode 0x187DC8BF = some (.ffma false 62 114 23 true 3) ∧
    decode 0x99199FD4 = some (.fmin true 12 103 122 true) ∧ decode 0x996983D1 = some (.fmax true 52 96 122 false) ∧
    decode 0x192C4423 = some (.hmax2 false 22 17 4 false true) ∧ decode 0x1AAF37F4 = some (.fcmp false 10 7 77 126 true) := by
  decide

theorem test_decode_conversions_and_packed_1 :
    decode 0x9B291E40 = some (.frcp true 20 71 9) ∧ decode 0x1B060B41 = some (.frsq false 3 2 13) ∧
    decode 0x1B8983C2 = some (.fsqrt false 68 96 15) ∧ decode 0x1B71FF83 = some (.fex2 false 56 127 14) ∧
    decode 0x1BD5C104 = some (.flg2 false 106 112 4) ∧ decode 0x1B427145 = some (.fsin false 33 28 5) ∧
    decode 0x1BC53186 = some (.fcos false 98 76 6) ∧ decode 0x9B8CDB87 = some (.ftanh true 70 54 14) ∧
    decode 0x1B11D70A = some (.frnd false 8 117 12 2) ∧ decode 0x9CAB2FBF = some (.fcvt true 85 75 14 15 3) ∧
    decode 0x9DD5DBE5 = some (.fcvtSat true 106 118 15 9 1) ∧ decode 0x1E89081C = some (.hadd2 false 68 66 3 true false) ∧
    decode 0x1EC99CA2 = some (.hmul2 false 100 103 20 false false) ∧ decode 0x9FA17481 = some (.hfma2 true 80 93 16 false true) := by
  decide

theorem test_decode_conversions_and_packed_2 :
    decode 0x9FCB9072 = some (.hmin2 true 101 100 14 false false) ∧ decode 0x20481B18 = some (.dot4 false 36 6 99 false) ∧
    decode 0xA0901311 = some (.dot8 true 72 4 98 false) ∧ decode 0xA0553FEA = some (.dotm4 true 42 79 125 false) ∧
    decode 0xA1750A2F = some (.dotm8 true 58 66 69 true 3) ∧ decode 0x22B50F8F = some (.sclb false 90 67 113 true 3) := by
  decide

theorem test_decode_cross_lane :
    decode 0x23D8E895 = some (.shfl false 108 58 18 true 1) ∧ decode 0xA4722400 = some (.voteBallot true 57 true 1) ∧
    decode 0x246E0831 = some (.voteAll false 55 false 2 6) ∧ decode 0xA4CA1C12 = some (.voteAny true 101 false 7 2) ∧
    decode 0xA4262823 = some (.voteEq true 19 true 2 4) ∧ decode 0x25C1E887 = some (.lred false 96 122 2 7) ∧
    decode 0xA62BFEC3 = some (.lscan true 21 127 11 false 3) ∧ decode 0xA784D000 = some (.matchW true 66 52) ∧
    decode 0xA76C6801 = some (.match64 true 54 26) ∧ decode 0xA7523002 = some (.fmtv true 41 12) ∧ decode 0xA7060003 = some (.cvg true 3) := by
  decide

theorem test_decode_control :
    decode 0xA80A3020 = some (.pand true 5 true 4 false 4) ∧ decode 0xA80A3409 = some (.por true 5 true 5 false 1) ∧
    decode 0x28020C4A = some (.pxor false 1 false 3 true 1) ∧ decode 0x28061C03 = some (.pnot false 3 false 7) ∧
    decode 0xA9F67EC4 = some (.bra true 7 true 425668) ∧ decode 0x2ABB34E9 = some (.brp false 5 true 734441) ∧
    decode 0xAB188EE2 = some (.call true 12 36578) ∧ decode 0x2C019C00 = some (.ret false 103) ∧ decode 0x2C00DC01 = some (.jmp false 55) ∧
    decode 0x2C000002 = some (.exit false) ∧ decode 0xAC000003 = some (.nop true) ∧ decode 0x2DA56000 = some (.rep false 41 false true false 3) ∧
    decode 0x2E12010F = some (.rsr false 9 271) ∧ decode 0x2F00EC0C = some (.wbase false 59 12) := by
  decide

theorem test_decode_memory_1 :
    decode 0xB08EDBDE = some (.ldG true 71 54 15 3 3) ∧ decode 0x300D1313 = some (.ldC false 6 68 12 2 1) ∧
    decode 0x31441CD0 = some (.ldS false 34 7 3 2) ∧ decode 0xB1A2A279 = some (.ldX true 81 40 9 7) ∧
    decode 0x324CEA72 = some (.ldAcq false 38 58 9 6 2) ∧ decode 0xB35B9C0C = some (.stG true 45 103 1 2) ∧
    decode 0x33040C31 = some (.stS false 2 3 6) ∧ decode 0x3484F414 = some (.stRel false 66 61 2 4) ∧
    decode 0x35ABA6A2 = some (.stX false 85 105 84 2) ∧ decode 0xB68DAF92 = some (.gft true 70 107 114 2) ∧
    decode 0xB7000006 = some (.fence true 6) ∧ decode 0x3700000A = some (.fenceRel false 2) ∧ decode 0xB7000012 = some (.fenceAcq true 2) ∧
    decode 0x3800D000 = some (.cflush false 52) := by
  decide

theorem test_decode_memory_2 :
    decode 0xB801F801 = some (.cdemote true 126) ∧ decode 0x3801B006 = some (.cpref false 108 1) ∧ decode 0x39005510 = some (.bld false 10 81) := by
  decide

theorem test_decode_matrix :
    decode 0xBA1C0150 = some (.bsel true 7 21) ∧ decode 0x3B1AB6C7 = some (.mma false 6 86 108 7) ∧
    decode 0xBC9D0595 = some (.mmaz true 39 32 89 5) ∧ decode 0x3D780000 = some (.acz false 30) ∧ decode 0x3E2D1800 = some (.acld false 11 35) ∧
    decode 0xBF0512F0 = some (.acst true 1 34 47) ∧ decode 0xC0FBFE55 = some (.acrd true 125 127 9 21) ∧
    decode 0x410BF039 = some (.acwr false 5 124 57) ∧ decode 0xC2380017 = some (.acscl true 28 23) := by
  decide

theorem test_decode_atomics_1 :
    decode 0x4302AD89 = some (.atmAdd false 1 43 49 false true) ∧ decode 0xC3F106A4 = some (.redAdd true 65 84 false false) ∧
    decode 0x44188B48 = some (.atmImin false 12 34 105 false false) ∧ decode 0xC4F13036 = some (.redImin true 76 6 true false) ∧
    decode 0xC54F44F0 = some (.atmNmin true 39 81 30 false false) ∧ decode 0xC5F18956 = some (.redNmin true 98 42 true false) ∧
    decode 0xC6BB4298 = some (.atmImax true 93 80 83 false false) ∧ decode 0xC6F17AD4 = some (.redImax true 94 90 false false) ∧
    decode 0x47161031 = some (.atmNmax false 11 4 6 false true) ∧ decode 0x47F0C75E = some (.redNmax false 49 107 true false) ∧
    decode 0x48A316C1 = some (.atmAnd false 81 69 88 false true) ∧ decode 0xC8F005DC = some (.redAnd true 1 59 false false) ∧
    decode 0x49C17DEA = some (.atmOr false 96 95 61 true false) ∧ decode 0xC9F07EF4 = some (.redOr true 31 94 false false) := by
  decide

theorem test_decode_atomics_2 :
    decode 0xCA81B589 = some (.atmXor true 64 109 49 false true) ∧ decode 0xCAF18C34 = some (.redXor true 99 6 false false) ∧
    decode 0x4B5686A2 = some (.atmXchg false 43 33 84 true false) ∧ decode 0x4C7C21FA = some (.atmCas false 62 8 63 true false) ∧
    decode 0x4DAEFD33 = some (.atmFaddG false 87 63 38 3) ∧ decode 0xCDF0F1E6 = some (.redFaddG true 60 60 2) ∧
    decode 0x4EE71CD2 = some (.atmFaddS false 115 71 26 2) ∧ decode 0x4EF1E1ED = some (.redFaddS false 120 61 1) := by
  decide

theorem test_decode_commands_and_sync_1 :
    decode 0xD000EC00 = some (.xcp true 59) ∧ decode 0x5001A401 = some (.xget false 105) ∧ decode 0xD0008C02 = some (.xput true 35) ∧
    decode 0xD0006C03 = some (.xputRel true 27) ∧ decode 0x51002800 = some (.xred false 10) ∧ decode 0x51004C01 = some (.xsig false 19) ∧
    decode 0xD101E802 = some (.xgth true 122) ∧ decode 0xD1004403 = some (.xrsc true 17) ∧ decode 0xD201C878 = some (.chap true 114 15) ∧
    decode 0xD3000120 = some (.wcnt true 1 32) ∧ decode 0xD400CC20 = some (.syarm true 51 4) ∧ decode 0x540007D1 = some (.syadd false 1 122) ∧
    decode 0xD40161D2 = some (.sywait true 88 58) ∧ decode 0xD5000000 = some (.barWg true) := by
  decide

theorem test_decode_commands_and_sync_2 :
    decode 0xD5000001 = some (.barGang true) ∧ decode 0x55000002 = some (.barX false) ∧ decode 0xD600B400 = some (.mon true 45) ∧
    decode 0xD600A401 = some (.mwait true 41) ∧ decode 0x5701B158 = some (.ropen false 108 43) ∧ decode 0x57000001 = some (.rclose false) ∧
    decode 0xD7C20002 = some (.rdepth true 97) ∧ decode 0xD801B198 = some (.rkeepG true 108 51) ∧
    decode 0x5801E7B9 = some (.rkeepS false 121 119) := by
  decide

theorem test_decode_system :
    decode 0x59017000 = some (.trap false 92) ∧ decode 0x5A000000 = some (.eretResume false) ∧ decode 0xDA000001 = some (.eretRetry true) ∧
    decode 0xDA000002 = some (.eretEscalate true) ∧ decode 0xDA000003 = some (.eretKill true) ∧ decode 0x5B00CC07 = some (.segw false 51 7) ∧
    decode 0x5C5E000F = some (.segr false 47 15) ∧ decode 0xDD01851A = some (.wsr true 97 282) ∧ decode 0x5E009070 = some (.tlbiVa false 36 14) ∧
    decode 0x5E000359 = some (.tlbiCtx false 107) ∧ decode 0xDE000002 = some (.tlbiAll true) ∧ decode 0x5F000000 = some (.yield false) ∧
    decode 0x6001F400 = some (.spawn false 125) := by
  decide

/-! Words of the spec's examples (spec/12 to spec/15), with what they stand for. -/

theorem test_words_registers :
    decode 0x01040820 = some (.add false 2 2 4 false) ∧ decode 0x0D221839 = some (.cmp false 2 1 6 7 false true) ∧
    decode 0x2D0F8000 = some (.rep false 3 true true true 0) ∧ decode 0x1D0608C0 = some (.fcvtSat false 3 2 3 0 0) ∧
    decode 0x1C0608C0 = some (.fcvt false 3 2 3 0 0) ∧ decode 0x21121028 = some (.dotm8 false 9 4 5 false 0) ∧
    decode 0x22142458 = some (.sclb false 10 9 11 false 0) ∧ decode 0x09061C3D = some (.upk4I false 3 7 0 5) ∧
    decode 0x2E080000 = some (.rsr false 4 0) ∧ decode 0x2F01E002 = some (.wbase false 120 2) := by
  decide

theorem test_words_memory :
    decode 0x300E305C = some (.ldG false 7 12 1 3 2) ∧ decode 0x31060800 = some (.ldS false 3 2 0 0) ∧ decode 0x320A2821 = some (.ldAcq false 5 10 0 4 1) ∧
    decode 0x34082821 = some (.stRel false 4 10 4 1) ∧ decode 0x330C2812 = some (.stG false 6 10 2 1) ∧
    decode 0x350C0818 = some (.stX false 6 2 3 0) ∧ decode 0x360C2880 = some (.gft false 6 10 16 0) ∧
    decode 0x430A0831 = some (.atmAdd false 5 2 6 false true) ∧ decode 0x37000001 = some (.fence false 1) ∧
    decode 0x37000009 = some (.fenceRel false 1) ∧ decode 0x37000011 = some (.fenceAcq false 1) ∧ decode 0x3800280A = some (.cpref false 10 2) := by
  decide

theorem test_words_queues :
    decode 0x3B0F2142 = some (.mma false 3 100 20 2) ∧ decode 0x3F176160 = some (.acst false 5 108 22) ∧
    decode 0x40122003 = some (.acrd false 9 8 0 3) ∧ decode 0x53000000 = some (.wcnt false 0 0) ∧ decode 0x53000100 = some (.wcnt false 1 0) ∧
    decode 0x53000203 = some (.wcnt false 2 3) ∧ decode 0x57001430 = some (.ropen false 5 6) ∧ decode 0x58002820 = some (.rkeepG false 10 4) ∧
    decode 0x58000C21 = some (.rkeepS false 3 4) ∧ decode 0x5B001002 = some (.segw false 4 2) ∧ decode 0x5D000C20 = some (.wsr false 3 32) ∧
    decode 0x5D001021 = some (.wsr false 4 33) := by
  decide

theorem test_words_system :
    decode 0x54000818 = some (.syarm false 2 3) ∧ decode 0x55000002 = some (.barX false) ∧ decode 0x56002800 = some (.mon false 10) ∧
    decode 0x56000C01 = some (.mwait false 3) ∧ decode 0x57000001 = some (.rclose false) ∧ decode 0x57120002 = some (.rdepth false 9) ∧
    decode 0x59001C00 = some (.trap false 7) ∧ decode 0x5A000001 = some (.eretRetry false) ∧ decode 0x5E002818 = some (.tlbiVa false 10 3) ∧
    decode 0x5F000000 = some (.yield false) ∧ decode 0x60002800 = some (.spawn false 10) := by
  decide

/-! Single steps, with the results that the spec's examples give, or that follow from its rules by hand. -/

/-- The machine about to issue a word, with registers of its thread set; the machine after one step; a register of it then. -/
def put (v : Nat) (regs : List (Nat × Nat)) : State :=
  regs.foldl (fun s (k, x) => s.setReg (regKey 0 0 0 k) ⟨BitVec.ofNat 32 x, false⟩) (State.reset.withFetchWord 32 v)
def after (v : Nat) (regs : List (Nat × Nat)) : State := match step (put v regs) with
  | .next t => t
  | _ => put v regs
def thread (s : State) : Lane := (warpIn s).lane 0
def result (v : Nat) (regs : List (Nat × Nat)) (r : Nat) : Nat := ((after v regs).reg (regKey 0 0 0 r)).val.toNat
def flagged (v : Nat) (regs : List (Nat × Nat)) (r : Nat) : Nat × Nat := (result v regs r, (thread (after v regs)).flags.toNat)

/-- The example of R292. -/
theorem test_add_carry : result 0x010A041A [(1, 0xFFFFFFFF), (3, 1)] 5 = 1 ∧ result 0x010A0418 [(1, 0xFFFFFFFF), (3, 1)] 5 = 0 := by decide

/-- A borrow, a negative immediate, and the two halves of a product (R292, R293). -/
theorem test_sub_mul :
    result 0x010A041B [(1, 0), (3, 1)] 5 = 1 ∧ result 0x020C1BFF [(6, 0)] 6 = 0xFFFFFFFF ∧ result 0x030A0418 [(1, 0xFFFFFFFF), (3, 2)] 5 = 0xFFFFFFFE ∧
      result 0x030A0419 [(1, 0xFFFFFFFF), (3, 2)] 5 = 0xFFFFFFFF ∧ result 0x030A041A [(1, 0xFFFFFFFF), (3, 2)] 5 = 1 := by decide

/-- The example of R296. -/
theorem test_bit_fields :
    result 0x0A100830 [(2, 0xDEADBEEF), (6, 0x81C)] 8 = 0xD ∧ result 0x0A100831 [(2, 0xDEADBEEF), (6, 0x81C)] 8 = 0xFFFFFFFD ∧
      result 0x0A080832 [(2, 0xDEADBEEF), (4, 0x12345678), (6, 0x81C)] 4 = 0xF2345678 := by decide
theorem test_bit_fields_outside :
    result 0x0A100830 [(2, 0xDEADBEEF), (6, 0x28)] 8 = 0 ∧ result 0x0A080832 [(2, 0xDEADBEEF), (4, 0x12345678), (6, 0x28)] 4 = 0x12345678 := by decide

/-- The example of R305: reciprocals, with their flags. -/
theorem test_frcp :
    flagged 0x1B080800 [(2, 0x00400000)] 4 = (0x7F000000, 0) ∧ flagged 0x1B080800 [(2, 1)] 4 = (0x7F800000, 5) ∧
      flagged 0x1B080800 [(2, 0x7F000000)] 4 = (0, 3) ∧ flagged 0x1B080800 [(2, 0x80000000)] 4 = (0xFF800000, 8) ∧
      flagged 0x1B080800 [(2, 0x7F800001)] 4 = (0x7FC00000, 16) := by decide

/-- The example of R307. -/
theorem test_fcvt :
    flagged 0x1D0608C0 [(2, 0x43E80000)] 3 = (0x7E, 1) ∧ flagged 0x1D0608C0 [(2, 0x43F00000)] 3 = (0x7E, 5) ∧
      flagged 0x1C0608C0 [(2, 0x43F00000)] 3 = (0x7F, 5) := by decide

/-- The example of R310 and R311, and of R312. -/
theorem test_dot_scale :
    flagged 0x21121028 [(4, 0x4038), (5, 0x4430)] 9 = (0x40D00000, 0) ∧
      flagged 0x22142458 [(9, 0x40D00000), (10, 0x3F800000), (11, 0x7C)] 10 = (0x3FE80000, 0) := by decide
theorem test_unpack : result 0x09061C3D [(7, 0x00900000)] 3 = 0xFFFFFFF9 := by decide

/-- 1.0 + 0.5; a sum that overflows; 2^24 + 1, which is a tie; −0.4 to an integer (R300, R306, R62). -/
theorem test_fadd :
    flagged 0x15080830 [(2, 0x3F800000), (6, 0x3F000000)] 4 = (0x3FC00000, 0) ∧ flagged 0x15080830 [(2, 0x7F7FFFFF), (6, 0x7F7FFFFF)] 4 = (0x7F800000, 5) ∧
      flagged 0x15080830 [(2, 0x4B800000), (6, 0x3F800000)] 4 = (0x4B800000, 1) := by decide

/-- A pair that wraps (R299), a shift by 32 or more, and the sign that `sar` brings in (R295). -/
theorem test_wide : result 0x10142860 [(10, 0xFFFFFFFF), (11, 0xFFFFFFFF), (12, 1), (13, 0)] 11 = 0 := by decide

/-- `bra p1` with p1 as 0 goes on, `exit` ends its thread, `trap` takes its trap with the operand (R318 to R320, R373). -/
theorem test_control :
    (thread (after 0x292FFFFB [])).pc = 0x1004 ∧ (thread (after 0x29EFFFFB [])).pc = 0xFEC ∧ (thread (after 0x2C000002 [])).exited = true ∧
      (warpIn (after 0x59001C00 [(7, 9)])).trap.cause = 0x10 ∧ (warpIn (after 0x59001C00 [(7, 9)])).trap.einfo = 9 := by decide

/-- A word that decodes to nothing, a privileged one in user mode, a register past the warp's range: causes 1, 2 and 3, each at the word (R273, R274, R43). -/
theorem test_static_traps :
    (warpIn (after 0x7F000000 [])).trap.cause = 1 ∧ (warpIn (after 0x7F000000 [])).trap.epc = 0x1000 ∧ (warpIn (after 0x5A000000 [])).trap.cause = 2 ∧
      (warpIn (after 0x01040820 [])).trap.cause = 0 := by decide

/-- A constant of both halves, a selected value, a compare into p1 (R297, R298, R300). -/
theorem test_select :
    result 0x0E11FFFF [] 8 = 0xFFFFFFFF ∧ result 0x0C080827 [(2, 5), (4, 6)] 4 = 5 ∧ (thread (after 0x0D221839 [(6, 0xFFFFFFFF), (7, 1)])).preds = 0 ∧
      (thread (after 0x0D221839 [(6, 1), (7, 0xFFFFFFFF)])).preds = 2 := by decide

/-- The machine about to issue a word for the first n lanes of a warp, with registers set lane by lane, and a register of a lane after one step. -/
def crowd (v n : Nat) (regs : Nat → List (Nat × Nat)) : State :=
  let s := State.reset.withFetchWord 32 v
  let s := s.onWarp 0 fun w => { w with lanes := List.replicate n placedLane ++ List.replicate (32 - n) Lane.absent, run := w.run.map fun r => { r with startIssuable := List.range n } }
  (List.range n).foldl (fun s l => (regs l).foldl (fun (s : State) (k, x) => s.setReg (regKey 0 0 l k) ⟨BitVec.ofNat 32 x, false⟩) s) s
def ofLane (s : State) (l r : Nat) : Nat := match step s with
  | .next t => (t.reg (regKey 0 0 l r)).val.toNat
  | _ => 0

set_option maxRecDepth 100000 in
/-- The examples of R313 to R317: lanes 20 to 31 of the warp are absent, and lane 19 keeps its own value. -/
theorem test_ballot :
    let s := crowd 0x24060800 20 fun _ => [(3, 0xFFFFFFFF)]
    let t := s.onWarp 0 fun w => { w with lanes := w.lanes.zipIdx.map fun (x, l) => if l % 3 == 0 then { x with preds := 4 } else x }
    ofLane t 0 3 = 0x49249 ∧ ofLane t 19 3 = 0x49249 := by decide
set_option maxRecDepth 100000 in
theorem test_slide :
    let s := crowd 0x230C143A 20 fun l => [(6, 0xFFFFFFFF), (5, 10 * l), (7, 1)]
    ofLane s 0 6 = 10 ∧ ofLane s 18 6 = 190 ∧ ofLane s 19 6 = 190 := by decide

/-- The order of a reduction, of a scan and of an exclusive scan: 1.0, 2^24, 1.0 and 1.0 in lanes 0 to 3. -/
theorem test_scan_order :
    let regs (l : Nat) := [(4, 0xF), (5, if l == 1 then 0x4B800000 else 0x3F800000)]
    ofLane (crowd 0x25081401 4 regs) 3 4 = 0x4B800000 ∧ ofLane (crowd 0x26081401 4 regs) 1 4 = 0x4B800000 ∧ ofLane (crowd 0x26081411 4 regs) 1 4 = 0x3F800000 ∧
      ofLane (crowd 0x26081411 4 regs) 0 4 = 0 := by decide

/-- The example of R335: four lanes add to one word of the scratchpad, in ascending lane order. -/
theorem test_scratch_atomic :
    let s := crowd 0x430A0831 4 fun l => [(2, 0x100), (6, l + 1)]
    let s := { s with mem := { s.mem with scratch := s.mem.scratch.writeBytes (scratchAddr 0 0x100) [10, 0, 0, 0] } }
    ofLane s 0 5 = 10 ∧ ofLane s 1 5 = 11 ∧ ofLane s 2 5 = 13 ∧ ofLane s 3 5 = 16 := by decide

/-- The example of R323: a range of 128 registers; v2 of window 0 holds 3, of window 1 it holds 2. -/
def windowsOf128 (v : Nat) (window : Nat) : State :=
  let s := (put v [(2, 3), (34, 2)]).onWarp 0 fun w => eachLane (fun x => { x with window := window }) { w with sizeCode := 2 }
  match step s with
  | .next t => t
  | _ => s
theorem test_window :
    (thread (windowsOf128 0x2F01E001 0)).window = 1 ∧ (thread (windowsOf128 0x2F000800 0)).window = 3 ∧ (thread (windowsOf128 0x2F000800 1)).window = 2 ∧
      (thread (windowsOf128 0x2F000801 0)).window = 0 ∧ (warpIn (windowsOf128 0x2F000801 0)).trap.cause = 3 ∧ (warpIn (windowsOf128 0x2F000BFC 0)).trap.cause = 3 := by
  decide

/-- The bytes of a store, the lowest first, and what a load of a signed byte reads (R57, R328, R331). -/
theorem test_scratch :
    (after 0x33081C29 [(4, 0x11223344), (5, 0x55667788), (7, 0x100)]).mem.scratch.readBytes (scratchAddr 0 0x100) 8 =
      [0x44, 0x33, 0x22, 0x11, 0x88, 0x77, 0x66, 0x55] := by decide
theorem test_signed_byte :
    let s := put 0x31060808 [(2, 0x102)]
    let s := { s with mem := { s.mem with scratch := s.mem.scratch.writeBytes (scratchAddr 0 0x100) [1, 2, 0xF0, 4] } }
    ofLane s 0 3 = 0xFFFFFFF0 := by decide

/-- A sync word that is armed: its target is b, its count 0 (R366); a sync word not aligned, and a store past the segment (R247, R324). -/
theorem test_arm :
    (after 0x54000818 [(2, 0x100), (3, 5)]).mem.scratch.readBytes (scratchAddr 0 0x100) 8 = [5, 0, 0, 0, 0, 0, 0, 0] ∧
      (warpIn (after 0x54000818 [(2, 0x108), (3, 5)])).trap.cause = 4 ∧ (warpIn (after 0x33081C29 [(7, 0x80000)])).trap.cause = 5 := by decide

/-- The limit of the scratch segment, the depth of the rings, a call's link and target (R375, R371, R319). -/
theorem test_reads :
    result 0x5C0C0003 [] 6 = 524288 ∧ result 0x57120002 [] 9 = 0 ∧ result 0x2B080010 [] 4 = 0x1004 ∧ (thread (after 0x2B080010 [])).pc = 0x1040 := by decide

/-- A ring that opens keeps its opening point; a matrix command counts in its class; a store to the pool is on its way (R370, R339, R331). -/
theorem test_posts :
    (warpIn (after 0x57001430 [(6, 0x1000), (7, 0x1800)])).rings.length = 1 ∧ (warpIn (after 0x57001430 [(6, 0x1800), (7, 0x1800)])).trap.cause = 11 ∧ (warpIn (after 0x3D000000 [])).cntMat = 1 ∧
      ((after 0x33082820 [(4, 7), (10, 0x100)]).mem.ops.map fun x => match x.2 with
        | .write w => (w.pa, w.data)
        | .load _ => (0, [])) = [(0x100, [7, 0, 0, 0])] := by decide

/-- A tick of the reference timer; the power-good event takes the slot (R240, R424). -/
theorem test_events :
    (match step { State.reset with agenda := [.refEdge] } with
      | .next t => t.clk.ref.toNat
      | _ => 0) = 1 ∧
    (match step { State.reset with agenda := [.event (.powerGood 5 true false)] } with
      | .next t => (t.cfg.pkg, t.att.diesUp)
      | _ => (0, [])) = (5, [2]) := by decide

/-! Ill-formed instructions: each check of WellFormed refuses one. -/

theorem test_ill_registers :
    (Instr.add false 121 0 0 false).wellFormed = false ∧ (Instr.add false 0 126 0 false).wellFormed = false ∧
      (Instr.add false 0 0 127 false).wellFormed = false ∧ (Instr.add64 false 1 0 0 false).wellFormed = false ∧
      (Instr.add64 false 0 95 0 false).wellFormed = false ∧ (Instr.ldG false 2 0 0 6 0).wellFormed = false ∧
      (Instr.gft false 0 0 2 0).wellFormed = false ∧ (Instr.acld false 0 118).wellFormed = false ∧ (Instr.acld false 0 95).wellFormed = false := by
  decide

theorem test_ill_codes :
    (Instr.cmp false 6 0 0 0 false false).wellFormed = false ∧ (Instr.fcmp false 8 0 0 0 false).wellFormed = false ∧
      (Instr.fcvt false 0 0 13 0 0).wellFormed = false ∧ (Instr.fcvt false 0 0 0 13 0).wellFormed = false ∧
      (Instr.lred false 0 0 0 11).wellFormed = false ∧ (Instr.lscan false 0 0 0 false 11).wellFormed = false ∧
      (Instr.rsr false 0 0x3FF).wellFormed = false ∧ (Instr.wsr false 0 0).wellFormed = false ∧ (Instr.segw false 0 10).wellFormed = false ∧
      (Instr.segr false 0 10).wellFormed = false := by decide

theorem test_ill_memory :
    (Instr.ldG false 0 0 0 7 0).wellFormed = false ∧ (Instr.ldG false 0 0 0 4 3).wellFormed = false ∧ (Instr.ldAcq false 0 0 0 4 5).wellFormed = false ∧
      (Instr.stS false 0 0 1).wellFormed = false ∧ (Instr.stX false 0 0 0 3).wellFormed = false ∧ (Instr.gft false 0 0 0 3).wellFormed = false ∧
      (Instr.fence false 5).wellFormed = false ∧ (Instr.cpref false 0 3).wellFormed = false ∧ (Instr.atmFaddG false 0 0 0 3).wellFormed = false ∧
      (Instr.redFaddS false 0 0 3).wellFormed = false := by decide

theorem test_ill_places :
    (Instr.warpChoice 128 0).wellFormed = false ∧ (Instr.warpChoice 0 8).wellFormed = false ∧ (Instr.warpSnapshot 0 0 8).wellFormed = false ∧
      (Instr.homeTimeout 4 0).wellFormed = false ∧ (Instr.laneFailure 0 0 33).wellFormed = false ∧ (Instr.refreshDue 4096 0).wellFormed = false ∧
      (Instr.pinRepairDue 8 0).wellFormed = false ∧ (Instr.linkFailure 15).wellFormed = false ∧ (Instr.dieLinkHold 6).wellFormed = false ∧
      (Instr.drainLimitExpiry 2048).wellFormed = false ∧ (Instr.ethernetFrameResend 4 0 0).wellFormed = false := by decide

end Sys2Proof.Tests
end

section
/-! The turn of a slot with one group to issue, and that events always answer (R20, R23, R25, R99). -/

namespace Sys2Proof.Machine

/-- An event has an answer in every state. -/
theorem exec_event_next {i : Instr} (h : encode i = []) (s : State) : ∃ t, exec i s = .next t := by
  -- an instruction word has a code, so that the events alone remain
  cases i <;> cases h
  all_goals exact ⟨_, rfl⟩

/-- A turn of the agenda that names an event executes it. -/
theorem step_event {s : State} {i : Instr} {ts : List Turn} (h : encode i = []) (ha : s.agenda = .event i :: ts) :
    step s = exec i { s with agenda := ts } := by
  unfold step nextMove
  rw [ha]
  simp [turnMove, h]

/-! The places that a warp's key names. -/

theorem warpKey_core {core slot n : Nat} (hs : slot < 8) (hn : n < 8) : warpKey core slot n / 64 = core := by
  unfold warpKey slotKey; omega

theorem warpKey_slot {core slot n : Nat} (hs : slot < 8) (hn : n < 8) : warpKey core slot n / 8 % 8 = slot := by
  unfold warpKey slotKey; omega

theorem warpKey_warp {core slot n : Nat} (hn : n < 8) : warpKey core slot n % 8 = n := by
  unfold warpKey slotKey; omega

/-- The groups of a warp stand at its place. -/
theorem place_of_mem_warpGroups {core slot n : Nat} {w : Warp} {sweep : Bool} {g : Group} {p : Option Instr}
    (h : (g, p) ∈ warpGroups core slot n w sweep) : g.core = core ∧ g.slot = slot ∧ g.warp = n := by
  unfold warpGroups at h
  simp only [List.mem_append, List.mem_map, Prod.mk.injEq] at h
  rcases h with ⟨x, -, rfl, -⟩ | ⟨x, -, rfl, -⟩ <;> exact ⟨rfl, rfl, rfl⟩

/-- The prospects of a warp with one group that stands unparked. -/
theorem prospects_single {s : State} {core slot n : Nat} {w : Warp} {g : Group} {p : Option Instr} (hs : slot < 8) (hn : n < 8)
    (hw : s.warpAt (warpKey core slot n) = some w) (hg : warpGroups core slot n w false = [(g, p)]) :
    prospects s (warpKey core slot n) false = [(g, prospect s w g p)] := by
  unfold prospects
  rw [hw]
  simp only [warpKey_core hs hn, warpKey_slot hs hn, warpKey_warp hn, hg, List.map_cons, List.map_nil]

/-- With an empty sweep, the one prospect that can issue is what the slot does next. -/
theorem nextInRun_single {s : State} {k : Nat} {r : Run} {g : Group} {p : Prospect} (hr : r.sweep = [])
    (hp : prospects s k false = [(g, p)]) (hl : p.lanes ≠ []) : nextInRun s k r = (some p, []) := by
  have hne : p.lanes.isEmpty = false := by simpa using hl
  unfold nextInRun
  simp only [hp, hr, List.filter_cons, hne, Bool.not_false, if_true, List.filter_nil, nextInRun.go]
  cases p.lanes.any fun l => r.starving.contains l <;> simp [lowest]

/-- What a group that is fetched, and has nothing to prepare, can do. -/
theorem prospect_fetched {s : State} {w : Warp} {g : Group} {v : Word} (hf : w.startFault = none)
    (hl : ∀ l ∈ g.lanes, (w.lane l).replayFault = none ∧ needsReplay (w.lane l) = false) (hv : fetchWord s g.core w g.pc = .word v) :
    prospect s w g none = match decode v with
      | none => .raise ⟨0x01, g.lanes, v.toNat⟩ g
      | some i => probe 33 i g s := by
  have hdue : g.lanes.any (replayDue w) = false := by
    rw [List.any_eq_false]
    intro l h
    obtain ⟨h1, h2⟩ := hl l h
    simp [replayDue, h1, h2]
  unfold prospect
  simp only [hf, hdue, Option.isSome_none, Bool.and_false, Bool.or_self, Bool.false_eq_true, if_false, hv] <;>
    rfl

/-- A group none of whose lanes must wait issues whole. -/
theorem probe_issue {i : Instr} {g : Group} {s : State} (n : Nat) (h : ∀ late ask, attemptWord i g s ≠ .wait late ask) :
    probe (n + 1) i g s = .issue i g := by
  unfold probe
  split
  · exact absurd ‹_› (h _ _)
  · rfl

/-- The move of a slot that goes on with its run. -/
theorem slotMove_running {s : State} {core slot n : Nat} {w : Warp} {r : Run} (hn : (s.slotAt core slot).running = some n)
    (hw : s.warpAt (warpKey core slot n) = some w) (hr : w.run = some r) :
    slotMove s core slot = match nextInRun s (warpKey core slot n) r with
      | (none, _) => .run (.cut core slot) s
      | (some (.issue i g), sweep) =>
        .run i { s.onWarp (warpKey core slot n) fun w => { w with run := w.run.map (·.withSweep sweep) } with chosen := some g }
      | (some (.raise t g), _) => .pass (raiseAt s g t)
      | (some (.prepare g), _) => .pass (prepareGroup s g)
      | (some (.blocked ask), _) => .pass (ask s) := by
  unfold slotMove
  simp only [hn, hw, Option.bind_some, hr] <;> rfl

/-- The number that the first n bytes of a list hold, bytes past its end being 0. -/
theorem leNat_take (n : Nat) (bs : List Byte) :
    leNat (bs.take n) = ((List.range n).map fun i => (bs.getD i 0).toNat * 2 ^ (8 * i)).sum := by
  induction n generalizing bs with
  | zero => rfl
  | succ n ih =>
    have hs : ∀ f : Nat → Nat, ((List.range n).map fun i => f i * 2 ^ (8 * (i + 1))).sum = 256 * ((List.range n).map fun i => f i * 2 ^ (8 * i)).sum := by
      intro f
      rw [← List.sum_map_mul_left]
      congr 2
      funext i
      rw [show 8 * (i + 1) = 8 + 8 * i by omega, Nat.pow_add]
      ring
    rw [List.range_succ_eq_map, List.map_cons, List.map_map, List.sum_cons]
    cases bs with
    | nil => simp [leNat, Function.comp_def]
    | cons b bs =>
      rw [List.take_succ_cons, leNat, ih bs]
      have := hs fun i => (bs.getD i 0).toNat
      simpa [Function.comp_def] using this.symm

/-- A fetch whose translation and line are cached gives the word at the PC, or the containment trap of a poisoned sector (R99, R103). -/
theorem fetchWord_cached {s : State} {core : Nat} {w : Warp} {pc : VAddr} {e : TlbEntry} {l : ILine}
    (ht : translateFor s core w.ctx.toNat 1 pc.toNat 3 w.system = (none, some e))
    (hl : s.mem.icache.find (icacheKey core w.ctx.toNat (pc.toNat / 128)) = some l) :
    fetchWord s core w pc = if l.poison.getLsbD (pc.toNat % 128 / 32) then .fail ⟨1, 0x0D, 0⟩
      else .word (BitVec.ofNat 32 (leNat ((l.data.drop (pc.toNat % 128)).take 4))) := by
  unfold fetchWord
  simp only [ht, hl]

/-- Settles O57: the turn's move, group by group, and the fetch. -/
theorem stepRunsDecoded : Obligations.StepRunsDecoded := by
  intro s core slot n w r g v ts k u
  refine ⟨fun i hi => ⟨exec_event_next hi s, step_event hi⟩, ?_, ?_⟩
  · intro ha hs hn hrun hw hr hsw hg hne hf hl hv
    obtain ⟨hcore, -, -⟩ := place_of_mem_warpGroups (g := g) (p := none) (by rw [hg]; simp)
    have hp : prospects u k false = [(g, prospect u w g none)] := prospects_single hs hn hw hg
    have hfetch := prospect_fetched hf hl (hcore ▸ hv)
    have hmove : nextMove s = slotMove u core slot := by unfold nextMove; rw [ha]; rfl
    have hslot := slotMove_running (s := u) hrun hw hr
    refine ⟨fun i hi hgo => ?_, fun hbad => ?_⟩
    · have hpr : prospect u w g none = .issue i g := by rw [hfetch, hi]; exact probe_issue 32 hgo
      rw [hpr] at hp
      rw [nextInRun_single hsw hp hne] at hslot
      unfold step
      rw [hmove, hslot]
      rfl
    · have hpr : prospect u w g none = .raise ⟨0x01, g.lanes, v.toNat⟩ g := by rw [hfetch, hbad]
      rw [hpr] at hp
      rw [nextInRun_single hsw hp hne] at hslot
      unfold step
      rw [hmove, hslot]
  · intro e l pc ht hl
    have hsum : leNat ((l.data.drop (pc.toNat % 128)).take 4) =
        ((List.range 4).map fun i => (l.data.getD (pc.toNat % 128 + i) 0).toNat * 2 ^ (8 * i)).sum := by
      rw [leNat_take]; simp [List.getD_eq_getElem?_getD]
    rw [fetchWord_cached ht hl, hsum]
    exact ⟨fun h => by rw [h]; rfl, fun h => by rw [h]; rfl⟩

end Sys2Proof.Machine
end

section
/-! Cross-lane instructions: what a set that is complete does (R27, R28, R314 to R317), by one lemma for the two ways in which a set comes to
execute, and one for each form of result. -/

namespace Sys2Proof.Machine

/-! The state that an issue of a cross-lane instruction starts from. -/

/-- The word an issue passes leaves each of its lanes with repeat index 0. -/
theorem Issues.rep_zero {i : Instr} {g : Group} {w v : Warp} {s : State} (h : Issues i g w s) (hv : (s.issuing g).warpAt g.key = some v) :
    ∀ l ∈ g.lanes, (v.lane l).rep = 0 := by
  intro l hl
  have hlen := (h.lengths hv l hl).2
  unfold State.issuing State.begun at hv
  rw [warpAt_onLanes_self] at hv
  obtain ⟨x, -, rfl⟩ := Option.map_eq_some_iff.1 hv
  rw [lane_onLanes_of_mem _ _ _ _ h.lanes hl (by simpa using hlen)]

theorem Issues.issuing_unprotected {i : Instr} {g : Group} {w v : Warp} {s : State} (h : Issues i g w s)
    (hv : (s.issuing g).warpAt g.key = some v) : v.protected' = false := by
  obtain ⟨v', hv', sv, -⟩ := h.issuing
  rw [hv] at hv'; cases hv'
  rw [sv.rest]; exact h.unprotected

/-! Unprotected warps: every lane stands for itself. -/

theorem visible_unprotected {w : Warp} (h : w.protected' = false) (l : Nat) : w.visible l = l := by simp [Warp.visible, h]

theorem width_unprotected {w : Warp} (h : w.protected' = false) : w.width = 32 := by simp [Warp.width, h]

theorem peers_unprotected {w : Warp} (h : w.protected' = false) (ls : List Nat) (l : Nat) : peers w ls l = ls := by simp [peers, h]

theorem accessLanes_unprotected {w : Warp} (h : w.protected' = false) (ls : List Nat) : accessLanes w ls = ls := by simp [accessLanes, h]

/-! Executing a set. -/

/-- The lanes of a group lie in the list of its warp, which is in no protected mode. -/
structure Fits (g : Group) (x : Warp) : Prop where
  unprotected : x.protected' = false
  nodup : g.lanes.Nodup
  lanes : ∀ l ∈ g.lanes, l < 32 ∧ l < x.lanes.length

theorem SameWarp.fits {g : Group} {x u : Warp} (h : SameWarp x u) (hx : Fits g x) : Fits g u :=
  ⟨by rw [h.rest]; exact hx.unprotected, hx.nodup, by rw [h.count]; exact hx.lanes⟩

theorem Issues.fits {i : Instr} {g : Group} {w v : Warp} {s : State} (h : Issues i g w s) (hv : (s.issuing g).warpAt g.key = some v) : Fits g v :=
  ⟨h.issuing_unprotected hv, h.lanes, h.lengths hv⟩

/-- An execution leaves the lanes where they are parked, or not. -/
def KeepsPark (F : Warp → Bool → Group → State → State) : Prop := ∀ u p g b x, b.warpAt g.key = some x → SameRead x u → Fits g x →
  ∃ y, (F u p g b).warpAt g.key = some y ∧ ∀ l, (y.lane l).park = (x.lane l).park

/-- Whenever i issues for a set that may execute, the set executes: on the state `base`, with the poison `mp` of its masks. -/
def CrossRuns (i : Instr) (d : BitVec 7) (ok : Cond) (base : State → Group → Warp → State) (mp : State → Group → Warp → Bool) : Prop :=
  ∀ sigs F, KeepsPark F → ∀ g w s v, Issues i g w s → (s.issuing g).warpAt g.key = some v → ok (s.issuing g) g v →
    ∃ sg x u, (base (s.issuing g) g v).warpAt g.key = some x ∧ SameRead x u ∧ Fits g x ∧
      crossCompared sigs i d F g (s.issuing g) = .done sg (F u (mp (s.issuing g) g v) g (base (s.issuing g) g v))

/-- Lanes that arrive together and complete their set execute at once (R27). -/
theorem crossRuns_gathers {i : Instr} {d : BitVec 7} (hi : maskField i = some d) (m : Word) :
    CrossRuns i d (fun b g v => gathers d m b g v ∧ ∀ l ∈ g.lanes, commitBlocked v l = false) (fun b g _ => commitDue b g) (maskPoison d) := by
  intro sigs F hF g w s v h hv ⟨hg, hfree⟩
  have hfit := h.fits hv
  have hnone : ∀ l ∈ g.lanes, (v.lane l).park = none := fun l hl =>
    hg.2.2.2.1 l (hfit.lanes l hl).1 ((hg.2.2.1 l (hfit.lanes l hl).1).1 hl).1
  obtain ⟨x, hx, sx, lx⟩ := (commitDue_committed (s.issuing g) g).warp v hv
  obtain ⟨x', u, hx', hu, hrun⟩ := crossCompared_gathers (sigs := sigs) (exec := F) (isCrossLane_of_maskField hi) hv hg hfit.unprotected
    hfit.nodup hfit.lanes (h.rep_zero hv) hfree (fun x' u hx' hu => by
      rw [hx] at hx'; cases hx'
      obtain ⟨y, hy, hp⟩ := hF u _ g _ x hx hu (sx.fits hfit)
      refine ⟨y, hy, fun l hl => ?_⟩
      obtain ⟨-, -, -, -, -, hpl⟩ := lx l
      rw [hp, hpl, hnone l hl])
  rw [hx] at hx'; cases hx'
  exact ⟨_, x, u, hx, hu, sx.fits hfit, hrun⟩

/-- The parked lanes of a set, released. -/
def released (b : State) (g : Group) : State := b.onLanes g.key g.lanes fun x => { x with park := none }

/-- The lanes' masks agree, and name each of them. -/
theorem not_maskDisagrees {w : Warp} {m : Word} {l : Nat} {p : Park} (hu : w.protected' = false) (hp : (w.lane l).park = some p)
    (hm : p.mask = m) (hl : m.getLsbD l = true) : maskDisagrees w m l = false := by
  simp [maskDisagrees, hp, hm, visible_unprotected hu, hl]

/-- Reading operands does not see where lanes are parked. -/
theorem SameRead.of_onLanes (v : Warp) (ls : List Nat) {f : Lane → Lane}
    (hf : ∀ x, (f x).window = x.window ∧ (f x).preds = x.preds ∧ (f x).predPoison = x.predPoison) : SameRead v (v.onLanes ls f) := by
  induction ls generalizing v with
  | nil => exact ⟨rfl, rfl, fun _ => rfl, fun _ => rfl, fun _ => rfl⟩
  | cons l ls ih =>
    refine SameRead.trans ⟨rfl, by simp, fun m => ?_, fun m => ?_, fun m => ?_⟩ (ih (v.onLane l f)) <;>
    · rw [lane_onLane]; split
      · simp [hf]
      · rfl

theorem SameRead.symm {v u : Warp} (h : SameRead v u) : SameRead u v :=
  ⟨by rw [h.rest], h.count.symm, fun l => (h.window l).symm, fun l => (h.preds l).symm, fun l => (h.predPoison l).symm⟩

/-- A set that is parked, with one mask that names each of its lanes, executes as an issue of its own (R28). -/
theorem crossRuns_parked (i : Instr) (d : BitVec 7) : CrossRuns i d parkedSet (fun b g _ => released b g) parkPoison := by
  intro sigs F _ g w s v h hv ⟨hne, m, hm⟩
  have hfit := h.fits hv
  obtain ⟨l₀, h₀, hhead⟩ : ∃ l₀ ∈ g.lanes, g.lanes.headD 0 = l₀ := by
    obtain ⟨l₀, ls, hls⟩ := List.exists_cons_of_ne_nil hne
    exact ⟨l₀, by simp [hls], by simp [hls]⟩
  obtain ⟨-, p₀, hp₀, hmask₀⟩ := hm l₀ h₀
  have hbad : g.lanes.filter (maskDisagrees v p₀.mask) = [] := by
    rw [List.filter_eq_nil_iff]
    intro l hl
    obtain ⟨hbit, p, hp, hmask⟩ := hm l hl
    rw [hmask₀, not_maskDisagrees hfit.unprotected hp hmask hbit]
    decide
  have hpoison : (g.lanes.any fun l => match (v.lane l).park with | some p => p.poison | none => false) = parkPoison (s.issuing g) g v := by
    unfold parkPoison
    congr 1
    funext l
    cases (v.lane l).park <;> rfl
  refine ⟨sigs v g, v.onLanes g.lanes fun x => { x with park := none }, v, by simp [released, hv], (SameRead.of_onLanes v g.lanes (f := fun x => { x with park := none }) fun _ => ⟨rfl, rfl, rfl⟩).symm,
    SameWarp.fits (.onLanes ..) hfit, ?_⟩
  unfold crossCompared
  rw [hv]
  simp only [hhead, hp₀]
  unfold crossExecute
  rw [hv]
  simp only [hhead, hp₀, hbad, List.isEmpty_nil, if_true]
  exact congrArg (fun mp => IssueResult.done _ (F v mp g _)) hpoison

/-! The forms of a result. -/

/-- i writes a word to field d of each participant: f of the operands, poisoned with the masks as well. -/
def CrossWords (i : Instr) (ok : Cond) (base : State → Group → Warp → State) (mp : State → Group → Warp → Bool) (d : BitVec 7) (la : Nat)
    (f : State → Group → Warp → Nat → PWord) : Prop :=
  Achieves i ok fun b g v e => ∃ u, (base b g v).warpAt g.key = some u ∧
    Wrote g u (base b g v) e d.toNat 1 la (fun l => [⟨(f (base b g v) g u l).val, (f (base b g v) g u l).poison || mp b g v⟩]) fun _ => 0

/-- i writes predicate q of each participant. -/
def CrossPreds (i : Instr) (ok : Cond) (base : State → Group → Warp → State) (mp : State → Group → Warp → Bool) (q : BitVec 3)
    (f : Group → Warp → Bool × Bool) : Prop :=
  Achieves i ok fun b g v e => ∃ u, (base b g v).warpAt g.key = some u ∧
    LanesChanged g u (base b g v) e fun _ x => x.setPred q.toNat (f g u).1 (mp b g v || (f g u).2)

/-- F writes the word f of the operands to field d. -/
def ExecutesWords (F : Warp → Bool → Group → State → State) (d la : Nat) (f : State → Group → Warp → Nat → PWord) : Prop :=
  ∀ u x p g b, SameRead x u → Fits g x → F u p g b = writeResults b g x d 1 la (g.lanes.map fun l =>
    ⟨l, [⟨(f b g x l).val, (f b g x l).poison || p⟩], 0⟩)

/-- F writes predicate q. -/
def ExecutesPreds (F : Warp → Bool → Group → State → State) (q : Nat) (f : Group → Warp → Bool × Bool) : Prop :=
  ∀ u x p g b, SameRead x u → Fits g x → F u p g b = g.lanes.foldl (fun s l =>
    s.onLanes g.key [l] fun y => y.setPred q (f g x).1 (p || (f g x).2)) b

theorem ExecutesWords.wrote {F : Warp → Bool → Group → State → State} {d la : Nat} {f : State → Group → Warp → Nat → PWord}
    (h : ExecutesWords F d la f) {u x : Warp} {p : Bool} {g : Group} {b : State} (hx : b.warpAt g.key = some x) (hu : SameRead x u)
    (hf : Fits g x) : Wrote g x b (F u p g b) d 1 la (fun l => [⟨(f b g x l).val, (f b g x l).poison || p⟩]) fun _ => 0 := by
  rw [h u x p g b hu hf]
  exact writeResults_wrote hx hf.nodup hf.lanes fun _ _ => rfl

theorem ExecutesPreds.changed {F : Warp → Bool → Group → State → State} {q : Nat} {f : Group → Warp → Bool × Bool}
    (h : ExecutesPreds F q f) {u x : Warp} {p : Bool} {g : Group} {b : State} (hx : b.warpAt g.key = some x) (hu : SameRead x u)
    (hf : Fits g x) : LanesChanged g x b (F u p g b) fun _ y => y.setPred q (f g x).1 (p || (f g x).2) := by
  rw [h u x p g b hu hf]
  exact foldLanes_changed _ hx hf.nodup fun l hl => (hf.lanes l hl).2

theorem ExecutesWords.keepsPark {F : Warp → Bool → Group → State → State} {d la : Nat} {f : State → Group → Warp → Nat → PWord}
    (h : ExecutesWords F d la f) : KeepsPark F := by
  intro u p g b x hx hu hf
  obtain ⟨y, hy, -, -, -, hl⟩ := (h.wrote (p := p) hx hu hf).warp
  exact ⟨y, hy, fun l => by rw [hl l]⟩

theorem setPred_park (x : Lane) (q : Nat) (v p : Bool) : (x.setPred q v p).park = x.park := by
  unfold Lane.setPred; split <;> rfl

theorem ExecutesPreds.keepsPark {F : Warp → Bool → Group → State → State} {q : Nat} {f : Group → Warp → Bool × Bool}
    (h : ExecutesPreds F q f) : KeepsPark F := by
  intro u p g b x hx hu hf
  obtain ⟨y, hy, -, -, hl⟩ := (h.changed (p := p) hx hu hf).warp
  refine ⟨y, hy, fun l => ?_⟩
  rw [hl l]; split
  · exact setPred_park ..
  · rfl

variable {i : Instr} {d : BitVec 7} {ok : Cond} {base : State → Group → Warp → State} {mp : State → Group → Warp → Bool}

/-- A cross-lane instruction that writes words. -/
theorem CrossRuns.words (h : CrossRuns i d ok base mp) {sigs : Warp → Group → List Sig} {F : Warp → Bool → Group → State → State}
    {la : Nat} {f : State → Group → Warp → Nat → PWord} (he : ∀ s, exec i s = issueWord i (crossCompared sigs i d F) s)
    (hF : ExecutesWords F d.toNat la f) : CrossWords i ok base mp d la f :=
  achieves_of he fun g w s v hi hv ho => by
    obtain ⟨sg, x, u, hx, hu, hf, hrun⟩ := h sigs F hF.keepsPark g w s v hi hv ho
    exact ⟨sg, _, hrun, x, hx, hF.wrote hx hu hf⟩

/-- A cross-lane instruction that writes a predicate. -/
theorem CrossRuns.preds (h : CrossRuns i d ok base mp) {sigs : Warp → Group → List Sig} {F : Warp → Bool → Group → State → State}
    {q : BitVec 3} {f : Group → Warp → Bool × Bool} (he : ∀ s, exec i s = issueWord i (crossCompared sigs i d F) s)
    (hF : ExecutesPreds F q.toNat f) : CrossPreds i ok base mp q f :=
  achieves_of he fun g w s v hi hv ho => by
    obtain ⟨sg, x, u, hx, hu, hf, hrun⟩ := h sigs F hF.keepsPark g w s v hi hv ho
    exact ⟨sg, _, hrun, x, hx, hF.changed hx hu hf⟩

/-- A cross-lane instruction that writes nothing. -/
theorem CrossRuns.nothing (h : CrossRuns i d ok base mp) {sigs : Warp → Group → List Sig}
    (he : ∀ s, exec i s = issueWord i (crossCompared sigs i d fun _ _ _ s => s) s) : Achieves i ok fun b g v t => t = base b g v :=
  achieves_of he fun g w s v hi hv ho => by
    obtain ⟨sg, x, u, -, -, -, hrun⟩ := h sigs _ (fun u p g b x hx _ _ => ⟨x, hx, fun _ => rfl⟩) g w s v hi hv ho
    exact ⟨sg, _, hrun, rfl⟩

/-! What each instruction writes. -/

/-- The lane that a shuffle reads: the participant of the number, if there is one. -/
theorem find_lane (ls : List Nat) (src : Int) :
    (ls.find? fun x : Nat => (x : Int) == src) = if 0 ≤ src ∧ src.toNat ∈ ls then some src.toNat else none := by
  induction ls with
  | nil => simp
  | cons l ls ih =>
    rw [List.find?_cons, ih]
    by_cases h : (l : Int) = src
    · subst h; simp
    · have hl : 0 ≤ src → src.toNat ≠ l := fun h0 e => h (by rw [← e]; exact Int.toNat_of_nonneg h0)
      have hb : ((l : Int) == src) = false := by simpa using h
      rw [hb]
      by_cases h0 : 0 ≤ src
      · simp [h0, hl h0]
      · simp [h0]

/-- A word with the poison of the masks, which the model takes first. -/
theorem results_congr {g : Group} {vals : Nat → PWord} {f : Nat → PWord} {p : Bool}
    (h : ∀ l ∈ g.lanes, (vals l).val = (f l).val ∧ (vals l).poison = ((f l).poison || p)) :
    (g.lanes.map fun l => (⟨l, [vals l], 0⟩ : LaneResult)) = g.lanes.map fun l => ⟨l, [⟨(f l).val, (f l).poison || p⟩], 0⟩ := by
  apply List.map_congr_left
  intro l hl
  obtain ⟨hv, hp⟩ := h l hl
  rw [← hv, ← hp]

/-- An execution that writes words, from what each lane's word is. -/
theorem executesWords_of {F : Warp → Bool → Group → State → State} {d la : Nat} {f : State → Group → Warp → Nat → PWord}
    {vals : Warp → Bool → Group → State → Nat → PWord}
    (hF : ∀ u p g b, F u p g b = writeResults b g u d 1 la (g.lanes.map fun l => ⟨l, [vals u p g b l], 0⟩))
    (hv : ∀ u x p g b, SameRead x u → Fits g x → ∀ l ∈ g.lanes,
      (vals u p g b l).val = (f b g x l).val ∧ (vals u p g b l).poison = ((f b g x l).poison || p)) : ExecutesWords F d la f := by
  intro u x p g b hu hf
  rw [hF, hu.writeResults, results_congr (hv u x p g b hu hf)]

theorem readPred_eq (w : Warp) (l : Nat) (s : BitVec 3) : readPred w l s.toNat =
    (decide (s = 7) || (w.lane l).preds.getLsbD s.toNat, decide (s ≠ 7) && (w.lane l).predPoison.getLsbD s.toNat) := by
  unfold readPred
  by_cases h : s = 7
  · subst h; simp
  · have : s.toNat < 7 := by
      have h7 : s.toNat ≠ 7 := fun e => h (BitVec.eq_of_toNat_eq e)
      have := s.isLt
      omega
    have h' : s ≠ 7#3 := h
    simp [h', this]

/-- The participants' values, as the model pairs them with their numbers. -/
theorem laneValues_unprotected {x u : Warp} (hu : SameRead x u) (hx : x.protected' = false) (s : State) (g : Group) (a : BitVec 7) (l : Nat) :
    laneValues s g u a l = g.lanes.map fun m => (m, readField s g x m a.toNat) := by
  unfold laneValues
  rw [peers_unprotected (hu.protected.trans hx)]
  apply List.map_congr_left
  intro m _
  rw [visible_unprotected (hu.protected.trans hx), hu.readField]

theorem voteValues_unprotected {x u : Warp} (hu : SameRead x u) (hx : x.protected' = false) (ls : List Nat) (n : Bool) (s : BitVec 3) :
    voteValues u ls n s = ls.map fun m => (m, (readPred x m s.toNat).1 != n, (readPred x m s.toNat).2) := by
  unfold voteValues
  rw [accessLanes_unprotected (hu.protected.trans hx)]
  apply List.map_congr_left
  intro m _
  rw [visible_unprotected (hu.protected.trans hx), hu.readPred]

/-- The predicates that the participants vote with, and their poison (R315). -/
theorem votes_eq (x : Warp) (ls : List Nat) (n : Bool) (s : BitVec 3) :
    (ls.map fun m => (m, (readPred x m s.toNat).1 != n, (readPred x m s.toNat).2)).map (fun y => y.2.1) =
      ls.map fun l => (decide (s = 7) || (x.lane l).preds.getLsbD s.toNat) != n := by
  simp only [List.map_map, readPred_eq]
  rfl

theorem votePoison_eq (x : Warp) (ls : List Nat) (n : Bool) (s : BitVec 3) :
    ((ls.map fun m => (m, (readPred x m s.toNat).1 != n, (readPred x m s.toNat).2)).any fun y => y.2.2) =
      (decide (s ≠ 7) && ls.any fun l => (x.lane l).predPoison.getLsbD s.toNat) := by
  simp only [List.any_map, readPred_eq, Function.comp_def]
  cases decide (s ≠ 7) <;> simp

/-- The numbers of the values that pass a test. -/
theorem filter_numbered (ls : List Nat) (f : Nat → β) (p : β → Bool) :
    ((ls.map fun m => (m, f m)).filter fun y => p y.2).map (·.1) = ls.filter fun m => p (f m) := by
  rw [List.filter_map, List.map_map]
  exact List.map_id _

theorem sum_numbered (ls : List Nat) (f : Nat → β) (p : β → Bool) :
    (((ls.map fun m => (m, f m)).filter fun y => p y.2).map fun y => 2 ^ y.1).sum = ((ls.filter fun m => p (f m)).map fun m => 2 ^ m).sum := by
  rw [← filter_numbered ls f p, List.map_map]
  rfl

/-- What a lane reads in a shuffle (R314). -/
def shuffled (a b : BitVec 7) (f : BitVec 2) : State → Group → Warp → Nat → PWord := fun t g v l =>
  let y := readField t g v l b.toNat
  let source := shuffleSource 32 f.toNat l y.val
  if 0 ≤ source ∧ source.toNat ∈ g.lanes then
    let x := readField t g v source.toNat a.toNat
    ⟨x.val, x.poison || y.poison⟩
  else readField t g v l a.toNat

theorem shuffled_find (a b : BitVec 7) (f : BitVec 2) (t : State) (g : Group) (x : Warp) (l : Nat) :
    (match (g.lanes.find? fun m : Nat => (m : Int) == shuffleSource 32 f.toNat l (readField t g x l b.toNat).val) with
      | some m => (⟨(readField t g x m a.toNat).val, (readField t g x m a.toNat).poison || (readField t g x l b.toNat).poison⟩ : PWord)
      | none => readField t g x l a.toNat) = shuffled a b f t g x l := by
  unfold shuffled
  rw [find_lane]
  dsimp only
  by_cases h : 0 ≤ shuffleSource 32 f.toNat l (readField t g x l b.toNat).val ∧
      (shuffleSource 32 f.toNat l (readField t g x l b.toNat).val).toNat ∈ g.lanes
  · rw [if_pos h, if_pos h]
  · rw [if_neg h, if_neg h]

/-- What each cross-lane instruction does (R314 to R317), from how its sets execute. -/
theorem crossLaneResults_of {ok : BitVec 7 → Cond} {base : BitVec 7 → Instr → State → Group → Warp → State}
    {mp : BitVec 7 → State → Group → Warp → Bool} (h : ∀ i d, maskField i = some d → CrossRuns i d (ok d) (base d i) (mp d)) :
    crossLaneResults ok (fun g _ => g) base mp := by
  unfold crossLaneResults
  intro words preds vals anyPoison mask pred predPoison fold e d a b u f n s q la o
  have hw : ∀ {i d la f}, CrossWords i (ok d) (base d i) (mp d) d la f → words i d la f := fun h => h
  have hq : ∀ {i d q f}, CrossPreds i (ok d) (base d i) (mp d) q f → preds i d q f := fun h => h
  clear_value words preds
  have hfold : ∀ o xs, foldLanes o xs = fold o xs := fun o xs => by cases xs <;> rfl
  have hvals : ∀ t g x ls, (ls.map fun m => (m, readField t g x m a.toNat)).map (·.2.val) = vals a t g x ls := fun t g x ls => List.map_map
  have hpoison : ∀ t g x (p : Bool), (p || (g.lanes.map fun m => (m, readField t g x m a.toNat)).any (·.2.poison)) = (anyPoison a t g x || p) :=
    fun t g x p => by rw [Bool.or_comm, List.any_map]; rfl
  refine ⟨?shfl, ?ballot, ?all, ?any, ?eq, ?lred, ?lscanIncl, ?lscanExcl, ?matchW, ?match64, ?fmtv, ?cvg⟩
  case shfl =>
    refine hw ((h _ d rfl).words (f := shuffled a b f) (fun _ => rfl) (executesWords_of (fun _ _ _ _ => rfl) fun u x p g t hu hf l _ => ?_))
    have hp := hu.protected.trans hf.unprotected
    constructor <;>
      simp only [width_unprotected hp, visible_unprotected hp, peers_unprotected hp, hu.readField, ← shuffled_find a b f t g x l] <;> rfl
  case ballot =>
    refine hw ((h _ d rfl).words (fun _ => rfl) (executesWords_of (fun _ _ _ _ => rfl) fun u x p g t hu hf l _ => ?_))
    simp only [voteValues_unprotected hu hf.unprotected, votePoison_eq]
    refine ⟨?_, Bool.or_comm ..⟩
    rw [sum_numbered g.lanes (fun m => ((readPred x m s.toNat).1 != n, (readPred x m s.toNat).2)) (·.1)]
    simp only [readPred_eq]
    rfl
  case all =>
    refine hq ((h _ d rfl).preds (fun _ => rfl) fun u x p g t hu hf => ?_)
    simp only [voteValues_unprotected hu hf.unprotected, votes_eq, votePoison_eq, List.all_map]
    rfl
  case any =>
    refine hq ((h _ d rfl).preds (fun _ => rfl) fun u x p g t hu hf => ?_)
    simp only [voteValues_unprotected hu hf.unprotected, votes_eq, votePoison_eq]
    simp only [List.any_map]
    rfl
  case eq =>
    refine hq ((h _ d rfl).preds (fun _ => rfl) fun u x p g t hu hf => ?_)
    simp only [voteValues_unprotected hu hf.unprotected, votes_eq, votePoison_eq]
    simp only [List.any_map, List.all_map]
    rfl
  case lred =>
    refine hw ((h _ d rfl).words (fun _ => rfl) (executesWords_of (fun _ _ _ _ => rfl) fun u x p g t hu hf l _ => ?_))
    simp only [laneValues_unprotected hu hf.unprotected, hfold, hvals, hpoison, and_self]
  case lscanIncl =>
    refine hw ((h _ d rfl).words (fun _ => rfl) (executesWords_of (fun _ _ _ _ => rfl) fun u x p g t hu hf l _ => ?_))
    have hp := hu.protected.trans hf.unprotected
    simp only [laneValues_unprotected hu hf.unprotected, visible_unprotected hp, hfold, hpoison, Bool.false_eq_true, if_false, List.filter_map,
      hvals, and_true]
    rfl
  case lscanExcl =>
    refine hw ((h _ d rfl).words (fun _ => rfl) (executesWords_of (fun _ _ _ _ => rfl) fun u x p g t hu hf l _ => ?_))
    have hp := hu.protected.trans hf.unprotected
    simp only [laneValues_unprotected hu hf.unprotected, visible_unprotected hp, hpoison, if_true, List.filter_map, hvals, and_true]
    rfl
  case matchW =>
    refine hw ((h _ d rfl).words (fun _ => rfl) (executesWords_of (fun _ _ _ _ => rfl) fun u x p g t hu hf l _ => ?_))
    simp only [laneValues_unprotected hu hf.unprotected, hu.readField, hpoison, and_true]
    rw [filter_numbered g.lanes (fun m => readField t g x m a.toNat) (·.val == (readField t g x l a.toNat).val)]
    rfl
  case match64 =>
    refine hw ((h _ d rfl).words (fun _ => rfl) (executesWords_of (fun _ _ _ _ => rfl) fun u x p g t hu hf l _ => ?_))
    have hp := hu.protected.trans hf.unprotected
    simp only [peers_unprotected hp, visible_unprotected hp, hu.readPair]
    rw [filter_numbered g.lanes (fun m => readPair t g x m a.toNat) (·.val == (readPair t g x l a.toNat).val), List.any_map]
    exact ⟨rfl, Bool.or_comm ..⟩
  case fmtv =>
    refine hw ((h _ d rfl).words (fun _ => rfl) (executesWords_of (fun _ _ _ _ => rfl) fun u x p g t hu hf l hl => ?_))
    obtain ⟨l₀, ls, hls⟩ := List.exists_cons_of_ne_nil (List.ne_nil_of_mem hl)
    have hfirst : ((g.lanes.map fun m => (m, readField t g x m a.toNat)).map (·.2.val)).headD 0 =
        (readField t g x (g.lanes.headD 0) a.toNat).val := by rw [hls]; rfl
    simp only [laneValues_unprotected hu hf.unprotected, hfirst, hpoison, and_true]
    rw [filter_numbered g.lanes (fun m => readField t g x m a.toNat) (·.val != (readField t g x (g.lanes.headD 0) a.toNat).val)]
    exact congrArg laneMask (List.filter_congr fun m _ => by rw [bne, beq_eq_decide, ← decide_not])
  case cvg => exact (h _ d rfl).nothing fun _ => rfl

end Sys2Proof.Machine

/-! The model has a definition named `crossLane`; the theorem of that name stands beside its namespace. -/

namespace Sys2Proof.Machine.Settled

/-- Settles O13: lanes that arrive together execute at once, on the state of their release. -/
theorem crossLane : Obligations.CrossLane := fun m => crossLaneResults_of fun _ _ hi => crossRuns_gathers hi m

end Sys2Proof.Machine.Settled
end

section
/-! Cross-lane sets: a set that must wait parks its lanes (R27, R51), and one whose masks disagree traps (R28). -/

namespace Sys2Proof.Machine

/-- The model's forms of the cross-lane instructions; a set of no lanes changes nothing. -/
theorem exec_crossLane {i : Instr} {d : BitVec 7} (h : maskField i = some d) : ∃ sigs F,
    (∀ s, exec i s = issueWord i (crossCompared sigs i d F) s) ∧ ∀ u p (g : Group) b, g.lanes = [] → F u p g b = b := by
  unfold maskField at h
  split at h
  all_goals
    cases h
  all_goals
    refine ⟨_, _, fun _ => rfl, fun u p g b hg => ?_⟩
    simp [hg, writeResults]

/-- A fold that each step leaves where it is. -/
theorem foldl_stays {f : β → α → β} {b : β} {xs : List α} (h : ∀ x ∈ xs, f b x = b) : xs.foldl f b = b := by
  induction xs with
  | nil => rfl
  | cons x xs ih =>
    obtain ⟨hx, hxs⟩ := List.forall_mem_cons.1 h
    rw [List.foldl_cons, hx, ih hxs]

/-- An arrival none of whose lanes completes a set parks its lanes. -/
theorem arrive_parks {i : Instr} {mask : Warp → Nat → PWord} {set : Warp → Nat → Option (List Nat)} {run : Group → State → IssueResult}
    {g : Group} {s : State} (h : ∀ l ∈ g.lanes, joinSet set run g (parkLanes i mask g s) l = .done [] (parkLanes i mask g s)) :
    arrive i mask set run g s = .done [] (parkLanes i mask g s) := by
  unfold arrive
  refine foldl_stays fun l hl => ?_
  dsimp only
  cases ((parkLanes i mask g s).warpAt g.key).bind fun w => (w.lane l).park with
  | none => rfl
  | some _ => simp only [h l hl, List.append_nil]

/-- A lane that names one which has not arrived completes no set (R27). -/
theorem crossSet_waits {i : Instr} {g : Group} {m : Nat → PWord} {v u : Warp} {l x : Nat} (hp : v.protected' = false)
    (hr : u = { v with lanes := u.lanes }) (hu : ∀ l, u.lane l = if l ∈ g.lanes then parkedLane i g (m l) (v.lane l) else v.lane l)
    (hl : l ∈ g.lanes) (hx : x < 32) (hbit : (m l).val.getLsbD x = true) (hout : x ∉ g.lanes) (hpres : (v.lane x).present = true)
    (hexit : (v.lane x).exited = false) (hpark : (v.lane x).park = none) : crossSet u l = none := by
  have hpu : u.protected' = false := by rw [hr]; exact hp
  have hpl : (u.lane l).park = some ⟨i, (m l).val, (m l).poison⟩ := by rw [hu l, if_pos hl]; rfl
  have hnot : arrivedAt u x (u.lane l).pc = false := by
    simp [arrivedAt, parkedAt, hu x, hout, hpres, hexit, hpark]
  unfold crossSet
  rw [hpl]
  dsimp only
  rw [if_neg]
  intro hc
  obtain ⟨-, hall⟩ := Bool.and_eq_true_iff.1 hc
  have hmem : x ∈ maskLanes u (m l).val := by
    simp [maskLanes, width_unprotected hpu, hx, hbit]
  have := List.all_eq_true.1 hall x hmem
  simp [physLanes, hpu, hnot] at this

/-- Parking leaves a lane's entries. -/
theorem commitBlocked_parked {i : Instr} {g : Group} {m : Nat → PWord} {v u : Warp} (hr : u = { v with lanes := u.lanes })
    (hu : ∀ l, u.lane l = if l ∈ g.lanes then parkedLane i g (m l) (v.lane l) else v.lane l) (l : Nat) :
    commitBlocked u l = commitBlocked v l := by
  have hh : u.inHandler = v.inHandler := by rw [hr]
  have hc : (u.lane l).commits = (v.lane l).commits := by rw [hu l]; split <;> rfl
  unfold commitBlocked
  rw [hh, hc]

/-- The lanes of an arrival that must wait park (R27, R51). -/
theorem crossCompared_waits {sigs : Warp → Group → List Sig} {F : Warp → Bool → Group → State → State} {i : Instr} {d : BitVec 7}
    {g : Group} {b : State} {v : Warp} (hi : isCrossLane i = true) (hv : b.warpAt g.key = some v) (hf : Fits g v) (hne : g.lanes ≠ [])
    (h : stillWaits d b g v ∨ ∃ m, gathers d m b g v ∧ ∃ l ∈ g.lanes, commitBlocked v l = true) :
    crossCompared sigs i d F g b = .done [] (parkLanes i (fun w l => readField b g w l d.toNat) g b) := by
  have hlen : ∀ l ∈ g.lanes, l < v.lanes.length := fun l hl => (hf.lanes l hl).2
  obtain ⟨⟨u, hu, ur, uc, ul⟩, -, -⟩ := parkLanes_changed (i := i) (mask := fun w l => readField b g w l d.toNat) hv hf.nodup hlen
  have hpark : ∀ l ∈ g.lanes, (v.lane l).park = none := by
    rcases h with h | ⟨m, hg, -⟩
    · exact h.1
    · exact fun l hl => hg.2.2.2.1 l (hf.lanes l hl).1 ((hg.2.2.1 l (hf.lanes l hl).1).1 hl).1
  have hhead : (v.lane (g.lanes.headD 0)).park = none := by
    obtain ⟨l, ls, hls⟩ := List.exists_cons_of_ne_nil hne
    exact hpark _ (by simp [hls])
  unfold crossCompared
  rw [hv]
  simp only [hhead]
  refine arrive_parks fun l hl => ?_
  unfold joinSet
  rw [hu]
  dsimp only
  rcases h with ⟨-, hw⟩ | ⟨m, hg, l', hl', hb⟩
  · obtain ⟨x, hx, hbit, hout, hpres, hexit, hxp⟩ := hw l hl
    rw [crossSet_waits hf.unprotected ur ul hl hx hbit hout hpres hexit hxp]
  · rw [crossSet_gathered hi hg hf.unprotected (fun l hl => (hf.lanes l hl).1) hl ur ul]
    exact if_pos (List.any_eq_true.2 ⟨l', hl', by rw [commitBlocked_parked ur ul, hb]⟩)

/-- An issue for no lanes changes nothing. -/
theorem crossCompared_empty {sigs : Warp → Group → List Sig} {F : Warp → Bool → Group → State → State} {i : Instr} {d : BitVec 7}
    {g : Group} {b : State} {v : Warp} (hv : b.warpAt g.key = some v) (hg : g.lanes = []) (hF : ∀ u p, F u p g b = b) :
    ∃ sg, crossCompared sigs i d F g b = .done sg b := by
  have hunpark : unpark b g.key [] = b := onWarp_fixed hv rfl
  unfold crossCompared
  rw [hv]
  cases hp : (v.lane (g.lanes.headD 0)).park with
  | none =>
    refine ⟨[], ?_⟩
    simp only [hp]
    rw [arrive_parks (by simp [hg])]
    simp [parkLanes, hv, hg]
  | some p =>
    refine ⟨sigs v g, ?_⟩
    simp only [hp]
    unfold crossExecute
    rw [hv]
    simp only [hp]
    rw [hg]
    simp [hunpark, hF]

theorem crossLane_parks {i : Instr} {d : BitVec 7} (hi : maskField i = some d) :
    LaneEffects i (fun b g v => stillWaits d b g v ∨ ∃ m, gathers d m b g v ∧ ∃ l ∈ g.lanes, commitBlocked v l = true) fun b g v l x =>
      let m := readField b g v l d.toNat
      { x with pc := x.pc - 4, rep := g.rep, park := some ⟨i, m.val, m.poison⟩ } := by
  obtain ⟨sigs, F, he, hF⟩ := exec_crossLane hi
  refine achieves_of he fun g w s v h hv ho => ?_
  have hf := h.fits hv
  by_cases hne : g.lanes = []
  · obtain ⟨sg, hrun⟩ := crossCompared_empty (sigs := sigs) (F := F) (i := i) (d := d) hv hne fun u p => hF u p g _ hne
    refine ⟨sg, _, hrun, ⟨v, hv, rfl, rfl, fun l => by simp [hne]⟩, fun _ _ => rfl, rfl⟩
  · exact ⟨[], _, crossCompared_waits (isCrossLane_of_maskField hi) hv hf hne ho,
      parkLanes_changed hv hf.nodup fun l hl => (hf.lanes l hl).2⟩

/-! Sets whose masks disagree. -/

/-- Lanes that all fail alike: the trap names them all. -/
theorem resolveTrap_alike (bad : List Nat) (f : Fail) (h : bad ≠ []) : resolveTrap (bad.map fun l => (l, f)) = some ⟨f.code, bad, f.einfo⟩ := by
  have hself : f.before f = false := by simp [Fail.before]
  have hfold : ∀ ls : List Nat, (ls.map fun _ => some f).foldl (fun acc f => match acc, f with
      | none, f => f
      | some a, none => some a
      | some a, some b => if b.before a then some b else some a) (some f) = some f := by
    intro ls
    induction ls with
    | nil => rfl
    | cons l ls ih => simpa [hself] using ih
  have hfirst : firstFail ((bad.map fun l => (l, f)).map (some ·.2)) = some f := by
    obtain ⟨l, ls, rfl⟩ := List.exists_cons_of_ne_nil h
    rw [List.map_map]
    exact hfold ls
  unfold resolveTrap
  rw [hfirst]
  obtain ⟨l, ls, rfl⟩ := List.exists_cons_of_ne_nil h
  simp [List.filter_map, Function.comp_def]

/-- Words are equal when their bits are. -/
theorem bits_eq (x y : Word) : ((List.range 32).all fun v => x.getLsbD v == y.getLsbD v) = (x == y) := by
  rw [Bool.eq_iff_iff, List.all_eq_true, beq_iff_eq]
  constructor
  · intro h
    exact BitVec.eq_of_getLsbD_eq fun v hv => by simpa using h v (by simpa using hv)
  · rintro rfl v -
    simp

theorem maskDisagrees_unprotected {w : Warp} (h : w.protected' = false) {l : Nat} {p : Park} (hp : (w.lane l).park = some p) (m : Word) :
    maskDisagrees w m l = (p.mask != m || !p.mask.getLsbD l) := by
  unfold maskDisagrees
  rw [hp]
  simp only [width_unprotected h, visible_unprotected h, bits_eq, bne]

theorem crossLane_disagrees {i : Instr} {d : BitVec 7} (hi : maskField i = some d) (wrong : Group → Warp → Nat → Bool)
    (hw : ∀ g v l p p₀, (v.lane l).park = some p → (v.lane (g.lanes.headD 0)).park = some p₀ →
      wrong g v l = (p.mask != p₀.mask || !p.mask.getLsbD l)) :
    Traps i (fun _ g v => g.lanes ≠ [] ∧ (∀ l ∈ g.lanes, (v.lane l).park ≠ none) ∧ ∃ l ∈ g.lanes, wrong g v l = true)
      fun _ g v => ⟨0x09, g.lanes.filter (wrong g v), 16 * (g.lanes.filter (wrong g v)).headD 0⟩ := by
  obtain ⟨sigs, F, he, -⟩ := exec_crossLane hi
  refine traps_of he fun g w s v h hv ⟨hne, hpark, l, hl, hwrong⟩ => ?_
  have hu := (h.fits hv).unprotected
  obtain ⟨p₀, hp₀⟩ : ∃ p₀, (v.lane (g.lanes.headD 0)).park = some p₀ := by
    obtain ⟨a, ls, hls⟩ := List.exists_cons_of_ne_nil hne
    exact Option.ne_none_iff_exists'.1 (hpark _ (by simp [hls]))
  have hbad : g.lanes.filter (maskDisagrees v p₀.mask) = g.lanes.filter (wrong g v) := by
    refine List.filter_congr fun x hx => ?_
    obtain ⟨p, hp⟩ := Option.ne_none_iff_exists'.1 (hpark x hx)
    rw [hw g v x p p₀ hp hp₀, maskDisagrees_unprotected hu hp]
  have hsome : g.lanes.filter (wrong g v) ≠ [] := List.ne_nil_of_mem (List.mem_filter.2 ⟨hl, hwrong⟩)
  have hlow : (((g.lanes.filter (wrong g v)).map v.visible).headD 0) = (g.lanes.filter (wrong g v)).headD 0 := by
    cases g.lanes.filter (wrong g v) with
    | nil => rfl
    | cons a as => exact visible_unprotected hu a
  refine ⟨sigs v g, (g.lanes.filter (wrong g v)).map fun l => (l, ⟨6, 0x09, (g.lanes.filter (wrong g v)).headD 0 * 16⟩), ?_, ?_⟩
  · unfold crossCompared
    rw [hv]
    simp only [hp₀]
    unfold crossExecute
    rw [hv]
    simp only [hp₀, hbad, List.isEmpty_eq_false_iff.2 hsome, Bool.false_eq_true, if_false, hlow]
  · rw [resolveTrap_alike _ _ hsome, Nat.mul_comm]

/-- Settles O14: parked sets execute as an issue of their own, an arrival that must wait parks, and masks that disagree trap. -/
theorem crossLaneSets : Obligations.CrossLaneSets :=
  ⟨crossLaneResults_of fun i d _ => crossRuns_parked i d, fun _ _ hi => crossLane_parks hi,
    fun _ _ hi => crossLane_disagrees hi _ fun g v l p p₀ hp hp₀ => by simp only [hp, hp₀]⟩

end Sys2Proof.Machine
end

section
/-! Events of warps between their issues: the choice of a warp and the end of its run (R20, R22, R168), stops (R253, R264), wakes and timeouts
(R254, R369), imprecise store faults (R262). -/

namespace Sys2Proof.Machine

/-! Events, by the function that each executes. -/

/-- An event whose effect is a function of the state. -/
theorem happens_of {i : Instr} {ok : State → Prop} {P : State → State → Prop} {f : State → State} (he : ∀ s, exec i s = .next (f s))
    (h : ∀ s, ok s → P s (f s)) : Happens i ok P := fun s ho => ⟨f s, he s, h s ho⟩

theorem idle_of {i : Instr} {ok : State → Prop} {f : State → State} (he : ∀ s, exec i s = .next (f s)) (h : ∀ s, ok s → f s = s) : Idle i ok :=
  fun s ho => by rw [he s, h s ho]

/-! The choice of a warp (R168). -/

/-- The smallest of a list by a measure, the first of those on a tie. -/
def leastBy (f : Nat → Nat) (n : Nat) (ns : List Nat) : Nat := ns.foldl (fun a b => if f b < f a then b else a) n

/-- In a rising list the choice has the smallest measure, and the lowest number of those. -/
theorem leastBy_least (f : Nat → Nat) (n : Nat) (ns : List Nat) (h : (n :: ns).Pairwise (· < ·)) :
    leastBy f n ns ∈ n :: ns ∧ ∀ m ∈ n :: ns, f (leastBy f n ns) < f m ∨ (f (leastBy f n ns) = f m ∧ leastBy f n ns ≤ m) := by
  induction ns generalizing n with
  | nil => simp [leastBy]
  | cons b ns ih =>
    obtain ⟨hn, hb⟩ := List.pairwise_cons.1 h
    obtain ⟨hb', hns⟩ := List.pairwise_cons.1 hb
    have hstep : leastBy f n (b :: ns) = leastBy f (if f b < f n then b else n) ns := rfl
    by_cases hlt : f b < f n
    · rw [hstep, if_pos hlt]
      obtain ⟨hm, hl⟩ := ih b hb
      refine ⟨List.mem_cons_of_mem _ hm, fun m hmem => ?_⟩
      rcases List.mem_cons.1 hmem with rfl | hmem
      · have := hl b List.mem_cons_self
        omega
      · exact hl m hmem
    · rw [hstep, if_neg hlt]
      obtain ⟨hm, hl⟩ := ih n (List.pairwise_cons.2 ⟨fun a ha => hn a (List.mem_cons_of_mem _ ha), hns⟩)
      refine ⟨?_, fun m hmem => ?_⟩
      · rcases List.mem_cons.1 hm with he | hm
        · rw [he]; exact List.mem_cons_self
        · exact List.mem_cons_of_mem _ (List.mem_cons_of_mem _ hm)
      · rcases List.mem_cons.1 hmem with rfl | hmem
        · exact hl m List.mem_cons_self
        · rcases List.mem_cons.1 hmem with rfl | hmem
          · have := hl n List.mem_cons_self
            have := hn m List.mem_cons_self
            omega
          · exact hl m (List.mem_cons_of_mem _ hmem)

/-- A warp that is ready is resident. -/
theorem warpReady_warp {s : State} {k : Nat} (h : warpReady s k = true) : ∃ w, s.warpAt k = some w ∧ mayRun s k w = true := by
  unfold warpReady at h
  cases hw : s.warpAt k with
  | none => simp [hw] at h
  | some w =>
    rw [hw] at h
    exact ⟨w, rfl, (Bool.and_eq_true_iff.1 h).1⟩

/-- Warp n of a slot may take it (R168). -/
def State.readyIn (s : State) (core slot n : Nat) : Prop := n < 8 ∧ warpReady s (warpKey core slot n) = true

theorem mem_readyWarps {s : State} {core slot n : Nat} :
    n ∈ (slotWarps s core slot).filter (fun n => warpReady s (warpKey core slot n)) ↔ s.readyIn core slot n := by
  unfold slotWarps State.readyIn
  simp only [List.mem_filter, List.mem_range]
  constructor
  · rintro ⟨⟨hn, -⟩, hr⟩
    exact ⟨hn, hr⟩
  · rintro ⟨hn, hr⟩
    obtain ⟨w, hw, -⟩ := warpReady_warp hr
    exact ⟨⟨hn, by rw [hw]; rfl⟩, hr⟩

/-- A slot with a ready warp chooses the one of the smallest stamp, the lower number on a tie (R168). -/
theorem choose_least {s : State} {core slot : Nat} (h : ∃ n, s.readyIn core slot n) : ∃ n, choose s core slot = some n ∧ s.readyIn core slot n ∧
    ∀ m, s.readyIn core slot m → stampOf s (warpKey core slot n) < stampOf s (warpKey core slot m) ∨
      (stampOf s (warpKey core slot n) = stampOf s (warpKey core slot m) ∧ n ≤ m) := by
  obtain ⟨x, hx⟩ := h
  have hmem := mem_readyWarps.2 hx
  have hrise : ((slotWarps s core slot).filter fun n => warpReady s (warpKey core slot n)).Pairwise (· < ·) :=
    List.Pairwise.filter _ (range_rising 8 _)
  have hready : ∀ m, m ∈ (slotWarps s core slot).filter (fun n => warpReady s (warpKey core slot n)) ↔ s.readyIn core slot m :=
    fun _ => mem_readyWarps
  unfold choose
  revert hmem hrise hready
  cases (slotWarps s core slot).filter fun n => warpReady s (warpKey core slot n) with
  | nil => intro hmem; cases hmem
  | cons n ns =>
    intro _ hrise hready
    obtain ⟨hin, hl⟩ := leastBy_least (fun n => stampOf s (warpKey core slot n)) n ns hrise
    exact ⟨_, rfl, (hready _).1 hin, fun m hm => hl m ((hready m).2 hm)⟩

/-- A slot at a run boundary with a ready warp: the warp that is chosen begins, or the spare lane comes in for it. -/
theorem warpChoice_chosen {s : State} {core slot : Nat} (hidle : (s.slotAt core slot).running = none) (h : ∃ n, s.readyIn core slot n) :
    ∃ n w, s.readyIn core slot n ∧ s.warpAt (warpKey core slot n) = some w ∧ w.snapshot = false ∧
      (∀ m, s.readyIn core slot m → stampOf s (warpKey core slot n) < stampOf s (warpKey core slot m) ∨
        (stampOf s (warpKey core slot n) = stampOf s (warpKey core slot m) ∧ n ≤ m)) ∧
      warpChoiceEffect s core slot = if spareReady s core slot w then spareEffect s core slot n w else beginRun s core slot n := by
  obtain ⟨n, hc, hn, hl⟩ := choose_least h
  obtain ⟨w, hw, hmay⟩ := warpReady_warp hn.2
  have hsnap : w.snapshot = false := by
    unfold mayRun at hmay
    simp only [Bool.and_eq_true, Bool.not_eq_true'] at hmay
    exact hmay.1.1.1.1.2
  refine ⟨n, w, hn, hw, hsnap, hl, ?_⟩
  unfold warpChoiceEffect beginOrSpare
  simp [hidle, hc, hw]

theorem exec_warpChoice (core slot : Nat) (s : State) : exec (.warpChoice core slot) s = .next (warpChoiceEffect s core slot) := rfl

theorem warpChoice_begins (core slot : Nat) : Happens (.warpChoice core slot) (fun s => (s.slotAt core slot).running = none ∧
      (∃ n, s.readyIn core slot n) ∧ ∀ n w, s.readyIn core slot n → s.warpAt (warpKey core slot n) = some w → w.spared = (s.slotAt core slot).spare)
    (fun s t => ∃ n w r, s.readyIn core slot n ∧
      (∀ m, s.readyIn core slot m → stampOf s (warpKey core slot n) < stampOf s (warpKey core slot m) ∨
        (stampOf s (warpKey core slot n) = stampOf s (warpKey core slot m) ∧ n ≤ m)) ∧
      s.warpAt (warpKey core slot n) = some w ∧ t.warpAt (warpKey core slot n) = some { w with run := some r } ∧ r.issues = 0 ∧ r.issued = [] ∧
      t.slotAt core slot = { s.slotAt core slot with running := some n, runs := (s.slotAt core slot).runs + 1 } ∧
      (∀ k, k ≠ warpKey core slot n → t.warpAt k = s.warpAt k) ∧
      t = { s with thr := { s.thr with warps := t.thr.warps, slots := t.thr.slots } }) := by
  refine happens_of (exec_warpChoice core slot) fun s ⟨hidle, hready, hspare⟩ => ?_
  obtain ⟨n, w, hn, hw, -, hl, he⟩ := warpChoice_chosen hidle hready
  have hnot : spareReady s core slot w = false := by simp [spareReady, hspare n w hn hw]
  rw [he, hnot, if_neg Bool.false_ne_true]
  have hb : beginRun s core slot n = (s.setWarp (warpKey core slot n) { w with run := some (newRun s (warpKey core slot n) w) }).onSlot core slot
      fun x => { x with running := some n, runs := x.runs + 1 } := by
    unfold beginRun; dsimp only; rw [hw]
  rw [hb]
  refine ⟨n, w, newRun s (warpKey core slot n) w, hn, hl, hw, by simp, rfl, rfl, (slotAt_onSlot ..).trans (if_pos rfl), fun k hk => ?_, rfl⟩
  rw [warpAt_onSlot, warpAt_setWarp_ne _ _ hk]

theorem warpChoice_spares (core slot : Nat) : Happens (.warpChoice core slot) (fun s => (s.slotAt core slot).running = none ∧ ∃ n w,
      s.readyIn core slot n ∧ (∀ m, s.readyIn core slot m → m = n) ∧ s.warpAt (warpKey core slot n) = some w ∧ w.run = none ∧
      w.spared ≠ (s.slotAt core slot).spare)
    (fun s t => ∃ n, s.readyIn core slot n ∧ exec (.spareLaneSwitch core slot n) s = .next t) := by
  refine happens_of (exec_warpChoice core slot) fun s ⟨hidle, n, w, hn, hone, hw, hrun, hspare⟩ => ?_
  obtain ⟨n', w', hn', hw', hsnap, -, he⟩ := warpChoice_chosen hidle ⟨n, hn⟩
  cases hone n' hn'
  cases Option.some.inj (hw.symm.trans hw')
  have hdue : spareReady s core slot w = true := by simp [spareReady, hrun, hsnap, hspare]
  refine ⟨n, hn, ?_⟩
  show Host.Outcome.next _ = _
  rw [hw, he, hdue]
  simp [hdue]

theorem warpChoice_idle (core slot : Nat) : Idle (.warpChoice core slot) fun s => (s.slotAt core slot).running.isSome = true :=
  idle_of (exec_warpChoice core slot) fun _ h => if_pos h

/-! The end of a run (R20). -/

/-- A run that has ended is over. -/
theorem endRun_over {s : State} {k : Nat} {w : Warp} (h : (endRun s k).warpAt k = some w) : w.run = none := by
  unfold endRun at h
  split at h
  · simp_all
  · next v hv =>
    split at h
    · next hr => simp_all
    · dsimp only at h
      split at h
      · simp at h; rw [← h]
      · simp at h; rw [← h]

theorem cut_ends (core slot : Nat) : Happens (.cut core slot)
    (fun s => ∃ n, (s.slotAt core slot).running = some n ∧ openGroups s (warpKey core slot n) = [])
    (fun s t => ∀ n w, (s.slotAt core slot).running = some n → t.warpAt (warpKey core slot n) = some w → w.run = none) := by
  refine happens_of (fun _ => rfl) fun s ⟨n, hn, hopen⟩ m w hm hw => ?_
  cases Option.some.inj (hn.symm.trans hm)
  have hcut : cutReady s core slot = true := by simp [cutReady, hn, hopen]
  rw [if_pos hcut] at hw
  simp only [hn] at hw
  exact endRun_over hw

theorem cut_idle (core slot : Nat) : Idle (.cut core slot) fun s => ∀ n, (s.slotAt core slot).running = some n →
    openGroups s (warpKey core slot n) ≠ [] := by
  refine idle_of (fun _ => rfl) fun s h => if_neg ?_
  unfold cutReady
  cases hn : (s.slotAt core slot).running with
  | none => simp
  | some n => simp [h n hn]

/-! Stops (R253, R264). -/

theorem siblingStop_stops (core slot warp : Nat) (w : Warp) (x : WorkGroup) : Happens (.siblingStop core slot warp)
    (fun s => s.warpAt (warpKey core slot warp) = some w ∧ w.stop = .halting ∧ w.run = none ∧ s.work.groups.find w.wg = some x)
    (fun s t => t = s.setWarp (warpKey core slot warp) (stopWarp x w)) := by
  refine happens_of (fun _ => rfl) fun s ⟨hw, hstop, hrun, hx⟩ => ?_
  have hready : siblingReady w = true := by simp [siblingReady, hstop, hrun]
  simp only [hw, hready, if_true, hx]

/-- What a stop does to a warp: its latch keeps the trap registers, or they take the sibling's trap, or the failed address. -/
theorem stopWarp_stopped (x : WorkGroup) (w : Warp) : (stopWarp x w) = { w with stop := (stopWarp x w).stop, latch := true, trap := (stopWarp x w).trap } ∧
    (stopWarp x w).stop = (if x.contained.isSome then .contained else .halted) ∧
    (w.latch = true → (stopWarp x w).trap = w.trap) ∧
    (w.latch = false → (stopWarp x w).trap.epc = (nextGroup w).1.zeroExtend 64 ∧ (stopWarp x w).trap.erep = BitVec.ofNat 6 (nextGroup w).2.1 ∧
      (stopWarp x w).trap.emask = 0 ∧ (stopWarp x w).trap.eskid = BitVec.ofNat 10 (w.skid.1 + 32 * w.skid.2) ∧
      (∀ pa, x.contained = some pa → (stopWarp x w).trap.cause = 0x11 ∧ (stopWarp x w).trap.einfo = BitVec.ofNat 64 pa) ∧
      (∀ c sl n, x.contained = none → x.halt = some (c, sl, n) → (stopWarp x w).trap.cause = 0x0F ∧
        (stopWarp x w).trap.einfo = BitVec.ofNat 64 (c + 2 ^ 8 * sl + 2 ^ 11 * n))) := by
  unfold stopWarp
  dsimp only
  cases hl : w.latch with
  | true =>
    refine ⟨?_, rfl, fun _ => rfl, nofun⟩
    rw [if_pos rfl, ← hl]
  | false =>
    rw [if_neg Bool.false_ne_true]
    refine ⟨rfl, rfl, nofun, fun _ => ⟨rfl, rfl, rfl, rfl, fun pa hpa => ?_, fun c sl n hc hh => ?_⟩⟩
    · rw [hpa]; exact ⟨rfl, rfl⟩
    · rw [hc, hh]; exact ⟨rfl, rfl⟩

theorem siblingStop_idle (core slot warp : Nat) : Idle (.siblingStop core slot warp) fun s => ∀ w, s.warpAt (warpKey core slot warp) = some w →
    w.stop ≠ .halting ∨ w.run ≠ none := by
  refine idle_of (fun _ => rfl) fun s h => ?_
  cases hw : s.warpAt (warpKey core slot warp) with
  | none => rfl
  | some w =>
    have hnot : siblingReady w = false := by
      rcases h w hw with h | h
      · simp [siblingReady, h]
      · simp [siblingReady, Option.isNone_eq_false_iff, Option.isSome_iff_ne_none, h]
    simp [hnot]

/-! Lanes parked at `mwait` (R254, R369). -/

/-- Lane l stands parked at `mwait`. -/
def atMwait (w : Warp) (l : Nat) : Prop := l < 32 ∧ (w.lane l).held = false ∧ ∃ p e a, (w.lane l).park = some p ∧ p.instr = .mwait e a

theorem mem_mwaitLanes (w : Warp) (l : Nat) : l ∈ mwaitLanes w ↔ atMwait w l := by
  unfold mwaitLanes atMwait
  rw [List.mem_filter, List.mem_range]
  refine and_congr_right fun _ => ?_
  constructor
  · intro h
    split at h
    · next e a _ _ hp => exact ⟨by simpa using h, _, e, a, hp, rfl⟩
    · cases h
  · rintro ⟨hh, ⟨_, m, q⟩, e, a, hp, rfl⟩
    rw [hp]
    simp [hh]

theorem mwaitLanes_nodup (w : Warp) : (mwaitLanes w).Nodup := List.Nodup.filter _ List.nodup_range

theorem mwaitLanes_isEmpty (w : Warp) : (mwaitLanes w).isEmpty = false ↔ ∃ l, atMwait w l := by
  rw [List.isEmpty_eq_false_iff_exists_mem]
  exact exists_congr (mem_mwaitLanes w)

/-- The monitor is not armed, or has been hit. -/
def monitorHit (w : Warp) : Prop := ∀ m, w.monitor = some m → m.hit = true

theorem mwaitWoken_iff (w : Warp) : mwaitWoken w = true ↔ (∃ l, atMwait w l) ∧ monitorHit w := by
  unfold mwaitWoken monitorHit
  rw [Bool.and_eq_true_iff, Bool.not_eq_true', mwaitLanes_isEmpty]
  refine and_congr_right fun _ => ?_
  cases w.monitor <;> simp

theorem mwaitWake_wakes (core slot warp : Nat) : Happens (.mwaitWake core slot warp)
    (fun s => ∃ w, s.warpAt (warpKey core slot warp) = some w ∧ (∃ l, atMwait w l) ∧ monitorHit w)
    (fun s t => ∀ w, s.warpAt (warpKey core slot warp) = some w → ∃ u, t.warpAt (warpKey core slot warp) = some u ∧
      u = { w with lanes := u.lanes, monitor := none, mwait := none } ∧
      (∀ l < w.lanes.length, (atMwait w l → u.lane l = { w.lane l with park := none, pc := (w.lane l).pc + 4, rep := 0 }) ∧
        (¬ atMwait w l → u.lane l = w.lane l)) ∧
      (∀ j, j ≠ warpKey core slot warp → t.warpAt j = s.warpAt j) ∧ t = { s with thr := { s.thr with warps := t.thr.warps } }) := by
  refine happens_of (fun _ => rfl) fun s ⟨v, hv, hwoken⟩ w hw => ?_
  obtain rfl : v = w := Option.some.inj (hv.symm.trans hw)
  simp only [hv, (mwaitWoken_iff v).2 hwoken, if_true, warpAt_onWarp_self, warpAt_onLanes_self, Option.map_some]
  refine ⟨_, rfl, ?_, fun l hl => ⟨fun h => ?_, fun h => ?_⟩, fun j hj => ?_, rfl⟩
  · exact congrArg (fun u : Warp => { u with monitor := none, mwait := none }) (onLanes_rest v (mwaitLanes v) _)
  · exact lane_onLanes_of_mem _ _ _ _ (mwaitLanes_nodup v) ((mem_mwaitLanes v l).2 h) hl
  · exact lane_onLanes_of_not_mem _ _ _ _ fun hm => h ((mem_mwaitLanes v l).1 hm)
  · rw [warpAt_onWarp_ne _ _ hj, warpAt_onLanes_ne _ _ _ hj]

theorem mwaitWake_idle (core slot warp : Nat) : Idle (.mwaitWake core slot warp) fun s => ∀ w, s.warpAt (warpKey core slot warp) = some w →
    ¬ monitorHit w ∨ ∀ l, ¬ atMwait w l := by
  refine idle_of (fun _ => rfl) fun s h => ?_
  cases hw : s.warpAt (warpKey core slot warp) with
  | none => rfl
  | some w =>
    have hnot : ¬ mwaitWoken w = true := by
      rw [mwaitWoken_iff]
      rintro ⟨⟨l, hl⟩, hm⟩
      exact (h w hw).elim (· hm) fun h => h l hl
    exact if_neg hnot

theorem monitorTimeout_traps (core slot warp : Nat) (w : Warp) (m : Monitor) (e : Nat) : Happens (.monitorTimeout core slot warp)
    (fun s => s.warpAt (warpKey core slot warp) = some w ∧ (∃ l, atMwait w l) ∧ w.monitor = some m ∧ m.hit = false ∧ w.mwait = some e ∧
      e < s.clk.ref.toNat ∧ w.stop = .none)
    (fun s t => t = trapEntry (s.onWarp (warpKey core slot warp) fun w => { w with mwait := none }) (warpKey core slot warp)
        ⟨0x0C, mwaitLanes w, m.va.toNat⟩ (w.lane ((mwaitLanes w).headD 0)).pc (w.lane ((mwaitLanes w).headD 0)).rep ∧
      ∀ l, l ∈ mwaitLanes w ↔ atMwait w l) := by
  refine happens_of (fun _ => rfl) fun s ⟨hw, hparked, hm, hhit, hwait, hlate, hstop⟩ => ⟨?_, mem_mwaitLanes w⟩
  have hexp : mwaitExpired s w = true := by
    have hnot : mwaitWoken w = false := by
      rw [Bool.eq_false_iff, Ne, mwaitWoken_iff]
      rintro ⟨-, h⟩
      rw [h m hm] at hhit
      cases hhit
    simp [mwaitExpired, hstop, (mwaitLanes_isEmpty w).2 hparked, hnot, hwait, hlate]
  simp only [hw, hexp, if_true, hm]

theorem monitorTimeout_idle (core slot warp : Nat) : Idle (.monitorTimeout core slot warp) fun s => ∀ w,
    s.warpAt (warpKey core slot warp) = some w → monitorHit w ∨ w.stop ≠ .none ∨ ∀ e, w.mwait = some e → s.clk.ref.toNat ≤ e := by
  refine idle_of (fun _ => rfl) fun s h => ?_
  cases hw : s.warpAt (warpKey core slot warp) with
  | none => rfl
  | some w =>
    refine if_neg fun hexp => ?_
    unfold mwaitExpired at hexp
    simp only [Bool.and_eq_true, Bool.not_eq_true', beq_iff_eq, mwaitLanes_isEmpty] at hexp
    obtain ⟨⟨⟨hstop, hparked⟩, hwoken⟩, hlate⟩ := hexp
    rcases h w hw with h | h | h
    · rw [(mwaitWoken_iff w).2 ⟨hparked, h⟩] at hwoken
      cases hwoken
    · exact h hstop
    · cases hm : w.mwait with
      | none => simp [hm] at hlate
      | some e =>
        have := h e hm
        simp [hm] at hlate
        omega

/-! Imprecise store faults (R262). -/

/-- The fault of a store is marked as reported. -/
def State.markFault (s : State) (f : StoreFault) : State :=
  { s with faults := s.faults.map fun x => if x = f then { x with reported := true } else x }

theorem exec_storeFault {s : State} {core : Nat} {f : StoreFault} (h : nextFault s core = some f) :
    exec (.impreciseStoreFault core) s = .next (storeFaultEffect s f) := by
  show Host.Outcome.next _ = _
  rw [h]

theorem storeFault_reported (s : State) (f : StoreFault) (h : f.reported = false) : storeFaultEffect s f =
    match faultWarp (storeReport (s.markFault f) f) f with
    | some _ => endRun (storeReport (s.markFault f) f) f.warp
    | none => { storeReport (s.markFault f) f with
      faults := (storeReport (s.markFault f) f).faults.filter (· != { f with reported := true }) } := by
  unfold storeFaultEffect State.markFault
  simp only [h, Bool.not_false, if_true, beq_iff_eq] <;> rfl

theorem storeFault_trap {s : State} {f : StoreFault} {w : Warp} (h : f.reported = true) (hw : faultWarp s f = some w) :
    storeFaultEffect s f = trapEntry { s with faults := s.faults.erase f } f.warp ⟨0x20, (nextGroup w).2.2, f.pa⟩ (nextGroup w).1 (nextGroup w).2.1 := by
  have hw' : faultWarp { s with faults := s.faults.erase f } f = some w := hw
  unfold storeFaultEffect
  simp only [h, Bool.not_true, Bool.false_eq_true, if_false, hw']

theorem storeFault_left {s : State} {f : StoreFault} (h : f.reported = true) (hw : faultWarp s f = none) :
    storeFaultEffect s f = { s with faults := s.faults.erase f } := by
  have hw' : faultWarp { s with faults := s.faults.erase f } f = none := hw
  unfold storeFaultEffect
  simp only [h, Bool.not_true, Bool.false_eq_true, if_false, hw']

theorem storeFault_idle (core : Nat) : Idle (.impreciseStoreFault core) fun s => s.faults = [] := by
  intro s h
  have hn : nextFault s core = none := by simp [nextFault, h]
  show Host.Outcome.next _ = _
  rw [hn]

/-- Settles O36, event by event. -/
theorem warpEvents : Obligations.WarpEvents := by
  refine ⟨fun core slot warp => ⟨warpChoice_begins core slot, warpChoice_spares core slot, warpChoice_idle core slot, cut_ends core slot,
    cut_idle core slot, fun w x s hs => ?_, siblingStop_idle core slot warp⟩,
    fun core slot warp => ⟨mwaitWake_wakes core slot warp, mwaitWake_idle core slot warp, monitorTimeout_traps core slot warp,
      monitorTimeout_idle core slot warp⟩,
    fun core f w => ⟨fun s ⟨hn, hr, hw⟩ => ⟨_, exec_storeFault hn, ?_⟩, fun s ⟨hn, hr, hw⟩ => ⟨_, exec_storeFault hn, ?_⟩,
      fun s ⟨hn, hr, hw⟩ => ⟨_, exec_storeFault hn, storeFault_trap hr hw⟩, fun s ⟨hn, hr, hw⟩ => ⟨_, exec_storeFault hn, storeFault_left hr hw⟩,
      storeFault_idle core⟩⟩
  · obtain ⟨t, ht, rfl⟩ := siblingStop_stops core slot warp w x s hs
    obtain ⟨hrest, hstop, hlatch, htrap⟩ := stopWarp_stopped x w
    exact ⟨_, ht, stopWarp x w, warpAt_setWarp_self .., hrest, hstop, hlatch, htrap, fun k hk => warpAt_setWarp_ne _ _ hk, rfl⟩
  · rw [storeFault_reported s f hr, show faultWarp (storeReport (s.markFault f) f) f = some w from hw]; rfl
  · rw [storeFault_reported s f hr, show faultWarp (storeReport (s.markFault f) f) f = none from hw]; rfl

end Sys2Proof.Machine
end

section
/-! What a write by the package's own hardware leaves alone: it changes the memories behind the cores, and may hit monitors (R114, R115, R261). -/

namespace Sys2Proof.Machine

/-- A warp but for its monitor. -/
def Warp.unwatched (w : Warp) : Warp := { w with monitor := none }

theorem Warp.eq_of_unwatched {w u : Warp} (h : u.unwatched = w.unwatched) : u = { w with monitor := u.monitor } := by
  obtain ⟨⟩ := w
  obtain ⟨⟩ := u
  simp only [Warp.unwatched, Warp.mk.injEq] at h ⊢
  simpa using h

/-- t is s after writes to the pool: the homes and their copies may differ, and monitors may have been hit. -/
structure HomeWritten (s t : State) : Prop where
  rest : t = { s with thr := { s.thr with warps := t.thr.warps }, mem := t.mem, counts := t.counts, dram := t.dram, fresh := t.fresh }
  mem : t.mem = { s.mem with hbm := t.mem.hbm, l2 := t.mem.l2, l1 := t.mem.l1, updates := t.mem.updates, notices := t.mem.notices }
  warps : ∀ k, (t.warpAt k).map Warp.unwatched = (s.warpAt k).map Warp.unwatched

namespace HomeWritten

theorem refl (s : State) : HomeWritten s s := ⟨rfl, rfl, fun _ => rfl⟩

theorem trans {s t u : State} (h : HomeWritten s t) (h' : HomeWritten t u) : HomeWritten s u :=
  ⟨by rw [h'.rest, h.rest], by rw [h'.mem, h.mem], fun k => (h'.warps k).trans (h.warps k)⟩

/-- A fold of such writes is one. -/
theorem foldl {f : State → α → State} (hf : ∀ s x, HomeWritten s (f s x)) (s : State) (xs : List α) : HomeWritten s (xs.foldl f s) := by
  induction xs generalizing s with
  | nil => exact refl s
  | cons x xs ih => exact (hf s x).trans (ih _)

theorem warp {s t : State} (h : HomeWritten s t) {k : Nat} {w : Warp} (hw : s.warpAt k = some w) :
    ∃ m, t.warpAt k = some { w with monitor := m } := by
  have hk := h.warps k
  rw [hw, Option.map_some] at hk
  obtain ⟨u, hu, he⟩ := Option.map_eq_some_iff.1 hk
  exact ⟨u.monitor, by rw [hu, ← Warp.eq_of_unwatched he]⟩

/-- Only memory, counters and banks have changed. -/
theorem of_mem {s t : State} (hr : t = { s with mem := t.mem, counts := t.counts, dram := t.dram, fresh := t.fresh })
    (hm : t.mem = { s.mem with hbm := t.mem.hbm, l2 := t.mem.l2, l1 := t.mem.l1, updates := t.mem.updates, notices := t.mem.notices }) :
    HomeWritten s t := by
  refine ⟨?_, hm, fun k => ?_⟩
  · rw [hr]
  · rw [hr]; rfl

theorem wakeCore (s : State) (core line : Nat) : HomeWritten s (s.wakeCore core line) := by
  refine ⟨rfl, rfl, fun k => ?_⟩
  unfold State.warpAt State.wakeCore
  dsimp only
  generalize s.thr.warps = ws
  induction ws with
  | nil => rfl
  | cons x ws ih =>
    obtain ⟨j, w⟩ := x
    simp only [List.map_cons, NMap.find]
    split
    · simp only [Option.map_some, Option.some.injEq]
      split <;> rfl
    · exact ih

theorem dramRequest (s : State) (line : Nat) : HomeWritten s (s.dramRequest line) := of_mem rfl rfl

theorem loseL1 (s : State) (core line : Nat) (notice : Bool) : HomeWritten s (s.loseL1 core line notice) := by
  unfold State.loseL1
  split
  · exact refl s
  · have hdrop : HomeWritten s ((s.dropL1 core line).wakeCore core line) := (of_mem rfl rfl : HomeWritten s (s.dropL1 core line)).trans (wakeCore ..)
    dsimp only
    split
    · exact hdrop.trans (of_mem rfl rfl)
    · exact hdrop

theorem writeSectors (s : State) (line : Nat) (l : L2Line) : HomeWritten s (writeSectors s line l) := by
  unfold Machine.writeSectors
  refine (dramRequest s line).trans (foldl (fun s k => ?_) ..)
  split
  · exact of_mem rfl rfl
  · exact refl s

theorem writeBack (s : State) (line : Nat) (l : L2Line) : HomeWritten s (writeBack s line l) := by
  unfold Machine.writeBack
  split
  · exact refl s
  · dsimp only
    split
    · exact (writeSectors ..).trans (writeSectors ..)
    · exact writeSectors ..

theorem makeWay (s : State) (line : Nat) : HomeWritten s (s.makeWay line) := by
  unfold State.makeWay victimEffect
  split
  · exact refl s
  · split
    · exact refl s
    · exact ((foldl (fun s c => loseL1 s c _ false) ..).trans (writeBack ..)).trans (of_mem rfl rfl)

theorem sliceWrite (s : State) (pa : Nat) (bs : List Byte) (p : Bool) : HomeWritten s (s.sliceWrite pa bs p) := by
  unfold State.sliceWrite
  dsimp only
  split <;> exact of_mem rfl rfl

theorem updates (s : State) (us : NMap Update) : HomeWritten s { s with mem := { s.mem with updates := us } } := of_mem rfl rfl

theorem onHbm (s : State) (f : Mem → Mem) : HomeWritten s (s.onHbm f) := of_mem rfl rfl

theorem onL1 (s : State) (core line : Nat) (f : L1Line → L1Line) : HomeWritten s (s.onL1 core line f) := of_mem rfl rfl

theorem request_if (c : Prop) [Decidable c] (s : State) (line : Nat) : HomeWritten s (if c then s.dramRequest line else s) := by
  split
  · exact dramRequest ..
  · exact refl s

/-- The bytes go to the slice, to the stack, or nowhere. -/
theorem placed (s : State) (pa : Nat) (bs : List Byte) (p : Bool) : HomeWritten s
    (if sliceHasWay s (lineOf pa) then s.sliceWrite pa bs p else if s.dieDead pa then s else s.onHbm fun m => m.writePoison 32 pa bs p) := by
  split
  · exact sliceWrite ..
  · split
    · exact refl s
    · exact onHbm ..

theorem slicePut (s : State) (pa : Nat) (bs : List Byte) (p : Bool) : HomeWritten s (s.slicePut pa bs p) := by
  unfold State.slicePut
  exact (makeWay s (lineOf pa)).trans ((request_if ..).trans (placed ..))

/-- A write of a line delivered to the copies of the cores. -/
theorem delivered (s : State) (line : Nat) (f : L1Line → L1Line) :
    HomeWritten s ((List.range 128).foldl (fun s c => (s.onL1 c line f).wakeCore c line) s) :=
  foldl (fun s c => (onL1 s c line f).trans (wakeCore ..)) ..

theorem hwWriteLine (s : State) (pa : Nat) (bs : List Byte) (p : Bool) : HomeWritten s (s.hwWriteLine pa bs p) := by
  unfold State.hwWriteLine
  exact (slicePut s pa bs p).trans ((updates ..).trans (delivered ..))

theorem hwWrite (s : State) (pa : Nat) (bs : List Byte) (p : Bool) : HomeWritten s (s.hwWrite pa bs p) := by
  unfold State.hwWrite
  refine foldl (fun s ⟨o, a, n⟩ => ?_) s _
  dsimp only
  exact hwWriteLine ..

theorem pageWrite (s : State) (e : TlbEntry) (va : Nat) (bs : List Byte) : HomeWritten s (s.pageWrite e va bs) := by
  unfold State.pageWrite
  dsimp only
  split
  · exact (hwWrite ..).trans (hwWrite ..)
  · exact hwWrite ..

end HomeWritten

end Sys2Proof.Machine
end

section
/-! Lane failures and the switch of the spare lane (R17, R260). -/

namespace Sys2Proof.Machine

/-! Writes of several registers. -/

/-- Write a list of physical registers. -/
def State.setRegs (s : State) (ws : List (Nat × PWord)) : State := ws.foldl (fun s x => s.setReg x.1 x.2) s

theorem setRegs_append (s : State) (xs ys : List (Nat × PWord)) : s.setRegs (xs ++ ys) = (s.setRegs xs).setRegs ys := List.foldl_append

theorem setRegs_rest (s : State) (ws : List (Nat × PWord)) :
    s.setRegs ws = { s with thr := { s.thr with regs := (s.setRegs ws).thr.regs } } := by
  induction ws generalizing s with
  | nil => rfl
  | cons x ws ih => exact (ih (s.setReg x.1 x.2)).trans rfl

@[simp] theorem setRegs_mem (s : State) (ws : List (Nat × PWord)) : (s.setRegs ws).mem = s.mem := by rw [setRegs_rest]

@[simp] theorem warpAt_setRegs (s : State) (ws : List (Nat × PWord)) (k : Nat) : (s.setRegs ws).warpAt k = s.warpAt k := by rw [setRegs_rest]; rfl

theorem setRegs_onWarp (s : State) (ws : List (Nat × PWord)) (k : Nat) (f : Warp → Warp) :
    (s.onWarp k f).setRegs ws = (s.setRegs ws).onWarp k f := by
  induction ws generalizing s with
  | nil => rfl
  | cons x ws ih => exact ih (s.setReg x.1 x.2)

theorem reg_setRegs_of_not_mem (s : State) (ws : List (Nat × PWord)) (k : Nat) (h : ∀ x ∈ ws, x.1 ≠ k) : (s.setRegs ws).reg k = s.reg k := by
  induction ws generalizing s with
  | nil => rfl
  | cons x ws ih =>
    obtain ⟨hx, hws⟩ := List.forall_mem_cons.1 h
    exact (ih (s.setReg x.1 x.2) hws).trans (reg_setReg_ne _ _ hx.symm)

/-- A register that is written, with one value however often, holds it. -/
theorem reg_setRegs (s : State) (ws : List (Nat × PWord)) (k : Nat) (v : PWord) (hm : (k, v) ∈ ws) (hone : ∀ x ∈ ws, x.1 = k → x.2 = v) :
    (s.setRegs ws).reg k = v := by
  induction ws generalizing s with
  | nil => cases hm
  | cons x ws ih =>
    obtain ⟨hx, hws⟩ := List.forall_mem_cons.1 hone
    by_cases hin : (k, v) ∈ ws
    · exact ih (s.setReg x.1 x.2) hin hws
    · obtain rfl : (k, v) = x := (List.mem_cons.1 hm).resolve_right hin
      have hout : ∀ y ∈ ws, y.1 ≠ k := fun y hy he => hin (by rw [← he, ← hws y hy he]; exact hy)
      exact (reg_setRegs_of_not_mem (s.setReg k v) ws k hout).trans (reg_setReg_self ..)

theorem regKey_inj {core slot l m a b : Nat} (hl : l < 33) (hm : m < 33) (h : regKey core slot l a = regKey core slot m b) : l = m ∧ a = b := by
  unfold regKey packageLanes at h
  omega

/-- Copying a range of registers to another lane. -/
theorem copyRange_eq (s : State) {core slot base size src tgt : Nat} (hs : src < 33) (ht : tgt < 33) (hne : src ≠ tgt) :
    copyRange s core slot base size src tgt = s.setRegs ((List.range size).map fun i =>
      (regKey core slot tgt (32 * base + i), s.reg (regKey core slot src (32 * base + i)))) := by
  unfold copyRange State.setRegs
  rw [List.foldl_map]
  have key : ∀ (is : List Nat) (u : State), (∀ i, u.reg (regKey core slot src (32 * base + i)) = s.reg (regKey core slot src (32 * base + i))) →
      is.foldl (fun s i => s.setReg (regKey core slot tgt (32 * base + i)) (s.reg (regKey core slot src (32 * base + i)))) u =
      is.foldl (fun t i => t.setReg (regKey core slot tgt (32 * base + i)) (s.reg (regKey core slot src (32 * base + i)))) u := by
    intro is
    induction is with
    | nil => exact fun _ _ => rfl
    | cons i is ih =>
      intro u hu
      rw [List.foldl_cons, List.foldl_cons, hu i]
      exact ih _ fun j => (reg_setReg_ne _ _ fun e => hne (regKey_inj hs ht e).1).trans (hu j)
  exact key _ s fun _ => rfl

theorem poisonRange_eq (s : State) (core slot base size lane : Nat) :
    poisonRange s core slot base size lane = s.setRegs ((List.range size).map fun i => (regKey core slot lane (32 * base + i), ⟨0, true⟩)) := by
  unfold poisonRange State.setRegs
  rw [List.foldl_map]

/-- A range of a lane that is written holds what was written. -/
theorem reg_range (s : State) {core slot base size lane : Nat} (hl : lane < 33) (f : Nat → PWord) {i : Nat} (hi : i < size) :
    (s.setRegs ((List.range size).map fun i => (regKey core slot lane (32 * base + i), f i))).reg (regKey core slot lane (32 * base + i)) = f i := by
  refine reg_setRegs _ _ _ _ (List.mem_map.2 ⟨i, List.mem_range.2 hi, rfl⟩) fun x hx he => ?_
  obtain ⟨j, -, rfl⟩ := List.mem_map.1 hx
  have := (regKey_inj hl hl he).2
  obtain rfl : j = i := by omega
  rfl

/-! Lane failures. -/

theorem laneFailure_live {core slot lane : Nat} {s : State} (hc : core < 128) (hn : slot < 8) (hf : (s.slotAt core slot).failed = false)
    (hu : laneInUse (s.slotAt core slot) lane = true) : exec (.laneFailure core slot lane) s = .next
      (let t := match (s.slotAt core slot).running with
        | some n => endRun s (warpKey core slot n)
        | none => s
      match (s.slotAt core slot).spare with
      | none => reportSystem (t.onSlot core slot fun x => { x with spare := some lane })
          { Report.blank 0x25 with core := core, slot := slot, addr := lane }
      | some _ =>
        let u := (t.onSlot core slot fun x => { x with failed := true }).requestReplacement 1
        (slotGroups u core slot).foldl (fun s wg => killGroup s wg 4) u) := by
  show Host.Outcome.next (if (decide (core < 128) && decide (slot < 8)) = true then laneFailureEffect s core slot lane else s) = _
  rw [if_pos (by simp [hc, hn])]
  unfold laneFailureEffect
  simp only [hf, hu, Bool.not_true, Bool.or_self, Bool.false_eq_true, if_false] <;> rfl

/-- The first failure of a lane in use. -/
theorem laneFailure_first (core slot lane : Nat) : Happens (.laneFailure core slot lane)
    (fun s => core < 128 ∧ slot < 8 ∧ (s.slotAt core slot).failed = false ∧ (s.slotAt core slot).spare = none ∧ lane < 32)
    (fun s t => t = reportSystem ((match (s.slotAt core slot).running with
        | some n => endRun s (warpKey core slot n)
        | none => s).onSlot core slot fun x => { x with spare := some lane }) ⟨0x25, false, 0, 0, 0, 0, 0, core, slot, lane, 0, 0⟩) := by
  intro s ⟨hc, hn, hf, hs, hl⟩
  refine ⟨_, laneFailure_live hc hn hf (by simp [laneInUse, hs, hl]), ?_⟩
  dsimp only
  rw [hs] <;> rfl

/-- The second failure of a slot. -/
theorem laneFailure_second (core slot lane l : Nat) : Happens (.laneFailure core slot lane)
    (fun s => core < 128 ∧ slot < 8 ∧ (s.slotAt core slot).failed = false ∧ (s.slotAt core slot).spare = some l ∧ lane ≤ 32 ∧ lane ≠ l)
    (fun s t =>
      let u := (match (s.slotAt core slot).running with
        | some n => endRun s (warpKey core slot n)
        | none => s).onSlot core slot fun x => { x with failed := true }
      t = (slotGroups u core slot).foldl (fun s wg => killGroup s wg 4)
        { u with att := { u.att with replacement := true, cause := if u.att.cause = 0 then 1 else u.att.cause } }) := by
  intro s ⟨hc, hn, hf, hs, hl, hne⟩
  refine ⟨_, laneFailure_live hc hn hf (by simp [laneInUse, hs, hl, hne]), ?_⟩
  dsimp only
  rw [hs]
  generalize State.onSlot _ core slot (fun x : Slot => { x with failed := true }) = u
  have hr : u.requestReplacement 1 = { u with att := { u.att with replacement := true, cause := if u.att.cause = 0 then 1 else u.att.cause } } := by
    unfold State.requestReplacement
    simp only [beq_iff_eq]
  have hg : slotGroups (u.requestReplacement 1) core slot = slotGroups u core slot := rfl
  dsimp only
  rw [hg, hr]

theorem laneFailure_idle (core slot lane : Nat) : Idle (.laneFailure core slot lane) fun s => 128 ≤ core ∨ 8 ≤ slot ∨
    (s.slotAt core slot).failed = true ∨ 32 < lane ∨ (s.slotAt core slot).spare = some lane ∨
    ((s.slotAt core slot).spare = none ∧ lane = 32) := by
  intro s h
  show Host.Outcome.next (if (decide (core < 128) && decide (slot < 8)) = true then laneFailureEffect s core slot lane else s) = _
  by_cases hp : (decide (core < 128) && decide (slot < 8)) = true
  · rw [if_pos hp]
    have hdead : ((s.slotAt core slot).failed || !laneInUse (s.slotAt core slot) lane) = true := by
      simp only [Bool.and_eq_true, decide_eq_true_eq] at hp
      unfold laneInUse
      rcases h with h | h | h | h | h | ⟨h, rfl⟩
      · omega
      · omega
      · simp [h]
      · have h1 : ¬ lane < 32 := by omega
        have h2 : ¬ lane ≤ 32 := by omega
        cases (s.slotAt core slot).spare <;> simp [h1, h2]
      · simp [h]
      · simp [h]
    unfold laneFailureEffect
    dsimp only
    rw [if_pos hdead]
  · rw [if_neg hp]

/-! The switch of the spare lane. -/

/-- The spare lane is due for warp w, in the place of thread position l. -/
structure SpareDue (core slot warp l : Nat) (w : Warp) (s : State) : Prop where
  warp : s.warpAt (warpKey core slot warp) = some w
  run : w.run = none
  snapshot : w.snapshot = false
  spare : (s.slotAt core slot).spare = some l
  other : w.spared ≠ some l

theorem spareLaneSwitch_due {core slot warp l : Nat} {w : Warp} {s : State} (h : SpareDue core slot warp l w s) :
    exec (.spareLaneSwitch core slot warp) s = .next (recoverLane (s.setWarp (warpKey core slot warp) { w with spared := some l })
      core slot warp { w with spared := some l } l) := by
  have hready : spareReady s core slot w = true := by simp [spareReady, h.run, h.snapshot, h.spare, h.other]
  show Host.Outcome.next _ = _
  rw [h.warp]
  dsimp only
  rw [if_pos hready]
  unfold spareEffect
  rw [h.spare]

variable {core slot warp l : Nat} {w : Warp} {s : State}

/-- No thread stands on the lane. -/
theorem spareLaneSwitch_absent (h : SpareDue core slot warp l w s) (ht : ¬ ((w.lane l).present = true ∧ (w.lane l).exited = false)) :
    exec (.spareLaneSwitch core slot warp) s = .next (s.setWarp (warpKey core slot warp) { w with spared := some l }) := by
  rw [spareLaneSwitch_due h]
  have hgone : (!(w.lane l).present || (w.lane l).exited) = true := by
    cases hp : (w.lane l).present <;> cases he : (w.lane l).exited <;> simp_all
  unfold recoverLane
  exact congrArg Host.Outcome.next (if_pos hgone)

/-- A thread that its partner's lane restores. -/
theorem recoverLane_protected {u : State} (hp : (w.lane l).present = true) (he : (w.lane l).exited = false) (hm : w.protected' = true) :
    recoverLane u core slot warp w l = (copyRange u core slot w.base w.size (w.phys (if l % 2 = 0 then l + 1 else l - 1)) (w.phys l)).onLanes
      (warpKey core slot warp) [l] fun _ => w.lane (if l % 2 = 0 then l + 1 else l - 1) := by
  unfold recoverLane
  simp only [hp, he, hm, Bool.not_true, Bool.or_self, Bool.false_eq_true, if_false, if_true, beq_iff_eq]

/-- A thread that is lost. -/
theorem recoverLane_unprotected {u : State} (hp : (w.lane l).present = true) (he : (w.lane l).exited = false) (hm : w.protected' = false) :
    recoverLane u core slot warp w l =
      if w.rings.isEmpty then killWith (poisonRange u core slot w.base w.size (w.phys l)) w.wg (killReport (warpKey core slot warp) w 3 0)
      else (poisonRange u core slot w.base w.size (w.phys l)).onWarp (warpKey core slot warp)
        fun w => { w with rollback := some (w.rollback.getD false) } := by
  unfold recoverLane
  simp only [hp, he, hm, Bool.not_true, Bool.or_self, Bool.false_eq_true, if_false]

theorem phys_spared (w : Warp) (l : Nat) : ({ w with spared := some l } : Warp).phys l = 32 := if_pos rfl

theorem spareLaneSwitch_protected (hl : l < 32) (h : SpareDue core slot warp l w s) (hp : (w.lane l).present = true)
    (he : (w.lane l).exited = false) (hm : w.protected' = true) : ∃ t, exec (.spareLaneSwitch core slot warp) s = .next t ∧
      (∀ i < w.size, t.reg (regKey core slot 32 (32 * w.base + i)) =
        s.reg (regKey core slot (if l % 2 = 0 then l + 1 else l - 1) (32 * w.base + i))) ∧
      ∃ u, t.warpAt (warpKey core slot warp) = some u ∧ u = { w with lanes := u.lanes, spared := some l } ∧
        (l < w.lanes.length → u.lane l = w.lane (if l % 2 = 0 then l + 1 else l - 1)) := by
  generalize hpair : (if l % 2 = 0 then l + 1 else l - 1) = pair
  have hne : pair ≠ l := by rw [← hpair]; split <;> omega
  have hlt : pair < 32 := by rw [← hpair]; split <;> omega
  have hphys : ({ w with spared := some l } : Warp).phys pair = pair := if_neg (by simpa using hne.symm)
  refine ⟨_, spareLaneSwitch_due h, ?_⟩
  rw [recoverLane_protected (w := { w with spared := some l }) hp he hm, phys_spared, hpair, hphys,
    copyRange_eq _ (by omega) (by omega) (by omega)]
  refine ⟨fun i hi => ?_, ?_⟩
  · rw [reg_onLanes]
    exact reg_range (s.setWarp _ _) (by omega) (fun i => s.reg (regKey core slot pair (32 * w.base + i))) hi
  · refine ⟨({ w with spared := some l } : Warp).onLanes [l] fun _ => w.lane pair, ?_, ?_, fun hlen => ?_⟩
    · rw [warpAt_onLanes_self, warpAt_setRegs, warpAt_setWarp_self]; rfl
    · exact (onLanes_rest ..).trans rfl
    · exact lane_onLanes_of_mem _ _ _ _ (List.nodup_singleton l) List.mem_cons_self hlen

theorem spareLaneSwitch_ring (h : SpareDue core slot warp l w s) (hp : (w.lane l).present = true)
    (he : (w.lane l).exited = false) (hm : w.protected' = false) (hr : w.rings ≠ []) : ∃ t, exec (.spareLaneSwitch core slot warp) s = .next t ∧
      (∀ i < w.size, t.reg (regKey core slot 32 (32 * w.base + i)) = ⟨0, true⟩) ∧
      t.warpAt (warpKey core slot warp) = some { w with spared := some l, rollback := some (w.rollback.getD false) } := by
  refine ⟨_, spareLaneSwitch_due h, ?_⟩
  rw [recoverLane_unprotected (w := { w with spared := some l }) hp he hm, if_neg (by simpa using hr), phys_spared, poisonRange_eq]
  refine ⟨fun i hi => ?_, by simp⟩
  rw [reg_onWarp]
  exact reg_range (s.setWarp _ _) (by omega) (fun _ => ⟨0, true⟩) hi

theorem spareLaneSwitch_kill (h : SpareDue core slot warp l w s) (hp : (w.lane l).present = true)
    (he : (w.lane l).exited = false) (hm : w.protected' = false) (hr : w.rings = []) : ∃ t, exec (.spareLaneSwitch core slot warp) s = .next t ∧
      ∃ u, (∀ i < w.size, u.reg (regKey core slot 32 (32 * w.base + i)) = ⟨0, true⟩) ∧ u.mem = s.mem ∧
        u.warpAt (warpKey core slot warp) = some { w with spared := some l } ∧
        t = killWith u w.wg { Report.blank 0x26 with detail := 3, lsn := w.lsn.toNat, slot := warpKey core slot warp / 8 % 8, depth := w.rings.length } := by
  refine ⟨_, spareLaneSwitch_due h, ?_⟩
  rw [recoverLane_unprotected (w := { w with spared := some l }) hp he hm, if_pos (by simp [hr]), phys_spared, poisonRange_eq]
  refine ⟨_, fun i hi => reg_range (s.setWarp _ _) (by omega) (fun _ => ⟨0, true⟩) hi, by simp, by simp, rfl⟩

theorem spareLaneSwitch_idle (core slot warp : Nat) : Idle (.spareLaneSwitch core slot warp) fun s => ∀ u,
    s.warpAt (warpKey core slot warp) = some u → u.run ≠ none ∨ u.snapshot = true ∨ u.spared = (s.slotAt core slot).spare := by
  refine idle_of (fun _ => rfl) fun s h => ?_
  cases hw : s.warpAt (warpKey core slot warp) with
  | none => rfl
  | some w =>
    refine if_neg fun hready => ?_
    unfold spareReady at hready
    simp only [Bool.and_eq_true, Option.isNone_iff_eq_none, Bool.not_eq_true', bne_iff_ne] at hready
    obtain ⟨⟨hrun, hsnap⟩, hspare⟩ := hready
    rcases h w hw with h | h | h
    · exact h hrun
    · rw [h] at hsnap; cases hsnap
    · exact hspare h

end Sys2Proof.Machine
end

section
/-! The rollback of a ring level (R151, R219, R258, R259). -/

namespace Sys2Proof.Machine

/-! The kept records: writing them back changes no warp but for its monitor. -/

theorem restoreRecord_warps {s t : State} {core : Nat} {w : Warp} {o len : Nat} (h : restoreRecord s core w o len = some t) {k : Nat} {v : Warp}
    (hv : s.warpAt k = some v) : ∃ m, t.warpAt k = some { v with monitor := m } := by
  unfold restoreRecord at h
  dsimp only at h
  split at h
  · split at h
    · cases h
    · cases h
      exact ⟨v.monitor, hv⟩
  · obtain ⟨ps, -, rfl⟩ := Option.map_eq_some_iff.1 h
    refine HomeWritten.warp (HomeWritten.foldl (fun s ⟨a, m, e⟩ => ?_) s ps) hv
    exact HomeWritten.pageWrite ..

theorem restoreRecords_warps {core : Nat} {w : Warp} {rs : List (Nat × Nat)} {s t : State} {bad : Bool} (h : restoreRecords s core w rs = (t, bad))
    {k : Nat} {v : Warp} (hv : s.warpAt k = some v) : ∃ m, t.warpAt k = some { v with monitor := m } := by
  induction rs generalizing s v with
  | nil => cases h; exact ⟨v.monitor, hv⟩
  | cons x rs ih =>
    obtain ⟨o, len⟩ := x
    unfold restoreRecords at h
    split at h
    · cases h; exact ⟨v.monitor, hv⟩
    · next u hu =>
      obtain ⟨m, hm⟩ := restoreRecord_warps hu hv
      obtain ⟨m', hm'⟩ := ih h hm
      exact ⟨m', hm'⟩

/-! The register block of a level: one record a lane (R219). -/

/-- Word i of lane l's record. -/
def recordWord (s : State) (core : Nat) (w : Warp) (r : RingLevel) (l i : Nat) : Nat :=
  (s.scratchField core (w.segs.sbase.toNat + r.logStart + 16 + (4 * (maskBits r.mask).length + 16) * l + 4 * i) 4).1

/-- The word of a lane's record that holds its predicates, flags and window. -/
def recordFlags (s : State) (core : Nat) (w : Warp) (r : RingLevel) (l : Nat) : Nat := recordWord s core w r l ((maskBits r.mask).length + 1)

/-- The window of a lane's record. -/
def recordWindow (s : State) (core : Nat) (w : Warp) (r : RingLevel) (l : Nat) : Nat := recordFlags s core w r l / 2 ^ 19 % 16

/-- The opening point of a lane's record. -/
def recordOpening (s : State) (core : Nat) (w : Warp) (r : RingLevel) (l : Nat) : Nat :=
  (s.scratchField core (w.segs.sbase.toNat + r.logStart + 16 + (4 * (maskBits r.mask).length + 16) * l + 4 * (maskBits r.mask).length + 8) 8).1

/-- The registers that a lane's record restores, as far as they lie in the range. -/
def recordRegs (s : State) (core slot : Nat) (w : Warp) (r : RingLevel) (l : Nat) : List (Nat × PWord) :=
  ((maskBits r.mask).zipIdx.filter fun x => 32 * recordWindow s core w r l + x.1 < w.size).map fun x =>
    (physReg core slot w l (32 * recordWindow s core w r l + x.1),
      ⟨BitVec.ofNat 32 (recordWord s core w r l x.2), (recordWord s core w r l (maskBits r.mask).length).testBit x.1⟩)

/-- A lane as its record restores it. -/
def recordLane (s : State) (core : Nat) (w : Warp) (r : RingLevel) (l : Nat) (x : Lane) : Lane :=
  let f := recordFlags s core w r l
  let x := { x with preds := BitVec.ofNat 7 f, predPoison := BitVec.ofNat 7 (f / 2 ^ 7), flags := BitVec.ofNat 5 (f / 2 ^ 14) }
  if x.exited then x
  else { x with
    pc := codeAddr (BitVec.ofNat 64 (recordOpening s core w r l)), rep := 0, window := recordWindow s core w r l, commits := [], park := none
    loads := [], replayFault := none }

/-- What a lane's restoration reads of its warp. -/
structure SameRange (w v : Warp) : Prop where
  segs : v.segs = w.segs
  base : v.base = w.base
  sizeCode : v.sizeCode = w.sizeCode
  spared : v.spared = w.spared

theorem SameRange.physReg {w v : Warp} (h : SameRange w v) (core slot l n : Nat) : physReg core slot v l n = physReg core slot w l n := by
  unfold Machine.physReg Warp.phys
  rw [h.base, h.spared]

theorem setRegs_filter (xs : List α) (p : α → Prop) [DecidablePred p] (f : α → Nat × PWord) (s : State) :
    xs.foldl (fun s x => if p x then s.setReg (f x).1 (f x).2 else s) s = s.setRegs ((xs.filter fun x => p x).map f) := by
  unfold State.setRegs
  rw [List.foldl_map, List.foldl_filter]
  simp only [decide_eq_true_eq]

/-- Restoring a lane writes its registers and the lane. -/
theorem restoreLane_eq {s : State} {core slot n l : Nat} {r : RingLevel} {w v : Warp} (hv : s.warpAt (warpKey core slot n) = some v)
    (h : SameRange w v) : restoreLane s core slot n r l =
      (s.setRegs (recordRegs s core slot w r l)).onLanes (warpKey core slot n) [l] (recordLane s core w r l) := by
  have hsize : v.size = w.size := by unfold Warp.size; rw [h.sizeCode]
  unfold restoreLane
  dsimp only
  rw [hv]
  dsimp only
  rw [h.segs, hsize]
  simp only [h.physReg]
  unfold recordRegs
  rw [← setRegs_filter]
  rfl

/-- Restoring lanes one after another. -/
theorem restoreLanes_eq {core slot n : Nat} {r : RingLevel} {w : Warp} {y : State} (ls : List Nat) (s : State)
    (hm : s.mem = y.mem) (hw : ∃ v, s.warpAt (warpKey core slot n) = some v ∧ SameRange w v) :
    ls.foldl (fun s l => restoreLane s core slot n r l) s =
      ls.foldl (fun s l => s.onLanes (warpKey core slot n) [l] (recordLane y core w r l)) (s.setRegs (ls.flatMap (recordRegs y core slot w r))) := by
  induction ls generalizing s with
  | nil => rfl
  | cons l ls ih =>
    obtain ⟨v, hv, hr⟩ := hw
    have hread : ∀ o k, s.scratchField core o k = y.scratchField core o k := by
      intro o k; unfold State.scratchField; rw [hm]
    have hregs : recordRegs s core slot w r l = recordRegs y core slot w r l := by
      unfold recordRegs recordWindow recordFlags recordWord; simp only [hread]
    have hlane : recordLane s core w r l = recordLane y core w r l := by
      unfold recordLane recordOpening recordWindow recordFlags recordWord; simp only [hread]
    rw [List.foldl_cons, restoreLane_eq hv hr, hregs, hlane]
    rw [ih _ (by simpa using hm) ⟨_, by rw [warpAt_onLanes_self, warpAt_setRegs, hv]; rfl, ?_⟩]
    · rw [List.flatMap_cons, setRegs_append, List.foldl_cons]
      unfold State.onLanes
      rw [setRegs_onWarp]
    · show SameRange w (v.onLanes [l] (recordLane y core w r l))
      rw [onLanes_rest]
      exact ⟨hr.segs, hr.base, hr.sizeCode, hr.spared⟩

/-- The registers that several lanes' records restore hold what their records say. -/
theorem reg_recordRegs {core slot : Nat} {r : RingLevel} {w : Warp} {y : State} (s : State) {ls : List Nat} (h32 : ∀ l ∈ ls, l < 32) {l i : Nat}
    (hl : l ∈ ls) (hi : i < (maskBits r.mask).length) (hin : 32 * recordWindow y core w r l + (maskBits r.mask).getD i 0 < w.size) :
    (s.setRegs (ls.flatMap (recordRegs y core slot w r))).reg (physReg core slot w l (32 * recordWindow y core w r l + (maskBits r.mask).getD i 0)) =
      ⟨BitVec.ofNat 32 (recordWord y core w r l i), (recordWord y core w r l (maskBits r.mask).length).testBit ((maskBits r.mask).getD i 0)⟩ := by
  have hnodup : (maskBits r.mask).Nodup := List.Nodup.filter _ List.nodup_range
  have hget : (maskBits r.mask).getD i 0 = (maskBits r.mask)[i] := by simp [List.getD_eq_getElem?_getD, hi]
  rw [hget] at hin ⊢
  refine reg_setRegs _ _ _ _ ?_ fun x hx he => ?_
  · refine List.mem_flatMap.2 ⟨l, hl, List.mem_map.2 ⟨((maskBits r.mask)[i], i), List.mem_filter.2 ⟨?_, by simpa using hin⟩, rfl⟩⟩
    exact List.mem_zipIdx_iff_getElem?.2 (List.getElem?_eq_getElem hi)
  · obtain ⟨m, hm, hx⟩ := List.mem_flatMap.1 hx
    obtain ⟨⟨a, j⟩, ha, rfl⟩ := List.mem_map.1 hx
    obtain ⟨rfl, hreg⟩ := physReg_inj (h32 m hm) (h32 l hl) he
    dsimp only at hreg ⊢
    obtain rfl : a = (maskBits r.mask)[i] := by omega
    have hj : (maskBits r.mask)[j]? = some (maskBits r.mask)[i] := List.mem_zipIdx_iff_getElem?.1 (List.mem_filter.1 ha).1
    obtain ⟨hjl, hj⟩ := List.getElem?_eq_some_iff.1 hj
    obtain rfl : j = i := (List.Nodup.getElem_inj_iff hnodup).1 hj
    rfl

/-! After a handler's retry: the next trap of the work-group. -/

/-- t is s but for other warps and the queues of the host. -/
structure KeepsWarp (k : Nat) (s t : State) : Prop where
  warp : t.warpAt k = s.warpAt k
  regs : t.thr.regs = s.thr.regs
  mem : t.mem = s.mem

theorem KeepsWarp.trans {k : Nat} {s t u : State} (h : KeepsWarp k s t) (h' : KeepsWarp k t u) : KeepsWarp k s u :=
  ⟨h'.warp.trans h.warp, h'.regs.trans h.regs, h'.mem.trans h.mem⟩

theorem KeepsWarp.onWarp {k : Nat} {s : State} {v : Warp} (hv : s.warpAt k = some v) (j : Nat) {f : Warp → Warp} (hf : f v = v) :
    KeepsWarp k s (s.onWarp j f) := by
  refine ⟨?_, rfl, rfl⟩
  by_cases h : k = j
  · subst h; rw [warpAt_onWarp_self, hv, Option.map_some, hf]
  · exact warpAt_onWarp_ne _ _ h

/-- The host's queues are all that raising an event changes. -/
theorem pumpEvents_rest (n : Nat) (s : State) : pumpEvents n s = { s with host := (pumpEvents n s).host } := by
  induction n generalizing s with
  | zero => rfl
  | succ n ih =>
    unfold pumpEvents
    split
    · rfl
    · split
      · rfl
      · exact (ih _).trans rfl

theorem raiseEvent_rest (s : State) (kind die : Nat) (p : List DWord) :
    (raiseEvent s kind die p).1 = { s with host := (raiseEvent s kind die p).1.host, fresh := s.fresh + 1 } := by
  unfold raiseEvent
  exact (pumpEvents_rest _ _).trans rfl

theorem KeepsWarp.raiseEvent (k : Nat) (s : State) (kind die : Nat) (p : List DWord) : KeepsWarp k s (raiseEvent s kind die p).1 := by
  rw [raiseEvent_rest]
  exact ⟨rfl, rfl, rfl⟩

theorem KeepsWarp.ite {k : Nat} {c : Prop} [Decidable c] {s t u : State} (h : KeepsWarp k s t) (h' : KeepsWarp k s u) :
    KeepsWarp k s (if c then t else u) := by
  split
  · exact h
  · exact h'

theorem enterHandler_keeps {k j : Nat} (h : k ≠ j) (s : State) : KeepsWarp k s (enterHandler s j) := by
  unfold enterHandler
  split
  · exact ⟨rfl, rfl, rfl⟩
  · exact KeepsWarp.ite (KeepsWarp.raiseEvent ..) ⟨warpAt_setWarp_ne _ _ h, rfl, rfl⟩

theorem KeepsWarp.onGroup (k : Nat) (s : State) (wg : Nat) (f : WorkGroup → WorkGroup) : KeepsWarp k s (s.onGroup wg f) := ⟨rfl, rfl, rfl⟩

/-- The end of a halt leaves a warp that is not stopped. -/
theorem endHalt_keeps {k : Nat} {s : State} {v : Warp} (hv : s.warpAt k = some v) (hs : v.stop = .none) (wg : Nat) : KeepsWarp k s (endHalt s wg) := by
  unfold endHalt
  split
  · exact ⟨rfl, rfl, rfl⟩
  · next g _ =>
    have key : ∀ (ks : List Nat) (t : State), KeepsWarp k s t → KeepsWarp k s (ks.foldl (fun s k => s.onWarp k fun w =>
        if w.stop == .halted then { w with stop := .none, latch := false }
        else if w.stop == .halting then { w with stop := .none } else w) t) := by
      intro ks
      induction ks with
      | nil => exact fun t ht => ht
      | cons j ks ih =>
        intro t ht
        exact ih _ (ht.trans (KeepsWarp.onWarp (ht.warp.trans hv) j (by simp [hs])))
    exact key _ _ ⟨rfl, rfl, rfl⟩

theorem foldl_min_mem (k : Nat) (ks : List Nat) : ks.foldl min k ∈ k :: ks := by
  induction ks generalizing k with
  | nil => exact List.mem_cons_self
  | cons j ks ih =>
    rw [List.foldl_cons]
    rcases List.mem_cons.1 (ih (min k j)) with h | h
    · rw [h]
      rcases Nat.le_total k j with hle | hle
      · rw [Nat.min_eq_left hle]; exact List.mem_cons_self
      · rw [Nat.min_eq_right hle]; exact List.mem_cons_of_mem _ List.mem_cons_self
    · exact List.mem_cons_of_mem _ (List.mem_cons_of_mem _ h)

/-- The next trap of a work-group leaves a warp that holds none. -/
theorem nextTrap_keeps {k : Nat} {s : State} {v : Warp} (hv : s.warpAt k = some v) (hs : v.stop = .none) (wg : Nat) : KeepsWarp k s (nextTrap s wg) := by
  unfold nextTrap
  split
  · exact ⟨rfl, rfl, rfl⟩
  · next g _ =>
    dsimp only
    split
    · exact endHalt_keeps hv hs wg
    · next j js hw =>
      have hne : k ≠ js.foldl min j := by
        intro he
        have hm : k ∈ j :: js := he ▸ foldl_min_mem j js
        rw [← hw, List.mem_filter, hv] at hm
        simp [hs] at hm
      exact (KeepsWarp.onGroup ..).trans (enterHandler_keeps hne _)

/-! The rollback. -/

theorem ringRollback_ready {core slot warp : Nat} {w : Warp} {s : State} {h : Bool} (hw : s.warpAt (warpKey core slot warp) = some w)
    (hb : w.rollback = some h) (hr : rollbackReady s (warpKey core slot warp) w = true) :
    exec (.ringRollback core slot warp) s = .next (rollbackEffect s core slot warp w h) := by
  show Host.Outcome.next _ = _
  rw [hw]
  dsimp only
  rw [hb]
  exact congrArg Host.Outcome.next (if_pos hr)

theorem ringRollback_idle (core slot warp : Nat) : Idle (.ringRollback core slot warp) fun s => ∀ u, s.warpAt (warpKey core slot warp) = some u →
    u.rollback = none ∨ rollbackReady s (warpKey core slot warp) u = false := by
  refine idle_of (fun _ => rfl) fun s h => ?_
  cases hw : s.warpAt (warpKey core slot warp) with
  | none => rfl
  | some w =>
    dsimp only
    cases hb : w.rollback with
    | none => rfl
    | some x =>
      rcases h w hw with h | h
      · rw [h] at hb; cases hb
      · simp [h]

/-- A kill at a rollback names the instruction that trapped, if one did. -/
theorem killRollback_eq (s : State) (k : Nat) (w : Warp) (h : Bool) (reason : Nat) : killRollback s k w h reason =
    killWith s w.wg { Report.blank 0x26 with
      detail := reason, pc := if h then w.trap.epc.toNat else 0, lsn := w.lsn.toNat, slot := k / 8 % 8, depth := w.rings.length } := by
  cases h <;> rfl

/-- The lanes of a warp that hold threads. -/
def presentLanes (w : Warp) : List Nat := (List.range 32).filter fun l => (w.lane l).present

/-- The warp that a rollback leaves, but for its lanes and for what a handler's retry changes. -/
def rolledBack (w : Warp) (r : RingLevel) : Warp := { w with
  rings := w.rings.dropLast ++ [{ r with attempt := r.attempt + 1 }], logFill := r.logStart, mwait := none, barrier := 0
  blocks := w.blocks.filter fun b => b.1 < r.logStart }

/-- The state that a rollback of a level leaves, before what follows it. -/
def rollbackState (y : State) (core slot n : Nat) (w : Warp) (r : RingLevel) : State :=
  let s := (presentLanes w).foldl (fun s l => restoreLane s core slot n r l) y
  let s := { s with mem := { s.mem with ops := s.mem.ops.filter fun (_, o) => !(o.isLoad && ofWarps [warpKey core slot n] o.agent) } }
  s.onWarp (warpKey core slot n) fun w => rolledBack w r

theorem rollbackEffect_restores {core slot n : Nat} {w : Warp} {s y : State} {h : Bool} {r : RingLevel} (hr : w.rings.getLast? = some r)
    (ha : r.attempt < 3) (hy : restoreRecords s core w (keptRecords s core w 32768 r.logStart).reverse = (y, false)) :
    rollbackEffect s core slot n w h = afterRollback (rollbackState y core slot n w r) (warpKey core slot n) h := by
  unfold rollbackEffect
  rw [hr]
  dsimp only
  rw [if_neg (by omega), hy]
  rfl

/-- What a rollback has restored (R219, R258). -/
structure RolledBack (y t : State) (core slot n : Nat) (w u : Warp) (r : RingLevel) : Prop where
  warp : t.warpAt (warpKey core slot n) = some u
  rest : u = { rolledBack w r with lanes := u.lanes, monitor := u.monitor }
  length : u.lanes.length = w.lanes.length
  lane : ∀ l < 32, (w.lane l).present = true → u.lane l = recordLane y core w r l (w.lane l)
  reg : ∀ l < 32, (w.lane l).present = true → ∀ i < (maskBits r.mask).length,
    32 * recordWindow y core w r l + (maskBits r.mask).getD i 0 < w.size →
    t.vreg core slot w l (32 * recordWindow y core w r l + (maskBits r.mask).getD i 0) =
      ⟨BitVec.ofNat 32 (recordWord y core w r l i), (recordWord y core w r l (maskBits r.mask).length).testBit ((maskBits r.mask).getD i 0)⟩
  mem : t.mem = { y.mem with ops := t.mem.ops }

theorem mem_presentLanes {w : Warp} {l : Nat} : l ∈ presentLanes w ↔ l < 32 ∧ (w.lane l).present = true := by
  unfold presentLanes
  rw [List.mem_filter, List.mem_range]

/-- The restored state. -/
theorem rollbackState_rolledBack {core slot n : Nat} {w : Warp} {y : State} {r : RingLevel} {m : Option Monitor}
    (hy : y.warpAt (warpKey core slot n) = some { w with monitor := m }) (hlen : w.lanes.length = 32) :
    ∃ u, RolledBack y (rollbackState y core slot n w r) core slot n w u r := by
  have hls : ∀ l ∈ presentLanes w, l < 32 := fun l hl => (mem_presentLanes.1 hl).1
  have hnodup : (presentLanes w).Nodup := List.Nodup.filter _ List.nodup_range
  have heq := restoreLanes_eq (r := r) (w := w) (presentLanes w) y rfl ⟨_, hy, rfl, rfl, rfl, rfl⟩
  have hz : (y.setRegs ((presentLanes w).flatMap (recordRegs y core slot w r))).warpAt (warpKey core slot n) = some { w with monitor := m } := by
    rw [warpAt_setRegs, hy]
  have hch : LanesChanged ⟨core, slot, n, presentLanes w, 0, 0, false⟩ { w with monitor := m } _
      ((presentLanes w).foldl (fun s l => s.onLanes (warpKey core slot n) [l] (recordLane y core w r l)) _) fun l => recordLane y core w r l :=
    foldLanes_changed _ hz hnodup fun l hl => by rw [show _ = 32 from hlen]; exact hls l hl
  rw [← heq] at hch
  obtain ⟨⟨u, hu, ur, uc, ul⟩, -, hout⟩ := hch
  refine ⟨rolledBack u r, ?_, ?_, uc, fun l hl hp => ?_, fun l hl hp i hi hin => ?_, ?_⟩
  · unfold rollbackState
    dsimp only
    rw [warpAt_onWarp_self]
    exact congrArg (Option.map fun w => rolledBack w r) hu
  · have hm : u.monitor = m := by rw [ur]
    rw [ur]
    rfl
  · exact (ul l).trans (if_pos (mem_presentLanes.2 ⟨hl, hp⟩))
  · rw [← reg_recordRegs y hls (mem_presentLanes.2 ⟨hl, hp⟩) hi hin]
    unfold rollbackState
    dsimp only
    rw [hout]
    rfl
  · unfold rollbackState
    dsimp only
    rw [hout]
    simp

/-- The warp that leaves its handler. -/
def leftHandler (w : Warp) : Warp := { w.setSystem false with
  inHandler := false, latch := false, stop := .none, lanes := w.lanes.map fun x => { x with held := false } }

theorem leftHandler_lane {w : Warp} {l : Nat} (h : l < w.lanes.length) : (leftHandler w).lane l = { w.lane l with held := false } := by
  unfold Warp.lane leftHandler
  simp [List.getD_eq_getElem?_getD, h]

theorem leftHandler_system (w : Warp) : (leftHandler w).system = false := by
  unfold Warp.system leftHandler Warp.setSystem
  simp

/-- The lanes that a record restores. -/
theorem recordLane_restored (y : State) (core : Nat) (w : Warp) (r : RingLevel) (l : Nat) (x : Lane) :
    (recordLane y core w r l x).preds = BitVec.ofNat 7 (recordFlags y core w r l) ∧
    (recordLane y core w r l x).predPoison = BitVec.ofNat 7 (recordFlags y core w r l / 2 ^ 7) ∧
    (recordLane y core w r l x).flags = BitVec.ofNat 5 (recordFlags y core w r l / 2 ^ 14) ∧
    (x.exited = false → (recordLane y core w r l x).pc = (BitVec.ofNat 64 (recordOpening y core w r l)).truncate 57 &&& ~~~3#57 ∧
      (recordLane y core w r l x).rep = 0 ∧ (recordLane y core w r l x).window = recordWindow y core w r l ∧
      (recordLane y core w r l x).park = none ∧ (recordLane y core w r l x).commits = [] ∧ (recordLane y core w r l x).loads = []) := by
  unfold recordLane
  cases x.exited <;> simp [codeAddr]

/-- What follows the rollback of a lane's sparing. -/
theorem afterRollback_spared {t : State} {k : Nat} {u : Warp} (hu : t.warpAt k = some u) (hh : u.inHandler = false) :
    afterRollback t k false = t.setWarp k { u with rollback := none } := by
  unfold afterRollback
  rw [hu]
  simp only [hh, Bool.false_eq_true, if_false]

/-- What follows the rollback that a handler asked for: the warp leaves the handler. -/
theorem afterRollback_retried {t : State} {k : Nat} {u : Warp} (hu : t.warpAt k = some u) :
    (afterRollback t k true).warpAt k = some (leftHandler { u with rollback := none }) ∧ (afterRollback t k true).thr.regs = t.thr.regs ∧
      (afterRollback t k true).mem = t.mem := by
  have he : afterRollback t k true = nextTrap (leaveHandler (t.setWarp k { u with rollback := none }) k) u.wg := by
    unfold afterRollback
    rw [hu]
    rfl
  have hv : (leaveHandler (t.setWarp k { u with rollback := none }) k).warpAt k = some (leftHandler { u with rollback := none }) := by
    unfold leaveHandler
    rw [warpAt_onWarp_self, warpAt_setWarp_self]
    rfl
  have hk := nextTrap_keeps hv rfl u.wg
  rw [he]
  exact ⟨hk.warp.trans hv, hk.regs, hk.mem⟩

/-- A rollback whose records could all be written back. -/
theorem ringRollback_restores {core slot warp : Nat} {w : Warp} {r : RingLevel} {s y : State} {h : Bool}
    (hw : s.warpAt (warpKey core slot warp) = some w) (hb : w.rollback = some h) (hready : rollbackReady s (warpKey core slot warp) w = true)
    (hr : w.rings.getLast? = some r) (hh : h = false → w.inHandler = false) (ha : r.attempt < 3) (hlen : w.lanes.length = 32)
    (hy : restoreRecords s core w (keptRecords s core w 32768 r.logStart).reverse = (y, false)) :
    ∃ t, exec (.ringRollback core slot warp) s = .next t ∧ t.mem.scratch = y.mem.scratch ∧ (h = false → t.mem.hbm = y.mem.hbm) ∧
      ∃ u, t.warpAt (warpKey core slot warp) = some u ∧
        (h = true → u.inHandler = false ∧ u.system = false ∧ u.latch = false ∧ u.stop = .none) ∧
        u.rollback = none ∧ u.logFill = r.logStart ∧ u.rings = w.rings.dropLast ++ [{ r with attempt := r.attempt + 1 }] ∧
        u.sregs = w.sregs ∧ u.barrier = 0 ∧ u.mwait = none ∧
        ∀ l < 32, (w.lane l).present = true →
          (∀ i < (maskBits r.mask).length, 32 * recordWindow y core w r l + (maskBits r.mask).getD i 0 < w.size →
            t.vreg core slot w l (32 * recordWindow y core w r l + (maskBits r.mask).getD i 0) =
              ⟨BitVec.ofNat 32 (recordWord y core w r l i), (recordWord y core w r l (maskBits r.mask).length).testBit ((maskBits r.mask).getD i 0)⟩) ∧
          (u.lane l).preds = BitVec.ofNat 7 (recordFlags y core w r l) ∧ (u.lane l).predPoison = BitVec.ofNat 7 (recordFlags y core w r l / 2 ^ 7) ∧
          (u.lane l).flags = BitVec.ofNat 5 (recordFlags y core w r l / 2 ^ 14) ∧
          ((w.lane l).exited = false → (u.lane l).pc = (BitVec.ofNat 64 (recordOpening y core w r l)).truncate 57 &&& ~~~3#57 ∧
            (u.lane l).rep = 0 ∧ (u.lane l).window = recordWindow y core w r l ∧ (u.lane l).park = none ∧ (u.lane l).commits = [] ∧
            (u.lane l).loads = []) := by
  obtain ⟨m, hm⟩ := restoreRecords_warps hy hw
  obtain ⟨v, hv⟩ := rollbackState_rolledBack (r := r) hm hlen
  refine ⟨_, ringRollback_ready hw hb hready, ?_⟩
  rw [rollbackEffect_restores hr ha hy]
  have hvreg : ∀ t : State, t.thr.regs = (rollbackState y core slot warp w r).thr.regs → ∀ l n,
      t.vreg core slot w l n = (rollbackState y core slot warp w r).vreg core slot w l n := by
    intro t ht l n
    unfold State.vreg State.reg
    rw [ht]
  cases h with
  | false =>
    have hnot : v.inHandler = false := by rw [hv.rest]; exact hh rfl
    rw [afterRollback_spared hv.warp hnot]
    refine ⟨by rw [State.setWarp_mem, hv.mem], fun _ => by rw [State.setWarp_mem, hv.mem], _, warpAt_setWarp_self .., nofun, rfl, ?_, ?_, ?_, ?_, ?_, fun l hl hp => ⟨hv.reg l hl hp, ?_⟩⟩
    · rw [hv.rest]; rfl
    · rw [hv.rest]; rfl
    · rw [hv.rest]; rfl
    · rw [hv.rest]; rfl
    · rw [hv.rest]; rfl
    · rw [show ({ v with rollback := none } : Warp).lane l = v.lane l from rfl, hv.lane l hl hp]
      exact recordLane_restored ..
  | true =>
    obtain ⟨hu, hregs, hmem⟩ := afterRollback_retried hv.warp
    refine ⟨by rw [hmem, hv.mem], nofun, _, hu, fun _ => ⟨rfl, leftHandler_system _, rfl, rfl⟩, rfl, ?_, ?_, ?_, ?_, ?_, fun l hl hp => ⟨?_, ?_⟩⟩
    · rw [hv.rest]; rfl
    · rw [hv.rest]; rfl
    · rw [hv.rest]; rfl
    · rw [hv.rest]; rfl
    · rw [hv.rest]; rfl
    · intro i hi hin
      rw [hvreg _ hregs]
      exact hv.reg l hl hp i hi hin
    · rw [leftHandler_lane (by show l < v.lanes.length; rw [hv.length, hlen]; exact hl),
        show ({ v with rollback := none } : Warp).lane l = v.lane l from rfl, hv.lane l hl hp]
      exact recordLane_restored ..

/-- A record that cannot be written back kills the work-group. -/
theorem rollbackEffect_fails {core slot n : Nat} {w : Warp} {s y : State} {h : Bool} {r : RingLevel} (hr : w.rings.getLast? = some r)
    (ha : r.attempt < 3) (hy : restoreRecords s core w (keptRecords s core w 32768 r.logStart).reverse = (y, true)) :
    rollbackEffect s core slot n w h = killRollback y (warpKey core slot n) w h 5 := by
  unfold rollbackEffect
  rw [hr]
  dsimp only
  rw [if_neg (by omega), hy]
  rfl

/-- A level that has been attempted enough passes to the enclosing one, or kills the work-group (R259). -/
theorem rollbackEffect_exhausted {core slot n : Nat} {w : Warp} {s : State} {h : Bool} {r : RingLevel} (hr : w.rings.getLast? = some r)
    (ha : 3 ≤ r.attempt) : rollbackEffect s core slot n w h =
      if w.rings.length ≤ 1 then killRollback s (warpKey core slot n) w h 0
      else s.setWarp (warpKey core slot n) { w with rings := dropLevel w.rings } := by
  unfold rollbackEffect
  rw [hr]
  dsimp only
  rw [if_pos ha]

/-- Settles O35: the failures of a slot's lanes and the switch of its spare lane, then the rollback of a level by its outcomes. -/
theorem sparingAndRollbacks : Obligations.SparingAndRollbacks := by
  refine ⟨fun core slot warp lane w => ⟨laneFailure_first core slot lane, laneFailure_second core slot lane, laneFailure_idle core slot lane,
    fun l hl _ => ⟨?_, ?_, ?_, ?_⟩, spareLaneSwitch_idle core slot warp⟩, fun core slot warp w r => ⟨?_, ?_, ?_, ?_, ringRollback_idle core slot warp⟩⟩
  · rintro s ⟨⟨hw, hrun, hsnap, hspare, hother⟩, ht⟩
    exact ⟨_, spareLaneSwitch_absent ⟨hw, hrun, hsnap, hspare, hother⟩ ht, rfl⟩
  · rintro s ⟨⟨hw, hrun, hsnap, hspare, hother⟩, ⟨hp, he⟩, hm⟩
    exact spareLaneSwitch_protected hl ⟨hw, hrun, hsnap, hspare, hother⟩ hp he hm
  · rintro s ⟨⟨hw, hrun, hsnap, hspare, hother⟩, ⟨hp, he⟩, hm, hr⟩
    exact spareLaneSwitch_ring ⟨hw, hrun, hsnap, hspare, hother⟩ hp he hm hr
  · rintro s ⟨⟨hw, hrun, hsnap, hspare, hother⟩, ⟨hp, he⟩, hm, hr⟩
    exact spareLaneSwitch_kill ⟨hw, hrun, hsnap, hspare, hother⟩ hp he hm hr
  · rintro h y s ⟨⟨hw, hb, hready, hr⟩, hh, ha, hlen, -, hy⟩
    exact ringRollback_restores hw hb hready hr hh ha hlen hy
  · rintro h y s ⟨⟨hw, hb, hready, hr⟩, ha, hy⟩
    exact ⟨_, ringRollback_ready hw hb hready, (rollbackEffect_fails hr ha hy).trans (killRollback_eq ..)⟩
  · rintro h s ⟨⟨hw, hb, hready, hr⟩, ha, hlong⟩
    exact ⟨_, ringRollback_ready hw hb hready, (rollbackEffect_exhausted hr ha).trans (if_neg (by omega))⟩
  · rintro h s ⟨⟨hw, hb, hready, hr⟩, ha, hshort⟩
    exact ⟨_, ringRollback_ready hw hb hready, ((rollbackEffect_exhausted hr ha).trans (if_pos hshort)).trans (killRollback_eq ..)⟩

end Sys2Proof.Machine
end

section
/-! Routing of units and passing of chunks by the distributors (R15, R153 to R157). -/

namespace Sys2Proof.Machine

/-! Levels. -/

@[simp] theorem level_onLevel_self (s : State) (n : Nat) (f : Level → Level) : (s.onLevel n f).level n = f (s.level n) := NMap.getD_alter_self ..

theorem level_onLevel_ne (s : State) {k n : Nat} (f : Level → Level) (h : k ≠ n) : (s.onLevel n f).level k = s.level k := NMap.getD_alter_ne h ..

/-- A change that leaves a field of a level leaves it at every level. -/
theorem level_onLevel_field {β : Type} (p : Level → β) {f : Level → Level} (hf : ∀ l, p (f l) = p l) (s : State) (n k : Nat) :
    p ((s.onLevel n f).level k) = p (s.level k) := by
  by_cases h : k = n
  · subst h; rw [level_onLevel_self, hf]
  · rw [level_onLevel_ne s f h]

/-! The budget of a tick (R154). -/

theorem useBudget_level {s : State} {level n : Nat} (hn : n ≤ budgetLeft s level) :
    ((useBudget s level n).level level).tick = s.clk.ref.toNat ∧
    ((useBudget s level n).level level).used =
      (if (s.level level).tick = s.clk.ref.toNat then min 16 (s.level level).used else 0) + n := by
  unfold useBudget
  rw [level_onLevel_self]
  refine ⟨rfl, ?_⟩
  dsimp only
  unfold budgetLeft at hn ⊢
  simp only [beq_iff_eq] at hn ⊢
  split at hn <;> rename_i h <;> simp only [h, if_true, if_false] <;> omega

/-- Using budget leaves the parts of a level. -/
theorem useBudget_parts (s : State) (level n k : Nat) :
    ((useBudget s level n).level k).queue = (s.level k).queue ∧ ((useBudget s level n).level k).opened = (s.level k).opened ∧
      ((useBudget s level n).level k).closed = (s.level k).closed :=
  have hf (β : Type) (p : Level → β) (h : ∀ l : Level, ∀ a b, p { l with tick := a, used := b } = p l) :
      p ((useBudget s level n).level k) = p (s.level k) := level_onLevel_field p (fun l => h l _ _) s level k
  ⟨hf _ (·.queue) fun _ _ _ => rfl, hf _ (·.opened) fun _ _ _ => rfl, hf _ (·.closed) fun _ _ _ => rfl⟩

theorem childBlocked_useBudget (s : State) (level n k child : Nat) : childBlocked (useBudget s level n) k child = childBlocked s k child := by
  have hq : ∀ j, ((useBudget s level n).level j).queue = (s.level j).queue := fun j => (useBudget_parts s level n j).1
  have hroom : childRoom (useBudget s level n) k child = childRoom s k child := by
    have hfree : (useBudget s level n).packageQueueFree = s.packageQueueFree := by
      have h2 : ((useBudget s level n).dist.levels.getD 2 Level.init).queue = (s.dist.levels.getD 2 Level.init).queue := hq 2
      unfold State.packageQueueFree
      rw [h2]
      rfl
    unfold childRoom
    simp only [hq, hfree] <;> rfl
  unfold childBlocked
  rw [hroom, (useBudget_parts s level n k).2.2]

/-! Queues. -/

/-- The entries of a queue are those of its parts. -/
theorem mem_insertEntry {x y : Entry} {xs : List Entry} : y ∈ insertEntry x xs ↔ y = x ∨ y ∈ xs := by
  induction xs with
  | nil => simp [insertEntry]
  | cons z xs ih =>
    unfold insertEntry
    split
    · simp
    · simp only [List.mem_cons, ih]; tauto

theorem mem_foldl_insertEntry {y : Entry} {xs acc : List Entry} : y ∈ xs.foldl (fun xs x => insertEntry x xs) acc ↔ y ∈ acc ∨ y ∈ xs := by
  induction xs generalizing acc with
  | nil => simp
  | cons x xs ih => rw [List.foldl_cons, ih, mem_insertEntry, List.mem_cons]; tauto

theorem mem_orderedEntries {s : State} {q : List Chunk} {y : Entry} : y ∈ orderedEntries s q ↔
    y.chunk ∈ q ∧ s.work.grids.find y.chunk.grid = some y.grid ∧ y.order = gridOrder s y.grid := by
  unfold orderedEntries
  rw [mem_foldl_insertEntry]
  simp only [List.not_mem_nil, false_or, List.mem_filterMap, Option.map_eq_some_iff]
  constructor
  · rintro ⟨c, hc, g, hg, rfl⟩
    exact ⟨hc, hg, rfl⟩
  · rintro ⟨hc, hg, ho⟩
    exact ⟨y.chunk, hc, y.grid, hg, by rw [← ho]⟩

theorem routeEntry_mem {s : State} {level : Nat} {x : Entry} (h : routeEntry s level = some x) : x.chunk ∈ (s.level level).queue := by
  have hx : x ∈ orderedEntries s (s.level level).queue := by
    unfold routeEntry at h
    dsimp only at h
    cases hs : (orderedEntries s (s.level level).queue).find? fun x => 0 < x.chunk.spent with
    | some y =>
      rw [hs] at h
      cases h
      exact List.mem_of_find?_eq_some hs
    | none =>
      rw [hs] at h
      exact List.mem_of_find?_eq_some h
  exact (mem_orderedEntries.1 hx).1

theorem mem_changeChunk {old new : Chunk} {q : List Chunk} (h : old ∈ q) : new ∈ changeChunk old new q :=
  List.mem_map.2 ⟨old, h, if_pos (beq_self_eq_true old)⟩

/-- The open chunk of the child holds the unit. -/
theorem openUnit_holds (child grid : Nat) (ids : List Nat) (skip : Bool) (xs : List (Nat × Chunk)) :
    ∃ y ∈ openUnit child grid ids skip xs, y.1 = child ∧ y.2.grid = grid ∧ ∀ i ∈ ids, i ∈ y.2.ids := by
  induction xs with
  | nil => exact ⟨_, List.mem_singleton_self _, rfl, rfl, fun _ h => h⟩
  | cons x xs ih =>
    unfold openUnit
    split
    · next h =>
      refine ⟨_, List.mem_cons_self, rfl, ?_, fun i hi => List.mem_append_right _ hi⟩
      simp only [Bool.and_eq_true, beq_iff_eq] at h
      exact h.2
    · obtain ⟨y, hy, h⟩ := ih
      exact ⟨y, List.mem_cons_of_mem _ hy, h⟩

/-- Closing chunks loses none. -/
theorem mem_closeChunks {l : Level} {y : Nat × Chunk} (h : y ∈ l.opened) (grid unit : Nat) (all : Bool) :
    y ∈ (closeChunks l grid unit all).opened ++ (closeChunks l grid unit all).closed := by
  unfold closeChunks
  dsimp only
  by_cases hf : (y.2.grid == grid && (all || decide (y.2.ids.length + unit > 256))) = true
  · exact List.mem_append_right _ (List.mem_append_right _ (List.mem_filter.2 ⟨h, hf⟩))
  · exact List.mem_append_left _ (List.mem_filter.2 ⟨h, Bool.not_eq_true' _ ▸ (Bool.not_eq_true _ ▸ hf)⟩)

/-! A unit on its way (R154). -/

/-- What routing a unit spends and keeps, wherever the unit goes: the tick's budget, and the hash that its work-groups carry. -/
structure Spent (s t : State) (level : Nat) (x : Entry) (id : Nat) : Prop where
  tick : (t.level level).tick = s.clk.ref.toNat
  used : (t.level level).used = (if (s.level level).tick = s.clk.ref.toNat then (s.level level).used else 0) + x.grid.unit
  levels : ∀ k, k ≠ level → t.level k = s.level k
  grids : ∀ k, t.work.grids.find k = if k = x.chunk.grid then (s.work.grids.find k).map fun g => { g with
      hashes := g.hashes.insert (id / x.grid.unit * x.grid.unit) (BitVec.ofNat 16 (x.grid.unitHash s id)) }
    else s.work.grids.find k
  rest : t = { s with dist := { s.dist with levels := t.dist.levels }, work := { s.work with grids := t.work.grids } }

variable {s : State} {level index id : Nat} {x : Entry} {aside : Bool}

theorem execRoute (hr : routeReady s level = true) (hx : routeEntry s level = some x) (hn : nextUnit s level x = some (id, aside)) :
    exec (.workGroupRoute level index) s = .next (routeEffect s level x id aside) := by
  show Host.Outcome.next (if routeReady s level = true then _ else s) = _
  rw [if_pos hr, hx]
  dsimp only
  rw [hn]

/-- A level that routes has the budget for it. -/
theorem routeReady_fare (hr : routeReady s level = true) (hx : routeEntry s level = some x) (hd : dropsAt level x.grid = false) :
    unitFare s level x.grid.unit x.chunk.spent ≠ .wait := by
  unfold routeReady at hr
  rw [hx] at hr
  simp only [hd, Bool.false_or, Bool.and_eq_true] at hr
  intro hw
  rw [hw] at hr
  exact absurd hr.2 (by decide)

/-- A unit of at most 16 work-groups goes at once. -/
theorem routeEffect_goes (hr : routeReady s level = true) (hx : routeEntry s level = some x) (hd : dropsAt level x.grid = false)
    (hu : x.grid.unit ≤ 16) : routeEffect s level x id aside = routeUnit (useBudget s level x.grid.unit) level x id aside ∧
      x.grid.unit ≤ budgetLeft s level := by
  have hf := routeReady_fare hr hx hd
  have hfare : unitFare s level x.grid.unit x.chunk.spent =
      if budgetLeft s level < x.grid.unit then .wait else .go (useBudget s level x.grid.unit) := if_pos hu
  have hb : ¬ budgetLeft s level < x.grid.unit := fun h => hf (by rw [hfare, if_pos h])
  refine ⟨?_, Nat.le_of_not_lt hb⟩
  unfold routeEffect
  rw [hd, hfare, if_neg hb]
  rfl

/-- The change of a level that a unit's routing makes, beside the budget. -/
theorem spent_of {t : State} {f : Level → Level} (hb : x.grid.unit ≤ budgetLeft s level) (hu : 1 ≤ x.grid.unit)
    (ht : t = (keepHash (useBudget s level x.grid.unit) x.chunk.grid x.grid id).onLevel level f)
    (htick : ∀ l, (f l).tick = l.tick) (hused : ∀ l, (f l).used = l.used) : Spent s t level x id := by
  obtain ⟨h1, h2⟩ := useBudget_level hb
  have hleft : (s.level level).tick = s.clk.ref.toNat → (s.level level).used ≤ 16 := by
    intro h
    unfold budgetLeft at hb
    simp only [beq_iff_eq, h, if_true] at hb
    omega
  subst ht
  refine ⟨?_, ?_, fun k hk => ?_, fun k => ?_, rfl⟩
  · rw [level_onLevel_self, htick]; exact h1
  · rw [level_onLevel_self, hused]
    refine h2.trans ?_
    by_cases h : (s.level level).tick = s.clk.ref.toNat
    · rw [if_pos h, if_pos h, Nat.min_eq_right (hleft h)]
    · rw [if_neg h, if_neg h]
  · rw [level_onLevel_ne _ _ hk]
    exact level_onLevel_ne s _ hk
  · show NMap.find k (NMap.adjust _ _ _) = _
    by_cases h : k = x.chunk.grid
    · subst h; rw [NMap.find_adjust_self, if_pos rfl]; rfl
    · rw [NMap.find_adjust_ne h, if_neg h]; rfl

theorem one_le_unit (g : Grid) : 1 ≤ g.unit := Nat.le_max_left ..

/-- The ids of a unit. -/
theorem mem_unitIds {g i : Nat} (h : i < g) (id : Nat) : id + i ∈ (List.range g).map (id + ·) := List.mem_map.2 ⟨i, List.mem_range.2 h, rfl⟩

theorem without_grid (c : Chunk) (id g : Nat) (aside : Bool) : (c.without id g aside).grid = c.grid := by
  unfold Chunk.without; split <;> rfl

/-- The level that a unit's way to a child leaves. -/
def unitSent (x : Entry) (child id : Nat) (aside : Bool) (l : Level) : Level :=
  let rest := x.chunk.without id x.grid.unit aside
  closeChunks { l with
    queue := if rest.done then l.queue.erase x.chunk else changeChunk x.chunk rest l.queue
    opened := openUnit child x.chunk.grid ((List.range x.grid.unit).map (id + ·)) x.chunk.skip l.opened } x.chunk.grid x.grid.unit rest.done

/-- The level that a unit set aside leaves. -/
def unitAside (x : Entry) (id : Nat) (aside : Bool) (l : Level) : Level :=
  { l with queue := changeChunk x.chunk { x.chunk.without id x.grid.unit aside with
      ids := x.chunk.ids ++ (List.range x.grid.unit).map (id + ·) } l.queue }

theorem routeUnit_eq (u : State) (level : Nat) (x : Entry) (id : Nat) (aside : Bool) : routeUnit u level x id aside =
    if childBlocked (keepHash u x.chunk.grid x.grid id) level (childOf u level x.grid (x.grid.unitHash u id)) then
      (keepHash u x.chunk.grid x.grid id).onLevel level (unitAside x id aside)
    else (keepHash u x.chunk.grid x.grid id).onLevel level (unitSent x (childOf u level x.grid (x.grid.unitHash u id)) id aside) := rfl

theorem childBlocked_kept (s : State) (level n grid : Nat) (g : Grid) (id k child : Nat) :
    childBlocked (keepHash (useBudget s level n) grid g id) k child = childBlocked s k child :=
  (show _ = childBlocked (useBudget s level n) k child from rfl).trans (childBlocked_useBudget ..)

theorem child_useBudget (s : State) (level n : Nat) (g : Grid) (id : Nat) :
    childOf (useBudget s level n) level g (g.unitHash (useBudget s level n) id) = childOf s level g (g.unitHash s id) := rfl

theorem route_child (level index : Nat) (x : Entry) (id : Nat) (aside : Bool) : Happens (.workGroupRoute level index)
    (fun s => (routeReady s level = true ∧ routeEntry s level = some x ∧ nextUnit s level x = some (id, aside) ∧
      dropsAt level x.grid = false ∧ x.grid.unit ≤ 16) ∧ childBlocked s level (childOf s level x.grid (x.grid.unitHash s id)) = false)
    (fun s t => Spent s t level x id ∧ ∃ y ∈ (t.level level).opened ++ (t.level level).closed,
      y.1 = childOf s level x.grid (x.grid.unitHash s id) ∧ y.2.grid = x.chunk.grid ∧ ∀ i < x.grid.unit, id + i ∈ y.2.ids) := by
  rintro s ⟨⟨hr, hx, hn, hd, hu⟩, hb⟩
  obtain ⟨he, hleft⟩ := routeEffect_goes (id := id) (aside := aside) hr hx hd hu
  refine ⟨_, execRoute hr hx hn, ?_⟩
  rw [he, routeUnit_eq, childBlocked_kept, child_useBudget, hb, if_neg Bool.false_ne_true]
  refine ⟨spent_of hleft (one_le_unit _) rfl (fun _ => rfl) fun _ => rfl, ?_⟩
  rw [level_onLevel_self]
  generalize (keepHash (useBudget s level x.grid.unit) x.chunk.grid x.grid id).level level = l
  obtain ⟨y, hy, hc, hg, hids⟩ := openUnit_holds (childOf s level x.grid (x.grid.unitHash s id)) x.chunk.grid
    ((List.range x.grid.unit).map (id + ·)) x.chunk.skip l.opened
  refine ⟨y, ?_, hc, hg, fun i hi => hids _ (mem_unitIds hi id)⟩
  unfold unitSent
  exact mem_closeChunks hy ..

theorem route_aside (level index : Nat) (x : Entry) (id : Nat) (aside : Bool) : Happens (.workGroupRoute level index)
    (fun s => (routeReady s level = true ∧ routeEntry s level = some x ∧ nextUnit s level x = some (id, aside) ∧
      dropsAt level x.grid = false ∧ x.grid.unit ≤ 16) ∧ childBlocked s level (childOf s level x.grid (x.grid.unitHash s id)) = true)
    (fun s t => Spent s t level x id ∧ (t.level level).opened = (s.level level).opened ∧ (t.level level).closed = (s.level level).closed ∧
      ∃ y ∈ (t.level level).queue, y.grid = x.chunk.grid ∧ ∀ i < x.grid.unit, id + i ∈ y.ids) := by
  rintro s ⟨⟨hr, hx, hn, hd, hu⟩, hb⟩
  obtain ⟨he, hleft⟩ := routeEffect_goes (id := id) (aside := aside) hr hx hd hu
  refine ⟨_, execRoute hr hx hn, ?_⟩
  rw [he, routeUnit_eq, childBlocked_kept, child_useBudget, hb, if_pos rfl]
  refine ⟨spent_of hleft (one_le_unit _) rfl (fun _ => rfl) fun _ => rfl, ?_⟩
  obtain ⟨hq, ho, hc⟩ := useBudget_parts s level x.grid.unit level
  have hmem : x.chunk ∈ ((useBudget s level x.grid.unit).level level).queue := hq ▸ routeEntry_mem hx
  rw [level_onLevel_self]
  exact ⟨ho, hc, _, mem_changeChunk hmem, without_grid .., fun i hi => List.mem_append_right _ (mem_unitIds hi id)⟩

/-- A larger gang takes the whole budget of a tick. -/
theorem route_pays (level index : Nat) (x : Entry) (id : Nat) (aside : Bool) : Happens (.workGroupRoute level index)
    (fun s => routeReady s level = true ∧ routeEntry s level = some x ∧ nextUnit s level x = some (id, aside) ∧ dropsAt level x.grid = false ∧
      16 < x.grid.unit ∧ x.chunk.spent < x.grid.unit)
    (fun s t => (t.level level).used = 16 ∧ (t.level level).tick = s.clk.ref.toNat ∧
      { x.chunk with spent := x.chunk.spent + 16 } ∈ (t.level level).queue ∧ t = { s with dist := { s.dist with levels := t.dist.levels } }) := by
  rintro s ⟨hr, hx, hn, hd, hu, hs⟩
  refine ⟨_, execRoute hr hx hn, ?_⟩
  have hfare : unitFare s level x.grid.unit x.chunk.spent = if budgetLeft s level < 16 then .wait else .pay (useBudget s level 16) := by
    unfold unitFare
    rw [if_neg (by omega), if_neg (by omega)]
  have hb : ¬ budgetLeft s level < 16 := fun h => routeReady_fare hr hx hd (by rw [hfare, if_pos h])
  have he : routeEffect s level x id aside = (useBudget s level 16).onLevel level fun l =>
      { l with queue := changeChunk x.chunk { x.chunk with spent := x.chunk.spent + 16 } l.queue } := by
    unfold routeEffect
    rw [hd, hfare, if_neg hb]
    rfl
  obtain ⟨hq, -, -⟩ := useBudget_parts s level 16 level
  have hmem : x.chunk ∈ ((useBudget s level 16).level level).queue := hq ▸ routeEntry_mem hx
  have hused : ((useBudget s level 16).level level).used = 16 ∧ ((useBudget s level 16).level level).tick = s.clk.ref.toNat := by
    unfold useBudget
    rw [level_onLevel_self]
    refine ⟨?_, rfl⟩
    have : budgetLeft s level ≤ 16 := by unfold budgetLeft; dsimp only; split <;> omega
    dsimp only
    omega
  rw [he]
  dsimp only
  rw [level_onLevel_self]
  exact ⟨hused.1, hused.2, mem_changeChunk hmem, rfl⟩

theorem route_idle (level index : Nat) : Idle (.workGroupRoute level index) fun s => routeReady s level = false := by
  refine idle_of (fun _ => rfl) fun s h => if_neg ?_
  rw [h]
  exact Bool.false_ne_true

/-! Passing a chunk down (R156, R157). -/

theorem keyBefore_trans {a b c : Nat × Nat} (h : keyBefore a b = true) (h' : keyBefore b c = true) : keyBefore a c = true := by
  unfold keyBefore at *
  simp only [Bool.or_eq_true, decide_eq_true_eq, Bool.and_eq_true, beq_iff_eq] at *
  omega

/-- No entry goes before the first of an ordered list. -/
theorem insertEntry_first {x : Entry} {xs : List Entry} (h : ∀ y ∈ xs, ∀ z ∈ xs.head?, keyBefore y.order z.order = false)
    (hself : ∀ a : Nat × Nat, keyBefore a a = false) :
    ∀ y ∈ insertEntry x xs, ∀ z ∈ (insertEntry x xs).head?, keyBefore y.order z.order = false := by
  cases xs with
  | nil =>
    rintro y hy z hz
    obtain rfl : y = x := List.mem_singleton.1 hy
    cases hz
    exact hself _
  | cons w ws =>
    have hw : ∀ y ∈ w :: ws, keyBefore y.order w.order = false := fun y hy => h y hy w rfl
    unfold insertEntry
    split
    · next hb =>
      rintro y hy z hz
      cases hz
      rcases List.mem_cons.1 hy with rfl | hy
      · exact hself _
      · rw [Bool.eq_false_iff]
        intro hyx
        have := hw y hy
        rw [keyBefore_trans hyx hb] at this
        cases this
    · next hb =>
      rintro y hy z hz
      cases hz
      rcases List.mem_cons.1 hy with rfl | hy
      · exact hself _
      · rcases mem_insertEntry.1 hy with rfl | hy
        · exact Bool.eq_false_iff.2 hb
        · exact hw y (List.mem_cons_of_mem _ hy)

theorem keyBefore_self (a : Nat × Nat) : keyBefore a a = false := by simp [keyBefore]

theorem orderedEntries_first (s : State) (q : List Chunk) :
    ∀ y ∈ orderedEntries s q, ∀ z ∈ (orderedEntries s q).head?, keyBefore y.order z.order = false := by
  unfold orderedEntries
  have key : ∀ (xs acc : List Entry), (∀ y ∈ acc, ∀ z ∈ acc.head?, keyBefore y.order z.order = false) →
      ∀ y ∈ xs.foldl (fun xs x => insertEntry x xs) acc, ∀ z ∈ (xs.foldl (fun xs x => insertEntry x xs) acc).head?,
        keyBefore y.order z.order = false := by
    intro xs
    induction xs with
    | nil => exact fun _ h => h
    | cons x xs ih => exact fun acc h => ih _ (insertEntry_first h keyBefore_self)
  exact key _ [] (by simp)

/-- The chunk that passes down next has room at its child, and none with room goes before it. -/
theorem nextClosed_first {s : State} {level : Nat} {x : Nat × Chunk} (h : nextClosed s level = some x) :
    x ∈ (s.level level).closed ∧ childRoom s level x.1 = true ∧ ∀ y ∈ (s.level level).closed, childRoom s level y.1 = true →
      ∀ g h, s.work.grids.find x.2.grid = some g → s.work.grids.find y.2.grid = some h → keyBefore (gridOrder s h) (gridOrder s g) = false := by
  unfold nextClosed at h
  dsimp only at h
  generalize hq : (s.level level).closed.filter (fun x => childRoom s level x.1) = q at h
  have hmem : ∀ y, y ∈ q ↔ y ∈ (s.level level).closed ∧ childRoom s level y.1 = true := by
    intro y; rw [← hq, List.mem_filter]
  split at h
  · next e es he =>
    obtain ⟨hin, hroom⟩ := (hmem x).1 (List.mem_of_find?_eq_some h)
    have hchunk : x.2 = e.chunk := by simpa using List.find?_some h
    refine ⟨hin, hroom, fun y hy hyr g h hg hh => ?_⟩
    obtain ⟨-, heg, heo⟩ := mem_orderedEntries.1 (show e ∈ orderedEntries s (q.map (·.2)) by rw [he]; exact List.mem_cons_self)
    have hye : (⟨y.2, h, gridOrder s h⟩ : Entry) ∈ orderedEntries s (q.map (·.2)) :=
      mem_orderedEntries.2 ⟨List.mem_map.2 ⟨y, (hmem y).2 ⟨hy, hyr⟩, rfl⟩, hh, rfl⟩
    have hfirst := orderedEntries_first s (q.map (·.2)) _ hye e (by rw [he]; rfl)
    rw [← hchunk, hg] at heg
    cases heg
    rwa [heo] at hfirst
  · cases h

theorem passReady_next {s : State} {level index : Nat} {x : Nat × Chunk} (hr : passReady s level index = true)
    (hx : (s.level level).closed[index]? = some x) : nextClosed s level = some x := by
  unfold passReady at hr
  rw [hx] at hr
  exact beq_iff_eq.1 (Bool.and_eq_true_iff.1 hr).2

theorem pass_down (level index child : Nat) (c : Chunk) : Happens (.chunkPassDown level index)
    (fun s => passReady s level index = true ∧ (s.level level).closed[index]? = some (child, c))
    (fun s t =>
      let u := s.onLevel level fun l => { l with closed := l.closed.erase (child, c) }
      t = match level with
        | 0 => if s.trayDistributor child = s.cfg.pkg then enterChunk u 1 c else sendChunk u (s.trayDistributor child) 1 c
        | 1 => if child = s.cfg.pkg then enterChunk u 2 c else sendChunk u child 2 c
        | _ => enterChunk u (3 + child) c) := by
  rintro s ⟨hr, hx⟩
  refine ⟨passEffect s level child c, ?_, ?_⟩
  · show Host.Outcome.next (if passReady s level index = true then _ else s) = _
    rw [if_pos hr, hx]
  · unfold passEffect
    dsimp only
    match level with
    | 0 => exact if_congr beq_iff_eq rfl rfl
    | 1 => exact if_congr beq_iff_eq rfl rfl
    | _ + 2 => rfl

theorem pass_idle (level index : Nat) : Idle (.chunkPassDown level index) fun s => ∀ x, (s.level level).closed[index]? = some x →
    childRoom s level x.1 = false := by
  refine idle_of (fun _ => rfl) fun s h => if_neg fun hr => ?_
  cases hx : (s.level level).closed[index]? with
  | none =>
    unfold passReady at hr
    rw [hx] at hr
    simp at hr
  | some x =>
    have hroom := (nextClosed_first (passReady_next hr hx)).2.1
    rw [h x hx] at hroom
    cases hroom

end Sys2Proof.Machine
end

section
/-! Stealing between distributors (R160, R161, R182). -/

namespace Sys2Proof.Machine

/-! Messages leave by the fabric: nothing else changes. -/

/-- t is s but for the fabric. -/
def FabricOnly (s t : State) : Prop := t = { s with fab := t.fab }

theorem FabricOnly.trans {s t u : State} (h : FabricOnly s t) (h' : FabricOnly t u) : FabricOnly s u := by
  unfold FabricOnly at *
  rw [h', h]

theorem sendNow_fabric (s : State) (f : Flit) : FabricOnly s (s.sendNow f) := by
  unfold State.sendNow
  split
  · split
    · exact rfl
    · exact rfl
  · exact rfl

theorem pumpFlits_fabric (fs kept : List Flit) (s : State) : FabricOnly s (pumpFlits fs kept s).2 := by
  induction fs generalizing kept s with
  | nil => exact rfl
  | cons f fs ih =>
    unfold pumpFlits
    split
    · exact (sendNow_fabric s f).trans (ih ..)
    · exact ih ..

theorem send_fabric (s : State) (t : Nat) (relaxed : Bool) (m : Msg) : FabricOnly s (s.send t relaxed m) := by
  unfold State.send State.pump
  exact (show FabricOnly s { s with fab := { s.fab with outbox := s.fab.outbox ++ [⟨s.cfg.pkg, t, relaxed, 0, m⟩] } } from rfl).trans
    ((pumpFlits_fabric _ _ _).trans rfl)

theorem sendChunk_fabric (s : State) (pkg level : Nat) (c : Chunk) : FabricOnly s (sendChunk s pkg level c) := by
  unfold sendChunk
  split
  · exact send_fabric ..
  · exact rfl

theorem FabricOnly.level {s t : State} (h : FabricOnly s t) (k : Nat) : t.level k = s.level k := by
  rw [h]; rfl

/-! The package distributor (R160). -/

/-- The victims of a tray, in the order of R160: packages of it, and not the asking one. -/
theorem nextVictim_inTray {s : State} {from' v : Nat} (h : nextVictim s from' = some v) : v / 16 = s.cfg.pkg / 16 ∧ v ≠ s.cfg.pkg := by
  unfold nextVictim at h
  have hm := List.mem_of_find?_eq_some h
  obtain ⟨i, hi, hv⟩ := List.mem_filterMap.1 hm
  rw [List.mem_range] at hi
  split at hv
  · cases hv
    omega
  · cases hv

/-- The idle package distributor looks for its next victim, after `from'`. -/
theorem packageSteal_looks {s : State} {victim from' : Nat} {given : List GivenChunk}
    (h : (packageIdle s = true ∧ mayRetry s 2 = true) ∧ s.hostMode 2 = false ∧
      (s.dist.asking = none ∧ from' = s.cfg.pkg ∨ s.dist.asking = some (from', true))) :
    exec (.packageSteal victim given) s = .next (match nextVictim s from' with
      | some v => if s.mayPost v false then askVictim s v 0 else s
      | none => noVictim (stealDone s) 2) := by
  obtain ⟨⟨hi, hr⟩, hm, ha⟩ := h
  show Host.Outcome.next (if (packageIdle s && mayRetry s 2) = true then packageStealEffect s else s) = _
  rw [if_pos (by rw [hi, hr]; rfl)]
  unfold packageStealEffect
  rcases ha with ⟨ha, rfl⟩ | ha <;> rw [ha, hm] <;> rfl

/-- The next try of a level that has found no victim comes 200 ticks later. -/
theorem noVictim_later (s : State) (level : Nat) : noVictim s level = { s with dist := { s.dist with retry := (noVictim s level).dist.retry } } ∧
    ∀ k, (noVictim s level).dist.retry.find k = if k = level then some (s.clk.ref.toNat + 200) else s.dist.retry.find k := by
  refine ⟨rfl, fun k => ?_⟩
  unfold noVictim
  dsimp only
  by_cases h : k = level
  · subst h; rw [if_pos rfl, NMap.find_insert_self]
  · rw [if_neg h, NMap.find_insert_ne h]

/-- Events that wait for their answers are not lost when others enter the ring. -/
theorem pumpEvents_pending (n : Nat) (s : State) : (pumpEvents n s).host.pending = s.host.pending := by
  induction n generalizing s with
  | zero => rfl
  | succ n ih =>
    unfold pumpEvents
    split
    · rfl
    · split
      · rfl
      · exact ih _

theorem raiseEvent_pending (s : State) (kind die : Nat) (p : List DWord) :
    (raiseEvent s kind die p).1.host.pending = s.host.pending ++ [⟨s.fresh % 65536, kind, die, p⟩] := by
  unfold raiseEvent
  exact pumpEvents_pending ..

/-- A level asks the host for a victim, once. -/
theorem askSteal_asks {s : State} {level : Nat} (die : Nat) (h : level ∉ s.dist.asked) : (askSteal s level die).dist.asked = s.dist.asked ++ [level] ∧
    ∃ x ∈ (askSteal s level die).host.pending, x.kind = 2 ∧ x.die = die ∧ x.payload = [BitVec.ofNat 64 s.cfg.pkg, 0, 0, 0, 0, 0, 0] := by
  have he : askSteal s level die = { (raiseEvent s 2 die [BitVec.ofNat 64 s.cfg.pkg, 0, 0, 0, 0, 0, 0]).1 with
      dist := { (raiseEvent s 2 die [BitVec.ofNat 64 s.cfg.pkg, 0, 0, 0, 0, 0, 0]).1.dist with
        asked := (raiseEvent s 2 die [BitVec.ofNat 64 s.cfg.pkg, 0, 0, 0, 0, 0, 0]).1.dist.asked ++ [level] } } := if_neg (by simpa using h)
  rw [he]
  refine ⟨by rw [raiseEvent_rest], ⟨s.fresh % 65536, 2, die, [BitVec.ofNat 64 s.cfg.pkg, 0, 0, 0, 0, 0, 0]⟩, ?_, rfl, rfl, rfl⟩
  show _ ∈ (raiseEvent s 2 die _).1.host.pending
  rw [raiseEvent_pending]
  exact List.mem_append_right _ (List.mem_singleton_self _)

theorem packageSteal_asksHost {s : State} {victim : Nat} {given : List GivenChunk} (h : packageIdle s = true ∧ mayRetry s 2 = true)
    (hm : s.hostMode 2 = true) (ha : s.dist.asking = none) : exec (.packageSteal victim given) s = .next (askSteal s 2 4) := by
  obtain ⟨hi, hr⟩ := h
  show Host.Outcome.next (if (packageIdle s && mayRetry s 2) = true then packageStealEffect s else s) = _
  rw [if_pos (by rw [hi, hr]; rfl)]
  unfold packageStealEffect
  rw [ha, hm]
  rfl

theorem packageSteal_idle (victim : Nat) (given : List GivenChunk) : Idle (.packageSteal victim given) fun s =>
    packageIdle s = false ∨ mayRetry s 2 = false ∨ ∃ v, s.dist.asking = some (v, false) := by
  refine idle_of (fun _ => rfl) fun s h => ?_
  by_cases hc : (packageIdle s && mayRetry s 2) = true
  · rw [if_pos hc]
    obtain ⟨hi, hr⟩ := Bool.and_eq_true_iff.1 hc
    rcases h with h | h | ⟨v, h⟩
    · rw [hi] at h; cases h
    · rw [hr] at h; cases h
    · unfold packageStealEffect
      rw [h]
  · rw [if_neg hc]

/-! The die distributors (R161). -/

/-- Chunks that leave one level's queue, one after another. -/
theorem eraseChunks_level (a b : Nat) (hab : a ≠ b) (xs : List Chunk) (s : State) :
    let t := xs.foldl (fun s c => enterChunk (s.onLevel a fun l => { l with queue := l.queue.erase c }) b c) s
    (t.level a).queue = xs.foldl List.erase (s.level a).queue ∧ (t.level b).queue = (s.level b).queue ++ xs.map Chunk.moved ∧
      (∀ k, k ≠ a → k ≠ b → t.level k = s.level k) ∧ t = { s with dist := { s.dist with levels := t.dist.levels } } := by
  induction xs generalizing s with
  | nil => exact ⟨rfl, by simp, fun _ _ _ => rfl, rfl⟩
  | cons c xs ih =>
    dsimp only
    rw [List.foldl_cons]
    obtain ⟨h1, h2, h3, h4⟩ := ih (enterChunk (s.onLevel a fun l => { l with queue := l.queue.erase c }) b c)
    refine ⟨?_, ?_, fun k hka hkb => ?_, ?_⟩
    · rw [h1]
      unfold enterChunk
      rw [level_onLevel_ne _ _ hab, level_onLevel_self]
      rfl
    · rw [h2]
      unfold enterChunk
      rw [level_onLevel_self, level_onLevel_ne _ _ hab.symm]
      simp
    · rw [h3 k hka hkb]
      unfold enterChunk
      rw [level_onLevel_ne _ _ hkb, level_onLevel_ne _ _ hka]
    · rw [h4]
      rfl

/-- Chunks move between the queues of two dies, the newest first, as far as there is room. -/
theorem moveChunks_moved (s : State) {a b : Nat} (hab : a ≠ b) (n : Nat) :
    let xs := (stealables s (3 + a)).take (min n (queueRoom s (3 + b)))
    ((moveChunks s a b n).level (3 + a)).queue = xs.foldl List.erase (s.level (3 + a)).queue ∧
    ((moveChunks s a b n).level (3 + b)).queue = (s.level (3 + b)).queue ++ xs.map Chunk.moved ∧
    (∀ k, k ≠ 3 + a → k ≠ 3 + b → (moveChunks s a b n).level k = s.level k) ∧
    moveChunks s a b n = { s with dist := { s.dist with levels := (moveChunks s a b n).dist.levels } } :=
  eraseChunks_level _ _ (by omega) _ s

/-- A victim has two chunks to give. -/
theorem dieVictim_two {s : State} {die v : Nat} (_hd : die < 4) (h : dieVictim s die = some v) : v ≠ die ∧ 2 ≤ (stealables s (3 + v)).length := by
  unfold dieVictim at h
  have hm := List.mem_of_find?_eq_some h
  have hp := List.find?_some h
  obtain ⟨i, hi, rfl⟩ := List.mem_map.1 hm
  simp only [List.mem_cons, List.not_mem_nil, or_false] at hi
  refine ⟨by omega, ?_⟩
  simpa using (Bool.and_eq_true_iff.1 hp).2

theorem dieSteal_ready {s : State} {die : Nat} (h : dieStealReady s die = true) : die < 4 ∧ exec (.dieSteal die) s = .next (dieStealEffect s die) := by
  refine ⟨?_, ?_⟩
  · unfold dieStealReady at h
    simp only [Bool.and_eq_true, decide_eq_true_eq] at h
    exact h.1.1.1
  · show Host.Outcome.next (if dieStealReady s die = true then _ else s) = _
    rw [if_pos h]

theorem dieSteal_none (die : Nat) : Happens (.dieSteal die) (fun s => dieStealReady s die = true ∧ s.hostMode 2 = false ∧ dieVictim s die = none)
    (fun s t => t = noVictim s (3 + die)) := by
  rintro s ⟨hr, hm, hv⟩
  refine ⟨_, (dieSteal_ready hr).2, ?_⟩
  unfold dieStealEffect
  rw [hm, hv]
  rfl

theorem dieSteal_takes (die v : Nat) : Happens (.dieSteal die)
    (fun s => dieStealReady s die = true ∧ s.hostMode 2 = false ∧ dieVictim s die = some v)
    (fun s t => v ≠ die ∧ 2 ≤ (stealables s (3 + v)).length ∧ t = moveChunks s v die ((stealables s (3 + v)).length / 2)) := by
  rintro s ⟨hr, hm, hv⟩
  obtain ⟨hd, he⟩ := dieSteal_ready hr
  obtain ⟨hne, h2⟩ := dieVictim_two hd hv
  refine ⟨_, he, hne, h2, ?_⟩
  unfold dieStealEffect
  rw [hm, hv]
  rfl

theorem dieSteal_asksHost (die : Nat) : Happens (.dieSteal die) (fun s => dieStealReady s die = true ∧ s.hostMode 2 = true ∧ 3 + die ∉ s.dist.asked)
    (fun s t => t.dist.asked = s.dist.asked ++ [3 + die] ∧
      ∃ x ∈ t.host.pending, x.kind = 2 ∧ x.die = die ∧ x.payload = [BitVec.ofNat 64 s.cfg.pkg, 0, 0, 0, 0, 0, 0]) := by
  rintro s ⟨hr, hm, hn⟩
  refine ⟨_, (dieSteal_ready hr).2, ?_⟩
  unfold dieStealEffect
  rw [if_pos hm]
  exact askSteal_asks die hn

theorem dieSteal_idle (die : Nat) : Idle (.dieSteal die) fun s => dieStealReady s die = false := by
  refine idle_of (fun _ => rfl) fun s h => if_neg ?_
  rw [h]
  exact Bool.false_ne_true

/-! Requests of other packages (R160). -/

/-- Chunks that are given leave the package queue. -/
theorem giveChunks_level (thief : Nat) (xs : List Chunk) (s : State) :
    ((giveChunks s thief xs).level 2).queue = xs.foldl List.erase (s.level 2).queue ∧
      (∀ k, k ≠ 2 → (giveChunks s thief xs).level k = s.level k) ∧
      giveChunks s thief xs = { s with
        dist := { s.dist with levels := (giveChunks s thief xs).dist.levels }, fab := (giveChunks s thief xs).fab } := by
  induction xs generalizing s with
  | nil => exact ⟨rfl, fun _ _ => rfl, rfl⟩
  | cons c xs ih =>
    have hf := sendChunk_fabric (s.onLevel 2 fun l => { l with queue := l.queue.erase c }) thief 2 c
    obtain ⟨h1, h2, h3⟩ := ih (sendChunk (s.onLevel 2 fun l => { l with queue := l.queue.erase c }) thief 2 c)
    have he : giveChunks s thief (c :: xs) = giveChunks (sendChunk (s.onLevel 2 fun l => { l with queue := l.queue.erase c }) thief 2 c) thief xs := rfl
    rw [he]
    refine ⟨?_, fun k hk => ?_, ?_⟩
    · rw [h1, hf.level, level_onLevel_self]
      rfl
    · rw [h2 k hk, hf.level, level_onLevel_ne _ _ hk]
    · rw [h3, hf]
      rfl

theorem stealRequest_gives (thief count : Nat) : Happens (.stealRequest thief count)
    (fun s => thief / 16 = s.cfg.pkg / 16 ∧ thief ≠ s.cfg.pkg) (fun s t =>
      let xs := (stealables s 2).take (if count = 0 then (if (stealables s 2).length ≤ 1 then 0 else (stealables s 2).length / 2) else count)
      (t.level 2).queue = xs.foldl List.erase (s.level 2).queue ∧ (∀ k, k ≠ 2 → t.level k = s.level k) ∧
      (xs = [] → t = s.send thief false .stealNone) ∧ t = { s with dist := { s.dist with levels := t.dist.levels }, fab := t.fab }) := by
  rintro s ⟨ht, hne⟩
  refine ⟨stealRequestEffect s thief count, ?_, ?_⟩
  · show Host.Outcome.next (if (s.inTray thief && thief != s.cfg.pkg) = true then _ else s) = _
    rw [if_pos (by simp [State.inTray, ht, hne])]
  · unfold stealRequestEffect
    dsimp only
    generalize stealables s 2 = ys
    have hn : (if count == 0 then (if ys.length ≥ 2 then ys.length / 2 else 0) else min count ys.length) =
        min (if count = 0 then (if ys.length ≤ 1 then 0 else ys.length / 2) else count) ys.length := by
      by_cases hc : count = 0
      · by_cases hl : ys.length ≤ 1
        · rw [if_pos (by simpa using hc), if_neg (by omega), if_pos hc, if_pos hl, Nat.min_eq_left (Nat.zero_le _)]
        · rw [if_pos (by simpa using hc), if_pos (by omega), if_pos hc, if_neg hl, Nat.min_eq_left (by omega)]
      · rw [if_neg (by simpa using hc), if_neg hc]
    rw [hn]
    generalize (if count = 0 then (if ys.length ≤ 1 then 0 else ys.length / 2) else count) = n
    have htake : ys.take (min n ys.length) = ys.take n := by rw [List.take_eq_take_iff]; omega
    by_cases hz : min n ys.length = 0
    · have hnil : ys.take n = [] := by rw [← htake, hz, List.take_zero]
      rw [hnil, if_pos (by simpa using hz)]
      have hf := send_fabric s thief false .stealNone
      exact ⟨by rw [hf.level]; rfl, fun k _ => hf.level k, fun _ => rfl, by rw [hf]⟩
    · rw [if_neg (by simpa using hz), htake]
      obtain ⟨h1, h2, h3⟩ := giveChunks_level thief (ys.take n) s
      refine ⟨h1, h2, fun he => absurd ?_ hz, h3⟩
      rw [← List.length_take, he]
      rfl

theorem stealRequest_idle (thief count : Nat) : Idle (.stealRequest thief count) fun s => thief / 16 ≠ s.cfg.pkg / 16 ∨ thief = s.cfg.pkg := by
  refine idle_of (fun _ => rfl) fun s h => if_neg ?_
  simp only [State.inTray, Bool.and_eq_true, beq_iff_eq, bne_iff_ne]
  tauto

/-! Answers of the host (R182). -/

theorem exec_stealAnswer {s : State} {tag : Nat} {e : HostEvent} (h : pendingEvent s 2 tag = some e) (victim count : Nat) :
    exec (.stealAnswer tag victim count) s = .next (stealAnswerEffect s e victim count) := by
  show Host.Outcome.next _ = _
  rw [h]

/-- What has been answered waits no longer. -/
theorem answered_done (s : State) (e : HostEvent) : e ∉ (s.answered e).host.pending := by
  unfold State.answered
  simp

theorem stealAnswer_die (tag victim count : Nat) (e : HostEvent) : Happens (.stealAnswer tag victim count)
    (fun s => pendingEvent s 2 tag = some e ∧ e.die < 4 ∧ victim < 4 ∧ victim ≠ e.die ∧ 0 < count)
    (fun s t => t = moveChunks { s.answered e with dist := { s.dist with asked := s.dist.asked.filter (· != 3 + e.die) } } victim e.die count) := by
  rintro s ⟨he, hd, hv, hne, hc⟩
  refine ⟨_, exec_stealAnswer he .., ?_⟩
  have h4 : (e.die == 4) = false := by simpa using Nat.ne_of_lt hd
  have h0 : (count == 0) = false := by simpa using Nat.ne_of_gt hc
  have hm : (decide (victim < 4) && victim != e.die) = true := by simp [hv, hne]
  unfold stealAnswerEffect
  simp only [h4, h0, hm, Bool.false_eq_true, if_false, if_true]

theorem stealAnswer_package (tag victim count : Nat) (e : HostEvent) : Happens (.stealAnswer tag victim count)
    (fun s => pendingEvent s 2 tag = some e ∧ e.die = 4 ∧ victim / 16 = s.cfg.pkg / 16 ∧ victim ≠ s.cfg.pkg ∧ s.reachable victim = true ∧
      s.dist.asking = none ∧ 0 < count)
    (fun s t => t = askVictim { s with
      host := { s.host with pending := s.host.pending.filter (· ≠ e) }
      dist := { s.dist with asked := s.dist.asked.filter (· ≠ 2) } } victim count) := by
  rintro s ⟨he, hd, ht, hne, hr, ha, hc⟩
  refine ⟨_, exec_stealAnswer he .., ?_⟩
  have h4 : (e.die == 4) = true := by simpa using hd
  have h0 : (count == 0) = false := by simpa using Nat.ne_of_gt hc
  have hp : s.host.pending.filter (· ≠ e) = s.host.pending.filter (· != e) := by simp only [bne, beq_eq_decide, ← decide_not]
  have hq : s.dist.asked.filter (· ≠ 2) = s.dist.asked.filter (· != 2) := by simp only [bne, beq_eq_decide, ← decide_not]
  have hgo : (s.inTray victim && victim != s.cfg.pkg && s.reachable victim && s.dist.asking.isNone) = true := by
    simp [State.inTray, ht, hne, hr, ha]
  unfold stealAnswerEffect
  simp only [h4, h0, Bool.false_eq_true, if_false, if_true]
  rw [hp, hq]
  exact if_pos hgo

theorem stealAnswer_idle (tag victim count : Nat) : Idle (.stealAnswer tag victim count) fun s => pendingEvent s 2 tag = none := by
  refine idle_of (fun _ => rfl) fun s h => ?_
  rw [h]

end Sys2Proof.Machine
end

section
/-! The pruner (R166, R167, R182), and the move of a block of a memory. -/

namespace Sys2Proof.Machine

/-! Moving bytes within a memory. -/

theorem cellsRead_filter (p : Nat → Bool) (m : List Host.Cell) (k : Nat) :
    cellsRead (m.filter fun c => p c.1) k = if p k then cellsRead m k else unlistedByte := by
  induction m with
  | nil => simp [cellsRead]
  | cons x m ih =>
    obtain ⟨a, b⟩ := x
    rw [List.filter_cons]
    by_cases hp : p a = true
    · rw [if_pos hp]
      unfold cellsRead
      by_cases ha : a = k
      · subst ha; rw [if_pos rfl, if_pos rfl, if_pos hp]
      · rw [if_neg ha, if_neg ha, ih]
    · rw [if_neg hp, ih]
      by_cases hk : p k = true
      · have ha : a ≠ k := fun e => hp (e ▸ hk)
        rw [if_pos hk, if_pos hk, cellsRead, if_neg ha]
      · rw [if_neg hk, if_neg hk]

theorem read_zero (m : Mem) (a n k : Nat) : (m.zero a n).read k = if a ≤ k ∧ k < a + n then unlistedByte else m.read k := by
  unfold Mem.read Mem.zero
  rw [cellsRead_filter fun k => !(decide (a ≤ k) && decide (k < a + n))]
  by_cases h : a ≤ k ∧ k < a + n
  · rw [if_pos h, if_neg (by simp [h])]
  · rw [if_neg h, if_pos (by simp only [Bool.not_eq_true', Bool.and_eq_false_iff, decide_eq_false_iff_not]; tauto)]

theorem read_setPoisons (gs : List Nat) (f : Nat → Nat) (m : Mem) (k : Nat) : (gs.foldl (fun m g => m.setPoison (f g) true) m).read k = m.read k := by
  induction gs generalizing m with
  | nil => rfl
  | cons g gs ih => exact ih _

/-- Cells written from their own place to another. -/
theorem read_writeCells {a b : Nat} {cs : List Host.Cell} (hwf : Mem.cellsWf cs = true) (hlo : ∀ c ∈ cs, a ≤ c.1) {m : Mem}
    (hm : Mem.cellsWf m.cells = true) {i : Nat} (hi : (∀ c ∈ cs, c.1 ≠ a + i) ∨ m.read (b + i) = unlistedByte) :
    (cs.foldl (fun m c => m.write (c.1 - a + b) c.2) m).read (b + i) =
      if ∃ c ∈ cs, c.1 = a + i then cellsRead cs (a + i) else m.read (b + i) := by
  induction cs generalizing m with
  | nil => simp
  | cons c cs ih =>
    obtain ⟨k, v⟩ := c
    obtain ⟨-, hl, hcs⟩ := cellsWf_cons.1 hwf
    have hk : a ≤ k := hlo _ List.mem_cons_self
    have hlo' : ∀ c ∈ cs, a ≤ c.1 := fun c hc => hlo c (List.mem_cons_of_mem _ hc)
    have hm' : Mem.cellsWf (m.write (k - a + b) v).cells = true := cellsWf_write hm ..
    rw [List.foldl_cons]
    by_cases he : k = a + i
    · have hat : k - a + b = b + i := by omega
      have hnone : ∀ c ∈ cs, c.1 ≠ a + i := fun c hc e => by
        have : k < c.1 := hl c hc
        omega
      have hself : (m.write (k - a + b) v).read (b + i) = v := by rw [hat]; exact cellsRead_write_self hm ..
      rw [ih hcs hlo' hm' (.inl hnone), if_neg fun ⟨c, hc, e⟩ => hnone c hc e, if_pos ⟨(k, v), List.mem_cons_self, he⟩, hself, cellsRead, if_pos he]
    · have hne : b + i ≠ k - a + b := by omega
      have hread : (m.write (k - a + b) v).read (b + i) = m.read (b + i) := cellsRead_write_ne _ hne v
      rw [ih hcs hlo' hm' (by
        rcases hi with hi | hi
        · exact .inl fun c hc => hi c (List.mem_cons_of_mem _ hc)
        · exact .inr (hread.trans hi)), hread]
      have hex : (∃ c ∈ (k, v) :: cs, c.1 = a + i) ↔ ∃ c ∈ cs, c.1 = a + i := by simp [he]
      rw [cellsRead, if_neg he]
      exact if_congr hex.symm rfl rfl

theorem cellsRead_unlisted {m : List Host.Cell} {k : Nat} (h : ¬ ∃ c ∈ m, c.1 = k) : cellsRead m k = unlistedByte := by
  induction m with
  | nil => rfl
  | cons x m ih =>
    obtain ⟨a, b⟩ := x
    rw [cellsRead, if_neg fun e => h ⟨_, List.mem_cons_self, e⟩]
    exact ih fun ⟨c, hc, e⟩ => h ⟨c, List.mem_cons_of_mem _ hc, e⟩

/-- The bytes of a block stand at its new place (R166). -/
theorem read_move {m : Mem} (hm : m.wf = true) {a b n i : Nat} (hi : i < n) : (m.move a b n).read (b + i) = m.read (a + i) := by
  have hcells := wf_cells hm
  have hin : cellsRead (m.cells.filter fun c => decide (a ≤ c.1) && decide (c.1 < a + n)) (a + i) = m.read (a + i) := by
    rw [cellsRead_filter fun k => decide (a ≤ k) && decide (k < a + n)]
    exact if_pos (by simp [hi])
  have hzero : (m.zero b n).read (b + i) = unlistedByte := by
    rw [read_zero]; exact if_pos (by omega)
  unfold Mem.move
  dsimp only
  rw [read_setPoisons _ fun k => k - a / 4 + b / 4]
  rw [read_writeCells (cellsWf_filter hcells _) (fun c hc => by
      have := (List.mem_filter.1 hc).2
      simp only [Bool.and_eq_true, decide_eq_true_eq] at this
      exact this.1) (cellsWf_filter hcells _) (.inr hzero), hin, hzero]
  split
  · rfl
  · next h => rw [← hin]; exact (cellsRead_unlisted h).symm

/-! Changing warps one after another. -/

theorem warpAt_foldOnWarp {ks : List Nat} (hn : ks.Nodup) {k : Nat} (hk : k ∈ ks) (f : Warp → Warp) (s : State) :
    (ks.foldl (fun s k => s.onWarp k f) s).warpAt k = (s.warpAt k).map f := by
  have hout : ∀ (ks : List Nat) (s : State), k ∉ ks → (ks.foldl (fun s k => s.onWarp k f) s).warpAt k = s.warpAt k := by
    intro ks
    induction ks with
    | nil => exact fun _ _ => rfl
    | cons j ks ih =>
      intro s h
      obtain ⟨hj, hks⟩ := List.ne_and_not_mem_of_not_mem_cons h
      rw [List.foldl_cons, ih _ hks, warpAt_onWarp_ne _ _ hj]
  induction ks generalizing s with
  | nil => cases hk
  | cons j ks ih =>
    obtain ⟨hj, hn⟩ := List.nodup_cons.1 hn
    rw [List.foldl_cons]
    rcases List.mem_cons.1 hk with rfl | hin
    · rw [hout ks _ hj, warpAt_onWarp_self]
    · rw [ih hn hin, warpAt_onWarp_ne _ _ (ne_of_mem_of_not_mem hin hj)]

/-- Changing warps changes nothing else. -/
theorem foldOnWarp_rest (ks : List Nat) (f : Warp → Warp) (s : State) :
    ks.foldl (fun s k => s.onWarp k f) s = { s with thr := { s.thr with warps := (ks.foldl (fun s k => s.onWarp k f) s).thr.warps } } := by
  induction ks generalizing s with
  | nil => rfl
  | cons k ks ih => exact (ih _).trans rfl

/-- The keys of a canonical map differ. -/
theorem keys_nodup {α : Type} {m : NMap α} (h : m.wf = true) : (m.map (·.1)).Nodup := by
  induction m with
  | nil => exact List.nodup_nil
  | cons x m ih =>
    obtain ⟨k, v⟩ := x
    obtain ⟨ha, hw⟩ := NMap.wf_cons.1 h
    rw [List.map_cons, List.nodup_cons]
    refine ⟨fun hk => ?_, ih hw⟩
    obtain ⟨y, hy, e⟩ := List.mem_map.1 hk
    have := ha y hy
    dsimp only at e
    omega

theorem moveOwners_nodup {s : State} (h : s.thr.warps.wf = true) (m : PruneMove) : (moveOwners s m).Nodup :=
  (keys_nodup h).sublist (List.filter_sublist.map _)

/-! The trigger. -/

theorem pruneTrigger_ready {s : State} {core : Nat} {x : Entry} (hx : pruneFor s core = some x) (hm : ∀ m ∈ s.dist.moves, m.core ≠ core) :
    exec (.prunerTrigger core) s = .next (prunerEffect s core x) := by
  have hready : prunerReady s core = true := by
    unfold prunerReady
    rw [hx]
    have : (s.dist.moves.any fun m => m.core == core) = false := by
      rw [List.any_eq_false]
      intro m h
      simpa using hm m h
    rw [this]
    rfl
  show Host.Outcome.next _ = _
  rw [hx]
  exact congrArg Host.Outcome.next (if_pos hready)

theorem pruneTrigger_chooses (core : Nat) (x : Entry) : Happens (.prunerTrigger core)
    (fun s => pruneFor s core = some x ∧ (∀ m ∈ s.dist.moves, m.core ≠ core) ∧ s.hostMode 3 = false)
    (fun s t => t = { s with dist := { s.dist with moves := s.dist.moves ++ pruneMoves s core x.grid } }) := by
  rintro s ⟨hx, hm, hh⟩
  refine ⟨_, pruneTrigger_ready hx hm, ?_⟩
  unfold prunerEffect
  rw [hh]
  rfl

theorem pruneTrigger_asks (core : Nat) (x : Entry) : Happens (.prunerTrigger core)
    (fun s => pruneFor s core = some x ∧ (∀ m ∈ s.dist.moves, m.core ≠ core) ∧ s.hostMode 3 = true ∧ ∀ e ∈ s.host.pending, e.kind ≠ 4)
    (fun s t => t.dist = s.dist ∧ ∃ e ∈ t.host.pending, e.kind = 4 ∧ e.die = core / 32 ∧ e.payload = prunePayload core x.grid) := by
  rintro s ⟨hx, hm, hh, hp⟩
  refine ⟨_, pruneTrigger_ready hx hm, ?_⟩
  have hnone : (s.host.pending.any fun e => e.kind == 4 && e.payload.head? == some (BitVec.ofNat 64 core)) = false := by
    rw [List.any_eq_false]
    intro e he
    simp [hp e he]
  unfold prunerEffect
  rw [if_pos hh, hnone, if_neg Bool.false_ne_true]
  refine ⟨by rw [raiseEvent_rest], ⟨s.fresh % 65536, 4, core / 32, prunePayload core x.grid⟩, ?_, rfl, rfl, rfl⟩
  rw [raiseEvent_pending]
  exact List.mem_append_right _ (List.mem_singleton_self _)

theorem pruneTrigger_idle (core : Nat) : Idle (.prunerTrigger core) fun s => pruneFor s core = none := by
  refine idle_of (fun _ => rfl) fun s h => ?_
  rw [h]

/-! A step of the pruner. -/

theorem nextPrune_core {s : State} {core : Nat} {m : PruneMove} (h : nextPrune s core = some m) : m.core = core := by
  simpa using List.find?_some h

theorem pruneStep_next {s : State} {core : Nat} {m : PruneMove} (h : nextPrune s core = some m)
    (hr : moveValid s m = true → (if jobActive s core then m.stopped else !m.stopped || moveReady s m) = true) :
    exec (.prunerMoveStep core) s = .next (if moveValid s m then
      if jobActive s core then stopOwners s m false else if m.stopped then (if moveReady s m then moveBlock (dropMove s m) m else s)
      else stopOwners s m true else dropMove s m) := by
  have hready : pruneStepReady s core = true := by
    unfold pruneStepReady
    rw [h]
    dsimp only
    cases hv : moveValid s m with
    | false => rfl
    | true => exact hr hv
  show Host.Outcome.next _ = _
  rw [h]
  dsimp only
  rw [if_pos hready]
  unfold pruneStepEffect
  rw [nextPrune_core h]
  cases moveValid s m <;> cases m.stopped <;> rfl

theorem pruneStep_drops (core : Nat) (m : PruneMove) : Happens (.prunerMoveStep core)
    (fun s => nextPrune s core = some m ∧ moveValid s m = false)
    (fun s t => t = { s with dist := { s.dist with moves := s.dist.moves.erase m } }) := by
  rintro s ⟨h, hv⟩
  refine ⟨_, pruneStep_next h (by rw [hv]; exact nofun), ?_⟩
  rw [hv]
  rfl

theorem stopOwners_eq (s : State) (m : PruneMove) (b : Bool) : stopOwners s m b =
    { s with dist := { s.dist with moves := s.dist.moves.map fun x => if x = m then { x with stopped := b } else x } } := by
  unfold stopOwners
  simp only [beq_iff_eq]

theorem pruneStep_releases (core : Nat) (m : PruneMove) : Happens (.prunerMoveStep core)
    (fun s => nextPrune s core = some m ∧ moveValid s m = true ∧ jobActive s core = true ∧ m.stopped = true)
    (fun s t => t = { s with dist := { s.dist with moves := s.dist.moves.map fun x => if x = m then { x with stopped := false } else x } }) := by
  rintro s ⟨h, hv, hj, hs⟩
  refine ⟨_, pruneStep_next h fun _ => by rw [if_pos hj]; exact hs, ?_⟩
  rw [if_pos hv, if_pos hj]
  exact stopOwners_eq ..

theorem pruneStep_stops (core : Nat) (m : PruneMove) : Happens (.prunerMoveStep core)
    (fun s => nextPrune s core = some m ∧ moveValid s m = true ∧ jobActive s core = false ∧ m.stopped = false)
    (fun s t => t = { s with dist := { s.dist with moves := s.dist.moves.map fun x => if x = m then { x with stopped := true } else x } }) := by
  rintro s ⟨h, hv, hj, hs⟩
  refine ⟨_, pruneStep_next h fun _ => by rw [hj, hs]; rfl, ?_⟩
  rw [if_pos hv, hj, hs]
  exact stopOwners_eq ..

/-- The bases of a block's owners after its move (R54). -/
def rebased (m : PruneMove) (w : Warp) : Warp := { w with segs := { w.segs with
  sbase := w.segs.sbase + BitVec.ofNat 19 (4096 * m.new) - BitVec.ofNat 19 (4096 * m.old) } }

theorem moveBlock_scratch {m : PruneMove} (hk : m.kind = 1) (s : State) : moveBlock s m =
    ((moveOwners s m).foldl (fun s k => s.onWarp k (rebased m)) (s.onScratch fun c =>
      c.move (scratchAddr m.core (4096 * m.old)) (scratchAddr m.core (4096 * m.new)) (4096 * m.size))).onGroup m.wg
        fun g => { g with scr := (m.new, g.scr.2) } := by
  unfold moveBlock
  rw [hk]
  rfl

theorem pruneStep_moves (core : Nat) (m : PruneMove) (y : WorkGroup) : Happens (.prunerMoveStep core)
    (fun s => nextPrune s core = some m ∧ moveValid s m = true ∧ jobActive s core = false ∧ m.stopped = true ∧ moveReady s m = true ∧ m.kind = 1 ∧
      s.work.groups.find m.wg = some y ∧ s.thr.warps.wf = true ∧ s.mem.scratch.wf = true)
    (fun s t => t.work.groups.find m.wg = some { y with scr := (m.new, y.scr.2) } ∧
      (∀ a < 4096 * m.size, t.mem.scratch.read (scratchAddr core (4096 * m.new) + a) = s.mem.scratch.read (scratchAddr core (4096 * m.old) + a)) ∧
      (∀ k ∈ moveOwners s m, ∀ w, s.warpAt k = some w → t.warpAt k = some (rebased m w)) ∧
      t.mem.hbm = s.mem.hbm ∧ t.mem.acc = s.mem.acc ∧ t.thr.regs = s.thr.regs) := by
  rintro s ⟨h, hv, hj, hs, hr, hk, hy, hw, hm⟩
  refine ⟨_, pruneStep_next h fun _ => by rw [hj, hs, hr]; rfl, ?_⟩
  obtain rfl := nextPrune_core h
  rw [if_pos hv, hj, if_neg Bool.false_ne_true, if_pos hs, if_pos hr, moveBlock_scratch hk]
  refine ⟨?_, fun a ha => ?_, fun k hk w hkw => ?_, ?_, ?_, ?_⟩
  · rw [foldOnWarp_rest]
    show NMap.find m.wg (NMap.adjust m.wg _ _) = _
    rw [NMap.find_adjust_self]
    exact congrArg (Option.map _) hy
  · rw [foldOnWarp_rest]
    exact read_move hm ha
  · show State.warpAt _ k = _
    refine (warpAt_foldOnWarp (moveOwners_nodup hw m) hk (rebased m) _).trans ?_
    exact congrArg (Option.map (rebased m)) hkw
  · rw [foldOnWarp_rest]; rfl
  · rw [foldOnWarp_rest]; rfl
  · rw [foldOnWarp_rest]; rfl

theorem pruneStep_idle (core : Nat) : Idle (.prunerMoveStep core) fun s => pruneStepReady s core = false := by
  refine idle_of (fun _ => rfl) fun s h => ?_
  rw [h]
  cases nextPrune s core <;> rfl

/-! Answers. -/

theorem exec_pruneAnswer {s : State} {tag : Nat} {e : HostEvent} (h : pendingEvent s 4 tag = some e) (moves : List (Nat × Nat × Nat)) :
    exec (.pruneAnswer tag moves) s = .next (pruneAnswerEffect s e moves) := by
  show Host.Outcome.next _ = _
  rw [h]

theorem answered_eq (s : State) (e : HostEvent) : s.answered e = { s with host := { s.host with pending := s.host.pending.filter (· ≠ e) } } := by
  unfold State.answered
  simp only [bne, beq_eq_decide, ← decide_not]

theorem pruneAnswer_job (tag : Nat) (moves : List (Nat × Nat × Nat)) (e : HostEvent) : Happens (.pruneAnswer tag moves)
    (fun s => pendingEvent s 4 tag = some e ∧ jobActive s (e.payload.headD 0).toNat = true)
    (fun s t => t = { s with host := { s.host with pending := s.host.pending.filter (· ≠ e) } }) := by
  rintro s ⟨he, hj⟩
  refine ⟨_, exec_pruneAnswer he _, ?_⟩
  unfold pruneAnswerEffect
  dsimp only
  rw [if_pos hj]
  exact answered_eq ..

theorem pruneAnswer_moves (tag a b c : Nat) (e : HostEvent) (y : PruneMove) : Happens (.pruneAnswer tag [(a, b, c)])
    (fun s => pendingEvent s 4 tag = some e ∧ jobActive s (e.payload.headD 0).toNat = false ∧
      namedMove s (e.payload.headD 0).toNat (a % 4) (a / 4) b c = some y)
    (fun s t => t = { s with
      host := { s.host with pending := s.host.pending.filter (· ≠ e) }
      dist := { s.dist with moves := s.dist.moves ++ [y] } }) := by
  rintro s ⟨he, hj, hn⟩
  refine ⟨_, exec_pruneAnswer he _, ?_⟩
  have hn' : namedMove (s.answered e) (e.payload.headD 0).toNat (a % 4) (a / 4) b c = some y := hn
  unfold pruneAnswerEffect
  dsimp only
  rw [hj, if_neg Bool.false_ne_true]
  dsimp only [List.foldl_cons, List.foldl_nil]
  rw [hn', answered_eq]

theorem pruneAnswer_idle (tag : Nat) (moves : List (Nat × Nat × Nat)) : Idle (.pruneAnswer tag moves) fun s => pendingEvent s 4 tag = none := by
  refine idle_of (fun _ => rfl) fun s h => ?_
  rw [h]

/-- Settles O45: routing and passing down, stealing, the pruner. -/
theorem distributionEvents : Obligations.DistributionEvents := by
  refine ⟨fun level index x id aside child c => ⟨?_, ?_, route_pays level index x id aside, route_idle level index, pass_down level index child c,
      pass_idle level index, ?_⟩,
    fun die thief count tag victim given e => ⟨?_, ?_, ?_, packageSteal_idle victim given, ?_, ?_, dieSteal_asksHost die, dieSteal_idle die,
      stealRequest_gives thief count, stealRequest_idle thief count, ?_, stealAnswer_package tag victim count e, stealAnswer_idle tag victim count⟩,
    fun core tag x m e moves => ⟨pruneTrigger_chooses core x, pruneTrigger_asks core x, pruneTrigger_idle core, pruneStep_drops core m,
      pruneStep_releases core m, pruneStep_stops core m, ?_, pruneStep_idle core, pruneAnswer_job tag moves e, ?_, pruneAnswer_idle tag moves⟩⟩
  · intro s hs
    obtain ⟨t, ht, ⟨h1, h2, h3, h4, h5⟩, hy⟩ := route_child level index x id aside s hs
    exact ⟨t, ht, ⟨h1, h2, h3, h4, h5⟩, hy⟩
  · intro s hs
    obtain ⟨t, ht, ⟨h1, h2, h3, h4, h5⟩, hy⟩ := route_aside level index x id aside s hs
    exact ⟨t, ht, ⟨h1, h2, h3, h4, h5⟩, hy⟩
  · intro s hr hx
    exact (nextClosed_first (passReady_next hr hx)).2
  · rintro a v s ⟨hl, hv, hp⟩
    refine ⟨askVictim s v 0, ?_, rfl, nextVictim_inTray hv⟩
    rw [packageSteal_looks hl, hv]
    exact congrArg Host.Outcome.next (if_pos hp)
  · rintro a s ⟨hl, hv⟩
    refine ⟨noVictim (stealDone s) 2, ?_, noVictim_later ..⟩
    rw [packageSteal_looks hl, hv]
  · rintro s ⟨hf, hm, ha, hn⟩
    exact ⟨_, packageSteal_asksHost hf hm ha, askSteal_asks 4 hn⟩
  · intro s hs
    obtain ⟨t, ht, rfl⟩ := dieSteal_none die s hs
    exact ⟨_, ht, noVictim_later ..⟩
  · intro v s hs
    obtain ⟨t, ht, hne, h2, rfl⟩ := dieSteal_takes die v s hs
    obtain ⟨h3, h4, h5, h6⟩ := moveChunks_moved s hne ((stealables s (3 + v)).length / 2)
    exact ⟨_, ht, hne, h2, h3, h4, h5, by rw [h6], by rw [h6], by rw [h6]⟩
  · intro s hs
    obtain ⟨t, ht, rfl⟩ := stealAnswer_die tag victim count e s hs
    obtain ⟨-, -, -, hne, -⟩ := hs
    obtain ⟨h3, h4, h5, h6⟩ := moveChunks_moved
      { s.answered e with dist := { s.dist with asked := s.dist.asked.filter (· != 3 + e.die) } } hne count
    refine ⟨_, ht, ⟨h3, h4, h5, by rw [h6]; rfl, by rw [h6]; rfl, by rw [h6]; rfl⟩, ?_, ?_⟩
    · rw [h6]; exact answered_done s e
    · rw [h6]; simp
  · rintro y s ⟨h, hv, hj, hs, hr, hk, hy, hw, hm, -⟩
    exact pruneStep_moves core m y s ⟨h, hv, hj, hs, hr, hk, hy, hw, hm⟩
  · rintro a b c y rfl
    exact pruneAnswer_moves tag a b c e y

end Sys2Proof.Machine
end

section
/-! Placement of units in launch buffers (R14, R156, R158, R159). -/

namespace Sys2Proof.Machine

/-! Fresh numbers. -/

/-- The number after the largest key is not in use, nor any above it. -/
theorem find_of_fresh_le {α : Type} {m : NMap α} (h : m.wf = true) {n : Nat} (hn : m.fresh ≤ n) : m.find n = none := by
  have key : ∀ m : NMap α, m.wf = true → m.fresh ≤ n → m.find n = none ∧ ∀ x ∈ m, x.1 < n := by
    intro m
    induction m with
    | nil => exact fun _ _ => ⟨rfl, nofun⟩
    | cons x m ih =>
      obtain ⟨j, v⟩ := x
      intro hw hf
      obtain ⟨ha, hw'⟩ := NMap.wf_cons.1 hw
      cases m with
      | nil =>
        have hlt : j < n := hf
        refine ⟨?_, fun y hy => ?_⟩
        · rw [NMap.find, if_neg (by omega)]; rfl
        · obtain rfl := List.mem_singleton.1 hy
          exact hlt
      | cons y m =>
        obtain ⟨hnone, hlt⟩ := ih hw' hf
        have hj : j < n := Nat.lt_trans (ha y List.mem_cons_self) (hlt y List.mem_cons_self)
        refine ⟨?_, fun z hz => ?_⟩
        · rw [NMap.find, if_neg (by omega)]; exact hnone
        · rcases List.mem_cons.1 hz with rfl | hz
          · exact hj
          · exact hlt z hz
  exact (key m h hn).1

/-! The spot of a work-group. -/

theorem spotOn_core {s : State} {g : Grid} {core : Nat} {x : Spot} (h : spotOn s g core = some x) : x.core = core := by
  unfold spotOn at h
  dsimp only at h
  split at h
  · cases h
  · split at h
    · split at h
      · cases h; rfl
      · cases h
    · split at h
      · cases h
      · split at h
        · cases h; rfl
        · cases h

theorem coreOffer_core {s : State} {g : Grid} {core : Nat} {x : Spot} (h : coreOffer s g core = some x) : x.core = core := by
  unfold coreOffer at h
  have h := (Option.ite_none_left_eq_some.1 h).2
  split at h
  · next y hy =>
    split at h
    · cases h; exact spotOn_core hy
    · cases h
  · cases h

/-- A choice between the elements of a list is one of them. -/
theorem foldl_choice_mem {α : Type} (p : α → α → Bool) (x : α) (xs : List α) : xs.foldl (fun a b => if p a b then b else a) x ∈ x :: xs := by
  induction xs generalizing x with
  | nil => exact List.mem_cons_self
  | cons y xs ih =>
    rw [List.foldl_cons]
    by_cases hp : p x y = true
    · rw [if_pos hp]
      exact List.mem_cons_of_mem _ (ih y)
    · rw [if_neg hp]
      rcases List.mem_cons.1 (ih x) with h | h
      · rw [h]; exact List.mem_cons_self
      · exact List.mem_cons_of_mem _ (List.mem_cons_of_mem _ h)

theorem branchOffer_core {s : State} {g : Grid} {held cores : List Nat} {x : Spot} (h : branchOffer s g held cores = some x) : x.core ∈ cores := by
  unfold branchOffer at h
  dsimp only at h
  split at h
  · cases h
  · next y ys hy =>
    cases h
    have hm := foldl_choice_mem (fun a b => decide (coreWarps s b.core < coreWarps s a.core)) y ys
    simp only [decide_eq_true_eq] at hm
    rw [← hy] at hm
    obtain ⟨c, hc, ho⟩ := List.mem_filterMap.1 hm
    rw [coreOffer_core ho]
    exact (List.mem_filter.1 hc).1

/-- A die offers a core of its own. -/
theorem dieOffer_die {s : State} {die h : Nat} {g : Grid} {held : List Nat} {x : Spot} (ho : dieOffer s die g h held = some x) :
    x.core / 32 = die := by
  unfold dieOffer at ho
  obtain ⟨cs, hcs, hx⟩ := List.exists_of_findSome?_eq_some ho
  obtain ⟨i, -, rfl⟩ := List.mem_map.1 hcs
  obtain ⟨k, hk, he⟩ := List.mem_map.1 (branchOffer_core hx)
  rw [List.mem_range] at hk
  omega

/-! Placing a unit. -/

/-- Work-group n waits for its residency, with a number of its own, in the launch buffer of a core of the die. -/
structure Placed (s t : State) (die grid h id n : Nat) (y : WorkGroup) : Prop where
  fresh : s.work.groups.find n = none
  group : t.work.groups.find n = some y
  id : y.id = BitVec.ofNat 64 id
  grid : y.grid = grid
  hash : y.hash = BitVec.ofNat 16 h
  die : y.core / 32 = die
  waits : y.resident = false
  buffer : n ∈ bufferOf t y.core

/-- t is s with more work-groups in launch buffers. -/
structure Fuller (s t : State) : Prop where
  wf : s.work.groups.wf = true → t.work.groups.wf = true
  groups : s.work.groups.wf = true → ∀ n y, s.work.groups.find n = some y → t.work.groups.find n = some y
  buffers : ∀ core, ∀ n ∈ bufferOf s core, n ∈ bufferOf t core

theorem Fuller.refl (s : State) : Fuller s s := ⟨fun h => h, fun _ _ _ h => h, fun _ _ h => h⟩

theorem Fuller.trans {s t u : State} (h : Fuller s t) (h' : Fuller t u) : Fuller s u :=
  ⟨fun hw => h'.wf (h.wf hw), fun hw n y hy => h'.groups (h.wf hw) n y (h.groups hw n y hy), fun c n hn => h'.buffers c n (h.buffers c n hn)⟩

/-- The number of the work-group, and its record, that putting one into a buffer makes. -/
theorem putGroup_eq (s : State) (grid id h : Nat) (gang : Option Nat) (x : Spot) : ∃ y : WorkGroup,
    y.id = BitVec.ofNat 64 id ∧ y.grid = grid ∧ y.hash = BitVec.ofNat 16 h ∧ y.core = x.core ∧ y.resident = false ∧
    (putGroup s grid id h gang x).work.groups = s.work.groups.insert (freshGroup s) y ∧
    (putGroup s grid id h gang x).dist.buffers = s.dist.buffers.insert x.core (bufferOf s x.core ++ [freshGroup s]) := by
  unfold putGroup
  dsimp only
  split <;> exact ⟨_, rfl, rfl, rfl, rfl, rfl, rfl, rfl⟩

theorem bufferOf_insert {s t : State} {c : Nat} {ns : List Nat} (h : t.dist.buffers = s.dist.buffers.insert c ns) (d : Nat) :
    bufferOf t d = if d = c then ns else bufferOf s d := by
  unfold bufferOf NMap.getD
  rw [h]
  by_cases hd : d = c
  · subst hd; rw [NMap.find_insert_self, if_pos rfl]; rfl
  · rw [NMap.find_insert_ne hd, if_neg hd]

theorem freshGroup_free {s : State} (h : s.work.groups.wf = true) : s.work.groups.find (freshGroup s) = none :=
  find_of_fresh_le h (Nat.le_max_left ..)

theorem putGroup_fuller (s : State) (grid id h : Nat) (gang : Option Nat) (x : Spot) : Fuller s (putGroup s grid id h gang x) := by
  obtain ⟨y, -, -, -, -, -, hg, hb⟩ := putGroup_eq s grid id h gang x
  refine ⟨fun hw => ?_, fun hw n z hz => ?_, fun core n hn => ?_⟩
  · rw [hg]; exact NMap.wf_insert hw
  · have hne : n ≠ freshGroup s := by
      rintro rfl
      rw [freshGroup_free hw] at hz
      cases hz
    rw [hg, NMap.find_insert_ne hne]
    exact hz
  · rw [bufferOf_insert hb]
    split
    · next hc => subst hc; exact List.mem_append_left _ hn
    · exact hn

theorem putGroup_placed {s : State} (hw : s.work.groups.wf = true) (grid id h : Nat) (gang : Option Nat) (x : Spot) {die : Nat}
    (hd : x.core / 32 = die) : ∃ n y, Placed s (putGroup s grid id h gang x) die grid h id n y := by
  obtain ⟨y, hid, hgrid, hhash, hcore, hres, hg, hb⟩ := putGroup_eq s grid id h gang x
  refine ⟨freshGroup s, y, freshGroup_free hw, ?_, hid, hgrid, hhash, by rw [hcore]; exact hd, hres, ?_⟩
  · rw [hg]; exact NMap.find_insert_self ..
  · rw [bufferOf_insert hb, hcore, if_pos rfl]
    exact List.mem_append_right _ (List.mem_singleton_self _)

/-- A work-group that is placed stays so while others are. -/
theorem Placed.fuller {s t u : State} {die grid h id n : Nat} {y : WorkGroup} (hp : Placed s t die grid h id n y) (hw : t.work.groups.wf = true)
    (hf : Fuller t u) : Placed s u die grid h id n y :=
  ⟨hp.fresh, hf.groups hw _ _ hp.group, hp.id, hp.grid, hp.hash, hp.die, hp.waits, hf.buffers _ _ hp.buffer⟩

/-- A number that is free later was free before. -/
theorem Placed.earlier {r s t : State} {die grid h id n : Nat} {y : WorkGroup} (hp : Placed s t die grid h id n y) (hw : r.work.groups.wf = true)
    (hf : Fuller r s) : Placed r t die grid h id n y := by
  refine { hp with fresh := ?_ }
  cases hr : r.work.groups.find n with
  | none => rfl
  | some z =>
    have := hf.groups hw n z hr
    rw [hp.fresh] at this
    cases this

theorem putUnit_placed {die grid h : Nat} {g : Grid} {gang : Option Nat} {ids held : List Nat} {s t : State} (hw : s.work.groups.wf = true)
    (hp : putUnit die g grid h gang ids held s = some t) : Fuller s t ∧ ∀ id ∈ ids, ∃ n y, Placed s t die grid h id n y := by
  induction ids generalizing held s with
  | nil => cases hp; exact ⟨.refl _, nofun⟩
  | cons id ids ih =>
    unfold putUnit at hp
    split at hp
    · next x hx =>
      have hf := putGroup_fuller s grid id h gang x
      obtain ⟨hft, hids⟩ := ih (hf.wf hw) hp
      refine ⟨hf.trans hft, fun j hj => ?_⟩
      rcases List.mem_cons.1 hj with rfl | hj
      · obtain ⟨n, y, hn⟩ := putGroup_placed hw grid j h gang x (dieOffer_die hx)
        exact ⟨n, y, hn.fuller (hf.wf hw) hft⟩
      · obtain ⟨n, y, hn⟩ := hids j hj
        exact ⟨n, y, hn.earlier hw hf⟩
    · cases hp

theorem placeUnit_placed {s t : State} {die grid : Nat} {g : Grid} {ids : List Nat} (hw : s.work.groups.wf = true)
    (hp : placeUnit s die grid g ids = some t) : ∀ id ∈ ids, ∃ n y, Placed s t die grid (g.unitHash s (ids.headD 0)) id n y := by
  have key : ∀ (r : State) (gang : Option Nat), r.work.groups = s.work.groups → putUnit die g grid (g.unitHash s (ids.headD 0)) gang ids [] r = some t →
      ∀ id ∈ ids, ∃ n y, Placed s t die grid (g.unitHash s (ids.headD 0)) id n y := by
    intro r gang hr hr' id hid
    obtain ⟨n, y, hn⟩ := (putUnit_placed (by rw [hr]; exact hw) hr').2 id hid
    exact ⟨n, y, { hn with fresh := hr ▸ hn.fresh }⟩
  unfold placeUnit at hp
  dsimp only at hp
  split at hp
  · exact key s none rfl hp
  · refine key _ _ ?_ hp
    rfl

/-! What a die distributor does next. -/

theorem nextFate_head {s : State} {die : Nat} {xs : List Entry} {e : Entry} {f : Fate} (h : nextFate s die xs = some (e, f)) :
    headFate s die e = f := by
  induction xs with
  | nil => cases h
  | cons x xs ih =>
    unfold nextFate at h
    split at h
    · next hw =>
      split at h
      · exact ih h
      · split at h
        · cases h; exact hw
        · cases h
    · cases h; rfl

theorem dieFate_head {s : State} {die : Nat} {e : Entry} {f : Fate} (h : dieFate s die = some (e, f)) : headFate s die e = f := by
  unfold dieFate at h
  dsimp only at h
  split at h
  · cases h; rfl
  · exact nextFate_head h

theorem headFate_place {s u : State} {die : Nat} {e : Entry} (h : headFate s die e = .place u) :
    placeUnit s die e.chunk.grid e.grid (e.chunk.ids.take e.grid.unit) = some u := by
  unfold headFate at h
  dsimp only at h
  split at h
  · cases h
  · split at h
    · split at h <;> cases h
    · split at h
      · next hp => cases h; exact hp
      · cases h

theorem exec_placement {s : State} {die : Nat} (h : placementReady s die = true) :
    exec (.workGroupPlacement die) s = .next (placementEffect s die) := by
  show Host.Outcome.next (if placementReady s die = true then _ else s) = _
  rw [if_pos h]

/-- After a unit has been placed its chunk and its grid change, not its work-groups. -/
theorem placedUnit_keeps (s : State) (die : Nat) (x : Entry) : (placedUnit s die x).work.groups = s.work.groups ∧
    (placedUnit s die x).dist.buffers = s.dist.buffers := ⟨rfl, rfl⟩

theorem placement_places (die : Nat) (e : Entry) (u : State) : Happens (.workGroupPlacement die)
    (fun s => placementReady s die = true ∧ dieFate s die = some (e, .place u) ∧ s.work.groups.wf = true ∧
      ∃ z, unitFare s (3 + die) e.grid.unit e.chunk.spent = .go z)
    (fun s t => ∀ id ∈ e.chunk.ids.take e.grid.unit, ∃ n y, Placed s t die e.chunk.grid (e.grid.unitHash s (e.chunk.ids.headD 0)) id n y) := by
  rintro s ⟨hr, hf, hw, z, hz⟩
  refine ⟨_, exec_placement hr, fun id hid => ?_⟩
  obtain ⟨n, y, hp⟩ := placeUnit_placed hw (headFate_place (dieFate_head hf)) id hid
  have hhead : (e.chunk.ids.take e.grid.unit).headD 0 = e.chunk.ids.headD 0 := by
    have hu := one_le_unit e.grid
    obtain ⟨k, hk⟩ := Nat.exists_eq_add_of_le' hu
    rw [hk]
    cases e.chunk.ids <;> rfl
  rw [hhead] at hp
  refine ⟨n, y, ?_⟩
  have hgo : placementEffect s die = placedUnit (if e.grid.unit ≤ 16 then useBudget u (3 + die) e.grid.unit else u) die e := by
    unfold placementEffect
    rw [hf]
    dsimp only
    unfold placeFare
    rw [hz]
  have hkeep : (placementEffect s die).work.groups = u.work.groups ∧ (placementEffect s die).dist.buffers = u.dist.buffers := by
    rw [hgo, (placedUnit_keeps _ die e).1, (placedUnit_keeps _ die e).2]
    split <;> exact ⟨rfl, rfl⟩
  refine { hp with group := ?_, buffer := ?_ }
  · rw [hkeep.1]; exact hp.group
  · unfold bufferOf; rw [hkeep.2]; exact hp.buffer

theorem placement_redirects (die d : Nat) (e : Entry) : Happens (.workGroupPlacement die)
    (fun s => placementReady s die = true ∧ dieFate s die = some (e, .redirect d))
    (fun s t => t = enterChunk (s.onLevel (3 + die) fun l => { l with queue := l.queue.erase e.chunk }) (3 + d) e.chunk) := by
  rintro s ⟨hr, hf⟩
  refine ⟨_, exec_placement hr, ?_⟩
  have hroom : ¬ (s.level (3 + d)).queue.length ≥ 512 := by
    unfold placementReady at hr
    rw [hf] at hr
    simp only [Bool.and_eq_true, decide_eq_true_eq] at hr
    omega
  unfold placementEffect
  rw [hf]
  exact if_neg hroom

theorem placement_hopeless (die : Nat) (e : Entry) : Happens (.workGroupPlacement die)
    (fun s => placementReady s die = true ∧ dieFate s die = some (e, .hopeless))
    (fun s t => t = gangUnplaceable s e.chunk.grid e.grid) := by
  rintro s ⟨hr, hf⟩
  refine ⟨_, exec_placement hr, ?_⟩
  unfold placementEffect
  rw [hf]

theorem placement_idle (die : Nat) : Idle (.workGroupPlacement die) fun s => placementReady s die = false := by
  refine idle_of (fun _ => rfl) fun s h => if_neg ?_
  rw [h]
  exact Bool.false_ne_true

end Sys2Proof.Machine
end

section
/-! Residency of work-groups (R14, R43 to R56, R97, R104). -/

namespace Sys2Proof.Machine

/-! Reads of the pool in states that hold the same bytes. -/

/-- Both states read the same from the pool, and map it the same. -/
structure ReadsAlike (s t : State) : Prop where
  cfg : t.cfg = s.cfg
  dropped : t.dram.dropped = s.dram.dropped
  byte : ∀ a, t.homeByte a = s.homeByte a
  poison : ∀ a, t.homePoison a = s.homePoison a

namespace ReadsAlike

theorem refl (s : State) : ReadsAlike s s := ⟨rfl, rfl, fun _ => rfl, fun _ => rfl⟩

theorem trans {s t u : State} (h : ReadsAlike s t) (h' : ReadsAlike t u) : ReadsAlike s u :=
  ⟨h'.cfg.trans h.cfg, h'.dropped.trans h.dropped, fun a => (h'.byte a).trans (h.byte a), fun a => (h'.poison a).trans (h.poison a)⟩

variable {s t : State}

theorem homePackage (h : ReadsAlike s t) (pa : Nat) : t.homePackage pa = s.homePackage pa := by
  unfold State.homePackage; rw [h.cfg]

theorem backed (h : ReadsAlike s t) (pa : Nat) : t.backed pa = s.backed pa := by
  unfold State.backed State.survivors
  rw [h.homePackage, h.dropped, h.cfg]

theorem homed (h : ReadsAlike s t) (pa : Nat) : t.homed pa = s.homed pa := by
  unfold State.homed
  rw [h.homePackage, h.backed, h.cfg]

theorem homeNat (h : ReadsAlike s t) (pa n : Nat) : t.homeNat pa n = s.homeNat pa n := by
  unfold State.homeNat State.homeRead
  simp only [h.byte, h.poison]

theorem walkFrom (h : ReadsAlike s t) (asid va n table : Nat) : walkFrom t asid va n table = walkFrom s asid va n table := by
  induction n generalizing table with
  | zero => rfl
  | succ n ih =>
    unfold Machine.walkFrom
    simp only [h.homed, h.homeNat, ih]

theorem walk (h : ReadsAlike s t) (asid va : Nat) : t.walk asid va = s.walk asid va := by
  have hroot : t.rootTable asid = s.rootTable asid := by
    unfold State.rootTable
    simp only [h.homed, h.homeNat, h.cfg]
  unfold State.walk
  simp only [hroot, h.walkFrom]

theorem constantByte (h : ReadsAlike s t) (ctx word va : Nat) : constantByte t ctx word va = constantByte s ctx word va := by
  have hlocate : ∀ e a, t.locate e a = s.locate e a := by
    intro e a
    unfold State.locate State.liveAt State.dieDead
    rw [h.cfg]
  have hchecks : ∀ r a x y e, pageChecks t r a x y e = pageChecks s r a x y e := by
    intro r a x y e
    unfold pageChecks
    simp only [h.backed, h.homePackage, h.cfg]
  have hplace : constantPlace t ctx word va = constantPlace s ctx word va := by
    unfold constantPlace
    simp only [h.walk, hchecks, hlocate]
  unfold Machine.constantByte
  rw [hplace]
  simp only [h.byte, h.poison]

/-- The constants of a launch (R46). -/
theorem loadConstants (h : ReadsAlike s t) (ctx cbase clim : Nat) : loadConstants t ctx cbase clim = loadConstants s ctx cbase clim := by
  unfold Machine.loadConstants
  simp only [h.constantByte]

/-- A state with the same slices and stacks, the same configuration and the same dropped channels. -/
theorem of_homes (hc : t.cfg = s.cfg) (hd : t.dram.dropped = s.dram.dropped) (hl : t.mem.l2 = s.mem.l2) (hh : t.mem.hbm = s.mem.hbm) :
    ReadsAlike s t := by
  refine ⟨hc, hd, fun a => ?_, fun a => ?_⟩
  · unfold State.homeByte; rw [hl, hh]
  · unfold State.homePoison State.dieDead; rw [hl, hh, hc]

theorem touchL2 (s : State) (line : Nat) : ReadsAlike s (s.touchL2 line) := by
  have hfind : ∀ k, (s.touchL2 line).mem.l2.find k = (s.mem.l2.find k).map fun l => if k = line then { l with age := s.fresh } else l := by
    intro k
    unfold State.touchL2
    dsimp only [State.take]
    by_cases hk : k = line
    · subst hk; rw [NMap.find_adjust_self]; simp
    · rw [NMap.find_adjust_ne hk]; simp [hk]
  refine ⟨rfl, rfl, fun a => ?_, fun a => ?_⟩
  · unfold State.homeByte
    rw [hfind]
    cases s.mem.l2.find (lineOf a) with
    | none => rfl
    | some l => dsimp only [Option.map_some]; split <;> rfl
  · unfold State.homePoison
    rw [hfind]
    cases s.mem.l2.find (lineOf a) with
    | none => rfl
    | some l => dsimp only [Option.map_some]; split <;> rfl

end ReadsAlike

/-- t is s after reads at home slices. -/
structure ReadOnly (s t : State) : Prop where
  alike : ReadsAlike s t
  rest : t = { s with mem := { s.mem with l2 := t.mem.l2 }, counts := t.counts, dram := t.dram, fresh := t.fresh }

theorem readThrough_readOnly (s : State) (lines : List Nat) : ReadOnly s (s.readThrough lines) := by
  unfold State.readThrough
  induction lines generalizing s with
  | nil => exact ⟨.refl s, rfl⟩
  | cons line lines ih =>
    rw [List.foldl_cons]
    have hstep : ReadOnly s (if slicePresent s line then s.touchL2 line else s.dramRequest line) := by
      split
      · exact ⟨.touchL2 s line, rfl⟩
      · exact ⟨.of_homes rfl rfl rfl rfl, rfl⟩
    obtain ⟨ha, hr⟩ := ih (if slicePresent s line then s.touchL2 line else s.dramRequest line)
    exact ⟨hstep.alike.trans ha, by rw [hr, hstep.rest]⟩

/-! Clearing storage (R43, R79, R97). -/

theorem find_filter_keys {α : Type} (p : Nat → Bool) (m : NMap α) (k : Nat) :
    NMap.find k (m.filter fun x => p x.1) = if p k then NMap.find k m else none := by
  induction m with
  | nil => simp [NMap.find]
  | cons x m ih =>
    obtain ⟨j, v⟩ := x
    rw [List.filter_cons]
    by_cases hp : p j = true
    · rw [if_pos hp]
      unfold NMap.find
      by_cases hj : j = k
      · subst hj; rw [if_pos rfl, if_pos rfl, if_pos hp]
      · rw [if_neg hj, if_neg hj, ih]
    · rw [if_neg hp, ih]
      by_cases hk : p k = true
      · have hj : j ≠ k := fun e => hp (e ▸ hk)
        rw [if_pos hk, if_pos hk, NMap.find, if_neg hj]
      · rw [if_neg hk, if_neg hk]

theorem reg_clearRange (s : State) (core : Nat) (r : WarpPlace) (k : Nat) : (clearRange s core r).reg k =
    if inRange core r.1 (32 * r.2.2.1) (32 * 2 ^ r.2.2.2) k then PWord.zero else s.reg k := by
  unfold clearRange State.reg NMap.getD
  dsimp only
  rw [find_filter_keys fun k => !inRange core r.1 (32 * r.2.2.1) (32 * 2 ^ r.2.2.2) k]
  cases inRange core r.1 (32 * r.2.2.1) (32 * 2 ^ r.2.2.2) k <;> rfl

/-- Ranges that are cleared read 0, in every lane. -/
theorem reg_clearRanges {core : Nat} {rs : List WarpPlace} {k : Nat} (s : State)
    (h : s.reg k = PWord.zero ∨ ∃ r ∈ rs, inRange core r.1 (32 * r.2.2.1) (32 * 2 ^ r.2.2.2) k = true) :
    (rs.foldl (fun s r => clearRange s core r) s).reg k = PWord.zero := by
  induction rs generalizing s with
  | nil =>
    rcases h with h | ⟨r, hr, -⟩
    · exact h
    · cases hr
  | cons r rs ih =>
    rw [List.foldl_cons]
    refine ih _ ?_
    rw [reg_clearRange]
    rcases h with h | ⟨q, hq, hin⟩
    · left
      split
      · rfl
      · exact h
    · rcases List.mem_cons.1 hq with rfl | hq
      · left; rw [if_pos hin]
      · exact .inr ⟨q, hq, hin⟩

theorem clearRanges_rest (core : Nat) (rs : List WarpPlace) (s : State) : rs.foldl (fun s r => clearRange s core r) s =
    { s with thr := { s.thr with regs := (rs.foldl (fun s r => clearRange s core r) s).thr.regs } } := by
  induction rs generalizing s with
  | nil => rfl
  | cons r rs ih => exact (ih _).trans rfl

/-- A register of a lane of a slot lies in a range of it. -/
theorem inRange_regKey {core slot first n l r : Nat} (hc : core < 128) (hs : slot < 8) (hl : l < 33) (hf : first ≤ r) (hn : r < first + n) :
    inRange core slot first n (regKey core slot l r) = true := by
  unfold inRange regKey slotKey packageLanes
  have h1 : (r * 33792 + ((core * 8 + slot) * 33 + l)) % 33792 / 33 = core * 8 + slot := by omega
  have h2 : (r * 33792 + ((core * 8 + slot) * 33 + l)) / 33792 = r := by omega
  rw [h1, h2]
  simp [hf, hn]

/-- The storage of a work-group, cleared: nothing else changes. -/
theorem clearStorage_rest (s : State) (x : WorkGroup) : clearStorage s x = { s with
    thr := { s.thr with regs := (clearStorage s x).thr.regs }
    mem := { s.mem with
      scratch := s.mem.scratch.zero (scratchAddr x.core (4096 * x.scr.1)) (4096 * x.scr.2)
      acc := s.mem.acc.zero (tileAddr x.core x.tiles.1 0) (tileSize * x.tiles.2) } } := by
  unfold clearStorage
  dsimp only
  rw [clearRanges_rest]
  rfl

theorem clearStorage_regs (s : State) (x : WorkGroup) :
    (clearStorage s x).thr.regs = (x.ranges.foldl (fun s r => clearRange s x.core r) s).thr.regs := rfl

/-! The warps of a work-group (R16, R18, R46). -/

/-- Entries of a map whose keys differ. -/
theorem find_foldl_insert {α : Type} (ws : List (Nat × α)) (m : NMap α) (hn : (ws.map (·.1)).Nodup) {k : Nat} {v : α} (h : (k, v) ∈ ws) :
    (ws.foldl (fun m w => m.insert w.1 w.2) m).find k = some v := by
  have hout : ∀ (ws : List (Nat × α)) (m : NMap α), k ∉ ws.map (·.1) → (ws.foldl (fun m w => m.insert w.1 w.2) m).find k = m.find k := by
    intro ws
    induction ws with
    | nil => exact fun _ _ => rfl
    | cons w ws ih =>
      intro m hk
      rw [List.map_cons] at hk
      obtain ⟨hw, hws⟩ := List.ne_and_not_mem_of_not_mem_cons hk
      rw [List.foldl_cons, ih _ hws, NMap.find_insert_ne hw]
  induction ws generalizing m with
  | nil => cases h
  | cons w ws ih =>
    obtain ⟨hw, hn⟩ := List.nodup_cons.1 hn
    rw [List.foldl_cons]
    rcases List.mem_cons.1 h with rfl | h
    · rw [hout ws _ hw, NMap.find_insert_self]
    · exact ih _ hn h

/-- The warp that a work-group's place j takes at residency. -/
def residentWarp (s : State) (g : Grid) (wg : Nat) (x : WorkGroup) (j : Nat) (r : WarpPlace) : Warp :=
  (firstWarp s g wg x j (s.dist.serials.getD g.ctx.toNat 0 + j) r).withConstants
    (constantsOf s (firstWarp s g wg x j (s.dist.serials.getD g.ctx.toNat 0 + j) r))

theorem makeWarps_warpAt {s : State} {g : Grid} {wg : Nat} {x : WorkGroup} (hn : (x.ranges.map fun r => warpKey x.core r.1 r.2.1).Nodup) {j : Nat}
    {r : WarpPlace} (hj : x.ranges[j]? = some r) :
    (makeWarps s g wg x).warpAt (warpKey x.core r.1 r.2.1) = some (residentWarp s g wg x j r) := by
  refine find_foldl_insert (x.ranges.zipIdx.map fun y => (warpKey x.core y.1.1 y.1.2.1, residentWarp s g wg x y.2 y.1)) s.thr.warps ?_ ?_
  · rw [List.map_map]
    have hm : x.ranges.zipIdx.map (Prod.fst ∘ fun y => (warpKey x.core y.1.1 y.1.2.1, residentWarp s g wg x y.2 y.1)) =
        x.ranges.map fun r => warpKey x.core r.1 r.2.1 := by
      conv_rhs => rw [← List.zipIdx_map_fst 0 x.ranges, List.map_map]
      rfl
    rw [hm]
    exact hn
  · exact List.mem_map.2 ⟨(r, j), List.mem_zipIdx_iff_getElem?.2 hj, rfl⟩

/-- A warp's lanes at residency. -/
theorem firstLanes_lane {g : Grid} {j l : Nat} (hl : l < 32) (w : Warp) (hw : w.lanes = firstLanes g j) :
    w.lane l = if (if g.eff.protect then 16 * j + l / 2 else 32 * j + l) < recordThreads g.record then
      { Lane.absent with present := true, pc := BitVec.ofNat 57 (g.record.getD 1 0).toNat } else Lane.absent := by
  unfold Warp.lane
  rw [hw]
  unfold firstLanes
  rw [List.getD_eq_getElem?_getD, List.getElem?_map, List.getElem?_range hl]
  rfl

/-- Loading constants writes the scalar registers, or the fault of the first issue. -/
theorem withConstants_cases (w : Warp) (c : Except (Nat × Nat) (List PWord)) :
    w.withConstants c = { w with sregs := (w.withConstants c).sregs, startFault := (w.withConstants c).startFault } ∧
    match c with
      | .ok ws => (w.withConstants c).sregs = ws ∧ (w.withConstants c).startFault = none
      | .error f => (w.withConstants c).sregs = w.sregs ∧ (w.withConstants c).startFault = some f := by
  cases c <;> exact ⟨rfl, rfl, rfl⟩

/-! Becoming resident. -/

/-- The work-group as a resident one. -/
def residentGroup (x : WorkGroup) (pos : Nat) : WorkGroup := { x with resident := true, pos := pos, spill := 0 }

/-- A grid's first residency on a core leaves all but the grid's record of its cores and the core's instruction cache. -/
theorem firstOnCore_rest (s : State) (core grid : Nat) (g : Grid) : firstOnCore s core grid g = { s with
    work := { s.work with grids := (firstOnCore s core grid g).work.grids }, mem := { s.mem with icache := (firstOnCore s core grid g).mem.icache } } := by
  unfold firstOnCore
  split
  · rfl
  · rfl

theorem firstOnCore_grid {s : State} {grid : Nat} {g : Grid} (core : Nat) (h : s.work.grids.find grid = some g) :
    ∃ g', (firstOnCore s core grid g).work.grids.find grid = some g' ∧ g'.record = g.record := by
  unfold firstOnCore
  split
  · exact ⟨g, h, rfl⟩
  · exact ⟨_, NMap.find_insert_self .., rfl⟩

/-- The grids stay. -/
theorem firstOnCore_keeps (s : State) (core grid : Nat) (g : Grid) (n : Nat) (h : (s.work.grids.find n).isSome = true) :
    ((firstOnCore s core grid g).work.grids.find n).isSome = true := by
  unfold firstOnCore
  split
  · exact h
  · dsimp only
    by_cases hn : n = grid
    · subst hn; rw [NMap.find_insert_self]; rfl
    · rw [NMap.find_insert_ne hn]; exact h

/-- The state in which the warps of a work-group are made: its storage is clear and its constants have been read. -/
structure Readied (s u : State) (wg : Nat) (x : WorkGroup) (g : Grid) (pos : Nat) : Prop where
  alike : ReadsAlike s u
  groups : u.work.groups = s.work.groups.insert wg (residentGroup x pos)
  grids : ∀ n, (s.work.grids.find n).isSome = true → (u.work.grids.find n).isSome = true
  record : ∃ g', u.work.grids.find x.grid = some g' ∧ g'.record = g.record
  buffer : bufferOf u x.core = (bufferOf s x.core).erase wg
  serials : u.dist.serials = s.dist.serials
  regs : u.thr.regs = (x.ranges.foldl (fun s r => clearRange s x.core r) s).thr.regs
  scratch : u.mem.scratch = s.mem.scratch.zero (scratchAddr x.core (4096 * x.scr.1)) (4096 * x.scr.2)
  acc : u.mem.acc = s.mem.acc.zero (tileAddr x.core x.tiles.1 0) (tileSize * x.tiles.2)
  hbm : u.mem.hbm = s.mem.hbm
  exch : u.mem.exch = s.mem.exch

theorem Readied.group {s u : State} {wg : Nat} {x : WorkGroup} {g : Grid} {pos : Nat} (h : Readied s u wg x g pos) :
    u.work.groups.find wg = some (residentGroup x pos) := by
  rw [h.groups, NMap.find_insert_self]

theorem clearRanges_regs_congr {core : Nat} (rs : List WarpPlace) {s t : State} (h : s.thr.regs = t.thr.regs) :
    (rs.foldl (fun s r => clearRange s core r) s).thr.regs = (rs.foldl (fun s r => clearRange s core r) t).thr.regs := by
  induction rs generalizing s t with
  | nil => exact h
  | cons r rs ih =>
    exact ih (s := clearRange s core r) (t := clearRange t core r) (congrArg (List.filter fun x : Nat × PWord => !inRange core r.1 (32 * r.2.2.1) (32 * 2 ^ r.2.2.2) x.1) h)

theorem becomeResident_readied {s : State} {wg : Nat} {x : WorkGroup} {g : Grid} (hg : s.work.grids.find x.grid = some g) :
    ∃ u pos, becomeResident s wg x = makeWarps u g wg (residentGroup x pos) ∧ Readied s u wg x g pos := by
  unfold becomeResident
  dsimp only
  rw [hg]
  dsimp only
  generalize hb : ({ s with dist := { s.dist with buffers := s.dist.buffers.put x.core ((bufferOf s x.core).erase wg) [] } } : State) = b
  generalize freePosition b x.core = pos
  have hclear := clearStorage_rest b { x with resident := true, pos := pos, spill := 0 }
  have hregs := clearStorage_regs b { x with resident := true, pos := pos, spill := 0 }
  generalize clearStorage b { x with resident := true, pos := pos, spill := 0 } = c at hclear hregs ⊢
  have hcg : c.work.grids.find x.grid = some g := by rw [hclear, ← hb]; exact hg
  have hfirst := firstOnCore_rest c x.core x.grid g
  obtain ⟨g', hg', hrec⟩ := firstOnCore_grid x.core hcg
  have hkeeps := firstOnCore_keeps c x.core x.grid g
  generalize firstOnCore c x.core x.grid g = d at hfirst hg' hkeeps ⊢
  obtain ⟨halike, hread⟩ := readThrough_readOnly d
    (constantLines d g.ctx.toNat (g.record.getD 8 0).toNat ((g.record.getD 9 0).toNat % 2 ^ 32))
  generalize d.readThrough (constantLines d g.ctx.toNat (g.record.getD 8 0).toNat ((g.record.getD 9 0).toNat % 2 ^ 32)) = e at halike hread ⊢
  have hsd : ReadsAlike s d := by
    rw [hfirst, hclear, ← hb]
    exact .of_homes rfl rfl rfl rfl
  refine ⟨_, pos, rfl, ⟨hsd.trans (halike.trans (.of_homes rfl rfl rfl rfl)), ?_, fun n hn => ?_, ⟨g', ?_, hrec⟩, ?_, ?_, ?_, ?_, ?_, ?_, ?_⟩⟩
  · rw [hread, hfirst, hclear, ← hb]; rfl
  · rw [hread]
    exact hkeeps n (by rw [hclear, ← hb]; exact hn)
  · rw [hread]; exact hg'
  · rw [hread, hfirst, hclear, ← hb]
    exact NMap.getD_put_self ..
  · rw [hread, hfirst, hclear, ← hb]
  · rw [hread, hfirst]
    exact hregs.trans (clearRanges_regs_congr _ (by rw [← hb]))
  · rw [hread, hfirst, hclear, ← hb]
  · rw [hread, hfirst, hclear, ← hb]
  · rw [hread, hfirst, hclear, ← hb]
  · rw [hread, hfirst, hclear, ← hb]

/-- A work-group alone at the head of its core's buffer. -/
theorem residency_alone {s : State} {core wg : Nat} {x : WorkGroup} (hb : ∃ rest, bufferOf s core = wg :: rest)
    (hx : s.work.groups.find wg = some x) (hgang : x.gang = none) (hr : constantsReady s x = true) :
    exec (.workGroupResidency core) s = .next (becomeResident s wg x) := by
  obtain ⟨rest, hb⟩ := hb
  have hres : residents s core = [(wg, x)] := by
    unfold residents
    rw [hb]
    dsimp only
    rw [hx]
    dsimp only
    rw [hgang]
  show Host.Outcome.next (residencyEffect s core) = _
  unfold residencyEffect
  dsimp only
  rw [hres]
  exact congrArg Host.Outcome.next (if_pos (by simp [hr]))

/-- The first warps of a work-group: its threads at the entry PC, everything clear, its segments, and its constants. -/
theorem residentWarp_first {s u : State} {wg : Nat} {x : WorkGroup} {g : Grid} {pos : Nat} (h : Readied s u wg x g pos) (j : Nat) (r : WarpPlace) :
    let w := residentWarp u g wg (residentGroup x pos) j r
    w.wg = wg ∧ w.index = j ∧ w.ctx = g.ctx ∧ w.rings = [] ∧ w.run = none ∧
    (match loadConstants s g.ctx.toNat (g.record.getD 8 0).toNat ((g.record.getD 9 0).toNat % 2 ^ 32) with
      | .ok ws => w.sregs = ws ∧ w.startFault = none
      | .error f => w.sregs = List.replicate 24 PWord.zero ∧ w.startFault = some f) ∧
    w.lsn = BitVec.ofNat 32 (s.dist.serials.getD g.ctx.toNat 0 + j) ∧
    w.segs.sbase = BitVec.ofNat 19 (4096 * x.scr.1) ∧ w.segs.slim = BitVec.ofNat 20 (4096 * recordScratch g.record) ∧
    w.segs.gbase = BitVec.ofNat 57 (g.record.getD 6 0).toNat ∧ w.segs.glim = BitVec.ofNat 57 (g.record.getD 7 0).toNat ∧
    ∀ l < 32, (w.lane l).exited = false ∧ (w.lane l).commits = [] ∧ (w.lane l).preds = 0 ∧ (w.lane l).flags = 0 ∧ (w.lane l).window = 0 ∧
      ((w.lane l).present = true ↔ (if g.eff.protect then 16 * j + l / 2 else 32 * j + l) < recordThreads g.record) ∧
      ((w.lane l).present = true → (w.lane l).pc = BitVec.ofNat 57 (g.record.getD 1 0).toNat) := by
  obtain ⟨g', hg', hrec⟩ := h.record
  have hconst : constantsOf u (firstWarp u g wg (residentGroup x pos) j (u.dist.serials.getD g.ctx.toNat 0 + j) r) =
      loadConstants s g.ctx.toNat (g.record.getD 8 0).toNat ((g.record.getD 9 0).toNat % 2 ^ 32) := by
    have hword : ∀ n, u.launchWord (firstWarp u g wg (residentGroup x pos) j (u.dist.serials.getD g.ctx.toNat 0 + j) r) n = g.record.getD n 0 := by
      intro n
      unfold State.launchWord
      rw [show (firstWarp u g wg (residentGroup x pos) j (u.dist.serials.getD g.ctx.toNat 0 + j) r).wg = wg from rfl, h.group]
      dsimp only
      rw [show (residentGroup x pos).grid = x.grid from rfl, hg']
      dsimp only
      rw [hrec]
    unfold constantsOf
    rw [hword, hword]
    exact h.alike.loadConstants ..
  intro w
  have hw : w = (firstWarp u g wg (residentGroup x pos) j (u.dist.serials.getD g.ctx.toNat 0 + j) r).withConstants
      (loadConstants s g.ctx.toNat (g.record.getD 8 0).toNat ((g.record.getD 9 0).toNat % 2 ^ 32)) := by rw [← hconst]; rfl
  clear_value w
  subst hw
  obtain ⟨hrest, hregs⟩ := withConstants_cases (firstWarp u g wg (residentGroup x pos) j (u.dist.serials.getD g.ctx.toNat 0 + j) r)
    (loadConstants s g.ctx.toNat (g.record.getD 8 0).toNat ((g.record.getD 9 0).toNat % 2 ^ 32))
  refine ⟨by rw [hrest]; rfl, by rw [hrest]; rfl, by rw [hrest]; rfl, by rw [hrest]; rfl, by rw [hrest]; rfl, ?_, ?_, by rw [hrest]; rfl,
    by rw [hrest]; rfl, by rw [hrest]; rfl, by rw [hrest]; rfl, fun l hl => ?_⟩
  · revert hregs
    cases loadConstants s g.ctx.toNat (g.record.getD 8 0).toNat ((g.record.getD 9 0).toNat % 2 ^ 32) <;> exact fun h => h
  · rw [hrest, ← h.serials]; rfl
  · rw [firstLanes_lane (g := g) (j := j) hl _ (by rw [hrest]; rfl)]
    generalize (if g.eff.protect then 16 * j + l / 2 else 32 * j + l) = thread
    by_cases hp : thread < recordThreads g.record
    · rw [if_pos hp]
      exact ⟨rfl, rfl, rfl, rfl, rfl, iff_of_true rfl hp, fun _ => rfl⟩
    · rw [if_neg hp]
      exact ⟨rfl, rfl, rfl, rfl, rfl, iff_of_false Bool.false_ne_true hp, fun h => absurd h Bool.false_ne_true⟩

/-- The storage of a work-group is clear when its warps are made. -/
theorem Readied.clear {s u : State} {wg : Nat} {x : WorkGroup} {g : Grid} {pos : Nat} (h : Readied s u wg x g pos) :
    (x.core < 128 → ∀ r ∈ x.ranges, r.1 < 8 → ∀ i < 32 * 2 ^ r.2.2.2, ∀ l < 33, u.reg (regKey x.core r.1 l (32 * r.2.2.1 + i)) = PWord.zero) ∧
    (∀ a < 4096 * x.scr.2, u.mem.scratch.read (scratchAddr x.core (4096 * x.scr.1) + a) = 0) ∧
    (∀ a < tileSize * x.tiles.2, u.mem.acc.read (tileAddr x.core x.tiles.1 0 + a) = 0) := by
  refine ⟨fun hc r hr hs i hi l hl => ?_, fun a ha => ?_, fun a ha => ?_⟩
  · have hin := inRange_regKey hc hs hl (Nat.le_add_right (32 * r.2.2.1) i) (Nat.add_lt_add_left hi _)
    unfold State.reg
    rw [h.regs]
    exact reg_clearRanges s (.inr ⟨r, hr, hin⟩)
  · rw [h.scratch, read_zero, if_pos ⟨Nat.le_add_right .., Nat.add_lt_add_left ha _⟩]
    rfl
  · rw [h.acc, read_zero, if_pos ⟨Nat.le_add_right .., Nat.add_lt_add_left ha _⟩]
    rfl

theorem makeWarps_rest (s : State) (g : Grid) (wg : Nat) (x : WorkGroup) : makeWarps s g wg x = { s with
    thr := { s.thr with warps := (makeWarps s g wg x).thr.warps }, dist := { s.dist with serials := (makeWarps s g wg x).dist.serials } } := rfl

/-! Gangs. -/

/-- A work-group that becomes resident keeps the others' residency, and every grid. -/
theorem becomeResident_keeps {s : State} {wg : Nat} {x : WorkGroup} (hg : (s.work.grids.find x.grid).isSome = true) :
    (∃ z, (becomeResident s wg x).work.groups.find wg = some z ∧ z.resident = true) ∧
    (∀ n y, s.work.groups.find n = some y → y.resident = true →
      ∃ z, (becomeResident s wg x).work.groups.find n = some z ∧ z.resident = true) ∧
    ∀ n, (s.work.grids.find n).isSome = true → ((becomeResident s wg x).work.grids.find n).isSome = true := by
  obtain ⟨g, hg⟩ := Option.isSome_iff_exists.1 hg
  obtain ⟨u, pos, hu, h⟩ := becomeResident_readied (wg := wg) hg
  have hgroups : (becomeResident s wg x).work.groups = s.work.groups.insert wg (residentGroup x pos) := by
    rw [hu, makeWarps_rest]; exact h.groups
  have hself : (becomeResident s wg x).work.groups.find wg = some (residentGroup x pos) := by rw [hgroups, NMap.find_insert_self]
  refine ⟨⟨_, hself, rfl⟩, fun n y hy hr => ?_, fun n hn => ?_⟩
  · by_cases hn : n = wg
    · subst hn; exact ⟨_, hself, rfl⟩
    · exact ⟨y, by rw [hgroups, NMap.find_insert_ne hn, hy], hr⟩
  · rw [hu, makeWarps_rest]; exact h.grids n hn

/-- All of them end up resident. -/
theorem becomeResidents_resident {xs : List (Nat × WorkGroup)} {s : State} (hg : ∀ y ∈ xs, (s.work.grids.find y.2.grid).isSome = true) :
    (∀ n y, s.work.groups.find n = some y → y.resident = true →
      ∃ z, (xs.foldl (fun s x => becomeResident s x.1 x.2) s).work.groups.find n = some z ∧ z.resident = true) ∧
    ∀ y ∈ xs, ∃ z, (xs.foldl (fun s x => becomeResident s x.1 x.2) s).work.groups.find y.1 = some z ∧ z.resident = true := by
  induction xs generalizing s with
  | nil => exact ⟨fun n y hy hr => ⟨y, hy, hr⟩, nofun⟩
  | cons x xs ih =>
    obtain ⟨hx, hxs⟩ := List.forall_mem_cons.1 hg
    obtain ⟨⟨z, hz, hzr⟩, hothers, hgrids⟩ := becomeResident_keeps (wg := x.1) hx
    obtain ⟨hstay, hall⟩ := ih (s := becomeResident s x.1 x.2) fun y hy => hgrids _ (hxs y hy)
    refine ⟨fun n y hy hr => ?_, List.forall_mem_cons.2 ⟨hstay _ z hz hzr, hall⟩⟩
    obtain ⟨v, hv, hvr⟩ := hothers n y hy hr
    exact hstay n v hv hvr

/-- A gang becomes resident at once (R14). -/
theorem residency_gang (core : Nat) (xs : List (Nat × WorkGroup)) : Happens (.workGroupResidency core)
    (fun s => residents s core = xs ∧ ∀ y ∈ xs, constantsReady s y.2 = true ∧ (s.work.grids.find y.2.grid).isSome = true)
    (fun _ t => ∀ y ∈ xs, ∃ z, t.work.groups.find y.1 = some z ∧ z.resident = true) := by
  refine happens_of (fun _ => rfl) fun s ⟨hxs, hall⟩ => ?_
  unfold residencyEffect
  dsimp only
  rw [hxs, if_pos (List.all_eq_true.2 fun y hy => (hall y hy).1)]
  exact (becomeResidents_resident fun y hy => (hall y hy).2).2

theorem residency_idle (core : Nat) :
    Idle (.workGroupResidency core) fun s => bufferOf s core = [] ∨ ∃ y ∈ residents s core, constantsReady s y.2 = false := by
  refine idle_of (fun _ => rfl) fun s h => ?_
  unfold residencyEffect
  dsimp only
  rcases h with h | ⟨y, hy, hr⟩
  · have hnone : residents s core = [] := by
      unfold residents
      rw [h]
    rw [hnone]
    rfl
  · refine if_neg fun hall => ?_
    rw [List.all_eq_true.1 hall y hy] at hr
    cases hr

end Sys2Proof.Machine
end

section
/-! The end of a warp, and of its work-group (R163, R165, R234, R239). -/

namespace Sys2Proof.Machine

/-! Warps that have left stay away. -/

/-- No warp appears in t that s does not have. -/
def NoNewWarps (s t : State) : Prop := ∀ k, s.warpAt k = none → t.warpAt k = none

theorem NoNewWarps.trans {s t u : State} (h : NoNewWarps s t) (h' : NoNewWarps t u) : NoNewWarps s u := fun k hk => h' k (h k hk)

theorem NoNewWarps.of_eq {s t : State} (h : t.thr.warps = s.thr.warps) : NoNewWarps s t := fun k hk => by
  unfold State.warpAt at *
  rw [h, hk]

theorem onWarp_noNewWarps (s : State) (k : Nat) (f : Warp → Warp) : NoNewWarps s (s.onWarp k f) := by
  intro j hj
  by_cases h : j = k
  · subst h; rw [warpAt_onWarp_self, hj]; rfl
  · rw [warpAt_onWarp_ne _ _ h, hj]

theorem foldOnWarp_noNewWarps (f : State → Warp → Warp) (ks : List Nat) (s : State) :
    NoNewWarps s (ks.foldl (fun s k => s.onWarp k (f s)) s) := by
  induction ks generalizing s with
  | nil => exact fun _ h => h
  | cons k ks ih => exact (onWarp_noNewWarps s k (f s)).trans (ih _)

theorem releaseBarrier_noNewWarps (s : State) (ks : List Nat) (scope : Nat) : NoNewWarps s (releaseBarrier s ks scope) := by
  unfold releaseBarrier
  dsimp only
  exact foldOnWarp_noNewWarps _ _ _

theorem settleGroup_noNewWarps (s : State) (wg : Nat) : NoNewWarps s (settleGroup s wg) := by
  unfold settleGroup
  split
  · exact .of_eq rfl
  · dsimp only
    split
    · exact (NoNewWarps.of_eq (congrArg Threads.warps (State.onGroup_thr s wg _))).trans (releaseBarrier_noNewWarps _ _ _)
    · exact .of_eq rfl

theorem completeGang_noNewWarps (s : State) (gang : Nat) : NoNewWarps s (completeGang s gang) := by
  unfold completeGang
  dsimp only
  refine .trans ?_ (releaseBarrier_noNewWarps _ _ _)
  exact .of_eq rfl

theorem settleBarriers_noNewWarps (s : State) (wg : Nat) (gang : Option Nat) : NoNewWarps s (settleBarriers s wg gang) := by
  refine (settleGroup_noNewWarps s wg).trans ?_
  unfold settleBarriers
  dsimp only
  cases gang with
  | none => exact .of_eq rfl
  | some n =>
    dsimp only
    unfold settleGang
    split
    · split
      · exact completeGang_noNewWarps _ _
      · exact .of_eq rfl
    · exact .of_eq rfl

/-! The count of a grid's work-groups, and its completion (R163, R217). -/

/-- t has the work-groups of s, and no new warp. -/
structure GroupsStay (s t : State) : Prop where
  groups : t.work.groups = s.work.groups
  warps : NoNewWarps s t

namespace GroupsStay

theorem refl (s : State) : GroupsStay s s := ⟨rfl, fun _ h => h⟩

theorem trans {s t u : State} (h : GroupsStay s t) (h' : GroupsStay t u) : GroupsStay s u :=
  ⟨h'.groups.trans h.groups, h.warps.trans h'.warps⟩

theorem of_eq {s t : State} (hg : t.work.groups = s.work.groups) (hw : t.thr.warps = s.thr.warps) : GroupsStay s t := ⟨hg, .of_eq hw⟩

theorem of_fabric {s t : State} (h : FabricOnly s t) : GroupsStay s t := by
  rw [h]; exact of_eq rfl rfl

theorem of_homeWritten {s t : State} (h : HomeWritten s t) : GroupsStay s t := by
  refine ⟨by rw [h.rest], fun k hk => ?_⟩
  have := h.warps k
  rw [hk] at this
  exact Option.map_eq_none_iff.1 this

theorem foldl {f : State → α → State} (hf : ∀ s x, GroupsStay s (f s x)) (s : State) (xs : List α) : GroupsStay s (xs.foldl f s) := by
  induction xs generalizing s with
  | nil => exact refl s
  | cons x xs ih => exact (hf s x).trans (ih _)

theorem send (s : State) (p : Nat) (relaxed : Bool) (m : Msg) : GroupsStay s (s.send p relaxed m) := of_fabric (send_fabric ..)

theorem poolWrite (s : State) (pa : Nat) (bs : List Byte) : GroupsStay s (s.poolWrite pa bs) := by
  unfold State.poolWrite
  refine foldl (fun s ⟨o, a, m⟩ => ?_) s _
  dsimp only
  split
  · exact of_homeWritten (.hwWrite ..)
  · exact (of_eq rfl rfl : GroupsStay s (s.poolDrop a m)).trans (send ..)

theorem storeVirt (s : State) (ctx va : Nat) (bs : List Byte) : GroupsStay s (s.storeVirt ctx va bs) := by
  unfold State.storeVirt
  split
  · exact refl s
  · split
    · dsimp only
      split
      · exact refl s
      · split
        · exact of_homeWritten (.pageWrite ..)
        · split
          · exact (poolWrite ..).trans (poolWrite ..)
          · exact poolWrite ..
    · exact refl s

theorem writeCompletion (s : State) (ctx addr status : Nat) : GroupsStay s (writeCompletion s ctx addr status) := by
  unfold Machine.writeCompletion
  split
  · exact refl s
  · exact (storeVirt ..).trans (storeVirt ..)

theorem settleJob (s : State) (n : Nat) : GroupsStay s (settleJob s n) := by
  unfold Machine.settleJob
  split
  · exact refl s
  · split
    · exact refl s
    · exact of_eq rfl rfl

theorem jobCount (s : State) (pkg contract : Nat) (more : Bool) : GroupsStay s (jobCount s pkg contract more) := by
  unfold Machine.jobCount
  split
  · split
    · exact of_eq rfl rfl
    · exact (of_eq rfl rfl : GroupsStay s { s with dist := { s.dist with away := s.dist.away.erase contract } }).trans (settleJob ..)
  · exact send ..

theorem launchEnded (s : State) (job : Option Nat) (owner : Option (Nat × Nat)) : GroupsStay s (launchEnded s job owner) := by
  have hjob : GroupsStay s (match job with | some n => Machine.settleJob s n | none => s) := by
    cases job with
    | none => exact refl s
    | some n => exact settleJob s n
  refine hjob.trans ?_
  unfold Machine.launchEnded
  cases owner with
  | none => exact of_eq rfl rfl
  | some o => exact jobCount ..

theorem completeGrid (s : State) (grid : Nat) (g : Grid) : GroupsStay s (completeGrid s grid g) := by
  unfold Machine.completeGrid
  refine .trans (t := { s with dist := { s.dist with remaining := s.dist.remaining.erase grid }, work := { s.work with grids := s.work.grids.erase grid } })
    (of_eq rfl rfl) ?_
  dsimp only
  exact (writeCompletion ..).trans (launchEnded ..)

theorem groupsDone (s : State) (grid n : Nat) : GroupsStay s (groupsDone s grid n) := by
  unfold Machine.groupsDone
  split
  · exact refl s
  · split
    · split
      · exact completeGrid ..
      · exact of_eq rfl rfl
    · exact send ..
    · exact refl s

theorem settleMembers (s : State) (gang : Option Nat) : GroupsStay s (settleMembers s gang) := by
  unfold Machine.settleMembers
  split
  · exact refl s
  · split
    · exact refl s
    · exact of_eq rfl rfl

end GroupsStay

/-- A work-group that leaves is gone; no warp appears. -/
theorem removeGroup_gone (s : State) (wg : Nat) (g : WorkGroup) :
    (removeGroup s wg g).work.groups.find wg = none ∧ NoNewWarps s (removeGroup s wg g) := by
  unfold removeGroup
  dsimp only
  generalize hb : ({ s with
    work := { s.work with groups := s.work.groups.erase wg }
    mem := { s.mem with
      exchStores := s.mem.exchStores.filter fun (x : ExchStore) => x.wg != wg
      macros := s.mem.macros.map fun (x : Nat × Macro) => (x.1, if x.2.owner == some wg then { x.2 with owner := none } else x.2) } } : State) = b
  obtain ⟨hgroups, hwarps⟩ := (GroupsStay.settleMembers b g.gang).trans (GroupsStay.groupsDone _ g.grid 1)
  have hsb : NoNewWarps s b := .of_eq (by rw [← hb])
  refine ⟨?_, hsb.trans hwarps⟩
  rw [hgroups, ← hb]
  exact NMap.find_erase_self ..

/-! WARP_COMPLETE. -/

/-- The state without warp k, its place in its work-group's list marked. -/
def withoutWarp (s : State) (k : Nat) (w : Warp) : State :=
  ({ s with thr := { s.thr with warps := s.thr.warps.erase k } }).onGroup w.wg fun g => { g with warps := g.warps.set w.index (goneWarp w.index) }

theorem withoutWarp_warpAt (s : State) (k : Nat) (w : Warp) : (withoutWarp s k w).warpAt k = none := NMap.find_erase_self ..

theorem withoutWarp_group {s : State} {k : Nat} {w : Warp} {x : WorkGroup} (hx : s.work.groups.find w.wg = some x) :
    (withoutWarp s k w).work.groups.find w.wg = some { x with warps := x.warps.set w.index (goneWarp w.index) } := by
  refine (NMap.find_adjust_self ..).trans ?_
  rw [hx]
  rfl

/-- A warp that has completed leaves; the last takes its work-group with it. -/
theorem completeEffect_eq {s : State} {k : Nat} {w : Warp} {x : WorkGroup} (hx : s.work.groups.find w.wg = some x) :
    completeEffect s k w =
      if (x.warps.set w.index (goneWarp w.index)).all (fun y => y.1 == 2 ^ 20) then
        removeGroup (settleBarriers (withoutWarp s k w) w.wg x.gang) w.wg { x with warps := x.warps.set w.index (goneWarp w.index) }
      else settleBarriers (withoutWarp s k w) w.wg x.gang := by
  have hg := withoutWarp_group (k := k) hx
  unfold completeEffect
  dsimp only
  rw [show ({ s with thr := { s.thr with warps := s.thr.warps.erase k } } : State).onGroup w.wg
    (fun g => { g with warps := g.warps.set w.index (goneWarp w.index) }) = withoutWarp s k w from rfl, hg]

theorem exec_complete {s : State} {core slot warp : Nat} {w : Warp} (hw : s.warpAt (warpKey core slot warp) = some w) (hr : completeReady w = true) :
    exec (.warpComplete core slot warp) s = .next (completeEffect s (warpKey core slot warp) w) := by
  show Host.Outcome.next _ = _
  rw [hw]
  dsimp only
  rw [if_pos hr]

/-- A warp that is not the last of its work-group. -/
theorem complete_leaves (core slot warp : Nat) (x : WorkGroup) (w : Warp) : Happens (.warpComplete core slot warp)
    (fun s => s.warpAt (warpKey core slot warp) = some w ∧ completeReady w = true ∧ s.work.groups.find w.wg = some x ∧
      ∃ y ∈ x.warps.set w.index (goneWarp w.index), y.1 ≠ 2 ^ 20)
    (fun s t => t.warpAt (warpKey core slot warp) = none ∧ t = settleBarriers (withoutWarp s (warpKey core slot warp) w) w.wg x.gang) := by
  rintro s ⟨hw, hr, hx, y, hy, hne⟩
  refine ⟨_, exec_complete hw hr, ?_⟩
  rw [completeEffect_eq hx, if_neg fun hall => hne (by simpa using List.all_eq_true.1 hall y hy)]
  exact ⟨settleBarriers_noNewWarps _ _ _ _ (withoutWarp_warpAt ..), rfl⟩

/-- The last warp of a work-group. -/
theorem complete_ends (core slot warp : Nat) (x : WorkGroup) (w : Warp) : Happens (.warpComplete core slot warp)
    (fun s => s.warpAt (warpKey core slot warp) = some w ∧ completeReady w = true ∧ s.work.groups.find w.wg = some x ∧
      ∀ y ∈ x.warps.set w.index (goneWarp w.index), y.1 = 2 ^ 20)
    (fun _ t => t.warpAt (warpKey core slot warp) = none ∧ t.work.groups.find w.wg = none) := by
  rintro s ⟨hw, hr, hx, hall⟩
  refine ⟨_, exec_complete hw hr, ?_⟩
  rw [completeEffect_eq hx, if_pos (List.all_eq_true.2 fun y hy => beq_iff_eq.2 (hall y hy))]
  obtain ⟨hgone, hwarps⟩ := removeGroup_gone (settleBarriers (withoutWarp s (warpKey core slot warp) w) w.wg x.gang) w.wg
    { x with warps := x.warps.set w.index (goneWarp w.index) }
  exact ⟨hwarps _ (settleBarriers_noNewWarps _ _ _ _ (withoutWarp_warpAt ..)), hgone⟩

theorem complete_idle (core slot warp : Nat) :
    Idle (.warpComplete core slot warp) fun s => ∀ w, s.warpAt (warpKey core slot warp) = some w → completeReady w = false := by
  refine idle_of (fun _ => rfl) fun s h => ?_
  cases hw : s.warpAt (warpKey core slot warp) with
  | none => rfl
  | some w => exact if_neg fun hr => by rw [h w hw] at hr; cases hr

/-- Settles O44: placement, residency and completion each follow from the lemma about their effect. -/
theorem residencyEvents : Obligations.ResidencyEvents := by
  intro die core slot warp wg x g e u
  refine ⟨fun s h => ?_, fun d => placement_redirects die d e, placement_hopeless die e, placement_idle die, ?_, residency_gang core, residency_idle core,
    fun w s h => ?_, complete_ends core slot warp x, complete_idle core slot warp⟩
  · obtain ⟨t, ht, hp⟩ := placement_places die e u s h
    refine ⟨t, ht, fun id hid => ?_⟩
    obtain ⟨n, y, hn⟩ := hp id hid
    exact ⟨n, y, hn.fresh, hn.group, hn.id, hn.grid, hn.hash, hn.die, hn.waits, hn.buffer⟩
  · rintro s ⟨hhead, hx, hg, rfl, hgang, hready, hkeys, hcore, hslots, -, -⟩
    refine ⟨_, residency_alone hhead hx hgang hready, ?_⟩
    obtain ⟨rest, hb⟩ := hhead
    obtain ⟨v, pos, hv, h⟩ := becomeResident_readied (wg := wg) hg
    obtain ⟨hregs, hscratch, hacc⟩ := h.clear
    have hbuffer := h.buffer
    rw [hb, List.erase_cons_head] at hbuffer
    rw [hv, hb]
    exact ⟨hbuffer, ⟨_, h.group, rfl⟩, fun j r hj => ⟨⟨_, makeWarps_warpAt hkeys hj, residentWarp_first h j r⟩,
      hregs hcore r (List.mem_of_getElem? hj) (hslots r (List.mem_of_getElem? hj))⟩, hscratch, hacc, h.hbm, h.exch⟩
  · obtain ⟨t, ht, hk, he⟩ := complete_leaves core slot warp x w s h
    obtain ⟨-, -, hx, -⟩ := h
    exact ⟨t, ht, hk, _, he, rfl, withoutWarp_group hx⟩

end Sys2Proof.Machine
end

section
/-! Traps of an issue: which trap the failed checks of its lanes give (R247, R248), and the checks that every issue makes first (R43, R273,
R274). -/

namespace Sys2Proof.Machine

/-! The first of several failed checks (R248). -/

/-- Of checks none of which comes before x, the first to fail has x's rank and code, once x is among them. -/
theorem firstFail_least {fs : List (Option Fail)} {x : Fail} (hx : some x ∈ fs) (h : ∀ y, some y ∈ fs → y.before x = false) :
    ∃ y, firstFail fs = some y ∧ y.rank = x.rank ∧ y.code = x.code := by
  have tie : ∀ a : Fail, a.before x = false → x.before a = false → a.rank = x.rank ∧ a.code = x.code := by
    intro a h1 h2
    simp only [Fail.before, Bool.or_eq_false_iff, Bool.and_eq_false_imp, decide_eq_false_iff_not, beq_iff_eq] at h1 h2
    omega
  have first : ∀ a b : Fail, a.rank = x.rank → a.code = x.code → b.before x = false → b.before a = false := by
    intro a b h1 h2
    simp only [Fail.before, h1, h2, imp_self]
  have key : ∀ (fs : List (Option Fail)) (acc : Option Fail), (∀ y, some y ∈ fs → y.before x = false) → (∀ y, acc = some y → y.before x = false) →
      (some x ∈ fs ∨ ∃ y, acc = some y ∧ y.rank = x.rank ∧ y.code = x.code) →
      ∃ y, fs.foldl (fun acc f => match acc, f with
        | none, f => f
        | some a, none => some a
        | some a, some b => if b.before a then some b else some a) acc = some y ∧ y.rank = x.rank ∧ y.code = x.code := by
    intro fs
    induction fs with
    | nil => exact fun acc _ _ ho => ho.resolve_left List.not_mem_nil
    | cons f fs ih =>
      intro acc hfs hacc ho
      obtain ⟨hf, hfs⟩ : (∀ y, f = some y → y.before x = false) ∧ ∀ y, some y ∈ fs → y.before x = false :=
        ⟨fun y hy => hfs y (by simp [hy]), fun y hy => hfs y (by simp [hy])⟩
      rw [List.foldl_cons]
      refine ih _ hfs ?_ ?_
      · rcases acc with - | a <;> rcases f with - | b
        · exact hf
        · exact hf
        · exact hacc
        · dsimp only
          split
          · exact hf
          · exact hacc
      · by_cases hin : some x ∈ fs
        · exact .inl hin
        · refine .inr ?_
          have ho : f = some x ∨ ∃ y, acc = some y ∧ y.rank = x.rank ∧ y.code = x.code :=
            ho.imp_left fun hm => ((List.mem_cons.1 hm).resolve_right hin).symm
          rcases acc with - | a <;> rcases f with - | b
          · simp at ho
          · obtain rfl : b = x := by simpa using ho
            exact ⟨b, rfl, rfl, rfl⟩
          · obtain ⟨y, hy⟩ : ∃ y, some a = some y ∧ y.rank = x.rank ∧ y.code = x.code := by simpa using ho
            exact ⟨y, hy⟩
          · rcases ho with hb | ⟨y, hy, hr, hc⟩
            · cases hb
              by_cases hxa : x.before a = true
              · exact ⟨x, if_pos hxa, rfl, rfl⟩
              · exact ⟨a, if_neg hxa, tie a (hacc a rfl) (Bool.eq_false_iff.2 hxa)⟩
            · cases hy
              exact ⟨a, if_neg (Bool.eq_false_iff.1 (first a b hr hc (hf b rfl))), hr, hc⟩
  exact key fs none h (by simp) (.inl hx)

/-- Of lanes of which those that `bad` names fail alike, but for their details, and the others later or not at all, the bad ones fail first. -/
theorem laneFails_hits {lanes : List Nat} {f : Nat → Option Fail} {bad : Nat → Bool} {rank code : Nat} {info : Nat → Nat}
    (hbad : ∀ l ∈ lanes, bad l = true → f l = some ⟨rank, code, info l⟩)
    (hrest : ∀ l ∈ lanes, bad l = false → ∀ y, f l = some y → rank < y.rank) :
    (laneFails lanes f).filter (fun x => x.2.rank == rank && x.2.code == code) =
      (lanes.filter bad).map fun l => (l, ⟨rank, code, info l⟩) := by
  unfold laneFails
  induction lanes with
  | nil => rfl
  | cons m ms ih =>
    have ih := ih (fun l hl => hbad l (List.mem_cons_of_mem _ hl)) fun l hl => hrest l (List.mem_cons_of_mem _ hl)
    have hm := List.mem_cons_self (a := m) (l := ms)
    cases hbm : bad m with
    | true => simp [hbad m hm hbm, hbm, ih]
    | false =>
      cases hf : f m with
      | none => simp [hf, hbm, ih]
      | some y => simp [hf, hbm, ih, Nat.ne_of_gt (hrest m hm hbm y hf)]

/-- The trap of lanes of which those that `bad` names fail alike, but for their details, and the others later or not at all: it names the
bad lanes, and its detail is the lowest one's. -/
theorem resolveTrap_laneFails {lanes : List Nat} {f : Nat → Option Fail} {bad : Nat → Bool} {rank code : Nat} {info : Nat → Nat}
    (hbad : ∀ l ∈ lanes, bad l = true → f l = some ⟨rank, code, info l⟩)
    (hrest : ∀ l ∈ lanes, bad l = false → ∀ y, f l = some y → rank < y.rank) (hne : ∃ l ∈ lanes, bad l = true) :
    resolveTrap (laneFails lanes f) = some ⟨code, lanes.filter bad, info ((lanes.filter bad).headD 0)⟩ := by
  have hmem : ∀ x, x ∈ laneFails lanes f ↔ x.1 ∈ lanes ∧ f x.1 = some x.2 := by
    rintro ⟨l, y⟩
    simp only [laneFails, List.mem_filterMap, Option.map_eq_some_iff, Prod.mk.injEq]
    constructor
    · rintro ⟨a, ha, b, hb, rfl, rfl⟩
      exact ⟨ha, hb⟩
    · rintro ⟨hl, hy⟩
      exact ⟨l, hl, y, hy, rfl, rfl⟩
  obtain ⟨l, hl, hb⟩ := hne
  obtain ⟨best, hbest, hrank, hcode⟩ := firstFail_least (fs := (laneFails lanes f).map (some ·.2)) (x := ⟨rank, code, info l⟩)
    (List.mem_map.2 ⟨(l, _), (hmem _).2 ⟨hl, hbad l hl hb⟩, rfl⟩) (by
      intro y hy
      obtain ⟨⟨m, z⟩, hz, he⟩ := List.mem_map.1 hy
      obtain rfl : z = y := by simpa using he
      obtain ⟨hm, hf⟩ := (hmem _).1 hz
      cases hbm : bad m with
      | true =>
        obtain rfl : ⟨rank, code, info m⟩ = z := Option.some.inj ((hbad m hm hbm).symm.trans hf)
        simp [Fail.before]
      | false =>
        have := hrest m hm hbm z hf
        simp only [Fail.before, Bool.or_eq_false_iff, Bool.and_eq_false_imp, decide_eq_false_iff_not, beq_iff_eq]
        omega)
  have hhead : (lanes.filter bad).head? = some ((lanes.filter bad).headD 0) := by
    cases hfl : lanes.filter bad with
    | nil => exact absurd hb (List.filter_eq_nil_iff.1 hfl l hl)
    | cons a as => rfl
  unfold resolveTrap
  rw [hbest]
  dsimp only
  rw [hrank, hcode, laneFails_hits hbad hrest, List.head?_map, hhead]
  simp [Function.comp_def]

/-- Lanes none of which fails. -/
theorem laneFails_nil {lanes : List Nat} {f : Nat → Option Fail} (h : ∀ l ∈ lanes, f l = none) : laneFails lanes f = [] :=
  List.filterMap_eq_nil_iff.2 fun l hl => by rw [h l hl]; rfl

/-- A lane that fails is listed. -/
theorem laneFails_ne_nil {lanes : List Nat} {f : Nat → Option Fail} (h : ∃ l ∈ lanes, (f l).isSome = true) : laneFails lanes f ≠ [] := by
  obtain ⟨l, hl, hf⟩ := h
  obtain ⟨x, hx⟩ := Option.isSome_iff_exists.1 hf
  exact List.ne_nil_of_mem (List.mem_filterMap.2 ⟨l, hl, by rw [hx]; rfl⟩)

/-! Instructions that check each lane and then act, or trap (R248). -/

/-- Instruction i fails in the lanes for which f gives a check, and otherwise has the effect E. -/
def Checks (i : Instr) (f : State → Group → Warp → Nat → Option Fail) (E : State → Group → Warp → State) : Prop :=
  ∃ run, (∀ s, exec i s = issueWord i run s) ∧ ∀ g b v, b.warpAt g.key = some v →
    run g b = if (laneFails g.lanes (f b g v)).isEmpty then .done [] (E b g v) else .trap [] (laneFails g.lanes (f b g v))

theorem Checks.does {i : Instr} {f : State → Group → Warp → Nat → Option Fail} {E : State → Group → Warp → State} {ok : Cond} (h : Checks i f E)
    (hf : ∀ b g v, ok b g v → ∀ l ∈ g.lanes, f b g v l = none) : Does i ok E := by
  obtain ⟨run, he, hr⟩ := h
  refine does_of he fun g w s v _ hv ho => ⟨[], ?_⟩
  rw [hr g _ v hv, laneFails_nil (hf _ _ _ ho)]
  rfl

/-- An effect on each lane, where no lane fails. -/
theorem Checks.effects {i : Instr} {f : State → Group → Warp → Nat → Option Fail} {F : State → Group → Warp → Nat → Lane → Lane} {ok : Cond}
    (h : Checks i f fun b g v => g.lanes.foldl (fun s l => s.onLanes g.key [l] (F b g v l)) b)
    (hf : ∀ b g v, ok b g v → ∀ l ∈ g.lanes, f b g v l = none) : LaneEffects i ok F := fun g w s v hi hv ho =>
  ⟨_, h.does hf g w s v hi hv ho, foldLanes_changed _ hv hi.lanes fun l hl => (hi.lengths hv l hl).2⟩

/-- The trap of the lanes that `fails` names, which the others do not precede. -/
theorem Checks.traps {i : Instr} {f : State → Group → Warp → Nat → Option Fail} {E : State → Group → Warp → State}
    (h : Checks i f E) {bad : Cond} (fails : State → Group → Warp → Nat → Bool) (rank code : Nat) (info : State → Group → Warp → Nat → Nat)
    (hbad : ∀ b g v, bad b g v → ∀ l ∈ g.lanes, fails b g v l = true → f b g v l = some ⟨rank, code, info b g v l⟩)
    (hrest : ∀ b g v, bad b g v → ∀ l ∈ g.lanes, fails b g v l = false → ∀ y, f b g v l = some y → rank < y.rank)
    (hex : ∀ b g v, bad b g v → ∃ l ∈ g.lanes, fails b g v l = true) :
    Traps i bad fun b g v => ⟨code, g.lanes.filter (fails b g v), info b g v ((g.lanes.filter (fails b g v)).headD 0)⟩ := by
  obtain ⟨run, he, hr⟩ := h
  refine traps_of he fun g w s v _ hv hb =>
    ⟨[], laneFails g.lanes (f (s.issuing g) g v), ?_, resolveTrap_laneFails (hbad _ _ _ hb) (hrest _ _ _ hb) (hex _ _ _ hb)⟩
  obtain ⟨l, hl, hlf⟩ := hex _ _ _ hb
  have hne := laneFails_ne_nil (f := f (s.issuing g) g v) ⟨l, hl, by rw [hbad _ _ _ hb l hl hlf]; rfl⟩
  rw [hr g _ v hv, if_neg (by simpa using hne)]

/-! Checks in the order of their ranks. -/

@[simp] theorem failContain_rank (kind field : Nat) : (failContain kind field).rank = 5 := rfl

@[simp] theorem failAlign_rank (space addr : Nat) : (failAlign space addr).rank = 8 := rfl

@[simp] theorem failPage_rank (rank va access : Nat) (perm : Bool) : (failPage rank va access perm).rank = rank := rfl

@[simp] theorem failIf_false (f : Fail) : failIf false f = none := rfl

theorem failIf_eq_some {c : Bool} {f y : Fail} : failIf c f = some y ↔ c = true ∧ f = y := by cases c <;> simp [failIf]

/-- A check that fails stands, when those after it have higher ranks. -/
theorem firstFail_failIf {c : Bool} {f : Fail} {fs : List (Option Fail)} (h : ∀ y, some y ∈ fs → f.rank < y.rank) :
    firstFail (failIf c f :: fs) = if c then some f else firstFail fs := by
  cases c with
  | false => rfl
  | true =>
    refine foldl_stays (b := some f) fun x hx => ?_
    cases x with
    | none => rfl
    | some y =>
      have := h y hx
      refine if_neg (Bool.eq_false_iff.1 ?_)
      simp only [Fail.before, Bool.or_eq_false_iff, Bool.and_eq_false_imp, decide_eq_false_iff_not, beq_iff_eq]
      omega

theorem firstFail_failIf_nil (c : Bool) (f : Fail) : firstFail [failIf c f] = failIf c f := by cases c <;> rfl

/-! The checks that every issue makes first (R43, R273, R274). -/

/-- An instruction word issues for the group that has been chosen. -/
theorem exec_word {i : Instr} {v : Word} {ws : List Word} (h : encode i = v :: ws) (s : State) : exec i s = issueRep i s := by
  -- an event has no code, so that the words alone remain
  cases i <;> cases h
  all_goals rfl

theorem attemptWord_eq {i : Instr} (h : ∀ e c x y z t, i ≠ .rep e c x y z t) (g : Group) (s : State) :
    attemptWord i g s = attemptIssue i (wordOf i) (runWord i) g s := by
  unfold attemptWord
  split
  · exact absurd rfl (h _ _ _ _ _ _)
  · rfl

/-- Static checks that fail, alike but for their details in the lanes that `bad` names, trap on the state before the issue. -/
theorem exec_static {i : Instr} {s : State} {g : Group} {w : Warp} {bad : Nat → Bool} {rank code : Nat} {info : Nat → Nat} (hi : encode i ≠ [])
    (hr : ∀ e c x y z t, i ≠ .rep e c x y z t) (hg : s.chosen = some g) (hw : s.warpAt g.key = some w) (hu : w.protected' = false)
    (hbad : ∀ l ∈ g.lanes, bad l = true → staticFail w i (wordOf i) l = some ⟨rank, code, info l⟩)
    (hrest : ∀ l ∈ g.lanes, bad l = false → staticFail w i (wordOf i) l = none) (hne : ∃ l ∈ g.lanes, bad l = true) :
    exec i s = .next (trapEntry (s.unchoose.dropWalkFaults g.core w.ctx.toNat) g.key
      ⟨code, g.lanes.filter bad, info ((g.lanes.filter bad).headD 0)⟩ g.pc g.rep) := by
  obtain ⟨v, ws, hv⟩ := List.exists_cons_of_ne_nil hi
  have ht := resolveTrap_laneFails hbad (fun l hl hb y hy => by rw [hrest l hl hb] at hy; cases hy) hne
  have hf : laneFails g.lanes (staticFail w i (wordOf i)) ≠ [] := by
    obtain ⟨l, hl, hb⟩ := hne
    exact laneFails_ne_nil ⟨l, hl, by rw [hbad l hl hb]; rfl⟩
  have hattempt : attemptWord i g s.unchoose = .trap [] (laneFails g.lanes (staticFail w i (wordOf i))) := by
    rw [attemptWord_eq hr]
    unfold attemptIssue
    rw [warpAt_unchoose, hw]
    simp only [List.isEmpty_eq_false_iff.2 hf, Bool.not_false, if_true]
    exact protectedCheck_unprotected hu ..
  rw [exec_word hv]
  unfold issueRep
  rw [hg]
  simp only [hattempt, settleIssue, ht, warpAt_unchoose, hw]

/-- The static check of a lane, past the word's legality and its mode. -/
theorem staticFail_window {w : Warp} {i : Instr} {word : Nat} (hwf : i.wellFormed = true) (hmode : privileged i = true → w.system = true)
    (l : Nat) : staticFail w i word l =
      (if i.opcode = 0x59 then none else windowFail w l i.operands).map fun f => ⟨4, 0x03, word + f * 2 ^ 32⟩ := by
  have hpriv : (privileged i && !w.system) = false := by
    cases hp : privileged i with
    | false => rfl
    | true => rw [hmode hp]; rfl
  simp only [staticFail, hwf, hpriv, Bool.not_true, Bool.false_eq_true, if_false, beq_iff_eq]
  cases (if i.opcode = 0x59 then none else windowFail w l i.operands) <;> rfl

/-- Settles O58: rank by rank, what the static check of each lane answers. -/
theorem staticChecks : Obligations.StaticChecks := by
  intro i s g w hi hr hg hw hu hne raises past
  have every : ∀ code word, (∀ l, staticFail w i (wordOf i) l = some ⟨code + 1, code, word⟩) → raises ⟨code, g.lanes, word⟩ := by
    intro code word h
    have := exec_static (bad := fun _ => true) (info := fun _ => word) hi hr hg hw hu (fun l _ _ => h l) (by simp)
      ((List.exists_mem_of_ne_nil _ hne).imp fun l hl => ⟨hl, rfl⟩)
    rwa [List.filter_true] at this
  refine ⟨fun hill => every 1 _ fun l => ?_, fun hwf hp hm => every 2 _ fun l => ?_, fun hwf hmode => ?_⟩
  · simp [staticFail, hill, failIllegal]
  · simp [staticFail, hwf, hp, hm]
  · intro bad hbad
    refine exec_static (bad := fun l => (past l).isSome) (rank := 4) (info := fun l => wordOf i + (past l).getD 0 * 2 ^ 32) hi hr hg hw hu
      (fun l _ hb => ?_) (fun l _ hb => ?_) ?_
    · obtain ⟨f, hf⟩ := Option.isSome_iff_exists.1 hb
      rw [staticFail_window hwf hmode, show (if i.opcode = 0x59 then none else windowFail w l i.operands) = some f from hf, hf]
      rfl
    · rw [staticFail_window hwf hmode, Option.map_eq_none_iff]
      exact Option.not_isSome_iff_eq_none.1 (Bool.eq_false_iff.1 hb)
    · obtain ⟨m, hm⟩ := List.exists_mem_of_ne_nil _ hbad
      exact ⟨m, List.mem_filter.1 hm⟩

end Sys2Proof.Machine
end

section
/-! Special registers, segment registers, windows (R55, R322, R323, R372, R375, R376), and the voted operands that a warp's registers are
written from (R350). -/

namespace Sys2Proof.Machine

/-! Numbers as the words of a result. -/

theorem lo_ofNat (n : Nat) : DWord.lo (BitVec.ofNat 64 n) = BitVec.ofNat 32 n := by
  apply BitVec.eq_of_toNat_eq
  simp only [DWord.lo, BitVec.extractLsb'_toNat, BitVec.toNat_ofNat, Nat.shiftRight_zero]
  omega

theorem hi_ofNat (n : Nat) : DWord.hi (BitVec.ofNat 64 n) = BitVec.ofNat 32 (n / 2 ^ 32) := by
  apply BitVec.eq_of_toNat_eq
  simp only [DWord.hi, BitVec.extractLsb'_toNat, BitVec.toNat_ofNat, Nat.shiftRight_eq_div_pow]
  omega

theorem pairWords_ofNat (n : Nat) : pairWords (BitVec.ofNat 64 n) false = [clean (BitVec.ofNat 32 n), clean (BitVec.ofNat 32 (n / 2 ^ 32))] := by
  rw [pairWords, lo_ofNat, hi_ofNat, clean, clean]

/-! Reads. -/

/-- `rsr` of a register of 32 bits. -/
theorem rsr_reads {d : BitVec 7} {i : BitVec 10} {f : State → Group → Warp → Nat → Nat} (e : Bool) (hi : srClass i = .single)
    (hf : ∀ b g v l, readSpecial b g v l i.toNat = f b g v l) :
    LaneResults (.rsr e d i) always d 1 0 fun b g v l => ([clean (BitVec.ofNat 32 (f b g v l))], 0) := by
  refine runLanes_results (run := runRsr d i) (fun _ => rfl) (fun g b => ?_) fun _ _ _ _ => rfl
  simp only [runRsr, hi, RegClass.width, OfNat.one_ne_ofNat, if_false, hf]

/-- `rsr` of a register of 64 bits. -/
theorem rsr_readsPair {d : BitVec 7} {i : BitVec 10} {f : State → Group → Warp → Nat} (e : Bool) (hi : srClass i = .pair)
    (hf : ∀ b g v l, readSpecial b g v l i.toNat = f b g v) :
    LaneResults (.rsr e d i) always d 2 0 fun b g v _ => ([clean (BitVec.ofNat 32 (f b g v)), clean (BitVec.ofNat 32 (f b g v / 2 ^ 32))], 0) := by
  refine runLanes_results (run := runRsr d i) (fun _ => rfl) (fun g b => ?_) fun _ _ _ _ => rfl
  simp only [runRsr, hi, RegClass.width, if_true, hf, pairWords_ofNat]

theorem segr_reads (e : Bool) (d : BitVec 7) (n : BitVec 4) : LaneResults (.segr e d n) always d 2 0 fun _ _ v _ =>
    ([clean (BitVec.ofNat 32 (v.segs.get n.toNat)), clean (BitVec.ofNat 32 (v.segs.get n.toNat / 2 ^ 32))], 0) := by
  refine runLanes_results (run := runSegr d n) (fun _ => rfl) (fun g b => ?_) fun _ _ _ _ => rfl
  simp only [runSegr, pairWords_ofNat]

theorem rdepth_reads (e : Bool) (d : BitVec 7) : LaneResults (.rdepth e d) always d 1 0 fun _ _ v _ =>
    ([clean (BitVec.ofNat 32 v.rings.length)], 0) :=
  runLanes_results (run := runRdepth d) (fun _ => rfl) (fun _ _ => rfl) fun _ _ _ _ => rfl

/-- The extents of a grid, by the double word of its launch record that holds them (R216). -/
theorem extents_eq (b : State) (v : Warp) : b.extents v =
    ((b.launchWord v 2).toNat % 2 ^ 32, (b.launchWord v 2).toNat / 2 ^ 32 % 2 ^ 16, (b.launchWord v 2).toNat / 2 ^ 32 / 2 ^ 16) := by
  have := (b.launchWord v 2).isLt
  simp only [State.extents, bits, Prod.mk.injEq, Nat.reduceSub, Nat.reduceAdd, Nat.pow_zero, Nat.div_one, true_and]
  omega

/-- The two upper extents side by side. -/
theorem extents_upper (b : State) (v : Warp) : (b.extents v).2.1 + 65536 * (b.extents v).2.2 = (b.launchWord v 2).toNat / 2 ^ 32 := by
  rw [extents_eq]
  exact Nat.mod_add_div _ _

theorem coords_eq (b : State) (v : Warp) : b.coords v =
    ((b.wgId v).toNat % ((b.launchWord v 2).toNat % 2 ^ 32),
      (b.wgId v).toNat / ((b.launchWord v 2).toNat % 2 ^ 32) % ((b.launchWord v 2).toNat / 2 ^ 32 % 2 ^ 16),
      (b.wgId v).toNat / ((b.launchWord v 2).toNat % 2 ^ 32) / ((b.launchWord v 2).toNat / 2 ^ 32 % 2 ^ 16)) := by
  simp only [State.coords, extents_eq]

/-! `wbase` (R323). -/

/-- The window that `wbase` sets for a lane. -/
def newWindow (a : BitVec 7) (i : BitVec 10) (b : State) (g : Group) (v : Warp) (l : Nat) : Int :=
  (BitVec.ofInt 32 ((readField b g v l a.toNat).val.toInt + i.toInt)).toInt

theorem add_signExtend (x : Word) (i : BitVec 10) : x + i.signExtend 32 = BitVec.ofInt 32 (x.toInt + i.toInt) := by
  apply BitVec.eq_of_toInt_eq
  rw [BitVec.toInt_add, BitVec.toInt_ofInt, BitVec.toInt_signExtend_of_le (by decide)]

/-- A window base lies outside a warp's range, or is not of four bits. -/
def outOfWindow (v : Warp) (n : Int) : Bool := n < 0 || n > 15 || 32 * n ≥ v.size

/-- What `wbase` checks of a lane: the new base first, then the operand's poison. -/
def wbaseFail (word : Nat) (a : BitVec 7) (i : BitVec 10) (b : State) (g : Group) (v : Warp) (l : Nat) : Option Fail :=
  firstFail [failIf (outOfWindow v (newWindow a i b g v l)) ⟨4, 0x03, word + 2 ^ 32 * a.toNat⟩,
    failIf (readField b g v l a.toNat).poison (failContain 1 a.toNat)]

theorem wbase_checks (e : Bool) (a : BitVec 7) (i : BitVec 10) : Checks (.wbase e a i) (wbaseFail (wordOf (.wbase e a i)) a i) fun b g v =>
    g.lanes.foldl (fun s l => s.onLanes g.key [l] fun x => { x with window := (newWindow a i b g v l).toNat }) b := by
  refine ⟨runWbase (wordOf (.wbase e a i)) a i, fun _ => rfl, fun g b v hv => ?_⟩
  unfold runWbase wbaseFail newWindow outOfWindow
  rw [hv]
  simp only [add_signExtend, Nat.mul_comm]

theorem wbaseFail_eq (word : Nat) (a : BitVec 7) (i : BitVec 10) (b : State) (g : Group) (v : Warp) (l : Nat) : wbaseFail word a i b g v l =
    if outOfWindow v (newWindow a i b g v l) then some ⟨4, 0x03, word + 2 ^ 32 * a.toNat⟩
    else failIf (readField b g v l a.toNat).poison (failContain 1 a.toNat) := by
  unfold wbaseFail
  rw [firstFail_failIf, firstFail_failIf_nil]
  intro y hy
  obtain ⟨-, rfl⟩ := failIf_eq_some.1 (List.mem_singleton.1 hy).symm
  simp

theorem wbase_sets (e : Bool) (a : BitVec 7) (i : BitVec 10) : LaneEffects (.wbase e a i)
    (fun b g v => ∀ l ∈ g.lanes, (readField b g v l a.toNat).poison = false ∧ outOfWindow v (newWindow a i b g v l) = false)
    (fun b g v l t => { t with window := (newWindow a i b g v l).toNat }) :=
  (wbase_checks e a i).effects fun _ _ _ hok l hl => by
    obtain ⟨hp, ho⟩ := hok l hl
    rw [wbaseFail_eq, ho, hp]; rfl

theorem wbase_traps (e : Bool) (a : BitVec 7) (i : BitVec 10) : Traps (.wbase e a i)
    (fun b g v => ∃ l ∈ g.lanes, outOfWindow v (newWindow a i b g v l) = true)
    (fun b g v => ⟨0x03, g.lanes.filter fun l => outOfWindow v (newWindow a i b g v l), wordOf (.wbase e a i) + 2 ^ 32 * a.toNat⟩) := by
  refine (wbase_checks e a i).traps (fun b g v l => outOfWindow v (newWindow a i b g v l)) 4 _ (fun _ _ _ _ => _)
    (fun b g v _ l _ ho => ?_) (fun b g v _ l _ ho y hy => ?_) fun _ _ _ h => h
  · rw [wbaseFail_eq, if_pos ho]
  · rw [wbaseFail_eq, ho] at hy
    obtain ⟨-, rfl⟩ := failIf_eq_some.1 hy
    simp

/-! `wsr` of the flags (R376). -/

theorem wsrFlags_checks (e : Bool) (a : BitVec 7) : Checks (.wsr e a 0x010)
    (fun b g v l => failIf (readField b g v l a.toNat).poison (failContain 5 a.toNat)) fun b g v =>
    g.lanes.foldl (fun s l => s.onLanes g.key [l] fun x => { x with flags := BitVec.ofNat 5 (readField b g v l a.toNat).val.toNat }) b := by
  refine ⟨runWsr a 0x010, fun _ => rfl, fun g b v hv => ?_⟩
  unfold runWsr withWarp
  rw [hv]
  dsimp only
  rw [if_pos (by decide)]
  cases (laneFails g.lanes fun l => failIf (readField b g v l a.toNat).poison (failContain 5 a.toNat)) <;> rfl

theorem wsrFlags_sets (e : Bool) (a : BitVec 7) : LaneEffects (.wsr e a 0x010)
    (fun b g v => ∀ l ∈ g.lanes, (readField b g v l a.toNat).poison = false)
    (fun b g v l t => { t with flags := BitVec.ofNat 5 (readField b g v l a.toNat).val.toNat }) :=
  (wsrFlags_checks e a).effects fun _ _ _ hok l hl => by rw [hok l hl]; rfl

/-! Voted operands (R350). -/

/-- Lanes that agree on a clean value raise nothing. -/
theorem votedFails_nil {b : State} {g : Group} {v : Warp} {o : Voted} {n : Nat}
    (hclean : ∀ l ∈ g.lanes, anyPoison (readRegs b g v l o.field.toNat o.words) = false) (hvalue : ∀ l ∈ g.lanes, votedValue b g v o l = n)
    (hne : g.lanes ≠ []) : agreed b g v o = n ∧ votedFails b g v [o] = [] := by
  have hagreed : agreed b g v o = n := by
    obtain ⟨l, ls, hls⟩ := List.exists_cons_of_ne_nil hne
    unfold agreed
    rw [hls]
    exact hvalue l (by simp [hls])
  refine ⟨hagreed, List.flatMap_eq_nil_iff.2 fun l hl => ?_⟩
  simp [hclean l hl, hvalue l hl, hagreed]

/-- The number that the low bytes of a number hold. -/
theorem leNat_leBytes (n v : Nat) : leNat (leBytes n v) = v % 256 ^ n := by
  induction n generalizing v with
  | zero => rw [leBytes, leNat, Nat.pow_zero, Nat.mod_one]
  | succ n ih =>
    rw [leBytes, leNat, ih, Nat.pow_succ', Nat.mod_mul, BitVec.toNat_ofNat]

theorem regUp_zero (n : Nat) : regUp n 0 = n := by
  unfold regUp
  split
  · exact Eq.symm ‹_›
  · rfl

/-- The value that a lane votes with one register. -/
theorem votedValue_word (b : State) (g : Group) (v : Warp) (a : BitVec 7) (pos kind l : Nat) :
    votedValue b g v ⟨a, 1, pos, kind⟩ l = (readField b g v l a.toNat).val.toNat := by
  have hlt := (readField b g v l a.toNat).val.isLt
  simp only [votedValue, storeBytes, readRegs, leNat_leBytes, List.range_one, List.map_cons, List.map_nil, List.foldr_cons, List.foldr_nil,
    regUp_zero]
  exact Nat.mod_eq_of_lt hlt

/-- The value that a lane votes with a pair. -/
theorem votedValue_pair (b : State) (g : Group) (v : Warp) (a : BitVec 7) (pos kind l : Nat) :
    votedValue b g v ⟨a, 2, pos, kind⟩ l = (readPair b g v l a.toNat).val.toNat := by
  have hlo := (readField b g v l a.toNat).val.isLt
  have hhi := (readField b g v l (regUp a.toNat 1)).val.isLt
  have hr : List.range 2 = [0, 1] := rfl
  simp only [votedValue, storeBytes, readRegs, leNat_leBytes, hr, List.map_cons, List.map_nil, List.foldr_cons, List.foldr_nil, regUp_zero,
    readPair, BitVec.toNat_append]
  rw [Nat.shiftLeft_eq, Nat.mul_comm _ (2 ^ 32), ← Nat.two_pow_add_eq_or_of_lt hlo]
  omega

theorem agree_voted {b : State} {g : Group} {v : Warp} {a : BitVec 7} {x : Word} (h : agree a x b g v) (pos kind : Nat) :
    agreed b g v ⟨a, 1, pos, kind⟩ = x.toNat ∧ votedFails b g v [⟨a, 1, pos, kind⟩] = [] := by
  obtain ⟨hne, h⟩ := h
  refine votedFails_nil (fun l hl => ?_) (fun l hl => ?_) hne
  · simp [readRegs, anyPoison, regUp_zero, h l hl]
  · rw [votedValue_word, h l hl]

theorem agreePair_voted {b : State} {g : Group} {v : Warp} {a : BitVec 7} {y : DWord} (h : agreePair a y b g v) (pos kind : Nat) :
    agreed b g v ⟨a, 2, pos, kind⟩ = y.toNat ∧ votedFails b g v [⟨a, 2, pos, kind⟩] = [] := by
  obtain ⟨hne, h⟩ := h
  refine votedFails_nil (fun l hl => ?_) (fun l hl => ?_) hne
  · have hp : (readPair b g v l a.toNat).poison = false := by rw [h l hl]
    have hr : List.range 2 = [0, 1] := rfl
    simpa [readRegs, anyPoison, hr, regUp_zero, readPair] using hp
  · rw [votedValue_pair, h l hl]

/-! `wsr` of the trap registers (R376). -/

/-- A trap register takes the value that the lanes agree on. -/
theorem runWsr_writes {g : Group} {b : State} {v : Warp} {a : BitVec 7} {i : BitVec 10} {n : Nat} (hv : b.warpAt g.key = some v)
    (hi : i.toNat ≠ 0x010) (h : agreed b g v ⟨a, (srClass i).width, 1, 5⟩ = n ∧ votedFails b g v [⟨a, (srClass i).width, 1, 5⟩] = []) :
    runWsr a i g b = .done [] (b.onWarp g.key fun w => writeSpecial w i.toNat n) := by
  obtain ⟨hn, hf⟩ := h
  unfold runWsr withWarp
  rw [hv]
  dsimp only
  rw [if_neg (by simpa using hi), hf, hn]
  rfl

theorem wsr_writes {i : BitVec 10} {f : Warp → Warp} (e : Bool) (a : BitVec 7) (x : Word) (hi : i.toNat ≠ 0x010) (hc : srClass i = .single)
    (hf : ∀ w, writeSpecial w i.toNat x.toNat = f w) : Does (.wsr e a i) (agree a x) fun b g _ => b.onWarp g.key f := by
  refine does_of (run := runWsr a i) (fun _ => rfl) fun _ _ _ _ _ hv hok => ⟨[], ?_⟩
  rw [runWsr_writes hv hi (by rw [hc]; exact agree_voted hok 1 5), funext hf]

theorem wsr_writesPair {i : BitVec 10} {f : Warp → Warp} (e : Bool) (a : BitVec 7) (y : DWord) (hi : i.toNat ≠ 0x010) (hc : srClass i = .pair)
    (hf : ∀ w, writeSpecial w i.toNat y.toNat = f w) : Does (.wsr e a i) (agreePair a y) fun b g _ => b.onWarp g.key f := by
  refine does_of (run := runWsr a i) (fun _ => rfl) fun _ _ _ _ _ hv hok => ⟨[], ?_⟩
  rw [runWsr_writes hv hi (by rw [hc]; exact agreePair_voted hok 1 5), funext hf]

/-- A write of `sr.epc` discards the lowest two bits (R55). -/
theorem writeSpecial_epc (w : Warp) (n : Nat) :
    writeSpecial w 0x021 n = { w with trap := { w.trap with epc := BitVec.ofNat 64 (n - n % 4) } } :=
  congrArg (fun m => ({ w with trap := { w.trap with epc := BitVec.ofNat 64 m } } : Warp)) (show n / 4 * 4 = n - n % 4 by omega)

theorem writeSpecial_emask (w : Warp) (x : Word) : writeSpecial w 0x022 x.toNat = { w with trap := { w.trap with emask := x } } :=
  congrArg (fun m => ({ w with trap := { w.trap with emask := m } } : Warp)) (show BitVec.ofNat 32 x.toNat = x by simp)

theorem writeSpecial_einfo (w : Warp) (y : DWord) : writeSpecial w 0x024 y.toNat = { w with trap := { w.trap with einfo := y } } :=
  congrArg (fun m => ({ w with trap := { w.trap with einfo := m } } : Warp)) (show BitVec.ofNat 64 y.toNat = y by simp)

/-! `segw` (R375). -/

/-- The base and the limit of the segment that register n belongs to, after a write of x to it; the other register of its pair stays. -/
def segmentAfter (v : Warp) (n x : Nat) : Nat × Nat :=
  let old := v.segs.get (if n % 2 = 0 then n + 1 else n - 1)
  if n % 2 = 0 then (x, old) else (old, x)

theorem segw_sets (e : Bool) (a : BitVec 7) (n : BitVec 4) (y : DWord) : Does (.segw e a n)
    (fun b g v => agreePair a y b g v ∧
      segmentLegal (b.work.groups.find v.wg) (n.toNat / 2) (segmentAfter v n.toNat y.toNat).1 (segmentAfter v n.toNat y.toNat).2 = true)
    (fun b g _ => b.onWarp g.key fun w => { w with segs := w.segs.put n.toNat y.toNat }) := by
  refine does_of (run := runSegw _ a n) (fun _ => rfl) fun g w s v _ hv hok => ⟨[], ?_⟩
  obtain ⟨hagree, hlegal⟩ := hok
  obtain ⟨hn, hf⟩ := agreePair_voted hagree 1 5
  unfold runSegw withWarp
  rw [hv]
  dsimp only
  rw [hf, hn]
  unfold segmentAfter at hlegal
  by_cases hk : n.toNat % 2 = 0
  · simp only [hk, if_true] at hlegal
    simp [hk, hlegal]
  · simp only [hk, if_false] at hlegal
    simp [hk, hlegal]

/-- Settles O15: register by register, from the lemma about its read or its write. -/
theorem specialRegisters : Obligations.SpecialRegisters := by
  refine ⟨fun e d n => ?_, fun e a i n x y => ?_⟩
  · refine ⟨rsr_readsPair e rfl fun _ _ _ _ => rfl, rsr_readsPair e rfl fun _ _ _ _ => rfl, rsr_reads e rfl fun _ _ _ _ => rfl,
      rsr_reads e rfl fun _ _ _ _ => rfl, rsr_reads e rfl fun _ _ _ _ => rfl, rsr_reads e rfl fun _ _ _ _ => rfl,
      rsr_reads e rfl fun _ _ _ _ => rfl, rsr_reads e rfl fun _ _ _ _ => rfl, rsr_reads e rfl fun _ _ _ _ => rfl,
      rsr_reads e rfl fun _ _ _ _ => rfl, rsr_readsPair e rfl fun _ _ _ _ => rfl,
      rsr_reads e rfl fun b _ v _ => congrArg (·.1) (coords_eq b v),
      rsr_reads e rfl fun b _ v _ => congrArg (fun c => c.2.1 + 65536 * c.2.2) (coords_eq b v),
      rsr_reads e rfl fun b _ v _ => congrArg (·.1) (extents_eq b v),
      rsr_reads e rfl fun b _ v _ => extents_upper b v,
      rsr_reads e rfl fun _ _ _ _ => rfl, rsr_readsPair e rfl fun _ _ _ _ => rfl, rsr_reads e rfl fun _ _ _ _ => rfl,
      rsr_reads e rfl fun _ _ _ _ => rfl, rsr_readsPair e rfl fun _ _ _ _ => rfl, rsr_reads e rfl fun _ _ _ _ => rfl,
      rdepth_reads e d, segr_reads e d n⟩
  · exact ⟨wbase_sets e a i, wbase_traps e a i, wsrFlags_sets e a, wsr_writes e a x (by decide) rfl fun _ => rfl,
      wsr_writesPair e a y (by decide) rfl fun w => writeSpecial_epc w y.toNat, wsr_writes e a x (by decide) rfl fun w => writeSpecial_emask w x,
      wsr_writes e a x (by decide) rfl fun _ => rfl, wsr_writesPair e a y (by decide) rfl fun w => writeSpecial_einfo w y,
      wsr_writes e a x (by decide) rfl fun _ => rfl, segw_sets e a n y⟩

end Sys2Proof.Machine
end

section
/-! Where each lane goes on: branches, calls, jumps and exits (R319 to R321, R378). -/

namespace Sys2Proof.Machine

/-! Branches (R319). -/

theorem onLanes_unchanged (s : State) (k l : Nat) : s.onLanes k [l] (fun x => x) = s := by
  have hlane : ∀ w : Warp, w.onLanes [l] (fun x => x) = w := fun w => by
    rw [onLanes_cons, onLanes_nil, Warp.onLane, show w.lanes.modify l (fun x => x) = w.lanes from List.modify_id ..]
  cases hw : s.warpAt k with
  | none => exact onWarp_absent _ hw
  | some w => exact onWarp_fixed hw (hlane w)

/-- Setting the PC of the lanes that branch, as a change of every lane. -/
theorem takeBranch_eq (g : Group) (s : State) (taken : Nat → Bool) (target : VAddr) : takeBranch g s taken target =
    g.lanes.foldl (fun s l => s.onLanes g.key [l] fun x => if taken l then { x with pc := target, rep := 0 } else x) s := by
  unfold takeBranch
  congr 1
  funext s l
  cases taken l with
  | true => rfl
  | false => exact (onLanes_unchanged s g.key l).symm

theorem branchTarget_eq (pc : VAddr) (o : BitVec 20) : branchTarget pc o = pc + BitVec.ofInt 57 (4 * o.toInt) := by
  unfold branchTarget
  congr 1
  apply BitVec.eq_of_toInt_eq
  rw [BitVec.toInt_mul, BitVec.toInt_signExtend_of_le (by decide), BitVec.toInt_ofInt]
  rfl

/-- A poisoned predicate of `bra` is a consumption. -/
theorem bra_checks (e n : Bool) (p : BitVec 3) (o : BitVec 20) : Checks (.bra e p n o)
    (fun _ _ v l => failIf (decide (p ≠ 7) && (v.lane l).predPoison.getLsbD p.toNat) (failContain 2 0)) fun b g v =>
    g.lanes.foldl (fun s l => s.onLanes g.key [l] fun x => if (decide (p = 7) || (v.lane l).preds.getLsbD p.toNat) != n then
      { x with pc := g.pc + BitVec.ofInt 57 (4 * o.toInt), rep := 0 } else x) b := by
  refine ⟨runBra p n o, fun _ => rfl, fun g b v hv => ?_⟩
  unfold runBra
  rw [hv]
  simp only [takeBranch_eq, branchTarget_eq, readPred_eq]

theorem bra_branches (e n : Bool) (p : BitVec 3) (o : BitVec 20) : LaneEffects (.bra e p n o)
    (fun _ g v => ∀ l ∈ g.lanes, (decide (p ≠ 7) && (v.lane l).predPoison.getLsbD p.toNat) = false)
    (fun _ g v l x => if (decide (p = 7) || (v.lane l).preds.getLsbD p.toNat) != n then
      { x with pc := g.pc + BitVec.ofInt 57 (4 * o.toInt), rep := 0 } else x) :=
  (bra_checks e n p o).effects fun _ _ _ hok l hl => by rw [hok l hl]; rfl

theorem bra_traps (e n : Bool) (p : BitVec 3) (o : BitVec 20) : Traps (.bra e p n o)
    (fun _ g v => p ≠ 7 ∧ ∃ l ∈ g.lanes, (v.lane l).predPoison.getLsbD p.toNat = true)
    (fun _ g v => ⟨0x0D, g.lanes.filter fun l => (v.lane l).predPoison.getLsbD p.toNat, 2⟩) := by
  refine (bra_checks e n p o).traps (fun _ _ v l => (v.lane l).predPoison.getLsbD p.toNat) 5 _ (fun _ _ _ _ => 2)
    (fun _ _ _ hb l _ hp => ?_) (fun _ _ _ hb l _ hp y hy => ?_) fun _ _ _ hb => hb.2
  · rw [hp, decide_eq_true hb.1]; rfl
  · rw [hp, Bool.and_false] at hy; cases hy

/-- `brp` tests the poison alone. -/
theorem brp_branches (e n : Bool) (p : BitVec 3) (o : BitVec 20) : LaneEffects (.brp e p n o) always
    (fun _ g v l x => if (decide (p ≠ 7) && (v.lane l).predPoison.getLsbD p.toNat) != n then
      { x with pc := g.pc + BitVec.ofInt 57 (4 * o.toInt), rep := 0 } else x) := by
  refine achieves_of (run := runBrp p n o) (fun _ => rfl) fun g w s v h hv _ =>
    ⟨[], _, ?_, foldLanes_changed _ hv h.lanes fun l hl => (h.lengths hv l hl).2⟩
  unfold runBrp
  rw [hv]
  simp only [takeBranch_eq, branchTarget_eq, readPred_eq]

/-! Calls and jumps (R320). -/

theorem mul_signExtend (i : BitVec 17) : 4 * i.signExtend 57 = BitVec.ofInt 57 (4 * i.toInt) := by
  apply BitVec.eq_of_toInt_eq
  rw [BitVec.toInt_mul, BitVec.toInt_signExtend_of_le (by decide), BitVec.toInt_ofInt]
  rfl

/-- The return address as a pair. -/
theorem pairWords_zeroExtend (x : VAddr) : pairWords (x.zeroExtend 64) false =
    [clean (x.truncate 32), clean (BitVec.ofNat 32 (x.toNat / 2 ^ 32))] := by
  have h : x.zeroExtend 64 = BitVec.ofNat 64 x.toNat := (BitVec.ofNat_toNat 64 x).symm
  rw [h, pairWords_ofNat, BitVec.ofNat_toNat]

theorem call_jumps (e : Bool) (d : BitVec 7) (i : BitVec 17) : Achieves (.call e d i) always fun b g v c => ∃ m u, m.warpAt g.key = some u ∧
    Wrote g v b m d.toNat 2 0 (fun _ => [clean ((g.pc + 4).truncate 32), clean (BitVec.ofNat 32 ((g.pc + 4).toNat / 2 ^ 32))]) (fun _ => 0) ∧
    LanesChanged g u m c fun _ x => { x with pc := g.pc + BitVec.ofInt 57 (4 * i.toInt), rep := 0 } := by
  refine achieves_of (run := runCall d i) (fun _ => rfl) fun g w s v h hv _ => ?_
  have hw := writeResults_wrote (d := d.toNat) (n := 2) (la := 0) (fl := fun _ => 0)
    (val := fun _ => [clean ((g.pc + 4).truncate 32), clean (BitVec.ofNat 32 ((g.pc + 4).toNat / 2 ^ 32))]) hv h.lanes (h.lengths hv) fun _ _ => rfl
  obtain ⟨u, hu, -, hcount, -⟩ := hw.warp
  refine ⟨[], _, ?_, _, u, hu, hw, foldLanes_changed _ hu h.lanes fun l hl => hcount ▸ (h.lengths hv l hl).2⟩
  unfold runCall
  rw [hv]
  simp only [takeBranch_eq, if_true, mul_signExtend, pairWords_zeroExtend]

/-- The checks of a jump target, in their order. -/
theorem targetFail_eq (f : Nat) (t : PDWord) : targetFail f t =
    if t.poison then some (failContain 2 f)
    else if t.val.toNat % 4 != 0 then some (failAlign 5 t.val.toNat)
    else if decide (2 ^ 57 ≤ t.val.toNat) then some (failPage 10 t.val.toNat 3 false)
    else none := by
  have hpage : (t.val.toNat / 2 ^ 57 != 0) = decide (2 ^ 57 ≤ t.val.toNat) := by
    rw [Bool.eq_iff_iff, bne_iff_ne, decide_eq_true_eq]
    omega
  unfold targetFail
  rw [firstFail_failIf, firstFail_failIf, firstFail_failIf_nil, hpage]
  · rfl
  · intro y hy
    obtain ⟨-, rfl⟩ := failIf_eq_some.1 (List.mem_singleton.1 hy).symm
    simp
  · intro y hy
    rcases List.mem_cons.1 hy with hy | hy
    · obtain ⟨-, rfl⟩ := failIf_eq_some.1 hy.symm
      simp
    · obtain ⟨-, rfl⟩ := failIf_eq_some.1 (List.mem_singleton.1 hy).symm
      simp

/-- The target that a lane of `ret` or `jmp` reads. -/
def jumpTarget (a : BitVec 7) (b : State) (g : Group) (v : Warp) (l : Nat) : PDWord := readPair b g v l a.toNat

/-- `ret` and `jmp` run alike. -/
def jumpInstr (i : Instr) (a : BitVec 7) : Prop := ∀ s, exec i s = issueWord i (runJump a) s

section
variable {i : Instr} {a : BitVec 7} (hi : jumpInstr i a)
include hi

theorem jump_checks : Checks i (fun b g v l => targetFail a.toNat (jumpTarget a b g v l)) fun b g v =>
    g.lanes.foldl (fun s l => s.onLanes g.key [l] fun x => { x with pc := BitVec.ofNat 57 (jumpTarget a b g v l).val.toNat, rep := 0 }) b := by
  refine ⟨runJump a, hi, fun g b v hv => ?_⟩
  unfold runJump
  rw [hv]
  simp only [setPc, jumpTarget, BitVec.ofNat_toNat]

theorem jump_jumps : LaneEffects i
    (fun b g v => ∀ l ∈ g.lanes, (jumpTarget a b g v l).poison = false ∧ (jumpTarget a b g v l).val.toNat % 4 = 0 ∧ (jumpTarget a b g v l).val.toNat < 2 ^ 57)
    (fun b g v l x => { x with pc := BitVec.ofNat 57 (jumpTarget a b g v l).val.toNat, rep := 0 }) :=
  (jump_checks hi).effects fun b g v hok l hl => by
    obtain ⟨hp, ha, hr⟩ := hok l hl
    rw [targetFail_eq, hp, ha, decide_eq_false (Nat.not_le.2 hr)]
    rfl

theorem jump_poison : Traps i (fun b g v => ∃ l ∈ g.lanes, (jumpTarget a b g v l).poison = true)
    (fun b g v => ⟨0x0D, g.lanes.filter fun l => (jumpTarget a b g v l).poison, 2 + 16 * a.toNat⟩) := by
  refine (jump_checks hi).traps (fun b g v l => (jumpTarget a b g v l).poison) 5 _ (fun _ _ _ _ => _)
    (fun b g v _ l _ hp => ?_) (fun b g v _ l _ hp y hy => ?_) fun _ _ _ h => h
  · rw [targetFail_eq, if_pos hp, failContain, Nat.mul_comm]
  · rw [targetFail_eq, hp] at hy
    simp only [Bool.false_eq_true, if_false] at hy
    split at hy
    · cases hy; simp
    · split at hy
      · cases hy; simp
      · cases hy

theorem jump_misaligned : Traps i (fun b g v => (∀ l ∈ g.lanes, (jumpTarget a b g v l).poison = false) ∧
      ∃ l ∈ g.lanes, (jumpTarget a b g v l).val.toNat % 4 ≠ 0)
    (fun b g v => ⟨0x04, g.lanes.filter fun l => (jumpTarget a b g v l).val.toNat % 4 != 0,
      (jumpTarget a b g v ((g.lanes.filter fun l => (jumpTarget a b g v l).val.toNat % 4 != 0).headD 0)).val.toNat % 2 ^ 57 + 5 * 2 ^ 57⟩) := by
  refine (jump_checks hi).traps (fun b g v l => (jumpTarget a b g v l).val.toNat % 4 != 0) 8 _
    (fun b g v l => (jumpTarget a b g v l).val.toNat % 2 ^ 57 + 5 * 2 ^ 57)
    (fun b g v hok l hl ha => ?_) (fun b g v hok l hl ha y hy => ?_) fun b g v hok => ?_
  · rw [targetFail_eq, hok.1 l hl, if_pos ha]
    rfl
  · rw [targetFail_eq, hok.1 l hl, ha] at hy
    simp only [Bool.false_eq_true, if_false] at hy
    split at hy
    · cases hy; simp
    · cases hy
  · exact hok.2.imp fun l hl => ⟨hl.1, bne_iff_ne.2 hl.2⟩

theorem jump_outside : Traps i (fun b g v => (∀ l ∈ g.lanes, (jumpTarget a b g v l).poison = false ∧ (jumpTarget a b g v l).val.toNat % 4 = 0) ∧
      ∃ l ∈ g.lanes, 2 ^ 57 ≤ (jumpTarget a b g v l).val.toNat)
    (fun b g v => ⟨0x06, g.lanes.filter fun l => 2 ^ 57 ≤ (jumpTarget a b g v l).val.toNat,
      (jumpTarget a b g v ((g.lanes.filter fun l => 2 ^ 57 ≤ (jumpTarget a b g v l).val.toNat).headD 0)).val.toNat % 2 ^ 57 + 3 * 2 ^ 57⟩) := by
  refine (jump_checks hi).traps (fun b g v l => decide (2 ^ 57 ≤ (jumpTarget a b g v l).val.toNat)) 10 _
    (fun b g v l => (jumpTarget a b g v l).val.toNat % 2 ^ 57 + 3 * 2 ^ 57)
    (fun b g v hok l hl hr => ?_) (fun b g v hok l hl hr y hy => ?_) fun b g v hok => ?_
  · rw [targetFail_eq, (hok.1 l hl).1, (hok.1 l hl).2, if_neg (by simp), if_neg (by simp), if_pos hr]
    rfl
  · rw [targetFail_eq, (hok.1 l hl).1, (hok.1 l hl).2, hr] at hy
    cases hy
  · exact hok.2.imp fun l hl => ⟨hl.1, decide_eq_true hl.2⟩

end

/-! Exits (R321). -/

/-- An instruction whose run waits, and asks for nothing, under a condition. -/
theorem waits_of {i : Instr} {bad : Cond} {run : Group → State → IssueResult} (he : ∀ s, exec i s = issueWord i run s)
    (hr : ∀ g w s v, Issues i g w s → (s.issuing g).warpAt g.key = some v → bad (s.issuing g) g v →
      ∃ late, run g (s.issuing g) = .wait late id) : Waits i bad := by
  intro g w s v h hv hb
  obtain ⟨late, hw⟩ := hr g w s v h hv hb
  rw [he]
  unfold issueWord
  rw [h.chosen]
  simp only [attemptIssue_eq h, hw, settleIssue, id]

/-- Some lane of a warp's list has a property. -/
theorem any_lanes {w : Warp} {p : Lane → Bool} : w.lanes.any p = true ↔ ∃ l < w.lanes.length, p (w.lane l) = true := by
  rw [List.any_eq_true]
  constructor
  · rintro ⟨x, hx, hp⟩
    obtain ⟨l, hl, rfl⟩ := List.getElem_of_mem hx
    exact ⟨l, hl, by simpa [Warp.lane, hl] using hp⟩
  · rintro ⟨l, hl, hp⟩
    exact ⟨w.lane l, by simp [Warp.lane, hl], hp⟩

/-- The lane that `exit` leaves. -/
def exitedLane (x : Lane) : Lane := { x with exited := true, commits := [] }

/-- Every entry of the group's lanes has arrived (R53). -/
def entriesArrived : Cond := fun _ g v => ∀ l ∈ g.lanes, ∀ c ∈ (v.lane l).commits, c.value.isSome = true

/-- A lane outside the group is still in the handler. -/
def othersRun : Cond := fun _ g v => ∃ l < v.lanes.length, l ∉ g.lanes ∧ (v.lane l).present = true ∧ (v.lane l).exited = false ∧
  (v.lane l).held = false

/-- Once the group's lanes have ended, a lane is still in the handler exactly when one outside the group is. -/
theorem any_exited {g : Group} {v : Warp} (b : State) (hn : g.lanes.Nodup) :
    ((v.onLanes g.lanes exitedLane).lanes.any fun x => x.present && !x.exited && !x.held) = true ↔ othersRun b g v := by
  rw [any_lanes, onLanes_length]
  refine exists_congr fun l => and_congr_right fun hl => ?_
  by_cases hm : l ∈ g.lanes
  · simp [lane_onLanes_of_mem _ _ _ _ hn hm hl, hm, exitedLane]
  · simp [lane_onLanes_of_not_mem _ _ _ _ hm, hm, and_assoc]

/-- What `exit` does once every entry has arrived. -/
theorem runExit_arrived {g : Group} {b : State} {v : Warp} (hv : b.warpAt g.key = some v) (h : entriesArrived b g v) :
    runExit g b = .done [] (
      if v.inHandler then
        if (v.onLanes g.lanes exitedLane).lanes.any fun x => x.present && !x.exited && !x.held then b.onLanes g.key g.lanes exitedLane
        else nextTrap (leaveHandler (b.onLanes g.key g.lanes exitedLane) g.key) v.wg
      else b.onLanes g.key g.lanes exitedLane) := by
  have hlate : g.lanes.filter (exitBlocked v) = [] := by
    refine List.filter_eq_nil_iff.2 fun l hl hb => ?_
    obtain ⟨c, hc, hnone⟩ := List.any_eq_true.1 hb
    rw [Option.isNone_iff_eq_none] at hnone
    have := h l hl c hc
    rw [hnone] at this
    cases this
  have hw : (b.onLanes g.key g.lanes exitedLane).warpAt g.key = some (v.onLanes g.lanes exitedLane) := by simp [hv]
  unfold runExit withWarp
  rw [hv]
  dsimp only
  rw [hlate, show (b.onLanes g.key g.lanes fun x => { x with exited := true, commits := [] }) = b.onLanes g.key g.lanes exitedLane from rfl, hw]
  dsimp only
  split
  · exact absurd ‹_› (by simp)
  · split
    · split <;> rfl
    · rfl

theorem exit_ends (e : Bool) : LaneEffects (.exit e) (fun b g v => entriesArrived b g v ∧ (v.inHandler = true → othersRun b g v))
    fun _ _ _ _ => exitedLane := by
  refine achieves_of (run := runExit) (fun _ => rfl) fun g w s v h hv hok =>
    ⟨[], _, ?_, onLanes_changed _ hv h.lanes fun l hl => (h.lengths hv l hl).2⟩
  rw [runExit_arrived hv hok.1]
  split
  · rw [if_pos ((any_exited (s.issuing g) h.lanes).2 (hok.2 ‹_›))]
  · rfl

theorem exit_leaves (e : Bool) : Does (.exit e) (fun b g v => entriesArrived b g v ∧ v.inHandler = true ∧ ¬ othersRun b g v)
    fun b g v => nextTrap (leaveHandler (b.onLanes g.key g.lanes exitedLane) g.key) v.wg := by
  refine does_of (run := runExit) (fun _ => rfl) fun g w s v h hv hok => ⟨[], ?_⟩
  obtain ⟨harrived, hh, hothers⟩ := hok
  rw [runExit_arrived hv harrived, if_pos hh, if_neg fun h' => hothers ((any_exited (s.issuing g) h.lanes).1 h')]

theorem exit_waits (e : Bool) : Waits (.exit e) fun _ g v => ∃ l ∈ g.lanes, ∃ c ∈ (v.lane l).commits, c.value = none := by
  refine waits_of (run := runExit) (fun _ => rfl) fun g w s v h hv hbad => ⟨g.lanes.filter (exitBlocked v), ?_⟩
  obtain ⟨l, hl, c, hc, hnone⟩ := hbad
  have hlate : g.lanes.filter (exitBlocked v) ≠ [] :=
    List.ne_nil_of_mem (List.mem_filter.2 ⟨hl, List.any_eq_true.2 ⟨c, hc, by rw [hnone]; rfl⟩⟩)
  unfold runExit withWarp
  rw [hv]
  dsimp only
  rw [if_pos (by simpa using hlate)]

/-- Settles O11: the branches, the jumps and their traps, the exits. -/
theorem controlFlow : Obligations.ControlFlow := by
  refine ⟨fun e n d a p o i => ?_, fun e n a p o => ?_, fun e => ?_⟩
  · exact ⟨bra_branches e n p o, brp_branches e n p o, call_jumps e d i, jump_jumps fun _ => rfl, jump_jumps fun _ => rfl,
      does_of (run := runNop) (fun _ => rfl) fun _ _ _ _ _ _ _ => ⟨[], rfl⟩, does_of (run := runYield) (fun _ => rfl) fun _ _ _ _ _ _ _ => ⟨[], rfl⟩⟩
  · exact ⟨bra_traps e n p o, ⟨jump_poison fun _ => rfl, jump_misaligned fun _ => rfl, jump_outside fun _ => rfl⟩,
      jump_poison fun _ => rfl, jump_misaligned fun _ => rfl, jump_outside fun _ => rfl⟩
  · intro ended arrived another
    refine ⟨?_, ?_, exit_leaves e, exit_waits e⟩
    · exact fun g w s v h hv hok => exit_ends e g w s v h hv ⟨hok.1, fun hh => by rw [hok.2] at hh; cases hh⟩
    · exact fun g w s v h hv hok => exit_ends e g w s v h hv ⟨hok.1, fun _ => hok.2.2⟩

end Sys2Proof.Machine
end

section
/-! The actions of `eret` park no lane (R251, R259): a lane that stands unparked before one of them stands unparked after it, if its warp is still
there. -/

namespace Sys2Proof.Machine

/-- A change of a warp that parks no lane. -/
def ParksNone (w v : Warp) : Prop := ∀ l, (w.lane l).park = none → (v.lane l).park = none

/-- The warps of t are warps of s, and their lanes that stand unparked in s stand unparked in t. -/
structure NoNewParks (s t : State) : Prop where
  warp : ∀ k y, t.warpAt k = some y → ∃ x, s.warpAt k = some x ∧ ParksNone x y

theorem ParksNone.mapIdx (w : Warp) {f : Lane × Nat → Lane} (hf : ∀ x l, x.park = none → (f (x, l)).park = none) :
    ParksNone w { w with lanes := w.lanes.zipIdx.map f } := by
  intro l h
  rw [lane_zipIdx_map]
  split
  · exact hf _ l h
  · rfl

theorem ParksNone.map (w : Warp) {f : Lane → Lane} (hf : ∀ x, x.park = none → (f x).park = none) :
    ParksNone w { w with lanes := w.lanes.map f } := by
  have h := ParksNone.mapIdx w (f := fun x => f x.1) fun x _ => hf x
  have hfst : w.lanes.zipIdx.map (fun x => f x.1) = w.lanes.map f := by
    conv_rhs => rw [← List.zipIdx_map_fst 0 w.lanes, List.map_map]
    rfl
  rwa [hfst] at h

namespace NoNewParks

theorem refl (s : State) : NoNewParks s s := ⟨fun _ y hy => ⟨y, hy, fun _ h => h⟩⟩

theorem trans {s t u : State} (h : NoNewParks s t) (h' : NoNewParks t u) : NoNewParks s u := by
  refine ⟨fun k z hz => ?_⟩
  obtain ⟨y, hy, hyz⟩ := h'.warp k z hz
  obtain ⟨x, hx, hxy⟩ := h.warp k y hy
  exact ⟨x, hx, fun l hl => hyz l (hxy l hl)⟩

theorem of_eq {s t : State} (h : t.thr.warps = s.thr.warps) : NoNewParks s t := ⟨fun k y hy => by
  unfold State.warpAt at *
  exact ⟨y, h ▸ hy, fun _ h => h⟩⟩

/-- Such a change follows one of other parts of the state. -/
theorem after {s t u : State} (h : NoNewParks t u) (hw : t.thr.warps = s.thr.warps) : NoNewParks s u := (of_eq hw).trans h

theorem of_fabric {s t : State} (h : FabricOnly s t) : NoNewParks s t := of_eq (by rw [h])

theorem of_homeWritten {s t : State} (h : HomeWritten s t) : NoNewParks s t := by
  refine ⟨fun k y hy => ?_⟩
  have hk := h.warps k
  rw [hy, Option.map_some] at hk
  obtain ⟨x, hx, he⟩ := Option.map_eq_some_iff.1 hk.symm
  refine ⟨x, hx, fun l hl => ?_⟩
  rw [Warp.eq_of_unwatched he] at hl
  exact hl

/-- A warp of t is the one that s holds there, or stands at a place whose warp parks none. -/
theorem of_place {s t : State} {k : Nat} (hk : ∀ y, t.warpAt k = some y → ∃ x, s.warpAt k = some x ∧ ParksNone x y)
    (ho : ∀ j, j ≠ k → t.warpAt j = s.warpAt j) : NoNewParks s t := by
  refine ⟨fun j y hy => ?_⟩
  by_cases hj : j = k
  · exact hj ▸ hk y (hj ▸ hy)
  · exact ⟨y, ho j hj ▸ hy, fun _ h => h⟩

theorem onWarp (s : State) (k : Nat) {f : Warp → Warp} (hf : ∀ w, ParksNone w (f w)) : NoNewParks s (s.onWarp k f) := by
  refine of_place (fun y hy => ?_) fun j hj => warpAt_onWarp_ne _ _ hj
  rw [warpAt_onWarp_self] at hy
  obtain ⟨x, hx, rfl⟩ := Option.map_eq_some_iff.1 hy
  exact ⟨x, hx, hf x⟩

theorem setWarp {s : State} {k : Nat} {w v : Warp} (hw : s.warpAt k = some w) (hf : ParksNone w v) : NoNewParks s (s.setWarp k v) := by
  refine of_place (fun y hy => ?_) fun j hj => warpAt_setWarp_ne _ _ hj
  rw [warpAt_setWarp_self] at hy
  cases hy
  exact ⟨w, hw, hf⟩

theorem onLanes (s : State) (k : Nat) (ls : List Nat) {f : Lane → Lane} (hf : ∀ x, x.park = none → (f x).park = none) :
    NoNewParks s (s.onLanes k ls f) := by
  refine onWarp s k fun w => ?_
  induction ls generalizing w with
  | nil => exact fun _ h => h
  | cons m ls ih =>
    intro l h
    rw [onLanes_cons]
    refine ih _ l ?_
    rw [lane_onLane]
    split
    · exact hf _ h
    · exact h

theorem foldl {f : State → α → State} (hf : ∀ s x, NoNewParks s (f s x)) (s : State) (xs : List α) : NoNewParks s (xs.foldl f s) := by
  induction xs generalizing s with
  | nil => exact refl s
  | cons x xs ih => exact (hf s x).trans (ih _)

theorem ite {c : Prop} [Decidable c] {s t u : State} (h : NoNewParks s t) (h' : NoNewParks s u) : NoNewParks s (if c then t else u) := by
  split
  · exact h
  · exact h'

/-! Writes to the pool, and messages. -/

theorem send (s : State) (p : Nat) (relaxed : Bool) (m : Msg) : NoNewParks s (s.send p relaxed m) := of_fabric (send_fabric ..)

theorem poolWrite (s : State) (pa : Nat) (bs : List Byte) : NoNewParks s (s.poolWrite pa bs) := by
  unfold State.poolWrite
  refine foldl (fun s ⟨o, a, m⟩ => ?_) s _
  exact ite (of_homeWritten (.hwWrite ..)) (after (send ..) rfl)

theorem poolAsk (s : State) (pa n : Nat) : NoNewParks s (s.poolAsk pa n) := by
  unfold State.poolAsk
  refine foldl (fun s ⟨o, a, m⟩ => ?_) s _
  exact ite (refl s) (after (send ..) rfl)

theorem storeVirt (s : State) (ctx va : Nat) (bs : List Byte) : NoNewParks s (s.storeVirt ctx va bs) := by
  unfold State.storeVirt
  refine ite (refl s) ?_
  split
  · exact ite (refl s) (ite (of_homeWritten (.pageWrite ..)) ((poolWrite ..).trans (ite (poolWrite ..) (refl _))))
  · exact refl s

theorem domainWrite (s : State) (sys : Bool) (ctx a : Nat) (bs : List Byte) : NoNewParks s (s.domainWrite sys ctx a bs) :=
  ite (poolWrite ..) (storeVirt ..)

/-! Reports (R261). -/

theorem putReport (s : State) (p : PendingReport) (ring log producer consumer lost : Nat) :
    NoNewParks s (s.putReport p ring log producer consumer lost) := by
  unfold State.putReport
  exact ite (domainWrite ..) (ite (refl s) ((domainWrite ..).trans ((domainWrite ..).trans (domainWrite ..))))

theorem tryReport {s t : State} {p : PendingReport} (h : s.tryReport p = some t) : NoNewParks s t := by
  unfold State.tryReport at h
  dsimp only at h
  split at h
  · cases h
  · cases h; exact refl s
  · split at h
    · cases h; exact of_eq rfl
    · split at h
      · cases h; exact refl s
      · obtain ⟨r, -, rfl⟩ := Option.map_eq_some_iff.1 h
        exact (putReport ..).trans (ite (of_eq rfl) (of_eq rfl))

theorem askReport (s : State) (p : PendingReport) : NoNewParks s (s.askReport p) := by
  have hblock : NoNewParks s (if p.ring.isNone then s.poolAsk (s.cfg.sysDomain + 40) 24 else s) := ite (poolAsk ..) (refl s)
  unfold State.askReport
  dsimp only
  split
  · exact hblock.trans (poolAsk ..)
  · exact hblock

theorem pumpReports (n : Nat) (s : State) : NoNewParks s (pumpReports n s) := by
  induction n generalizing s with
  | zero => exact refl s
  | succ n ih =>
    unfold Machine.pumpReports
    split
    · exact refl s
    · split
      · next h => exact (tryReport h).trans (after (ih _) rfl)
      · exact askReport ..

theorem reportGroup (s : State) (wg : Nat) (r : Report) : NoNewParks s (reportGroup s wg r) := by
  have hwrite : ∀ ring sys ctx r, NoNewParks s (writeReport s ring sys ctx r) := fun _ _ _ _ => after (pumpReports ..) rfl
  unfold Machine.reportGroup
  split
  · exact hwrite ..
  · exact ite (of_eq rfl) (hwrite ..)

/-! A work-group that leaves (R163, R165, R179). -/

theorem writeCompletion (s : State) (ctx addr status : Nat) : NoNewParks s (writeCompletion s ctx addr status) :=
  ite (refl s) ((storeVirt ..).trans (storeVirt ..))

theorem settleJob (s : State) (n : Nat) : NoNewParks s (settleJob s n) := by
  unfold Machine.settleJob
  refine ite (refl s) ?_
  split <;> exact of_eq rfl

theorem jobCount (s : State) (pkg contract : Nat) (more : Bool) : NoNewParks s (jobCount s pkg contract more) :=
  ite (ite (of_eq rfl) (after (settleJob ..) rfl)) (send ..)

theorem launchEnded (s : State) (job : Option Nat) (owner : Option (Nat × Nat)) : NoNewParks s (launchEnded s job owner) := by
  have hjob : NoNewParks s (match job with | some n => Machine.settleJob s n | none => s) := by
    cases job with
    | none => exact refl s
    | some n => exact settleJob s n
  refine hjob.trans ?_
  unfold Machine.launchEnded
  cases owner with
  | none => exact of_eq rfl
  | some o => exact jobCount ..

theorem completeGrid (s : State) (grid : Nat) (g : Grid) : NoNewParks s (completeGrid s grid g) := by
  unfold Machine.completeGrid
  dsimp only
  exact after ((writeCompletion ..).trans (launchEnded ..)) rfl

theorem groupsDone (s : State) (grid n : Nat) : NoNewParks s (groupsDone s grid n) := by
  unfold Machine.groupsDone
  split
  · exact refl s
  · split
    · exact ite (completeGrid ..) (of_eq rfl)
    · exact send ..
    · exact refl s

theorem settleMembers (s : State) (gang : Option Nat) : NoNewParks s (settleMembers s gang) := by
  unfold Machine.settleMembers
  split
  · exact refl s
  · exact ite (refl s) (of_eq rfl)

theorem reapGroup (s : State) (wg : Nat) : NoNewParks s (reapGroup s wg) := by
  unfold Machine.reapGroup
  split
  · exact ite (after ((settleMembers ..).trans (groupsDone ..)) rfl) (refl s)
  · exact refl s

theorem releaseBarrier (s : State) (ks : List Nat) (scope : Nat) : NoNewParks s (releaseBarrier s ks scope) := by
  unfold Machine.releaseBarrier
  refine foldl (fun t k => onWarp t k fun w => ?_) s _
  refine ParksNone.map w fun x hx => ?_
  split
  · rfl
  · exact hx

theorem settleBarriers (s : State) (wg : Nat) (gang : Option Nat) : NoNewParks s (settleBarriers s wg gang) := by
  have hgroup : NoNewParks s (settleGroup s wg) := by
    unfold settleGroup
    split
    · exact refl s
    · exact ite (after (releaseBarrier ..) rfl) (refl s)
  refine hgroup.trans ?_
  unfold Machine.settleBarriers
  cases gang with
  | none => exact refl _
  | some n =>
    dsimp only
    unfold settleGang
    split
    · exact ite (after (releaseBarrier ..) rfl) (refl _)
    · exact refl _

theorem endRun (s : State) (k : Nat) : NoNewParks s (endRun s k) := by
  unfold Machine.endRun
  split
  · exact refl s
  · next w hw =>
    split
    · exact refl s
    · next r _ =>
      refine .trans (setWarp hw ?_) (of_eq rfl)
      exact ParksNone.mapIdx w fun x l hx => by dsimp only; rw [boundaryWait_lane]; exact hx

theorem forcedReset (s : State) (wg : Nat) : NoNewParks s (forcedReset s wg) := by
  unfold Machine.forcedReset
  split
  · exact refl s
  · next g _ =>
    dsimp only
    refine (foldl (fun s k => endRun s k) s (groupKeys g)).trans ?_
    generalize (groupKeys g).foldl (fun s k => Machine.endRun s k) s = b
    refine .trans ?_ (settleBarriers ..)
    refine .trans ?_ (reapGroup ..)
    refine ⟨fun k y hy => ⟨y, ?_, fun _ h => h⟩⟩
    replace hy : NMap.find k (b.thr.warps.filter fun x => !(groupKeys g).contains x.1) = some y := hy
    rw [find_filter_keys (fun k => !(groupKeys g).contains k)] at hy
    split at hy
    · exact hy
    · cases hy

theorem killWarp (s : State) (k : Nat) (w : Warp) (reason : Nat) : NoNewParks s (killWarp s k w reason) :=
  (reportGroup ..).trans (forcedReset ..)

/-! Handlers (R249, R251). -/

theorem enterHandler (s : State) (k : Nat) : NoNewParks s (enterHandler s k) := by
  unfold Machine.enterHandler
  split
  · exact refl s
  · next w hw =>
    refine ite (of_eq (by rw [raiseEvent_rest])) (setWarp hw ?_)
    refine ParksNone.mapIdx w fun x l hx => ?_
    dsimp only
    split
    · rfl
    · exact hx

theorem endHalt (s : State) (wg : Nat) : NoNewParks s (endHalt s wg) := by
  unfold Machine.endHalt
  split
  · exact refl s
  · refine after (foldl (fun s k => onWarp s k fun w l hl => ?_) _ _) rfl
    split
    · exact hl
    · split <;> exact hl

theorem nextTrap (s : State) (wg : Nat) : NoNewParks s (nextTrap s wg) := by
  unfold Machine.nextTrap
  split
  · exact refl s
  · dsimp only
    split
    · exact endHalt ..
    · exact after (enterHandler ..) rfl

theorem leaveHandler (s : State) (k : Nat) : NoNewParks s (leaveHandler s k) :=
  onWarp s k fun w => ParksNone.map w fun _ hx => hx

theorem requestRollback (s : State) (k : Nat) : NoNewParks s (requestRollback s k) := onWarp s k fun _ _ hl => hl

theorem eretAction (s : State) (k action : Nat) : NoNewParks s (eretAction s k action) := by
  unfold Machine.eretAction
  split
  · exact refl s
  · split
    · unfold resumeWarp
      split
      · exact refl s
      · exact (onLanes _ _ _ fun _ _ => rfl).trans ((leaveHandler ..).trans (nextTrap ..))
    · exact ite (killWarp ..) (requestRollback ..)
    · refine ite (killWarp ..) (.trans (onWarp s k fun _ => ?_) (requestRollback ..))
      exact fun _ hl => hl
    · exact killWarp ..

end NoNewParks

end Sys2Proof.Machine
end

section
/-! Instructions that a warp's lanes execute together (R51, R352): the issue that completes a set executes it, on the state of its release. -/

namespace Sys2Proof.Machine

/-- Changes of a warp that agree on the warp at the place are one change. -/
theorem onWarp_congr {s : State} {k : Nat} {v : Warp} {f h : Warp → Warp} (hv : s.warpAt k = some v) (hf : f v = h v) :
    s.onWarp k f = s.onWarp k h := by
  have hadjust : ∀ m : NMap Warp, m.find k = some v → NMap.adjust k f m = NMap.adjust k h m := by
    intro m
    induction m with
    | nil => exact fun _ => rfl
    | cons x m ih =>
      obtain ⟨j, u⟩ := x
      intro hm
      by_cases hj : j = k
      · simp only [NMap.find, if_pos hj, Option.some.injEq] at hm
        simp only [NMap.adjust, if_pos hj, hm, hf]
      · simp only [NMap.find, if_neg hj] at hm
        simp only [NMap.adjust, if_neg hj, ih hm]
  unfold State.onWarp
  rw [hadjust _ hv]

theorem withWarp_some {g : Group} {s : State} {f : Warp → IssueResult} {w : Warp} (h : s.warpAt g.key = some w) : withWarp g s f = f w := by
  unfold withWarp
  rw [h]

/-- The lanes of the group, parked at a convergent instruction. -/
def parkedGroup (i : Instr) (g : Group) (w : Warp) : Warp :=
  g.lanes.foldl (fun w l => w.onLanes [l] (parkedLane i g PWord.zero)) w

theorem parkedGroup_aside (i : Instr) (g : Group) : Aside (parkedGroup i g) :=
  Aside.lanes g.lanes (· - 4) (fun _ => g.rep) fun _ _ => some ⟨i, 0, false⟩

section
variable {i : Instr} {g : Group} {b : State} {v : Warp}

/-- Parking the group is that change of its warp. -/
theorem parkLanes_group (hv : b.warpAt g.key = some v) (hf : Fits g v) :
    parkLanes i (fun _ _ => PWord.zero) g b = b.onWarp g.key (parkedGroup i g) ∧
      ∀ l, (parkedGroup i g v).lane l = if l ∈ g.lanes then parkedLane i g PWord.zero (v.lane l) else v.lane l := by
  have hpark : parkLanes i (fun _ _ => PWord.zero) g b = b.onWarp g.key (parkedGroup i g) := parkLanes_onWarp hv
  obtain ⟨⟨u, hu, -, -, hlane⟩, -, -⟩ :=
    parkLanes_changed (i := i) (mask := fun _ _ => PWord.zero) hv hf.nodup fun l hl => (hf.lanes l hl).2
  rw [hpark, warpAt_onWarp_self, hv] at hu
  cases hu
  exact ⟨hpark, hlane⟩

/-- A parked set that is released stands past the word, on the state with its entries committed (R51). -/
theorem released_standing (hv : b.warpAt g.key = some v) (hf : Fits g v) :
    (commitDue (parkLanes i (fun _ _ => PWord.zero) g b) g).onLanes g.key g.lanes (fun x => { x with pc := x.pc + 4, rep := 0 }) =
      standing i b g := by
  obtain ⟨x, hx, sx, -⟩ := (commitDue_committed b g).warp v hv
  have hfx := sx.fits hf
  obtain ⟨-, hlane⟩ := parkLanes_group (i := i) hx hfx
  have same := (parkedGroup_aside i g).same x
  rw [(parkLanes_group hv hf).1, (parkedGroup_aside i g).commitDue]
  unfold standing State.onLanes
  rw [onWarp_onWarp]
  refine onWarp_congr hx ?_
  have hrest := onLanes_rest x g.lanes fun y => { y with rep := 0, park := some ⟨i, 0, false⟩ }
  refine warp_ext ((rest_onLanes same.rest ..).trans (by rw [hrest])) (by simp [same.count]) fun l => ?_
  by_cases hl : l ∈ g.lanes
  · have hlen := (hfx.lanes l hl).2
    rw [lane_onLanes_of_mem _ _ _ _ hf.nodup hl (by rw [same.count]; exact hlen), lane_onLanes_of_mem _ _ _ _ hf.nodup hl hlen, hlane l, if_pos hl]
    simp only [parkedLane, BitVec.sub_add_cancel]
    rfl
  · rw [lane_onLanes_of_not_mem _ _ _ _ hl, lane_onLanes_of_not_mem _ _ _ _ hl, hlane l, if_neg hl]

/-- The set of a lane, once all that a convergent instruction concerns have arrived. -/
theorem convSet_arrived {c : Nat} (hk : convKind i = some c) (hv : b.warpAt g.key = some v) (ha : allArrive b g v) (hf : Fits g v) {l : Nat}
    (hl : l ∈ g.lanes) : convSet (parkedGroup i g v) l = some g.lanes := by
  obtain ⟨hall, -, hbar, -⟩ := ha
  obtain ⟨-, hlane⟩ := parkLanes_group (i := i) hv hf
  have hr := ((parkedGroup_aside i g).same v).rest
  have hlanes : convLanes (parkedGroup i g v) = g.lanes := by
    rw [hall]
    refine List.filter_congr fun x _ => ?_
    rw [show (parkedGroup i g v).inHandler = v.inHandler by rw [hr], hlane x]
    split <;> rfl
  have hkind : ∀ x ∈ g.lanes, ((parkedGroup i g v).lane x).park.bind (fun p => convKind p.instr) = some c := fun x hx => by
    rw [hlane x, if_pos hx]
    exact hk
  unfold convSet
  dsimp only
  rw [hkind l hl]
  dsimp only
  rw [if_pos, hlanes]
  rw [hlanes, show (parkedGroup i g v).barrier = v.barrier by rw [hr], hbar, Bool.and_eq_true, List.all_eq_true]
  exact ⟨rfl, fun x hx => by rw [hkind x hx]; exact beq_self_eq_true _⟩

/-- Lanes that arrive together, and are all that a convergent instruction concerns, execute it at once, if it leaves
none of them parked. -/
theorem convergent_arrives {exec : Warp → Group → State → IssueResult} {c : Nat} {sigs : List Sig} {e : State} {u : Warp} (hk : convKind i = some c)
    (hv : b.warpAt g.key = some v) (ha : allArrive b g v) (hf : Fits g v) (hu : (standing i b g).warpAt g.key = some u)
    (hx : exec u g (standing i b g) = .done sigs e)
    (hend : ∀ y, e.warpAt g.key = some y → ∀ l ∈ g.lanes, (y.lane l).park = none) : convergent i exec g b = .done sigs e := by
  obtain ⟨hpark, hlane⟩ := parkLanes_group (i := i) hv hf
  have hw : (parkLanes i (fun _ _ => PWord.zero) g b).warpAt g.key = some (parkedGroup i g v) := by rw [hpark, warpAt_onWarp_self, hv]; rfl
  obtain ⟨l₀, ls, hls⟩ := List.exists_cons_of_ne_nil ha.2.1
  have h₀ : l₀ ∈ g.lanes := by simp [hls]
  obtain ⟨hnone, -⟩ := ha.2.2.2 l₀ h₀
  have hblocked : g.lanes.any (commitBlocked (parkedGroup i g v)) = false := by
    rw [List.any_eq_false]
    intro l hl
    rw [commitBlocked_parked (m := fun _ => PWord.zero) ((parkedGroup_aside i g).same v).rest hlane, (ha.2.2.2 l hl).2]
    exact Bool.false_ne_true
  have hjoin : joinSet convSet (fun g s => withWarp g s fun w => exec w g s) g (parkLanes i (fun _ _ => PWord.zero) g b) l₀ = .done sigs e := by
    unfold joinSet
    rw [hw]
    dsimp only
    rw [convSet_arrived hk hv ha hf h₀]
    dsimp only
    rw [hblocked, if_neg Bool.false_ne_true, released_standing hv hf]
    unfold withWarp
    rw [hu]
    dsimp only
    rw [hx]
  unfold convergent
  rw [withWarp_some hv, hls, List.headD_cons, hnone]
  dsimp only
  unfold arrive
  have hfirst : ((parkLanes i (fun _ _ => PWord.zero) g b).warpAt g.key).bind (fun w => (w.lane l₀).park) = some ⟨i, 0, false⟩ := by
    rw [hw, Option.bind_some, hlane l₀, if_pos h₀]
    rfl
  rw [hls, List.foldl_cons]
  dsimp only
  rw [hfirst]
  dsimp only
  rw [hjoin]
  -- the set has executed: what is left of the fold completes none
  refine foldl_stays fun l hl => ?_
  have hmem : l ∈ g.lanes := by rw [hls]; exact List.mem_cons_of_mem _ hl
  dsimp only
  cases hy : e.warpAt g.key with
  | none => rfl
  | some y => rw [Option.bind_some, hend y hy l hmem]

/-- Lanes that stand parked at a convergent instruction execute it as an issue of their own. -/
theorem convergent_parked {exec : Warp → Group → State → IssueResult} (hv : b.warpAt g.key = some v) (ha : allParked b g v) :
    convergent i exec g b = exec v g b := by
  obtain ⟨-, p, hp⟩ := ha
  unfold convergent
  rw [withWarp_some hv, hp]

end

/-! `trap` and `eret` (R373, R374). -/

/-- What a complete set of `eret` words does: the action with the highest code of them (R374). -/
def eretTaken (b : State) (g : Group) (v : Warp) : State :=
  eretAction (b.onLanes g.key g.lanes fun x => { x with park := none }) g.key
    ((g.lanes.map fun l => match (v.lane l).park with
      | some p => eretCode p.instr
      | none => 0).foldl max 0)

/-- The lanes that stand in a set have parked none of its lanes after its action. -/
theorem eretTaken_unparked {b : State} {g : Group} {v y : Warp} (hv : b.warpAt g.key = some v) (hf : Fits g v)
    (hy : (eretTaken b g v).warpAt g.key = some y) {l : Nat} (hl : l ∈ g.lanes) : (y.lane l).park = none := by
  obtain ⟨x, hx, hxy⟩ := (NoNewParks.eretAction ..).warp _ y hy
  refine hxy l ?_
  rw [State.onLanes, warpAt_onWarp_self, hv] at hx
  cases hx
  rw [lane_onLanes_of_mem _ _ _ _ hf.nodup hl (hf.lanes l hl).2]

section
variable {i : Instr} {g : Group} {b : State} {v : Warp}

/-- A standing set's warp differs from the one that arrives in its lanes and scalar registers. -/
theorem standing_warp (hv : b.warpAt g.key = some v) : ∃ u, (standing i b g).warpAt g.key = some u ∧ SameWarp v u := by
  obtain ⟨x, hx, hvx, -⟩ := (commitDue_committed b g).warp v hv
  refine ⟨_, by rw [standing, State.onLanes, warpAt_onWarp_self, hx]; rfl, hvx.trans (SameWarp.onLanes ..)⟩

theorem runEret_inHandler (hv : b.warpAt g.key = some v) (hh : v.inHandler = true) :
    runEret i g b = convergent i (fun w g s => .done [] (eretTaken s g w)) g b := by
  unfold runEret
  rw [withWarp_some hv, hh]
  rfl

theorem runEret_outside (hv : b.warpAt g.key = some v) (hh : v.inHandler = false) :
    runEret i g b = .trap [] (g.lanes.map fun l => (l, ⟨7, 0x01, wordOf i + 2 ^ 32⟩)) := by
  unfold runEret
  rw [withWarp_some hv, hh]
  rfl

end

/-- An `eret` takes its action once its set is complete, inside a handler. -/
theorem eret_converges {i : Instr} {c : Nat} (hk : convKind i = some c) (he : ∀ s, exec i s = issueWord i (runEret i) s) :
    Converges i (fun _ _ v => v.inHandler = true) eretTaken := by
  constructor
  · refine achieves_of he fun g w s v h hv ⟨ha, hin⟩ => ?_
    obtain ⟨u, hu, hvu⟩ := standing_warp (i := i) hv
    have hf := h.fits hv
    have hh : v.inHandler = true := by rw [← hin u hu, hvu.rest]
    refine ⟨[], _, ?_, u, hu, rfl⟩
    rw [runEret_inHandler hv hh]
    exact convergent_arrives hk hv ha hf hu rfl fun y hy l hl => eretTaken_unparked hu (hvu.fits hf) hy hl
  · refine does_of he fun g w s v h hv ⟨ha, hh⟩ => ⟨[], ?_⟩
    rw [runEret_inHandler hv hh]
    exact convergent_parked hv ha

/-- Outside a handler `eret` is illegal. -/
theorem eret_traps {i : Instr} (he : ∀ s, exec i s = issueWord i (runEret i) s) :
    Traps i (fun _ g v => g.lanes ≠ [] ∧ v.inHandler = false) (fun _ g _ => ⟨0x01, g.lanes, wordOf i + 2 ^ 32⟩) :=
  traps_of he fun _ _ _ _ _ hv ⟨hne, hh⟩ => ⟨[], _, runEret_outside hv hh, resolveTrap_alike _ _ hne⟩

/-- `trap` raises its code in every lane of the group. -/
theorem trap_traps (e : Bool) (a : BitVec 7) : Traps (.trap e a) (fun _ g _ => g.lanes ≠ [])
    (fun b g v => ⟨0x10, g.lanes, (readField b g v (g.lanes.headD 0) a.toNat).val.toNat⟩) := by
  refine traps_of (run := runTrap a) (fun _ => rfl) fun g _ s v _ hv hne => ⟨[], _, by unfold runTrap; exact withWarp_some hv, ?_⟩
  have h := resolveTrap_laneFails (lanes := g.lanes) (bad := fun _ => true) (rank := 3) (code := 0x10)
    (info := fun l => (readField (s.issuing g) g v l a.toNat).val.toNat) (fun _ _ _ => rfl) (fun _ _ h => by cases h)
    (by obtain ⟨l, hl⟩ := List.exists_mem_of_ne_nil _ hne; exact ⟨l, hl, rfl⟩)
  simpa [laneFails, List.filterMap_eq_map] using h

/-! `resume` (R251, R253). -/

/-- The lanes that a mask names, outside protected mode. -/
theorem emaskLanes_unprotected {w : Warp} (h : w.protected' = false) (m : Word) : emaskLanes w m = (List.range 32).filter fun l => m.getLsbD l := by
  unfold emaskLanes maskLanes physLanes Warp.width
  simp [h]

/-- A work-group whose warps hold no trap has none to handle: its halt ends. -/
theorem nextTrap_endHalt {s : State} {wg : Nat} {x : WorkGroup} (hx : s.work.groups.find wg = some x)
    (h : ∀ j ∈ groupKeys x, ∀ u, s.warpAt j = some u → u.stop ≠ .trapped) : nextTrap s wg = endHalt s wg := by
  have hnone : ((groupKeys x).filter fun k => match s.warpAt k with
      | some w => w.stop == .trapped && w.rollback.isNone
      | none => false) = [] := by
    rw [List.filter_eq_nil_iff]
    intro j hj
    cases hu : s.warpAt j with
    | none => exact Bool.false_ne_true
    | some u =>
      dsimp only
      simp [h j hj u hu]
  unfold nextTrap
  rw [hx]
  dsimp only
  split
  · rfl
  · next hw => exact absurd (hnone.symm.trans hw) (by simp)

theorem foldl_onWarp_work (ks : List Nat) (f : Nat → Warp → Warp) (s : State) : (ks.foldl (fun s k => s.onWarp k (f k)) s).work = s.work := by
  induction ks generalizing s with
  | nil => rfl
  | cons k ks ih => exact ih _

/-- A work-group whose halt has ended is not halted. -/
theorem endHalt_halt {s : State} {wg : Nat} {x : WorkGroup} (hx : (endHalt s wg).work.groups.find wg = some x) : x.halt = none := by
  unfold endHalt at hx
  cases hg : s.work.groups.find wg with
  | none => rw [hg] at hx; exact absurd (hg.symm.trans hx) (by simp)
  | some g =>
    rw [hg] at hx
    dsimp only at hx
    rw [foldl_onWarp_work, State.onGroup, NMap.find_adjust_self, hg] at hx
    cases hx
    rfl

/-- The warp that `resume` takes back to its program, before it leaves the handler. -/
def resumedWarp (w : Warp) : Warp :=
  w.onLanes (emaskLanes w w.trap.emask) fun x => { x with pc := codeAddr w.trap.epc, rep := w.trap.erep.toNat, park := none }

theorem resumedWarp_lane {w : Warp} (hp : w.protected' = false) (hlen : w.lanes.length = 32) {l : Nat} (hl : l < 32) :
    (resumedWarp w).lane l = if w.trap.emask.getLsbD l then
        { w.lane l with pc := w.trap.epc.truncate 57 &&& ~~~3#57, rep := w.trap.erep.toNat, park := none }
      else w.lane l := by
  unfold resumedWarp
  rw [emaskLanes_unprotected hp]
  split
  · next h => exact lane_onLanes_of_mem _ _ _ _ (List.nodup_range.filter _) (List.mem_filter.2 ⟨List.mem_range.2 hl, h⟩) (by omega)
  · next h => exact lane_onLanes_of_not_mem _ _ _ _ fun hm => h (List.mem_filter.1 hm).2

/-- `resume` takes that warp out of its handler, then looks to the next trap of the work-group. -/
theorem resumeWarp_eq {s : State} {k : Nat} {w : Warp} (hw : s.warpAt k = some w) :
    resumeWarp s k = nextTrap (s.onWarp k fun _ => leftHandler (resumedWarp w)) w.wg := by
  unfold resumeWarp leaveHandler State.onLanes
  rw [hw]
  dsimp only
  rw [onWarp_onWarp]
  exact congrArg (nextTrap · w.wg) (onWarp_congr hw rfl)

/-- What `resume` restores. -/
theorem resumeWarp_restores {s : State} {k : Nat} {w : Warp} (hw : s.warpAt k = some w) (hp : w.protected' = false) (hlen : w.lanes.length = 32) :
    ∃ u, (resumeWarp s k).warpAt k = some u ∧ u.system = false ∧ u.inHandler = false ∧ u.latch = false ∧ u.stop = .none ∧
      (∀ l < 32, u.lane l = if w.trap.emask.getLsbD l then
          { w.lane l with held := false, pc := w.trap.epc.truncate 57 &&& ~~~3#57, rep := w.trap.erep.toNat, park := none }
        else { w.lane l with held := false }) ∧
      u.sregs = w.sregs ∧ u.trap = w.trap ∧ u.rings = w.rings ∧ (resumeWarp s k).thr.regs = s.thr.regs ∧ (resumeWarp s k).mem = s.mem := by
  have hv : (s.onWarp k fun _ => leftHandler (resumedWarp w)).warpAt k = some (leftHandler (resumedWarp w)) := by rw [warpAt_onWarp_self, hw]; rfl
  have hk := nextTrap_keeps hv rfl w.wg
  have hrest : resumedWarp w = { w with lanes := (resumedWarp w).lanes } := onLanes_rest ..
  have hcount : (resumedWarp w).lanes.length = 32 := by rw [resumedWarp, (SameWarp.onLanes ..).count, hlen]
  rw [resumeWarp_eq hw]
  refine ⟨_, hk.warp.trans hv, leftHandler_system _, rfl, rfl, rfl, fun l hl => ?_, ?_, ?_, ?_, hk.regs, hk.mem⟩
  · rw [leftHandler_lane (hl.trans_eq hcount.symm), resumedWarp_lane hp hlen hl]
    split <;> rfl
  · show (resumedWarp w).sregs = w.sregs
    rw [hrest]
  · show (resumedWarp w).trap = w.trap
    rw [hrest]
  · show (resumedWarp w).rings = w.rings
    rw [hrest]

/-- The halt of a work-group ends as its last warp that holds a trap resumes. -/
theorem resumeWarp_halt {s : State} {k : Nat} {w : Warp} (hw : s.warpAt k = some w)
    (hothers : ∀ x, s.work.groups.find w.wg = some x → ∀ j ∈ groupKeys x, ∀ u, s.warpAt j = some u → j ≠ k → u.stop ≠ .trapped) {x : WorkGroup}
    (hx : (resumeWarp s k).work.groups.find w.wg = some x) : x.halt = none := by
  rw [resumeWarp_eq hw] at hx
  cases hg : s.work.groups.find w.wg with
  | none =>
    unfold nextTrap at hx
    rw [show (s.onWarp k fun _ => leftHandler (resumedWarp w)).work.groups.find w.wg = none from hg] at hx
    exact absurd (hg.symm.trans hx) (by simp)
  | some g =>
    rw [nextTrap_endHalt (s := s.onWarp k fun _ => leftHandler (resumedWarp w)) (x := g) hg] at hx
    · exact endHalt_halt hx
    · intro j hj u hu
      by_cases hjk : j = k
      · subst hjk
        rw [warpAt_onWarp_self, hw] at hu
        cases hu
        exact fun h => by cases h
      · rw [warpAt_onWarp_ne _ _ hjk] at hu
        exact hothers g hg j hj u hu hjk

/-- Settles O30: the parts are `trap_traps`, `eret_converges` and `eret_traps` for the four words, and what `resumeWarp` restores. -/
theorem handlerReturn : Obligations.HandlerReturn := by
  unfold Obligations.HandlerReturn
  refine ⟨trap_traps, fun e => ?_, fun s k w hw hp hlen _ hothers => ?_⟩
  · intro code i hi
    have hcode : code = eretCode := rfl
    rw [hcode]
    have heret : convKind i = some 5 ∧ ∀ s, exec i s = issueWord i (runEret i) s := by
      simp only [List.mem_cons, List.not_mem_nil, or_false] at hi
      obtain rfl | rfl | rfl | rfl := hi <;> exact ⟨rfl, fun _ => rfl⟩
    exact ⟨eret_converges heret.1 heret.2, eret_traps heret.2⟩
  · obtain ⟨u, hu, hsys, hin, hlatch, hstop, hlane, hrest⟩ := resumeWarp_restores hw hp hlen
    exact ⟨u, hu, hsys, hin, hlatch, hstop, hlane, fun _ => resumeWarp_halt hw hothers, hrest⟩

end Sys2Proof.Machine
end

section
/-! Loads in flight (R327 to R329): the accesses that a group's lanes make, the operations that stand for them, and what each lane keeps. -/

namespace Sys2Proof.Machine

/-! The accesses of lanes whose checks pass (R325). -/

/-- The access of lane l that the translation E l reaches. -/
def accessOf (b : State) (g : Group) (v : Warp) (a : BitVec 7) (constant : Bool) (E : Nat → TlbEntry) (l : Nat) : LaneAccess :=
  ⟨l, segmentAddr b g v a constant l, placeOf b g v a constant E l, E l⟩

section
variable {b : State} {g : Group} {v : Warp} {a : BitVec 7} {n access : Nat} {constant aligned : Bool} {E : Nat → TlbEntry}

theorem segmentFail_reaches (h : reaches a n access constant aligned E b g v) {l : Nat} (hl : l ∈ g.lanes) :
    segmentFail b g v n a constant aligned (fun _ => []) l = none := by
  obtain ⟨hclean, halign, hlim, -⟩ := h l hl
  have hmis : (aligned && segmentAddr b g v a constant l % n != 0) = false := by
    cases haligned : aligned with
    | false => rfl
    | true => simp [halign haligned]
  unfold segmentFail
  dsimp only
  rw [hclean, hmis, show decide ((readPair b g v l a.toNat).val.toNat + n > (segmentOf v constant).2.1) = false from decide_eq_false (by omega)]
  rfl

/-- Lanes whose offsets are legal and whose translations are cached go on to their accesses. -/
theorem planAccess_reaches (h : reaches a n access constant aligned E b g v) :
    planAccess b g v n access a constant aligned (fun _ => []) = .go (g.lanes.map (accessOf b g v a constant E)) := by
  have hearly : laneFails g.lanes (segmentFail b g v n a constant aligned fun _ => []) = [] := laneFails_nil fun l hl => segmentFail_reaches h hl
  have htrs : (g.lanes.map fun l => (l, segmentAddr b g v a constant l,
      translateFor b g.core v.ctx.toNat 10 (segmentAddr b g v a constant l) access v.system)) =
      g.lanes.map fun l => (l, segmentAddr b g v a constant l, none, some (E l)) :=
    List.map_congr_left fun l hl => by rw [(h l hl).2.2.2]
  unfold planAccess
  dsimp only
  rw [hearly, htrs]
  simp [List.filter_map, List.filterMap_map, Function.comp_def, accessOf, placeOf]

end

/-- Using translations fills the L1 TLB, and changes nothing else. -/
theorem useEntries_eq (s : State) (core : Nat) (as : List LaneAccess) :
    ∃ tlb, s.useEntries core as = { s with mem := { s.mem with l1tlb := tlb } } := by
  induction as generalizing s with
  | nil => exact ⟨s.mem.l1tlb, rfl⟩
  | cons a as ih =>
    obtain ⟨tlb, htlb⟩ := ih (s.fillL1Tlb core a.entry)
    have hfill : ∃ tlb, s.fillL1Tlb core a.entry = { s with mem := { s.mem with l1tlb := tlb } } := by
      unfold State.fillL1Tlb
      dsimp only
      split
      · exact ⟨s.mem.l1tlb, rfl⟩
      · exact ⟨_, rfl⟩
    obtain ⟨tlb', htlb'⟩ := hfill
    refine ⟨tlb, ?_⟩
    show (s.fillL1Tlb core a.entry).useEntries core as = _
    rw [htlb, htlb']

/-! One load of a group (R328): the i-th, for an access x. -/

section
variable (g : Group) (v : Warp) (d : BitVec 7) (code hint la : Nat)

/-- For a scalar destination the loads after the first bring no value (R45). -/
def secondLoad (i : Nat) : Bool := isScalarDest d.toNat && i != 0

def loadDest (i l : Nat) : Dest := if secondLoad d i then .discard else destOf v l d.toNat ((sizeBytes code + 3) / 4)

def loadWaits (i : Nat) : Bool := la != 0 && !secondLoad d i

/-- The lanes that the load belongs to: without a lookahead every lane waits for the one that brings a scalar value. -/
def loadOwners (i l : Nat) : List Nat := if secondLoad d i then [l] else if isScalarDest d.toNat && la == 0 then g.lanes else [l]

def loadOf (i : Nat) (x : LaneAccess) (after : List Nat) : MemOp :=
  .load ⟨g.agent x.lane, x.pa, sizeBytes code, code, x.entry.kind, hint, loadDest v d code i x.lane, loadWaits d la i, loadOwners g d la i x.lane,
    after, false, x.entry.mirror, BitVec.ofNat 57 x.va, g.pc, g.rep⟩

/-- What a lane keeps of the load: a commit entry, or the load that it waits for. -/
def keepLoad (i id : Nat) (x : LaneAccess) (y : Lane) : Lane :=
  if loadWaits d la i then { y with commits := y.commits ++
    [⟨loadDest v d code i x.lane, la + 1, none, 0, some ⟨g.pc, g.rep, BitVec.ofNat 57 x.va⟩, some id⟩] }
  else if la ≠ 0 then y else { y with loads := y.loads ++ [id] }

/-- Put the load in flight. -/
def launchLoad (s : State) (x : LaneAccess × Nat) : State :=
  ({ s with fresh := s.fresh + 1 }.addOp s.fresh (loadOf g v d code hint la x.2 x.1
    (loadAfter s (v.lane x.1.lane) (g.agent x.1.lane) x.1.pa (sizeBytes code) x.1.entry.kind))).onLanes g.key (loadOwners g d la x.2 x.1.lane)
    (keepLoad g v d code la x.2 s.fresh x.1)

end

section
variable {g : Group} {v : Warp} {d : BitVec 7} {code hint la : Nat}

theorem issueLoads_eq (hp : v.protected' = false) (s : State) (as : List LaneAccess) :
    issueLoads s g v d code hint la as =
      as.zipIdx.foldl (fun r x => (launchLoad g v d code hint (v.delay la) r.1 x, r.2 ++ [r.1.fresh])) (s, []) := by
  unfold issueLoads
  refine congrArg (fun f => List.foldl f (s, []) as.zipIdx) ?_
  funext ⟨s, ids⟩ ⟨a, i⟩
  have hshare : shareLanes v a.lane = [a.lane] := by simp [shareLanes, hp]
  dsimp only
  rw [hshare]
  unfold launchLoad loadOf keepLoad loadOwners loadDest loadWaits
  generalize hla : v.delay la = n
  rw [show (if v.inHandler = true then 0 else la) = n from hla]
  unfold secondLoad State.take
  dsimp only
  generalize (isScalarDest d.toNat && i != 0) = second
  refine Prod.ext ?_ rfl
  cases n with
  | zero => rfl
  | succ n =>
    have hlast : ∀ b : Bool, (b && (n + 1 == 0)) = false := fun b => Bool.and_false b
    cases second with
    | false =>
      simp only [hlast, ite_self]
      rfl
    | true => exact (onLanes_unchanged ..).symm

/-- What the warp keeps of loads numbered from f on. -/
def keepLoads (g : Group) (v : Warp) (d : BitVec 7) (code la f : Nat) (xs : List (LaneAccess × Nat)) (w : Warp) : Warp :=
  xs.foldl (fun w x => w.onLanes (loadOwners g d la x.2 x.1.lane) (keepLoad g v d code la x.2 (f + x.2) x.1)) w

theorem onWarp_unchanged (s : State) (k : Nat) : s.onWarp k (fun w => w) = s := (foldOnLanes_eq [] (fun _ x => x) k s).symm

/-- t is s with a load in flight for each access, the first of which is the group's i-th; the group's first has the number f. -/
structure Launched (g : Group) (v : Warp) (d : BitVec 7) (code hint la f i : Nat) (as : List LaneAccess) (s t : State) : Prop where
  state : ∃ ops, t = { s.onWarp g.key (keepLoads g v d code la f (as.zipIdx i)) with
    mem := { s.mem with ops := ops }, fresh := s.fresh + as.length }
  older : ∀ id < s.fresh, t.mem.ops.find id = s.mem.ops.find id
  content : ∀ k x, as[k]? = some x → ∃ after, t.mem.ops.find (s.fresh + k) = some (loadOf g v d code hint la (i + k) x after) ∧
    (k = 0 → after = loadAfter s (v.lane x.lane) (g.agent x.lane) x.pa (sizeBytes code) x.entry.kind)

theorem launchLoads (f : Nat) (as : List LaneAccess) (s : State) (i : Nat) (hi : s.fresh = f + i) :
    Launched g v d code hint la f i as s ((as.zipIdx i).foldl (launchLoad g v d code hint la) s) := by
  induction as generalizing s i with
  | nil => exact ⟨⟨s.mem.ops, (onWarp_unchanged s g.key).symm⟩, fun _ _ => rfl, fun _ _ h => by cases h⟩
  | cons x as ih =>
    have hfresh : (launchLoad g v d code hint la s (x, i)).fresh = s.fresh + 1 := rfl
    have hops : (launchLoad g v d code hint la s (x, i)).mem.ops = s.mem.ops.insert s.fresh (loadOf g v d code hint la i x
      (loadAfter s (v.lane x.lane) (g.agent x.lane) x.pa (sizeBytes code) x.entry.kind)) := rfl
    obtain ⟨⟨ops, hstate⟩, holder, hcontent⟩ := ih (launchLoad g v d code hint la s (x, i)) (i + 1) (by rw [hfresh, hi]; rfl)
    rw [List.zipIdx_cons, List.foldl_cons]
    refine ⟨⟨ops, ?_⟩, fun id hid => ?_, fun k y hk => ?_⟩
    · have hlaunch : launchLoad g v d code hint la s (x, i) = { s with fresh := s.fresh + 1, mem := (launchLoad g v d code hint la s (x, i)).mem }.onWarp
          g.key (fun w => w.onLanes (loadOwners g d la i x.lane) (keepLoad g v d code la i (f + i) x)) := by
        rw [← hi]
        rfl
      have hwarps : (launchLoad g v d code hint la s (x, i)).onWarp g.key (keepLoads g v d code la f (as.zipIdx (i + 1))) =
          { s with fresh := s.fresh + 1, mem := (launchLoad g v d code hint la s (x, i)).mem }.onWarp g.key
            (keepLoads g v d code la f ((x, i) :: as.zipIdx (i + 1))) := by
        rw [hlaunch, onWarp_onWarp]
        rfl
      rw [hstate, hwarps, hfresh, List.length_cons, Nat.add_right_comm, Nat.add_assoc]
      rfl
    · rw [holder id (by omega), hops, NMap.find_insert_ne (by omega)]
    · cases k with
      | zero =>
        cases hk
        exact ⟨_, by rw [Nat.add_zero, holder s.fresh (by omega), hops, NMap.find_insert_self]; rfl, fun _ => rfl⟩
      | succ k =>
        obtain ⟨after, hafter, -⟩ := hcontent k y hk
        refine ⟨after, ?_, fun h => by cases h⟩
        rw [show s.fresh + (k + 1) = (launchLoad g v d code hint la s (x, i)).fresh + k by omega, hafter, show i + (k + 1) = i + 1 + k by omega]

/-- The numbers of the loads rise by one. -/
theorem launchLoads_ids (xs : List (LaneAccess × Nat)) (s : State) (ids : List Nat) :
    xs.foldl (fun r x => (launchLoad g v d code hint la r.1 x, r.2 ++ [r.1.fresh])) (s, ids) =
      (xs.foldl (launchLoad g v d code hint la) s, ids ++ List.range' s.fresh xs.length) := by
  induction xs generalizing s ids with
  | nil => simp
  | cons x xs ih =>
    rw [List.foldl_cons, ih, List.append_assoc, List.length_cons, List.range'_succ]
    rfl

end

/-! What a fold over lanes leaves of each lane. -/

/-- A lane sees the changes that name it, one after another. -/
theorem lane_foldl_onLanes {β : Type} (own : β → List Nat) (K : β → Lane → Lane) (m : Nat) (xs : List β) (w : Warp)
    (hn : ∀ x ∈ xs, (own x).Nodup) (hm : ∀ x ∈ xs, m ∈ own x → m < w.lanes.length) :
    (xs.foldl (fun w x => w.onLanes (own x) (K x)) w).lane m = xs.foldl (fun y x => if m ∈ own x then K x y else y) (w.lane m) := by
  induction xs generalizing w with
  | nil => rfl
  | cons x xs ih =>
    obtain ⟨hnx, hnxs⟩ := List.forall_mem_cons.1 hn
    obtain ⟨hmx, hmxs⟩ := List.forall_mem_cons.1 hm
    rw [List.foldl_cons, List.foldl_cons, ih _ hnxs (by simpa using hmxs)]
    congr 1
    split
    · next h => exact lane_onLanes_of_mem _ _ _ _ hnx h (hmx h)
    · next h => exact lane_onLanes_of_not_mem _ _ _ _ h

theorem length_foldl_onLanes {β : Type} (own : β → List Nat) (K : β → Lane → Lane) (xs : List β) (w : Warp) :
    (xs.foldl (fun w x => w.onLanes (own x) (K x)) w).lanes.length = w.lanes.length := by
  induction xs generalizing w with
  | nil => rfl
  | cons x xs ih => rw [List.foldl_cons, ih]; simp

theorem rest_foldl_onLanes {β : Type} (own : β → List Nat) (K : β → Lane → Lane) (xs : List β) {w u : Warp} (h : u = { w with lanes := u.lanes }) :
    xs.foldl (fun w x => w.onLanes (own x) (K x)) u = { w with lanes := (xs.foldl (fun w x => w.onLanes (own x) (K x)) u).lanes } := by
  induction xs generalizing u with
  | nil => exact h
  | cons x xs ih => exact ih (rest_onLanes h ..)

/-- Of changes of one lane each, a lane sees the one that names it. -/
theorem foldl_lanes_once {acc : Nat → LaneAccess} (hacc : ∀ l, (acc l).lane = l) (K : LaneAccess × Nat → Lane → Lane) (m : Nat) (ls : List Nat)
    (hn : ls.Nodup) (i : Nat) (y : Lane) :
    ((ls.map acc).zipIdx i).foldl (fun y x => if m ∈ [x.1.lane] then K x y else y) y =
      if m ∈ ls then K (acc m, i + ls.idxOf m) y else y := by
  induction ls generalizing i y with
  | nil => rfl
  | cons l ls ih =>
    obtain ⟨hl, hls⟩ := List.nodup_cons.1 hn
    rw [List.map_cons, List.zipIdx_cons, List.foldl_cons, ih hls]
    by_cases h : m = l
    · subst h
      simp [hacc, hl]
    · simp [hacc, h, List.idxOf_cons_ne _ (Ne.symm h), Nat.add_assoc, Nat.add_comm 1]

/-! The loads of a group. -/

section
variable {g : Group} {v : Warp} {d : BitVec 7} {code hint la : Nat}

/-- What lane l of the group, its k-th, keeps of its load: without a lookahead it waits for the load that brings a scalar value, and for its
own. -/
def loadKept (g : Group) (v : Warp) (d : BitVec 7) (code la f k : Nat) (x : LaneAccess) (y : Lane) : Lane :=
  if secondLoad d k && la == 0 then { y with loads := y.loads ++ [f, f + k] } else keepLoad g v d code la k (f + k) x y

theorem keepLoads_rest (f : Nat) (xs : List (LaneAccess × Nat)) (w : Warp) :
    keepLoads g v d code la f xs w = { w with lanes := (keepLoads g v d code la f xs w).lanes } := by
  unfold keepLoads
  exact rest_foldl_onLanes (w := w) (u := w) (β := LaneAccess × Nat) (fun x => loadOwners g d la x.2 x.1.lane)
    (fun x => keepLoad g v d code la x.2 (f + x.2) x.1) xs rfl

theorem keepLoads_length (f : Nat) (xs : List (LaneAccess × Nat)) (w : Warp) : (keepLoads g v d code la f xs w).lanes.length = w.lanes.length := by
  unfold keepLoads
  exact length_foldl_onLanes (β := LaneAccess × Nat) (fun x => loadOwners g d la x.2 x.1.lane) (fun x => keepLoad g v d code la x.2 (f + x.2) x.1) xs w

theorem loadOwners_eq (i l : Nat) :
    loadOwners g d la i l = if isScalarDest d.toNat ∧ la = 0 ∧ secondLoad d i = false then g.lanes else [l] := by
  unfold loadOwners
  cases secondLoad d i <;> simp

theorem loadOwners_nodup (hn : g.lanes.Nodup) (i l : Nat) : (loadOwners g d la i l).Nodup := by
  unfold loadOwners
  split
  · exact List.nodup_singleton l
  · split
    · exact hn
    · exact List.nodup_singleton l

theorem loadOwners_mem {i l m : Nat} (hl : l ∈ g.lanes) (hm : m ∈ loadOwners g d la i l) : m ∈ g.lanes := by
  unfold loadOwners at hm
  split at hm
  · exact List.mem_singleton.1 hm ▸ hl
  · split at hm
    · exact hm
    · exact List.mem_singleton.1 hm ▸ hl

theorem loadKept_eq (f k : Nat) (x : LaneAccess) (y : Lane) :
    loadKept g v d code la f k x y =
      if loadWaits d la k then { y with commits := y.commits ++
        [⟨loadDest v d code k x.lane, la + 1, none, 0, some ⟨g.pc, g.rep, BitVec.ofNat 57 x.va⟩, some (f + k)⟩] }
      else if la ≠ 0 then y
      else if secondLoad d k then { y with loads := y.loads ++ [f, f + k] }
      else { y with loads := y.loads ++ [f + k] } := by
  unfold loadKept keepLoad loadWaits
  cases la with
  | zero => cases secondLoad d k <;> rfl
  | succ n => cases secondLoad d k <;> rfl

theorem keepLoads_lane {acc : Nat → LaneAccess} (hacc : ∀ l, (acc l).lane = l) (hf : Fits g v) (f m : Nat) :
    (keepLoads g v d code la f (g.lanes.map acc).zipIdx v).lane m =
      if m ∈ g.lanes then loadKept g v d code la f (g.lanes.idxOf m) (acc m) (v.lane m) else v.lane m := by
  have howner : ∀ x ∈ (g.lanes.map acc).zipIdx, x.1.lane ∈ g.lanes := fun x hx => by
    obtain ⟨l, hl, he⟩ := List.mem_map.1 (List.fst_mem_of_mem_zipIdx hx)
    rw [← he, hacc]
    exact hl
  unfold keepLoads
  rw [lane_foldl_onLanes (fun x => loadOwners g d la x.2 x.1.lane) (fun x => keepLoad g v d code la x.2 (f + x.2) x.1) m _ _
    (fun x _ => loadOwners_nodup hf.nodup ..) fun x hx hm => (hf.lanes m (loadOwners_mem (howner x hx) hm)).2]
  cases hshare : isScalarDest d.toNat && la == 0 with
  | false =>
    -- each load belongs to its own lane
    have hown : ∀ i l, loadOwners g d la i l = [l] := fun i l => by simp [loadOwners, hshare]
    have hfirst : ∀ k, (secondLoad d k && la == 0) = false := fun k => by
      rw [secondLoad, Bool.and_right_comm, hshare, Bool.false_and]
    simp only [hown]
    rw [foldl_lanes_once hacc (fun x => keepLoad g v d code la x.2 (f + x.2) x.1) m _ hf.nodup]
    simp [loadKept, hfirst]
  | true =>
    -- the first load belongs to every lane, each later one to its own
    obtain ⟨hs, rfl⟩ : isScalarDest d.toNat = true ∧ la = 0 := by simpa using hshare
    have hfirst : ∀ l, loadOwners g d 0 0 l = g.lanes := fun l => by simp [loadOwners, secondLoad, hs]
    have hlater : ∀ i l, 1 ≤ i → loadOwners g d 0 i l = [l] := fun i l hi => by
      simp [loadOwners, secondLoad, hs, show i ≠ 0 by omega]
    have hkeep : ∀ i id x y, keepLoad g v d code 0 i id x y = { y with loads := y.loads ++ [id] } := fun _ _ _ _ => rfl
    cases hls : g.lanes with
    | nil => rfl
    | cons l₀ ls =>
      obtain ⟨hnot, hn⟩ := List.nodup_cons.1 (hls ▸ hf.nodup)
      rw [List.map_cons, List.zipIdx_cons, List.foldl_cons, List.foldl_ext _ (fun y x => if m ∈ [x.1.lane] then
        keepLoad g v d code 0 x.2 (f + x.2) x.1 y else y) _ fun y x hx => by rw [hlater _ _ (List.le_snd_of_mem_zipIdx hx)],
        foldl_lanes_once hacc (fun x => keepLoad g v d code 0 x.2 (f + x.2) x.1) m _ hn, hfirst, hls]
      unfold loadKept
      simp only [hkeep, secondLoad, hs]
      by_cases h : m = l₀
      · subst h
        simp [hnot]
      · by_cases hm : m ∈ ls
        · simp [h, hm, List.idxOf_cons_ne _ (Ne.symm h), Nat.add_comm 1]
        · simp [h, hm]

/-- The place of a lane in a list that holds it. -/
theorem idxOf?_of_mem {ls : List Nat} {l : Nat} (h : l ∈ ls) : ls.idxOf? l = some (ls.idxOf l) := by
  refine List.idxOf?_eq_some_iff.2 ⟨List.idxOf_lt_length_of_mem h, List.getElem_idxOf _, fun j hj he => ?_⟩
  exact absurd he (by simpa using List.not_of_lt_findIdx hj)

theorem idxOf_of_getElem? {ls : List Nat} (hn : ls.Nodup) {k l : Nat} (h : ls[k]? = some l) : ls.idxOf l = k := by
  obtain ⟨hk, rfl⟩ := List.getElem?_eq_some_iff.1 h
  exact hn.idxOf_getElem k hk

/-- Operations in flight that are described more loosely, and lanes that keep the same of them. -/
theorem InFlight.weaken {b e : State} {ops ops' : Nat → MemOp → Prop} {F F' : Nat → Nat → Lane → Lane} (h : InFlight g v b e ops F)
    (hops : ∀ l ∈ g.lanes, ∀ o, ops l o → ops' l o)
    (hF : ∀ l ∈ g.lanes, F (b.fresh + g.lanes.idxOf l) l (v.lane l) = F' (b.fresh + g.lanes.idxOf l) l (v.lane l)) : InFlight g v b e ops' F' := by
  refine { h with content := fun k l hk => ?_, warp := ?_ }
  · obtain ⟨o, ho, hp⟩ := h.content k l hk
    exact ⟨o, ho, hops l (List.mem_of_getElem? hk) o hp⟩
  · obtain ⟨u, hu, hrest, hlen, hlane⟩ := h.warp
    refine ⟨u, hu, hrest, hlen, fun l => ?_⟩
    rw [hlane l]
    by_cases hl : l ∈ g.lanes
    · rw [idxOf?_of_mem hl]
      exact hF l hl
    · rw [List.idxOf?_eq_none_iff.2 hl]

/-- Operations in flight, after a further change of the group's lanes. -/
theorem InFlight.lanes {b e : State} {ops : Nat → MemOp → Prop} {F : Nat → Nat → Lane → Lane} (h : InFlight g v b e ops F) {W : Warp → Warp}
    {K : Nat → Nat → Lane → Lane} (hrest : ∀ u, W u = { u with lanes := (W u).lanes }) (hlen : ∀ u, (W u).lanes.length = u.lanes.length)
    (hlane : ∀ u, u.lanes.length = v.lanes.length → ∀ l, (W u).lane l =
      if l ∈ g.lanes then K (b.fresh + g.lanes.idxOf l) l (u.lane l) else u.lane l) :
    InFlight g v b (e.onWarp g.key W) ops (fun id l y => K id l (F id l y)) := by
  obtain ⟨hcontent, holder, ⟨u, hu, hurest, hulen, hulane⟩, hothers, houtside⟩ := h
  refine ⟨hcontent, holder, ⟨W u, by rw [warpAt_onWarp_self, hu]; rfl, ?_, (hlen u).trans hulen, fun l => ?_⟩, fun k hk => ?_, ?_⟩
  · have hmon : ({ u with lanes := (W u).lanes, monitor := none } : Warp) = { v with lanes := (W u).lanes, monitor := none } :=
      congrArg (fun w : Warp => { w with lanes := (W u).lanes }) hurest
    rw [← hmon]
    conv_lhs => rw [hrest u]
  · rw [hlane u hulen l, hulane l]
    by_cases hl : l ∈ g.lanes
    · rw [if_pos hl, idxOf?_of_mem hl]
    · rw [if_neg hl, List.idxOf?_eq_none_iff.2 hl]
  · rw [warpAt_onWarp_ne _ _ hk]
    exact hothers k hk
  · conv_lhs => rw [houtside]
    rfl

/-- Loads that are launched one after another are in flight. -/
theorem Launched.inFlight {b s t : State} {acc : Nat → LaneAccess} (hacc : ∀ l, (acc l).lane = l) (hv : b.warpAt g.key = some v) (hf : Fits g v)
    {tlb : NMap (List TlbEntry)} (hs : s = { b with mem := { b.mem with l1tlb := tlb } })
    (h : Launched g v d code hint la b.fresh 0 (g.lanes.map acc) s t) :
    InFlight g v b t
      (fun l o => ∃ after, o = loadOf g v d code hint la (g.lanes.idxOf l) (acc l) after ∧
        (g.lanes = [l] → after = loadAfter b (v.lane l) (g.agent l) (acc l).pa (sizeBytes code) (acc l).entry.kind))
      (fun _ l y => loadKept g v d code la b.fresh (g.lanes.idxOf l) (acc l) y) := by
  subst hs
  obtain ⟨⟨ops, rfl⟩, holder, hcontent⟩ := h
  refine ⟨fun k l hk => ?_, holder, ?_, fun k hk => ?_, ?_⟩
  · obtain ⟨after, ho, hafter⟩ := hcontent k (acc l) (by rw [List.getElem?_map, hk]; rfl)
    have hidx := idxOf_of_getElem? hf.nodup hk
    refine ⟨_, ho, after, by rw [hidx, Nat.zero_add], fun hone => ?_⟩
    rw [hone, List.idxOf_cons_self] at hidx
    have := hafter hidx.symm
    rwa [hacc] at this
  · refine ⟨keepLoads g v d code la b.fresh ((g.lanes.map acc).zipIdx 0) v, ?_, ?_, ?_, fun l => ?_⟩
    · show (b.onWarp g.key _).warpAt g.key = _
      rw [warpAt_onWarp_self, hv]
      rfl
    · exact congrArg (fun w : Warp => { w with monitor := none }) (keepLoads_rest ..)
    · exact keepLoads_length ..
    · rw [keepLoads_lane hacc hf]
      by_cases hl : l ∈ g.lanes
      · rw [if_pos hl, idxOf?_of_mem hl]
      · rw [if_neg hl, List.idxOf?_eq_none_iff.2 hl]
  · exact congrArg _ (warpAt_onWarp_ne _ _ hk)
  · rw [List.length_map]
    rfl

/-! The accesses that an acquire orders (R135, R329). -/

/-- What a lane keeps of its acquiring load on a page that is not a U page, in the state t in which the loads are in flight. -/
def keepAcquire (t : State) (id : Nat) (x : LaneAccess) (y : Lane) : Lane :=
  if x.entry.kind == 2 then y else { y with acquireAfter := t.stillPending y.acquireAfter ++ [id] }

def keepAcquires (t : State) (xs : List (LaneAccess × Nat)) (w : Warp) : Warp :=
  xs.foldl (fun w x => w.onLanes [x.1.lane] (keepAcquire t x.2 x.1)) w

theorem keepAcquires_rest (t : State) (xs : List (LaneAccess × Nat)) (w : Warp) :
    keepAcquires t xs w = { w with lanes := (keepAcquires t xs w).lanes } := by
  unfold keepAcquires
  exact rest_foldl_onLanes (w := w) (u := w) (β := LaneAccess × Nat) (fun x => [x.1.lane]) (fun x => keepAcquire t x.2 x.1) xs rfl

theorem keepAcquires_length (t : State) (xs : List (LaneAccess × Nat)) (w : Warp) : (keepAcquires t xs w).lanes.length = w.lanes.length := by
  unfold keepAcquires
  exact length_foldl_onLanes (β := LaneAccess × Nat) (fun x => [x.1.lane]) (fun x => keepAcquire t x.2 x.1) xs w

theorem keepAcquires_lane {acc : Nat → LaneAccess} (hacc : ∀ l, (acc l).lane = l) {ls : List Nat} (hn : ls.Nodup) (t : State) (f : Nat) {w : Warp}
    (hlen : ∀ l ∈ ls, l < w.lanes.length) (m : Nat) :
    (keepAcquires t ((ls.map acc).zipIdx f) w).lane m = if m ∈ ls then keepAcquire t (f + ls.idxOf m) (acc m) (w.lane m) else w.lane m := by
  unfold keepAcquires
  rw [lane_foldl_onLanes (β := LaneAccess × Nat) (fun x => [x.1.lane]) (fun x => keepAcquire t x.2 x.1) m _ _ (fun x _ => List.nodup_singleton _),
    foldl_lanes_once hacc (fun x => keepAcquire t x.2 x.1) m ls hn]
  intro x hx hm
  obtain ⟨l, hl, he⟩ := List.mem_map.1 (List.fst_mem_of_mem_zipIdx hx)
  rw [List.mem_singleton.1 hm, ← he, hacc]
  exact hlen l hl

/-- Changing lanes does not end an operation, so that every lane is told of the same outstanding ones. -/
theorem acquires_eq (hp : v.protected' = false) (t : State) (xs : List (LaneAccess × Nat)) (s : State) (ht : s.stillPending = t.stillPending) :
    xs.foldl (fun s x => if x.1.entry.kind == 2 then s
      else s.onLanes g.key (shareLanes v x.1.lane) fun y => { y with acquireAfter := s.stillPending y.acquireAfter ++ [x.2] }) s =
      s.onWarp g.key (keepAcquires t xs) := by
  induction xs generalizing s with
  | nil => exact (onWarp_unchanged s g.key).symm
  | cons x xs ih =>
    have hshare : shareLanes v x.1.lane = [x.1.lane] := by simp [shareLanes, hp]
    have hstep : (if x.1.entry.kind == 2 then s
        else s.onLanes g.key (shareLanes v x.1.lane) fun y => { y with acquireAfter := s.stillPending y.acquireAfter ++ [x.2] }) =
        s.onWarp g.key (·.onLanes [x.1.lane] (keepAcquire t x.2 x.1)) := by
      unfold keepAcquire
      rw [hshare, ht]
      cases x.1.entry.kind == 2 with
      | true => exact (onLanes_unchanged ..).symm
      | false => rfl
    rw [List.foldl_cons, ih _ (by rw [hstep]; exact ht), hstep, onWarp_onWarp]
    rfl

/-! Global and constant loads (R327 to R329). -/

/-- The state of a load instruction once its loads are in flight. -/
def loadsSent (acquire : Option Nat) (xs : List (LaneAccess × Nat)) (g : Group) (t : State) : State :=
  match acquire with
  | none => t
  | some _ => t.onWarp g.key (keepAcquires t xs)

/-- What a lane keeps of a load instruction besides its load. -/
def orderAfter (acquire : Option Nat) (t : State) (id : Nat) (x : LaneAccess) (y : Lane) : Lane :=
  match acquire with
  | none => y
  | some _ => keepAcquire t id x y

theorem orderAfter_eq (acquire : Option Nat) (t : State) (id : Nat) (x : LaneAccess) (y : Lane) :
    orderAfter acquire t id x y =
      if acquire.isSome ∧ x.entry.kind ≠ 2 then { y with acquireAfter := t.stillPending y.acquireAfter ++ [id] } else y := by
  unfold orderAfter keepAcquire
  cases acquire with
  | none => simp
  | some _ => by_cases hk : x.entry.kind = 2 <;> simp [hk]

section
variable {b : State} {a : BitVec 7} {constant : Bool} {E : Nat → TlbEntry}

/-- Lanes whose checks pass put their loads in flight, and an acquire orders the later accesses after them. -/
theorem runLoad_reaches {lb : BitVec 4} (acquire : Option Nat) (hv : b.warpAt g.key = some v) (hf : Fits g v)
    (h : reaches a (sizeBytes code) 0 constant true E b g v) :
    ∃ tlb t, Launched g v d code hint (v.delay lb.toNat) b.fresh 0 (g.lanes.map (accessOf b g v a constant E))
        { b with mem := { b.mem with l1tlb := tlb } } t ∧
      runLoad a d lb code hint constant acquire g b = .done (addrSigs b g v a constant)
        (loadsSent acquire ((g.lanes.map (accessOf b g v a constant E)).zipIdx b.fresh) g t) := by
  generalize has : g.lanes.map (accessOf b g v a constant E) = as
  obtain ⟨tlb, htlb⟩ := useEntries_eq b g.core as
  refine ⟨tlb, _, launchLoads b.fresh as _ 0 rfl, ?_⟩
  have hfilter : (as.filter fun x => (accessLanes v g.lanes).contains x.lane) = as := by
    rw [List.filter_eq_self, ← has, accessLanes_unprotected hf.unprotected]
    intro x hx
    obtain ⟨l, hl, rfl⟩ := List.mem_map.1 hx
    simpa [accessOf] using hl
  unfold runLoad
  rw [hv]
  dsimp only
  rw [planAccess_reaches h, has]
  dsimp only
  rw [hfilter, htlb, issueLoads_eq hf.unprotected, launchLoads_ids]
  cases acquire with
  | none => rfl
  | some c =>
    dsimp only
    rw [List.nil_append, List.length_zipIdx, ← List.zipIdx_eq_zip_range']
    exact congrArg _ (acquires_eq hf.unprotected _ _ _ rfl)

/-- Lane l's load comes after the group's first: for a scalar destination it brings no value. -/
theorem secondLoad_idxOf {l : Nat} (hl : l ∈ g.lanes) :
    secondLoad d (g.lanes.idxOf l) = (isScalarDest d.toNat && g.lanes.head? != some l) := by
  unfold secondLoad
  obtain ⟨l₀, ls, hls⟩ := List.exists_cons_of_ne_nil (List.ne_nil_of_mem hl)
  rw [hls, List.head?_cons]
  by_cases h : l₀ = l
  · simp [h]
  · simp [h, List.idxOf_cons_ne _ h]

end

end

/-- A load instruction puts its lanes' loads in flight, numbered in lane order. -/
theorem loads_achieve {i : Instr} {d a : BitVec 7} {lb : BitVec 4} {code hint : Nat} {constant : Bool} {E : Nat → TlbEntry} (acquire : Option Nat)
    (he : ∀ s, exec i s = issueWord i (runLoad a d lb code hint constant acquire) s) :
    Achieves i (reaches a (sizeBytes code) 0 constant true E) fun b g v t => InFlight g v b t
      (fun l o => ∃ after, o = loadOf g v d code hint (v.delay lb.toNat) (g.lanes.idxOf l) (accessOf b g v a constant E l) after ∧
        (g.lanes = [l] → after = loadAfter b (v.lane l) (g.agent l) (placeOf b g v a constant E l) (sizeBytes code) (E l).kind))
      (fun id l y => orderAfter acquire t id (accessOf b g v a constant E l)
        (loadKept g v d code (v.delay lb.toNat) b.fresh (g.lanes.idxOf l) (accessOf b g v a constant E l) y)) := by
  refine achieves_of he fun g w s v h hv ho => ?_
  have hf := h.fits hv
  obtain ⟨tlb, t, ht, hrun⟩ := runLoad_reaches (d := d) (hint := hint) (lb := lb) acquire hv hf ho
  refine ⟨_, _, hrun, ?_⟩
  have hflight := ht.inFlight (fun _ => rfl) hv hf rfl
  cases acquire with
  | none => exact hflight
  | some c =>
    exact hflight.lanes (K := fun id l => keepAcquire t id (accessOf (s.issuing g) g v a constant E l)) (keepAcquires_rest _ _)
      (keepAcquires_length _ _) fun u hu l => keepAcquires_lane (fun _ => rfl) hf.nodup t _ (fun l hl => by rw [hu]; exact (hf.lanes l hl).2) l

/-- Settles O17: each load instruction is a `runLoad`, whose loads are those that `loads_achieve` gives. -/
theorem globalLoads : Obligations.GlobalLoads := by
  unfold Obligations.GlobalLoads
  intro e d a la sz c h E n loads
  have hloads : ∀ i constant (acquire : Option Nat) hint,
      (∀ s, exec i s = issueWord i (runLoad a d la sz.toNat hint constant acquire) s) → loads i constant acquire.isSome hint := by
    intro i constant acquire hint he g w s v hi hv ho
    obtain ⟨t, ht, hflight⟩ := loads_achieve (E := E) acquire he g w s v hi hv ho
    refine ⟨t, ht, hflight.weaken (fun l hl o hsent => ?_) fun l hl => ?_⟩
    · obtain ⟨after, rfl, hafter⟩ := hsent
      refine ⟨after, ?_, hafter⟩
      unfold loadOf loadDest loadWaits
      rw [loadOwners_eq, secondLoad_idxOf hl]
      rfl
    · rw [orderAfter_eq, loadKept_eq]
      unfold loadWaits loadDest
      rw [secondLoad_idxOf hl]
      rfl
  exact ⟨hloads _ _ none _ fun _ => rfl, hloads _ _ none _ fun _ => rfl, hloads _ _ (some c.toNat) _ fun _ => rfl⟩

end Sys2Proof.Machine
end

section
/-! One rounding to an integer (R67): t is the exact magnitude, counted in multiples of a quantum 2^q, and k the multiple delivered. -/

namespace Sys2Proof.Machine

/-- k is an integer nearest to t, and even when t is half-way between two. -/
def NearestEven (t : ℚ) (k : ℕ) : Prop := |k - t| ≤ 1 / 2 ∧ (|k - t| = 1 / 2 → k % 2 = 0)

/-- k is what the mode delivers for the magnitude t of a number of sign `neg`: the nearest integer, ties to even, or the integer below or above. -/
def RoundsTo (rm : Nat) (neg : Bool) (t : ℚ) (k : ℕ) : Prop :=
  match rm with
  | 0 => NearestEven t k
  | 1 => (k : ℤ) = ⌊t⌋
  | 2 => (k : ℤ) = if neg then ⌈t⌉ else ⌊t⌋
  | _ => (k : ℤ) = if neg then ⌊t⌋ else ⌈t⌉

theorem roundsTo_self (rm : Nat) (neg : Bool) (k : ℕ) : RoundsTo rm neg k k := by
  unfold RoundsTo
  split <;> simp [NearestEven]

section
variable {rm : Nat} {neg : Bool} {t : ℚ} {k n : ℕ}

/-- Every mode delivers one of the two neighbours. -/
theorem RoundsTo.floor_le_and_le_ceil (h : RoundsTo rm neg t k) : ⌊t⌋ ≤ k ∧ (k : ℤ) ≤ ⌈t⌉ := by
  have hfc := Int.floor_le_ceil t
  unfold RoundsTo at h
  split at h
  case h_1 =>
    obtain ⟨hl, hu⟩ := abs_le.1 h.1
    constructor
    · rw [← Int.lt_add_one_iff, Int.floor_lt]
      push_cast
      linarith
    · rw [← Int.sub_one_lt_iff, Int.lt_ceil]
      push_cast
      linarith
  case h_2 => omega
  all_goals split at h <;> omega

theorem RoundsTo.exact_iff (h : RoundsTo rm neg t k) : (k : ℚ) = t ↔ ⌈t⌉ = ⌊t⌋ := by
  obtain ⟨hf, hc⟩ := h.floor_le_and_le_ceil
  constructor
  · rintro rfl
    simp
  · intro he
    have hk : ⌊t⌋ = k := by omega
    have hlow := Int.floor_le t
    have hhigh := Int.le_ceil t
    rw [he] at hhigh
    rw [hk] at hlow hhigh
    exact le_antisymm (by exact_mod_cast hlow) (by exact_mod_cast hhigh)

theorem RoundsTo.le_of_le (h : RoundsTo rm neg t k) (ht : t ≤ n) : k ≤ n := by
  have hceil : ⌈t⌉ ≤ (n : ℤ) := Int.ceil_le.2 (by exact_mod_cast ht)
  have := h.floor_le_and_le_ceil.2
  omega

theorem RoundsTo.ge_of_ge (h : RoundsTo rm neg t k) (ht : (n : ℚ) ≤ t) : n ≤ k := by
  have hfloor : (n : ℤ) ≤ ⌊t⌋ := Int.le_floor.2 (by exact_mod_cast ht)
  have := h.floor_le_and_le_ceil.1
  omega

end

/-! Quotients with a remainder. -/

section
variable {k r d : ℕ}

theorem floor_add_fraction (hr : r < d) : ⌊(k + r / d : ℚ)⌋ = k := by
  have hd : (0 : ℚ) < d := by exact_mod_cast (Nat.zero_le r).trans_lt hr
  have hx : (r : ℚ) / d < 1 := by rw [div_lt_one hd]; exact_mod_cast hr
  simp [Int.floor_eq_iff, hx, div_nonneg]

theorem ceil_add_fraction (hr : r < d) : ⌈(k + r / d : ℚ)⌉ = if r = 0 then (k : ℤ) else k + 1 := by
  have hd : (0 : ℚ) < d := by exact_mod_cast (Nat.zero_le r).trans_lt hr
  split
  next h0 => simp [h0]
  next h0 =>
    have hpos : (0 : ℚ) < r / d := div_pos (by exact_mod_cast Nat.pos_of_ne_zero h0) hd
    have hx : (r : ℚ) / d < 1 := by rw [div_lt_one hd]; exact_mod_cast hr
    simp [Int.ceil_eq_iff, hpos, hx.le]

end

theorem nearestEven_below {k : ℕ} {x : ℚ} (h0 : 0 ≤ x) (h : x ≤ 1 / 2) (he : x = 1 / 2 → k % 2 = 0) : NearestEven (k + x) k := by
  have hd : |(k : ℚ) - (k + x)| = x := by rw [sub_add_cancel_left, abs_neg, abs_of_nonneg h0]
  exact ⟨by rwa [hd], fun h => he (by rwa [hd] at h)⟩

theorem nearestEven_above {k : ℕ} {x : ℚ} (h1 : x ≤ 1) (h : 1 / 2 ≤ x) (he : x = 1 / 2 → k % 2 = 1) : NearestEven (k + x) (k + 1) := by
  have hd : |((k + 1 : ℕ) : ℚ) - (k + x)| = 1 - x := by
    push_cast
    rw [add_sub_add_left_eq_sub, abs_of_nonneg (by linarith)]
  refine ⟨by rw [hd]; linarith, fun h => ?_⟩
  have := he (by rw [hd] at h; linarith)
  omega

/-- The comparison of a remainder r of 2h with the half h finds the nearest multiple. -/
theorem nearestEven_of_remainder (k : ℕ) {r h : ℕ} (hr : r < 2 * h) :
    NearestEven (k + r / (2 * h : ℕ)) (if r > h ∨ r = h ∧ k % 2 = 1 then k + 1 else k) := by
  have hd : (0 : ℚ) < (2 * h : ℕ) := by exact_mod_cast (by omega : 0 < 2 * h)
  have hle : (r : ℚ) / (2 * h : ℕ) ≤ 1 / 2 ↔ r ≤ h := by
    rw [div_le_div_iff₀ hd two_pos]
    norm_cast
    omega
  have hge : 1 / 2 ≤ (r : ℚ) / (2 * h : ℕ) ↔ h ≤ r := by
    rw [div_le_div_iff₀ two_pos hd]
    norm_cast
    omega
  split
  next hup =>
    refine nearestEven_above (by rw [div_le_one hd]; exact_mod_cast hr.le) (hge.2 (by omega)) fun heq => ?_
    have := hle.1 heq.le
    omega
  next hdown =>
    refine nearestEven_below (by positivity) (hle.2 (by omega)) fun heq => ?_
    have := hge.1 heq.ge
    omega

/-- The model's choice between a quotient and the next integer, from the remainder. -/
theorem roundUp_roundsTo (rm : Nat) (neg : Bool) (k : ℕ) {r s : ℕ} (hs : 0 < s) (hr : r < 2 ^ s) :
    RoundsTo rm neg (k + r / (2 ^ s : ℕ)) (if roundUp rm neg k r s false then k + 1 else k) := by
  unfold RoundsTo roundUp
  split
  case h_1 =>
    have hpow : 2 ^ s = 2 * 2 ^ (s - 1) := by rw [← pow_succ', Nat.sub_add_cancel hs]
    rw [hpow] at hr ⊢
    simpa using nearestEven_of_remainder k hr
  case h_2 => exact (floor_add_fraction hr).symm
  all_goals
    rw [floor_add_fraction hr, ceil_add_fraction hr]
    cases neg <;> by_cases h0 : r = 0 <;> simp [h0]

/-- The magnitude m * 2^e counted in multiples of 2^q. -/
def inQuanta (m : ℕ) (e q : ℤ) : ℚ := m * 2 ^ (e - q)

theorem inQuanta_mul (m : ℕ) (e q : ℤ) : inQuanta m e q * 2 ^ q = m * 2 ^ e := by
  rw [inQuanta, mul_assoc, ← zpow_add₀ two_ne_zero, sub_add_cancel]

theorem inQuanta_pos {m : ℕ} (hm : m ≠ 0) (e q : ℤ) : 0 < inQuanta m e q := by
  unfold inQuanta
  positivity

theorem inQuanta_anti (m : ℕ) (e : ℤ) {p q : ℤ} (h : p ≤ q) : inQuanta m e q ≤ inQuanta m e p := by
  unfold inQuanta
  gcongr
  exact one_le_two

theorem inQuanta_eq_two_mul (m : ℕ) (e q : ℤ) : inQuanta m e q = 2 * inQuanta m e (q + 1) := by
  have hexp : e - q = e - (q + 1) + 1 := by ring
  rw [inQuanta, hexp, zpow_add_one₀ two_ne_zero, inQuanta]
  ring

/-- A quantum no larger than 2^e divides the magnitude. -/
theorem inQuanta_of_le (m : ℕ) {e q : ℤ} (h : q ≤ e) : inQuanta m e q = (m * 2 ^ (e - q).toNat : ℕ) := by
  obtain ⟨j, hj⟩ := Int.eq_ofNat_of_zero_le (sub_nonneg.2 h)
  simp [inQuanta, hj]

/-- A larger one leaves a quotient and a remainder. -/
theorem inQuanta_eq_div_add_mod (m : ℕ) {e q : ℤ} {s : ℕ} (hs : q - e = s) :
    inQuanta m e q = (m / 2 ^ s : ℕ) + (m % 2 ^ s : ℕ) / (2 ^ s : ℕ) := by
  have hexp : e - q = -(s : ℤ) := by omega
  have hm : (m : ℚ) = (2 ^ s : ℕ) * (m / 2 ^ s : ℕ) + (m % 2 ^ s : ℕ) := by exact_mod_cast (Nat.div_add_mod m (2 ^ s)).symm
  rw [inQuanta, hexp, zpow_neg, zpow_natCast, hm, ← div_eq_mul_inv, add_div]
  push_cast
  rw [mul_div_cancel_left₀ _ (by positivity)]

/-- `roundAt` delivers what the mode asks for in multiples of 2^q, and says whether it is exact. -/
theorem roundAt_roundsTo (rm : Nat) (neg : Bool) (m : ℕ) (e q : ℤ) :
    RoundsTo rm neg (inQuanta m e q) (roundAt rm neg m e false q).1 ∧
      ((roundAt rm neg m e false q).2 = true ↔ ((roundAt rm neg m e false q).1 : ℚ) ≠ inQuanta m e q) := by
  unfold roundAt
  split
  next hlt =>
    rw [inQuanta_of_le m hlt.le]
    exact ⟨roundsTo_self .., by simp⟩
  next =>
    split
    next heq =>
      rw [inQuanta_of_le m heq.le, heq]
      simpa using roundsTo_self rm neg m
    next hne =>
      generalize hs : (q - e).toNat = s
      have hr : m % 2 ^ s < 2 ^ s := Nat.mod_lt _ (Nat.two_pow_pos s)
      have hround := roundUp_roundsTo rm neg (m / 2 ^ s) (by omega) hr
      rw [inQuanta_eq_div_add_mod m (by omega : q - e = s)]
      refine ⟨hround, ?_⟩
      rw [ne_eq, hround.exact_iff, floor_add_fraction hr, ceil_add_fraction hr]
      by_cases h0 : m % 2 ^ s = 0 <;> simp [h0]

/-! The best of the numbers that the format has. -/

/-- u is no number strictly between two neighbouring integers from t's on: it is an integer, or lies below the integers next to t. -/
def OnGrid (t u : ℚ) : Prop := (∃ j : ℤ, u = j) ∨ u < ⌊t⌋

section
variable {t u : ℚ}

theorem OnGrid.le_floor (h : OnGrid t u) (hu : u ≤ t) : u ≤ ⌊t⌋ := by
  obtain ⟨j, rfl⟩ | h := h
  · exact_mod_cast Int.le_floor.2 hu
  · exact h.le

theorem OnGrid.ceil_le (h : OnGrid t u) (hu : t ≤ u) : (⌈t⌉ : ℚ) ≤ u := by
  obtain ⟨j, rfl⟩ | h := h
  · exact_mod_cast Int.ceil_le.2 hu
  · exact absurd (h.trans_le (Int.floor_le t)) hu.not_gt

theorem OnGrid.below {k : ℕ} (h : OnGrid t u) (hk : (k : ℤ) = ⌊t⌋) : (k : ℚ) ≤ t ∧ (u ≤ t → u ≤ k) := by
  have hkt : (k : ℚ) = ⌊t⌋ := by exact_mod_cast hk
  rw [hkt]
  exact ⟨Int.floor_le t, h.le_floor⟩

theorem OnGrid.above {k : ℕ} (h : OnGrid t u) (hk : (k : ℤ) = ⌈t⌉) : t ≤ k ∧ (t ≤ u → k ≤ u) := by
  have hkt : (k : ℚ) = ⌈t⌉ := by exact_mod_cast hk
  rw [hkt]
  exact ⟨Int.le_ceil t, h.ceil_le⟩

/-- An integer that is nearest to t among the integers is as near to t as any other integer, and even in a tie. -/
theorem NearestEven.le_abs_intCast {k : ℕ} (h : NearestEven t k) {j : ℤ} (hj : (j : ℚ) ≠ k) :
    |k - t| ≤ |j - t| ∧ (|k - t| = |j - t| → k % 2 = 0) := by
  obtain ⟨hle, heven⟩ := h
  have hone : (1 : ℚ) ≤ |(j : ℚ) - k| := by
    have : j - k ≠ 0 := by intro h; exact hj (by exact_mod_cast sub_eq_zero.1 h)
    exact_mod_cast Int.one_le_abs this
  have htri : |(j : ℚ) - k| ≤ |j - t| + |k - t| := by
    rw [abs_sub_comm (k : ℚ) t]
    exact abs_sub_le _ _ _
  exact ⟨by linarith, fun he => heven (by linarith)⟩

theorem OnGrid.nearest {k : ℕ} (h : OnGrid t u) (hk : NearestEven t k) : |k - t| ≤ |u - t| ∧ (|k - t| = |u - t| → u ≠ k → k % 2 = 0) := by
  by_cases hne : u = k
  · exact ⟨hne ▸ le_rfl, fun _ h => absurd hne h⟩
  obtain ⟨j, rfl⟩ | h := h
  · obtain ⟨hle, heven⟩ := hk.le_abs_intCast hne
    exact ⟨hle, fun he _ => heven he⟩
  · have hfloor : |(k : ℚ) - t| ≤ |⌊t⌋ - t| := by
      by_cases hj : ((⌊t⌋ : ℤ) : ℚ) = k
      · rw [hj]
      · exact (hk.le_abs_intCast hj).1
    have hlt : |(⌊t⌋ : ℚ) - t| < |u - t| := by
      have := Int.floor_le t
      rw [abs_of_nonpos (by linarith), abs_of_nonpos (by linarith)]
      linarith
    exact ⟨(hfloor.trans_lt hlt).le, fun he => absurd he (hfloor.trans_lt hlt).ne⟩

end

end Sys2Proof.Machine
end

section
/-! The values of a floating-point format (R60, R61): the finite ones as multiples of a quantum, and the codes of such multiples. -/

namespace Sys2Proof.Machine

/-- A format with infinities and NaNs, whose finite codes end before infinity and reach the normal numbers. -/
structure IsInterchange (f : FpFormat) : Prop where
  ieee : f.ieee = true
  frac_pos : 0 < f.fracBits
  max_lt_inf : f.maxCode < f.infCode
  normal_le_max : 2 ^ f.fracBits ≤ f.maxCode

theorem isInterchange_of_mem {f : FpFormat} (h : f ∈ [FpFormat.f32, .h16, .w16, .m8w]) : IsInterchange f := by
  simp only [List.mem_cons, List.not_mem_nil, or_false] at h
  obtain rfl | rfl | rfl | rfl := h <;> exact ⟨rfl, by decide, by decide, by decide⟩

/-- The exponent of the subnormal numbers' quantum, the least of the format. -/
def minQuantum (f : FpFormat) : ℤ := f.emin - f.fracBits

/-- The factor of a sign. -/
def signFactor (neg : Bool) : ℚ := if neg then -1 else 1

theorem signFactor_mul_self (neg : Bool) : signFactor neg * signFactor neg = 1 := by
  cases neg <;> norm_num [signFactor]

theorem isFinite_iff {v : FpVal} : isFinite v ↔ ∃ neg m e, v = .num neg m e := by
  cases v <;> simp [isFinite]

theorem valueOf_num (neg : Bool) (m : ℕ) (e : ℤ) : valueOf (.num neg m e) = signFactor neg * (m * 2 ^ e) := mul_assoc ..

/-- The magnitude that a code without its sign stands for. -/
def magnitudeOf (f : FpFormat) (c : ℕ) : ℚ :=
  if c < 2 ^ f.fracBits then c * 2 ^ minQuantum f
  else (2 ^ f.fracBits + c % 2 ^ f.fracBits : ℕ) * 2 ^ ((c / 2 ^ f.fracBits : ℕ) - f.bias - f.fracBits : ℤ)

theorem unpack_signed {f : FpFormat} (hf : IsInterchange f) (neg : Bool) {c : ℕ} (hc : c < f.infCode) :
    isFinite (f.unpack (f.signed neg c)) ∧ valueOf (f.unpack (f.signed neg c)) = signFactor neg * magnitudeOf f c := by
  have hn := Nat.two_pow_pos f.fracBits
  have hE := Nat.two_pow_pos f.expBits
  have hex : c / 2 ^ f.fracBits < 2 ^ f.expBits - 1 := Nat.div_lt_of_lt_mul (by rwa [mul_comm])
  have hsign : f.signed neg c = 2 ^ f.fracBits * (2 ^ f.expBits * neg.toNat) + c := by
    cases neg <;> simp [FpFormat.signed, pow_add, mul_comm]
  have hfrac : f.signed neg c % 2 ^ f.fracBits = c % 2 ^ f.fracBits := by rw [hsign, Nat.mul_add_mod]
  have hdiv : f.signed neg c / 2 ^ f.fracBits = 2 ^ f.expBits * neg.toNat + c / 2 ^ f.fracBits := by
    rw [hsign, Nat.mul_add_div hn]
  have hexp : f.signed neg c / 2 ^ f.fracBits % 2 ^ f.expBits = c / 2 ^ f.fracBits := by
    rw [hdiv, Nat.mul_add_mod, Nat.mod_eq_of_lt (by omega)]
  have hneg : (f.signed neg c / 2 ^ (f.expBits + f.fracBits) % 2 == 1) = neg := by
    rw [add_comm, pow_add, ← Nat.div_div_eq_div_mul, hdiv, Nat.mul_add_div hE, Nat.div_eq_of_lt (by omega : _ < 2 ^ f.expBits)]
    cases neg <;> rfl
  have hzero : c / 2 ^ f.fracBits = 0 ↔ c < 2 ^ f.fracBits := Nat.div_eq_zero_iff_lt hn
  unfold FpFormat.unpack magnitudeOf minQuantum
  simp only [hfrac, hexp, hneg, hf.ieee, beq_iff_eq, hex.ne, Bool.and_false, Bool.false_eq_true, if_false, Bool.not_true, Bool.false_and,
    Bool.true_and, hzero]
  split
  next hlt => exact ⟨trivial, by rw [valueOf_num, Nat.mod_eq_of_lt hlt]⟩
  next => exact ⟨trivial, valueOf_num ..⟩

/-- A finite code has less than twice the hidden bit for its fraction, and no quantum below the least. -/
theorem unpack_num {f : FpFormat} {c m : ℕ} {neg : Bool} {e : ℤ} (h : f.unpack c = .num neg m e) :
    m < 2 * 2 ^ f.fracBits ∧ minQuantum f ≤ e := by
  have hfrac : c % 2 ^ f.fracBits < 2 ^ f.fracBits := Nat.mod_lt _ (Nat.two_pow_pos _)
  unfold FpFormat.unpack at h
  unfold minQuantum FpFormat.emin
  dsimp only at h
  split at h
  · split at h <;> cases h
  split at h
  · cases h
  split at h
  next =>
    cases h
    exact ⟨by omega, le_rfl⟩
  next hex =>
    cases h
    rw [beq_iff_eq] at hex
    exact ⟨by omega, by omega⟩

/-- A finite value of the format stands on the grid of a number of its quantum q, in multiples of 2^q. -/
theorem onGrid_of_unpack {f : FpFormat} {c m : ℕ} {b : Bool} {e q : ℤ} {t : ℚ} (h : f.unpack c = .num b m e) (neg : Bool)
    (hq : q = minQuantum f ∨ (2 ^ f.fracBits : ℕ) ≤ t) : OnGrid t (signFactor neg * (signFactor b * inQuanta m e q)) := by
  obtain ⟨hm, he⟩ := unpack_num h
  rcases le_or_gt q e with hqe | hqe
  · refine .inl ⟨(if neg then -1 else 1) * ((if b then -1 else 1) * (m * 2 ^ (e - q).toNat : ℕ)), ?_⟩
    rw [inQuanta_of_le m hqe]
    push_cast
    rfl
  · obtain rfl | hn := hq
    · exact absurd he hqe.not_ge
    right
    have hhalf : 2 * inQuanta m e q ≤ m := by
      rw [← sub_add_cancel q 1, ← inQuanta_eq_two_mul]
      exact (inQuanta_anti m e (by omega : e ≤ q - 1)).trans_eq (by simp [inQuanta])
    have hmn : (m : ℚ) < 2 * (2 ^ f.fracBits : ℕ) := by exact_mod_cast hm
    have hfloor : ((2 ^ f.fracBits : ℕ) : ℚ) ≤ ⌊t⌋ := by exact_mod_cast Int.le_floor.2 (by exact_mod_cast hn)
    calc signFactor neg * (signFactor b * inQuanta m e q)
      _ ≤ inQuanta m e q := by
        have : 0 ≤ inQuanta m e q := mul_nonneg (Nat.cast_nonneg m) (by positivity)
        cases neg <;> cases b <;> simp [signFactor] <;> linarith
      _ < ⌊t⌋ := by linarith

section
variable {f : FpFormat} {k : ℕ} {q : ℤ}

theorem codeOf_subnormal (hk : k < 2 ^ f.fracBits) : f.codeOf k q = k := by
  simp [FpFormat.codeOf, hk]

theorem codeOf_normal {j : ℕ} (hn : 2 ^ f.fracBits ≤ k) (hk : k < 2 * 2 ^ f.fracBits) :
    f.codeOf k (minQuantum f + j) = (j + 1) * 2 ^ f.fracBits + (k - 2 ^ f.fracBits) := by
  have hexp : (minQuantum f + j + f.fracBits + f.bias).toNat = j + 1 := by
    unfold minQuantum FpFormat.emin
    omega
  simp [FpFormat.codeOf, hn.not_gt, hk.not_ge, hexp]

/-- A carry out of the fraction is the first number of the next exponent. -/
theorem codeOf_carry : f.codeOf (2 * 2 ^ f.fracBits) q = f.codeOf (2 ^ f.fracBits) (q + 1) := by
  have hlt : ¬ 2 * 2 ^ f.fracBits < 2 ^ f.fracBits := by omega
  simp [FpFormat.codeOf, hlt]

theorem magnitudeOf_normal {j : ℕ} (hn : 2 ^ f.fracBits ≤ k) (hk : k < 2 * 2 ^ f.fracBits) :
    magnitudeOf f (f.codeOf k (minQuantum f + j)) = k * 2 ^ (minQuantum f + j) := by
  have hpos := Nat.two_pow_pos f.fracBits
  have hfrac : k - 2 ^ f.fracBits < 2 ^ f.fracBits := by omega
  rw [codeOf_normal hn hk, mul_comm]
  unfold magnitudeOf
  rw [if_neg (by nlinarith), Nat.mul_add_mod, Nat.mod_eq_of_lt hfrac, Nat.mul_add_div hpos, Nat.div_eq_of_lt hfrac,
    Nat.add_sub_cancel' hn]
  congr 2
  unfold minQuantum FpFormat.emin
  push_cast
  ring

theorem magnitudeOf_codeOf (hq : minQuantum f ≤ q) (hk : k ≤ 2 * 2 ^ f.fracBits) (hn : q = minQuantum f ∨ 2 ^ f.fracBits ≤ k) :
    magnitudeOf f (f.codeOf k q) = k * 2 ^ q := by
  have hpos := Nat.two_pow_pos f.fracBits
  obtain ⟨j, hj⟩ := Int.eq_ofNat_of_zero_le (sub_nonneg.2 hq)
  obtain rfl : q = minQuantum f + j := by omega
  by_cases hlt : k < 2 ^ f.fracBits
  · rw [codeOf_subnormal hlt, hn.resolve_right hlt.not_ge, magnitudeOf, if_pos hlt]
  obtain hk | rfl := hk.lt_or_eq
  · exact magnitudeOf_normal (not_lt.1 hlt) hk
  · have hnext := magnitudeOf_normal (f := f) (j := j + 1) le_rfl (by omega)
    push_cast [← add_assoc] at hnext
    rw [codeOf_carry, hnext, zpow_add_one₀ two_ne_zero]
    push_cast
    ring

/-- The codes up to the first normal number are their own fractions, at the least quantum. -/
theorem codeOf_le_hidden (hk : k ≤ 2 ^ f.fracBits) : f.codeOf k (minQuantum f) ≤ 2 ^ f.fracBits := by
  obtain hlt | rfl := hk.lt_or_eq
  · rw [codeOf_subnormal hlt]
    exact hk
  · have hpos := Nat.two_pow_pos f.fracBits
    have := codeOf_normal (f := f) (j := 0) le_rfl (by omega)
    simpa using this.le

theorem codeOf_mod_two (hf : IsInterchange f) (hk : k ≤ 2 * 2 ^ f.fracBits) : f.codeOf k q % 2 = k % 2 := by
  obtain ⟨h, hh⟩ : 2 ∣ 2 ^ f.fracBits := dvd_pow_self 2 hf.frac_pos.ne'
  unfold FpFormat.codeOf
  dsimp only
  rw [hh] at hk ⊢
  split
  · rfl
  split
  next =>
    rw [Nat.sub_self, Nat.add_zero, mul_left_comm]
    omega
  next =>
    rw [mul_left_comm]
    omega

theorem signed_mod_two (hf : IsInterchange f) (neg : Bool) (c : ℕ) : f.signed neg c % 2 = c % 2 := by
  have hdvd : 2 ∣ 2 ^ (f.expBits + f.fracBits) := dvd_pow_self 2 (by have := hf.frac_pos; omega)
  unfold FpFormat.signed
  split <;> omega

end

end Sys2Proof.Machine
end

section
/-! One rounding of the model (R68, R69): which quantum it counts in, and what it delivers. -/

namespace Sys2Proof.Machine

/-- The quantum at which the leading bit of m * 2^e is the hidden bit. -/
def leadingQuantum (f : FpFormat) (m : ℕ) (e : ℤ) : ℤ := Nat.log2 m + e - f.fracBits

/-- The quantum that a magnitude is rounded at: that of its leading bit, or the least of the format. -/
def quantumOf (f : FpFormat) (m : ℕ) (e : ℤ) : ℤ := max (leadingQuantum f m e) (minQuantum f)

theorem minQuantum_le_quantumOf (f : FpFormat) (m : ℕ) (e : ℤ) : minQuantum f ≤ quantumOf f m e := le_max_right ..

section
variable {f : FpFormat} {m : ℕ} {e : ℤ}

theorem quantumOf_of_minQuantum_le (h : minQuantum f ≤ leadingQuantum f m e) : quantumOf f m e = leadingQuantum f m e := max_eq_left h

theorem quantumOf_of_lt_minQuantum (h : leadingQuantum f m e < minQuantum f) : quantumOf f m e = minQuantum f := max_eq_right h.le

theorem inQuanta_leadingQuantum (f : FpFormat) (m : ℕ) (e : ℤ) : inQuanta m e (leadingQuantum f m e) = 2 ^ f.fracBits * (m / 2 ^ Nat.log2 m) := by
  have hexp : e - leadingQuantum f m e = f.fracBits - Nat.log2 m := by
    unfold leadingQuantum
    ring
  rw [inQuanta, hexp, zpow_sub₀ two_ne_zero, zpow_natCast, zpow_natCast, mul_div_left_comm]

theorem hidden_le_inQuanta (hm : m ≠ 0) : ((2 ^ f.fracBits : ℕ) : ℚ) ≤ inQuanta m e (leadingQuantum f m e) := by
  have hlow : ((2 ^ Nat.log2 m : ℕ) : ℚ) ≤ m := by exact_mod_cast Nat.log2_self_le hm
  push_cast at hlow ⊢
  rw [inQuanta_leadingQuantum]
  exact le_mul_of_one_le_right (by positivity) ((one_le_div (by positivity)).2 hlow)

theorem inQuanta_le_twice_hidden (f : FpFormat) (m : ℕ) (e : ℤ) : inQuanta m e (leadingQuantum f m e) ≤ (2 * 2 ^ f.fracBits : ℕ) := by
  have hhigh : (m : ℚ) ≤ (2 ^ (Nat.log2 m + 1) : ℕ) := by exact_mod_cast Nat.lt_log2_self.le
  push_cast [pow_succ'] at hhigh ⊢
  rw [inQuanta_leadingQuantum, mul_comm 2]
  gcongr
  rwa [div_le_iff₀ (by positivity)]

/-- Above the least quantum a magnitude has the hidden bit. -/
theorem quantumOf_cases (hm : m ≠ 0) : quantumOf f m e = minQuantum f ∨ ((2 ^ f.fracBits : ℕ) : ℚ) ≤ inQuanta m e (quantumOf f m e) := by
  rcases le_or_gt (minQuantum f) (leadingQuantum f m e) with h | h
  · rw [quantumOf_of_minQuantum_le h]
    exact .inr (hidden_le_inQuanta hm)
  · exact .inl (quantumOf_of_lt_minQuantum h)

theorem inQuanta_quantumOf_le (f : FpFormat) (m : ℕ) (e : ℤ) : inQuanta m e (quantumOf f m e) ≤ (2 * 2 ^ f.fracBits : ℕ) :=
  (inQuanta_anti m e (le_max_left ..)).trans (inQuanta_le_twice_hidden f m e)

/-- Below the least quantum there is no hidden bit left. -/
theorem inQuanta_le_hidden (h : leadingQuantum f m e < minQuantum f) : inQuanta m e (minQuantum f) ≤ (2 ^ f.fracBits : ℕ) := by
  have htwice := inQuanta_le_twice_hidden f m e
  have hanti := inQuanta_anti m e (Int.add_one_le_of_lt h)
  rw [inQuanta_eq_two_mul] at htwice
  push_cast at htwice ⊢
  linarith

end

/-- The multiple of its quantum that the model rounds m * 2^e to, and whether it differs from the exact magnitude. -/
def finalRound (f : FpFormat) (rm : Nat) (neg : Bool) (m : ℕ) (e : ℤ) : ℕ × Bool := roundAt rm neg m e false (quantumOf f m e)

/-- The rounding of a number other than 0 in terms of its quantum; it is tiny only below the least normal number. -/
theorem round_of_ne_zero (f : FpFormat) (rm : Nat) (neg : Bool) {m : ℕ} (hm : m ≠ 0) (e : ℤ) :
    ∃ tiny : Bool, (minQuantum f ≤ leadingQuantum f m e → tiny = false) ∧
      f.round rm false neg m e false =
        if !tiny && f.codeOf (roundAt rm neg m e false (leadingQuantum f m e)).1 (leadingQuantum f m e) > f.maxCode then
          (f.overflowCode rm false neg, { overflow := true, inexact := true })
        else (f.signed neg (f.codeOf (finalRound f rm neg m e).1 (quantumOf f m e)),
          { underflow := tiny && (finalRound f rm neg m e).2, inexact := (finalRound f rm neg m e).2 }) := by
  have hq : (if leadingQuantum f m e < f.emin - f.fracBits then f.emin - f.fracBits else leadingQuantum f m e) = quantumOf f m e := by
    unfold quantumOf minQuantum
    split <;> omega
  have hsame : (if quantumOf f m e = leadingQuantum f m e then roundAt rm neg m e false (leadingQuantum f m e)
      else roundAt rm neg m e false (quantumOf f m e)) = finalRound f rm neg m e := by
    split
    next h => rw [← h, finalRound]
    next => rfl
  refine ⟨decide ((if (roundAt rm neg m e false (leadingQuantum f m e)).1 ≥ 2 ^ (f.fracBits + 1) then (Nat.log2 m : ℤ) + e + 1
    else Nat.log2 m + e) < f.emin), fun h => ?_, ?_⟩
  · unfold minQuantum leadingQuantum at h
    rw [decide_eq_false_iff_not]
    split <;> omega
  · rw [FpFormat.round, if_neg (by simpa using hm), ← hsame, ← hq]
    rfl

/-- A rounding that does not overflow delivers the code of the multiple it rounds to, a finite code. -/
theorem round_of_not_overflow {f : FpFormat} (rm : Nat) (neg : Bool) {m : ℕ} (hm : m ≠ 0) (e : ℤ)
    (ho : (f.round rm false neg m e false).2.overflow = false) :
    (f.round rm false neg m e false).1 = f.signed neg (f.codeOf (finalRound f rm neg m e).1 (quantumOf f m e)) ∧
      (f.round rm false neg m e false).2.inexact = (finalRound f rm neg m e).2 ∧
      (minQuantum f ≤ leadingQuantum f m e → f.codeOf (finalRound f rm neg m e).1 (quantumOf f m e) ≤ f.maxCode) := by
  obtain ⟨tiny, htiny, hround⟩ := round_of_ne_zero f rm neg hm e
  rw [hround] at ho ⊢
  split at ho
  next => cases ho
  next hfits =>
    rw [if_neg hfits]
    refine ⟨rfl, rfl, fun h => ?_⟩
    simpa [htiny h, finalRound, quantumOf_of_minQuantum_le h] using hfits

/-- What a mode asks for of a result y of even or odd code for the number x, against another number z. -/
def ModeAsks (rm code : ℕ) (x y z : ℚ) : Prop :=
  match rm with
  | 0 => |y - x| ≤ |z - x| ∧ (|y - x| = |z - x| → z ≠ y → code % 2 = 0)
  | 1 => |y| ≤ |x| ∧ (|z| ≤ |x| → 0 ≤ z * x → |z| ≤ |y|)
  | 2 => y ≤ x ∧ (z ≤ x → z ≤ y)
  | _ => x ≤ y ∧ (x ≤ z → y ≤ z)

theorem RoundsTo.modeAsks {rm : ℕ} {neg : Bool} {t u p : ℚ} {k code : ℕ} (h : RoundsTo rm neg t k) (hu : OnGrid t u) (hp : 0 < p)
    (ht : 0 < t) (hcode : code % 2 = k % 2) :
    ModeAsks rm code (signFactor neg * (t * p)) (signFactor neg * (k * p)) (signFactor neg * (u * p)) := by
  have hsub (a b : ℚ) : |signFactor neg * (a * p) - signFactor neg * (b * p)| = |a - b| * p := by
    rw [← mul_sub, ← sub_mul, abs_mul, abs_mul, abs_of_pos hp]
    cases neg <;> simp [signFactor]
  have habs (a : ℚ) : |signFactor neg * (a * p)| = |a| * p := by simpa using hsub a 0
  unfold RoundsTo at h
  unfold ModeAsks
  split at h
  case h_1 =>
    obtain ⟨hle, heven⟩ := hu.nearest h
    rw [hsub, hsub, hcode]
    refine ⟨by gcongr, fun he hne => heven (mul_right_cancel₀ hp.ne' he) ?_⟩
    rintro rfl
    exact hne rfl
  case h_2 =>
    obtain ⟨hle, hbest⟩ := hu.below h
    rw [habs, habs, habs, abs_of_pos ht, Nat.abs_cast, mul_le_mul_iff_left₀ hp, mul_le_mul_iff_left₀ hp, mul_le_mul_iff_left₀ hp]
    refine ⟨hle, fun hut hsame => ?_⟩
    have hu0 : 0 ≤ u := by
      have : signFactor neg * (u * p) * (signFactor neg * (t * p)) = u * (t * p ^ 2) := by cases neg <;> simp [signFactor] <;> ring
      rw [this] at hsame
      exact nonneg_of_mul_nonneg_left hsame (by positivity)
    rw [abs_of_nonneg hu0] at hut ⊢
    exact hbest hut
  case h_3 =>
    cases neg
    · simpa [signFactor, hp] using hu.below h
    · simpa [signFactor, hp] using hu.above h
  case h_4 =>
    cases neg
    · simpa [signFactor, hp] using hu.above h
    · simpa [signFactor, hp] using hu.below h

/-- A rounding that does not overflow delivers k times its quantum, where k is what the mode delivers for the magnitude in that quantum. -/
theorem round_delivers {f : FpFormat} (hf : IsInterchange f) (rm : Nat) (neg : Bool) {m : ℕ} (hm : m ≠ 0) (e : ℤ)
    (ho : (f.round rm false neg m e false).2.overflow = false) :
    ∃ k : ℕ, RoundsTo rm neg (inQuanta m e (quantumOf f m e)) k ∧
      isFinite (f.unpack (f.round rm false neg m e false).1) ∧
      valueOf (f.unpack (f.round rm false neg m e false).1) = signFactor neg * (k * 2 ^ quantumOf f m e) ∧
      (f.round rm false neg m e false).1 % 2 = k % 2 ∧
      ((f.round rm false neg m e false).2.inexact = true ↔ (k : ℚ) ≠ inQuanta m e (quantumOf f m e)) := by
  obtain ⟨hcode, hinexact, hmax⟩ := round_of_not_overflow rm neg hm e ho
  obtain ⟨hrounds, hexact⟩ := roundAt_roundsTo rm neg m e (quantumOf f m e)
  change RoundsTo rm neg _ (finalRound f rm neg m e).1 at hrounds
  have hk : (finalRound f rm neg m e).1 ≤ 2 * 2 ^ f.fracBits := hrounds.le_of_le (inQuanta_quantumOf_le f m e)
  have hq : quantumOf f m e = minQuantum f ∨ 2 ^ f.fracBits ≤ (finalRound f rm neg m e).1 := (quantumOf_cases hm).imp_right hrounds.ge_of_ge
  have hfinite : f.codeOf (finalRound f rm neg m e).1 (quantumOf f m e) < f.infCode := by
    refine lt_of_le_of_lt ?_ hf.max_lt_inf
    rcases le_or_gt (minQuantum f) (leadingQuantum f m e) with hmin | hmin
    · exact hmax hmin
    · rw [quantumOf_of_lt_minQuantum hmin] at hrounds ⊢
      exact (codeOf_le_hidden (hrounds.le_of_le (inQuanta_le_hidden hmin))).trans hf.normal_le_max
  obtain ⟨hfin, hvalue⟩ := unpack_signed hf neg hfinite
  rw [magnitudeOf_codeOf (minQuantum_le_quantumOf f m e) hk hq] at hvalue
  rw [hcode, hinexact]
  exact ⟨_, hrounds, hfin, hvalue, (signed_mod_two hf ..).trans (codeOf_mod_two hf hk), hexact⟩

/-- Settles O9: the rounding delivers the multiple of its quantum that the mode asks for, and every value of the format is on the grid. -/
theorem roundsOnce : Obligations.RoundsOnce := by
  unfold Obligations.RoundsOnce
  intro f hmem rm neg m e _ hm x r y ho
  obtain ⟨k, hrounds, hfin, hvalue, hparity, hexact⟩ := round_delivers (isInterchange_of_mem hmem) rm neg hm e ho
  have hp : (0 : ℚ) < 2 ^ quantumOf f m e := by positivity
  have hx : x = signFactor neg * (inQuanta m e (quantumOf f m e) * 2 ^ quantumOf f m e) := by
    rw [inQuanta_mul]
    exact valueOf_num neg m e
  have hy : y = signFactor neg * (k * 2 ^ quantumOf f m e) := hvalue
  refine ⟨hfin, ?_, fun c hc => ?_⟩
  · have hsign : signFactor neg ≠ 0 := left_ne_zero_of_mul_eq_one (signFactor_mul_self neg)
    rw [hexact, hx, hy, ne_eq, ne_eq, mul_right_inj' hsign, mul_left_inj' hp.ne']
  · obtain ⟨b, j, e', hv⟩ := isFinite_iff.1 hc
    intro z
    have hz : z = signFactor neg * (signFactor neg * (signFactor b * inQuanta j e' (quantumOf f m e)) * 2 ^ quantumOf f m e) := by
      rw [← mul_assoc, ← mul_assoc (signFactor neg), signFactor_mul_self, one_mul, mul_assoc, inQuanta_mul]
      exact (congrArg valueOf hv).trans (valueOf_num ..)
    have hbest := hrounds.modeAsks (onGrid_of_unpack hv neg (quantumOf_cases hm)) hp (inQuanta_pos hm ..) hparity
    rw [← hx, ← hy, ← hz] at hbest
    exact hbest

end Sys2Proof.Machine
end

section
/-! Comparisons of f32 numbers, and operations on NaNs (R62, R301 to R306, R311). -/

namespace Sys2Proof.Machine

/-! NaNs, as values and as words. -/

theorem isNaN_iff {a : FpVal} : a.isNaN = true ↔ ∃ s, a = .nan s := by
  cases a <;> simp [FpVal.isNaN]

theorem isSNaN_eq_false {a : FpVal} (h : a.isNaN = false) : a.isSNaN = false := by
  cases a with
  | nan s => cases h
  | inf n => rfl
  | num n m e => rfl

theorem unpack_f32 (c : ℕ) : FpFormat.f32.unpack c =
    if c / 2 ^ 23 % 256 = 255 then if c % 2 ^ 23 = 0 then .inf (c / 2 ^ 31 % 2 == 1) else .nan (c % 2 ^ 23 / 2 ^ 22 == 0)
    else if c / 2 ^ 23 % 256 = 0 then .num (c / 2 ^ 31 % 2 == 1) (c % 2 ^ 23) (-149)
    else .num (c / 2 ^ 31 % 2 == 1) (2 ^ 23 + c % 2 ^ 23) ((c / 2 ^ 23 % 256 : ℕ) - 127 - 23) := by
  simp [FpFormat.unpack, FpFormat.f32, FpFormat.emin]

theorem isNaNWord_iff (x : Word) : isNaNWord x = true ↔ x.toNat / 2 ^ 23 % 256 = 255 ∧ x.toNat % 2 ^ 23 ≠ 0 := by
  rw [isNaNWord, Bool.and_eq_true, beq_iff_eq, bne_iff_ne]

section
variable {x : Word}

theorem isSignalling_eq (h : isNaNWord x = true) : isSignalling x = (x.toNat % 2 ^ 23 / 2 ^ 22 == 0) := by
  have hbit : x.toNat % 2 ^ 23 / 2 ^ 22 = x.toNat / 2 ^ 22 % 2 := by omega
  rw [isSignalling, h, hbit, BitVec.getLsbD, Nat.testBit_eq_decide_div_mod_eq]
  rcases Nat.mod_two_eq_zero_or_one (x.toNat / 2 ^ 22) with h | h <;> rw [h] <;> rfl

theorem unpack_of_isNaNWord (h : isNaNWord x = true) : FpFormat.f32.unpack x.toNat = .nan (isSignalling x) := by
  obtain ⟨hexp, hfrac⟩ := (isNaNWord_iff x).1 h
  rw [unpack_f32, if_pos hexp, if_neg hfrac, isSignalling_eq h]

theorem isNaN_unpack_eq_false (h : isNaNWord x = false) : (FpFormat.f32.unpack x.toNat).isNaN = false := by
  have hn : ¬ (x.toNat / 2 ^ 23 % 256 = 255 ∧ x.toNat % 2 ^ 23 ≠ 0) := by
    rw [← isNaNWord_iff, h]
    exact Bool.false_ne_true
  rw [unpack_f32]
  split
  next hexp => rw [if_pos (not_not.1 fun hfrac => hn ⟨hexp, hfrac⟩)]; rfl
  next => split <;> rfl

theorem isNaN_unpack (x : Word) : (FpFormat.f32.unpack x.toNat).isNaN = isNaNWord x := by
  cases h : isNaNWord x with
  | true => rw [unpack_of_isNaNWord h]; rfl
  | false => exact isNaN_unpack_eq_false h

theorem isSignalling_eq_false (h : isNaNWord x = false) : isSignalling x = false := by
  rw [isSignalling, h]
  rfl

theorem isSNaN_unpack (x : Word) : (FpFormat.f32.unpack x.toNat).isSNaN = isSignalling x := by
  cases h : isNaNWord x with
  | true => rw [unpack_of_isNaNWord h]; rfl
  | false => rw [isSignalling_eq_false h, isSNaN_eq_false (isNaN_unpack_eq_false h)]

end

@[simp] theorem isNaN_neg (a : FpVal) : a.neg.isNaN = a.isNaN := by cases a <;> rfl

@[simp] theorem isSNaN_neg (a : FpVal) : a.neg.isSNaN = a.isSNaN := by cases a <;> rfl

/-! The order of the numbers (R303). -/

/-- A number of an f32: infinite, or finite and below 2^128. -/
def IsF32Number (a : FpVal) : Prop := a.isNaN = false ∧ (isFinite a → |valueOf a| < 2 ^ 128)

theorem abs_valueOf_num (neg : Bool) (m : ℕ) (e : ℤ) : |valueOf (.num neg m e)| = m * 2 ^ e := by
  have hpos : (0 : ℚ) ≤ m * 2 ^ e := by positivity
  rw [valueOf_num, abs_mul, abs_of_nonneg hpos]
  cases neg <;> simp [signFactor]

theorem isF32Number_unpack {x : Word} (h : isNaNWord x = false) : IsF32Number (FpFormat.f32.unpack x.toNat) := by
  refine ⟨(isNaN_unpack x).trans h, fun hfin => ?_⟩
  obtain ⟨neg, m, e, hv⟩ := isFinite_iff.1 hfin
  have hm : m < 2 ^ 24 := (unpack_num hv).1
  have he : e ≤ 104 := by
    rw [unpack_f32] at hv
    split at hv
    · split at hv <;> cases hv
    split at hv <;> cases hv <;> omega
  have hpow : (2 : ℚ) ^ e ≤ 2 ^ (104 : ℤ) := zpow_le_zpow_right₀ one_le_two he
  rw [hv, abs_valueOf_num]
  calc (m : ℚ) * 2 ^ e ≤ m * 2 ^ (104 : ℤ) := by gcongr
    _ < 2 ^ 24 * 2 ^ (104 : ℤ) := by
      gcongr
      exact_mod_cast hm
    _ = 2 ^ 128 := by norm_num

theorem fpScaled_mul {neg : Bool} {m : ℕ} {e q : ℤ} (h : q ≤ e) : (fpScaled neg m e q : ℚ) * 2 ^ q = valueOf (.num neg m e) := by
  obtain ⟨j, hj⟩ := Int.eq_ofNat_of_zero_le (sub_nonneg.2 h)
  obtain rfl : e = j + q := by omega
  have hz : (2 : ℚ) ^ (j + q : ℤ) = 2 ^ j * 2 ^ q := by rw [zpow_add₀ two_ne_zero, zpow_natCast]
  cases neg <;> simp [fpScaled, valueOf, hz, mul_assoc]

theorem lt_iff_valueOf_lt {a b : FpVal} (ha : IsF32Number a) (hb : IsF32Number b) : a.lt b = true ↔ valueOf a < valueOf b := by
  obtain ⟨hna, hfa⟩ := ha
  obtain ⟨hnb, hfb⟩ := hb
  cases a with
  | nan => cases hna
  | inf na =>
    cases b with
    | nan => cases hnb
    | inf nb => cases na <;> cases nb <;> simp [FpVal.lt, valueOf]
    | num nb mb eb =>
      obtain ⟨hlow, hhigh⟩ := abs_lt.1 (hfb trivial)
      cases na <;> simp [FpVal.lt]
      · exact hhigh.le
      · exact hlow
  | num na ma ea =>
    cases b with
    | nan => cases hnb
    | inf nb =>
      obtain ⟨hlow, hhigh⟩ := abs_lt.1 (hfa trivial)
      cases nb <;> simp [FpVal.lt]
      · exact hhigh
      · exact hlow.le
    | num nb mb eb =>
      have hp : (0 : ℚ) < 2 ^ min ea eb := by positivity
      rw [← fpScaled_mul (min_le_left ea eb), ← fpScaled_mul (min_le_right ea eb), mul_lt_mul_iff_left₀ hp, Int.cast_lt]
      exact decide_eq_true_iff

theorem eq_iff_valueOf_eq {a b : FpVal} (ha : IsF32Number a) (hb : IsF32Number b) : a.eq b = true ↔ valueOf a = valueOf b := by
  rw [FpVal.eq, ha.1, hb.1]
  simp only [Bool.not_false, Bool.true_and, Bool.and_eq_true, Bool.not_eq_true', ← Bool.not_eq_true, lt_iff_valueOf_lt ha hb,
    lt_iff_valueOf_lt hb ha]
  rw [not_lt, not_lt, and_comm]
  exact le_antisymm_iff.symm

/-! Comparisons (R303). -/

theorem lt_of_isNaN {a b : FpVal} (h : (a.isNaN || b.isNaN) = true) : a.lt b = false := by
  obtain ⟨s, rfl⟩ | ⟨s, rfl⟩ := (Bool.or_eq_true_iff.1 h).imp isNaN_iff.1 isNaN_iff.1
  · rfl
  · cases a <;> rfl

theorem eq_of_isNaN {a b : FpVal} (h : (a.isNaN || b.isNaN) = true) : a.eq b = false := by
  unfold FpVal.eq
  rw [← Bool.not_or, h]
  rfl

theorem fp32Cmp_unordered {c : ℕ} (hc : c < 8) {x y : Word} (h : (isNaNWord x || isNaNWord y) = true) :
    fp32Cmp c x y = (c == 1 || c == 6, { invalid := (isSignalling x || isSignalling y) || (2 ≤ c && c ≤ 5) }) := by
  have hun : ((FpFormat.f32.unpack x.toNat).isNaN || (FpFormat.f32.unpack y.toNat).isNaN) = true := by rwa [isNaN_unpack, isNaN_unpack]
  have hnu := (Bool.or_comm ..).trans hun
  unfold fp32Cmp
  dsimp only
  rw [eq_of_isNaN hun, lt_of_isNaN hun, lt_of_isNaN hnu, hun, isSNaN_unpack, isSNaN_unpack]
  interval_cases c <;> simp [FpFlags.inv]

theorem fp32Cmp_ordered {c : ℕ} (hc : c < 8) {x y : Word} (hx : isNaNWord x = false) (hy : isNaNWord y = false) :
    (fp32Cmp c x y).2 = {} ∧ ((fp32Cmp c x y).1 = true ↔
      c = 7 ∨ c < 6 ∧ holdsReal c (valueOf (FpFormat.f32.unpack x.toNat)) (valueOf (FpFormat.f32.unpack y.toNat))) := by
  have hnx := isF32Number_unpack hx
  have hny := isF32Number_unpack hy
  have hlt := lt_iff_valueOf_lt hnx hny
  have hgt := lt_iff_valueOf_lt hny hnx
  have heq := eq_iff_valueOf_eq hnx hny
  unfold fp32Cmp
  dsimp only
  rw [isSNaN_unpack, isSNaN_unpack, hnx.1, hny.1, isSignalling_eq_false hx, isSignalling_eq_false hy]
  interval_cases c <;> refine ⟨rfl, ?_⟩ <;> simp [holdsReal, ← hlt, ← hgt, ← heq, ← not_lt]

/-! Arithmetic on NaNs (R62, R301). -/

section
variable {f : FpFormat} {a b c : FpVal}

theorem add_of_isNaN (rm : ℕ) (sat : Bool) (h : a.isNaN = true ∨ b.isNaN = true) :
    f.add rm sat a b = (f.nan, FpFlags.inv (a.isSNaN || b.isSNaN)) := by
  obtain ⟨s, rfl⟩ | ⟨s, rfl⟩ := h.imp isNaN_iff.1 isNaN_iff.1
  · rfl
  · cases a <;> rfl

theorem mul_of_isNaN (rm : ℕ) (h : a.isNaN = true ∨ b.isNaN = true) : f.mul rm a b = (f.nan, FpFlags.inv (a.isSNaN || b.isSNaN)) := by
  obtain ⟨s, rfl⟩ | ⟨s, rfl⟩ := h.imp isNaN_iff.1 isNaN_iff.1
  · rfl
  · cases a <;> rfl

theorem fpProduct_of_isNaN (h : a.isNaN = true ∨ b.isNaN = true) : (fpProduct a b).isNaN = true ∧ fpZeroTimesInf a b = false := by
  obtain ⟨s, rfl⟩ | ⟨s, rfl⟩ := h.imp isNaN_iff.1 isNaN_iff.1
  · exact ⟨rfl, rfl⟩
  · cases a <;> exact ⟨rfl, rfl⟩

theorem fma_of_isNaN_product (rm : ℕ) (h : (fpProduct a b).isNaN = true) :
    f.fma rm a b c = (f.nan, FpFlags.inv (a.isSNaN || b.isSNaN || c.isSNaN || fpZeroTimesInf a b)) := by
  obtain ⟨s, hs⟩ := isNaN_iff.1 h
  simp only [FpFormat.fma, hs]

theorem fma_of_isNaN_factor (rm : ℕ) (h : a.isNaN = true ∨ b.isNaN = true) :
    f.fma rm a b c = (f.nan, FpFlags.inv (a.isSNaN || b.isSNaN || c.isSNaN)) := by
  obtain ⟨hnan, hzero⟩ := fpProduct_of_isNaN h
  rw [fma_of_isNaN_product rm hnan, hzero, Bool.or_false]

theorem fma_of_isNaN_addend (rm : ℕ) (h : c.isNaN = true) : (f.fma rm a b c).1 = f.nan := by
  have hadd (p : FpVal) : (f.add rm false p c).1 = f.nan := by rw [add_of_isNaN rm false (.inr h)]
  cases hp : fpProduct a b with
  | nan s => rw [fma_of_isNaN_product rm (isNaN_iff.2 ⟨s, hp⟩)]
  | inf n =>
    rw [FpFormat.fma, hp]
    exact hadd _
  | num n m e =>
    rw [FpFormat.fma, hp]
    exact hadd _

end

/-- Each function of one operand answers a NaN by the canonical one (R304 to R306). -/
theorem functions_of_isNaNWord {x : Word} (h : isNaNWord x = true) (r : ℕ) :
    let nan : Word × FpFlags := (0x7FC00000, { invalid := isSignalling x })
    fpRcp x = nan ∧ fpRsq x = nan ∧ fpWord (fpSqrt x.toNat) = nan ∧ fpEx2 x = nan ∧ fpLg2 x = nan ∧ (∀ c, fpTrig c x = nan) ∧
      fpTanh x = nan ∧ fpWord (fpRoundIntegral r x.toNat) = nan := by
  unfold fpRcp fpRsq fpSqrt fpEx2 fpLg2 fpTrig fpTanh fpRoundIntegral
  rw [unpack_of_isNaNWord h]
  exact ⟨rfl, rfl, rfl, rfl, rfl, fun _ => rfl, rfl, rfl⟩

theorem scaleAdd_of_isNaNWord (k : ℕ) {x z : Word} (y : Word) (h : isNaNWord x = true ∨ isNaNWord z = true) :
    (scaleAdd k x y z).1 = 0x7FC00000 := by
  unfold scaleAdd
  dsimp only
  split
  · rfl
  · rw [fpWord, add_of_isNaN]
    · rfl
    · rw [isNaN_unpack]
      refine h.symm.imp_right fun hx => ?_
      rw [unpack_of_isNaNWord hx]
      rfl

theorem fp32Arithmetic_of_isNaNWord (r : ℕ) {x y : Word} (h : isNaNWord x = true ∨ isNaNWord y = true) :
    let nan : Word × FpFlags := (0x7FC00000, { invalid := isSignalling x || isSignalling y })
    fp32Add r x y = nan ∧ fp32Sub r x y = nan ∧ fp32Mul r x y = nan := by
  rw [← isNaN_unpack, ← isNaN_unpack] at h
  have hneg := h
  rw [← isNaN_neg (FpFormat.f32.unpack y.toNat)] at hneg
  rw [fp32Add, fp32Sub, fp32Mul, add_of_isNaN r false h, add_of_isNaN r false hneg, mul_of_isNaN r h, isSNaN_neg, isSNaN_unpack, isSNaN_unpack]
  exact ⟨rfl, rfl, rfl⟩

theorem fp32Fma_of_isNaNWord_factor (r : ℕ) {x y : Word} (z : Word) (h : isNaNWord x = true ∨ isNaNWord y = true) :
    fp32Fma r x y z = (0x7FC00000, { invalid := isSignalling x || isSignalling y || isSignalling z }) := by
  rw [← isNaN_unpack, ← isNaN_unpack] at h
  rw [fp32Fma, fma_of_isNaN_factor r h, isSNaN_unpack, isSNaN_unpack, isSNaN_unpack]
  rfl

theorem fp32Fma_of_isNaNWord_addend (r : ℕ) (x y : Word) {z : Word} (h : isNaNWord z = true) : (fp32Fma r x y z).1 = 0x7FC00000 := by
  rw [← isNaN_unpack] at h
  exact congrArg (BitVec.ofNat 32) (fma_of_isNaN_addend r h)

/-- Settles O8: the comparison's order is that of the numbers, and a NaN operand is the first case of every operation. -/
theorem floatComparisonAndNaNs : Obligations.FloatComparisonAndNaNs := by
  unfold Obligations.FloatComparisonAndNaNs
  refine ⟨fun c x y hc => ⟨fp32Cmp_unordered hc, fun h => ?_⟩, fun r k x y z => ⟨fp32Arithmetic_of_isNaNWord r, fun h => ⟨?_, ?_⟩,
    fun h => functions_of_isNaNWord h r, scaleAdd_of_isNaNWord k y⟩⟩
  · obtain ⟨hx, hy⟩ := Bool.or_eq_false_iff.1 h
    exact fp32Cmp_ordered hc hx hy
  · obtain h | h := or_assoc.2 h
    · rw [fp32Fma_of_isNaNWord_factor r z h]
    · exact fp32Fma_of_isNaNWord_addend r x y h
  · intro h
    rw [fp32Fma_of_isNaNWord_factor r z h]

end Sys2Proof.Machine
end

section
/-! Accesses to the memories of a core (R81 to R85, R90, R324, R330): the checks that pass, the orders that are clear, and the bytes that a
lane's registers give. -/

namespace Sys2Proof.Machine

/-! The checks of a lane's offset (R324, R325), and what the access must follow (R131, R134, R135, R138). -/

theorem firstFail_none {fs : List (Option Fail)} (h : ∀ f ∈ fs, f = none) : firstFail fs = none := by
  induction fs with
  | nil => rfl
  | cons f fs ih =>
    obtain ⟨hf, hfs⟩ := List.forall_mem_cons.1 h
    rw [hf]
    exact ih hfs

theorem localFail_inLocal {b : State} {g : Group} {v : Warp} {a : BitVec 7} {n space : Nat} {lim : Warp → Nat}
    {extra : Nat → List (Option Fail)} {l : Nat} (h : inLocal a n lim b g v) (hl : l ∈ g.lanes) (hx : ∀ f ∈ extra l, f = none) :
    localFail b g v n a space (lim v) extra l = none := by
  obtain ⟨hclean, halign, hlim⟩ := h l hl
  unfold localFail
  dsimp only
  rw [hclean, halign, show decide ((readField b g v l a.toNat).val.toNat + n > lim v) = false from decide_eq_false (by omega)]
  refine firstFail_none fun f hf => ?_
  simp only [List.mem_append, List.mem_cons, List.not_mem_nil, or_false] at hf
  rcases hf with (rfl | hf) | rfl | rfl
  · rfl
  · exact hx f hf
  · rfl
  · rfl

theorem anyPoison_clean {b : State} {g : Group} {v : Warp} {d : BitVec 7} {n l : Nat} (h : cleanData d n b g v) (hl : l ∈ g.lanes) :
    anyPoison (readRegs b g v l d.toNat n) = false := by
  unfold anyPoison readRegs
  rw [List.any_map, List.any_eq_false]
  intro k hk
  rw [Function.comp_apply, h l hl k (List.mem_range.1 hk)]
  simp

theorem dataFail_clean {b : State} {g : Group} {v : Warp} {d : BitVec 7} {n l : Nat} (h : cleanData d n b g v) (hl : l ∈ g.lanes) :
    dataFail b g v d n l = [none] := by
  unfold dataFail
  rw [anyPoison_clean h hl]
  rfl

theorem stillPending_append (s : State) (xs ys : List Nat) : s.stillPending (xs ++ ys) = s.stillPending xs ++ s.stillPending ys :=
  List.filter_append ..

theorem accessOrder_zero (x : Lane) : x.accessOrder 0 = x.accessAfter ++ x.acquireAfter := rfl

/-- A lane with none of its exchange stores on their way. -/
theorem exchOf_clear {b : State} {g : Group} {l : Nat} (h : ∀ x ∈ b.mem.exchStores, ¬ (x.warp = g.key ∧ x.lane = l)) :
    b.exchOf (g.agent l) = [] := by
  refine List.filterMap_eq_nil_iff.2 fun x hx => if_neg ?_
  rw [Bool.and_eq_true, beq_iff_eq, beq_iff_eq]
  exact h x hx

theorem localOrder_clear {b : State} {g : Group} {v : Warp} {l : Nat} (h : clearWay b g v l) : b.stillPending (localOrder b g v l) = [] := by
  unfold localOrder
  rw [stillPending_append, accessOrder_zero, h.1, exchOf_clear h.2]
  rfl

theorem orderedLanes_clear {b : State} {g : Group} {v : Warp} (h : inOrder b g v) : orderedLanes b g v g.lanes = [] := by
  refine List.filter_eq_nil_iff.2 fun l hl => ?_
  obtain ⟨hway, hload⟩ := h l hl
  rw [stillPending_append, localOrder_clear hway, hload]
  simp

theorem orderedStoreLanes_clear {b : State} {g : Group} {v : Warp} (h : inStoreOrder b g v) : orderedStoreLanes b g v g.lanes = [] := by
  refine List.filter_eq_nil_iff.2 fun l hl => ?_
  obtain ⟨hway, hstore, hloads⟩ := h l hl
  have hany : ((b.threadOps (g.agent l)).any fun (_, o) => o.isLoad) = false :=
    List.any_eq_false.2 fun x hx => by simp [hloads x hx]
  rw [stillPending_append, localOrder_clear hway, hstore, hany]
  simp

/-! Bytes and numbers. -/

theorem leNat_eq_sum (bs : List Byte) : leNat bs = ((List.range bs.length).map fun i => (bs.getD i 0).toNat * 2 ^ (8 * i)).sum := by
  rw [← leNat_take, List.take_length]

theorem readBytes_length (m : Mem) (a n : Nat) : (m.readBytes a n).length = n := by simp [Mem.readBytes]

/-- The number of the bytes that memory holds from an address on. -/
theorem leNat_readBytes (m : Mem) (a n : Nat) :
    leNat (m.readBytes a n) = ((List.range n).map fun i => (m.read (a + i)).toNat * 2 ^ (8 * i)).sum := by
  rw [leNat_eq_sum]
  unfold Mem.readBytes
  rw [List.length_map, List.length_range]
  congr 1
  refine List.map_congr_left fun i hi => ?_
  simp [List.getD_eq_getElem?_getD, List.mem_range.1 hi]

theorem sizeBytes_le (code : Nat) : sizeBytes code ≤ 4 * ((sizeBytes code + 3) / 4) := by omega

end Sys2Proof.Machine
end

section
/-! Loads and stores of the scratchpad and the exchange banks (R324, R328, R330 to R332). -/

namespace Sys2Proof.Machine

/-! Loads: the words of the bytes at an address, each with the poison of the memory word it comes from (R328). -/

theorem localWords_length (m : Mem) (code at' : Nat) : (localWords m code at').length = (sizeBytes code + 3) / 4 := by
  unfold localWords loadWords
  rw [readBytes_length]
  match code with
  | 0 | 1 | 2 | 3 => rfl
  | 4 | 5 | _ + 6 => simp [sizeBytes]

/-- A load of a core memory whose lanes' checks pass, and which nothing holds back, writes the words at their addresses. -/
theorem localLoad_results {i : Instr} {a d : BitVec 7} {la : BitVec 4} {code space : Nat} {lim : Warp → Nat}
    {fetch : Group → State → Warp → Nat → List PWord}
    (he : ∀ s, exec i s = issueWord i (fun g s => runLocalLoad a d la code space lim (fetch g) g s) s)
    (hlen : ∀ g s v o, (fetch g s v o).length = (sizeBytes code + 3) / 4) :
    LaneResults i (fun b g v => inLocal a (sizeBytes code) lim b g v ∧ inOrder b g v) d ((sizeBytes code + 3) / 4) la.toNat
      (fun b g v l => (fetch g b v (readField b g v l a.toNat).val.toNat, 0)) := by
  refine achieves_of he fun g w s v h hv ⟨hin, horder⟩ => ⟨offsetSigs (s.issuing g) g v a, _, ?_, writeResults_wrote hv h.lanes (h.lengths hv)
    fun l _ => hlen ..⟩
  have hfails : laneFails g.lanes (localFail (s.issuing g) g v (sizeBytes code) a space (lim v) fun _ => []) = [] :=
    laneFails_nil fun l hl => localFail_inLocal hin hl (by simp)
  unfold runLocalLoad
  rw [hv]
  simp [hfails, orderedLanes_clear horder, h.issuing_unprotected hv]

/-! Exchange stores (R332): one for each lane that names a member, in the order of the lanes. -/

/-- The exchange stores of a group, numbered from f on, by lane and member. -/
def exchStoresOf (b : State) (g : Group) (v : Warp) (d a : BitVec 7) (n f : Nat) (xs : List (Nat × Nat)) : List ExchStore :=
  xs.zipIdx.map fun y => ⟨f + y.2, y.1.2, (readField b g v y.1.1 a.toNat).val.toNat, (List.range n).map (dataByte b g v d y.1.1), g.key, y.1.1⟩

theorem exchStoresOf_cons (b : State) (g : Group) (v : Warp) (d a : BitVec 7) (n f : Nat) (x : Nat × Nat) (xs : List (Nat × Nat)) :
    exchStoresOf b g v d a n f (x :: xs) =
      ⟨f, x.2, (readField b g v x.1 a.toNat).val.toNat, (List.range n).map (dataByte b g v d x.1), g.key, x.1⟩ ::
        exchStoresOf b g v d a n (f + 1) xs := by
  unfold exchStoresOf
  rw [List.zipIdx_cons, List.map_cons, List.zipIdx_eq_map_add, List.map_map]
  refine congrArg₂ _ rfl (List.map_congr_left fun y _ => ?_)
  rw [Function.comp_apply, show f + (0 + 1 + y.2) = f + 1 + y.2 by omega]

/-- The state with the exchange stores of some lanes and members on their way. -/
def sendExch (b : State) (g : Group) (v : Warp) (d a : BitVec 7) (n : Nat) (s : State) (xs : List (Nat × Nat)) : State :=
  { s with mem := { s.mem with exchStores := s.mem.exchStores ++ exchStoresOf b g v d a n s.fresh xs }, fresh := s.fresh + xs.length }

/-- Sending one exchange store after another. -/
theorem foldl_sendExch {b : State} {g : Group} {v : Warp} {d a : BitVec 7} {n : Nat} {member : Nat → Option Nat}
    {step : State → Nat → State} (hnone : ∀ s l, member l = none → step s l = s)
    (hsome : ∀ s l wg, member l = some wg → step s l = sendExch b g v d a n s [(l, wg)]) (ls : List Nat) (s : State) :
    ls.foldl step s = sendExch b g v d a n s (ls.filterMap fun l => (member l).map fun wg => (l, wg)) := by
  induction ls generalizing s with
  | nil => simp [sendExch, exchStoresOf]
  | cons l ls ih =>
    rw [List.foldl_cons, ih]
    cases hm : member l with
    | none => rw [hnone s l hm, List.filterMap_cons_none (by rw [hm]; rfl)]
    | some wg =>
      rw [hsome s l wg hm, List.filterMap_cons_some (by rw [hm]; rfl)]
      unfold sendExch
      rw [exchStoresOf_cons, exchStoresOf_cons]
      simp [exchStoresOf, Nat.add_assoc, Nat.add_comm 1]

/-- A scratch store whose lanes' checks pass, and which nothing holds back, is one pass over the scratchpad (R81, R331). -/
theorem runStS_done {d a : BitVec 7} {sz : BitVec 3} {g : Group} {b : State} {v : Warp} (hv : b.warpAt g.key = some v)
    (hu : v.protected' = false) (hin : inLocal a (sizeBytes sz.toNat) (·.segs.slim.toNat) b g v)
    (hdata : cleanData d ((sizeBytes sz.toNat + 3) / 4) b g v) (horder : inStoreOrder b g v) :
    runStS d a sz g b = .done (offsetSigs b g v a ++ dataSigs b g v d (sizeBytes sz.toNat)) (b.onScratch fun m => m.writePass 4 (g.lanes.map fun l =>
      (524288 * g.core + v.segs.sbase.toNat + (readField b g v l a.toNat).val.toNat,
        (List.range (sizeBytes sz.toNat)).map (dataByte b g v d l)))) := by
  have hfails : laneFails g.lanes (localFail b g v (sizeBytes sz.toNat) a 1 v.segs.slim.toNat
      (dataFail b g v d ((sizeBytes sz.toNat + 3) / 4))) = [] :=
    laneFails_nil fun l hl => localFail_inLocal hin hl (by simp [dataFail_clean hdata hl])
  unfold runStS
  rw [hv]
  simp [hfails, orderedStoreLanes_clear horder, accessLanes_unprotected hu, storeBytes_data (sizeBytes_le _), scratchAddr, scratchSize,
    Nat.mul_comm, Nat.add_assoc]

/-- An exchange store whose lanes' checks pass, and which nothing holds back, sends its lanes' stores (R332). -/
theorem runStX_done {d a x : BitVec 7} {f : BitVec 2} {g : Group} {b : State} {v : Warp} (hv : b.warpAt g.key = some v)
    (hu : v.protected' = false) (hin : inLocal a (4 * 2 ^ f.toNat) (·.segs.xlim.toNat) b g v) (hdata : cleanData d (2 ^ f.toNat) b g v)
    (horder : inStoreOrder b g v)
    (hmember : ∀ l ∈ g.lanes, (readField b g v l x.toNat).poison = false ∧ (readField b g v l x.toNat).val.toNat < b.gangSize v) :
    runStX d a x f g b = .done (offsetSigs b g v a ++ (g.lanes.map fun l => ⟨l, 1, [(readField b g v l x.toNat).val.toNat]⟩) ++
      dataSigs b g v d (4 * 2 ^ f.toNat)) (sendExch b g v d a (4 * 2 ^ f.toNat) b (g.lanes.filterMap fun l =>
      (gangMember b v (readField b g v l x.toNat).val.toNat).map fun wg => (l, wg))) := by
  have hk : 4 * 2 ^ f.toNat / 4 = 2 ^ f.toNat := by omega
  have hfails : ∀ l ∈ g.lanes, firstFail [localFail b g v (4 * 2 ^ f.toNat) a 2 v.segs.xlim.toNat (fun l =>
        failIf (readField b g v l x.toNat).poison (failContain 1 x.toNat) :: dataFail b g v d (4 * 2 ^ f.toNat / 4) l) l,
      failIf ((readField b g v l x.toNat).val.toNat ≥ b.gangSize v) (failSegment 2 (readField b g v l x.toNat).val.toNat)] = none := by
    intro l hl
    obtain ⟨hp, hm⟩ := hmember l hl
    rw [localFail_inLocal hin hl (by simp [hp, hk, dataFail_clean hdata hl])]
    simp [failIf, hm, firstFail]
  unfold runStX
  rw [hv]
  dsimp only
  rw [laneFails_nil hfails, orderedStoreLanes_clear horder, accessLanes_unprotected hu]
  simp only [List.isEmpty_nil, Bool.not_true, Bool.false_eq_true, if_false]
  refine congrArg _ (foldl_sendExch (fun s l hm => ?_) (fun s l wg hm => ?_) g.lanes b)
  · simp only [hm]
  · simp only [hm, storeBytes_data (show 4 * 2 ^ f.toNat ≤ 4 * (4 * 2 ^ f.toNat / 4) by omega)]
    rfl

/-- Settles O16: the two loads by `localLoad_results`, the scratch store by `runStS_done` and `stores_stored`, the exchange store by
`runStX_done`. -/
theorem localAccesses : Obligations.LocalAccesses := by
  unfold Obligations.LocalAccesses
  refine ⟨fun e d a la sz => ?_, fun e d a x sz f => ?_⟩
  · intro n loaded
    have hloaded : ∀ m at', localWords m sz.toNat at' = loaded m at' := by
      intro m at'
      unfold localWords loadWords
      rw [leNat_readBytes, readBytes_length]
      rfl
    refine ⟨?_, ?_⟩
    · intro g w s v h hv ho
      obtain ⟨t, ht, hw⟩ := localLoad_results (i := .ldS e d a la sz) (fun _ => rfl) (fun _ _ _ _ => localWords_length ..) g w s v h hv ho
      simp only [hloaded] at hw
      exact ⟨t, ht, by simpa [scratchAddr, scratchSize, Nat.mul_comm, Nat.add_assoc] using hw⟩
    · intro g w s v h hv ho
      obtain ⟨t, ht, hw⟩ := localLoad_results (i := .ldX e d a la sz) (fun _ => rfl) (fun _ _ _ _ => localWords_length ..) g w s v h hv ho
      simp only [hloaded] at hw
      exact ⟨t, ht, by simpa [exchAddr, exchSize, State.exchBank, Nat.mul_comm, Nat.add_assoc] using hw⟩
  · intro n k offset
    refine ⟨?_, ?_⟩
    · exact achieves_of (fun _ => rfl) fun g w s v h hv ⟨hin, hdata, horder, hwf⟩ =>
        ⟨_, _, runStS_done hv (h.issuing_unprotected hv) hin hdata horder, rfl, stores_stored hwf n _ _⟩
    · intro sends
      exact does_of (fun _ => rfl) fun g w s v h hv ⟨hin, hdata, horder, hmember⟩ =>
        ⟨_, runStX_done hv (h.issuing_unprotected hv) hin hdata horder hmember⟩

end Sys2Proof.Machine
end

section
/-! Scratch atomics (R335): a lane that must still wait for a load that control puts before its loads (R132). -/

namespace Sys2Proof.Machine

/-- The lanes of a scratch atomic that wait: those held back as a store or as a load is (R131, R132, R335). -/
def atomLate (s : State) (g : Group) (v : Warp) : List Nat :=
  g.lanes.filter fun l => (orderedStoreLanes s g v g.lanes ++ orderedLanes s g v g.lanes).contains l

theorem runAtomScratch_late {op : AtomOp} {n : Nat} {ret : Option (BitVec 7)} {a b : BitVec 7} {g : Group} {s : State} {v : Warp}
    (hv : s.warpAt g.key = some v)
    (hf : laneFails g.lanes (localFail s g v n a 1 v.segs.slim.toNat fun l =>
      dataFail s g v b (n / 4) l ++ (if op == .cas then dataFail s g v (ret.getD 120) (n / 4) l else [])) = [])
    (hl : atomLate s g v ≠ []) : runAtomScratch op n ret a b g s = .wait (atomLate s g v) id := by
  unfold runAtomScratch
  rw [hv]
  dsimp only
  rw [hf]
  exact (if_neg (by decide)).trans (if_pos (Bool.not_eq_eq_eq_not.2 (List.isEmpty_eq_false_iff.2 hl)))

/-- The lanes of a scratch addition wait while one of them is held back, also where only a load that control puts before its own loads
holds it (R132). -/
theorem redAdd_waits (e : Bool) (a b : BitVec 7) : Waits (.redAdd e a b false true) fun c g v =>
    laneFails g.lanes (localFail c g v 4 a 1 v.segs.slim.toNat fun l => dataFail c g v b 1 l ++ []) = [] ∧ atomLate c g v ≠ [] :=
  waits_of (fun _ => rfl) fun _ _ _ _ _ hv ⟨hf, hl⟩ => ⟨_, runAtomScratch_late hv hf hl⟩

/-! The counterexample: one lane at a scratch addition, while a load of lane 1 that control puts before its own loads (R132) is outstanding. -/

/-- The warp before the addition. -/
def followingWarp : Warp :=
  { placedWarp State.reset 0 with lanes := { placedLane with loadAfter := [7] } :: List.replicate 31 Lane.absent }

/-- Its one lane has been chosen. -/
def followingGroup : Group := ⟨0, 0, 0, [0], 0x1000, 0, false⟩

def followingLoad : State :=
  { (State.reset.setWarp 0 followingWarp).addOp 7
      (.load ⟨.thread 0 0 0 1, 0, 4, 4, 1, 0, .discard, false, [], [], false, false, 0, 0, 0⟩) with chosen := some followingGroup }

/-- The warp whose registers the addition reads. -/
def followingReads : Warp := ((followingLoad.issuing followingGroup).warpAt 0).getD followingWarp

theorem followingLoad_issues : Issues (.redAdd false 8 12 false true) followingGroup followingWarp followingLoad where
  chosen := rfl
  warp := rfl
  lanes := by decide
  present := by decide
  unprotected := rfl
  legal := by decide
  mode h := absurd h (by decide)
  window := by decide

theorem followingLoad_reads : (followingLoad.issuing followingGroup).warpAt followingGroup.key = some followingReads := rfl

/-- Refutes O21: a scratch atomic also waits, as a load does, for the loads of other lanes that control puts before it (R132), which the
statement's condition does not name. In `followingLoad` the addition waits, so no issue ends. -/
theorem not_scratchAtomics : ¬ Obligations.ScratchAtomics := by
  unfold Obligations.ScratchAtomics
  rintro ⟨h, -⟩
  obtain ⟨-, hred, -⟩ := h false 4 8 12 false 0
  have hi := followingLoad_issues
  have hv := followingLoad_reads
  obtain ⟨t, ht, hend⟩ := hred _ _ _ _ hi hv (by unfold inLocal inStoreOrder clearWay cleanData; decide)
  have hwait := redAdd_waits false 8 12 _ _ _ _ hi hv ⟨by decide, by decide⟩
  cases ht.symm.trans hwait
  have hfresh : followingLoad.unchoose.fresh = (followingLoad.issuing followingGroup).fresh + 1 := congrArg State.fresh hend.outside
  exact absurd hfresh (by decide)

end Sys2Proof.Machine
end

section
/-! The exchange banks and the barrier of a gang: an exchange store lands in the shadow bank (R90, R332), and a swap flips the members'
granules and releases their warps (R91, R239). -/

namespace Sys2Proof.Machine

/-! Exchange stores that land. -/

theorem shadowSpot_none {s : State} {wg off : Nat} (h : s.savedShape wg = none) : shadowSpot s wg off = none := by
  unfold shadowSpot
  rw [h]

/-- The bank of a granule that is not its front (R90). -/
theorem exchBank_shadow (s : State) (core off : Nat) :
    s.exchBank core off true = if (s.mem.polarity.getD core 0).getLsbD (off / 4096) then 0 else 1 := by
  unfold State.exchBank
  cases (s.mem.polarity.getD core 0).getLsbD (off / 4096) <;> rfl

theorem exchAddr_eq (core bank off : Nat) : exchAddr core bank off = 65536 * (2 * core + bank) + off := by
  simp [exchAddr, exchSize, Nat.mul_comm]

theorem nextExchStore_nil {s : State} (h : s.mem.exchStores = []) (core : Nat) : nextExchStore s core = none := by
  unfold nextExchStore
  rw [h]
  rfl

/-! The release of a barrier (R140, R239). -/

/-- A warp that has passed its barrier: no lane stands at one. -/
def passedBarrier (u : Warp) : Prop := u.barrier = 0 ∧ ∀ l p, (u.lane l).park = some p → isBarrier p.instr = false

/-- A warp after its release, whose accesses from then on follow those before the barrier. -/
def releasedWarp (s : State) (after : List Nat) (w : Warp) : Warp := { w with
  barrier := 0
  lanes := w.lanes.map fun x =>
    if x.park.any fun p => isBarrier p.instr then
      { x with park := none, pc := x.pc + 4, rep := 0, accessAfter := (s.stillPending x.accessAfter ++ after).dedup }
    else x }

theorem releasedWarp_passed (s : State) (after : List Nat) (w : Warp) : passedBarrier (releasedWarp s after w) := by
  refine ⟨rfl, fun l p hp => ?_⟩
  unfold releasedWarp Warp.lane at hp
  rw [List.getD_eq_getElem?_getD, List.getElem?_map] at hp
  cases hx : w.lanes[l]? with
  | none => simp [hx, Lane.absent] at hp
  | some x =>
    simp only [hx, Option.map_some, Option.getD_some] at hp
    split at hp
    · cases hp
    · next hn =>
      rw [hp] at hn
      simpa using hn

/-- Changing some warps one after another: each of them comes out as the change leaves it, the others stay. -/
theorem warpAt_foldl_onWarp {P : Warp → Prop} {F : State → Warp → Warp} (hF : ∀ s w, P (F s w)) (ks : List Nat) (s : State) (k : Nat) :
    (k ∈ ks → ∀ u, (ks.foldl (fun s k => s.onWarp k (F s)) s).warpAt k = some u → P u) ∧
    (k ∉ ks → (ks.foldl (fun s k => s.onWarp k (F s)) s).warpAt k = s.warpAt k) := by
  induction ks using List.reverseRecOn with
  | nil => exact ⟨fun h => absurd h List.not_mem_nil, fun _ => rfl⟩
  | append_singleton ks j ih =>
    rw [List.foldl_append, List.foldl_cons, List.foldl_nil]
    by_cases hj : k = j
    · subst hj
      refine ⟨fun _ u hu => ?_, fun h => absurd (by simp) h⟩
      rw [warpAt_onWarp_self, Option.map_eq_some_iff] at hu
      obtain ⟨w, -, rfl⟩ := hu
      exact hF _ w
    · rw [warpAt_onWarp_ne _ _ hj]
      simpa [hj] using ih

/-- The warps of a list that have arrived at a barrier. -/
def arrivedKeys (s : State) (ks : List Nat) : List Nat := ks.filter fun k => match s.warpAt k with
  | some w => w.barrier != 0
  | none => false

theorem releaseBarrier_eq (s : State) (ks : List Nat) (scope : Nat) : releaseBarrier s ks scope =
    (arrivedKeys s ks).foldl (fun t k => t.onWarp k (releasedWarp t (barrierSet s (arrivedKeys s ks) scope))) s := rfl

theorem mem_arrivedKeys {s : State} {ks : List Nat} {k : Nat} {w : Warp} (hw : s.warpAt k = some w) :
    k ∈ arrivedKeys s ks ↔ k ∈ ks ∧ w.barrier ≠ 0 := by
  unfold arrivedKeys
  rw [List.mem_filter, hw]
  exact and_congr_right fun _ => bne_iff_ne

/-- After a release no warp of the list stands at a barrier; one that had not arrived is as it was. -/
theorem releaseBarrier_passed {s : State} {ks : List Nat} {scope k : Nat} (hk : k ∈ ks) {w u : Warp} (hw : s.warpAt k = some w)
    (hu : (releaseBarrier s ks scope).warpAt k = some u) : u.barrier = 0 ∧ (w.barrier ≠ 0 → passedBarrier u) := by
  rw [releaseBarrier_eq] at hu
  obtain ⟨hin, hout⟩ := warpAt_foldl_onWarp (fun t => releasedWarp_passed t (barrierSet s (arrivedKeys s ks) scope)) (arrivedKeys s ks) s k
  by_cases hb : w.barrier = 0
  · rw [hout fun h => ((mem_arrivedKeys hw).1 h).2 hb, hw] at hu
    cases hu
    exact ⟨hb, fun h => absurd hb h⟩
  · have hp := hin ((mem_arrivedKeys hw).2 ⟨hk, hb⟩) u hu
    exact ⟨hp.1, fun _ => hp⟩

/-- A release changes warps alone. -/
theorem releaseBarrier_rest (s : State) (ks : List Nat) (scope : Nat) :
    releaseBarrier s ks scope = { s with thr := { s.thr with warps := (releaseBarrier s ks scope).thr.warps } } := by
  rw [releaseBarrier_eq]
  generalize arrivedKeys s ks = js, barrierSet s _ scope = after
  suffices ∀ t : State, js.foldl (fun t k => t.onWarp k (releasedWarp t after)) t =
      { t with thr := { t.thr with warps := (js.foldl (fun t k => t.onWarp k (releasedWarp t after)) t).thr.warps } } from this s
  induction js with
  | nil => exact fun _ => rfl
  | cons k js ih => exact fun t => (ih _).trans rfl

/-! The completion of a gang's barrier, and its swap (R91, R239). -/

/-- The state in which the warps of a gang are released: its count cleared, its phase flipped, its saved members told. -/
theorem completeGang_eq (s : State) (gang : Nat) : ∃ ctl, completeGang s gang =
    releaseBarrier (({ s with ctl := ctl } : State).onGang gang fun x => { x with count := 0, phase := !x.phase, form := none })
      (gangKeys s gang) 1 := ⟨_, rfl⟩

theorem completeGang_polarity (s : State) (gang : Nat) : (completeGang s gang).mem.polarity = s.mem.polarity := by
  obtain ⟨ctl, h⟩ := completeGang_eq s gang
  rw [h, releaseBarrier_rest]
  rfl

theorem completeGang_gang {s : State} {gang : Nat} {x : Gang} (hx : s.work.gangs.find gang = some x) :
    (completeGang s gang).work.gangs.find gang = some { x with count := 0, phase := !x.phase, form := none } := by
  obtain ⟨ctl, h⟩ := completeGang_eq s gang
  rw [h, releaseBarrier_rest]
  exact (NMap.find_adjust_self ..).trans (congrArg _ hx)

theorem completeGang_passed {s : State} {gang k : Nat} (hk : k ∈ gangKeys s gang) {w u : Warp} (hw : s.warpAt k = some w)
    (hu : (completeGang s gang).warpAt k = some u) : u.barrier = 0 ∧ (w.barrier ≠ 0 → passedBarrier u) := by
  obtain ⟨ctl, h⟩ := completeGang_eq s gang
  rw [h] at hu
  refine releaseBarrier_passed hk ?_ hu
  exact hw

/-- The state with the granules of some work-groups flipped. -/
def flipAll (s : State) (gs : List (Nat × WorkGroup)) : State := gs.foldl (fun s x => flipPolarity s x.2.core x.2.exch.1 x.2.exch.2) s

theorem flipPolarity_getD (s : State) (core first n c : Nat) : (flipPolarity s core first n).mem.polarity.getD c 0 =
    if core = c then s.mem.polarity.getD c 0 ^^^ BitVec.ofNat 16 ((2 ^ n - 1) * 2 ^ first) else s.mem.polarity.getD c 0 := by
  unfold flipPolarity
  split
  · next h => subst h; exact NMap.getD_put_self ..
  · next h => exact NMap.getD_put_ne (Ne.symm h) ..

theorem flipAll_getD (gs : List (Nat × WorkGroup)) (s : State) (c : Nat) : (flipAll s gs).mem.polarity.getD c 0 =
    gs.foldl (fun p x => if x.2.core = c then p ^^^ BitVec.ofNat 16 ((2 ^ x.2.exch.2 - 1) * 2 ^ x.2.exch.1) else p)
      (s.mem.polarity.getD c 0) := by
  induction gs generalizing s with
  | nil => rfl
  | cons x gs ih =>
    refine (ih _).trans ?_
    rw [flipPolarity_getD]
    rfl

theorem flipAll_rest (gs : List (Nat × WorkGroup)) (s : State) :
    flipAll s gs = { s with mem := { s.mem with polarity := (flipAll s gs).mem.polarity } } := by
  induction gs generalizing s with
  | nil => rfl
  | cons x gs ih => exact (ih _).trans rfl

theorem gangKeys_flipAll (gs : List (Nat × WorkGroup)) (s : State) (gang : Nat) : gangKeys (flipAll s gs) gang = gangKeys s gang := by
  rw [flipAll_rest]
  rfl

/-- The states of an exchange store that lands, and of a swap. -/
theorem exec_stXApply_idle {s : State} {core : Nat} (h : nextExchStore s core = none) : exec (.stXApply core) s = .next s := by
  show execStXApply core s = _
  unfold execStXApply
  rw [h]

theorem exec_stXApply_lands {s : State} {core off : Nat} {x : ExchStore} (h : nextExchStore s core = some (x, off))
    (hs : s.savedShape x.wg = none) : exec (.stXApply core) s = .next (({ s with mem := { s.mem with
      exchStores := s.mem.exchStores.erase x } } : State).onExch fun m => m.writeClean 4 (exchAddr core (s.exchBank core off true) off) x.data) := by
  show execStXApply core s = _
  unfold execStXApply
  have hspot : shadowSpot { s with mem := { s.mem with exchStores := s.mem.exchStores.erase x } } x.wg off = none := shadowSpot_none hs
  rw [h]
  dsimp only
  rw [hspot]
  rfl

theorem exec_swap {s : State} {gang : Nat} : exec (.exchangePolaritySwap gang) s =
    .next (if swapReady s gang then completeGang (flipAll s (gangGroups s gang)) gang else s) := rfl

/-- Settles O38: a store lands by `exec_stXApply_lands`; a swap flips by `flipAll_getD` and releases by `completeGang_passed`. -/
theorem exchangeEvents : Obligations.ExchangeEvents := by
  unfold Obligations.ExchangeEvents
  refine fun core gang => ⟨fun x off s ⟨hnext, hsaved, hwf⟩ => ⟨_, exec_stXApply_lands hnext hsaved, fun a => ?_, rfl⟩,
    fun s h => exec_stXApply_idle (nextExchStore_nil h core), fun s h => ⟨_, exec_swap.trans (by rw [if_pos h]), ?_, fun x hx => ?_, ?_⟩,
    fun s h => exec_swap.trans (by rw [h]; rfl)⟩
  · rw [← exchBank_shadow, ← exchAddr_eq]
    exact (read_writeClean ..).trans (read_writeBytes hwf ..)
  · intro c
    rw [completeGang_polarity, flipAll_getD]
  · exact completeGang_gang (by rw [flipAll_rest]; exact hx)
  · intro k hk w u hw hu
    rw [← gangKeys_flipAll (gangGroups s gang)] at hk
    obtain ⟨hb, hp⟩ := completeGang_passed hk (by rw [flipAll_rest]; exact hw) hu
    exact ⟨hb, fun h => (hp h).2⟩

end Sys2Proof.Machine
end

section
/-! Table walks and their answers, answers to trap events, and the fills of an instruction cache (R99, R103, R209 to R213, R230, R252). -/

namespace Sys2Proof.Machine

/-! States with the same home bytes. -/

theorem ReadsAlike.sameHome {s t : State} (h : ReadsAlike s t) : SameHome s t := fun a => ⟨h.byte a, h.poison a⟩

theorem ReadsAlike.homeLine {s t : State} (h : ReadsAlike s t) (line : Nat) : t.homeLine line = s.homeLine line := by
  unfold State.homeLine State.homeRead
  simp only [h.byte, h.poison]

/-! The end of a walk (R212, R213). -/

theorem mem_tlbInsert (n : Nat) (e : TlbEntry) (es : List TlbEntry) : e ∈ tlbInsert (n + 1) e es := by
  unfold tlbInsert
  rw [List.take_succ_cons]
  exact List.mem_cons_self

/-- What a walk that ends with r leaves: no walk asked twice, its translation or its fault. -/
structure WalkEnded (s t : State) (w : Walk) (r : WalkEnd) : Prop where
  walks : t.mem.walks = s.mem.walks.erase w
  home : SameHome s t
  result : match r with
    | .leaf e => e ∈ t.mem.dieTlb.getD w.die [] ∧ t.mem.walkFaults = s.mem.walkFaults
    | .invalid => t.mem.walkFaults = s.mem.walkFaults ++ [⟨w.die, w.asid, w.page, false⟩]
    | .poisoned => t.mem.walkFaults = s.mem.walkFaults ++ [⟨w.die, w.asid, w.page, true⟩]

theorem endWalk_ended (s : State) (w : Walk) (r : WalkEnd) : WalkEnded s (endWalk s w r) w r := by
  unfold endWalk
  cases r with
  | leaf e =>
    refine ⟨rfl, (ReadsAlike.of_homes rfl rfl rfl rfl).sameHome, ?_, rfl⟩
    show e ∈ (s.mem.dieTlb.put w.die (tlbInsert 16384 e (s.mem.dieTlb.getD w.die [])) []).getD w.die []
    rw [NMap.getD_put_self]
    exact mem_tlbInsert ..
  | invalid => exact ⟨rfl, (ReadsAlike.of_homes rfl rfl rfl rfl).sameHome, rfl⟩
  | poisoned => exact ⟨rfl, (ReadsAlike.of_homes rfl rfl rfl rfl).sameHome, rfl⟩

theorem endWalk_pending (s : State) (w : Walk) (r : WalkEnd) : (endWalk s w r).host = s.host := by
  cases r <;> rfl

/-- Reads at home slices before a walk ends change nothing that its end leaves. -/
theorem WalkEnded.of_readOnly {s u t : State} {w : Walk} {r : WalkEnd} (hr : ReadOnly s u) (h : WalkEnded u t w r) : WalkEnded s t w r := by
  obtain ⟨halike, hrest⟩ := hr
  have hw : u.mem.walks = s.mem.walks := by rw [hrest]
  have hf : u.mem.walkFaults = s.mem.walkFaults := by rw [hrest]
  refine ⟨hw ▸ h.walks, fun a => ⟨(h.home a).1.trans (halike.byte a), (h.home a).2.trans (halike.poison a)⟩, ?_⟩
  have := h.result
  rwa [hf] at this

theorem exec_pageWalk {s : State} {die asid va : Nat} {w : Walk} (h : findWalk s die asid va = some w) :
    exec (.pageWalk die asid va) s = .next (if w.tag.isNone && walkReady s w then pageWalkEffect s w else s) := by
  show execPageWalk die asid va s = _
  unfold execPageWalk
  rw [h]

theorem pageWalk_ends {s : State} {w : Walk} (h : w.host = false) :
    WalkEnded s (pageWalkEffect s w) w (s.walk w.asid (4096 * w.page)) := by
  unfold pageWalkEffect
  rw [if_neg (by simp [h])]
  exact .of_readOnly (readThrough_readOnly s _) (endWalk_ended ..)

/-- Under host-assisted walking the walk asks, with a tag that its answer names (R230). -/
theorem pageWalk_asks {s : State} {w : Walk} (h : w.host = true) (hm : w ∈ s.mem.walks) :
    ∃ x ∈ (pageWalkEffect s w).host.pending, x.kind = 1 ∧ x.die = w.die ∧ x.payload = walkPayload w ∧
      { w with tag := some x.tag } ∈ (pageWalkEffect s w).mem.walks := by
  unfold pageWalkEffect
  rw [if_pos h]
  refine ⟨⟨s.fresh % 65536, 1, w.die, walkPayload w⟩, ?_, rfl, rfl, rfl, ?_⟩
  · show _ ∈ (raiseEvent s 1 w.die (walkPayload w)).1.host.pending
    rw [raiseEvent_pending]
    simp
  · show _ ∈ (raiseEvent s 1 w.die (walkPayload w)).1.mem.walks.map _
    rw [raiseEvent_rest]
    exact List.mem_map.2 ⟨w, hm, by simp; rfl⟩

theorem walkAnswer_ends {s : State} {tag : Nat} {w8 w16 : BitVec 64} {ev : HostEvent} {w : Walk} (he : pendingEvent s 1 tag = some ev)
    (hw : s.mem.walks.find? (fun x => x.tag == some tag) = some w) :
    exec (.walkAnswer tag w8 w16) s = .next (endWalk (s.answered ev) w (answeredWalk w w8 w16)) := by
  show execWalkAnswer tag w8 w16 s = _
  unfold execWalkAnswer
  rw [he]
  exact congrArg _ (by dsimp only; rw [show (s.answered ev).mem.walks = s.mem.walks from rfl, hw])

theorem answered_not_pending (s : State) (ev : HostEvent) : ev ∉ (s.answered ev).host.pending := by
  intro h
  simpa using (List.mem_filter.1 h).2

/-! Answers to trap events (R252). -/

/-- An answer with a reserved bit set (R252). -/
theorem reserved_iff (w8 w16 : BitVec 64) : (bits 63 10 w8.toNat != 0 || (w8.getLsbD 2 && bits 1 0 w16.toNat != 0)) = true ↔
    2 ^ 10 ≤ w8.toNat ∨ (w8.getLsbD 2 = true ∧ w16.toNat % 4 ≠ 0) := by
  have h8 := w8.isLt
  have hbits : bits 63 10 w8.toNat ≠ 0 ↔ 2 ^ 10 ≤ w8.toNat := by unfold bits; omega
  have hlow : bits 1 0 w16.toNat = w16.toNat % 4 := by unfold bits; omega
  rw [hlow, Bool.or_eq_true, Bool.and_eq_true, bne_iff_ne, bne_iff_ne, hbits]

/-- The replacements of an answer. -/
theorem trapAnswerEffect_eq (s : State) (k : Nat) (w8 w16 : BitVec 64) : trapAnswerEffect s k w8 w16 =
    eretAction (s.onWarp k fun w => { w with trap := { w.trap with
      epc := if w8.getLsbD 2 then w16 else w.trap.epc
      erep := if w8.getLsbD 3 then BitVec.ofNat 6 (w8.toNat / 2 ^ 4) else w.trap.erep } }) k (w8.toNat % 4) := by
  have hrep : BitVec.ofNat 6 (bits 9 4 w8.toNat) = BitVec.ofNat 6 (w8.toNat / 2 ^ 4) := by
    apply BitVec.eq_of_toNat_eq
    unfold bits
    simp
  have hact : bits 1 0 w8.toNat = w8.toNat % 4 := by unfold bits; omega
  unfold trapAnswerEffect
  rw [hrep, hact]

theorem exec_trapAnswer {s : State} {tag : Nat} {w8 w16 : BitVec 64} {ev : HostEvent} (he : pendingEvent s 5 tag = some ev) :
    exec (.trapAnswer tag w8 w16) s = .next (if bits 63 10 w8.toNat != 0 || (w8.getLsbD 2 && bits 1 0 w16.toNat != 0) then s
      else trapAnswerEffect (s.answered ev) (trapWarp ev) w8 w16) := by
  show execTrapAnswer tag w8 w16 s = _
  unfold execTrapAnswer
  rw [he]

/-! Instruction-cache fills (R99, R103). -/

/-- Making room in an instruction cache changes the cache alone. -/
theorem iEvict_rest (s : State) (core line : Nat) :
    iEvict s core line = { s with mem := { s.mem with icache := (iEvict s core line).mem.icache } } := by
  unfold iEvict
  dsimp only
  split
  · rfl
  · split <;> rfl

/-- The fill of a line that a live slice holds. -/
theorem instructionCacheFill_fills {s : State} {core asid line : Nat} {e : TlbEntry} (hr : iFillReady s core asid line = true)
    (he : fetchEntry s core asid line = some e) (hd : s.dieDead (s.locate e (128 * line) / 128 * 128) = false) :
    ∃ t, exec (.instructionCacheFill core asid line) s = .next t ∧ t.mem.fetches = s.mem.fetches.erase (core, asid, line) ∧ SameHome s t ∧
      ∃ x, t.mem.icache.find (icacheKey core asid line) = some x ∧ x.pline = s.locate e (128 * line) / 128 ∧
        (x.data, x.poison) = s.homeLine (s.locate e (128 * line) / 128) := by
  have hdead : s.dieDead (128 * lineOf (s.locate e (128 * line))) = false := by
    rw [Nat.mul_comm]
    exact hd
  have hline : fetchLine s (core, asid, line) = some (lineOf (s.locate e (128 * line))) := by
    unfold fetchLine
    rw [he]
    rfl
  refine ⟨iFillEffect s core asid line, ?_, ?_⟩
  · show execInstructionCacheFill core asid line s = _
    unfold execInstructionCacheFill fetchFillEffect
    rw [if_pos hr, hline]
    dsimp only
    rw [hdead]
    rfl
  unfold iFillEffect
  rw [he]
  dsimp only
  rw [hdead, iEvict_rest]
  refine ⟨rfl, ?_, _, NMap.find_insert_self .., rfl, rfl⟩
  exact ((ReadsAlike.of_homes rfl rfl rfl rfl).trans ((ReadsAlike.touchL2 _ (lineOf (s.locate e (128 * line)))).trans
    (.of_homes rfl rfl rfl rfl))).sameHome

/-- Settles O37: walks by `pageWalk_ends`, `pageWalk_asks` and `walkAnswer_ends`, trap answers by `trapAnswerEffect_eq` and
`reserved_iff`, instruction caches by `instructionCacheFill_fills`. -/
theorem walkEvents : Obligations.WalkEvents := by
  unfold Obligations.WalkEvents
  intro die asid va tag core line w8 w16 w ev ended
  have hended : ∀ s t r, WalkEnded s t w r → ended s t r := fun s t r ⟨hw, hs, hr⟩ => ⟨hw, hs, hr⟩
  refine ⟨fun s ⟨hf, ht, hh, hr⟩ => ⟨_, ?_, hended _ _ _ (pageWalk_ends hh)⟩,
    fun s ⟨hf, ht, hh⟩ => ⟨_, ?_, pageWalk_asks hh (List.mem_of_find?_eq_some hf)⟩, fun s h => ?_,
    fun s ⟨he, hw⟩ => ⟨_, walkAnswer_ends he hw, hended _ _ _ ?_, ?_⟩, fun s h => ?_,
    fun s ⟨he, h10, hlow⟩ => ⟨_, (exec_trapAnswer he).trans (congrArg _ (if_neg ?_)), trapAnswerEffect_eq ..⟩, fun s h => ?_,
    fun e s ⟨hr, he, hd⟩ => instructionCacheFill_fills hr he hd⟩
  · rw [exec_pageWalk hf, ht, hr]
    rfl
  · rw [exec_pageWalk hf, ht, show walkReady s w = true by unfold walkReady; rw [hh]; rfl]
    rfl
  · cases hf : findWalk s die asid va with
    | none =>
      show execPageWalk die asid va s = _
      unfold execPageWalk
      rw [hf]
    | some x =>
      rw [exec_pageWalk hf]
      refine congrArg _ (if_neg ?_)
      rcases h x hf with hx | hx <;> simp [hx]
  · obtain ⟨hwalks, hhome, hres⟩ := endWalk_ended (s.answered ev) w (answeredWalk w w8 w16)
    exact ⟨hwalks, hhome, hres⟩
  · rw [endWalk_pending]
    exact answered_not_pending s ev
  · show execWalkAnswer tag w8 w16 s = _
    unfold execWalkAnswer
    rw [h]
  · rw [reserved_iff]
    rintro (h | ⟨h2, h⟩)
    · omega
    · exact h (hlow h2)
  · cases he : pendingEvent s 5 tag with
    | none =>
      show execTrapAnswer tag w8 w16 s = _
      unfold execTrapAnswer
      rw [he]
    | some ev =>
      rw [exec_trapAnswer he]
      refine congrArg _ (if_pos ((reserved_iff w8 w16).2 (h.resolve_left ?_)))
      rw [he]
      exact Option.some_ne_none ev

end Sys2Proof.Machine
end

section
/-! The caches of the cores: fills, loads that arrive, notices of evictions, updates of sharers, grafts and acknowledgements (R100 to R103,
R115, R118, R128). -/

namespace Sys2Proof.Machine

/-! What the steps of the protocol leave alone. -/

theorem wakeCore_rest (s : State) (core line : Nat) :
    s.wakeCore core line = { s with thr := { s.thr with warps := (s.wakeCore core line).thr.warps } } := rfl

/-- A line that leaves an L1: the copy goes, monitors may be hit, a notice may be sent. -/
theorem loseL1_rest (s : State) (core line : Nat) (notice : Bool) : s.loseL1 core line notice = { s with
    mem := { s.mem with l1 := (s.loseL1 core line notice).mem.l1, notices := (s.loseL1 core line notice).mem.notices }
    thr := { s.thr with warps := (s.loseL1 core line notice).thr.warps } } := by
  unfold State.loseL1
  split
  · rfl
  · dsimp only
    split <;> rfl

/-- A change of a line at its home slice that keeps its bytes, its sectors and their poison. -/
theorem ReadsAlike.onL2 (s : State) (line : Nat) {f : L2Line → L2Line} (hd : ∀ l, (f l).data = l.data) (hh : ∀ l, (f l).have' = l.have')
    (hp : ∀ l, (f l).poison = l.poison) : ReadsAlike s { s with mem := { s.mem with l2 := s.mem.l2.adjust line f } } := by
  have hfind : ∀ k, (s.mem.l2.adjust line f).find k = (s.mem.l2.find k).map fun l => if k = line then f l else l := by
    intro k
    by_cases hk : k = line
    · subst hk; rw [NMap.find_adjust_self]; simp
    · rw [NMap.find_adjust_ne hk]; simp [hk]
  have hd' : ∀ k l, (if k = line then f l else l).data = l.data := fun k l => by split; exacts [hd l, rfl]
  have hh' : ∀ k l, (if k = line then f l else l).have' = l.have' := fun k l => by split; exacts [hh l, rfl]
  have hp' : ∀ k l, (if k = line then f l else l).poison = l.poison := fun k l => by split; exacts [hp l, rfl]
  refine ⟨rfl, rfl, fun a => ?_, fun a => ?_⟩
  · unfold State.homeByte
    dsimp only
    rw [hfind]
    cases s.mem.l2.find (lineOf a) with
    | none => rfl
    | some l => simp only [Option.map_some, hd', hh']
  · unfold State.homePoison
    dsimp only
    rw [hfind]
    cases s.mem.l2.find (lineOf a) with
    | none => rfl
    | some l => simp only [Option.map_some, hp', hh']; rfl

theorem ReadsAlike.addSharer (s : State) (core line : Nat) : ReadsAlike s (s.addSharer core line) :=
  .onL2 s line (fun _ => rfl) (fun _ => rfl) fun _ => rfl

theorem ReadsAlike.removeSharer (s : State) (core line : Nat) : ReadsAlike s (s.removeSharer core line) :=
  .onL2 s line (fun _ => rfl) (fun _ => rfl) fun _ => rfl

/-! Fills of an L1 (R102, R115, R118). -/

/-- t is s with a line filled into a core's L1 from its home, which counts the core among the sharers. -/
structure L1Filled (s t : State) (core line : Nat) (grafted : Bool) : Prop where
  home : ReadsAlike s t
  copy : ∃ x, t.l1Line core line = some x ∧ (x.data, x.poison) = s.homeLine line ∧ x.grafted = grafted
  slice : ∀ l, s.mem.l2.find line = some l → t.mem.l2.find line = some { l with sharers := l.sharers ||| (1#128 <<< core), age := s.fresh + 1 }
  rest : t = { s with
    mem := { s.mem with l1 := t.mem.l1, l2 := t.mem.l2, notices := t.mem.notices }
    thr := { s.thr with warps := t.thr.warps }
    fresh := s.fresh + 2 }

/-- The state in which a fill takes its line: the victim, if the set needs one, has left. -/
def fillPlace (s : State) (core line : Nat) (grafted : Bool) : State :=
  match s.l1Line core line, l1Victim s.take.2 core line grafted with
  | none, .line v => s.take.2.loseL1 core v true
  | _, _ => s.take.2

theorem fillPlace_rest (s : State) (core line : Nat) (grafted : Bool) : fillPlace s core line grafted = { s with
    mem := { s.mem with l1 := (fillPlace s core line grafted).mem.l1, notices := (fillPlace s core line grafted).mem.notices }
    thr := { s.thr with warps := (fillPlace s core line grafted).thr.warps }
    fresh := s.fresh + 1 } := by
  unfold fillPlace
  split
  · exact (loseL1_rest ..).trans rfl
  · rfl

theorem fillL1_eq (s : State) (core line cls : Nat) (grafted : Bool) : ∃ v x, s.fillL1 core line cls grafted = State.addSharer v core line ∧
    v = { (fillPlace s core line grafted).touchL2 line with
      mem := { ((fillPlace s core line grafted).touchL2 line).mem with
        l1 := ((fillPlace s core line grafted).touchL2 line).mem.l1.insert (l1Key core line) x } } ∧
    (x.data, x.poison) = (fillPlace s core line grafted).homeLine line ∧ x.grafted = grafted := ⟨_, _, rfl, rfl, rfl, rfl⟩

theorem fillL1_filled (s : State) (core line cls : Nat) (grafted : Bool) : L1Filled s (s.fillL1 core line cls grafted) core line grafted := by
  obtain ⟨v, x, he, hv, hx, hg⟩ := fillL1_eq s core line cls grafted
  have hrest := fillPlace_rest s core line grafted
  rw [he]
  generalize fillPlace s core line grafted = u at hrest hv hx
  have hu : ReadsAlike s u := by
    rw [hrest]
    exact .of_homes rfl rfl rfl rfl
  have huv : ReadsAlike u v := by
    rw [hv]
    exact (ReadsAlike.touchL2 u line).trans (.of_homes rfl rfl rfl rfl)
  have hl2 : u.mem.l2 = s.mem.l2 := by rw [hrest]
  have hfresh : u.fresh = s.fresh + 1 := by rw [hrest]
  refine ⟨hu.trans (huv.trans (.addSharer v core line)), ⟨x, ?_, hx.trans (hu.homeLine line), hg⟩, fun l hl => ?_, ?_⟩
  · rw [hv]
    exact NMap.find_insert_self ..
  · show (v.mem.l2.adjust line _).find line = _
    rw [hv]
    show ((u.mem.l2.adjust line fun l => { l with age := u.fresh }).adjust line _).find line = _
    rw [NMap.find_adjust_self, NMap.find_adjust_self, hl2, hl, hfresh]
    rfl
  · rw [hv, hrest]
    rfl

/-! The events. -/

theorem foldl_dropOp_rest {α : Type} (xs : List α) {step : State → α → State} (h : ∀ s x, step s x = s ∨ ∃ id, step s x = s.dropOp id)
    (s : State) : xs.foldl step s = { s with mem := { s.mem with ops := (xs.foldl step s).mem.ops } } := by
  induction xs generalizing s with
  | nil => rfl
  | cons x xs ih =>
    rw [List.foldl_cons, ih]
    rcases h s x with hx | ⟨id, hx⟩ <;> rw [hx]
    rfl

/-- A fill that a load waits for. -/
theorem l1Fill_fills {s : State} {core line : Nat} (hm : ∃ x ∈ missingLoads s core line, x.2.prefetch = false) :
    ∃ u, L1Filled s u core line false ∧
      l1FillEffect s core line = { u with mem := { u.mem with ops := (l1FillEffect s core line).mem.ops } } := by
  have honly : (missingLoads s core line).all (·.2.prefetch) = false := by
    obtain ⟨x, hx, hp⟩ := hm
    exact List.all_eq_false.2 ⟨x, hx, by simp [hp]⟩
  refine ⟨_, fillL1_filled s core line (((missingLoads s core line).head?.map (·.2.hint)).getD 0) false, ?_⟩
  unfold l1FillEffect
  simp only [honly, Bool.false_and, Bool.false_eq_true, if_false]
  exact foldl_dropOp_rest _ (fun s x => by split; exacts [.inr ⟨_, rfl⟩, .inl rfl]) _

theorem l1Fill_happens (core line : Nat) : Happens (.l1Fill core line)
    (fun s => l1FillReady s core line = true ∧ ∃ x ∈ missingLoads s core line, x.2.prefetch = false)
    (fun s t => SameHome s t ∧ (∃ x, t.l1Line core line = some x ∧ (x.data, x.poison) = s.homeLine line ∧ x.grafted = false) ∧
      (∀ l, s.mem.l2.find line = some l → t.mem.l2.find line = some { l with
        sharers := l.sharers ||| (1#128 <<< core), age := s.fresh + 1 }) ∧
      t = { s with
        mem := { s.mem with l1 := t.mem.l1, l2 := t.mem.l2, notices := t.mem.notices, ops := t.mem.ops }
        thr := { s.thr with warps := t.thr.warps }
        fresh := s.fresh + 2 }) := by
  rintro s ⟨hr, hm⟩
  refine ⟨l1FillEffect s core line, ?_, ?_⟩
  · show execL1Fill core line s = _
    unfold execL1Fill
    rw [if_pos hr]
  · obtain ⟨u, hf, he⟩ := l1Fill_fills hm
    rw [he]
    refine ⟨(hf.home.trans (.of_homes rfl rfl rfl rfl)).sameHome, hf.copy, hf.slice, ?_⟩
    rw [hf.rest]

theorem evictionNotice_happens (core line : Nat) : Happens (.evictionNotice core line)
    (fun s => (core, line) ∈ s.mem.notices ∧ s.crossHeld (core / 32) (dieOfLine line) = false)
    (fun s t => t.mem.notices = s.mem.notices.erase (core, line) ∧
      t.mem.l2.find line = (s.mem.l2.find line).map (fun l => { l with sharers := l.sharers &&& ~~~(1#128 <<< core) }) ∧ SameHome s t ∧
      t = { s with mem := { s.mem with l2 := t.mem.l2, notices := t.mem.notices } }) := by
  rintro s ⟨hn, hc⟩
  refine ⟨evictionNoticeEffect s core line, ?_, rfl, NMap.find_adjust_self .., ?_, rfl⟩
  · show execEvictionNotice core line s = _
    unfold execEvictionNotice
    rw [if_pos (by simp [hn, hc])]
  · exact (ReadsAlike.trans (.of_homes rfl rfl rfl rfl) (.removeSharer _ core line)).sameHome

theorem sharerUpdate_happens (core id : Nat) : Happens (.sharerUpdate core id)
    (fun s => ∃ u, s.mem.updates.find id = some u ∧ core ∈ u.targets ∧ olderUpdate s core id u = false ∧
      s.crossHeld (core / 32) (dieOfLine u.line) = false)
    (fun s t => ∀ u, s.mem.updates.find id = some u →
      t.mem.updates.find id = some { u with targets := u.targets.filter (· != core), applied := u.applied ++ [core] } ∧
      t.l1Line core u.line = (s.l1Line core u.line).map (fun l => l.apply u.mask u.data u.poison (maskSectors u.mask)) ∧
      t = { s with
        mem := { s.mem with l1 := t.mem.l1, updates := t.mem.updates }
        thr := { s.thr with warps := t.thr.warps } }) := by
  rintro s ⟨u, hu, ht, ho, hc⟩
  refine ⟨sharerUpdateEffect s core id u, ?_, fun u' hu' => ?_⟩
  · show execSharerUpdate core id s = _
    unfold execSharerUpdate
    rw [hu]
    exact congrArg _ (if_pos (by simp [ht, ho, hc]))
  · cases hu.symm.trans hu'
    have hfind : (s.mem.updates.adjust id fun u => { u with targets := u.targets.filter (· != core), applied := u.applied ++ [core] }).find id =
        some { u with targets := u.targets.filter (· != core), applied := u.applied ++ [core] } := by
      rw [NMap.find_adjust_self, hu]
      rfl
    unfold sharerUpdateEffect
    dsimp only
    split
    · exact ⟨hfind, NMap.find_adjust_self .., rfl⟩
    · exact ⟨hfind, NMap.find_adjust_self .., rfl⟩

theorem foldl_dropOp_find (ids : List Nat) (s : State) (j : Nat) :
    (ids.foldl State.dropOp s).mem.ops.find j = if j ∈ ids then none else s.mem.ops.find j := by
  induction ids generalizing s with
  | nil => rfl
  | cons id ids ih =>
    rw [List.foldl_cons, ih]
    by_cases hj : j = id
    · subst hj
      simp [State.dropOp, NMap.find_erase_self]
    · simp [State.dropOp, NMap.find_erase_ne hj, hj]

theorem foldl_wakeCore_rest (cs : List Nat) (line : Nat) (s : State) : cs.foldl (fun s c => s.wakeCore c line) s =
    { s with thr := { s.thr with warps := (cs.foldl (fun s c => s.wakeCore c line) s).thr.warps } } := by
  induction cs generalizing s with
  | nil => rfl
  | cons c cs ih => exact (ih _).trans rfl

theorem writerAcknowledge_happens (id : Nat) : Happens (.writerAcknowledge id)
    (fun s => ∃ u, s.mem.updates.find id = some u ∧ u.targets = [] ∧ u.push = [] ∧
      ∀ j ∈ u.writes, ∀ w, s.writeOp j = some w → s.agentHeld w.agent u.line = false)
    (fun s t => t.mem.updates.find id = none ∧ SameHome s t ∧ (∀ u, s.mem.updates.find id = some u →
        ∀ j, t.mem.ops.find j = if j ∈ u.writes then none else s.mem.ops.find j) ∧
      t = { s with
        mem := { s.mem with ops := t.mem.ops, updates := t.mem.updates }
        thr := { s.thr with warps := t.thr.warps } }) := by
  rintro s ⟨u, hu, ht, hp, hw⟩
  have hready : acknowledgeReady s u = true := by
    have hheld : ((u.writes.filterMap s.writeOp).any fun w => s.agentHeld w.agent u.line) = false := by
      refine List.any_eq_false.2 fun w hm => ?_
      obtain ⟨j, hj, he⟩ := List.mem_filterMap.1 hm
      simp [hw j hj w he]
    unfold acknowledgeReady
    rw [ht, hp, hheld]
    rfl
  refine ⟨acknowledgeEffect s id u, ?_, ?_⟩
  · show execWriterAcknowledge id s = _
    unfold execWriterAcknowledge
    rw [hu]
    exact congrArg _ (if_pos hready)
  · unfold acknowledgeEffect
    dsimp only
    rw [foldl_wakeCore_rest, foldl_dropOp_rest u.writes (fun _ _ => .inr ⟨_, rfl⟩) s]
    refine ⟨NMap.find_erase_self .., (ReadsAlike.of_homes rfl rfl rfl rfl).sameHome, fun u' hu' j => ?_, rfl⟩
    cases hu.symm.trans hu'
    exact foldl_dropOp_find u.writes s j

/-! Grafts (R118). -/

/-- A receiver has answered a graft: it is pushed to no more. -/
def answeredGraft (s : State) (core id : Nat) : State := s.onUpdate id fun u => { u with push := u.push.filter (· != core) }

theorem answeredGraft_find {s : State} {core id : Nat} {u : Update} (hu : s.mem.updates.find id = some u) :
    (answeredGraft s core id).mem.updates.find id = some { u with push := u.push.filter (· != core) } := by
  show (s.mem.updates.adjust id _).find id = _
  rw [NMap.find_adjust_self, hu]
  rfl

/-- A change of an update that keeps its receivers. -/
theorem onUpdate_push {s : State} {id : Nat} {x : Update} (hx : s.mem.updates.find id = some x) {f : Update → Update}
    (hf : ∀ u, (f u).push = u.push) :
    ∃ y, (s.onUpdate id f).mem.updates.find id = some y ∧ y.push = x.push := by
  refine ⟨f x, ?_, hf x⟩
  show (s.mem.updates.adjust id f).find id = _
  rw [NMap.find_adjust_self, hx]
  rfl

/-- The bytes of a line that a core may see (R117). -/
def openBytes (s : State) (core line : Nat) : BitVec 128 :=
  ((s.mem.l2.find line).map fun x => ~~~(othersMask x core)).getD (BitVec.allOnes 128)

/-- A receiver that holds the line takes it as an update. -/
theorem graftFill_update {s : State} {core id : Nat} {u : Update} {l : L1Line} (hu : s.mem.updates.find id = some u)
    (hl : s.l1Line core u.line = some l) : let t := graftFillEffect s core id u
    SameHome s t ∧ (∃ x, t.mem.updates.find id = some x ∧ x.push = u.push.filter (· != core)) ∧
      t.l1Line core u.line = some (l.apply (openBytes s core u.line) (s.homeLine u.line).1 (s.homeLine u.line).2 15) := by
  intro t
  have ht : t = ((((answeredGraft s core id).onL1 core u.line fun l => l.apply (openBytes s core u.line) (s.homeLine u.line).1
      (s.homeLine u.line).2 15).addSharer core u.line).onUpdate id fun u =>
        { u with applied := if u.applied.contains core then u.applied else u.applied ++ [core] }) := by
    have hopen : openBytes s core u.line = match s.mem.l2.find u.line with
        | some l => ~~~(othersMask l core)
        | none => BitVec.allOnes 128 := by
      unfold openBytes
      cases s.mem.l2.find u.line <;> rfl
    have hl' : (answeredGraft s core id).l1Line core u.line = some l := hl
    show graftFillEffect s core id u = _
    unfold graftFillEffect
    rw [show (s.onUpdate id fun u => { u with push := u.push.filter (· != core) }) = answeredGraft s core id from rfl]
    dsimp only
    rw [hl', hopen]
    rfl
  rw [ht]
  refine ⟨(ReadsAlike.trans (.trans (.of_homes rfl rfl rfl rfl) (.addSharer _ core u.line)) (.of_homes rfl rfl rfl rfl)).sameHome,
    onUpdate_push (answeredGraft_find hu) fun _ => rfl, ?_⟩
  show (s.mem.l1.adjust (l1Key core u.line) _).find (l1Key core u.line) = _
  rw [NMap.find_adjust_self]
  exact congrArg (Option.map _) hl

/-- A receiver that does not hold the line. -/
theorem graftFillEffect_absent {s : State} {core id : Nat} {u : Update} (hl : s.l1Line core u.line = none) :
    graftFillEffect s core id u =
      if s.graftCount core ≥ s.graftQuota core then countRefusal (answeredGraft s core id) core
      else match l1Victim s core u.line true with
        | .full => countRefusal (answeredGraft s core id) core
        | _ => ((answeredGraft s core id).fillL1 core u.line 0 true).onUpdate id fun u => { u with applied := u.applied ++ [core] } := by
  have hl' : (answeredGraft s core id).l1Line core u.line = none := hl
  unfold graftFillEffect
  rw [show (s.onUpdate id fun u => { u with push := u.push.filter (· != core) }) = answeredGraft s core id from rfl]
  dsimp only
  rw [hl']
  rfl

/-- A graft that a receiver refuses is counted. -/
theorem graftFill_refused {s : State} {core id : Nat} {u : Update} (hu : s.mem.updates.find id = some u) (hl : s.l1Line core u.line = none) :
    let t := countRefusal (answeredGraft s core id) core
    SameHome s t ∧ (∃ x, t.mem.updates.find id = some x ∧ x.push = u.push.filter (· != core)) ∧ t.l1Line core u.line = none ∧
      t.count (64 * core + 16) = min (s.count (64 * core + 16) + 1) 0xFFFFFFFF :=
  ⟨(ReadsAlike.of_homes rfl rfl rfl rfl).sameHome, ⟨_, answeredGraft_find hu, rfl⟩, hl, NMap.getD_put_self ..⟩

/-- A graft that a receiver accepts as a marked fill. -/
theorem graftFill_filled {s : State} {core id : Nat} {u : Update} (hu : s.mem.updates.find id = some u) :
    let t := ((answeredGraft s core id).fillL1 core u.line 0 true).onUpdate id fun u => { u with applied := u.applied ++ [core] }
    SameHome s t ∧ (∃ x, t.mem.updates.find id = some x ∧ x.push = u.push.filter (· != core)) ∧
      ∃ x, t.l1Line core u.line = some x ∧ x.data = (s.homeLine u.line).1 ∧ x.grafted = true := by
  obtain ⟨hhome, ⟨x, hx, hline, hgraft⟩, -, hrest⟩ := fillL1_filled (answeredGraft s core id) core u.line 0 true
  have hs : ReadsAlike s (answeredGraft s core id) := .of_homes rfl rfl rfl rfl
  have hupd : ((answeredGraft s core id).fillL1 core u.line 0 true).mem.updates.find id = some { u with push := u.push.filter (· != core) } := by
    rw [hrest]
    exact answeredGraft_find hu
  exact ⟨(hs.trans (hhome.trans (.of_homes rfl rfl rfl rfl))).sameHome, onUpdate_push hupd fun _ => rfl, x, hx,
    (congrArg Prod.fst (hline.trans (hs.homeLine u.line)) :), hgraft⟩

theorem l1Victim_free {s : State} {core line : Nat} {graft : Bool} (h : (l1Set s core (line % 128)).length < 16) :
    l1Victim s core line graft = .free := if_pos h

theorem graftFill_happens (core id : Nat) : Happens (.graftFill core id)
    (fun s => ∃ u, s.mem.updates.find id = some u ∧ core ∈ u.push ∧ olderUpdate s core id u = false ∧ (core, u.line) ∉ s.mem.notices ∧
      s.crossHeld (core / 32) (dieOfLine u.line) = false)
    (fun s t => SameHome s t ∧ ∀ u, s.mem.updates.find id = some u →
      (∃ x, t.mem.updates.find id = some x ∧ x.push = u.push.filter (· != core)) ∧
      (∀ l, s.l1Line core u.line = some l →
        t.l1Line core u.line = some (l.apply (openBytes s core u.line) (s.homeLine u.line).1 (s.homeLine u.line).2 15)) ∧
      (s.l1Line core u.line = none → s.graftQuota core ≤ s.graftCount core → t.l1Line core u.line = none ∧
        t.count (64 * core + 16) = min (s.count (64 * core + 16) + 1) 0xFFFFFFFF) ∧
      (s.l1Line core u.line = none → s.graftCount core < s.graftQuota core → (l1Set s core (u.line % 128)).length < 16 →
        ∃ x, t.l1Line core u.line = some x ∧ x.data = (s.homeLine u.line).1 ∧ x.grafted = true)) := by
  rintro s ⟨u, hu, hp, ho, hn, hc⟩
  refine ⟨graftFillEffect s core id u, ?_, ?_⟩
  · show execGraftFill core id s = _
    unfold execGraftFill
    rw [hu]
    exact congrArg _ (if_pos (by simp [hp, ho, hn, hc]))
  suffices h : SameHome s (graftFillEffect s core id u) ∧
      (∃ x, (graftFillEffect s core id u).mem.updates.find id = some x ∧ x.push = u.push.filter (· != core)) ∧
      (∀ l, s.l1Line core u.line = some l → (graftFillEffect s core id u).l1Line core u.line =
        some (l.apply (openBytes s core u.line) (s.homeLine u.line).1 (s.homeLine u.line).2 15)) ∧
      (s.l1Line core u.line = none → s.graftQuota core ≤ s.graftCount core → (graftFillEffect s core id u).l1Line core u.line = none ∧
        (graftFillEffect s core id u).count (64 * core + 16) = min (s.count (64 * core + 16) + 1) 0xFFFFFFFF) ∧
      (s.l1Line core u.line = none → s.graftCount core < s.graftQuota core → (l1Set s core (u.line % 128)).length < 16 →
        ∃ x, (graftFillEffect s core id u).l1Line core u.line = some x ∧ x.data = (s.homeLine u.line).1 ∧ x.grafted = true) by
    refine ⟨h.1, fun u' hu' => ?_⟩
    cases hu.symm.trans hu'
    exact h.2
  cases hl : s.l1Line core u.line with
  | some l =>
    obtain ⟨hhome, hupd, hline⟩ := graftFill_update hu hl
    refine ⟨hhome, hupd, fun l' hl' => ?_, nofun, nofun⟩
    cases hl'
    exact hline
  | none =>
    rw [graftFillEffect_absent hl]
    by_cases hq : s.graftCount core ≥ s.graftQuota core
    · rw [if_pos hq]
      obtain ⟨hhome, hupd, hline, hcount⟩ := graftFill_refused (core := core) hu hl
      exact ⟨hhome, hupd, nofun, fun _ _ => ⟨hline, hcount⟩, fun _ h => absurd hq (Nat.not_le_of_lt h)⟩
    · rw [if_neg hq]
      cases hv : l1Victim s core u.line true with
      | full =>
        obtain ⟨hhome, hupd, -, -⟩ := graftFill_refused (core := core) hu hl
        refine ⟨hhome, hupd, nofun, fun _ h => absurd h hq, fun _ _ h => ?_⟩
        rw [l1Victim_free h] at hv
        cases hv
      | free | line v =>
        obtain ⟨hhome, hupd, hfill⟩ := graftFill_filled (core := core) hu
        exact ⟨hhome, hupd, nofun, fun _ h => absurd h hq, fun _ _ _ => hfill⟩

/-! Loads that arrive (R126, R128, R328). -/

theorem writeDest_v {s : State} {core slot n l r k : Nat} {vals : List PWord} {w : Warp} (hw : s.warpAt (warpKey core slot n) = some w) :
    writeDest s core slot n l (.v r k) vals = s.setRegs (vals.zipIdx.map fun x => (physReg core slot w l (r + x.2), x.1)) := by
  unfold writeDest State.setRegs
  dsimp only
  rw [hw, List.foldl_map]

theorem physReg_inj_right {core slot : Nat} {w : Warp} {l a b : Nat} (h : physReg core slot w l a = physReg core slot w l b) : a = b := by
  unfold physReg regKey packageLanes at h
  omega

/-- The registers of a destination after its words are written. -/
theorem writeDest_vreg {s : State} {core slot n l r k : Nat} {vals : List PWord} {w : Warp} (hw : s.warpAt (warpKey core slot n) = some w)
    {i : Nat} (hi : i < vals.length) : (writeDest s core slot n l (.v r k) vals).vreg core slot w l (r + i) = vals.getD i PWord.zero := by
  rw [writeDest_v hw]
  refine reg_setRegs _ _ _ _ (List.mem_map.2 ⟨(vals.getD i PWord.zero, i), ?_, rfl⟩) fun x hx he => ?_
  · rw [List.mem_zipIdx_iff_getElem?, List.getD_eq_getElem?_getD, List.getElem?_eq_getElem hi]
    rfl
  · obtain ⟨⟨v, j⟩, hm, rfl⟩ := List.mem_map.1 hx
    have hj : j = i := Nat.add_left_cancel (physReg_inj_right he)
    subst hj
    rw [List.mem_zipIdx_iff_getElem?] at hm
    rw [List.getD_eq_getElem?_getD, show vals[j]? = some v from hm]
    rfl

/-- t is s but for registers, and its warps have the lanes of those of s. -/
structure RegsWritten (s t : State) : Prop where
  rest : t = { s with thr := { s.thr with regs := t.thr.regs, warps := t.thr.warps } }
  warp : ∀ k w, s.warpAt k = some w → ∃ u, t.warpAt k = some u ∧ u.lanes = w.lanes

theorem writeDest_written (s : State) (core slot n l : Nat) (d : Dest) (vals : List PWord) : RegsWritten s (writeDest s core slot n l d vals) := by
  cases d with
  | v r k =>
    cases hw : s.warpAt (warpKey core slot n) with
    | none =>
      have he : writeDest s core slot n l (.v r k) vals = s := by
        unfold writeDest
        dsimp only
        rw [hw]
      rw [he]
      exact ⟨rfl, fun j w hj => ⟨w, hj, rfl⟩⟩
    | some w =>
      rw [writeDest_v hw]
      refine ⟨?_, fun j w hj => ⟨w, (warpAt_setRegs ..).trans hj, rfl⟩⟩
      rw [setRegs_rest]
  | s r k =>
    refine ⟨rfl, fun j w hj => ?_⟩
    by_cases h : j = warpKey core slot n
    · subst h
      exact ⟨_, (warpAt_onWarp_self ..).trans (congrArg _ hj), rfl⟩
    · exact ⟨w, (warpAt_onWarp_ne _ _ h).trans hj, rfl⟩
  | tile _ => exact ⟨rfl, fun j w hj => ⟨w, hj, rfl⟩⟩
  | discard => exact ⟨rfl, fun j w hj => ⟨w, hj, rfl⟩⟩

theorem RegsWritten.foldl {α : Type} {f : State → α → State} (hf : ∀ s x, RegsWritten s (f s x)) (s : State) (xs : List α) :
    RegsWritten s (xs.foldl f s) := by
  induction xs generalizing s with
  | nil => exact ⟨rfl, fun j w hj => ⟨w, hj, rfl⟩⟩
  | cons x xs ih =>
    have h := hf s x
    have h' := ih (f s x)
    refine ⟨?_, fun k w hw => ?_⟩
    · rw [List.foldl_cons, h'.rest, h.rest]
    · obtain ⟨u, hu, hl⟩ := h.warp k w hw
      obtain ⟨v, hv, hl'⟩ := h'.warp k u hu
      exact ⟨v, hv, hl'.trans hl⟩

/-- A lane to which operation id has brought its words. -/
def Lane.served (x : Lane) (id : Nat) (vals : List PWord) : Lane := { x with
  loads := x.loads.filter (· != id)
  commits := x.commits.map fun e => if e.op == some id then { e with value := some vals, op := none } else e }

/-- The lanes whose registers a delivery writes. -/
def deliveryLanes (w : Warp) (id : Nat) (lanes : List Nat) (dest : Dest) : List Nat :=
  let waiting := lanes.filter fun l => (w.lane l).loads.contains id
  match dest with
  | .s _ _ => waiting.take 1
  | _ => waiting

theorem deliver_eq {s : State} {c sl n l id : Nat} {lanes : List Nat} {dest : Dest} {vals : List PWord} {w : Warp}
    (hw : s.warpAt (warpKey c sl n) = some w) : deliver s (.thread c sl n l) id lanes dest vals =
      ((deliveryLanes w id lanes dest).foldl (fun s l => writeDest s c sl n l dest vals) s).onWarp (warpKey c sl n)
        fun w => { w with lanes := w.lanes.map (·.served id vals) } := by
  unfold deliver
  dsimp only
  rw [hw]
  rfl

/-- A delivery changes registers and the warp that it serves. -/
theorem deliver_rest (s : State) (agent : Agent) (id : Nat) (lanes : List Nat) (dest : Dest) (vals : List PWord) :
    deliver s agent id lanes dest vals = { s with thr := { s.thr with
      regs := (deliver s agent id lanes dest vals).thr.regs, warps := (deliver s agent id lanes dest vals).thr.warps } } := by
  cases agent with
  | thread c sl n l =>
    cases hw : s.warpAt (warpKey c sl n) with
    | none =>
      have he : deliver s (.thread c sl n l) id lanes dest vals = s := by
        unfold deliver
        dsimp only
        rw [hw]
      rw [he]
    | some w =>
      rw [deliver_eq hw]
      have h := (RegsWritten.foldl (fun s l => writeDest_written s c sl n l dest vals) s (deliveryLanes w id lanes dest)).rest
      unfold State.onWarp
      rw [h]
  | _ => rfl

theorem deliver_warp {s : State} {c sl n l id : Nat} {lanes : List Nat} {dest : Dest} {vals : List PWord} {w : Warp}
    (hw : s.warpAt (warpKey c sl n) = some w) : ∃ u, (deliver s (.thread c sl n l) id lanes dest vals).warpAt (warpKey c sl n) = some u ∧
      ∀ y, u.lane y = (w.lane y).served id vals := by
  obtain ⟨v, hv, hl⟩ := (RegsWritten.foldl (fun s l => writeDest_written s c sl n l dest vals) s (deliveryLanes w id lanes dest)).warp _ w hw
  refine ⟨_, by rw [deliver_eq hw, warpAt_onWarp_self, hv]; rfl, fun y => ?_⟩
  unfold Warp.lane
  dsimp only
  rw [hl, List.getD_eq_getElem?_getD, List.getD_eq_getElem?_getD, List.getElem?_map]
  cases w.lanes[y]? <;> rfl

/-- A waiting lane's registers take the words. -/
theorem deliver_vreg {s : State} {c sl n l id y r k : Nat} {vals : List PWord} {w : Warp} (hw : s.warpAt (warpKey c sl n) = some w)
    (hy : id ∈ (w.lane y).loads) {i : Nat} (hi : i < vals.length) :
    (deliver s (.thread c sl n l) id [y] (.v r k) vals).vreg c sl w y (r + i) = vals.getD i PWord.zero := by
  have hlanes : deliveryLanes w id [y] (.v r k) = [y] := by
    unfold deliveryLanes
    simp [hy]
  rw [deliver_eq hw, hlanes]
  exact writeDest_vreg (k := k) hw hi

theorem lane_onLanes_seen (w : Warp) (ls : List Nat) {f : Lane → Lane} (hf : ∀ x, f x = { x with seen := (f x).seen }) (y : Nat) :
    (w.onLanes ls f).lane y = { w.lane y with seen := ((w.onLanes ls f).lane y).seen } := by
  induction ls generalizing w with
  | nil => rfl
  | cons l ls ih =>
    rw [onLanes_cons, ih, lane_onLane]
    split
    · rw [hf]
    · rfl

theorem loadReady_line {s : State} {core : Nat} {o : LoadOp} (h : loadReady s core o = true) : ∃ l, s.l1Line core (o.pa / 128) = some l := by
  unfold loadReady l1Hit at h
  cases hl : s.l1Line core (lineOf o.pa) with
  | none => simp [hl] at h
  | some l => exact ⟨l, hl⟩

theorem exec_loadValueArrival {s : State} {core id : Nat} {o : LoadOp} (ho : s.loadOp id = some o) (hr : loadReady s core o = true) :
    exec (.loadValueArrival core id) s = .next (loadArrivalEffect s core id o) := by
  show execLoadValueArrival core id s = _
  unfold execLoadValueArrival
  rw [ho]
  exact congrArg _ (if_pos hr)

/-- The words that a load takes from its core's copy of the line, with the core's own stores over it (R128, R328). -/
def arrivedWords (s : State) (core : Nat) (o : LoadOp) (l : L1Line) : List PWord :=
  loadWords o.code (((overlayStores (ownStores s core (o.pa / 128)) l.data).drop (o.pa % 128)).take o.size) fun _ =>
    (sectorsTouched (o.pa % 128) o.size).any fun k => l.poison.getLsbD k

/-- The state in which a load that has been bound is delivered: its line used, its operation ended. -/
def boundLoad (s : State) (core id : Nat) (o : LoadOp) : State :=
  (s.take.2.onL1 core (o.pa / 128) fun l => { l with cls := classAfter l.cls o.hint, age := s.fresh, grafted := false }).dropOp id

theorem loadArrivalEffect_eq {s : State} {core id c sl n x : Nat} {o : LoadOp} {l : L1Line} (hl : s.l1Line core (o.pa / 128) = some l)
    (ha : o.agent = .thread c sl n x) : loadArrivalEffect s core id o =
      (deliver (boundLoad s core id o) (.thread c sl n x) id o.lanes o.dest (arrivedWords s core o l)).noteSeen (warpKey c sl n) o.lanes
        (seenWrites s core o) := by
  unfold loadArrivalEffect
  dsimp only
  rw [show s.l1Line core (lineOf o.pa) = some l from hl, ha]
  rfl

theorem noteSeen_rest (s : State) (k : Nat) (lanes seen : List Nat) :
    s.noteSeen k lanes seen = { s with thr := { s.thr with warps := (s.noteSeen k lanes seen).thr.warps } } := rfl

theorem loadValueArrival_happens (core id : Nat) (o : LoadOp) (c sl n x : Nat) : Happens (.loadValueArrival core id)
    (fun s => s.loadOp id = some o ∧ loadReady s core o = true ∧ o.agent = .thread c sl n x)
    (fun s t => ∃ l, s.l1Line core (o.pa / 128) = some l ∧
      t.mem.ops.find id = none ∧ (∀ j, j ≠ id → t.mem.ops.find j = s.mem.ops.find j) ∧ SameHome s t ∧
      t = { s with
        mem := { s.mem with l1 := t.mem.l1, ops := t.mem.ops }
        thr := { s.thr with warps := t.thr.warps, regs := t.thr.regs }
        fresh := s.fresh + 1 } ∧
      ∀ w, s.warpAt (warpKey c sl n) = some w → ∃ u, t.warpAt (warpKey c sl n) = some u ∧
        (∀ y, u.lane y = { w.lane y with
          loads := (w.lane y).loads.filter (· != id)
          commits := (w.lane y).commits.map fun e => if e.op = some id then { e with value := some (arrivedWords s core o l), op := none } else e
          seen := (u.lane y).seen }) ∧
        ∀ y r k, o.lanes = [y] → o.dest = .v r k → id ∈ (w.lane y).loads → ∀ i < (arrivedWords s core o l).length,
          t.vreg c sl w y (r + i) = (arrivedWords s core o l).getD i PWord.zero) := by
  rintro s ⟨ho, hr, ha⟩
  obtain ⟨l, hl⟩ := loadReady_line hr
  refine ⟨_, exec_loadValueArrival ho hr, l, hl, ?_⟩
  rw [loadArrivalEffect_eq hl ha]
  have hrest := deliver_rest (boundLoad s core id o) (.thread c sl n x) id o.lanes o.dest (arrivedWords s core o l)
  refine ⟨?_, fun j hj => ?_, ?_, ?_, fun w hw => ?_⟩
  · rw [noteSeen_rest, hrest]
    exact NMap.find_erase_self ..
  · rw [noteSeen_rest, hrest]
    exact NMap.find_erase_ne hj _
  · rw [noteSeen_rest, hrest]
    exact (ReadsAlike.of_homes rfl rfl rfl rfl).sameHome
  · rw [noteSeen_rest, hrest]
    rfl
  · have hb : (boundLoad s core id o).warpAt (warpKey c sl n) = some w := hw
    obtain ⟨u, hu, hlane⟩ := deliver_warp (l := x) (id := id) (lanes := o.lanes) (dest := o.dest) (vals := arrivedWords s core o l) hb
    refine ⟨_, (warpAt_onLanes_self ..).trans (congrArg _ hu), fun y => ?_, fun y r k hy hd hload i hi => ?_⟩
    · rw [lane_onLanes_seen _ _ (fun _ => rfl), hlane]
      simp only [Lane.served, beq_iff_eq]
    · rw [hy, hd]
      exact deliver_vreg hb hload hi

/-- Settles O33, event by event. -/
theorem cacheEvents : Obligations.CacheEvents := by
  unfold Obligations.CacheEvents
  exact fun core line id => ⟨l1Fill_happens core line, fun o c sl n x => loadValueArrival_happens core id o c sl n x,
    evictionNotice_happens core line, sharerUpdate_happens core id, graftFill_happens core id, writerAcknowledge_happens id⟩

end Sys2Proof.Machine
end

section
/-! The tiles of a matrix engine: an element that is written, and a change of every element (R98, R343, R344). -/

namespace Sys2Proof.Machine

/-! Elements of the accumulator storage: words of four bytes with their poison. -/

/-- Word k of the accumulator storage and its poison. -/
def accElement (m : Mem) (k : Nat) : Nat × Bool := (leNat (m.readBytes (4 * k) 4), m.poisoned k)

/-- Write word k with its poison. -/
def setAccElement (m : Mem) (k : Nat) (e : Nat × Bool) : Mem := (m.writeBytes (4 * k) (leBytes 4 e.1)).setPoison k e.2

theorem wf_setAccElement {m : Mem} (h : m.wf = true) (k : Nat) (e : Nat × Bool) : (setAccElement m k e).wf = true :=
  wf_setPoison (wf_writeBytes h _ _) _ _

theorem read_setAccElement {m : Mem} (h : m.wf = true) (k : Nat) (e : Nat × Bool) (a : Nat) : (setAccElement m k e).read a =
    if a / 4 = k then (leBytes 4 e.1).getD (a - 4 * k) 0 else m.read a := by
  unfold setAccElement
  rw [read_setPoison, read_writeBytes h, leBytes_length]
  exact if_congr (by omega) rfl rfl

theorem accElement_set_self {m : Mem} (h : m.wf = true) (k : Nat) (e : Nat × Bool) :
    accElement (setAccElement m k e) k = (e.1 % 2 ^ 32, e.2) := by
  have hbytes : (setAccElement m k e).readBytes (4 * k) 4 = leBytes 4 e.1 := by
    unfold Mem.readBytes
    rw [leBytes_eq]
    refine List.map_congr_left fun i hi => ?_
    have hi4 : i < 4 := List.mem_range.1 hi
    rw [read_setAccElement h, if_pos (by omega), Nat.add_sub_cancel_left, leBytes_eq]
    simp [List.getD_eq_getElem?_getD, hi4]
  unfold accElement
  rw [hbytes, leNat_leBytes]
  unfold setAccElement
  rw [poisoned_setPoison (wf_writeBytes h _ _), if_pos rfl, show 256 ^ 4 = 2 ^ 32 by decide]

theorem accElement_set_ne {m : Mem} (h : m.wf = true) {j k : Nat} (hj : j ≠ k) (e : Nat × Bool) :
    accElement (setAccElement m k e) j = accElement m j := by
  have hbytes : (setAccElement m k e).readBytes (4 * j) 4 = m.readBytes (4 * j) 4 := by
    refine List.map_congr_left fun i hi => ?_
    rw [List.mem_range] at hi
    rw [read_setAccElement h, if_neg (by omega)]
  unfold accElement
  rw [hbytes]
  unfold setAccElement
  rw [poisoned_setPoison (wf_writeBytes h _ _), if_neg hj, poisoned_writeBytes]

/-- Words of the accumulator storage changed one after another. -/
def changeAcc {α : Type} (at' : α → Nat) (F : α → Nat × Bool → Nat × Bool) (m : Mem) (xs : List α) : Mem :=
  xs.foldl (fun m x => setAccElement m (at' x) (F x (accElement m (at' x)))) m

/-- Words at different places: each becomes what its change makes of it, and every other byte stays. -/
theorem changeAcc_changed {α : Type} {at' : α → Nat} (F : α → Nat × Bool → Nat × Bool) {xs : List α} (hn : (xs.map at').Nodup) {m : Mem}
    (h : m.wf = true) :
    (∀ x ∈ xs, accElement (changeAcc at' F m xs) (at' x) = ((F x (accElement m (at' x))).1 % 2 ^ 32, (F x (accElement m (at' x))).2)) ∧
    (∀ k, k ∉ xs.map at' → accElement (changeAcc at' F m xs) k = accElement m k) ∧
    (∀ a, a / 4 ∉ xs.map at' → (changeAcc at' F m xs).read a = m.read a) := by
  induction xs generalizing m with
  | nil => exact ⟨nofun, fun _ _ => rfl, fun _ _ => rfl⟩
  | cons y xs ih =>
    obtain ⟨hy, hn⟩ := List.nodup_cons.1 hn
    obtain ⟨hin, hout, hread⟩ := ih hn (wf_setAccElement h (at' y) (F y (accElement m (at' y))))
    refine ⟨fun x hx => ?_, fun k hk => ?_, fun a ha => ?_⟩
    · rcases List.mem_cons.1 hx with rfl | hx
      · exact (hout _ hy).trans (accElement_set_self h _ _)
      · have hne : at' x ≠ at' y := fun he => hy (he ▸ List.mem_map_of_mem hx)
        refine (hin x hx).trans ?_
        rw [accElement_set_ne h hne]
    · obtain ⟨hky, hkx⟩ := List.ne_and_not_mem_of_not_mem_cons hk
      exact (hout k hkx).trans (accElement_set_ne h hky _)
    · obtain ⟨hay, hax⟩ := List.ne_and_not_mem_of_not_mem_cons ha
      exact (hread a hax).trans ((read_setAccElement h _ _ _).trans (if_neg hay))

/-! Tiles. -/

/-- The places of a tile, in row order. -/
def tilePlaces : List (Nat × Nat) := List.range 128 ×ˢ List.range 128

theorem mem_tilePlaces {x : Nat × Nat} : x ∈ tilePlaces ↔ x.1 < 128 ∧ x.2 < 128 := by
  obtain ⟨i, j⟩ := x
  exact List.mem_product.trans (and_congr List.mem_range List.mem_range)

theorem nodup_tilePlaces : tilePlaces.Nodup := List.Nodup.product List.nodup_range List.nodup_range

/-- The word of an element of a tile. -/
def tileWord (core tile : Nat) (x : Nat × Nat) : Nat := (64 * core + tile) * 16384 + 128 * x.1 + x.2

theorem tileAddr_eq (core tile i j : Nat) : tileAddr core tile (512 * i + 4 * j) = 4 * tileWord core tile (i, j) := by
  unfold tileAddr tileSize tileWord
  omega

theorem tileElement_eq (s : State) (core tile i j : Nat) : tileElement s core tile i j = accElement s.mem.acc (tileWord core tile (i, j)) := by
  unfold tileElement accElement
  dsimp only
  rw [tileAddr_eq, Nat.mul_div_cancel_left _ (by decide)]

theorem setTileElement_eq (s : State) (core tile i j v : Nat) (p : Bool) :
    setTileElement s core tile i j v p = s.onAcc fun m => setAccElement m (tileWord core tile (i, j)) (v, p) := by
  unfold setTileElement setAccElement
  dsimp only
  rw [tileAddr_eq, Nat.mul_div_cancel_left _ (by decide)]

theorem foldl_onAcc {α : Type} {step : State → α → State} {h : Mem → α → Mem} (hs : ∀ s x, step s x = s.onAcc fun m => h m x) (xs : List α)
    (s : State) : xs.foldl step s = s.onAcc fun m => xs.foldl h m := by
  induction xs generalizing s with
  | nil => rfl
  | cons x xs ih => rw [List.foldl_cons, ih, hs]; rfl

theorem mapTile_eq (s : State) (core tile : Nat) (f : Nat → Nat → Nat × Bool → Nat × Bool) :
    mapTile s core tile f = s.onAcc fun m => changeAcc (tileWord core tile) (fun x => f x.1 x.2) m tilePlaces := by
  have hflat : ∀ m, changeAcc (tileWord core tile) (fun x => f x.1 x.2) m tilePlaces = (List.range 128).foldl (fun m i =>
      changeAcc (fun j => tileWord core tile (i, j)) (f i) m (List.range 128)) m := fun m => by
    simp only [changeAcc, tilePlaces, SProd.sprod, List.product, List.foldl_flatMap, List.foldl_map]
  simp only [hflat]
  refine foldl_onAcc (fun s i => foldl_onAcc (fun s j => ?_) _ s) _ s
  rw [setTileElement_eq, tileElement_eq]
  rfl

theorem mapTile_rest (s : State) (core tile : Nat) (f : Nat → Nat → Nat × Bool → Nat × Bool) :
    mapTile s core tile f = { s with mem := { s.mem with acc := (mapTile s core tile f).mem.acc } } := by
  rw [mapTile_eq]
  generalize (fun m => changeAcc (tileWord core tile) (fun x => f x.1 x.2) m tilePlaces) = change
  rfl

theorem nodup_tileWords (core tile : Nat) : (tilePlaces.map (tileWord core tile)).Nodup := by
  refine List.Nodup.map_on (fun x hx y hy h => ?_) nodup_tilePlaces
  rw [mem_tilePlaces] at hx hy
  unfold tileWord at h
  exact Prod.ext (by omega) (by omega)

/-- Every element of the tile becomes what the change makes of it; the rest of the storage stays. -/
theorem mapTile_changed {s : State} (h : s.mem.acc.wf = true) (core tile : Nat) (f : Nat → Nat → Nat × Bool → Nat × Bool) :
    (∀ i < 128, ∀ j < 128, tileElement (mapTile s core tile f) core tile i j =
      ((f i j (tileElement s core tile i j)).1 % 2 ^ 32, (f i j (tileElement s core tile i j)).2)) ∧
    (∀ a, a / 65536 ≠ 64 * core + tile → (mapTile s core tile f).mem.acc.read a = s.mem.acc.read a) := by
  obtain ⟨hin, -, hread⟩ := changeAcc_changed (fun x => f x.1 x.2) (nodup_tileWords core tile) h
  have hacc : (mapTile s core tile f).mem.acc = changeAcc (tileWord core tile) (fun x => f x.1 x.2) s.mem.acc tilePlaces := by
    rw [mapTile_eq]
    simp only [State.onAcc]
  refine ⟨fun i hi j hj => ?_, fun a ha => ?_⟩
  · rw [tileElement_eq, tileElement_eq, hacc]
    exact hin (i, j) (mem_tilePlaces.2 (And.intro hi hj))
  · rw [hacc]
    refine hread a fun hm => ?_
    obtain ⟨x, hx, he⟩ := List.mem_map.1 hm
    rw [mem_tilePlaces] at hx
    unfold tileWord at he
    omega

end Sys2Proof.Machine
end

section
/-! The macros of a matrix engine: a `bld` packs elements into columns, an exchange gives one to its work-group (R93 to R96, R341). -/

namespace Sys2Proof.Machine

/-! Numbers packed side by side. -/

/-- The first numbers of e, w bits each, from the lowest bits up. -/
def packed (w : Nat) (e : Nat → Nat) : Nat → Nat
  | 0 => 0
  | n + 1 => packed w e n + e n * 2 ^ (w * n)

theorem packed_lt {w : Nat} {e : Nat → Nat} (n : Nat) (h : ∀ r < n, e r < 2 ^ w) : packed w e n < 2 ^ (w * n) := by
  induction n with
  | zero => exact Nat.one_pos
  | succ n ih =>
    have hn := ih fun r hr => h r (by omega)
    have he := h n (by omega)
    calc packed w e n + e n * 2 ^ (w * n) < 2 ^ (w * n) + e n * 2 ^ (w * n) := by omega
      _ = (e n + 1) * 2 ^ (w * n) := by ring
      _ ≤ 2 ^ w * 2 ^ (w * n) := Nat.mul_le_mul_right _ he
      _ = 2 ^ (w * (n + 1)) := by rw [← pow_add]; ring_nf

/-- Each number stands at its place. -/
theorem packed_digit {w : Nat} {e : Nat → Nat} {n r : Nat} (h : ∀ r < n, e r < 2 ^ w) (hr : r < n) :
    packed w e n / 2 ^ (w * r) % 2 ^ w = e r := by
  induction n with
  | zero => omega
  | succ n ih =>
    have hpos : 0 < 2 ^ (w * r) := by positivity
    unfold packed
    rcases Nat.lt_succ_iff_lt_or_eq.1 hr with hr' | rfl
    · obtain ⟨d, rfl⟩ : ∃ d, n = r + 1 + d := ⟨n - (r + 1), by omega⟩
      have hsplit : e (r + 1 + d) * 2 ^ (w * (r + 1 + d)) = 2 ^ (w * r) * (2 ^ w * (e (r + 1 + d) * 2 ^ (w * d))) := by ring
      rw [hsplit, Nat.add_mul_div_left _ _ hpos, Nat.add_mul_mod_self_left]
      exact ih (fun r hr => h r (by omega)) hr'
    · rw [Nat.add_mul_div_right _ _ hpos, Nat.div_eq_of_lt (packed_lt r fun i hi => h i (by omega)), Nat.zero_add,
        Nat.mod_eq_of_lt (h r hr)]

/-- The numbers of a list packed by a fold over their places. -/
theorem foldl_zipIdx_packed (w : Nat) (e : Nat → Nat × Bool) (n : Nat) :
    ((List.range n).map e).zipIdx.foldl (fun acc (x, r) => acc + x.1 * 2 ^ (w * r)) 0 = packed w (fun r => (e r).1) n := by
  induction n with
  | zero => rfl
  | succ n ih =>
    rw [List.range_succ, List.map_append, List.zipIdx_append, List.foldl_append, ih]
    simp [packed]

/-! Maps filled from a list. -/

/-- A key that one entry of a list names holds the entry's value. -/
theorem getD_foldl_put {α β : Type} [DecidableEq β] (val : α → β) (key : α → Nat) (d : β) {xs : List α} {x : α} (hx : x ∈ xs)
    (hone : ∀ y ∈ xs, key y = key x → y = x) (m : NMap β) : (xs.foldl (fun m y => m.put (key y) (val y) d) m).getD (key x) d = val x := by
  induction xs using List.reverseRecOn with
  | nil => cases hx
  | append_singleton xs z ih =>
    rw [List.foldl_append, List.foldl_cons, List.foldl_nil]
    by_cases hz : key z = key x
    · rw [hone z (by simp) hz]
      exact NMap.getD_put_self ..
    · rw [NMap.getD_put_ne (Ne.symm hz)]
      refine ih ?_ fun y hy => hone y (by simp [hy])
      rcases List.mem_append.1 hx with hx | hx
      · exact hx
      · exact absurd (congrArg key (List.mem_singleton.1 hx).symm) hz

/-! The macros that a `bld` makes (R341). -/

/-- The bits of column j of the q-th that a `bld` makes. -/
def bldColumn (s : State) (core sbase : Nat) (y : Layout) (f : Nat) (perm : List Nat) (q j : Nat) : Nat :=
  packed (widthB f) (fun r => (scratchElement s core sbase y (widthB f) j (channelAt perm (q * macroRows (widthB f) + r))).1) (macroRows (widthB f))

/-- Macro q of the set holds these columns, and belongs to the work-group. -/
structure BuiltMacro (s : State) (core wg sbase : Nat) (y : Layout) (f : Nat) (perm : List Nat) (q : Nat) (x : Macro) : Prop where
  owner : x.owner = some wg
  column : ∀ j < 128, x.cols.getD j 0 = BitVec.ofNat 1024 (bldColumn s core sbase y f perm q j)

/-- The m-th of a core. -/
def macroAt (s : State) (core m : Nat) : Macro := s.mem.macros.getD (macroKey core m) Macro.init

theorem macroAt_setMacro_self (s : State) (core m : Nat) (x : Macro) : macroAt (s.setMacro core m x) core m = x := NMap.getD_put_self ..

theorem macroAt_setMacro_ne (s : State) {core m n : Nat} (h : n ≠ m) (x : Macro) : macroAt (s.setMacro core m x) core n = macroAt s core n :=
  NMap.getD_put_ne (by unfold macroKey; omega) ..

/-- Macros m, m + 1 and on of a core set one after another, each by a step that looks at the scratchpad alone. -/
theorem foldl_setMacro {step : State → Nat → State} {P : Nat → Macro → Prop} {core m : Nat} {pad : Mem}
    (hs : ∀ s q, s.mem.scratch = pad → ∃ x, step s q = s.setMacro core (m + q) x ∧ P q x) (n : Nat) {s : State} (h : s.mem.scratch = pad) :
    (∀ q < n, P q (macroAt ((List.range n).foldl step s) core (m + q))) ∧
      (List.range n).foldl step s = { s with mem := { s.mem with macros := ((List.range n).foldl step s).mem.macros } } := by
  induction n with
  | zero => exact ⟨nofun, rfl⟩
  | succ n ih =>
    obtain ⟨hmacro, hrest⟩ := ih
    rw [List.range_succ, List.foldl_append, List.foldl_cons, List.foldl_nil]
    obtain ⟨x, hx, hp⟩ := hs ((List.range n).foldl step s) n (by rw [hrest]; exact h)
    rw [hx]
    refine ⟨fun q hq => ?_, by rw [hrest]; rfl⟩
    rcases Nat.lt_succ_iff_lt_or_eq.1 hq with hq | rfl
    · rw [macroAt_setMacro_ne _ (by omega)]
      exact hmacro q hq
    · rw [macroAt_setMacro_self]
      exact hp

theorem getD_foldl_column {α : Type} (col : Nat → BitVec 1024 × α) {j : Nat} (hj : j < 128) :
    NMap.getD (((List.range 128).map col).zipIdx.foldl (fun m (x, j) => m.put j x.1 0) []) j 0 = (col j).1 := by
  have hmem : (col j, j) ∈ ((List.range 128).map col).zipIdx := by
    rw [List.mem_zipIdx_iff_getElem?]
    simp [hj]
  refine getD_foldl_put (fun x : (BitVec 1024 × α) × Nat => x.1.1) (fun x => x.2) 0 hmem (fun y hy he => ?_) []
  rw [List.mem_zipIdx_iff_getElem?] at hmem hy
  obtain ⟨y, i⟩ := y
  cases he
  exact congrArg (·, j) (Option.some.inj (hy.symm.trans hmem))

theorem bldEffect_built (s : State) (core wg sbase : Nat) (y : Layout) (f : Nat) (perm : List Nat) :
    (∀ q < fmtCount f, BuiltMacro s core wg sbase y f perm q (macroAt (bldEffect s core wg sbase y f perm) core (fmtFirst f + q))) ∧
      bldEffect s core wg sbase y f perm = { s with mem := { s.mem with macros := (bldEffect s core wg sbase y f perm).mem.macros } } := by
  unfold bldEffect
  refine foldl_setMacro (pad := s.mem.scratch) (fun t q ht => ⟨_, rfl, rfl, fun j hj => ?_⟩) (fmtCount f) rfl
  dsimp only
  refine (getD_foldl_column _ hj).trans ?_
  dsimp only
  rw [foldl_zipIdx_packed]
  unfold bldColumn scratchElement
  rw [ht]

end Sys2Proof.Machine
end

section
/-! The commands of a matrix engine: their start, their effect and their retirement, and the exchange of macros (R95, R98, R341 to R347). -/

namespace Sys2Proof.Machine

/-! The elements that a `bld` has packed. -/

theorem leNat_lt (bs : List Byte) : leNat bs < 256 ^ bs.length := by
  induction bs with
  | nil => exact Nat.one_pos
  | cons b bs ih =>
    have hb := b.isLt
    rw [leNat, List.length_cons, Nat.pow_succ]
    omega

/-- An element of a layout has its width. -/
theorem scratchElement_lt (s : State) (core sbase : Nat) (y : Layout) {w : Nat} (hw : w = 4 ∨ w = 8 ∨ w = 16) (i c : Nat) :
    (scratchElement s core sbase y w i c).1 < 2 ^ w := by
  have hlen : ∀ a n, leNat (s.mem.scratch.readPoison 4 a n).1 < 256 ^ n := fun a n => by
    refine (leNat_lt _).trans_eq (congrArg _ ?_)
    exact readBytes_length ..
  unfold scratchElement
  rcases hw with rfl | rfl | rfl
  · exact Nat.mod_lt _ (by decide)
  · exact hlen _ 1
  · exact hlen _ 2

theorem widthB_cases {f : Nat} (h : formatLegal f = true) : widthB f = 4 ∨ widthB f = 8 ∨ widthB f = 16 := by
  have hb : (codeWidth (fmtB f)).isSome = true := by
    simp only [formatLegal, Bool.and_eq_true] at h
    obtain ⟨⟨⟨⟨⟨-, -⟩, hb⟩, -⟩, -⟩, -⟩ := h
    exact hb
  unfold widthB
  unfold codeWidth at hb ⊢
  split at hb <;> simp_all

/-- What a `bld` made holds the element of each row and column. -/
theorem BuiltMacro.element {s : State} {core wg sbase f q : Nat} {y : Layout} {perm : List Nat} {x : Macro}
    (h : BuiltMacro s core wg sbase y f perm q x) (hf : formatLegal f = true) {r j : Nat} (hr : r < macroRows (widthB f)) (hj : j < 128) :
    x.element (widthB f) r j = (scratchElement s core sbase y (widthB f) j (channelAt perm (q * macroRows (widthB f) + r))).1 := by
  have hw := widthB_cases hf
  have hlt : ∀ i < macroRows (widthB f),
      (scratchElement s core sbase y (widthB f) j (channelAt perm (q * macroRows (widthB f) + i))).1 < 2 ^ widthB f :=
    fun i _ => scratchElement_lt s core sbase y hw j _
  have hbits : widthB f * macroRows (widthB f) = 1024 := by
    unfold macroRows
    rcases hw with hw | hw | hw <;> rw [hw]
  have hcol : bldColumn s core sbase y f perm q j < 2 ^ 1024 := by
    rw [← hbits]
    exact packed_lt _ hlt
  unfold Macro.element
  rw [h.column j hj, BitVec.toNat_ofNat, Nat.mod_eq_of_lt hcol]
  exact packed_digit hlt hr

/-! Retirement (R347). -/

theorem reapGroup_alive {s : State} {wg : Nat} (h : ∀ g, s.work.groups.find wg = some g → g.dead = false) : reapGroup s wg = s := by
  unfold reapGroup
  split
  · next g hg => rw [h g hg]; rfl
  · rfl

theorem matrixCompleteEffect_rest (s : State) (c : MatCmd) : matrixCompleteEffect s c = { matrixEffect s c with
    mem := { (matrixEffect s c).mem with matrix := (matrixEffect s c).mem.matrix.filter fun d => d.id != c.id }
    thr := { (matrixEffect s c).thr with regs := (matrixCompleteEffect s c).thr.regs, warps := (matrixCompleteEffect s c).thr.warps } } := by
  unfold matrixCompleteEffect
  dsimp only
  unfold State.onWarp
  rw [deliver_rest]

/-- The command of a work-group that lives retires with its effect. -/
theorem exec_matrixComplete {s : State} {core : Nat} {c : MatCmd} (h : runningCommand s core = some c)
    (hw : (matrixEffect s c).work = s.work) (hg : ∀ g, s.work.groups.find c.wg = some g → g.dead = false) :
    exec (.matrixCommandComplete core) s = .next (matrixCompleteEffect s c) := by
  show execMatrixCommandComplete core s = _
  unfold execMatrixCommandComplete
  rw [h]
  refine congrArg _ (reapGroup_alive ?_)
  rw [matrixCompleteEffect_rest]
  dsimp only
  rw [hw]
  exact hg

/-- A delivery without a destination only tells the lanes that wait. -/
theorem deliver_discard {s : State} {c sl n l id k : Nat} {lanes : List Nat} {vals : List PWord} {w : Warp} (hk : k = warpKey c sl n)
    (hw : s.warpAt k = some w) : (deliver s (.thread c sl n l) id lanes .discard vals).warpAt k =
      some { w with lanes := w.lanes.map (·.served id vals) } := by
  subst hk
  rw [deliver_eq hw, show (deliveryLanes w id lanes .discard).foldl (fun s l => writeDest s c sl n l .discard vals) s = s from
    List.foldl_fixed _, warpAt_onWarp_self, hw]
  rfl

theorem served_loads {w : Warp} {id : Nat} {vals : List PWord} (l : Nat) :
    id ∉ (({ w with lanes := w.lanes.map (·.served id vals) } : Warp).lane l).loads := by
  unfold Warp.lane
  dsimp only
  rw [List.getD_eq_getElem?_getD, List.getElem?_map]
  cases w.lanes[l]? <;> simp [Lane.served, Lane.absent]

/-- The warp of a command that retires: a command less, and no lane waits for it. -/
theorem matrixComplete_warp {s : State} {c : MatCmd} {w : Warp} (hw : (matrixEffect s c).warpAt c.warp = some w) (hg : w.wg = c.wg)
    (hk : c.warp = warpKey (c.warp / 64) (c.warp / 8 % 8) (c.warp % 8)) :
    ∃ u, (matrixCompleteEffect s c).warpAt c.warp = some u ∧ u.cntMat = w.cntMat - 1 ∧ (∀ l, c.id ∉ (u.lane l).loads) ∧ u.sregs = w.sregs := by
  refine ⟨{ w with lanes := w.lanes.map (·.served c.id []), cntMat := w.cntMat - 1 }, ?_, rfl, served_loads, rfl⟩
  refine (warpAt_onWarp_self ..).trans ((congrArg _ (deliver_discard (w := w) hk ?_)).trans ?_)
  · exact hw
  · exact congrArg some (if_pos (beq_iff_eq.2 hg))

/-! The commands that change a tile (R98, R343, R344). -/

/-- A command whose effect is a change of every element of its tile. -/
theorem mapTile_completes {s : State} {core tile : Nat} {c : MatCmd} {w : Warp} {f : Nat → Nat → Nat × Bool → Nat × Bool}
    (he : matrixEffect s c = mapTile s c.core tile f) (hr : runningCommand s core = some c) (hwf : s.mem.acc.wf = true)
    (hw : s.warpAt c.warp = some w) (hg : w.wg = c.wg) (hk : c.warp = warpKey (c.warp / 64) (c.warp / 8 % 8) (c.warp % 8))
    (hd : ∀ g, s.work.groups.find c.wg = some g → g.dead = false) :
    ∃ t, exec (.matrixCommandComplete core) s = .next t ∧
      (∀ i < 128, ∀ j < 128, tileElement t c.core tile i j =
        ((f i j (tileElement s c.core tile i j)).1 % 2 ^ 32, (f i j (tileElement s c.core tile i j)).2)) ∧
      (∀ a, a / 65536 ≠ 64 * c.core + tile → t.mem.acc.read a = s.mem.acc.read a) ∧
      t.mem.scratch = s.mem.scratch ∧ t.mem.hbm = s.mem.hbm ∧ (∀ d ∈ t.mem.matrix, d.id ≠ c.id) ∧
      ∃ u, t.warpAt c.warp = some u ∧ u.cntMat = w.cntMat - 1 ∧ (∀ l, c.id ∉ (u.lane l).loads) ∧ u.sregs = w.sregs := by
  obtain ⟨helem, hread⟩ := mapTile_changed hwf c.core tile f
  have hrest := mapTile_rest s c.core tile f
  rw [← he] at helem hread hrest
  have hwork : (matrixEffect s c).work = s.work := by rw [hrest]
  have hwarp : (matrixEffect s c).warpAt c.warp = some w := by rw [hrest]; exact hw
  refine ⟨_, exec_matrixComplete hr hwork hd, fun i hi j hj => ?_, fun a ha => ?_, ?_, ?_, fun d hm => ?_, matrixComplete_warp hwarp hg hk⟩
  · rw [← helem i hi j hj, tileElement_eq, tileElement_eq, matrixCompleteEffect_rest]
  · rw [← hread a ha, matrixCompleteEffect_rest]
  · rw [matrixCompleteEffect_rest, hrest]
  · rw [matrixCompleteEffect_rest, hrest]
  · rw [matrixCompleteEffect_rest] at hm
    simpa using (List.mem_filter.1 hm).2

theorem mmaEffect_eq (s : State) (core sbase : Nat) (z : Bool) (tile : Nat) (y : Layout) (f : Nat) (perm : List Nat) :
    mmaEffect s core sbase z tile y f perm = mapTile s core tile fun i j acc => mmaElement f
      (((List.range 128).map fun i => (List.range (fmtDepth f / 32)).map (blockA s core sbase y f perm i)).getD i [])
      (((List.range 128).map fun j => (List.range (fmtDepth f / 32)).map (blockB s core f j)).getD j [])
      (if z then (0, false) else acc) := rfl

theorem getD_map_range {α : Type} (f : Nat → List α) {i : Nat} (hi : i < 128) : ((List.range 128).map f).getD i [] = f i := by
  simp [List.getD_eq_getElem?_getD, hi]

/-! Macro exchange (R95, R96). -/

theorem poolWrite_macros (s : State) (pa : Nat) (bs : List Byte) : (s.poolWrite pa bs).mem.macros = s.mem.macros := by
  unfold State.poolWrite
  generalize linePieces pa bs.length = ps
  induction ps generalizing s with
  | nil => rfl
  | cons p ps ih =>
    obtain ⟨o, a, m⟩ := p
    rw [List.foldl_cons, ih]
    dsimp only
    split
    · rw [(HomeWritten.hwWrite ..).mem]
    · rw [send_fabric]
      rfl

theorem spillMacro_eq {s : State} {core m o : Nat} {x : WorkGroup} (ho : (macroAt s core m).owner = some o)
    (hx : s.work.groups.find o = some x) : ∃ pa bs, spillMacro s core m =
      (s.poolWrite pa bs).onGroup o fun g => { g with spill := g.spill ||| (1#16 <<< m) } := by
  refine ⟨spillSlot s core x.pos m, macroBytes (macroAt s core m), ?_⟩
  unfold spillMacro
  dsimp only
  split
  next h => exact nomatch h.symm.trans ho
  next o' h =>
    obtain rfl := Option.some.inj (h.symm.trans ho)
    rw [hx]
    rfl

/-- Where no owner is resident nothing gives way. -/
theorem spillMacro_none {s : State} {core m : Nat} (h : ∀ o, (macroAt s core m).owner = some o → s.work.groups.find o = none) :
    spillMacro s core m = s := by
  unfold spillMacro
  dsimp only
  split
  next => rfl
  next o ho => rw [h o ho]

theorem spillMacro_macros (s : State) (core m : Nat) : (spillMacro s core m).mem.macros = s.mem.macros := by
  by_cases h : ∀ o, (macroAt s core m).owner = some o → s.work.groups.find o = none
  · rw [spillMacro_none h]
  · obtain ⟨o, ho, x, hx⟩ : ∃ o, (macroAt s core m).owner = some o ∧ ∃ x, s.work.groups.find o = some x := by
      simpa [Option.ne_none_iff_exists'] using h
    obtain ⟨pa, bs, he⟩ := spillMacro_eq ho hx
    rw [he]
    exact poolWrite_macros s pa bs

/-- The owner of what gives way holds it in its spill slot (R95). -/
theorem spillMacro_group {s : State} {core m o : Nat} {x : WorkGroup} (ho : (macroAt s core m).owner = some o)
    (hx : s.work.groups.find o = some x) :
    (spillMacro s core m).work.groups.find o = some { x with spill := x.spill ||| (1#16 <<< m) } := by
  obtain ⟨pa, bs, he⟩ := spillMacro_eq ho hx
  rw [he]
  refine (NMap.find_adjust_self ..).trans ?_
  rw [(GroupsStay.poolWrite s pa bs).groups, hx]
  rfl

theorem exec_macroExchange {s : State} {core m : Nat} {c : MatCmd} {g : WorkGroup} (hn : nextCommand s core = some c)
    (hr : exchangeReady s core m = true) (hg : s.work.groups.find c.wg = some g) (hm : macroSource s core g m = none) :
    exec (.macroExchange core m) s = .next ((spillMacro s core m).setMacro core m { Macro.init with owner := some c.wg }) := by
  show execMacroExchange core m s = _
  unfold execMacroExchange exchangeEffect
  rw [hn]
  dsimp only
  rw [if_pos hr, hg]
  dsimp only
  rw [hm]

/-- Settles O41: the changes of a tile by `mapTile_completes`, a `bld` by `bldEffect_built`, an exchange by `exec_macroExchange`. -/
theorem matrixEvents : Obligations.MatrixEvents := by
  unfold Obligations.MatrixEvents
  refine fun core mac c => ⟨fun s ⟨hn, hr⟩ => ⟨_, ?_, rfl⟩, fun s h => ?_, fun w tile G hG s ⟨hr, hwf, hw, hg, ht, hk, hd⟩ => ?_,
    fun y f p hop hf s ⟨hr, hd⟩ => ?_, fun s h => ?_, fun s ⟨hn, hr, g, hg, hm⟩ => ⟨_, exec_macroExchange hn hr hg hm, ?_, fun m hm16 hne => ?_, ?_⟩,
    fun s h => ?_⟩
  · show execMatrixCommandStart core s = _
    unfold execMatrixCommandStart
    rw [hn]
    dsimp only
    rw [if_pos hr]
    simp only [beq_iff_eq]
  · show execMatrixCommandStart core s = _
    unfold execMatrixCommandStart
    split
    · next d hd => rw [h d hd]; rfl
    · rfl
  · have hcomplete := fun f he => mapTile_completes (tile := tile) (f := f) he hr hwf hw hg hk hd
    rcases hG with ⟨hop, rfl⟩ | ⟨y, hop, rfl⟩ | ⟨k, hop, rfl⟩ | ⟨z, y, f, p, hop, rfl⟩
    · exact hcomplete _ (by unfold matrixEffect; rw [hop])
    · exact hcomplete _ (by unfold matrixEffect; rw [hop])
    · exact hcomplete _ (by unfold matrixEffect; rw [hop])
    · obtain ⟨t, hx, helem, hrest⟩ := hcomplete _ (by unfold matrixEffect; rw [hop]; exact mmaEffect_eq ..)
      refine ⟨t, hx, fun i hi j hj => ?_, hrest⟩
      rw [helem i hi j hj, getD_map_range _ hi, getD_map_range _ hj]
  · obtain ⟨hbuilt, hrest⟩ := bldEffect_built s c.core c.wg c.sbase y f p
    have he : matrixEffect s c = bldEffect s c.core c.wg c.sbase y f p := by unfold matrixEffect; rw [hop]
    refine ⟨_, exec_matrixComplete hr (by rw [he, hrest]) hd, fun q hq r hrow j hj => ?_⟩
    have hkept : macroAt (matrixCompleteEffect s c) c.core (fmtFirst f + q) =
        macroAt (bldEffect s c.core c.wg c.sbase y f p) c.core (fmtFirst f + q) := by
      rw [matrixCompleteEffect_rest, he]
      rfl
    have hq' := hkept ▸ hbuilt q hq
    exact ⟨hq'.owner, hq'.element hf hrow hj⟩
  · show execMatrixCommandComplete core s = _
    unfold execMatrixCommandComplete
    rw [h]
  · exact macroAt_setMacro_self ..
  · exact (macroAt_setMacro_ne _ hne _).trans (congrArg (NMap.getD · _ _) (spillMacro_macros ..))
  · exact fun o x ho hx => spillMacro_group ho hx
  · show execMacroExchange core mac s = _
    unfold execMacroExchange
    rw [h]

end Sys2Proof.Machine
end

section
/-! Bytes written within one line at its home (R114, R115, R120, R123). -/

namespace Sys2Proof.Machine

/-! Addresses of one line. -/

theorem div_line_base (a : Nat) {k : Nat} (hk : 7 ≤ k) : 128 * (a / 128) / 2 ^ k = a / 2 ^ k := by
  obtain ⟨j, rfl⟩ : ∃ j, k = 7 + j := ⟨k - 7, by omega⟩
  rw [Nat.pow_add, ← Nat.div_div_eq_div_mul, ← Nat.div_div_eq_div_mul]
  congr 1
  omega

theorem frameOf_line_base (a : Nat) : frameOf (128 * (a / 128)) = frameOf a := by
  unfold frameOf bits
  rw [div_line_base a (by decide)]

theorem localFrame_line_base (pw a : Nat) : localFrame pw (128 * (a / 128)) = localFrame pw a := by
  unfold localFrame bits
  rw [frameOf_line_base, div_line_base a (by decide)]

theorem lineOf_line_base (a : Nat) : lineOf (128 * (a / 128)) = lineOf a := by
  unfold lineOf
  omega

theorem homePackage_line_base (s : State) (a : Nat) : s.homePackage (128 * (a / 128)) = s.homePackage a := by
  unfold State.homePackage
  rw [frameOf_line_base]

theorem backed_line_base (s : State) (a : Nat) : s.backed (128 * (a / 128)) = s.backed a := by
  unfold State.backed
  rw [homePackage_line_base, localFrame_line_base, lineOf_line_base, div_line_base a (by omega)]

/-- Bytes within one line touch one granule. -/
theorem granules_one_line {a n : Nat} (hn : 0 < n) (hle : a % 128 + n ≤ 128) : granules 128 a n = [a / 128] := by
  unfold granules
  rw [if_neg (by omega), show (a + n - 1) / 128 - a / 128 + 1 = 1 by omega]
  rfl

theorem linePieces_one_line {a n : Nat} (hn : 0 < n) (hle : a % 128 + n ≤ 128) : linePieces a n = [(0, a, n)] := by
  unfold linePieces
  rw [granules_one_line hn hle, List.map_singleton]
  dsimp only
  rw [show max a (a / 128 * 128) = a by omega, show min (a + n) (a / 128 * 128 + 128) = a + n by omega]
  simp

theorem rangeBacked_one_line {s : State} {a n : Nat} (hn : 0 < n) (hle : a % 128 + n ≤ 128) : rangeBacked s a n = s.backed a := by
  unfold rangeBacked
  rw [granules_one_line hn hle, List.all_cons, List.all_nil, Bool.and_true, backed_line_base]

/-! Sets of sectors. -/

theorem sectorBits_foldl (ks : List Nat) (b : BitVec 4) (i : Nat) (hi : i < 4) :
    (ks.foldl (fun b k => b ||| (1#4 <<< k)) b).getLsbD i = (b.getLsbD i || ks.contains i) := by
  induction ks generalizing b with
  | nil => simp
  | cons k ks ih =>
    rw [List.foldl_cons, ih, BitVec.getLsbD_or, List.contains_cons, Bool.or_assoc]
    congr 2
    rw [BitVec.getLsbD_shiftLeft, BitVec.getLsbD_one, beq_eq_decide]
    simp only [hi, decide_true, Bool.true_and]
    rw [← Bool.decide_and, ← decide_not, ← Bool.decide_and]
    exact decide_eq_decide.2 (by omega)

/-- The sector of byte i of a line, among those that bytes touch. -/
theorem sectorBits_touched {off n i : Nat} (hi : i < 128) :
    (sectorBits (sectorsTouched off n)).getLsbD (i / 32) = true ↔ 0 < n ∧ off / 32 ≤ i / 32 ∧ i / 32 ≤ (off + n - 1) / 32 := by
  unfold sectorBits sectorsTouched
  rw [sectorBits_foldl _ _ _ (by omega)]
  simp [mem_granules]

/-! Bytes of a patched line. -/

theorem getD_patch {data bs : List Byte} {off i : Nat} (hoff : off ≤ data.length) :
    (patch data off bs).getD i 0 = if off ≤ i ∧ i < off + bs.length then bs.getD (i - off) 0 else data.getD i 0 := by
  have hlen : (data.take off).length = off := List.length_take_of_le hoff
  simp only [patch, List.getD_eq_getElem?_getD, List.append_assoc]
  rcases Nat.lt_or_ge i off with hlt | hge
  · rw [if_neg (by omega), List.getElem?_append_left (by omega), List.getElem?_take_of_lt hlt]
  rw [List.getElem?_append_right (by omega), hlen]
  split
  · rw [List.getElem?_append_left (by omega)]
  · rw [List.getElem?_append_right (by omega), List.getElem?_drop]
    congr 2
    omega

/-! The write of a slice. -/

/-- Byte a of the pool after bytes written from pa on. -/
def byteAfter (s : State) (pa : Nat) (bs : List Byte) (a : Nat) : Byte := if pa ≤ a ∧ a < pa + bs.length then bs.getD (a - pa) 0 else s.homeByte a

theorem homeLine_getD (s : State) (line i : Nat) (hi : i < 128) : (s.homeLine line).1.getD i 0 = s.homeByte (line * 128 + i) := by
  simp [State.homeLine, State.homeRead, hi]

/-- The home bytes of a line that its slice holds. -/
theorem homeByte_setL2 (s : State) (line : Nat) (l : L2Line) (a : Nat) : (s.setL2 line l).homeByte a =
    if lineOf a = line then (if l.have'.getLsbD (a % 128 / 32) then l.data.getD (a % 128) 0 else s.mem.hbm.read a) else s.homeByte a := by
  unfold State.homeByte State.setL2
  dsimp only
  by_cases h : lineOf a = line
  · rw [if_pos h, h, NMap.find_insert_self]
  · rw [if_neg h, NMap.find_insert_ne h]

/-- A byte of a sector that the slice does not hold is that of the stack. -/
theorem homeByte_of_absent {s : State} {a : Nat}
    (h : ((s.mem.l2.find (lineOf a)).getD L2Line.empty).have'.getLsbD (a % 128 / 32) = false) : s.homeByte a = s.mem.hbm.read a := by
  unfold State.homeByte
  revert h
  cases s.mem.l2.find (lineOf a) with
  | none => exact fun _ => rfl
  | some l =>
    intro h
    exact if_neg (by simpa using h)

theorem sliceWrite_homeByte {s : State} {pa : Nat} {bs : List Byte} (p : Bool) (hd : s.dieDead pa = false) (hle : pa % 128 + bs.length ≤ 128) (a : Nat) :
    (s.sliceWrite pa bs p).homeByte a = byteAfter s pa bs a := by
  have hlive : State.dieDead { s with fresh := s.fresh + 1 } pa = false := hd
  unfold State.sliceWrite State.take byteAfter
  dsimp only
  rw [hlive, if_neg (by decide), homeByte_setL2]
  dsimp only
  have hi : a % 128 < 128 := Nat.mod_lt _ (by decide)
  have hlines : lineOf a = a / 128 ∧ lineOf pa = pa / 128 := ⟨rfl, rfl⟩
  split
  next hline =>
    have hsame : lineOf pa * 128 + a % 128 = a := by omega
    split
    next hnow =>
      rw [getD_patch (by simp; omega)]
      have hrange : pa % 128 ≤ a % 128 ∧ a % 128 < pa % 128 + bs.length ↔ pa ≤ a ∧ a < pa + bs.length := by omega
      by_cases hin : pa ≤ a ∧ a < pa + bs.length
      · rw [if_pos (hrange.2 hin), if_pos hin, show a % 128 - pa % 128 = a - pa by omega]
      · rw [if_neg (mt hrange.1 hin), if_neg hin]
        simp only [List.getD_eq_getElem?_getD, List.getElem?_map, List.getElem?_range hi, Option.map_some, Option.getD_some]
        rw [if_pos hnow, ← List.getD_eq_getElem?_getD, homeLine_getD _ _ _ hi, hsame]
        rfl
    next hnow =>
      obtain ⟨hbase, htouch⟩ := Bool.or_eq_false_iff.1 ((BitVec.getLsbD_or ..).symm.trans (Bool.eq_false_iff.2 hnow))
      have hout : ¬ (pa ≤ a ∧ a < pa + bs.length) := fun hin =>
        Bool.false_ne_true (htouch.symm.trans ((sectorBits_touched hi).2 ⟨by omega, by omega, by omega⟩))
      rw [if_neg hout, homeByte_of_absent (hline ▸ hbase)]
  next hline => rw [if_neg (by omega)]; rfl

/-! The write of the package's own hardware, within one line whose slice has a way. -/

theorem request_if_home (c : Prop) [Decidable c] (s : State) (line : Nat) : (if c then s.dramRequest line else s).mem = s.mem ∧
    (if c then s.dramRequest line else s).cfg = s.cfg := by
  split <;> exact ⟨rfl, rfl⟩

/-- A state with the memories and the configuration of another reads, and homes, the same. -/
theorem sliceHasWay_congr {s t : State} (h : t.mem = s.mem ∧ t.cfg = s.cfg) (line : Nat) : sliceHasWay t line = sliceHasWay s line := by
  unfold sliceHasWay sliceSet
  rw [h.1, h.2]

theorem slicePut_homeByte {s : State} {pa : Nat} {bs : List Byte} (p : Bool) (hway : sliceHasWay s (lineOf pa) = true) (hd : s.dieDead pa = false)
    (hle : pa % 128 + bs.length ≤ 128) (a : Nat) : (s.slicePut pa bs p).homeByte a = byteAfter s pa bs a := by
  unfold State.slicePut
  dsimp only
  rw [show s.makeWay (lineOf pa) = s from if_pos hway]
  generalize ((sectorsTouched (pa % 128) bs.length).any _) = c
  have hu := request_if_home (c = true) s (lineOf pa)
  generalize (if c = true then s.dramRequest (lineOf pa) else s) = u at hu ⊢
  have hlive : u.dieDead pa = false := (congrArg (fun c => c.deadSlices.getLsbD (sliceOfLine (lineOf pa))) hu.2).trans hd
  rw [if_pos ((sliceHasWay_congr hu _).trans hway), sliceWrite_homeByte p hlive hle]
  unfold byteAfter State.homeByte
  rw [hu.1]

theorem delivered_homes (s : State) (line : Nat) (f : L1Line → L1Line) (cs : List Nat) :
    (cs.foldl (fun s c => (s.onL1 c line f).wakeCore c line) s).mem.l2 = s.mem.l2 ∧
    (cs.foldl (fun s c => (s.onL1 c line f).wakeCore c line) s).mem.hbm = s.mem.hbm := by
  induction cs generalizing s with
  | nil => exact ⟨rfl, rfl⟩
  | cons c cs ih => exact ih _

theorem hwWriteLine_homeByte {s : State} {pa : Nat} {bs : List Byte} (p : Bool) (hway : sliceHasWay s (lineOf pa) = true) (hd : s.dieDead pa = false)
    (hle : pa % 128 + bs.length ≤ 128) (a : Nat) : (s.hwWriteLine pa bs p).homeByte a = byteAfter s pa bs a := by
  rw [← slicePut_homeByte p hway hd hle]
  unfold State.hwWriteLine
  generalize s.slicePut pa bs p = u
  dsimp only
  generalize List.range 128 = cs
  unfold State.homeByte
  rw [(delivered_homes ..).1, (delivered_homes ..).2]

/-- A write of this package within one line of the pool, whose slice has a way for it. -/
theorem poolWrite_homeByte {s : State} {pa : Nat} {bs : List Byte} (hhere : s.homePackage pa = s.cfg.pkg) (hn : bs ≠ [])
    (hway : sliceHasWay s (lineOf pa) = true) (hd : s.dieDead pa = false) (hle : pa % 128 + bs.length ≤ 128) (a : Nat) :
    (s.poolWrite pa bs).homeByte a = byteAfter s pa bs a := by
  have hpos : 0 < bs.length := List.length_pos_iff.2 hn
  unfold State.poolWrite
  rw [linePieces_one_line hpos hle]
  dsimp only [List.foldl]
  rw [if_pos (by simpa using hhere), List.drop_zero, List.take_length]
  unfold State.hwWrite
  rw [linePieces_one_line hpos hle]
  dsimp only [List.foldl]
  rw [List.drop_zero, List.take_length]
  exact hwWriteLine_homeByte false hway hd hle a

theorem poolWrite_here {s : State} {pa : Nat} {bs : List Byte} (hhere : s.homePackage pa = s.cfg.pkg) (hle : pa % 128 + bs.length ≤ 128) :
    HomeWritten s (s.poolWrite pa bs) := by
  unfold State.poolWrite
  rcases Nat.eq_zero_or_pos bs.length with h0 | hpos
  · rw [h0]; exact .refl s
  · rw [linePieces_one_line hpos hle]
    dsimp only [List.foldl]
    rw [if_pos (by simpa using hhere)]
    exact .hwWrite ..

end Sys2Proof.Machine
end

section
/-! Registers, counters, the rack queue and the window of the host (R106, R149, R244, R245, R414, R418, R425, R429, R431). -/

namespace Sys2Proof.Machine

/-! Counters. -/

theorem counterClear_happens (off : Nat) : Happens (.counterClear off)
    (fun s => off % 4 = 0 ∧ saturating off = true ∧ counterUp s off = true)
    (fun s t => t.count off = 0 ∧ (∀ k, k ≠ off → t.count k = s.count k) ∧ t = { s with counts := t.counts }) := by
  refine happens_of (fun _ => rfl) fun s ⟨halign, hsat, hup⟩ => ?_
  have hclear : clearCounter s off = { s with counts := s.counts.erase off } := by rw [clearCounter, hsat, hup]; rfl
  rw [halign, hclear]
  refine ⟨?_, fun k hk => ?_, rfl⟩
  · exact congrArg (·.getD 0) (NMap.find_erase_self off s.counts)
  · exact congrArg (·.getD 0) (NMap.find_erase_ne hk s.counts)

theorem counterClear_idle (off : Nat) : Idle (.counterClear off) fun s => off % 4 ≠ 0 ∨ saturating off = false ∨ counterUp s off = false := by
  refine idle_of (fun _ => rfl) fun s hs => ?_
  unfold clearCounter
  rcases hs with h | h | h
  · rw [if_neg (by simpa using h)]
  · rw [h]; exact ite_self s
  · rw [h, Bool.and_false]; exact ite_self s

/-! Registers. -/

/-- The identity and status block takes no write. -/
theorem writeDword_identity (s : State) {off : Nat} (v : Nat) (low : Bool) (h : off < 0x40) : writeDword s off v low = s := by
  unfold writeDword
  rw [if_neg (by simp; omega), if_neg (by simp; omega), if_neg (by simp; omega), if_neg (by simp; omega), if_neg (by simp; omega),
    if_neg (by simp; omega), if_neg (by simp; omega), if_neg (by simp; omega), if_neg (by simp; omega), if_neg (by simp; omega)]

theorem configWrite_bad (s : State) {off size : Nat} (v : DWord) (h : (size ≠ 4 ∧ size ≠ 8) ∨ off % size ≠ 0 ∨ (size = 8 ∧ off < 0x40)) :
    configWrite s off size v = s := by
  have h4 : ¬ ((size == 4 && off % 4 == 0) = true) := by
    simp only [Bool.and_eq_true, beq_iff_eq]
    rintro ⟨rfl, _⟩
    omega
  unfold configWrite
  rw [if_neg h4]
  split
  next h8 =>
    obtain ⟨rfl, halign⟩ : size = 8 ∧ off % 8 = 0 := by simpa using h8
    have hlow : off < 0x40 := by omega
    rw [if_neg (by unfold wordBlock; simp; omega), writeDword_identity s _ _ hlow]
  next => rfl

theorem configRegisterWrite_idle (off size : Nat) (v : BitVec 64) :
    Idle (.configRegisterWrite off size v) fun _ => (size ≠ 4 ∧ size ≠ 8) ∨ off % size ≠ 0 ∨ (size = 8 ∧ off < 0x40) :=
  idle_of (fun _ => rfl) fun s h => configWrite_bad s v h

theorem functionMode_write (s : State) (v : DWord) : configWrite s 0x1008 8 v =
    if s.att.stage == 0 then s else { s with cfg := { s.cfg with functionMode := BitVec.ofNat 32 (v.toNat % 2 ^ 7) } } := rfl

theorem functionMode_happens (v : BitVec 64) : Happens (.configRegisterWrite 0x1008 8 v) (fun s => s.att.stage ≠ 0)
    (fun s t => t = { s with cfg := { s.cfg with functionMode := BitVec.ofNat 32 (v.toNat % 2 ^ 7) } }) :=
  happens_of (fun s => congrArg Host.Outcome.next (functionMode_write s v)) fun _ h => if_neg (by simpa using h)

theorem functionMode_idle (v : BitVec 64) : Idle (.configRegisterWrite 0x1008 8 v) fun s => s.att.stage = 0 :=
  idle_of (fun s => congrArg Host.Outcome.next (functionMode_write s v)) fun _ h => if_pos (by simpa using h)

theorem cfg32_setCfg32_self (s : State) (o v : Nat) : (s.setCfg32 o v).cfg32 o = v % 2 ^ 32 :=
  congrArg (·.getD 0) (NMap.find_insert_self o (v % 2 ^ 32) s.att.regs)

theorem cfg32_setCfg32_ne (s : State) {o j : Nat} (v : Nat) (h : j ≠ o) : (s.setCfg32 o v).cfg32 j = s.cfg32 j :=
  congrArg (·.getD 0) (NMap.find_insert_ne h (v % 2 ^ 32) s.att.regs)

theorem cfg64_setCfg64_self (s : State) (o : Nat) {v : Nat} (hv : v < 2 ^ 64) : (s.setCfg64 o v).cfg64 o = v := by
  unfold State.cfg64 State.setCfg64
  rw [cfg32_setCfg32_self, cfg32_setCfg32_ne _ _ (by omega), cfg32_setCfg32_self]
  omega

theorem boundRegister_write (s : State) {index : Nat} (v : BitVec 64) (h : index < 8) :
    configWrite s (0x4000 + 8 * index) 8 v = s.setCfg64 (0x4000 + 8 * index) v.toNat := by
  unfold configWrite
  rw [if_neg (by simp), if_pos (by simp [Nat.add_mod]), if_neg (by unfold wordBlock; simp; omega)]
  unfold writeDword
  rw [if_neg (by simp; omega), if_neg (by simp; omega), if_neg (by simp; omega), if_pos (by simp; omega)]

theorem boundRegister_happens (index : Nat) (v : BitVec 64) : Happens (.configRegisterWrite (0x4000 + 8 * index) 8 v) (fun _ => index < 8)
    (fun s t => t.cfg64 (0x4000 + 8 * index) = v.toNat ∧ (∀ o, o / 8 ≠ 0x800 + index → t.cfg32 o = s.cfg32 o) ∧
      t = { s with att := { s.att with regs := t.att.regs } }) := by
  refine happens_of (fun _ => rfl) fun s h => ?_
  rw [boundRegister_write s v h]
  refine ⟨cfg64_setCfg64_self s _ v.isLt, fun o ho => ?_, rfl⟩
  exact (cfg32_setCfg32_ne _ _ (by omega)).trans (cfg32_setCfg32_ne _ _ (by omega))

theorem fabricConfigWrite_happens (epoch off size : Nat) (v : BitVec 64) : Happens (.fabricConfigWrite epoch off size v)
    (fun s => epoch = s.att.epoch) (fun s t => exec (.configRegisterWrite off size v) s = .next t) :=
  happens_of (fun _ => rfl) fun _ h => congrArg Host.Outcome.next (if_pos (by simpa using h)).symm

theorem fabricConfigWrite_idle (epoch off size : Nat) (v : BitVec 64) : Idle (.fabricConfigWrite epoch off size v) fun s => epoch ≠ s.att.epoch :=
  idle_of (fun _ => rfl) fun _ h => if_neg (by simpa using h)

/-! The rack command queue. -/

theorem rackReserve_eq (s : State) : rackReserve s = if s.rackRoot != s.cfg.pkg || rackFull s then
      { s with att := { s.att with answer := leBytes 8 (rackRegister s 2) } }
    else { s with
      dist := { s.dist with rackReserved := s.dist.rackReserved + 1 }
      att := { s.att with answer := leBytes 8 (rackRegister s 2) } } := rfl

theorem rackQueueReserve_open : Happens .rackQueueReserve (fun s => s.rackRoot = s.cfg.pkg ∧ rackFull s = false) fun s t => t = { s with
    dist := { s.dist with rackReserved := s.dist.rackReserved + 1 }
    att := { s.att with answer := leBytes 8 (s.dist.rackReserved % 2 ^ 32) } } := by
  refine happens_of (fun _ => rfl) fun s ⟨hroot, hfull⟩ => ?_
  have hv : rackRegister s 2 = s.dist.rackReserved % 2 ^ 32 := by simp [rackRegister, hroot, hfull]
  rw [rackReserve_eq, hv]
  exact if_neg (by simpa using ⟨hroot, hfull⟩)

theorem rackQueueReserve_full : Happens .rackQueueReserve (fun s => s.rackRoot = s.cfg.pkg ∧ rackFull s = true) fun s t =>
    t = { s with att := { s.att with answer := leBytes 8 (2 ^ 32) } } := by
  refine happens_of (fun _ => rfl) fun s ⟨hroot, hfull⟩ => ?_
  have hv : rackRegister s 2 = 2 ^ 32 := by simp [rackRegister, hroot, hfull]
  rw [rackReserve_eq, hv]
  exact if_pos (by simpa using Or.inr hfull)

theorem rackQueueReserve_elsewhere : Happens .rackQueueReserve (fun s => ¬ s.rackRoot = s.cfg.pkg) fun s t =>
    t = { s with att := { s.att with answer := leBytes 8 0 } } := by
  refine happens_of (fun _ => rfl) fun s hroot => ?_
  have hv : rackRegister s 2 = 0 := by simp [rackRegister, hroot]
  rw [rackReserve_eq, hv]
  exact if_pos (by simpa using Or.inl hroot)

theorem rackQueuePublish_happens (index : Nat) : Happens (.rackQueuePublish index)
    (fun s => s.rackRoot = s.cfg.pkg ∧ s.dist.rackHead ≤ index ∧ index < s.dist.rackReserved ∧ index ∉ s.dist.published)
    (fun s t => t = { s with dist := { s.dist with published := s.dist.published ++ [index] } }) :=
  happens_of (fun _ => rfl) fun _ ⟨hroot, hhead, hres, hnew⟩ => if_pos (by simp [hroot, hhead, hres, hnew])

theorem rackQueuePublish_idle (index : Nat) : Idle (.rackQueuePublish index) fun s =>
    ¬ s.rackRoot = s.cfg.pkg ∨ index < s.dist.rackHead ∨ s.dist.rackReserved ≤ index ∨ index ∈ s.dist.published := by
  refine idle_of (fun _ => rfl) fun s h => if_neg ?_
  simp only [Bool.and_eq_true, beq_iff_eq, decide_eq_true_eq, Bool.not_eq_true', List.contains_eq_mem, decide_eq_false_iff_not]
  rintro ⟨⟨⟨hroot, hhead⟩, hres⟩, hnew⟩
  rcases h with h | h | h | h
  · exact h hroot
  · omega
  · omega
  · exact hnew h

/-! The window of the host. -/

/-- Where a write that fits the window, and is ready, goes. -/
theorem exec_hostPostedWrite {s : State} {off : Nat} {data : List Byte} (hfit : off + data.length ≤ 2 ^ 36)
    (hready : hostReady s (s.cfg64 0x1020 + off) data.length = true) : exec (.hostPostedWrite off data) s = .next
      (if onChip (s.cfg64 0x1020 + off) then hostChipWrite s (s.cfg64 0x1020 + off) data
      else if rangeBacked s (s.cfg64 0x1020 + off) data.length then s.poolWrite (s.cfg64 0x1020 + off) data else s) := by
  show execHostPostedWrite off data s = _
  unfold execHostPostedWrite windowAddr
  dsimp only
  rw [hready, if_neg (by simpa using hfit)]

theorem hostPostedWrite_backed (off : Nat) (data : List Byte) : Happens (.hostPostedWrite off data)
    (fun s => (off + data.length ≤ 2 ^ 36 ∧ hostReady s (s.cfg64 0x1020 + off) data.length = true) ∧ onChip (s.cfg64 0x1020 + off) = false ∧
      rangeBacked s (s.cfg64 0x1020 + off) data.length = true)
    (fun s t => t = s.poolWrite (s.cfg64 0x1020 + off) data) := by
  rintro s ⟨⟨hfit, hready⟩, hchip, hback⟩
  refine ⟨_, exec_hostPostedWrite hfit hready, ?_⟩
  rw [hchip, if_neg (by decide), if_pos hback]

theorem hostPostedWrite_scratch (off : Nat) (data : List Byte) (core o : Nat) : Happens (.hostPostedWrite off data)
    (fun s => (off + data.length ≤ 2 ^ 36 ∧ hostReady s (s.cfg64 0x1020 + off) data.length = true) ∧ onChip (s.cfg64 0x1020 + off) = true ∧
      hostPlace s (s.cfg64 0x1020 + off) data.length = some (core, 1, o))
    (fun s t => t = s.onScratch fun m => m.writeMarked (scratchAddr core o) (data.map (·, false))) := by
  rintro s ⟨⟨hfit, hready⟩, hchip, hplace⟩
  refine ⟨_, exec_hostPostedWrite hfit hready, ?_⟩
  rw [if_pos hchip]
  unfold hostChipWrite
  rw [hplace]
  rfl

theorem hostPostedWrite_line (off : Nat) (data : List Byte) : Happens (.hostPostedWrite off data)
    (fun s => (off + data.length ≤ 2 ^ 36 ∧ hostReady s (s.cfg64 0x1020 + off) data.length = true) ∧ onChip (s.cfg64 0x1020 + off) = false ∧
      sliceHasWay s (lineOf (s.cfg64 0x1020 + off)) = true ∧ (s.cfg64 0x1020 + off) % 128 + data.length ≤ 128 ∧ data ≠ [] ∧
      s.homed (s.cfg64 0x1020 + off) = true ∧ s.mem.hbm.wf = true ∧ s.dieDead (s.cfg64 0x1020 + off) = false)
    (fun s t => (∀ a, t.homeByte a = if s.cfg64 0x1020 + off ≤ a ∧ a < s.cfg64 0x1020 + off + data.length then
        data.getD (a - (s.cfg64 0x1020 + off)) 0 else s.homeByte a) ∧ t.work = s.work ∧ t.eng = s.eng ∧ t.fab = s.fab) := by
  rintro s ⟨hline, hchip, hway, hle, hdata, hhomed, -, hlive⟩
  obtain ⟨hback, hhere⟩ : s.backed (s.cfg64 0x1020 + off) = true ∧ s.homePackage (s.cfg64 0x1020 + off) = s.cfg.pkg := by
    simpa [State.homed] using hhomed
  have hrange := (rangeBacked_one_line (s := s) (List.length_pos_iff.2 hdata) hle).trans hback
  obtain ⟨t, ht, rfl⟩ := hostPostedWrite_backed off data s ⟨hline, hchip, hrange⟩
  have hrest := (poolWrite_here hhere hle).rest
  exact ⟨_, ht, poolWrite_homeByte hhere hdata hway hlive hle, by rw [hrest], by rw [hrest], by rw [hrest]⟩

theorem hostPostedWrite_idle (off : Nat) (data : List Byte) : Idle (.hostPostedWrite off data) fun s => 2 ^ 36 < off + data.length ∨
    (onChip (s.cfg64 0x1020 + off) = false ∧ rangeBacked s (s.cfg64 0x1020 + off) data.length = false) ∨
    (onChip (s.cfg64 0x1020 + off) = true ∧ hostPlace s (s.cfg64 0x1020 + off) data.length = none) := by
  intro s h
  by_cases hready : off + data.length ≤ 2 ^ 36 ∧ hostReady s (s.cfg64 0x1020 + off) data.length = true
  · rw [exec_hostPostedWrite hready.1 hready.2]
    rcases h with h | ⟨hchip, hback⟩ | ⟨hchip, hplace⟩
    · omega
    · rw [hchip, hback]; rfl
    · rw [if_pos hchip, hostChipWrite, hplace]
  · exact congrArg Host.Outcome.next (if_pos (by simpa [windowAddr, Nat.not_le, or_iff_not_imp_left] using hready))

/-- What a read that fits the window, and is ready, does. -/
theorem exec_hostRead {s : State} {off size : Nat} (hfit : off + size ≤ 2 ^ 36) (hready : hostReady s (s.cfg64 0x1020 + off) size = true) :
    exec (.hostRead off size) s = .next (hostReadEffect s (s.cfg64 0x1020 + off) size) :=
  congrArg Host.Outcome.next (if_pos (by simpa [windowAddr] using ⟨hfit, hready⟩))

theorem hostRead_ones (off size : Nat) : Happens (.hostRead off size)
    (fun s => (off + size ≤ 2 ^ 36 ∧ hostReady s (s.cfg64 0x1020 + off) size = true) ∧
      ((onChip (s.cfg64 0x1020 + off) = false ∧ rangeBacked s (s.cfg64 0x1020 + off) size = false) ∨
        (onChip (s.cfg64 0x1020 + off) = true ∧ hostPlace s (s.cfg64 0x1020 + off) size = none)))
    (fun s t => t = { s with att := { s.att with answer := List.replicate size 0xFF } }) := by
  rintro s ⟨⟨hfit, hready⟩, hplace⟩
  refine ⟨_, exec_hostRead hfit hready, ?_⟩
  unfold hostReadEffect
  rcases hplace with ⟨hchip, hback⟩ | ⟨hchip, hplace⟩
  · rw [hchip, if_neg (by decide), hback]; rfl
  · rw [if_pos hchip, hplace]

theorem hostRead_chip (off size core window o : Nat) : Happens (.hostRead off size)
    (fun s => (off + size ≤ 2 ^ 36 ∧ hostReady s (s.cfg64 0x1020 + off) size = true) ∧ onChip (s.cfg64 0x1020 + off) = true ∧
      hostPlace s (s.cfg64 0x1020 + off) size = some (core, window, o))
    (fun s t => t = { s with att := { s.att with answer := (List.range size).map fun i => (chipByte s core window (o + i)).1 } }) := by
  rintro s ⟨⟨hfit, hready⟩, hchip, hplace⟩
  refine ⟨_, exec_hostRead hfit hready, ?_⟩
  unfold hostReadEffect
  rw [if_pos hchip, hplace]

theorem hostRead_pool (off size : Nat) (bs : List Byte) (p : Bool) : Happens (.hostRead off size)
    (fun s => (off + size ≤ 2 ^ 36 ∧ hostReady s (s.cfg64 0x1020 + off) size = true) ∧ onChip (s.cfg64 0x1020 + off) = false ∧
      rangeBacked s (s.cfg64 0x1020 + off) size = true ∧ s.poolRead (s.cfg64 0x1020 + off) size = some (bs, p))
    (fun s t => t.att = { s.att with answer := bs } ∧ t.thr = s.thr ∧ t.mem = s.mem ∧ t.work = s.work) := by
  rintro s ⟨⟨hfit, hready⟩, hchip, hback, hread⟩
  refine ⟨_, exec_hostRead hfit hready, ?_⟩
  unfold hostReadEffect
  rw [hchip, if_neg (by decide), hback, hread]
  exact ⟨rfl, rfl, rfl, rfl⟩

theorem hostRead_idle (off size : Nat) : Idle (.hostRead off size) fun _ => 2 ^ 36 < off + size :=
  idle_of (fun _ => rfl) fun _ h => if_neg (by simp; omega)

/-- Settles O54: each write, read and reservation has its own effect; bytes within one line reach their home slice. -/
theorem hostEvents : Obligations.HostEvents := by
  unfold Obligations.HostEvents
  intro off size v epoch index data bs p core window o
  dsimp only
  exact ⟨counterClear_happens off, counterClear_idle off, configRegisterWrite_idle off size v,
    happens_of (fun _ => rfl) fun _ _ => rfl, functionMode_happens v, functionMode_idle v, boundRegister_happens index v,
    fabricConfigWrite_happens epoch off size v, fabricConfigWrite_idle epoch off size v,
    rackQueueReserve_open, rackQueueReserve_full, rackQueueReserve_elsewhere, rackQueuePublish_happens index, rackQueuePublish_idle index,
    hostPostedWrite_backed off data, hostPostedWrite_scratch off data core o, hostPostedWrite_line off data, hostPostedWrite_idle off data,
    hostRead_ones off size, hostRead_chip off size core window o, hostRead_pool off size bs p, hostRead_idle off size⟩

end Sys2Proof.Machine
end

section
/-! Fences and cache operations (R101, R102, R129, R134, R135, R138, R337, R338). -/

namespace Sys2Proof.Machine

/-! Fences: the accesses that count (R129, R135, R138). -/

/-- A fence gives each lane its order, from the state at its issue. -/
theorem fence_effects {i : Instr} {f : State → Group → Nat → Lane → Lane}
    (he : ∀ s, exec i s = issueWord i (fun g s => runFenceWith (fun s l x => f s g l x) g s) s) :
    LaneEffects i always fun b g _ l x => f b g l x :=
  achieves_of he fun g _ s _ h hv _ =>
    ⟨[], _, rfl, foldLanes_changed (fun l x => f (s.issuing g) g l x) hv h.lanes fun l hl => (h.lengths hv l hl).2⟩

theorem mem_stillPending {s : State} {ids : List Nat} {id : Nat} : id ∈ s.stillPending ids ↔ id ∈ ids ∧ s.pending id = true := List.mem_filter

theorem mem_fenceSet (s : State) (x : Lane) (t : Agent) (scope : Nat) (u : Bool) (id : Nat) :
    id ∈ fenceSet s x t scope u ↔ s.pending id = true ∧ ((scope ≠ 0 ∧ id ∈ x.seen) ∨ id ∈ s.exchOf t ∨ ∃ o, (id, o) ∈ s.threadOps t ∧
      (u = true ∨ o.kind ≠ 2) ∧ (scope = 0 → ∀ w, o = .write w → w.atom.isSome = true)) := by
  have hseen : id ∈ (if scope == 0 then [] else x.seen) ↔ scope ≠ 0 ∧ id ∈ x.seen := by
    by_cases h : scope = 0 <;> simp [h]
  unfold fenceSet
  rw [mem_stillPending, List.mem_append, List.mem_append, hseen, List.mem_filterMap]
  constructor
  · rintro ⟨(⟨⟨n, o⟩, ho, hcounts⟩ | hx) | hs, hpend⟩
    · obtain ⟨hkept, hn⟩ := Option.ite_none_left_eq_some.1 hcounts
      obtain rfl := Option.some.inj hn
      refine ⟨hpend, .inr (.inr ⟨o, ho, ?_⟩)⟩
      cases o with
      | load o => cases u <;> simp at hkept ⊢; exact hkept
      | write w => cases u <;> simpa [Option.isSome_iff_ne_none] using hkept
    · exact ⟨hpend, .inr (.inl hx)⟩
    · exact ⟨hpend, .inl hs⟩
  · rintro ⟨hpend, hs | hx | ⟨o, ho, hkind, hplain⟩⟩
    · exact ⟨.inr hs, hpend⟩
    · exact ⟨.inl (.inr hx), hpend⟩
    · refine ⟨.inl (.inl ⟨(id, o), ho, Option.ite_none_left_eq_some.2 ⟨?_, rfl⟩⟩), hpend⟩
      cases o with
      | load o => cases u <;> simp at hkind ⊢; exact hkind
      | write w =>
        have hatom : scope = 0 → w.atom.isSome = true := fun h => hplain h w rfl
        cases u with
        | false => simpa [← Option.isSome_iff_ne_none] using And.intro (hkind.resolve_left (by decide)) hatom
        | true => simpa [← Option.isSome_iff_ne_none] using hatom

theorem mem_earlierLoads (s : State) (t : Agent) (id : Nat) :
    id ∈ earlierLoads s t ↔ ∃ o, (id, o) ∈ s.threadOps t ∧ o.kind ≠ 2 ∧ ∀ w, o = .write w → w.lanes ≠ [] := by
  unfold earlierLoads
  rw [List.mem_filterMap]
  constructor
  · rintro ⟨⟨n, o⟩, ho, hcounts⟩
    obtain ⟨hkept, hn⟩ := Option.ite_none_right_eq_some.1 hcounts
    obtain rfl := Option.some.inj hn
    refine ⟨o, ho, ?_⟩
    cases o with
    | load o => simpa using hkept
    | write w => simpa [and_comm] using hkept
  · rintro ⟨o, ho, hkind, hlanes⟩
    refine ⟨(id, o), ho, Option.ite_none_right_eq_some.2 ⟨?_, rfl⟩⟩
    cases o with
    | load o => simpa using hkind
    | write w => simpa using ⟨hlanes w rfl, hkind⟩

/-! Cache operations on the lanes' lines (R338). -/

/-- Lane l's line, which it reaches in the global segment. -/
def lineAt (a : BitVec 7) (E : Nat → TlbEntry) (b : State) (g : Group) (v : Warp) (l : Nat) : Nat := placeOf b g v a false E l / 128

/-- A cache operation whose lanes' checks pass takes the lanes' lines in turn. -/
theorem runCacheOp_done {a : BitVec 7} {access : Nat} {g : Group} {b : State} {v : Warp} {E : Nat → TlbEntry} (f : Nat → State → State)
    (hv : b.warpAt g.key = some v) (hu : v.protected' = false) (hr : reaches a 1 access false false E b g v) : ∃ sigs tlb,
    runCacheOp a access (fun x s => f (lineOf x.pa) s) g b = .done sigs ((g.lanes.map (lineAt a E b g v)).foldl (fun s n => f n s)
      { b with mem := { b.mem with l1tlb := tlb } }) := by
  obtain ⟨tlb, htlb⟩ := useEntries_eq b g.core (g.lanes.map (accessOf b g v a false E))
  have hall : (g.lanes.map (accessOf b g v a false E)).filter (fun x => (accessLanes v g.lanes).contains x.lane) =
      g.lanes.map (accessOf b g v a false E) := by
    rw [accessLanes_unprotected hu]
    exact List.filter_eq_self.2 fun x hx => by
      obtain ⟨l, hl, rfl⟩ := List.mem_map.1 hx
      simpa [accessOf] using hl
  refine ⟨addrSigs b g v a false, tlb, ?_⟩
  unfold runCacheOp
  rw [hv]
  dsimp only
  rw [planAccess_reaches hr]
  dsimp only
  rw [hall, htlb, List.foldl_map, List.foldl_map]
  rfl

/-! `cflush`: lines leave the L1 and the instruction cache. -/

/-- t is s with lines removed from a core's caches. -/
structure LinesFlushed (s t : State) (core : Nat) (lines : List Nat) : Prop where
  gone : ∀ n ∈ lines, t.mem.l1.find (l1Key core n) = none
  others : ∀ k, (∀ n ∈ lines, k ≠ l1Key core n) → t.mem.l1.find k = s.mem.l1.find k
  absent : ∀ k, s.mem.l1.find k = none → t.mem.l1.find k = none
  icache : t.mem.icache = s.mem.icache.filter fun x => !(x.1 / 2 ^ 61 == core && lines.any fun n => x.2.pline == n)
  warps : ∀ k, (t.warpAt k).map Warp.unwatched = (s.warpAt k).map Warp.unwatched
  rest : t = { s with
    mem := { s.mem with l1 := t.mem.l1, icache := t.mem.icache, notices := t.mem.notices }
    thr := { s.thr with warps := t.thr.warps } }

theorem loseL1_find_self (s : State) (core line : Nat) (notice : Bool) : (s.loseL1 core line notice).mem.l1.find (l1Key core line) = none := by
  unfold State.loseL1
  split
  next h => exact h
  next => cases notice <;> exact NMap.find_erase_self ..

theorem loseL1_find_ne (s : State) {core line k : Nat} (notice : Bool) (h : k ≠ l1Key core line) :
    (s.loseL1 core line notice).mem.l1.find k = s.mem.l1.find k := by
  unfold State.loseL1
  split
  next => rfl
  next => cases notice <;> exact NMap.find_erase_ne h ..

theorem flushLine_flushed (s : State) (core n : Nat) : LinesFlushed s ((s.loseL1 core n true).dropICache core n) core [n] := by
  have hrest := loseL1_rest s core n true
  have hself := loseL1_find_self s core n true
  have hne := fun k => loseL1_find_ne s (core := core) (line := n) (k := k) true
  have hwarps := (HomeWritten.loseL1 s core n true).warps
  generalize s.loseL1 core n true = t at hrest hself hne hwarps ⊢
  refine ⟨fun m hm => ?_, fun k hk => hne k (hk n List.mem_cons_self), fun k hk => ?_, ?_, hwarps, ?_⟩
  · rw [List.mem_singleton.1 hm]; exact hself
  · by_cases h : k = l1Key core n
    · rw [h]; exact hself
    · exact (hne k h).trans hk
  · have hicache : t.mem.icache = s.mem.icache := by rw [hrest]
    simp only [State.dropICache, hicache, List.any_cons, List.any_nil, Bool.or_false]
  · generalize hi : (t.dropICache core n).mem.icache = kept
    have hdrop : t.dropICache core n = { t with mem := { t.mem with icache := kept } } := by rw [← hi]; rfl
    conv_lhs => rw [hdrop, hrest]
    rfl

theorem LinesFlushed.trans {s t u : State} {core : Nat} {xs ys : List Nat} (h : LinesFlushed s t core xs) (h' : LinesFlushed t u core ys) :
    LinesFlushed s u core (xs ++ ys) := by
  refine ⟨fun n hn => ?_, fun k hk => ?_, fun k hk => h'.absent k (h.absent k hk), ?_, fun k => (h'.warps k).trans (h.warps k), ?_⟩
  · rcases List.mem_append.1 hn with hn | hn
    · exact h'.absent _ (h.gone n hn)
    · exact h'.gone n hn
  · exact (h'.others k fun n hn => hk n (List.mem_append_right _ hn)).trans (h.others k fun n hn => hk n (List.mem_append_left _ hn))
  · rw [h'.icache, h.icache, List.filter_filter]
    refine List.filter_congr fun x _ => ?_
    rw [List.any_append, Bool.and_or_distrib_left, Bool.not_or, Bool.and_comm]
  · conv_lhs => rw [h'.rest, h.rest]

theorem flushLines_flushed (core : Nat) (lines : List Nat) (s : State) :
    LinesFlushed s (lines.foldl (fun s n => (s.loseL1 core n true).dropICache core n) s) core lines := by
  induction lines generalizing s with
  | nil => exact ⟨by simp, fun _ _ => rfl, fun _ h => h, by simp, fun _ => rfl, rfl⟩
  | cons n lines ih => exact (flushLine_flushed s core n).trans (ih _)

/-! `cdemote`: lines lose their hint. -/

theorem classDemoted_twice (c : Nat) : classDemoted (classDemoted c) = classDemoted c := by
  unfold classDemoted
  split <;> simp_all

theorem demoteLines_rest (core : Nat) (lines : List Nat) (s : State) :
    lines.foldl (fun s n => s.onL1 core n fun x => { x with cls := classDemoted x.cls }) s = { s with mem := { s.mem with
      l1 := (lines.foldl (fun s n => s.onL1 core n fun x => { x with cls := classDemoted x.cls }) s).mem.l1 } } := by
  induction lines generalizing s with
  | nil => rfl
  | cons n lines ih => rw [List.foldl_cons, ih]; rfl

theorem demoteLines_find (core k : Nat) (lines : List Nat) (s : State) :
    (lines.foldl (fun s n => s.onL1 core n fun x => { x with cls := classDemoted x.cls }) s).mem.l1.find k =
      if ∃ n ∈ lines, k = l1Key core n then (s.mem.l1.find k).map fun x => { x with cls := classDemoted x.cls } else s.mem.l1.find k := by
  induction lines generalizing s with
  | nil => simp
  | cons n lines ih =>
    rw [List.foldl_cons, ih]
    by_cases hn : k = l1Key core n
    · have hself : (s.onL1 core n fun x => { x with cls := classDemoted x.cls }).mem.l1.find k =
          (s.mem.l1.find k).map fun x => { x with cls := classDemoted x.cls } := by rw [hn]; exact NMap.find_adjust_self ..
      rw [hself, Option.map_map, Function.comp_def]
      simp only [classDemoted_twice, ite_self]
      exact (if_pos ⟨n, List.mem_cons_self, hn⟩).symm
    · rw [show (s.onL1 core n fun x => { x with cls := classDemoted x.cls }).mem.l1.find k = s.mem.l1.find k from NMap.find_adjust_ne hn ..]
      simp [hn]

/-! `cpref`: present lines rise, absent ones are asked for (R101, R102). -/

theorem classAfter_twice (c h : Nat) : classAfter (classAfter c h) h = classAfter c h := by
  match c, h with
  | 0, 0 | 0, 1 | 0, 2 | 0, _ + 3 => rfl
  | 1, 0 | 1, 1 | 1, _ + 2 => rfl
  | _ + 2, _ => rfl

/-- t is s after prefetches of lanes' lines: `line` and `op` are a lane's line and the load that brings it. -/
structure Prefetched (s t : State) (core hint : Nat) (line : Nat → Nat) (op : Nat → MemOp) (ls : List Nat) : Prop where
  present : ∀ k x, (∃ l ∈ ls, k = l1Key core (line l)) → s.mem.l1.find k = some x →
    ∃ age ≥ s.fresh, t.mem.l1.find k = some { x with cls := classAfter x.cls hint, age := age }
  absent : ∀ k, s.mem.l1.find k = none → t.mem.l1.find k = none
  others : ∀ k, (¬ ∃ l ∈ ls, k = l1Key core (line l)) → t.mem.l1.find k = s.mem.l1.find k
  asked : ∀ l ∈ ls, s.mem.l1.find (l1Key core (line l)) = none → ∃ id, s.fresh ≤ id ∧ id < t.fresh ∧ t.mem.ops.find id = some (op l)
  older : ∀ id < s.fresh, t.mem.ops.find id = s.mem.ops.find id
  fresh : s.fresh ≤ t.fresh
  rest : t = { s with
    mem := { s.mem with l1 := t.mem.l1, l1tlb := t.mem.l1tlb, ops := t.mem.ops, walkFaults := t.mem.walkFaults }
    fresh := t.fresh }

theorem Prefetched.trans {s t u : State} {core hint : Nat} {line : Nat → Nat} {op : Nat → MemOp} {xs ys : List Nat}
    (h : Prefetched s t core hint line op xs) (h' : Prefetched t u core hint line op ys) : Prefetched s u core hint line op (xs ++ ys) := by
  have hsplit : ∀ k, (∃ l ∈ xs ++ ys, k = l1Key core (line l)) ↔
      (∃ l ∈ xs, k = l1Key core (line l)) ∨ ∃ l ∈ ys, k = l1Key core (line l) := by
    intro k
    simp only [List.mem_append, or_and_right, exists_or]
  refine ⟨fun k x hk hx => ?_, fun k hk => h'.absent k (h.absent k hk), fun k hk => ?_, fun l hl hnone => ?_, fun id hid => ?_,
    h.fresh.trans h'.fresh, ?_⟩
  · by_cases hys : ∃ l ∈ ys, k = l1Key core (line l)
    · by_cases hxs : ∃ l ∈ xs, k = l1Key core (line l)
      · obtain ⟨age, -, ht⟩ := h.present k x hxs hx
        obtain ⟨age', hage', hu⟩ := h'.present k _ hys ht
        exact ⟨age', h.fresh.trans hage', by rw [hu, classAfter_twice]⟩
      · obtain ⟨age, hage, hu⟩ := h'.present k x hys ((h.others k hxs).trans hx)
        exact ⟨age, h.fresh.trans hage, hu⟩
    · obtain ⟨age, hage, ht⟩ := h.present k x (((hsplit k).1 hk).resolve_right hys) hx
      exact ⟨age, hage, (h'.others k hys).trans ht⟩
  · rw [hsplit, not_or] at hk
    exact (h'.others k hk.2).trans (h.others k hk.1)
  · rcases List.mem_append.1 hl with hl | hl
    · obtain ⟨id, hge, hlt, ho⟩ := h.asked l hl hnone
      exact ⟨id, hge, hlt.trans_le h'.fresh, (h'.older id hlt).trans ho⟩
    · obtain ⟨id, hge, hlt, ho⟩ := h'.asked l hl (h.absent _ hnone)
      exact ⟨id, h.fresh.trans hge, hlt, ho⟩
  · exact (h'.older id (hid.trans_le h.fresh)).trans (h.older id hid)
  · conv_lhs => rw [h'.rest, h.rest]

/-- The prefetch of one line that a core's translation reaches. -/
def prefetchLine (core hint n : Nat) (o : MemOp) (s : State) : State :=
  match s.l1Line core n with
  | some _ => State.onL1 { s with fresh := s.fresh + 1 } core n fun x => { x with cls := classAfter x.cls hint, age := s.fresh }
  | none => State.addOp { s with fresh := s.fresh + 1 } s.fresh o

theorem prefetchLine_prefetched (s : State) (core hint l : Nat) (line : Nat → Nat) (op : Nat → MemOp) :
    Prefetched s (prefetchLine core hint (line l) (op l) s) core hint line op [l] := by
  have hone : ∀ k, (∃ x ∈ [l], k = l1Key core (line x)) ↔ k = l1Key core (line l) := by simp
  unfold prefetchLine
  cases hline : s.l1Line core (line l) with
  | some y =>
    refine ⟨fun k x hk hx => ?_, fun k hk => ?_, fun k hk => ?_, fun m hm hnone => ?_, fun _ _ => rfl, Nat.le_succ _, rfl⟩
    · rw [hone] at hk
      refine ⟨s.fresh, le_rfl, (?_ : NMap.find k (s.mem.l1.adjust _ _) = _)⟩
      rw [hk] at hx ⊢
      rw [NMap.find_adjust_self, hx]
      rfl
    · refine (?_ : NMap.find k (s.mem.l1.adjust _ _) = _)
      by_cases h : k = l1Key core (line l)
      · rw [h] at hk ⊢; rw [NMap.find_adjust_self, hk]; rfl
      · rw [NMap.find_adjust_ne h, hk]
    · exact NMap.find_adjust_ne (mt (hone k).2 hk) ..
    · rw [List.mem_singleton.1 hm] at hnone
      exact nomatch hnone.symm.trans hline
  | none =>
    refine ⟨fun k x hk hx => ?_, fun k hk => hk, fun k _ => rfl, fun m hm _ => ?_, fun id hid => ?_, Nat.le_succ _, rfl⟩
    · rw [(hone k).1 hk] at hx
      exact nomatch hline.symm.trans hx
    · rw [List.mem_singleton.1 hm]
      exact ⟨s.fresh, le_rfl, Nat.lt_succ_self _, NMap.find_insert_self ..⟩
    · exact NMap.find_insert_ne hid.ne _ _

/-- Forgetting ended walks and filling the L1 TLB prefetch nothing. -/
theorem Prefetched.translated (s : State) (core ctx hint : Nat) (e : TlbEntry) (line : Nat → Nat) (op : Nat → MemOp) :
    Prefetched s ((s.dropWalkFaults core ctx).fillL1Tlb core e) core hint line op [] := by
  have hfill : ∃ tlb, (s.dropWalkFaults core ctx).fillL1Tlb core e =
      { s.dropWalkFaults core ctx with mem := { (s.dropWalkFaults core ctx).mem with l1tlb := tlb } } := by
    unfold State.fillL1Tlb
    dsimp only
    split
    · exact ⟨s.mem.l1tlb, rfl⟩
    · exact ⟨_, rfl⟩
  obtain ⟨tlb, htlb⟩ := hfill
  rw [htlb]
  exact ⟨by simp, fun _ hk => hk, fun _ _ => rfl, by simp, fun _ _ => rfl, le_rfl, rfl⟩

/-- The load that brings a lane's line. -/
def prefetchOp (b : State) (g : Group) (v : Warp) (a : BitVec 7) (hint : Nat) (E : Nat → TlbEntry) (l : Nat) : MemOp :=
  .load ⟨g.agent l, placeOf b g v a false E l, 1, 0, 2, hint, .discard, false, [], [], true, (E l).mirror,
    BitVec.ofNat 57 (segmentAddr b g v a false l), g.pc, g.rep⟩

/-- Prefetches of lanes, one after another, each with its translation. -/
def prefetchLanes (b : State) (g : Group) (v : Warp) (a : BitVec 7) (hint : Nat) (E : Nat → TlbEntry) (s : State) (ls : List Nat) : State :=
  ls.foldl (fun s l => prefetchLine g.core hint (placeOf b g v a false E l / 128) (prefetchOp b g v a hint E l)
    ((s.dropWalkFaults g.core v.ctx.toNat).fillL1Tlb g.core (E l))) s

theorem prefetchLanes_prefetched (b : State) (g : Group) (v : Warp) (a : BitVec 7) (hint : Nat) (E : Nat → TlbEntry) (ls : List Nat) (s : State) :
    Prefetched s (prefetchLanes b g v a hint E s ls) g.core hint (fun l => placeOf b g v a false E l / 128) (prefetchOp b g v a hint E) ls := by
  induction ls generalizing s with
  | nil => exact ⟨by simp, fun _ hk => hk, fun _ _ => rfl, by simp, fun _ _ => rfl, le_rfl, rfl⟩
  | cons l ls ih => exact ((Prefetched.translated s g.core v.ctx.toNat hint (E l) _ _).trans (prefetchLine_prefetched ..)).trans (ih _)

theorem locate_congr {s t : State} (h : s.cfg = t.cfg) (e : TlbEntry) (va : Nat) : s.locate e va = t.locate e va := by
  unfold State.locate State.liveAt State.dieDead
  rw [h]

/-- The places that lanes reach stay the same from one prefetch to the next. -/
theorem foldl_prefetchLanes {b : State} {g : Group} {v : Warp} {a : BitVec 7} {hint : Nat} {E : Nat → TlbEntry} {step : State → Nat → State}
    (hstep : ∀ s l, s.cfg = b.cfg → step s l = prefetchLanes b g v a hint E s [l]) (ls : List Nat) {s : State} (hs : s.cfg = b.cfg) :
    ls.foldl step s = prefetchLanes b g v a hint E s ls := by
  induction ls generalizing s with
  | nil => rfl
  | cons l ls ih =>
    have hcfg : (prefetchLanes b g v a hint E s [l]).cfg = b.cfg := by
      rw [(prefetchLanes_prefetched b g v a hint E [l] s).rest]
      exact hs
    rw [List.foldl_cons, hstep s l hs, ih hcfg]
    rfl

/-- A prefetch whose lanes' checks pass takes the lanes' lines in turn. -/
theorem runCpref_done {a : BitVec 7} {h : BitVec 2} {g : Group} {b : State} {v : Warp} {E : Nat → TlbEntry} (hv : b.warpAt g.key = some v)
    (hu : v.protected' = false) (hr : reaches a 1 0 false false E b g v) :
    runCpref a h g b = .done (addrSigs b g v a false) (prefetchLanes b g v a h.toNat E b g.lanes) := by
  have hfails : laneFails g.lanes (fun l => failIf (readPair b g v l a.toNat).poison (failContain 1 a.toNat)) = [] :=
    laneFails_nil fun l hl => by rw [(hr l hl).1]; rfl
  have hable : g.lanes.filter (fun l => (segmentFail b g v 1 a false false (fun _ => []) l).isNone) = g.lanes :=
    List.filter_eq_self.2 fun l hl => by rw [segmentFail_reaches hr hl]; rfl
  have htrs : (g.lanes.map fun l => (l, segmentAddr b g v a false l,
      translateFor b g.core v.ctx.toNat 10 (segmentAddr b g v a false l) 0 v.system)) =
      g.lanes.map fun l => (l, segmentAddr b g v a false l, none, some (E l)) :=
    List.map_congr_left fun l hl => by rw [(hr l hl).2.2.2]
  unfold runCpref
  rw [hv]
  dsimp only
  rw [hfails, accessLanes_unprotected hu, hable, htrs]
  simp only [List.isEmpty_nil, Bool.not_true, Bool.false_eq_true, if_false, List.filter_map, Function.comp_def, Option.isNone_none,
    Option.isNone_some, Bool.and_false, List.filter_false, List.map_nil, List.foldl_map]
  refine congrArg _ (foldl_prefetchLanes (fun s l hs => ?_) g.lanes rfl)
  have hplace : (s.dropWalkFaults g.core v.ctx.toNat).locate (E l) (segmentAddr b g v a false l) = placeOf b g v a false E l :=
    locate_congr hs ..
  unfold prefetchLanes prefetchLine prefetchOp
  rw [List.foldl_cons, List.foldl_nil, ← hplace]
  rfl

/-- No lane of a prefetch past the limit of its segment passes the checks. -/
theorem runCpref_past {a : BitVec 7} {h : BitVec 2} {g : Group} {b : State} {v : Warp} (hv : b.warpAt g.key = some v) (hu : v.protected' = false)
    (hpast : ∀ l ∈ g.lanes, (readPair b g v l a.toNat).poison = false ∧ v.segs.glim.toNat < (readPair b g v l a.toNat).val.toNat + 1) :
    runCpref a h g b = .done (addrSigs b g v a false) b := by
  have hfails : laneFails g.lanes (fun l => failIf (readPair b g v l a.toNat).poison (failContain 1 a.toNat)) = [] :=
    laneFails_nil fun l hl => by rw [(hpast l hl).1]; rfl
  have hable : g.lanes.filter (fun l => (segmentFail b g v 1 a false false (fun _ => []) l).isNone) = [] := by
    refine List.filter_eq_nil_iff.2 fun l hl => ?_
    obtain ⟨hclean, hlim⟩ := hpast l hl
    unfold segmentFail
    dsimp only
    rw [hclean, show decide ((readPair b g v l a.toNat).val.toNat + 1 > (segmentOf v false).2.1) = true from decide_eq_true hlim]
    exact Bool.false_ne_true
  unfold runCpref
  rw [hv]
  dsimp only
  rw [hfails, accessLanes_unprotected hu, hable]
  rfl

/-! The three cache operations. -/

section
variable (e : Bool) (a : BitVec 7) (E : Nat → TlbEntry)

theorem cflush_achieves : Achieves (.cflush e a) (reaches a 1 6 false false E) fun b g v t =>
    (∀ k, (∃ l ∈ g.lanes, k = l1Key g.core (lineAt a E b g v l)) → t.mem.l1.find k = none) ∧
    (∀ k, (¬ ∃ l ∈ g.lanes, k = l1Key g.core (lineAt a E b g v l)) → t.mem.l1.find k = b.mem.l1.find k) ∧
    t.mem.icache = (b.mem.icache.filter fun x => !(x.1 / 2 ^ 61 == g.core && g.lanes.any fun l => x.2.pline == lineAt a E b g v l)) ∧
    (∀ k, (t.warpAt k).map (fun w => { w with monitor := none }) = (b.warpAt k).map (fun w => { w with monitor := none })) ∧
    t = { b with
      mem := { b.mem with l1 := t.mem.l1, icache := t.mem.icache, notices := t.mem.notices, l1tlb := t.mem.l1tlb }
      thr := { b.thr with warps := t.thr.warps } } := by
  refine achieves_of (fun _ => rfl) fun g w s v h hv hr => ?_
  obtain ⟨sigs, tlb, hrun⟩ := runCacheOp_done (fun n s => (s.loseL1 g.core n true).dropICache g.core n) hv (h.issuing_unprotected hv) hr
  refine ⟨sigs, _, hrun, ?_⟩
  have hfold := flushLines_flushed g.core (g.lanes.map (lineAt a E (s.issuing g) g v))
    { s.issuing g with mem := { (s.issuing g).mem with l1tlb := tlb } }
  generalize List.foldl _ _ _ = t at hfold ⊢
  refine ⟨?_, fun k hk => hfold.others k ?_, ?_, hfold.warps, ?_⟩
  · rintro k ⟨l, hl, rfl⟩
    exact hfold.gone _ (List.mem_map_of_mem hl)
  · rintro n hn rfl
    obtain ⟨l, hl, rfl⟩ := List.mem_map.1 hn
    exact hk ⟨l, hl, rfl⟩
  · have := hfold.icache
    simp only [List.any_map] at this
    exact this
  · conv_lhs => rw [hfold.rest]
    rw [show t.mem.l1tlb = tlb by rw [hfold.rest]]

theorem cdemote_achieves : Achieves (.cdemote e a) (reaches a 1 0 false false E) fun b g v t =>
    (∀ k, (∃ l ∈ g.lanes, k = l1Key g.core (lineAt a E b g v l)) →
      t.mem.l1.find k = (b.mem.l1.find k).map fun x => { x with cls := if x.cls = 2 then 0 else x.cls }) ∧
    (∀ k, (¬ ∃ l ∈ g.lanes, k = l1Key g.core (lineAt a E b g v l)) → t.mem.l1.find k = b.mem.l1.find k) ∧
    t = { b with mem := { b.mem with l1 := t.mem.l1, l1tlb := t.mem.l1tlb } } := by
  refine achieves_of (fun _ => rfl) fun g w s v h hv hr => ?_
  obtain ⟨sigs, tlb, hrun⟩ := runCacheOp_done (fun n s => s.onL1 g.core n fun l => { l with cls := classDemoted l.cls }) hv
    (h.issuing_unprotected hv) hr
  refine ⟨sigs, _, hrun, ?_⟩
  have hfind := fun k => demoteLines_find g.core k (g.lanes.map (lineAt a E (s.issuing g) g v))
    { s.issuing g with mem := { (s.issuing g).mem with l1tlb := tlb } }
  have hrest := demoteLines_rest g.core (g.lanes.map (lineAt a E (s.issuing g) g v))
    { s.issuing g with mem := { (s.issuing g).mem with l1tlb := tlb } }
  generalize List.foldl _ _ _ = t at hfind hrest ⊢
  simp only [List.mem_map, exists_exists_and_eq_and] at hfind
  refine ⟨fun k hk => ?_, fun k hk => (hfind k).trans (if_neg hk), ?_⟩
  · refine ((hfind k).trans (if_pos hk)).trans (congrArg (Option.map · _) (funext fun x => ?_))
    simp only [classDemoted, beq_iff_eq]
  · conv_lhs => rw [hrest]
    rw [show t.mem.l1tlb = tlb by rw [hrest]]

theorem cpref_achieves (h : BitVec 2) : Achieves (.cpref e a h) (reaches a 1 0 false false E) fun b g v t =>
    (∀ k, (∃ l ∈ g.lanes, k = l1Key g.core (lineAt a E b g v l)) → ∀ x, b.mem.l1.find k = some x →
      ∃ age ≥ b.fresh, t.mem.l1.find k = some { x with cls := classAfter x.cls h.toNat, age := age }) ∧
    (∀ k, (∃ l ∈ g.lanes, k = l1Key g.core (lineAt a E b g v l)) → b.mem.l1.find k = none → t.mem.l1.find k = none) ∧
    (∀ k, (¬ ∃ l ∈ g.lanes, k = l1Key g.core (lineAt a E b g v l)) → t.mem.l1.find k = b.mem.l1.find k) ∧
    (∀ l ∈ g.lanes, b.mem.l1.find (l1Key g.core (lineAt a E b g v l)) = none →
      ∃ id ≥ b.fresh, t.mem.ops.find id = some (prefetchOp b g v a h.toNat E l)) ∧
    (∀ id < b.fresh, t.mem.ops.find id = b.mem.ops.find id) ∧
    t = { b with
      mem := { b.mem with l1 := t.mem.l1, l1tlb := t.mem.l1tlb, ops := t.mem.ops, walkFaults := t.mem.walkFaults }
      fresh := t.fresh } := by
  refine achieves_of (fun _ => rfl) fun g w s v hi hv hr => ⟨_, _, runCpref_done hv (hi.issuing_unprotected hv) hr, ?_⟩
  have hp := prefetchLanes_prefetched (s.issuing g) g v a h.toNat E g.lanes (s.issuing g)
  refine ⟨fun k hk x hx => hp.present k x hk hx, fun k _ => hp.absent k, hp.others, fun l hl hnone => ?_, hp.older, hp.rest⟩
  obtain ⟨id, hge, -, ho⟩ := hp.asked l hl hnone
  exact ⟨id, hge, ho⟩

end

/-- Settles O19: the fences by the accesses that count, the cache operations by what the lanes' lines undergo in turn. -/
theorem fencesAndCaches : Obligations.FencesAndCaches := by
  unfold Obligations.FencesAndCaches
  refine ⟨fun e c => ⟨fence_effects fun _ => rfl, fence_effects fun _ => rfl, fence_effects fun _ => rfl,
    fun s x t id all => ⟨mem_fenceSet .., mem_earlierLoads ..⟩⟩, fun e a h E => ?_⟩
  intro line hit
  refine ⟨cflush_achieves e a E, cdemote_achieves e a E, cpref_achieves e a E h, ?_⟩
  exact does_of (fun _ => rfl) fun g w s v hi hv hpast => ⟨_, runCpref_past hv (hi.issuing_unprotected hv) hpast⟩

end Sys2Proof.Machine
end

section
/-! The bytes that a layout names, and its limit (R86 to R88). -/

namespace Sys2Proof.Machine

/-! A permutation keeps a byte in its line (R88). -/

/-- What a permutation puts in place of the word of an offset within its line. -/
theorem permute_eq (mode o : Nat) : ∃ x < 32, permute mode o = o / 128 * 128 + x * 4 + o % 4 := by
  have key : ∀ x < 32, bits 6 2 o ^^^ x < 32 ∧ o - bits 6 2 o * 4 + (bits 6 2 o ^^^ x) * 4 = o / 128 * 128 + (bits 6 2 o ^^^ x) * 4 + o % 4 := by
    intro x hx
    have hlow : bits 6 2 o = o / 4 % 32 := rfl
    refine ⟨Nat.xor_lt_two_pow (n := 5) (by omega) hx, ?_⟩
    generalize bits 6 2 o ^^^ x = y
    omega
  unfold permute
  dsimp only
  split
  · exact ⟨_, key _ (show o / 2 ^ 7 % 2 ^ 5 < 32 by omega)⟩
  · exact ⟨_, key _ (show o / 2 ^ 7 % 2 ^ 4 * 2 < 32 by omega)⟩
  · exact ⟨_, key _ (show o / 2 ^ 7 % 2 ^ 3 * 4 < 32 by omega)⟩
  · exact ⟨_, key _ (show o / 2 ^ 7 % 2 ^ 2 * 8 < 32 by omega)⟩
  · exact ⟨_, key _ (show o / 2 ^ 10 % 2 ^ 5 < 32 by omega)⟩
  · exact ⟨_, key 0 (by omega)⟩

theorem permute_zero (o : Nat) : permute 0 o = o := by
  have hlow : bits 6 2 o = o / 4 % 32 := rfl
  show o - bits 6 2 o * 4 + (bits 6 2 o ^^^ 0) * 4 = o
  rw [Nat.xor_zero]
  omega

/-- A limit of whole lines does not see a permutation. -/
theorem permute_lt {mode lim : Nat} (h : mode = 0 ∨ lim % 128 = 0) (o : Nat) : permute mode o < lim ↔ o < lim := by
  rcases h with rfl | h
  · rw [permute_zero]
  · obtain ⟨x, hx, heq⟩ := permute_eq mode o
    omega

/-! The highest byte. -/

theorem foldl_max_lt {α : Type} {f : Nat → α → Nat} {P : α → Prop} {lim : Nat} (hf : ∀ t x, f t x < lim ↔ t < lim ∧ P x) (xs : List α) (t : Nat) :
    xs.foldl f t < lim ↔ t < lim ∧ ∀ x ∈ xs, P x := by
  induction xs generalizing t with
  | nil => simp
  | cons x xs ih => rw [List.foldl_cons, ih, hf, List.forall_mem_cons, and_assoc]

/-- Every byte that a layout touches, after the permutation, lies below a limit. -/
def bytesBelow (y : Layout) (w k : Nat) (scl : Bool) (lim : Nat) : Prop :=
  (∀ i < 128, ∀ c < k / 32, ∀ j < 4 * w, permute y.pmode (y.base + i * y.st0 + c * y.st1 + j) < lim) ∧
    (scl = true → ∀ i < 128, ∀ c < k / 32, permute y.pmode (y.base + y.st2 + i * (k / 32) + c) < lim)

theorem exactTop_lt {y : Layout} {w k lim : Nat} {scl : Bool} (hlim : 0 < lim) : y.exactTop w k scl < lim ↔ bytesBelow y w k scl lim := by
  have hblock : ∀ i t c, (let t := (List.range (4 * w)).foldl (fun t j => max t (permute y.pmode (y.base + i * y.st0 + c * y.st1 + j))) t
      if scl then max t (y.scale k i c) else t) < lim ↔ t < lim ∧ ((∀ j < 4 * w, permute y.pmode (y.base + i * y.st0 + c * y.st1 + j) < lim) ∧
        (scl = true → permute y.pmode (y.base + y.st2 + i * (k / 32) + c) < lim)) := by
    intro i t c
    have hbytes := foldl_max_lt (f := fun t j => max t (permute y.pmode (y.base + i * y.st0 + c * y.st1 + j))) (lim := lim)
      (fun t j => Nat.max_lt) (List.range (4 * w)) t
    simp only [List.mem_range] at hbytes
    dsimp only
    cases scl with
    | false => simpa using hbytes
    | true => rw [if_pos rfl, Nat.max_lt, hbytes]; simp [Layout.scale, and_assoc]
  unfold Layout.exactTop bytesBelow
  rw [foldl_max_lt fun t i => foldl_max_lt (hblock i) (List.range (k / 32)) t]
  simp only [List.mem_range, hlim, true_and]
  exact ⟨fun h => ⟨fun i hi c hc => (h i hi c hc).1, fun hs i hi c hc => (h i hi c hc).2 hs⟩,
    fun h i hi c hc => ⟨h.1 i hi c hc, fun hs => h.2 hs i hi c hc⟩⟩

theorem top_lt {y : Layout} {w k lim : Nat} {scl : Bool} (hw : 0 < w) (hk : 0 < k / 32) (h : y.pmode = 0 ∨ lim % 128 = 0) :
    y.top w k scl < lim ↔ bytesBelow y w k scl lim := by
  have helem : y.base + 127 * y.st0 + (k / 32 - 1) * y.st1 + 4 * w - 1 < lim ↔
      ∀ i < 128, ∀ c < k / 32, ∀ j < 4 * w, y.base + i * y.st0 + c * y.st1 + j < lim := by
    constructor
    · intro htop i hi c hc j hj
      have h0 : i * y.st0 ≤ 127 * y.st0 := Nat.mul_le_mul_right _ (by omega)
      have h1 : c * y.st1 ≤ (k / 32 - 1) * y.st1 := Nat.mul_le_mul_right _ (by omega)
      omega
    · intro hall
      have := hall 127 (by omega) (k / 32 - 1) (by omega) (4 * w - 1) (by omega)
      omega
  have hscale : y.base + y.st2 + 127 * (k / 32) + k / 32 - 1 < lim ↔ ∀ i < 128, ∀ c < k / 32, y.base + y.st2 + i * (k / 32) + c < lim := by
    constructor
    · intro htop i hi c hc
      have h0 : i * (k / 32) ≤ 127 * (k / 32) := Nat.mul_le_mul_right _ (by omega)
      omega
    · intro hall
      have := hall 127 (by omega) (k / 32 - 1) (by omega)
      omega
  unfold Layout.top bytesBelow
  simp only [permute_lt h]
  cases scl with
  | false => simpa using helem
  | true => rw [if_pos rfl, Nat.max_lt, helem, hscale]; simp

theorem within_iff {y : Layout} {w k lim : Nat} {scl : Bool} (hw : 0 < w) (hk : 0 < k / 32) :
    y.within w k scl lim = true ↔ bytesBelow y w k scl lim := by
  unfold Layout.within
  split
  next h => rw [decide_eq_true_iff]; exact top_lt hw hk (by simpa using h)
  next h =>
    rw [decide_eq_true_iff]
    rcases Nat.eq_zero_or_pos lim with rfl | hlim
    · simp at h
    · exact exactTop_lt hlim

end Sys2Proof.Machine
end

section
/-! Matrix commands that issues post (R73, R98, R136, R218, R220, R339 to R346). -/

namespace Sys2Proof.Machine

/-! Changes of a group's lanes, one after another. -/

section
variable {g : Group} {v : Warp} {b s t : State} {F G : Nat → Lane → Lane}

theorem LanesChanged.refl (hv : b.warpAt g.key = some v) : LanesChanged g v b b fun _ x => x :=
  ⟨⟨v, hv, rfl, rfl, fun _ => (ite_self _).symm⟩, fun _ _ => rfl, rfl⟩

theorem LanesChanged.onLanes (h : LanesChanged g v b s F) (hf : Fits g v) (f : Lane → Lane) :
    LanesChanged g v b (s.onLanes g.key g.lanes f) fun l x => f (F l x) := by
  obtain ⟨⟨u, hu, heq, hlen, hlanes⟩, hothers, hout⟩ := h
  obtain ⟨⟨u', hu', heq', hlen', hlanes'⟩, hothers', hout'⟩ := onLanes_changed f hu hf.nodup fun l hl => hlen ▸ (hf.lanes l hl).2
  refine ⟨⟨u', hu', heq'.trans (by rw [heq]), hlen'.trans hlen, fun l => ?_⟩, fun k hk => (hothers' k hk).trans (hothers k hk), ?_⟩
  · rw [hlanes', hlanes]
    split <;> rfl
  · rw [hout', hout]

/-! The command (R339). -/

/-- The class bit of the innermost ring level is set. -/
theorem markClass_rings (w : Warp) (n : Nat) : w.markClass n = { w with rings := (w.markClass n).rings } ∧
    (w.markClass n).rings.dropLast = w.rings.dropLast ∧
    (w.markClass n).rings.getLast? = w.rings.getLast?.map fun r => { r with classes := r.classes ||| (1#4 <<< n) } := by
  unfold Warp.markClass
  cases hr : w.rings.reverse with
  | nil =>
    exact ⟨rfl, rfl, by dsimp only; rw [List.reverse_eq_nil_iff.1 hr]; rfl⟩
  | cons r rs =>
    have hrings : w.rings = rs.reverse ++ [r] := by rw [← List.reverse_cons, ← hr, List.reverse_reverse]
    dsimp only
    rw [hrings, List.reverse_cons]
    refine ⟨rfl, ?_, ?_⟩
    · rw [List.dropLast_concat, List.dropLast_concat]
    · rw [List.getLast?_concat, List.getLast?_concat]; rfl

theorem postMatrix_posted (h : LanesChanged g v b s F) (op : MatOp) (waits : List Nat) :
    MatrixPosted g v b (postMatrix s g v op waits).1 op waits F ∧ (postMatrix s g v op waits).2 = b.fresh := by
  obtain ⟨⟨u, hu, heq, hlen, hlanes⟩, hothers, hout⟩ := h
  generalize s.thr.warps = ws at hout
  subst hout
  obtain ⟨hmark, hdrop, hlast⟩ := markClass_rings u 1
  have hlanes' : (u.markClass 1).lanes = u.lanes := by rw [hmark]
  have hrings : u.rings = v.rings := by rw [heq]
  refine ⟨⟨rfl, ⟨{ u.markClass 1 with cntMat := u.cntMat + 1 }, ?_, ?_, ?_, fun l => ?_, ?_, ?_⟩, fun k hk => ?_, rfl⟩, rfl⟩
  · exact (warpAt_onWarp_self ..).trans ((congrArg _ hu).trans rfl)
  · dsimp only
    generalize (u.markClass 1).rings = rs at hmark
    generalize u.lanes = ls at heq hmark
    rw [hmark]
    subst heq
    rfl
  · exact (congrArg List.length hlanes').trans hlen
  · exact (congrArg (fun ls => ls.getD l Lane.absent) hlanes').trans (hlanes l)
  · exact hdrop.trans (congrArg _ hrings)
  · exact hlast.trans (by rw [hrings]; rfl)
  · exact (warpAt_onWarp_ne _ _ hk).trans (hothers k hk)

/-- Lanes of the group keep something of a command that is posted. -/
theorem MatrixPosted.lanes {op : MatOp} {waits ls : List Nat} (h : MatrixPosted g v b s op waits F) (hsub : ∀ l ∈ ls, l ∈ g.lanes)
    (hch : ∀ u, s.warpAt g.key = some u → u.lanes.length = v.lanes.length → LanesChanged { g with lanes := ls } u s t G) :
    MatrixPosted g v b t op waits fun l x => if l ∈ ls then G l (F l x) else F l x := by
  obtain ⟨hqueue, ⟨u, hu, heq, hlen, hlanes, hdrop, hlast⟩, hothers, hout⟩ := h
  obtain ⟨⟨u', hu', heq', hlen', hlanes'⟩, hothers', hout'⟩ := hch u hu hlen
  have hmatrix : t.mem.matrix = s.mem.matrix := by rw [hout']
  refine ⟨hmatrix.trans hqueue, ⟨u', hu', ?_, hlen'.trans hlen, fun l => ?_, ?_, ?_⟩, fun k hk => (hothers' k hk).trans (hothers k hk), ?_⟩
  · rw [heq', heq]
  · rw [hlanes', hlanes]
    by_cases hl : l ∈ ls
    · rw [if_pos hl, if_pos (hsub l hl), if_pos (hsub l hl), if_pos hl]
    · rw [if_neg hl, if_neg hl]
  · rw [heq']; exact hdrop
  · rw [heq']; exact hlast
  · rw [hmatrix]
    conv_lhs => rw [hout', hout]

theorem MatrixPosted.onLanes {op : MatOp} {waits : List Nat} (h : MatrixPosted g v b s op waits F) (hf : Fits g v) (f : Lane → Lane) :
    MatrixPosted g v b (s.onLanes g.key g.lanes f) op waits fun l x => if l ∈ g.lanes then f (F l x) else F l x :=
  h.lanes (G := fun _ => f) (fun _ hl => hl) fun _ hu hlen => onLanes_changed f hu hf.nodup fun l hl => hlen ▸ (hf.lanes l hl).2

theorem MatrixPosted.foldLanes {op : MatOp} {waits ls : List Nat} (h : MatrixPosted g v b s op waits F) (hf : Fits g v) (hls : ls.Nodup)
    (hsub : ∀ l ∈ ls, l ∈ g.lanes) (G : Nat → Lane → Lane) : MatrixPosted g v b (ls.foldl (fun s l => s.onLanes g.key [l] (G l)) s) op waits
      fun l x => if l ∈ ls then G l (F l x) else F l x :=
  h.lanes hsub fun _ hu hlen => foldLanes_changed (g := { g with lanes := ls }) G hu hls fun l hl => hlen ▸ (hf.lanes l (hsub l hl)).2

/-- Only what the lanes of the group become matters. -/
theorem MatrixPosted.congr {op : MatOp} {waits : List Nat} (h : MatrixPosted g v b s op waits F) (hF : ∀ l ∈ g.lanes, ∀ x, F l x = G l x) :
    MatrixPosted g v b s op waits G := by
  obtain ⟨hqueue, ⟨u, hu, heq, hlen, hlanes, hrings⟩, hothers, hout⟩ := h
  refine ⟨hqueue, ⟨u, hu, heq, hlen, fun l => (hlanes l).trans ?_, hrings⟩, hothers, hout⟩
  split
  next hl => exact hF l hl _
  next => rfl

end

/-! The common issue of the matrix instructions (R136, R340). -/

/-- A lane after its read of the permutation table saw unacknowledged writes. -/
def notedLane (b : State) (saw : List Nat) (x : Lane) : Lane := if saw = [] then x else { x with seen := (b.stillPending (x.seen ++ saw)).dedup }

/-- A lane after an issue that names a tile: its entries for the tile are committed. -/
def committedLane (tile : Option Nat) (x : Lane) : Lane :=
  match tile with
  | some n => { x with commits := x.commits.filter fun c => c.dest != .tile n }
  | none => x

/-- A lane that awaits a command: with a lookahead in a commit entry, else itself. -/
def awaitingLane (dest : Dest) (delay id : Nat) (x : Lane) : Lane :=
  if delay = 0 then { x with loads := x.loads ++ [id] } else { x with commits := x.commits ++ [⟨dest, delay + 1, none, 0, none, some id⟩] }

/-- The permutation table that an issue reads, if it does. -/
def tableOf (b : State) (g : Group) (v : Warp) : Option Nat → TableRead
  | some f => readTable b g v f
  | none => .ok [] []

/-- The state in which an issue posts its command. -/
def readyToPost (b : State) (g : Group) (tile : Option Nat) (saw : List Nat) : State :=
  let s := if saw.isEmpty then b else b.noteSeen g.key g.lanes saw
  match tile with
  | some n => commitTile s g n
  | none => s

/-- There is room for a command, and no lane awaits the tile that it names. -/
def freeToPost (tile : Option Nat) : Cond := fun b g v => matrixFull b g v = false ∧ ∀ n ∈ tile, tilePending v g.lanes n = []

section
variable {g : Group} {v : Warp} {b : State} {tile table : Option Nat} {perm saw : List Nat}

theorem readyToPost_changed (hv : b.warpAt g.key = some v) (hf : Fits g v) (tile : Option Nat) (saw : List Nat) :
    LanesChanged g v b (readyToPost b g tile saw) fun _ x => committedLane tile (notedLane b saw x) := by
  have hnoted : LanesChanged g v b (if saw.isEmpty then b else b.noteSeen g.key g.lanes saw) fun _ => notedLane b saw := by
    unfold notedLane
    cases saw with
    | nil => exact .refl hv
    | cons n saw => exact (LanesChanged.refl hv).onLanes hf _
  unfold readyToPost
  cases tile with
  | none => exact hnoted
  | some n => exact hnoted.onLanes hf _

/-- An issue whose checks pass, that finds room and its table, posts its command (R339). -/
theorem issueMatrix_eq (sigs : List Sig) (op : List Nat → MatOp) (la : Option Nat) (hfree : freeToPost tile b g v)
    (htable : tableOf b g v table = .ok perm saw) : issueMatrix g b v sigs [] tile table op la =
      match la with
      | none => .done sigs (postMatrix (readyToPost b g tile saw) g v (op perm) []).1
      | some la =>
        let s := postMatrix (readyToPost b g tile saw) g v (op perm) g.lanes
        if v.delay la = 0 then .done sigs (s.1.onLanes g.key g.lanes fun x => { x with loads := x.loads ++ [s.2] })
        else .done sigs (s.1.onLanes g.key g.lanes fun x =>
          { x with commits := x.commits ++ [⟨.tile (tile.getD 0), v.delay la + 1, none, 0, none, some s.2⟩] }) := by
  obtain ⟨hfull, hpend⟩ := hfree
  unfold issueMatrix
  rw [hfull]
  cases tile with
  | none =>
    cases table with
    | none => cases htable; cases la <;> rfl
    | some f =>
      dsimp only
      rw [show readTable b g v f = _ from htable]
      cases la <;> rfl
  | some n =>
    dsimp only
    rw [hpend n rfl]
    cases table with
    | none => cases htable; cases la <;> rfl
    | some f =>
      dsimp only
      rw [show readTable b g v f = _ from htable]
      cases la <;> rfl

/-- An issue with no entry of its own: its lanes go on. -/
theorem issueMatrix_posts (hv : b.warpAt g.key = some v) (hf : Fits g v) (sigs : List Sig) (op : List Nat → MatOp)
    (hfree : freeToPost tile b g v) (htable : tableOf b g v table = .ok perm saw) :
    ∃ t, issueMatrix g b v sigs [] tile table op none = .done sigs t ∧
      MatrixPosted g v b t (op perm) [] fun _ x => committedLane tile (notedLane b saw x) :=
  ⟨_, issueMatrix_eq sigs op none hfree htable, (postMatrix_posted (readyToPost_changed hv hf tile saw) (op perm) []).1⟩

/-- An issue on a tile with an entry of its own, or whose lanes wait. -/
theorem issueMatrix_awaited {n : Nat} (hv : b.warpAt g.key = some v) (hf : Fits g v) (sigs : List Sig) (op : List Nat → MatOp) (la : Nat)
    (hfree : freeToPost (some n) b g v) (htable : tableOf b g v table = .ok perm saw) :
    ∃ t, issueMatrix g b v sigs [] (some n) table op (some la) = .done sigs t ∧ MatrixPosted g v b t (op perm) g.lanes fun _ x =>
      awaitingLane (.tile n) (v.delay la) b.fresh (committedLane (some n) (notedLane b saw x)) := by
  obtain ⟨hposted, hid⟩ := postMatrix_posted (readyToPost_changed hv hf (some n) saw) (op perm) g.lanes
  rw [issueMatrix_eq sigs op (some la) hfree htable]
  dsimp only
  rw [hid]
  unfold awaitingLane
  split
  · exact ⟨_, rfl, (hposted.onLanes hf _).congr fun l hl x => if_pos hl⟩
  · exact ⟨_, rfl, (hposted.onLanes hf _).congr fun l hl x => if_pos hl⟩

end

/-! The checks of operands (R73, R87, R98, R324). -/

section
variable {g : Group} {v : Warp} {b : State}

theorem postable_free {t : Option (BitVec 6)} (h : postable t b g v) : freeToPost (t.map fun t => v.segs.abase.toNat + t.toNat) b g v := by
  refine ⟨h.1, fun n hn => ?_⟩
  obtain ⟨t, ht, rfl⟩ := Option.map_eq_some_iff.1 hn
  refine List.filter_eq_nil_iff.2 fun l hl => ?_
  rw [List.any_eq_true]
  rintro ⟨c, hc, hdest⟩
  rw [Bool.and_eq_true, beq_iff_eq] at hdest
  have := (h.2 t ht).2 l hl c hc hdest.1
  rw [Option.isNone_iff_eq_none.1 hdest.2] at this
  exact Bool.false_ne_true this

theorem tileFail_none {t : BitVec 6} (h : postable (some t) b g v) : tileFail v t.toNat = none := by
  unfold tileFail
  rw [show decide (t.toNat ≥ v.segs.alim.toNat) = false from decide_eq_false (Nat.not_le.2 (h.2 t rfl).1)]
  rfl

/-- A vote on which the lanes agree: no poison, no lane that differs, and their value. -/
theorem formatVotes_agree {m : BitVec 7} {f : Word} (h : agree m f b g v) (hu : v.protected' = false) :
    formatVotes b g v m = g.lanes.map fun l => (l, ⟨f, false⟩) := by
  unfold formatVotes
  rw [accessLanes_unprotected hu]
  exact List.map_congr_left fun l hl => by rw [h.2 l hl]

theorem votes_agree (f : Word) (ls : List Nat) : ((ls.map fun l => (l, (⟨f, false⟩ : PWord))).filter (·.2.poison)) = [] ∧
    disagreeing (ls.map fun l => (l, ⟨f, false⟩)) = [] := by
  refine ⟨List.filter_eq_nil_iff.2 fun x hx => ?_, ?_⟩
  · obtain ⟨l, -, rfl⟩ := List.mem_map.1 hx
    exact Bool.false_ne_true
  · cases ls with
    | nil => rfl
    | cons l ls => simp [disagreeing]

theorem firstVote_agree {f : Word} {ls : List Nat} (h : ls ≠ []) : firstVote (ls.map fun l => (l, ⟨f, false⟩)) = f := by
  cases ls with
  | nil => exact absurd rfl h
  | cons l ls => rfl

theorem format_agrees {m : BitVec 7} {f : Word} (h : agree m f b g v) (hu : v.protected' = false) :
    formatFails v (formatVotes b g v m) m = [] ∧ firstVote (formatVotes b g v m) = f := by
  rw [formatVotes_agree h hu]
  obtain ⟨hclean, hsame⟩ := votes_agree f g.lanes
  refine ⟨?_, firstVote_agree h.1⟩
  unfold formatFails
  rw [hclean, hsame]
  rfl

theorem layoutPoison_none {y : BitVec 7} {w k : Nat} {scl : Bool} (h : layoutFits y w k scl b g v) : layoutPoison b g v y = none := by
  have hnone : ((List.range 3).find? fun k => ((readLayout b g v y).getD k PWord.zero).poison) = none := by
    refine List.find?_eq_none.2 fun k hk => ?_
    have hlt : k < (readLayout b g v y).length := by simpa [readLayout, readRegs] using hk
    rw [List.getD_eq_getElem _ _ hlt, h.1 _ (List.getElem_mem hlt)]
    exact Bool.false_ne_true
  unfold layoutPoison
  dsimp only
  rw [hnone]
  rfl

theorem layoutFails_none {y : BitVec 7} {third w k : Nat} {scl : Bool} (h : layoutFits y w k scl b g v) :
    ∀ x ∈ layoutFails (theLayout b g v y) third w k scl v.segs.slim.toNat, x = none := by
  obtain ⟨-, hmode, hbase, hst0, hst1, hwithin⟩ := h
  unfold layoutFails
  rw [hwithin]
  simp [failIf, hmode, hbase, hst0, hst1, Nat.not_lt.2 hmode]

/-- The checks of an instruction with a layout, with its others, find nothing. -/
theorem layoutChecks_none {y : BitVec 7} {third w k : Nat} {scl : Bool} {others : List (Option Fail)} (h : layoutFits y w k scl b g v)
    (ho : ∀ x ∈ others, x = none) :
    firstFail (layoutPoison b g v y :: others ++ layoutFails (theLayout b g v y) third w k scl v.segs.slim.toNat) = none := by
  refine firstFail_none fun x hx => ?_
  rcases List.mem_append.1 hx with hx | hx
  · rcases List.mem_cons.1 hx with rfl | hx
    · exact layoutPoison_none h
    · exact ho x hx
  · exact layoutFails_none h x hx

theorem formatCheck_none (f : Nat) : formatCheck true f = none := rfl

/-- Every lane's offset into a tile is clean, aligned and within the tile (R324, R346). -/
def tileOffsets (a : BitVec 7) : Cond := fun b g v => ∀ l ∈ g.lanes, (readField b g v l a.toNat).poison = false ∧
  (readField b g v l a.toNat).val.toNat % 4 = 0 ∧ (readField b g v l a.toNat).val.toNat < 65536

theorem accFail_none {a : BitVec 7} {t : BitVec 6} {extra : Nat → List (Option Fail)} (ho : tileOffsets a b g v) (hp : postable (some t) b g v)
    (hx : ∀ l ∈ g.lanes, ∀ x ∈ extra l, x = none) : laneFails g.lanes (accFail b g v a t.toNat extra) = [] := by
  refine laneFails_nil fun l hl => firstFail_none fun x hm => ?_
  obtain ⟨hclean, halign, hlim⟩ := ho l hl
  have hrange : (decide ((readField b g v l a.toNat).val.toNat ≥ 65536) || decide (t.toNat ≥ v.segs.alim.toNat)) = false := by
    have := (hp.2 t rfl).1
    simp [hlim, this]
  rw [hclean, halign, hrange] at hm
  simp only [List.mem_append, List.mem_cons, List.not_mem_nil, or_false] at hm
  rcases hm with (rfl | hm) | rfl | rfl
  · rfl
  · exact hx l hl x hm
  · rfl
  · rfl

end

end Sys2Proof.Machine
end

section
/-! The matrix instructions (R339 to R346). -/

namespace Sys2Proof.Machine

section
variable {g : Group} {v : Warp} {b : State} {y m : BitVec 7} {f : Word} {p saw : List Nat}

/-- The tile that an instruction names (R98). -/
def namedTile (v : Warp) (t : BitVec 6) : Nat := v.segs.abase.toNat + t.toNat

theorem runBld_posts (hv : b.warpAt g.key = some v) (hf : Fits g v) (hm : agree m f b g v) (hlegal : formatLegal f.toNat = true)
    (hy : layoutFits y (widthB f.toNat) (fmtDepth f.toNat) (fmtScl f.toNat) b g v) (hp : postable none b g v)
    (ht : readTable b g v f.toNat = .ok p saw) : ∃ sigs e, runBld y m g b = .done sigs e ∧
      MatrixPosted g v b e (.bld (theLayout b g v y) f.toNat p) [] fun _ => notedLane b saw := by
  obtain ⟨hfmt, hfirst⟩ := format_agrees hm hf.unprotected
  unfold runBld
  rw [hv]
  dsimp only
  rw [hfmt, hfirst, hlegal, if_pos rfl, layoutChecks_none hy (others := [formatCheck true f.toNat]) (by simp [formatCheck_none])]
  obtain ⟨t, hrun, hposted⟩ := issueMatrix_posts (table := some f.toNat) hv hf (commandSigs b g v [m])
    (fun p => .bld (theLayout b g v y) f.toNat p) (postable_free hp) ht
  exact ⟨_, t, hrun, hposted⟩

theorem runBsel_posts {n : BitVec 4} (hv : b.warpAt g.key = some v) (hf : Fits g v) (hm : agree m f b g v) (hlegal : formatLegal f.toNat = true)
    (hn : n.toNat % fmtCount f.toNat = 0) (hp : postable none b g v) : ∃ sigs e, runBsel n m g b = .done sigs e ∧
      MatrixPosted g v b e (.bsel f.toNat n.toNat) [] fun _ x => x := by
  obtain ⟨hfmt, hfirst⟩ := format_agrees hm hf.unprotected
  unfold runBsel
  rw [hv]
  dsimp only
  rw [hfmt, hfirst, hlegal, hn]
  obtain ⟨t, hrun, hposted⟩ := issueMatrix_posts (table := none) hv hf (commandSigs b g v [m]) (fun _ => .bsel f.toNat n.toNat)
    (postable_free hp) rfl
  exact ⟨_, t, hrun, hposted⟩

theorem runMmaWith_posts {t : BitVec 6} {la : BitVec 4} (zero : Bool) (hv : b.warpAt g.key = some v) (hf : Fits g v) (hm : agree m f b g v)
    (hlegal : formatLegal f.toNat = true) (hy : layoutFits y (widthA f.toNat) (fmtDepth f.toNat) (fmtScl f.toNat) b g v)
    (hp : postable (some t) b g v) (ht : readTable b g v f.toNat = .ok p saw) : ∃ sigs e, runMmaWith zero t y m la g b = .done sigs e ∧
      MatrixPosted g v b e (.mma zero (namedTile v t) (theLayout b g v y) f.toNat p) g.lanes fun _ x =>
        awaitingLane (.tile (namedTile v t)) (v.delay la.toNat) b.fresh (committedLane (some (namedTile v t)) (notedLane b saw x)) := by
  obtain ⟨hfmt, hfirst⟩ := format_agrees hm hf.unprotected
  unfold runMmaWith
  rw [hv]
  dsimp only
  rw [hfmt, hfirst, hlegal, if_pos rfl,
    layoutChecks_none hy (others := [formatCheck true f.toNat, tileFail v t.toNat]) (by simp [formatCheck_none, tileFail_none hp])]
  obtain ⟨e, hrun, hposted⟩ := issueMatrix_awaited (table := some f.toNat) hv hf (commandSigs b g v [m])
    (fun p => .mma zero (namedTile v t) (theLayout b g v y) f.toNat p) la.toNat (postable_free hp) ht
  exact ⟨_, e, hrun, hposted⟩

theorem runAcz_posts {t : BitVec 6} (hv : b.warpAt g.key = some v) (hf : Fits g v) (hp : postable (some t) b g v) :
    ∃ sigs e, runAcz t g b = .done sigs e ∧ MatrixPosted g v b e (.acz (namedTile v t)) [] fun _ => committedLane (some (namedTile v t)) := by
  unfold runAcz
  rw [hv]
  dsimp only
  rw [tileFail_none hp]
  obtain ⟨e, hrun, hposted⟩ := issueMatrix_posts (table := none) hv hf [] (fun _ => .acz (namedTile v t)) (postable_free hp) rfl
  exact ⟨_, e, hrun, hposted⟩

theorem runAcld_posts {t : BitVec 6} (hv : b.warpAt g.key = some v) (hf : Fits g v) (hy : layoutFits y 32 128 false b g v)
    (hp : postable (some t) b g v) : ∃ sigs e, runAcld t y g b = .done sigs e ∧
      MatrixPosted g v b e (.acld (namedTile v t) (theLayout b g v y)) [] fun _ => committedLane (some (namedTile v t)) := by
  unfold runAcld
  rw [hv]
  dsimp only
  rw [layoutChecks_none hy (others := [tileFail v t.toNat]) (by simp [tileFail_none hp])]
  obtain ⟨e, hrun, hposted⟩ := issueMatrix_posts (table := none) hv hf [] (fun _ => .acld (namedTile v t) (theLayout b g v y))
    (postable_free hp) rfl
  exact ⟨_, e, hrun, hposted⟩

theorem runAcst_posts {t : BitVec 6} (hv : b.warpAt g.key = some v) (hf : Fits g v) (hm : agree m f b g v)
    (hlegal : storeFormatLegal f.toNat = true) (hy : layoutFits y (storeWidth f.toNat) 128 (fmtScl f.toNat) b g v)
    (hp : postable (some t) b g v) : ∃ sigs e, runAcst t y m g b = .done sigs e ∧
      MatrixPosted g v b e (.acst (namedTile v t) (theLayout b g v y) f.toNat) [] fun _ => committedLane (some (namedTile v t)) := by
  obtain ⟨hfmt, hfirst⟩ := format_agrees hm hf.unprotected
  unfold runAcst
  rw [hv]
  dsimp only
  rw [hfmt, hfirst, hlegal,
    layoutChecks_none hy (others := [formatCheck true f.toNat, tileFail v t.toNat]) (by simp [formatCheck_none, tileFail_none hp])]
  obtain ⟨e, hrun, hposted⟩ := issueMatrix_posts (table := none) hv hf (commandSigs b g v [m])
    (fun _ => .acst (namedTile v t) (theLayout b g v y) f.toNat) (postable_free hp) rfl
  exact ⟨_, e, hrun, hposted⟩

theorem runAcwr_posts {d a : BitVec 7} {t : BitVec 6} (hv : b.warpAt g.key = some v) (hf : Fits g v) (ho : tileOffsets a b g v)
    (hd : cleanData d 1 b g v) (hp : postable (some t) b g v) : ∃ sigs e, runAcwr d a t g b = .done sigs e ∧
      MatrixPosted g v b e (.acwr (namedTile v t) (g.lanes.map fun l => ((readField b g v l a.toNat).val.toNat, readField b g v l d.toNat))) []
        fun _ => committedLane (some (namedTile v t)) := by
  have hclean : ∀ l ∈ g.lanes, (readField b g v l d.toNat).poison = false := fun l hl => by
    simpa [regUp_zero] using hd l hl 0 (by decide)
  unfold runAcwr
  rw [hv]
  dsimp only
  rw [accFail_none ho hp fun l hl x hx => by rw [List.mem_singleton.1 hx, hclean l hl]; rfl, accessLanes_unprotected hf.unprotected]
  obtain ⟨e, hrun, hposted⟩ := issueMatrix_posts (table := none) hv hf (offsetSigs b g v a ++ dataSigs b g v d 4)
    (fun _ => .acwr (namedTile v t) (g.lanes.map fun l => ((readField b g v l a.toNat).val.toNat, readField b g v l d.toNat)))
    (postable_free hp) rfl
  exact ⟨_, e, hrun, hposted⟩

theorem runAcscl_posts {d : BitVec 7} {t : BitVec 6} (hv : b.warpAt g.key = some v) (hf : Fits g v) (hd : agree d f b g v)
    (hp : postable (some t) b g v) : ∃ sigs e, runAcscl d t g b = .done sigs e ∧
      MatrixPosted g v b e (.acscl (namedTile v t) f) [] fun _ => committedLane (some (namedTile v t)) := by
  obtain ⟨hclean, hsame⟩ := votes_agree f g.lanes
  unfold runAcscl
  rw [hv]
  dsimp only
  rw [show ((accessLanes v g.lanes).map fun l => (l, readField b g v l d.toNat)) = _ from formatVotes_agree hd hf.unprotected,
    hclean, hsame, tileFail_none hp, firstVote_agree hd.1]
  obtain ⟨e, hrun, hposted⟩ := issueMatrix_posts (table := none) hv hf (commandSigs b g v [d]) (fun _ => .acscl (namedTile v t) f)
    (postable_free hp) rfl
  exact ⟨_, e, hrun, hposted⟩

/-! `acrd`: each lane awaits its own word (R346). -/

/-- For a scalar destination only the lowest lane's word is kept (R45). -/
def acrdSecond (g : Group) (d : BitVec 7) (l : Nat) : Bool := isScalarDest d.toNat && g.lanes.head? != some l

def acrdDest (g : Group) (v : Warp) (d : BitVec 7) (l : Nat) : Dest := if acrdSecond g d l then .discard else destOf v l d.toNat 1

/-- What a lane keeps of an `acrd`. -/
def acrdLane (g : Group) (v : Warp) (d : BitVec 7) (delay id : Nat) (l : Nat) (x : Lane) : Lane :=
  if delay = 0 then { x with loads := x.loads ++ [id] }
  else if acrdSecond g d l then x
  else { x with commits := x.commits ++ [⟨acrdDest g v d l, delay + 1, none, 0, none, some id⟩] }

theorem acrdSecond_eq (d : BitVec 7) {l : Nat} (hl : l ∈ g.lanes) : acrdSecond g d l = (isScalarDest d.toNat && l != g.lanes.headD 0) := by
  unfold acrdSecond
  cases hls : g.lanes with
  | nil => rw [hls] at hl; exact absurd hl List.not_mem_nil
  | cons x ls => simp [bne, Bool.beq_eq_decide_eq, eq_comm]

theorem runAcrd_posts {d a : BitVec 7} {la : BitVec 4} {t : BitVec 6} (hv : b.warpAt g.key = some v) (hf : Fits g v) (ho : tileOffsets a b g v)
    (hp : postable (some t) b g v) : ∃ sigs e, runAcrd d a la t g b = .done sigs e ∧
      MatrixPosted g v b e (.acrd (namedTile v t) (g.lanes.map fun l => (l, (readField b g v l a.toNat).val.toNat, acrdDest g v d l))) g.lanes
        fun l x => acrdLane g v d (v.delay la.toNat) b.fresh l (committedLane (some (namedTile v t)) x) := by
  obtain ⟨hfull, hpend⟩ := postable_free hp
  have hreads : (g.lanes.map fun l => (l, (readField b g v l a.toNat).val.toNat,
      if isScalarDest d.toNat && l != g.lanes.headD 0 then Dest.discard else destOf v l d.toNat 1)) =
      g.lanes.map fun l => (l, (readField b g v l a.toNat).val.toNat, acrdDest g v d l) :=
    List.map_congr_left fun l hl => by rw [acrdDest, acrdSecond_eq d hl]
  obtain ⟨hposted, hid⟩ := postMatrix_posted (readyToPost_changed hv hf (some (namedTile v t)) [])
    (.acrd (namedTile v t) (g.lanes.map fun l => (l, (readField b g v l a.toNat).val.toNat, acrdDest g v d l))) g.lanes
  unfold runAcrd
  rw [hv]
  dsimp only
  rw [accFail_none ho hp (by simp), hpend _ rfl, hfull, hf.unprotected]
  simp only [Bool.false_eq_true, if_false]
  rw [hreads, show v.segs.abase.toNat + t.toNat = namedTile v t from rfl, show (postMatrix (commitTile b g (namedTile v t)) g v
    (.acrd (namedTile v t) (g.lanes.map fun l => (l, (readField b g v l a.toNat).val.toNat, acrdDest g v d l))) g.lanes).2 = b.fresh from hid]
  by_cases hla : v.delay la.toNat = 0
  · refine ⟨_, _, if_pos hla, (hposted.onLanes hf _).congr fun l hl x => ?_⟩
    rw [if_pos hl, acrdLane, if_pos hla]
    rfl
  · refine ⟨_, _, if_neg hla, (hposted.foldLanes hf (hf.nodup.filter _) (fun l hl => (List.mem_filter.1 hl).1) _).congr fun l hl x => ?_⟩
    rw [acrdLane, if_neg hla, acrdDest]
    have hmem : l ∈ g.lanes.filter (fun l => !isScalarDest d.toNat || l == g.lanes.headD 0) ↔ acrdSecond g d l = false := by
      rw [List.mem_filter, acrdSecond_eq d hl]
      cases isScalarDest d.toNat <;> simp [hl]
    cases hs : acrdSecond g d l with
    | true => rw [if_neg (by rw [hmem, hs]; decide)]; rfl
    | false => rw [if_pos (hmem.2 hs)]; rfl

end

/-- Settles O20: the posts by the common issue (`issueMatrix_posts`, `issueMatrix_awaited`) and `runAcrd_posts`; the check of a layout by
`within_iff`. -/
theorem matrixPosts : Obligations.MatrixPosts := by
  unfold Obligations.MatrixPosts
  refine ⟨fun e d a y m t n la f p saw => ?_, fun y w k lim scl hw hk _ => within_iff (by fin_cases hw <;> decide) (by omega)⟩
  intro F tile keep noting commit await posts table offsets offset
  refine ⟨?_, ?_, fun zero => ?_, ?_, ?_, ?_, ?_, ?_, ?_⟩
  · exact achieves_of (fun _ => rfl) fun g w s v h hv ⟨hm, hlegal, hy, hp, ht⟩ => runBld_posts hv (h.fits hv) hm hlegal hy hp ht
  · exact achieves_of (fun _ => rfl) fun g w s v h hv ⟨hm, hlegal, hn, hp⟩ => runBsel_posts hv (h.fits hv) hm hlegal hn hp
  · intro i
    have hexec : ∀ s, exec i s = issueWord i (runMmaWith zero t y m la) s := by cases zero <;> exact fun _ => rfl
    exact achieves_of hexec fun g w s v h hv ⟨hm, hlegal, hy, hp, ht⟩ => runMmaWith_posts zero hv (h.fits hv) hm hlegal hy hp ht
  · exact achieves_of (fun _ => rfl) fun g w s v h hv hp => runAcz_posts hv (h.fits hv) hp
  · exact achieves_of (fun _ => rfl) fun g w s v h hv ⟨hy, hp⟩ => runAcld_posts hv (h.fits hv) hy hp
  · exact achieves_of (fun _ => rfl) fun g w s v h hv ⟨hm, hlegal, hy, hp⟩ => runAcst_posts hv (h.fits hv) hm hlegal hy hp
  · exact achieves_of (fun _ => rfl) fun g w s v h hv ⟨ho, hp⟩ => runAcrd_posts hv (h.fits hv) ho hp
  · exact achieves_of (fun _ => rfl) fun g w s v h hv ⟨ho, hd, hp⟩ => runAcwr_posts hv (h.fits hv) ho hd hp
  · exact achieves_of (fun _ => rfl) fun g w s v h hv ⟨hd, hp⟩ => runAcscl_posts hv (h.fits hv) hd hp

end Sys2Proof.Machine
end

section
/-! The stacks: refresh of one bank and of all banks, and the repair of data pins (R124, R125, R438, R439). -/

namespace Sys2Proof.Machine

/-! Banks, by what changes one. -/

@[simp] theorem bank_onBank_self (s : State) (k : Nat) (f : Bank → Bank) : (s.onBank k f).bank k = f (s.bank k) := NMap.getD_alter_self ..

theorem bank_onBank_ne (s : State) {j k : Nat} (f : Bank → Bank) (h : j ≠ k) : (s.onBank k f).bank j = s.bank j := NMap.getD_alter_ne h ..

@[simp] theorem bank_bump (s : State) (off n k : Nat) : (s.bump off n).bank k = s.bank k := rfl

theorem count_bump_self (s : State) (off n : Nat) : (s.bump off n).count off = min (s.count off + n) (2 ^ 32 - 1) := NMap.getD_put_self ..

/-! Refresh of a bank (R124). -/

theorem exec_refreshDue {pc bank : Nat} {s : State} (hp : pc < 4096) (hb : bank < 16) (hu : channelUp s pc = true) (hf : s.forcedAt pc = false) :
    exec (.refreshDue pc bank) s = .next (if (s.bank (16 * pc + bank)).postponed ≥ 8 then
        { s with dram := { s.dram with forced := s.dram.forced.insert pc (none, bank) } }
      else if bankBusy s (16 * pc + bank) then
        (s.onBank (16 * pc + bank) fun b => { b with postponed := b.postponed + 1 }).bump (channelCounter pc 12) 1
      else if (s.bank (16 * pc + bank)).runEnd.isNone then startRefresh s pc bank s.clk.ref.toNat
      else s.onBank (16 * pc + bank) fun b => { b with waiting := b.waiting + 1 }) := by
  show execRefreshDue pc bank s = _
  unfold execRefreshDue refreshDueEffect
  rw [if_pos (by simp [hp, hb, hu]), hf, if_neg Bool.false_ne_true]

section
variable {pc bank : Nat}

/-- The eighth postponement triggers a refresh of all banks. -/
theorem refreshDue_triggers : Happens (.refreshDue pc bank)
    (fun s => (pc < 4096 ∧ bank < 16 ∧ channelUp s pc = true ∧ s.forcedAt pc = false) ∧ 8 ≤ (s.bank (16 * pc + bank)).postponed)
    (fun s t => t = { s with dram := { s.dram with forced := s.dram.forced.insert pc (none, bank) } }) := by
  rintro s ⟨⟨hp, hb, hu, hf⟩, h8⟩
  exact ⟨_, exec_refreshDue hp hb hu hf, if_pos h8⟩

theorem refreshDue_postponed : Happens (.refreshDue pc bank)
    (fun s => (pc < 4096 ∧ bank < 16 ∧ channelUp s pc = true ∧ s.forcedAt pc = false) ∧ (s.bank (16 * pc + bank)).postponed < 8 ∧
      bankBusy s (16 * pc + bank) = true)
    (fun s t => t = (s.onBank (16 * pc + bank) fun b => { b with postponed := b.postponed + 1 }).bump (0x10000 + 32 * pc + 12) 1) := by
  rintro s ⟨⟨hp, hb, hu, hf⟩, h8, hbusy⟩
  exact ⟨_, exec_refreshDue hp hb hu hf, by rw [if_neg (Nat.not_le_of_lt h8), if_pos hbusy]; rfl⟩

theorem refreshDue_runs : Happens (.refreshDue pc bank)
    (fun s => (pc < 4096 ∧ bank < 16 ∧ channelUp s pc = true ∧ s.forcedAt pc = false) ∧ (s.bank (16 * pc + bank)).postponed < 8 ∧
      bankBusy s (16 * pc + bank) = false ∧ (s.bank (16 * pc + bank)).runEnd = none)
    (fun s t => t = (s.onBank (16 * pc + bank) fun b => { b with runEnd := some (s.clk.ref.toNat + 24) }).bump (0x10000 + 32 * pc + 8) 1) := by
  rintro s ⟨⟨hp, hb, hu, hf⟩, h8, hbusy, hrun⟩
  exact ⟨_, exec_refreshDue hp hb hu hf, by rw [if_neg (Nat.not_le_of_lt h8), if_neg (by simp [hbusy]), if_pos (by simp [hrun])]; rfl⟩

theorem refreshDue_waits : Happens (.refreshDue pc bank)
    (fun s => (pc < 4096 ∧ bank < 16 ∧ channelUp s pc = true ∧ s.forcedAt pc = false) ∧ (s.bank (16 * pc + bank)).postponed < 8 ∧
      bankBusy s (16 * pc + bank) = false ∧ (s.bank (16 * pc + bank)).runEnd ≠ none)
    (fun s t => t = s.onBank (16 * pc + bank) fun b => { b with waiting := b.waiting + 1 }) := by
  rintro s ⟨⟨hp, hb, hu, hf⟩, h8, hbusy, hrun⟩
  exact ⟨_, exec_refreshDue hp hb hu hf, by
    rw [if_neg (Nat.not_le_of_lt h8), if_neg (by simp [hbusy]), if_neg (by simpa using hrun)]⟩

theorem refreshDue_idle : Idle (.refreshDue pc bank) fun s => 4096 ≤ pc ∨ 16 ≤ bank ∨ channelUp s pc = false ∨ s.forcedAt pc = true := by
  refine idle_of (fun _ => rfl) fun s h => ?_
  split
  next hgo =>
    obtain ⟨⟨hp, hb⟩, hu⟩ : (pc < 4096 ∧ bank < 16) ∧ channelUp s pc = true := by simpa using hgo
    have hf : s.forcedAt pc = true := by
      rcases h with h | h | h | h
      · omega
      · omega
      · rw [hu] at h; cases h
      · exact h
    exact if_pos hf
  next => rfl

theorem postponedRefreshDrain_drains : Happens (.postponedRefreshDrain pc bank) (fun s => bank < 16 ∧ drainDue s pc bank = true)
    (fun s t => t.bank (16 * pc + bank) = { s.bank (16 * pc + bank) with
        postponed := (s.bank (16 * pc + bank)).postponed - 1, runEnd := some (s.clk.ref.toNat + 24) } ∧
      (∀ k, k ≠ 16 * pc + bank → t.bank k = s.bank k) ∧ t.mem = s.mem) := by
  refine happens_of (fun _ => rfl) fun s ⟨hb, hd⟩ => ?_
  rw [if_pos (by simp [hb, hd])]
  unfold startRefresh
  refine ⟨by simp, fun k hk => ?_, rfl⟩
  rw [bank_bump, bank_onBank_ne _ _ hk, bank_onBank_ne _ _ hk]

theorem postponedRefreshDrain_idle : Idle (.postponedRefreshDrain pc bank) fun s =>
    (s.bank (16 * pc + bank)).postponed = 0 ∨ bankBusy s (16 * pc + bank) = true := by
  refine idle_of (fun _ => rfl) fun s h => if_neg ?_
  unfold drainDue
  rcases h with h | h <;> simp [h]

/-! The refresh of all banks of a pseudo-channel (R124, R125). -/

theorem forcedAllBankRefresh_begins (b : Nat) : Happens (.forcedAllBankRefresh pc)
    (fun s => s.dram.forced.find pc = some (none, b) ∧ channelUp s pc = true ∧ refreshesRun s pc = false ∧ ∀ x ∈ s.dram.pauses, x.1 ≠ pc / 8)
    (fun s t => t.dram.forced.find pc = some (some (s.clk.ref.toNat + 82), b) ∧ t.count (0x10000 + 32 * pc + 4) =
        min (s.count (0x10000 + 32 * pc + 4) + 1) (2 ^ 32 - 1) ∧ t.dram.banks = s.dram.banks ∧ t.mem = s.mem) := by
  refine happens_of (fun _ => rfl) fun s ⟨hf, hu, hr, hp⟩ => ?_
  have hready : forcedReady s pc = true := by
    unfold forcedReady
    rw [hf]
    simpa [hu, hr] using fun j e ps hx hj => hp _ hx hj
  rw [if_pos hready]
  refine ⟨?_, count_bump_self .., rfl, rfl⟩
  show NMap.find pc (NMap.adjust pc _ s.dram.forced) = _
  rw [NMap.find_adjust_self, hf]
  rfl

theorem forcedAllBankRefresh_idle : Idle (.forcedAllBankRefresh pc) fun s => s.dram.forced.find pc = none ∨ channelUp s pc = false ∨
    refreshesRun s pc = true ∨ ∃ x ∈ s.dram.pauses, x.1 = pc / 8 := by
  refine idle_of (fun _ => rfl) fun s h => if_neg ?_
  unfold forcedReady
  split
  next x hx =>
    rcases h with h | h | h | ⟨x, hm, hj⟩
    · rw [hx] at h; cases h
    · simp [h]
    · simp [h]
    · simp only [Bool.and_eq_true, Bool.not_eq_true', List.any_eq_false, beq_iff_eq, not_and]
      exact fun _ hall => hall x hm hj
  next => exact Bool.false_ne_true

/-! The end of a refresh. -/

theorem startWaiting_none {s : State} {tick : Nat} (h : (s.bank (16 * pc + bank)).waiting = 0 ∨ s.forcedAt pc = true ∨ channelUp s pc = false) :
    startWaiting s pc bank tick = s := by
  refine if_pos ?_
  rcases h with h | h | h <;> simp [h]

theorem startWaiting_next {s : State} {tick : Nat} (hw : 0 < (s.bank (16 * pc + bank)).waiting) (hf : s.forcedAt pc = false)
    (hu : channelUp s pc = true) : startWaiting s pc bank tick =
      startRefresh (s.onBank (16 * pc + bank) fun b => { b with waiting := b.waiting - 1 }) pc bank tick := by
  refine if_neg ?_
  simp [hf, hu, Nat.pos_iff_ne_zero.1 hw]

/-- A refresh that begins postpones none, and touches no other bank. -/
theorem startWaiting_bank (s : State) (tick k : Nat) : ((startWaiting s pc bank tick).bank k).postponed = (s.bank k).postponed ∧
    (k ≠ 16 * pc + bank → (startWaiting s pc bank tick).bank k = s.bank k) := by
  unfold startWaiting
  dsimp only
  split
  · exact ⟨rfl, fun _ => rfl⟩
  · unfold startRefresh
    rw [bank_bump]
    by_cases hk : k = 16 * pc + bank
    · subst hk; simp
    · rw [bank_onBank_ne _ _ hk, bank_onBank_ne _ _ hk]
      exact ⟨rfl, fun _ => rfl⟩

@[simp] theorem startWaiting_forced (s : State) (tick : Nat) : (startWaiting s pc bank tick).dram.forced = s.dram.forced := by
  unfold startWaiting
  dsimp only
  split <;> rfl

theorem exec_refreshEnd {t₀ : Nat} {s : State} (h : refreshEndAt s pc bank = some t₀) :
    exec (.refreshEnd pc bank) s = .next (refreshEndEffect s pc bank t₀) := by
  show execRefreshEnd pc bank s = _
  unfold execRefreshEnd
  rw [h]

theorem refreshEndAt_bank {t₀ : Nat} {s : State} (hb : bank < 16) (hr : (s.bank (16 * pc + bank)).runEnd = some t₀) (ht : t₀ ≤ s.clk.ref.toNat) :
    refreshEndAt s pc bank = some t₀ := by
  unfold refreshEndAt
  rw [if_pos hb, hr]
  simp [ht]

theorem refreshEnd_ends (t₀ : Nat) : Happens (.refreshEnd pc bank)
    (fun s => bank < 16 ∧ (s.bank (16 * pc + bank)).runEnd = some t₀ ∧ t₀ ≤ s.clk.ref.toNat ∧
      ((s.bank (16 * pc + bank)).waiting = 0 ∨ s.forcedAt pc = true ∨ channelUp s pc = false))
    (fun s t => t = s.onBank (16 * pc + bank) fun b => { b with runEnd := none }) := by
  rintro s ⟨hb, hr, ht, hw⟩
  refine ⟨_, exec_refreshEnd (refreshEndAt_bank hb hr ht), ?_⟩
  unfold refreshEndEffect
  rw [if_pos hb]
  refine startWaiting_none ?_
  rw [bank_onBank_self]
  exact hw

theorem refreshEnd_continues (t₀ : Nat) : Happens (.refreshEnd pc bank)
    (fun s => bank < 16 ∧ (s.bank (16 * pc + bank)).runEnd = some t₀ ∧ t₀ ≤ s.clk.ref.toNat ∧ 0 < (s.bank (16 * pc + bank)).waiting ∧
      s.forcedAt pc = false ∧ channelUp s pc = true)
    (fun s t => t.bank (16 * pc + bank) = { s.bank (16 * pc + bank) with
        runEnd := some (t₀ + 24), waiting := (s.bank (16 * pc + bank)).waiting - 1 } ∧
      ∀ k, k ≠ 16 * pc + bank → t.bank k = s.bank k) := by
  rintro s ⟨hb, hr, ht, hw, hf, hu⟩
  refine ⟨_, exec_refreshEnd (refreshEndAt_bank hb hr ht), ?_⟩
  have hnext := startWaiting_next (bank := bank) (s := s.onBank (16 * pc + bank) fun b => { b with runEnd := none }) (tick := t₀) (by simpa using hw) hf hu
  unfold refreshEndEffect
  rw [if_pos hb]
  dsimp only
  rw [hnext]
  unfold startRefresh
  refine ⟨by simp, fun k hk => ?_⟩
  rw [bank_bump, bank_onBank_ne _ _ hk, bank_onBank_ne _ _ hk, bank_onBank_ne _ _ hk]

/-- After a refresh of all banks: one bank's count falls, unless it triggered the refresh, and a refresh that waited there starts. -/
def afterForced (pc trigger tick : Nat) (s : State) (b : Nat) : State :=
  startWaiting (if b = trigger then s else s.onBank (16 * pc + b) fun x => { x with postponed := x.postponed - 1 }) pc b tick

theorem afterForced_postponed (trigger tick : Nat) (s : State) (b : Nat) : ((afterForced pc trigger tick s b).bank (16 * pc + b)).postponed =
    if b = trigger then (s.bank (16 * pc + b)).postponed else (s.bank (16 * pc + b)).postponed - 1 := by
  unfold afterForced
  rw [(startWaiting_bank ..).1]
  split
  · rfl
  · rw [bank_onBank_self]

theorem afterForced_bank_ne (trigger tick : Nat) (s : State) {b k : Nat} (hk : k ≠ 16 * pc + b) :
    (afterForced pc trigger tick s b).bank k = s.bank k := by
  unfold afterForced
  rw [(startWaiting_bank ..).2 hk]
  split
  · rfl
  · exact bank_onBank_ne _ _ hk

theorem afterForced_forced (trigger tick : Nat) (s : State) (b : Nat) : (afterForced pc trigger tick s b).dram.forced = s.dram.forced := by
  unfold afterForced
  rw [startWaiting_forced]
  split <;> rfl

/-- Banks, one after another, each once. -/
theorem foldl_afterForced (trigger tick : Nat) (bs : List Nat) (s : State) (hn : bs.Nodup) :
    let t := bs.foldl (afterForced pc trigger tick) s
    t.dram.forced = s.dram.forced ∧ (∀ b ∈ bs, (t.bank (16 * pc + b)).postponed =
        if b = trigger then (s.bank (16 * pc + b)).postponed else (s.bank (16 * pc + b)).postponed - 1) ∧
      ∀ k, (∀ b ∈ bs, k ≠ 16 * pc + b) → t.bank k = s.bank k := by
  induction bs generalizing s with
  | nil => exact ⟨rfl, nofun, fun _ _ => rfl⟩
  | cons b bs ih =>
    obtain ⟨hb, hn⟩ := List.nodup_cons.1 hn
    obtain ⟨hforced, hpost, hrest⟩ := ih (afterForced pc trigger tick s b) hn
    refine ⟨hforced.trans (afterForced_forced ..), fun c hc => ?_, fun k hk => ?_⟩
    · rcases List.mem_cons.1 hc with rfl | hc
      · rw [List.foldl_cons, hrest _ fun d hd he => hb (by rwa [Nat.add_left_cancel he]), afterForced_postponed]
      · have hcb : 16 * pc + c ≠ 16 * pc + b := fun he => hb (by rwa [← Nat.add_left_cancel he])
        rw [List.foldl_cons, hpost c hc, afterForced_bank_ne _ _ _ hcb]
    · rw [List.foldl_cons, hrest k fun d hd => hk d (List.mem_cons_of_mem _ hd), afterForced_bank_ne _ _ _ (hk b List.mem_cons_self)]

theorem refreshEnd_forced (t₀ trigger : Nat) : Happens (.refreshEnd pc 16)
    (fun s => s.dram.forced.find pc = some (some t₀, trigger) ∧ t₀ ≤ s.clk.ref.toNat)
    (fun s t => t.dram.forced.find pc = none ∧ (∀ b < 16, (t.bank (16 * pc + b)).postponed =
        if b = trigger then (s.bank (16 * pc + b)).postponed else (s.bank (16 * pc + b)).postponed - 1) ∧
      ∀ k, k / 16 ≠ pc → t.bank k = s.bank k) := by
  rintro s ⟨hf, ht⟩
  have hat : refreshEndAt s pc 16 = some t₀ := by
    unfold refreshEndAt
    rw [if_neg (by decide), hf]
    simp [ht]
  have heff : refreshEndEffect s pc 16 t₀ =
      (List.range 16).foldl (afterForced pc trigger t₀) { s with dram := { s.dram with forced := s.dram.forced.erase pc } } := by
    unfold refreshEndEffect
    rw [if_neg (by decide), hf]
    simp only [Option.map_some, Option.getD_some, beq_iff_eq]
    rfl
  obtain ⟨hforced, hpost, hrest⟩ := foldl_afterForced (pc := pc) trigger t₀ (List.range 16)
    { s with dram := { s.dram with forced := s.dram.forced.erase pc } } List.nodup_range
  refine ⟨_, exec_refreshEnd hat, ?_⟩
  rw [heff]
  refine ⟨?_, fun b hb => hpost b (List.mem_range.2 hb), fun k hk => hrest k fun b hb he => ?_⟩
  · rw [hforced]
    exact NMap.find_erase_self ..
  · have := List.mem_range.1 hb
    omega

theorem refreshEnd_idle : Idle (.refreshEnd pc bank) fun s => bank < 16 ∧ ∀ e, (s.bank (16 * pc + bank)).runEnd = some e → s.clk.ref.toNat < e := by
  refine idle_of (fun _ => rfl) fun s ⟨hb, he⟩ => ?_
  have hnone : refreshEndAt s pc bank = none := by
    unfold refreshEndAt
    rw [if_pos hb]
    refine Option.filter_eq_none_iff.2 fun e h => ?_
    simpa using he e h
  rw [hnone]

end

/-! Data pins (R438, R439). -/

/-- t is s but for the repair of data pins, the host's queues and the state of the attachment. -/
structure PinsOnly (s t : State) : Prop where
  thr : t.thr = s.thr
  mem : t.mem = s.mem
  work : t.work = s.work
  banks : t.dram.banks = s.dram.banks
  forced : t.dram.forced = s.dram.forced

theorem PinsOnly.all {s t : State} (h : PinsOnly s t) :
    t.thr = s.thr ∧ t.mem = s.mem ∧ t.work = s.work ∧ t.dram.banks = s.dram.banks ∧ t.dram.forced = s.dram.forced :=
  ⟨h.thr, h.mem, h.work, h.banks, h.forced⟩

/-- t is s with pins left in service, and the package's replacement asked for where that is the cause. -/
structure PinsLeft (s t : State) (ps : List Nat) (cause : Bool) : Prop where
  only : PinsOnly s t
  left : t.dram.left = s.dram.left ++ ps
  pauses : t.dram.pauses = s.dram.pauses
  asked : t.dram.asked = s.dram.asked
  host : t.host = s.host
  clk : t.clk = s.clk
  replaced : cause = true → ps ≠ [] → t.att.replacement = true ∧ (s.att.cause = 0 → t.att.cause = 4)
  kept : cause = false → t.att = s.att

theorem leavePins_left (s : State) (ps : List Nat) (cause : Bool) : PinsLeft s (leavePins s ps cause) ps cause := by
  unfold leavePins
  cases ps with
  | nil => exact ⟨⟨rfl, rfl, rfl, rfl, rfl⟩, (List.append_nil _).symm, rfl, rfl, rfl, rfl, fun _ h => absurd rfl h, fun _ => rfl⟩
  | cons p ps =>
    cases cause with
    | false => exact ⟨⟨rfl, rfl, rfl, rfl, rfl⟩, rfl, rfl, rfl, rfl, rfl, nofun, fun _ => rfl⟩
    | true => exact ⟨⟨rfl, rfl, rfl, rfl, rfl⟩, rfl, rfl, rfl, rfl, rfl, fun _ _ => ⟨rfl, fun h => if_pos (by simpa using h)⟩, nofun⟩

/-- t is s with a group paused for as many pins as it has redundant pins for, and the others left in service. -/
structure PinsPaused (s t : State) (group : Nat) (ps : List Nat) : Prop where
  only : PinsOnly s t
  pause : t.dram.pauses.find group = if ps.take (pinsFree s group) = [] then s.dram.pauses.find group
    else some (s.clk.ref.toNat + 800, ps.take (pinsFree s group))
  left : t.dram.left = s.dram.left ++ ps.drop (pinsFree s group)
  asked : t.dram.asked = s.dram.asked
  host : t.host = s.host
  replaced : ps.drop (pinsFree s group) ≠ [] → t.att.replacement = true ∧ (s.att.cause = 0 → t.att.cause = 4)

theorem repairPins_paused (s : State) (group : Nat) (ps : List Nat) : PinsPaused s (repairPins s group ps) group ps := by
  obtain ⟨honly, hleft, hpauses, hasked, hhost, hclk, hrep, -⟩ := leavePins_left s (ps.drop (pinsFree s group)) true
  unfold repairPins
  dsimp only
  generalize leavePins s (ps.drop (pinsFree s group)) true = u at honly hleft hpauses hasked hhost hclk hrep ⊢
  split
  next hnil => exact ⟨honly, by rw [if_pos (List.isEmpty_iff.1 hnil), hpauses], hleft, hasked, hhost, hrep rfl⟩
  next hnil =>
    refine ⟨⟨honly.thr, honly.mem, honly.work, honly.banks, honly.forced⟩, ?_, hleft, hasked, hhost, hrep rfl⟩
    rw [if_neg (mt List.isEmpty_iff.2 hnil), ← hclk]
    exact NMap.find_insert_self ..

section
variable {stack pin : Nat}

/-- A pin can be attended to. -/
def pinDueNow (stack pin : Nat) (s : State) : Prop := stack < 8 ∧ pin < 2048 ∧ repairReady s (2048 * stack + pin) = true

theorem exec_pinRepairDue {s : State} (h : pinDueNow stack pin s) :
    exec (.pinRepairDue stack pin) s = .next (pinDueEffect s (2048 * stack + pin)) := by
  obtain ⟨hs, hp, hr⟩ := h
  show execPinRepairDue stack pin s = _
  unfold execPinRepairDue
  rw [if_pos (by simp [hs, hp, hr])]

/-- The due pins of a group, in rising order. -/
theorem groupPins_eq (s : State) (p : Nat) :
    (List.range 32).filterMap (fun i => if repairReady s (32 * (p / 32) + i) then some (32 * (p / 32) + i) else none) =
      ((List.range 32).map (p / 32 * 32 + ·)).filter (repairReady s ·) := by
  rw [List.filter_map, ← List.filterMap_eq_map, List.filterMap_filter, Nat.mul_comm]
  rfl

theorem pinRepairDue_pauses : Happens (.pinRepairDue stack pin) (fun s => pinDueNow stack pin s ∧ s.hostMode 5 = false)
    (fun s t => PinsPaused s t ((2048 * stack + pin) / 32)
      (((List.range 32).map ((2048 * stack + pin) / 32 * 32 + ·)).filter (repairReady s ·))) := by
  rintro s ⟨hd, hm⟩
  refine ⟨_, exec_pinRepairDue hd, ?_⟩
  unfold pinDueEffect
  rw [hm, if_neg Bool.false_ne_true]
  unfold pinGroup
  rw [groupPins_eq]
  exact repairPins_paused ..

theorem pinRepairDue_asks : Happens (.pinRepairDue stack pin) (fun s => pinDueNow stack pin s ∧ s.hostMode 5 = true)
    (fun s t => PinsOnly s t ∧ ∃ x ∈ t.host.pending, x.kind = 6 ∧ x.die = 4 ∧ x.payload = pinPayload s (2048 * stack + pin) ∧
      t.dram.asked = s.dram.asked ++ [(x.tag, 2048 * stack + pin)]) := by
  rintro s ⟨hd, hm⟩
  refine ⟨_, exec_pinRepairDue hd, ?_⟩
  unfold pinDueEffect
  rw [hm, if_pos rfl]
  have hrest := raiseEvent_rest s 6 4 (pinPayload s (2048 * stack + pin))
  have hpending := raiseEvent_pending s 6 4 (pinPayload s (2048 * stack + pin))
  have htag : (raiseEvent s 6 4 (pinPayload s (2048 * stack + pin))).2 = s.fresh % 65536 := rfl
  generalize raiseEvent s 6 4 (pinPayload s (2048 * stack + pin)) = u at hrest hpending htag ⊢
  obtain ⟨u, tag⟩ := u
  dsimp only at hrest hpending htag ⊢
  have hasked : u.dram.asked = s.dram.asked := by rw [hrest]
  refine ⟨?_, _, hpending ▸ List.mem_append_right _ (List.mem_singleton_self _), rfl, rfl, rfl, by rw [hasked, htag]⟩
  rw [hrest]
  exact ⟨rfl, rfl, rfl, rfl, rfl⟩

theorem pinRepairDue_idle : Idle (.pinRepairDue stack pin) fun s => s.dram.errors.getD (2048 * stack + pin) 0 < 16 := by
  refine idle_of (fun _ => rfl) fun s h => if_neg ?_
  unfold repairReady pinDue
  simp [Nat.not_le_of_lt h]

end

/-! The pause of a group (R438). -/

theorem foldl_erase_find {α : Type} (ks : List Nat) (m : NMap α) {k : Nat} (h : k ∈ ks ∨ m.find k = none) :
    (ks.foldl (fun m k => m.erase k) m).find k = none := by
  induction ks generalizing m with
  | nil => simpa using h
  | cons j ks ih =>
    refine ih _ ?_
    by_cases hk : k = j
    · subst hk; exact .inr (NMap.find_erase_self ..)
    · rw [NMap.find_erase_ne hk]
      exact h.imp_left fun hm => (List.mem_cons.1 hm).resolve_left hk

theorem pinRepairPauseEnd_repairs (stack group e : Nat) (ps : List Nat) : Happens (.pinRepairPauseEnd stack group)
    (fun s => stack < 8 ∧ group < 64 ∧ s.dram.pauses.find (64 * stack + group) = some (e, ps))
    (fun s t => PinsOnly s t ∧ t.dram.pauses.find (64 * stack + group) = none ∧ (∀ q ∈ ps, t.dram.errors.getD q 0 = 0) ∧
      t.dram.repaired.getD (64 * stack + group) 0 = s.dram.repaired.getD (64 * stack + group) 0 + ps.length) := by
  refine happens_of (fun _ => rfl) fun s ⟨hs, hg, hf⟩ => ?_
  rw [if_pos (by simp [hs, hg]), hf]
  dsimp only
  refine ⟨⟨rfl, rfl, rfl, rfl, rfl⟩, NMap.find_erase_self .., fun q hq => ?_, NMap.getD_alter_self s.dram.repaired _ (· + ps.length) 0⟩
  show ((ps.foldl (fun e p => e.erase p) s.dram.errors).find q).getD 0 = 0
  rw [foldl_erase_find ps _ (.inl hq)]
  rfl

theorem pinRepairPauseEnd_idle (stack group : Nat) : Idle (.pinRepairPauseEnd stack group) fun s =>
    s.dram.pauses.find (64 * stack + group) = none := by
  refine idle_of (fun _ => rfl) fun s h => ?_
  rw [h]
  split <;> rfl

/-! The host's answer about a pin (R439). -/

theorem exec_dramRepairAnswer {tag q : Nat} {w8 : BitVec 64} {e : HostEvent} {s : State} (he : pendingEvent s 6 tag = some e)
    (hq : s.dram.asked.find? (fun x => x.1 == tag) = some (tag, q)) :
    exec (.dramRepairAnswer tag w8) s = .next (if 1 < w8.toNat || (w8 == 0 && repairHeld s q) then s else repairAnswerEffect s e q w8) := by
  show execDramRepairAnswer tag w8 s = _
  unfold execDramRepairAnswer
  rw [he, hq]

/-- A state in which an event about a pin has been answered. -/
def pinAnswered (s : State) (e : HostEvent) (q : Nat) : State :=
  { s.answered e with dram := { s.dram with asked := s.dram.asked.filter fun x => x.2 != q } }

theorem pinAnswered_asked (s : State) (e : HostEvent) (q : Nat) : ∀ x ∈ (pinAnswered s e q).dram.asked, x.2 ≠ q := fun x hx => by
  simpa using (List.mem_filter.1 hx).2

theorem dramRepairAnswer_repairs (tag q : Nat) (w8 : BitVec 64) (e : HostEvent) : Happens (.dramRepairAnswer tag w8)
    (fun s => pendingEvent s 6 tag = some e ∧ s.dram.asked.find? (fun x => x.1 == tag) = some (tag, q) ∧ w8 = 0 ∧ repairHeld s q = false ∧
      0 < pinsFree s (q / 32))
    (fun s t => PinsOnly s t ∧ e ∉ t.host.pending ∧ (∀ x ∈ t.dram.asked, x.2 ≠ q) ∧
      t.dram.pauses.find (q / 32) = some (s.clk.ref.toNat + 800, [q])) := by
  rintro s ⟨he, hq, rfl, hheld, hfree⟩
  refine ⟨_, exec_dramRepairAnswer he hq, ?_⟩
  rw [if_neg (by simp [hheld])]
  obtain ⟨honly, hpause, -, hasked, hhost, -⟩ := repairPins_paused (pinAnswered s e q) (q / 32) [q]
  have htake : [q].take (pinsFree (pinAnswered s e q) (q / 32)) = [q] := List.take_of_length_le hfree
  rw [htake, if_neg (List.cons_ne_nil _ _)] at hpause
  show PinsOnly s (repairPins (pinAnswered s e q) (q / 32) [q]) ∧ _
  refine ⟨⟨honly.thr, honly.mem, honly.work, honly.banks, honly.forced⟩, ?_, ?_, hpause⟩
  · exact hhost ▸ answered_done s e
  · exact hasked ▸ pinAnswered_asked s e q

theorem dramRepairAnswer_leaves (tag q : Nat) (w8 : BitVec 64) (e : HostEvent) : Happens (.dramRepairAnswer tag w8)
    (fun s => pendingEvent s 6 tag = some e ∧ s.dram.asked.find? (fun x => x.1 == tag) = some (tag, q) ∧ w8 = 1)
    (fun s t => PinsOnly s t ∧ e ∉ t.host.pending ∧ (∀ x ∈ t.dram.asked, x.2 ≠ q) ∧ t.dram.left = s.dram.left ++ [q] ∧ t.att = s.att) := by
  rintro s ⟨he, hq, rfl⟩
  refine ⟨_, exec_dramRepairAnswer he hq, ?_⟩
  rw [if_neg (by simp)]
  obtain ⟨honly, hleft, -, hasked, hhost, -, -, hatt⟩ := leavePins_left (pinAnswered s e q) [q] false
  show PinsOnly s (leavePins (pinAnswered s e q) [q] false) ∧ _
  refine ⟨⟨honly.thr, honly.mem, honly.work, honly.banks, honly.forced⟩, ?_, ?_, hleft, hatt rfl⟩
  · exact hhost ▸ answered_done s e
  · exact hasked ▸ pinAnswered_asked s e q

theorem dramRepairAnswer_idle (tag : Nat) (w8 : BitVec 64) : Idle (.dramRepairAnswer tag w8) fun s =>
    pendingEvent s 6 tag = none ∨ 1 < w8.toNat := by
  refine idle_of (fun _ => rfl) fun s h => ?_
  split
  next e x pin he hq =>
    rcases h with h | h
    · rw [he] at h; cases h
    · exact if_pos (by simp [h])
  next => rfl

/-- Settles O49, event by event. -/
theorem refreshAndPinEvents : Obligations.RefreshAndPinEvents := by
  intro pc bank stack pin group tag w8 e
  refine ⟨refreshDue_triggers, refreshDue_postponed, refreshDue_runs, refreshDue_waits, refreshDue_idle, forcedAllBankRefresh_begins,
    forcedAllBankRefresh_idle, postponedRefreshDrain_drains, postponedRefreshDrain_idle, fun t₀ => ⟨refreshEnd_ends t₀, refreshEnd_continues t₀⟩,
    refreshEnd_forced, refreshEnd_idle, fun s h => ?_, fun s h => ?_, pinRepairDue_idle, fun e ps s h => ?_,
    pinRepairPauseEnd_idle stack group, fun q => ⟨fun s h => ?_, fun s h => ?_⟩, dramRepairAnswer_idle tag w8⟩
  · obtain ⟨t, ht, hp⟩ := pinRepairDue_pauses s h
    exact ⟨t, ht, hp.only.all, hp.pause, hp.left, hp.replaced⟩
  · obtain ⟨t, ht, hp, hx⟩ := pinRepairDue_asks s h
    exact ⟨t, ht, hp.all, hx⟩
  · obtain ⟨t, ht, hp, hx⟩ := pinRepairPauseEnd_repairs stack group e ps s h
    exact ⟨t, ht, hp.all, hx⟩
  · obtain ⟨t, ht, hp, hx⟩ := dramRepairAnswer_repairs tag q w8 e s h
    exact ⟨t, ht, hp.all, hx⟩
  · obtain ⟨t, ht, hp, hx⟩ := dramRepairAnswer_leaves tag q w8 e s h
    exact ⟨t, ht, hp.all, hx⟩

end Sys2Proof.Machine
end

section
/-! Lines that leave L1s together (R115, R117, R121, R437). -/

namespace Sys2Proof.Machine

/-- t is s after lines have left L1s without a notice: the copies named by ks are gone, monitors may have been hit. -/
structure CopiesLost (s t : State) (ks : List Nat) : Prop where
  rest : t = { s with mem := { s.mem with l1 := t.mem.l1 }, thr := { s.thr with warps := t.thr.warps } }
  written : HomeWritten s t
  gone : ∀ k ∈ ks, t.mem.l1.find k = none
  kept : ∀ k, k ∉ ks → t.mem.l1.find k = s.mem.l1.find k

section
variable {s t : State} {ks : List Nat} (h : CopiesLost s t ks)
include h

theorem CopiesLost.cfg : t.cfg = s.cfg := by rw [h.rest]

theorem CopiesLost.att : t.att = s.att := by rw [h.rest]

theorem CopiesLost.work : t.work = s.work := by rw [h.rest]

theorem CopiesLost.dram : t.dram = s.dram := by rw [h.rest]

theorem CopiesLost.hbm : t.mem.hbm = s.mem.hbm := by rw [h.rest]

theorem CopiesLost.l2 : t.mem.l2 = s.mem.l2 := by rw [h.rest]

theorem CopiesLost.ops : t.mem.ops = s.mem.ops := by rw [h.rest]

theorem CopiesLost.readsAlike : ReadsAlike s t := by
  rw [h.rest]
  exact .of_homes rfl rfl rfl rfl

end

theorem loseL1_lost (s : State) (core line : Nat) : CopiesLost s (s.loseL1 core line false) [l1Key core line] := by
  refine ⟨?_, .loseL1 .., fun k hk => ?_, fun k hk => loseL1_find_ne s false (by simpa using hk)⟩
  · unfold State.loseL1
    split <;> rfl
  · rw [List.mem_singleton.1 hk]
    exact loseL1_find_self ..

theorem CopiesLost.trans {s t u : State} {ks js : List Nat} (h : CopiesLost s t ks) (h' : CopiesLost t u js) : CopiesLost s u (ks ++ js) := by
  refine ⟨by rw [h'.rest, h.rest], h.written.trans h'.written, fun k hk => ?_, fun k hk => ?_⟩
  · by_cases hj : k ∈ js
    · exact h'.gone k hj
    · rw [h'.kept k hj]
      exact h.gone k ((List.mem_append.1 hk).resolve_right hj)
  · rw [List.mem_append, not_or] at hk
    rw [h'.kept k hk.2, h.kept k hk.1]

theorem foldl_loseL1_lost {α : Type} (core line : α → Nat) (xs : List α) (s : State) :
    CopiesLost s (xs.foldl (fun s x => s.loseL1 (core x) (line x) false) s) (xs.map fun x => l1Key (core x) (line x)) := by
  induction xs generalizing s with
  | nil => exact ⟨rfl, .refl s, nofun, fun _ _ => rfl⟩
  | cons x xs ih => exact (loseL1_lost s (core x) (line x)).trans (ih _)

theorem invalidateL1s_lost (s : State) (cores : List Nat) (line : Nat) : CopiesLost s (s.invalidateL1s cores line) (cores.map (l1Key · line)) :=
  foldl_loseL1_lost id (fun _ => line) cores s

end Sys2Proof.Machine
end

section
/-! The failure of home slices: what waits on their lines ends or is tried again (R120 to R122, R263). -/

namespace Sys2Proof.Machine

/-! Reports, messages and deliveries leave the accesses alone. -/

/-- t has the configuration of s and the same state of the attachment. -/
structure ConfigStands (s t : State) : Prop where
  cfg : t.cfg = s.cfg
  att : t.att = s.att

/-- t has the accesses of s too. -/
structure AccessesStand (s t : State) : Prop extends ConfigStands s t where
  ops : t.mem.ops = s.mem.ops

theorem ConfigStands.trans {s t u : State} (h : ConfigStands s t) (h' : ConfigStands t u) : ConfigStands s u :=
  ⟨h'.cfg.trans h.cfg, h'.att.trans h.att⟩

theorem ConfigStands.foldl {α : Type} {f : State → α → State} (hf : ∀ s x, ConfigStands s (f s x)) (s : State) (xs : List α) :
    ConfigStands s (xs.foldl f s) := by
  induction xs generalizing s with
  | nil => exact ⟨rfl, rfl⟩
  | cons x xs ih => exact (hf s x).trans (ih _)

theorem ConfigStands.dieDead {s t : State} (h : ConfigStands s t) (pa : Nat) : t.dieDead pa = s.dieDead pa := by
  unfold State.dieDead
  rw [h.cfg]

namespace AccessesStand

theorem refl (s : State) : AccessesStand s s := ⟨⟨rfl, rfl⟩, rfl⟩

theorem trans {s t u : State} (h : AccessesStand s t) (h' : AccessesStand t u) : AccessesStand s u :=
  ⟨h.toConfigStands.trans h'.toConfigStands, h'.ops.trans h.ops⟩

theorem of_homeWritten {s t : State} (h : HomeWritten s t) : AccessesStand s t :=
  ⟨⟨by rw [h.rest], by rw [h.rest]⟩, by rw [h.mem]⟩

theorem of_fabric {s t : State} (h : FabricOnly s t) : AccessesStand s t := by
  rw [h]
  exact ⟨⟨rfl, rfl⟩, rfl⟩

/-- A change that leaves all three alone, by definition, after one that does. -/
theorem before {s t u : State} (h : AccessesStand t u) (hc : t.cfg = s.cfg) (ha : t.att = s.att) (ho : t.mem.ops = s.mem.ops) :
    AccessesStand s u := (⟨⟨hc, ha⟩, ho⟩ : AccessesStand s t).trans h

theorem foldl {α : Type} {f : State → α → State} (hf : ∀ s x, AccessesStand s (f s x)) (s : State) (xs : List α) :
    AccessesStand s (xs.foldl f s) := by
  induction xs generalizing s with
  | nil => exact refl s
  | cons x xs ih => exact (hf s x).trans (ih _)

theorem ite {c : Prop} [Decidable c] {s t u : State} (h : AccessesStand s t) (h' : AccessesStand s u) : AccessesStand s (if c then t else u) := by
  split
  · exact h
  · exact h'

theorem send (s : State) (p : Nat) (relaxed : Bool) (m : Msg) : AccessesStand s (s.send p relaxed m) := of_fabric (send_fabric ..)

theorem poolWrite (s : State) (pa : Nat) (bs : List Byte) : AccessesStand s (s.poolWrite pa bs) := by
  unfold State.poolWrite
  refine foldl (fun s ⟨o, a, m⟩ => ?_) s _
  exact ite (of_homeWritten (.hwWrite ..)) (before (send ..) rfl rfl rfl)

theorem poolAsk (s : State) (pa n : Nat) : AccessesStand s (s.poolAsk pa n) := by
  unfold State.poolAsk
  refine foldl (fun s ⟨o, a, m⟩ => ?_) s _
  exact ite (refl s) (before (send ..) rfl rfl rfl)

theorem poolDrop (s : State) (pa n : Nat) : AccessesStand s (s.poolDrop pa n) := ⟨⟨rfl, rfl⟩, rfl⟩

theorem domainWrite (s : State) (sys : Bool) (ctx a : Nat) (bs : List Byte) : AccessesStand s (s.domainWrite sys ctx a bs) := by
  unfold State.domainWrite State.storeVirt
  refine ite (poolWrite ..) (ite (refl s) ?_)
  split
  · exact ite (refl s) (ite (of_homeWritten (.pageWrite ..)) ((poolWrite ..).trans (ite (poolWrite ..) (refl _))))
  · exact refl s

theorem putReport (s : State) (p : PendingReport) (ring log producer consumer lost : Nat) :
    AccessesStand s (s.putReport p ring log producer consumer lost) := by
  unfold State.putReport
  exact ite (domainWrite ..) (ite (refl s) ((domainWrite ..).trans ((domainWrite ..).trans (domainWrite ..))))

theorem tryReport {s t : State} {p : PendingReport} (h : s.tryReport p = some t) : AccessesStand s t := by
  unfold State.tryReport at h
  dsimp only at h
  split at h
  · cases h
  · cases h; exact refl s
  · split at h
    · cases h; exact ⟨⟨rfl, rfl⟩, rfl⟩
    · split at h
      · cases h; exact refl s
      · obtain ⟨r, -, rfl⟩ := Option.map_eq_some_iff.1 h
        exact (putReport ..).trans (ite ((poolDrop ..).trans (poolDrop ..)) (poolDrop ..))

theorem askReport (s : State) (p : PendingReport) : AccessesStand s (s.askReport p) := by
  have hblock : AccessesStand s (if p.ring.isNone then s.poolAsk (s.cfg.sysDomain + 40) 24 else s) := ite (poolAsk ..) (refl s)
  unfold State.askReport
  dsimp only
  split
  · exact hblock.trans (poolAsk ..)
  · exact hblock

theorem pumpReports (n : Nat) (s : State) : AccessesStand s (pumpReports n s) := by
  induction n generalizing s with
  | zero => exact refl s
  | succ n ih =>
    unfold Machine.pumpReports
    split
    · exact refl s
    · split
      · next h => exact (tryReport h).trans (before (ih _) rfl rfl rfl)
      · exact askReport ..

theorem writeReport (s : State) (ring : Option (Nat × Nat)) (sys : Bool) (ctx : Nat) (r : Report) :
    AccessesStand s (writeReport s ring sys ctx r) := before (pumpReports ..) rfl rfl rfl

theorem reportSystem (s : State) (r : Report) : AccessesStand s (reportSystem s r) :=
  ite ⟨⟨rfl, rfl⟩, rfl⟩ (writeReport ..)

theorem haltOthers (s : State) (wg except : Nat) : AccessesStand s (haltOthers s wg except) := by
  unfold Machine.haltOthers
  split
  · exact refl s
  · refine foldl (fun s k => ?_) s _
    exact ite (refl s) ⟨⟨rfl, rfl⟩, rfl⟩

theorem containContext (s : State) (ctx pa : Nat) : AccessesStand s (s.containContext ctx pa) := by
  have hhalt : ∀ s, AccessesStand s ((s.work.groups.filter fun x => s.groupCtx x.1 == some ctx).foldl (fun (s : State) (x : Nat × WorkGroup) =>
      if x.2.resident && !x.2.dead then Machine.haltOthers (s.onGroup x.1 fun g => { g with contained := some pa }) x.1 (2 ^ 64) else s) s) :=
    fun s => by
      refine foldl (fun s x => ?_) s _
      exact ite (before (haltOthers ..) rfl rfl rfl) (refl s)
  unfold State.containContext
  refine ite (refl s) ?_
  dsimp only
  split
  · exact (writeReport ..).trans (before (hhalt _) rfl rfl rfl)
  · exact (reportSystem ..).trans (before (hhalt _) rfl rfl rfl)

theorem containAgent (s : State) (a : Agent) (pa : Nat) : AccessesStand s (containAgent s a pa) := by
  unfold Machine.containAgent
  split
  · exact containContext ..
  · exact refl s

theorem deliver (s : State) (agent : Agent) (id : Nat) (lanes : List Nat) (dest : Dest) (vals : List PWord) :
    AccessesStand s (deliver s agent id lanes dest vals) := by
  rw [deliver_rest]
  exact ⟨⟨rfl, rfl⟩, rfl⟩

theorem failThreadWrite (s : State) (id k : Nat) (w : WriteOp) : AccessesStand s (failThreadWrite s id k w) := by
  unfold Machine.failThreadWrite
  dsimp only
  exact (ite (deliver ..) (refl s)).trans ⟨⟨rfl, rfl⟩, rfl⟩

end AccessesStand

/-! The end of an access at a failed slice. -/

/-- An access that ends in error is dropped; nothing else of the accesses changes. -/
theorem failOp_drops (s : State) (id : Nat) (o : MemOp) : AccessesStand (s.dropOp id) (failOp s id o) := by
  cases o with
  | load l => exact .ite (.refl _) ((AccessesStand.deliver ..).trans (.containAgent ..))
  | write w =>
    unfold failOp
    dsimp only
    refine AccessesStand.trans (t := dropArrivals (s.dropOp id) id) ⟨⟨rfl, rfl⟩, rfl⟩ (AccessesStand.trans ?_ (.containAgent ..))
    split
    · exact .failThreadWrite ..
    · exact ⟨⟨rfl, rfl⟩, rfl⟩
    · exact ⟨⟨rfl, rfl⟩, rfl⟩
    · exact .refl _

/-- t is s with one access ended, or moved to a slice that lives. -/
structure AccessSettled (s t : State) (id : Nat) : Prop extends ConfigStands s t where
  others : ∀ j, j ≠ id → t.mem.ops.find j = s.mem.ops.find j
  lives : ∀ o, t.mem.ops.find id = some o → s.dieDead o.pa = false

theorem AccessSettled.of_dropped {s t : State} {id : Nat} (h : AccessesStand (s.dropOp id) t) : AccessSettled s t id := by
  refine ⟨⟨h.cfg, h.att⟩, fun j hj => ?_, fun o ho => ?_⟩
  · rw [h.ops]
    exact NMap.find_erase_ne hj _
  · rw [h.ops, show (s.dropOp id).mem.ops.find id = none from NMap.find_erase_self ..] at ho
    cases ho

theorem AccessSettled.of_moved {s : State} {id : Nat} {o : MemOp} (h : s.dieDead o.pa = false) : AccessSettled s (s.onOp id fun _ => o) id := by
  refine ⟨⟨rfl, rfl⟩, fun j hj => NMap.find_adjust_ne hj _ _, fun x hx => ?_⟩
  rw [show (s.onOp id fun _ => o).mem.ops.find id = (s.mem.ops.find id).map fun _ => o from NMap.find_adjust_self ..] at hx
  obtain ⟨-, -, rfl⟩ := Option.map_eq_some_iff.1 hx
  exact h

theorem retryOp_settled {s : State} {id : Nat} {o : MemOp} (h : s.dieDead (mirrorPartner o.pa) = false) : AccessSettled s (retryOp s id o) id := by
  unfold retryOp
  cases o with
  | load l => exact .of_moved h
  | write w =>
    dsimp only
    split
    · refine .of_dropped ?_
      have hd := AccessesStand.deliver s w.agent id w.lanes w.dest ‹_›
      exact ⟨⟨hd.cfg, hd.att⟩, congrArg (NMap.erase id) hd.ops⟩
    · exact .of_moved h

theorem settleOp_settled (s : State) (x : Nat × MemOp) : AccessSettled s (settleOp s x) x.1 := by
  unfold settleOp
  split
  next h => exact retryOp_settled (by simpa using (Bool.and_eq_true_iff.1 h).2)
  next => exact .of_dropped (failOp_drops ..)

/-- The accesses that wait on a failed slice are among those with the numbers ids. -/
def DeadAmong (s : State) (ids : List Nat) : Prop := ∀ j o, s.mem.ops.find j = some o → s.dieDead o.pa = true → j ∈ ids

/-- Settling them one after another leaves none. -/
theorem foldl_settleOp (xs : List (Nat × MemOp)) (s : State) (h : DeadAmong s (xs.map (·.1))) :
    ConfigStands s (xs.foldl settleOp s) ∧ DeadAmong (xs.foldl settleOp s) [] := by
  induction xs generalizing s with
  | nil => exact ⟨⟨rfl, rfl⟩, h⟩
  | cons x xs ih =>
    have hx := settleOp_settled s x
    obtain ⟨hc, hd⟩ := ih (settleOp s x) fun j o ho hdead => by
      rw [hx.dieDead] at hdead
      by_cases hj : j = x.1
      · subst hj
        rw [hx.lives o ho] at hdead
        cases hdead
      · rw [hx.others j hj] at ho
        exact (List.mem_cons.1 (h j o ho hdead)).resolve_left hj
    exact ⟨hx.toConfigStands.trans hc, hd⟩

theorem mem_of_find {α : Type} {m : NMap α} {k : Nat} {v : α} (h : m.find k = some v) : (k, v) ∈ m := by
  induction m with
  | nil => cases h
  | cons x m ih =>
    obtain ⟨j, u⟩ := x
    unfold NMap.find at h
    split at h
    next hj =>
      cases h
      exact hj ▸ List.mem_cons_self
    next => exact List.mem_cons_of_mem _ (ih h)

/-- Nothing waits on a failed slice any more (R121, R122). -/
theorem settleDead_settles (s : State) : ConfigStands s (settleDead s) ∧
    ∀ id o, (settleDead s).mem.ops.find id = some o → (settleDead s).dieDead o.pa = false := by
  obtain ⟨hc, hd⟩ := foldl_settleOp (deadOps s) s fun j o ho hdead =>
    List.mem_map.2 ⟨(j, o), List.mem_filter.2 ⟨mem_of_find ho, hdead⟩, rfl⟩
  exact ⟨hc, fun id o ho => Bool.eq_false_iff.2 fun h => List.not_mem_nil (hd id o ho h)⟩

/-! The failure of slices. -/

theorem settleApplied_stands (s : State) (id : Nat) : ConfigStands s (settleApplied s id) := by
  unfold settleApplied
  split
  · split
    · exact ⟨rfl, rfl⟩
    · exact ⟨(failOp_drops ..).cfg, (failOp_drops ..).att⟩
  · exact ⟨rfl, rfl⟩

/-- Slices of which one has not failed yet fail: what waits on them is settled last. -/
theorem failSlices_eq {s : State} {mask : BitVec 128} (pa : Nat) (h : mask &&& ~~~s.cfg.deadSlices ≠ 0) :
    ∃ u, ConfigStands { s with cfg := { s.cfg with deadSlices := s.cfg.deadSlices ||| mask } } u ∧ failSlices s mask pa = settleDead u := by
  refine ⟨_, ?_, if_neg (by simpa using h)⟩
  dsimp only
  refine ConfigStands.trans ?_ (AccessesStand.reportSystem ..).toConfigStands
  refine ConfigStands.trans ?_ (ConfigStands.foldl settleApplied_stands ..)
  have hlost := foldl_loseL1_lost (α := Nat × L1Line) (fun x => x.1 / 2 ^ 45) (fun x => x.1 % 2 ^ 45)
  refine ConfigStands.trans ?_ (AccessesStand.of_homeWritten (hlost _ _).written).toConfigStands
  exact ⟨rfl, rfl⟩

/-- Slices fail: the configuration says so, the attachment stands, and nothing waits on them. -/
theorem failSlices_fails {s : State} {mask : BitVec 128} (pa : Nat) (h : mask &&& ~~~s.cfg.deadSlices ≠ 0) :
    (failSlices s mask pa).cfg = { s.cfg with deadSlices := s.cfg.deadSlices ||| mask } ∧ (failSlices s mask pa).att = s.att ∧
      ∀ id o, (failSlices s mask pa).mem.ops.find id = some o → (failSlices s mask pa).dieDead o.pa = false := by
  obtain ⟨u, hu, he⟩ := failSlices_eq pa h
  obtain ⟨hc, hd⟩ := settleDead_settles u
  rw [he]
  exact ⟨hc.cfg.trans hu.cfg, hc.att.trans hu.att, hd⟩

/-- Slices that may have failed before. -/
theorem failSlices_stands (s : State) (mask : BitVec 128) (pa : Nat) :
    (failSlices s mask pa).cfg = { s.cfg with deadSlices := s.cfg.deadSlices ||| mask } ∧ (failSlices s mask pa).att = s.att := by
  by_cases h : mask &&& ~~~s.cfg.deadSlices = 0
  · have hs : failSlices s mask pa = s := if_pos (by simpa using h)
    have hmask : s.cfg.deadSlices ||| mask = s.cfg.deadSlices := by
      refine BitVec.eq_of_getLsbD_eq fun i hi => ?_
      have hbit := congrArg (·.getLsbD i) h
      simp only [BitVec.getLsbD_and, BitVec.getLsbD_not, hi, decide_true, Bool.true_and] at hbit
      rw [BitVec.getLsbD_or]
      revert hbit
      cases mask.getLsbD i <;> simp
    rw [hs, hmask]
    exact ⟨rfl, rfl⟩
  · obtain ⟨hc, ha, -⟩ := failSlices_fails pa h
    exact ⟨hc, ha⟩

/-! HOME_TIMEOUT (R121, R263). -/

theorem dieSlices_getLsbD {die i : Nat} (hi : i < 128) : (dieSlices die).getLsbD i = decide (i / 32 = die) := by
  unfold dieSlices
  rw [BitVec.getLsbD_ofNat, Nat.testBit_mul_two_pow, Nat.testBit_two_pow_sub_one]
  simp only [hi, decide_true, Bool.true_and]
  rw [← Bool.decide_and]
  exact decide_eq_decide.2 (by omega)

/-- The slice of a line lies on the die that its placement names. -/
theorem sliceOfLine_die (pa : Nat) : sliceOfLine (lineOf pa) < 128 ∧ sliceOfLine (lineOf pa) / 32 = hashDie (placementHash (frameOf pa)) := by
  unfold sliceOfLine lineOf
  rw [Nat.mul_comm, frameOf_line_base]
  have hd : hashDie (placementHash (frameOf pa)) < 4 := Nat.mod_lt _ (by decide)
  have hk : hashSlice (placementHash (frameOf pa)) < 32 := Nat.mod_lt _ (by decide)
  dsimp only
  omega

/-- A die of which a line lives has slices that have not failed. -/
theorem dieSlices_live {s : State} {die pa : Nat} (hr : timeoutReady s die pa = true) (hd : s.dieDead pa = false) :
    dieSlices die &&& ~~~s.cfg.deadSlices ≠ 0 := by
  obtain ⟨hlt, hdie⟩ := sliceOfLine_die pa
  have hname : hashDie (placementHash (frameOf pa)) = die := by
    unfold timeoutReady at hr
    simp only [Bool.and_eq_true, beq_iff_eq] at hr
    exact hr.1.1.2
  intro h
  have hbit := congrArg (·.getLsbD (sliceOfLine (lineOf pa))) h
  rw [BitVec.getLsbD_and, BitVec.getLsbD_not, dieSlices_getLsbD hlt, show s.cfg.deadSlices.getLsbD (sliceOfLine (lineOf pa)) = false from hd] at hbit
  simp [hlt, hdie, hname] at hbit

theorem exec_homeTimeout {die pa : Nat} {s : State} (hr : timeoutReady s die pa = true) :
    exec (.homeTimeout die pa) s = .next (timeoutEffect s die pa) := by
  show execHomeTimeout die pa s = _
  unfold execHomeTimeout
  rw [if_pos hr]

theorem homeTimeout_declares (die pa : Nat) : Happens (.homeTimeout die pa)
    (fun s => timeoutReady s die pa = true ∧ s.dieDead pa = false ∧ s.mem.ops.wf = true)
    (fun s t => t.cfg = { s.cfg with deadSlices := s.cfg.deadSlices ||| dieSlices die } ∧ t.att.replacement = true ∧
      ∀ id o, t.mem.ops.find id = some o → t.dieDead o.pa = false) := by
  rintro s ⟨hr, hd, -⟩
  refine ⟨_, exec_homeTimeout hr, ?_⟩
  unfold timeoutEffect
  rw [hd, if_neg Bool.false_ne_true]
  obtain ⟨hc, ha, ho⟩ := failSlices_fails (s := s.requestReplacement 2) pa (dieSlices_live hr hd)
  exact ⟨hc, by rw [ha]; rfl, ho⟩

theorem homeTimeout_again (die pa : Nat) : Happens (.homeTimeout die pa)
    (fun s => timeoutReady s die pa = true ∧ s.dieDead pa = true ∧ s.mem.ops.wf = true)
    (fun s t => t.cfg = s.cfg ∧ ∀ id o, t.mem.ops.find id = some o → t.dieDead o.pa = false) := by
  rintro s ⟨hr, hd, -⟩
  refine ⟨_, exec_homeTimeout hr, ?_⟩
  unfold timeoutEffect
  rw [if_pos hd]
  exact ⟨(settleDead_settles s).1.cfg, (settleDead_settles s).2⟩

theorem homeTimeout_idle (die pa : Nat) : Idle (.homeTimeout die pa) fun s => 4 ≤ die ∨ timeoutReady s die pa = false := by
  refine idle_of (fun _ => rfl) fun s h => if_neg ?_
  rcases h with h | h
  · unfold timeoutReady
    simp [Nat.not_lt.2 h]
  · simp [h]

end Sys2Proof.Machine
end

section
/-! Map-out commands: cores, dies, stacks, channels, links and ports (R435 to R437, R440). -/

namespace Sys2Proof.Machine

/-! The command (R436). -/

/-- The state in which a map-out command's word stands in its register. -/
def mapAsked (s : State) (kind index : Nat) : State := s.setCfg64 0x1028 (kind + 2 ^ 16 * index)

@[simp] theorem mapStatus_setMapStatus (s : State) (st : Nat) : (s.setMapStatus st).mapStatus = st := by
  show (NMap.find 0x1030 (NMap.insert 0x1030 st s.att.regs)).getD 1 = st
  rw [NMap.find_insert_self]
  rfl

theorem mapStatus_congr {s t : State} (h : t.att = s.att) : t.mapStatus = s.mapStatus := by
  unfold State.mapStatus
  rw [h]

theorem mapOut_busy {s : State} {w : Nat} (h : s.mapStatus = 0) : mapOut s w = s := if_pos (by simpa using h)

theorem mapWord_kind {kind index : Nat} (h : kind < 16) : bits 3 0 (mapWord kind index) = kind := by
  unfold bits mapWord
  omega

theorem mapWord_index {kind index : Nat} (h : kind < 16) (hi : index < 4096) : bits 27 16 (mapWord kind index) = index := by
  unfold bits mapWord
  omega

theorem exec_mapOutCore {core : Nat} {s : State} (hc : core < 128) (hf : s.mapStatus ≠ 0) :
    exec (.mapOutCore core) s = .next (mapCore (mapAsked s 1 core) core) := by
  show execMapOutCore core s = _
  unfold execMapOutCore mapOut
  rw [if_pos hc, if_neg (by simpa using hf), mapWord_kind (by decide), mapWord_index (by decide) (by omega)]
  exact congrArg _ (if_pos hc)

theorem exec_mapOutCDie {die : Nat} {s : State} (hd : die < 4) (hf : s.mapStatus ≠ 0) :
    exec (.mapOutCDie die) s = .next (mapDie (mapAsked s 2 die) die) := by
  show execMapOutCDie die s = _
  unfold execMapOutCDie mapOut
  rw [if_pos hd, if_neg (by simpa using hf), mapWord_kind (by decide), mapWord_index (by decide) (by omega)]
  exact congrArg _ (if_pos hd)

theorem exec_mapOutStack {stack : Nat} {s : State} (hk : stack < 8) (hf : s.mapStatus ≠ 0) :
    exec (.mapOutStack stack) s = .next (mapStack (mapAsked s 3 stack) stack) := by
  show execMapOutStack stack s = _
  unfold execMapOutStack mapOut
  rw [if_pos hk, if_neg (by simpa using hf), mapWord_kind (by decide), mapWord_index (by decide) (by omega)]
  exact congrArg _ (if_pos hk)

theorem exec_mapOutPseudoChannel {pc : Nat} {s : State} (hp : pc < 4096) (hf : s.mapStatus ≠ 0) :
    exec (.mapOutPseudoChannel pc) s = .next (mapChannel (mapAsked s 4 pc) pc) := by
  show execMapOutPseudoChannel pc s = _
  unfold execMapOutPseudoChannel mapOut
  rw [if_pos hp, if_neg (by simpa using hf), mapWord_kind (by decide), mapWord_index (by decide) hp]
  rfl

theorem exec_mapOutDieLink {link : Nat} {s : State} (hl : link < 6) (hf : s.mapStatus ≠ 0) :
    exec (.mapOutDieLink link) s = .next (mapLink (mapAsked s 5 link) link) := by
  show execMapOutDieLink link s = _
  unfold execMapOutDieLink mapOut
  rw [if_pos hl, if_neg (by simpa using hf), mapWord_kind (by decide), mapWord_index (by decide) (by omega)]
  exact congrArg _ (if_pos hl)

theorem exec_mapOutStolilPort {port : Nat} {s : State} (hp : port < 15) (hf : s.mapStatus ≠ 0) :
    exec (.mapOutStolilPort port) s = .next (mapPort (mapAsked s 6 port) port) := by
  show execMapOutStolilPort port s = _
  unfold execMapOutStolilPort mapOut
  rw [if_pos hp, if_neg (by simpa using hf), mapWord_kind (by decide), mapWord_index (by decide) (by omega)]
  exact congrArg _ (if_pos hp)

/-- An event that is a map-out command does nothing while one is busy. -/
theorem mapOut_idle {i : Instr} {c : Prop} [Decidable c] {w : Nat} (he : ∀ s, exec i s = .next (if c then mapOut s w else s)) :
    Idle i fun s => ¬ s.mapStatus ≠ 0 := by
  refine idle_of he fun s h => ?_
  rw [mapOut_busy (not_not.1 h), ite_self]

/-- The package's replacement is asked for, and the command is done. -/
def ReplacementAsked (t : State) : Prop := t.att.replacement = true ∧ t.mapStatus = 1

theorem mapDone_asks (s : State) : ReplacementAsked (mapDone s) := ⟨rfl, mapStatus_setMapStatus ..⟩

/-! Cores (R437). -/

/-- The lines of a core's L1. -/
def coreLines (s : State) (core : Nat) : List Nat := (s.mem.l1.filter fun x => x.1 / 2 ^ 45 == core).map fun x => x.1 % 2 ^ 45

theorem mem_coreLines {s : State} {core line : Nat} {x : L1Line} (hl : line < 2 ^ 45) (hx : s.l1Line core line = some x) :
    line ∈ coreLines s core := by
  have hkey : l1Key core line / 2 ^ 45 = core ∧ l1Key core line % 2 ^ 45 = line := by
    unfold l1Key
    omega
  exact List.mem_map.2 ⟨_, List.mem_filter.2 ⟨mem_of_find hx, by simpa using hkey.1⟩, hkey.2⟩

/-- t is s without the cores' copies, which their sharer records and notices forget. -/
structure CoreForgotten (s t : State) (core : Nat) : Prop where
  cfg : t.cfg = s.cfg
  att : t.att = s.att
  work : t.work = s.work
  hbm : t.mem.hbm = s.mem.hbm
  copies : ∀ line < 2 ^ 45, t.l1Line core line = none

theorem forgetCore_forgets (s : State) (core : Nat) : CoreForgotten s (forgetCore s core) core := by
  have hlost : CopiesLost s ((coreLines s core).foldl (fun s line => s.loseL1 core line false) s) ((coreLines s core).map (l1Key core ·)) :=
    foldl_loseL1_lost (fun _ => core) id ..
  have hl1 : (forgetCore s core).mem.l1 = ((coreLines s core).foldl (fun s line => s.loseL1 core line false) s).mem.l1 := rfl
  refine ⟨hlost.cfg, hlost.att, hlost.work, hlost.hbm, fun line hline => ?_⟩
  unfold State.l1Line
  rw [hl1]
  by_cases hk : l1Key core line ∈ (coreLines s core).map (l1Key core ·)
  · exact hlost.gone _ hk
  · rw [hlost.kept _ hk]
    exact Option.eq_none_iff_forall_ne_some.2 fun x hx => hk (List.mem_map_of_mem (mem_coreLines hline hx))

theorem mapCore_out {s : State} {core : Nat} (h : s.coreOut core = true) : mapCore s core = s.setMapStatus 1 := if_pos h

theorem mapCore_refused {s : State} {core : Nat} (h : s.coreOut core = false) (he : coreEmpty s core = false) :
    mapCore s core = s.setMapStatus 2 := by
  unfold mapCore
  rw [h, he]
  rfl

theorem mapCore_done {s : State} {core : Nat} (h : s.coreOut core = false) (he : coreEmpty s core = true) :
    mapCore s core = mapDone (forgetCore { s with cfg := { s.cfg with outCores := s.cfg.outCores ++ [core] } } core) := by
  have hin : s.cfg.outCores.contains core = false := (Bool.or_eq_false_iff.1 h).1
  unfold mapCore outCore
  rw [h, he, hin]
  rfl

theorem mapOutCore_takesOut (core : Nat) : Happens (.mapOutCore core)
    (fun s => core < 128 ∧ s.mapStatus ≠ 0 ∧ s.coreOut core = false ∧ coreEmpty s core = true)
    (fun s t => ReplacementAsked t ∧ t.cfg = { s.cfg with outCores := s.cfg.outCores ++ [core] } ∧
      (∀ line < 2 ^ 45, t.l1Line core line = none) ∧ t.mem.hbm = s.mem.hbm ∧ t.work = s.work) := by
  rintro s ⟨hc, hf, hout, hempty⟩
  obtain ⟨hcfg, -, hwork, hhbm, hcopies⟩ := forgetCore_forgets
    { mapAsked s 1 core with cfg := { s.cfg with outCores := s.cfg.outCores ++ [core] } } core
  refine ⟨_, exec_mapOutCore hc hf, ?_⟩
  rw [mapCore_done (s := mapAsked s 1 core) hout hempty]
  exact ⟨mapDone_asks _, hcfg, hcopies, hhbm, hwork⟩

theorem mapOutCore_refused (core : Nat) : Happens (.mapOutCore core)
    (fun s => core < 128 ∧ s.mapStatus ≠ 0 ∧ s.coreOut core = false ∧ coreEmpty s core = false)
    (fun s t => t = (mapAsked s 1 core).setMapStatus 2) :=
  fun s ⟨hc, hf, hout, he⟩ => ⟨_, exec_mapOutCore hc hf, mapCore_refused (s := mapAsked s 1 core) hout he⟩

theorem mapOutCore_out (core : Nat) : Happens (.mapOutCore core)
    (fun s => core < 128 ∧ s.mapStatus ≠ 0 ∧ s.coreOut core = true) (fun s t => t = (mapAsked s 1 core).setMapStatus 1) :=
  fun s ⟨hc, hf, hout⟩ => ⟨_, exec_mapOutCore hc hf, mapCore_out (s := mapAsked s 1 core) hout⟩

/-! Dies (R436). -/

/-- t is s with cores out of service. -/
structure CoresOut (s t : State) (cs : List Nat) : Prop where
  cfg : t.cfg = { s.cfg with outCores := t.cfg.outCores }
  att : t.att = s.att
  kept : ∀ c ∈ s.cfg.outCores, c ∈ t.cfg.outCores
  out : ∀ c ∈ cs, c ∈ t.cfg.outCores

theorem outCore_out (s : State) (core : Nat) : CoresOut s (outCore s core) [core] := by
  unfold outCore
  split
  next h => exact ⟨rfl, rfl, fun _ hc => hc, fun c hc => by simpa [List.mem_singleton.1 hc] using h⟩
  next h =>
    obtain ⟨hcfg, hatt, -, -, -⟩ := forgetCore_forgets { s with cfg := { s.cfg with outCores := s.cfg.outCores ++ [core] } } core
    refine ⟨by rw [hcfg], hatt, ?_, ?_⟩
    · rw [hcfg]
      exact fun c hc => List.mem_append_left _ hc
    · rw [hcfg]
      exact fun c hc => List.mem_append_right _ hc

theorem foldl_outCore (cs : List Nat) (s : State) : CoresOut s (cs.foldl outCore s) cs := by
  induction cs generalizing s with
  | nil => exact ⟨rfl, rfl, fun _ hc => hc, nofun⟩
  | cons c cs ih =>
    have hc := outCore_out s c
    have hcs := ih (outCore s c)
    refine ⟨by rw [List.foldl_cons, hcs.cfg, hc.cfg], hcs.att.trans hc.att, fun d hd => hcs.kept d (hc.kept d hd), fun d hd => ?_⟩
    rcases List.mem_cons.1 hd with rfl | hd
    · exact hcs.kept d (hc.out d List.mem_cons_self)
    · exact hcs.out d hd

theorem mem_coresOf {die c : Nat} : c ∈ coresOf die ↔ c / 32 = die := by
  unfold coresOf
  simp only [List.mem_map, List.mem_range]
  exact ⟨fun ⟨i, hi, he⟩ => by omega, fun h => ⟨c % 32, by omega, by omega⟩⟩

/-- Every core of a die is empty. -/
theorem coresOf_all_empty {s : State} {die : Nat} : (coresOf die).all (coreEmpty s) = true ↔ ∀ c, c / 32 = die → coreEmpty s c = true := by
  simp only [List.all_eq_true, mem_coresOf]

theorem mapDie_refused {s : State} {die : Nat} (h : die ∉ s.att.outDies)
    (hb : (∃ c, c / 32 = die ∧ coreEmpty s c = false) ∨ ∃ x ∈ s.work.contracts, x.2.usesDie die = true) : mapDie s die = s.setMapStatus 2 := by
  unfold mapDie
  rw [if_neg (by simpa using h), if_pos]
  rcases hb with ⟨c, hc, he⟩ | hx
  · have hall : (coresOf die).all (coreEmpty s) = false := Bool.eq_false_iff.2 fun ha =>
      Bool.false_ne_true (he.symm.trans (coresOf_all_empty.1 ha c hc))
    rw [hall]
    rfl
  · rw [List.any_eq_true.2 hx, Bool.or_true]

theorem mapDie_done {s : State} {die : Nat} (h : die ∉ s.att.outDies) (he : ∀ c, c / 32 = die → coreEmpty s c = true)
    (hx : ∀ x ∈ s.work.contracts, x.2.usesDie die = false) :
    ReplacementAsked (mapDie s die) ∧ (mapDie s die).att.outDies = s.att.outDies ++ [die] ∧
      (∀ c, c / 32 = die → c ∈ (mapDie s die).cfg.outCores) ∧ (mapDie s die).cfg.deadSlices = s.cfg.deadSlices ||| dieSlices die := by
  have hcontracts : (s.work.contracts.any fun x => x.2.usesDie die) = false := List.any_eq_false.2 fun x hm => by simpa using hx x hm
  have hout := foldl_outCore (coresOf die) s
  unfold mapDie
  rw [if_neg (by simpa using h), coresOf_all_empty.2 he, hcontracts, if_neg (by decide)]
  generalize (coresOf die).foldl outCore s = u at hout ⊢
  obtain ⟨hcfg, hatt⟩ := failSlices_stands { mapDone u with att := { (mapDone u).att with outDies := (mapDone u).att.outDies ++ [die] } }
    (dieSlices die) 0
  refine ⟨⟨?_, (mapStatus_congr hatt).trans (mapStatus_setMapStatus ..)⟩, ?_, fun c hc => ?_, ?_⟩
  · rw [hatt]
    rfl
  · rw [hatt]
    exact congrArg (·.outDies ++ [die]) hout.att
  · rw [hcfg]
    exact hout.out c (mem_coresOf.2 hc)
  · rw [hcfg]
    exact congrArg (·.deadSlices ||| dieSlices die) hout.cfg

theorem mapOutCDie_takesOut (die : Nat) : Happens (.mapOutCDie die)
    (fun s => die < 4 ∧ s.mapStatus ≠ 0 ∧ die ∉ s.att.outDies ∧ (∀ c < 128, c / 32 = die → coreEmpty s c = true) ∧
      ∀ x ∈ s.work.contracts, x.2.usesDie die = false)
    (fun s t => ReplacementAsked t ∧ t.att.outDies = s.att.outDies ++ [die] ∧ (∀ c < 128, c / 32 = die → c ∈ t.cfg.outCores) ∧
      t.cfg.deadSlices = s.cfg.deadSlices ||| dieSlices die) := by
  rintro s ⟨hd, hf, hin, hempty, huse⟩
  obtain ⟨hasked, hdies, hcores, hdead⟩ := mapDie_done (s := mapAsked s 2 die) hin (fun c hc => hempty c (by omega) hc) huse
  exact ⟨_, exec_mapOutCDie hd hf, hasked, hdies, fun c _ hc => hcores c hc, hdead⟩

theorem mapOutCDie_refused (die : Nat) : Happens (.mapOutCDie die)
    (fun s => die < 4 ∧ s.mapStatus ≠ 0 ∧ die ∉ s.att.outDies ∧ ((∃ c < 128, c / 32 = die ∧ coreEmpty s c = false) ∨
      ∃ x ∈ s.work.contracts, x.2.usesDie die = true))
    (fun s t => t = (mapAsked s 2 die).setMapStatus 2) :=
  fun s ⟨hd, hf, hin, hb⟩ => ⟨_, exec_mapOutCDie hd hf, mapDie_refused (s := mapAsked s 2 die) hin (hb.imp_left fun ⟨c, _, h⟩ => ⟨c, h⟩)⟩

/-! Stacks (R436). -/

theorem mapStack_refused {s : State} {stack : Nat} (h : stack ∉ s.att.outStacks) (hs : allStopped s = false) :
    mapStack s stack = s.setMapStatus 2 := by
  unfold mapStack
  rw [if_neg (by simpa using h), hs]
  rfl

theorem mapStack_done {s : State} {stack : Nat} (h : stack ∉ s.att.outStacks) (hs : allStopped s = true) :
    ReplacementAsked (mapStack s stack) ∧ (mapStack s stack).att.outStacks = s.att.outStacks ++ [stack] ∧
      (mapStack s stack).cfg.deadSlices = s.cfg.deadSlices ||| stackSlices stack := by
  obtain ⟨hcfg, hatt⟩ := failSlices_stands (mapDone { s with att := { s.att with outStacks := s.att.outStacks ++ [stack] } }) (stackSlices stack) 0
  unfold mapStack
  rw [if_neg (by simpa using h), hs, if_neg (by decide)]
  refine ⟨⟨?_, (mapStatus_congr hatt).trans (mapStatus_setMapStatus ..)⟩, ?_, ?_⟩
  · rw [hatt]
    rfl
  · rw [hatt]
    rfl
  · rw [hcfg]
    rfl

theorem mapOutStack_takesOut (stack : Nat) : Happens (.mapOutStack stack)
    (fun s => stack < 8 ∧ s.mapStatus ≠ 0 ∧ stack ∉ s.att.outStacks ∧ allStopped s = true)
    (fun s t => ReplacementAsked t ∧ t.att.outStacks = s.att.outStacks ++ [stack] ∧
      t.cfg.deadSlices = s.cfg.deadSlices ||| stackSlices stack) :=
  fun s ⟨hk, hf, hin, hs⟩ => ⟨_, exec_mapOutStack hk hf, mapStack_done (s := mapAsked s 3 stack) hin hs⟩

theorem mapOutStack_refused (stack : Nat) : Happens (.mapOutStack stack)
    (fun s => stack < 8 ∧ s.mapStatus ≠ 0 ∧ stack ∉ s.att.outStacks ∧ allStopped s = false)
    (fun s t => t = (mapAsked s 3 stack).setMapStatus 2) :=
  fun s ⟨hk, hf, hin, hs⟩ => ⟨_, exec_mapOutStack hk hf, mapStack_refused (s := mapAsked s 3 stack) hin hs⟩

/-! Pseudo-channels (R440). -/

theorem mapChannel_refused {s : State} {pc : Nat} (h : pc ∉ s.dram.dropped)
    (hb : allStopped s = false ∨ 8 ≤ slicesDropped s (sliceOfChannel pc)) : mapChannel s pc = s.setMapStatus 2 := by
  unfold mapChannel
  rw [if_neg (by simpa using h), if_pos]
  rcases hb with hb | hb <;> simp [hb]

theorem mapChannel_copies {s : State} {pc : Nat} (h : pc ∉ s.dram.dropped) (hs : allStopped s = true)
    (hfew : slicesDropped s (sliceOfChannel pc) < 8) :
    mapChannel s pc = { s with dram := { s.dram with copying := s.dram.copying ++ [pc] } }.setMapStatus 0 := by
  unfold mapChannel
  rw [if_neg (by simpa using h), if_neg (by simp [hs, hfew])]

theorem mapOutPseudoChannel_copies (pc : Nat) : Happens (.mapOutPseudoChannel pc)
    (fun s => pc < 4096 ∧ s.mapStatus ≠ 0 ∧ pc ∉ s.dram.dropped ∧ allStopped s = true ∧ slicesDropped s (sliceOfChannel pc) < 8)
    (fun s t => t.mapStatus = 0 ∧ t.dram = { s.dram with copying := s.dram.copying ++ [pc] } ∧ t.mem = s.mem ∧ t.work = s.work) := by
  rintro s ⟨hp, hf, hin, hs, hfew⟩
  refine ⟨_, exec_mapOutPseudoChannel hp hf, ?_⟩
  rw [mapChannel_copies (s := mapAsked s 4 pc) hin hs hfew]
  exact ⟨mapStatus_setMapStatus .., rfl, rfl, rfl⟩

theorem mapOutPseudoChannel_refused (pc : Nat) : Happens (.mapOutPseudoChannel pc)
    (fun s => pc < 4096 ∧ s.mapStatus ≠ 0 ∧ pc ∉ s.dram.dropped ∧ (allStopped s = false ∨ 8 ≤ slicesDropped s (sliceOfChannel pc)))
    (fun s t => t = (mapAsked s 4 pc).setMapStatus 2) :=
  fun s ⟨hp, hf, hin, hb⟩ => ⟨_, exec_mapOutPseudoChannel hp hf, mapChannel_refused (s := mapAsked s 4 pc) hin hb⟩

/-- A state without the lines that are lost, in its slices and in its stacks. -/
def withoutLines (s : State) (lost : Nat → Bool) : State :=
  { s with mem := { s.mem with
    l2 := s.mem.l2.filter fun x => !lost x.1
    hbm := { cells := s.mem.hbm.cells.filter fun x => !lost (x.1 / 128), poison := s.mem.hbm.poison.filter fun k => !lost (k / 4) } } }

/-- It holds the other lines as before. -/
theorem withoutLines_homes (s : State) (lost : Nat → Bool) {a : Nat} (h : lost (a / 128) = false) :
    (withoutLines s lost).homeByte a = s.homeByte a ∧ (withoutLines s lost).homePoison a = s.homePoison a := by
  have hl2 : (withoutLines s lost).mem.l2.find (lineOf a) = s.mem.l2.find (lineOf a) := by
    refine (find_filter_keys (fun k => !lost k) s.mem.l2 (lineOf a)).trans (if_pos ?_)
    show (!lost (a / 128)) = true
    rw [h]
    rfl
  have hread : (withoutLines s lost).mem.hbm.read a = s.mem.hbm.read a := by
    refine (cellsRead_filter (fun k => !lost (k / 128)) s.mem.hbm.cells a).trans (if_pos ?_)
    simpa using h
  have hpoison : (withoutLines s lost).mem.hbm.poisoned (a / 32) = s.mem.hbm.poisoned (a / 32) := by
    have hline : a / 32 / 4 = a / 128 := by omega
    unfold withoutLines Mem.poisoned
    rw [Bool.eq_iff_iff]
    simp [hline, h]
  refine ⟨?_, ?_⟩
  · unfold State.homeByte
    rw [hl2, hread]
  · unfold State.homePoison
    rw [hl2, hpoison]
    rfl

theorem lostLine_congr {s t : State} (hc : t.cfg = s.cfg) (hd : t.dram = s.dram) (slice : Nat) : lostLine t slice = lostLine s slice := by
  funext line
  unfold lostLine State.backed State.homePackage State.survivors
  rw [hc, hd]

/-- Lines that no frame backs any more leave the L1s, the slices and the stacks (R440). -/
theorem discardLines_eq (s : State) (slice : Nat) : ∃ u ks, CopiesLost s u ks ∧ discardLines s slice = withoutLines u (lostLine s slice) := by
  have hlost := foldl_loseL1_lost (α := Nat × L1Line) (fun x => x.1 / 2 ^ 45) (fun x => x.1 % 2 ^ 45)
    (s.mem.l1.filter fun x => lostLine s slice (x.1 % 2 ^ 45)) s
  exact ⟨_, _, hlost, Eq.trans (b := withoutLines _ (lostLine _ slice)) rfl (congrArg _ (lostLine_congr hlost.cfg hlost.dram slice))⟩

/-- What the copy of a drop changes before lines are discarded: failed sectors are poisoned and counted. -/
theorem poisonCopied_rest (s : State) (slice : Nat) (failed : List Nat) : (poisonCopied s slice failed).dram = s.dram := by
  have hbump : ∀ (ks : List Nat) (s : State), (ks.foldl (fun s k => s.bump (channelCounter (s.channelOf (k / 4)) 20) 1) s).dram = s.dram := by
    intro ks
    induction ks with
    | nil => exact fun _ => rfl
    | cons k ks ih => exact fun s => ih _
  exact hbump ..

/-- The copy of a drop ends: the survivors serve the lines that are still backed. -/
theorem pseudoChannelDropCopyEnd_drops (pc : Nat) (failed : List Nat) : Happens (.pseudoChannelDropCopyEnd pc failed)
    (fun s => pc ∈ s.dram.copying ∧ s.mem.hbm.wf = true)
    (fun s t => ReplacementAsked t ∧ t.dram.dropped = s.dram.dropped ++ [pc] ∧ pc ∉ t.dram.copying ∧
      (failed = [] → ∀ a, t.backed a = true → t.homeByte a = s.homeByte a ∧ t.homePoison a = s.homePoison a)) := by
  rintro s ⟨hin, -⟩
  have hdram := poisonCopied_rest s (sliceOfChannel pc) failed
  obtain ⟨v, hv⟩ : ∃ v, v = { poisonCopied s (sliceOfChannel pc) failed with dram := { s.dram with
    copying := s.dram.copying.filter (· != pc), dropped := s.dram.dropped ++ [pc] } } := ⟨_, rfl⟩
  obtain ⟨u, ks, hlost, hdiscard⟩ := discardLines_eq v (sliceOfChannel pc)
  refine ⟨mapDone (withoutLines u (lostLine v (sliceOfChannel pc))), ?_, mapDone_asks _, ?_, ?_, ?_⟩
  · show execPseudoChannelDropCopyEnd pc failed s = _
    unfold execPseudoChannelDropCopyEnd dropEndEffect
    rw [if_pos (by simpa using hin), ← hdiscard, hv, ← hdram]
  · show u.dram.dropped = _
    rw [hlost.dram, hv]
  · show pc ∉ u.dram.copying
    rw [hlost.dram, hv]
    simp
  · rintro rfl a hb
    have hkeep : lostLine v (sliceOfChannel pc) (a / 128) = false := by
      have hback : v.backed a = true := by
        have hcongr : (mapDone (withoutLines u (lostLine v (sliceOfChannel pc)))).backed a = u.backed a := rfl
        rw [← hlost.readsAlike.backed, ← hcongr, hb]
      unfold lostLine
      rw [backed_line_base, hback]
      exact Bool.and_false _
    obtain ⟨hbyte, hpoison⟩ := withoutLines_homes u (lostLine v (sliceOfChannel pc)) hkeep
    refine ⟨(hbyte.trans (hlost.readsAlike.byte a)).trans ?_, (hpoison.trans (hlost.readsAlike.poison a)).trans ?_⟩ <;> (rw [hv]; rfl)

theorem pseudoChannelDropCopyEnd_idle (pc : Nat) (failed : List Nat) : Idle (.pseudoChannelDropCopyEnd pc failed) fun s => pc ∉ s.dram.copying :=
  idle_of (fun _ => rfl) fun s h => if_neg (by simpa using h)

/-! Die links (R436). -/

@[simp] theorem link_onLink_self (s : State) (j : Nat) (f : DieLink → DieLink) : (s.onLink j f).link j = f (s.link j) := NMap.getD_alter_self ..

theorem link_onLink_ne (s : State) {k j : Nat} (f : DieLink → DieLink) (h : k ≠ j) : (s.onLink j f).link k = s.link k := NMap.getD_alter_ne h ..

theorem mapLink_refused {s : State} {j : Nat} (h : (s.link j).out = false) (hh : (s.link j).held = false) : mapLink s j = s.setMapStatus 2 := by
  unfold mapLink
  rw [h, hh]
  rfl

theorem link_mapDone (s : State) (j : Nat) : (mapDone s).link j = s.link j := rfl

theorem mapLink_done {s : State} {j : Nat} (h : (s.link j).out = false) (hh : (s.link j).held = true) :
    ReplacementAsked (mapLink s j) ∧ (mapLink s j).link j = { s.link j with out := true } ∧
      (∀ k, k ≠ j → (mapLink s j).link k = s.link k) ∧ (mapLink s j).mem = s.mem := by
  have he : mapLink s j = mapDone (s.onLink j fun l => { l with out := true }) := by
    unfold mapLink
    rw [h, hh]
    rfl
  rw [he]
  refine ⟨mapDone_asks _, ?_, fun k hk => ?_, rfl⟩
  · rw [link_mapDone, link_onLink_self]
  · rw [link_mapDone, link_onLink_ne _ _ hk]

theorem mapOutDieLink_takesOut (link : Nat) : Happens (.mapOutDieLink link)
    (fun s => link < 6 ∧ s.mapStatus ≠ 0 ∧ (s.link link).out = false ∧ (s.link link).held = true)
    (fun s t => ReplacementAsked t ∧ t.link link = { s.link link with out := true } ∧ (∀ j, j ≠ link → t.link j = s.link j) ∧
      t.mem = s.mem) :=
  fun s ⟨hl, hf, hout, hheld⟩ => ⟨_, exec_mapOutDieLink hl hf, mapLink_done (s := mapAsked s 5 link) hout hheld⟩

theorem mapOutDieLink_refused (link : Nat) : Happens (.mapOutDieLink link)
    (fun s => link < 6 ∧ s.mapStatus ≠ 0 ∧ (s.link link).out = false ∧ (s.link link).held = false)
    (fun s t => t = (mapAsked s 5 link).setMapStatus 2) :=
  fun s ⟨hl, hf, hout, hheld⟩ => ⟨_, exec_mapOutDieLink hl hf, mapLink_refused (s := mapAsked s 5 link) hout hheld⟩

/-! Fabric ports (R194, R196, R436). -/

@[simp] theorem portAt_onPort_self (s : State) (q : Nat) (f : Port → Port) : (s.onPort q f).portAt q = f (s.portAt q) := NMap.getD_alter_self ..

theorem portAt_onPort_ne (s : State) {k q : Nat} (f : Port → Port) (h : k ≠ q) : (s.onPort q f).portAt k = s.portAt k := NMap.getD_alter_ne h ..

/-- The same ports are up in both states. -/
structure SamePortsUp (s t : State) : Prop where
  up : ∀ q, (t.portAt q).up = (s.portAt q).up

namespace SamePortsUp

theorem refl (s : State) : SamePortsUp s s := ⟨fun _ => rfl⟩

theorem trans {s t u : State} (h : SamePortsUp s t) (h' : SamePortsUp t u) : SamePortsUp s u := ⟨fun q => (h'.up q).trans (h.up q)⟩

theorem of_ports {s t : State} (h : t.fab.ports = s.fab.ports) : SamePortsUp s t := ⟨fun q => by
  unfold State.portAt
  rw [h]⟩

theorem foldl {α : Type} {f : State → α → State} (hf : ∀ s x, SamePortsUp s (f s x)) (s : State) (xs : List α) : SamePortsUp s (xs.foldl f s) := by
  induction xs generalizing s with
  | nil => exact refl s
  | cons x xs ih => exact (hf s x).trans (ih _)

theorem onPort (s : State) (q : Nat) {f : Port → Port} (hf : ∀ p, (f p).up = p.up) : SamePortsUp s (s.onPort q f) := ⟨fun k => by
  by_cases hk : k = q
  · subst hk
    rw [portAt_onPort_self, hf]
  · rw [portAt_onPort_ne _ _ hk]⟩

theorem onChan (s : State) (q : Nat) (relaxed : Bool) (f : Channel → Channel) : SamePortsUp s (s.onChan q relaxed f) :=
  onPort s q fun p => by cases relaxed <;> rfl

theorem sendNow (s : State) (f : Flit) : SamePortsUp s (s.sendNow f) := by
  unfold State.sendNow
  split
  · split
    · exact trans (onChan s (s.portOf f.target) f.relaxed fun c => { c with next := c.next + 1 }) (onChan ..)
    · exact refl s
  · exact of_ports rfl

theorem pumpFlits (fs kept : List Flit) (s : State) : SamePortsUp s (pumpFlits fs kept s).2 := by
  induction fs generalizing kept s with
  | nil => exact refl s
  | cons f fs ih =>
    unfold Machine.pumpFlits
    split
    · exact (sendNow s f).trans (ih ..)
    · exact ih ..

theorem pump (s : State) : SamePortsUp s s.pump := (pumpFlits s.fab.outbox [] s).trans (of_ports rfl)

theorem failTarget (s : State) (t : Nat) : SamePortsUp s (failTarget s t) := by
  unfold Machine.failTarget
  refine trans (t := { s with fab := { s.fab with outbox := s.fab.outbox.filter fun f => !(f.target == t && ofCommand f.msg) } }) (of_ports rfl) ?_
  refine foldl (fun s c => ?_) ..
  exact of_ports rfl

theorem reroute (s : State) (t : Nat) : SamePortsUp s (reroute s t) := by
  unfold Machine.reroute
  split
  · exact of_ports rfl
  · exact trans (t := { s with fab := { s.fab with detour := s.fab.detour.erase t } }) (of_ports rfl) (failTarget ..)

theorem resendFlit (s : State) (q : Nat) (f : Flit) : SamePortsUp s (resendFlit s q f) := by
  unfold Machine.resendFlit State.toTransit
  split
  · exact onChan ..
  · split
    · exact onChan ..
    · split
      · exact refl s
      · exact onChan ..

end SamePortsUp

/-- A port that fails is down; the others stay as they are. -/
theorem failPort_up (s : State) (q : Nat) : ((failPort s q).portAt q).up = false ∧ ∀ k, k ≠ q → ((failPort s q).portAt k).up = (s.portAt k).up := by
  obtain ⟨u, hu, hdown, hrest⟩ : ∃ u, SamePortsUp u (failPort s q) ∧ (u.portAt q).up = false ∧ ∀ k, k ≠ q → (u.portAt k).up = (s.portAt k).up := by
    refine ⟨_, (SamePortsUp.foldl .reroute ..).trans ((SamePortsUp.foldl (fun s f => .resendFlit s q f) ..).trans (.pump _)), ?_, fun k hk => ?_⟩
    · rw [portAt_onPort_self]
    · rw [portAt_onPort_ne _ _ hk]
      rfl
  exact ⟨(hu.up q).trans hdown, fun k hk => (hu.up k).trans (hrest k hk)⟩

theorem mapPort_takesOut {s : State} {q : Nat} (h : (s.portAt q).out = false) :
    ReplacementAsked (mapPort s q) ∧ ((mapPort s q).portAt q).out = true ∧ ((mapPort s q).portAt q).up = false ∧
      ∀ k, k ≠ q → ((mapPort s q).portAt k).up = (s.portAt k).up := by
  obtain ⟨u, he, hdown, hrest⟩ : ∃ u : State, mapPort s q = mapDone (u.onPort q fun p => { p with out := true }) ∧ (u.portAt q).up = false ∧
      ∀ k, k ≠ q → (u.portAt k).up = (s.portAt k).up := by
    unfold mapPort
    rw [h, if_neg Bool.false_ne_true]
    cases hup : (s.portAt q).up with
    | false => exact ⟨s, rfl, hup, fun _ _ => rfl⟩
    | true => exact ⟨failPort s q, rfl, failPort_up s q⟩
  have hself : ((u.onPort q fun p => { p with out := true }).portAt q) = { u.portAt q with out := true } := portAt_onPort_self ..
  rw [he]
  refine ⟨mapDone_asks _, congrArg (·.out) hself, (congrArg (·.up) hself).trans hdown, fun k hk => ?_⟩
  exact (congrArg (·.up) (portAt_onPort_ne u _ hk)).trans (hrest k hk)

theorem mapOutStolilPort_takesOut (port : Nat) : Happens (.mapOutStolilPort port)
    (fun s => port < 15 ∧ s.mapStatus ≠ 0 ∧ (s.portAt port).out = false)
    (fun s t => ReplacementAsked t ∧ (t.portAt port).out = true ∧ (t.portAt port).up = false ∧
      ∀ q, q ≠ port → (t.portAt q).up = (s.portAt q).up) :=
  fun s ⟨hp, hf, hout⟩ => ⟨_, exec_mapOutStolilPort hp hf, mapPort_takesOut (s := mapAsked s 6 port) hout⟩

/-- Settles O50, event by event. -/
theorem mapOutEvents : Obligations.MapOutEvents := by
  intro die pa core stack pc link port failed
  exact ⟨homeTimeout_declares die pa, homeTimeout_again die pa, homeTimeout_idle die pa,
    mapOutCore_takesOut core, mapOutCore_refused core, mapOutCore_out core, mapOut_idle fun _ => rfl,
    mapOutCDie_takesOut die, mapOutCDie_refused die, mapOut_idle fun _ => rfl,
    mapOutStack_takesOut stack, mapOutStack_refused stack, mapOut_idle fun _ => rfl,
    mapOutPseudoChannel_copies pc, mapOutPseudoChannel_refused pc, mapOut_idle fun _ => rfl,
    pseudoChannelDropCopyEnd_drops pc failed, pseudoChannelDropCopyEnd_idle pc failed,
    mapOutDieLink_takesOut link, mapOutDieLink_refused link, mapOut_idle fun _ => rfl,
    mapOutStolilPort_takesOut port, mapOut_idle fun _ => rfl⟩

end Sys2Proof.Machine
end

section
/-! The poison of the sectors that a home slice holds (R114, R122, R123). -/

namespace Sys2Proof.Machine

/-- What a slice holds of a line: nothing when the line is absent. -/
def State.l2Line (s : State) (line : Nat) : L2Line := (s.mem.l2.find line).getD L2Line.empty

theorem homeByte_eq (s : State) (a : Nat) : s.homeByte a =
    if (s.l2Line (lineOf a)).have'.getLsbD (a % 128 / 32) then (s.l2Line (lineOf a)).data.getD (a % 128) 0 else s.mem.hbm.read a := by
  unfold State.homeByte State.l2Line
  cases s.mem.l2.find (lineOf a) with
  | none => simp [L2Line.empty]
  | some l => rfl

theorem homePoison_eq (s : State) (a : Nat) : s.homePoison a = (s.dieDead a ||
    if (s.l2Line (lineOf a)).have'.getLsbD (a % 128 / 32) then (s.l2Line (lineOf a)).poison.getLsbD (a % 128 / 32)
    else s.mem.hbm.poisoned (a / 32)) := by
  unfold State.homePoison State.l2Line
  cases s.mem.l2.find (lineOf a) with
  | none => simp [L2Line.empty]
  | some l => rfl

theorem l2Line_setL2 (s : State) (line k : Nat) (l : L2Line) : (s.setL2 line l).l2Line k = if k = line then l else s.l2Line k := by
  unfold State.l2Line State.setL2
  dsimp only
  by_cases h : k = line
  · rw [if_pos h, h, NMap.find_insert_self, Option.getD_some]
  · rw [if_neg h, NMap.find_insert_ne h]

/-- The home poison of a line that its slice holds. -/
theorem homePoison_setL2 (s : State) (line : Nat) (l : L2Line) (a : Nat) : (s.setL2 line l).homePoison a =
    if lineOf a = line then (s.dieDead a || if l.have'.getLsbD (a % 128 / 32) then l.poison.getLsbD (a % 128 / 32) else s.mem.hbm.poisoned (a / 32))
    else s.homePoison a := by
  rw [homePoison_eq, l2Line_setL2]
  by_cases h : lineOf a = line
  · rw [if_pos h, if_pos h]; rfl
  · rw [if_neg h, if_neg h, homePoison_eq]; rfl

/-- Poison is kept by sectors: addresses of one sector read alike. -/
theorem homePoison_sector (s : State) {a b : Nat} (h : a / 32 = b / 32) : s.homePoison a = s.homePoison b := by
  have hline : lineOf a = lineOf b := by unfold lineOf; omega
  have hsect : a % 128 / 32 = b % 128 / 32 := by omega
  rw [homePoison_eq, homePoison_eq]
  unfold State.dieDead
  rw [hline, hsect, h]

/-- Set or clear the bits of a list of sectors, each as the condition says. -/
theorem sectorFold_getLsbD (c : Nat → Bool) (ks : List Nat) (b : BitVec 4) {i : Nat} (hi : i < 4) :
    (ks.foldl (fun b k => if c k then b ||| 1#4 <<< k else b &&& ~~~(1#4 <<< k)) b).getLsbD i = if i ∈ ks then c i else b.getLsbD i := by
  have hbit : ∀ k, (1#4 <<< k).getLsbD i = decide (i = k) := fun k => by
    rw [BitVec.getLsbD_shiftLeft, BitVec.getLsbD_one]
    simp only [hi, decide_true, Bool.true_and]
    rw [← decide_not, ← Bool.decide_and, ← Bool.decide_and]
    exact decide_eq_decide.2 (by omega)
  have hstep : ∀ (b : BitVec 4) k, (if c k then b ||| 1#4 <<< k else b &&& ~~~(1#4 <<< k)).getLsbD i = if i = k then c k else b.getLsbD i := by
    intro b k
    cases c k
    · rw [if_neg Bool.false_ne_true, BitVec.getLsbD_and, BitVec.getLsbD_not, hbit]
      split <;> simp [*]
    · rw [if_pos rfl, BitVec.getLsbD_or, hbit]
      split <;> simp [*]
  induction ks generalizing b with
  | nil => simp
  | cons k ks ih =>
    rw [List.foldl_cons, ih, hstep]
    by_cases hk : i = k
    · subst hk; simp
    · simp [hk]

/-! The poison of a sector after bytes have been written from pa on (R123). -/

/-- Bytes from pa on reach into the sector of an address, and over all of it. -/
abbrev touchesSector (pa n a : Nat) : Prop := 0 < n ∧ pa < a / 32 * 32 + 32 ∧ a / 32 * 32 < pa + n
def coversSector (pa n a : Nat) : Bool := pa ≤ a / 32 * 32 && a / 32 * 32 + 32 ≤ pa + n

section
variable {pa n a : Nat} (hline : lineOf a = lineOf pa)
include hline

theorem mem_sectorsTouched : a % 128 / 32 ∈ sectorsTouched (pa % 128) n ↔ touchesSector pa n a := by
  unfold lineOf at hline
  unfold sectorsTouched touchesSector
  rw [mem_granules]
  omega

theorem sectorBits_touchesSector : (sectorBits (sectorsTouched (pa % 128) n)).getLsbD (a % 128 / 32) = decide (touchesSector pa n a) := by
  rw [← decide_eq_decide.2 (mem_sectorsTouched hline), Bool.eq_iff_iff, decide_eq_true_eq, sectorBits_touched (Nat.mod_lt _ (by decide))]
  exact mem_granules.symm

theorem sectorsCovered_contains (h : touchesSector pa n a) :
    (sectorsCovered (pa % 128) n).contains (a % 128 / 32) = coversSector pa n a := by
  have hin := (mem_sectorsTouched hline).2 h
  unfold sectorsTouched at hin
  unfold lineOf at hline
  unfold sectorsCovered coversSector covers
  rw [Bool.eq_iff_iff]
  simp only [List.contains_iff_mem, List.mem_filter, Bool.and_eq_true, decide_eq_true_eq, hin, true_and]
  omega

end

/-- The poison of the sector of a, once bytes with the poison p have been written from pa on. -/
def poisonAfter (s : State) (pa : Nat) (bs : List Byte) (p : Bool) (a : Nat) : Bool :=
  if touchesSector pa bs.length a then p || (s.homePoison a && !coversSector pa bs.length a) else s.homePoison a

theorem sliceWrite_homePoison {s : State} {pa : Nat} {bs : List Byte} (p : Bool) (hd : s.dieDead pa = false) (hle : pa % 128 + bs.length ≤ 128)
    (a : Nat) : (s.sliceWrite pa bs p).homePoison a = poisonAfter s pa bs p a := by
  have hlive : State.dieDead { s with fresh := s.fresh + 1 } pa = false := hd
  have hage : ∀ b, State.homePoison { s with fresh := s.fresh + 1 } b = s.homePoison b := fun _ => rfl
  unfold State.sliceWrite State.take poisonAfter
  dsimp only
  rw [hlive, if_neg (by decide), homePoison_setL2]
  by_cases hline : lineOf a = lineOf pa
  case neg =>
    rw [if_neg hline, if_neg]
    · rfl
    · unfold touchesSector
      unfold lineOf at hline
      omega
  have hdead : State.dieDead { s with fresh := s.fresh + 1 } a = false := by
    unfold State.dieDead at hlive ⊢
    rw [hline, hlive]
  have hsector : lineOf pa * 128 + 32 * (a % 128 / 32) = a / 32 * 32 := by
    unfold lineOf at hline ⊢
    omega
  rw [if_pos hline]
  simp only [hage]
  rw [hdead, Bool.false_or, BitVec.getLsbD_or, sectorBits_touchesSector hline, sectorFold_getLsbD _ _ _ (by omega), hsector,
    homePoison_sector s (b := a) (by omega)]
  by_cases hin : touchesSector pa bs.length a
  · rw [decide_eq_true hin, Bool.or_true, if_pos rfl, if_pos ((mem_sectorsTouched hline).2 hin), sectorsCovered_contains hline hin, if_pos hin]
  · rw [decide_eq_false hin, Bool.or_false, if_neg (mt (mem_sectorsTouched hline).1 hin), if_neg hin, homePoison_eq, hline]
    unfold State.dieDead at hd ⊢
    rw [hline, hd]
    rfl

/-- What the write of a slice leaves alone. -/
theorem sliceWrite_rest {s : State} {pa : Nat} (bs : List Byte) (p : Bool) (hd : s.dieDead pa = false) :
    s.sliceWrite pa bs p = { s with mem := { s.mem with l2 := (s.sliceWrite pa bs p).mem.l2 }, fresh := s.fresh + 1 } := by
  have hlive : State.dieDead { s with fresh := s.fresh + 1 } pa = false := hd
  unfold State.sliceWrite State.take
  dsimp only
  rw [hlive, if_neg (by decide)]
  rfl

end Sys2Proof.Machine
end

section
/-! Sectors taken from the stacks into a home slice (R114, R123). -/

namespace Sys2Proof.Machine

/-! What a slice holds. -/

theorem l2Line_lacks (s : State) (line k : Nat) :
    (s.l2Line line).have'.getLsbD k = false ↔ ∀ l, s.mem.l2.find line = some l → l.have'.getLsbD k = false := by
  unfold State.l2Line
  cases s.mem.l2.find line with
  | none => simp [L2Line.empty]
  | some l => simp

/-- The sectors of a line that its slice lacks. -/
def State.lacking (s : State) (line : Nat) : List Nat := (List.range 4).filter fun k => !(s.l2Line line).have'.getLsbD k

theorem mem_lacking {s : State} {line k : Nat} : k ∈ s.lacking line ↔ k < 4 ∧ (s.l2Line line).have'.getLsbD k = false := by
  unfold State.lacking
  rw [List.mem_filter, List.mem_range, Bool.not_eq_true']

/-! Reads of the stacks with their check (R123, R438). -/

/-- t is s after sectors of the stacks have been read and the sectors ks found uncorrectable. -/
structure StacksChecked (s t : State) (ks : List Nat) : Prop where
  rest : t = { s with mem := { s.mem with hbm := t.mem.hbm }, counts := t.counts, dram := t.dram }
  wf : s.mem.hbm.wf = true → t.mem.hbm.wf = true
  read : ∀ a, t.mem.hbm.read a = s.mem.hbm.read a
  poisoned : s.mem.hbm.wf = true → ∀ k, t.mem.hbm.poisoned k = (s.mem.hbm.poisoned k || ks.contains k)

namespace StacksChecked

theorem of_hbm {s t : State} (hr : t = { s with mem := { s.mem with hbm := t.mem.hbm }, counts := t.counts, dram := t.dram })
    (h : t.mem.hbm = s.mem.hbm) : StacksChecked s t [] := by
  refine ⟨hr, fun hw => h ▸ hw, fun a => by rw [h], fun _ k => ?_⟩
  rw [h, List.contains_nil, Bool.or_false]

theorem refl (s : State) : StacksChecked s s [] := of_hbm rfl rfl

theorem trans {s t u : State} {ks js : List Nat} (h : StacksChecked s t ks) (h' : StacksChecked t u js) : StacksChecked s u (ks ++ js) := by
  refine ⟨by rw [h'.rest, h.rest], fun hw => h'.wf (h.wf hw), fun a => (h'.read a).trans (h.read a), fun hw k => ?_⟩
  rw [h'.poisoned (h.wf hw), h.poisoned hw, List.contains_append, Bool.or_assoc]

theorem foldl {α : Type} {f : State → α → State} {g : α → List Nat} (hf : ∀ s x, StacksChecked s (f s x) (g x)) (s : State) (xs : List α) :
    StacksChecked s (xs.foldl f s) (xs.flatMap g) := by
  induction xs generalizing s with
  | nil => exact refl s
  | cons x xs ih => exact (hf s x).trans (ih _)

theorem dramRequest (s : State) (line : Nat) : StacksChecked s (s.dramRequest line) [] := of_hbm rfl rfl

theorem sectorCheck (s : State) (line k corrected : Nat) (bad : Bool) :
    StacksChecked s (sectorCheck s line k corrected bad) (if bad then [line * 4 + k] else []) := by
  have hbad : ∀ u, StacksChecked u (if bad then (u.bump (channelCounter (s.channelOf line) 20) 1).onHbm fun m => m.setPoison (line * 4 + k) true else u)
      (if bad then [line * 4 + k] else []) := by
    intro u
    cases bad
    · exact refl u
    · refine ⟨rfl, fun hw => wf_setPoison hw .., fun _ => rfl, fun hw j => ?_⟩
      exact (poisoned_setPoison hw ..).trans (by by_cases h : j = line * 4 + k <;> simp [h])
  refine trans (ks := []) ?_ (hbad _)
  split
  · exact refl s
  · exact of_hbm rfl rfl

variable {s t : State} {ks : List Nat} (h : StacksChecked s t ks)
include h

theorem l2Line (line : Nat) : t.l2Line line = s.l2Line line := by rw [h.rest]; rfl

theorem homeByte (a : Nat) : t.homeByte a = s.homeByte a := by
  rw [homeByte_eq, homeByte_eq, h.l2Line, h.read]

/-- What the slice lacks of the sectors found uncorrectable reads as poison. -/
theorem homePoison (hw : s.mem.hbm.wf = true) (a : Nat) : t.homePoison a =
    (s.homePoison a || (!(s.l2Line (lineOf a)).have'.getLsbD (a % 128 / 32) && ks.contains (a / 32))) := by
  have hdead : t.dieDead a = s.dieDead a := by rw [h.rest]; rfl
  rw [homePoison_eq, homePoison_eq, h.l2Line, h.poisoned hw, hdead]
  cases (s.l2Line (lineOf a)).have'.getLsbD (a % 128 / 32)
  · simp [Bool.or_assoc]
  · simp

end StacksChecked

/-! Sectors taken into the slice. -/

theorem homeLine_poison (s : State) (line : Nat) {k : Nat} (hk : k < 4) : (s.homeLine line).2.getLsbD k = s.homePoison (line * 128 + 32 * k) := by
  unfold State.homeLine sectorBits
  rw [sectorBits_foldl _ _ _ hk]
  simp [hk]

/-- The sectors of ks that a slice lacks of a line. -/
def State.lackingOf (s : State) (line : Nat) (ks : List Nat) : BitVec 4 := sectorBits (ks.filter fun k => !(s.l2Line line).have'.getLsbD k)

theorem lackingOf_getLsbD (s : State) (line : Nat) (ks : List Nat) {i : Nat} (hi : i < 4) :
    (s.lackingOf line ks).getLsbD i = (ks.contains i && !(s.l2Line line).have'.getLsbD i) := by
  unfold State.lackingOf sectorBits
  rw [sectorBits_foldl _ _ _ hi, Bool.eq_iff_iff]
  simp [List.mem_filter]

theorem takeSectors_eq (s : State) (line : Nat) (ks : List Nat) : takeSectors s line ks = State.setL2 { s with fresh := s.fresh + 1 } line
    { s.l2Line line with
      data := (List.range 128).map fun i => if (s.lackingOf line ks).getLsbD (i / 32) then (s.homeLine line).1.getD i 0 else (s.l2Line line).data.getD i 0
      have' := (s.l2Line line).have' ||| s.lackingOf line ks
      poison := ((s.l2Line line).poison &&& ~~~s.lackingOf line ks) ||| ((s.homeLine line).2 &&& s.lackingOf line ks)
      age := s.fresh } := by
  unfold takeSectors State.take State.lackingOf State.l2Line
  rfl

theorem takeSectors_rest (s : State) (line : Nat) (ks : List Nat) : takeSectors s line ks =
    { s with mem := { s.mem with l2 := (takeSectors s line ks).mem.l2 }, fresh := s.fresh + 1 } := by
  rw [takeSectors_eq]
  rfl

theorem takeSectors_find (s : State) (line : Nat) (ks : List Nat) : ∃ l, (takeSectors s line ks).mem.l2.find line = some l ∧
    ∀ i < 4, l.have'.getLsbD i = ((s.l2Line line).have'.getLsbD i || ks.contains i) := by
  refine ⟨_, NMap.find_insert_self .., fun i hi => ?_⟩
  show ((s.l2Line line).have' ||| s.lackingOf line ks).getLsbD i = _
  rw [BitVec.getLsbD_or, lackingOf_getLsbD _ _ _ hi]
  cases (s.l2Line line).have'.getLsbD i <;> simp

/-- Sectors taken into a slice read there as they did in the stacks. -/
theorem ReadsAlike.takeSectors (s : State) (line : Nat) (ks : List Nat) : ReadsAlike s (takeSectors s line ks) := by
  refine ⟨rfl, rfl, fun a => ?_, fun a => ?_⟩ <;> rw [takeSectors_eq]
  · rw [homeByte_setL2]
    split
    next hline =>
      have ha : line * 128 + a % 128 = a := by unfold lineOf at hline; omega
      have hi : a % 128 < 128 := Nat.mod_lt _ (by decide)
      simp only [List.getD_eq_getElem?_getD, List.getElem?_map, List.getElem?_range hi, Option.map_some, Option.getD_some]
      simp only [← List.getD_eq_getElem?_getD]
      rw [BitVec.getLsbD_or, lackingOf_getLsbD _ _ _ (by omega), homeLine_getD _ _ _ hi, ha, homeByte_eq, hline]
      cases (s.l2Line line).have'.getLsbD (a % 128 / 32) <;> cases ks.contains (a % 128 / 32) <;> simp
    next hline => rfl
  · rw [homePoison_setL2]
    split
    next hline =>
      have hk : a % 128 / 32 < 4 := by omega
      have hsect : s.homePoison (line * 128 + 32 * (a % 128 / 32)) = s.homePoison a :=
        homePoison_sector s (by unfold lineOf at hline; omega)
      dsimp only
      rw [BitVec.getLsbD_or, BitVec.getLsbD_or, BitVec.getLsbD_and, BitVec.getLsbD_and, BitVec.getLsbD_not, lackingOf_getLsbD _ _ _ hk,
        homeLine_poison _ _ hk, hsect, homePoison_eq, hline, decide_eq_true hk]
      show (s.dieDead a || _) = _
      cases s.dieDead a <;> cases (s.l2Line line).have'.getLsbD (a % 128 / 32) <;> cases ks.contains (a % 128 / 32) <;> simp
    next hline => rfl

/-- Sectors of a line that its slice lacks are read in the stacks with their check, and taken. -/
structure SectorsFilled (s t : State) (line : Nat) (ks bad : List Nat) : Prop where
  held : ∃ l, t.mem.l2.find line = some l ∧ ∀ i < 4, l.have'.getLsbD i = ((s.l2Line line).have'.getLsbD i || ks.contains i)
  byte : ∀ a, t.homeByte a = s.homeByte a
  poison : ∀ a, t.homePoison a = true ↔ s.homePoison a = true ∨ a / 32 ∈ bad
  l1 : t.mem.l1 = s.mem.l1
  thr : t.thr = s.thr
  ops : t.mem.ops = s.mem.ops

theorem StacksChecked.filled {s u : State} {line : Nat} {ks bad : List Nat} (h : StacksChecked s u bad) (hw : s.mem.hbm.wf = true)
    (hbad : ∀ j ∈ bad, ∃ k ∈ s.lacking line, j = line * 4 + k) : SectorsFilled s (takeSectors u line ks) line ks bad := by
  have ht := ReadsAlike.takeSectors u line ks
  refine ⟨?_, fun a => (ht.byte a).trans (h.homeByte a), fun a => ?_, ?_, ?_, ?_⟩
  · rw [← h.l2Line]
    exact takeSectors_find ..
  · rw [ht.poison, h.homePoison hw, Bool.or_eq_true, Bool.and_eq_true, List.contains_iff_mem, Bool.not_eq_true']
    refine or_congr_right (and_iff_right_of_imp fun ha => ?_)
    obtain ⟨k, hk, he⟩ := hbad _ ha
    obtain ⟨hlt, hlack⟩ := mem_lacking.1 hk
    rwa [show lineOf a = line by unfold lineOf; omega, show a % 128 / 32 = k by omega]
  all_goals rw [takeSectors_rest, h.rest]

/-! SLICE_FILL (R114, R123). -/

theorem sliceFillEffect_eq (s : State) (line corrected bad : Nat) : sliceFillEffect s line corrected bad =
    takeSectors ((s.lacking line).foldl (fun (s : State) k => sectorCheck s line k (corrected / 8 ^ k % 8) (bad.testBit k)) (s.dramRequest line))
      line (s.lacking line) := by
  have hlack : ((List.range 4).filter fun k => match s.mem.l2.find line with
      | some l => !l.have'.getLsbD k
      | none => true) = s.lacking line := by
    unfold State.lacking State.l2Line
    cases s.mem.l2.find line with
    | none => simp [L2Line.empty]
    | some l => rfl
  rw [← hlack]
  rfl

/-- The sectors of a line that a fill finds uncorrectable. -/
def State.filledBad (s : State) (line bad : Nat) : List Nat := (s.lacking line).flatMap fun k => if bad.testBit k then [line * 4 + k] else []

theorem mem_filledBad {s : State} {line bad j : Nat} : j ∈ s.filledBad line bad ↔ ∃ k ∈ s.lacking line, bad.testBit k = true ∧ j = line * 4 + k := by
  unfold State.filledBad
  simp only [List.mem_flatMap]
  refine exists_congr fun k => and_congr_right fun _ => ?_
  cases bad.testBit k <;> simp

theorem sliceFillEffect_filled {s : State} (line corrected bad : Nat) (hw : s.mem.hbm.wf = true) :
    SectorsFilled s (sliceFillEffect s line corrected bad) line (s.lacking line) (s.filledBad line bad) := by
  rw [sliceFillEffect_eq]
  refine ((StacksChecked.dramRequest s line).trans (.foldl (fun s k => .sectorCheck s line k _ (bad.testBit k)) _ _)).filled hw fun j hj => ?_
  obtain ⟨k, hk, -, he⟩ := mem_filledBad.1 hj
  exact ⟨k, hk, he⟩

theorem sliceFill_happens (line corrected bad : Nat) : Happens (.sliceFill line corrected bad) (fun s => sliceFillReady s line = true ∧ s.mem.hbm.wf = true)
    (fun s t =>
      let missing (k : Nat) : Prop := ∀ l, s.mem.l2.find line = some l → l.have'.getLsbD k = false
      slicePresent t line = true ∧ (∀ a, t.homeByte a = s.homeByte a) ∧
      (∀ a, t.homePoison a = true ↔ s.homePoison a = true ∨ (a / 128 = line ∧ missing (a % 128 / 32) ∧ bad.testBit (a % 128 / 32) = true)) ∧
      t.mem.l1 = s.mem.l1 ∧ t.thr = s.thr ∧ t.mem.ops = s.mem.ops) := by
  refine happens_of (fun s => rfl) fun s ⟨hr, hw⟩ => ?_
  rw [if_pos hr]
  obtain ⟨⟨l, hl, hheld⟩, hbyte, hpoison, hl1, hthr, hops⟩ := sliceFillEffect_filled line corrected bad hw
  refine ⟨?_, hbyte, fun a => ?_, hl1, hthr, hops⟩
  · unfold slicePresent
    rw [hl]
    refine beq_iff_eq.2 (BitVec.eq_of_getLsbD_eq fun i hi => ?_)
    have hall : (15#4).getLsbD i = true := by
      revert hi i
      decide
    rw [hheld i hi, hall, Bool.or_eq_true, List.contains_iff_mem, mem_lacking]
    cases h : (s.l2Line line).have'.getLsbD i
    · exact .inr ⟨hi, rfl⟩
    · exact .inl rfl
  · rw [hpoison, mem_filledBad]
    refine or_congr_right ⟨fun ⟨k, hk, hbad, he⟩ => ?_, fun ⟨hline, hk, hbad⟩ => ?_⟩
    · obtain ⟨hlt, hlack⟩ := mem_lacking.1 hk
      rw [show a % 128 / 32 = k by omega]
      exact ⟨by omega, (l2Line_lacks ..).1 hlack, hbad⟩
    · exact ⟨a % 128 / 32, mem_lacking.2 ⟨by omega, (l2Line_lacks ..).2 hk⟩, hbad, by omega⟩

/-! PARTIAL_SECTOR_MERGE (R123). -/

/-- A sector that a head entry waits for is one that its slice lacks. -/
theorem partialReady_lacks {s : State} {line sector : Nat} (h : partialReady s line sector = true) : sector ∈ s.lacking line := by
  unfold partialReady at h
  split at h
  next e he =>
    simp only [Bool.and_eq_true, beq_iff_eq, List.contains_iff_mem] at h
    obtain ⟨⟨⟨rfl, -⟩, hneed⟩, -⟩ := h
    unfold sectorsNeeded at hneed
    rw [List.mem_filter, List.mem_range] at hneed
    obtain ⟨hlt, hneed⟩ := hneed
    simp only [Bool.and_eq_true, Bool.not_eq_true'] at hneed
    refine mem_lacking.2 ⟨hlt, (l2Line_lacks ..).2 fun l hl => ?_⟩
    have hnot := hneed.1.2
    rwa [hl] at hnot
  next => cases h

theorem partialEffect_filled {s : State} {line sector : Nat} (ecc : Nat) (hk : sector ∈ s.lacking line) (hw : s.mem.hbm.wf = true) :
    SectorsFilled s (partialEffect s line sector ecc) line [sector] (if ecc == 5 then [line * 4 + sector] else []) := by
  unfold partialEffect
  refine ((StacksChecked.dramRequest s line).trans (.sectorCheck ..)).filled hw fun j hj => ⟨sector, hk, ?_⟩
  rw [List.nil_append] at hj
  split at hj
  · exact List.mem_singleton.1 hj
  · cases hj

theorem partialSectorMerge_happens (line sector ecc : Nat) : Happens (.partialSectorMerge line sector ecc)
    (fun s => partialReady s line sector = true ∧ s.mem.hbm.wf = true) (fun s t =>
      (∃ l, t.mem.l2.find line = some l ∧ l.have'.getLsbD sector = true) ∧ (∀ a, t.homeByte a = s.homeByte a) ∧
      (∀ a, t.homePoison a = true ↔ s.homePoison a = true ∨ (ecc = 5 ∧ a / 32 = 4 * line + sector)) ∧
      t.mem.l1 = s.mem.l1 ∧ t.thr = s.thr ∧ t.mem.ops = s.mem.ops) := by
  refine happens_of (fun s => rfl) fun s ⟨hr, hw⟩ => ?_
  rw [if_pos hr]
  have hk := partialReady_lacks hr
  obtain ⟨⟨l, hl, hheld⟩, hbyte, hpoison, hl1, hthr, hops⟩ := partialEffect_filled ecc hk hw
  refine ⟨⟨l, hl, ?_⟩, hbyte, fun a => ?_, hl1, hthr, hops⟩
  · rw [hheld _ (mem_lacking.1 hk).1]
    simp
  · rw [hpoison, Nat.mul_comm 4]
    by_cases h : ecc = 5 <;> simp [h]

end Sys2Proof.Machine
end

section
/-! A victim that leaves its home slice (R114, R120, R227). -/

namespace Sys2Proof.Machine

/-! Sectors of a line written to the stacks. -/

/-- The bytes and the poison of a sector of a line, in the stacks. -/
def Mem.putSector (line : Nat) (l : L2Line) (m : Mem) (k : Nat) : Mem :=
  if l.have'.getLsbD k then (m.writeBytes (line * 128 + 32 * k) ((l.data.drop (32 * k)).take 32)).setPoison (line * 4 + k) (l.poison.getLsbD k) else m

/-- A line holds the byte of an address of it. -/
def L2Line.holds (l : L2Line) (a : Nat) : Bool := l.have'.getLsbD (a % 128 / 32)

theorem wf_putSector (line : Nat) (l : L2Line) {m : Mem} (k : Nat) (h : m.wf = true) : (m.putSector line l k).wf = true := by
  unfold Mem.putSector
  split
  · exact wf_setPoison (wf_writeBytes h ..) ..
  · exact h

theorem read_putSector (line : Nat) (l : L2Line) {m : Mem} {k : Nat} (hk : k < 4) (h : m.wf = true) (a : Nat) : (m.putSector line l k).read a =
    if a / 128 = line ∧ a % 128 / 32 = k ∧ l.holds a = true ∧ a % 128 < l.data.length then l.data.getD (a % 128) 0 else m.read a := by
  have hlen : ((l.data.drop (32 * k)).take 32).length = min 32 (l.data.length - 32 * k) := by simp
  unfold Mem.putSector L2Line.holds
  by_cases hin : a / 128 = line ∧ a % 128 / 32 = k
  · obtain ⟨hline, rfl⟩ := hin
    split
    next hheld =>
      rw [read_setPoison, read_writeBytes h, hlen]
      simp only [hline, hheld, true_and]
      refine if_congr (by omega) ?_ rfl
      rw [List.getD_eq_getElem?_getD, List.getElem?_take_of_lt (by omega), List.getElem?_drop, ← List.getD_eq_getElem?_getD]
      congr 1
      omega
    next hheld => rw [if_neg (by simp [hheld])]
  · have hout : ∀ p, ¬ (a / 128 = line ∧ a % 128 / 32 = k ∧ p) := fun p hc => hin ⟨hc.1, hc.2.1⟩
    split
    · rw [read_setPoison, read_writeBytes h, hlen, if_neg (by omega), if_neg (hout _)]
    · rw [if_neg (hout _)]

theorem poisoned_putSector (line : Nat) (l : L2Line) {m : Mem} {k : Nat} (hk : k < 4) (h : m.wf = true) (a : Nat) :
    (m.putSector line l k).poisoned (a / 32) =
      if a / 128 = line ∧ a % 128 / 32 = k ∧ l.holds a = true then l.poison.getLsbD (a % 128 / 32) else m.poisoned (a / 32) := by
  unfold Mem.putSector L2Line.holds
  by_cases hin : a / 128 = line ∧ a % 128 / 32 = k
  · obtain ⟨hline, rfl⟩ := hin
    split
    next hheld => rw [poisoned_setPoison (wf_writeBytes h ..), if_pos (by omega), if_pos ⟨hline, rfl, hheld⟩]
    next hheld => rw [if_neg (by simp [hheld])]
  · have hout : ∀ p, ¬ (a / 128 = line ∧ a % 128 / 32 = k ∧ p) := fun p hc => hin ⟨hc.1, hc.2.1⟩
    split
    · rw [poisoned_setPoison (wf_writeBytes h ..), if_neg (by omega), poisoned_writeBytes, if_neg (hout _)]
    · rw [if_neg (hout _)]

/-- Sectors of a line written to the stacks one after another. -/
theorem foldl_putSector (line : Nat) (l : L2Line) (ks : List Nat) (hks : ∀ k ∈ ks, k < 4) {m : Mem} (h : m.wf = true) :
    (ks.foldl (Mem.putSector line l) m).wf = true ∧
    (∀ a, (ks.foldl (Mem.putSector line l) m).read a =
      if a / 128 = line ∧ a % 128 / 32 ∈ ks ∧ l.holds a = true ∧ a % 128 < l.data.length then l.data.getD (a % 128) 0 else m.read a) ∧
    ∀ a, (ks.foldl (Mem.putSector line l) m).poisoned (a / 32) =
      if a / 128 = line ∧ a % 128 / 32 ∈ ks ∧ l.holds a = true then l.poison.getLsbD (a % 128 / 32) else m.poisoned (a / 32) := by
  induction ks generalizing m with
  | nil => simp [h]
  | cons k ks ih =>
    have hk := hks k List.mem_cons_self
    obtain ⟨hwf, hread, hpoison⟩ := ih (fun j hj => hks j (List.mem_cons_of_mem _ hj)) (wf_putSector line l k h)
    refine ⟨hwf, fun a => ?_, fun a => ?_⟩
    · rw [List.foldl_cons, hread, read_putSector line l hk h, ← ite_or]
      refine if_congr ?_ rfl rfl
      rw [List.mem_cons]
      tauto
    · rw [List.foldl_cons, hpoison, poisoned_putSector line l hk h, ← ite_or]
      refine if_congr ?_ rfl rfl
      rw [List.mem_cons]
      tauto

/-- t is s after the sectors that l holds have been written to the stacks at the lines ks. -/
structure LinesWritten (s t : State) (l : L2Line) (ks : List Nat) : Prop where
  rest : t = { s with mem := { s.mem with hbm := t.mem.hbm }, counts := t.counts, dram := t.dram }
  wf : s.mem.hbm.wf = true → t.mem.hbm.wf = true
  read : s.mem.hbm.wf = true → ∀ a, t.mem.hbm.read a =
    if a / 128 ∈ ks ∧ l.holds a = true ∧ a % 128 < l.data.length then l.data.getD (a % 128) 0 else s.mem.hbm.read a
  poisoned : s.mem.hbm.wf = true → ∀ a, t.mem.hbm.poisoned (a / 32) =
    if a / 128 ∈ ks ∧ l.holds a = true then l.poison.getLsbD (a % 128 / 32) else s.mem.hbm.poisoned (a / 32)

theorem LinesWritten.refl (s : State) (l : L2Line) : LinesWritten s s l [] :=
  ⟨rfl, id, fun _ a => (if_neg (by simp)).symm, fun _ a => (if_neg (by simp)).symm⟩

theorem LinesWritten.trans {s t u : State} {l : L2Line} {ks js : List Nat} (h : LinesWritten s t l ks) (h' : LinesWritten t u l js) :
    LinesWritten s u l (ks ++ js) := by
  refine ⟨by rw [h'.rest, h.rest], fun hw => h'.wf (h.wf hw), fun hw a => ?_, fun hw a => ?_⟩
  · rw [h'.read (h.wf hw), h.read hw, ← ite_or]
    refine if_congr ?_ rfl rfl
    rw [List.mem_append]
    tauto
  · rw [h'.poisoned (h.wf hw), h.poisoned hw, ← ite_or]
    refine if_congr ?_ rfl rfl
    rw [List.mem_append]
    tauto

theorem foldl_onHbm (line : Nat) (l : L2Line) (ks : List Nat) (s : State) :
    ks.foldl (fun s k => if l.have'.getLsbD k then
      s.onHbm fun m => (m.writeBytes (line * 128 + 32 * k) ((l.data.drop (32 * k)).take 32)).setPoison (line * 4 + k) (l.poison.getLsbD k)
      else s) s = s.onHbm fun m => ks.foldl (Mem.putSector line l) m := by
  induction ks generalizing s with
  | nil => rfl
  | cons k ks ih =>
    rw [List.foldl_cons, ih]
    unfold Mem.putSector
    dsimp only [List.foldl_cons]
    split <;> rfl

theorem writeSectors_written (s : State) (line : Nat) (l : L2Line) : LinesWritten s (writeSectors s line l) l [line] := by
  have hput := fun hw => foldl_putSector line l (List.range 4) (fun k hk => List.mem_range.1 hk) (m := s.mem.hbm) hw
  have hk : ∀ a, a % 128 / 32 ∈ List.range 4 := fun a => List.mem_range.2 (by omega)
  unfold writeSectors
  rw [foldl_onHbm]
  refine ⟨rfl, fun hw => (hput hw).1, fun hw a => ?_, fun hw a => ?_⟩
  · exact ((hput hw).2.1 a).trans (by simp only [hk, true_and, List.mem_singleton])
  · exact ((hput hw).2.2 a).trans (by simp only [hk, true_and, List.mem_singleton])

/-- The lines of the stacks that take a line written back: of the mirror class, both copies where the other's die lives (R120). -/
def writeBackLines (s : State) (line : Nat) (l : L2Line) : List Nat :=
  if !l.dirty then []
  else if l.mirror && !s.dieDead (lineOf (mirrorPartner (line * 128)) * 128) then [line, lineOf (mirrorPartner (line * 128))] else [line]

theorem writeBack_written (s : State) (line : Nat) (l : L2Line) : LinesWritten s (writeBack s line l) l (writeBackLines s line l) := by
  have hwritten := writeSectors_written s line l
  unfold writeBack writeBackLines
  split
  · exact .refl s l
  · have hdead : ∀ pa, (writeSectors s line l).dieDead pa = s.dieDead pa := fun pa => by rw [hwritten.rest]; rfl
    dsimp only
    rw [hdead]
    split
    · exact hwritten.trans (writeSectors_written ..)
    · exact hwritten

/-! SLICE_VICTIM_EVICTION. -/

theorem l2Line_of_find {s : State} {line : Nat} {l : L2Line} (h : s.mem.l2.find line = some l) : s.l2Line line = l := by
  unfold State.l2Line
  rw [h, Option.getD_some]

theorem l2Line_dropL2 (s : State) (line k : Nat) : (s.dropL2 line).l2Line k = if k = line then L2Line.empty else s.l2Line k := by
  unfold State.l2Line State.dropL2
  dsimp only
  by_cases h : k = line
  · rw [if_pos h, h, NMap.find_erase_self, Option.getD_none]
  · rw [if_neg h, NMap.find_erase_ne h]

/-- t is s after the line, which held l, has left its slice, written to the stacks at the lines ks. -/
structure Evicted (s t : State) (line : Nat) (l : L2Line) (ks : List Nat) : Prop where
  l2Line : ∀ k, t.l2Line k = if k = line then L2Line.empty else s.l2Line k
  dead : ∀ pa, t.dieDead pa = s.dieDead pa
  read : ∀ a, t.mem.hbm.read a =
    if a / 128 ∈ ks ∧ l.holds a = true ∧ a % 128 < l.data.length then l.data.getD (a % 128) 0 else s.mem.hbm.read a
  poisoned : ∀ a, t.mem.hbm.poisoned (a / 32) =
    if a / 128 ∈ ks ∧ l.holds a = true then l.poison.getLsbD (a % 128 / 32) else s.mem.hbm.poisoned (a / 32)

section
variable {s t : State} {line : Nat} {l : L2Line} {ks : List Nat} (h : Evicted s t line l ks)
include h

/-- The other lines keep their bytes and their poison, but those written. -/
theorem Evicted.others {a : Nat} (hline : a / 128 ≠ line) (hks : a / 128 ∉ ks) : t.homeByte a = s.homeByte a ∧ t.homePoison a = s.homePoison a := by
  have hl : t.l2Line (lineOf a) = s.l2Line (lineOf a) := (h.l2Line _).trans (if_neg hline)
  rw [homeByte_eq, homeByte_eq, homePoison_eq, homePoison_eq, hl, h.dead, h.read, h.poisoned]
  simp only [hks, false_and, if_false, and_self]

/-- A line written back reads in the stacks as it did in its slice. -/
theorem Evicted.same {a : Nat} (hline : a / 128 = line) (hks : line ∈ ks) (hl : s.l2Line line = l) (hlen : l.data.length = 128) :
    t.homeByte a = s.homeByte a ∧ t.homePoison a = s.homePoison a := by
  have hlineOf : lineOf a = line := hline
  have hi : a % 128 < 128 := Nat.mod_lt _ (by decide)
  have hnone : ∀ k, L2Line.empty.have'.getLsbD k = false := fun k => BitVec.getLsbD_zero
  rw [homeByte_eq, homeByte_eq, homePoison_eq, homePoison_eq, hlineOf, h.l2Line, if_pos rfl, hnone, hl, h.dead, h.read, h.poisoned, hlen, hline]
  unfold L2Line.holds
  simp only [hks, hi, true_and, and_true, Bool.false_eq_true, if_false]

end

/-- The eviction of a victim: its copies go, what is dirty is written back, and the line leaves the slice. -/
structure VictimGone (s t : State) (line : Nat) (l : L2Line) : Prop extends Evicted s t line l (writeBackLines s line l) where
  find : t.mem.l2.find line = none
  l1 : ∀ c < 128, l.sharers.getLsbD c = true → t.l1Line c line = none
  ops : t.mem.ops = s.mem.ops

theorem victimEffect_gone {s : State} {slice set line : Nat} {l : L2Line} (hv : sliceVictim s slice set = some (line, l)) (hw : s.mem.hbm.wf = true) :
    VictimGone s (victimEffect s slice set) line l := by
  have hlost := invalidateL1s_lost s (bitCores l.sharers) line
  unfold victimEffect
  rw [hv]
  dsimp only
  generalize s.invalidateL1s (bitCores l.sharers) line = u at hlost ⊢
  have hwritten := writeBack_written u line l
  have hdead : ∀ pa, u.dieDead pa = s.dieDead pa := fun pa => by unfold State.dieDead; rw [hlost.cfg]
  rw [show writeBackLines u line l = writeBackLines s line l by unfold writeBackLines; rw [hdead]] at hwritten
  have hwu : u.mem.hbm.wf = true := by rw [hlost.hbm]; exact hw
  refine ⟨⟨fun k => ?_, fun pa => ?_, fun a => ?_, fun a => ?_⟩, NMap.find_erase_self .., fun c hc hsh => ?_, ?_⟩
  · rw [l2Line_dropL2]
    unfold State.l2Line
    rw [hwritten.rest, hlost.l2]
  · rw [← hdead, hwritten.rest]
    rfl
  · rw [← hlost.hbm]
    exact hwritten.read hwu a
  · rw [← hlost.hbm]
    exact hwritten.poisoned hwu a
  · rw [hwritten.rest]
    exact hlost.gone _ (List.mem_map.2 ⟨c, List.mem_filter.2 ⟨List.mem_range.2 hc, hsh⟩, rfl⟩)
  · rw [← hlost.ops, hwritten.rest]
    rfl

/-- The lines that take a victim written back, of the mirror class and not. -/
theorem mem_writeBackLines {s : State} {line : Nat} {l : L2Line} {k : Nat} (h : k ∈ writeBackLines s line l) :
    k = line ∨ (l.mirror = true ∧ k = mirrorPartner (line * 128) / 128) := by
  unfold writeBackLines lineOf at h
  split at h
  · cases h
  · split at h
    next hm =>
      rw [Bool.and_eq_true] at hm
      simp only [List.mem_cons, List.not_mem_nil, or_false] at h
      exact h.imp_right fun hk => ⟨hm.1, hk⟩
    next => exact .inl (List.mem_singleton.1 h)

theorem writeBackLines_self (s : State) {line : Nat} {l : L2Line} (hd : l.dirty = true) : line ∈ writeBackLines s line l := by
  unfold writeBackLines
  rw [hd, Bool.not_true, if_neg Bool.false_ne_true]
  split <;> exact List.mem_cons_self

theorem writeBackLines_partner {s : State} {line : Nat} {l : L2Line} (hd : l.dirty = true) (hm : l.mirror = true)
    (hlive : s.dieDead (mirrorPartner (line * 128) / 128 * 128) = false) : mirrorPartner (line * 128) / 128 ∈ writeBackLines s line l := by
  unfold writeBackLines lineOf
  rw [hd, Bool.not_true, if_neg Bool.false_ne_true, hm, hlive, if_pos (by rfl)]
  exact List.mem_cons_of_mem _ List.mem_cons_self

theorem sliceVictimEviction_happens (slice set line : Nat) (l : L2Line) : Happens (.sliceVictimEviction slice set)
    (fun s => wayWanted s slice set = true ∧ sliceVictim s slice set = some (line, l) ∧ s.mem.l2.find line = some l ∧ s.mem.hbm.wf = true ∧
      (l.dirty = true → s.dramOpen line = true))
    (fun s t =>
      let partner := mirrorPartner (line * 128)
      t.mem.l2.find line = none ∧ (∀ c < 128, l.sharers.getLsbD c = true → t.l1Line c line = none) ∧
      (∀ a, a / 128 ≠ line → (l.mirror = true → a / 128 ≠ partner / 128) → t.homeByte a = s.homeByte a ∧ t.homePoison a = s.homePoison a) ∧
      (l.dirty = true → l.data.length = 128 → partner / 128 ≠ line →
        (∀ a, a / 128 = line → t.homeByte a = s.homeByte a ∧ t.homePoison a = s.homePoison a) ∧
        (l.mirror = true → s.dieDead (partner / 128 * 128) = false → ∀ i < 128, l.have'.getLsbD (i / 32) = true →
          t.mem.hbm.read (partner / 128 * 128 + i) = l.data.getD i 0)) ∧ t.mem.ops = s.mem.ops) := by
  refine happens_of (fun s => rfl) fun s ⟨hwanted, hv, hl, hw, hopen⟩ => ?_
  have hvopen : victimOpen s slice set = true := by
    unfold victimOpen
    rw [hv]
    cases hd : l.dirty
    · simp [hd]
    · simp [hd, hopen hd]
  rw [if_pos (by rw [hwanted, hvopen]; rfl)]
  have h := victimEffect_gone hv hw
  refine ⟨h.find, h.l1, fun a hline hpartner => ?_, fun hd hlen _ => ⟨fun a hline => ?_, fun hm hlive i hi hheld => ?_⟩, h.ops⟩
  · exact h.others hline fun hmem => (mem_writeBackLines hmem).elim hline fun hk => hpartner hk.1 hk.2
  · exact h.same hline (writeBackLines_self s hd) (l2Line_of_find hl) hlen
  · have hmod : (mirrorPartner (line * 128) / 128 * 128 + i) % 128 = i := by omega
    have hdiv : (mirrorPartner (line * 128) / 128 * 128 + i) / 128 = mirrorPartner (line * 128) / 128 := by omega
    have hholds : l.holds (mirrorPartner (line * 128) / 128 * 128 + i) = true := by
      unfold L2Line.holds
      rwa [hmod]
    rw [h.read, hdiv, hmod, if_pos ⟨writeBackLines_partner hd hm hlive, hholds, by omega⟩]

end Sys2Proof.Machine
end

section
/-! The write queues of the slices: arrivals (R189), and the end of gather mode (R117). -/

namespace Sys2Proof.Machine

/-! GATHER_MERGE (R117). -/

/-- A change of a line at its slice that keeps its bytes, its sectors and their poison. -/
theorem ReadsAlike.setL2 {s : State} {line : Nat} {l m : L2Line} (h : s.mem.l2.find line = some l) (hd : m.data = l.data) (hh : m.have' = l.have')
    (hp : m.poison = l.poison) : ReadsAlike s (s.setL2 line m) := by
  have hl := l2Line_of_find h
  refine ⟨rfl, rfl, fun a => ?_, fun a => ?_⟩
  · rw [homeByte_setL2]
    split
    next hline => rw [homeByte_eq, hline, hl, hd, hh]
    next => rfl
  · rw [homePoison_setL2]
    split
    next hline => rw [homePoison_eq, hline, hl, hh, hp]
    next => rfl

theorem gatherMerge_happens (line : Nat) : Happens (.gatherMerge line) (fun s => gatherMergeReady s line = true) (fun s t => SameHome s t ∧
    (∀ l, s.mem.l2.find line = some l → t.mem.l2.find line = some { l with gather := none, sharers := 0 }) ∧
    (∀ c < 128, t.l1Line c line = none) ∧
    t = { s with
      mem := { s.mem with l1 := t.mem.l1, l2 := t.mem.l2 }
      thr := { s.thr with warps := t.thr.warps } }) := by
  refine happens_of (fun s => rfl) fun s hr => ?_
  rw [if_pos hr]
  unfold gatherMergeReady at hr
  split at hr
  next l hl =>
    have hlost := invalidateL1s_lost s (List.range 128) line
    unfold gatherMergeEffect
    rw [hl]
    dsimp only
    generalize s.invalidateL1s (List.range 128) line = u at hlost ⊢
    have hlu : u.mem.l2.find line = some l := by rw [hlost.l2, hl]
    refine ⟨(hlost.readsAlike.trans (.setL2 (m := { l with gather := none, sharers := 0 }) hlu rfl rfl rfl)).sameHome, fun x hx => ?_, fun c hc => ?_, ?_⟩
    · cases hx
      exact NMap.find_insert_self ..
    · exact hlost.gone _ (List.mem_map.2 ⟨c, List.mem_range.2 hc, rfl⟩)
    · have hrest := hlost.rest
      unfold State.setL2
      rw [hrest]
  next => cases hr

/-! SLICE_WRITE_ARRIVAL (R189). -/

theorem find_of_mem {α : Type} {m : NMap α} (h : m.wf = true) {k : Nat} {v : α} (hx : (k, v) ∈ m) : m.find k = some v := by
  induction m with
  | nil => cases hx
  | cons x m ih =>
    obtain ⟨j, u⟩ := x
    obtain ⟨habove, hw⟩ := NMap.wf_cons.1 h
    unfold NMap.find
    rcases List.mem_cons.1 hx with he | hm
    · cases he
      exact if_pos rfl
    · rw [if_neg (Nat.ne_of_lt (habove _ hm))]
      exact ih hw hm

theorem writeOp_of_find {s : State} {j : Nat} {w : WriteOp} (h : s.mem.ops.find j = some (.write w)) : s.writeOp j = some w := by
  unfold State.writeOp
  rw [h]

theorem find_of_writeOp {s : State} {j : Nat} {w : WriteOp} (h : s.writeOp j = some w) : s.mem.ops.find j = some (.write w) := by
  unfold State.writeOp at h
  split at h
  next hf => rw [hf, Option.some.inj h]
  next => cases h

/-- A write of the batch of another is in flight. -/
theorem batchOf_writeOp {s : State} {id j : Nat} {w v : WriteOp} (hw : s.mem.ops.wf = true) (hid : s.writeOp id = some w)
    (hj : (j, v) ∈ batchOf s id w) : s.writeOp j = some v := by
  unfold batchOf at hj
  split at hj
  · cases List.mem_singleton.1 hj
    exact hid
  · obtain ⟨⟨k, o⟩, hmem, ho⟩ := List.mem_filterMap.1 hj
    cases o with
    | load l => cases ho
    | write x =>
      obtain ⟨-, he⟩ := Option.ite_none_right_eq_some.1 ho
      cases he
      exact writeOp_of_find (find_of_mem hw hmem)

/-- t is s after writes have joined the queue: its entries have grown, and no write has left it. -/
structure QueueGrown (s t : State) : Prop where
  rest : t = { s with mem := { s.mem with ops := t.mem.ops, queue := t.mem.queue }, thr := { s.thr with warps := t.thr.warps } }
  entries : ∀ e ∈ s.mem.queue, ∃ q ∈ t.mem.queue, q.line = e.line ∧ e.ops ⊆ q.ops ∧ e.folded ⊆ q.folded
  writes : ∀ j v, s.writeOp j = some v → ∃ x, t.writeOp j = some x ∧ (v.stage = .queued → x.stage = .queued)

/-- A write waits in the queue, in an entry of a line. -/
def State.queuedAt (s : State) (j line : Nat) : Prop :=
  (∃ x, s.writeOp j = some x ∧ x.stage = .queued) ∧ ∃ e ∈ s.mem.queue, e.line = line ∧ (j ∈ e.ops ∨ j ∈ e.folded)

namespace QueueGrown

theorem refl (s : State) : QueueGrown s s := ⟨rfl, fun e he => ⟨e, he, rfl, List.Subset.refl _, List.Subset.refl _⟩, fun _ v h => ⟨v, h, id⟩⟩

theorem trans {s t u : State} (h : QueueGrown s t) (h' : QueueGrown t u) : QueueGrown s u := by
  refine ⟨by rw [h'.rest, h.rest], fun e he => ?_, fun j v hv => ?_⟩
  · obtain ⟨q, hq, hl, ho, hf⟩ := h.entries e he
    obtain ⟨r, hr, hl', ho', hf'⟩ := h'.entries q hq
    exact ⟨r, hr, hl'.trans hl, List.Subset.trans ho ho', List.Subset.trans hf hf'⟩
  · obtain ⟨x, hx, hs⟩ := h.writes j v hv
    obtain ⟨y, hy, hs'⟩ := h'.writes j x hx
    exact ⟨y, hy, hs' ∘ hs⟩

theorem queuedAt {s t : State} (h : QueueGrown s t) {j line : Nat} (hj : s.queuedAt j line) : t.queuedAt j line := by
  obtain ⟨⟨v, hv, hs⟩, e, he, hl, hin⟩ := hj
  obtain ⟨x, hx, hsx⟩ := h.writes j v hv
  obtain ⟨q, hq, hlq, ho, hf⟩ := h.entries e he
  exact ⟨⟨x, hx, hsx hs⟩, q, hq, hlq.trans hl, hin.imp (@ho j) (@hf j)⟩

theorem wakeCore (s : State) (core line : Nat) : QueueGrown s (s.wakeCore core line) :=
  ⟨rfl, fun e he => ⟨e, he, rfl, List.Subset.refl _, List.Subset.refl _⟩, fun _ v h => ⟨v, h, id⟩⟩

/-- A change of a write in flight that keeps its place. -/
theorem onOp (s : State) (id : Nat) {f : MemOp → MemOp} (hf : ∀ w, ∃ x, f (.write w) = .write x ∧ (w.stage = .queued → x.stage = .queued)) :
    QueueGrown s (s.onOp id f) := by
  refine ⟨rfl, fun e he => ⟨e, he, rfl, List.Subset.refl _, List.Subset.refl _⟩, fun j v hv => ?_⟩
  have hfind := find_of_writeOp hv
  by_cases hj : j = id
  · subst hj
    obtain ⟨x, hx, hs⟩ := hf v
    refine ⟨x, writeOp_of_find ?_, hs⟩
    rw [← hx]
    exact (NMap.find_adjust_self ..).trans (by rw [hfind]; rfl)
  · exact ⟨v, writeOp_of_find ((NMap.find_adjust_ne hj ..).trans hfind), fun h => h⟩

/-- An entry grows. -/
theorem mapQueue (s : State) (e : QueueEntry) (g : QueueEntry → QueueEntry) (hl : ∀ q, (g q).line = q.line) (ho : ∀ q, q.ops ⊆ (g q).ops)
    (hf : ∀ q, q.folded ⊆ (g q).folded) :
    QueueGrown s { s with mem := { s.mem with queue := s.mem.queue.map fun q => if q == e then g q else q } } := by
  refine ⟨rfl, fun q hq => ⟨_, List.mem_map.2 ⟨q, hq, rfl⟩, ?_⟩, fun _ v h => ⟨v, h, id⟩⟩
  split
  · exact ⟨hl q, ho q, hf q⟩
  · exact ⟨rfl, List.Subset.refl _, List.Subset.refl _⟩

end QueueGrown

/-- A write joins an entry of its line. -/
def State.hasJoined (s : State) (j line : Nat) : Prop := ∃ e ∈ s.mem.queue, e.line = line ∧ (j ∈ e.ops ∨ j ∈ e.folded)

theorem mapQueue_joined {s : State} {e : QueueEntry} {line id : Nat} (he : e ∈ s.mem.queue) (hline : e.line = line)
    {g : QueueEntry → QueueEntry} (hl : (g e).line = e.line) (hid : id ∈ (g e).ops ∨ id ∈ (g e).folded) :
    State.hasJoined { s with mem := { s.mem with queue := s.mem.queue.map fun q => if q == e then g q else q } } id line :=
  ⟨g e, List.mem_map.2 ⟨e, he, if_pos (beq_self_eq_true e)⟩, hl.trans hline, hid⟩

/-- The last operation of an entry, once a further write has been folded into it. -/
def foldIn (v w : WriteOp) (o : MemOp) : MemOp :=
  match o, v.atom, w.atom with
  | .write v, some (op, b, x), some (_, b2, _) => .write { v with atom := some (op, newValue v op v.data.length b b2 0, x) }
  | o, _, _ => o

theorem foldIn_write (v w x : WriteOp) : ∃ y, foldIn v w (.write x) = .write y ∧ y.stage = x.stage := by
  unfold foldIn
  cases v.atom with
  | none => exact ⟨x, rfl, rfl⟩
  | some a =>
    cases w.atom with
    | none => exact ⟨x, rfl, rfl⟩
    | some b => exact ⟨_, rfl, rfl⟩

/-- The end of an arrival: the write takes an entry, joins one, or folds into its last operation. -/
def joinQueue (s : State) (id : Nat) (w : WriteOp) : State :=
  match (s.mem.queue.filter fun e => e.line == lineOf w.pa && entryTakes s e w.atom.isSome).getLast? with
  | none => { s with mem := { s.mem with queue := s.mem.queue ++ [⟨lineOf w.pa, [id], []⟩] } }
  | some e =>
    match e.ops.getLast?.bind fun j => (s.writeOp j).map fun v => (j, v) with
    | some (j, v) =>
      if foldsInto v w then
        let s := s.onOp j (foldIn v w)
        { s with mem := { s.mem with queue := s.mem.queue.map fun q => if q == e then { q with folded := q.folded ++ [id] } else q } }
      else { s with mem := { s.mem with queue := s.mem.queue.map fun q => if q == e then { q with ops := q.ops ++ [id] } else q } }
    | none => { s with mem := { s.mem with queue := s.mem.queue.map fun q => if q == e then { q with ops := q.ops ++ [id] } else q } }

/-- A store that waited at its port becomes visible to its own core at its arrival (R128, R368). -/
def wakeOwn (s : State) (w : WriteOp) : State :=
  match w.agent.core with
  | some c => if w.after.isEmpty || w.atom.isSome then s else s.wakeCore c (lineOf w.pa)
  | none => s

theorem writeArrivalEffect_eq (s : State) (id : Nat) (w : WriteOp) :
    writeArrivalEffect s id w = joinQueue (wakeOwn (setStage s id .queued) w) id w := rfl

theorem joinQueue_grown (s : State) (id : Nat) (w : WriteOp) : QueueGrown s (joinQueue s id w) ∧ (joinQueue s id w).hasJoined id (lineOf w.pa) := by
  have hops : ∀ e, QueueGrown s { s with mem := { s.mem with queue := s.mem.queue.map fun q => if q == e then { q with ops := q.ops ++ [id] } else q } } :=
    fun e => .mapQueue s e _ (fun _ => rfl) (fun _ => List.subset_append_left ..) fun _ => List.Subset.refl _
  unfold joinQueue
  split
  next =>
    refine ⟨⟨rfl, fun e he => ⟨e, List.mem_append_left _ he, rfl, List.Subset.refl _, List.Subset.refl _⟩, fun _ v h => ⟨v, h, fun h => h⟩⟩, ?_⟩
    exact ⟨_, List.mem_append_right _ (List.mem_singleton_self _), rfl, .inl (List.mem_singleton_self _)⟩
  next e hlast =>
    obtain ⟨he, hc⟩ := List.mem_filter.1 (List.mem_of_getLast? hlast)
    have hline : e.line = lineOf w.pa := beq_iff_eq.1 (Bool.and_eq_true_iff.1 hc).1
    have hmine : ∀ ids : List Nat, id ∈ ids ++ [id] := fun _ => List.mem_append_right _ (List.mem_singleton_self _)
    split
    next j v _ =>
      split
      · refine ⟨(QueueGrown.onOp s j fun x => ?_).trans (.mapQueue _ e _ (fun _ => rfl) (fun _ => List.Subset.refl _) fun _ => List.subset_append_left ..), ?_⟩
        · obtain ⟨y, hy, hs⟩ := foldIn_write v w x
          exact ⟨y, hy, hs.trans⟩
        · exact mapQueue_joined (s := s.onOp j (foldIn v w)) he hline rfl (.inr (hmine _))
      · exact ⟨hops e, mapQueue_joined he hline rfl (.inl (hmine _))⟩
    next => exact ⟨hops e, mapQueue_joined he hline rfl (.inl (hmine _))⟩

/-! The stage of a write. -/

theorem writeOp_setStage (s : State) (id j : Nat) (st : WriteStage) :
    (setStage s id st).writeOp j = (s.writeOp j).map fun w => if j = id then { w with stage := st } else w := by
  unfold setStage State.onOp State.writeOp
  dsimp only
  by_cases hj : j = id
  · subst hj
    rw [NMap.find_adjust_self]
    rcases s.mem.ops.find j with _ | (_ | _) <;> simp
  · rw [NMap.find_adjust_ne hj]
    rcases s.mem.ops.find j with _ | (_ | _) <;> simp [hj]

theorem setStage_grown (s : State) (id : Nat) : QueueGrown s (setStage s id .queued) :=
  .onOp s id fun w => ⟨{ w with stage := .queued }, rfl, fun _ => rfl⟩

theorem wakeOwn_grown (s : State) (w : WriteOp) : QueueGrown s (wakeOwn s w) := by
  unfold wakeOwn
  split
  · split
    · exact .refl s
    · exact .wakeCore ..
  · exact .refl s

/-- An arrival lets the queue grow, and a write in flight waits there after its own (R189). -/
theorem writeArrivalEffect_grown (s : State) (id : Nat) (w : WriteOp) : QueueGrown s (writeArrivalEffect s id w) ∧
    ∀ v, s.writeOp id = some v → (writeArrivalEffect s id w).queuedAt id (lineOf w.pa) := by
  rw [writeArrivalEffect_eq]
  obtain ⟨hgrown, hjoined⟩ := joinQueue_grown (wakeOwn (setStage s id .queued) w) id w
  have hwake := wakeOwn_grown (setStage s id .queued) w
  refine ⟨((setStage_grown s id).trans hwake).trans hgrown, fun v hv => ⟨?_, hjoined⟩⟩
  obtain ⟨x, hx, hs⟩ := (hwake.trans hgrown).writes id { v with stage := .queued } (by
    rw [writeOp_setStage, hv, Option.map_some, if_pos rfl])
  exact ⟨x, hx, hs rfl⟩

/-- The arrivals of the writes of a batch. -/
theorem foldl_writeArrivalEffect (xs : List (Nat × WriteOp)) (s : State) (hxs : ∀ x ∈ xs, ∃ v, s.writeOp x.1 = some v) :
    QueueGrown s (xs.foldl (fun s x => writeArrivalEffect s x.1 x.2) s) ∧
    ∀ x ∈ xs, (xs.foldl (fun s x => writeArrivalEffect s x.1 x.2) s).queuedAt x.1 (lineOf x.2.pa) := by
  induction xs generalizing s with
  | nil => exact ⟨.refl s, fun _ hx => absurd hx List.not_mem_nil⟩
  | cons x xs ih =>
    obtain ⟨hgrown, hqueued⟩ := writeArrivalEffect_grown s x.1 x.2
    obtain ⟨hgrown', hqueued'⟩ := ih (writeArrivalEffect s x.1 x.2) fun y hy => by
      obtain ⟨v, hv⟩ := hxs y (List.mem_cons_of_mem _ hy)
      obtain ⟨u, hu, -⟩ := hgrown.writes _ v hv
      exact ⟨u, hu⟩
    refine ⟨hgrown.trans hgrown', fun y hy => ?_⟩
    rcases List.mem_cons.1 hy with rfl | hy
    · obtain ⟨v, hv⟩ := hxs y List.mem_cons_self
      exact hgrown'.queuedAt (hqueued v hv)
    · exact hqueued' y hy

theorem sliceWriteArrival_happens (port : Nat) : Happens (.sliceWriteArrival port)
    (fun s => s.mem.ops.wf = true ∧ ∃ w, s.writeOp port = some w ∧ writeArrivalReady s port w = true) (fun s t =>
      (∀ w, s.writeOp port = some w → ∀ j v, (j, v) ∈ batchOf s port w →
        (∃ x, t.writeOp j = some x ∧ x.stage = .queued) ∧ ∃ e ∈ t.mem.queue, e.line = v.pa / 128 ∧ (j ∈ e.ops ∨ j ∈ e.folded)) ∧
      t = { s with
        mem := { s.mem with ops := t.mem.ops, queue := t.mem.queue }
        thr := { s.thr with warps := t.thr.warps } }) := by
  refine happens_of (fun s => rfl) fun s ⟨hwf, w, hw, hr⟩ => ?_
  rw [hw]
  dsimp only
  rw [if_pos hr]
  obtain ⟨hgrown, hqueued⟩ := foldl_writeArrivalEffect (batchOf s port w) s fun x hx => ⟨x.2, batchOf_writeOp hwf hw hx⟩
  refine ⟨fun u hu j v hj => ?_, hgrown.rest⟩
  cases hu
  exact hqueued (j, v) hj

end Sys2Proof.Machine
end

section
/-! The application of a queue's head entry (R115 to R118, R189). -/

namespace Sys2Proof.Machine

/-- t has the accesses and the write queues of s, and gives out no number that s had given. -/
structure WritesStand (s t : State) : Prop where
  ops : t.mem.ops = s.mem.ops
  queue : t.mem.queue = s.mem.queue
  fresh : s.fresh ≤ t.fresh

namespace WritesStand

theorem refl (s : State) : WritesStand s s := ⟨rfl, rfl, Nat.le_refl _⟩

theorem trans {s t u : State} (h : WritesStand s t) (h' : WritesStand t u) : WritesStand s u :=
  ⟨h'.ops.trans h.ops, h'.queue.trans h.queue, Nat.le_trans h.fresh h'.fresh⟩

/-- A change elsewhere. -/
theorem of_eq {s t : State} (ho : t.mem.ops = s.mem.ops) (hq : t.mem.queue = s.mem.queue) (hf : t.fresh = s.fresh) : WritesStand s t :=
  ⟨ho, hq, Nat.le_of_eq hf.symm⟩

theorem foldl {α : Type} {f : State → α → State} (hf : ∀ s x, WritesStand s (f s x)) (s : State) (xs : List α) : WritesStand s (xs.foldl f s) := by
  induction xs generalizing s with
  | nil => exact refl s
  | cons x xs ih => exact (hf s x).trans (ih _)

theorem ite {c : Prop} [Decidable c] {s t u : State} (h : WritesStand s t) (h' : WritesStand s u) : WritesStand s (if c then t else u) := by
  split
  · exact h
  · exact h'

theorem of_copies {s t : State} {ks : List Nat} (h : CopiesLost s t ks) : WritesStand s t := by
  rw [h.rest]
  exact of_eq rfl rfl rfl

theorem of_lines {s t : State} {l : L2Line} {ks : List Nat} (h : LinesWritten s t l ks) : WritesStand s t := by
  rw [h.rest]
  exact of_eq rfl rfl rfl

/-! Writes at the slices. -/

theorem makeWay (s : State) (line : Nat) : WritesStand s (s.makeWay line) := by
  unfold State.makeWay victimEffect
  refine ite (refl s) ?_
  split
  · exact refl s
  · exact ((of_copies (invalidateL1s_lost ..)).trans (of_lines (writeBack_written ..))).trans (of_eq rfl rfl rfl)

theorem sliceWrite (s : State) (pa : Nat) (bs : List Byte) (p : Bool) : WritesStand s (s.sliceWrite pa bs p) := by
  unfold State.sliceWrite
  exact ite ⟨rfl, rfl, Nat.le_succ _⟩ ⟨rfl, rfl, Nat.le_succ _⟩

theorem request_if (c : Prop) [Decidable c] (s : State) (line : Nat) : WritesStand s (if c then s.dramRequest line else s) :=
  ite (of_eq rfl rfl rfl) (refl s)

/-- The bytes go to the slice, to the stack, or nowhere. -/
theorem placed (s : State) (pa : Nat) (bs : List Byte) (p : Bool) : WritesStand s
    (if sliceHasWay s (lineOf pa) then s.sliceWrite pa bs p else if s.dieDead pa then s else s.onHbm fun m => m.writePoison 32 pa bs p) :=
  ite (sliceWrite ..) (ite (refl s) (of_eq rfl rfl rfl))

theorem slicePut (s : State) (pa : Nat) (bs : List Byte) (p : Bool) : WritesStand s (s.slicePut pa bs p) := by
  unfold State.slicePut
  exact (makeWay s (lineOf pa)).trans ((request_if ..).trans (placed ..))

theorem mirrorWrite (s : State) (id : Nat) (w : WriteOp) (bs : List Byte) (old : Option (List PWord)) :
    WritesStand s (mirrorWrite s id w bs old) := by
  unfold Machine.mirrorWrite
  refine ite (refl s) ((slicePut s (mirrorPartner w.pa) bs w.poison).trans ?_)
  dsimp only
  split <;> exact of_eq rfl rfl rfl

theorem notePoison (s : State) (a : Agent) : WritesStand s (s.notePoison a) := by
  unfold State.notePoison
  split
  · exact of_eq rfl rfl rfl
  · exact of_eq rfl rfl rfl
  · exact refl s

theorem deliver (s : State) (agent : Agent) (id : Nat) (lanes : List Nat) (dest : Dest) (vals : List PWord) :
    WritesStand s (deliver s agent id lanes dest vals) := by
  rw [deliver_rest]
  exact of_eq rfl rfl rfl

theorem applyWrite (s : State) (id : Nat) (w : WriteOp) : WritesStand s (applyWrite s id w) := by
  unfold Machine.applyWrite
  split
  next => exact (sliceWrite ..).trans (mirrorWrite ..)
  next op b e _ =>
    dsimp only
    generalize s.homeNat w.pa w.data.length = r
    generalize hu : (if r.2 = true then _ else _) = u
    have hnew : WritesStand s u := by
      rw [← hu]
      refine ite (notePoison ..) (ite ?_ ?_)
      · exact ((sliceWrite ..).trans (notePoison ..)).trans (mirrorWrite ..)
      · exact (sliceWrite ..).trans (mirrorWrite ..)
    refine hnew.trans ((deliver u w.agent id w.lanes w.dest (valueWords w.data.length r.1 r.2)).trans ?_)
    split
    · exact ite (refl _) (of_eq rfl rfl rfl)
    · exact refl _

theorem cleanSectors (s : State) (line : Nat) (m : BitVec 128) : WritesStand s (s.cleanSectors line m) := by
  unfold State.cleanSectors
  split
  · exact refl s
  · exact ite (refl s) (of_eq rfl rfl rfl)

theorem applyNext (line : Nat) (acc : State × BitVec 128) (x : Nat × WriteOp) : WritesStand acc.1 (applyNext line acc x).1 := by
  unfold Machine.applyNext
  exact (applyWrite acc.1 x.1 x.2).trans ((cleanSectors ..).trans (ite (cleanSectors ..) (refl _)))

theorem foldl_applyNext (line : Nat) (ws : List (Nat × WriteOp)) (acc : State × BitVec 128) : WritesStand acc.1 (ws.foldl (Machine.applyNext line) acc).1 := by
  induction ws generalizing acc with
  | nil => exact refl _
  | cons x ws ih => exact (applyNext line acc x).trans (ih _)

/-! Gather mode. -/

theorem enterGather (s : State) (line : Nat) (writers : List Nat) : WritesStand s (enterGather s line writers) := by
  unfold Machine.enterGather
  split
  · exact refl s
  · exact (of_copies (invalidateL1s_lost ..)).trans (of_eq rfl rfl rfl)

theorem refreshOwn (s : State) (line : Nat) (ws : List (Nat × WriteOp)) : WritesStand s (refreshOwn s line ws) := by
  unfold Machine.refreshOwn
  refine foldl (fun s x => ?_) s ws
  dsimp only
  split
  · exact of_eq rfl rfl rfl
  · exact refl s

theorem updates (s : State) (us : NMap Update) : WritesStand s { s with mem := { s.mem with updates := us } } := of_eq rfl rfl rfl

theorem setL2 (s : State) (line : Nat) (l : L2Line) : WritesStand s (s.setL2 line l) := of_eq rfl rfl rfl

theorem onL1s (s : State) (line : Nat) (f : Nat → L1Line → L1Line) (cs : List Nat) :
    WritesStand s (cs.foldl (fun s c => s.onL1 c line (f c)) s) := foldl (f := fun s c => s.onL1 c line (f c)) (fun _ _ => of_eq rfl rfl rfl) s cs

theorem invalidateBytes (s : State) (line : Nat) (ws : List (Nat × WriteOp)) : WritesStand s (invalidateBytes s line ws) := by
  unfold Machine.invalidateBytes
  exact (onL1s s line _ (List.range 128)).trans (updates ..)

theorem countRefusals (s : State) (cs : List Nat) : WritesStand s (cs.foldl countRefusal s) := foldl (f := countRefusal) (fun _ _ => of_eq rfl rfl rfl) s cs

end WritesStand

/-! The two halves of an application: the writes take effect, then their update goes out. -/

/-- An entry's line enters gather mode where its stores meet another core's, and the entry leaves its queue (R116). -/
def takeEntry (s : State) (e : QueueEntry) : State :=
  let s := match gatherEntry s e with
    | some writers => enterGather s e.line writers
    | none => s
  { s with mem := { s.mem with queue := s.mem.queue.erase e } }

/-- The writes of an entry take effect (R115, R189). -/
def applyEntry (s : State) (e : QueueEntry) (ws : List (Nat × WriteOp)) : State :=
  let s := (ws.foldl (applyNext e.line) (takeEntry s e, 0)).1
  let s := (e.ops ++ e.folded).foldl (fun s id => setStage s id .applied) s
  refreshOwn s e.line ws

/-- The update of an entry goes out (R115 to R118). -/
def sendUpdate (s : State) (e : QueueEntry) (ws : List (Nat × WriteOp)) : State :=
  let l := (s.mem.l2.find e.line).getD L2Line.empty
  let mask := ws.foldl (fun (b : BitVec 128) (_, w) => b ||| w.mask) 0
  let (data, poison) := s.homeLine e.line
  let (id, s) := s.take
  match l.gather with
  | some (slot, ms) =>
    let ms := (gatherAll ms ws).getD ms
    let s := s.setL2 e.line { l with gather := some (slot, ms) }
    let s := ((graftReceivers ws).filter fun c => !ms.any fun x => x.1 == c).foldl countRefusal (invalidateBytes s e.line ws)
    { s with mem := { s.mem with updates := s.mem.updates.insert id ⟨e.line, mask, data, poison, false, [], [], [], e.ops ++ e.folded⟩ } }
  | none =>
    let hold := ws.any fun (_, w) => w.kind != 2
    let u : Update := ⟨e.line, mask, data, poison, hold, updateTargets l.sharers ws, [], graftReceivers ws, e.ops ++ e.folded⟩
    { s with mem := { s.mem with updates := s.mem.updates.insert id u } }

theorem queueApplyEffect_eq {s : State} {slice : Nat} {e : QueueEntry} (h : queueHead s slice = some e) :
    queueApplyEffect s slice = sendUpdate (applyEntry s e (entryWrites s e)) e (entryWrites s e) := by
  unfold queueApplyEffect
  rw [h]
  rfl

theorem takeEntry_stands (s : State) (e : QueueEntry) : (takeEntry s e).mem.ops = s.mem.ops ∧ (takeEntry s e).mem.queue = s.mem.queue.erase e ∧
    s.fresh ≤ (takeEntry s e).fresh := by
  have hgather : WritesStand s (match gatherEntry s e with
    | some writers => enterGather s e.line writers
    | none => s) := by
    split
    · exact .enterGather ..
    · exact .refl s
  exact ⟨hgather.ops, congrArg (List.erase · e) hgather.queue, hgather.fresh⟩

/-- The stages of several writes. -/
theorem writeOp_foldl_setStage (ids : List Nat) (st : WriteStage) (s : State) (j : Nat) :
    (ids.foldl (fun s id => setStage s id st) s).writeOp j = (s.writeOp j).map fun w => if j ∈ ids then { w with stage := st } else w := by
  induction ids generalizing s with
  | nil => simp
  | cons id ids ih =>
    rw [List.foldl_cons, ih, writeOp_setStage, Option.map_map]
    congr 1
    funext w
    by_cases hid : j = id <;> by_cases hids : j ∈ ids <;> simp [hid, hids]

/-- A change of stages leaves everything but the accesses. -/
theorem foldl_setStage_rest (ids : List Nat) (st : WriteStage) (s : State) : ids.foldl (fun s id => setStage s id st) s =
    { s with mem := { s.mem with ops := (ids.foldl (fun s id => setStage s id st) s).mem.ops } } := by
  induction ids generalizing s with
  | nil => rfl
  | cons id ids ih => exact (ih _).trans rfl

theorem applyEntry_applied (s : State) (e : QueueEntry) (ws : List (Nat × WriteOp)) : (applyEntry s e ws).mem.queue = s.mem.queue.erase e ∧
    s.fresh ≤ (applyEntry s e ws).fresh ∧ ∀ j ∈ e.ops ++ e.folded, ∀ w, (applyEntry s e ws).writeOp j = some w → w.stage = .applied := by
  obtain ⟨-, hqueue, hfresh⟩ := takeEntry_stands s e
  have happly := WritesStand.foldl_applyNext e.line ws (takeEntry s e, 0)
  unfold applyEntry
  dsimp only
  generalize (ws.foldl (applyNext e.line) (takeEntry s e, 0)).1 = u at happly ⊢
  have hown := WritesStand.refreshOwn ((e.ops ++ e.folded).foldl (fun s id => setStage s id .applied) u) e.line ws
  have hstage := foldl_setStage_rest (e.ops ++ e.folded) .applied u
  refine ⟨?_, ?_, fun j hj w hw => ?_⟩
  · rw [hown.queue, hstage]
    exact happly.queue.trans hqueue
  · refine Nat.le_trans (Nat.le_trans hfresh happly.fresh) ?_
    refine Nat.le_trans ?_ hown.fresh
    rw [hstage]
  · unfold State.writeOp at hw
    rw [hown.ops] at hw
    have hw' := (writeOp_foldl_setStage (e.ops ++ e.folded) .applied u j).symm.trans hw
    obtain ⟨v, -, rfl⟩ := Option.map_eq_some_iff.1 hw'
    rw [if_pos hj]

theorem sendUpdate_sent (s : State) (e : QueueEntry) (ws : List (Nat × WriteOp)) : WritesStand s (sendUpdate s e ws) ∧
    ∃ u, (sendUpdate s e ws).mem.updates.find s.fresh = some u ∧ u.line = e.line ∧ u.writes = e.ops ++ e.folded := by
  have htake : WritesStand s s.take.2 := ⟨rfl, rfl, Nat.le_succ _⟩
  unfold sendUpdate
  dsimp only
  split
  next slot ms _ =>
    refine ⟨htake.trans ((WritesStand.setL2 ..).trans ((WritesStand.invalidateBytes ..).trans ((WritesStand.countRefusals ..).trans (.updates ..)))), ?_⟩
    exact ⟨_, NMap.find_insert_self .., rfl, rfl⟩
  next => exact ⟨htake.trans (.updates ..), _, NMap.find_insert_self .., rfl, rfl⟩

theorem writeQueueApply_happens (slice : Nat) : Happens (.writeQueueApply slice) (fun s => queueApplyReady s slice = true) (fun s t =>
    ∀ e, queueHead s slice = some e →
      t.mem.queue = s.mem.queue.erase e ∧ (∀ j ∈ e.ops ++ e.folded, ∀ w, t.writeOp j = some w → w.stage = .applied) ∧
      ∃ j ≥ s.fresh, ∃ u, t.mem.updates.find j = some u ∧ u.line = e.line ∧ u.writes = e.ops ++ e.folded) := by
  refine happens_of (fun s => rfl) fun s hr => ?_
  rw [if_pos hr]
  intro e he
  rw [queueApplyEffect_eq he]
  obtain ⟨hqueue, hfresh, happlied⟩ := applyEntry_applied s e (entryWrites s e)
  obtain ⟨hstand, u, hu, hline, hwrites⟩ := sendUpdate_sent (applyEntry s e (entryWrites s e)) e (entryWrites s e)
  refine ⟨hstand.queue.trans hqueue, fun j hj w hw => happlied j hj w ?_, _, hfresh, u, hu, hline, hwrites⟩
  rw [← hw]
  unfold State.writeOp
  rw [hstand.ops]

/-! The obligation. -/

/-- Settles O34, from the reads of a slice after a write there and one lemma for each event of a slice. -/
theorem sliceEvents : Obligations.SliceEvents := by
  unfold Obligations.SliceEvents
  refine ⟨fun s pa bs p hle hd => ?_, fun port slice line set corrected bad sector ecc => ?_⟩
  · exact ⟨sliceWrite_homeByte p hd hle, sliceWrite_homePoison p hd hle, sliceWrite_rest bs p hd⟩
  · exact ⟨sliceWriteArrival_happens port, writeQueueApply_happens slice, gatherMerge_happens line, sliceFill_happens line corrected bad,
      partialSectorMerge_happens line sector ecc, sliceVictimEviction_happens slice set line⟩

end Sys2Proof.Machine
end
